-- ==== Sys2Proof/Word.lean ====
section
/-! DEFINITION. The plain types of the Balzin-80 model: bytes, words and the device's numbered things (R12 to R20). -/

namespace Sys2Proof

/-- One byte. -/
abbrev Byte := BitVec 8

/-- A run of bytes, lowest address first (R8). -/
abbrev Bytes := List (BitVec 8)

abbrev Word16 := BitVec 16
abbrev Word32 := BitVec 32
abbrev Word64 := BitVec 64

/-- A PCIe port: 0 is Port A, 1 is Port B. -/
abbrev Port := Fin 2

/-- A partition, 0 to 3 (R386). -/
abbrev Part := Fin 4

/-- A quadrant q0 to q3 (R12). -/
abbrev Quad := Fin 4

/-- An HBM3 stack (R13). -/
abbrev Stack := Fin 8

/-- A fabric port (R18). -/
abbrev FPort := Fin 16

/-- A lane of a fabric port (R18). -/
abbrev Lane := Fin 8

/-- A virtual channel (R338). -/
abbrev Vc := Fin 16

/-- A traffic class: 0 request, 1 reply, 2 collective, 3 system (R316). -/
abbrev Cls := Fin 4

/-- A Ligature engine (R228). -/
abbrev Engine := Fin 8

/-- A power domain number (R416). -/
abbrev Domain := Fin 73

/-- A physical coordinate z * 64 + y * 8 + x (R328). -/
abbrev Coord := BitVec 9

/-- A role stamp: JOB_ID above ROLE_GEN (R183). -/
abbrev Stamp := BitVec 32

/-- A handle of a long operation or a folio (R62, R396). -/
abbrev Handle := BitVec 32

end Sys2Proof
end

