-- ==== Sys2Proof/Syntax.lean ====
section
/-! DEFINITION. The commands of the block: one constructor of Instr per row of spec/opcode_table.json, with the operands
that come from outside: what a pin does, what a DMA read of host memory returns, what a sensor reads, which waiting
thing is served next. -/

namespace Sys2Proof

/-- A ring of a partition (R389). -/
inductive RingId where
  | sq (n : Fin 16)
  | cq (n : Fin 16)
  | eq
  | fmtx
  | fmrx
deriving DecidableEq, Repr

/-- One read of a doorbell record: the INDEX found there and, for a submission ring, the descriptors that the device then
reads from the entries the count covers (R390 to R393). -/
structure DoorbellRead where
  part : Part
  ring : RingId
  index : Word32
  entries : List Bytes
deriving DecidableEq, Repr

/-- What the ECC of a memory makes of one read (R277, R476). -/
inductive Ecc where
  | clean
  | corrected
  | uncorrectable
deriving DecidableEq, Repr

/-- Which of the resets of one PCIe port happens (R385). -/
inductive PortResetKind where
  | fundamental
  | hot
  | linkDown
  | flr
deriving DecidableEq, Repr

/-- How beat 10 of boot ends (R448, R452). -/
inductive BootEnd where
  | ready
  | hbmTrain (stack : Stack)
  | scribeStart (core : Fin 16)
  | firmwareInit (code : Word16)
deriving DecidableEq, Repr

/-- Where the router takes a packet from: a channel of a port's input buffer, or the packets injected on this device. -/
inductive RouteFrom where
  | port (p : FPort) (v : Vc)
  | inject
deriving DecidableEq, Repr

/-- What a lane's decoder makes of one codeword (R308): its control field and ten flits, or nothing when it cannot be
corrected. `fixed` counts the corrected symbols per lane. -/
inductive CodewordIn where
  | good (head : BitVec 4) (vcOff : BitVec 16) (flits : List (BitVec 512)) (fixed : List (Lane × Nat))
  | bad
deriving DecidableEq, Repr

/-- A memory target with a line queue (R296). -/
inductive LineTarget where
  | hbm (stack : Stack)
  | cluster (c : Nat)
deriving DecidableEq, Repr

/-- A BAR4 access: a read of `len` bytes or a write (R382). -/
inductive Bar4Op where
  | read (len : Nat)
  | write (data : Bytes)
deriving DecidableEq, Repr

/-- The commands: one constructor per row of the table, in the table's order. -/
inductive Instr where
  -- host commands: the ring whose oldest fetched descriptor starts
  | nop (p : Part) (q : Fin 16)
  | fence (p : Part) (q : Fin 16)
  | copyIn (p : Part) (q : Fin 16)
  | copyOut (p : Part) (q : Fin 16)
  | copyComplete (id : Nat) (data : Bytes)
  | loadFolio (p : Part) (q : Fin 16)
  | finalizationStart (h : Handle) (image : Bytes)
  | finalizationComplete (h : Handle)
  | finalizationTimeout (h : Handle)
  | unloadFolio (p : Part) (q : Fin 16)
  | run (p : Part) (q : Fin 16)
  | step (p : Part) (q : Fin 16)
  | jobStart (h : Handle)
  | suspend (p : Part) (q : Fin 16)
  | resume (p : Part) (q : Fin 16)
  | cancel (p : Part) (q : Fin 16)
  | checkpointWrite (p : Part) (q : Fin 16)
  | checkpointBoundary (h : Handle)
  | snapshotCopyDone (h : Handle)
  | checkpointDrainDone (h : Handle)
  | checkpointRead (p : Part) (q : Fin 16)
  | reshard (p : Part) (q : Fin 16)
  | pair (p : Part) (q : Fin 16)
  | unpair (p : Part) (q : Fin 16)
  | query (p : Part) (q : Fin 16)
  | telemetrySnapshot (p : Part) (q : Fin 16)
  | blotterRead (p : Part) (q : Fin 16)
  | attest (p : Part) (q : Fin 16)
  | powerPolicy (p : Part) (q : Fin 16) (policy : Bytes)
  -- host interface
  | doorbellRead (r : DoorbellRead)
  | nudge (port : Port) (reads : List DoorbellRead)
  | coalUs (p : Part) (c : Fin 16)
  | registerWrite (port : Port) (offset : BitVec 16) (wide : Bool) (value : Word64)
  | ringEnable (port : Port) (p : Part) (r : RingId) (cfg : Word32)
  | partCtrl (port : Port) (p : Part) (value : Word32)
  | errStatus (port : Port) (value : Word32) (hwSet : BitVec 4)
  | hostLock (port : Port) (value : Word32)
  | vectorCtrl (port : Port) (v : Fin 64) (value : Word32)
  | bar4Access (port : Port) (offset : BitVec 36) (op : Bar4Op)
  | portReset (port : Port) (kind : PortResetKind)
  | perst (port : Port)
  | pcieLinkUp (port : Port) (rate : Fin 8) (width : Fin 5)
  -- boot
  | go (port : Port) (value : Word32)
  | imageFetchDone (image : Option Bytes)
  | imageVerifyDone
  | bootReady (how : BootEnd)
  | powerGood (eeprom : Option Bytes) (seed : Option Bytes)
  | powerGoodLost
  | modResetN
  -- management endpoint: INSTANCE and the argument bytes
  | getCertificate (inst : Byte) (args : Bytes)
  | managementAttest (inst : Byte) (args : Bytes)
  | getBoot (inst : Byte) (args : Bytes)
  | resetDevice (inst : Byte) (args : Bytes)
  | assignPartition (inst : Byte) (args : Bytes)
  | releasePartition (inst : Byte) (args : Bytes)
  | setCarveout (inst : Byte) (args : Bytes)
  | regionZeroed (region : Fin 72)
  | setCoord (inst : Byte) (args : Bytes)
  | setJob (inst : Byte) (args : Bytes)
  | clearJob (inst : Byte) (args : Bytes)
  | setPower (inst : Byte) (args : Bytes)
  | blotterStatus (inst : Byte) (args : Bytes)
  | managementBlotterRead (inst : Byte) (args : Bytes)
  | blotterUnfreeze (inst : Byte) (args : Bytes)
  | blotterConfig (inst : Byte) (args : Bytes)
  | errorStatus (inst : Byte) (args : Bytes)
  | pldmSensorRead (sensor : Byte)
  -- system class: the accepted packet at this place of the inbox
  | sysRead (i : Nat)
  | sysWrite (i : Nat)
  | sysReply (i : Nat)
  | sysMessage (i : Nat)
  | fmTransmit (p : Part) (entry : Bytes)
  | myCoord (i : Nat)
  | bankCtrl (i : Nat)
  | fportEnable (i : Nat)
  | hbmRegion (i : Nat)
  | settingsLock (i : Nat)
  | holdPair (i : Nat)
  | resetPair (i : Nat)
  | teardown (i : Nat)
  | retrainPort (i : Nat)
  -- links
  | trainingFrame (p : FPort) (l : Lane) (frame : BitVec 256)
  | measureComplete (p : FPort) (rttNs : Nat) (fixed : List (Lane × Nat))
  | trainingTimeout (p : FPort)
  | trainingRetry (p : FPort)
  | serWindow (p : FPort)
  | lossOfLock (p : FPort) (l : Lane)
  | lossOfSignal (p : FPort)
  | codeword (p : FPort) (c : CodewordIn)
  | codewordSend (p : FPort)
  -- routing
  | packetRoute (src : RouteFrom)
  | packetInject (i : Nat)
  | packetDelivery (i : Nat)
  | e2eAck (i : Nat)
  | ackTimer (peer : Coord) (c : Cls)
  | resendTimer (peer : Coord) (c : Cls)
  | congestionSample
  -- strokes
  | strokeOpen (q : Quad)
  | computeEnd (q : Quad)
  | strokeClose (q : Quad)
  | dmaFence (q : Quad)
  | strokeStall (q : Quad)
  | stepComplete (h : Handle)
  | fillerCommit (p : Part)
  | fillerCommitDone (p : Part)
  -- operations: the RUN or STEP (or the filler's folio) and the OPERATIONS entry
  | matmul (h : Handle) (op : Nat)
  | expertMatmul (h : Handle) (op : Nat)
  | amax (h : Handle) (op : Nat)
  | convert (h : Handle) (op : Nat)
  | eltwise (h : Handle) (op : Nat)
  | activation (h : Handle) (op : Nat)
  | norm (h : Handle) (op : Nat)
  | softmax (h : Handle) (op : Nat)
  | loss (h : Handle) (op : Nat)
  | reduce (h : Handle) (op : Nat)
  | topk (h : Handle) (op : Nat)
  | route (h : Handle) (op : Nat)
  | combine (h : Handle) (op : Nat)
  | routeBack (h : Handle) (op : Nat)
  | gateGrad (h : Handle) (op : Nat)
  | bucketAdd (h : Handle) (op : Nat)
  | lowrankFactor (h : Handle) (op : Nat)
  | update (h : Handle) (op : Nat)
  | gatherParams (h : Handle) (op : Nat)
  | copy (h : Handle) (op : Nat)
  | transpose (h : Handle) (op : Nat)
  | rowGather (h : Handle) (op : Nat)
  | rowScatter (h : Handle) (op : Nat)
  | permute (h : Handle) (op : Nat)
  | pairedSend (h : Handle) (op : Nat)
  | pairedRecv (h : Handle) (op : Nat)
  | roamStart (h : Handle) (op : Nat)
  | tokenWait (h : Handle) (op : Nat)
  | powerRest (h : Handle) (op : Nat)
  -- roaming records: the core and its thread 1 to 7
  | load (core : Nat) (t : Fin 8)
  | store (core : Nat) (t : Fin 8)
  | atomic (core : Nat) (t : Fin 8)
  | alu (core : Nat) (t : Fin 8)
  | branch (core : Nat) (t : Fin 8)
  | hash (core : Nat) (t : Fin 8)
  | tokenSignal (core : Nat) (t : Fin 8)
  | endProgram (core : Nat) (t : Fin 8)
  | trackerGrant (cluster : Nat)
  -- the tracker that the reply reaches: the manual does not say how a reply names it
  | memReply (i : Nat) (cluster : Nat) (idx : Fin 16)
  -- memory targets
  | memLoad (i : Nat)
  | memStore (i : Nat)
  | memAtomic (i : Nat)
  | lineQueueServe (t : LineTarget) (ecc : Ecc)
  -- exchanges
  | exchData (i : Nat)
  | endMarker (i : Nat)
  | readyMarker (i : Nat)
  | routedData (i : Nat)
  | ductusDrain (i : Nat)
  | ductusDrainAckReturn (n : Nat)
  | ductusDrainAck (i : Nat)
  -- Ligature
  | instanceOpen (e : Engine)
  | data (i : Nat)
  | header (i : Nat)
  | credit (i : Nat)
  | ready (i : Nat)
  | lenientDeadline (e : Engine) (tag : Word32) (phase : Bool)
  | bitmap (i : Nat)
  | drain (i : Nat)
  | drainAckReturn (n : Nat)
  | drainAck (i : Nat)
  | gatherReq (i : Nat)
  | gatherServe (n : Nat)
  | gatherData (i : Nat)
  -- checkpoints
  | ckptData (i : Nat)
  | ckptCredit (i : Nat)
  | ckptEnd (i : Nat)
  | ckptPull (i : Nat)
  | ckptDone (i : Nat)
  -- power
  | domainWakeStart (q : Quad)
  | domainWakeDone (d : Domain)
  | domainEntryDone (d : Domain)
  | bandIdle (b : Fin 40)
  | hbmIdle
  | quncoreIdle (q : Quad)
  | pcieIdle (port : Port)
  | trickleGuard (d : Domain) (tempC : Nat)
  | brownout (d : Domain)
  | powerSample (longWindow : Bool) (watts : Nat)
  | thermalReading (sensors : List (Nat × Nat))
  | overTemp (q : Quad)
  | inputRange (mv : Nat)
  | droopExcursion (q : Quad) (excessMv : Nat)
  | droopEnd (q : Quad) (stretched : Nat) (worstMv : Nat)
  | aclkStep (q : Quad)
  -- errors
  | localStopTimeout (p : Part)
  | heartbeatTick (beats : BitVec 16)
  | ceSummary
  | scrub (stack : Stack) (ecc : Ecc)
  | modResetNRelease
  | cageOverCurrent (p : FPort)
  | cableReseat (p : FPort)
  | checkpointReadDone (h : Handle) (image : Bytes)
  | pcieDState (port : Port) (hot : Bool)
  | bridgeLinkCrcFail (q : Quad)
  | cpbFault (block : Byte)
deriving DecidableEq, Repr

end Sys2Proof
end

