-- ==== Sys2Proof/Machine/Bytes.lean ====
section
/-! DEFINITION. Little-endian fields of byte runs (R8), and small operations on lists that many families share. -/

namespace Sys2Proof.Machine

/-- The byte at an offset; past the end it reads 0. -/
def u8 (b : Bytes) (o : Nat) : Nat := (b.getD o 0#8).toNat

/-- The little-endian number in n bytes at an offset (R8). -/
def uN (b : Bytes) (o : Nat) : Nat → Nat
  | 0 => 0
  | n + 1 => u8 b o + 256 * uN b (o + 1) n

def u16 (b : Bytes) (o : Nat) : Nat := uN b o 2
def u32 (b : Bytes) (o : Nat) : Nat := uN b o 4
def u64 (b : Bytes) (o : Nat) : Nat := uN b o 8

/-- A two's complement field of n bytes. -/
def sN (b : Bytes) (o n : Nat) : Int :=
  let v := uN b o n
  if v < 2 ^ (8 * n - 1) then (v : Int) else (v : Int) - ((2 ^ (8 * n) : Nat) : Int)

/-- The n little-endian bytes of a number (R8). -/
def le : Nat → Nat → Bytes
  | 0, _ => []
  | n + 1, v => BitVec.ofNat 8 v :: le n (v / 256)

/-- n bytes at an offset; bytes past the end read 0. -/
def slice (b : Bytes) (o n : Nat) : Bytes :=
  let t := (b.drop o).take n
  t ++ List.replicate (n - t.length) 0#8

def zeros (n : Nat) : Bytes := List.replicate n 0#8

/-- Whether every byte of a range is zero. -/
def zeroRange (b : Bytes) (o n : Nat) : Bool := ((b.drop o).take n).all (fun x => x == 0#8)

/-- b with v written over it at an offset, the length unchanged. -/
def overlay (b : Bytes) (o : Nat) (v : Bytes) : Bytes :=
  b.take o ++ v.take (b.length - o) ++ b.drop (o + v.length)

/-- The bytes padded with zeros to a multiple of n. -/
def padTo (n : Nat) (b : Bytes) : Bytes :=
  b ++ zeros ((n - b.length % n) % n)

/-- A byte run split into runs of n; fuel bounds the number of runs. -/
def chunksFuel (n : Nat) : Nat → Bytes → List Bytes
  | 0, _ => []
  | f + 1, b => if b.isEmpty then [] else b.take n :: chunksFuel n f (b.drop n)

def chunks (n : Nat) (b : Bytes) : List Bytes := chunksFuel n (b.length / (max n 1) + 1) b

/-- Bits [hi:lo] of a number. -/
def bits (v hi lo : Nat) : Nat := (v / 2 ^ lo) % 2 ^ (hi + 1 - lo)

/-- One bit of a number. -/
def bit (v i : Nat) : Bool := (v / 2 ^ i) % 2 == 1

/-- A saturating count of n bits. -/
def satAdd (n a k : Nat) : Nat := min (a + k) (2 ^ n - 1)

/-- Rounding up to a multiple. -/
def roundUp (a m : Nat) : Nat := ((a + m - 1) / m) * m

/-- Ceiling division. -/
def ceilDiv (a m : Nat) : Nat := (a + m - 1) / m

/-- The first element of a list that a test accepts, changed by f; the others stay. -/
def updFirst {α : Type} (test : α → Bool) (f : α → α) : List α → List α
  | [] => []
  | x :: t => if test x then f x :: t else x :: updFirst test f t

/-- Every element that a test accepts, changed by f. -/
def updAll {α : Type} (test : α → Bool) (f : α → α) (l : List α) : List α :=
  l.map (fun x => if test x then f x else x)

/-- The list without the element at a place. -/
def removeAt {α : Type} (l : List α) (i : Nat) : List α := l.take i ++ l.drop (i + 1)

/-- The place of the first element that a test accepts. -/
def indexOf? {α : Type} (test : α → Bool) : List α → Option Nat
  | [] => none
  | x :: t => if test x then some 0 else (indexOf? test t).map (· + 1)

/-- The list with its element at a place replaced. -/
def replaceAt {α : Type} (l : List α) (i : Nat) (x : α) : List α :=
  if i < l.length then l.take i ++ x :: l.drop (i + 1) else l

/-- The numbers 0 to n - 1 that a test accepts. -/
def selected (n : Nat) (test : Nat → Bool) : List Nat := (List.range n).filter test

/-- Insertion into a list kept in the order le. -/
def insertBy {α : Type} (before : α → α → Bool) (x : α) : List α → List α
  | [] => [x]
  | y :: t => if before x y then x :: y :: t else y :: insertBy before x t

/-- A stable insertion sort. -/
def sortBy {α : Type} (before : α → α → Bool) (l : List α) : List α :=
  l.foldr (fun x acc => insertBy (fun a b => !before b a) x acc) []

/-- Whether a list of numbers has no repeats. -/
def noRepeats (l : List Nat) : Bool :=
  match l with
  | [] => true
  | x :: t => !t.contains x && noRepeats t

/-- A two's complement number of n bits in a natural field. -/
def toSigned (n v : Nat) : Int := if v % 2 ^ n < 2 ^ (n - 1) then ((v % 2 ^ n : Nat) : Int) else ((v % 2 ^ n : Nat) : Int) - ((2 ^ n : Nat) : Int)

/-- The low n bits of an integer, as a natural. -/
def ofSigned (n : Nat) (v : Int) : Nat := (v % ((2 ^ n : Nat) : Int)).toNat

end Sys2Proof.Machine
end

