-- ==== Sys2Proof/Machine/Sha3.lean ====
section
/-! DEFINITION. SHA3-512 (log entry 13: the function the manual names is that of FIPS 202). -/

namespace Sys2Proof.Machine

/-- The round constants of Keccak-f[1600]. -/
def keccakRc : List (BitVec 64) :=
  [0x0000000000000001#64, 0x0000000000008082#64, 0x800000000000808A#64, 0x8000000080008000#64, 0x000000000000808B#64,
   0x0000000080000001#64, 0x8000000080008081#64, 0x8000000000008009#64, 0x000000000000008A#64, 0x0000000000000088#64,
   0x0000000080008009#64, 0x000000008000000A#64, 0x000000008000808B#64, 0x800000000000008B#64, 0x8000000000008089#64,
   0x8000000000008003#64, 0x8000000000008002#64, 0x8000000000000080#64, 0x000000000000800A#64, 0x800000008000000A#64,
   0x8000000080008081#64, 0x8000000000008080#64, 0x0000000080000001#64, 0x8000000080008008#64]

/-- Rotation offsets, lane x + 5 y. -/
def keccakRot : List Nat :=
  [0, 1, 62, 28, 27, 36, 44, 6, 55, 20, 3, 10, 43, 25, 39, 41, 45, 15, 21, 8, 18, 2, 61, 56, 14]

def lane (a : List (BitVec 64)) (x y : Nat) : BitVec 64 := a.getD (x % 5 + 5 * (y % 5)) 0#64

/-- One round of Keccak-f[1600] on 25 lanes. -/
def keccakRound (a : List (BitVec 64)) (rc : BitVec 64) : List (BitVec 64) :=
  let c := (List.range 5).map (fun x => lane a x 0 ^^^ lane a x 1 ^^^ lane a x 2 ^^^ lane a x 3 ^^^ lane a x 4)
  let d := (List.range 5).map (fun x => c.getD ((x + 4) % 5) 0#64 ^^^ (c.getD ((x + 1) % 5) 0#64).rotateLeft 1)
  let t := (List.range 25).map (fun i => a.getD i 0#64 ^^^ d.getD (i % 5) 0#64)
  let r := (List.range 25).map (fun i => (t.getD i 0#64).rotateLeft (keccakRot.getD i 0))
  -- lane (x, y) moves to (y, 2x + 3y)
  let p := (List.range 25).map (fun i =>
    let x := i % 5
    let y := i / 5
    r.getD ((x + 3 * y) % 5 + 5 * x) 0#64)
  let q := (List.range 25).map (fun i =>
    let x := i % 5
    let y := i / 5
    p.getD i 0#64 ^^^ ((~~~ lane p (x + 1) y) &&& lane p (x + 2) y))
  match q with
  | h :: rest => (h ^^^ rc) :: rest
  | [] => []

def keccakF (a : List (BitVec 64)) : List (BitVec 64) := keccakRc.foldl keccakRound a

/-- One block of 72 bytes absorbed. -/
def sha3Absorb (a : List (BitVec 64)) (blk : Bytes) : List (BitVec 64) :=
  keccakF ((List.range 25).map (fun i =>
    if i < 9 then a.getD i 0#64 ^^^ BitVec.ofNat 64 (u64 blk (8 * i)) else a.getD i 0#64))

/-- The padded message: 0x06, zeros, and the top bit of the last byte. -/
def sha3Pad (m : Bytes) : Bytes :=
  let z := (72 - (m.length + 1) % 72) % 72
  if z = 0 then m ++ [0x86#8] else m ++ [0x06#8] ++ zeros (z - 1) ++ [0x80#8]

/-- SHA3-512: 64 bytes. -/
def sha3_512 (m : Bytes) : Bytes :=
  let a := (chunks 72 (sha3Pad m)).foldl sha3Absorb (List.replicate 25 0#64)
  ((List.range 8).map (fun i => le 8 (a.getD i 0#64).toNat)).flatten

end Sys2Proof.Machine
end

