-- ==== Sys2Proof/Config.lean ====
section
/-! DEFINITION. What an implementation fixes and the manual does not state, and the free values: constants without a body, so
that no proof can rest on what they are (log entries 3 to 6). -/

namespace Sys2Proof.Config

open Sys2Proof

/-- A byte the manual leaves undefined: the number of the undefined range and the address (R7). -/
opaque freeByte : Nat → Nat → Byte

/-- A number the manual leaves open: the count of free values drawn so far. -/
opaque freeNat : Nat → Nat

/-- ROM_VERSION (R447). -/
opaque romVersion : Word32

/-- RECORD_KEY_HASH (R447), 64 bytes. -/
opaque recordKeyHash : Vector Byte 64

/-- IMAGE_KEY_HASH (R447), 64 bytes. -/
opaque imageKeyHash : Vector Byte 64

/-- The SHA3-512 hash of the boot ROM contents (R463). -/
opaque romHash : Vector Byte 64

/-- The PCI vendor identifier of Gondalis (R380, R467). -/
opaque vendorId : Word16

/-- ML-DSA-87 key generation from the 32-byte seed of R454: the public key. -/
opaque mldsaPublic : Bytes → Vector Byte 2592

/-- ML-DSA-87 signing: seed, context string, message (R464). -/
opaque mldsaSign : Bytes → Bytes → Bytes → Vector Byte 4627

/-- ML-DSA-87 verification with an empty context string: public key, message, signature (R37, R457, R461). -/
opaque mldsaVerify : Bytes → Bytes → Bytes → Bool

/-- The image that finalization produces from a folio, job box, logical coordinate and firmware version (R28, R65). -/
opaque finalizedImage : Bytes → Nat × Nat × Nat → Nat × Nat × Nat → Word64 → Bytes

/-- Whether step 9 can schedule the compute phases and, if not, the section and entry it names (R63, R70 reason 0x0041). -/
opaque unschedulable : Bytes → Nat × Nat × Nat → Nat × Nat × Nat → Option (Nat × Nat)

/-- Bytes of spill buffers that each core of a grid holds in a stroke (R115), which the finalizer's schedule fixes. -/
opaque spillBytes : Bytes → Nat → Nat → Nat

/-- 32-byte units of device-reserved HBM on a stack, which the patrol scrubber reads after the user-visible ones (R279). -/
opaque reservedUnits : Nat

/-- CYCLES of interval i of a folio, and of filler unit u (R57, R59). -/
opaque intervalCycles : Bytes → Nat → Nat
opaque unitCycles : Bytes → Nat → Nat

end Sys2Proof.Config
end

