-- ==== Sys2Proof/Machine/Real.lean ====
section
/-! DEFINITION. Exact intermediate values: a rational number, a signed zero, an infinity or NaN, and the IEEE 754 rules for
adding, multiplying and dividing them without rounding (R71, R76, R77, R84, R107). -/

namespace Sys2Proof.Machine

/-- An exact intermediate: `num q` is the rational q, and q is not zero there. -/
inductive XVal where
  | nan
  | inf (neg : Bool)
  | zero (neg : Bool)
  | num (q : Rat)
deriving DecidableEq, Repr

/-- The five ROUNDING values of R82. -/
inductive RMode where
  | nearest
  | towardZero
  | up
  | down
  | stochastic
deriving DecidableEq, Repr

/-- The mode that stands for stochastic rounding outside the output stage of UPDATE: mode 0 (R85, R86). -/
def RMode.plain : RMode → RMode
  | .stochastic => .nearest
  | m => m

/-- The mode a ROUNDING field names (R48, R82). -/
def rmodeOf (n : Nat) : RMode :=
  match n with
  | 1 => .towardZero
  | 2 => .up
  | 3 => .down
  | 4 => .stochastic
  | _ => .nearest

/-- The exact power of two 2^e. -/
def pow2 (e : Int) : Rat :=
  if 0 ≤ e then ((2 ^ e.toNat : Nat) : Rat) else 1 / ((2 ^ (-e).toNat : Nat) : Rat)

/-- floor(log2 |q|) for q not zero. -/
def floorLog2 (q : Rat) : Int :=
  let a := q.abs
  let e : Int := (Nat.log2 a.num.natAbs : Int) - (Nat.log2 a.den : Int)
  if a < pow2 e then e - 1 else e

/-- ceil(log2 |q|) for q not zero. -/
def ceilLog2 (q : Rat) : Int :=
  let e := floorLog2 q
  if q.abs = pow2 e then e else e + 1

/-- A rational rounded to an integer by one of the modes 0 to 3 (R82); mode 4 acts as mode 0 here. -/
def roundInt (m : RMode) (x : Rat) : Int :=
  match m with
  | .towardZero => if 0 ≤ x then x.floor else x.ceil
  | .up => x.ceil
  | .down => x.floor
  | _ =>
    let f := x.floor
    let r := x - (f : Rat)
    if r < 1 / 2 then f
    else if 1 / 2 < r then f + 1
    else if f % 2 = 0 then f else f + 1

/-- The spacing exponent of a format of precision p and least normal exponent emin at the value q. -/
def spacing (p : Nat) (emin : Int) (q : Rat) : Int :=
  max (floorLog2 q) emin - ((p : Int) - 1)

/-- q rounded to precision p with the subnormal spacing of emin and no upper bound on the exponent (R84). -/
def roundPrec (m : RMode) (p : Nat) (emin : Int) (q : Rat) : Rat :=
  let k := spacing p emin q
  (roundInt m (q / pow2 k) : Rat) * pow2 k

/-- A rational as an exact value; a zero takes the sign given. -/
def ofRat (negZero : Bool) (q : Rat) : XVal :=
  if q = 0 then .zero negZero else .num q

/-- The rational of a finite value; infinities and NaN give 0. -/
def XVal.toRat : XVal → Rat
  | .num q => q
  | _ => 0

/-- The sign of a value; NaN is positive (R77). -/
def XVal.sign : XVal → Bool
  | .nan => false
  | .inf n => n
  | .zero n => n
  | .num q => decide (q < 0)

def XVal.isNan : XVal → Bool
  | .nan => true
  | _ => false

def XVal.isFinite : XVal → Bool
  | .num _ => true
  | .zero _ => true
  | _ => false

def XVal.isZero : XVal → Bool
  | .zero _ => true
  | _ => false

def XVal.neg : XVal → XVal
  | .nan => .nan
  | .inf n => .inf (!n)
  | .zero n => .zero (!n)
  | .num q => .num (-q)

def XVal.abs : XVal → XVal
  | .nan => .nan
  | .inf _ => .inf false
  | .zero _ => .zero false
  | .num q => .num q.abs

/-- The exact sum. An exact zero takes the sign IEEE 754 gives the addition under the mode (R76). -/
def XVal.add (m : RMode) (a b : XVal) : XVal :=
  match a, b with
  | .nan, _ => .nan
  | _, .nan => .nan
  | .inf x, .inf y => if x = y then .inf x else .nan
  | .inf x, _ => .inf x
  | _, .inf y => .inf y
  | .zero x, .zero y => if x = y then .zero x else .zero (m = .down)
  | .zero _, .num q => .num q
  | .num q, .zero _ => .num q
  | .num p, .num q => ofRat (m = .down) (p + q)

def XVal.sub (m : RMode) (a b : XVal) : XVal := XVal.add m a b.neg

/-- The exact product. -/
def XVal.mul (a b : XVal) : XVal :=
  match a, b with
  | .nan, _ => .nan
  | _, .nan => .nan
  | .inf _, .zero _ => .nan
  | .zero _, .inf _ => .nan
  | .inf x, v => .inf (x != v.sign)
  | v, .inf y => .inf (v.sign != y)
  | .zero x, v => .zero (x != v.sign)
  | v, .zero y => .zero (v.sign != y)
  | .num p, .num q => .num (p * q)

/-- The exact quotient. -/
def XVal.div (a b : XVal) : XVal :=
  match a, b with
  | .nan, _ => .nan
  | _, .nan => .nan
  | .inf _, .inf _ => .nan
  | .inf x, v => .inf (x != v.sign)
  | v, .inf y => .zero (v.sign != y)
  | .zero _, .zero _ => .nan
  | .zero x, v => .zero (x != v.sign)
  | v, .zero y => .inf (v.sign != y)
  | .num p, .num q => .num (p / q)

/-- a < b; false when either is NaN; the zeros are equal. -/
def XVal.lt (a b : XVal) : Bool :=
  match a, b with
  | .nan, _ => false
  | _, .nan => false
  | .inf true, .inf true => false
  | .inf true, _ => true
  | .inf false, _ => false
  | _, .inf true => false
  | _, .inf false => true
  | x, y => decide (x.toRat < y.toRat)

/-- Equality of values: false when either is NaN; the zeros are equal. -/
def XVal.eqv (a b : XVal) : Bool :=
  match a, b with
  | .nan, _ => false
  | _, .nan => false
  | x, y => !(XVal.lt x y) && !(XVal.lt y x)

/-- Maximum by R105: NaN if either is NaN, and max(-0, +0) is +0. -/
def XVal.max (a b : XVal) : XVal :=
  match a, b with
  | .nan, _ => .nan
  | _, .nan => .nan
  | .zero x, .zero y => .zero (x && y)
  | x, y => if XVal.lt x y then y else x

/-- Minimum by R105: NaN if either is NaN, and min(-0, +0) is -0. -/
def XVal.min (a b : XVal) : XVal :=
  match a, b with
  | .nan, _ => .nan
  | _, .nan => .nan
  | .zero x, .zero y => .zero (x || y)
  | x, y => if XVal.lt y x then y else x

/-- The exact sum of a list of values, as a chunk or a wide sum takes it (R107, R113): NaN when a term is NaN or both
infinities occur, an infinity when one occurs, -0 only when every term is -0, and +0 otherwise for an exact zero. -/
def exactSum (l : List XVal) : XVal :=
  if l.any XVal.isNan then .nan
  else
    let p := l.any (fun v => v = .inf false)
    let n := l.any (fun v => v = .inf true)
    if p && n then .nan
    else if p then .inf false
    else if n then .inf true
    else
      let s := l.foldl (fun a v => a + v.toRat) 0
      if s = 0 then .zero (!l.isEmpty && l.all (fun v => v = .zero true)) else .num s

/-- The rank order of R127 on (value, position) pairs. -/
def ranksAbove (a : XVal) (i : Nat) (b : XVal) (j : Nat) : Bool :=
  match a.isNan, b.isNan with
  | false, true => true
  | true, false => false
  | true, true => decide (i < j)
  | false, false => XVal.lt b a || (XVal.eqv a b && decide (i < j))

end Sys2Proof.Machine
end

