-- ==== Sys2Proof/Machine/Float.lean ====
section
/-! DEFINITION. The number formats of R45 and R71 to R80, decoding of stored elements, and the conversion of R84. -/

namespace Sys2Proof.Machine

/-- The format codes of R45. -/
inductive Fmt where
  | fp32 | bf16 | fp16 | e4m3 | e5m2 | mxE4m3 | mxE5m2 | e2m1 | mxE2m1 | int8 | int4 | int32 | uint32 | dfp32
deriving DecidableEq, Repr

/-- The format a code names (R45). -/
def fmtOf (c : Nat) : Option Fmt :=
  match c with
  | 0x01 => some .fp32
  | 0x02 => some .bf16
  | 0x03 => some .fp16
  | 0x04 => some .e4m3
  | 0x05 => some .e5m2
  | 0x06 => some .mxE4m3
  | 0x07 => some .mxE5m2
  | 0x08 => some .e2m1
  | 0x09 => some .mxE2m1
  | 0x0A => some .int8
  | 0x0B => some .int4
  | 0x0C => some .int32
  | 0x0D => some .uint32
  | 0x0E => some .dfp32
  | _ => none

/-- An MX block format (R78). -/
def Fmt.isMx : Fmt → Bool
  | .mxE4m3 => true
  | .mxE5m2 => true
  | .mxE2m1 => true
  | _ => false

/-- The element format of an MX format; every other format is its own. -/
def Fmt.elem : Fmt → Fmt
  | .mxE4m3 => .e4m3
  | .mxE5m2 => .e5m2
  | .mxE2m1 => .e2m1
  | f => f

/-- Bits of one element (R71, R74). -/
def Fmt.bits : Fmt → Nat
  | .fp32 => 32
  | .bf16 => 16
  | .fp16 => 16
  | .e4m3 => 8
  | .e5m2 => 8
  | .mxE4m3 => 8
  | .mxE5m2 => 8
  | .e2m1 => 4
  | .mxE2m1 => 4
  | .int8 => 8
  | .int4 => 4
  | .int32 => 32
  | .uint32 => 32
  | .dfp32 => 64

def Fmt.isInt : Fmt → Bool
  | .int8 => true
  | .int4 => true
  | .int32 => true
  | .uint32 => true
  | _ => false

/-- Fraction bits of a floating-point element format (R71). -/
def Fmt.mbits : Fmt → Nat
  | .fp32 => 23
  | .bf16 => 7
  | .fp16 => 10
  | .e4m3 => 3
  | .e5m2 => 2
  | .mxE4m3 => 3
  | .mxE5m2 => 2
  | .e2m1 => 1
  | .mxE2m1 => 1
  | _ => 0

/-- Exponent bits of a floating-point element format (R71). -/
def Fmt.ebits : Fmt → Nat
  | .fp32 => 8
  | .bf16 => 8
  | .fp16 => 5
  | .e4m3 => 4
  | .e5m2 => 5
  | .mxE4m3 => 4
  | .mxE5m2 => 5
  | .e2m1 => 2
  | .mxE2m1 => 2
  | _ => 0

/-- The bias of R71. -/
def Fmt.bias : Fmt → Int
  | .fp32 => 127
  | .bf16 => 127
  | .fp16 => 15
  | .e4m3 => 7
  | .e5m2 => 15
  | .mxE4m3 => 7
  | .mxE5m2 => 15
  | .e2m1 => 1
  | .mxE2m1 => 1
  | _ => 0

/-- Whether the format has infinities (R71). -/
def Fmt.hasInf : Fmt → Bool
  | .fp32 => true
  | .bf16 => true
  | .fp16 => true
  | .e5m2 => true
  | .mxE5m2 => true
  | _ => false

/-- Whether the format has NaN (R71, R77). -/
def Fmt.hasNan (f : Fmt) : Bool := f.hasInf || f = .e4m3 || f = .mxE4m3

/-- The largest finite value: lim+ of R84. -/
def Fmt.limHi : Fmt → Rat
  | .fp32 => (2 - pow2 (-23)) * pow2 127
  | .bf16 => (2 - pow2 (-7)) * pow2 127
  | .fp16 => 65504
  | .e4m3 => 448
  | .mxE4m3 => 448
  | .e5m2 => 57344
  | .mxE5m2 => 57344
  | .e2m1 => 6
  | .mxE2m1 => 6
  | .int8 => 127
  | .int4 => 7
  | .int32 => 2147483647
  | .uint32 => 4294967295
  | .dfp32 => (2 - pow2 (-23)) * pow2 127

/-- The most negative value: lim- of R84. -/
def Fmt.limLo : Fmt → Rat
  | .int8 => -128
  | .int4 => -8
  | .int32 => -2147483648
  | .uint32 => 0
  | f => - f.limHi

/-- The exponent of the smallest normal value (R71). -/
def Fmt.emin (f : Fmt) : Int := 1 - f.bias

/-- The canonical NaN pattern of R77. -/
def Fmt.canonNan : Fmt → Nat
  | .fp32 => 0x7FC00000
  | .bf16 => 0x7FC0
  | .fp16 => 0x7E00
  | .e4m3 => 0x7F
  | .mxE4m3 => 0x7F
  | .e5m2 => 0x7E
  | .mxE5m2 => 0x7E
  | .dfp32 => 0x7FC00000
  | _ => 0

/-- The value of a floating-point pattern (R71). -/
def decodeFloat (f : Fmt) (w : Nat) : XVal :=
  let m := w % 2 ^ f.mbits
  let e := (w / 2 ^ f.mbits) % 2 ^ f.ebits
  let s := decide ((w / 2 ^ (f.mbits + f.ebits)) % 2 = 1)
  let top := 2 ^ f.ebits - 1
  if f.hasInf && e = top then (if m = 0 then .inf s else .nan)
  else if (f = .e4m3 || f = .mxE4m3) && e = top && m = 7 then .nan
  else
    let mag : Rat :=
      if e = 0 then (m : Rat) * pow2 (1 - f.bias - (f.mbits : Int))
      else ((2 ^ f.mbits + m : Nat) : Rat) * pow2 ((e : Int) - f.bias - (f.mbits : Int))
    if m = 0 && e = 0 then .zero s else .num (if s then -mag else mag)

/-- A two's complement pattern of n bits as an integer. -/
def signedOf (n w : Nat) : Int :=
  if w % 2 ^ n < 2 ^ (n - 1) then (w % 2 ^ n : Nat) else ((w % 2 ^ n : Nat) : Int) - ((2 ^ n : Nat) : Int)

/-- The value of one stored element of a format (R71, R74); for MX formats, before the block scale. -/
def decodeElem (f : Fmt) (w : Nat) : XVal :=
  match f with
  | .int8 => ofRat false ((signedOf 8 w : Int) : Rat)
  | .int4 => ofRat false ((signedOf 4 w : Int) : Rat)
  | .int32 => ofRat false ((signedOf 32 w : Int) : Rat)
  | .uint32 => ofRat false ((w % 2 ^ 32 : Nat) : Rat)
  | .dfp32 =>
    let hi := decodeFloat .fp32 (w % 2 ^ 32)
    if hi.isFinite then XVal.add .nearest hi (decodeFloat .fp32 (w / 2 ^ 32)) else hi
  | f => decodeFloat f w

/-- The exponent of an E8M0 scale byte, and nothing for 0xFF (R80). -/
def e8m0Exp (s : Nat) : Option Int := if s = 0xFF then none else some ((s : Int) - 127)

/-- The pattern of a representable magnitude: q is a value of the format and not zero. -/
def encodeMag (f : Fmt) (neg : Bool) (q : Rat) : Nat :=
  let e := floorLog2 q
  let s := if neg then 2 ^ (f.mbits + f.ebits) else 0
  if e < f.emin then s + (q.abs / pow2 (f.emin - (f.mbits : Int))).floor.toNat
  else
    let frac := (q.abs / pow2 (e - (f.mbits : Int))).floor.toNat - 2 ^ f.mbits
    s + ((e + f.bias).toNat) * 2 ^ f.mbits + frac

/-- The pattern of a value that the format holds exactly. -/
def encodeExact (f : Fmt) (v : XVal) : Nat :=
  match v with
  | .nan => f.canonNan
  | .inf n => (if n then 2 ^ (f.mbits + f.ebits) else 0) + (2 ^ f.ebits - 1) * 2 ^ f.mbits
  | .zero n => if n && !f.isInt then 2 ^ (f.mbits + f.ebits) else 0
  | .num q => if f.isInt then ((q.floor) % ((2 ^ f.bits : Nat) : Int)).toNat else encodeMag f (decide (q < 0)) q

/-- The counts of R90 and R129 that one computation adds. -/
structure NumEvents where
  nanOut : Nat
  nanToZero : Nat
  saturated : Nat
  mxNanBlock : Nat
  scaleFallback : Nat
  topkNan : Nat
  indexRange : Nat
deriving DecidableEq, Repr

/-- No event. -/
def noEvents : NumEvents := ⟨0, 0, 0, 0, 0, 0, 0⟩

/-- The sum of two counts. -/
def NumEvents.plus (a b : NumEvents) : NumEvents :=
  ⟨a.nanOut + b.nanOut, a.nanToZero + b.nanToZero, a.saturated + b.saturated, a.mxNanBlock + b.mxNanBlock,
    a.scaleFallback + b.scaleFallback, a.topkNan + b.topkNan, a.indexRange + b.indexRange⟩

/-- The precision of a floating-point format, its hidden bit counted. -/
def Fmt.prec (f : Fmt) : Nat := f.mbits + 1

/-- q rounded to the spacing of the format: 1 for an integer format (R84). -/
def roundFmt (f : Fmt) (m : RMode) (q : Rat) : Rat :=
  if f.isInt then (roundInt m q : Rat) else roundPrec m f.prec f.emin q

/-- Whether IEEE 754 overflow under the mode gives infinity for a value of this sign (R84). -/
def overflowInf (m : RMode) (neg : Bool) : Bool :=
  match m with
  | .nearest => true
  | .towardZero => false
  | .up => !neg
  | .down => neg
  | .stochastic => true

/-- convert of R84 for every format but double-FP32: the value stored and the events counted (R90). -/
def convertVal (f : Fmt) (m : RMode) (v : XVal) : XVal × NumEvents :=
  let nanEv : NumEvents := { noEvents with nanOut := 1 }
  let nzEv : NumEvents := { noEvents with nanToZero := 1 }
  let satEv : NumEvents := { noEvents with saturated := 1 }
  match v with
  | .nan => if f.hasNan then (.nan, nanEv) else (.zero false, nzEv)
  | .inf n =>
    if f.hasInf then (.inf n, noEvents)
    else (ofRat false (if n then f.limLo else f.limHi), satEv)
  | .zero n => (.zero (n && !f.isInt), noEvents)
  | .num x =>
    let q := roundFmt f m x
    let neg := decide (x < 0)
    if f.limHi < q || q < f.limLo then
      if (f = .fp32 || f = .bf16 || f = .fp16) && m ≠ .stochastic && overflowInf m neg then (.inf neg, noEvents)
      else (ofRat false (if 0 < q then f.limHi else f.limLo), satEv)
    else (ofRat (neg && !f.isInt) q, noEvents)

/-- An exact value rounded to nearest even into FP32: the RN of R83. -/
def rn (v : XVal) : XVal := (convertVal .fp32 .nearest v).1

/-- The value of an FP32 pattern. -/
def fp32 (w : BitVec 32) : XVal := decodeFloat .fp32 w.toNat

/-- The pattern of an FP32 value, a NaN made canonical (R77). -/
def fp32Bits (v : XVal) : BitVec 32 := BitVec.ofNat 32 (encodeExact .fp32 v)

/-- Rounding to BF16 by RN, widened exactly (R132). -/
def toBf16 (v : XVal) : XVal := (convertVal .bf16 .nearest v).1

def fadd (a b : XVal) : XVal := rn (XVal.add .nearest a b)
def fsub (a b : XVal) : XVal := rn (XVal.sub .nearest a b)
def fmul (a b : XVal) : XVal := rn (XVal.mul a b)
def fdiv (a b : XVal) : XVal := rn (XVal.div a b)

/-- a * b + c with one rounding. -/
def fma (a b c : XVal) : XVal := rn (XVal.add .nearest (XVal.mul a b) c)

/-- TwoSum of R114 with the special cases of R74: the rounded sum and its exact error. -/
def twoSum (a b : XVal) : XVal × XVal :=
  let s := fadd a b
  match s with
  | .nan => (.nan, .zero false)
  | .inf n => (.inf n, .zero false)
  | s =>
    let a1 := fsub s b
    let b1 := fsub s a1
    (s, fadd (fsub a a1) (fsub b b1))

/-- convert2 of R84: the normalized pair for a double-FP32 destination, and the events. -/
def convert2 (m : RMode) (v : XVal) : (XVal × XVal) × NumEvents :=
  match v with
  | .num x =>
    let h := roundPrec .nearest 24 (-126) x
    if Fmt.fp32.limHi < h.abs then
      let r := convertVal .fp32 m v
      ((r.1, .zero false), r.2)
    else
      let dir : RMode :=
        match m with
        | .towardZero => if 0 < x then .down else .up
        | .up => .up
        | .down => .down
        | _ => .nearest
      let l := x - h
      let lv := if l = 0 then XVal.zero false else (convertVal .fp32 dir (.num l)).1
      (twoSum (ofRat (decide (x < 0)) h) lv, noEvents)
  | v =>
    let r := convertVal .fp32 .nearest v
    ((r.1, .zero false), r.2)

/-- The double-FP32 pattern of a pair: the high word in the low 32 bits (R74). -/
def dfpBits (p : XVal × XVal) : Nat := (fp32Bits p.1).toNat + (fp32Bits p.2).toNat * 2 ^ 32

/-- One element converted into a format other than MX: the stored pattern and the events (R84). -/
def convertElem (f : Fmt) (m : RMode) (v : XVal) : Nat × NumEvents :=
  match f with
  | .dfp32 =>
    let r := convert2 m v
    (dfpBits r.1, r.2)
  | f =>
    let r := convertVal f.elem m v
    (encodeExact f.elem r.1, r.2)

/-- A represented value as an FP32 value (R85): rounded by RN, or by the operation's mode when the value comes from an
INT32, UINT32 or double-FP32 element. -/
def toFp32 (f : Fmt) (scaled : Bool) (m : RMode) (v : XVal) : XVal :=
  if scaled then rn v
  else if f = .int32 || f = .uint32 || f = .dfp32 then (convertVal .fp32 m.plain v).1
  else rn v

/-- EMAX of R81: the exponent of the element format's largest finite value. -/
def mxEmax (f : Fmt) : Int :=
  match f.elem with
  | .e4m3 => 8
  | .e5m2 => 15
  | _ => 2

/-- The scale selection of R81: nothing when a value is NaN or infinite, and the exponent X otherwise. -/
def mxScale (f : Fmt) (w : List XVal) : Option Int :=
  if w.any (fun v => !v.isFinite) then none
  else
    let amax := w.foldl (fun a v => max a v.toRat.abs) 0
    let x := if amax = 0 then -127 else floorLog2 amax - mxEmax f
    some (min (max x (-127)) 127)

/-- EMAX_F of R93. -/
def scaleEmax : Fmt → Int
  | .e4m3 => 8
  | .e5m2 => 15
  | .fp16 => 15
  | .bf16 => 127
  | .e2m1 => 2
  | .int8 => 6
  | .int4 => 2
  | _ => 0

/-- The exponent e of R93 from amax, and whether it fell back. -/
def scaleExponent (f : Fmt) (amax : XVal) : Int × NumEvents :=
  match amax with
  | .num q =>
    if q < 0 then (0, { noEvents with scaleFallback := 1 })
    else (min (max (scaleEmax f - ceilLog2 q) (-126)) 127, noEvents)
  | _ => (0, { noEvents with scaleFallback := 1 })

/-- The mixing function of R96, modulo 2^64. -/
def mix (z : BitVec 64) : BitVec 64 :=
  let a := (z ^^^ (z >>> 30)) * 0xBF58476D1CE4E5B9#64
  let b := (a ^^^ (a >>> 27)) * 0x94D049BB133111EB#64
  b ^^^ (b >>> 31)

/-- rand24 of R96: the random value of an element of a tensor in a step. -/
def rand24 (step : BitVec 64) (tag : BitVec 32) (index : Nat) : Nat :=
  let k := mix ((step * 0x9E3779B97F4A7C15#64) ^^^ tag.setWidth 64)
  let k2 := mix (k ^^^ BitVec.ofNat 64 index)
  (k2 >>> 40).toNat

/-- Stochastic rounding of R98 into a format other than double-FP32. -/
def stochRound (f : Fmt) (r : Nat) (v : XVal) : XVal × NumEvents :=
  match v with
  | .num x =>
    let neg := decide (x < 0)
    let t := roundFmt f .towardZero x
    let q :=
      if t = x then x
      else
        let sp := if f.isInt then (1 : Rat) else pow2 (spacing f.prec f.emin x)
        let u := if neg then t - sp else t + sp
        let frac := (x.abs - t.abs) / sp
        if (r : Int) < (frac * 16777216).floor then u else t
    if f.limHi < q || q < f.limLo then
      (ofRat false (if 0 < q then f.limHi else f.limLo), { noEvents with saturated := 1 })
    else (ofRat (neg && !f.isInt) q, noEvents)
  | v => convertVal f .nearest v

/-- The three BF16 pieces of an FP32 operand, each by truncation (R99). -/
def bf16Pieces (a : XVal) : List XVal :=
  match a with
  | .num x =>
    let tr (q : Rat) : Rat := if q = 0 then 0 else roundPrec .towardZero 8 (-126) q
    let a0 := tr x
    let a1 := tr (x - a0)
    let a2 := tr (x - a0 - a1)
    let neg := decide (x < 0)
    [ofRat neg a0, ofRat neg a1, ofRat neg a2]
  | v => [v, .zero false, .zero false]

end Sys2Proof.Machine
end

