-- ==== Sys2Proof/Machine/State.lean ====
section
/-! DEFINITION. The state of one Balzin-80: plain data, one field or record for every piece of state the manual names, the
queue of waiting commands, and the machine before its supply rises. Fields whose docstring says "the model's own" are
bookkeeping (log entries 3 and 9). -/

namespace Sys2Proof.Machine

open Sys2Proof

/-! ### Memory -/

/-- Memory by device-local address (R272). `cells` is the canonical list: addresses strictly rising, no zero byte listed; an
unlisted byte reads 0. `undef` lists ranges [lo, hi) whose bytes the manual leaves undefined, each with the number of the free
values they read as (the model's own form of R7). `poison` lists the numbers of poisoned 64-byte lines (R277, R476). -/
structure Memory where
  cells : List Host.Cell
  undef : List (Nat × Nat × Nat)
  poison : List Nat
deriving DecidableEq, Repr

/-- Memory with nothing written. -/
def Memory.empty : Memory := ⟨[], [], []⟩

/-! ### Pins and supply -/

/-- The sideband pins with state (R511, R515). Inputs: a pulled-down input that nothing drives reads asserted (low). -/
structure Pins where
  /-- Level of MOD_RESET_N. -/
  modResetN : Bool
  /-- Level of PERST_A_N and PERST_B_N. -/
  perstN : Vector Bool 2
  /-- The straps SLOT_ID2 to SLOT_ID0; pulled up. -/
  slotStrap : BitVec 3
  /-- PWR_GOOD, released while power good holds. -/
  pwrGood : Bool
  /-- THERM_TRIP_N. -/
  thermTripN : Bool
  /-- FAULT_N. -/
  faultN : Bool
deriving DecidableEq, Repr

/-! ### Boot and identity -/

/-- STAGE of BOOT_STATUS (R451). -/
inductive Stage where
  | romInit
  | waitImage
  | fetching
  | verifying
  | starting
  | ready
  | halted
deriving DecidableEq, Repr

/-- The boot mailbox (R450, R451) and what boot holds (R448, R454). -/
structure Boot where
  stage : Stage
  attempts : BitVec 4
  fwPort : BitVec 1
  imageAddr : Word64
  imageLen : Word32
  /-- BOOT_ERROR: CODE and DETAIL. -/
  errCode : Byte
  errDetail : Word16
  bootCount : Word32
  serial : Bytes
  identityHash : Bytes
  fwDigest : Bytes
  fwVersion : Word64
  fwEpoch : Word32
  /-- The last beat of R448 that has ended; 0 before beat 1. -/
  beat : Nat
  /-- Boot waits at the start of beat 2 for MOD_RESET_N (R516). -/
  held : Bool
  /-- The seed of R454, in the crypto block only; erased at every reset. -/
  seed : Option Bytes
  /-- The image copy in scribe image SRAM (R453). -/
  image : Option Bytes
  /-- Whether the record's signature verified, for measurement 2 (R463, R468). -/
  recordOk : Bool
  /-- The SLOT_ID sampled at beat 2 (R511). -/
  slotId : BitVec 3
deriving DecidableEq, Repr

/-- The module itself: EEPROM contents and the seed its PUF gives. `none`: the EEPROM does not answer, or three readings fail. -/
structure Silicon where
  eeprom : Option Bytes
  pufSeed : Option Bytes
deriving DecidableEq, Repr

/-! ### Power (R416 to R443) -/

/-- STATE of PD_STATn (R418). -/
inductive PdState where
  | on
  | entering
  | retention
  | off
  | waking
deriving DecidableEq, Repr

/-- One power domain. -/
structure PowerDomain where
  state : PdState
  /-- Where an entry goes: false RETENTION, true OFF. -/
  toOff : Bool
  /-- Whether the regulator was off when the present wake began, so that re-initialization follows (R421). -/
  fromOff : Bool
  /-- TRICKLE_NOW, and during a wake whether it is a wake from trickle retention (R428). -/
  trickle : Bool
  /-- A wake that waits behind the cap of R428. -/
  wakeQueued : Bool
  /-- An access woke the band while its offers stand (R425). -/
  offersStand : Bool
  /-- LAST_WAKE_SOURCE (R430). -/
  wakeSource : BitVec 4
  /-- REQUEST, METHOD, IDLE_DEPTH and TRICKLE_MARGIN of PD_CFGn. -/
  request : BitVec 2
  method : BitVec 1
  idleDepth : BitVec 2
  margin : Byte
  /-- The METHOD of the entry in progress or held. -/
  entryMethod : BitVec 1
  /-- ABORTED, REFUSED, LAST_CODE and LAST_UNIT of PD_REFUSEn. -/
  aborted : Nat
  refused : Nat
  lastCode : Byte
  lastUnit : Word16
  /-- Junction temperature at the entry into trickle retention (R431). -/
  entryTempC : Nat
deriving DecidableEq, Repr

/-- The clock and droop controls of a quadrant (R434 to R439). -/
structure QuadClock where
  current : Nat
  policyMax : Nat
  capCeiling : Nat
  thermalCeiling : Nat
  thresholdMv : Nat
  /-- DROOP_EVENTSq. -/
  droopEvents : Nat
  /-- ACLK is being stretched. -/
  stretching : Bool
  /-- The s of R435 while stretching, in eighths of a period. -/
  stretch : Nat
  /-- THROTTLING bit of THERMAL_STAT. -/
  throttling : Bool
  /-- Consecutive readings at or below 97 °C, for the 10 ms of R438. -/
  coolReadings : Nat
  /-- Whether the last reading was 105 °C or more. -/
  overTemp : Bool
  /-- The supply setpoint of the module record, mV (R435, R456). -/
  setpointMv : Nat
deriving DecidableEq, Repr

/-- The power block and the sequencer (R434 to R443). -/
structure Power where
  domains : Vector PowerDomain 73
  quads : Vector QuadClock 4
  capW : Nat
  powerW : Nat
  /-- Input voltage as last measured, mV (R466 sensor 3). -/
  inputMv : Nat
  tjMax : Nat
  /-- Consecutive 1 ms windows below 0.97 CAP_W (R437). -/
  lowWindows : Nat
  capUnmet : Bool
  /-- A thermal trip is held (R438). -/
  tripped : Bool
  /-- A warm reset waits for the trip's sensors (R446). -/
  resetHeld : Bool
  /-- Sensors read 95 °C or more at the last reading. -/
  hot : Bool
deriving DecidableEq, Repr

/-! ### Errors and the blotter (R474 to R491) -/

/-- One blotter record (R485). -/
structure BlotterRec where
  time : Nat
  code : Word16
  unit : Word16
  stamp : Word32
  arg0 : Word64
  arg1 : Word32
  arg2 : Word32
deriving DecidableEq, Repr

/-- The blotter: held records as (slot, sequence number, record), HEAD, and the lock (R485, R488). -/
structure Blotter where
  slots : List (Nat × Nat × BlotterRec)
  head : Nat
  frozen : Bool
  freezeSeq : Nat
  /-- LOST_WHILE_FROZEN of the present lock. -/
  lost : Nat
  freezeOnJob : Bool
  /-- Corrected errors counted per unit in the present second (R486). -/
  corrected : List (Nat × Nat)
  /-- Units that sent an ERROR_REPORT in the present second (R479). -/
  reported : List Nat
deriving DecidableEq, Repr

/-- The error block (R491) and the device stop (R483). -/
structure ErrorBlock where
  fatal : Bool
  jobFailed : Bool
  sramUe : Bool
  hbmUe : Bool
  pathFailure : Bool
  cause : Word32
  fatalTime : Nat
  vector : Vector Word32 2
  pathFailureCount : Nat
  hbmUeCount : Nat
  sramUeCount : Nat
  jobFailedCount : Nat
  index : Word32
  /-- Last heartbeat counts of the sixteen scribe cores, and ticks without advance (R484). -/
  beats : Vector (Nat × Nat) 16
  supervised : Bool
deriving DecidableEq, Repr

/-! ### Host ports (R380 to R385, R492 to R500) -/

/-- An MSI-X table entry (R498). -/
structure MsixEntry where
  addr : Word64
  data : Word32
  ctrl : Word32
deriving DecidableEq, Repr

/-- One PCIe port. -/
structure PciePort where
  training : Bool
  linkUp : Bool
  rate : BitVec 4
  width : BitVec 3
  dState : BitVec 2
  bar4Ctrl : Word32
  locked : Bool
  msix : Vector MsixEntry 64
  pba : Word64
  /-- Host memory behind the port, as the device's writes leave it. -/
  host : Memory
  /-- The completion of the last BAR4 read: none is Unsupported Request (R382); its first local address, the bytes that are still
  to be read, and the poisoned-TLP indication (R278). -/
  bar4Data : Option Bytes
  bar4Start : Nat
  bar4Left : Nat
  bar4Poison : Bool
deriving DecidableEq, Repr

/-- A ring's registers (R388, R496) and counts (R389). For a ring the host produces into, `posted` is the producer count last
read and `consumed` the device's count of fetched entries; for a ring the device produces into, `posted` is the device's posted
count and `consumed` the host's consumer count last read. -/
structure Ring where
  base : Word64
  db : Word64
  cfg : Word32
  posted : Word32
  consumed : Word32
  /-- The poll interval of R391 as a power-of-two multiple of 250 ns, and the time until which the ring is active. -/
  backoff : Nat
  activeUntil : Nat
deriving DecidableEq, Repr

/-- A completion record on its way to a ring (R399). -/
structure Completion where
  uid : Nat
  tag : Word32
  handle : Handle
  sq : Fin 16
  opcode : Byte
  status : Byte
  kind : Byte
  reason : Word16
  detail0 : Word32
  detail1 : Word32
  /-- INTERRUPT of the descriptor. -/
  signal : Bool
  /-- The command whose FINAL record this is (the model's own number). -/
  finalOf : Option Nat
  /-- A record that must be posted first (R401). -/
  after : Option Nat
  /-- The record slot that the consumption of this PROGRESS record frees (R410). -/
  slotOf : Option Nat
deriving DecidableEq, Repr

/-- A completion ring. -/
structure CompRing where
  ring : Ring
  mod : Word32
  /-- Records posted since the last signal (R384). -/
  sinceSignal : Nat
  /-- Records waiting on the device (R400). -/
  waiting : List Completion
  /-- Records posted and not yet consumed, oldest first. -/
  unread : List Completion
deriving DecidableEq, Repr

/-- A command in flight (R397). -/
structure Cmd where
  uid : Nat
  part : Part
  sq : Fin 16
  desc : Bytes
  started : Bool
  /-- The handle of a long operation once admitted; 0 otherwise. -/
  handle : Handle
  /-- A FENCE that has started: the commands it waits for (R398). -/
  fence : Option (List Nat)
  /-- A POWER_POLICY that has been applied: its domains in policy order, and those that have neither reached their requested state nor
  met a refusal (R441). -/
  policy : Option (List Nat × List Nat)
deriving DecidableEq, Repr

/-- A job as SET_JOB gives it (R472), with the state of its failure and local stop (R478, R480). -/
structure Job where
  id : Word16
  gen : Word16
  /-- The ROLE_GEN that SET_JOB has written for the next RESHARD, or `gen` when there is none (R184, R362, R472). -/
  written : Word16
  box : Nat × Nat × Nat
  coord : Nat × Nat × Nat
  /-- An error of this role generation has been reported. -/
  failed : Bool
  /-- A local stop holds. -/
  stopped : Bool
  /-- Torn down: every unit but the carve-out holds stamp 0 until a new ROLE_GEN is adopted (R481). -/
  torn : Bool
deriving DecidableEq, Repr

/-- One partition (R386 to R388, R469 to R472). -/
structure Partition where
  enable : Bool
  assigned : Bool
  port : Port
  fmChannel : Bool
  powerAdmin : Bool
  requireOwner : Bool
  debugFolios : Bool
  limit : Nat
  /-- The assignment block as last written (R463). -/
  assignBlock : Bytes
  sq : Vector Ring 16
  cq : Vector CompRing 16
  eq : Ring
  fmtx : Ring
  fmrx : Ring
  /-- Entries of the FM receive ring that wait for room: none by R415; events lost since the last EVENTS_LOST record. -/
  eventsLost : Nat
  /-- The sequence part of the next handle (R396). -/
  nextSeq : Nat
  job : Option Job
  /-- Its folios, staging and snapshot area hold the stamp until a new ROLE_GEN is adopted (R481): the carve-out's stamp. -/
  carveStamp : Word32
deriving DecidableEq, Repr

/-- A management request that has not been answered yet (R471, R470). -/
inductive MgmtPending where
  | carveout (head : Bytes) (part : Part) (regions : List Nat)
  | release (head : Bytes) (part : Part)
  | power (head : Bytes) (domains waits : List Nat)
deriving DecidableEq, Repr

/-- The management endpoint: the request being served, and the responses sent, oldest first. -/
structure Mgmt where
  busy : Option MgmtPending
  responses : List Bytes
deriving DecidableEq, Repr

/-- The device settings of R501 and R502 outside HBM_REGIONg. -/
structure Settings where
  stallLimit : Nat
  scrubHours : Nat
  hbmIdleUs : Nat
  trickleDelta : Nat
  serPpm : Nat
  fportEnable : BitVec 16
  /-- FC_QUOTAc_d at 3 c + d. -/
  quota : Vector Nat 12
  lock : Bool
deriving DecidableEq, Repr

/-- HBM_REGIONg with the zeroing of R276 (R502, R505). -/
structure Region where
  assigned : Bool
  part : Part
  /-- MODE: true is STACK_LOCAL. -/
  stackLocal : Bool
  /-- Named by an accepted SET_CARVEOUT, or being zeroed after a release. -/
  zeroing : Bool
deriving DecidableEq, Repr

/-! ### Fabric (R303 to R356) -/

/-- A packet (R315 to R319): header fields, payload and trailer. FLITS and the virtual channel follow from them. -/
structure Packet where
  cls : Cls
  opcode : BitVec 4
  epoch : BitVec 1
  dset : BitVec 1
  dst : Coord
  src : Coord
  dstUnit : BitVec 3
  aux : Word16
  stamp : Stamp
  engine : BitVec 3
  body : BitVec 128
  payload : Bytes
  seq : Word32
  stomp : Bool
  crc : Word64
deriving DecidableEq, Repr

/-- A packet in a router: the flits that have arrived, how many it has in all, and the port and channel it came by. A packet
begun before its last flit arrived stays open (R324). -/
structure FlitRun where
  flits : List (BitVec 512)
  total : Nat
  vc : Vc
  /-- EPOCH of its header, for EPOCH_OCC (R332). -/
  epoch : BitVec 1
  /-- The input port, or none for a packet injected here. -/
  from? : Option FPort
  /-- The output port chosen by the router. -/
  via : Option FPort
deriving DecidableEq, Repr

/-- States of a fabric port (R309), with their codes. -/
inductive FpState where
  | down
  | detect
  | equalize
  | identify
  | align
  | measure
  | active
  | miswired
  | failed
deriving DecidableEq, Repr

/-- What a lane's last valid IDENTIFY frame said (R310, R311). -/
structure LaneIdent where
  port : BitVec 4
  lane : BitVec 3
  moduleId : Word64
deriving DecidableEq, Repr

/-- One fabric port (R303 to R327). -/
structure FabricPort where
  state : FpState
  /-- Lanes in use while trained: the lane set of R304. -/
  lanes : BitVec 8
  /-- GOOD_LANES of this end and of the partner. -/
  goodOwn : BitVec 8
  goodPartner : BitVec 8
  /-- Lanes on which a signal was detected, lanes whose partner has left DETECT, and lanes whose presets are agreed. -/
  detected : BitVec 8
  settled : BitVec 8
  idents : Vector (Option LaneIdent) 8
  aligned : BitVec 8
  txPreset : BitVec 4
  presetReq : BitVec 4
  /-- TS_OUT last received per lane (R310). -/
  tsEcho : Vector Word32 8
  attempts : Nat
  /-- A failed attempt waits for its retry. -/
  retryWait : Bool
  /-- Retraining after degradation (R313). -/
  degraded : Bool
  partnerId : Word64
  rttNs : Nat
  /-- The cage's 3.3 V supply is on (R514). -/
  cageOn : Bool
  /-- VC_OFF last computed for this port's buffers, and last received; after an uncorrectable codeword all are off (R308). -/
  vcOff : BitVec 16
  partnerOff : BitVec 16
  partnerAllOff : Bool
  /-- Flits are taken again only from HEAD of the next good codeword. -/
  resync : Bool
  /-- The packet whose flits are arriving. -/
  rx : Option FlitRun
  /-- Whole and open packets in the input buffer, oldest first. -/
  inBuf : List FlitRun
  /-- Packets routed to this output, oldest first, and the one being sent. -/
  outQ : List FlitRun
  tx : Option FlitRun
  /-- Round-robin place within each class, and whether the collective class is next (R326). -/
  rr : Vector (BitVec 2) 4
  collNext : Bool
  /-- Most flits held per class in the present congestion sample (R352). -/
  peak : Vector Nat 4
  /-- Corrected symbols per lane and uncorrectable codewords in the present 1 ms window (R313). -/
  winFixed : Vector Nat 8
  winBad : Nat
  /-- The codeword last sent: HEAD, VC_OFF and flits. -/
  sent : Option (BitVec 4 × BitVec 16 × List (BitVec 512))
deriving DecidableEq, Repr

/-- A table bank (R331): entries that are not listed are 0. -/
structure Bank where
  route : List (Nat × Word32)
  coordMap : List (Nat × Word16)
deriving DecidableEq, Repr

/-- The send side of one (destination, class) (R344, R347, R348). -/
structure SendFlow where
  peer : Coord
  cls : Cls
  nextSeq : Word32
  /-- Unacknowledged packets, oldest first: the retransmit store's entries of the flow (R346). -/
  unacked : List Packet
  /-- Expiries for the oldest unacknowledged packet. -/
  expiries : Nat
  failed : Bool
deriving DecidableEq, Repr

/-- The receive side of one (source, class) (R344, R345). -/
structure RecvFlow where
  peer : Coord
  cls : Cls
  ackSeq : Word32
  /-- Sequence numbers at or above ACK_SEQ received in the window. -/
  got : List Word32
  /-- Packets accepted since the last acknowledgement. -/
  sinceAck : Nat
  ackDue : Bool
deriving DecidableEq, Repr

/-- A congestion sample with its level per port and class (R352). -/
structure Router where
  bank0 : Bank
  bank1 : Bank
  myCoord : Coord
  coordValid : Bool
  extX : BitVec 3
  extY : BitVec 3
  extZ : BitVec 3
  bank0Valid : Bool
  bank1Valid : Bool
  injectEpoch : BitVec 1
  arrivals0 : Word64
  arrivals1 : Word64
  resendUs : Nat
  throttleLevel : Nat
  injectLimit : Nat
  gateway : Coord
  gatewayValid : Bool
  cmapIndex : Byte
  cmapTime : Nat
  /-- CMAP entries written, by index. -/
  cmap : List (Nat × Bytes)
  /-- Share of the unthrottled rate allowed to memory requests: 1, 2 or 4 (R354), and requests left in this sample. -/
  throttle : Nat
  /-- Packets waiting at injection, oldest first (R341, R344, R346, R348). -/
  injectQ : List Packet
  /-- Packets injected and not yet routed. -/
  localQ : List FlitRun
  /-- Packets routed to this device and not yet taken by the end-to-end unit, with the port each came by. -/
  arrived : List (Option FPort × Packet)
  sends : List SendFlow
  recvs : List RecvFlow
  /-- Peers held by HOLD_PAIR (R349). -/
  held : List Nat
deriving DecidableEq, Repr

/-! ### Memory targets, trackers and roaming threads (R138 to R155, R269 to R302) -/

/-- Kind of a memory request. -/
inductive ReqKind where
  | load
  | store
  | atomic
deriving DecidableEq, Repr

/-- One entry of a line queue (R296). A store entry holds the merged bytes: for each byte of the line the value to write. -/
structure LineEntry where
  line : Nat
  kind : ReqKind
  /-- Bytes of a (merged) store, by offset within the line. -/
  bytes : List (Nat × Byte)
  /-- First byte and size of a load or an atomic within the line. -/
  off : Nat
  len : Nat
  /-- The request, for a load or an atomic. -/
  req : Packet
  /-- A BAR4 access (R301): the port. -/
  bar4 : Option Port
deriving DecidableEq, Repr

/-- The line queue of one HBM controller or cluster stub that is not empty. -/
structure LineQueue where
  target : LineTarget
  entries : List LineEntry
deriving DecidableEq, Repr

/-- The receipt ledger of one source device (R294), newest first. -/
structure LedgerSource where
  src : Coord
  stamp : Stamp
  atomics : List (Word16 × Word64)
  stores : List Word16
deriving DecidableEq, Repr

/-- A REQUEST_ID sequence for a target and kind (R293). -/
structure ReqWindow where
  stamp : Stamp
  target : Coord
  kind : ReqKind
  next : Word16
  unacked : List Word16
deriving DecidableEq, Repr

/-- Roaming thread states (R139). -/
inductive ThreadState where
  | idle
  | ready
  | parked
  | trackerWait
  | held
deriving DecidableEq, Repr

/-- A start of a roaming program (R141). -/
structure RoamStart where
  part : Part
  folio : Handle
  program : Nat
  /-- Position within the grid and logical rank, for r1 and r2 (R283). -/
  pos : Nat
  rank : Nat
deriving DecidableEq, Repr

/-- An access that a thread has issued: its request and what to do with the reply (R284, R287). -/
structure Access where
  kind : ReqKind
  size : Nat
  signed : Bool
  reg : Nat
  /-- The atomic returns the old value. -/
  returns : Bool
  /-- The logical rank and the coordinate of the target, the pod address or the OFFSET and TENSOR fields of the access (R487). -/
  rank : Nat
  target : Coord
  named : Word64
  req : Packet
deriving DecidableEq, Repr

/-- A roaming thread that is not in its reset state (R139 to R142, R283). -/
structure Thread where
  core : Nat
  t : Fin 8
  state : ThreadState
  /-- What HELD returns to at RESUME. -/
  resumeTo : ThreadState
  /-- Draining for CANCEL: becomes IDLE at its reply. -/
  cancelling : Bool
  start : Option RoamStart
  deferred : Option RoamStart
  next : Nat
  parks : Nat
  regs : Vector Word64 24
  /-- The access that waits for a tracker. -/
  wants : Option Access
deriving DecidableEq, Repr

/-- A tracker that is held (R154, R155). -/
structure Tracker where
  cluster : Nat
  idx : Nat
  core : Nat
  t : Fin 8
  stamp : Stamp
  access : Access
deriving DecidableEq, Repr

/-! ### Ductus engines (R192 to R227, R527) -/

/-- Batch states (R220), with their codes 0 to 10. -/
inductive BatchState where
  | free
  | scoring
  | placing
  | listing
  | dispatching
  | awaitAnswers
  | combined
  | backDispatching
  | awaitReturns
  | retiring
  | dead
deriving DecidableEq, Repr

/-- One ledger entry (R206). -/
structure LedgerEntry where
  gate : Word32
  prob : Word32
  expert : Nat
  dropped : Bool
  choice : Nat
  nanDrop : Bool
  slot : Nat
  dstRank : Nat
deriving DecidableEq, Repr

/-- A generation of an engine that is not FREE (R220 to R226). -/
structure Generation where
  gen : Byte
  state : BatchState
  folio : Handle
  routing : Nat
  /-- The OPERATIONS entry of its ROUTE, which names the batch within the folio (R199), and the order of ROUTEs of the engine. -/
  op : Nat
  order : Nat
  stamp : Stamp
  ledger : List LedgerEntry
  /-- Placed slots in list order: destination position and ledger index (R207). -/
  sendList : List (Nat × Nat)
  /-- Rows of ROUTE_BACK by ledger index (R216). -/
  backRows : List (Nat × Bytes)
  gateGradDone : Bool
  combine2Done : Bool
  /-- Drain acknowledgements that are missing, as (rank, quadrant) (R223). -/
  drains : List (Nat × Nat)
deriving DecidableEq, Repr

/-- A receive table (R527): the binding per sending position and the occupied slots with their tags. -/
structure RecvTable where
  folio : Handle
  routing : Nat
  stamp : Stamp
  /-- The ROUTE of its batch, and the exchange of the forward dispatch. -/
  batch : Nat
  exch : Nat
  /-- Sending position to (SRC_RANK, SRC_QUAD, GEN). -/
  bound : List (Nat × Nat × Nat × Nat)
  /-- Slot row (local expert × CAP + slot) to tag. -/
  occupied : List (Nat × BitVec 128)
  /-- Packets received of rows that are not complete yet: (slot row, packets). -/
  parts : List (Nat × Nat)
  /-- The forward dispatch has closed. -/
  final : Bool
deriving DecidableEq, Repr

/-- A drain marker that waits for its acknowledgement (R224). -/
structure HeldDrain where
  packet : Packet
deriving DecidableEq, Repr

/-- The Ductus engine of a quadrant. -/
structure Ductus where
  gens : List Generation
  lastGen : Byte
  nextOrder : Nat
  tables : List RecvTable
  /-- VISITED bits set: (folio, ROUTING_ID, local expert) (R219). -/
  visited : List (Handle × Nat × Nat)
  drains : List HeldDrain
deriving DecidableEq, Repr

/-! ### Ligature engines (R228 to R268) -/

/-- Slot states (R245); FREE slots are not listed. -/
inductive SlotState where
  | opened
  | delivered
  | dead
deriving DecidableEq, Repr

/-- The value of one segment of a node or leaf: FP32 patterns, or header-only for the whole shard (R253, R254). -/
inductive NodeVal where
  | data (vals : List Word32)
  | header
deriving DecidableEq, Repr

/-- An operand or node value held in an instance: shard, node bounds, segment (R236, R248). -/
structure NodeSeg where
  shard : Nat
  lo : Nat
  hi : Nat
  seg : Nat
  val : NodeVal
deriving DecidableEq, Repr

/-- A stream's credit (R244): payloads that may still be sent to, or are granted by, a contributor for a shard and node. -/
structure Credit where
  peer : Nat
  shard : Nat
  lo : Nat
  hi : Nat
  n : Nat
deriving DecidableEq, Repr

/-- One instance in a bucket slot. -/
structure Instance where
  seqNo : Nat
  tag : Word32
  phase : Bool
  /-- The job step of the instance. -/
  step : Nat
  state : SlotState
  folio : Handle
  stamp : Stamp
  /-- The BUCKET exchange has been issued at this device. -/
  issued : Bool
  /-- The own leaf is header-only (R253). -/
  leafHeader : Bool
  /-- The leaf source has been read to its end, or the leaf was skipped (R246). -/
  leafRead : Bool
  /-- READY messages received, at the arbiter, by contributor (R250). -/
  ready : List Nat
  /-- The deadline has started, and has passed. -/
  deadlineOn : Bool
  deadlinePast : Bool
  /-- The BITMAP: skipped contributors. -/
  bitmap : Option (List Nat)
  /-- Operands and node values held by cell of 128 elements, and the (shard, lo, hi, payload) of node values sent; a reduced shard
  sent to contributor d stands there as shard P + d. -/
  held : List NodeSeg
  done : List (Nat × Nat × Nat × Nat)
  /-- Credit granted by hosts to this sender, and credit this host has granted and that has not been used. -/
  credits : List Credit
  granted : List Credit
  /-- Messages received whose values have not been consumed yet: (shard, lo, hi, seg, form). -/
  unread : List (Nat × Nat × Nat × Nat × Nat)
  /-- Payloads of the own leaf read and sent, by shard. -/
  leafNext : List (Nat × Nat)
  /-- (shard, seg) written into DST_TENSOR. -/
  delivered : List (Nat × Nat)
  /-- Shards whose root was header-only. -/
  rootHeader : List Nat
  /-- Contributors whose DRAIN_ACK is missing (R266). -/
  drains : List Nat
deriving DecidableEq, Repr

/-- One Ligature engine. -/
structure Ligature where
  slots : List Instance
  /-- BUCKET_SEQ position of the next instance: (run handle, step offset, index in the engine's list). -/
  nextOpen : List (Handle × Nat × Nat)
  /-- Early CREDIT, READY and BITMAP messages (R244). -/
  early : List Packet
  drains : List Packet
deriving DecidableEq, Repr

/-! ### Folios (R28 to R70) -/

/-- A section table entry (R31). -/
structure SectionEntry where
  ty : Nat
  flags : Nat
  inst : Nat
  off : Nat
  len : Nat
  count : Nat
  rsvd : Nat
deriving DecidableEq, Repr

/-- A cut entry (R41). -/
structure CutEntry where
  kind : Nat
  dim : Nat
  size : Nat
  stride : Nat
deriving DecidableEq, Repr

/-- A grid entry (R42). -/
structure GridEntry where
  id : Nat
  quad : Nat
  flags : Nat
  width : Nat
  height : Nat
  first : Nat
  live : Nat
deriving DecidableEq, Repr

/-- A TENSORS entry (R44). -/
structure TensorEntry where
  tag : Nat
  fmt : Nat
  dims : Nat
  role : Nat
  shape : List Nat
  placement : Nat
  scaleMode : Nat
  shardCut : Nat
  shardAxis : Nat
  layer : Nat
  rsvd : Nat
  scale : Nat
  init : Nat
  initOff : Nat
  bytes : Nat
deriving DecidableEq, Repr

/-- An OPERATIONS entry (R48). -/
structure OpEntry where
  opcode : Nat
  flags : Nat
  precision : Nat
  rounding : Nat
  spill : Nat
  grid : Nat
  attr : Nat
  inputs : List Nat
  outputs : List Nat
  stroke : Nat
  order : Nat
  rsvdZero : Bool
deriving DecidableEq, Repr

/-- A STROKES entry (R53). -/
structure StrokeEntry where
  index : Nat
  opFirst : Nat
  opCount : Nat
  exchFirst : Nat
  exchCount : Nat
  flags : Nat
  rsvdZero : Bool
deriving DecidableEq, Repr

/-- An EXCHANGES entry (R55). -/
structure ExchEntry where
  kind : Nat
  cut : Nat
  flags : Nat
  src : Nat
  dst : Nat
  dstGrid : Nat
  peer : Nat
  ref : Nat
  srcOff : Nat
  dstOff : Nat
  elements : Nat
  expected : Nat
  close : Nat
  rsvdZero : Bool
deriving DecidableEq, Repr

/-- A ROUTING entry (R196). -/
structure RoutingEntry where
  id : Nat
  experts : Nat
  k : Nat
  depth : Nat
  scoreFn : Nat
  gateNorm : Nat
  cut : Nat
  quota : Nat
  tokens : Nat
  layer : Nat
  maxLive : Nat
  sourceGrid : Nat
  expertGrid : Nat
  logits : Nat
  bias : Nat
  tokensIn : Nat
  slotIn : Nat
  slotOut : Nat
  answers : Nat
  dout : Nat
  slotDout : Nat
  slotDin : Nat
  returns : Nat
  rsvdZero : Bool
deriving DecidableEq, Repr

/-- A BUCKETS entry (R229). -/
structure BucketEntry where
  tag : Nat
  elements : Nat
  mode : Nat
  compression : Nat
  hBf16 : Nat
  divisor : Nat
  digits : List Nat
  flags : Nat
  deadlineUs : Nat
  minPresent : Nat
  layer : Nat
  rank : Nat
  keep : Nat
  routing : Nat
  localExpert : Nat
  rows : Nat
  ef : Nat
  rsvdZero : Bool
deriving DecidableEq, Repr

/-- An INTERVALS entry (R57). -/
structure IntervalEntry where
  first : Nat
  last : Nat
  grid : Nat
  rankFirst : Nat
  rankStride : Nat
  rankCount : Nat
  sram : Nat
  cycles : Nat
  rsvdZero : Bool
deriving DecidableEq, Repr

/-- A FILLER entry (R59). -/
structure FillerEntry where
  id : Nat
  opFirst : Nat
  opCount : Nat
  width : Nat
  height : Nat
  sram : Nat
  cycles : Nat
  rsvdZero : Bool
deriving DecidableEq, Repr

/-- A HINTS entry (R61). -/
structure HintEntry where
  grid : Nat
  kind : Nat
  row : Nat
  col : Nat
  value : Nat
  zero : Bool
deriving DecidableEq, Repr

/-- A roaming record (R282). -/
structure RoamRecord where
  op : Nat
  variant : Nat
  a : Nat
  b : Nat
  c : Nat
deriving DecidableEq, Repr

/-- A ROAMING instance (R50). -/
structure RoamProgram where
  inst : Nat
  count : Nat
  mask : Nat
  tokens : Nat
  zero : Bool
  records : List RoamRecord
deriving DecidableEq, Repr

/-- What an image says: its header, section table and sections (R30 to R61). -/
structure Tables where
  magic : Nat
  major : Nat
  minor : Nat
  headerBytes : Nat
  flags : Nat
  kind : Nat
  feature : Nat
  sectionCount : Nat
  totalBytes : Nat
  tableOff : Nat
  toolchain : Nat
  digest : Bytes
  headerRsvd : Bool
  sections : List SectionEntry
  boxX : Nat
  boxY : Nat
  boxZ : Nat
  cuts : List CutEntry
  grids : List GridEntry
  tensors : List TensorEntry
  ops : List OpEntry
  attrs : List (Nat × Nat × Nat)
  strokes : List StrokeEntry
  exchs : List ExchEntry
  routing : List RoutingEntry
  buckets : List BucketEntry
  roaming : List RoamProgram
  intervals : List IntervalEntry
  filler : List FillerEntry
  hints : List HintEntry
  init : List (Nat × Bytes)
deriving DecidableEq, Repr

/-! ### Loaded folios, runs and long operations (R62 to R68, R164 to R182, R366 to R379, R396 to R411) -/

/-- The snapshot area of a folio (R369): STEP reads all ones while the copy runs. -/
structure Snapshot where
  copying : Bool
  step : Nat
  image : Bytes
deriving DecidableEq, Repr

/-- A buddy store (R370): the last complete image and the one being received. -/
structure BuddyStore where
  srcRank : Nat
  complete : Option Bytes
  step : Nat
  /-- Payloads received of the incoming image, by number. -/
  incoming : List (Nat × Bytes)
  /-- TARGET_STEP of the own CHECKPOINT_WRITE that admits an image (R371). -/
  armed : Option Nat
deriving DecidableEq, Repr

/-- States of a filler unit (R60, R179 to R182). -/
inductive UnitState where
  | pending
  | running
  | committing
  | complete
deriving DecidableEq, Repr

/-- An installed folio (R62 to R65). -/
structure Folio where
  handle : Handle
  part : Part
  tables : Tables
  digest : Bytes
  finalDigest : Bytes
  /-- Job box and logical coordinate sampled at step 1 (R63). -/
  box : Nat × Nat × Nat
  coord : Nat × Nat × Nat
  /-- Quadrant, row and column of each grid (R43). -/
  grids : List (Nat × Nat × Nat)
  /-- First byte of each tensor: a local address in HBM, or an address above 2^64 for SRAM (R47, R524). -/
  tensorAt : List Nat
  /-- HBM ranges [lo, hi) the folio holds (R524). -/
  hbm : List (Nat × Nat)
  /-- CYCLES of the intervals and of the filler units (R57, R59). -/
  intervalCycles : List Nat
  unitCycles : List Nat
  /-- The carried set (R366). -/
  carried : List Nat
  /-- The job step number (R97). -/
  jobStep : Nat
  /-- Scale exponents of SCALE_MODE 1 tensors (R93, R94). -/
  scaleExp : List (Nat × Int)
  /-- Latest applied step of each gathered bucket (R260), plus one. -/
  applied : List (Nat × Nat)
  /-- GATHER_REQs served at this device: (bucket tag, STEP × 512 + consumer rank) and how many (R260). -/
  gatherServed : List ((Nat × Nat) × Nat)
  /-- Replaced by RESHARD (R364). -/
  retired : Bool
  snapshot : Option Snapshot
  buddy : Option BuddyStore
  /-- Bytes reserved for the snapshot area and the buddy store (R370). -/
  ckptBytes : Nat
  /-- States of the filler units, in UNIT_ID order. -/
  units : List UnitState
deriving DecidableEq, Repr

/-- An exchange of the present step at this device (R168 to R170). -/
structure ExchRun where
  run : Handle
  exch : Nat
  step : Nat
  /-- Open at the receiver: its stroke has opened in the receiving quadrant (R169). -/
  rxOpen : Bool
  /-- Open at the sender: the issuing stroke has opened. -/
  txOpen : Bool
  /-- Ranks whose ready markers have arrived, and ranks already served. -/
  marks : List Nat
  served : List Nat
  /-- The last source byte has been read (R167). -/
  drained : Bool
  /-- Arrival units counted. -/
  count : Nat
  /-- Units written: (sending rank, payload number). -/
  units : List (Nat × Nat)
  /-- ROUTED: packets written per sending (rank, quadrant), and end markers with their packet counts. -/
  packets : List (Nat × Nat)
  ends : List (Nat × Nat)
  /-- GATHER: next payload to request, requests outstanding, per owner; requests received from consumers. -/
  gathers : List (Nat × Nat × Nat)
deriving DecidableEq, Repr

/-- A RUN or STEP in execution (R164 to R178, R410). -/
structure Run where
  folio : Handle
  quads : List Quad
  stepCount : Nat
  recBase : Nat
  stride : Nat
  slots : Nat
  /-- Steps completed, and the job step number of the first. -/
  stepsDone : Nat
  firstStep : Nat
  /-- Time base at the opening of stroke 0 of the present step. -/
  timeStart : Nat
  /-- The counters of R411, j = 0 to 10, for the present step. -/
  counters : Vector Nat 16
  /-- The stall profile in ACLK cycles, entry q × 8 + c − 1 (R174). -/
  stalls : Vector Nat 32
  /-- Marginalia: (LAYER_TAG, quantity 0 WEIGHT 1 GRAD 2 UPDATE, exact sum) (R261). -/
  marg : List (Nat × Nat × XVal)
  /-- Skip entries: (tag, phase, present, skipped contributors) (R252). -/
  skips : List (Word32 × Bool × Nat × List Nat)
  /-- Unvisited experts: (LAYER_TAG, LOCAL_EXPERT) (R254). -/
  unvisited : List (Nat × Nat)
  instancesDone : Nat
  /-- UPDATE operations applied in the present step, and buckets whose leaf source was written in it (R238). -/
  updates : List Nat
  leafWritten : List Nat
  exchs : List ExchRun
  /-- Strokes after which every quadrant holds: the safe point of R177. -/
  stopAfter : Option Nat
  /-- Why: a CANCEL, or a record backlog (R410). -/
  cancelStop : Bool
  backlogStop : Bool
  /-- Slots whose record the host has not consumed (R410), and records that wait for their slots, oldest first: slot, bytes,
  STATUS and DETAIL0. -/
  busySlots : List Nat
  heldRecords : List (Nat × Bytes × Nat × Nat)
  /-- A checkpoint holds the job at a step boundary (R369). -/
  ckptHold : Bool
  /-- The run has ended its last step and awaits nothing else. -/
  lastDone : Bool
deriving DecidableEq, Repr

/-- What step 1 of finalization samples (R63): the partition's policy, job box and logical coordinate, and whether the fabric manager
has assigned the device a pod coordinate (R35). -/
structure LoadSample where
  requireOwner : Bool
  coordOk : Bool
  ownerHash : Bytes
  debugFolios : Bool
  hasBox : Bool
  box : Nat × Nat × Nat
  coord : Nat × Nat × Nat
deriving DecidableEq, Repr

/-- A load (R63 to R66). -/
structure LoadOp where
  resultAddr : Nat
  resultLen : Nat
  hostAddr : Nat
  len : Nat
  /-- The staging copy, once step 1 has run, and what step 1 sampled. -/
  staged : Option Bytes
  sampled : Option LoadSample
deriving DecidableEq, Repr

/-- A copy (R407, R408). -/
structure CopyOp where
  id : Nat
  part : Part
  toDevice : Bool
  folio : Handle
  tensor : Nat
  hostAddr : Nat
  off : Nat
  len : Nat
  tokenGrid : Nat
  token : Nat
  /-- The command it completes when it is not a long operation. -/
  cmd : Nat
  long : Bool
  /-- The job had a RUN or STEP live when the copy was admitted (R408). -/
  duringRun : Bool
deriving DecidableEq, Repr

/-- A checkpoint command (R367 to R373). -/
structure CkptOp where
  folio : Handle
  write : Bool
  kind : Nat
  cut : Nat
  offset : Int
  step : Nat
  hostAddr : Nat
  hostLen : Nat
  /-- The job waits at the boundary or is being copied; the image is draining. -/
  copying : Bool
  draining : Bool
  /-- Next payload to send and credit left (R371). -/
  nextPayload : Nat
  credit : Nat
  endSent : Bool
  /-- Payloads of a pulled image. -/
  got : List (Nat × Bytes)
  /-- Tensor writing has begun (R405). -/
  writing : Bool
deriving DecidableEq, Repr

/-- A RESHARD (R362 to R365). -/
structure ReshardOp where
  folioA : Handle
  folioB : Handle
  /-- Payloads that must still arrive: (source rank, B tensor, payload). -/
  missing : List (Nat × Nat × Nat)
  /-- Devices whose READY_MARKER has not come yet, with what is to be sent to them. -/
  toSend : List Nat
deriving DecidableEq, Repr

inductive LongBody where
  | run (r : Run)
  | load (l : LoadOp)
  | copy (c : CopyOp)
  | ckpt (c : CkptOp)
  | reshard (r : ReshardOp)
deriving DecidableEq, Repr

/-- The states of R404, with their codes 0 to 6. -/
inductive LongState where
  | queued
  | running
  | suspended
  | cancelling
  | done
  | cancelled
  | failed
deriving DecidableEq, Repr

/-- A long operation whose handle is in use (R396, R404). -/
structure LongOp where
  handle : Handle
  part : Part
  cmd : Nat
  opcode : Byte
  state : LongState
  /-- It has left QUEUED at least once. -/
  began : Bool
  /-- Commands in flight: pending SUSPENDs and CANCELs by number (R405). -/
  suspends : List Nat
  cancels : List Nat
  lastStatus : Byte
  doneUnits : Nat
  totalUnits : Nat
  /-- The host has consumed the FINAL record. -/
  released : Bool
  /-- Its job was cancelled by a port reset or release, and no record is due (R385). -/
  silent : Bool
  body : LongBody
deriving DecidableEq, Repr

/-- Stroke sequencer states (R165). -/
inductive SeqState where
  | idle
  | opening
  | compute
  | stalled
  | closing
  | held
deriving DecidableEq, Repr

/-- The stroke sequencer of a quadrant (R165 to R175), with the core state of its threads 0. -/
structure Sequencer where
  state : SeqState
  owner : Option Handle
  /-- Strokes opened and closed since the RUN or STEP began. -/
  opened : Nat
  closed : Nat
  /-- Operations of the open stroke that have run, fence flags set, token waits satisfied for the stroke being opened. -/
  opsDone : List Nat
  fences : List Nat
  waits : List Nat
  /-- The fence a STALLED quadrant waits for. -/
  fence : Option Nat
  /-- Present stall cause of R171, 0 for none. -/
  cause : Nat
  /-- Bands that attempted an entry in this stroke (R424). -/
  attempted : List Nat
deriving DecidableEq, Repr

/-- A filler unit running in an interval (R179 to R182). -/
structure FillerRun where
  owner : Handle
  interval : Nat
  folio : Handle
  unit : Nat
  /-- Output tensors in the staging area: (tensor, bytes). -/
  staging : List (Nat × Bytes)
  opsDone : List Nat
  committing : Bool
deriving DecidableEq, Repr

/-- A stream of a pairing with its two slots (R377, R378). -/
structure PairStream where
  id : Nat
  sender : Handle
  sendExch : Nat
  receiver : Handle
  recvExch : Nat
  slots : List (Nat × Bytes)
  published : Nat
  consumed : Nat
deriving DecidableEq, Repr

/-- A pairing that holds (R376). -/
structure Pairing where
  a : Handle
  b : Handle
  fill : Bool
  streams : List PairStream
deriving DecidableEq, Repr

/-- A PAIR that waits for its partner (R376). -/
structure PairWait where
  cmd : Nat
  part : Part
  folio : Handle
  peer : Part
  mode : Nat
  token : Bytes
deriving DecidableEq, Repr

/-- An image stream a buddy serves to a puller (R373). -/
structure PullServe where
  peer : Coord
  srcRank : Nat
  stamp : Stamp
  image : Bytes
  step : Nat
  nextPayload : Nat
  credit : Nat
  endSent : Bool
deriving DecidableEq, Repr

/-- A WAIT that a cluster's threads 0 have executed (R160, R423): mode bits and whether the offer stands. -/
structure WaitMode where
  cluster : Nat
  depth : Nat
deriving DecidableEq, Repr

/-- The whole machine. -/
structure State where
  pins : Pins
  silicon : Silicon
  boot : Boot
  power : Power
  settings : Settings
  regions : Vector Region 72
  blotter : Blotter
  errors : ErrorBlock
  /-- The time base in nanoseconds (R26). -/
  timeBase : Nat
  /-- TELEMETRY counters by (ID, INDEX); one that is not listed is 0 (R413, R443, R491). -/
  telemetry : List ((Nat × Nat) × Nat)
  /-- Stale discards per unit since its last record: (unit, discards, last stamp) (R187), and stale returns (R225). -/
  staleNotes : List (Nat × Nat × Nat)
  ports : Vector PciePort 2
  parts : Vector Partition 4
  mgmt : Mgmt
  cmds : List Cmd
  longs : List LongOp
  folios : List Folio
  pairings : List Pairing
  pairWaits : List PairWait
  fillers : List FillerRun
  copies : List CopyOp
  /-- HBM, cluster SRAM and core SRAM (R272). -/
  mem : Memory
  /-- Values of writes held for a resting domain: (port, offset, value) (R25). -/
  shadows : List (Nat × Nat × Nat)
  seqs : Vector Sequencer 4
  ductus : Vector Ductus 4
  ligature : Vector Ligature 8
  gatherQ : List Packet
  fabric : Vector FabricPort 16
  router : Router
  /-- Accepted packets that wait for their unit (R339). -/
  inbox : List Packet
  lineQueues : List LineQueue
  ledger : List LedgerSource
  windows : List ReqWindow
  trackers : List Tracker
  threads : List Thread
  /-- Last issued thread per core, and last served core per cluster (R140, R155). -/
  lastIssued : List (Nat × Nat)
  lastServed : List (Nat × Nat)
  /-- Token counters: (cluster, counter, value) (R143). -/
  tokens : List ((Nat × Nat) × Nat)
  waits : List WaitMode
  /-- Reservoir copies of DEBUG folios by core, as numbers of free values (R130). -/
  reservoirs : List (Nat × Nat)
  pulls : List PullServe
  /-- Debug window writes that take effect at RESUME: local address and bytes, oldest first (R163). -/
  debugWrites : List (Nat × Bytes)
  /-- HBM scrub position per stack (R279). -/
  scrub : Vector Nat 8
  /-- Failed re-sends of the flit in progress per quadrant bridge (R475). -/
  bridge : Vector Nat 4
  /-- The next command number (the model's own). -/
  nextUid : Nat
  /-- How many free values have been drawn (log entry 3). -/
  fresh : Nat
  /-- Commands that are waiting, first in, first out. -/
  pending : List Instr
deriving DecidableEq, Repr

/-! ### Reset -/

/-- The faults of the machine: none. Every command of the table has an effect in the manual, and one whose enabling condition
does not hold changes nothing (log entry 1). -/
inductive Fault where
deriving DecidableEq, Repr

/-- The refusals of the machine. -/
inductive Refusal where
  /-- Raised by Machine/Dispatch.lean for a command that has no meaning yet. Safe: the run stops there. -/
  | notModelled (mnemonic : String)
deriving DecidableEq, Repr

/-- A power domain at reset: PD_STATn 0, which is ON, and PD_CFGn 0x0032_0000 (R434). -/
def PowerDomain.reset : PowerDomain :=
  { state := .on, toOff := false, fromOff := false, trickle := false, wakeQueued := false, offersStand := false, wakeSource := 0, request := 0,
    method := 0, idleDepth := 0, margin := 0x32, entryMethod := 0, aborted := 0, refused := 0, lastCode := 0, lastUnit := 0,
    entryTempC := 0 }

/-- ACLK_STATq 0x1A1A_1A1A and DROOP_CFGq 0x23 (R434). -/
def QuadClock.reset : QuadClock :=
  { current := 26, policyMax := 26, capCeiling := 26, thermalCeiling := 26, thresholdMv := 35, droopEvents := 0,
    stretching := false, stretch := 0, throttling := false, coolReadings := 0, overTemp := false, setpointMv := 750 }

def Power.reset : Power :=
  { domains := Vector.replicate 73 PowerDomain.reset, quads := Vector.replicate 4 QuadClock.reset, capW := 3000, powerW := 0,
    inputMv := 0, tjMax := 0, lowWindows := 0, capUnmet := false, tripped := false, resetHeld := false, hot := false }

def Boot.reset : Boot :=
  { stage := .romInit, attempts := 0, fwPort := 0, imageAddr := 0, imageLen := 0, errCode := 0, errDetail := 0, bootCount := 0,
    serial := List.replicate 16 0, identityHash := List.replicate 64 0, fwDigest := List.replicate 64 0, fwVersion := 0,
    fwEpoch := 0, beat := 0, held := false, seed := none, image := none, recordOk := false, slotId := 0 }

def Blotter.reset : Blotter :=
  { slots := [], head := 0, frozen := false, freezeSeq := 0, lost := 0, freezeOnJob := false, corrected := [], reported := [] }

def ErrorBlock.reset : ErrorBlock :=
  { fatal := false, jobFailed := false, sramUe := false, hbmUe := false, pathFailure := false, cause := 0, fatalTime := 0,
    vector := Vector.replicate 2 0, pathFailureCount := 0, hbmUeCount := 0, sramUeCount := 0, jobFailedCount := 0, index := 0,
    beats := Vector.replicate 16 (0, 0), supervised := false }

def PciePort.reset : PciePort :=
  { training := false, linkUp := false, rate := 0, width := 0, dState := 0, bar4Ctrl := 0, locked := false,
    msix := Vector.replicate 64 ⟨0, 0, 1⟩, pba := 0, host := Memory.empty, bar4Data := none, bar4Start := 0,
    bar4Left := 0, bar4Poison := false }

def Ring.reset : Ring := { base := 0, db := 0, cfg := 0, posted := 0, consumed := 0, backoff := 0, activeUntil := 0 }

def CompRing.reset : CompRing := { ring := Ring.reset, mod := 0, sinceSignal := 0, waiting := [], unread := [] }

def Partition.reset : Partition :=
  { enable := false, assigned := false, port := 0, fmChannel := false, powerAdmin := false, requireOwner := false,
    debugFolios := false, limit := 0, assignBlock := [], sq := Vector.replicate 16 Ring.reset,
    cq := Vector.replicate 16 CompRing.reset, eq := Ring.reset, fmtx := Ring.reset, fmrx := Ring.reset, eventsLost := 0,
    nextSeq := 1, job := none, carveStamp := 0 }

/-- The settings' reset values (R501, R502): quotas X 786, Y 1,575, Z 2,139 for each class. -/
def Settings.reset : Settings :=
  { stallLimit := 100, scrubHours := 24, hbmIdleUs := 50, trickleDelta := 8, serPpm := 1000, fportEnable := 0xFFFF,
    quota := #v[786, 1575, 2139, 786, 1575, 2139, 786, 1575, 2139, 786, 1575, 2139], lock := false }

def FabricPort.reset : FabricPort :=
  { state := .down, lanes := 0, goodOwn := 0, goodPartner := 0, detected := 0, settled := 0,
    idents := Vector.replicate 8 none, aligned := 0, txPreset := 0, presetReq := 0xF, tsEcho := Vector.replicate 8 0,
    attempts := 0, retryWait := false, degraded := false, partnerId := 0, rttNs := 0, cageOn := true, vcOff := 0,
    partnerOff := 0, partnerAllOff := false, resync := false, rx := none, inBuf := [], outQ := [], tx := none,
    rr := Vector.replicate 4 0, collNext := false, peak := Vector.replicate 4 0, winFixed := Vector.replicate 8 0, winBad := 0,
    sent := none }

def Router.reset : Router :=
  { bank0 := ⟨[], []⟩, bank1 := ⟨[], []⟩, myCoord := 0, coordValid := false, extX := 0, extY := 0, extZ := 0,
    bank0Valid := false, bank1Valid := false, injectEpoch := 0, arrivals0 := 0, arrivals1 := 0, resendUs := 50,
    throttleLevel := 12, injectLimit := 0, gateway := 0, gatewayValid := false, cmapIndex := 0, cmapTime := 0, cmap := [],
    throttle := 1, injectQ := [], localQ := [], arrived := [], sends := [], recvs := [], held := [] }

def Sequencer.reset : Sequencer :=
  { state := .idle, owner := none, opened := 0, closed := 0, opsDone := [], fences := [], waits := [], fence := none, cause := 0,
    attempted := [] }

def Ductus.reset : Ductus := { gens := [], lastGen := 0xFF, nextOrder := 0, tables := [], visited := [], drains := [] }

def Ligature.reset : Ligature := { slots := [], nextOpen := [], early := [], drains := [] }

/-- The machine with no supply: every register at its reset value, every input pin as nothing drives it, memory with nothing
listed, no command waiting. POWER_GOOD starts boot (R444, R516; log entry 2). -/
def State.reset : State :=
  { pins := { modResetN := false, perstN := Vector.replicate 2 false, slotStrap := 7, pwrGood := false, thermTripN := true,
              faultN := true },
    silicon := { eeprom := none, pufSeed := none },
    boot := Boot.reset, power := Power.reset, settings := Settings.reset,
    regions := Vector.replicate 72 { assigned := false, part := 0, stackLocal := false, zeroing := false },
    blotter := Blotter.reset, errors := ErrorBlock.reset, timeBase := 0, telemetry := [], staleNotes := [],
    ports := Vector.replicate 2 PciePort.reset, parts := Vector.replicate 4 Partition.reset,
    mgmt := { busy := none, responses := [] }, cmds := [], longs := [], folios := [], pairings := [], pairWaits := [],
    fillers := [], copies := [], mem := Memory.empty, shadows := [], seqs := Vector.replicate 4 Sequencer.reset,
    ductus := Vector.replicate 4 Ductus.reset, ligature := Vector.replicate 8 Ligature.reset, gatherQ := [],
    fabric := Vector.replicate 16 FabricPort.reset, router := Router.reset, inbox := [], lineQueues := [], ledger := [],
    windows := [], trackers := [], threads := [], lastIssued := [], lastServed := [], tokens := [], waits := [],
    reservoirs := [], pulls := [], debugWrites := [], scrub := Vector.replicate 8 0, bridge := Vector.replicate 4 0, nextUid := 1, fresh := 0,
    pending := [] }

end Sys2Proof.Machine
end

