-- ==== Sys2Proof/Machine/Ops.lean ====
section
/-! DEFINITION. The named operations over memory and over the tables of the state that every family uses. -/

namespace Sys2Proof.Machine

open Sys2Proof

/-! ### Memory -/

/-- The byte of a canonical list at an address; an unlisted byte reads 0. -/
def cellGet : List Host.Cell → Nat → Byte
  | [], _ => 0#8
  | (k, v) :: t, a => if k = a then v else cellGet t a

/-- A canonical list with one byte written; a byte of 0 is taken out of the list. -/
def cellSet : List Host.Cell → Nat → Byte → List Host.Cell
  | [], a, b => if b = 0#8 then [] else [(a, b)]
  | (k, v) :: t, a, b =>
    if a < k then (if b = 0#8 then (k, v) :: t else (a, b) :: (k, v) :: t)
    else if a = k then (if b = 0#8 then t else (a, b) :: t)
    else (k, v) :: cellSet t a b

/-- Addresses strictly rise from a bound on, and no listed byte is 0. -/
def cellsWf : Nat → List Host.Cell → Bool
  | _, [] => true
  | lo, (k, v) :: t => decide (lo ≤ k) && (v != 0#8) && cellsWf (k + 1) t

/-- The canonical form of memory. -/
def Memory.wf (m : Memory) : Bool := cellsWf 0 m.cells

/-- The free-value number of the undefined range that holds an address. -/
def undefAt (l : List (Nat × Nat × Nat)) (a : Nat) : Option Nat :=
  match l with
  | [] => none
  | (lo, hi, g) :: t => if lo ≤ a && a < hi then some g else undefAt t a

/-- Undefined ranges with [lo, hi) taken out of them. -/
def carve (l : List (Nat × Nat × Nat)) (lo hi : Nat) : List (Nat × Nat × Nat) :=
  (l.map (fun r =>
    (if r.1 < min lo r.2.1 then [(r.1, min lo r.2.1, r.2.2)] else []) ++
    (if max hi r.1 < r.2.1 then [(max hi r.1, r.2.1, r.2.2)] else []))).flatten

/-- One byte read: the listed value, a free value in an undefined range, or 0 (R7, R272). -/
def Memory.read (m : Memory) (a : Nat) : Byte :=
  match undefAt m.undef a with
  | some g => Config.freeByte g a
  | none => cellGet m.cells a

/-- One byte written. -/
def Memory.write (m : Memory) (a : Nat) (b : Byte) : Memory :=
  { m with cells := cellSet m.cells a b, undef := if (undefAt m.undef a).isSome then carve m.undef a (a + 1) else m.undef }

/-- n bytes read from an address up. -/
def Memory.readBytes (m : Memory) (a n : Nat) : Bytes := (List.range n).map (fun i => m.read (a + i))

/-- Bytes written from an address up. -/
def Memory.writeBytes (m : Memory) (a : Nat) : Bytes → Memory
  | [] => m
  | b :: t => (m.write a b).writeBytes (a + 1) t

/-- [lo, hi) set to zero; its poison is cleared. -/
def Memory.zero (m : Memory) (lo hi : Nat) : Memory :=
  { cells := m.cells.filter (fun c => decide (c.1 < lo) || decide (hi ≤ c.1)), undef := carve m.undef lo hi,
    poison := m.poison.filter (fun l => decide (l * 64 < lo) || decide (hi ≤ l * 64)) }

/-- [lo, hi) made undefined under the free-value number g (R7). -/
def Memory.undefine (m : Memory) (lo hi g : Nat) : Memory :=
  { m with cells := m.cells.filter (fun c => decide (c.1 < lo) || decide (hi ≤ c.1)),
           undef := (lo, hi, g) :: carve m.undef lo hi }

/-- Whether a range touches a poisoned line (R278, R477). -/
def Memory.poisoned (m : Memory) (a n : Nat) : Bool :=
  m.poison.any (fun l => decide (l * 64 < a + n) && decide (a < l * 64 + 64))

/-- The line of an address poisoned. -/
def Memory.setPoison (m : Memory) (a : Nat) : Memory :=
  { m with poison := if m.poison.contains (a / 64) then m.poison else a / 64 :: m.poison }

/-- The poison of a line cleared. -/
def Memory.clearPoison (m : Memory) (a : Nat) : Memory := { m with poison := m.poison.filter (fun l => l != a / 64) }

/-- A data write: lines that it covers whole lose their poison, others keep it (R278, R477). -/
def Memory.store (m : Memory) (a : Nat) (b : Bytes) : Memory :=
  { m.writeBytes a b with
    poison := m.poison.filter (fun l => !(decide (a ≤ l * 64) && decide (l * 64 + 64 ≤ a + b.length))) }

/-! ### The local map (R272 to R274) -/

def hbmTop : Nat := 0x9000000000
def regionBytes : Nat := 0x200000000
def clusterBase : Nat := 0x400000000000
def clusterBytes : Nat := 0x80000
def coreBase : Nat := 0x500000000000
def coreBytes : Nat := 0x10000
def controlBase : Nat := 0x600000000000
/-- Where the model keeps SRAM tensors, whose placement is not exposed (R28, log entry 8). -/
def sramBase : Nat := 2 ^ 64

/-- Whether an address is HBM. -/
def isHbm (a : Nat) : Bool := decide (a < hbmTop)

/-- The stack and stack address of an HBM byte under the mode of its region (R274). -/
def stackOf (stackLocal : Bool) (a : Nat) : Nat × Nat :=
  let g := a / regionBytes
  let o := a % regionBytes
  if stackLocal then (o / 2 ^ 30, g * 2 ^ 30 + o % 2 ^ 30)
  else ((o / 4096) % 8, g * 2 ^ 30 + (o / 32768) * 4096 + o % 4096)

/-- The local address of a stack address (the inverse of R274). -/
def localOfStack (stackLocal : Bool) (stack sa : Nat) : Nat :=
  let g := sa / 2 ^ 30
  let o := sa % 2 ^ 30
  if stackLocal then g * regionBytes + stack * 2 ^ 30 + o
  else g * regionBytes + (o / 4096) * 32768 + stack * 4096 + o % 4096

/-- Region of an HBM address. -/
def regionOf (s : State) (a : Nat) : Region := s.regions.toArray.getD (a / regionBytes) ⟨false, 0, false, false⟩

/-- Cluster, core and quadrant arithmetic (R14, R15, R17). -/
def quadOfCluster (c : Nat) : Nat := c / 1250
def bandOfCluster (c : Nat) : Nat := (c / 1250) * 10 + ((c % 1250) / 50 / 5) * 2 + (c % 50) / 25
def clusterAt (q row col : Nat) : Nat := q * 1250 + row * 50 + col
def bandClusters (b : Nat) : List Nat :=
  (List.range 125).map (fun i => clusterAt (b / 10) ((b % 10) / 2 * 5 + i / 25) ((b % 2) * 25 + i % 25))

/-! ### Unit identifiers (R20) -/

def unitQuad (q block : Nat) : Nat := 0x2000 + q * 256 + block
def unitHbm (n : Nat) : Nat := 0x4000 + n
def unitFabric (n : Nat) : Nat := 0x6000 + n
def unitHost (p : Nat) : Nat := 0x8000 + p
def unitScribe (n : Nat) : Nat := 0xA000 + n
def unitCpb (b : Nat) : Nat := 0xC000 + b
def unitDomain (d : Nat) : Nat := 0xE000 + d

/-! ### Fields of the state -/

def updPort (s : State) (p : Port) (f : PciePort → PciePort) : State := { s with ports := s.ports.set p (f s.ports[p]) }
def updPart (s : State) (p : Part) (f : Partition → Partition) : State := { s with parts := s.parts.set p (f s.parts[p]) }
def updDomain (s : State) (d : Domain) (f : PowerDomain → PowerDomain) : State :=
  { s with power := { s.power with domains := s.power.domains.set d (f s.power.domains[d]) } }
def updQuadClock (s : State) (q : Quad) (f : QuadClock → QuadClock) : State :=
  { s with power := { s.power with quads := s.power.quads.set q (f s.power.quads[q]) } }
def updSeq (s : State) (q : Quad) (f : Sequencer → Sequencer) : State := { s with seqs := s.seqs.set q (f s.seqs[q]) }
def updDuctus (s : State) (q : Quad) (f : Ductus → Ductus) : State := { s with ductus := s.ductus.set q (f s.ductus[q]) }
def updLig (s : State) (e : Engine) (f : Ligature → Ligature) : State := { s with ligature := s.ligature.set e (f s.ligature[e]) }
def updFabric (s : State) (p : FPort) (f : FabricPort → FabricPort) : State := { s with fabric := s.fabric.set p (f s.fabric[p]) }
def updRouter (s : State) (f : Router → Router) : State := { s with router := f s.router }
def updRegion (s : State) (g : Fin 72) (f : Region → Region) : State := { s with regions := s.regions.set g (f s.regions[g]) }
def updMem (s : State) (f : Memory → Memory) : State := { s with mem := f s.mem }
def updHost (s : State) (p : Port) (f : Memory → Memory) : State := updPort s p (fun x => { x with host := f x.host })
def updLong (s : State) (h : Handle) (f : LongOp → LongOp) : State :=
  { s with longs := updFirst (fun o => o.handle == h) f s.longs }
def updFolio (s : State) (h : Handle) (f : Folio → Folio) : State :=
  { s with folios := updFirst (fun o => o.handle == h) f s.folios }
/-- The RUN or STEP with a handle, changed. -/
def updRun (s : State) (h : Handle) (f : Run → Run) : State :=
  updLong s h (fun o =>
    match o.body with
    | .run r => { o with body := .run (f r) }
    | _ => o)

def longOf (s : State) (h : Handle) : Option LongOp := s.longs.find? (fun o => o.handle == h)
def folioOf (s : State) (h : Handle) : Option Folio := s.folios.find? (fun o => o.handle == h)
def cmdOf (s : State) (uid : Nat) : Option Cmd := s.cmds.find? (fun c => c.uid == uid)

/-- The RUN or STEP with a handle, with its long operation. -/
def runOf (s : State) (h : Handle) : Option (LongOp × Run) :=
  match longOf s h with
  | none => none
  | some o =>
    match o.body with
    | .run r => some (o, r)
    | _ => none

/-- A quadrant of a number, 0 when out of range. -/
def quadN (n : Nat) : Quad := Fin.ofNat 4 n
def partN (n : Nat) : Part := Fin.ofNat 4 n
def portN (n : Nat) : Port := Fin.ofNat 2 n
def domainN (n : Nat) : Domain := Fin.ofNat 73 n
def fportN (n : Nat) : FPort := Fin.ofNat 16 n
def engineN (n : Nat) : Engine := Fin.ofNat 8 n
def clsN (n : Nat) : Cls := Fin.ofNat 4 n

def allParts : List Part := (List.range 4).map partN
def allQuads : List Quad := (List.range 4).map quadN
def allEngines : List Engine := (List.range 8).map engineN
def allFports : List FPort := (List.range 16).map fportN

/-! ### Telemetry (R413) -/

/-- The value of a counter in the list. -/
def tallyGet (l : List ((Nat × Nat) × Nat)) (k : Nat × Nat) : Nat :=
  match l.find? (fun e => e.1 == k) with
  | some e => e.2
  | none => 0

/-- The list with a counter set; zero is not listed, and the keys stay sorted. -/
def tallySet (l : List ((Nat × Nat) × Nat)) (k : Nat × Nat) (v : Nat) : List ((Nat × Nat) × Nat) :=
  let rest := l.filter (fun e => e.1 != k)
  if v = 0 then rest
  else insertBy (fun a b => decide (a.1.1 < b.1.1) || (a.1.1 == b.1.1 && decide (a.1.2 < b.1.2))) (k, v) rest

def State.counter (s : State) (id idx : Nat) : Nat := tallyGet s.telemetry (id, idx)

/-- A 64-bit telemetry counter raised. -/
def bump (s : State) (id idx n : Nat) : State :=
  { s with telemetry := tallySet s.telemetry (id, idx) ((s.counter id idx + n) % 2 ^ 64) }

/-- A telemetry counter that keeps a maximum. -/
def bumpMax (s : State) (id idx n : Nat) : State :=
  { s with telemetry := tallySet s.telemetry (id, idx) (max (s.counter id idx) n) }

/-! ### Free values -/

/-- One free number drawn (log entry 3). -/
def drawFree (s : State) : Nat × State := (Config.freeNat s.fresh, { s with fresh := s.fresh + 1 })

/-- A range of device memory made undefined. -/
def undefineRange (s : State) (lo hi : Nat) : State :=
  { s with mem := s.mem.undefine lo hi s.fresh, fresh := s.fresh + 1 }

/-- A range of host memory made undefined. -/
def undefineHost (s : State) (p : Port) (lo hi : Nat) : State :=
  { updHost s p (fun m => m.undefine lo hi s.fresh) with fresh := s.fresh + 1 }

/-! ### Jobs and stamps (R183) -/

/-- The stamp of a job. -/
def Job.stamp (j : Job) : Stamp := j.id ++ j.gen

/-- The logical rank of a coordinate in a box (R40). -/
def rankOf (box c : Nat × Nat × Nat) : Nat := c.1 + box.1 * (c.2.1 + box.2.1 * c.2.2)

/-- The coordinate of a rank in a box. -/
def coordOfRank (box : Nat × Nat × Nat) (r : Nat) : Nat × Nat × Nat :=
  (r % (max box.1 1), r / (max box.1 1) % (max box.2.1 1), r / (max box.1 1) / (max box.2.1 1))

/-- The partition whose job holds a stamp that names a job; a torn job holds none (R481). -/
def partOfStamp (s : State) (stamp : Stamp) : Option Part :=
  if stamp = 0 then none
  else allParts.find? (fun p =>
    match s.parts[p].job with
    | some j => !j.torn && j.stamp == stamp
    | none => false)

/-- The stamp of a partition's job, or 0. -/
def partStamp (s : State) (p : Part) : Stamp :=
  match s.parts[p].job with
  | some j => if j.torn then 0 else j.stamp
  | none => 0

/-- Whether a partition's job is in a local stop or torn down (R480, R481). -/
def partStopped (s : State) (p : Part) : Bool :=
  match s.parts[p].job with
  | some j => j.stopped || j.torn
  | none => false

/-- Whether a job with this stamp is in a local stop (R480). -/
def stampStopped (s : State) (stamp : Stamp) : Bool :=
  match partOfStamp s stamp with
  | none => false
  | some p =>
    match s.parts[p].job with
    | some j => j.stopped
    | none => false

/-- Whether the device runs its firmware: STAGE READY, no device stop and no thermal trip (R438, R448, R483). -/
def State.live (s : State) : Bool := decide (s.boot.stage = Stage.ready) && !s.errors.fatal && !s.power.tripped

/-- Whether a power domain is ON. -/
def domainOn (s : State) (d : Domain) : Bool := decide (s.power.domains[d].state = PdState.on)

end Sys2Proof.Machine
end

