-- ==== Sys2Proof/Machine/Events.lean ====
section
/-! DEFINITION. What the device reports: blotter records (R485 to R488), MSI-X messages (R384, R498), completion records (R399 to
R401), host events (R414), packets for the fabric (R330, R344), job failures (R478 to R480) and the device stop (R483). -/

namespace Sys2Proof.Machine

open Sys2Proof

/-! ### The blotter -/

/-- The slot of record n: n mod 2048, and while the lock holds one of the 64 slots outside it (R485, R488). -/
def blotterSlot (b : Blotter) (n : Nat) : Nat :=
  if b.frozen then (b.freezeSeq + 1 + (n - b.freezeSeq - 1) % 64) % 2048 else n % 2048

/-- Whether writing record n overwrites a record that was written after the lock (R488). -/
def blotterLoses (b : Blotter) (n : Nat) : Bool :=
  b.frozen && b.slots.any (fun e => e.1 == blotterSlot b n && decide (b.freezeSeq < e.2.1))

/-- One record written at HEAD. -/
def Blotter.put (b : Blotter) (r : BlotterRec) : Blotter :=
  let slot := blotterSlot b b.head
  { b with slots := (slot, b.head, r) :: b.slots.filter (fun e => e.1 != slot), head := b.head + 1,
           lost := if blotterLoses b b.head then satAdd 16 b.lost 1 else b.lost }

/-- A record with the present time (R485, R487). The blotter is in PD_AON and needs the supply. -/
def note (s : State) (code unit : Nat) (stamp : Stamp) (a0 a1 a2 : Nat) : State :=
  if !s.pins.pwrGood then s
  else
    let r : BlotterRec :=
      { time := s.timeBase, code := BitVec.ofNat 16 code, unit := BitVec.ofNat 16 unit, stamp := stamp,
        arg0 := BitVec.ofNat 64 a0, arg1 := BitVec.ofNat 32 a1, arg2 := BitVec.ofNat 32 a2 }
    let s1 := if blotterLoses s.blotter s.blotter.head then bump s 0x53 0 1 else s
    { s1 with blotter := s1.blotter.put r }

/-- A freeze caused by the record last written, whose error code is given (R486, R488). -/
def freeze (s : State) (cause : Nat) : State :=
  let f := s.blotter.head
  let s1 := note s 0x80 (unitCpb 6) 0 ((f - 1) % 2 ^ 32) cause 0
  if s.blotter.frozen then s1
  else { s1 with blotter := { s1.blotter with frozen := true, freezeSeq := f, lost := 0 } }

/-- The 32 bytes of a record (R485). -/
def BlotterRec.bytes (r : BlotterRec) : Bytes :=
  le 8 r.time ++ le 2 r.code.toNat ++ le 2 r.unit.toNat ++ le 4 r.stamp.toNat ++ le 8 r.arg0.toNat ++ le 4 r.arg1.toNat ++
    le 4 r.arg2.toNat

/-- Held records from a sequence number on, in sequence order. -/
def heldFrom (b : Blotter) (first : Nat) : List (Nat × BlotterRec) :=
  sortBy (fun a c => decide (a.1 < c.1)) ((b.slots.filter (fun e => decide (first ≤ e.2.1))).map (fun e => (e.2.1, e.2.2)))

/-- A read of the blotter: header and records (R489). -/
def blotterRead (b : Blotter) (first count : Nat) : Bytes :=
  let rs := (heldFrom b first).take count
  let firstRet := match rs with | [] => first | r :: _ => r.1
  let flags := (if b.frozen then 1 else 0) + (if firstRet ≠ first then 2 else 0)
  le 4 b.head ++ le 4 firstRet ++ le 4 rs.length ++ le 4 flags ++ (rs.map (fun r => r.2.bytes)).flatten

/-! ### MSI-X -/

/-- A vector signalled: the message is written, or the PBA bit set while it is masked (R498). -/
def signalVector (s : State) (p : Port) (v : Nat) : State :=
  let e := s.ports[p].msix.toArray.getD v ⟨0, 0, 1⟩
  if e.ctrl.getLsbD 0 then updPort s p (fun x => { x with pba := x.pba ||| (1#64 <<< v) })
  else updHost s p (fun m => m.writeBytes e.addr.toNat (le 4 e.data.toNat))

/-! ### Rings -/

def Ring.enabled (r : Ring) : Bool := r.cfg.getLsbD 31
def Ring.error (r : Ring) : Bool := r.cfg.getLsbD 30
def Ring.usable (r : Ring) : Bool := r.enabled && !r.error
def Ring.depth (r : Ring) : Nat := 2 ^ (r.cfg.toNat % 32)
def Ring.vector (r : Ring) : Nat := bits r.cfg.toNat 13 8
def Ring.cqSel (r : Ring) : Fin 16 := Fin.ofNat 16 (bits r.cfg.toNat 23 20)
/-- Entries between the two counts (R389). -/
def Ring.held (r : Ring) : Nat := (r.posted - r.consumed).toNat
def Ring.free (r : Ring) : Nat := r.depth - r.held
/-- PHASE of the entry with posted count n (R400). -/
def Ring.phase (r : Ring) : Nat := 1 - (r.posted.toNat / r.depth) % 2
/-- Host address of the entry of a count. -/
def Ring.entryAddr (r : Ring) (c : Word32) (size : Nat) : Nat := r.base.toNat / 4096 * 4096 + (c.toNat % r.depth) * size

/-- The port may post for its partitions: D0 and no device stop (R380, R483). -/
def portPosts (s : State) (p : Port) : Bool := s.ports[p].dState == 0 && s.ports[p].linkUp

/-! ### Host events -/

/-- An event record (R414). -/
def eventBytes (s : State) (code unit : Nat) (stamp : Stamp) (a0 a1 phase : Nat) : Bytes :=
  le 2 code ++ le 2 unit ++ le 4 stamp.toNat ++ le 8 s.timeBase ++ le 8 a0 ++ le 4 a1 ++ zeros 3 ++ le 1 phase

/-- A record into the event ring of a partition, with its vector (R384). -/
def eventPut (s : State) (p : Part) (code unit : Nat) (stamp : Stamp) (a0 a1 : Nat) : State :=
  let pt := s.parts[p]
  let r := pt.eq
  let s1 := updHost s pt.port (fun m => m.writeBytes (r.entryAddr r.posted 32) (eventBytes s code unit stamp a0 a1 r.phase))
  let s2 := updPart s1 p (fun x => { x with eq := { x.eq with posted := x.eq.posted + 1 } })
  signalVector s2 pt.port r.vector

/-- An event delivered to one partition (R414, R497): lost events are counted, and EVENTS_LOST takes the last free entry. -/
def postEvent (s : State) (p : Part) (code unit : Nat) (stamp : Stamp) (a0 a1 : Nat) : State :=
  let pt := s.parts[p]
  if !pt.assigned then s
  else if pt.eq.usable && portPosts s pt.port && decide (2 ≤ pt.eq.free) then eventPut s p code unit stamp a0 a1
  else
    let s1 := bump (updPart s p (fun x => { x with eventsLost := x.eventsLost + 1 })) 0x40 p.val 1
    if pt.eq.usable && portPosts s pt.port && pt.eq.free == 1 then
      updPart (note (eventPut s1 p 3 (unitHost pt.port.val) 0 (pt.eventsLost + 1) 0) 0x103 (unitHost pt.port.val) 0
        (pt.eventsLost + 1) 0 0) p (fun x => { x with eventsLost := 0 })
    else s1

/-- An event: one blotter record (R414, R487) and a record to each partition named. -/
def hostEvent (s : State) (ps : List Part) (code unit : Nat) (stamp : Stamp) (a0 a1 : Nat) : State :=
  ps.foldl (fun s p => postEvent s p code unit stamp a0 a1) (note s (0x100 + code) unit stamp a0 a1 0)

/-- An event that is recorded by its own error record only: JOB_FAILED and DEVICE_ERROR (R487). -/
def hostEventQuiet (s : State) (ps : List Part) (code unit : Nat) (stamp : Stamp) (a0 a1 : Nat) : State :=
  ps.foldl (fun s p => postEvent s p code unit stamp a0 a1) s

/-! ### Completion records -/

/-- The 32 bytes of a completion record (R399). -/
def Completion.bytes (c : Completion) (sqHead : Word32) (phase : Nat) : Bytes :=
  le 4 c.tag.toNat ++ le 4 c.handle.toNat ++ le 4 sqHead.toNat ++ le 1 c.sq.val ++ le 1 c.opcode.toNat ++ le 1 c.status.toNat ++
    le 1 c.kind.toNat ++ le 2 c.reason.toNat ++ le 2 0 ++ le 4 c.detail0.toNat ++ le 4 c.detail1.toNat ++ zeros 3 ++ le 1 phase

/-- Whether a record waits in some ring. -/
def recordWaits (s : State) (uid : Nat) : Bool :=
  allParts.any (fun p => (s.parts[p].cq.toList).any (fun c => c.waiting.any (fun r => r.uid == uid)))

/-- A record whose turn depends on no waiting record (R401). -/
def recordReady (s : State) (r : Completion) : Bool :=
  match r.after with
  | none => true
  | some u => !recordWaits s u

/-- Commands of a FENCE's scope that still wait (R398). -/
def settleFences (cmds : List Cmd) : List Cmd :=
  cmds.map (fun c =>
    match c.fence with
    | none => c
    | some l => { c with fence := some (l.filter (fun u => cmds.any (fun d => d.uid == u))) })

/-- A command leaves flight when its FINAL record is posted or discarded (R397). -/
def retireCmd (s : State) (uid : Nat) : State :=
  { s with cmds := settleFences (s.cmds.filter (fun c => c.uid != uid)) }

def updCq (s : State) (p : Part) (q : Fin 16) (f : CompRing → CompRing) : State :=
  updPart s p (fun x => { x with cq := x.cq.set q (f x.cq[q]) })

/-- One ready record of a ring posted (R384, R400), or discarded when the ring has failed or is disabled (R392). -/
def postOne (s : State) (p : Part) (q : Fin 16) (r : Completion) : State :=
  let pt := s.parts[p]
  let c := pt.cq[q]
  let rest := c.waiting.filter (fun x => x.uid != r.uid)
  if !c.ring.usable then
    let s1 := updCq s p q (fun x => { x with waiting := rest })
    match r.finalOf with
    | some u => retireCmd s1 u
    | none => s1
  else
    let bytes := r.bytes pt.sq[r.sq].consumed c.ring.phase
    let s1 := updHost s pt.port (fun m => m.writeBytes (c.ring.entryAddr c.ring.posted 32) bytes)
    let sig := r.signal || decide (max 1 (bits c.mod.toNat 15 0) ≤ c.sinceSignal + 1)
    let s2 := updCq s1 p q (fun x =>
      { x with ring := { x.ring with posted := x.ring.posted + 1 }, waiting := rest, unread := x.unread ++ [r],
               sinceSignal := if sig then 0 else x.sinceSignal + 1 })
    let s3 := if sig then signalVector s2 pt.port c.ring.vector else s2
    match r.finalOf with
    | some u => retireCmd s3 u
    | none => s3

/-- The first record of a ring that can be posted or must be discarded now. -/
def nextPost (s : State) (p : Part) (q : Fin 16) : Option Completion :=
  let c := s.parts[p].cq[q]
  if c.ring.usable && !(portPosts s s.parts[p].port && decide (0 < c.ring.free)) then none
  else c.waiting.find? (recordReady s)

/-- The first ring and record that can be posted. -/
def nextPostAny (s : State) : Option (Part × Fin 16 × Completion) :=
  (allParts.flatMap (fun p => (List.range 16).map (fun q => (p, (Fin.ofNat 16 q : Fin 16))))).findSome? (fun x =>
    match nextPost s x.1 x.2 with
    | some r => some (x.1, x.2, r)
    | none => none)

/-- A FENCE whose scope has drained (R398). -/
def drainedFence (s : State) : Option Cmd :=
  s.cmds.find? (fun c =>
    match c.fence with
    | some l => l.isEmpty
    | none => false)

/-- The record of a command, with the fields of its descriptor (R393, R399). -/
def mkRecord (s : State) (c : Cmd) (status kind reason d0 d1 : Nat) : Completion :=
  { uid := s.nextUid, tag := BitVec.ofNat 32 (u32 c.desc 4), handle := c.handle, sq := c.sq,
    opcode := BitVec.ofNat 8 (u8 c.desc 0), status := BitVec.ofNat 8 status, kind := BitVec.ofNat 8 kind,
    reason := BitVec.ofNat 16 reason, detail0 := BitVec.ofNat 32 d0, detail1 := BitVec.ofNat 32 d1,
    signal := bit (u8 c.desc 1) 0 && kind == 0, finalOf := if kind = 0 then some c.uid else none, after := none,
    slotOf := none }

/-- A record joins the waiting records of the completion ring that its submission ring names. -/
def enqueueRecord (s : State) (c : Cmd) (r : Completion) : State :=
  updCq { s with nextUid := s.nextUid + 1 } c.part s.parts[c.part].sq[c.sq].cqSel
    (fun x => { x with waiting := x.waiting ++ [r] })

/-- Waiting records posted as far as the rings allow; fuel bounds the count. A FENCE whose scope has drained completes. -/
def pumpFuel : Nat → State → State
  | 0, s => s
  | n + 1, s =>
    match nextPostAny s with
    | some x => pumpFuel n (postOne s x.1 x.2.1 x.2.2)
    | none =>
      match drainedFence s with
      | some c =>
        let s1 := { s with cmds := updFirst (fun d => d.uid == c.uid) (fun d => { d with fence := none }) s.cmds }
        pumpFuel n (enqueueRecord s1 c (mkRecord s1 c 0 0 0 0 0))
      | none => s

/-- Enough fuel to post every waiting record and complete every FENCE. -/
def pumpNeed (s : State) : Nat :=
  (allParts.map (fun p => ((s.parts[p].cq.toList).map (fun c => c.waiting.length)).sum)).sum + 2 * s.cmds.length + 1

def pump (s : State) : State := pumpFuel (pumpNeed s) s

/-- A record of a command becomes ready and is posted if its ring has room (R400). -/
def postRecord (s : State) (uid status kind reason d0 d1 : Nat) : State :=
  match cmdOf s uid with
  | none => s
  | some c => pump (enqueueRecord s c (mkRecord s c status kind reason d0 d1))

/-- The FINAL record of a command (R401). -/
def finish (s : State) (uid status reason d0 d1 : Nat) : State := postRecord s uid status 0 reason d0 d1

/-- A FINAL record that follows another record (R401). -/
def finishAfter (s : State) (uid status reason d0 d1 : Nat) (after : Option Nat) : State :=
  match cmdOf s uid with
  | none => s
  | some c => pump (enqueueRecord s c { mkRecord s c status 0 reason d0 d1 with after := after })

/-! ### Packets from local units -/

/-- A packet with empty trailer fields. -/
def mkPacket (cls opcode dstUnit : Nat) (src dst : Coord) (stamp : Stamp) (aux : Nat) (body : Nat) (payload : Bytes) : Packet :=
  { cls := clsN cls, opcode := BitVec.ofNat 4 opcode, epoch := 0, dset := 0, dst := dst, src := src,
    dstUnit := BitVec.ofNat 3 dstUnit, aux := BitVec.ofNat 16 aux, stamp := stamp, engine := 0, body := BitVec.ofNat 128 body,
    payload := payload, seq := 0, stomp := false, crc := 0 }

/-- A packet handed to the router: inside the device it reaches its unit (R344); otherwise it waits at injection. -/
def sendPacket (s : State) (p : Packet) : State :=
  if p.dst = s.router.myCoord then { s with inbox := s.inbox ++ [p] }
  else updRouter s (fun r => { r with injectQ := r.injectQ ++ [p] })

/-- The body of form S (R318). -/
def bodyS (loc sysId : Nat) : Nat := loc % 2 ^ 47 + (sysId % 2 ^ 16) * 2 ^ 64

/-- A SYS_MESSAGE to the gateway's agent (R351); with no valid gateway the blotter alone keeps the event. -/
def fmMessage (s : State) (code : Nat) (args : Bytes) : State :=
  if s.router.gatewayValid && s.router.coordValid then
    sendPacket { s with nextUid := s.nextUid + 1 }
      (mkPacket 3 4 6 s.router.myCoord s.router.gateway 0 0 (bodyS controlBase s.nextUid)
        (le 2 code ++ le 2 args.length ++ zeros 4 ++ args))
  else s

/-- The 16 argument bytes of an error report (R479). -/
def reportArgs (stamp : Stamp) (code unit detail cls : Nat) : Bytes :=
  le 4 stamp.toNat ++ le 2 code ++ le 2 unit ++ le 4 detail ++ le 1 cls ++ zeros 3

/-! ### Errors -/

/-- ARG0 of JOB_FAILED and DEVICE_ERROR (R479). -/
def errArg (code unit detail : Nat) : Nat := code % 2 ^ 16 + (unit % 2 ^ 16) * 2 ^ 16 + (detail % 2 ^ 32) * 2 ^ 32

/-- An error record (R487). -/
def errorNote (s : State) (code unit : Nat) (stamp : Stamp) (a0 a1 detail : Nat) : State :=
  note s (0x8000 + code) unit stamp a0 a1 detail

/-- A contained error: its record, DEVICE_ERROR to every partition, and at most one report per unit per second (R474, R479). -/
def containedError (s : State) (code unit : Nat) (stamp : Stamp) (detail : Nat) : State :=
  let s1 := errorNote s code unit stamp 0 0 detail
  let s2 := hostEventQuiet s1 allParts 0x30 unit stamp (errArg code unit detail) 1
  if s2.blotter.reported.contains unit then s2
  else fmMessage { s2 with blotter := { s2.blotter with reported := unit :: s2.blotter.reported } } 0x201
    (reportArgs stamp code unit detail 1)

/-- Every port takes its fatal vector when it is enabled (R483 step 3). -/
def signalFatal (s : State) : State :=
  [0, 1].foldl (fun (s : State) (p : Nat) =>
    let v := s.errors.vector[portN p]
    if v.getLsbD 31 then signalVector s (portN p) (v.toNat % 64) else s) s

/-- A fabric port in electrical idle and DOWN, its buffers empty (R314, R483). -/
def FabricPort.shut (f : FabricPort) : FabricPort :=
  { FabricPort.reset with cageOn := f.cageOn, txPreset := f.txPreset }

/-- The commands in flight complete with DEVICE_FATAL and the error code (R483 step 6). -/
def finishAll (s : State) (code : Nat) : State :=
  (s.cmds.map (fun c => c.uid)).foldl (fun s u => finish s u 0x40 code 0 0) s

/-- The device stop (R483). A later device-class error writes its record only. -/
def deviceStop (s : State) (code unit detail a0 : Nat) : State :=
  let s1 := errorNote s code unit 0 a0 0 detail
  if s.errors.fatal then s1
  else
    let s2 := freeze s1 code
    let s3 := { s2 with
      errors := { s2.errors with fatal := true, cause := BitVec.ofNat 32 (unit * 2 ^ 16 + code), fatalTime := s.timeBase,
                                 supervised := false },
      pins := { s2.pins with faultN := false } }
    let s4 := fmMessage (signalFatal s3) 0x202 (reportArgs 0 code unit detail 3)
    -- the scribe cores still run unless they are the cause
    let s5 := if code = 0x201 ∨ code = 0x202 then s4 else finishAll s4 code
    { s5 with
      fabric := s5.fabric.map FabricPort.shut,
      seqs := s5.seqs.map (fun q => { q with state := if q.state = SeqState.idle then .idle else .held }),
      router := { s5.router with injectQ := [] } }

/-- A job-class error of the job that holds a stamp (R478): local stop, record, one report per role generation. An error whose
job cannot be named is a device-class error (R474). -/
def failJob (s : State) (stamp : Stamp) (code unit detail a0 a1 : Nat) : State :=
  match partOfStamp s stamp with
  | none => deviceStop s code unit detail a0
  | some p =>
    let s1 := errorNote s code unit stamp a0 a1 detail
    let first := match s.parts[p].job with | some j => !j.failed | none => false
    if !first then s1
    else
      let s2 := if s1.blotter.freezeOnJob then freeze s1 code else s1
      let s3 := updPart s2 p (fun x => { x with job := x.job.map (fun j => { j with failed := true, stopped := true }) })
      let s4 := bump { s3 with errors := { s3.errors with jobFailed := true,
                                                          jobFailedCount := satAdd 32 s3.errors.jobFailedCount 1 } } 0x52 0 1
      fmMessage (hostEventQuiet s4 [p] 4 unit stamp (errArg code unit detail) 0) 5 (reportArgs stamp code unit detail 2)

/-- A delivery that a stamp check discards (R187). -/
def staleDrop (s : State) (unit : Nat) (stamp : Stamp) : State :=
  let s1 := bump s 1 0 1
  let n := match s.staleNotes.find? (fun e => e.1 == unit) with | some e => e.2.1 | none => 0
  { s1 with staleNotes := (unit, n + 1, stamp.toNat) :: s1.staleNotes.filter (fun e => e.1 != unit) }

/-- A corrected error of a unit (R476, R486). -/
def correctedError (s : State) (unit : Nat) : State :=
  let n := match s.blotter.corrected.find? (fun e => e.1 == unit) with | some e => e.2 | none => 0
  { s with blotter := { s.blotter with corrected := (unit, n + 1) :: s.blotter.corrected.filter (fun e => e.1 != unit) } }

/-- A port in LINK_STATE: the event to every partition (R414). -/
def linkEvent (s : State) (p : FPort) (code : Nat) : State :=
  hostEvent s allParts 0x10 (unitFabric p.val) 0 p.val code

/-- POWER_EVENT to every partition (R442). -/
def powerEvent (s : State) (what arg unit : Nat) : State := hostEvent s allParts 0x20 unit 0 what arg

end Sys2Proof.Machine
end

