-- ==== Sys2Proof/Machine/Image.lean ====
section
/-! DEFINITION. A folio image read from its bytes (R30 to R61, R196, R229, R282), and what follows from its tables alone: the
sizes of tensors, attributes, cuts, ranks and positions (R40 to R46, R73, R79, R233, R359). -/

namespace Sys2Proof.Machine

open Sys2Proof

/-! ### Reading an image -/

/-- n numbers of `size` bytes from an offset. -/
def fields (b : Bytes) (o size n : Nat) : List Nat := (List.range n).map (fun i => uN b (o + i * size) size)

/-- An entry of the section table (R31). -/
def readSection (b : Bytes) (o : Nat) : SectionEntry :=
  { ty := u16 b o, flags := u16 b (o + 2), inst := u32 b (o + 4), off := u64 b (o + 8), len := u64 b (o + 16),
    count := u32 b (o + 24), rsvd := u32 b (o + 28) }

/-- The first section of a type. -/
def sectionOf (l : List SectionEntry) (ty : Nat) : Option SectionEntry := l.find? (fun e => e.ty == ty)

/-- The bytes of a section. -/
def sectionBytes (b : Bytes) (e : SectionEntry) : Bytes := (b.drop e.off).take e.len

/-- The entries of a table section, each read from its own bytes. -/
def readTable {α : Type} (b : Bytes) (l : List SectionEntry) (ty size : Nat) (f : Bytes → α) : List α :=
  match sectionOf l ty with
  | none => []
  | some e => (chunks size ((sectionBytes b e).take (e.count * size))).map f

/-- A cut entry (R41). -/
def readCut (e : Bytes) : CutEntry := { kind := u8 e 0, dim := u8 e 1, size := u16 e 2, stride := u16 e 4 }

/-- A grid entry (R42). -/
def readGrid (e : Bytes) : GridEntry :=
  { id := u32 e 0, quad := u8 e 4, flags := u8 e 5, width := u16 e 6, height := u16 e 8,
    first := u16 e 10 * 2 ^ 16 + u16 e 12, live := u16 e 14 }

/-- A TENSORS entry (R44). -/
def readTensor (e : Bytes) : TensorEntry :=
  { tag := u32 e 0, fmt := u8 e 4, dims := u8 e 5, role := u16 e 6, shape := fields e 8 4 6, placement := u8 e 0x20,
    scaleMode := u8 e 0x21, shardCut := u8 e 0x22, shardAxis := u8 e 0x23, layer := u16 e 0x24, rsvd := u16 e 0x26,
    scale := u32 e 0x28, init := u32 e 0x2C, initOff := u64 e 0x30, bytes := u64 e 0x38 }

/-- An OPERATIONS entry (R48). -/
def readOp (e : Bytes) : OpEntry :=
  { opcode := u16 e 0, flags := u16 e 2, precision := u8 e 4, rounding := u8 e 5, spill := u16 e 6, grid := u32 e 8,
    attr := u32 e 0xC, inputs := fields e 0x10 4 4, outputs := fields e 0x20 4 2, stroke := u32 e 0x28, order := u32 e 0x2C,
    rsvdZero := zeroRange e 0x30 16 }

/-- A STROKES entry (R53). -/
def readStroke (e : Bytes) : StrokeEntry :=
  { index := u32 e 0, opFirst := u32 e 4, opCount := u32 e 8, exchFirst := u32 e 12, exchCount := u32 e 16, flags := u32 e 20,
    rsvdZero := zeroRange e 24 8 }

/-- An EXCHANGES entry (R55). -/
def readExch (e : Bytes) : ExchEntry :=
  { kind := u8 e 0, cut := u8 e 1, flags := u16 e 2, src := u32 e 4, dst := u32 e 8, dstGrid := u32 e 12, peer := u32 e 16,
    ref := u32 e 20, srcOff := u64 e 24, dstOff := u64 e 32, elements := u64 e 40, expected := u32 e 48, close := u32 e 52,
    rsvdZero := zeroRange e 56 8 }

/-- A ROUTING entry (R196). -/
def readRouting (e : Bytes) : RoutingEntry :=
  { id := u32 e 0, experts := u16 e 4, k := u8 e 6, depth := u8 e 7, scoreFn := u8 e 8, gateNorm := u8 e 9, cut := u8 e 10,
    quota := u32 e 12, tokens := u32 e 16, layer := u16 e 0x14, maxLive := u16 e 0x16, sourceGrid := u32 e 0x18,
    expertGrid := u32 e 0x1C, logits := u32 e 0x20, bias := u32 e 0x24, tokensIn := u32 e 0x28, slotIn := u32 e 0x2C,
    slotOut := u32 e 0x30, answers := u32 e 0x34, dout := u32 e 0x38, slotDout := u32 e 0x3C, slotDin := u32 e 0x40,
    returns := u32 e 0x44, rsvdZero := u8 e 11 == 0 && zeroRange e 0x48 56 }

/-- A BUCKETS entry (R229). -/
def readBucket (e : Bytes) : BucketEntry :=
  { tag := u32 e 0, elements := u32 e 4, mode := u8 e 8, compression := u8 e 9, hBf16 := u8 e 10, divisor := u8 e 11,
    digits := fields e 12 1 3, flags := u8 e 15, deadlineUs := u32 e 16, minPresent := u16 e 0x14, layer := u16 e 0x16,
    rank := u8 e 0x18, keep := u8 e 0x19, routing := u16 e 0x1A, localExpert := u16 e 0x1C, rows := u32 e 0x20,
    ef := u32 e 0x24, rsvdZero := u16 e 0x1E == 0 && zeroRange e 0x28 24 }

/-- An INTERVALS entry (R57). -/
def readInterval (e : Bytes) : IntervalEntry :=
  { first := u32 e 0, last := u32 e 4, grid := u32 e 8, rankFirst := u16 e 12, rankStride := u16 e 14, rankCount := u16 e 16,
    sram := u32 e 20, cycles := u32 e 24, rsvdZero := u16 e 18 == 0 && zeroRange e 28 4 }

/-- A FILLER entry (R59). -/
def readFiller (e : Bytes) : FillerEntry :=
  { id := u32 e 0, opFirst := u32 e 4, opCount := u32 e 8, width := u16 e 12, height := u16 e 14, sram := u32 e 16,
    cycles := u32 e 20, rsvdZero := zeroRange e 24 8 }

/-- A HINTS entry (R61). -/
def readHint (e : Bytes) : HintEntry :=
  { grid := u32 e 0, kind := u8 e 4, row := u8 e 5, col := u8 e 6, value := u32 e 8, zero := u8 e 7 == 0 && zeroRange e 12 4 }

/-- A roaming record (R282). -/
def readRecord (e : Bytes) : RoamRecord := { op := u16 e 0, variant := u16 e 2, a := u32 e 4, b := u32 e 8, c := u32 e 12 }

/-- A ROAMING instance (R50). -/
def readProgram (b : Bytes) (e : SectionEntry) : RoamProgram :=
  let x := sectionBytes b e
  { inst := e.inst, count := u32 x 0, mask := u16 x 4, tokens := u16 x 6, zero := zeroRange x 8 8,
    records := (chunks 16 ((x.drop 16).take (u32 x 0 * 16))).map readRecord }

/-- An image read whole. -/
def readImage (b : Bytes) : Tables :=
  let n := min (u32 b 0x14) 64
  let tab := u64 b 0x20
  let ss := (List.range n).map (fun i => readSection b (tab + 32 * i))
  let m := match sectionOf ss 1 with | some e => sectionBytes b e | none => []
  let nc := u16 m 6
  let ng := u32 m 8
  { magic := u32 b 0, major := u16 b 4, minor := u16 b 6, headerBytes := u32 b 8, flags := u32 b 12, kind := u16 b 0x10,
    feature := u16 b 0x12, sectionCount := u32 b 0x14, totalBytes := u64 b 0x18, tableOff := tab, toolchain := u64 b 0x28,
    digest := slice b 0x30 64, headerRsvd := zeroRange b 0x70 16, sections := ss,
    boxX := u16 m 0, boxY := u16 m 2, boxZ := u16 m 4,
    cuts := (chunks 16 ((m.drop 16).take (16 * nc))).map readCut,
    grids := (chunks 16 ((m.drop (16 + 16 * nc)).take (16 * ng))).map readGrid,
    tensors := readTable b ss 2 64 readTensor, ops := readTable b ss 3 64 readOp,
    attrs := readTable b ss 4 8 (fun e => (u16 e 0, u16 e 2, u32 e 4)), strokes := readTable b ss 5 32 readStroke,
    exchs := readTable b ss 6 64 readExch, routing := readTable b ss 7 128 readRouting, buckets := readTable b ss 8 64 readBucket,
    roaming := (ss.filter (fun e => e.ty == 9)).map (readProgram b), intervals := readTable b ss 10 32 readInterval,
    filler := readTable b ss 11 32 readFiller, hints := readTable b ss 12 16 readHint,
    init := (ss.filter (fun e => e.ty == 13)).map (fun e => (e.inst, sectionBytes b e)) }

/-! ### What follows from the tables -/

/-- The marker of an unused index. -/
def noneIdx : Nat := 0xFFFFFFFF

/-- The box of an image. -/
def Tables.box (t : Tables) : Nat × Nat × Nat := (t.boxX, t.boxY, t.boxZ)

/-- A coordinate in one dimension: 0 X, 1 Y, 2 Z. -/
def coordIn (c : Nat × Nat × Nat) (dim : Nat) : Nat :=
  match dim with
  | 0 => c.1
  | 1 => c.2.1
  | _ => c.2.2

/-- A coordinate with one dimension replaced. -/
def setCoordIn (c : Nat × Nat × Nat) (dim v : Nat) : Nat × Nat × Nat :=
  match dim with
  | 0 => (v, c.2.1, c.2.2)
  | 1 => (c.1, v, c.2.2)
  | _ => (c.1, c.2.1, v)

/-- The position of a coordinate along a cut (R41). -/
def cutPos (c : CutEntry) (at_ : Nat × Nat × Nat) : Nat := (coordIn at_ c.dim / max c.stride 1) % max c.size 1

/-- The coordinate of the device at position p along a cut that differs from this one only there (R360). -/
def coordAtPos (c : CutEntry) (at_ : Nat × Nat × Nat) (p : Nat) : Nat × Nat × Nat :=
  setCoordIn at_ c.dim (coordIn at_ c.dim + p * max c.stride 1 - cutPos c at_ * max c.stride 1)

/-- A cut entry by index; 0xFF is none. -/
def Tables.cut? (t : Tables) (i : Nat) : Option CutEntry := if i = 0xFF then none else t.cuts[i]?

/-- The number of positions along a cut index, 1 when there is none. -/
def Tables.cutSize (t : Tables) (i : Nat) : Nat := match t.cut? i with | some c => c.size | none => 1

/-- The position of a coordinate along a cut index, 0 when there is none. -/
def Tables.posOn (t : Tables) (i : Nat) (c : Nat × Nat × Nat) : Nat :=
  match t.cut? i with | some e => cutPos e c | none => 0

/-- The rank of the device at position p along a cut index from a coordinate. -/
def Tables.rankAtPos (t : Tables) (i : Nat) (c : Nat × Nat × Nat) (p : Nat) : Nat :=
  match t.cut? i with
  | some e => rankOf t.box (coordAtPos e c p)
  | none => rankOf t.box c

/-- The number of elements of a shape. -/
def shapeElems (l : List Nat) : Nat := l.foldl (fun a x => a * x) 1

/-- The elements of a tensor's share. -/
def TensorEntry.elems (t : TensorEntry) : Nat := shapeElems t.shape

/-- The format of a tensor; FP32 stands for an unknown code, which finalization rejects. -/
def TensorEntry.format (t : TensorEntry) : Fmt := (fmtOf t.fmt).getD .fp32

/-- The bytes of n elements of a format, scale bytes not counted (R73). -/
def elemBytes (f : Fmt) (n : Nat) : Nat := ceilDiv (n * f.bits) 8

/-- Where the scale array of an MX share begins (R79). -/
def TensorEntry.scaleOff (t : TensorEntry) : Nat := roundUp (elemBytes t.format t.elems) 64

/-- The size that FORMAT and SHAPE imply (R46, R79). -/
def TensorEntry.size (t : TensorEntry) : Nat :=
  if t.format.isMx then t.scaleOff + t.elems / 32 else elemBytes t.format t.elems

/-- The extent of a dimension. -/
def TensorEntry.extent (t : TensorEntry) (i : Nat) : Nat := t.shape.getD i 1

/-- Whether a tensor lies in HBM. -/
def TensorEntry.inHbm (t : TensorEntry) : Bool := decide (t.placement ≤ 1)

/-- A ROLE bit (R44). -/
def TensorEntry.hasRole (t : TensorEntry) (i : Nat) : Bool := bit t.role i

/-- The logical shape of a tensor (R359). -/
def Tables.logicalShape (t : Tables) (e : TensorEntry) : List Nat :=
  match t.cut? e.shardCut with
  | none => e.shape
  | some c => e.shape.mapIdx (fun i x => if i = e.shardAxis then x * c.size else x)

/-- The attribute run of an operation, to the first entry whose KEY is 0 (R49). -/
def Tables.attrRun (t : Tables) (o : OpEntry) : List (Nat × Nat × Nat) :=
  if o.attr = noneIdx then [] else (t.attrs.drop o.attr).takeWhile (fun a => a.1 != 0)

/-- The VALUE of a key. -/
def Tables.attr? (t : Tables) (o : OpEntry) (key : Nat) : Option Nat :=
  ((t.attrRun o).find? (fun a => a.1 == key)).map (fun a => a.2.2)

/-- The VALUE of a key, with a default. -/
def Tables.attr (t : Tables) (o : OpEntry) (key dflt : Nat) : Nat := (t.attr? o key).getD dflt

/-- A bucket by tag. -/
def Tables.bucket? (t : Tables) (tag : Nat) : Option BucketEntry := t.buckets.find? (fun b => b.tag == tag)

/-- The contributors of a bucket (R230). -/
def Tables.bucketP (t : Tables) (b : BucketEntry) : Nat := ((b.digits.filter (fun d => d != 0xFF)).map t.cutSize).foldl (· * ·) 1

/-- The contributor index of a coordinate (R233). -/
def Tables.contributor (t : Tables) (b : BucketEntry) (c : Nat × Nat × Nat) : Nat :=
  (b.digits.filter (fun d => d != 0xFF)).foldr (fun d acc => t.posOn d c + t.cutSize d * acc) 0

/-- The coordinate of contributor n of this coordinate's group (R233). -/
def Tables.contributorCoord (t : Tables) (b : BucketEntry) (c : Nat × Nat × Nat) (n : Nat) : Nat × Nat × Nat :=
  ((b.digits.filter (fun d => d != 0xFF)).foldl (fun acc d =>
    (match t.cut? d with
      | some e => coordAtPos e acc.1 (acc.2 % max e.size 1)
      | none => acc.1, acc.2 / max (t.cutSize d) 1)) (c, n)).1

/-- The number of a POINT exchange's receiver along its cut: PEER is a signed offset with wraparound (R55). -/
def Tables.pointPeer (t : Tables) (e : ExchEntry) (c : Nat × Nat × Nat) (back : Bool) : Nat × Nat × Nat :=
  match t.cut? e.cut with
  | none => c
  | some k =>
    let off := toSigned 32 e.peer
    let p : Int := (cutPos k c : Int) + (if back then -off else off)
    coordAtPos k c (p % ((max k.size 1 : Nat) : Int)).toNat

/-- The strokes of one step. -/
def Tables.strokeCount (t : Tables) : Nat := t.strokes.length

/-- The stroke in which an exchange is issued (R53). -/
def Tables.issueStroke (t : Tables) (x : Nat) : Nat :=
  match t.strokes.find? (fun e => decide (e.exchFirst ≤ x) && decide (x < e.exchFirst + e.exchCount)) with
  | some e => e.index
  | none => 0

/-- The exchanges issued in a stroke. -/
def Tables.exchsOf (t : Tables) (stroke : Nat) : List Nat :=
  match t.strokes[stroke]? with
  | some e => (List.range e.exchCount).map (· + e.exchFirst)
  | none => []

/-- The operations of a stroke. -/
def Tables.opsOf (t : Tables) (stroke : Nat) : List Nat :=
  match t.strokes[stroke]? with
  | some e => (List.range e.opCount).map (· + e.opFirst)
  | none => []

/-- The ROUTING entry that an operation names. -/
def Tables.routingOf (t : Tables) (o : OpEntry) : Nat := t.attr o 9 noneIdx

/-- The latest ROUTE of a ROUTING entry at or before a stroke: what names a batch within a folio (R199). -/
def Tables.batchAt (t : Tables) (ri stroke : Nat) : Option Nat :=
  ((t.ops.zipIdx.filter (fun e => e.1.opcode == 0x0301 && t.routingOf e.1 == ri && decide (e.1.stroke ≤ stroke))).foldl
    (fun (best : Option (Nat × Nat)) e =>
      match best with
      | none => some (e.1.stroke, e.2)
      | some b => if b.1 ≤ e.1.stroke then some (e.1.stroke, e.2) else some b) none).map (fun b => b.2)

/-- The batch of a ROUTED or ROUTED_REVERSE exchange. -/
def Tables.exchBatch (t : Tables) (x : Nat) : Option Nat :=
  match t.exchs[x]? with
  | some e => t.batchAt e.ref (t.issueStroke x)
  | none => none

/-- DIR of a ROUTED or ROUTED_REVERSE exchange by the source it names (R199, R208). -/
def ExchEntry.dir (e : ExchEntry) (r : RoutingEntry) : Nat :=
  if e.kind = 1 then (if e.src = r.tokensIn then 0 else 2) else (if e.src = r.slotOut then 1 else 3)

/-- The exchange of a batch with a direction. -/
def Tables.batchExch (t : Tables) (ri batch dir : Nat) : Option Nat :=
  match t.routing[ri]? with
  | none => none
  | some r => (List.range t.exchs.length).find? (fun x =>
      match t.exchs[x]? with
      | some e => (e.kind == 1 || e.kind == 2) && e.ref == ri && e.dir r == dir && t.exchBatch x == some batch
      | none => false)

/-- The experts of a ROUTING entry at one position, and the slots of each (R197). -/
def Tables.expertsLocal (t : Tables) (r : RoutingEntry) : Nat := r.experts / max (t.cutSize r.cut) 1
def Tables.capacity (t : Tables) (r : RoutingEntry) : Nat := t.cutSize r.cut * r.quota

end Sys2Proof.Machine
end

