-- ==== Sys2Proof/Machine/Peers.lean ====
section
/-! DEFINITION. Packets between the devices of a job: body layouts (R318), logical ranks and COORD_MAP (R331, R341), role stamps
of units (R185), and the reduction tree's places (R132, R236). -/

namespace Sys2Proof.Machine

open Sys2Proof

/-! ### Bodies (R318), bit 0 being header bit 128 -/

/-- Form E: exchange index, step and unit. -/
def bodyE (exch step unit : Nat) : Nat := exch % 2 ^ 20 + (step % 2 ^ 16) * 2 ^ 20 + (unit % 2 ^ 36) * 2 ^ 36

/-- Form D: generation, routing, source rank and source quadrant. -/
def bodyD (gen routing srcRank srcQuad : Nat) : Nat :=
  gen % 2 ^ 8 + (routing % 2 ^ 16) * 2 ^ 8 + (srcRank % 2 ^ 9) * 2 ^ 24 + (srcQuad % 4) * 2 ^ 33

/-- The fields of a collective message (R248). -/
structure CollHead where
  msg : Nat
  tag : Nat
  phase : Nat
  step : Nat
  shard : Nat
  lo : Nat
  hi : Nat
  seg : Nat
  form : Nat
deriving DecidableEq, Repr

/-- Form C. -/
def bodyC (c : CollHead) : Nat :=
  c.msg % 16 + (c.tag % 2 ^ 32) * 2 ^ 4 + (c.phase % 2) * 2 ^ 36 + (c.step % 2 ^ 16) * 2 ^ 37 + (c.shard % 2 ^ 9) * 2 ^ 53 +
    (c.lo % 2 ^ 9) * 2 ^ 62 + (c.hi % 2 ^ 9) * 2 ^ 71 + (c.seg % 2 ^ 23) * 2 ^ 80 + (c.form % 8) * 2 ^ 103

/-- Bits [hi:lo] of a packet's header; the body begins at bit 128. -/
def Packet.field (p : Packet) (hi lo : Nat) : Nat := bits p.body.toNat (hi - 128) (lo - 128)

/-- The collective fields of a packet (R318, form C). -/
def Packet.coll (p : Packet) : CollHead :=
  { msg := p.field 131 128, tag := p.field 163 132, phase := p.field 164 164, step := p.field 180 165, shard := p.field 189 181,
    lo := p.field 198 190, hi := p.field 207 199, seg := p.field 230 208, form := p.field 233 231 }

/-- The exchange index, step and unit of a packet (R318, form E). -/
def Packet.exch (p : Packet) : Nat := p.field 147 128
def Packet.step (p : Packet) : Nat := p.field 163 148
def Packet.unit (p : Packet) : Nat := p.field 199 164

/-- Whether a packet has a class and opcode (R317). -/
def Packet.isOp (p : Packet) (cls op : Nat) : Bool := p.cls.val == cls && p.opcode.toNat == op

/-! ### Ranks and coordinates -/

/-- The COORD_MAP entry of a partition's rank in the injection bank (R331, R341). -/
def coordMapEntry (r : Router) (p : Part) (rank : Nat) : Nat :=
  let b := if r.injectEpoch = 0 then r.bank0 else r.bank1
  match b.coordMap.find? (fun e => e.1 == p.val * 512 + rank) with
  | some e => e.2.toNat
  | none => 0

/-- The rank whose valid COORD_MAP entry of a partition names a coordinate, in the injection bank. -/
def rankOfCoord (r : Router) (p : Part) (c : Coord) : Option Nat :=
  let b := if r.injectEpoch = 0 then r.bank0 else r.bank1
  (b.coordMap.find? (fun e => e.1 / 512 == p.val && e.2.getLsbD 15 && e.2.toNat % 512 == c.toNat)).map (fun e => e.1 % 512)

/-- A job packet sent to a logical rank: to this device when the rank is its own, by COORD_MAP otherwise (R341). -/
def sendToRank (s : State) (p : Part) (own rank : Nat) (pkt : Packet) : State :=
  let me := s.router.myCoord
  if rank = own then { s with inbox := s.inbox ++ [{ pkt with src := me, dst := me }] }
  else
    let e := coordMapEntry s.router p rank
    if bit e 15 then sendPacket s { pkt with src := me, dst := BitVec.ofNat 9 e }
    else failJob (bump s 0x30 0 1) pkt.stamp 0x132 (unitFabric 24) (2 ^ 31 + rank) 0 0

/-- A packet sent back to where another came from. -/
def sendBack (s : State) (dest : Coord) (pkt : Packet) : State :=
  let me := s.router.myCoord
  if dest = me then { s with inbox := s.inbox ++ [{ pkt with src := me, dst := me }] }
  else sendPacket s { pkt with src := me, dst := dest }

/-! ### Folios, runs and stamps -/

/-- The rank of this device for a folio. -/
def Folio.rank (f : Folio) : Nat := rankOf f.box f.coord

/-- The quadrant of a grid of a folio; quadrant 0 for a grid that is not there. -/
def Folio.gridQuad (f : Folio) (g : Nat) : Quad := match f.grids[g]? with | some x => quadN x.1 | none => 0

/-- Whether a grid lies in a quadrant. -/
def Folio.gridIn (f : Folio) (g : Nat) (q : Quad) : Bool := match f.grids[g]? with | some x => x.1 == q.val | none => false

/-- The clusters of a grid, by row and then column. -/
def Folio.gridClusters (f : Folio) (g : Nat) : List Nat :=
  match f.grids[g]?, f.tables.grids[g]? with
  | some (q, r, c), some e =>
    (List.range (e.width * e.height)).map (fun i => clusterAt q (r + i / max e.width 1) (c + i % max e.width 1))
  | _, _ => []

/-- The quadrants in which the grids of a folio lie (R164). -/
def Folio.quads (f : Folio) : List Quad := allQuads.filter (fun q => f.grids.any (fun g => g.1 == q.val))

/-- The handle of the RUN or STEP that occupies a quadrant. -/
def occupant (s : State) (q : Quad) : Option Handle := s.seqs[q].owner

/-- The stamp that a quadrant's stubs and Ductus engine hold (R185): that of the job whose RUN or STEP occupies it. -/
def quadStamp (s : State) (q : Quad) : Stamp :=
  match s.seqs[q].owner with
  | none => 0
  | some h =>
    match longOf s h with
    | none => 0
    | some o => partStamp s o.part

/-- Whether a RUN or STEP occupies its quadrants: it has begun and its units hold its job's stamp (R164, R185). -/
def occupies (s : State) (h : Handle) : Bool := allQuads.any (fun q => s.seqs[q].owner == some h)

/-- The running RUN or STEP of a partition's job whose units hold the job's stamp, with its folio. -/
def liveRuns (s : State) : List (LongOp × Run × Folio) :=
  s.longs.filterMap (fun o =>
    match o.body with
    | .run r => if occupies s o.handle then (folioOf s r.folio).map (fun f => (o, r, f)) else none
    | _ => none)

/-- The live run whose job holds a stamp. -/
def runOfStamp (s : State) (stamp : Stamp) : Option (LongOp × Run × Folio) :=
  (liveRuns s).find? (fun x => partStamp s x.1.part == stamp)

/-- The stamp held by a partition's carve-out as a memory target (R185): from load completion to unload. -/
def carveStampOf (s : State) (p : Part) : Stamp :=
  if s.folios.any (fun f => f.part == p) then s.parts[p].carveStamp else 0

/-! ### The reduction tree (R132, R236) -/

/-- ceil(log2 n), for n of at least 1. -/
def clog2 (n : Nat) : Nat := if n ≤ 1 then 0 else Nat.log2 (n - 1) + 1

/-- The split point m of node (a, b) (R132). -/
def treeSplit (a b : Nat) : Nat := a + 2 ^ (clog2 (b - a + 1) - 1)

/-- The height of node (a, b). -/
def treeHeight (a b : Nat) : Nat := clog2 (b - a + 1)

/-- host(a, b) for the shard of owner o (R236). -/
def treeHost (o a b : Nat) : Nat := if a ≤ o && o ≤ b then o else a

/-- The nodes of the tree over contributors a to b, each with its parent; fuel is the height. -/
def treeNodes : Nat → Option (Nat × Nat) → Nat → Nat → List ((Nat × Nat) × Option (Nat × Nat))
  | 0, par, a, b => [((a, b), par)]
  | n + 1, par, a, b =>
    if a = b then [((a, b), par)]
    else ((a, b), par) :: (treeNodes n (some (a, b)) a (treeSplit a b - 1) ++ treeNodes n (some (a, b)) (treeSplit a b) b)

/-- All nodes of the tree over P contributors. -/
def treeAll (p : Nat) : List ((Nat × Nat) × Option (Nat × Nat)) := treeNodes 10 none 0 (p - 1)

/-- The parent of a node, or none for the root and for a pair that is no node. -/
def treeParent (p a b : Nat) : Option (Nat × Nat) :=
  match (treeAll p).find? (fun e => e.1 == (a, b)) with
  | some e => e.2
  | none => none

def isTreeNode (p a b : Nat) : Bool := (treeAll p).any (fun e => e.1 == (a, b))

/-- Whether contributors c and d exchange messages of an instance: a value of a node for some shard passes between them, or a
reduced shard under MODE 1, or READY and BITMAP of a lenient instance (R236, R250). -/
def exchangesWith (p : Nat) (all lenient : Bool) (c d : Nat) : Bool :=
  c != d && (all || (lenient && (c == 0 || d == 0)) ||
    (List.range p).any (fun o => (treeAll p).any (fun e =>
      match e.2 with
      | none => false
      | some par =>
        let x := treeHost o e.1.1 e.1.2
        let y := treeHost o par.1 par.2
        (x == c && y == d) || (x == d && y == c))))

end Sys2Proof.Machine
end

