-- ==== Sys2Proof/Machine/LongOps.lean ====
section
/-! DEFINITION. Long operations (R396, R401 to R406), the records of a RUN (R410), what a CANCEL, a SUSPEND and a TEARDOWN do to a
job's quadrants, threads, batches and slots (R142, R177, R178, R182, R223, R266, R481). -/

namespace Sys2Proof.Machine

open Sys2Proof

/-! ### Handles and records -/

/-- Whether a handle is in use (R396). -/
def handleUsed (s : State) (h : Handle) : Bool :=
  s.longs.any (fun o => o.handle == h) || s.folios.any (fun f => f.handle == h)

/-- The first free sequence number from n on; fuel bounds the values in use. -/
def freeSeqFuel (s : State) (p : Part) : Nat → Nat → Nat
  | 0, n => n
  | k + 1, n =>
    if n % 2 ^ 30 = 0 then freeSeqFuel s p k 1
    else if handleUsed s (BitVec.ofNat 32 (p.val * 2 ^ 30 + n % 2 ^ 30)) then freeSeqFuel s p k (n % 2 ^ 30 + 1)
    else n % 2 ^ 30

/-- The next handle of a partition (R396). -/
def newHandle (s : State) (p : Part) : Handle × State :=
  let n := freeSeqFuel s p (s.longs.length + s.folios.length + 3) s.parts[p].nextSeq
  (BitVec.ofNat 32 (p.val * 2 ^ 30 + n), updPart s p (fun x => { x with nextSeq := if n + 1 = 2 ^ 30 then 1 else n + 1 }))

/-- The command of a ring that starts next, when it has the opcode: the oldest fetched and unstarted command, with no FENCE of its
ring before it that still waits (R398). -/
def startable (s : State) (p : Part) (q : Fin 16) (opcode : Nat) : Option Cmd :=
  if !s.live then none
  else
    let mine := s.cmds.filter (fun c => c.part == p && c.sq == q)
    if mine.any (fun c => c.fence.isSome) then none
    else
      match mine.find? (fun c => !c.started) with
      | some c => if u8 c.desc 0 = opcode then some c else none
      | none => none

/-- A command marked as started. -/
def begun (s : State) (uid : Nat) : State :=
  { s with cmds := updFirst (fun c => c.uid == uid) (fun c => { c with started := true }) s.cmds }

/-- A record of a long operation; LAST_STATUS follows it (R412). -/
def longRecord (s : State) (h : Handle) (kind status reason d0 d1 : Nat) (slot after : Option Nat) : State :=
  match longOf s h with
  | none => s
  | some o =>
    let s1 := updLong s h (fun o => { o with lastStatus := BitVec.ofNat 8 status })
    match cmdOf s o.cmd with
    | none => s1
    | some c => pump (enqueueRecord s1 c { mkRecord s1 c status kind reason d0 d1 with slotOf := slot, after := after })

/-- A long operation admitted: it enters QUEUED with a handle and posts ACCEPTED (R396, R401). -/
def admitLong (s : State) (c : Cmd) (total : Nat) (body : LongBody) : Handle × State :=
  let r := newHandle s c.part
  let h := r.1
  let s1 := r.2
  let s2 := { s1 with
    cmds := updFirst (fun d => d.uid == c.uid) (fun d => { d with started := true, handle := h }) s1.cmds,
    longs := s1.longs ++ [{ handle := h, part := c.part, cmd := c.uid, opcode := BitVec.ofNat 8 (u8 c.desc 0), state := .queued,
                            began := false, suspends := [], cancels := [], lastStatus := 0, doneUnits := 0,
                            totalUnits := total, released := false, silent := false, body := body }] }
  (h, longRecord s2 h 1 0 0 0 0 none none)

/-- Codes of the states of R404. -/
def LongState.code : LongState → Nat
  | .queued => 0
  | .running => 1
  | .suspended => 2
  | .cancelling => 3
  | .done => 4
  | .cancelled => 5
  | .failed => 6

/-- Whether a state is one of the last three. -/
def LongState.isOver : LongState → Bool
  | .queued => false
  | .running => false
  | .suspended => false
  | .cancelling => false
  | .done => true
  | .cancelled => true
  | .failed => true

/-- Commands completed with a status (R406). -/
def finishMany (s : State) (uids : List Nat) (status d0 : Nat) (after : Option Nat) : State :=
  uids.foldl (fun s u => finishAfter s u status 0 d0 0 after) s

/-- Pending SUSPENDs of a target completed with a status. -/
def dropSuspends (s : State) (h : Handle) (status : Nat) : State :=
  match longOf s h with
  | none => s
  | some o => finishMany (updLong s h (fun o => { o with suspends := [] })) o.suspends status 0 none

/-! ### Filler units -/

/-- Clusters that lend their SRAM to the filler, with the lent bytes (R150). -/
def lentRanges (f : Folio) (i : Nat) : List (Nat × Nat) :=
  match f.tables.intervals[i]? with
  | none => []
  | some e => (f.gridClusters e.grid).map (fun c =>
      (clusterBase + c * clusterBytes + clusterBytes - e.sram, clusterBase + (c + 1) * clusterBytes))

/-- The zeroing at a tenancy change (R150): the lent ranges. The scheduled areas and reservoirs hold no tensor then. -/
def zeroLent (s : State) (owner : Handle) (i : Nat) : State :=
  match runOf s owner with
  | none => s
  | some (_, r) =>
    match folioOf s r.folio with
    | none => s
    | some f => updMem s (fun m => (lentRanges f i).foldl (fun m x => m.zero x.1 x.2) m)

/-- A filler unit's state set. -/
def setUnit (s : State) (folio : Handle) (u : Nat) (st : UnitState) : State :=
  updFolio s folio (fun f => { f with units := replaceAt f.units u st })

/-- A running unit pre-empted (R182): its staging area is discarded and it is pending again. A commit once begun completes. -/
def preempt (s : State) (x : FillerRun) : State :=
  if x.committing then s
  else
    let s1 := setUnit (zeroLent s x.owner x.interval) x.folio x.unit .pending
    { s1 with fillers := s1.fillers.filter (fun y => y != x) }

/-- Every running unit that a test accepts pre-empted. -/
def preemptAll (s : State) (test : FillerRun → Bool) : State := (s.fillers.filter test).foldl preempt s

/-! ### Threads -/

/-- Whether a thread runs a program of a folio. -/
def Thread.ofFolio (t : Thread) (h : Handle) : Bool :=
  match t.start with
  | some x => x.folio == h
  | none => false

/-- Whether a thread holds a tracker. -/
def threadTracks (s : State) (t : Thread) : Bool := s.trackers.any (fun x => x.core == t.core && x.t == t.t)

/-- Threads of a folio stopped for a CANCEL (R142): one that holds a tracker drains, the others are IDLE. -/
def cancelThreads (s : State) (folio : Handle) : State :=
  { s with threads := s.threads.filterMap (fun t =>
      if t.ofFolio folio then
        if threadTracks s t then some { t with state := .held, resumeTo := .idle, cancelling := true, deferred := none } else none
      else some t) }

/-- Threads of a folio stopped for a SUSPEND (R142). -/
def holdThreads (s : State) (folio : Handle) : State :=
  { s with threads := s.threads.map (fun t =>
      if t.ofFolio folio && t.state != .held && t.state != .idle then { t with state := .held, resumeTo := t.state } else t) }

/-- Threads of a folio continue after RESUME (R142). -/
def resumeThreads (s : State) (folio : Handle) : State :=
  { s with threads := s.threads.map (fun t =>
      if t.ofFolio folio && t.state == .held && !t.cancelling then { t with state := t.resumeTo } else t) }

/-- Whether no thread of a folio is still draining. -/
def threadsDrained (s : State) (folio : Handle) : Bool := !s.threads.any (fun t => t.ofFolio folio && t.cancelling)

/-! ### Batches and slots -/

/-- Whether a batch is in one of the states 1 to 9 (R220). -/
def BatchState.isLive : BatchState → Bool
  | .free => false
  | .dead => false
  | _ => true

/-- Drain markers of a generation to the engine at every position along its cut (R223). -/
def sendDrains (s : State) (p : Part) (q : Quad) (f : Folio) (g : Generation) : State :=
  match f.tables.routing[g.routing]? with
  | none => s
  | some r =>
    (List.range (f.tables.cutSize r.cut)).foldl (fun s k =>
      sendToRank s p f.rank (f.tables.rankAtPos r.cut f.coord k)
        (mkPacket 0 7 (f.gridQuad r.expertGrid).val 0 0 g.stamp 0 (bodyD g.gen.toNat g.routing f.rank q.val) [])) s

/-- The generations of an engine that belong to a folio and are live become DEAD with the job's stamp (R223). -/
def killGens (f : Folio) (stamp : Stamp) (d : Ductus) : Ductus :=
  { d with
    gens := d.gens.map (fun g =>
      if g.folio == f.handle && g.state.isLive then
        { g with state := .dead, stamp := stamp,
                 drains := match f.tables.routing[g.routing]? with
                   | some r => (List.range (f.tables.cutSize r.cut)).map (fun k => (f.tables.rankAtPos r.cut f.coord k, 0))
                   | none => [] }
      else g),
    tables := d.tables.filter (fun t => t.folio != f.handle) }

/-- The batches of a folio become DEAD, with drain markers when asked (R223, R481). -/
def cancelBatches (s : State) (p : Part) (f : Folio) (drain : Bool) : State :=
  allQuads.foldl (fun s q =>
    let live := s.ductus[q].gens.filter (fun g => g.folio == f.handle && g.state.isLive)
    let s1 := updDuctus s q (killGens f (partStamp s p))
    if drain then live.foldl (fun s g => sendDrains s p q f { g with stamp := partStamp s1 p }) s1 else s1) s

/-- The contributors that exchange messages with this device for an instance. -/
def instancePeers (f : Folio) (b : BucketEntry) : List Nat :=
  let p := f.tables.bucketP b
  let c := f.tables.contributor b f.coord
  (List.range p).filter (fun d => exchangesWith p (b.mode == 1 || b.compression == 1) (bit b.flags 0) c d)

/-- The rank of a contributor of this device's group (R233). -/
def contributorRank (f : Folio) (b : BucketEntry) (n : Nat) : Nat := rankOf f.box (f.tables.contributorCoord b f.coord n)

/-- A collective message of an instance to a contributor of its group (R248). -/
def sendColl (s : State) (p : Part) (f : Folio) (b : BucketEntry) (e : Engine) (stamp : Stamp) (peer : Nat) (h : CollHead)
    (payload : Bytes) : State :=
  sendToRank s p f.rank (contributorRank f b peer)
    { mkPacket 2 1 4 0 0 stamp 0 (bodyC h) payload with engine := BitVec.ofNat 3 e.val }

/-- The collective fields that name an instance. -/
def Instance.head (i : Instance) (msg : Nat) : CollHead :=
  { msg := msg, tag := i.tag.toNat, phase := if i.phase then 1 else 0, step := i.step, shard := 0, lo := 0, hi := 0, seg := 0,
    form := 0 }

/-- Slots of a folio in state 1 or 2 become DEAD, with DRAIN to every peer when asked (R266, R481). A slot without a peer is FREE.
Queued gathers of the job go too. -/
def cancelSlots (s0 : State) (p : Part) (f : Folio) (drain : Bool) : State :=
  let s00 := updFolio s0 f.handle (fun f => { f with gatherServed := [] })
  let start := { s00 with gatherQ := s00.gatherQ.filter (fun k => k.stamp != partStamp s00 p) }
  allEngines.foldl (fun s e =>
    let l := s.ligature[e].slots.filter (fun i => i.folio == f.handle && i.state != .dead)
    let peersOf := fun (i : Instance) => match f.tables.bucket? i.tag.toNat with | some b => instancePeers f b | none => []
    let s1 := updLig s e (fun x =>
      { x with
        slots := x.slots.filterMap (fun i =>
          if i.folio == f.handle && i.state != .dead then
            if (peersOf i).isEmpty then none
            else some { i with state := .dead, stamp := partStamp s p, drains := peersOf i }
          else some i),
        nextOpen := x.nextOpen.filter (fun n =>
          match runOf s n.1 with
          | some (_, r) => r.folio != f.handle
          | none => false),
        early := x.early.filter (fun m => m.stamp != partStamp s p) })
    if drain then
      l.foldl (fun s i =>
        match f.tables.bucket? i.tag.toNat with
        | none => s
        | some b => (instancePeers f b).foldl (fun s d => sendColl s p f b e (partStamp s1 p) d (i.head 5) []) s) s1
    else s1) start

/-! ### The end of a RUN or STEP -/

/-- The quadrants of a RUN or STEP go to IDLE and hold no stamp of its job (R165, R178, R185). -/
def releaseQuads (s : State) (h : Handle) : State :=
  { s with seqs := s.seqs.map (fun q => if q.owner == some h then { Sequencer.reset with state := .idle } else q) }

/-- A folio and what follows it removed: its HBM ranges, token counters and engine state (R226, R266). -/
def dropFolio (s : State) (h : Handle) : State :=
  { s with
    folios := s.folios.filter (fun f => f.handle != h),
    longs := s.longs.filter (fun o => !(o.handle == h && o.released)),
    pairings := s.pairings.filter (fun x => x.a != h && x.b != h),
    ductus := s.ductus.map (fun d => { d with gens := d.gens.filter (fun g => g.folio != h),
                                              tables := d.tables.filter (fun t => t.folio != h),
                                              visited := d.visited.filter (fun v => v.1 != h) }),
    ligature := s.ligature.map (fun l => { l with slots := l.slots.filter (fun i => i.folio != h) }) }

/-- A management response (R467): the four bytes of the request, STATUS and the data. -/
def mgmtRespond (s : State) (head : Bytes) (status : Nat) (data : Bytes) : State :=
  { s with mgmt := { s.mgmt with responses := s.mgmt.responses ++ [head ++ le 1 status ++ zeros 3 ++ data] } }

/-- What a release does to its partition (R470): the carve-out's regions are being zeroed from now on (R276), the job is cleared and the
register block is at its reset values, ASSIGNED among them. -/
def clearPartition (s : State) (p : Part) : State :=
  let s1 := updPart s p (fun x => { Partition.reset with nextSeq := x.nextSeq })
  { s1 with
    regions := s1.regions.map (fun r => if r.assigned && r.part == p then { r with zeroing := true } else r),
    cmds := s1.cmds.filter (fun c => c.part != p),
    pairWaits := s1.pairWaits.filter (fun w => w.part != p),
    longs := s1.longs.filter (fun o => o.part != p),
    shadows := s1.shadows.filter (fun e => e.2.1 / 0x1000 != p.val + 1) }

/-- A RELEASE_PARTITION whose partition holds nothing any more completes (R470). -/
def settleRelease (s : State) (p : Part) : State :=
  match s.mgmt.busy with
  | some (.release head q) =>
    if q = p then mgmtRespond { clearPartition s p with mgmt := { s.mgmt with busy := none } } head 0 [] else s
  | _ => s

/-- The folios of a partition that is being reset or released are unloaded once its cancellations have completed (R385, R470). -/
def settleReset (s : State) (p : Part) : State :=
  if s.longs.any (fun o => o.part == p && o.silent) then s
  else settleRelease ((s.folios.filter (fun f => f.part == p)).foldl (fun s f => dropFolio s f.handle) s) p

/-- A long operation ends (R401, R404 to R406): pending SUSPENDs complete with WRONG_STATE, then its FINAL record is posted, then
its CANCELs complete OK with the state code. After a port reset no record is due and the handle goes (R385). -/
def endLong (s : State) (h : Handle) (st : LongState) (status reason d0 d1 : Nat) : State :=
  match longOf s h with
  | none => s
  | some o =>
    if o.silent then
      let s1 := releaseQuads s h
      settleReset { s1 with longs := s1.longs.filter (fun x => x.handle != h) } o.part
    else
      let s1 := dropSuspends (releaseQuads s h) h 0x12
      let fin := s1.nextUid
      let s2 := longRecord s1 h 0 status reason d0 d1 none none
      finishMany (updLong s2 h (fun o => { o with state := st, cancels := [] })) o.cancels 0 st.code (some fin)

/-- What the safe point of a CANCEL does to a RUN or STEP (R142, R178, R182, R223, R266). -/
def cancelRun (s : State) (h : Handle) : State :=
  match runOf s h with
  | none => s
  | some (o, r) =>
    match folioOf s r.folio with
    | none => endLong s h .cancelled 1 0 0 0
    | some f =>
      let s1 := preemptAll s (fun x => x.owner == h)
      let s2 := cancelSlots (cancelBatches (cancelThreads s1 r.folio) o.part f true) o.part f true
      let s3 := updRun (releaseQuads s2 h) h (fun r => { r with exchs := [], cancelStop := true })
      if threadsDrained s3 r.folio then endLong s3 h .cancelled 1 0 0 0 else s3

/-- A CANCEL whose safe point has passed ends when the job's threads have drained (R142). -/
def settleCancel (s : State) (h : Handle) : State :=
  match runOf s h with
  | none => s
  | some (o, r) =>
    if o.state == .cancelling && r.cancelStop && threadsDrained s r.folio then endLong s h .cancelled 1 0 0 0 else s

/-- Whether every quadrant of a RUN has closed the stroke before its safe point (R177). -/
def atSafePoint (s : State) (r : Run) : Bool :=
  match r.stopAfter with
  | none => false
  | some n => r.quads.all (fun q => decide (n ≤ s.seqs[q].closed))

/-- Quadrants of a RUN that have reached the safe point are HELD (R165, R177). -/
def holdQuads (s : State) (h : Handle) : State :=
  match runOf s h with
  | none => s
  | some (_, r) =>
    match r.stopAfter with
    | none => s
    | some n =>
      { s with seqs := s.seqs.map (fun q =>
          if q.owner == some h && decide (n ≤ q.closed) then { q with state := .held, cause := 4 } else q) }

/-- The safe point, when it has been reached: a CANCEL ends the job there, and SUSPENDs and a record backlog suspend it (R177, R405,
R410). A checkpoint's hold comes first (R369). -/
def reachSafePoint (s : State) (h : Handle) : State :=
  match runOf s h with
  | none => s
  | some (o, r) =>
    if !atSafePoint s r then holdQuads s h
    else
      let s1 := holdQuads s h
      if r.ckptHold then s1
      else if o.state == .cancelling then (if r.cancelStop then settleCancel s1 h else cancelRun s1 h)
      else if o.state == .running && (!o.suspends.isEmpty || r.backlogStop) then
        let s2 := preemptAll (holdThreads s1 r.folio) (fun x => x.owner == h)
        let rec_ := s2.nextUid
        let s3 := longRecord s2 h 2 2 (if r.backlogStop then 1 else 0) 0 0 none none
        finishMany (updLong s3 h (fun o => { o with state := .suspended, suspends := [] })) o.suspends 0 0 (some rec_)
      else s1

/-- The next safe point of a RUN (R177): the boundary after the latest stroke that one of its quadrants has opened. -/
def stopAtNext (s : State) (h : Handle) : State :=
  match runOf s h with
  | none => s
  | some (_, r) =>
    match r.stopAfter with
    | some _ => s
    | none =>
      let n := (r.quads.map (fun q => s.seqs[q].opened)).foldl max 0
      updRun s h (fun r => { r with stopAfter := some n })

/-- Quadrants of a RUN go on after a hold (R177). -/
def goOn (s : State) (h : Handle) : State :=
  let s1 := updRun s h (fun r => { r with stopAfter := none, backlogStop := false })
  { s1 with seqs := s1.seqs.map (fun q =>
      if q.owner == some h && q.state == .held then { q with state := .opening, cause := 0 } else q) }

/-! ### Step records (R410) -/

/-- A step record written to its slot, with its PROGRESS record. -/
def writeStepRecord (s : State) (h : Handle) (slot : Nat) (bytes : Bytes) (status d0 : Nat) : State :=
  match runOf s h with
  | none => s
  | some (o, r) =>
    let s1 := updHost s s.parts[o.part].port (fun m => m.writeBytes (r.recBase + slot * r.stride) bytes)
    let s2 := updRun s1 h (fun r => { r with busySlots := slot :: r.busySlots })
    longRecord s2 h 2 status 0 d0 slot (some slot) none

/-- Held step records whose slots are free are written, oldest first (R410). -/
def flushRecords : Nat → State → Handle → State
  | 0, s, _ => s
  | n + 1, s, h =>
    match runOf s h with
    | none => s
    | some (_, r) =>
      match r.heldRecords with
      | [] => s
      | x :: rest =>
        if r.busySlots.contains x.1 then s
        else flushRecords n (writeStepRecord (updRun s h (fun r => { r with heldRecords := rest })) h x.1 x.2.1 x.2.2.1 x.2.2.2) h

/-- A RUN or STEP that has run its last step and holds no record ends with OK (R410). A suspended one ends after RESUME. -/
def endIfLast (s : State) (h : Handle) : State :=
  match runOf s h with
  | none => s
  | some (o, r) =>
    if o.state == .running && r.lastDone && r.heldRecords.isEmpty && o.opcode == 0x22 then
      endLong (updLong s h (fun o => { o with doneUnits := r.stepsDone })) h .done 0 0 0 0
    else s

/-- A record that the host has consumed: a FINAL record releases its handle (R396), a PROGRESS record frees its slot (R410). -/
def consumed (s : State) (c : Completion) : State :=
  if c.kind = 0 then
    if folioOf s c.handle |>.isSome then updLong s c.handle (fun o => { o with released := true })
    else { s with longs := s.longs.filter (fun o => !(o.handle == c.handle && o.state.isOver)) }
  else
    match c.slotOf with
    | none => s
    | some k =>
      let s1 := updRun s c.handle (fun r => { r with busySlots := r.busySlots.filter (fun x => x != k) })
      match runOf s1 c.handle with
      | none => s1
      | some (_, r) => endIfLast (flushRecords r.heldRecords.length s1 c.handle) c.handle

/-! ### Teardown (R481) -/

/-- Whether a tracker of the job held a request to a target whose path has failed (R300). -/
def lostTarget (s : State) (stamp : Stamp) : Bool :=
  s.trackers.any (fun t => t.stamp == stamp && s.router.sends.any (fun f => f.failed && f.peer == t.access.target))

/-- A range of a folio's tensors made undefined (R7). -/
def undefineTensors (s : State) (f : Folio) : State :=
  ((List.range f.tables.tensors.length).filter (fun i => f.tensorAt.getD i 0 ≠ 0 || (f.tables.tensors[i]?.map (·.inHbm)).getD false)).foldl
    (fun s i =>
      match f.tables.tensors[i]? with
      | none => s
      | some t => undefineRange s (f.tensorAt.getD i 0) (f.tensorAt.getD i 0 + t.size)) s

/-- The records of a tracker that delivers TEARDOWN to its thread (R299, R300). -/
def tornTracker (s : State) (t : Tracker) : State :=
  let a := t.access
  errorNote (note s 0x50 t.cluster t.stamp a.named.toNat 4 a.req.aux.toNat) 0x121 t.cluster t.stamp a.named.toNat 0 4

/-- The TEARDOWN of a partition's job at this device (R481). -/
def teardown (s0 : State) (p : Part) (how : Nat) : State :=
  match s0.parts[p].job with
  | none => s0
  | some j =>
    let s := note s0 0x60 (unitFabric 29) j.stamp how p.val 0
    let lost := lostTarget s j.stamp
    let mine := s.longs.filter (fun o => o.part == p && !o.state.isOver)
    let runs := mine.filterMap (fun o => match o.body with | .run r => some (o, r) | _ => none)
    let fs := s.folios.filter (fun f => f.part == p)
    -- 1: quadrants, filler units
    let s1 := preemptAll s (fun x => runs.any (fun y => y.1.handle == x.owner) || fs.any (fun f => f.handle == x.folio))
    let s2 := runs.foldl (fun s y => updRun (releaseQuads s y.1.handle) y.1.handle (fun r => { r with exchs := [] })) s1
    -- 2: trackers and threads
    let s2 := (s2.trackers.filter (fun t => t.stamp == j.stamp)).foldl tornTracker s2
    let s3 := { s2 with
      trackers := s2.trackers.filter (fun t => t.stamp != j.stamp),
      threads := s2.threads.filter (fun t => !fs.any (fun f => t.ofFolio f.handle)) }
    -- 3: batches and slots
    let s4 := fs.foldl (fun s f => cancelSlots (cancelBatches s p f false) p f false) s3
    -- 4: stamps; every tensor of the job is undefined
    let s5 := fs.foldl undefineTensors
      (updPart s4 p (fun x => { x with job := x.job.map (fun j => { j with stopped := false, torn := true }) }))
    -- 5: long operations
    let s6 := mine.foldl (fun s o =>
      match o.body with
      | .run _ => endLong s o.handle .failed (if lost then 0x31 else 0x30) 0 0 0
      | .reshard _ => endLong s o.handle .failed 0x30 0 0 0
      | .ckpt _ => endLong s o.handle .failed 0x30 0 0 0
      | .load _ => s
      | .copy _ => s) s5
    -- 6; a buddy keeps its previous image and discards a partial one (R372)
    let drop := fun (f : Folio) => if f.part = p then { f with buddy := f.buddy.map (fun b => { b with incoming := [], armed := none }) } else f
    let s7 := { s6 with folios := s6.folios.map drop, pulls := s6.pulls.filter (fun x => x.stamp != j.stamp) }
    fmMessage (note s7 0x61 (unitFabric 29) j.stamp 0 p.val 0) 0x203 (reportArgs j.stamp 0 0 0 0)

end Sys2Proof.Machine
end

