-- ==== Sys2Proof/Machine/Registers.lean ====
section
/-! DEFINITION. The registers of BAR0 as they read (R492 to R506), the settings block (R501 to R505), and writes to registers
without an operation of their own. -/

namespace Sys2Proof.Machine

open Sys2Proof

/-- Codes of STAGE (R451). -/
def Stage.code : Stage → Nat
  | .romInit => 0
  | .waitImage => 1
  | .fetching => 2
  | .verifying => 3
  | .starting => 4
  | .ready => 5
  | .halted => 6

/-- Codes of STATE (R418). -/
def PdState.code : PdState → Nat
  | .on => 0
  | .entering => 1
  | .retention => 2
  | .off => 3
  | .waking => 4

/-- BOOT_STATUS (R451). -/
def bootStatus (b : Boot) : Nat := b.stage.code + b.attempts.toNat * 16 + b.fwPort.toNat * 2 ^ 11

/-- BOOT_ERROR (R451). -/
def bootErrorWord (b : Boot) : Nat := b.errCode.toNat + b.errDetail.toNat * 2 ^ 16

/-- The 256 bytes of the boot mailbox (R450). -/
def mailboxBytes (s : State) : Bytes :=
  let b := s.boot
  le 4 (bootStatus b) ++ le 4 0 ++ le 8 b.imageAddr.toNat ++ le 4 b.imageLen.toNat ++ le 4 (bootErrorWord b) ++
    le 4 Config.romVersion.toNat ++ le 4 b.bootCount.toNat ++ slice b.serial 0 16 ++ zeros 16 ++ slice b.identityHash 0 64 ++
    slice b.fwDigest 0 64 ++ le 8 b.fwVersion.toNat ++ le 4 b.fwEpoch.toNat ++ zeros 52

/-- MY_COORD as a register (R331). -/
def myCoordWord (r : Router) : Nat := r.myCoord.toNat + (if r.coordValid then 2 ^ 15 else 0)

/-- POD_EXTENT as a register (R331). -/
def podExtentWord (r : Router) : Nat := r.extX.toNat + r.extY.toNat * 8 + r.extZ.toNat * 64

/-- FM_GATEWAY as a register (R331). -/
def gatewayWord (r : Router) : Nat := r.gateway.toNat + (if r.gatewayValid then 2 ^ 15 else 0)

/-- PD_STATn (R434, R506). -/
def pdStatWord (s : State) (d : Domain) : Nat :=
  let x := s.power.domains[d]
  if d.val = 0 then 0
  else x.wakeSource.toNat * 256 + (if x.trickle && x.state == .retention then 8 else 0) + x.state.code

/-- PD_CFGn (R434, R506). -/
def pdCfgWord (s : State) (d : Domain) : Nat :=
  let x := s.power.domains[d]
  if d.val = 0 then 0 else x.margin.toNat * 2 ^ 16 + x.idleDepth.toNat * 16 + x.method.toNat * 4 + x.request.toNat

/-- PD_REFUSEn (R434). -/
def pdRefuseWord (s : State) (d : Domain) : Nat :=
  let x := s.power.domains[d]
  if d.val = 0 then 0 else x.lastUnit.toNat + x.lastCode.toNat * 2 ^ 16 + x.refused * 2 ^ 24 + x.aborted * 2 ^ 48

/-- ACLK_STATq (R434). -/
def aclkWord (s : State) (q : Quad) : Nat :=
  let x := s.power.quads[q]
  x.thermalCeiling + x.capCeiling * 2 ^ 8 + x.policyMax * 2 ^ 16 + x.current * 2 ^ 24

/-- THROTTLING and TJ_MAX (R434). -/
def thermalWord (s : State) : Nat :=
  s.power.tjMax % 256 + ((List.range 4).map (fun q => if s.power.quads[quadN q].throttling then 2 ^ (8 + q) else 0)).sum

/-- The power block's 32-bit word at an offset from 0x6000 (R434). -/
def powerWord (s : State) (o : Nat) : Nat :=
  if o < 0x124 then pdStatWord s (domainN (o / 4))
  else if 0x200 ≤ o && o < 0x324 then pdCfgWord s (domainN ((o - 0x200) / 4))
  else if 0x400 ≤ o && o < 0x648 then
    (pdRefuseWord s (domainN ((o - 0x400) / 8)) / 2 ^ (if o % 8 = 4 then 32 else 0)) % 2 ^ 32
  else if 0x800 ≤ o && o < 0x840 then
    let q := quadN ((o - 0x800) / 16)
    match o % 16 with
    | 0 => aclkWord s q
    | 4 => s.power.quads[q].thresholdMv
    | 8 => s.power.quads[q].droopEvents % 2 ^ 32
    | _ => s.power.quads[q].droopEvents / 2 ^ 32
  else if o = 0x840 then s.power.capW
  else if o = 0x844 then s.power.powerW
  else if o = 0x848 then thermalWord s
  else 0

/-- HBM_REGIONg (R502). -/
def regionWord (s : State) (g : Nat) : Nat :=
  let r := s.regions.toArray.getD g ⟨false, 0, false, false⟩
  (if r.assigned then 2 ^ 31 + r.part.val * 2 ^ 24 else 0) + (if r.stackLocal then 1 else 0)

/-- The settings block's word at an offset from 0x5000 (R501). -/
def settingsWord (s : State) (o : Nat) : Nat :=
  if o < 0x120 then regionWord s (o / 4)
  else if o = 0x200 then s.settings.stallLimit
  else if o = 0x204 then s.settings.scrubHours
  else if o = 0x208 then s.settings.hbmIdleUs
  else if o = 0x20C then s.settings.trickleDelta
  else if o = 0x210 then s.settings.serPpm
  else if o = 0x214 then s.settings.fportEnable.toNat
  else if 0x220 ≤ o && o < 0x250 then s.settings.quota.toArray.getD ((o - 0x220) / 4) 0
  else if o = 0x2FC then (if s.settings.lock then 1 else 0)
  else 0

/-- ERR_STATUS (R491). -/
def errStatusWord (e : ErrorBlock) : Nat :=
  (if e.fatal then 2 ^ 31 else 0) + (if e.jobFailed then 8 else 0) + (if e.sramUe then 4 else 0) + (if e.hbmUe then 2 else 0) +
    (if e.pathFailure then 1 else 0)

/-- BLOTTER_STAT (R491). -/
def blotterStat (b : Blotter) : Nat :=
  (if b.freezeOnJob then 2 ^ 17 else 0) + (if b.frozen then 2 ^ 16 else 0) + b.lost

/-- The record in the blotter window: zero when it is not held (R491). -/
def windowBytes (s : State) : Bytes :=
  match s.blotter.slots.find? (fun e => e.2.1 % 2 ^ 32 == s.errors.index.toNat) with
  | some e => e.2.2.bytes
  | none => zeros 32

/-- The error block's word at an offset from 0xA000; ERR_VECTOR as the port sees it, or 0 in the image (R491, R507). -/
def errorWord (s : State) (v : Option Port) (o : Nat) : Nat :=
  if o = 0x000 then errStatusWord s.errors
  else if o = 0x004 then s.errors.cause.toNat
  else if o = 0x008 then s.errors.fatalTime % 2 ^ 32
  else if o = 0x00C then s.errors.fatalTime / 2 ^ 32 % 2 ^ 32
  else if o = 0x010 then (match v with | some p => s.errors.vector[p].toNat | none => 0)
  else if o = 0x020 then s.errors.pathFailureCount
  else if o = 0x024 then s.errors.hbmUeCount
  else if o = 0x028 then s.errors.sramUeCount
  else if o = 0x02C then s.errors.jobFailedCount
  else if o = 0x100 then s.blotter.head % 2 ^ 32
  else if o = 0x104 then blotterStat s.blotter
  else if o = 0x108 then (if s.blotter.frozen then s.blotter.freezeSeq % 2 ^ 32 else 0)
  else if o = 0x10C then s.errors.index.toNat
  else if 0x120 ≤ o && o < 0x140 then u32 (windowBytes s) (o - 0x120)
  else 0

/-- IN_FLIGHT of a partition (R397). -/
def inFlight (s : State) (p : Part) : Nat := (s.cmds.filter (fun c => c.part == p)).length

/-- PART_CTRL (R388). -/
def partCtrlWord (x : Partition) : Nat :=
  (if x.enable then 2 ^ 31 else 0) + (if x.fmChannel then 2 ^ 28 else 0) + (if x.powerAdmin then 2 ^ 27 else 0) +
    (x.port.val * 2 ^ 26) + (if x.assigned then 2 ^ 25 else 0) + x.limit

/-- QUIESCED (R388). -/
def quiesced (s : State) (p : Part) : Bool := !s.parts[p].enable && inFlight s p == 0

/-- A ring's register word: BASE at 0, DB at 8, CFG at 16. -/
def ringWord (r : Ring) (o : Nat) : Nat :=
  if o = 0 then r.base.toNat % 2 ^ 32
  else if o = 4 then r.base.toNat / 2 ^ 32
  else if o = 8 then r.db.toNat % 2 ^ 32
  else if o = 12 then r.db.toNat / 2 ^ 32
  else if o = 16 then r.cfg.toNat
  else 0

/-- A partition block's word (R387). -/
def partWord (s : State) (p : Part) (o : Nat) : Nat :=
  let x := s.parts[p]
  if o = 0 then partCtrlWord x
  else if o = 4 then (if quiesced s p then 2 ^ 31 else 0) + inFlight s p
  else if 0x008 ≤ o && o < 0x01C then ringWord x.eq (o - 0x008)
  else if 0x020 ≤ o && o < 0x034 then ringWord x.fmtx (o - 0x020)
  else if 0x040 ≤ o && o < 0x054 then ringWord x.fmrx (o - 0x040)
  else if 0x100 ≤ o && o < 0x300 then ringWord (x.sq[(Fin.ofNat 16 ((o - 0x100) / 32) : Fin 16)]) (o % 32)
  else if 0x300 ≤ o && o < 0x500 then
    let c := x.cq[(Fin.ofNat 16 ((o - 0x300) / 32) : Fin 16)]
    if o % 32 = 20 then c.mod.toNat else ringWord c.ring (o % 32)
  else 0

/-- PORT_STATUS (R499). -/
def portStatusWord (x : PciePort) : Nat :=
  (if x.linkUp then 2 ^ 15 + (if 6 ≤ x.rate.toNat then 2 ^ 14 else 0) + x.width.toNat * 256 + x.rate.toNat else 0) +
    x.dState.toNat * 2 ^ 12

/-- BOUND of PORT_PARTITIONS (R499). -/
def boundWord (s : State) (p : Port) : Nat :=
  (allParts.map (fun q => if s.parts[q].assigned && s.parts[q].port == p then 2 ^ q.val else 0)).sum

/-- The MSI-X table and PBA (R498). -/
def msixWord (x : PciePort) (o : Nat) : Nat :=
  if o < 0x400 then
    let e := x.msix.toArray.getD (o / 16) ⟨0, 0, 1⟩
    match o % 16 with
    | 0 => e.addr.toNat % 2 ^ 32
    | 4 => e.addr.toNat / 2 ^ 32
    | 8 => e.data.toNat
    | _ => e.ctrl.toNat
  else if o = 0x400 then x.pba.toNat % 2 ^ 32
  else if o = 0x404 then x.pba.toNat / 2 ^ 32
  else 0

/-- The value of a held write at an offset (R25). -/
def shadowAt (s : State) (v : Option Port) (o : Nat) : Option Nat :=
  match v with
  | none => none
  | some p => (s.shadows.find? (fun e => e.1 == p.val && e.2.1 == o)).map (fun e => e.2.2)

/-- A 32-bit word of BAR0 seen through a port, or of the image in the device control space (R492, R507). Before READY only the
mailbox answers (R450), in a device stop the mailbox and the error block (R483); a held shadow value is returned (R25). -/
def bar0Word (s : State) (v : Option Port) (o : Nat) : Nat :=
  if o < 0x100 then u32 (mailboxBytes s) (o / 4 * 4)
  else if s.boot.stage ≠ Stage.ready then 0
  else if 0xA000 ≤ o && o < 0xA140 then errorWord s v (o - 0xA000)
  else if s.errors.fatal then 0
  else
    match shadowAt s v o with
    | some w => w
    | none =>
      if o = 0x100 then 0xB1010404
      else if o = 0x108 then s.timeBase % 2 ^ 32
      else if o = 0x10C then s.timeBase / 2 ^ 32 % 2 ^ 32
      else if o = 0x110 then myCoordWord s.router
      else if o = 0x114 then podExtentWord s.router
      else if 0x1000 ≤ o && o < 0x5000 then
        let p := partN (o / 0x1000 - 1)
        if s.parts[p].assigned && v = some s.parts[p].port then partWord s p (o % 0x1000) else 0
      else if 0x5000 ≤ o && o < 0x5300 then settingsWord s (o - 0x5000)
      else if 0x6000 ≤ o && o < 0x7000 then powerWord s (o - 0x6000)
      else
        match v with
        | none => 0
        | some p =>
          if 0x8000 ≤ o && o < 0x9000 then msixWord s.ports[p] (o - 0x8000)
          else if o = 0x9000 then s.ports[p].bar4Ctrl.toNat
          else if o = 0x9004 then (if s.ports[p].locked then 1 else 0)
          else if o = 0x9008 then portStatusWord s.ports[p]
          else if o = 0x900C then boundWord s p
          else 0

/-! ### Writes -/

/-- Whether BAR0 of a port answers: the module has power, boot has passed beat 6 and the link is up (R381, R448). -/
def bar0Open (s : State) (p : Port) : Bool := s.pins.pwrGood && s.ports[p].linkUp && !s.power.tripped

/-- One half of a 64-bit register written. -/
def setHalf (old : Word64) (hi : Bool) (v : Nat) : Word64 :=
  if hi then BitVec.ofNat 64 (old.toNat % 2 ^ 32 + (v % 2 ^ 32) * 2 ^ 32)
  else BitVec.ofNat 64 (old.toNat / 2 ^ 32 * 2 ^ 32 + v % 2 ^ 32)

/-- BASE or DB of a ring written; ignored while the ring is enabled (R388, R496). -/
def ringAddrWrite (r : Ring) (o v : Nat) : Ring :=
  if r.enabled then r
  else if o = 0 then { r with base := setHalf r.base false (v / 4096 * 4096) }
  else if o = 4 then { r with base := setHalf r.base true v }
  else if o = 8 then { r with db := setHalf r.db false (v / 64 * 64) }
  else if o = 12 then { r with db := setHalf r.db true v }
  else r

/-- CFG of a ring written: `mask` keeps the fields the ring has, `ok` says whether it may be enabled (R388, R497). -/
def ringCfgWrite (r : Ring) (mask : Word32) (ok : Bool) (v : Word32) : Ring :=
  if r.enabled then
    if v.getLsbD 31 then { r with posted := 0, consumed := 0 }
    else { r with cfg := r.cfg &&& 0x3FFFFFFF#32 }
  else
    let fields := v &&& mask
    let depthOk := decide (1 ≤ v.toNat % 32) && decide (v.toNat % 32 ≤ 16)
    if v.getLsbD 31 && depthOk && ok then { r with cfg := fields ||| 0x80000000#32, posted := 0, consumed := 0, backoff := 256, activeUntil := 0 }
    else { r with cfg := fields }

/-- Whether an enabled submission ring names a completion ring. -/
def cqNamed (x : Partition) (n : Fin 16) : Bool := x.sq.toList.any (fun r => r.enabled && r.cqSel == n)

/-- A write to a ring's CFG register (R497). -/
def writeCfg (x : Partition) (r : RingId) (v : Word32) : Partition :=
  match r with
  | .sq n =>
    let want : Fin 16 := Fin.ofNat 16 (bits v.toNat 23 20)
    { x with sq := x.sq.set n (ringCfgWrite x.sq[n] 0x00F0001F#32 x.cq[want].ring.enabled v) }
  | .cq n =>
    if !v.getLsbD 31 && x.cq[n].ring.enabled && cqNamed x n then x
    else
      let c := x.cq[n]
      let ring := ringCfgWrite c.ring 0x00003F1F#32 true v
      let on := v.getLsbD 31
      { x with cq := x.cq.set n { c with ring := ring, sinceSignal := if on then 0 else c.sinceSignal, unread := if on then [] else c.unread } }
  | .eq => { x with eq := ringCfgWrite x.eq 0x00003F1F#32 true v }
  | .fmtx => { x with fmtx := ringCfgWrite x.fmtx 0x0000001F#32 true v }
  | .fmrx => { x with fmrx := ringCfgWrite x.fmrx 0x00003F1F#32 true v }

/-- A write to PART_CTRL: only ENABLE is writable, and not to 1 while unassigned (R388, R497). -/
def writePartCtrl (x : Partition) (v : Word32) : Partition := if x.assigned then { x with enable := v.getLsbD 31 } else x

/-- A write of one word into a partition block (R387). -/
def writePartWord (x : Partition) (o : Nat) (v : Word32) : Partition :=
  if o = 0 then writePartCtrl x v
  else if 0x008 ≤ o && o < 0x018 then { x with eq := ringAddrWrite x.eq (o - 0x008) v.toNat }
  else if o = 0x018 then writeCfg x .eq v
  else if 0x020 ≤ o && o < 0x030 then { x with fmtx := ringAddrWrite x.fmtx (o - 0x020) v.toNat }
  else if o = 0x030 then writeCfg x .fmtx v
  else if 0x040 ≤ o && o < 0x050 then { x with fmrx := ringAddrWrite x.fmrx (o - 0x040) v.toNat }
  else if o = 0x050 then writeCfg x .fmrx v
  else if 0x100 ≤ o && o < 0x300 then
    let n : Fin 16 := Fin.ofNat 16 ((o - 0x100) / 32)
    if o % 32 = 16 then writeCfg x (.sq n) v
    else { x with sq := x.sq.set n (ringAddrWrite x.sq[n] (o % 32) v.toNat) }
  else if 0x300 ≤ o && o < 0x500 then
    let n : Fin 16 := Fin.ofNat 16 ((o - 0x300) / 32)
    if o % 32 = 16 then writeCfg x (.cq n) v
    else if o % 32 = 20 then { x with cq := x.cq.set n { x.cq[n] with mod := v } }
    else { x with cq := x.cq.set n { x.cq[n] with ring := ringAddrWrite x.cq[n].ring (o % 32) v.toNat } }
  else x

/-- A write of one word to a partition block through a port (R386, R497, R25). -/
def writePart (s : State) (port : Port) (p : Part) (o : Nat) (v : Word32) : State :=
  if !s.parts[p].assigned then s
  else if s.parts[p].port ≠ port then
    note (bump s 0x41 port.val 1) 0x24 (unitHost port.val) 0 (0x1000 * (p.val + 1) + o) port.val 0
  else if domainOn s 1 then updPart s p (fun x => writePartWord x o v)
  else { s with shadows := (port.val, 0x1000 * (p.val + 1) + o, v.toNat) ::
                  s.shadows.filter (fun e => !(e.1 == port.val && e.2.1 == 0x1000 * (p.val + 1) + o)) }

/-- A mask write: clearing it sends a pending message (R498). -/
def writeVectorCtrl (s : State) (port : Port) (n : Fin 64) (v : Word32) : State :=
  let x := s.ports[port]
  let e := x.msix[n]
  let s1 := updPort s port (fun x => { x with msix := x.msix.set n { e with ctrl := v &&& 1#32 } })
  if e.ctrl.getLsbD 0 && !v.getLsbD 0 && x.pba.getLsbD n.val then
    signalVector (updPort s1 port (fun x => { x with pba := x.pba &&& ~~~(1#64 <<< n.val) })) port n.val
  else s1

/-- A write into the MSI-X table (R498). -/
def writeMsix (s : State) (port : Port) (o : Nat) (v : Word32) : State :=
  if o < 0x400 then
    let n : Fin 64 := Fin.ofNat 64 (o / 16)
    let upd (f : MsixEntry → MsixEntry) : State :=
      updPort s port (fun x => { x with msix := x.msix.set n (f x.msix[n]) })
    match o % 16 with
    | 0 => upd (fun e => { e with addr := setHalf e.addr false (v.toNat / 4 * 4) })
    | 4 => upd (fun e => { e with addr := setHalf e.addr true v.toNat })
    | 8 => upd (fun e => { e with data := v })
    | _ => writeVectorCtrl s port n v
  else s

/-- BAR4_CTRL (R382, R500). -/
def writeBar4Ctrl (s : State) (port : Port) (v : Word32) : State :=
  if s.ports[port].locked then s
  else
    let base := if v.toNat % 16 ≤ 8 then v.toNat % 16 else s.ports[port].bar4Ctrl.toNat % 16
    updPort s port (fun x => { x with bar4Ctrl := BitVec.ofNat 32 ((if v.getLsbD 31 then 2 ^ 31 else 0) + base) })

/-- HOST_LOCK (R382, R500): once 1 it stays until a reset of the port. -/
def writeHostLock (s : State) (port : Port) (v : Word32) : State :=
  updPort s port (fun x => { x with locked := x.locked || v.getLsbD 0 })

/-- A write of ones to ERR_STATUS flags, with the hardware sets of the same cycle: a set wins and counts (R10, R491). -/
def writeErrStatus (s : State) (v : Word32) (hw : BitVec 4) : State :=
  let e := s.errors
  { s with errors := { e with
      pathFailure := hw.getLsbD 0 || (e.pathFailure && !v.getLsbD 0),
      hbmUe := hw.getLsbD 1 || (e.hbmUe && !v.getLsbD 1),
      sramUe := hw.getLsbD 2 || (e.sramUe && !v.getLsbD 2),
      jobFailed := hw.getLsbD 3 || (e.jobFailed && !v.getLsbD 3),
      pathFailureCount := satAdd 32 e.pathFailureCount (if hw.getLsbD 0 then 1 else 0),
      hbmUeCount := satAdd 32 e.hbmUeCount (if hw.getLsbD 1 then 1 else 0),
      sramUeCount := satAdd 32 e.sramUeCount (if hw.getLsbD 2 then 1 else 0),
      jobFailedCount := satAdd 32 e.jobFailedCount (if hw.getLsbD 3 then 1 else 0) } }

/-- ERR_VECTOR of a port keeps its defined bits (R491). -/
def writeErrVector (s : State) (port : Port) (v : Word32) : State :=
  { s with errors := { s.errors with vector := s.errors.vector.set port (v &&& 0x8000003F#32) } }

/-- GO (R450 to R453): accepted while STAGE is WAIT_IMAGE. An IMAGE_LEN out of range is IMAGE_REQUEST (R452). -/
def writeGo (s : State) (port : Port) (v : Word32) : State :=
  if !v.getLsbD 0 || s.boot.stage ≠ Stage.waitImage then s
  else
    let b := { s.boot with attempts := if s.boot.attempts = 15 then 15 else s.boot.attempts + 1, fwPort := BitVec.ofNat 1 port.val,
                           fwDigest := zeros 64, fwVersion := 0, fwEpoch := 0 }
    if 0x2000 ≤ b.imageLen.toNat && b.imageLen.toNat ≤ 0x2000000 then
      { s with boot := { b with stage := .fetching } }
    else note { s with boot := { b with errCode := 0x10, errDetail := 0 } } 0x2 (unitCpb 0) 0 0x10 0 0

/-- A write into the boot mailbox (R450, R451). -/
def writeMailbox (s : State) (port : Port) (o : Nat) (v : Word32) : State :=
  if o = 4 then writeGo s port v
  else if s.boot.stage ≠ Stage.waitImage then s
  else if o = 8 then { s with boot := { s.boot with imageAddr := setHalf s.boot.imageAddr false (v.toNat / 64 * 64) } }
  else if o = 12 then { s with boot := { s.boot with imageAddr := setHalf s.boot.imageAddr true v.toNat } }
  else if o = 16 then { s with boot := { s.boot with imageLen := v &&& 0x03FFFFFF#32 } }
  else s

/-- A 4-byte BAR0 write through a port (R492, R493). -/
def bar0Write (s : State) (port : Port) (o : Nat) (v : Word32) : State :=
  if o < 0x100 then writeMailbox s port o v
  else if s.boot.stage ≠ Stage.ready then s
  else if o = 0xA000 then writeErrStatus s v 0
  else if o = 0xA010 then writeErrVector s port v
  else if o = 0xA10C then { s with errors := { s.errors with index := v } }
  else if s.errors.fatal then s
  else if 0x1000 ≤ o && o < 0x5000 then writePart s port (partN (o / 0x1000 - 1)) (o % 0x1000) v
  else if 0x8000 ≤ o && o < 0x9000 then writeMsix s port (o - 0x8000) v
  else if o = 0x9000 then writeBar4Ctrl s port v
  else if o = 0x9004 then writeHostLock s port v
  else s

/-- An access of 4 or 8 bytes, naturally aligned; 8 bytes act as two 4-byte writes, the lower address first (R493). -/
def bar0Access (s : State) (port : Port) (o : Nat) (wide : Bool) (v : Nat) : State :=
  if !bar0Open s port || o % (if wide then 8 else 4) ≠ 0 then s
  else if wide then bar0Write (bar0Write s port o (BitVec.ofNat 32 v)) port (o + 4) (BitVec.ofNat 32 (v / 2 ^ 32))
  else bar0Write s port o (BitVec.ofNat 32 v)

/-- The CFG offset of a ring in its partition block (R387). -/
def cfgOffset (r : RingId) : Nat :=
  match r with
  | .sq n => 0x110 + 0x20 * n.val
  | .cq n => 0x310 + 0x20 * n.val
  | .eq => 0x018
  | .fmtx => 0x030
  | .fmrx => 0x050

/-- Writes held in the shadows of a domain's block take effect when the domain wakes, oldest first (R25). -/
def applyShadows (s : State) (mine : Nat → Bool) : State :=
  let l := (s.shadows.filter (fun e => mine e.2.1)).reverse
  l.foldl (fun s e => bar0Write s (portN e.1) e.2.1 (BitVec.ofNat 32 e.2.2))
    { s with shadows := s.shadows.filter (fun e => !mine e.2.1) }

/-! ### The commands -/

/-- REGISTER_WRITE (R24, R25, R493). -/
def execRegisterWrite (port : Port) (offset : BitVec 16) (wide : Bool) (value : Word64) (s : State) :
    Host.Outcome State Fault Refusal :=
  .next (bar0Access s port offset.toNat wide value.toNat)

/-- RING_ENABLE (R388, R496, R497): a write of a ring's CFG register. -/
def execRingEnable (port : Port) (p : Part) (r : RingId) (cfg : Word32) (s : State) : Host.Outcome State Fault Refusal :=
  .next (if bar0Open s port && s.live then writePart s port p (cfgOffset r) cfg else s)

/-- PART_CTRL (R388, R497). -/
def execPartCtrl (port : Port) (p : Part) (value : Word32) (s : State) : Host.Outcome State Fault Refusal :=
  .next (if bar0Open s port && s.live then writePart s port p 0 value else s)

/-- ERR_STATUS (R10, R491). -/
def execErrStatus (port : Port) (value : Word32) (hwSet : BitVec 4) (s : State) : Host.Outcome State Fault Refusal :=
  .next (if bar0Open s port && decide (s.boot.stage = Stage.ready) then writeErrStatus s value hwSet else s)

/-- HOST_LOCK (R500). -/
def execHostLock (port : Port) (value : Word32) (s : State) : Host.Outcome State Fault Refusal :=
  .next (if bar0Open s port && s.live then writeHostLock s port value else s)

/-- VECTOR_CTRL (R498). -/
def execVectorCtrl (port : Port) (v : Fin 64) (value : Word32) (s : State) : Host.Outcome State Fault Refusal :=
  .next (if bar0Open s port && s.live then writeVectorCtrl s port v value else s)

/-- GO (R451, R453). -/
def execGo (port : Port) (value : Word32) (s : State) : Host.Outcome State Fault Refusal :=
  .next (if bar0Open s port then writeGo s port value else s)

end Sys2Proof.Machine
end

