-- ==== Sys2Proof/Machine/Rings.lean ====
section
/-! DEFINITION. Rings and doorbells (R383, R384, R389 to R393), the checks of a descriptor at fetch (R395), admission and order
(R397, R398). -/

namespace Sys2Proof.Machine

open Sys2Proof

/-! ### Descriptors (R393 to R395) -/

/-- The operand fields of each opcode as (offset, size); none for an unknown opcode (R394). -/
def operandFields (opcode : Nat) : Option (List (Nat × Nat)) :=
  match opcode with
  | 0x01 => some []
  | 0x02 => some [(8, 1)]
  | 0x10 => some [(8, 4), (12, 4), (16, 8), (24, 8), (32, 8), (40, 4), (44, 1)]
  | 0x11 => some [(8, 4), (12, 4), (16, 8), (24, 8), (32, 8), (40, 4), (44, 1)]
  | 0x20 => some [(16, 8), (24, 4), (32, 8), (40, 8)]
  | 0x21 => some [(8, 4)]
  | 0x22 => some [(8, 4), (12, 4), (16, 8), (24, 4), (28, 4)]
  | 0x23 => some [(8, 4), (12, 4), (16, 8), (24, 4), (28, 4)]
  | 0x30 => some [(8, 4)]
  | 0x31 => some [(8, 4)]
  | 0x32 => some [(8, 4)]
  | 0x40 => some [(8, 4), (12, 1), (13, 1), (16, 4), (24, 8), (32, 8), (40, 8)]
  | 0x41 => some [(8, 4), (12, 1), (13, 1), (16, 4), (24, 8), (32, 8), (40, 8)]
  | 0x42 => some [(8, 4), (12, 4)]
  | 0x50 => some [(8, 4), (12, 1), (13, 1), (16, 16)]
  | 0x51 => some [(8, 4)]
  | 0x60 => some [(8, 4), (12, 1), (16, 8), (24, 4)]
  | 0x61 => some [(16, 8), (24, 4)]
  | 0x62 => some [(8, 4), (12, 4), (16, 8), (24, 4)]
  | 0x70 => some [(16, 8), (24, 4), (32, 32)]
  | 0x71 => some [(8, 4), (16, 8), (24, 4), (32, 8)]
  | _ => none

/-- Reserved fields and undefined operand bytes are zero (R393). -/
def operandsZero (d : Bytes) (fs : List (Nat × Nat)) : Bool :=
  u8 d 1 < 2 && zeroRange d 2 2 &&
    (List.range 56).all (fun i => fs.any (fun f => decide (f.1 ≤ i + 8) && decide (i + 8 < f.1 + f.2)) || u8 d (i + 8) == 0)

/-- Fields in the ranges of R394 that need nothing but the descriptor. -/
def operandsInRange (d : Bytes) : Bool :=
  match u8 d 0 with
  | 0x02 => decide (u8 d 8 ≤ 1)
  | 0x10 => decide (1 ≤ u64 d 32) && decide (u64 d 32 ≤ 2 ^ 40) && decide (u8 d 44 ≤ 63)
  | 0x11 => decide (1 ≤ u64 d 32) && decide (u64 d 32 ≤ 2 ^ 40) && u32 d 40 == 0xFFFFFFFF && u8 d 44 == 0
  | 0x20 => decide (256 ≤ u32 d 24) && decide (128 ≤ u64 d 40) && decide (u64 d 40 ≤ 2 ^ 30)
  | 0x22 => u32 d 24 % 64 == 0 && decide (1 ≤ u32 d 28) && decide (u32 d 28 ≤ 65536)
  | 0x23 => decide (u32 d 12 ≤ 1) && u32 d 24 % 64 == 0 && u32 d 28 == 1
  | 0x40 => decide (u8 d 12 ≤ 2) && (u8 d 12 == 1 || (u8 d 13 == 0xFF && u32 d 16 == 0)) && (u8 d 12 == 2 || u64 d 40 == 0)
  | 0x41 => decide (u8 d 12 ≤ 2) && (u8 d 12 == 1 || (u8 d 13 == 0xFF && u32 d 16 == 0)) && (u8 d 12 == 2 || u64 d 40 == 0)
  | 0x50 => decide (u8 d 12 ≤ 3) && decide (u8 d 13 ≤ 3)
  | 0x60 => decide (u8 d 12 ≤ 1)
  | 0x62 => decide (1 ≤ u32 d 12) && decide (u32 d 12 ≤ 2048)
  | _ => true

/-- Permissions (R395, reason 0x0004). -/
def descAllowed (s : State) (p : Part) (d : Bytes) : Bool :=
  match u8 d 0 with
  | 0x50 => u8 d 12 != p.val
  | 0x71 => s.parts[p].powerAdmin
  | _ => true

/-- The host ranges a descriptor names, as (address, bytes, alignment). -/
def hostRanges (d : Bytes) : List (Nat × Nat × Nat) :=
  match u8 d 0 with
  | 0x10 => [(u64 d 16, u64 d 32, 1)]
  | 0x11 => [(u64 d 16, u64 d 32, 1)]
  | 0x20 => [(u64 d 16, u32 d 24, 64), (u64 d 32, u64 d 40, 1)]
  | 0x22 => [(u64 d 16, u32 d 24 * u32 d 28, 64)]
  | 0x23 => [(u64 d 16, u32 d 24 * u32 d 28, 64)]
  | 0x40 => if u8 d 12 = 2 then [(u64 d 32, u64 d 40, 1)] else []
  | 0x41 => if u8 d 12 = 2 then [(u64 d 32, u64 d 40, 1)] else []
  | 0x60 => [(u64 d 16, u32 d 24, 64)]
  | 0x61 => [(u64 d 16, u32 d 24, 64)]
  | 0x62 => [(u64 d 16, u32 d 24, 64)]
  | 0x70 => [(u64 d 16, u32 d 24, 64)]
  | 0x71 => [(u64 d 16, u32 d 24, 64), (u64 d 32, u32 d 8, 1)]
  | _ => []

/-- The REASON of a descriptor that fails a check at fetch, the lowest code first; 0 when it passes (R395). -/
def descReason (s : State) (p : Part) (d : Bytes) : Nat :=
  match operandFields (u8 d 0) with
  | none => 1
  | some fs =>
    if !operandsZero d fs then 2
    else if !operandsInRange d then 3
    else if !descAllowed s p d then 4
    else if (hostRanges d).any (fun r => decide (2 ^ 64 < r.1 + r.2.1) || r.1 % r.2.2 != 0) then 5
    else 0

/-! ### Fetching (R391, R392, R397) -/

/-- Whether a command may take one of the last 16 places of its partition's limit (R397). -/
def mayPass (opcode : Nat) : Bool :=
  opcode == 0x30 || opcode == 0x31 || opcode == 0x32 || opcode == 0x60 || opcode == 0x51

/-- Whether the partition and the device admit one more command (R397). -/
def admits (s : State) (p : Part) (opcode : Nat) : Bool :=
  decide (s.cmds.length < 4096) &&
    decide (inFlight s p < s.parts[p].limit - (if mayPass opcode then 0 else 16))

/-- One descriptor fetched: a command in flight, or BAD_DESCRIPTOR (R395, R397). -/
def fetchOne (s : State) (p : Part) (q : Fin 16) (d : Bytes) : State :=
  let r := descReason s p d
  let s1 := updPart s p (fun x => { x with sq := x.sq.set q { x.sq[q] with consumed := x.sq[q].consumed + 1 } })
  let c : Cmd := { uid := s1.nextUid, part := p, sq := q, desc := d, started := r != 0, handle := 0, fence := none, policy := none }
  let s2 := { s1 with nextUid := s1.nextUid + 1, cmds := s1.cmds ++ [c] }
  if r = 0 then s2 else finish s2 s1.nextUid 0x10 r 0 0

/-- Descriptors fetched in order until the count is reached or one cannot be admitted (R397). -/
def fetchAll (p : Part) (q : Fin 16) : List Bytes → State → State
  | [], s => s
  | d :: t, s =>
    if s.parts[p].sq[q].held = 0 || !admits s p (u8 d 0) then s else fetchAll p q t (fetchOne s p q d)

/-- A ring error (R392): the ring stops, and RING_ERROR is posted. -/
def ringFailed (r : Ring) : Ring := { r with cfg := r.cfg ||| 0x40000000#32 }

/-- A host-written ring after a read of its producer count: poll interval and active time (R391). -/
def polled (r : Ring) (index : Word32) (now : Nat) : Ring :=
  if index = r.posted then { r with backoff := if now < r.activeUntil then 1 else min 256 (2 * r.backoff) }
  else { r with posted := index, backoff := 1, activeUntil := now + 10000 }

/-- Whether the device reads doorbells of a partition now: it runs, the partition and the ring are enabled, and the port is in D0. -/
def ringReads (s : State) (p : Part) (r : Ring) : Bool := s.live && r.usable && portPosts s s.parts[p].port

/-- A read of one doorbell record (R390 to R392, R396, R400). -/
def doorbell (s : State) (d : DoorbellRead) : State :=
  let p := d.part
  let x := s.parts[p]
  match d.ring with
  | .sq n =>
    let r := x.sq[n]
    if !(ringReads s p r && x.enable) then s
    else if r.depth < (d.index - r.consumed).toNat then
      hostEvent (updPart s p (fun x => { x with sq := x.sq.set n (ringFailed x.sq[n]) })) [p] 2 (unitHost x.port.val) 0 d.index.toNat n.val
    else pump (fetchAll p n d.entries (updPart s p (fun x => { x with sq := x.sq.set n (polled x.sq[n] d.index s.timeBase) })))
  | .fmtx =>
    let r := x.fmtx
    if !(ringReads s p r && x.enable && x.fmChannel) then s
    else if r.depth < (d.index - r.consumed).toNat then
      hostEvent (updPart s p (fun x => { x with fmtx := ringFailed x.fmtx })) [p] 2 (unitHost x.port.val) 0 d.index.toNat 32
    else updPart s p (fun x => { x with fmtx := polled x.fmtx d.index s.timeBase })
  | .cq n =>
    let c := x.cq[n]
    if !ringReads s p c.ring then s
    else if c.ring.depth < (c.ring.posted - d.index).toNat then
      pump (hostEvent (updCq s p n (fun c => { c with ring := ringFailed c.ring })) [p] 2
        (unitHost x.port.val) 0 d.index.toNat (16 + n.val))
    else
      let k := (d.index - c.ring.consumed).toNat
      let s1 := updCq s p n (fun c => { c with ring := { c.ring with consumed := d.index }, unread := c.unread.drop k })
      pump ((c.unread.take k).foldl consumed s1)
  | .eq =>
    if !ringReads s p x.eq then s
    else if x.eq.depth < (x.eq.posted - d.index).toNat then
      let f := drawFree s
      hostEvent (updPart f.2 p (fun x => { x with eq := ringFailed x.eq })) [p] 2 (unitHost x.port.val) 0 d.index.toNat f.1
    else updPart s p (fun x => { x with eq := { x.eq with consumed := d.index } })
  | .fmrx =>
    if !ringReads s p x.fmrx then s
    else if x.fmrx.depth < (x.fmrx.posted - d.index).toNat then
      hostEvent (updPart s p (fun x => { x with fmrx := ringFailed x.fmrx })) [p] 2 (unitHost x.port.val) 0 d.index.toNat 33
    else updPart s p (fun x => { x with fmrx := { x.fmrx with consumed := d.index } })

/-- Whether a doorbell read is one that a nudge causes on a port: a submission or FM transmit ring of a partition bound there
(R383). -/
def nudged (s : State) (port : Port) (d : DoorbellRead) : Bool :=
  s.parts[d.part].port == port &&
    (match d.ring with
      | .sq _ => true
      | .fmtx => true
      | .cq _ => false
      | .eq => false
      | .fmrx => false)

/-- The rings of a port's partitions are active for 10 µs (R383, R391). -/
def activate (s : State) (port : Port) : State :=
  let act := fun (r : Ring) => if r.enabled then { r with backoff := 1, activeUntil := s.timeBase + 10000 } else r
  { s with parts := s.parts.map (fun x => if x.port == port then { x with sq := x.sq.map act, fmtx := act x.fmtx } else x) }

/-- The moderation time of a completion ring passes: records posted since the last signal are signalled (R384). -/
def coalesce (s : State) (p : Part) (c : Fin 16) : State :=
  let x := s.parts[p].cq[c]
  if x.ring.usable && 0 < x.sinceSignal && 0 < bits x.mod.toNat 31 16 then
    signalVector (updCq s p c (fun x => { x with sinceSignal := 0 })) s.parts[p].port x.ring.vector
  else s

/-! ### The commands -/

/-- DOORBELL_READ (R391). -/
def execDoorbellRead (r : DoorbellRead) (s : State) : Host.Outcome State Fault Refusal := .next (doorbell s r)

/-- NUDGE (R383). -/
def execNudge (port : Port) (reads : List DoorbellRead) (s : State) : Host.Outcome State Fault Refusal :=
  .next (if s.live && s.ports[port].linkUp then (reads.filter (nudged s port)).foldl doorbell (activate s port) else s)

/-- COAL_US (R384). -/
def execCoalUs (p : Part) (c : Fin 16) (s : State) : Host.Outcome State Fault Refusal :=
  .next (if s.live then coalesce s p c else s)

end Sys2Proof.Machine
end

