-- ==== Sys2Proof/Machine/Window.lean ====
section
/-! DEFINITION. The core SRAM debug windows (R130, R162, R163) and plain bytes of the local map (R272). -/

namespace Sys2Proof.Machine

open Sys2Proof

/-! ### Which job a cluster belongs to -/

/-- The live RUN or STEP in one of whose grids a cluster lies. -/
def clusterRun (s : State) (c : Nat) : Option (LongOp × Run × Folio) :=
  (liveRuns s).find? (fun x => (List.range x.2.2.tables.grids.length).any (fun g => (x.2.2.gridClusters g).contains c))

/-- The stamp that a cluster's endpoint stub holds (R185). -/
def stubStamp (s : State) (c : Nat) : Stamp :=
  match clusterRun s c with
  | some (o, _, _) => partStamp s o.part
  | none => 0

/-- Whether a core's window shows its contents: the running folio has DEBUG (R162). -/
def windowOpen (s : State) (c : Nat) : Bool :=
  match clusterRun s c with
  | some (_, _, f) => bit f.tables.flags 1
  | none => false

/-- Whether the job of a cluster is suspended (R163). -/
def windowSuspended (s : State) (c : Nat) : Bool :=
  match clusterRun s c with
  | some (o, _, _) => o.state == .suspended
  | none => false

/-! ### Thread state (R162) -/

/-- Codes of R139. -/
def ThreadState.code : ThreadState → Nat
  | .idle => 0
  | .ready => 1
  | .parked => 2
  | .trackerWait => 3
  | .held => 4

/-- A thread that is not in its reset state. -/
def threadOf (s : State) (core : Nat) (t : Fin 8) : Option Thread := s.threads.find? (fun x => x.core == core && x.t == t)

/-- The 256 bytes of a roaming thread's state. -/
def threadBytes (s : State) (core : Nat) (t : Fin 8) : Bytes :=
  match threadOf s core t with
  | none => zeros 8 ++ le 4 0xFFFFFFFF ++ zeros 244
  | some x =>
    let tr := match s.trackers.find? (fun y => y.core == core && y.t == t) with | some y => y.idx | none => 0xFFFFFFFF
    le 1 x.state.code ++ le 1 (if x.deferred.isSome then 1 else 0) ++
      le 2 (match x.start with | some p => p.program | none => 0) ++ le 4 x.next ++ le 4 tr ++ le 4 x.parks ++ zeros 48 ++
      x.regs.toList.flatMap (fun r => le 8 r.toNat)

/-- The 256 bytes of thread 0's state; the cycle counts are free values (R28, log entry 3). -/
def thread0Bytes (s : State) (core : Nat) : Bytes :=
  let c := core / 16
  let q := quadN (quadOfCluster c)
  let x := s.seqs[q]
  let len := match clusterRun s c with | some (_, _, f) => max f.tables.strokeCount 1 | none => 1
  let depth := match s.waits.find? (fun w => w.cluster == c) with | some w => w.depth | none => 0
  le 8 ((x.opened - 1) % len) ++ (List.range 16).map (fun i => Config.freeByte s.fresh i) ++ le 4 depth ++ zeros 228

/-- A byte of a core's window at an offset (R162). -/
def windowByte (s : State) (core off : Nat) : Byte :=
  if !windowOpen s (core / 16) then 0#8
  else if off < 0xC000 then s.mem.read (coreBase + core * coreBytes + off)
  else if off < 0xD000 then
    match s.reservoirs.find? (fun r => r.1 == core) with
    | some r => Config.freeByte r.2 off
    | none => 0#8
  else if off < 0xD100 then (thread0Bytes s core).getD (off - 0xD000) 0#8
  else if off < 0xD800 then (threadBytes s core (Fin.ofNat 8 ((off - 0xD000) / 256))).getD (off % 256) 0#8
  else if off < 0xD900 then
    BitVec.ofNat 8 (tallyGet s.tokens (core / 16, (off - 0xD800) / 4) / 256 ^ (off % 4))
  else 0#8

/-- A thread's state as written through the window: code 0 leaves it IDLE and code 1 READY at RESUME, any other code leaves what it
returns to; the tracker is not written. -/
def threadFrom (x : Thread) (b : Bytes) : Option Thread :=
  if u8 b 0 = 0 then none
  else some { x with
    resumeTo := if u8 b 0 = 1 then .ready else x.resumeTo,
    deferred := if u8 b 1 = 0 then none else x.deferred,
    start := x.start.map (fun p => { p with program := u16 b 2 }),
    next := u32 b 4, parks := u32 b 12,
    regs := Vector.ofFn (fun i : Fin 24 => BitVec.ofNat 64 (u64 b (0x40 + 8 * i.val))) }

/-- A thread that the window starts from IDLE: it runs a program of the suspended folio. -/
def newThread (s : State) (core : Nat) (t : Fin 8) : Thread :=
  { core := core, t := t, state := .held, resumeTo := .ready, cancelling := false,
    start := (clusterRun s (core / 16)).map (fun x =>
      { part := x.1.part, folio := x.2.2.handle, program := 0, pos := 0, rank := x.2.2.rank }),
    deferred := none, next := 0, parks := 0, regs := Vector.replicate 24 0, wants := none }

/-- Bytes written over a roaming thread's state (R163). -/
def writeThread (s : State) (core : Nat) (t : Fin 8) (o : Nat) (b : Bytes) : State :=
  let x := (threadOf s core t).getD (newThread s core t)
  let y := threadFrom x (overlay (threadBytes s core t) o b)
  { s with threads := s.threads.filter (fun z => !(z.core == core && z.t == t)) ++ y.toList }

/-- A write into a window taken as it stands: core SRAM, or the state of a roaming thread. -/
def windowApply (s : State) (core off : Nat) (b : Bytes) : State :=
  if off < 0xC000 then updMem s (fun m => m.store (coreBase + core * coreBytes + off) b)
  else if 0xD100 ≤ off && off < 0xD800 then writeThread s core (Fin.ofNat 8 ((off - 0xD000) / 256)) (off % 256) b
  else s

/-- A write into a window (R162, R163): discarded and recorded unless the window is open; held until RESUME while the job is
suspended; otherwise only core SRAM is written. -/
def windowWrite (s : State) (core off : Nat) (b : Bytes) : State :=
  if !windowOpen s (core / 16) then note s 0x22 (core / 16) 0 (coreBase + core * coreBytes + off) 0 0
  else if windowSuspended s (core / 16) then
    { s with debugWrites := s.debugWrites ++ [(coreBase + core * coreBytes + off, b)] }
  else if off < 0xC000 then windowApply s core off b
  else s

/-- The held writes of a folio's clusters. -/
def heldWrites (s : State) (f : Folio) : List (Nat × Bytes) :=
  s.debugWrites.filter (fun w =>
    (List.range f.tables.grids.length).any (fun g => (f.gridClusters g).contains ((w.1 - coreBase) / coreBytes / 16)))

/-- The held writes of a folio's clusters dropped. -/
def dropWrites (s : State) (f : Folio) : State := { s with debugWrites := s.debugWrites.filter (fun w => !(heldWrites s f).contains w) }

/-- The held writes of a folio's clusters take effect, oldest first (R163). -/
def applyWrites (s : State) (folio : Handle) : State :=
  match folioOf s folio with
  | none => s
  | some f =>
    (heldWrites s f).foldl (fun s w => windowApply s ((w.1 - coreBase) / coreBytes) ((w.1 - coreBase) % coreBytes) w.2) (dropWrites s f)

/-! ### Plain bytes of the local map (R272) -/

/-- Whether an address lies in a core SRAM window. -/
def inCoreWindow (a : Nat) : Bool := decide (coreBase ≤ a) && decide (a < coreBase + 80000 * coreBytes)

/-- Whether an address lies in a cluster SRAM window. -/
def inClusterWindow (a : Nat) : Bool := decide (clusterBase ≤ a) && decide (a < clusterBase + 5000 * clusterBytes)

/-- Bytes at a target's address. -/
def targetBytes (s : State) (a n : Nat) : Bytes :=
  if inCoreWindow a then (List.range n).map (fun i => windowByte s ((a + i - coreBase) / coreBytes) ((a + i - coreBase) % coreBytes))
  else s.mem.readBytes a n

/-- Bytes written at a target's address. -/
def targetStore (s : State) (a : Nat) (b : Bytes) : State :=
  if inCoreWindow a then windowWrite s ((a - coreBase) / coreBytes) ((a - coreBase) % coreBytes) b
  else updMem s (fun m => m.store a b)

end Sys2Proof.Machine
end

