-- ==== Sys2Proof/Machine/Commands.lean ====
section
/-! DEFINITION. Host commands on rings, copies, runs and long operations (R394 to R398, R404 to R412, R68, R164, R489). -/

namespace Sys2Proof.Machine

open Sys2Proof

/-! ### Shared -/

/-- How a command names a folio: the folio, or the status with which the command completes (R68, R395). -/
inductive FolioRef where
  | ok (f : Folio)
  | bad (status : Nat)
deriving DecidableEq, Repr

/-- The folio a handle names for a partition. A valid handle that is no loaded folio gives WRONG_STATE, another BAD_HANDLE. -/
def folioRef (s : State) (p : Part) (h : Handle) : FolioRef :=
  match s.folios.find? (fun f => f.handle == h && f.part == p) with
  | some f => .ok f
  | none => if s.longs.any (fun o => o.handle == h && o.part == p) then .bad 0x12 else .bad 0x11

/-- A handle field of a descriptor. -/
def descHandle (d : Bytes) (o : Nat) : Handle := BitVec.ofNat 32 (u32 d o)

/-- A result written before its record, or NO_RESOURCE when the buffer is too short (R395, R403). -/
def giveResult (s : State) (c : Cmd) (bytes : Bytes) : State :=
  if u32 c.desc 24 < bytes.length then finish s c.uid 0x13 6 bytes.length 0
  else finish (updHost s s.parts[c.part].port (fun m => m.writeBytes (u64 c.desc 16) bytes)) c.uid 0 0 0 0

/-- A token counter raised by 1; one that would pass its end saturates and writes a record (R143). -/
def signalToken (s : State) (cluster n : Nat) : State :=
  let v := tallyGet s.tokens (cluster, n)
  if v = 2 ^ 32 - 1 then note s 0x21 cluster 0 n 0 0 else { s with tokens := tallySet s.tokens (cluster, n) (v + 1) }

/-- Whether a folio has a RUN or STEP that is queued, running, suspended or ending (R68). -/
def hasRun (s : State) (h : Handle) : Bool :=
  s.longs.any (fun o =>
    !o.state.isOver &&
      (match o.body with
        | .run r => r.folio == h
        | _ => false))

/-! ### Records of a step (R263, R411) -/

/-- Distinct LAYER_TAGs that buckets of a folio name, ascending (R263). -/
def margTags (t : Tables) : List Nat :=
  sortBy (fun a b => decide (a < b)) ((t.buckets.map (fun b => b.layer)).filter (fun l => l != 0xFFFF)).dedup

/-- The largest step record of a folio (R409). -/
def stepRecordBytes (t : Tables) : Nat :=
  0x180 + roundUp (0x20 + 32 * (margTags t).length + 72 * (t.buckets.filter (fun b => bit b.flags 0)).length +
    4 * (t.buckets.filter (fun b => bit b.flags 1)).length) 64

/-! ### NOP, FENCE -/

/-- NOP (R394). -/
def execNop (p : Part) (q : Fin 16) (s : State) : Host.Outcome State Fault Refusal :=
  .next (match startable s p q 0x01 with
    | none => s
    | some c => finish (begun s c.uid) c.uid 0 0 0 0)

/-- FENCE (R398). -/
def execFence (p : Part) (q : Fin 16) (s : State) : Host.Outcome State Fault Refusal :=
  .next (match startable s p q 0x02 with
    | none => s
    | some c =>
      let scope := s.cmds.filter (fun d => d.started && d.part == p && (u8 c.desc 8 == 1 || d.sq == q))
      let mark := fun (d : Cmd) => { d with started := true, fence := some (scope.map (fun d => d.uid)) }
      pump { s with cmds := updFirst (fun d => d.uid == c.uid) mark s.cmds })

/-! ### Copies -/

/-- Whether a tensor of a folio takes space (R524). -/
def takesSpace (f : Folio) (t : Nat) : Bool :=
  match f.tables.tensors[t]? with
  | none => false
  | some e => e.inHbm || f.tensorAt.getD t 0 != 0

/-- Whether a copy may name this range (R395, reason 0x0007). -/
def copyRangeOk (f : Folio) (t off len : Nat) : Bool :=
  match f.tables.tensors[t]? with
  | none => false
  | some e => e.hasRole 5 && decide (off + len ≤ e.bytes) && takesSpace f t

/-- A copy started (R407): long when LENGTH is 16 MiB or more (R394). -/
def startCopy (s : State) (c : Cmd) (toDevice : Bool) : State :=
  let d := c.desc
  let s1 := begun s c.uid
  match folioRef s c.part (descHandle d 8) with
  | .bad st => finish s1 c.uid st 0 0 0
  | .ok f =>
    if !copyRangeOk f (u32 d 12) (u64 d 24) (u64 d 32) then finish s1 c.uid 0x10 7 0 0
    else if u32 d 40 ≠ noneIdx && f.tables.grids.length ≤ u32 d 40 then finish s1 c.uid 0x10 3 0 0
    else
      let k : CopyOp :=
        { id := s1.nextUid, part := c.part, toDevice := toDevice, folio := f.handle, tensor := u32 d 12, hostAddr := u64 d 16,
          off := u64 d 24, len := u64 d 32, tokenGrid := u32 d 40, token := u8 d 44, cmd := c.uid,
          long := decide (2 ^ 24 ≤ u64 d 32), duringRun := hasRun s f.handle }
      let s2 := { s1 with nextUid := s1.nextUid + 1, copies := s1.copies ++ [k] }
      if k.long then
        let a := admitLong s2 c k.len (.copy k)
        updLong a.2 a.1 (fun o => { o with state := .running, began := true })
      else s2

/-- COPY_IN (R407, R408). -/
def execCopyIn (p : Part) (q : Fin 16) (s : State) : Host.Outcome State Fault Refusal :=
  .next (match startable s p q 0x10 with
    | none => s
    | some c => startCopy s c true)

/-- COPY_OUT (R407, R408). -/
def execCopyOut (p : Part) (q : Fin 16) (s : State) : Host.Outcome State Fault Refusal :=
  .next (match startable s p q 0x11 with
    | none => s
    | some c => startCopy s c false)

/-- The long operation of a copy. -/
def copyLong (s : State) (id : Nat) : Option LongOp :=
  s.longs.find? (fun o =>
    match o.body with
    | .copy k => k.id == id
    | _ => false)

/-- A copy ends: its command or its long operation completes. -/
def endCopy (s : State) (k : CopyOp) (st : LongState) (status reason d0 : Nat) : State :=
  let s1 := { s with copies := s.copies.filter (fun x => x.id != k.id) }
  match copyLong s1 k.id with
  | some o => endLong (updLong s1 o.handle (fun o => { o with doneUnits := if status = 0 then k.len else o.doneUnits })) o.handle st
      status reason d0 0
  | none => finish s1 k.cmd status reason d0 0

/-- The last byte of a COPY_IN is written (R407, R408, R94). -/
def copyInDone (s : State) (f : Folio) (k : CopyOp) (data : Bytes) : State :=
  let s1 := updMem s (fun m => m.store (f.tensorAt.getD k.tensor 0 + k.off) data)
  let s2 := updFolio s1 k.folio (fun f => { f with scaleExp := f.scaleExp.filter (fun e => e.1 != k.tensor) })
  let s3 := if k.tokenGrid = noneIdx then s2
    else (f.gridClusters k.tokenGrid).foldl (fun s c => signalToken s c k.token) s2
  endCopy s3 k .done 0 0 0

/-- The bytes before the first poisoned line of a range. -/
def cleanPrefix (m : Memory) (a n : Nat) : Nat :=
  ((m.poison.filter (fun l => decide (l * 64 < a + n) && decide (a < l * 64 + 64))).map (fun l => l * 64 - a)).foldl min n

/-- A COPY_OUT is written to the host; a poisoned line ends it with COPY_POISON (R407, R475). -/
def copyOutDone (s : State) (f : Folio) (k : CopyOp) : State :=
  let a := f.tensorAt.getD k.tensor 0 + k.off
  let n := cleanPrefix s.mem a k.len
  let port := s.parts[k.part].port
  let s1 := updHost s port (fun m => m.writeBytes k.hostAddr (s.mem.readBytes a n))
  if s.mem.poisoned a k.len then
    endCopy (errorNote (undefineHost s1 port (k.hostAddr + n) (k.hostAddr + k.len)) 0x302 (unitHost port.val) 0 (a + n) 0 n) k .failed
      0x40 0x302 n
  else endCopy s1 k .done 0 0 0

/-- A copy that may end now, with its folio. -/
def copyMoving (s : State) (id : Nat) : Option (CopyOp × Folio) :=
  match s.copies.find? (fun k => k.id == id) with
  | none => none
  | some k =>
    let moving := match copyLong s id with
      | some o => o.state == .running
      | none => true
    if s.live && moving then (folioOf s k.folio).map (fun f => (k, f)) else none

/-! ### RUN and STEP -/

/-- The run that a RUN or STEP descriptor asks for (R394, R410). -/
def newRun (f : Folio) (d : Bytes) : Run :=
  { folio := f.handle, quads := if f.tables.kind = 2 then [] else f.quads,
    stepCount := if u8 d 0 = 0x23 then 1 else u32 d 12, recBase := u64 d 16, stride := u32 d 24, slots := u32 d 28,
    stepsDone := 0, firstStep := f.jobStep, timeStart := 0, counters := Vector.replicate 16 0, stalls := Vector.replicate 32 0,
    marg := [], skips := [], unvisited := [], instancesDone := 0, updates := [], leafWritten := [], exchs := [],
    stopAfter := none, cancelStop := false, backlogStop := false, busySlots := [], heldRecords := [], ckptHold := false,
    lastDone := false }

/-- A RUN or STEP admitted (R68, R364, R410): RECORD_STRIDE must hold a record, and the folio must be loaded and not replaced. -/
def startRun (s : State) (c : Cmd) : State :=
  match folioRef s c.part (descHandle c.desc 8) with
  | .bad st => finish (begun s c.uid) c.uid st 0 0 0
  | .ok f =>
    if f.retired then finish (begun s c.uid) c.uid 0x12 0 0 0
    else if u32 c.desc 24 < stepRecordBytes f.tables then finish (begun s c.uid) c.uid 0x10 3 0 0
    else (admitLong s c (newRun f c.desc).stepCount (.run (newRun f c.desc))).2

/-- RUN (R410). -/
def execRun (p : Part) (q : Fin 16) (s : State) : Host.Outcome State Fault Refusal :=
  .next (match startable s p q 0x22 with
    | none => s
    | some c => startRun s c)

/-- STEP (R410). -/
def execStep (p : Part) (q : Fin 16) (s : State) : Host.Outcome State Fault Refusal :=
  .next (match startable s p q 0x23 with
    | none => s
    | some c => startRun s c)

/-- Whether a RESHARD or CHECKPOINT_READ of the partition is rewriting the job's tensors. -/
def rewriting (s : State) (p : Part) : Bool :=
  s.longs.any (fun o => o.part == p && !o.state.isOver &&
    (match o.body with
      | .reshard _ => true
      | .ckpt k => !k.write
      | _ => false))

/-- Whether a queued RUN or STEP may leave the queue (R164, R222, R266). -/
def mayStart (s : State) (o : LongOp) (r : Run) : Bool :=
  s.live && o.state == .queued && !partStopped s o.part && !rewriting s o.part &&
    r.quads.all (fun q => s.seqs[q].owner.isNone && decide (s.ductus[q].gens.length + 64 ≤ 256)) &&
    !(s.ligature.toList.any (fun l => l.slots.any (fun i => i.state == .dead &&
        (match folioOf s i.folio with
          | some f => f.part == o.part
          | none => false))))

/-- A RUN or STEP begins: its quadrants wait in OPENING for stroke 0 (R164 to R166). -/
def beginRun (s : State) (o : LongOp) (r : Run) : State :=
  let step := match folioOf s r.folio with | some f => f.jobStep | none => 0
  let s0 := match folioOf s r.folio with | some f => dropWrites s f | none => s
  let s1 := updRun (updLong s0 o.handle (fun o => { o with state := .running, began := true })) o.handle
    (fun r => { r with firstStep := step })
  r.quads.foldl (fun s q => updSeq s q (fun _ => { Sequencer.reset with state := .opening, owner := some o.handle })) s1

/-- JOB_START (R164). -/
def execJobStart (h : Handle) (s : State) : Host.Outcome State Fault Refusal :=
  .next (match runOf s h with
    | none => s
    | some (o, r) => if mayStart s o r then beginRun s o r else s)

/-! ### SUSPEND, RESUME, CANCEL (R405, R406) -/

/-- Whether an operation has safe points for SUSPEND (R405). -/
def LongBody.suspendable : LongBody → Bool
  | .run _ => true
  | .load _ => false
  | .copy _ => true
  | .ckpt _ => false
  | .reshard _ => false

/-- A target goes to SUSPENDED at once, with its record; the SUSPEND completes after it. -/
def suspendNow (s : State) (h : Handle) (uid : Nat) : State :=
  let rec_ := s.nextUid
  let s1 := longRecord (updLong s h (fun o => { o with state := .suspended })) h 2 2 0 0 0 none none
  finishAfter s1 uid 0 0 0 0 (some rec_)

/-- SUSPEND of a target in each state. -/
def suspendTarget (s : State) (uid : Nat) (o : LongOp) : State :=
  if !o.body.suspendable then finish s uid 0x12 0 0 0
  else
    match o.state with
    | .queued => suspendNow s o.handle uid
    | .running =>
      match o.body with
      | .run _ =>
        reachSafePoint (stopAtNext (updLong s o.handle (fun o => { o with suspends := o.suspends ++ [uid] })) o.handle) o.handle
      | _ => suspendNow s o.handle uid
    | .suspended => finish s uid 0 0 0 0
    | .cancelling => finish s uid 0x12 0 0 0
    | .done => finish s uid 0x12 0 0 0
    | .cancelled => finish s uid 0x12 0 0 0
    | .failed => finish s uid 0x12 0 0 0

/-- A target's hold withdrawn, unless a checkpoint or a record backlog still asks for it. -/
def releaseHold (s : State) (h : Handle) : State :=
  match runOf s h with
  | none => s
  | some (_, r) => if r.ckptHold || r.backlogStop then s else goOn s h

/-- RESUME of a target in each state. -/
def resumeTarget (s : State) (uid : Nat) (o : LongOp) : State :=
  if !o.body.suspendable then finish s uid 0x12 0 0 0
  else
    match o.state with
    | .running =>
      if o.suspends.isEmpty then finish s uid 0x12 0 0 0
      else finish (releaseHold (dropSuspends s o.handle 1) o.handle) uid 0 0 0 0
    | .suspended =>
      let s1 := updLong s o.handle (fun o => { o with state := if o.began then .running else .queued })
      let s2 := goOn s1 o.handle
      let s3 := match o.body with
        | .run r => resumeThreads (applyWrites s2 r.folio) r.folio
        | _ => s2
      endIfLast (finish s3 uid 0 0 0 0) o.handle
    | .queued => finish s uid 0x12 0 0 0
    | .cancelling => finish s uid 0x12 0 0 0
    | .done => finish s uid 0x12 0 0 0
    | .cancelled => finish s uid 0x12 0 0 0
    | .failed => finish s uid 0x12 0 0 0

/-- The matched tensors of B undefined (R405). -/
def undefineMatched (s : State) (r : ReshardOp) : State :=
  match folioOf s r.folioA, folioOf s r.folioB with
  | some a, some b =>
    let tags := a.carried.filterMap (fun i => a.tables.tensors[i]?.map (fun t => t.tag))
    (List.range b.tables.tensors.length).foldl (fun s i =>
      match b.tables.tensors[i]? with
      | none => s
      | some t => if tags.contains t.tag then undefineRange s (b.tensorAt.getD i 0) (b.tensorAt.getD i 0 + t.size) else s) s
  | _, _ => s

/-- A copy cut short: the bytes of its range are undefined, and no token is signalled (R405). -/
def abortCopy (s : State) (k : CopyOp) : State :=
  let s1 := { s with copies := s.copies.filter (fun x => x.id != k.id) }
  match folioOf s k.folio with
  | none => s1
  | some f =>
    if k.toDevice then
      undefineRange s1 (f.tensorAt.getD k.tensor 0 + k.off) (f.tensorAt.getD k.tensor 0 + k.off + k.len)
    else undefineHost s1 s.parts[k.part].port k.hostAddr (k.hostAddr + k.len)

/-- The hold that a checkpoint put on the runs of its folio ends (R369). -/
def releaseCkptHold (s : State) (folio : Handle) : State :=
  (s.longs.filter (fun o =>
      match o.body with
      | .run r => r.folio == folio && r.ckptHold
      | _ => false)).foldl (fun s o =>
    let s1 := updRun s o.handle (fun r => { r with ckptHold := false })
    if o.state == .cancelling || !o.suspends.isEmpty then reachSafePoint s1 o.handle else releaseHold s1 o.handle) s

/-- A CANCEL takes effect on a target that has begun (R405): at the safe point of a RUN, at once for the others, and not at all for
a CHECKPOINT_READ that has begun to write. -/
def cancelBody (s : State) (o : LongOp) : State :=
  match o.body with
  | .run _ => if o.began then reachSafePoint (stopAtNext s o.handle) o.handle else endLong s o.handle .cancelled 1 0 0 0
  | .load _ => endLong s o.handle .cancelled 1 0 0 0
  | .copy k => endLong (abortCopy s k) o.handle .cancelled 1 0 0 0
  | .ckpt k => if k.writing then s else endLong (releaseCkptHold s k.folio) o.handle .cancelled 1 0 0 0
  | .reshard r => endLong (undefineMatched s r) o.handle .cancelled 1 0 0 0

/-- An accepted CANCEL of a target in one of the first three states; `uid` is the command, or none for a reset (R385, R405). -/
def cancelLive (s : State) (uid : Option Nat) (o : LongOp) : State :=
  let s1 := dropSuspends s o.handle 1
  let s2 := updLong s1 o.handle (fun o => { o with cancels := o.cancels ++ uid.toList, state := .cancelling })
  cancelBody s2 o

/-- CANCEL of a target in each state. -/
def cancelTarget (s : State) (uid : Nat) (o : LongOp) : State :=
  match o.state with
  | .queued => cancelLive s (some uid) o
  | .running => cancelLive s (some uid) o
  | .suspended => cancelLive s (some uid) o
  | .cancelling => updLong s o.handle (fun o => { o with cancels := o.cancels ++ [uid] })
  | .done => finish s uid 0 0 4 0
  | .cancelled => finish s uid 0 0 5 0
  | .failed => finish s uid 0 0 6 0

/-- A command on a TARGET handle: BAD_HANDLE when it is not one of the partition's (R386, R395). -/
def onTarget (s : State) (c : Cmd) (f : State → Nat → LongOp → State) : State :=
  match s.longs.find? (fun o => o.handle == descHandle c.desc 8 && o.part == c.part) with
  | none => finish (begun s c.uid) c.uid 0x11 0 0 0
  | some o => f (begun s c.uid) c.uid o

/-- SUSPEND (R405, R406). -/
def execSuspend (p : Part) (q : Fin 16) (s : State) : Host.Outcome State Fault Refusal :=
  .next (match startable s p q 0x30 with
    | none => s
    | some c => onTarget s c suspendTarget)

/-- RESUME (R405, R406). -/
def execResume (p : Part) (q : Fin 16) (s : State) : Host.Outcome State Fault Refusal :=
  .next (match startable s p q 0x31 with
    | none => s
    | some c => onTarget s c resumeTarget)

/-- CANCEL (R405, R406). -/
def execCancel (p : Part) (q : Fin 16) (s : State) : Host.Outcome State Fault Refusal :=
  .next (match startable s p q 0x32 with
    | none => s
    | some c => onTarget s c cancelTarget)

/-! ### QUERY (R412) and BLOTTER_READ (R489) -/

/-- The latest stroke a RUN has opened, as STROKE_INDEX, or all ones. -/
def latestStroke (s : State) (r : Run) : Nat :=
  let n := (r.quads.map (fun q => s.seqs[q].opened)).foldl max 0
  let len := match folioOf s r.folio with | some f => max f.tables.strokeCount 1 | none => 1
  if n = 0 then 0xFFFFFFFF else (n - 1) % len

/-- DONE_UNITS: bytes moved by a copy in progress are a free value within its length (log entry 3). -/
def doneUnits (s : State) (o : LongOp) : Nat :=
  match o.body with
  | .copy k => if o.state.isOver then o.doneUnits else Config.freeNat s.fresh % (k.len + 1)
  | .run r => r.stepsDone
  | _ => o.doneUnits

/-- The job step number that QUERY reports. -/
def queryStep (s : State) (o : LongOp) : Nat :=
  match o.body with
  | .run r => match folioOf s r.folio with | some f => f.jobStep | none => 0
  | _ => 0

/-- The QUERY result of an operation (R412). -/
def queryBytes (s : State) (o : LongOp) : Bytes :=
  le 4 o.handle.toNat ++ le 1 o.opcode.toNat ++ le 1 o.state.code ++
    le 1 ((if o.suspends.isEmpty then 0 else 1) + (if o.cancels.isEmpty then 0 else 2)) ++ le 1 o.lastStatus.toNat ++
    le 8 (queryStep s o) ++ le 8 (doneUnits s o) ++ le 8 o.totalUnits ++
    le 4 (match o.body with | .run r => latestStroke s r | _ => 0xFFFFFFFF) ++ le 4 (partStamp s o.part).toNat ++ zeros 24

/-- The scale exponents of a folio (R412). -/
def scalesBytes (f : Folio) : Bytes :=
  let l := (List.range f.tables.tensors.length).filter (fun i =>
    match f.tables.tensors[i]? with
    | some t => t.scaleMode == 1
    | none => false)
  le 4 l.length ++ zeros 4 ++
    (l.map (fun i => le 4 i ++ le 2 (ofSigned 16 (((f.scaleExp.find? (fun e => e.1 == i)).map (fun e => e.2)).getD 0)) ++
      zeros 2)).flatten

/-- QUERY (R412). -/
def execQuery (p : Part) (q : Fin 16) (s : State) : Host.Outcome State Fault Refusal :=
  .next (match startable s p q 0x60 with
    | none => s
    | some c =>
      let s1 := begun s c.uid
      if u8 c.desc 12 = 1 then
        match folioRef s p (descHandle c.desc 8) with
        | .bad st => finish s1 c.uid st 0 0 0
        | .ok f => giveResult s1 c (scalesBytes f)
      else
        match s.longs.find? (fun o => o.handle == descHandle c.desc 8 && o.part == p) with
        | none => finish s1 c.uid 0x11 0 0 0
        | some o => giveResult { s1 with fresh := s1.fresh + 1 } c (queryBytes s o))

/-- BLOTTER_READ (R489). -/
def execBlotterRead (p : Part) (q : Fin 16) (s : State) : Host.Outcome State Fault Refusal :=
  .next (match startable s p q 0x62 with
    | none => s
    | some c => giveResult (begun s c.uid) c (blotterRead s.blotter (u32 c.desc 8) (u32 c.desc 12)))

end Sys2Proof.Machine
end

