-- ==== Sys2Proof/Machine/Sfu.lean ====
section
/-! DEFINITION. The functions of the special-function unit (R104): each is the exact mathematical function of an FP32 value,
rounded to nearest even. Square root, its reciprocal and the reciprocal are exact before rounding; the others are formed in
fixed point with more than 200 guard bits (log entry 12). -/

namespace Sys2Proof.Machine

/-- Fraction bits of the fixed-point values here. -/
def fxBits : Nat := 400

def fxOne : Int := ((2 ^ fxBits : Nat) : Int)

/-- A rational in fixed point, rounded down. -/
def fxOf (q : Rat) : Int := (q * (fxOne : Rat)).floor

def fxMul (a b : Int) : Int := a * b / fxOne

def fxDiv (a b : Int) : Int := if b = 0 then 0 else a * fxOne / b

/-- The rational of a fixed-point value. -/
def fxRat (a : Int) : Rat := (a : Rat) / (fxOne : Rat)

/-- The sum 1 + r + r^2/2! + ... for a small fixed-point r. -/
def fxExpSeries (r : Int) : Int :=
  ((List.range 110).foldl (fun (acc : Int × Int) n =>
    let t := fxMul acc.1 r / ((n + 1 : Nat) : Int)
    (t, acc.2 + t)) (fxOne, fxOne)).2

/-- z + z^3/3 + z^5/5 + ... in fixed point: the inverse hyperbolic tangent of a small z. -/
def fxAtanh (z : Int) : Int :=
  let z2 := fxMul z z
  ((List.range 260).foldl (fun (acc : Int × Int) n =>
    let t := fxMul acc.1 z2
    (t, acc.2 + t / ((2 * n + 3 : Nat) : Int))) (z, z)).2

/-- z - z^3/3 + z^5/5 - ... in fixed point: the inverse tangent of a small z. -/
def fxAtan (z : Int) : Int :=
  let z2 := fxMul z z
  ((List.range 260).foldl (fun (acc : Int × Int) n =>
    let t := - fxMul acc.1 z2
    (t, acc.2 + t / ((2 * n + 3 : Nat) : Int))) (z, z)).2

/-- ln 2 = 2 atanh(1/3). -/
def fxLn2 : Int := 2 * fxAtanh (fxOne / 3)

/-- pi = 16 atan(1/5) - 4 atan(1/239). -/
def fxPi : Int := 16 * fxAtan (fxOne / 5) - 4 * fxAtan (fxOne / 239)

/-- e^q for a rational q of moderate size, as a rational of more than 200 correct bits. -/
def expRat (q : Rat) : Rat :=
  let x := fxOf q
  let k := (2 * x + fxLn2) / (2 * fxLn2)
  fxRat (fxExpSeries (x - k * fxLn2)) * pow2 k

/-- ln q for a positive rational q. -/
def lnRat (q : Rat) : Rat :=
  let k0 := floorLog2 q
  let m0 := q / pow2 k0
  let k := if (3 / 2 : Rat) ≤ m0 then k0 + 1 else k0
  let m := q / pow2 k
  fxRat (2 * fxAtanh (fxOf ((m - 1) / (m + 1))) + k * fxLn2)

/-- The integer square root of a rational scaled by 4^p, and whether it is exact. -/
def sqrtRat (q : Rat) : Rat :=
  let p := 200
  let n := (q * ((4 ^ p : Nat) : Rat)).floor.toNat
  let s := Nat.sqrt n
  if ((s * s : Nat) : Rat) = q * ((4 ^ p : Nat) : Rat) then (s : Rat) / ((2 ^ p : Nat) : Rat)
  else ((2 * s + 1 : Nat) : Rat) / ((2 ^ (p + 1) : Nat) : Rat)

/-- erf q for a rational q below 4 in magnitude: 2/sqrt(pi) times the alternating series. -/
def erfRat (q : Rat) : Rat :=
  let x := fxOf q
  let x2 := fxMul x x
  let s := ((List.range 200).foldl (fun (acc : Int × Int) n =>
    let t := - fxMul acc.1 x2 / ((n + 1 : Nat) : Int)
    (t, acc.2 + t / ((2 * n + 3 : Nat) : Int))) (x, x)).2
  2 * fxRat s / sqrtRat (fxRat fxPi)

/-- exp of R104. -/
def sExp (v : XVal) : XVal :=
  match v with
  | .nan => .nan
  | .inf n => if n then .zero false else .inf false
  | .zero _ => .num 1
  | .num q => if 89 < q then .inf false else if q < -104 then .zero false else rn (.num (expRat q))

/-- ln of R104: negative inputs give NaN, and ln(0) is minus infinity. -/
def sLn (v : XVal) : XVal :=
  match v with
  | .nan => .nan
  | .inf n => if n then .nan else .inf false
  | .zero _ => .inf true
  | .num q => if q < 0 then .nan else if q = 1 then .zero false else rn (.num (lnRat q))

/-- tanh of R104. Below 2^-13 the argument itself is the nearest value, and from 10 on it is 1. -/
def sTanh (v : XVal) : XVal :=
  match v with
  | .nan => .nan
  | .inf n => .num (if n then -1 else 1)
  | .zero n => .zero n
  | .num q =>
    if q.abs < pow2 (-13) then .num q
    else if 10 ≤ q then .num 1
    else if q ≤ -10 then .num (-1)
    else
      let e := expRat (2 * q)
      rn (.num ((e - 1) / (e + 1)))

/-- erf of R104. From 4 on the nearest value is 1. -/
def sErf (v : XVal) : XVal :=
  match v with
  | .nan => .nan
  | .inf n => .num (if n then -1 else 1)
  | .zero n => .zero n
  | .num q =>
    if 4 ≤ q then .num 1 else if q ≤ -4 then .num (-1) else rn (.num (erfRat q))

/-- sigmoid of R104: 1 / (1 + e^(-z)). -/
def sSigmoid (v : XVal) : XVal :=
  match v with
  | .nan => .nan
  | .inf n => if n then .zero false else .num 1
  | .zero _ => .num (1 / 2)
  | .num q =>
    if 18 ≤ q then .num 1 else if q < -104 then .zero false else rn (.num (1 / (1 + expRat (-q))))

/-- Reciprocal of R104. -/
def sRecip (v : XVal) : XVal := rn (XVal.div (.num 1) v)

/-- Square root of R104: a negative input gives NaN. -/
def sSqrt (v : XVal) : XVal :=
  match v with
  | .num q => if q < 0 then .nan else rn (.num (sqrtRat q))
  | .inf true => .nan
  | v => v

/-- Reciprocal square root of R104. -/
def sRsqrt (v : XVal) : XVal :=
  match v with
  | .nan => .nan
  | .inf n => if n then .nan else .zero false
  | .zero n => .inf n
  | .num q => if q < 0 then .nan else rn (.num (sqrtRat (1 / q)))

end Sys2Proof.Machine
end

