-- ==== Sys2Proof/Machine/Tensors.lean ====
section
/-! DEFINITION. Elements of a folio's tensors: reading represented values (R72, R73, R79, R80, R87), writing them through the output
stage (R81, R84, R86), and the counters of R90. -/

namespace Sys2Proof.Machine

open Sys2Proof

/-! ### Stored elements -/

/-- A little-endian number of n bytes in memory. -/
def Memory.nat (m : Memory) (a : Nat) : Nat → Nat
  | 0 => 0
  | n + 1 => (m.read a).toNat + 256 * m.nat (a + 1) n

/-- The pattern of the element with a flat index (R72, R73). -/
def rawElem (m : Memory) (base : Nat) (f : Fmt) (n : Nat) : Nat :=
  if f.bits = 4 then bits (m.read (base + n / 2)).toNat (if n % 2 = 0 then 3 else 7) (if n % 2 = 0 then 0 else 4)
  else m.nat (base + n * (f.bits / 8)) (f.bits / 8)

/-- An element's pattern written; its neighbour in a packed byte stays (R73). -/
def writeElem (m : Memory) (base : Nat) (f : Fmt) (n w : Nat) : Memory :=
  if f.bits = 4 then
    let old := (m.read (base + n / 2)).toNat
    m.write (base + n / 2) (BitVec.ofNat 8 (if n % 2 = 0 then old / 16 * 16 + w % 16 else old % 16 + (w % 16) * 16))
  else m.writeBytes (base + n * (f.bits / 8)) (le (f.bits / 8) w)

/-- A tensor of a folio: its descriptor and its first byte. -/
structure TRef where
  idx : Nat
  entry : TensorEntry
  base : Nat
deriving DecidableEq, Repr

/-- The tensor with an index. -/
def Folio.tensor (f : Folio) (i : Nat) : Option TRef :=
  (f.tables.tensors[i]?).map (fun e => { idx := i, entry := e, base := f.tensorAt.getD i 0 })

/-- The scale exponent e held with a tensor; 0 when none has been written (R94). -/
def Folio.scaleOf (f : Folio) (i : Nat) : Int := ((f.scaleExp.find? (fun e => e.1 == i)).map (fun e => e.2)).getD 0

/-- The descale of a tensor under a scale exponent e (R87). -/
def descaleWith (t : TensorEntry) (e : Int) : XVal :=
  match t.scaleMode with
  | 1 => .num (pow2 (-e))
  | 3 => fp32 (BitVec.ofNat 32 t.scale)
  | _ => .num 1

/-- The descale of a tensor (R87). -/
def Folio.descale (f : Folio) (t : TRef) : XVal := descaleWith t.entry (f.scaleOf t.idx)

/-- The scale byte of a block of an MX tensor (R79). -/
def scaleByte (m : Memory) (t : TRef) (block : Nat) : Nat := (m.read (t.base + t.entry.scaleOff + block)).toNat

/-- The decoded value of an element, the block scale of an MX element included (R80, R113). -/
def decoded (m : Memory) (t : TRef) (n : Nat) : XVal :=
  let f := t.entry.format
  let v := decodeElem f (rawElem m t.base f n)
  if f.isMx then
    match e8m0Exp (scaleByte m t (n / 32)) with
    | none => .nan
    | some x => XVal.mul v (.num (pow2 x))
  else v

/-- The represented value of an element (R80, R87). -/
def represented (m : Memory) (f : Folio) (t : TRef) (n : Nat) : XVal := XVal.mul (decoded m t n) (f.descale t)

/-- The represented value of an element as FP32 under an operation's ROUNDING (R85). -/
def valueFp32 (m : Memory) (f : Folio) (t : TRef) (mode : RMode) (n : Nat) : XVal :=
  toFp32 t.entry.format (t.entry.scaleMode != 0) mode (represented m f t n)

/-- Whether any byte of a tensor lies in a poisoned line (R477). -/
def tensorPoisoned (m : Memory) (t : TRef) : Bool := m.poisoned t.base t.entry.size

/-! ### Coordinates (R72) -/

/-- The coordinates of a flat index in a shape. -/
def coordsOf : List Nat → Nat → List Nat
  | [], _ => []
  | e :: t, n => n % max e 1 :: coordsOf t (n / max e 1)

/-- The flat index of coordinates in a shape. -/
def flatOf : List Nat → List Nat → Nat
  | e :: t, c :: u => c + max e 1 * flatOf t u
  | _, _ => 0

/-- The flat index in a shape whose extents are those of another or 1 (R103). -/
def broadcastIdx (shape outShape : List Nat) (n : Nat) : Nat :=
  flatOf shape ((coordsOf outShape n).zipWith (fun c e => if e = 1 then 0 else c) shape)

/-- The flat indices of the row along an axis that holds an element, in ascending position. -/
def rowAlong (shape : List Nat) (axis n : Nat) : List Nat :=
  let c := coordsOf shape n
  (List.range (shape.getD axis 1)).map (fun i => flatOf shape (c.set axis i))

/-- One flat index of every row along an axis: the elements whose position there is 0. -/
def rowHeads (shape : List Nat) (axis : Nat) : List Nat :=
  (List.range (shapeElems shape)).filter (fun n => (coordsOf shape n).getD axis 0 == 0)

/-! ### Stored bytes on their way -/

/-- The stored bytes of n elements from a flat index: packed elements, then the scale bytes of MX blocks (R151, R152). -/
def wireBytes (m : Memory) (t : TRef) (off n : Nat) : Bytes :=
  let f := t.entry.format
  let elems :=
    if f.bits = 4 then
      (List.range (ceilDiv n 2)).map (fun i => BitVec.ofNat 8 (rawElem m t.base f (off + 2 * i) +
        (if 2 * i + 1 < n then rawElem m t.base f (off + 2 * i + 1) * 16 else 0)))
    else m.readBytes (t.base + off * (f.bits / 8)) (n * (f.bits / 8))
  if f.isMx then elems ++ m.readBytes (t.base + t.entry.scaleOff + off / 32) (n / 32) else elems

/-- How many bytes that is. -/
def wireSize (f : Fmt) (n : Nat) : Nat := elemBytes f n + (if f.isMx then n / 32 else 0)

/-- Bytes of such a run written, from byte `start` of it on. -/
def wireStore (m : Memory) (t : TRef) (off n start : Nat) (b : Bytes) : Memory :=
  let f := t.entry.format
  let eb := elemBytes f n
  let e := b.take (eb - start)
  let m1 :=
    if f.bits = 4 then
      (e.zipIdx).foldl (fun m x =>
        let k := 2 * (start + x.2)
        let m2 := writeElem m t.base f (off + k) (x.1.toNat % 16)
        if k + 1 < n then writeElem m2 t.base f (off + k + 1) (x.1.toNat / 16) else m2) m
    else m.store (t.base + off * (f.bits / 8) + start) e
  if f.isMx then m1.store (t.base + t.entry.scaleOff + off / 32 + (max start eb - eb)) (b.drop e.length) else m1

/-- Whether n elements from a flat index touch a poisoned line (R477). -/
def wirePoisoned (m : Memory) (t : TRef) (off n : Nat) : Bool :=
  let f := t.entry.format
  m.poisoned (t.base + off * f.bits / 8) (elemBytes f n) ||
    (f.isMx && m.poisoned (t.base + t.entry.scaleOff + off / 32) (n / 32))

/-- The address of the first poisoned line that a range touches; the range's own start when there is none. -/
def poisonAt (m : Memory) (a n : Nat) : Nat :=
  match (m.poison.filter (fun l => decide (l * 64 < a + n) && decide (a < l * 64 + 64))).map (fun l => l * 64) with
  | [] => a
  | x :: t => t.foldl min x

/-- Row i of a tensor as its stored bytes (R152). -/
def rowBytes (m : Memory) (t : TRef) (i : Nat) : Bytes := wireBytes m t (i * t.entry.extent 0) (t.entry.extent 0)

/-! ### Counters (R90) -/

/-- A 32-bit saturating counter of a step raised. -/
def addCounter (v : Vector Nat 16) (j : Fin 16) (n : Nat) : Vector Nat 16 := v.set j (satAdd 32 v[j] n)

/-- The events of one computation added to the counters of R411. -/
def addEvents (v : Vector Nat 16) (e : NumEvents) : Vector Nat 16 :=
  addCounter (addCounter (addCounter (addCounter (addCounter (addCounter (addCounter v 0 e.nanOut) 1 e.nanToZero) 2 e.saturated) 3
    e.mxNanBlock) 4 e.scaleFallback) 5 e.topkNan) 7 e.indexRange

/-- The events counted for the running step of a RUN or STEP. -/
def countEvents (s : State) (h : Handle) (e : NumEvents) : State :=
  updRun s h (fun r => { r with counters := addEvents r.counters e })

/-! ### The output stage -/

/-- The terms of the output stage (R86). -/
structure OutStage where
  din : XVal
  scale : XVal
  bias : Option (Nat → XVal)
  lo : XVal
  hi : XVal
  mode : RMode

/-- y of R86, clipped; NaN passes through. -/
def OutStage.clipped (o : OutStage) (n : Nat) (x : XVal) : XVal :=
  let p := XVal.mul (XVal.mul x o.din) o.scale
  let y := match o.bias with
    | none => p
    | some b => XVal.add o.mode.plain p (b n)
  if XVal.lt y o.lo then o.lo else if XVal.lt o.hi y then o.hi else y

/-- The output stage that only converts. -/
def plainStage (mode : RMode) : OutStage :=
  { din := .num 1, scale := .num 1, bias := none, lo := .inf true, hi := .inf false, mode := mode }

/-- What one write of elements leaves: memory and the events counted. -/
structure Wrote where
  mem : Memory
  events : NumEvents

/-- One block of 32 elements of an MX tensor written from FP32 values (R81); `conv` converts a scaled value. -/
def writeBlock (m : Memory) (t : TRef) (block : Nat) (w : List XVal) (conv : Nat → XVal → Nat × NumEvents) : Wrote :=
  let f := t.entry.format
  let sAt := t.base + t.entry.scaleOff + block
  match mxScale f w with
  | none =>
    let m1 := (List.range 32).foldl (fun m i => writeElem m t.base f (block * 32 + i) 0) m
    { mem := m1.write sAt 0xFF#8, events := { noEvents with mxNanBlock := 1 } }
  | some x =>
    let r := (w.zipIdx).foldl (fun (acc : Memory × NumEvents) (e : XVal × Nat) =>
      let c := conv (block * 32 + e.2) (XVal.mul e.1 (.num (pow2 (-x))))
      (writeElem acc.1 t.base f (block * 32 + e.2) c.1, acc.2.plus c.2)) (m, noEvents)
    { mem := r.1.write sAt (BitVec.ofNat 8 (x + 127).toNat), events := r.2 }

/-- Consecutive elements from a flat index written: for MX whole blocks, for other formats element by element. `cs` are the values
c / D_out; `conv` converts an element into the format. -/
def writeRun (m : Memory) (t : TRef) (start : Nat) (cs : List XVal) (conv : Nat → XVal → Nat × NumEvents) : Wrote :=
  if t.entry.format.isMx then
    (List.range (cs.length / 32)).foldl (fun (acc : Wrote) b =>
      let r := writeBlock acc.mem t (start / 32 + b) (((cs.drop (32 * b)).take 32).map rn) conv
      { mem := r.mem, events := acc.events.plus r.events }) { mem := m, events := noEvents }
  else
    let r := (cs.zipIdx).foldl (fun (acc : Memory × NumEvents) (e : XVal × Nat) =>
      let c := conv (start + e.2) e.1
      (writeElem acc.1 t.base t.entry.format (start + e.2) c.1, acc.2.plus c.2)) (m, noEvents)
    { mem := r.1, events := r.2 }

/-- The conversion of R84 into a tensor's format. -/
def convTo (t : TRef) (mode : RMode) : Nat → XVal → Nat × NumEvents := fun _ v => convertElem t.entry.format.elem mode v

/-- The poison of lines that a tensor fills whole is cleared by writing the tensor whole (R278, R477). -/
def clearTensorPoison (m : Memory) (t : TRef) : Memory :=
  { m with poison := m.poison.filter (fun l => !(decide (t.base ≤ l * 64) && decide (l * 64 + 64 ≤ t.base + t.entry.size))) }

/-- Delivered values from a flat index passed through the output stage into a tensor with descale D_out (R86). -/
def deliver (m : Memory) (t : TRef) (dout : XVal) (o : OutStage) (start : Nat) (xs : List XVal) : Wrote :=
  let cs := xs.zipIdx.map (fun e => XVal.div (o.clipped (start + e.2) e.1) dout)
  let r := writeRun m t start cs (convTo t o.mode.plain)
  { r with mem := if start = 0 && xs.length = t.entry.elems then clearTensorPoison r.mem t else r.mem }

end Sys2Proof.Machine
end

