-- ==== Sys2Proof/Machine/Contract.lean ====
section
/-! DEFINITION. Contractions: chunks, running sums and spills (R112 to R121), ADD (R123), the Balzin-40 arithmetic (R134, R135), and
the operand layout of MATMUL (R523). -/

namespace Sys2Proof.Machine

open Sys2Proof

/-- The W of an operand format under PRECISION 0 (R112). -/
def chunkW (f : Fmt) : Nat :=
  match f.bits with
  | 4 => 128
  | 8 => 64
  | _ => 32

/-- The chunk length of a contraction (R112). -/
def contractW (a b : Fmt) (precision : Nat) (b40 : Bool) : Nat :=
  if b40 then 16 else if precision ≠ 0 then 32 else min (chunkW a) (chunkW b)

/-- The products that one value of k contributes (R100, R101, R113, R117). -/
def termProducts (precision : Nat) (fa fb : Fmt) (a b : XVal) : List XVal :=
  if precision = 0 then [XVal.mul a b]
  else if !a.isFinite || !b.isFinite then [XVal.mul a b]
  else
    let pa := if fa = .fp32 then bf16Pieces a else [a, .zero false, .zero false]
    let pb := if fb = .fp32 then bf16Pieces b else [b, .zero false, .zero false]
    let at_ := fun (l : List XVal) (i : Nat) => l.getD i (.zero false)
    let pr := fun (i j : Nat) => XVal.mul (at_ pa i) (at_ pb j)
    if precision = 1 then [pr 0 0, pr 0 1, pr 1 0] else [pr 0 0, pr 0 1, pr 1 0, pr 0 2, pr 1 1, pr 2 0]

/-- The exponent of a BF16 value as R134 takes it. -/
def b40Exp (v : XVal) : Int :=
  match v with
  | .num q => max (floorLog2 q) (-126)
  | _ => -126

/-- The significand of a BF16 value as R134 takes it: an integer below 2^8. -/
def b40Sig (v : XVal) : Nat :=
  match v with
  | .num q => (q.abs / pow2 (b40Exp v - 7)).floor.toNat
  | _ => 0

/-- The chunk of R134: pairs truncated to the window below the largest product exponent. -/
def b40Chunk (l : List (XVal × XVal)) : XVal :=
  if l.any (fun p => !p.1.isFinite || !p.2.isFinite) then
    exactSum ((l.filter (fun p => !p.1.isFinite || !p.2.isFinite)).map (fun p => XVal.mul p.1 p.2))
  else
    let nz := l.filter (fun p => b40Sig p.1 * b40Sig p.2 != 0)
    match nz with
    | [] => .zero false
    | h :: _ =>
      let e := fun (p : XVal × XVal) => b40Exp p.1 + b40Exp p.2
      let emax := nz.foldl (fun m p => max m (e p)) (e h)
      let sum : Int := nz.foldl (fun acc p =>
        let mag : Int := (((b40Sig p.1 * b40Sig p.2 : Nat) : Rat) * pow2 (e p - emax + 11)).floor
        if p.1.sign != p.2.sign then acc - mag else acc + mag) 0
      rn (ofRat false ((sum : Rat) * pow2 (emax - 25)))

/-- The running sum and the spill buffer of a contraction (R114). -/
structure Acc where
  acc : Option XVal
  buf : Option (XVal × XVal)
deriving DecidableEq, Repr

/-- spill of R114: the running sum added into the buffer. -/
def spillInto (buf : Option (XVal × XVal)) (a : XVal) : XVal × XVal :=
  match buf with
  | none => (a, .zero false)
  | some (hi, lo) =>
    if !hi.isFinite || !a.isFinite then (fadd hi a, .zero false)
    else
      let se := twoSum hi a
      if !se.1.isFinite then (se.1, .zero false) else twoSum se.1 (fadd lo se.2)

/-- One chunk entered; `j` is its number, `n` the number of chunks and `N` the segment length (R114). -/
def accStep (n seg : Nat) (x : Acc) (j : Nat) (c : Option XVal) : Acc :=
  let a1 := match c with
    | none => x.acc
    | some v => some (match x.acc with | none => rn v | some a => fadd a v)
  if (j + 1) % seg = 0 || j + 1 = n then
    if n ≤ seg && x.buf.isNone then { x with acc := a1 }
    else
      match a1 with
      | none => { x with acc := none }
      | some a => { acc := none, buf := some (spillInto x.buf a) }
  else { x with acc := a1 }

/-- The chunks of a contraction entered in ascending order. -/
def accumulate (seg : Nat) (start : Acc) (cs : List (Option XVal)) : Acc :=
  (cs.zipIdx).foldl (fun x e => accStep cs.length (max seg 1) x e.2 e.1) start

/-- What a contraction delivers (R115). -/
def Acc.value (x : Acc) : XVal :=
  match x.buf with
  | none => x.acc.getD (.zero false)
  | some (hi, lo) => if hi.isFinite then XVal.add .nearest hi lo else hi

/-- SPILL_INTERVAL, with 0 meaning 64 (R48). -/
def spillSeg (o : OpEntry) : Nat := if o.spill = 0 then 64 else o.spill

/-- How a contraction is formed: chunk length, product rule and segment length. -/
structure Contraction where
  w : Nat
  precision : Nat
  fa : Fmt
  fb : Fmt
  b40 : Bool
  seg : Nat

/-- The chunk sums over k of the pairs present; an absent pair contributes nothing (R113, R117, R120, R134). -/
def Contraction.chunks (c : Contraction) (k : Nat) (pair : Nat → Option (XVal × XVal)) : List (Option XVal) :=
  (List.range (ceilDiv k c.w)).map (fun j =>
    let l := (List.range (min c.w (k - j * c.w))).filterMap (fun i => pair (j * c.w + i))
    if l.isEmpty then none
    else if c.b40 then some (b40Chunk l)
    else some (exactSum (l.flatMap (fun p => termProducts c.precision c.fa c.fb p.1 p.2))))

/-- The value of a contraction (R114, R115, R135); under B40 no spill takes place. -/
def Contraction.run (c : Contraction) (start : Acc) (k : Nat) (pair : Nat → Option (XVal × XVal)) : XVal :=
  let cs := c.chunks k pair
  (accumulate (if c.b40 then cs.length + 1 else c.seg) start cs).value

/-- The start of a contraction under ADD (R123): the prior pair of a double-FP32 element, or RN(p / D_in). -/
def addStart (m : Memory) (f : Folio) (t : TRef) (mode : RMode) (din : XVal) (n : Nat) : Acc :=
  if t.entry.format = .dfp32 then
    let w := rawElem m t.base .dfp32 n
    { acc := none, buf := some (twoSum (decodeFloat .fp32 (w % 2 ^ 32)) (decodeFloat .fp32 (w / 2 ^ 32))) }
  else { acc := some (rn (XVal.div (valueFp32 m f t mode n) din)), buf := none }

/-! ### MATMUL operands (R523) -/

/-- The flat index of element (k, row, batch) of an operand: (K, R, batch…), or (R, K, batch…) when its TRANSPOSE bit is set. A batch
extent of 1 is broadcast. -/
def operandIdx (shape : List Nat) (transposed : Bool) (k row : Nat) (batch : List Nat) : Nat :=
  let b := batch.zipWith (fun c e => if e = 1 then 0 else c) (shape.drop 2)
  flatOf shape ((if transposed then [row, k] else [k, row]) ++ b)

/-- The contraction extent of an operand. -/
def operandK (shape : List Nat) (transposed : Bool) : Nat := shape.getD (if transposed then 1 else 0) 1

/-- A MATMUL or EXPERT_MATMUL resolved: operands, output, transpositions, and which capacity slots are filled. -/
structure MatArgs where
  a : TRef
  b : TRef
  out : TRef
  bias : Option TRef
  ta : Bool
  tb : Bool
  /-- Whether value k of batch e is present, and whether output row m of batch e is computed (R120, R212). -/
  presentK : Nat → Nat → Bool
  presentM : Nat → Nat → Bool

/-- The attribute of an operation as an FP32 value, with a default. -/
def attrF (t : Tables) (o : OpEntry) (key : Nat) (dflt : XVal) : XVal :=
  match t.attr? o key with
  | some v => fp32 (BitVec.ofNat 32 v)
  | none => dflt

/-- The exact product of the operands' descales (R86). -/
def matDin (f : Folio) (x : MatArgs) : XVal := XVal.mul (f.descale x.a) (f.descale x.b)

/-- The output stage of an operation with D_in (R86): SCALE, bias and clip act when `fused` holds. -/
def opStage (f : Folio) (o : OpEntry) (din : XVal) (fused : Bool) (bias : Option (Nat → XVal)) : OutStage :=
  { din := din, scale := if fused then attrF f.tables o 5 (.num 1) else .num 1, bias := if fused then bias else none,
    lo := if fused then attrF f.tables o 6 (.inf true) else .inf true,
    hi := if fused then attrF f.tables o 7 (.inf false) else .inf false, mode := rmodeOf o.rounding }

/-- A bias tensor broadcast over the output (R86, R523): its represented values as FP32. -/
def biasOf (m : Memory) (f : Folio) (o : OpEntry) (out : TRef) (b : Option TRef) : Option (Nat → XVal) :=
  b.map (fun t => fun n => valueFp32 m f t (rmodeOf o.rounding) (broadcastIdx t.entry.shape out.entry.shape n))

/-- The value of output element n of a MATMUL (R113 to R123, R134, R135, R523). -/
def matElem (m : Memory) (f : Folio) (o : OpEntry) (x : MatArgs) (n : Nat) : XVal :=
  let c := coordsOf x.out.entry.shape n
  let batch := c.drop 2
  let fa := x.a.entry.format
  let fb := x.b.entry.format
  let con : Contraction :=
    { w := contractW fa fb o.precision (bit o.flags 1), precision := o.precision, fa := fa.elem, fb := fb.elem, b40 := bit o.flags 1,
      seg := spillSeg o }
  let start := if bit o.flags 0 then addStart m f x.out (rmodeOf o.rounding) (matDin f x) n else { acc := none, buf := none }
  con.run start (operandK x.a.entry.shape x.ta) (fun k =>
    if x.presentK k (batch.getD 0 0) then
      some (decoded m x.a (operandIdx x.a.entry.shape x.ta k (c.getD 1 0) batch),
        decoded m x.b (operandIdx x.b.entry.shape x.tb k (c.getD 0 0) batch))
    else none)

/-- A whole MATMUL: rows of the output in ascending order; a row that is not computed is not written (R212). -/
def matRun (m : Memory) (f : Folio) (o : OpEntry) (x : MatArgs) (dout : XVal) : Wrote :=
  let cols := x.out.entry.extent 0
  let stage := opStage f o (matDin f x) (bit o.flags 2) (biasOf m f o x.out x.bias)
  (List.range (x.out.entry.elems / max cols 1)).foldl (fun (acc : Wrote) r =>
    let c := coordsOf x.out.entry.shape (r * cols)
    if x.presentM (c.getD 1 0) (c.getD 2 0) then
      let xs := (List.range cols).map (fun i => matElem m f o x (r * cols + i))
      let w := deliver acc.mem x.out dout stage (r * cols) xs
      { mem := w.mem, events := acc.events.plus w.events }
    else acc) { mem := m, events := noEvents }

/-- REDUCE with FUNCTION 1 over a row: a contraction whose products are the elements (R126). -/
def reduceSum (seg : Nat) (start : Acc) (xs : List XVal) : XVal :=
  let con : Contraction := { w := 32, precision := 0, fa := .fp32, fb := .fp32, b40 := false, seg := seg }
  con.run start xs.length (fun i => (xs[i]?).map (fun v => (v, .num 1)))

end Sys2Proof.Machine
end

