-- ==== Sys2Proof/Machine/Vector.lean ====
section
/-! DEFINITION. The arithmetic of the vector and data-movement operations: AMAX, CONVERT, ELTWISE, ACTIVATION, NORM, SOFTMAX, LOSS,
REDUCE, TOPK (R91 to R93, R103 to R110, R126 to R129), COPY, TRANSPOSE, ROW_GATHER and ROW_SCATTER (R124, R151 to R153). -/

namespace Sys2Proof.Machine

open Sys2Proof

/-- What an operation leaves: memory, the events counted, and the scale exponents of SCALE_MODE 1 outputs. -/
structure OpOut where
  mem : Memory
  events : NumEvents
  scales : List (Nat × Int)

/-- An operation that changes nothing. -/
def noOut (m : Memory) : OpOut := { mem := m, events := noEvents, scales := [] }

/-- An input tensor of an operation. -/
def opIn (f : Folio) (o : OpEntry) (k : Nat) : Option TRef := f.tensor (o.inputs.getD k noneIdx)

/-- An output tensor of an operation. -/
def opOutT (f : Folio) (o : OpEntry) (k : Nat) : Option TRef := f.tensor (o.outputs.getD k noneIdx)

/-- The exponent e of an output: from SCALE_SOURCE for SCALE_MODE 1 (R92, R93). -/
def outExponent (m : Memory) (f : Folio) (o : OpEntry) (t : TRef) : Int × NumEvents :=
  if t.entry.scaleMode ≠ 1 then (0, noEvents)
  else
    match (f.tables.attr? o 0xE).bind f.tensor with
    | none => (0, noEvents)
    | some a => scaleExponent t.entry.format (valueFp32 m f a .nearest 0)

/-- All values of an output tensor delivered through the output stage (R86, R94). -/
def outWhole (m : Memory) (f : Folio) (o : OpEntry) (t : TRef) (stage : OutStage) (x : Nat → XVal) : OpOut :=
  let e := outExponent m f o t
  let w := deliver m t (descaleWith t.entry e.1) stage 0 ((List.range t.entry.elems).map x)
  { mem := w.mem, events := e.2.plus w.events, scales := if t.entry.scaleMode = 1 then [(t.idx, e.1)] else [] }

/-- A second output after a first. -/
def OpOut.andThen (a : OpOut) (f : Memory → OpOut) : OpOut :=
  let b := f a.mem
  { mem := b.mem, events := a.events.plus b.events, scales := a.scales ++ b.scales }

/-- The FP32 value of an input at an element of an output, broadcast (R103). -/
def inputAt (m : Memory) (f : Folio) (o : OpEntry) (t : TRef) (shape : List Nat) (n : Nat) : XVal :=
  valueFp32 m f t (rmodeOf o.rounding) (broadcastIdx t.entry.shape shape n)

/-- The FP32 value of an optional input, or a default (R108). -/
def inputOr (m : Memory) (f : Folio) (o : OpEntry) (k : Nat) (dflt : XVal) (shape : List Nat) (n : Nat) : XVal :=
  match opIn f o k with
  | none => dflt
  | some t => inputAt m f o t shape n

/-! ### Elementwise -/

/-- CONVERT (R50, R86). -/
def convertOut (m : Memory) (f : Folio) (o : OpEntry) : OpOut :=
  match opIn f o 0, opOutT f o 0 with
  | some a, some y =>
    outWhole m f o y (opStage f o (.num 1) true (biasOf m f o y (opIn f o 1))) (fun n => valueFp32 m f a (rmodeOf o.rounding) n)
  | _, _ => noOut m

/-- ELTWISE (R105). -/
def eltwiseFn (fn : Nat) (a b c : XVal) : XVal :=
  match fn with
  | 1 => fadd a b
  | 2 => fsub a b
  | 3 => fmul a b
  | 4 => fma a b c
  | 5 => XVal.max a b
  | 6 => XVal.min a b
  | _ => if a.isZero then c else b

/-- ACTIVATION (R106). -/
def activationFn (fn : Nat) (x : XVal) : XVal :=
  let half := XVal.num (1 / 2)
  let one := XVal.num 1
  match fn with
  | 1 =>
    match x with
    | .nan => .nan
    | v => if XVal.lt (.zero false) v then v else .zero false
  | 2 =>
    let t := sErf (fmul x (fp32 0x3F3504F3#32))
    fmul (fmul half x) (fadd one t)
  | 3 =>
    let p := fmul (fmul x x) x
    let u := fma (fp32 0x3D372713#32) p x
    let t := sTanh (fmul (fp32 0x3F4C422A#32) u)
    fmul (fmul half x) (fadd one t)
  | 4 => fmul x (sSigmoid x)
  | 5 => sSigmoid x
  | 6 => sExp x
  | _ => sTanh x

/-- The FUNCTION attribute of an operation (R49). -/
def fnOf (f : Folio) (o : OpEntry) : Nat := f.tables.attr o 1 0

/-- The AXIS attribute (R49). -/
def axisOf (f : Folio) (o : OpEntry) : Nat := f.tables.attr o 2 0

/-- ELTWISE over its output (R103, R105). -/
def eltwiseOut (m : Memory) (f : Folio) (o : OpEntry) : OpOut :=
  match opOutT f o 0 with
  | none => noOut m
  | some y =>
    let v := fun (k n : Nat) => inputOr m f o k (.zero false) y.entry.shape n
    outWhole m f o y (opStage f o (.num 1) true none) (fun n => eltwiseFn (fnOf f o) (v 0 n) (v 1 n) (v 2 n))

/-- ACTIVATION over its output (R103, R106). -/
def activationOut (m : Memory) (f : Folio) (o : OpEntry) : OpOut :=
  match opOutT f o 0 with
  | none => noOut m
  | some y =>
    outWhole m f o y (opStage f o (.num 1) true none)
      (fun n => activationFn (fnOf f o) (inputOr m f o 0 (.zero false) y.entry.shape n))

/-! ### Rows -/

/-- The maximum of a row by R105; a row has at least one element. -/
def rowMax (l : List XVal) : XVal :=
  match l with
  | [] => .nan
  | x :: t => t.foldl XVal.max x

/-- The minimum of a row by R105. -/
def rowMin (l : List XVal) : XVal :=
  match l with
  | [] => .nan
  | x :: t => t.foldl XVal.min x

/-- A wide sum divided exactly and rounded once (R107). -/
def wideMean (l : List XVal) (n : Nat) : XVal := rn (XVal.div (exactSum l) (.num (n : Rat)))

/-- NORM of one row: gains, biases and EPSILON given (R108). -/
def normRow (fn : Nat) (eps : XVal) (xs gs bs : List XVal) : List XVal :=
  let n := xs.length
  let out := fun (y : XVal) (i : Nat) => rn (XVal.add .nearest (XVal.mul y (gs.getD i (.num 1))) (bs.getD i (.zero false)))
  if fn = 1 then
    let ms := wideMean (xs.map (fun x => XVal.mul x x)) n
    let r := sRsqrt (fadd ms eps)
    xs.zipIdx.map (fun e => out (fmul e.1 r) e.2)
  else
    let mu := wideMean xs n
    let v := wideMean (xs.map (fun x => let d := XVal.sub .nearest x mu; XVal.mul d d)) n
    let r := sRsqrt (fadd v eps)
    xs.zipIdx.map (fun e => out (fmul (fsub e.1 mu) r) e.2)

/-- e_j of R109. -/
def expRow (xs : List XVal) : List XVal := let m := rowMax xs; xs.map (fun x => sExp (fsub x m))

/-- SOFTMAX of one row (R109). -/
def softmaxRow (xs : List XVal) : List XVal :=
  match rowMax xs with
  | .nan => xs.map (fun _ => .nan)
  | .inf true => xs.map (fun _ => .zero false)
  | .inf false => xs.map (fun _ => .nan)
  | _ =>
    let es := expRow xs
    let t := exactSum es
    es.map (fun e => rn (XVal.div e t))

/-- lse of R110. -/
def lseRow (xs : List XVal) : XVal :=
  match rowMax xs with
  | .nan => .nan
  | .inf n => .inf n
  | m => fadd m (sLn (rn (exactSum (expRow xs))))

/-- Cross-entropy of one row: loss and gradient (R110). -/
def crossEntropyRow (xs : List XVal) (label : Int) : XVal × List XVal :=
  if label < 0 ∨ (xs.length : Int) ≤ label then (.nan, xs.map (fun _ => .nan))
  else
    let l := label.toNat
    (fsub (lseRow xs) (xs.getD l .nan),
      (softmaxRow xs).zipIdx.map (fun e => fsub e.1 (if e.2 = l then .num 1 else .zero false)))

/-- KL divergence of one row against teacher logits: loss and gradient (R110). -/
def klRow (xs ts : List XVal) : XVal × List XVal :=
  let lx := lseRow xs
  let lt := lseRow ts
  let a := ts.map (fun t => fsub t lt)
  let b := xs.map (fun x => fsub x lx)
  let q := a.map sExp
  let term := fun (i : Nat) =>
    let qi := q.getD i .nan
    if qi = .zero false then XVal.zero false else XVal.mul qi (fsub (a.getD i .nan) (b.getD i .nan))
  (rn (exactSum ((List.range xs.length).map term)),
    (List.range xs.length).map (fun i => fsub (sExp (b.getD i .nan)) (q.getD i .nan)))

/-- The value of an element of a row computation: row of the element, and the place in it. -/
def rowValue (shape : List Nat) (axis : Nat) (f : List Nat → List XVal) (n : Nat) : XVal :=
  (f (rowAlong shape axis n)).getD ((coordsOf shape n).getD axis 0) .nan

/-- NORM over its output (R103, R108). -/
def normOut (m : Memory) (f : Folio) (o : OpEntry) : OpOut :=
  match opOutT f o 0 with
  | none => noOut m
  | some y =>
    let sh := y.entry.shape
    outWhole m f o y (opStage f o (.num 1) true none) (rowValue sh (axisOf f o) (fun idxs =>
      normRow (fnOf f o) (attrF f.tables o 3 (.zero false)) (idxs.map (inputOr m f o 0 (.zero false) sh))
        (idxs.map (inputOr m f o 1 (.num 1) sh)) (idxs.map (inputOr m f o 2 (.zero false) sh))))

/-- SOFTMAX over its output (R103, R109). -/
def softmaxOut (m : Memory) (f : Folio) (o : OpEntry) : OpOut :=
  match opOutT f o 0 with
  | none => noOut m
  | some y =>
    outWhole m f o y (opStage f o (.num 1) true none) (rowValue y.entry.shape (axisOf f o) (fun idxs =>
      softmaxRow (idxs.map (inputOr m f o 0 (.zero false) y.entry.shape))))

/-- An integer label: the element's value as an integer. -/
def labelAt (m : Memory) (f : Folio) (t : TRef) (shape : List Nat) (n : Nat) : Int :=
  (represented m f t (broadcastIdx t.entry.shape shape n)).toRat.floor

/-- The loss and gradient of the row that holds an element of input0 (R110). -/
def lossRow (m : Memory) (f : Folio) (o : OpEntry) (x : TRef) (rowShape : List Nat) (idxs : List Nat) : XVal × List XVal :=
  let sh := x.entry.shape
  let xs := idxs.map (inputAt m f o x sh)
  if fnOf f o = 1 then
    match opIn f o 1, idxs with
    | some l, i :: _ => crossEntropyRow xs (labelAt m f l rowShape (flatOf rowShape ((coordsOf sh i).set (axisOf f o) 0)))
    | _, _ => (.nan, [])
  else klRow xs (idxs.map (inputOr m f o 1 (.zero false) sh))

/-- LOSS (R110). -/
def lossOut (m : Memory) (f : Folio) (o : OpEntry) : OpOut :=
  match opIn f o 0, opOutT f o 0 with
  | some x, some y =>
    let sh := x.entry.shape
    let ax := axisOf f o
    let stage := opStage f o (.num 1) true none
    let loss := outWhole m f o y stage (fun n =>
      (lossRow m f o x y.entry.shape (rowAlong sh ax (flatOf sh (coordsOf y.entry.shape n)))).1)
    match opOutT f o 1 with
    | none => loss
    | some g => loss.andThen (fun m2 => outWhole m2 f o g stage (rowValue sh ax (fun idxs => (lossRow m f o x y.entry.shape idxs).2)))
  | _, _ => noOut m

/-- REDUCE (R126). -/
def reduceOut (m : Memory) (f : Folio) (o : OpEntry) : OpOut :=
  match opIn f o 0, opOutT f o 0 with
  | some x, some y =>
    let sh := x.entry.shape
    let row := fun (n : Nat) => (rowAlong sh (axisOf f o) (flatOf sh (coordsOf y.entry.shape n))).map
      (valueFp32 m f x (rmodeOf o.rounding))
    let start := fun (n : Nat) =>
      if bit o.flags 0 then addStart m f y (rmodeOf o.rounding) (.num 1) n else { acc := none, buf := none }
    outWhole m f o y (opStage f o (.num 1) true none) (fun n =>
      match fnOf f o with
      | 1 => reduceSum (spillSeg o) (start n) (row n)
      | 2 => rowMax (row n)
      | _ => rowMin (row n))
  | _, _ => noOut m

/-- AMAX of a tensor's share (R91). -/
def amaxOf (m : Memory) (f : Folio) (o : OpEntry) (x : TRef) : XVal :=
  rowMax ((List.range x.entry.elems).map (fun n => (valueFp32 m f x (rmodeOf o.rounding) n).abs))

/-- AMAX (R91): `remote` is the largest magnitude over the other positions of a sharded tensor's cut. -/
def amaxOut (m : Memory) (f : Folio) (o : OpEntry) (remote : Option XVal) : OpOut :=
  match opIn f o 0, opOutT f o 0 with
  | some x, some y =>
    let own := amaxOf m f o x
    outWhole m f o y (opStage f o (.num 1) true none) (fun _ =>
      match remote with
      | none => own
      | some r => XVal.max own r)
  | _, _ => noOut m

/-- The places of a row in rank order (R127). -/
def rankRow (xs : List XVal) : List (XVal × Nat) := sortBy (fun a b => ranksAbove a.1 a.2 b.1 b.2) xs.zipIdx

/-- TOPK (R128, R129). -/
def topkOut (m : Memory) (f : Folio) (o : OpEntry) : OpOut :=
  match opIn f o 0, opOutT f o 0, opOutT f o 1 with
  | some x, some y, some z =>
    let sh := x.entry.shape
    let ax := axisOf f o
    let ranked := fun (n : Nat) => rankRow ((rowAlong sh ax (flatOf sh ((coordsOf y.entry.shape n).set ax 0))).map
      (valueFp32 m f x (rmodeOf o.rounding)))
    let place := fun (n : Nat) => (coordsOf y.entry.shape n).getD ax 0
    let nans := ((List.range x.entry.elems).filter (fun n => (valueFp32 m f x (rmodeOf o.rounding) n).isNan)).length
    let first := outWhole m f o y (opStage f o (.num 1) true none) (fun n => ((ranked n).getD (place n) (.nan, 0)).1)
    first.andThen (fun m2 =>
      { mem := (List.range z.entry.elems).foldl (fun mm n =>
          writeElem mm z.base .int32 n (((ranked n).getD (place n) (.nan, 0)).2)) m2,
        events := { noEvents with topkNan := nans }, scales := [] })
  | _, _, _ => noOut m

/-! ### Data movement (R151 to R153) -/

/-- One element's pattern copied from one tensor to another of the same format. -/
def copyElem (src : Memory) (a y : TRef) (m : Memory) (from_ to_ : Nat) : Memory :=
  writeElem m y.base y.entry.format to_ (rawElem src a.base a.entry.format from_)

/-- The scale exponent copied with the data (R151). -/
def copiedScale (f : Folio) (a y : TRef) : List (Nat × Int) := if y.entry.scaleMode = 1 then [(y.idx, f.scaleOf a.idx)] else []

/-- n elements copied by index, with the scale bytes of MX blocks copied by block (R152). -/
def moveElems (m : Memory) (a y : TRef) (n : Nat) (src : Nat → Nat) : Memory :=
  let m1 := (List.range n).foldl (fun mm i => copyElem m a y mm (src i) i) m
  if y.entry.format.isMx then
    (List.range (n / 32)).foldl (fun mm b =>
      mm.write (y.base + y.entry.scaleOff + b) (m.read (a.base + a.entry.scaleOff + src (b * 32) / 32))) m1
  else m1

/-- COPY (R152). -/
def copyOut (m : Memory) (f : Folio) (o : OpEntry) : OpOut :=
  match opIn f o 0, opOutT f o 0 with
  | some a, some y => { mem := clearTensorPoison (moveElems m a y y.entry.elems (fun i => i)) y, events := noEvents,
                        scales := copiedScale f a y }
  | _, _ => noOut m

/-- Two coordinates exchanged. -/
def swapCoord (c : List Nat) (i : Nat) : List Nat := (c.set 0 (c.getD i 0)).set i (c.getD 0 0)

/-- TRANSPOSE (R152). -/
def transposeOut (m : Memory) (f : Folio) (o : OpEntry) : OpOut :=
  match opIn f o 0, opOutT f o 0 with
  | some a, some y =>
    { mem := clearTensorPoison (moveElems m a y y.entry.elems (fun i =>
        flatOf a.entry.shape (swapCoord (coordsOf y.entry.shape i) (axisOf f o)))) y,
      events := noEvents, scales := copiedScale f a y }
  | _, _ => noOut m

/-- The index of row i of an INT32 or UINT32 index tensor. -/
def indexAt (m : Memory) (t : TRef) (i : Nat) : Int := (decodeElem t.entry.format (rawElem m t.base t.entry.format i)).toRat.floor

/-- The rows of a tensor (R152). -/
def rowsOf (t : TRef) : Nat := t.entry.elems / max (t.entry.extent 0) 1

/-- One row copied, scale bytes included. -/
def copyRow (src : Memory) (a y : TRef) (m : Memory) (from_ to_ : Nat) : Memory :=
  let s0 := y.entry.extent 0
  let m1 := (List.range s0).foldl (fun mm i => copyElem src a y mm (from_ * s0 + i) (to_ * s0 + i)) m
  if y.entry.format.isMx then
    (List.range (s0 / 32)).foldl (fun mm b =>
      mm.write (y.base + y.entry.scaleOff + to_ * (s0 / 32) + b) (src.read (a.base + a.entry.scaleOff + from_ * (s0 / 32) + b))) m1
  else m1

/-- One row of +0 elements with scale bytes 0x00 (R153). -/
def zeroRow (y : TRef) (m : Memory) (to_ : Nat) : Memory :=
  let s0 := y.entry.extent 0
  let m1 := (List.range s0).foldl (fun mm i => writeElem mm y.base y.entry.format (to_ * s0 + i) 0) m
  if y.entry.format.isMx then
    (List.range (s0 / 32)).foldl (fun mm b => mm.write (y.base + y.entry.scaleOff + to_ * (s0 / 32) + b) 0#8) m1
  else m1

/-- Whether an index names a row. -/
def indexOk (i : Int) (rows : Nat) : Bool := decide (0 ≤ i) && decide (i < (rows : Int))

/-- ROW_GATHER (R152, R153). -/
def rowGatherOut (m : Memory) (f : Folio) (o : OpEntry) : OpOut :=
  match opIn f o 0, opIn f o 1, opOutT f o 0 with
  | some a, some x, some y =>
    let bad := ((List.range (rowsOf y)).filter (fun i => !indexOk (indexAt m x i) (rowsOf a))).length
    { mem := (List.range (rowsOf y)).foldl (fun mm i =>
        if indexOk (indexAt m x i) (rowsOf a) then copyRow m a y mm (indexAt m x i).toNat i else zeroRow y mm i) m,
      events := { noEvents with indexRange := bad }, scales := copiedScale f a y }
  | _, _, _ => noOut m

/-- One application of ROW_SCATTER with ADD to a row (R124). -/
def scatterAdd (src : Memory) (f : Folio) (o : OpEntry) (a y : TRef) (m : Memory) (from_ to_ : Nat) : Wrote :=
  let s0 := y.entry.extent 0
  let ys := (List.range s0).map (fun i =>
    XVal.div (XVal.add (rmodeOf o.rounding).plain (represented m f y (to_ * s0 + i)) (represented src f a (from_ * s0 + i))) (f.descale y))
  writeRun m y (to_ * s0) ys (convTo y (rmodeOf o.rounding).plain)

/-- ROW_SCATTER (R124, R152, R153). -/
def rowScatterOut (m : Memory) (f : Folio) (o : OpEntry) : OpOut :=
  match opIn f o 0, opIn f o 1, opOutT f o 0 with
  | some a, some x, some y =>
    let n := rowsOf a
    let bad := ((List.range n).filter (fun i => !indexOk (indexAt m x i) (rowsOf y))).length
    let w := (List.range n).foldl (fun (acc : Wrote) i =>
      if !indexOk (indexAt m x i) (rowsOf y) then acc
      else if bit o.flags 0 then
        let r := scatterAdd m f o a y acc.mem i (indexAt m x i).toNat
        { mem := r.mem, events := acc.events.plus r.events }
      else { acc with mem := copyRow m a y acc.mem i (indexAt m x i).toNat }) { mem := m, events := noEvents }
    { mem := w.mem, events := w.events.plus { noEvents with indexRange := bad },
      scales := if bit o.flags 0 then [] else copiedScale f a y }
  | _, _, _ => noOut m

end Sys2Proof.Machine
end

