-- ==== Sys2Proof/Machine/Operations.lean ====
section
/-! DEFINITION. When an operation of a folio runs (R52, R165, R173, R180), what its result does to the device, and the operations
whose arithmetic is in Contract.lean and Vector.lean. -/

namespace Sys2Proof.Machine

open Sys2Proof

/-- An operation that can run now: its folio, its entry, its quadrant, and whether it belongs to a RUN or STEP or to a filler
unit. -/
structure OpEnv where
  handle : Handle
  folio : Folio
  idx : Nat
  op : OpEntry
  quad : Quad
  unit : Option FillerRun

/-- The stroke that a quadrant has open, as STROKE_INDEX; none before the first. -/
def openStroke (f : Folio) (q : Sequencer) : Option Nat :=
  if q.opened = 0 || q.closed = q.opened then none else some ((q.opened - 1) % max f.tables.strokeCount 1)

/-- Operations whose place in a stroke is not held by the compute phase: TOKEN_WAIT acts at the opening, and PAIRED_SEND and
PAIRED_RECV may wait until the closure (R143, R378). -/
def outsideCompute (opcode : Nat) : Bool := opcode == 0x0602 || opcode == 0x0506 || opcode == 0x0507

/-- Whether every operation of the same grid and stroke with a lower ORDER has run (R52). -/
def earlierDone (f : Folio) (ops : List Nat) (done : List Nat) (o : OpEntry) : Bool :=
  ops.all (fun j =>
    match f.tables.ops[j]? with
    | none => true
    | some p => !(p.grid == o.grid && decide (p.order < o.order)) || outsideCompute p.opcode || done.contains j)

/-- An operation of a RUN or STEP that its quadrant may issue in the state given (R165, R173). -/
def runEnv (s : State) (h : Handle) (i opcode : Nat) (states : List SeqState) : Option OpEnv :=
  match runOf s h with
  | none => none
  | some (lo, r) =>
    match folioOf s r.folio with
    | none => none
    | some f =>
      match f.tables.ops[i]? with
      | none => none
      | some o =>
        let q := f.gridQuad o.grid
        let x := s.seqs[q]
        if s.live && !partStopped s lo.part && x.owner == some h && states.contains x.state && openStroke f x == some o.stroke &&
            o.opcode == opcode && !x.opsDone.contains i && (f.tables.opsOf o.stroke).contains i &&
            earlierDone f (f.tables.opsOf o.stroke) x.opsDone o then
          some { handle := h, folio := f, idx := i, op := o, quad := q, unit := none }
        else none

/-- Whether the owner of a filler unit's interval is in COMPUTE (R180). -/
def ownerComputes (s : State) (x : FillerRun) : Bool :=
  match runOf s x.owner with
  | none => false
  | some (_, r) =>
    match folioOf s r.folio with
    | none => false
    | some f =>
      match f.tables.intervals[x.interval]? with
      | none => false
      | some e => s.seqs[f.gridQuad e.grid].owner == some x.owner && s.seqs[f.gridQuad e.grid].state == .compute

/-- An operation of a running filler unit (R179 to R181), whose operations run in the order of (STROKE, ORDER). -/
def unitEnv (s : State) (h : Handle) (i opcode : Nat) : Option OpEnv :=
  match s.fillers.find? (fun x => x.folio == h), folioOf s h with
  | some x, some f =>
    match f.tables.filler[x.unit]?, f.tables.ops[i]? with
    | some u, some o =>
      let mine := (List.range u.opCount).map (· + u.opFirst)
      let before := mine.all (fun j =>
        match f.tables.ops[j]? with
        | none => true
        | some p => !(decide (p.stroke < o.stroke) || (p.stroke == o.stroke && decide (p.order < o.order))) || x.opsDone.contains j)
      if s.live && !partStopped s f.part && !x.committing && ownerComputes s x && mine.contains i && o.opcode == opcode &&
          !x.opsDone.contains i && before then
        some { handle := h, folio := f, idx := i, op := o, quad := 0, unit := some x }
      else none
    | _, _ => none
  | _, _ => none

/-- The operation that a row names, when it can run now. -/
def opEnv (s : State) (h : Handle) (i opcode : Nat) : Option OpEnv :=
  match runEnv s h i opcode [.compute] with
  | some e => some e
  | none => unitEnv s h i opcode

/-- Tensors that an operation reads. -/
def opReads (f : Folio) (o : OpEntry) : List TRef :=
  o.inputs.filterMap f.tensor ++ (if bit o.flags 0 then o.outputs.filterMap f.tensor else [])

/-- Whether an operation needs a fence flag that is not set: it reads a tensor in HBM (R173). -/
def needsFence (s : State) (e : OpEnv) : Bool :=
  e.unit.isNone && (opReads e.folio e.op).any (fun t => t.entry.inHbm) && !s.seqs[e.quad].fences.contains e.idx

/-- The quadrant waits in STALLED for a fence flag (R165, R173). -/
def stallFence (s : State) (e : OpEnv) : State :=
  updSeq s e.quad (fun q => { q with state := .stalled, fence := some e.idx, cause := 8 })

/-- An operation marked as run. -/
def opDone (s : State) (e : OpEnv) : State :=
  match e.unit with
  | none => updSeq s e.quad (fun q => { q with opsDone := q.opsDone ++ [e.idx] })
  | some x =>
    { s with fillers := s.fillers.map (fun y =>
        if y.folio == x.folio && y.unit == x.unit then { y with opsDone := y.opsDone ++ [e.idx] } else y) }

/-- Scale exponents held with tensors replaced, in tensor order (R94). -/
def setScales (l : List (Nat × Int)) (new : List (Nat × Int)) : List (Nat × Int) :=
  new.foldl (fun l e => insertBy (fun a b => decide (a.1 < b.1)) e (l.filter (fun x => x.1 != e.1))) l

/-- The staging area's bytes laid over memory (R181). -/
def withStaging (f : Folio) (x : FillerRun) (m : Memory) : Memory :=
  x.staging.foldl (fun m e =>
    match f.tensor e.1 with
    | none => m
    | some t => m.writeBytes t.base e.2) m

/-- The outputs of a filler operation taken from memory into the staging area (R181). -/
def toStaging (f : Folio) (o : OpEntry) (m : Memory) (l : List (Nat × Bytes)) : List (Nat × Bytes) :=
  (o.outputs.filterMap f.tensor).foldl (fun l t =>
    (t.idx, m.readBytes t.base t.entry.size) :: l.filter (fun e => e.1 != t.idx)) l

/-- The effect of an operation's result: memory, scale exponents and counters for a RUN or STEP; the staging area for a unit. -/
def applyOut (s : State) (e : OpEnv) (g : Memory → OpOut) : State :=
  match e.unit with
  | none =>
    let out := g s.mem
    let s1 := { s with mem := out.mem }
    let s2 := updFolio s1 e.folio.handle (fun f => { f with scaleExp := setScales f.scaleExp out.scales })
    opDone (countEvents s2 e.handle out.events) e
  | some x =>
    let out := g (withStaging e.folio x s.mem)
    let s1 := { s with fillers := s.fillers.map (fun y =>
        if y.folio == x.folio && y.unit == x.unit then { y with staging := toStaging e.folio e.op out.mem y.staging } else y) }
    opDone (updFolio s1 e.folio.handle (fun f => { f with scaleExp := setScales f.scaleExp out.scales })) e

/-- A scheduled read of a poisoned line fails the job (R278, R475, R477). -/
def poisonedRead (s : State) (e : OpEnv) : Option Nat :=
  ((opReads e.folio e.op).find? (fun t => tensorPoisoned s.mem t)).map (fun t => poisonAt s.mem t.base t.entry.size)

/-- An operation whose result is a function of memory: fence, poison, effect. -/
def runOp (s : State) (e : OpEnv) (g : Memory → OpOut) : State :=
  if needsFence s e then stallFence s e
  else
    match poisonedRead s e with
    | some a => failJob s (partStamp s e.folio.part) 0x110 (unitQuad e.quad.val 4) 0xFFFFFFFF a 0
    | none => applyOut s e g

/-- A row of an operation: nothing when it cannot run now. -/
def opRow (s : State) (h : Handle) (i opcode : Nat) (g : Folio → OpEntry → Memory → OpOut) : State :=
  match opEnv s h i opcode with
  | none => s
  | some e => runOp s e (g e.folio e.op)

/-! ### Contractions -/

/-- The operands of a MATMUL (R523). -/
def matArgs (f : Folio) (o : OpEntry) (pk pm : Nat → Nat → Bool) : Option MatArgs :=
  match opIn f o 0, opIn f o 1, opOutT f o 0 with
  | some a, some b, some y =>
    let t := f.tables.attr o 0xA 0
    some { a := a, b := b, out := y, bias := opIn f o 2, ta := bit t 0, tb := bit t 1, presentK := pk, presentM := pm }
  | _, _, _ => none

/-- A MATMUL with the slots given. -/
def matOut (m : Memory) (f : Folio) (o : OpEntry) (pk pm : Nat → Nat → Bool) : OpOut :=
  match matArgs f o pk pm with
  | none => noOut m
  | some x =>
    let e := outExponent m f o x.out
    let w := matRun m f o x (descaleWith x.out.entry e.1)
    { mem := w.mem, events := e.2.plus w.events, scales := if x.out.entry.scaleMode = 1 then [(x.out.idx, e.1)] else [] }

/-- Whether the slot of a local expert is filled in the batch that an operation of a ROUTING entry belongs to, once its forward
dispatch has closed (R212, R527). -/
def slotFilled (s : State) (f : Folio) (o : OpEntry) (slot expert : Nat) : Bool :=
  let ri := f.tables.routingOf o
  match f.tables.routing[ri]? with
  | none => false
  | some r =>
    match s.ductus[f.gridQuad r.expertGrid].tables.find? (fun t =>
        t.folio == f.handle && t.routing == ri && t.final && some t.batch == f.tables.batchAt ri o.stroke) with
    | none => false
    | some t => t.occupied.any (fun e => e.1 == expert * f.tables.capacity r + slot)

/-- MATMUL (R112 to R123, R134, R135, R523). -/
def execMatmul (h : Handle) (i : Nat) (s : State) : Host.Outcome State Fault Refusal :=
  .next (opRow s h i 0x0101 (fun f o m => matOut m f o (fun _ _ => true) (fun _ _ => true)))

/-- EXPERT_MATMUL (R120, R212, R523): the slot is K in the weight-gradient product, where both inputs are transposed, and M
otherwise. -/
def execExpertMatmul (h : Handle) (i : Nat) (s : State) : Host.Outcome State Fault Refusal :=
  .next (opRow s h i 0x0102 (fun f o m =>
    let filled := slotFilled s f o
    let asK := bits (f.tables.attr o 0xA 0) 1 0 == 3
    matOut m f o (fun k e => !asK || filled k e) (fun r e => asK || filled r e)))

/-! ### Vector operations -/

/-- AMAX (R91). For a sharded input the largest magnitude at the other positions is a free value (log entry 14). -/
def execAmax (h : Handle) (i : Nat) (s : State) : Host.Outcome State Fault Refusal :=
  .next (opRow { s with fresh := s.fresh + 1 } h i 0x0110 (fun f o m =>
    amaxOut m f o (match opIn f o 0 with
      | some t => if 1 < f.tables.cutSize t.entry.shardCut then some (fp32 (BitVec.ofNat 32 (Config.freeNat s.fresh))).abs else none
      | none => none)))

/-- CONVERT (R86). -/
def execConvert (h : Handle) (i : Nat) (s : State) : Host.Outcome State Fault Refusal :=
  .next (opRow s h i 0x0111 (fun f o m => convertOut m f o))

/-- ELTWISE (R105). -/
def execEltwise (h : Handle) (i : Nat) (s : State) : Host.Outcome State Fault Refusal :=
  .next (opRow s h i 0x0201 (fun f o m => eltwiseOut m f o))

/-- ACTIVATION (R106). -/
def execActivation (h : Handle) (i : Nat) (s : State) : Host.Outcome State Fault Refusal :=
  .next (opRow s h i 0x0202 (fun f o m => activationOut m f o))

/-- NORM (R108). -/
def execNorm (h : Handle) (i : Nat) (s : State) : Host.Outcome State Fault Refusal :=
  .next (opRow s h i 0x0203 (fun f o m => normOut m f o))

/-- SOFTMAX (R109). -/
def execSoftmax (h : Handle) (i : Nat) (s : State) : Host.Outcome State Fault Refusal :=
  .next (opRow s h i 0x0204 (fun f o m => softmaxOut m f o))

/-- LOSS (R110). -/
def execLoss (h : Handle) (i : Nat) (s : State) : Host.Outcome State Fault Refusal :=
  .next (opRow s h i 0x0205 (fun f o m => lossOut m f o))

/-- REDUCE (R126). -/
def execReduce (h : Handle) (i : Nat) (s : State) : Host.Outcome State Fault Refusal :=
  .next (opRow s h i 0x0206 (fun f o m => reduceOut m f o))

/-- TOPK (R128). -/
def execTopk (h : Handle) (i : Nat) (s : State) : Host.Outcome State Fault Refusal :=
  .next (opRow s h i 0x0207 (fun f o m => topkOut m f o))

/-! ### Data movement -/

/-- COPY (R152). -/
def execCopy (h : Handle) (i : Nat) (s : State) : Host.Outcome State Fault Refusal :=
  .next (opRow s h i 0x0501 (fun f o m => copyOut m f o))

/-- TRANSPOSE (R152). -/
def execTranspose (h : Handle) (i : Nat) (s : State) : Host.Outcome State Fault Refusal :=
  .next (opRow s h i 0x0502 (fun f o m => transposeOut m f o))

/-- ROW_GATHER (R153). -/
def execRowGather (h : Handle) (i : Nat) (s : State) : Host.Outcome State Fault Refusal :=
  .next (opRow s h i 0x0503 (fun f o m => rowGatherOut m f o))

/-- ROW_SCATTER (R124, R153). -/
def execRowScatter (h : Handle) (i : Nat) (s : State) : Host.Outcome State Fault Refusal :=
  .next (opRow s h i 0x0504 (fun f o m => rowScatterOut m f o))

/-- PERMUTE (R361): its exchange carries it; the operation's place in the stroke is taken. -/
def execPermute (h : Handle) (i : Nat) (s : State) : Host.Outcome State Fault Refusal :=
  .next (match opEnv s h i 0x0505 with
    | none => s
    | some e => opDone s e)

/-- GATHER_PARAMS (R259): its GATHER exchange carries it; the operation's place in the stroke is taken. -/
def execGatherParams (h : Handle) (i : Nat) (s : State) : Host.Outcome State Fault Refusal :=
  .next (match opEnv s h i 0x0404 with
    | none => s
    | some e => opDone s e)

/-! ### TOKEN_WAIT (R143, R166) -/

/-- The stroke a quadrant is to open next, as STROKE_INDEX. -/
def nextStroke (f : Folio) (q : Sequencer) : Nat := q.opened % max f.tables.strokeCount 1

/-- A token wait of the stroke being opened in its quadrant. -/
def waitEnv (s : State) (h : Handle) (i : Nat) : Option OpEnv :=
  match runOf s h with
  | none => none
  | some (lo, r) =>
    match folioOf s r.folio with
    | none => none
    | some f =>
      match f.tables.ops[i]? with
      | none => none
      | some o =>
        let q := f.gridQuad o.grid
        let x := s.seqs[q]
        if s.live && !partStopped s lo.part && x.owner == some h && x.state == .opening && o.opcode == 0x0602 &&
            o.stroke == nextStroke f x && !x.waits.contains i then
          some { handle := h, folio := f, idx := i, op := o, quad := q, unit := none }
        else none

/-- TOKEN_WAIT (R143, R166): once the counter of every cluster of the grid has reached the count, it is subtracted from each. -/
def execTokenWait (h : Handle) (i : Nat) (s : State) : Host.Outcome State Fault Refusal :=
  .next (match waitEnv s h i with
    | none => s
    | some e =>
      let n := e.folio.tables.attr e.op 0xD 0
      let v := fnOf e.folio e.op
      let cs := e.folio.gridClusters e.op.grid
      if cs.all (fun c => decide (v ≤ tallyGet s.tokens (c, n))) then
        let s1 := { s with tokens := cs.foldl (fun l c => tallySet l (c, n) (tallyGet l (c, n) - v)) s.tokens }
        updSeq s1 e.quad (fun q => { q with waits := q.waits ++ [i] })
      else s)

end Sys2Proof.Machine
end

