-- ==== Sys2Proof/Machine/Ductus.lean ====
section
/-! DEFINITION. The Ductus engine's operations: ROUTE, COMBINE, ROUTE_BACK and GATE_GRAD (R194 to R207, R215 to R218, R220, R222),
token tags (R208), and the rows that its exchanges carry (R209, R210, R213). -/

namespace Sys2Proof.Machine

open Sys2Proof

/-! ### Token tags (R208) -/

/-- The fields of a token tag. -/
structure Tag where
  gen : Nat
  routing : Nat
  dir : Nat
  kSlot : Nat
  choice : Nat
  expert : Nat
  srcRank : Nat
  srcQuad : Nat
  token : Nat
  dstRank : Nat
  slot : Nat
  rsvd : Nat
deriving DecidableEq, Repr

/-- The 128 bits of a tag. -/
def Tag.word (t : Tag) : BitVec 128 :=
  BitVec.ofNat 128 (t.rsvd % 2 ^ 24 + (t.slot % 2 ^ 20) * 2 ^ 24 + (t.dstRank % 2 ^ 9) * 2 ^ 44 + (t.token % 2 ^ 20) * 2 ^ 53 +
    (t.srcQuad % 4) * 2 ^ 73 + (t.srcRank % 2 ^ 9) * 2 ^ 75 + (t.expert % 2 ^ 12) * 2 ^ 84 + (t.choice % 8) * 2 ^ 96 +
    (t.kSlot % 8) * 2 ^ 99 + (t.dir % 4) * 2 ^ 102 + (t.routing % 2 ^ 16) * 2 ^ 104 + (t.gen % 2 ^ 8) * 2 ^ 120)

/-- The fields of 128 bits. -/
def tagOf (w : BitVec 128) : Tag :=
  let v := w.toNat
  { gen := bits v 127 120, routing := bits v 119 104, dir := bits v 103 102, kSlot := bits v 101 99, choice := bits v 98 96,
    expert := bits v 95 84, srcRank := bits v 83 75, srcQuad := bits v 74 73, token := bits v 72 53, dstRank := bits v 52 44,
    slot := bits v 43 24, rsvd := bits v 23 0 }

/-! ### Scoring and placement (R200 to R205) -/

/-- The gate probabilities of a row of logits (R200). -/
def gateProbs (scoreFn : Nat) (z : List XVal) : List XVal := if scoreFn = 0 then softmaxRow z else z.map sSigmoid

/-- The selection scores (R201). -/
def selScores (p : List XVal) (bias : Option (List XVal)) : List XVal :=
  match bias with
  | none => p
  | some b => p.zipWith fadd b

/-- The ranking of a token: its first L experts (R201). -/
def ranking (s : List XVal) (l : Nat) : List Nat := ((rankRow s).map (fun e => e.2)).take l

/-- Where a slot stands in placement (R203). -/
inductive SlotPlace where
  | unplaced
  | dropped (nan : Bool)
  | placed (expert choice slot : Nat)
deriving DecidableEq, Repr

/-- The state of placement: filled[e] by expert, next[t] by token, and the slots by t × K + i. -/
structure Placement where
  filled : List Nat
  next : List Nat
  slots : List SlotPlace
deriving DecidableEq, Repr

/-- What placement reads: per token its ranking, and whether an expert's s or p is NaN. -/
structure Scored where
  k : Nat
  quota : Nat
  pos : Nat
  rank : List (List Nat)
  bad : List (List Bool)
deriving DecidableEq, Repr

/-- The candidate of a slot in a pass, with the placement after it was taken. -/
def candidate (c : Scored) (pass : Nat) (x : Placement) (t i : Nat) : Option (Nat × Placement) :=
  let r := c.rank.getD t []
  if pass = 0 then (r[i]?).map (fun e => (e, x))
  else
    let n := x.next.getD t 0
    (r[n]?).map (fun e => (e, { x with next := x.next.set t (n + 1) }))

/-- One step of place (R202, R203). -/
def placeOne (c : Scored) (pass : Nat) (x : Placement) (idx : Nat) : Placement :=
  let t := idx / max c.k 1
  if x.slots.getD idx (.dropped false) = .unplaced then
    match candidate c pass x t (idx % max c.k 1) with
    | none => x
    | some (e, y) =>
      if (c.bad.getD t []).getD e true then { y with slots := y.slots.set idx (.dropped true) }
      else
        let n := y.filled.getD e 0
        if n < c.quota then
          { y with slots := y.slots.set idx (.placed e pass (c.pos * c.quota + n)), filled := y.filled.set e (n + 1) }
        else y
  else x

/-- place(batch) of R203 with D passes after the first. -/
def place (c : Scored) (experts depth : Nat) : Placement :=
  let t := c.rank.length
  let start : Placement :=
    { filled := List.replicate experts 0, next := List.replicate t c.k, slots := List.replicate (t * c.k) .unplaced }
  (List.range (depth + 1)).foldl (fun x pass => (List.range (t * c.k)).foldl (placeOne c pass) x) start

/-- A batch placed and gated: the ledger, filled[e], and the counts of R227 with the NaNs examined (R129). -/
structure RouteOut where
  ledger : List LedgerEntry
  filled : List Nat
  overflow : Nat
  drops : Nat
  nanDrops : Nat
  nans : Nat

/-- The members of the set of R205 for a token: (k-slot, expert). -/
def gateSet (norm : Nat) (slots : List SlotPlace) (rank : List Nat) : List (Nat × Nat) :=
  (slots.zipIdx).filterMap (fun e =>
    match e.1 with
    | .placed x _ _ => some (e.2, x)
    | _ => if norm = 1 then (rank[e.2]?).map (fun x => (e.2, x)) else none)

/-- Σ of R205. -/
def gateSum (p : List XVal) (set : List (Nat × Nat)) : XVal := exactSum (set.map (fun e => p.getD e.2 .nan))

/-- The ledger entries of one token (R205, R206). -/
def ledgerRow (norm : Nat) (dst : Nat → Nat) (p : List XVal) (rank : List Nat) (slots : List SlotPlace) : List LedgerEntry :=
  let sum := gateSum p (gateSet norm slots rank)
  let none_ := norm != 0 && (sum.isZero || sum.isNan)
  (slots.zipIdx).map (fun e =>
    let prim := rank.getD e.2 0
    let gone := fun (nan : Bool) =>
      ({ gate := 0, prob := fp32Bits (p.getD prim .nan), expert := prim, dropped := true, choice := 0, nanDrop := nan, slot := 0,
         dstRank := 0 } : LedgerEntry)
    match e.1 with
    | .placed x ch sl =>
      if none_ then gone false
      else
        let px := p.getD x .nan
        { gate := fp32Bits (if norm = 0 then px else fdiv px sum), prob := fp32Bits px, expert := x, dropped := false, choice := ch,
          nanDrop := false, slot := sl, dstRank := dst x }
    | .dropped nan => gone nan
    | .unplaced => gone false)

/-- Rows of logits of a ROUTING entry as FP32 values. -/
def logitRows (m : Memory) (f : Folio) (mode : RMode) (t : TRef) (e n : Nat) : List (List XVal) :=
  (List.range n).map (fun i => (List.range e).map (fun j => valueFp32 m f t mode (i * e + j)))

/-- ROUTE over a batch (R200 to R206). -/
def routeBatch (m : Memory) (f : Folio) (o : OpEntry) (r : RoutingEntry) (z : TRef) (bias : Option TRef) : RouteOut :=
  let e := r.experts
  let k := r.k
  let mode := rmodeOf o.rounding
  let b := bias.map (fun t => (List.range e).map (valueFp32 m f t mode))
  let ps := (logitRows m f mode z e r.tokens).map (gateProbs r.scoreFn)
  let ss := ps.map (fun p => selScores p b)
  let l := min e (k * (1 + r.depth))
  let c : Scored :=
    { k := k, quota := r.quota, pos := f.tables.posOn r.cut f.coord, rank := ss.map (fun s => ranking s l),
      bad := ss.zipWith (fun s p => s.zipWith (fun a b => a.isNan || b.isNan) p) ps }
  let x := place c e r.depth
  let dst := fun (n : Nat) => f.tables.rankAtPos r.cut f.coord (n / max (f.tables.expertsLocal r) 1)
  let rows := (List.range r.tokens).map (fun t =>
    ledgerRow r.gateNorm dst (ps.getD t []) (c.rank.getD t []) ((x.slots.drop (t * k)).take k))
  let led := rows.flatten
  { ledger := led, filled := x.filled,
    overflow := (x.slots.filter (fun s => match s with | .placed _ ch _ => decide (1 ≤ ch) | _ => false)).length,
    drops := (led.filter (fun e => e.dropped)).length,
    nanDrops := (x.slots.filter (fun s => s == .dropped true)).length,
    nans := ((ss.flatten).filter (fun s => s.isNan)).length }

/-- The send lists: (destination position, ledger index), stably sorted by destination (R207). -/
def sendLists (t : Tables) (r : RoutingEntry) (led : List LedgerEntry) : List (Nat × Nat) :=
  (List.range (t.cutSize r.cut)).flatMap (fun d =>
    (led.zipIdx.filter (fun e => !e.1.dropped && e.1.expert / max (t.expertsLocal r) 1 == d)).map (fun e => (d, e.2)))

/-! ### Generations (R220 to R222) -/

/-- The lowest FREE generation above the last one taken, wrapping (R222). -/
def nextGen (d : Ductus) : Nat :=
  (((List.range 256).map (fun i => (d.lastGen.toNat + 1 + i) % 256)).find? (fun n => !d.gens.any (fun g => g.gen.toNat == n))).getD
    ((d.lastGen.toNat + 1) % 256)

/-- The live generation of a batch of a folio (R199, R220). -/
def batchGen (d : Ductus) (f : Handle) (ri batch : Nat) : Option Generation :=
  d.gens.find? (fun g => g.folio == f && g.routing == ri && g.op == batch && g.state.isLive)

/-- A generation of an engine changed. -/
def updGen (s : State) (q : Quad) (gen : Byte) (f : Generation → Generation) : State :=
  updDuctus s q (fun d => { d with gens := updFirst (fun g => g.gen == gen) f d.gens })

/-- An operation of a ROUTING entry with its batch at this device. -/
def batchOp (s : State) (e : OpEnv) : Option (RoutingEntry × Generation) :=
  let ri := e.folio.tables.routingOf e.op
  match e.folio.tables.routing[ri]?, e.folio.tables.batchAt ri e.op.stroke with
  | some r, some b => (batchGen s.ductus[e.quad] e.folio.handle ri b).map (fun g => (r, g))
  | _, _ => none

/-- Whether the batch of a ROUTE has a GATE_GRAD (R199). -/
def hasGateGrad (t : Tables) (ri batch : Nat) : Bool :=
  t.ops.any (fun o => o.opcode == 0x0304 && t.routingOf o == ri && t.batchAt ri o.stroke == some batch)

/-- Counters 8 to 10 and 5 of a ROUTE (R129, R227). -/
def countRoute (s : State) (h : Handle) (x : RouteOut) : State :=
  updRun s h (fun r =>
    let c := addCounter (addCounter (addCounter (addCounter r.counters 8 x.overflow) 9 x.drops) 10 x.nanDrops) 5 x.nans
    { r with counters := c })

/-- What a ROUTE leaves: its batch in LISTING with ledger and send lists, the LOAD output, the counts (R203, R206, R207, R222). -/
def routeDone (s : State) (e : OpEnv) (r : RoutingEntry) (z : TRef) : State :=
  let x := routeBatch s.mem e.folio e.op r z (opIn e.folio e.op 1)
  let g := nextGen s.ductus[e.quad]
  let m := match opOutT e.folio e.op 0 with
    | none => s.mem
    | some y => (x.filled.zipIdx).foldl (fun m v => writeElem m y.base .uint32 v.2 v.1) s.mem
  let s1 := updDuctus { s with mem := m } e.quad (fun d =>
    { d with lastGen := BitVec.ofNat 8 g, nextOrder := d.nextOrder + 1,
             gens := d.gens ++ [{ gen := BitVec.ofNat 8 g, state := .listing, folio := e.folio.handle,
                                  routing := e.folio.tables.routingOf e.op, op := e.idx, order := d.nextOrder,
                                  stamp := partStamp s e.folio.part, ledger := x.ledger,
                                  sendList := sendLists e.folio.tables r x.ledger, backRows := [], gateGradDone := false,
                                  combine2Done := false, drains := [] }] })
  opDone (countRoute s1 e.handle x) e

/-- A step of an operation on the engine: the fence, poison, then its effect (R173, R193, R477). -/
def engineOp (s : State) (h : Handle) (i opcode : Nat) (g : OpEnv → State) : State :=
  match runEnv s h i opcode [.compute] with
  | none => s
  | some e =>
    if needsFence s e then stallFence s e
    else
      match poisonedRead s e with
      | some a => failJob s (partStamp s e.folio.part) 0x110 (unitQuad e.quad.val 1) 0xFFFFFFFF a 0
      | none => g e

/-- ROUTE (R200 to R207, R222, R227). -/
def execRoute (h : Handle) (i : Nat) (s : State) : Host.Outcome State Fault Refusal :=
  .next (engineOp s h i 0x0301 (fun e =>
    match e.folio.tables.routing[e.folio.tables.routingOf e.op]?, opIn e.folio e.op 0 with
    | some r, some z => routeDone s e r z
    | _, _ => s))

/-! ### COMBINE (R215) -/

/-- acc of R215 for element n of the output. -/
def combineElem (m : Memory) (f : Folio) (o : OpEntry) (r : RoutingEntry) (g : Generation) (a : TRef) (n : Nat) : XVal :=
  let hh := max (a.entry.extent 0) 1
  let t := n / hh
  let fn2 := fnOf f o == 2
  (List.range r.k).foldl (fun acc i =>
    match g.ledger[t * r.k + i]? with
    | none => acc
    | some l =>
      if l.dropped then acc
      else
        let v := valueFp32 m f a (rmodeOf o.rounding) ((t * r.k + i) * hh + n % hh)
        if fn2 then fadd v acc else fma (fp32 l.gate) v acc) (.zero false)

/-- The state of a batch after COMBINE with FUNCTION 1 or 2 (R220). -/
def afterCombine (t : Tables) (fn : Nat) (g : Generation) : Generation :=
  if fn = 1 then { g with state := if t.kind = 0 then .combined else .retiring }
  else
    let st := if !hasGateGrad t g.routing g.op || g.gateGradDone then BatchState.retiring else g.state
    { g with combine2Done := true, state := st }

/-- COMBINE (R215, R217, R220). -/
def execCombine (h : Handle) (i : Nat) (s : State) : Host.Outcome State Fault Refusal :=
  .next (engineOp s h i 0x0302 (fun e =>
    match batchOp s e, opIn e.folio e.op 0, opOutT e.folio e.op 0 with
    | some (r, g), some a, some y =>
      updGen (applyOut s e (fun m =>
          outWhole m e.folio e.op y (opStage e.folio e.op (.num 1) true none) (combineElem m e.folio e.op r g a)))
        e.quad g.gen (afterCombine e.folio.tables (fnOf e.folio e.op))
    | _, _, _ => s))

/-! ### ROUTE_BACK (R216) -/

/-- The row of one placed slot in the format of SLOT_DOUT, with the events of its conversion. -/
def backRow (m : Memory) (f : Folio) (o : OpEntry) (dy sd : TRef) (gate : XVal) (t : Nat) : Bytes × NumEvents :=
  let hh := dy.entry.extent 0
  let xs := (List.range hh).map (fun j => fmul gate (valueFp32 m f dy (rmodeOf o.rounding) (t * hh + j)))
  let at0 := { sd with base := 0 }
  let w := writeRun Memory.empty at0 0 xs (convTo at0 .nearest)
  (wireBytes w.mem at0 0 hh, w.events)

/-- The rows of every placed slot, by ledger index. -/
def backRows (m : Memory) (f : Folio) (o : OpEntry) (r : RoutingEntry) (g : Generation) (dy sd : TRef) :
    List (Nat × Bytes) × NumEvents :=
  (g.ledger.zipIdx).foldl (fun acc e =>
    if e.1.dropped then acc
    else
      let b := backRow m f o dy sd (fp32 e.1.gate) (e.2 / max r.k 1)
      (acc.1 ++ [(e.2, b.1)], acc.2.plus b.2)) ([], noEvents)

/-- ROUTE_BACK (R216). -/
def execRouteBack (h : Handle) (i : Nat) (s : State) : Host.Outcome State Fault Refusal :=
  .next (engineOp s h i 0x0303 (fun e =>
    match batchOp s e, opIn e.folio e.op 0 with
    | some (r, g), some dy =>
      match e.folio.tensor r.slotDout with
      | none => s
      | some sd =>
        let x := backRows s.mem e.folio e.op r g dy sd
        opDone (countEvents (updGen s e.quad g.gen (fun g => { g with backRows := x.1 })) e.handle x.2) e
    | _, _ => s))

/-! ### GATE_GRAD (R218) -/

/-- dz of one token: p, the ledger entries, the ranking's primaries, and dy_h, a_{i,h} as functions. -/
def gateGradRow (r : RoutingEntry) (p : List XVal) (led : List LedgerEntry) (hh : Nat) (dy : Nat → XVal) (a : Nat → Nat → XVal) :
    List XVal :=
  let u := fun (i : Nat) =>
    if (led[i]?).all (fun l => l.dropped) then XVal.zero false
    else rn (exactSum ((List.range hh).map (fun j => XVal.mul (dy j) (a i j))))
  let placed := (led.zipIdx).filter (fun e => !e.1.dropped)
  let none_ := placed.isEmpty
  let set := if r.gateNorm = 1 then led.zipIdx else placed
  let sum := exactSum (set.map (fun e => p.getD e.1.expert .nan))
  let c := rn (exactSum (placed.map (fun e => XVal.mul (u e.2) (fp32 e.1.gate))))
  let q := fun (x : Nat) =>
    if none_ then XVal.zero false
    else
      match set.find? (fun e => e.1.expert == x) with
      | none => .zero false
      | some e => if r.gateNorm = 0 then u e.2 else fdiv (fsub (u e.2) c) sum
  let qs := (List.range p.length).map q
  if r.scoreFn = 0 then
    let c2 := rn (exactSum (qs.zipWith XVal.mul p))
    qs.zipWith (fun q p => fmul p (fsub q c2)) p
  else qs.zipWith (fun q p => fmul q (fmul p (fsub (.num 1) p))) p

/-- dz over a batch. -/
def gateGrad (m : Memory) (f : Folio) (o : OpEntry) (r : RoutingEntry) (g : Generation) (z dy a : TRef) : List XVal :=
  let mode := rmodeOf o.rounding
  let hh := dy.entry.extent 0
  (((logitRows m f mode z r.experts r.tokens).zipIdx).map (fun row =>
    gateGradRow r (gateProbs r.scoreFn row.1) ((g.ledger.drop (row.2 * r.k)).take r.k) hh
      (fun j => valueFp32 m f dy mode (row.2 * hh + j))
      (fun i j => valueFp32 m f a mode ((row.2 * r.k + i) * hh + j)))).flatten

/-- GATE_GRAD (R218, R220). -/
def execGateGrad (h : Handle) (i : Nat) (s : State) : Host.Outcome State Fault Refusal :=
  .next (engineOp s h i 0x0304 (fun e =>
    match batchOp s e, opIn e.folio e.op 0, opIn e.folio e.op 1, opIn e.folio e.op 2, opOutT e.folio e.op 0 with
    | some (r, g), some z, some dy, some a, some y =>
      updGen (applyOut s e (fun m =>
          let dz := gateGrad m e.folio e.op r g z dy a
          outWhole m e.folio e.op y (opStage e.folio e.op (.num 1) true none) (fun n => dz.getD n (.zero false))))
        e.quad g.gen (fun g => { g with gateGradDone := true, state := if g.combine2Done then .retiring else g.state })
    | _, _, _, _, _ => s))

/-! ### Rows on their way (R208 to R210, R213) -/

/-- The tag of a placed slot (R208). -/
def slotTag (f : Folio) (q : Quad) (r : RoutingEntry) (g : Generation) (dir idx : Nat) (l : LedgerEntry) : Tag :=
  { gen := g.gen.toNat, routing := g.routing, dir := dir, kSlot := idx % max r.k 1, choice := l.choice, expert := l.expert,
    srcRank := f.rank, srcQuad := q.val, token := idx / max r.k 1, dstRank := l.dstRank, slot := l.slot, rsvd := 0 }

/-- The rows that a dispatch sends to a destination position, in list order: forward rows of TOKENS_IN, backward rows of
ROUTE_BACK (R210, R216). -/
def dispatchRows (m : Memory) (f : Folio) (q : Quad) (r : RoutingEntry) (g : Generation) (dir pos : Nat) : List (Tag × Bytes) :=
  (g.sendList.filter (fun e => e.1 == pos)).filterMap (fun e =>
    match g.ledger[e.2]? with
    | none => none
    | some l =>
      let tag := slotTag f q r g dir e.2 l
      if dir = 0 then (f.tensor r.tokensIn).map (fun t => (tag, rowBytes m t (e.2 / max r.k 1)))
      else (g.backRows.find? (fun b => b.1 == e.2)).map (fun b => (tag, b.2)))

/-- The rows that a return sends to a source rank: its occupied slots in ascending row (R213). -/
def returnRows (m : Memory) (f : Folio) (r : RoutingEntry) (t : RecvTable) (dir rank : Nat) : List (Tag × Bytes) :=
  match f.tensor (if dir = 1 then r.slotOut else r.slotDin) with
  | none => []
  | some x =>
    ((sortBy (fun a b => decide (a.1 < b.1)) t.occupied).filter (fun e => (tagOf e.2).srcRank == rank)).map (fun e =>
      ({ tagOf e.2 with dir := dir }, rowBytes m x e.1))

/-- The packets of rows: 512-byte payloads with part numbers (R209). -/
def rowPackets (stamp : Stamp) (unit : Tag → Nat) (rows : List (Tag × Bytes)) : List Packet :=
  rows.flatMap (fun x => (chunks 512 x.2).zipIdx.map (fun c =>
    mkPacket 0 5 (unit x.1) 0 0 stamp c.2 x.1.word.toNat c.1))

/-- The payload of an end marker (R209). -/
def endPayload (packets rows routing dir gen : Nat) : Bytes :=
  le 4 packets ++ le 4 rows ++ le 2 routing ++ le 1 dir ++ le 1 gen ++ zeros 4

/-- Whether a row to be sent would be read from a poisoned line (R477). -/
def rowsPoisoned (m : Memory) (f : Folio) (r : RoutingEntry) (dir : Nat) (rows : List Nat) : Bool :=
  match f.tensor (match dir with | 0 => r.tokensIn | 1 => r.slotOut | _ => r.slotDin) with
  | none => false
  | some t => dir != 2 && rows.any (fun i => wirePoisoned m t (i * t.entry.extent 0) (t.entry.extent 0))

end Sys2Proof.Machine
end

