-- ==== Sys2Proof/Machine/Shares.lean ====
section
/-! DEFINITION. Shares under a mapping and where each element of a share comes from (R359 to R361), the stored bytes that move
between shares, and the places of tensors and exchanges within a device (R524, R526). -/

namespace Sys2Proof.Machine

open Sys2Proof

/-! ### Shares (R359, R360) -/

/-- The holder's coordinate and the source index of element j of the share that the device at coordinate d holds. -/
def shareHolder (srcCut dstCut : Option CutEntry) (src dst : TensorEntry) (d : Nat × Nat × Nat) (j : Nat) :
    (Nat × Nat × Nat) × Nat :=
  let c := coordsOf dst.shape j
  let l := match dstCut with
    | none => c
    | some k => c.set dst.shardAxis (c.getD dst.shardAxis 0 + cutPos k d * dst.extent dst.shardAxis)
  match srcCut with
  | none => (d, flatOf src.shape l)
  | some k =>
    let e := max (src.extent src.shardAxis) 1
    let i := l.getD src.shardAxis 0
    (coordAtPos k d (i / e), flatOf src.shape (l.set src.shardAxis (i % e)))

/-- What a device at coordinate d takes from the holder with a rank: pairs (its index, the source index), ascending. -/
def sharePairs (box : Nat × Nat × Nat) (srcCut dstCut : Option CutEntry) (src dst : TensorEntry) (d : Nat × Nat × Nat)
    (rank : Nat) : List (Nat × Nat) :=
  (List.range dst.elems).filterMap (fun j =>
    let x := shareHolder srcCut dstCut src dst d j
    if rankOf box x.1 = rank then some (j, x.2) else none)

/-- The ranks of the holders of a share, ascending. -/
def shareHolders (box : Nat × Nat × Nat) (srcCut dstCut : Option CutEntry) (src dst : TensorEntry) (d : Nat × Nat × Nat) :
    List Nat :=
  sortBy (fun a b => decide (a < b)) ((List.range dst.elems).map (fun j => rankOf box (shareHolder srcCut dstCut src dst d j).1)).dedup

/-- The stored bytes of elements of a tensor by index: packed elements, then the scale bytes of the blocks among them. -/
def pickBytes (m : Memory) (t : TRef) (idxs : List Nat) : Bytes :=
  let f := t.entry.format
  let elems :=
    if f.bits = 4 then
      (List.range (ceilDiv idxs.length 2)).map (fun i =>
        BitVec.ofNat 8 (rawElem m t.base f (idxs.getD (2 * i) 0) +
          (match idxs[2 * i + 1]? with | some k => rawElem m t.base f k * 16 | none => 0)))
    else idxs.flatMap (fun k => le (f.bits / 8) (rawElem m t.base f k))
  if f.isMx then elems ++ (idxs.filter (fun k => k % 32 == 0)).map (fun k => m.read (t.base + t.entry.scaleOff + k / 32)) else elems

/-- Bytes of such a run written to the elements named, from byte `start` of it on. -/
def pickStore (m : Memory) (t : TRef) (idxs : List Nat) (start : Nat) (b : Bytes) : Memory :=
  let f := t.entry.format
  let eb := elemBytes f idxs.length
  let e := b.take (eb - start)
  let m1 :=
    if f.bits = 4 then
      (e.zipIdx).foldl (fun m x =>
        let k := 2 * (start + x.2)
        let m2 := match idxs[k]? with | some i => writeElem m t.base f i (x.1.toNat % 16) | none => m
        match idxs[k + 1]? with | some i => writeElem m2 t.base f i (x.1.toNat / 16) | none => m2) m
    else
      let w := f.bits / 8
      ((chunks w e).zipIdx).foldl (fun m x =>
        match idxs[start / w + x.2]? with
        | some i => writeElem m t.base f i (uN x.1 0 w)
        | none => m) m
  if f.isMx then
    let blocks := (idxs.filter (fun k => k % 32 == 0)).map (fun k => k / 32)
    ((b.drop e.length).zipIdx).foldl (fun m x =>
      match blocks[max start eb - eb + x.2]? with
      | some k => m.write (t.base + t.entry.scaleOff + k) x.1
      | none => m) m1
  else m1

/-- The payloads of a run of n elements. -/
def payloadCount (f : Fmt) (n : Nat) : Nat := ceilDiv (wireSize f n) 512

/-! ### Places (R524, R526) -/

/-- The tensors that a roaming program names in tensor form (R284). -/
def programTensors (p : RoamProgram) : List Nat :=
  p.records.filterMap (fun r => if decide (1 ≤ r.op) && decide (r.op ≤ 3) && !bit r.variant 3 then some (r.b % 65536) else none)

/-- The ROAMING instance of an operation's PROGRAM attribute. -/
def Tables.programOf (t : Tables) (o : OpEntry) : Option RoamProgram := t.roaming.find? (fun p => p.inst == t.attr o 0xC noneIdx)

/-- Whether a grid uses a tensor (R524). -/
def gridUses (t : Tables) (g x : Nat) : Bool :=
  t.ops.any (fun o => o.grid == g && (o.inputs.contains x || o.outputs.contains x ||
    (o.opcode == 0x0601 && (match t.programOf o with | some p => (programTensors p).contains x | none => false)))) ||
  t.exchs.any (fun e => e.dstGrid == g && e.dst == x)

/-- The quadrants that a tensor's place holds: all of the job's for HBM, those of the grids that use it for SRAM (R526). -/
def tensorQuads (f : Folio) (x : Nat) : List Quad :=
  match f.tables.tensors[x]? with
  | none => []
  | some t =>
    if t.inHbm then f.quads
    else f.quads.filter (fun q => (List.range f.tables.grids.length).any (fun g => f.gridIn g q && gridUses f.tables g x))

/-- The quadrants that an exchange's source holds (R526). -/
def exchSrcQuads (f : Folio) (e : ExchEntry) : List Quad :=
  match e.kind with
  | 1 => match f.tables.routing[e.ref]? with | some r => [f.gridQuad r.sourceGrid] | none => []
  | 2 => match f.tables.routing[e.ref]? with | some r => [f.gridQuad r.expertGrid] | none => []
  | 3 => tensorQuads f e.src ++ (match f.tables.bucket? e.ref with | some b => tensorQuads f b.ef | none => [])
  | _ => tensorQuads f e.src

/-- The quadrants whose closure waits for an exchange's arrivals (R167). -/
def exchDstQuads (f : Folio) (e : ExchEntry) : List Quad := if e.dstGrid = noneIdx then f.quads else [f.gridQuad e.dstGrid]

/-- The unit at which an exchange's data arrives: a grid's endpoint stub, or the HBM carve-out (R20, R186). -/
def exchUnit (f : Folio) (e : ExchEntry) : Nat :=
  if e.dstGrid = noneIdx then unitHbm 0 else (f.gridClusters e.dstGrid).headD 0

/-- The DST_UNIT of data for an exchange (R316). -/
def exchDstUnit (f : Folio) (e : ExchEntry) : Nat := if e.dstGrid = noneIdx then 5 else (f.gridQuad e.dstGrid).val

/-! ### PERMUTE (R361) -/

/-- The target mapping's cut entries: the INITDATA instance that REF names, in the layout of the MACHINE section. -/
def targetCuts (t : Tables) (e : ExchEntry) : List CutEntry :=
  match t.init.find? (fun x => x.1 == e.ref) with
  | none => []
  | some x => (chunks 16 ((x.2.drop 16).take (16 * u16 x.2 6))).map readCut

/-- The cut of a tensor under a list of cut entries. -/
def cutOf (cuts : List CutEntry) (i : Nat) : Option CutEntry := if i = 0xFF then none else cuts[i]?

/-- What the device at a coordinate takes from a rank in a PERMUTE exchange. -/
def permutePairs (f : Folio) (e : ExchEntry) (d : Nat × Nat × Nat) (rank : Nat) : List (Nat × Nat) :=
  match f.tables.tensors[e.src]?, f.tables.tensors[e.dst]? with
  | some a, some b => sharePairs f.box (f.tables.cut? a.shardCut) (cutOf (targetCuts f.tables e) b.shardCut) a b d rank
  | _, _ => []

/-- The ranks that the device at a coordinate takes from in a PERMUTE exchange. -/
def permuteSenders (f : Folio) (e : ExchEntry) (d : Nat × Nat × Nat) : List Nat :=
  match f.tables.tensors[e.src]?, f.tables.tensors[e.dst]? with
  | some a, some b => shareHolders f.box (f.tables.cut? a.shardCut) (cutOf (targetCuts f.tables e) b.shardCut) a b d
  | _, _ => []

/-- The devices of a box. -/
def boxRanks (box : Nat × Nat × Nat) : List Nat := List.range (box.1 * box.2.1 * box.2.2)

/-- The ranks that this device sends to in a PERMUTE exchange. -/
def permuteReceivers (f : Folio) (e : ExchEntry) : List Nat :=
  (boxRanks f.box).filter (fun r => (permuteSenders f e (coordOfRank f.box r)).contains f.rank)

/-- The arrival units of a PERMUTE exchange at this device (R56). -/
def permuteUnits (f : Folio) (e : ExchEntry) : Nat :=
  match f.tables.tensors[e.dst]? with
  | none => 0
  | some b => ((permuteSenders f e f.coord).map (fun r => payloadCount b.format (permutePairs f e f.coord r).length)).sum

end Sys2Proof.Machine
end

