-- ==== Sys2Proof/Machine/Domains.lean ====
section
/-! DEFINITION. Power domains (R416 to R434): demands and wakes, entries, what blocks them and what a refusal records, the bands'
offers, and what re-initialization clears; UNLOAD_FOLIO, which leaves clusters unowned. -/

namespace Sys2Proof.Machine

open Sys2Proof

/-! ### Numbering (R416) -/

def fportDomain (p : Nat) : Domain := domainN (3 + p)
def pcieDomain (p : Nat) : Domain := domainN (19 + p)
def stackDomain (n : Nat) : Domain := domainN (21 + n)
def quncoreDomain (q : Nat) : Domain := domainN (29 + q)
def bandDomain (b : Nat) : Domain := domainN (33 + b)

/-- The quadrant whose input stage a domain hangs on: bands, the uncore and the quadrant's two stacks (R428). -/
def domainQuad (d : Domain) : Option Nat :=
  if 33 ≤ d.val then some ((d.val - 33) / 10)
  else if 29 ≤ d.val then some (d.val - 29)
  else if 21 ≤ d.val then some ((d.val - 21) / 2)
  else none

/-- The domain that a domain needs (R426). -/
def domainNeeds (d : Domain) : Option Domain :=
  if 33 ≤ d.val then some (quncoreDomain ((d.val - 33) / 10))
  else if 21 ≤ d.val ∧ d.val ≤ 28 then some (quncoreDomain ((d.val - 21) / 2))
  else none

def allDomains : List Domain := (List.range 73).map domainN

/-! ### Policies that wait for their domains (R441) -/

/-- The result of a power policy over its domains (R441). -/
def policyResult (s : State) (ds : List Nat) : Bytes :=
  le 4 ds.length ++ zeros 4 ++ ds.flatMap (fun n =>
    let x := s.power.domains[domainN n]
    le 1 n ++ le 1 x.state.code ++ le 1 x.lastCode.toNat ++ zeros 1 ++ le 2 x.lastUnit.toNat ++ zeros 2)

/-- A domain taken from those that a policy waits for. -/
def Cmd.reached (c : Cmd) (d : Nat) : Cmd :=
  match c.policy with
  | some (ds, ws) => { c with policy := some (ds, ws.filter (fun n => n != d)) }
  | none => c

def MgmtPending.reached (b : MgmtPending) (d : Nat) : MgmtPending :=
  match b with
  | .power h ds ws => .power h ds (ws.filter (fun n => n != d))
  | b => b

/-- Whether a command is a policy that waits for nothing more. -/
def Cmd.policyDone (c : Cmd) : Bool :=
  match c.policy with
  | some (_, ws) => ws.isEmpty
  | none => false

/-- A POWER_POLICY that waits for nothing more is answered. -/
def answerPolicy (s : State) (c : Cmd) : State :=
  match c.policy with
  | none => s
  | some (ds, _) =>
    let cmds := updFirst (fun (x : Cmd) => x.uid == c.uid) (fun x => { x with policy := none }) s.cmds
    giveResult { s with cmds := cmds } c (policyResult s ds)

/-- A SET_POWER that waits for nothing more is answered. -/
def answerSetPower (s : State) : State :=
  match s.mgmt.busy with
  | some (.power h ds ws) =>
    if ws.isEmpty then mgmtRespond { s with mgmt := { s.mgmt with busy := none } } h 0 (policyResult s ds) else s
  | _ => s

/-- A domain of a policy has reached its requested state or met its first refusal; a policy all of whose domains have is answered. -/
def settlePolicy (s : State) (d : Domain) : State :=
  let m := { s.mgmt with busy := s.mgmt.busy.map (fun b => MgmtPending.reached b d.val) }
  let s1 := { s with cmds := s.cmds.map (fun c => Cmd.reached c d.val), mgmt := m }
  answerSetPower ((s1.cmds.filter Cmd.policyDone).foldl answerPolicy s1)

/-! ### Wakes (R420, R425, R426, R428 to R430) -/

/-- Wakes from trickle retention in progress in a quadrant. -/
def trickleWakes (s : State) (q : Nat) : Nat :=
  (allDomains.filter (fun d => domainQuad d == some q && s.power.domains[d].state == .waking && s.power.domains[d].trickle)).length

/-- A wake demand at one domain, what it needs left aside. -/
def demandOne (s : State) (d : Domain) (source : Nat) : State :=
  let x := s.power.domains[d]
  match x.state with
  | .on => s
  | .waking => s
  | .entering =>
    let lost := x.toOff && Config.freeNat s.fresh % 2 == 1
    bump (bump (updDomain { s with fresh := s.fresh + 1 } d (fun x =>
      { x with state := .waking, fromOff := lost, trickle := false, wakeSource := BitVec.ofNat 4 source,
               aborted := satAdd 16 x.aborted 1 })) 0x101 d.val 1) 0x102 d.val 1
  | _ =>
    let cap := x.state == .retention && x.trickle && (match domainQuad d with | some q => decide (4 ≤ trickleWakes s q) | none => false)
    if cap then updDomain s d (fun x => { x with wakeQueued := true, wakeSource := BitVec.ofNat 4 source })
    else
      bump (updDomain s d (fun x =>
        { x with state := .waking, fromOff := x.state == .off, wakeQueued := false, wakeSource := BitVec.ofNat 4 source })) 0x102 d.val 1

/-- A wake demand: the domain that it needs wakes first (R426). -/
def demand (s : State) (d : Domain) (source : Nat) : State :=
  let s1 := match domainNeeds d with
    | some n => if domainOn s d then s else demandOne s n 9
    | none => s
  let s2 := demandOne s1 d source
  -- an access leaves the offers of a band standing (R425)
  if 33 ≤ d.val && !domainOn s d && source != 2 && source != 7 then updDomain s2 d (fun x => { x with offersStand := true }) else s2

/-- An access that needs domains: done when all are on; otherwise each is demanded and the access waits (R425). -/
def needing (s : State) (ds : List Domain) (source : Nat) (waits : State) (act : State → State) : State :=
  if ds.all (domainOn s) then act s else ds.foldl (fun s d => demand s d source) waits

/-! ### The domains of grids and tensors -/

/-- The bands of clusters, as domains. -/
def bandsOf (cs : List Nat) : List Domain := ((cs.map bandOfCluster).dedup).map bandDomain

/-- The stacks that bytes [a, a + n) of HBM lie on (R274). -/
def stacksOf (s : State) (a n : Nat) : List Nat :=
  ((List.range (min (ceilDiv (a % 4096 + n) 4096) 8)).map (fun i =>
    (stackOf (regionOf s (a + i * 4096)).stackLocal (a / 4096 * 4096 + i * 4096)).1)).dedup

/-- The domains that hold a tensor of a folio. -/
def tensorDomains (s : State) (f : Folio) (t : TRef) : List Domain :=
  if t.entry.inHbm then (stacksOf s t.base t.entry.size).map stackDomain
  else bandsOf ((List.range f.tables.grids.length).flatMap (fun g => if gridUses f.tables g t.idx then f.gridClusters g else []))

/-- The domains that hold a tensor by index. -/
def tensorIdxDomains (s : State) (f : Folio) (i : Nat) : List Domain :=
  match f.tensor i with
  | some t => tensorDomains s f t
  | none => []

/-! ### Refusals and entries (R418 to R424, R433) -/

/-- A refused attempt recorded (R424, R434, R443). -/
def refuse (s : State) (d : Domain) (code unit : Nat) : State :=
  settlePolicy (bump (updDomain s d (fun x =>
    { x with refused := satAdd 24 x.refused 1, lastCode := BitVec.ofNat 8 code, lastUnit := BitVec.ofNat 16 unit })) 0x100 d.val 1) d

/-- The first band of a quadrant that a test accepts. -/
def bandWith (s : State) (q : Nat) (test : PdState → Bool) : Option Domain :=
  ((List.range 10).map (fun i => bandDomain (10 * q + i))).find? (fun d => test s.power.domains[d].state)

/-- The first stack of a quadrant that a test accepts. -/
def stackWith (s : State) (q : Nat) (test : PdState → Bool) : Option Nat :=
  [2 * q, 2 * q + 1].find? (fun n => test s.power.domains[stackDomain n].state)

/-- Whether a RUN or STEP of a quadrant is RUNNING. -/
def quadRunning (s : State) (q : Nat) : Bool :=
  match s.seqs[quadN q].owner with
  | none => false
  | some h => match longOf s h with | some o => o.state == .running || o.state == .cancelling | none => false

/-- What blocks the uncore of a quadrant (R421, R433). -/
def quncoreBlock (s : State) (q : Nat) (toOff : Bool) : Option (Nat × Nat) :=
  let awake := fun (x : PdState) => if toOff then x != .off else x == .on || x == .waking || x == .entering
  match bandWith s q awake with
  | some b => some (0x0C, unitDomain b.val)
  | none =>
    match stackWith s q (fun x => if toOff then x != .off else x == .on) with
    | some n => some (0x0D, unitHbm n)
    | none =>
      if quadRunning s q then some (0x0E, unitQuad q 1)
      else if toOff && s.ductus[quadN q].gens.any (fun g => (folioOf s g.folio).isSome) then some (0x0F, unitQuad q 1)
      else none

/-- What blocks an entry of a domain other than a band (R421, R433). -/
def entryBlock (s : State) (d : Domain) (toOff : Bool) : Option (Nat × Nat) :=
  let n := d.val
  if n = 0 then some (0x05, unitDomain 0)
  else if n = 1 then (if s.boot.stage = .ready then some (0x06, unitScribe 0) else none)
  else if n = 2 then (if s.router.coordValid then some (0x07, unitFabric 24) else none)
  else if n < 19 then
    (if s.router.coordValid && s.fabric[fportN (n - 3)].state == .active then some (0x08, unitFabric (n - 3)) else none)
  else if n < 21 then
    (if s.ports[portN (n - 19)].linkUp || allParts.any (fun p => s.parts[p].assigned && s.parts[p].port == portN (n - 19)) then
      some (0x09, unitHost (n - 19)) else none)
  else if n < 29 then
    (if s.lineQueues.any (fun l => l.target == .hbm ⟨(n - 21) % 8, Nat.mod_lt _ (by decide)⟩ && !l.entries.isEmpty) then some (0x0A, unitHbm (n - 21))
     else if toOff && s.regions.toList.any (fun r => r.assigned || r.zeroing) then some (0x0B, unitHbm (n - 21)) else none)
  else if n < 33 then quncoreBlock s (n - 29) toOff
  else none

/-- A domain that is ON begins an entry (R418 to R420). -/
def beginEntry (s : State) (d : Domain) (toOff : Bool) : State :=
  updDomain s d (fun x => { x with state := .entering, toOff := toOff, entryMethod := x.method })

/-- An attempt at a state of a domain other than a band. -/
def attempt (s : State) (d : Domain) (toOff : Bool) : State :=
  if !domainOn s d then s
  else
    match entryBlock s d toOff with
    | some b => refuse s d b.1 b.2
    | none => beginEntry s d toOff

/-! ### Bands (R160, R423, R424) -/

/-- Whether a cluster lies in no grid of any loaded folio. -/
def unowned (s : State) (c : Nat) : Bool :=
  !s.folios.any (fun f => (List.range f.tables.grids.length).any (fun g => (f.gridClusters g).contains c))

/-- The DEPTH of the WAIT that a cluster's scheduled threads have executed. -/
def waitDepth (s : State) (c : Nat) : Nat := match s.waits.find? (fun w => w.cluster == c) with | some w => w.depth | none => 0

/-- Why a cluster's cores do not offer, when they neither offer nor are unowned (R160, R424, R433). -/
def notOffering (s : State) (c : Nat) : Option Nat :=
  if unowned s c then none
  else if waitDepth s c = 0 then some 0x01
  else if s.threads.any (fun t => t.core / 16 == c && t.state != .idle && t.state != .held) then some 0x02
  else if s.trackers.any (fun t => t.cluster == c) || s.threads.any (fun t => t.core / 16 == c && t.wants.isSome) then some 0x03
  else none

/-- The depth that a cluster offers: 1 RETENTION, 2 OFF, 0 stay ON. -/
def offered (s : State) (d : Domain) (c : Nat) : Nat :=
  if unowned s c then (match s.power.domains[d].idleDepth.toNat with | 0 => 2 | 1 => 1 | _ => 0) else waitDepth s c

/-- An attempt of a band (R424). -/
def attemptBand (s0 : State) (b : Nat) : State :=
  let d := bandDomain b
  if !domainOn s0 d then s0
  else
    let s := updSeq s0 (quadN (b / 10)) (fun q => { q with attempted := if q.attempted.contains b then q.attempted else b :: q.attempted })
    let cs := bandClusters b
    match cs.findSome? (fun c => (notOffering s c).map (fun k => (k, c))) with
    | some (k, c) => refuse s d k c
    | none =>
      if s.power.domains[d].request = 1 then refuse s d 0x05 (unitDomain d.val)
      else
        let depths := cs.map (offered s d)
        if depths.any (fun x => x == 0) then s else beginEntry s d (depths.all (fun x => x == 2))

/-- Whether the last core of a band has begun to offer, or every core that is owned has executed a WAIT: an attempt is made then. -/
def attemptIfDue (s : State) (b : Nat) : State :=
  if (bandClusters b).all (fun c => unowned s c || decide (0 < waitDepth s c)) then attemptBand s b else s

/-- The bands of clusters whose offers may have been re-made attempt their entry (R424). -/
def reoffer (s : State) (cs : List Nat) : State :=
  ((cs.map bandOfCluster).dedup).foldl (fun s b =>
    if (bandClusters b).all (fun c => (notOffering s c).isNone) && (bandClusters b).any (fun c => decide (0 < waitDepth s c)) then
      attemptBand s b else s) s

/-- The WAIT of clusters ends (R160, R425). -/
def endWait (s : State) (cs : List Nat) : State := { s with waits := s.waits.filter (fun w => !cs.contains w.cluster) }

/-! ### Re-initialization (R421) -/

/-- SRAM tensors of loaded folios that lie, in part or whole, in clusters: their placement is not exposed, so each is undefined as a
whole (log entry 18). -/
def sramTensors (s : State) (cs : List Nat) : List (Nat × Nat) :=
  s.folios.flatMap (fun f => (List.range f.tables.tensors.length).filterMap (fun i =>
    match f.tensor i with
    | none => none
    | some t =>
      if !t.entry.inHbm && (List.range f.tables.grids.length).any (fun g =>
          gridUses f.tables g i && (f.gridClusters g).any cs.contains) then some (t.base, t.base + t.entry.size)
      else none))

/-- Every SRAM and token counter of a band zeroed. -/
def wipeBand (s : State) (b : Nat) : State :=
  let cs := bandClusters b
  let s1 := (sramTensors s cs).foldl (fun s r => undefineRange s r.1 r.2) s
  let s2 := updMem s1 (fun m => cs.foldl (fun m c =>
    (m.zero (clusterBase + c * clusterBytes) (clusterBase + (c + 1) * clusterBytes)).zero (coreBase + c * 16 * coreBytes)
      (coreBase + (c + 1) * 16 * coreBytes)) m)
  { s2 with tokens := s2.tokens.filter (fun t => !cs.contains t.1.1),
            threads := s2.threads.filter (fun t => !cs.contains (t.core / 16)),
            trackers := s2.trackers.filter (fun t => !cs.contains t.cluster),
            reservoirs := s2.reservoirs.filter (fun r => !cs.contains (r.1 / 16)) }

/-- The bytes of a stack zeroed. -/
def wipeStack (s : State) (n : Nat) : State :=
  updMem s (fun m =>
    { m with cells := m.cells.filter (fun c => !(isHbm c.1 && (stackOf (regionOf s c.1).stackLocal c.1).1 == n)),
             poison := m.poison.filter (fun l => !(isHbm (l * 64) && (stackOf (regionOf s (l * 64)).stackLocal (l * 64)).1 == n)) })

/-- What re-initialization from OFF clears in a domain (R421). -/
def reinit (s : State) (d : Domain) : State :=
  let n := d.val
  if n = 2 then { s with router := { Router.reset with localQ := [] } }
  else if 3 ≤ n ∧ n < 19 then updFabric s (fportN (n - 3)) FabricPort.shut
  else if 21 ≤ n ∧ n < 29 then wipeStack s (n - 21)
  else if 29 ≤ n ∧ n < 33 then updDuctus s (quadN (n - 29)) (fun _ => Ductus.reset)
  else if 33 ≤ n then wipeBand s (n - 33)
  else s

/-- The bands whose cores begin to offer because none of them is owned attempt their entry (R424). -/
def offerUnowned (s : State) (bs : List Nat) : State :=
  bs.foldl (fun s b => if (bandClusters b).all (unowned s) then attemptBand s b else s) s

/-! ### UNLOAD_FOLIO -/

/-- The bands that hold a folio's grids. -/
def folioBands (f : Folio) : List Nat := (((List.range f.tables.grids.length).flatMap f.gridClusters).map bandOfCluster).dedup

/-- UNLOAD_FOLIO (R68, R226, R266, R424). -/
def execUnloadFolio (p : Part) (q : Fin 16) (s : State) : Host.Outcome State Fault Refusal :=
  .next (match startable s p q 0x21 with
    | none => s
    | some c =>
      let s1 := begun s c.uid
      match folioRef s p (descHandle c.desc 8) with
      | .bad st => finish s1 c.uid st 0 0 0
      | .ok f =>
        let busy := s.longs.any (fun o => !o.state.isOver &&
          (match o.body with
            | .run r => r.folio == f.handle
            | .load _ => false
            | .copy k => k.folio == f.handle
            | .ckpt k => k.folio == f.handle
            | .reshard r => r.folioA == f.handle || r.folioB == f.handle))
        let paired := s.pairings.any (fun x => x.a == f.handle || x.b == f.handle) || s.pairWaits.any (fun w => w.folio == f.handle)
        if busy || paired || s.copies.any (fun k => k.folio == f.handle) then finish s1 c.uid 0x12 0 0 0
        else
          let s2 := offerUnowned (dropFolio s1 f.handle) (folioBands f)
          finish (note s2 0x12 (unitScribe 0) 0 0 f.handle.toNat 0) c.uid 0 0 0 0)

end Sys2Proof.Machine
end

