-- ==== Sys2Proof/Machine/Exchanges.lean ====
section
/-! DEFINITION. Exchanges of a step (R55, R56, R125, R167 to R170, R209 to R213, R377, R378): opening, ready markers, what is sent
to a receiver, arrivals and their counts; EXCH_DATA, END_MARKER, READY_MARKER, PAIRED_SEND and PAIRED_RECV. -/

namespace Sys2Proof.Machine

open Sys2Proof

/-! ### The exchange table -/

/-- STEP of form E: bits [15:0] of the job step number (R318). -/
def Folio.step16 (f : Folio) : Nat := f.jobStep % 2 ^ 16

/-- An exchange of a step that has neither opened nor received anything. -/
def freshExch (h : Handle) (x step : Nat) : ExchRun :=
  { run := h, exch := x, step := step, rxOpen := false, txOpen := false, marks := [], served := [], drained := false, count := 0,
    units := [], packets := [], ends := [], gathers := [] }

/-- The exchange of a step in a run's table. -/
def Run.exchRun (r : Run) (h : Handle) (x step : Nat) : ExchRun :=
  (r.exchs.find? (fun e => e.exch == x && e.step == step)).getD (freshExch h x step)

/-- The exchange of a step changed; it enters the table when it is not there. -/
def updExch (s : State) (h : Handle) (x step : Nat) (f : ExchRun → ExchRun) : State :=
  updRun s h (fun r =>
    let e := f (r.exchRun h x step)
    { r with exchs := e :: r.exchs.filter (fun y => !(y.exch == x && y.step == step)) })

/-- An element of an IN_PLACE_ADD source travels as FP32 when its stored bytes alone do not give its value at the receiver: MX
formats and SCALE_MODE 1 (log entry 15). -/
def addsWide (e : ExchEntry) (t : TensorEntry) : Bool := bit e.flags 0 && t.format != .dfp32 && (t.format.isMx || t.scaleMode == 1)

/-- The arrival units of an exchange at this device: EXPECTED, or what the finalizer computes for PERMUTE (R56). -/
def exchExpected (f : Folio) (e : ExchEntry) : Nat := if e.kind = 6 then permuteUnits f e else e.expected

/-! ### Senders and receivers (R169) -/

/-- The devices along a ROUTING entry's cut, from the position after this one around to its own (R210). -/
def aroundCut (t : Tables) (cut : Nat) (c : Nat × Nat × Nat) : List Nat :=
  let n := max (t.cutSize cut) 1
  (List.range n).map (fun i => t.rankAtPos cut c ((t.posOn cut c + 1 + i) % n))

/-- The ranks that send to this device in an exchange, each of which gets a ready marker (R169). A GATHER is asked for by
GATHER_REQ, and its marker goes to the device itself; BUCKET and PAIRED use none. -/
def exchSenders (f : Folio) (e : ExchEntry) : List Nat :=
  match e.kind with
  | 0 => [rankOf f.box (f.tables.pointPeer e f.coord true)]
  | 1 => match f.tables.routing[e.ref]? with | some r => aroundCut f.tables r.cut f.coord | none => []
  | 2 => match f.tables.routing[e.ref]? with | some r => aroundCut f.tables r.cut f.coord | none => []
  | 4 => [f.rank]
  | 6 => permuteSenders f e f.coord
  | _ => []

/-- The ranks that this device sends to in an exchange. -/
def exchReceivers (f : Folio) (e : ExchEntry) : List Nat :=
  match e.kind with
  | 0 => [rankOf f.box (f.tables.pointPeer e f.coord false)]
  | 1 => match f.tables.routing[e.ref]? with | some r => aroundCut f.tables r.cut f.coord | none => []
  | 2 => match f.tables.routing[e.ref]? with | some r => aroundCut f.tables r.cut f.coord | none => []
  | 6 => permuteReceivers f e
  | _ => []

/-- One ready marker to each sender (R169). -/
def sendMarkers (s : State) (p : Part) (f : Folio) (x : Nat) (e : ExchEntry) : State :=
  (exchSenders f e).foldl (fun s r =>
    sendToRank s p f.rank r
      (mkPacket 1 2 (((exchSrcQuads f e).headD 0).val) 0 0 (partStamp s p) 0 (bodyE x f.step16 0) [])) s

/-! ### What is sent to a receiver -/

/-- Payloads of a run of bytes as EXCH_DATA, numbered from 0 (R56, R317). -/
def dataPackets (stamp : Stamp) (unit x step : Nat) (b : Bytes) : List Packet :=
  (chunks 512 b).zipIdx.map (fun c => mkPacket 0 4 unit 0 0 stamp 0 (bodyE x step c.2) c.1)

/-- The bytes of a POINT exchange (R125, R168, R525). -/
def pointBytes (m : Memory) (f : Folio) (e : ExchEntry) (t : TRef) : Bytes :=
  if addsWide e t.entry then
    ((List.range e.elements).map (fun i => le 4 (fp32Bits (valueFp32 m f t .nearest (e.srcOff + i))).toNat)).flatten
  else wireBytes m t e.srcOff e.elements

/-- The packets of a ROUTED or ROUTED_REVERSE exchange to one rank, end marker last (R209, R210, R213). -/
def routedPackets (s : State) (f : Folio) (stamp : Stamp) (x : Nat) (e : ExchEntry) (r : RoutingEntry) (rank : Nat) :
    Option (List Packet) :=
  let t := f.tables
  let dir := e.dir r
  let batch := t.exchBatch x
  let pos := t.posOn r.cut (coordOfRank f.box rank)
  let finish := fun (unit gen : Nat) (rows : List (Tag × Bytes)) (ps : List Packet) =>
    ps ++ [mkPacket 0 6 unit 0 0 stamp 0 (bodyE x f.step16 0) (endPayload ps.length rows.length e.ref dir gen)]
  if dir % 2 = 0 then
    let q := f.gridQuad r.sourceGrid
    match batch.bind (batchGen s.ductus[q] f.handle e.ref) with
    | none => some (finish (f.gridQuad r.expertGrid).val 0 [] [])
    | some g =>
      let toks := (g.sendList.filter (fun y => y.1 == pos)).map (fun y => y.2 / max r.k 1)
      if rowsPoisoned s.mem f r dir toks then none
      else
        let rows := dispatchRows s.mem f q r g dir pos
        some (finish (f.gridQuad r.expertGrid).val g.gen.toNat rows
          (rowPackets stamp (fun _ => (f.gridQuad r.expertGrid).val) rows))
  else
    let q := f.gridQuad r.expertGrid
    match s.ductus[q].tables.find? (fun y => y.folio == f.handle && y.routing == e.ref && some y.batch == batch) with
    | none => some (finish (f.gridQuad r.sourceGrid).val 0 [] [])
    | some y =>
      let mine := (y.occupied.filter (fun o => (tagOf o.2).srcRank == rank)).map (fun o => o.1)
      if rowsPoisoned s.mem f r dir mine then none
      else
        let rows := returnRows s.mem f r y dir rank
        let gen := match y.bound.find? (fun b => b.1 == pos) with | some b => b.2.2.2 | none => 0
        some (finish (f.gridQuad r.sourceGrid).val gen rows (rowPackets stamp (fun t => t.srcQuad) rows))

/-- What this device sends to a rank in an exchange; none when a source line is poisoned (R477). -/
def servePackets (s : State) (f : Folio) (stamp : Stamp) (x : Nat) (e : ExchEntry) (rank : Nat) : Option (List Packet) :=
  match e.kind with
  | 0 =>
    match f.tensor e.src with
    | none => some []
    | some t =>
      if wirePoisoned s.mem t e.srcOff e.elements then none
      else some (dataPackets stamp (exchDstUnit f e) x f.step16 (pointBytes s.mem f e t))
  | 1 => match f.tables.routing[e.ref]? with | some r => routedPackets s f stamp x e r rank | none => some []
  | 2 => match f.tables.routing[e.ref]? with | some r => routedPackets s f stamp x e r rank | none => some []
  | 6 =>
    match f.tensor e.src with
    | none => some []
    | some t =>
      let idxs := (permutePairs f e (coordOfRank f.box rank) f.rank).map (fun y => y.2)
      if idxs.any (fun i => wirePoisoned s.mem t i 1) then none
      else some (dataPackets stamp (exchDstUnit f e) x f.step16 (pickBytes s.mem t idxs))
  | _ => some []

/-- The first poisoned line of an exchange's source tensor. -/
def sourcePoison (s : State) (f : Folio) (e : ExchEntry) : Nat :=
  match f.tensor e.src with
  | some t => poisonAt s.mem t.base t.entry.size
  | none => 0

/-- The exchange sent to one receiver whose ready marker has arrived; its source is drained when every receiver has been served
(R167, R169). -/
def serveOne (s : State) (p : Part) (h : Handle) (f : Folio) (x : Nat) (e : ExchEntry) (rank : Nat) : State :=
  let stamp := partStamp s p
  match servePackets s f stamp x e rank with
  | none => failJob s stamp 0x110 (exchUnit f e) x (sourcePoison s f e) 1
  | some ps =>
    let s0 := (tensorIdxDomains s f e.src).foldl (fun s d => demand s d 4) s
    let s1 := ps.foldl (fun s k => sendToRank s p f.rank rank k) s0
    updExch s1 h x f.step16 (fun y =>
      { y with served := rank :: y.served,
               drained := (exchReceivers f e).all (fun r => r == rank || y.served.contains r) })

/-- Every receiver that is ready and not yet served, in sending order. A job in a local stop sends nothing (R480). -/
def serveReady (s : State) (h : Handle) (x : Nat) : State :=
  match runOf s h with
  | none => s
  | some (o, r) =>
    match folioOf s r.folio with
    | none => s
    | some f =>
      match f.tables.exchs[x]? with
      | none => s
      | some e =>
        let y := r.exchRun h x f.step16
        if !y.txOpen || partStopped s o.part then s
        else ((exchReceivers f e).filter (fun k => y.marks.contains k && !y.served.contains k)).foldl
          (fun s k => serveOne s o.part h f x e k) s

/-! ### Opening (R168, R169, R220, R527) -/

/-- Whether every quadrant of a list has opened stroke number n of the RUN. -/
def allOpened (s : State) (h : Handle) (qs : List Quad) (n : Nat) : Bool :=
  qs.all (fun q => s.seqs[q].owner == some h && decide (n ≤ s.seqs[q].opened))

/-- A receive table taken for the batch of a forward dispatch (R527). -/
def takeTable (s : State) (p : Part) (f : Folio) (x : Nat) (e : ExchEntry) : State :=
  match f.tables.routing[e.ref]?, f.tables.exchBatch x with
  | some r, some b =>
    if e.kind = 1 ∧ e.dir r = 0 then
      updDuctus s (f.gridQuad r.expertGrid) (fun d =>
        { d with tables := d.tables ++ [{ folio := f.handle, routing := e.ref, stamp := partStamp s p, batch := b, exch := x,
                                          bound := [], occupied := [], parts := [], final := false }] })
    else s
  | _, _ => s

/-- The state of the sending batch at the opening of a dispatch's issuing stroke (R220). -/
def dispatchOpens (s : State) (f : Folio) (x : Nat) (e : ExchEntry) : State :=
  match f.tables.routing[e.ref]?, f.tables.exchBatch x with
  | some r, some b =>
    if e.kind = 1 then
      match batchGen s.ductus[f.gridQuad r.sourceGrid] f.handle e.ref b with
      | none => s
      | some g => updGen s (f.gridQuad r.sourceGrid) g.gen (fun g =>
          { g with state := if e.dir r = 0 then .dispatching else .backDispatching })
    else s
  | _, _ => s

/-- An exchange that a stroke issues opens at this device as receiver and as sender, as far as its quadrants have opened the
stroke; `n` is the number of that stroke in the RUN. -/
def openExch (s : State) (p : Part) (h : Handle) (f : Folio) (n x : Nat) : State :=
  match f.tables.exchs[x]?, runOf s h with
  | some e, some (_, r) =>
    let y := r.exchRun h x f.step16
    let s1 :=
      if !y.rxOpen && allOpened s h (exchDstQuads f e) n && e.kind != 3 then
        sendMarkers (takeTable (updExch s h x f.step16 (fun y => { y with rxOpen := true })) p f x e) p f x e
      else s
    if !y.txOpen && allOpened s1 h (exchSrcQuads f e ++ tensorQuads f e.src) n then
      serveReady (dispatchOpens (updExch s1 h x f.step16 (fun y =>
        { y with txOpen := true, drained := y.drained || ((exchReceivers f e).isEmpty && e.kind == 6) })) f x e) h x
    else s1
  | _, _ => s

/-! ### Arrivals (R170, R186) -/

/-- The waiting packet at a place, when it has a class and opcode, and the state without it. -/
def takeInbox (s : State) (i cls op : Nat) : Option (Packet × State) :=
  match s.inbox[i]? with
  | none => none
  | some k => if s.live && k.isOp cls op then some (k, { s with inbox := removeAt s.inbox i }) else none

/-- The run that a quadrant's or the carve-out's deliveries belong to: the occupant of the quadrant, or the live run whose
partition's carve-out holds the stamp (R185, R186). -/
def runAt (s : State) (k : Packet) : Option (LongOp × Run × Folio) :=
  if k.stamp = 0 then none
  else if k.dstUnit.toNat < 4 then
    let q := quadN k.dstUnit.toNat
    if quadStamp s q = k.stamp then (liveRuns s).find? (fun x => s.seqs[q].owner == some x.1.handle) else none
  else (runOfStamp s k.stamp).filter (fun x => carveStampOf s x.1.part == k.stamp)

/-- The unit identifier of a packet's destination unit (R20). -/
def packetUnit (k : Packet) : Nat := if k.dstUnit.toNat < 4 then unitQuad k.dstUnit.toNat 1 else unitHbm 0

/-- The logical rank of a packet's source within its job. -/
def senderRank (s : State) (p : Part) (own : Nat) (k : Packet) : Option Nat :=
  if k.src = s.router.myCoord then some own else rankOfCoord s.router p k.src

/-- A unit beyond EXPECTED, or for an exchange that is not open at this device: discarded, and the job fails (R170). -/
def overcount (s : State) (stamp : Stamp) (unit x : Nat) : State := failJob s stamp 0x101 unit x 0 0

/-- One unit counted (R170). -/
def countUnit (s : State) (h : Handle) (x step : Nat) : State := updExch s h x step (fun y => { y with count := y.count + 1 })

/-- A value added into an element of an IN_PLACE_ADD destination (R125). -/
def addInto (m : Memory) (t : TRef) (n : Nat) (v : XVal) : Memory :=
  let w := rawElem m t.base t.entry.format n
  if t.entry.format = .dfp32 then
    writeElem m t.base .dfp32 n (dfpBits (spillInto (some (decodeFloat .fp32 (w % 2 ^ 32), decodeFloat .fp32 (w / 2 ^ 32))) v))
  else writeElem m t.base .fp32 n (fp32Bits (fadd (decodeFloat .fp32 w) v)).toNat

/-- The values that element bytes of an IN_PLACE_ADD source carry: one, or the pair of a double-FP32 element (R125). -/
def addValues (e : ExchEntry) (t : TensorEntry) (w : Nat) : List XVal :=
  if t.format = .dfp32 then [decodeFloat .fp32 (w % 2 ^ 32), decodeFloat .fp32 (w / 2 ^ 32)]
  else if addsWide e t then [decodeFloat .fp32 w]
  else [toFp32 t.format (t.scaleMode != 0) .nearest (XVal.mul (decodeElem t.format w) (descaleWith t 0))]

/-- The bits of one element of an IN_PLACE_ADD source on its way. -/
def addBits (e : ExchEntry) (t : TensorEntry) : Nat := if addsWide e t then 32 else t.format.bits

/-- A payload of an IN_PLACE_ADD exchange added at its place (R125). -/
def addPayload (m : Memory) (e : ExchEntry) (src : TensorEntry) (dst : TRef) (unit : Nat) (b : Bytes) : Memory :=
  let w := addBits e src
  let first := unit * 512 * 8 / w
  let n := min (b.length * 8 / w) (e.elements - first)
  (List.range n).foldl (fun m i =>
    let raw := if w = 4 then bits (u8 b (i / 2)) (if i % 2 = 0 then 3 else 7) (if i % 2 = 0 then 0 else 4) else uN b (i * (w / 8)) (w / 8)
    (addValues e src raw).foldl (fun m v => addInto m dst (e.dstOff + first + i) v) m) m

/-- The number of bytes that a POINT exchange moves. -/
def pointSize (e : ExchEntry) (t : TensorEntry) : Nat :=
  if addsWide e t then 4 * e.elements else wireSize t.format e.elements

/-- Memory after a payload of a POINT or PERMUTE exchange from a rank has been written; none when the payload is not one of the
exchange's. -/
def arrived (m : Memory) (f : Folio) (e : ExchEntry) (rank unit : Nat) (b : Bytes) : Option Memory :=
  match f.tables.tensors[e.src]?, f.tensor e.dst with
  | some a, some d =>
    match e.kind with
    | 0 =>
      let size := pointSize e a
      if b.isEmpty || b.length != min 512 (size - unit * 512) then none
      else if bit e.flags 0 then some (addPayload m e a d unit b)
      else some (wireStore m d e.dstOff e.elements (unit * 512) b)
    | 6 =>
      let idxs := (permutePairs f e f.coord rank).map (fun y => y.1)
      if b.isEmpty || b.length != min 512 (wireSize d.entry.format idxs.length - unit * 512) then none
      else some (pickStore m d idxs (unit * 512) b)
    | _ => none
  | _, _ => none

/-- Whether the quadrants of a RESHARD's partition carry a RESHARD in progress for a stamp (R364). -/
def reshardOf (s : State) (stamp : Stamp) : Option (LongOp × ReshardOp) :=
  s.longs.findSome? (fun o =>
    match o.body with
    | .reshard r => if o.state == .running && partStamp s o.part == stamp && stamp != 0 then some (o, r) else none
    | _ => none)

/-- Whether every packet that a RESHARD sent has been acknowledged, and it has sent to every device that asked (R364). -/
def reshardAcked (s : State) (stamp : Stamp) : Bool :=
  !(s.router.injectQ.any (fun k => k.stamp == stamp && k.isOp 0 4)) &&
    !(s.router.sends.any (fun f => f.unacked.any (fun k => k.stamp == stamp && k.isOp 0 4)))

/-- The element bytes of B's tensor that come from a rank (R364). -/
def reshardPairs (a b : Folio) (t : Nat) (d : Nat × Nat × Nat) (rank : Nat) : Option (Nat × List (Nat × Nat)) :=
  match b.tables.tensors[t]? with
  | none => none
  | some y =>
    match indexOf? (fun (x : TensorEntry) => x.tag == y.tag) a.tables.tensors with
    | none => none
    | some i =>
      match a.tables.tensors[i]? with
      | none => none
      | some x => some (i, sharePairs a.box (a.tables.cut? x.shardCut) (b.tables.cut? y.shardCut) x y d rank)

/-- A RESHARD that has received everything and whose payloads are acknowledged ends with OK: B carries the job from then on
(R364). -/
def settleReshard (s : State) (h : Handle) : State :=
  match longOf s h with
  | none => s
  | some o =>
    match o.body with
    | .reshard r =>
      if o.state == .running && r.missing.isEmpty && r.toSend.isEmpty && reshardAcked s (partStamp s o.part) then
        let step := match folioOf s r.folioA with | some f => f.jobStep | none => 0
        let s1 := updFolio s r.folioA (fun f => { f with retired := true })
        let s2 := updFolio s1 r.folioB (fun f =>
          { f with jobStep := step, applied := f.tables.buckets.map (fun b => (b.tag, step)) })
        let cs := match folioOf s r.folioB with
          | some f => (List.range f.tables.grids.length).flatMap f.gridClusters
          | none => []
        endLong { s2 with tokens := s2.tokens.filter (fun t => !cs.contains t.1.1) } h .done 0 0 0 0
      else s
    | _ => s

/-- A payload of a RESHARD written and counted (R364). -/
def reshardArrive (s : State) (o : LongOp) (r : ReshardOp) (k : Packet) : State :=
  match folioOf s r.folioA, folioOf s r.folioB with
  | some a, some b =>
    match senderRank s o.part b.rank k with
    | none => overcount s k.stamp (unitHbm 0) k.exch
    | some rank =>
      match reshardPairs a b k.exch b.coord rank, b.tensor k.exch with
      | some (_, ps), some t =>
        if !r.missing.contains (rank, k.exch, k.unit) then overcount s k.stamp (unitHbm 0) k.exch
        else
          let s1 := { s with mem := pickStore s.mem t (ps.map (fun y => y.1)) (k.unit * 512) k.payload }
          let r2 := { r with missing := r.missing.filter (fun y => y != (rank, k.exch, k.unit)) }
          settleReshard (updLong s1 o.handle (fun o => { o with body := .reshard r2 })) o.handle
      | _, _ => overcount s k.stamp (unitHbm 0) k.exch
  | _, _ => s

/-- Exchange data at its receiver: written at its destination and counted (R170, R186). -/
def exchArrive (s : State) (k : Packet) : State :=
  match reshardOf s k.stamp with
  | some (o, r) => reshardArrive s o r k
  | none =>
    match runAt s k with
    | none => staleDrop s (packetUnit k) k.stamp
    | some (o, r, f) =>
      match f.tables.exchs[k.exch]? with
      | none => overcount s k.stamp (packetUnit k) k.exch
      | some e =>
        let y := r.exchRun o.handle k.exch f.step16
        if !y.rxOpen || k.step != f.step16 || decide (exchExpected f e ≤ y.count) then overcount s k.stamp (exchUnit f e) k.exch
        else
          match arrived s.mem f e ((senderRank s o.part f.rank k).getD f.rank) k.unit k.payload with
          | none => overcount s k.stamp (exchUnit f e) k.exch
          | some m => countUnit { s with mem := m } o.handle k.exch f.step16

/-- The domains that hold the destination of exchange data. -/
def arrivalDomains (s : State) (k : Packet) : List Domain :=
  match runAt s k with
  | none => []
  | some (_, _, f) =>
    match f.tables.exchs[k.exch]? with
    | none => []
    | some e => tensorIdxDomains s f e.dst

/-- EXCH_DATA (R56, R125, R149, R170, R186, R187, R364, R425): data for a resting domain waits for its wake. -/
def execExchData (i : Nat) (s : State) : Host.Outcome State Fault Refusal :=
  .next (match takeInbox s i 0 4 with
    | none => s
    | some (k, s1) => needing s (arrivalDomains s k) 4 s (fun _ => exchArrive s1 k))

/-! ### END_MARKER (R170, R209, R527) -/

/-- A number in a tally raised. -/
def raise (l : List (Nat × Nat)) (key : Nat) : List (Nat × Nat) :=
  if l.any (fun e => e.1 == key) then l.map (fun e => if e.1 == key then (e.1, e.2 + 1) else e) else l ++ [(key, 1)]

/-- A number in a tally. -/
def tallied (l : List (Nat × Nat)) (key : Nat) : Nat := match l.find? (fun e => e.1 == key) with | some e => e.2 | none => 0

/-- A sender's unit is counted once its end marker and that many packets have been written (R170). -/
def settleSender (s : State) (h : Handle) (f : Folio) (stamp : Stamp) (x : Nat) (e : ExchEntry) (rank : Nat) : State :=
  match runOf s h with
  | none => s
  | some (_, r) =>
    let y := r.exchRun h x f.step16
    match y.ends.find? (fun k => k.1 == rank) with
    | none => s
    | some k =>
      if tallied y.packets rank = k.2 then
        if exchExpected f e ≤ y.count then overcount s stamp (exchUnit f e) x else countUnit s h x f.step16
      else s

/-- A receive table bound, for a sending position, to the sender's rank, quadrant and generation (R527). -/
def bindTable (t : RecvTable) (pos rank quad gen : Nat) : RecvTable :=
  if t.bound.any (fun b => b.1 == pos) then t else { t with bound := t.bound ++ [(pos, rank, quad, gen)] }

/-- Whether an end marker of a return names a generation that is DEAD or FREE at this engine. -/
def endIsStale (s : State) (f : Folio) (r : RoutingEntry) (dir gen : Nat) : Bool :=
  dir % 2 == 1 && !s.ductus[f.gridQuad r.sourceGrid].gens.any (fun g => g.gen.toNat == gen && g.state.isLive)

/-- An end marker at its receiver. -/
def endArrive (s : State) (k : Packet) : State :=
  match runAt s k with
  | none => staleDrop s (packetUnit k) k.stamp
  | some (o, r, f) =>
    match f.tables.exchs[k.exch]? with
    | none => overcount s k.stamp (packetUnit k) k.exch
    | some e =>
      match f.tables.routing[e.ref]?, senderRank s o.part f.rank k with
      | some re, some rank =>
        let y := r.exchRun o.handle k.exch f.step16
        let gen := u8 k.payload 11
        if endIsStale s f re (e.dir re) gen then s
        else if !y.rxOpen || k.step != f.step16 || !(e.kind == 1 || e.kind == 2) || y.ends.any (fun z => z.1 == rank) then
          overcount s k.stamp (exchUnit f e) k.exch
        else
          let s1 := updExch s o.handle k.exch f.step16 (fun y => { y with ends := y.ends ++ [(rank, u32 k.payload 0)] })
          let pos := f.tables.posOn re.cut (coordOfRank f.box rank)
          let s2 := if e.dir re = 0 then
              updDuctus s1 (f.gridQuad re.expertGrid) (fun d =>
                { d with tables := d.tables.map (fun t =>
                    if t.folio == f.handle && t.exch == k.exch then bindTable t pos rank (f.gridQuad re.sourceGrid).val gen else t) })
            else s1
          settleSender s2 o.handle f k.stamp k.exch e rank
      | _, _ => overcount s k.stamp (exchUnit f e) k.exch

/-- END_MARKER (R56, R170, R186, R209, R527). -/
def execEndMarker (i : Nat) (s : State) : Host.Outcome State Fault Refusal :=
  .next (match takeInbox s i 0 6 with
    | none => s
    | some (k, s1) => endArrive s1 k)

/-! ### READY_MARKER (R169) -/

/-- The RUN or STEP whose exchange-table entries hold a stamp: from QUEUED to its end, the one that occupies quadrants first
(R185). -/
def tableRun (s : State) (stamp : Stamp) : Option (LongOp × Run × Folio) :=
  match runOfStamp s stamp with
  | some x => some x
  | none =>
    if stamp = 0 then none
    else
      s.longs.findSome? (fun o =>
        match o.body with
        | .run r => if !o.state.isOver && !r.cancelStop && partStamp s o.part == stamp then (folioOf s r.folio).map (fun f => (o, r, f))
                    else none
        | _ => none)

/-- The bytes that a RESHARD sends to a device that is ready (R364). -/
def reshardSend (s : State) (o : LongOp) (r : ReshardOp) (rank : Nat) : State :=
  match folioOf s r.folioA, folioOf s r.folioB with
  | some a, some b =>
    let stamp := partStamp s o.part
    let s1 := (List.range b.tables.tensors.length).foldl (fun s t =>
      match reshardPairs a b t (coordOfRank b.box rank) b.rank with
      | none => s
      | some (i, ps) =>
        if !a.carried.contains i then s
        else
          match a.tensor i with
          | none => s
          | some x =>
            (dataPackets stamp 5 t a.step16 (pickBytes s.mem x (ps.map (fun y => y.2)))).foldl
              (fun s k => sendToRank s o.part b.rank rank k) s) s
    let r2 := { r with toSend := r.toSend.filter (fun y => y != rank) }
    settleReshard (updLong s1 o.handle (fun o => { o with body := .reshard r2 })) o.handle
  | _, _ => s

/-- A ready marker at the sender: it allows transmission to that receiver (R169, R186). -/
def markArrive (s : State) (k : Packet) : State :=
  match reshardOf s k.stamp with
  | some (o, r) =>
    match (folioOf s r.folioB).bind (fun b => senderRank s o.part b.rank k) with
    | some rank => if r.toSend.contains rank then reshardSend s o r rank else s
    | none => s
  | none =>
    match tableRun s k.stamp with
    | none => staleDrop s (packetUnit k) k.stamp
    | some (o, _, f) =>
      match senderRank s o.part f.rank k with
      | none => s
      | some rank =>
        serveReady (updExch s o.handle k.exch k.step (fun y =>
          { y with marks := if y.marks.contains rank then y.marks else rank :: y.marks })) o.handle k.exch

/-- READY_MARKER (R169, R186, R210, R213, R364). -/
def execReadyMarker (i : Nat) (s : State) : Host.Outcome State Fault Refusal :=
  .next (match takeInbox s i 1 2 with
    | none => s
    | some (k, s1) => markArrive s1 k)

/-! ### Paired streams (R377, R378) -/

/-- The PAIRED exchange that carries an operation's tensor: the source of a PAIRED_SEND, the destination of a PAIRED_RECV, issued in
the operation's stroke. -/
def pairedExch (t : Tables) (o : OpEntry) (send : Bool) : Option Nat :=
  (t.exchsOf o.stroke).find? (fun x =>
    match t.exchs[x]? with
    | some e => e.kind == 5 && (if send then e.src == o.inputs.getD 0 noneIdx else e.dst == o.outputs.getD 0 noneIdx)
    | none => false)

/-- A stream changed by its identity in the pairing. -/
def updStream (s : State) (a b : Handle) (id : Nat) (f : PairStream → PairStream) : State :=
  { s with pairings := s.pairings.map (fun p =>
      if p.a == a && p.b == b then { p with streams := p.streams.map (fun x => if x.id == id then f x else x) } else p) }

/-- The stream of a folio's exchange, with its pairing. -/
def streamOf (s : State) (h : Handle) (x : Nat) (send : Bool) : Option (Pairing × PairStream) :=
  s.pairings.findSome? (fun p =>
    (p.streams.find? (fun y => if send then y.sender == h && y.sendExch == x else y.receiver == h && y.recvExch == x)).map
      (fun y => (p, y)))

/-- A publication: its bytes in slot n mod 2 (R378). -/
def publish (y : PairStream) (b : Bytes) : PairStream :=
  { y with slots := (y.published % 2, b) :: y.slots.filter (fun z => z.1 != y.published % 2), published := y.published + 1 }

/-- The publication of a PAIRED_SEND, once issue n − 2 has been consumed. -/
def pairedSend (s : State) (e : OpEnv) : State :=
  match pairedExch e.folio.tables e.op true, opIn e.folio e.op 0 with
  | some x, some t =>
    match streamOf s e.folio.handle x true with
    | none => s
    | some (p, y) =>
      if y.published < y.consumed + 2 then
        if tensorPoisoned s.mem t then failJob s (partStamp s e.folio.part) 0x110 (unitQuad e.quad.val 4) x (poisonAt s.mem t.base t.entry.size) 5
        else
          let s1 := updStream s p.a p.b y.id (fun y => publish y (s.mem.readBytes t.base t.entry.size))
          opDone (updExch s1 e.handle x e.folio.step16 (fun z => { z with drained := true })) e
      else s
  | _, _ => s

/-- PAIRED_SEND (R378): it may also run while the quadrant waits to close. -/
def execPairedSend (h : Handle) (i : Nat) (s : State) : Host.Outcome State Fault Refusal :=
  .next (match runEnv s h i 0x0506 [.compute, .closing] with
    | none => s
    | some e => pairedSend s e)

/-- The receipt of a completed publication: its units arrive (R170, R378). -/
def pairedRecv (s : State) (e : OpEnv) : State :=
  match pairedExch e.folio.tables e.op false, opOutT e.folio e.op 0 with
  | some x, some t =>
    match streamOf s e.folio.handle x false, e.folio.tables.exchs[x]? with
    | some (p, y), some ex =>
      match y.slots.find? (fun z => z.1 == y.consumed % 2) with
      | none => s
      | some b =>
        if y.consumed < y.published then
          let s1 := { s with mem := s.mem.store t.base b.2 }
          let s2 := updStream s1 p.a p.b y.id (fun y => { y with consumed := y.consumed + 1 })
          opDone (updExch s2 e.handle x e.folio.step16 (fun z => { z with count := ex.expected })) e
        else s
    | _, _ => s
  | _, _ => s

/-- PAIRED_RECV (R378). -/
def execPairedRecv (h : Handle) (i : Nat) (s : State) : Host.Outcome State Fault Refusal :=
  .next (match runEnv s h i 0x0507 [.compute, .closing] with
    | none => s
    | some e => pairedRecv s e)

end Sys2Proof.Machine
end

