-- ==== Sys2Proof/Machine/LigatureOps.lean ====
section
/-! DEFINITION. The Ligature operations of the scheduled threads: BUCKET_ADD (R238), LOWRANK_FACTOR (R241, R242) and UPDATE (R95 to
R98, R255 to R258), with the sums of squares of R261. -/

namespace Sys2Proof.Machine

open Sys2Proof

/-- A step of a vector operation of a RUN or STEP: the fence, poison, then its effect (R173, R477). -/
def vectorOp (s : State) (h : Handle) (i opcode : Nat) (g : OpEnv → State) : State :=
  match runEnv s h i opcode [.compute] with
  | none => s
  | some e =>
    if needsFence s e then stallFence s e
    else
      match poisonedRead s e with
      | some a => failJob s (partStamp s e.folio.part) 0x110 (unitQuad e.quad.val 4) 0xFFFFFFFF a 0
      | none => g e

/-- The bucket that an operation names. -/
def opBucket (f : Folio) (o : OpEntry) : Option BucketEntry := f.tables.bucket? (f.tables.attr o 8 noneIdx)

/-- Terms added to a sum of squares of a layer tag (R261, R262): quantity 0 WEIGHT, 1 GRAD, 2 UPDATE. -/
def addMarg (l : List (Nat × Nat × XVal)) (layer what : Nat) (terms : List XVal) : List (Nat × Nat × XVal) :=
  let old := match l.find? (fun e => e.1 == layer && e.2.1 == what) with | some e => e.2.2 | none => .zero false
  (layer, what, exactSum (old :: terms.map (fun x => XVal.mul x x))) ::
    l.filter (fun e => !(e.1 == layer && e.2.1 == what))

/-- Sums of squares of a run raised; a bucket without a layer tag has none (R229, R261). -/
def countMarg (s : State) (h : Handle) (b : BucketEntry) (what : Nat) (terms : List XVal) : State :=
  if b.layer = 0xFFFF then s else updRun s h (fun r => { r with marg := addMarg r.marg b.layer what terms })

/-! ### BUCKET_ADD (R238) -/

/-- The output of BUCKET_ADD: RN of the represented value, added to the output when it is not the first of the step. -/
def bucketAddOut (m : Memory) (f : Folio) (o : OpEntry) (first : Bool) : OpOut :=
  match opIn f o 0, opOutT f o 0 with
  | some a, some y =>
    outWhole m f o y (opStage f o (.num 1) true none) (fun n =>
      let v := represented m f a n
      if first then rn v else rn (XVal.add .nearest (decodeFloat .fp32 (rawElem m y.base .fp32 n)) v))
  | _, _ => noOut m

/-- BUCKET_ADD (R238). -/
def execBucketAdd (h : Handle) (i : Nat) (s : State) : Host.Outcome State Fault Refusal :=
  .next (vectorOp s h i 0x0401 (fun e =>
    let y := e.op.outputs.getD 0 noneIdx
    let first := match runOf s h with | some (_, r) => !r.leafWritten.contains y | none => true
    updRun (applyOut s e (fun m => bucketAddOut m e.folio e.op first)) h (fun r =>
      { r with leafWritten := if r.leafWritten.contains y then r.leafWritten else y :: r.leafWritten })))

/-! ### LOWRANK_FACTOR (R241, R242) -/

/-- One column of orth: column k of p made orthogonal to the columns q already found, and normalized. -/
def orthColumn (q : List (List XVal)) (col : List XVal) : List XVal :=
  let p := q.foldl (fun p qj =>
    let d := rn (exactSum (p.zipWith XVal.mul qj))
    p.zipWith (fun a b => rn (XVal.sub .nearest a (XVal.mul d b))) qj) col
  let nrm := sSqrt (rn (exactSum (p.map (fun a => XVal.mul a a))))
  p.map (fun a => if nrm.isZero then .zero false else fdiv a nrm)

/-- orth of R242 over columns in ascending order. -/
def orth (cols : List (List XVal)) : List (List XVal) := cols.foldl (fun q c => q ++ [orthColumn q c]) []

/-- FP32 values of a tensor, element by element. -/
def tensorVals (m : Memory) (f : Folio) (o : OpEntry) (t : TRef) : Nat → XVal := fun n => valueFp32 m f t (rmodeOf o.rounding) n

/-- FUNCTION 1: M into E, then P_l. -/
def lowrank1 (m : Memory) (f : Folio) (o : OpEntry) (r rows cols : Nat) : OpOut :=
  match opIn f o 0, opIn f o 1, opIn f o 2, opOutT f o 0, opOutT f o 1 with
  | some g, some e, some q, some p, some eo =>
    let st := opStage f o (.num 1) true none
    let mm := fun (n : Nat) => fadd (tensorVals m f o g n) (tensorVals m f o e n)
    let qv := tensorVals m f o q
    (outWhole m f o eo st mm).andThen (fun m2 => outWhole m2 f o p st (fun n =>
      let k := n % max r 1
      let i := n / max r 1
      if i < rows then rn (exactSum ((List.range cols).map (fun c => XVal.mul (mm (c + cols * i)) (qv (k + r * c))))) else .zero false))
  | _, _, _, _, _ => noOut m

/-- FUNCTION 2: the orthogonal P, then Q_l. -/
def lowrank2 (m : Memory) (f : Folio) (o : OpEntry) (r rows cols : Nat) : OpOut :=
  match opIn f o 0, opIn f o 1, opOutT f o 0, opOutT f o 1 with
  | some pb, some e, some ph, some ql =>
    let st := opStage f o (.num 1) true none
    let pv := tensorVals m f o pb
    let q := orth ((List.range r).map (fun k => (List.range rows).map (fun i => pv (k + r * i))))
    let at_ := fun (i k : Nat) => (q.getD k []).getD i (.zero false)
    let mm := tensorVals m f o e
    (outWhole m f o ph st (fun n => at_ (n / max r 1) (n % max r 1))).andThen (fun m2 => outWhole m2 f o ql st (fun n =>
      let k := n % max r 1
      let c := n / max r 1
      rn (exactSum ((List.range rows).map (fun i => XVal.mul (mm (c + cols * i)) (at_ i k))))))
  | _, _, _, _ => noOut m

/-- FUNCTION 3: the owned gradient shard, then the error left. -/
def lowrank3 (m : Memory) (f : Folio) (o : OpEntry) (b : BucketEntry) (r rows cols : Nat) : OpOut :=
  match opIn f o 0, opIn f o 1, opIn f o 2, opIn f o 3, opOutT f o 0, opOutT f o 1 with
  | some ph, some qb, some ql, some e, some go, some eo =>
    let st := opStage f o (.num 1) true none
    let pv := tensorVals m f o ph
    let qv := tensorVals m f o qb
    let lv := tensorVals m f o ql
    let mv := tensorVals m f o e
    let row0 := f.tables.contributor b f.coord * (rows / max (f.tables.bucketP b) 1)
    (outWhole m f o go st (fun n =>
      let i := row0 + n / max cols 1
      let c := n % max cols 1
      rn (exactSum ((List.range r).map (fun k => XVal.mul (pv (k + r * i)) (qv (k + r * c))))))).andThen (fun m2 =>
        outWhole m2 f o eo st (fun n =>
          let i := n / max cols 1
          let c := n % max cols 1
          rn (XVal.sub .nearest (mv n) (exactSum ((List.range r).map (fun k => XVal.mul (pv (k + r * i)) (lv (k + r * c))))))))
  | _, _, _, _, _, _ => noOut m

/-- LOWRANK_FACTOR over memory. -/
def lowrankOut (m : Memory) (f : Folio) (o : OpEntry) (b : BucketEntry) : OpOut :=
  let cols := b.elements / max b.rows 1
  match fnOf f o with
  | 1 => lowrank1 m f o b.rank b.rows cols
  | 2 => lowrank2 m f o b.rank b.rows cols
  | _ => lowrank3 m f o b b.rank b.rows cols

/-- The FP32 values that an output tensor of an operation holds. -/
def outVals (s : State) (f : Folio) (o : OpEntry) (k : Nat) : List XVal :=
  match opOutT f o k with
  | none => []
  | some y => (List.range y.entry.elems).map (fun n => represented s.mem f y n)

/-- LOWRANK_FACTOR (R241, R242, R261). -/
def execLowrankFactor (h : Handle) (i : Nat) (s : State) : Host.Outcome State Fault Refusal :=
  .next (vectorOp s h i 0x0402 (fun e =>
    match opBucket e.folio e.op with
    | none => s
    | some b =>
      let s1 := applyOut s e (fun m => lowrankOut m e.folio e.op b)
      if fnOf e.folio e.op = 3 then countMarg s1 h b 1 (outVals s1 e.folio e.op 0) else s1))

/-! ### UPDATE (R255 to R258) -/

/-- Sum of exact products, added exactly and rounded once. -/
def rnSum (l : List XVal) : XVal := rn (l.foldl (XVal.add .nearest) (.zero true))

/-- What an optimizer computes for one element: w', m', v'. -/
def optimize (kind : Nat) (hp : Nat → XVal) (g w m v : XVal) : XVal × XVal × XVal :=
  let lr := hp 0
  let wd := hp 1
  let gs := hp 2
  match kind with
  | 1 => (rn (XVal.sub .nearest w (XVal.mul lr (XVal.add .nearest (XVal.mul gs g) (XVal.mul wd w)))), m, v)
  | 2 =>
    let m2 := rnSum [XVal.mul (hp 3) m, XVal.mul gs g, XVal.mul wd w]
    (rn (XVal.sub .nearest w (XVal.mul lr m2)), m2, v)
  | _ =>
    let gg := fmul gs g
    let m2 := rnSum [XVal.mul (hp 3) m, XVal.mul (hp 4) gg]
    let v2 := rnSum [XVal.mul (hp 5) v, XVal.mul (XVal.mul (hp 6) gg) gg]
    let den := fadd (sSqrt (fmul v2 (hp 9))) (hp 7)
    let u := fdiv (fmul m2 (hp 8)) den
    (rn (XVal.sub .nearest w (XVal.mul lr (XVal.add .nearest u (XVal.mul wd w)))), m2, v2)

/-- The conversion of an element of output0 of UPDATE: stochastic rounding for mode 4 into a PARAMETER tensor (R95, R96, R98, R258);
`off` is the bucket position of the tensor's element 0. -/
def updateConv (f : Folio) (o : OpEntry) (t : TRef) (off : Nat) : Nat → XVal → Nat × NumEvents := fun n v =>
  let fmt := t.entry.format.elem
  if rmodeOf o.rounding = .stochastic ∧ t.entry.hasRole 0 ∧ t.entry.format ≠ .fp32 ∧ t.entry.format ≠ .dfp32 then
    let r := stochRound fmt (rand24 (BitVec.ofNat 64 f.jobStep) (BitVec.ofNat 32 t.entry.tag) (off + n)) v
    (encodeExact fmt r.1, if r.1.isNan && fmt.hasNan then { r.2 with nanOut := max r.2.nanOut 1 } else r.2)
  else convertElem fmt (rmodeOf o.rounding).plain v

/-- output0 of UPDATE: w' through the output stage. -/
def updateParam (m : Memory) (f : Folio) (o : OpEntry) (t : TRef) (off : Nat) (ws : List XVal) : OpOut :=
  let e := outExponent m f o t
  let st := opStage f o (.num 1) true none
  let cs := ws.zipIdx.map (fun w => XVal.div (st.clipped w.2 w.1) (descaleWith t.entry e.1))
  let w := writeRun m t 0 cs (updateConv f o t off)
  { mem := clearTensorPoison w.mem t, events := e.2.plus w.events,
    scales := if t.entry.scaleMode = 1 then [(t.idx, e.1)] else [] }

/-- FP32 values stored in a tensor as they are. -/
def storeVals (m : Memory) (t : Option TRef) (vs : List XVal) : Memory :=
  match t with
  | none => m
  | some y => (vs.zipIdx).foldl (fun m v => writeElem m y.base .fp32 v.2 (fp32Bits v.1).toNat) m

/-- UPDATE over memory, with the exact differences w' − w. -/
def updateOut (m : Memory) (f : Folio) (o : OpEntry) (b : BucketEntry) : OpOut × List XVal :=
  match opIn f o 0, opIn f o 1, opOutT f o 0, opOutT f o 1 with
  | some g, some hp, some y, some w =>
    let kind := f.tables.attr o 0xB 1
    let at_ := fun (t : Option TRef) (n : Nat) => match t with | some x => tensorVals m f o x n | none => XVal.zero false
    let im := if kind = 1 then none else opIn f o 2
    let iv := if kind = 3 then opIn f o 3 else none
    let res := (List.range w.entry.elems).map (fun n =>
      optimize kind (at_ (some hp)) (at_ (some g) n) (at_ (some w) n) (at_ im n) (at_ iv n))
    let off := if b.mode = 1 then 0 else f.tables.contributor b f.coord * w.entry.elems
    let m1 := storeVals (storeVals (storeVals m (some w) (res.map (fun r => r.1))) im (res.map (fun r => r.2.1))) iv
      (res.map (fun r => r.2.2))
    (updateParam m1 f o y off (res.map (fun r => r.1)),
      (res.zipIdx).map (fun r => XVal.sub .nearest r.1.1 (at_ (some w) r.2)))
  | _, _, _, _ => (noOut m, [])

/-- The tag set to a step in a list of applied steps. -/
def setApplied (l : List (Nat × Nat)) (tag step : Nat) : List (Nat × Nat) := (tag, step) :: l.filter (fun e => e.1 != tag)

/-- UPDATE (R95 to R98, R255 to R258, R260, R261). -/
def execUpdate (h : Handle) (i : Nat) (s : State) : Host.Outcome State Fault Refusal :=
  .next (vectorOp s h i 0x0403 (fun e =>
    match opBucket e.folio e.op with
    | none => s
    | some b =>
      let d := (updateOut s.mem e.folio e.op b).2
      let s1 := applyOut s e (fun m => (updateOut m e.folio e.op b).1)
      let s2 := updFolio s1 e.folio.handle (fun f => { f with applied := setApplied f.applied b.tag (f.jobStep + 1) })
      updRun (countMarg s2 h b 2 d) h (fun r => { r with updates := i :: r.updates })))

end Sys2Proof.Machine
end

