-- ==== Sys2Proof/Machine/Ligature.lean ====
section
/-! DEFINITION. The Ligature engines (R228 to R254, R261, R264 to R268): instances, windows and credit, leaves, nodes, roots,
deadlines and drains; the rows INSTANCE_OPEN, DATA, HEADER, CREDIT, READY, LENIENT_DEADLINE, BITMAP, DRAIN, DRAIN_ACK_RETURN and
DRAIN_ACK. A cell is 128 consecutive elements of a shard, the smallest unit that a payload carries. -/

namespace Sys2Proof.Machine

open Sys2Proof

/-! ### The instances of a step (R232, R243) -/

/-- The exchanges of a bucket, in stroke order. -/
def bucketExchs (t : Tables) (tag : Nat) : List Nat :=
  sortBy (fun a b => decide (t.issueStroke a < t.issueStroke b)) ((List.range t.exchs.length).filter (fun x =>
    match t.exchs[x]? with
    | some e => e.kind == 3 && e.ref == tag
    | none => false))

/-- The instances of a step in BUCKET_SEQ order: (tag, phase, exchange). -/
def instanceList (t : Tables) : List (Nat × Nat × Nat) :=
  let all := t.buckets.flatMap (fun b => (bucketExchs t b.tag).zipIdx.map (fun x => (b.tag, x.2, x.1)))
  sortBy (fun a b =>
    let ka := t.issueStroke a.2.2
    let kb := t.issueStroke b.2.2
    decide (ka < kb) || (ka == kb && (decide (a.1 < b.1) || (a.1 == b.1 && decide (a.2.1 < b.2.1))))) all

/-- The instances of a step that run on an engine, with their BUCKET_SEQ. -/
def engineList (t : Tables) (e : Nat) : List (Nat × (Nat × Nat × Nat)) :=
  ((instanceList t).zipIdx.filter (fun x => x.2 % 8 == e)).map (fun x => (x.2, x.1))

/-- What an instance's slot works with: its partition, run and folio, its bucket and exchange, the group's size, this device's
contributor index, and the elements of a shard. -/
structure InstEnv where
  part : Part
  run : Handle
  folio : Folio
  bucket : BucketEntry
  exch : ExchEntry
  exchIdx : Nat
  engine : Engine
  peers : Nat
  me : Nat
  shard : Nat

/-- The environment of a bucket phase of a folio. -/
def bucketEnv (o : LongOp) (f : Folio) (e : Engine) (tag phase : Nat) : Option InstEnv :=
  match f.tables.bucket? tag, (bucketExchs f.tables tag)[phase]? with
  | some b, some x =>
    (f.tables.exchs[x]?).map (fun ex =>
      { part := o.part, run := o.handle, folio := f, bucket := b, exch := ex, exchIdx := x, engine := e,
        peers := f.tables.bucketP b, me := f.tables.contributor b f.coord, shard := ex.elements / max (f.tables.bucketP b) 1 })
  | _, _ => none

/-- The environment of an instance whose RUN or STEP is live. -/
def instEnv (s : State) (e : Engine) (i : Instance) : Option InstEnv :=
  match (liveRuns s).find? (fun x => x.2.2.handle == i.folio) with
  | none => none
  | some (o, _, f) => bucketEnv o f e i.tag.toNat (if i.phase then 1 else 0)

/-- MODE 1, which both phases of a low-rank bucket also run as (R234, R241). -/
def InstEnv.all (v : InstEnv) : Bool := v.bucket.mode == 1 || v.bucket.compression == 1
def InstEnv.lenient (v : InstEnv) : Bool := bit v.bucket.flags 0
def InstEnv.expert (v : InstEnv) : Bool := bit v.bucket.flags 1
/-- Cells of a shard. -/
def InstEnv.cells (v : InstEnv) : Nat := v.shard / 128
/-- Whether leaves travel as compressed blocks (R239). -/
def InstEnv.packed (v : InstEnv) : Bool := v.bucket.compression == 2 || v.bucket.compression == 3
/-- Bytes of a compressed block (R240). -/
def InstEnv.blockBytes (v : InstEnv) : Nat := if v.bucket.compression = 2 then 4 * ceilDiv v.bucket.keep 4 + 4 * v.bucket.keep else 36

/-! ### Payloads (R240, R248) -/

/-- Cells that a payload of a form holds, and payloads of a shard. -/
def InstEnv.perPayload (v : InstEnv) (form : Nat) : Nat :=
  match form with
  | 0 => 1
  | 1 => 2
  | _ => 2 * (512 / max v.blockBytes 1)

def InstEnv.payloads (v : InstEnv) (form : Nat) : Nat := ceilDiv v.cells (max (v.perPayload form) 1)

/-- The cells of payload `seg`. -/
def InstEnv.cellsOf (v : InstEnv) (form seg : Nat) : List Nat :=
  (List.range (v.perPayload form)).map (fun i => seg * v.perPayload form + i) |>.filter (fun c => decide (c < v.cells))

/-- A compressed block decoded: 256 FP32 words (R240). -/
def unpackBlock (v : InstEnv) (b : Bytes) : List Word32 :=
  if v.bucket.compression = 2 then
    let base := 4 * ceilDiv v.bucket.keep 4
    (List.range 256).map (fun i =>
      match (List.range v.bucket.keep).find? (fun k => u8 b k == i) with
      | some k => BitVec.ofNat 32 (u32 b (base + 4 * k))
      | none => 0)
  else
    let scl := fp32 (BitVec.ofNat 32 (u32 b 0))
    (List.range 256).map (fun i => fp32Bits (if bit (u8 b (4 + i / 8)) (i % 8) then scl.neg else scl))

/-- The words of a payload of a form. -/
def payloadWords (v : InstEnv) (form : Nat) (b : Bytes) : List Word32 :=
  match form with
  | 0 => (List.range (b.length / 4)).map (fun i => BitVec.ofNat 32 (u32 b (4 * i)))
  | 1 => (List.range (b.length / 2)).map (fun i => BitVec.ofNat 32 (u16 b (2 * i) * 65536))
  | _ => (chunks (max v.blockBytes 1) b).flatMap (unpackBlock v)

/-- The bytes of words under a form 0 or 1; for form 1 each is rounded to BF16 (R132, R236). -/
def wordBytes (form : Nat) (ws : List Word32) : Bytes :=
  ws.flatMap (fun w => if form = 1 then le 2 ((fp32Bits (toBf16 (fp32 w))).toNat / 65536) else le 4 w.toNat)

/-- The length of a whole payload. -/
def InstEnv.payloadLen (v : InstEnv) (form seg : Nat) : Nat :=
  let n := (v.cellsOf form seg).length
  match form with
  | 0 => 512 * n
  | 1 => 256 * n
  | _ => n / 2 * v.blockBytes

/-! ### Values held -/

/-- Contributors skipped, once known; a strict instance skips none (R249, R250). -/
def Instance.skipped (i : Instance) (v : InstEnv) : Option (List Nat) := if v.lenient then i.bitmap else some []

/-- A value held for a cell: its own words, or the header of its shard. -/
def Instance.cell (i : Instance) (o lo hi c : Nat) : Option NodeVal :=
  (i.held.find? (fun x => x.shard == o && x.lo == lo && x.hi == hi && (x.seg == c || x.val == .header))).map (fun x => x.val)

/-- A value added to those held. -/
def Instance.hold (i : Instance) (o lo hi c : Nat) (val : NodeVal) : Instance :=
  { i with held := { shard := o, lo := lo, hi := hi, seg := c, val := val } :: i.held }

/-- What a node's operand is: not there yet, absent (every contributor under it skipped), or a value. -/
inductive Operand where
  | waiting
  | absent
  | value (v : NodeVal)
deriving DecidableEq, Repr

def Instance.operand (i : Instance) (v : InstEnv) (o lo hi c : Nat) : Operand :=
  match i.skipped v with
  | none => .waiting
  | some sk =>
    if (List.range (hi + 1 - lo)).all (fun k => sk.contains (lo + k)) then .absent
    else
      match i.cell o lo hi c with
      | none => .waiting
      | some x => .value x

/-- The words of a value; a header is +0 for every element (R254). -/
def NodeVal.words (x : NodeVal) : List Word32 :=
  match x with
  | .data l => l
  | .header => List.replicate 128 0

/-- The node of R132 from two operands. -/
def combineNode (h hBf16 : Nat) (l r : NodeVal) : NodeVal :=
  if l = .header ∧ r = .header then .header
  else .data (l.words.zipWith (fun a b =>
    let x := fp32 a
    let y := fp32 b
    fp32Bits (if h ≤ hBf16 then fadd (toBf16 x) (toBf16 y) else fadd x y)) r.words)

/-- A cell of a node, when both operands are there (R132, R249, R250). -/
def Instance.node (i : Instance) (v : InstEnv) (o a b c : Nat) : Option NodeVal :=
  let m := treeSplit a b
  match i.operand v o a (m - 1) c, i.operand v o m b c with
  | .value l, .value r => some (combineNode (treeHeight a b) v.bucket.hBf16 l r)
  | .value l, .absent => some l
  | .absent, .value r => some r
  | _, _ => none

/-- The nodes that this device hosts for a shard, children before parents, with their parents. -/
def InstEnv.hosted (v : InstEnv) (o : Nat) : List ((Nat × Nat) × Option (Nat × Nat)) :=
  (treeAll v.peers).reverse.filter (fun e => treeHost o e.1.1 e.1.2 == v.me && decide (e.1.1 < e.1.2))

/-- Every node of a shard that can be computed is computed. -/
def Instance.addNodes (i : Instance) (v : InstEnv) : Instance :=
  (List.range v.peers).foldl (fun i o => (v.hosted o).foldl (fun i e =>
    (List.range v.cells).foldl (fun i c =>
      if (i.cell o e.1.1 e.1.2 c).isSome then i
      else
        match i.node v o e.1.1 e.1.2 c with
        | some x => i.hold o e.1.1 e.1.2 c x
        | none => i) i) i) i

/-! ### Credit (R243, R244) -/

/-- A stream's credit. -/
def creditOf (l : List Credit) (peer o lo hi : Nat) : Nat :=
  match l.find? (fun c => c.peer == peer && c.shard == o && c.lo == lo && c.hi == hi) with
  | some c => c.n
  | none => 0

/-- A stream's credit set. -/
def setCredit (l : List Credit) (peer o lo hi n : Nat) : List Credit :=
  { peer := peer, shard := o, lo := lo, hi := hi, n := n } ::
    l.filter (fun c => !(c.peer == peer && c.shard == o && c.lo == lo && c.hi == hi))

/-- The window of a stream from a contributor: the largest dimension in which the logical coordinates differ (R243). -/
def InstEnv.window (v : InstEnv) (peer : Nat) : Nat :=
  let a := v.folio.coord
  let b := v.folio.tables.contributorCoord v.bucket v.folio.coord peer
  if a.2.2 ≠ b.2.2 then 262144 else if a.2.1 ≠ b.2.1 then 65536 else 32768

/-- The streams that the engine receives for an instance: (sender, shard, lo, hi) for each operand of the nodes it hosts and, under
MODE 1, each reduced shard of another owner. -/
def InstEnv.streams (v : InstEnv) : List (Nat × Nat × Nat × Nat) :=
  (List.range v.peers).flatMap (fun o => (v.hosted o).flatMap (fun e =>
    let m := treeSplit e.1.1 e.1.2
    [(treeHost o e.1.1 (m - 1), o, e.1.1, m - 1), (treeHost o m e.1.2, o, m, e.1.2)])) ++
  (if v.all then ((List.range v.peers).filter (fun o => o != v.me)).map (fun o => (o, o, 0, v.peers - 1)) else [])

/-- The buffer that an instance reserves. -/
def InstEnv.reserve (v : InstEnv) : Nat := (v.streams.map (fun x => v.window x.1)).sum

/-- The collective fields of a message of an instance for a stream. -/
def Instance.msg (i : Instance) (msg o lo hi seg form : Nat) : CollHead :=
  { i.head msg with shard := o, lo := lo, hi := hi, seg := seg, form := form }

/-- A message of an instance to a contributor. -/
def tell (s : State) (v : InstEnv) (i : Instance) (peer : Nat) (h : CollHead) (payload : Bytes) : State :=
  sendColl s v.part v.folio v.bucket v.engine i.stamp peer h payload

/-! ### Leaves (R237, R239, R240, R253) -/

/-- The elements of one leaf block of 256 after compression (R239): the leaf values, the error left, and the NaNs examined. -/
def packLeaf (v : InstEnv) (gs es : List XVal) : List XVal × List XVal × Nat :=
  let ms := gs.zipWith fadd es
  if v.bucket.compression = 2 then
    let kept := ((rankRow (ms.map XVal.abs)).map (fun e => e.2)).take v.bucket.keep
    (ms.zipIdx.map (fun e => if kept.contains e.2 then e.1 else .zero false),
      ms.zipIdx.map (fun e => if kept.contains e.2 then .zero false else e.1), (ms.filter (fun x => x.isNan)).length)
  else
    let scl := wideMean (ms.map XVal.abs) 256
    let leaf := ms.map (fun x => if x.sign then scl.neg else scl)
    (leaf, ms.zipWith fsub leaf, 0)

/-- The block bytes of a compressed leaf (R240). -/
def packBytes (v : InstEnv) (ms leaf : List XVal) : Bytes :=
  if v.bucket.compression = 2 then
    let kept := sortBy (fun a b => decide (a < b)) (((rankRow (ms.map XVal.abs)).map (fun e => e.2)).take v.bucket.keep)
    padTo 4 (kept.map (fun k => BitVec.ofNat 8 k)) ++ kept.flatMap (fun k => le 4 (fp32Bits (leaf.getD k .nan)).toNat)
  else
    let scl := wideMean (ms.map XVal.abs) 256
    le 4 (fp32Bits scl).toNat ++ (List.range 32).map (fun k =>
      BitVec.ofNat 8 (((List.range 8).map (fun j => if (ms.getD (8 * k + j) .nan).sign then 2 ^ j else 0)).sum))

/-- A part of the leaf read: its words, its payload bytes under the form it travels in, and the state with E updated. -/
structure LeafPart where
  words : List Word32
  bytes : Bytes
  state : State

/-- Elements of the leaf source from a flat index, `n` of them: whole blocks when the bucket is compressed. -/
def readLeaf (s : State) (v : InstEnv) (src : TRef) (form first n : Nat) : LeafPart :=
  let g := fun (m : Memory) (k : Nat) => valueFp32 m v.folio src .nearest k
  if v.packed then
    match v.folio.tensor v.bucket.ef with
    | none => { words := [], bytes := [], state := s }
    | some ef =>
      (List.range (n / 256)).foldl (fun acc k =>
        let at_ := first + 256 * k
        let gs := (List.range 256).map (fun i => g acc.state.mem (at_ + i))
        let es := (List.range 256).map (fun i => decodeFloat .fp32 (rawElem acc.state.mem ef.base .fp32 (at_ + i)))
        let r := packLeaf v gs es
        let m := (r.2.1.zipIdx).foldl (fun m x => writeElem m ef.base .fp32 (at_ + x.2) (fp32Bits x.1).toNat) acc.state.mem
        { words := acc.words ++ r.1.map fp32Bits, bytes := acc.bytes ++ packBytes v (gs.zipWith fadd es) r.1,
          state := countEvents { acc.state with mem := m } v.run { noEvents with topkNan := r.2.2 } })
        { words := [], bytes := [], state := s }
  else
    let ws := (List.range n).map (fun i => fp32Bits (g s.mem (first + i)))
    { words := ws, bytes := wordBytes form ws, state := s }

/-- The parent of this device's leaf, or none when it is the root. -/
def InstEnv.leafParent (v : InstEnv) : Option (Nat × Nat) := treeParent v.peers v.me v.me

/-- The host that a shard's leaf goes to. -/
def InstEnv.leafHost (v : InstEnv) (o : Nat) : Nat := match v.leafParent with | some p => treeHost o p.1 p.2 | none => v.me

/-- The form of the own leaf on its way: blocks, BF16 below a BF16 node of a strict bucket, FP32 otherwise (R236, R240). A leaf of a
lenient bucket travels as FP32, so that one whose sibling is skipped stays exact (log entry 16). -/
def InstEnv.leafForm (v : InstEnv) : Nat :=
  if v.packed then v.bucket.compression + 1
  else
    match v.leafParent with
    | some p => if treeHeight p.1 p.2 ≤ v.bucket.hBf16 ∧ !v.lenient then 1 else 0
    | none => 0

/-- Payloads of a shard's leaf that have been read. -/
def Instance.leafRead? (i : Instance) (o : Nat) : Nat := tallied i.leafNext o

/-- The next part of a shard's leaf read: into the operands held when its parent is hosted here, sent within credit otherwise. -/
def leafStep (v : InstEnv) (src : TRef) (o : Nat) (x : State × Instance) : State × Instance :=
  let s := x.1
  let i := x.2
  let host := v.leafHost o
  let form := v.leafForm
  let seg := i.leafRead? o
  if v.payloads form ≤ seg then x
  else
    let cells := v.cellsOf form seg
    let first := o * v.shard + cells.headD 0 * 128
    let used := { i with leafNext := raise i.leafNext o }
    if host = v.me then
      let r := readLeaf s v src form first (128 * cells.length)
      (r.state, (cells.zipIdx).foldl (fun i c => i.hold o v.me v.me c.1 (.data ((r.words.drop (128 * c.2)).take 128))) used)
    else
      let n := creditOf i.credits host o v.me v.me
      if n = 0 then x
      else
        let r := readLeaf s v src form first (128 * cells.length)
        (tell r.state v i host (i.msg 0 o v.me v.me seg form) r.bytes,
          { used with credits := setCredit i.credits host o v.me v.me (n - 1) })

/-- A header-only leaf: one HEADER for each shard that another device hosts (R253). -/
def headerLeaf (v : InstEnv) (x : State × Instance) : State × Instance :=
  (List.range v.peers).foldl (fun x o =>
    let host := v.leafHost o
    if host = v.me then (x.1, x.2.hold o v.me v.me 0 .header)
    else (tell x.1 v x.2 host (x.2.msg 1 o v.me v.me 0 2) [], x.2)) (x.1, { x.2 with leafRead := true })

/-- Whether every shard of the leaf has been read. -/
def Instance.leafDone (i : Instance) (v : InstEnv) : Bool :=
  (List.range v.peers).all (fun o => decide (v.payloads v.leafForm ≤ i.leafRead? o))

/-- The own leaf read as far as credit allows. A skipped contributor that holds the BITMAP reads nothing more (R250). -/
def leafRun (v : InstEnv) (x : State × Instance) : State × Instance :=
  let i := x.2
  if !i.issued || i.leafRead then x
  else if ((i.skipped v).getD []).contains v.me then (x.1, { i with leafRead := true })
  else if i.leafHeader then headerLeaf v x
  else
    match v.folio.tensor v.exch.src with
    | none => (x.1, { i with leafRead := true })
    | some src =>
      let y := (List.range v.peers).foldl (fun x o =>
        (List.range (v.payloads v.leafForm)).foldl (fun x _ => leafStep v src o x) x) x
      (y.1, { y.2 with leafRead := y.2.leafDone v })

/-! ### Sending nodes, writing roots (R236, R251, R254) -/

/-- Whether the other operand of a node's parent is present: both then travel as R132 rounds them. -/
def siblingPresent (v : InstEnv) (i : Instance) (a b : Nat) (par : Nat × Nat) : Bool :=
  let other := if a = par.1 then (b + 1, par.2) else (par.1, a - 1)
  match i.skipped v with
  | none => false
  | some sk => !(List.range (other.2 + 1 - other.1)).all (fun k => sk.contains (other.1 + k))

/-- The form of a node's value on its way to its parent. -/
def nodeForm (v : InstEnv) (i : Instance) (a b : Nat) (par : Nat × Nat) : Nat :=
  if treeHeight par.1 par.2 ≤ v.bucket.hBf16 ∧ siblingPresent v i a b par then 1 else 0

/-- The key of a payload among those sent. -/
def Instance.sent (i : Instance) (o lo hi seg : Nat) : Bool := i.done.contains (o, lo, hi, seg)

/-- One payload of a value sent to a contributor when its cells are there and credit allows; `key` names its shard in the list of
payloads sent, and `cellAt` gives its words. -/
def sendPart (v : InstEnv) (peer key o lo hi form seg : Nat) (cellAt : Instance → Nat → Option (List Word32)) (x : State × Instance) :
    State × Instance :=
  let i := x.2
  let n := creditOf i.credits peer o lo hi
  let ws := (v.cellsOf form seg).map (cellAt i)
  if i.sent key lo hi seg || n == 0 || ws.any (fun w => w.isNone) then x
  else
    (tell x.1 v i peer (i.msg 0 o lo hi seg form) (wordBytes form (ws.flatMap (fun w => w.getD []))),
      { i with done := (key, lo, hi, seg) :: i.done, credits := setCredit i.credits peer o lo hi (n - 1) })

/-- A header sent in place of a value. -/
def sendHeader (v : InstEnv) (peer key o lo hi : Nat) (x : State × Instance) : State × Instance :=
  if x.2.sent key lo hi 0 then x
  else (tell x.1 v x.2 peer (x.2.msg 1 o lo hi 0 2) [], { x.2 with done := (key, lo, hi, 0) :: x.2.done })

/-- A node's value sent to the host of its parent as far as it is computed. -/
def sendNode (v : InstEnv) (o : Nat) (e : (Nat × Nat) × Option (Nat × Nat)) (x : State × Instance) : State × Instance :=
  match e.2 with
  | none => x
  | some par =>
    let host := treeHost o par.1 par.2
    if host = v.me then x
    else if x.2.cell o e.1.1 e.1.2 0 = some .header then sendHeader v host o o e.1.1 e.1.2 x
    else
      let form := nodeForm v x.2 e.1.1 e.1.2 par
      (List.range (v.payloads form)).foldl (fun x seg => sendPart v host o o e.1.1 e.1.2 form seg (fun i c =>
        (i.cell o e.1.1 e.1.2 c).map NodeVal.words) x) x

/-- A root cell through the divisor (R251). -/
def divided (v : InstEnv) (i : Instance) (x : NodeVal) : List Word32 :=
  let n := v.peers - ((i.skipped v).getD []).length
  if v.bucket.divisor = 0 ∨ (v.bucket.compression = 1 ∧ !i.phase) then x.words
  else x.words.map (fun w => fp32Bits (rn (XVal.div (fp32 w) (.num (n : Rat)))))

/-- Words written into DST_TENSOR from an element on. -/
def writeDst (s : State) (v : InstEnv) (first : Nat) (ws : List Word32) : State :=
  match v.folio.tensor v.exch.dst with
  | none => s
  | some d => updMem s (fun m => m.store (d.base + 4 * first) (ws.flatMap (fun w => le 4 w.toNat)))

/-- Where a shard's elements stand in DST_TENSOR (R234). -/
def InstEnv.dstAt (v : InstEnv) (o : Nat) : Nat := if v.all then o * v.shard else 0

/-- A cell of a reduced shard: the own root through the divisor, or what its owner sent. -/
def reducedCell (v : InstEnv) (o : Nat) (i : Instance) (c : Nat) : Option (List Word32) :=
  match i.operand v o 0 (v.peers - 1) c with
  | .value x => some (if o = v.me then divided v i x else x.words)
  | _ => none

/-- A cell of a reduced shard written once the exchange has been issued; at the root its squares are added (R261). -/
def writeCell (v : InstEnv) (o c : Nat) (x : State × Instance) : State × Instance :=
  let i := x.2
  if !i.issued || i.delivered.contains (o, c) then x
  else
    match reducedCell v o i c with
    | none => x
    | some ws =>
      let s1 := writeDst x.1 v (v.dstAt o + 128 * c) ws
      let s2 := if o = v.me ∧ v.bucket.compression ≠ 1 then countMarg s1 v.run v.bucket 1 (ws.map fp32) else s1
      let hdr := o == v.me && i.cell o 0 (v.peers - 1) c == some .header
      (s2, { i with delivered := (o, c) :: i.delivered,
                    rootHeader := if hdr && !i.rootHeader.contains o then o :: i.rootHeader else i.rootHeader })

/-- The shards that this device receives into DST_TENSOR. -/
def InstEnv.received (v : InstEnv) : List Nat := if v.all then List.range v.peers else [v.me]

/-- The own reduced shard sent to the other contributors (R234). -/
def sendShard (v : InstEnv) (x : State × Instance) : State × Instance :=
  if !v.all then x
  else ((List.range v.peers).filter (fun d => d != v.me)).foldl (fun x d =>
    if x.2.cell v.me 0 (v.peers - 1) 0 = some .header then sendHeader v d (v.peers + d) v.me 0 (v.peers - 1) x
    else (List.range v.cells).foldl (fun x c =>
      sendPart v d (v.peers + d) v.me 0 (v.peers - 1) 0 c (reducedCell v v.me) x) x) x

/-! ### Consumption and completion (R244 to R246) -/

/-- Whether a received payload has been consumed: the parent's cells are computed, or a reduced shard's are written. -/
def consumedPart (v : InstEnv) (i : Instance) (u : Nat × Nat × Nat × Nat × Nat) : Bool :=
  let cells := if u.2.2.2.2 = 2 then List.range v.cells else v.cellsOf u.2.2.2.2 u.2.2.2.1
  if u.2.1 = 0 ∧ u.2.2.1 = v.peers - 1 then cells.all (fun c => i.delivered.contains (u.1, c))
  else
    match treeParent v.peers u.2.1 u.2.2.1 with
    | none => true
    | some p => cells.all (fun c => (i.cell u.1 p.1 p.2 c).isSome)

/-- The sender of a stream. -/
def streamSender (v : InstEnv) (o lo hi : Nat) : Nat := if lo = 0 ∧ hi = v.peers - 1 then o else treeHost o lo hi

/-- One credit for each payload consumed; headers use none. -/
def returnCredits (v : InstEnv) (x : State × Instance) : State × Instance :=
  (x.2.unread.filter (consumedPart v x.2)).foldl (fun x u =>
    let i := { x.2 with unread := x.2.unread.filter (fun y => y != u) }
    if u.2.2.2.2 = 2 then (x.1, i)
    else
      let peer := streamSender v u.1 u.2.1 u.2.2.1
      let n := creditOf i.granted peer u.1 u.2.1 u.2.2.1
      (tell x.1 v i peer (i.msg 2 u.1 u.2.1 u.2.2.1 0 0) (le 4 1),
        { i with granted := setCredit i.granted peer u.1 u.2.1 u.2.2.1 (n + 1) })) x

/-- Whether every shard this device receives has been written. -/
def Instance.allDelivered (i : Instance) (v : InstEnv) : Bool :=
  v.received.all (fun o => (List.range v.cells).all (fun c => i.delivered.contains (o, c)))

/-- Whether a hosted node, or the own reduced shard, has been sent whole; an absent node sends nothing. -/
def nodeSent (v : InstEnv) (i : Instance) (o : Nat) (e : (Nat × Nat) × Option (Nat × Nat)) : Bool :=
  match e.2 with
  | none => true
  | some par =>
    treeHost o par.1 par.2 == v.me || i.operand v o e.1.1 e.1.2 0 == .absent ||
      (if i.cell o e.1.1 e.1.2 0 = some .header then i.sent o e.1.1 e.1.2 0
       else (List.range (v.payloads (nodeForm v i e.1.1 e.1.2 par))).all (fun seg => i.sent o e.1.1 e.1.2 seg))

def shardSent (v : InstEnv) (i : Instance) : Bool :=
  !v.all || ((List.range v.peers).filter (fun d => d != v.me)).all (fun d =>
    if i.cell v.me 0 (v.peers - 1) 0 = some .header then i.sent (v.peers + d) 0 (v.peers - 1) 0
    else (List.range v.cells).all (fun c => i.sent (v.peers + d) 0 (v.peers - 1) c))

/-- Whether a packet is a value of an instance: DATA or HEADER. -/
def ofInstance (i : Instance) (k : Packet) : Bool :=
  k.isOp 2 1 && k.stamp == i.stamp && k.coll.tag == i.tag.toNat && k.coll.phase == (if i.phase then 1 else 0) &&
    k.coll.step == i.step % 2 ^ 16 && decide (k.coll.msg ≤ 4)

/-- Whether the end-to-end acknowledgements cover every packet that a test accepts and that was sent to a device, or to any. -/
def allAcked (s : State) (dst : Option Coord) (test : Packet → Bool) : Bool :=
  let to_ := fun (k : Packet) => test k && (match dst with | some d => k.dst == d | none => true)
  !s.router.injectQ.any to_ && !s.router.sends.any (fun f => f.unacked.any to_)

/-- Done (R245). -/
def instanceDone (s : State) (v : InstEnv) (i : Instance) : Bool :=
  i.state == .delivered && i.leafRead && allAcked s none (ofInstance i) && shardSent v i &&
    (List.range v.peers).all (fun o => (v.hosted o).all (nodeSent v i o))

/-! ### Slots -/

/-- Whether two records are of the same instance. -/
def Instance.same (a b : Instance) : Bool :=
  a.folio == b.folio && a.tag == b.tag && a.phase == b.phase && a.step == b.step && a.stamp == b.stamp

def updSlot (s : State) (e : Engine) (i : Instance) : State :=
  updLig s e (fun l => { l with slots := l.slots.map (fun j => if j.same i then i else j) })

/-- What a done instance leaves in its step: its count, its skip entry, and its unvisited expert (R252, R254, R263). -/
def recordDone (s : State) (v : InstEnv) (i : Instance) : State :=
  let sk := (i.skipped v).getD []
  updRun s v.run (fun r =>
    { r with instancesDone := r.instancesDone + 1,
             skips := if sk.isEmpty then r.skips else (i.tag, i.phase, v.peers - sk.length, sk) :: r.skips,
             unvisited := if v.expert && i.rootHeader.contains v.me then (v.bucket.layer, v.bucket.localExpert) :: r.unvisited
                          else r.unvisited })

/-- The first poisoned line of the leaf source or of EF_TENSOR that this device would read. -/
def leafPoison (s : State) (v : InstEnv) : Option Nat :=
  ((v.folio.tensor v.exch.src).toList ++ (if v.packed then (v.folio.tensor v.bucket.ef).toList else [])).findSome? (fun t =>
    if tensorPoisoned s.mem t then some (poisonAt s.mem t.base t.entry.size) else none)

/-- One round of an instance's work: leaf, nodes, sending, roots, credit, state (R236 to R254). A job in a local stop injects nothing
(R480). -/
def settleInstance (s : State) (e : Engine) (i : Instance) : State :=
  match instEnv s e i with
  | none => updSlot s e i
  | some v =>
    if partStopped s v.part || i.state == .dead then updSlot s e i
    else
      match (if i.issued && !i.leafRead && !i.leafHeader then leafPoison s v else none) with
      | some a => failJob (updSlot s e i) i.stamp 0x110 (unitFabric (16 + e.val)) v.bucket.tag a 2
      | none =>
        let x1 := leafRun v (s, i)
        let x2 := (x1.1, x1.2.addNodes v)
        let x3 := (List.range v.peers).foldl (fun x o => (v.hosted o).foldl (fun x n => sendNode v o n x) x) x2
        let x4 := v.received.foldl (fun x o => (List.range v.cells).foldl (fun x c => writeCell v o c x) x) x3
        let x5 := returnCredits v (sendShard v x4)
        let s6 := if x5.2.leafRead then updExch x5.1 v.run v.exchIdx v.folio.step16 (fun y => { y with drained := true }) else x5.1
        let i6 := if x5.2.allDelivered v && x5.2.state == .opened then { x5.2 with state := SlotState.delivered } else x5.2
        if instanceDone s6 v i6 then
          recordDone (updLig s6 e (fun l => { l with slots := l.slots.filter (fun j => !j.same i6) })) v i6
        else updSlot s6 e i6

/-- Every instance of every engine settled once: what an acknowledgement may complete. -/
def settleEngines (s : State) : State :=
  allEngines.foldl (fun s e => (s.ligature[e].slots.filter (fun i => i.state != .dead)).foldl (fun s i => settleInstance s e i) s) s

/-! ### Issue (R168, R250, R253) -/

/-- The engine of a bucket phase. -/
def bucketEngine (t : Tables) (tag phase : Nat) : Engine :=
  engineN (((indexOf? (fun (x : Nat × Nat × Nat) => x.1 == tag && x.2.1 == phase) (instanceList t)).getD 0) % 8)

/-- An open instance whose exchange has been issued: READY for a lenient one, the VISITED bit for an EXPERT one, then its leaf. -/
def issueInstance (s : State) (e : Engine) (i : Instance) : State :=
  match instEnv s e i with
  | none => s
  | some v =>
    let visited := s.ductus.toList.any (fun d => d.visited.contains (v.folio.handle, v.bucket.routing, v.bucket.localExpert))
    let i1 := { i with issued := true, leafHeader := v.expert && !visited }
    let s1 := if v.lenient && !partStopped s v.part then tell s v i1 0 (i1.msg 3 0 0 0 0 0) [] else s
    settleInstance s1 e i1

/-- A BUCKET exchange issued at this device: its instance takes it up when its slot is open. -/
def issueBucket (s : State) (f : Folio) (x : Nat) : State :=
  match (instanceList f.tables).find? (fun y => y.2.2 == x) with
  | none => s
  | some y =>
    let e := bucketEngine f.tables y.1 y.2.1
    match s.ligature[e].slots.find? (fun i =>
        i.folio == f.handle && i.tag.toNat == y.1 && i.phase == (y.2.1 == 1) && i.step == f.jobStep && i.state != .dead && !i.issued) with
    | none => s
    | some i => issueInstance s e i

/-! ### Messages (R244, R248, R264, R265, R268) -/

/-- A collective message of a type at a place of the inbox, and the state without it. -/
def takeColl (s : State) (i msg : Nat) : Option (Packet × State) := (takeInbox s i 2 1).filter (fun x => x.1.coll.msg == msg)

/-- What becomes of a collective message. -/
inductive CollFate where
  | slot (i : Instance)
  | early
  | late
  | stale
  | undeclared

/-- Whether the instance of a message has not been opened yet by the run that is to open it. -/
def notYetOpen (s : State) (k : Packet) (e : Engine) : Bool :=
  match tableRun s k.stamp with
  | none => true
  | some (o, r, f) =>
    let ahead := (k.coll.step + 2 ^ 16 - f.step16) % 2 ^ 16
    let off := f.jobStep + ahead - r.firstStep
    match indexOf? (fun (x : Nat × (Nat × Nat × Nat)) => x.2.1 == k.coll.tag && x.2.2.1 == k.coll.phase) (engineList f.tables e.val) with
    | none => false
    | some n =>
      decide (ahead < 2 ^ 15) &&
        (match s.ligature[e].nextOpen.find? (fun y => y.1 == o.handle) with
          | none => true
          | some y => decide (y.2.1 < off) || (y.2.1 == off && decide (y.2.2 ≤ n)))

/-- Whether a peer's message belongs to an instance that is DEAD here and whose DRAIN the peer has not acknowledged. -/
def ofDead (s : State) (k : Packet) (e : Engine) : Bool :=
  s.ligature[e].slots.any (fun i => i.state == .dead && ofInstance i { k with body := BitVec.ofNat 128 (bodyC { k.coll with msg := 0 }) } &&
    (match folioOf s i.folio with
      | none => false
      | some f =>
        match f.tables.bucket? i.tag.toNat, senderRank s f.part f.rank k with
        | some b, some rank => i.drains.contains (f.tables.contributor b (coordOfRank f.box rank))
        | _, _ => false))

/-- Whether a folio of the job declares a tag. -/
def declaredTag (s : State) (p : Part) (stamp : Stamp) (tag : Nat) : Bool :=
  match tableRun s stamp with
  | some (_, _, f) => (f.tables.bucket? tag).isSome
  | none => (s.folios.filter (fun f => f.part == p)).any (fun f => (f.tables.bucket? tag).isSome)

/-- The fate of a collective message: `hold` for the types of the early-message table. -/
def collFate (s : State) (k : Packet) (hold : Bool) : CollFate :=
  let e := engineN k.engine.toNat
  match partOfStamp s k.stamp with
  | none => .stale
  | some p =>
    if !s.folios.any (fun f => f.part == p) then .stale
    else if !declaredTag s p k.stamp k.coll.tag then .undeclared
    else
      let mine := s.ligature[e].slots.filter (fun i =>
        i.state != .dead && i.stamp == k.stamp && i.tag.toNat == k.coll.tag && i.phase == (k.coll.phase == 1))
      match mine.find? (fun i => i.step % 2 ^ 16 == k.coll.step) with
      | some i => .slot i
      | none =>
        if hold && !ofDead s k e && notYetOpen s k e && decide (s.ligature[e].early.length < 2048) then .early
        else if mine.isEmpty then .stale
        else .late

/-- A protocol error: the message is discarded and the job fails (R268, R475). -/
def collError (s : State) (k : Packet) : State :=
  failJob s k.stamp 0x103 (unitFabric (16 + k.engine.toNat)) k.coll.tag 0 0

/-- The contributor that sent a message. -/
def collPeer (s : State) (v : InstEnv) (k : Packet) : Nat :=
  match senderRank s v.part v.folio.rank k with
  | some r => v.folio.tables.contributor v.bucket (coordOfRank v.folio.box r)
  | none => v.me

/-! ### CREDIT, READY, BITMAP on an open instance -/

/-- The 64 bytes of a skip bitmap (R252). -/
def bitmapBytes (sk : List Nat) : Bytes :=
  (List.range 64).map (fun k => BitVec.ofNat 8 (((List.range 8).map (fun j => if sk.contains (8 * k + j) then 2 ^ j else 0)).sum))

/-- The BITMAP taken up: buffered values of skipped leaves are discarded and counted (R250). -/
def takeBitmap (s : State) (e : Engine) (v : InstEnv) (i : Instance) (sk : List Nat) : State :=
  if !v.lenient || i.bitmap.isSome then s
  else
    let gone := fun (lo hi : Nat) => lo == hi && lo != v.me && sk.contains lo && decide (1 < v.peers)
    let n := (i.unread.filter (fun u => gone u.2.1 u.2.2.1)).length
    settleInstance (bump s 3 0 n) e
      { i with bitmap := some sk, unread := i.unread.filter (fun u => !gone u.2.1 u.2.2.1),
               held := i.held.filter (fun x => !gone x.lo x.hi) }

/-- The arbiter's decision, when it is due (R250). -/
def arbitrate (s : State) (e : Engine) (v : InstEnv) (i : Instance) : State :=
  if i.bitmap.isSome || v.me != 0 || partStopped s v.part then updSlot s e i
  else if i.ready.length = v.peers ∨ (i.deadlinePast ∧ v.bucket.minPresent ≤ i.ready.length) then
    let sk := (List.range v.peers).filter (fun c => !i.ready.contains c)
    let s1 := ((List.range v.peers).filter (fun c => c != 0)).foldl (fun s c =>
      tell s v i c (i.msg 4 0 0 0 0 0) (bitmapBytes sk ++ le 4 i.ready.length)) s
    takeBitmap s1 e v i sk
  else updSlot s e i

/-- A CREDIT, READY or BITMAP message acts on its open instance. -/
def collControl (s : State) (e : Engine) (i : Instance) (k : Packet) : State :=
  match instEnv s e i with
  | none => s
  | some v =>
    let c := k.coll
    let peer := collPeer s v k
    match c.msg with
    | 2 =>
      let n := creditOf i.credits peer c.shard c.lo c.hi
      if !isTreeNode v.peers c.lo c.hi || v.peers ≤ c.shard then collError s k
      else settleInstance s e { i with credits := setCredit i.credits peer c.shard c.lo c.hi (n + u32 k.payload 0) }
    | 3 =>
      if v.me != 0 || i.bitmap.isSome then s
      else arbitrate s e v { i with ready := if i.ready.contains peer then i.ready else peer :: i.ready, deadlineOn := true }
    | _ => takeBitmap s e v i ((List.range v.peers).filter (fun n => bit (u8 k.payload (n / 8)) (n % 8)))

/-- A control message to its slot, the early-message table or nowhere. -/
def controlArrive (s : State) (k : Packet) : State :=
  let e := engineN k.engine.toNat
  match collFate s k true with
  | .slot i => collControl s e i k
  | .early => updLig s e (fun l => { l with early := l.early ++ [k] })
  | .late => bump s 4 0 1
  | .stale => staleDrop s (unitFabric (16 + e.val)) k.stamp
  | .undeclared => collError s k

/-- CREDIT (R244, R248). -/
def execCredit (i : Nat) (s : State) : Host.Outcome State Fault Refusal :=
  .next (match takeColl s i 2 with
    | none => s
    | some (k, s1) => controlArrive s1 k)

/-- READY (R244, R250). -/
def execReady (i : Nat) (s : State) : Host.Outcome State Fault Refusal :=
  .next (match takeColl s i 3 with
    | none => s
    | some (k, s1) => controlArrive s1 k)

/-- BITMAP (R244, R250). -/
def execBitmap (i : Nat) (s : State) : Host.Outcome State Fault Refusal :=
  .next (match takeColl s i 4 with
    | none => s
    | some (k, s1) => controlArrive s1 k)

/-- LENIENT_DEADLINE (R250): the deadline of an instance at its arbiter has come. -/
def execLenientDeadline (e : Engine) (tag : Word32) (phase : Bool) (s : State) : Host.Outcome State Fault Refusal :=
  .next (match s.ligature[e].slots.find? (fun i =>
      i.state != .dead && i.tag == tag && i.phase == phase && i.deadlineOn && !i.deadlinePast) with
    | none => s
    | some i =>
      match instEnv s e i with
      | none => s
      | some v => if s.live then arbitrate s e v { i with deadlinePast := true } else s)

/-! ### INSTANCE_OPEN (R243) -/

/-- The next instance that a run opens on an engine: its step offset, its place in the engine's list, and its entry. -/
def nextInstance (s : State) (o : LongOp) (r : Run) (f : Folio) (e : Engine) : Option (Nat × Nat × (Nat × (Nat × Nat × Nat))) :=
  let l := engineList f.tables e.val
  let y := match s.ligature[e].nextOpen.find? (fun y => y.1 == o.handle) with | some y => y.2 | none => (0, 0)
  let at_ := if l.length ≤ y.2 then (y.1 + 1, 0) else y
  if r.stepCount ≠ 0 ∧ r.stepCount ≤ at_.1 then none
  else (l[at_.2]?).map (fun x => (at_.1, at_.2, x))

/-- A new instance. -/
def newInstance (f : Folio) (stamp : Stamp) (seq tag phase step : Nat) : Instance :=
  { seqNo := seq, tag := BitVec.ofNat 32 tag, phase := phase == 1, step := step, state := .opened, folio := f.handle, stamp := stamp,
    issued := false, leafHeader := false, leafRead := false, ready := [], deadlineOn := false, deadlinePast := false, bitmap := none,
    held := [], done := [], credits := [], granted := [], unread := [], leafNext := [], delivered := [], rootHeader := [],
    drains := [] }

/-- The buffer that the open instances of an engine reserve. -/
def engineReserve (s : State) (e : Engine) : Nat :=
  (s.ligature[e].slots.map (fun i => match instEnv s e i with | some v => v.reserve | none => 0)).sum

/-- Whether an engine has a slot and buffer for an instance. An instance larger than the buffer opens when it is alone (log entry
17). -/
def roomFor (s : State) (e : Engine) (v : InstEnv) : Bool :=
  decide (s.ligature[e].slots.length < 32) &&
    (s.ligature[e].slots.isEmpty || decide (engineReserve s e + v.reserve ≤ 16777216))

/-- The windows of a new instance granted to its senders. -/
def grantAll (s : State) (v : InstEnv) (i : Instance) : State × Instance :=
  (v.streams.filter (fun x => x.1 != v.me)).foldl (fun y x =>
    let n := v.window x.1 / 512
    (tell y.1 v y.2 x.1 (y.2.msg 2 x.2.1 x.2.2.1 x.2.2.2 0 0) (le 4 n),
      { y.2 with granted := setCredit y.2.granted x.1 x.2.1 x.2.2.1 x.2.2.2 n })) (s, i)

/-- Early messages of an instance that has opened. -/
def takeEarly (s : State) (e : Engine) (i : Instance) : State :=
  let mine := s.ligature[e].early.filter (ofInstance i)
  let s1 := updLig s e (fun l => { l with early := l.early.filter (fun k => !ofInstance i k) })
  mine.foldl (fun s k =>
    match s.ligature[e].slots.find? (fun j => j.same i) with
    | none => s
    | some j => collControl s e j k) s1

/-- An instance opened: slot, windows, early messages, and its issue when its exchange has been issued before. -/
def openInstance (s : State) (o : LongOp) (r : Run) (f : Folio) (e : Engine) (x : Nat × Nat × (Nat × (Nat × Nat × Nat))) : State :=
  match bucketEnv o f e x.2.2.2.1 x.2.2.2.2.1 with
  | none => s
  | some v =>
    if !roomFor s e v then s
    else
      let step := r.firstStep + x.1
      let i := newInstance f (partStamp s o.part) x.2.2.1 x.2.2.2.1 x.2.2.2.2.1 step
      let y := grantAll s v i
      let s1 := updLig y.1 e (fun l =>
        { l with slots := l.slots ++ [y.2],
                 nextOpen := (o.handle, x.1, x.2.1 + 1) :: l.nextOpen.filter (fun z => z.1 != o.handle) })
      let s2 := takeEarly s1 e y.2
      if (r.exchRun o.handle v.exchIdx f.step16).txOpen && step == f.jobStep then issueBucket s2 f v.exchIdx else s2

/-- INSTANCE_OPEN (R243, R244): the engine opens the next instance of a live RUN or STEP. -/
def execInstanceOpen (e : Engine) (s : State) : Host.Outcome State Fault Refusal :=
  .next (if !s.live then s
    else
      match (liveRuns s).findSome? (fun x =>
          if partStopped s x.1.part || x.2.1.cancelStop then none
          else
            (nextInstance s x.1 x.2.1 x.2.2 e).bind (fun y =>
              match bucketEnv x.1 x.2.2 e y.2.2.2.1 y.2.2.2.2.1 with
              | some v => if roomFor s e v then some (x, y) else none
              | none => none)) with
      | none => s
      | some (x, y) => openInstance s x.1 x.2.1 x.2.2 e y)

/-! ### DATA and HEADER (R244, R248, R250, R268) -/

/-- Whether a value message is one that its instance can receive: a node of the tree that this device's part needs, or a reduced
shard under MODE 1, a payload of the shard, and a length that its form gives. -/
def valueOk (v : InstEnv) (k : Packet) : Bool :=
  let c := k.coll
  let whole := c.lo == 0 && c.hi == v.peers - 1
  decide (c.shard < v.peers) && isTreeNode v.peers c.lo c.hi &&
    (if c.msg = 1 then c.seg == 0
     else decide (c.form ≤ 4) && c.form != 2 && (c.form < 3 || (c.lo == c.hi && v.packed && c.form == v.bucket.compression + 1)) &&
       decide (c.seg < v.payloads c.form) && k.payload.length == v.payloadLen c.form c.seg) &&
    v.streams.contains (if whole && v.all && c.shard != v.me then (c.shard, c.shard, c.lo, c.hi)
      else (treeHost c.shard c.lo c.hi, c.shard, c.lo, c.hi))

/-- A value message on its open instance. -/
def valueArrive (s : State) (e : Engine) (i : Instance) (k : Packet) : State :=
  match instEnv s e i with
  | none => s
  | some v =>
    let c := k.coll
    if !valueOk v k then collError s k
    else if c.lo = c.hi ∧ 1 < v.peers ∧ ((i.skipped v).getD []).contains c.lo then bump s 3 0 1
    else
      let peer := streamSender v c.shard c.lo c.hi
      let n := creditOf i.granted peer c.shard c.lo c.hi
      if c.msg = 1 then
        settleInstance s e
          { i.hold c.shard c.lo c.hi 0 .header with unread := i.unread ++ [(c.shard, c.lo, c.hi, 0, 2)] }
      else if n = 0 then collError s k
      else
        let ws := payloadWords v c.form k.payload
        let i1 := ((v.cellsOf c.form c.seg).zipIdx).foldl (fun i x =>
          i.hold c.shard c.lo c.hi x.1 (.data ((ws.drop (128 * x.2)).take 128))) i
        settleInstance s e
          { i1 with unread := i.unread ++ [(c.shard, c.lo, c.hi, c.seg, c.form)],
                    granted := setCredit i.granted peer c.shard c.lo c.hi (n - 1) }

/-- A value message to its slot, or nowhere. -/
def dataArrive (s : State) (k : Packet) : State :=
  let e := engineN k.engine.toNat
  match collFate s k false with
  | .slot i => valueArrive s e i k
  | .early => s
  | .late => bump s 4 0 1
  | .stale => staleDrop s (unitFabric (16 + e.val)) k.stamp
  | .undeclared => collError s k

/-- DATA (R132, R234 to R240, R244, R248 to R251, R261, R264, R265, R268). -/
def execData (i : Nat) (s : State) : Host.Outcome State Fault Refusal :=
  .next (match takeColl s i 0 with
    | none => s
    | some (k, s1) => dataArrive s1 k)

/-- HEADER (R248, R253, R254, R264, R265, R268). -/
def execHeader (i : Nat) (s : State) : Host.Outcome State Fault Refusal :=
  .next (match takeColl s i 1 with
    | none => s
    | some (k, s1) => dataArrive s1 k)

/-! ### Drains (R266) -/

/-- DRAIN: held until it may be acknowledged. -/
def execDrain (i : Nat) (s : State) : Host.Outcome State Fault Refusal :=
  .next (match takeColl s i 5 with
    | none => s
    | some (k, s1) => updLig s1 (engineN k.engine.toNat) (fun l => { l with drains := l.drains ++ [k] }))

/-- The n-th held DRAIN of all engines, in engine order. -/
def heldColl (s : State) (n : Nat) : Option (Engine × Nat × Packet) :=
  (allEngines.flatMap (fun e => s.ligature[e].drains.zipIdx.map (fun d => (e, d.2, d.1))))[n]?

/-- Whether this device is past the instance of a DRAIN: no RUN or STEP of its stamp is live, or the instance has opened and is no
longer in state 1 or 2. -/
def pastInstance (s : State) (e : Engine) (k : Packet) : Bool :=
  match runOfStamp s k.stamp with
  | none => true
  | some (_, r, _) =>
    r.cancelStop || (!notYetOpen s k e && !s.ligature[e].slots.any (fun i =>
      i.state != .dead && ofInstance i { k with body := BitVec.ofNat 128 (bodyC { k.coll with msg := 0 }) }))

/-- Whether the acknowledgements from the sender of a DRAIN cover every value of the instance that was sent to it. -/
def valuesAcked (s : State) (k : Packet) : Bool :=
  k.src == s.router.myCoord ||
    allAcked s (some k.src) (fun m => m.isOp 2 1 && m.stamp == k.stamp && m.coll.tag == k.coll.tag && m.coll.phase == k.coll.phase &&
      m.coll.step == k.coll.step && decide (m.coll.msg ≤ 4))

/-- DRAIN_ACK_RETURN (R224, R266): the acknowledgement of the n-th held DRAIN leaves once its conditions hold. -/
def execDrainAckReturn (n : Nat) (s : State) : Host.Outcome State Fault Refusal :=
  .next (match heldColl s n with
    | none => s
    | some (e, i, k) =>
      if s.live && pastInstance s e k && valuesAcked s k then
        sendBack (updLig s e (fun l => { l with drains := removeAt l.drains i })) k.src
          { mkPacket 2 1 4 0 0 k.stamp 0 (bodyC { k.coll with msg := 6 }) [] with engine := k.engine }
      else s)

/-- DRAIN_ACK (R264, R266): a DEAD slot whose acknowledgements have all arrived is FREE. -/
def execDrainAck (i : Nat) (s : State) : Host.Outcome State Fault Refusal :=
  .next (match takeColl s i 6 with
    | none => s
    | some (k, s1) =>
      let e := engineN k.engine.toNat
      match s1.ligature[e].slots.find? (fun j =>
          j.state == .dead && ofInstance j { k with body := BitVec.ofNat 128 (bodyC { k.coll with msg := 0 }) }) with
      | none => staleDrop s1 (unitFabric (16 + e.val)) k.stamp
      | some j =>
        match folioOf s1 j.folio with
        | none => s1
        | some f =>
          match f.tables.bucket? j.tag.toNat, senderRank s1 f.part f.rank k with
          | some b, some rank =>
            let left := j.drains.filter (fun d => d != f.tables.contributor b (coordOfRank f.box rank))
            if left.isEmpty then updLig s1 e (fun l => { l with slots := l.slots.filter (fun x => !x.same j) })
            else updSlot s1 e { j with drains := left }
          | _, _ => s1)

end Sys2Proof.Machine
end

