-- ==== Sys2Proof/Machine/Gathers.lean ====
section
/-! DEFINITION. Serving parameters (R259 to R261): what a consumer asks of the owners of a bucket's shards, the gather queue, and
GATHER_REQ, GATHER_SERVE and GATHER_DATA. -/

namespace Sys2Proof.Machine

open Sys2Proof

/-! ### Requests -/

/-- Payloads of one stored shard of a GATHER exchange, and the requests that ask for them (R260). -/
def gatherPayloads (f : Folio) (e : ExchEntry) : Nat :=
  match f.tables.tensors[e.src]? with
  | none => 0
  | some t => payloadCount t.format t.elems

def gatherRequests (f : Folio) (e : ExchEntry) : Nat := ceilDiv (gatherPayloads f e) 128

/-- Requests of an owner's shard that have been answered whole. -/
def answered (n o : Nat) (y : ExchRun) : Nat :=
  ((List.range (ceilDiv n 128)).filter (fun r =>
    (List.range (min 128 (n - 128 * r))).all (fun k => y.units.contains (o, 128 * r + k)))).length

/-- The next payload to ask an owner for. -/
def nextAsk (y : ExchRun) (o : Nat) : Nat := match y.gathers.find? (fun g => g.1 == o) with | some g => g.2.1 | none => 0

/-- One request to an owner, when fewer than 32 are outstanding (R260). -/
def askOne (p : Part) (h : Handle) (f : Folio) (b : BucketEntry) (x : Nat) (e : ExchEntry) (o : Nat) (s : State) : State :=
  match runOf s h with
  | none => s
  | some (_, r) =>
    let y := r.exchRun h x f.step16
    let n := gatherPayloads f e
    let at_ := nextAsk y o
    if n ≤ at_ || 32 ≤ at_ / 128 - answered n o y then s
    else
      let k := min 128 (n - at_)
      let me := f.tables.contributor b f.coord
      let s1 := updExch s h x f.step16 (fun y =>
        { y with gathers := (o, at_ + k, 0) :: y.gathers.filter (fun g => g.1 != o) })
      sendToRank s1 p f.rank (contributorRank f b o)
        (mkPacket 0 8 4 0 0 (partStamp s p) 0
          (bodyC { msg := 7, tag := b.tag, phase := 0, step := f.step16, shard := o, lo := me, hi := me, seg := at_, form := 0 }) (le 4 k))

/-- Every request that a consumer may have outstanding for an exchange. -/
def askGathers (s : State) (h : Handle) (x : Nat) : State :=
  match runOf s h with
  | none => s
  | some (o, r) =>
    match folioOf s r.folio with
    | none => s
    | some f =>
      match f.tables.exchs[x]? with
      | none => s
      | some e =>
        match f.tables.bucket? e.ref with
        | none => s
        | some b =>
          if e.kind != 4 || !(r.exchRun h x f.step16).rxOpen || partStopped s o.part then s
          else (List.range (f.tables.bucketP b)).foldl (fun s own =>
            (List.range (gatherRequests f e)).foldl (fun s _ => askOne o.part h f b x e own s) s) s

/-! ### The owner -/

/-- The folio of a job that owns a gathered bucket: the running one, or one that declares the tag. -/
def gatherFolio (s : State) (stamp : Stamp) (tag : Nat) : Option Folio :=
  match tableRun s stamp with
  | some (_, _, f) => if (f.tables.bucket? tag).isSome then some f else none
  | none =>
    match partOfStamp s stamp with
    | none => none
    | some p => s.folios.find? (fun f => f.part == p && (f.tables.bucket? tag).isSome)

/-- The stored shard of a bucket at its owner: input0 of its GATHER exchanges. -/
def gatherSource (f : Folio) (tag : Nat) : Option TRef :=
  (f.tables.exchs.find? (fun e => e.kind == 4 && e.ref == tag)).bind (fun e => f.tensor e.src)

/-- The stamp that a stale-role reply carries: that of a job with the same JOB_ID here, or 0 (R186, R318). -/
def targetStamp (s : State) (stamp : Stamp) : Stamp :=
  match allParts.find? (fun p => match s.parts[p].job with | some j => j.id == stamp.extractLsb' 16 16 | none => false) with
  | some p => partStamp s p
  | none => 0

/-- A negative or positive reply to a request (R299, R318). -/
def replyTo (s : State) (k : Packet) (code : Nat) (payload : Bytes) : State :=
  let body := code % 8 + (if code = 1 then (targetStamp s k.stamp).toNat * 2 ^ 32 else 0)
  sendBack s k.src (mkPacket 1 1 4 0 0 k.stamp k.aux.toNat body payload)

/-- GATHER_REQ (R186, R260, R264, R268): queued at the owner. -/
def execGatherReq (i : Nat) (s : State) : Host.Outcome State Fault Refusal :=
  .next (if 16384 ≤ s.gatherQ.length then s
    else
      match takeInbox s i 0 8 with
      | none => s
      | some (k, s1) =>
        match partOfStamp s1 k.stamp with
        | none => replyTo (staleDrop s1 (unitFabric 16) k.stamp) k 1 []
        | some p =>
          if !s1.folios.any (fun f => f.part == p) then replyTo (staleDrop s1 (unitFabric 16) k.stamp) k 1 []
          else if (gatherFolio s1 k.stamp k.coll.tag).isNone then collError s1 k
          else { s1 with gatherQ := s1.gatherQ ++ [k] })

/-- Whether an owner may serve a request: the update of the step before has applied (R260). -/
def mayServe (f : Folio) (k : Packet) : Bool :=
  let done := match f.applied.find? (fun a => a.1 == k.coll.tag) with | some a => a.2 | none => f.jobStep
  decide ((done % 2 ^ 16 + 2 ^ 16 - k.coll.step) % 2 ^ 16 < 2 ^ 15)

/-- The payloads of a request. -/
def gatherReplies (m : Memory) (t : TRef) (k : Packet) : List Packet :=
  let c := k.coll
  let b := wireBytes m t 0 t.entry.elems
  (chunks 512 ((b.drop (512 * c.seg)).take (512 * u32 k.payload 0))).zipIdx.map (fun x =>
    mkPacket 1 5 4 0 0 k.stamp 0 (bodyC { c with msg := 8, seg := c.seg + x.2 }) x.1)

/-- The key of a consumer's requests for a tag in a step. -/
def gatherKey (k : Packet) (rank : Nat) : Nat × Nat := (k.coll.tag, k.coll.step * 512 + rank)

/-- A request served: its replies, the tally, and WEIGHT_SQ on the first serve of the step to the own request (R261). -/
def serveGather (s : State) (f : Folio) (t : TRef) (k : Packet) : State :=
  let rank := (senderRank s f.part f.rank k).getD f.rank
  let key := gatherKey k rank
  let n := tallyGet f.gatherServed key
  let s1 := (gatherReplies s.mem t k).foldl (fun s r => sendBack s k.src r) s
  let s2 := updFolio s1 f.handle (fun f => { f with gatherServed := tallySet f.gatherServed key (n + 1) })
  if rank = f.rank ∧ n = 0 then
    match runOfStamp s2 k.stamp, f.tables.bucket? k.coll.tag with
    | some (o, _, _), some b => countMarg s2 o.handle b 0 ((List.range t.entry.elems).map (represented s.mem f t))
    | _, _ => s2
  else s2

/-- GATHER_SERVE (R259 to R261, R477, R480): the n-th queued request is served once it may be. -/
def execGatherServe (n : Nat) (s : State) : Host.Outcome State Fault Refusal :=
  .next (match s.gatherQ[n]? with
    | none => s
    | some k =>
      match gatherFolio s k.stamp k.coll.tag with
      | none => s
      | some f =>
        match gatherSource f k.coll.tag with
        | none => s
        | some t =>
          if !s.live || partStopped s f.part || !mayServe f k then s
          else needing s (tensorDomains s f t) 5 s (fun s =>
            let s1 := { s with gatherQ := removeAt s.gatherQ n }
            if tensorPoisoned s.mem t then
              failJob s1 k.stamp 0x110 (unitFabric (16 + k.engine.toNat)) k.coll.tag (poisonAt s.mem t.base t.entry.size) 3
            else serveGather s1 f t k))

/-! ### The consumer -/

/-- The open GATHER exchange that a reply belongs to: one that has asked for the payload and has not received it. -/
def gatherTarget (f : Folio) (h : Handle) (r : Run) (k : Packet) : Option (Nat × ExchEntry) :=
  (f.tables.exchs.zipIdx.find? (fun e =>
    let y := r.exchRun h e.2 f.step16
    e.1.kind == 4 && e.1.ref == k.coll.tag && y.rxOpen && decide (k.coll.seg < nextAsk y k.coll.shard) &&
      !y.units.contains (k.coll.shard, k.coll.seg))).map (fun e => (e.2, e.1))

/-- A stored payload at its consumer: written at its place and counted (R170, R259). -/
def gatherArrive (s : State) (k : Packet) : State :=
  match runOfStamp s k.stamp with
  | none => staleDrop s (unitFabric (16 + k.engine.toNat)) k.stamp
  | some (o, r, f) =>
    if (f.tables.bucket? k.coll.tag).isNone then collError s k
    else if k.coll.step ≠ f.step16 then bump s 4 0 1
    else
      match gatherTarget f o.handle r k with
      | none => overcount s k.stamp (unitFabric (16 + k.engine.toNat)) k.coll.tag
      | some (x, e) =>
        match f.tensor e.src, f.tensor e.dst with
        | some a, some d =>
          if exchExpected f e ≤ (r.exchRun o.handle x f.step16).count then overcount s k.stamp (exchUnit f e) x
          else
            let m := wireStore s.mem d (k.coll.shard * a.entry.elems) a.entry.elems (512 * k.coll.seg) k.payload
            let s1 := updExch { s with mem := m } o.handle x f.step16 (fun y =>
              { y with units := (k.coll.shard, k.coll.seg) :: y.units, count := y.count + 1 })
            askGathers s1 o.handle x
        | _, _ => s

/-- The domains that hold the destination of gathered bytes. -/
def gatherDomains (s : State) (k : Packet) : List Domain :=
  match runOfStamp s k.stamp with
  | none => []
  | some (o, r, f) => match gatherTarget f o.handle r k with | some (_, e) => tensorIdxDomains s f e.dst | none => []

/-- GATHER_DATA (R170, R186, R187, R259, R260, R425). -/
def execGatherData (i : Nat) (s : State) : Host.Outcome State Fault Refusal :=
  .next (match takeInbox s i 1 5 with
    | none => s
    | some (k, s1) => needing s (gatherDomains s k) 4 s (fun _ => gatherArrive s1 k))

/-! ### Closure (R246, R260) -/

/-- The GATHER exchanges of a tag in a step. -/
def gathersOf (t : Tables) (tag : Nat) : List Nat :=
  sortBy (fun a b => decide (t.issueStroke a < t.issueStroke b)) ((List.range t.exchs.length).filter (fun x =>
    match t.exchs[x]? with
    | some e => e.kind == 4 && e.ref == tag
    | none => false))

/-- Whether every consumer of a bucket's group has had the requests of its first `k` GATHER exchanges of the step served here. -/
def servedAll (f : Folio) (tag k : Nat) : Bool :=
  match f.tables.bucket? tag, (gathersOf f.tables tag).head?.bind (fun x => f.tables.exchs[x]?) with
  | some b, some e =>
    (List.range (f.tables.bucketP b)).all (fun c =>
      decide (k * gatherRequests f e ≤ tallyGet f.gatherServed (tag, f.step16 * 512 + contributorRank f b c)))
  | _, _ => true

/-- Whether a GATHER exchange has read its last source byte: every consumer's requests up to it have been served. -/
def gatherDrained (f : Folio) (x : Nat) : Bool :=
  match f.tables.exchs[x]? with
  | none => true
  | some e => servedAll f e.ref (((indexOf? (fun y => y == x) (gathersOf f.tables e.ref)).getD 0) + 1)

/-- Whether every GATHER_REQ of the step for a bucket's own shard has been served. -/
def bucketServed (f : Folio) (tag : Nat) : Bool := servedAll f tag (gathersOf f.tables tag).length

end Sys2Proof.Machine
end

