-- ==== Sys2Proof/Machine/Record.lean ====
section
/-! DEFINITION. The module record (R456 to R459): its blocks, its policy defaults and its repair map. -/

namespace Sys2Proof.Machine

open Sys2Proof

/-- An OFFSET and BYTES pair of the record's header. -/
def recordBlock (r : Bytes) (o : Nat) : Bytes := slice r (u32 r o) (u32 r (o + 4))

/-- The identity certificate (R456). -/
def recordCert (r : Bytes) : Bytes := recordBlock r 0x90

/-- The policy defaults block (R458). -/
def recordPolicy (r : Bytes) : Bytes := recordBlock r 0x98

/-- RECORD_FLAGS: BAR4_ALLOWED and DEBUG_ALLOWED (R458). -/
def recordFlags (r : Bytes) : Nat := u16 (recordPolicy r) 2

/-- A flag of the record that the device holds. -/
def recordFlag (s : State) (i : Nat) : Bool :=
  match s.silicon.eeprom with
  | some r => bit (recordFlags r) i
  | none => false

/-- Whether the header of a record keeps R456. -/
def recordHeaderOk (r : Bytes) : Bool :=
  let sig := u32 r 8
  u32 r 0 == 0x524D5A53 && u16 r 4 == 1 && u16 r 6 == 0 && sig % 64 == 0 && decide (sig + 7232 ≤ 2 ^ 18) && u32 r 0xC == 0 &&
    ((r.drop 0x20).take 16 == ([0x53, 0x5A, 0x42, 0x38, 0x30, 0x2D, 0x4C, 0x51] : Bytes) ++ zeros 8) && u16 r 0x30 == 0xB1 &&
    u16 r 0x36 == 0 && zeroRange r 0xA0 96 &&
    [0x80, 0x88, 0x90, 0x98].all (fun o => u32 r o % 64 == 0 && decide (u32 r o + u32 r (o + 4) ≤ sig)) &&
    decide (u32 r 0x84 ≤ 8192) && decide (u32 r 0x94 ≤ 16384)

/-- PD_CFGn of the policy defaults (R458). -/
def policyCfg (p : Bytes) (n : Nat) : Nat := u32 p (0x10 + 4 * n)

/-- Whether the policy defaults are in range (R458, R434). -/
def recordPolicyOk (r : Bytes) : Bool :=
  let p := recordPolicy r
  decide (308 ≤ u32 r 0x9C) && u16 p 0 == 1 && decide (u16 p 2 < 4) && decide (1200 ≤ u32 p 4) && decide (u32 p 4 ≤ 3000) &&
    (List.range 4).all (fun q => decide (10 ≤ u8 p (8 + q)) && decide (u8 p (8 + q) ≤ 100) && u8 p (8 + q) % 5 == 0) && u32 p 0xC == 0 &&
    (List.range 73).all (fun n =>
      let v := policyCfg p n
      n == 0 || (decide (v < 2 ^ 24) && bits v 15 6 == 0 && !bit v 3 && decide (10 ≤ v / 2 ^ 16) && decide (v / 2 ^ 16 ≤ 100) &&
        decide (bits v 5 4 ≤ 2) && (decide (n < 33) || decide (v % 4 ≤ 1))))

/-- Whether the repair map is in range (R459). -/
def repairOk (r : Bytes) : Bool :=
  let m := recordBlock r 0x88
  decide (5228 ≤ u32 r 0x8C) && u16 m 0 == 1 &&
    (List.range 100).all (fun i => decide (u8 m (2 + i) ≤ 50) || u8 m (2 + i) == 0xFF) && zeroRange m 102 26 &&
    (List.range 5100).all (fun i => decide (u8 m (0x80 + i) ≤ 16) || u8 m (0x80 + i) == 0xFF)

/-- The physical column of a logical column (R459). -/
def physicalCol (m : Bytes) (q row col : Nat) : Nat :=
  let e := u8 m (2 + q * 25 + row)
  let d := if e = 0xFF then 50 else e
  if col < d then col else col + 1

/-- The physical core of a logical core (R459). -/
def physicalCore (m : Bytes) (q row col core : Nat) : Nat :=
  let v := u8 m (0x80 + q * 1275 + row * 51 + physicalCol m q row col)
  let e := if v = 0xFF then 16 else v
  if core < e then core else core + 1

/-- The signature block of a record (R37, R457): the vendor key and the signature. -/
def recordKey (r : Bytes) : Bytes := slice r (u32 r 8 + 8) 2592
def recordSignature (r : Bytes) : Bytes := slice r (u32 r 8 + 8 + 2592) 4627

end Sys2Proof.Machine
end

