-- ==== Sys2Proof/Machine/MemoryTarget.lean ====
section
/-! DEFINITION. Memory targets (R269 to R281, R287 to R302): where an access goes and whether its stamp is met, the receipt ledger,
line queues, what an access does, MEM_LOAD, MEM_STORE, MEM_ATOMIC, LINE_QUEUE_SERVE and BAR4_ACCESS. -/

namespace Sys2Proof.Machine

open Sys2Proof

/-! ### Requests (R317, R318, form M) -/

def Packet.form (k : Packet) : Nat := k.field 192 192
def Packet.sizeBytes (k : Packet) : Nat := 2 ^ k.field 195 193
def Packet.atomicOp (k : Packet) : Nat := k.field 199 196

/-- The body of form M. -/
def bodyM (form place tensor size op : Nat) : Nat :=
  (if form = 0 then place % 2 ^ 48 + (tensor % 2 ^ 16) * 2 ^ 48 else place % 2 ^ 47) + form * 2 ^ 64 + (size % 8) * 2 ^ 65 + (op % 16) * 2 ^ 68

/-- Whether an access crosses a 64-byte line (R271). -/
def crossesLine (a n : Nat) : Bool := decide (64 < a % 64 + n)

/-! ### Where an access goes -/

/-- What a request finds at the target: a place, a stamp that differs, or an access fault. -/
inductive Reach where
  | ok (addr : Nat) (target : LineTarget)
  | stale (held : Stamp) (unit : Nat)
  | bad
deriving DecidableEq, Repr

/-- The stack that holds an HBM address. -/
def stackAt (s : State) (a : Nat) : Stack := Fin.ofNat 8 (stackOf (regionOf s a).stackLocal a).1

/-- The clusters whose SRAM holds a tensor: those of the grids that use it (R524). -/
def tensorClusters (f : Folio) (x : Nat) : List Nat :=
  (List.range f.tables.grids.length).flatMap (fun g => if gridUses f.tables g x then f.gridClusters g else [])

/-- A place in cluster SRAM, if its stub holds the stamp. -/
def reachCluster (s : State) (stamp : Stamp) (a c : Nat) : Reach :=
  if stubStamp s c = stamp then .ok a (.cluster c) else .stale (stubStamp s c) c

/-- A tensor-form access at a device (R285): `own` says whether it comes from the device itself. -/
def reachTensor (s : State) (f : Folio) (stamp : Stamp) (x off n : Nat) : Reach :=
  match f.tensor x with
  | none => .bad
  | some t =>
    let a := t.base + off
    if t.entry.bytes < off + n || crossesLine a n || t.entry.placement == 3 then .bad
    else if t.entry.inHbm then
      (if carveStampOf s f.part = stamp then .ok a (.hbm (stackAt s a)) else .stale (carveStampOf s f.part) (unitHbm (stackAt s a).val))
    else
      match tensorClusters f x with
      | [] => .bad
      | c :: _ => reachCluster s stamp a c

/-- A pod-address access at a device (R271 to R273). -/
def reachLocal (s : State) (stamp : Stamp) (a n : Nat) : Reach :=
  if crossesLine a n then .bad
  else if isHbm a then
    let r := regionOf s a
    let held := if r.assigned then carveStampOf s r.part else 0
    if held = stamp then .ok a (.hbm (stackAt s a)) else .stale held (unitHbm (stackAt s a).val)
  else if inClusterWindow a then reachCluster s stamp a ((a - clusterBase) / clusterBytes)
  else if inCoreWindow a then reachCluster s stamp a ((a - coreBase) / coreBytes / 16)
  else .bad

/-- The folio through whose tensor table a target resolves a request: the running one, or the first the partition holds. -/
def targetFolio (s : State) (stamp : Stamp) : Option Folio :=
  match tableRun s stamp with
  | some (_, _, f) => some f
  | none =>
    match partOfStamp s stamp with
    | none => none
    | some p => s.folios.find? (fun f => f.part == p)

/-- What a request finds. A stamp that names no job here is met by no unit (R186). -/
def reach (s : State) (k : Packet) : Reach :=
  if k.stamp = 0 then .stale 0 (unitHbm 0)
  else if k.form = 1 then reachLocal s k.stamp (k.field 174 128) k.sizeBytes
  else
    match targetFolio s k.stamp with
    | none => .stale (targetStamp s k.stamp) (unitHbm 0)
    | some f => reachTensor s f k.stamp (k.field 191 176) (k.field 175 128) k.sizeBytes

/-- A reply to a memory request (R299, R318). -/
def answer (s : State) (k : Packet) (code : Nat) (held : Stamp) (payload : Bytes) : State :=
  sendBack s k.src (mkPacket 1 1 5 0 0 k.stamp k.aux.toNat (code % 8 + held.toNat * 2 ^ 32) payload)

/-! ### The receipt ledger (R294) -/

/-- The entries of a source under a stamp. -/
def ledgerOf (s : State) (src : Coord) (stamp : Stamp) : LedgerSource :=
  match s.ledger.find? (fun l => l.src == src) with
  | some l => if l.stamp = stamp then l else { src := src, stamp := stamp, atomics := [], stores := [] }
  | none => { src := src, stamp := stamp, atomics := [], stores := [] }

/-- The entries of a source changed. -/
def updLedger (s : State) (src : Coord) (stamp : Stamp) (g : LedgerSource → LedgerSource) : State :=
  { s with ledger := g (ledgerOf s src stamp) :: s.ledger.filter (fun l => l.src != src) }

/-- A performed store entered: the last 64 are kept. -/
def ledgerStore (s : State) (k : Packet) : State :=
  updLedger s k.src k.stamp (fun l => { l with stores := (k.aux :: l.stores).take 64 })

/-- A performed atomic entered with its result. -/
def ledgerAtomic (s : State) (k : Packet) (v : Word64) : State :=
  updLedger s k.src k.stamp (fun l => { l with atomics := ((k.aux, v) :: l.atomics).take 64 })

/-- Whether a request comes from another device: then it carries a REQUEST_ID (R293, R295). -/
def remote (s : State) (k : Packet) : Bool := k.src != s.router.myCoord

/-- Whether a store is in the ledger. -/
def storeReplayed (s : State) (k : Packet) : Bool := remote s k && (ledgerOf s k.src k.stamp).stores.contains k.aux

/-- The recorded result of an atomic that is in the ledger. -/
def atomicReplayed (s : State) (k : Packet) : Option Word64 :=
  if remote s k then ((ledgerOf s k.src k.stamp).atomics.find? (fun e => e.1 == k.aux)).map (fun e => e.2) else none

/-! ### Line queues (R296) -/

/-- Lines that a target's queue holds. -/
def queueDepth (t : LineTarget) : Nat :=
  match t with
  | .hbm _ => 512
  | .cluster _ => 32

/-- The queue of a target. -/
def queueOf (s : State) (t : LineTarget) : List LineEntry :=
  match s.lineQueues.find? (fun q => q.target == t) with
  | some q => q.entries
  | none => []

/-- The queue of a target set; an empty one is not listed. -/
def setQueue (s : State) (t : LineTarget) (l : List LineEntry) : State :=
  let rest := s.lineQueues.filter (fun q => q.target != t)
  { s with lineQueues := if l.isEmpty then rest else { target := t, entries := l } :: rest }

/-- Whether a target's queue accepts a request. -/
def hasRoom (s : State) (t : LineTarget) : Bool := decide ((queueOf s t).length < queueDepth t)

/-- A store merged into the latest entry of its line when that is a store; the list is newest first (R296). -/
def mergeRev (line : Nat) (b : List (Nat × Byte)) : List LineEntry → Option (List LineEntry)
  | [] => none
  | e :: t =>
    if e.line = line then
      (if e.kind = .store then some ({ e with bytes := b ++ e.bytes.filter (fun x => !b.any (fun y => y.1 == x.1)) } :: t) else none)
    else (mergeRev line b t).map (fun r => e :: r)

/-- A store admitted: merged, or a new entry at the end. -/
def admitStore (s : State) (t : LineTarget) (e : LineEntry) : State :=
  match mergeRev e.line e.bytes (queueOf s t).reverse with
  | some l => bump (setQueue s t l.reverse) 6 0 1
  | none => setQueue s t (queueOf s t ++ [e])

/-- The bytes of a store by offset within their line. -/
def lineBytes (a : Nat) (b : Bytes) : List (Nat × Byte) := b.zipIdx.map (fun x => (a % 64 + x.2, x.1))

/-! ### What an access does -/

/-- A little-endian word at a target's address. -/
def targetWord (s : State) (a n : Nat) : Nat := uN (targetBytes s a n) 0 n

/-- An entry of a top-k line: key pattern and item (R290). -/
def topkEntry (w : Nat) : XVal × Nat := (fp32 (BitVec.ofNat 32 (w / 2 ^ 32)), w % 2 ^ 32)

/-- Whether entry v ranks above entry w; an empty entry ranks below every other. -/
def topkAbove (v w : Nat) : Bool :=
  let a := topkEntry v
  let b := topkEntry w
  if b.2 = noneIdx then a.2 != noneIdx else a.2 != noneIdx && ranksAbove a.1 a.2 b.1 b.2

/-- Whether a line holds a valid list: in rank order, no item twice. -/
def topkValid (l : List Nat) : Bool :=
  (l.zip (l.drop 1)).all (fun p => topkAbove p.1 p.2 || (topkEntry p.2).2 == noneIdx) &&
    noRepeats ((l.map (fun w => (topkEntry w).2)).filter (fun i => i != noneIdx))

/-- TOPK_INSERT on the eight entries of a line (R290). -/
def topkInsert (l : List Nat) (v : Nat) : List Nat :=
  if (topkEntry v).2 = noneIdx then l
  else if l.any (fun w => (topkEntry w).2 == (topkEntry v).2) then
    sortBy topkAbove (l.map (fun w => if (topkEntry w).2 == (topkEntry v).2 && topkAbove v w then v else w))
  else (sortBy topkAbove (v :: l)).take 8

/-- What an atomic leaves in memory, from the old value, rA and rC (R289); TOPK_INSERT is topkInsert. -/
def atomicNew (op n old a c : Nat) : Nat :=
  let m := 2 ^ (8 * n)
  let a := a % m
  let sg := fun (v : Nat) => toSigned (8 * n) v
  match op with
  | 0 => (old + a) % m
  | 1 => (old + a) % m
  | 2 => (fp32Bits (fadd (fp32 (BitVec.ofNat 32 old)) (fp32 (BitVec.ofNat 32 a)))).toNat
  | 3 => if sg a < sg old then a else old
  | 4 => if sg old < sg a then a else old
  | 5 => min old a
  | 6 => max old a
  | 7 => a
  | 8 => if old = c % m then a else old
  | _ => old

/-- Whether an atomic returns the old value (R289). -/
def atomicReturns (op : Nat) : Bool := op == 1 || op == 7 || op == 8

/-- TOPK_INSERT on the line of an address; a line that did not hold a valid list is left undefined (R290). A NaN key is counted once
(R129). -/
def performTopk (s : State) (stamp : Stamp) (a v : Nat) : State :=
  let base := a / 64 * 64
  let l := (List.range 8).map (fun i => targetWord s (base + 8 * i) 8)
  let s1 := if topkValid l then targetStore s base ((topkInsert l v).flatMap (fun w => le 8 w)) else undefineRange s base (base + 64)
  if (topkEntry v).1.isNan && (topkEntry v).2 != noneIdx then
    match runOfStamp s1 stamp with
    | some (o, _, _) => countEvents s1 o.handle { noEvents with topkNan := 1 }
    | none => s1
  else s1

/-- An atomic performed at an address: the old value and the state after it. -/
def performAtomic (s : State) (stamp : Stamp) (op a n ra rc : Nat) : Nat × State :=
  if op = 9 then (0, performTopk s stamp a ra)
  else
    let old := targetWord s a n
    let new := atomicNew op n old ra rc
    (if atomicReturns op then old else 0, if op = 8 && old != rc % 2 ^ (8 * n) then s else targetStore s a (le n new))

/-! ### ECC of a read (R277, R476) -/

/-- The stack address of a local HBM address. -/
def stackAddr (s : State) (a : Nat) : Nat := (stackOf (regionOf s a).stackLocal a).2

/-- An uncorrectable HBM line: poisoned, counted, flagged and recorded. -/
def hbmPoisoned (s : State) (n a : Nat) : State :=
  let s1 := bump (updMem s (fun m => m.setPoison a)) 0x11 n 1
  note { s1 with errors := { s1.errors with hbmUe := true, hbmUeCount := satAdd 32 s1.errors.hbmUeCount 1 } } 0x51 (unitHbm n) 0
    (stackAddr s a) n 0

/-- An uncorrectable line of cluster or core SRAM: poisoned, counted and flagged; the job whose state it holds fails (R475). -/
def sramPoisoned (s : State) (c a : Nat) : State :=
  let s1 := bump (updMem s (fun m => m.setPoison a)) 0x51 (quadOfCluster c) 1
  let s2 := { s1 with errors := { s1.errors with sramUe := true, sramUeCount := satAdd 32 s1.errors.sramUeCount 1 } }
  if stubStamp s c = 0 then s2 else failJob s2 (stubStamp s c) 0x111 c c a 0

/-- What the code of a memory makes of one read. -/
def eccRead (s : State) (t : LineTarget) (a : Nat) (e : Ecc) : State :=
  match e, t with
  | .clean, _ => s
  | .corrected, .hbm n => correctedError (bump s 0x10 n.val 1) (unitHbm n.val)
  | .corrected, .cluster c => correctedError (bump s 0x50 (quadOfCluster c) 1) c
  | .uncorrectable, .hbm n => hbmPoisoned s n.val a
  | .uncorrectable, .cluster c => sramPoisoned s c a

/-! ### Arrival -/

/-- A line entry of a request without store bytes. -/
def requestEntry (kind : ReqKind) (a : Nat) (k : Packet) : LineEntry :=
  { line := a / 64, kind := kind, bytes := [], off := a % 64, len := k.sizeBytes, req := k, bar4 := none }

/-- A request whose stamp differs, or that faults (R186, R299). -/
def refuseRequest (s : State) (k : Packet) (r : Reach) : State :=
  match r with
  | .ok _ _ => s
  | .stale held unit => answer (staleDrop s unit k.stamp) k 1 held []
  | .bad => answer s k 2 0 []

/-- MEM_LOAD (R186, R285, R296, R298). -/
def execMemLoad (i : Nat) (s : State) : Host.Outcome State Fault Refusal :=
  .next (match takeInbox s i 0 1 with
    | none => s
    | some (k, s1) =>
      match reach s1 k with
      | .ok a t => if hasRoom s1 t then setQueue s1 t (queueOf s1 t ++ [requestEntry .load a k]) else s
      | r => refuseRequest s1 k r)

/-- MEM_STORE (R186, R285, R287, R294, R296, R298): acknowledged on admission. -/
def execMemStore (i : Nat) (s : State) : Host.Outcome State Fault Refusal :=
  .next (match takeInbox s i 0 2 with
    | none => s
    | some (k, s1) =>
      match reach s1 k with
      | .ok a t =>
        if storeReplayed s1 k then answer (bump s1 5 0 1) k 0 0 []
        else if hasRoom s1 t then
          let e := { requestEntry .store a k with bytes := lineBytes a (k.payload.take k.sizeBytes) }
          let s2 := admitStore s1 t e
          answer (if remote s1 k then ledgerStore s2 k else s2) k 0 0 []
        else s
      | r => refuseRequest s1 k r)

/-- The payload of an atomic's reply. -/
def atomicPayload (op : Nat) (v : Word64) : Bytes := if atomicReturns op then le 8 v.toNat else []

/-- MEM_ATOMIC (R186, R285, R294, R296, R298). -/
def execMemAtomic (i : Nat) (s : State) : Host.Outcome State Fault Refusal :=
  .next (match takeInbox s i 0 3 with
    | none => s
    | some (k, s1) =>
      match reach s1 k with
      | .ok a t =>
        match atomicReplayed s1 k with
        | some v => answer (bump s1 5 0 1) k 0 0 (atomicPayload k.atomicOp v)
        | none => if hasRoom s1 t then setQueue s1 t (queueOf s1 t ++ [requestEntry .atomic a k]) else s
      | r => refuseRequest s1 k r)

/-! ### Service -/

/-- The bytes of a (merged) store written; all 64 of a line clear its poison (R278, R477). -/
def performStore (s : State) (e : LineEntry) : State :=
  let a := e.line * 64
  let s1 := if inCoreWindow a then e.bytes.foldl (fun s x => targetStore s (a + x.1) [x.2]) s
    else updMem s (fun m => e.bytes.foldl (fun m x => m.write (a + x.1) x.2) m)
  if (List.range 64).all (fun i => e.bytes.any (fun x => x.1 == i)) then updMem s1 (fun m => m.clearPoison a) else s1

/-- A load served (R278, R299). -/
def performLoad (s : State) (e : LineEntry) : State :=
  let a := e.line * 64 + e.off
  if s.mem.poisoned (e.line * 64) 64 then answer s e.req 3 0 [] else answer s e.req 0 0 (targetBytes s a e.len)

/-- An atomic served (R278, R289, R294, R299). -/
def serveAtomic (s : State) (e : LineEntry) : State :=
  let k := e.req
  match atomicReplayed s k with
  | some v => answer (bump s 5 0 1) k 0 0 (atomicPayload k.atomicOp v)
  | none =>
    if s.mem.poisoned (e.line * 64) 64 then answer s k 3 0 []
    else
      let r := performAtomic s k.stamp k.atomicOp (e.line * 64 + e.off) e.len (u64 k.payload 0) (u64 k.payload 8)
      let v := BitVec.ofNat 64 r.1
      let s1 := if remote s k then ledgerAtomic r.2 k v else r.2
      answer s1 k 0 0 (atomicPayload k.atomicOp v)

/-- The piece of a BAR4 read (R278, R301): a poisoned line reads as all ones with the poisoned-TLP indication. -/
def performBar4 (s : State) (p : Port) (e : LineEntry) : State :=
  let a := e.line * 64 + e.off
  let bad := s.mem.poisoned (e.line * 64) 64
  let b := if bad then List.replicate e.len 0xFF#8 else targetBytes s a e.len
  updPort s p (fun x =>
    { x with bar4Data := x.bar4Data.map (fun d => overlay d (a - x.bar4Start) b), bar4Left := x.bar4Left - e.len,
             bar4Poison := x.bar4Poison || bad })

/-- An entry performed. -/
def performEntry (s : State) (e : LineEntry) : State :=
  match e.kind, e.bar4 with
  | .store, _ => performStore s e
  | .load, some p => performBar4 s p e
  | .load, none => performLoad s e
  | .atomic, _ => serveAtomic s e

/-- The domain of a target. -/
def targetDomain (t : LineTarget) : Domain :=
  match t with
  | .hbm n => stackDomain n.val
  | .cluster c => bandDomain (bandOfCluster c)

/-- The wake source of an entry (R430). -/
def entrySource (s : State) (e : LineEntry) : Nat := if e.bar4.isSome then 6 else if remote s e.req then 5 else 3

/-- LINE_QUEUE_SERVE (R287, R296, R425): the head of a target's queue is performed; `ecc` is what the memory's code makes of the
read. -/
def execLineQueueServe (t : LineTarget) (ecc : Ecc) (s : State) : Host.Outcome State Fault Refusal :=
  .next (match queueOf s t with
    | [] => s
    | e :: rest =>
      if !s.live then s
      else needing s [targetDomain t] (entrySource s e) s (fun s =>
        let s1 := setQueue s t rest
        performEntry (if e.kind = .store then s1 else eccRead s1 t (e.line * 64) ecc) e))

/-! ### BAR4 (R301, R381, R382) -/

/-- Whether an HBM address lies in the carve-out of a partition bound to a port. -/
def bar4Bound (s : State) (p : Port) (a : Nat) : Bool :=
  isHbm a && (let r := regionOf s a; r.assigned && s.parts[r.part].assigned && s.parts[r.part].port == p)

/-- A range cut at lines: (address, bytes) of each piece. -/
def linePieces (a n : Nat) : List (Nat × Nat) :=
  (List.range (ceilDiv (a % 64 + n) 64)).map (fun i =>
    let lo := if i = 0 then a else (a / 64 + i) * 64
    (lo, min (a + n) ((a / 64 + i + 1) * 64) - lo))

/-- A BAR4 entry. -/
def bar4Entry (p : Port) (kind : ReqKind) (a n : Nat) (b : Bytes) : LineEntry :=
  { line := a / 64, kind := kind, bytes := lineBytes a b, off := a % 64, len := n,
    req := mkPacket 0 0 0 0 0 0 0 0 [], bar4 := some p }

/-- A BAR4 read into the line queues. -/
def bar4Read (s : State) (p : Port) (a n : Nat) : State :=
  let s1 := updPort s p (fun x => { x with bar4Data := some (zeros n), bar4Start := a, bar4Left := n, bar4Poison := false })
  (linePieces a n).foldl (fun s x =>
    let t := LineTarget.hbm (stackAt s x.1)
    setQueue s t (queueOf s t ++ [bar4Entry p .load x.1 x.2 []])) s1

/-- A BAR4 write into the line queues. -/
def bar4Write (s : State) (p : Port) (a : Nat) (b : Bytes) : State :=
  (linePieces a b.length).foldl (fun s x =>
    admitStore s (.hbm (stackAt s x.1)) (bar4Entry p .store x.1 x.2 ((b.drop (x.1 - a)).take x.2))) s

/-- Whether every line queue that a range needs has room. -/
def bar4Room (s : State) (a n : Nat) : Bool := (linePieces a n).all (fun x => hasRoom s (.hbm (stackAt s x.1)))

/-- Whether a port's BAR4 window answers: the record allows it, the link is up and the device runs. -/
def bar4Open (s : State) (p : Port) : Bool := s.live && s.pins.pwrGood && s.ports[p].linkUp && recordFlag s 0

/-- A refused access: a read completes with Unsupported Request, a write is discarded (R382). -/
def bar4Refuse (s : State) (p : Port) (op : Bar4Op) : State :=
  match op with
  | .read _ => updPort s p (fun x => { x with bar4Data := none, bar4Left := 0, bar4Poison := false })
  | .write _ => s

/-- BAR4_ACCESS (R301, R382): one read of a port is outstanding at a time. -/
def execBar4Access (port : Port) (offset : BitVec 36) (op : Bar4Op) (s : State) : Host.Outcome State Fault Refusal :=
  .next (if !bar4Open s port || 0 < s.ports[port].bar4Left then s
    else
      let ctrl := s.ports[port].bar4Ctrl.toNat
      let a := (ctrl % 16) * 2 ^ 36 + offset.toNat
      let n := match op with | .read k => k | .write b => b.length
      if !bit ctrl 31 then bar4Refuse s port op
      else if !(bar4Bound s port a && bar4Bound s port (a + n - 1)) then bump (bar4Refuse s port op) 0x42 port.val 1
      else if !bar4Room s a n then s
      else
        match op with
        | .read k => bar4Read s port a k
        | .write b => bar4Write s port a b)

end Sys2Proof.Machine
end

