-- ==== Sys2Proof/Machine/Roaming.lean ====
section
/-! DEFINITION. Roaming threads (R138 to R143, R282 to R289), remote-request trackers and request windows (R154, R155, R293), and
the replies that reach them (R186, R299). -/

namespace Sys2Proof.Machine

open Sys2Proof

/-! ### Threads -/

/-- A thread changed; one left in IDLE is not listed. -/
def updThread (s : State) (core : Nat) (t : Fin 8) (g : Thread → Thread) : State :=
  { s with threads := updFirst (fun x => x.core == core && x.t == t) g s.threads }

/-- The number after t in the round of threads 1 to 7. -/
def roundFrom (t : Nat) : List Nat := (List.range 7).map (fun i => (t + i) % 7 + 1)

/-- The READY thread of a core that issues next (R140). -/
def nextToIssue (s : State) (core : Nat) : Option Nat :=
  (roundFrom (tallied s.lastIssued core)).find? (fun t =>
    match threadOf s core (Fin.ofNat 8 t) with
    | some x => x.state == .ready
    | none => false)

/-- The program that a thread runs. -/
def threadProgram (s : State) (x : Thread) : Option (RoamStart × Folio × RoamProgram) :=
  match x.start with
  | none => none
  | some st =>
    match folioOf s st.folio with
    | none => none
    | some f => (f.tables.roaming.find? (fun p => p.inst == st.program)).map (fun p => (st, f, p))

/-- A record that a thread issues now. -/
structure IssueEnv where
  thread : Thread
  start : RoamStart
  folio : Folio
  record : RoamRecord

/-- The record that a row names, when its thread issues it now (R140, R480): the thread is next in its core's round and the record's
OP is the row's. -/
def issueEnv (s : State) (core : Nat) (t : Fin 8) (op : Nat) : Option IssueEnv :=
  if !s.live || nextToIssue s core != some t.val then none
  else
    match threadOf s core t with
    | none => none
    | some x =>
      match threadProgram s x with
      | none => none
      | some (st, f, p) =>
        match p.records[x.next]? with
        | none => none
        | some r =>
          if r.op = op && !partStopped s st.part && domainOn s (bandDomain (bandOfCluster (core / 16))) then
            some { thread := x, start := st, folio := f, record := r }
          else none

/-- A register's value; r24 to r31 do not exist and read 0. -/
def Thread.reg (x : Thread) (n : Nat) : Word64 := x.regs.toArray.getD n 0

/-- A register written. -/
def Thread.setReg (x : Thread) (n : Nat) (v : Word64) : Thread :=
  { x with regs := Vector.ofFn (fun i : Fin 24 => if i.val = n then v else x.regs[i]) }

/-- Bytes written into registers from rn on, lowest address in the low bits (R284). -/
def Thread.setBytes (x : Thread) (n : Nat) (b : Bytes) : Thread :=
  ((chunks 8 b).zipIdx).foldl (fun x e => x.setReg (n + e.2) (BitVec.ofNat 64 (uN e.1 0 8))) x

/-- The low bytes of registers from rn on. -/
def Thread.bytes (x : Thread) (n size : Nat) : Bytes :=
  ((List.range (ceilDiv size 8)).flatMap (fun i => le 8 (x.reg (n + i)).toNat)).take size

/-- The thread that issued last on its core recorded, and its next record set. -/
def issued (s : State) (x : Thread) (next : Nat) : State :=
  updThread { s with lastIssued := (x.core, x.t.val) :: s.lastIssued.filter (fun e => e.1 != x.core) } x.core x.t
    (fun y => { y with next := next })

/-! ### ROAM_START, END (R139, R141, R283) -/

/-- A thread at the start of a program (R283). -/
def startedThread (core : Nat) (t : Fin 8) (st : RoamStart) : Thread :=
  { core := core, t := t, state := .ready, resumeTo := .ready, cancelling := false, start := some st, deferred := none, next := 0,
    parks := 0,
    regs := Vector.ofFn (fun i : Fin 24 => if i.val = 0 then BitVec.ofNat 64 t.val else if i.val = 1 then BitVec.ofNat 64 st.pos
      else if i.val = 2 then BitVec.ofNat 64 st.rank else 0),
    wants := none }

/-- One start: at once on an IDLE thread, deferred on a busy one, discarded when one is deferred already (R141). -/
def startThread (h : Handle) (s : State) (core : Nat) (t : Fin 8) (st : RoamStart) : State :=
  match threadOf s core t with
  | none => { s with threads := s.threads ++ [startedThread core t st] }
  | some x =>
    if x.deferred.isNone then updThread s core t (fun y => { y with deferred := some st })
    else note (updRun s h (fun r => { r with counters := addCounter r.counters 6 1 })) 0x20 (core / 16) 0 t.val (core % 16) st.program

/-- The starts of a program on a grid: core, thread and the position within the grid. -/
def gridStarts (f : Folio) (g mask : Nat) : List (Nat × Fin 8 × Nat) :=
  (f.gridClusters g).zipIdx.flatMap (fun c =>
    (List.range 16).flatMap (fun k =>
      ((List.range 8).filter (fun t => decide (1 ≤ t) && bit mask t)).map (fun t =>
        (c.1 * 16 + k, (Fin.ofNat 8 t : Fin 8), c.2 * 16 + k))))

/-- ROAM_START (R141, R160, R283, R425): it ends the WAIT of its grid and wakes its bands. -/
def execRoamStart (h : Handle) (i : Nat) (s : State) : Host.Outcome State Fault Refusal :=
  .next (match opEnv s h i 0x0601 with
    | none => s
    | some e =>
      match e.folio.tables.programOf e.op with
      | none => opDone s e
      | some p =>
        let cs := e.folio.gridClusters e.op.grid
        let s0 := endWait s cs
        needing s0 (bandsOf cs) 3 s0 (fun s =>
          opDone ((gridStarts e.folio e.op.grid p.mask).foldl (fun s x =>
            startThread h s x.1 x.2.1
              { part := e.folio.part, folio := e.folio.handle, program := p.inst, pos := x.2.2, rank := e.folio.rank }) s) e))

/-- A thread at IDLE: a deferred start begins (R141). -/
def threadEnds (s : State) (x : Thread) : State :=
  let rest := s.threads.filter (fun y => !(y.core == x.core && y.t == x.t))
  match x.deferred with
  | some st => { s with threads := rest ++ [startedThread x.core x.t st] }
  | none => reoffer { s with threads := rest } [x.core / 16]

/-- END (R139, R141, R286). -/
def execEndProgram (core : Nat) (t : Fin 8) (s : State) : Host.Outcome State Fault Refusal :=
  .next (match issueEnv s core t 8 with
    | none => s
    | some e => threadEnds (issued s e.thread (e.thread.next + 1)) e.thread)

/-! ### ALU, BRANCH, HASH, TOKEN_SIGNAL (R286) -/

/-- The integer and FP32 functions of ALU. -/
def aluFn (fn : Nat) (b c : Word64) : Word64 :=
  let f32 := fun (v : Word64) => fp32 (v.setWidth 32)
  let flag := fun (x : Bool) => if x then (1 : Word64) else 0
  let sh := c.toNat % 64
  match fn with
  | 0x00 => c
  | 0x01 => b + c
  | 0x02 => b - c
  | 0x03 => b * c
  | 0x04 => b &&& c
  | 0x05 => b ||| c
  | 0x06 => b ^^^ c
  | 0x07 => b <<< sh
  | 0x08 => b >>> sh
  | 0x09 => b.sshiftRight sh
  | 0x0A => if b.slt c then b else c
  | 0x0B => if c.slt b then b else c
  | 0x0C => if b.ult c then b else c
  | 0x0D => if c.ult b then b else c
  | 0x0E => flag (b == c)
  | 0x0F => flag (b.slt c)
  | 0x10 => flag (b.ult c)
  | 0x11 => if c = 0 then 0xFFFFFFFFFFFFFFFF else b / c
  | 0x18 => (fp32Bits (fadd (f32 b) (f32 c))).setWidth 64
  | 0x19 => (fp32Bits (fmul (f32 b) (f32 c))).setWidth 64
  | 0x1A => flag (XVal.lt (f32 b) (f32 c))
  | _ => 0

/-- The second operand of an ALU record: rC, or C sign-extended under IMM. -/
def aluOperand (x : Thread) (r : RoamRecord) : Word64 :=
  if bit r.variant 6 then (BitVec.ofNat 32 r.c).signExtend 64 else x.reg (r.c % 32)

/-- A register written by a record that completes in its issue cycle. -/
def writeBack (s : State) (e : IssueEnv) (v : Word64) : State :=
  updThread (issued s e.thread (e.thread.next + 1)) e.thread.core e.thread.t (fun y => y.setReg (e.record.a % 32) v)

/-- ALU (R286). -/
def execAlu (core : Nat) (t : Fin 8) (s : State) : Host.Outcome State Fault Refusal :=
  .next (match issueEnv s core t 4 with
    | none => s
    | some e => writeBack s e (aluFn (e.record.variant % 64) (e.thread.reg (e.record.b % 32)) (aluOperand e.thread e.record)))

/-- BRANCH (R286). -/
def execBranch (core : Nat) (t : Fin 8) (s : State) : Host.Outcome State Fault Refusal :=
  .next (match issueEnv s core t 5 with
    | none => s
    | some e =>
      let v := e.thread.reg (e.record.b % 32)
      let taken := match e.record.variant with | 0 => true | 1 => v == 0 | _ => v != 0
      issued s e.thread (if taken then e.record.a else e.thread.next + 1))

/-- HASH (R96, R286). -/
def execHash (core : Nat) (t : Fin 8) (s : State) : Host.Outcome State Fault Refusal :=
  .next (match issueEnv s core t 6 with
    | none => s
    | some e => writeBack s e (mix (e.thread.reg (e.record.b % 32) ^^^ BitVec.ofNat 64 e.record.c)))

/-- TOKEN_SIGNAL (R143, R286): a thread has no access outstanding when it issues. -/
def execTokenSignal (core : Nat) (t : Fin 8) (s : State) : Host.Outcome State Fault Refusal :=
  .next (match issueEnv s core t 7 with
    | none => s
    | some e => signalToken (issued s e.thread (e.thread.next + 1)) (core / 16) e.record.a)

/-! ### Accesses (R140, R270, R271, R284, R285) -/

/-- What a record asks for once it has been checked at issue. -/
inductive Want where
  /-- Within the core's own roaming area: the address of the bytes. -/
  | own (addr : Nat)
  /-- Through a tracker: target rank and the body's FORM, place and tensor. -/
  | out (rank form place tensor : Nat)
  | bad

/-- A record's target in tensor form (R285). -/
def wantTensor (e : IssueEnv) (x rank off n : Nat) : Want :=
  let f := e.folio
  match f.tensor x with
  | none => .bad
  | some t =>
    if f.box.1 * f.box.2.1 * f.box.2.2 ≤ rank then .bad
    else if t.entry.bytes < off + n || crossesLine off n then .bad
    else if t.entry.placement = 3 then (if rank = f.rank then .own (t.base + off) else .bad)
    else .out rank 0 off x

/-- Whether a local address may be named by a roaming access (R271, R272). -/
def localNamed (a : Nat) : Bool := isHbm a || inClusterWindow a || inCoreWindow a

/-- A record's target in pod-address form (R269 to R272). -/
def wantPod (core : Nat) (e : IssueEnv) (v : Word64) (n : Nat) : Want :=
  let f := e.folio
  let c := (bits v.toNat 49 47, bits v.toNat 52 50, bits v.toNat 55 53)
  let a := v.toNat % 2 ^ 47
  if 2 ^ 56 ≤ v.toNat || f.box.1 ≤ c.1 || f.box.2.1 ≤ c.2.1 || f.box.2.2 ≤ c.2.2 || !localNamed a || crossesLine a n then .bad
  else if rankOf f.box c = f.rank && decide (coreBase + core * coreBytes + 0xA000 ≤ a) && decide (a < coreBase + core * coreBytes + 0xC000)
  then .own a
  else .out (rankOf f.box c) 1 a 0

/-- The checked target of a record, and the pod address or the OFFSET and TENSOR fields for its records. -/
def want (core : Nat) (e : IssueEnv) (n : Nat) (aligned : Bool) : Want × Word64 :=
  let r := e.record
  if bit r.variant 3 then
    let v := e.thread.reg (r.b % 32)
    (if aligned && v.toNat % n != 0 then .bad else wantPod core e v n, v)
  else
    let off := (e.thread.reg (r.c % 32)).toNat
    let rk := bits r.c 12 8
    let rank := if rk = 0x1F then e.folio.rank else (e.thread.reg rk).toNat
    (if aligned && off % n != 0 then .bad else wantTensor e (r.b % 65536) rank off n,
      BitVec.ofNat 64 (off % 2 ^ 48 + (r.b % 65536) * 2 ^ 48))

/-! ### Request windows (R293) -/

/-- Whether a window admits one more request: its REQUEST_ID is at most 63 above the oldest that is not acknowledged. -/
def windowFree (s : State) (stamp : Stamp) (target : Coord) (kind : ReqKind) : Bool :=
  match s.windows.find? (fun w => w.stamp == stamp && w.target == target && w.kind == kind) with
  | none => true
  | some w =>
    match w.unacked with
    | [] => true
    | o :: _ => decide ((w.next - o).toNat ≤ 63)

/-- A REQUEST_ID taken. -/
def takeId (s : State) (stamp : Stamp) (target : Coord) (kind : ReqKind) : Word16 × State :=
  let mine := fun (w : ReqWindow) => w.stamp == stamp && w.target == target && w.kind == kind
  match s.windows.find? mine with
  | none => (0, { s with windows := s.windows ++ [{ stamp := stamp, target := target, kind := kind, next := 1, unacked := [0] }] })
  | some w => (w.next, { s with windows := updFirst mine (fun w => { w with next := w.next + 1, unacked := w.unacked ++ [w.next] }) s.windows })

/-- A request acknowledged. -/
def ackId (s : State) (stamp : Stamp) (target : Coord) (kind : ReqKind) (id : Word16) : State :=
  let mine := fun (w : ReqWindow) => w.stamp == stamp && w.target == target && w.kind == kind
  let acked := fun (w : ReqWindow) => { w with unacked := w.unacked.filter (fun x => x != id) }
  { s with windows := updFirst mine acked s.windows }

/-- Whether an access carries a REQUEST_ID: a write to another device (R293, R295). -/
def carriesId (s : State) (a : Access) : Bool := a.kind != .load && a.target != s.router.myCoord

/-! ### Trackers (R154, R155) -/

/-- The lowest free tracker of a cluster. -/
def freeTracker (s : State) (c : Nat) : Option Nat :=
  (List.range 16).find? (fun i => !s.trackers.any (fun x => x.cluster == c && x.idx == i))

/-- Whether a thread's access can leave now. -/
def canLeave (s : State) (stamp : Stamp) (c : Nat) (a : Access) : Bool :=
  (freeTracker s c).isSome && (!carriesId s a || windowFree s stamp a.target a.kind)

/-- A tracker allocated, with the request sent and the thread PARKED (R140, R154, R155). -/
def leave (s : State) (x : Thread) (st : RoamStart) (a : Access) : State :=
  let c := x.core / 16
  let stamp := partStamp s st.part
  let own := match folioOf s st.folio with | some f => f.rank | none => 0
  match freeTracker s c with
  | none => s
  | some i =>
    let r := if carriesId s a then takeId s stamp a.target a.kind else (0, s)
    let k := { a.req with aux := r.1 }
    let s1 := { r.2 with trackers := r.2.trackers ++ [{ cluster := c, idx := i, core := x.core, t := x.t, stamp := stamp, access := { a with req := k } }] }
    let s2 := updThread s1 x.core x.t (fun y => { y with state := .parked, wants := none, parks := y.parks + 1 })
    sendToRank s2 st.part own a.rank k

/-- The access waits for a tracker or for its window, or leaves (R140, R293). -/
def issueAccess (s : State) (e : IssueEnv) (a : Access) : State :=
  let x := e.thread
  let s1 := issued s x (x.next + 1)
  if canLeave s1 (partStamp s e.start.part) (x.core / 16) a then leave s1 x e.start a
  else updThread s1 x.core x.t (fun y => { y with state := .trackerWait, wants := some a })

/-! ### What a reply does to a thread -/

/-- The poison pattern of a reply that is not OK (R299). -/
def poisonWord : Word64 := 0xDEADDEADDEADDEAD

/-- The value of a load in its registers (R284): 16 bytes and more fill registers; less is extended. -/
def loadValue (a : Access) (b : Bytes) : Bytes :=
  if 8 ≤ a.size then b.take a.size
  else
    let v := uN b 0 a.size
    le 8 (if a.signed && 2 ^ (8 * a.size - 1) ≤ v then v + 2 ^ 64 - 2 ^ (8 * a.size) else v)

/-- The registers after a reply. -/
def replied (x : Thread) (a : Access) (code : Nat) (payload : Bytes) : Thread :=
  match a.kind with
  | .store => x
  | .load =>
    if code = 0 then x.setBytes a.reg (loadValue a payload)
    else (List.range (max 1 (a.size / 8))).foldl (fun x i => x.setReg (a.reg + i) poisonWord) x
  | .atomic => if a.returns then x.setReg a.reg (if code = 0 then BitVec.ofNat 64 (u64 payload 0) else poisonWord) else x

/-- A reply that is not OK: its record, its count and the job's failure (R186, R299, R302, R475). -/
def badReply (s : State) (c : Nat) (stamp : Stamp) (a : Access) (code : Nat) : State :=
  let s1 := if code = 2 then bump s 7 0 1 else s
  let s2 := note s1 0x50 c stamp a.named.toNat code a.req.aux.toNat
  if code = 1 then failJob s2 stamp 0x120 c a.req.aux.toNat a.named.toNat 0
  else failJob s2 stamp 0x121 c code a.named.toNat 0

/-- A LOAD, STORE or ATOMIC done within the core's own roaming area (R140): it completes at once. -/
def accessOwn (s : State) (e : IssueEnv) (a : Access) (addr : Nat) (data : Bytes) (op rc : Nat) : State :=
  let x := e.thread
  let s1 := issued s x (x.next + 1)
  let stamp := partStamp s e.start.part
  if a.kind != .store && s.mem.poisoned (addr / 64 * 64) 64 then
    badReply (updThread s1 x.core x.t (fun y => replied y a 3 [])) (x.core / 16) stamp a 3
  else
    match a.kind with
    | .load => updThread s1 x.core x.t (fun y => replied y a 0 (s.mem.readBytes addr a.size))
    | .store => updMem s1 (fun m => m.store addr data)
    | .atomic =>
      let r := performAtomic s1 stamp op addr a.size (uN data 0 8) rc
      updThread r.2 x.core x.t (fun y => replied y a 0 (le 8 r.1))

/-- A record that accesses memory: `mk` builds the access for a target. -/
def memoryRecord (s : State) (core : Nat) (t : Fin 8) (op : Nat) : State :=
  match issueEnv s core t op with
  | none => s
  | some e =>
    let r := e.record
    let code := r.variant % 8
    let n := 2 ^ code
    let aop := bits r.variant 11 8
    let kind : ReqKind := match op with | 1 => .load | 2 => .store | _ => .atomic
    let rc := (e.thread.reg (bits r.c 20 16)).toNat
    let data := match kind with
      | .load => []
      | .store => e.thread.bytes (r.a % 32) n
      | .atomic => le 8 (e.thread.reg (r.a % 32)).toNat ++ (if aop = 8 then le 8 rc else [])
    let w := want core e n (kind == .atomic)
    let me := s.router.myCoord
    let mk := fun (rank form place tensor : Nat) (target : Coord) =>
      ({ kind := kind, size := n, signed := bit r.variant 4, reg := r.a % 32, returns := kind == .atomic && atomicReturns aop,
         rank := rank, target := target, named := w.2,
         req := mkPacket 0 op 5 me target (partStamp s e.start.part) 0 (bodyM form place tensor code aop) data } : Access)
    match w.1 with
    | .own addr => accessOwn s e (mk e.folio.rank 0 0 0 me) addr data aop rc
    | .bad =>
      let a := mk e.folio.rank 0 0 0 me
      let s1 := updThread (issued s e.thread (e.thread.next + 1)) core t (fun y => replied y a 2 [])
      badReply s1 (core / 16) (partStamp s e.start.part) a 2
    | .out rank form place tensor =>
      let target := if rank = e.folio.rank then me else BitVec.ofNat 9 (coordMapEntry s.router e.start.part rank)
      issueAccess s e (mk rank form place tensor target)

/-- LOAD (R140, R271, R284, R285). -/
def execLoad (core : Nat) (t : Fin 8) (s : State) : Host.Outcome State Fault Refusal := .next (memoryRecord s core t 1)

/-- STORE (R140, R271, R284, R285, R293). -/
def execStore (core : Nat) (t : Fin 8) (s : State) : Host.Outcome State Fault Refusal := .next (memoryRecord s core t 2)

/-- ATOMIC (R140, R271, R284, R285, R289, R293). -/
def execAtomic (core : Nat) (t : Fin 8) (s : State) : Host.Outcome State Fault Refusal := .next (memoryRecord s core t 3)

/-! ### TRACKER_GRANT (R155) -/

/-- The threads of a cluster in the order of R155: cores from the one after the last served, lowest thread first. -/
def grantOrder (s : State) (c : Nat) : List Thread :=
  let last := match s.lastServed.find? (fun e => e.1 == c) with | some e => e.2 | none => 15
  ((List.range 16).map (fun i => c * 16 + (last + 1 + i) % 16)).flatMap (fun core =>
    ((List.range 7).filterMap (fun t => threadOf s core (Fin.ofNat 8 (t + 1)))))

/-- The thread that takes the next tracker: in TRACKER_WAIT, with its window open (R155, R293). -/
def nextGrant (s : State) (c : Nat) : Option (Thread × RoamStart × Access) :=
  (grantOrder s c).findSome? (fun x =>
    match x.state, x.start, x.wants with
    | .trackerWait, some st, some a =>
      if canLeave s (partStamp s st.part) c a && !partStopped s st.part then some (x, st, a) else none
    | _, _, _ => none)

/-- TRACKER_GRANT (R155). -/
def execTrackerGrant (cluster : Nat) (s : State) : Host.Outcome State Fault Refusal :=
  .next (if !s.live then s
    else
      match nextGrant s cluster with
      | none => s
      | some (x, st, a) =>
        leave { s with lastServed := (cluster, x.core % 16) :: s.lastServed.filter (fun e => e.1 != cluster) } x st a)

/-! ### MEM_REPLY (R186, R287, R299) -/

/-- A thread whose access is over: READY, or as its hold or cancellation says (R140, R142). -/
def accessOver (s : State) (core : Nat) (t : Fin 8) : State :=
  match threadOf s core t with
  | none => s
  | some x =>
    if x.cancelling then
      let s1 := { s with threads := s.threads.filter (fun y => !(y.core == core && y.t == t)) }
      (s1.longs.filter (fun o =>
        match o.body, x.start with
        | .run r, some st => r.folio == st.folio
        | _, _ => false)).foldl (fun s o => settleCancel s o.handle) s1
    else if x.state = .held then updThread s core t (fun y => { y with resumeTo := .ready })
    else updThread s core t (fun y => { y with state := .ready })

/-- A reply delivered to its tracker's thread: registers, release of the tracker and the window, and failure when it is not OK. -/
def deliverReply (s : State) (tr : Tracker) (k : Packet) : State :=
  let a := tr.access
  let code := k.field 130 128
  let s1 := { s with trackers := s.trackers.filter (fun y => !(y.cluster == tr.cluster && y.idx == tr.idx)) }
  let s2 := if carriesId s a then ackId s1 tr.stamp a.target a.kind a.req.aux else s1
  let s3 := updThread s2 tr.core tr.t (fun x => replied x a code k.payload)
  let s4 := if code = 0 then s3 else badReply s3 tr.cluster tr.stamp a code
  reoffer (accessOver s4 tr.core tr.t) [tr.cluster]

/-- A negative reply to a GATHER_REQ: the job fails as for a thread (R186, R260). -/
def gatherReplied (s : State) (k : Packet) : State :=
  match partOfStamp s k.stamp with
  | none => staleDrop s (unitFabric 16) k.stamp
  | some _ => if k.field 130 128 = 0 then s else failJob s k.stamp 0x120 (unitFabric 16) 0 0 0

/-- Whether a tracker is the one a reply answers: its stamp, its target, and the REQUEST_ID of a write to another device. -/
def answers (s : State) (tr : Tracker) (k : Packet) : Bool :=
  tr.stamp == k.stamp && tr.access.target == k.src && (!carriesId s tr.access || tr.access.req.aux == k.aux)

/-- MEM_REPLY (R155, R186, R287, R299): `cluster` and `idx` name the tracker that the reply reaches. A reply that the tracker's
stamp does not meet is discarded (R186). -/
def execMemReply (i cluster : Nat) (idx : Fin 16) (s : State) : Host.Outcome State Fault Refusal :=
  .next (match takeInbox s i 1 1 with
    | none => s
    | some (k, s1) =>
      if k.dstUnit.toNat = 4 then gatherReplied s1 k
      else
        match s.trackers.find? (fun x => x.cluster == cluster && x.idx == idx.val) with
        | none => staleDrop s1 cluster k.stamp
        | some tr =>
          if answers s tr k then
            needing s [bandDomain (bandOfCluster cluster)] 3 s (fun _ => deliverReply s1 tr k)
          else staleDrop s1 cluster k.stamp)

end Sys2Proof.Machine
end

