-- ==== Sys2Proof/Machine/Flits.lean ====
section
/-! DEFINITION. Packets as flits (R315, R316, R319): header fields, trailer and CRC-64; and the flits that routers hold. -/

namespace Sys2Proof.Machine

open Sys2Proof

/-! ### CRC (R310, R319) -/

/-- A CRC of n bits, most significant bit first, one bit entered. -/
def crcBit (n poly acc : Nat) (b : Bool) : Nat :=
  let out := bit acc (n - 1) != b
  let s := acc * 2 % 2 ^ n
  if out then s ^^^ poly else s

/-- One byte entered, most significant bit first. -/
def crcByte (n poly acc : Nat) (b : Byte) : Nat := ((List.range 8).map (fun i => b.getLsbD (7 - i))).foldl (crcBit n poly) acc

/-- CRC-64 of R319. -/
def crc64 (b : Bytes) : Word64 := BitVec.ofNat 64 (b.foldl (crcByte 64 0x42F0E1EBA9EA3693) (2 ^ 64 - 1) ^^^ (2 ^ 64 - 1))

/-- CRC-16 of R310 over the bits of a training frame, least significant bit first. -/
def crc16Bits (v n : Nat) : Nat := ((List.range n).map (bit v)).foldl (crcBit 16 0x1021) 0xFFFF

/-! ### Layout (R315, R316, R319) -/

/-- FLITS of a packet with this many payload bytes. -/
def flitCount (payload : Nat) : Nat := ceilDiv (48 + payload) 64

/-- The virtual channel (R316, R338). -/
def vcOf (cls epoch dset : Nat) : Vc := Fin.ofNat 16 (cls * 4 + epoch * 2 + dset)

/-- The header as a number. -/
def headerNat (p : Packet) : Nat :=
  0x5 + p.cls.val * 2 ^ 4 + p.dset.toNat * 2 ^ 6 + p.epoch.toNat * 2 ^ 7 + flitCount p.payload.length * 2 ^ 8 + p.payload.length * 2 ^ 12 +
    p.opcode.toNat * 2 ^ 22 + p.dst.toNat * 2 ^ 26 + p.src.toNat * 2 ^ 35 + p.dstUnit.toNat * 2 ^ 44 + p.aux.toNat * 2 ^ 48 +
    p.stamp.toNat * 2 ^ 64 + p.engine.toNat * 2 ^ 96 + p.body.toNat * 2 ^ 128

/-- A packet's bytes without its trailer. -/
def packetFront (p : Packet) : Bytes := le 32 (headerNat p) ++ p.payload ++ zeros (64 * flitCount p.payload.length - 48 - p.payload.length)

/-- The CRC of a packet: DSET and STOMP taken as 0, the CRC field omitted. -/
def packetCrc (p : Packet) : Word64 := crc64 (packetFront { p with dset := 0 } ++ le 8 p.seq.toNat)

/-- The flits of a packet. -/
def packetFlits (p : Packet) : List (BitVec 512) :=
  (chunks 64 (packetFront p ++ le 8 p.crc.toNat ++ le 8 (p.seq.toNat + (if p.stomp then 2 ^ 63 else 0)))).map
    (fun c => BitVec.ofNat 512 (uN c 0 64))

/-- Header fields of a first flit. -/
def flitDst (f : BitVec 512) : Coord := f.extractLsb' 26 9
def flitSrc (f : BitVec 512) : Coord := f.extractLsb' 35 9
def flitClass (f : BitVec 512) : Nat := (f.extractLsb' 4 2).toNat
def flitEpoch (f : BitVec 512) : Nat := (f.extractLsb' 7 1).toNat
def flitDset (f : BitVec 512) : Nat := (f.extractLsb' 6 1).toNat
def flitPayload (f : BitVec 512) : Nat := (f.extractLsb' 12 10).toNat
def flitTotal (f : BitVec 512) : Nat := (f.extractLsb' 8 4).toNat

/-- Whether a flit at a packet start is a header that keeps R316. -/
def headerOk (f : BitVec 512) : Bool :=
  (f.extractLsb' 0 4).toNat == 5 && decide (flitPayload f ≤ 512) && flitTotal f == flitCount (flitPayload f)

/-- The virtual channel that a header names. -/
def flitVc (f : BitVec 512) : Vc := vcOf (flitClass f) (flitEpoch f) (flitDset f)

/-- A first flit with DSET replaced (R335). -/
def withDset (f : BitVec 512) (d : Nat) : BitVec 512 := (f &&& ~~~(1#512 <<< 6)) ||| (BitVec.ofNat 512 (d % 2) <<< 6)

/-- The fields of a packet read back from its flits. -/
def packetFields (l : List (BitVec 512)) : Packet :=
  let b := l.flatMap (fun f => le 64 f.toNat)
  let h := uN b 0 32
  let tr := b.length - 16
  { cls := clsN (bits h 5 4), opcode := BitVec.ofNat 4 (bits h 25 22), epoch := BitVec.ofNat 1 (bits h 7 7),
    dset := BitVec.ofNat 1 (bits h 6 6), dst := BitVec.ofNat 9 (bits h 34 26), src := BitVec.ofNat 9 (bits h 43 35),
    dstUnit := BitVec.ofNat 3 (bits h 46 44), aux := BitVec.ofNat 16 (bits h 63 48), stamp := BitVec.ofNat 32 (bits h 95 64),
    engine := BitVec.ofNat 3 (bits h 98 96), body := BitVec.ofNat 128 (bits h 255 128), payload := slice b 32 (bits h 21 12),
    seq := BitVec.ofNat 32 (uN b (tr + 8) 4), stomp := bit (uN b (tr + 8) 8) 63, crc := BitVec.ofNat 64 (uN b tr 8) }

/-- The CRC computed over the flits as they arrived (R319). -/
def flitsCrc (l : List (BitVec 512)) : Word64 :=
  let fs : List (BitVec 512) := match l with | f :: t => withDset f 0 :: t | [] => []
  let b := fs.flatMap (fun f => le 64 f.toNat)
  crc64 (b.take (b.length - 16) ++ le 8 (uN b (b.length - 8) 8 % 2 ^ 63))

/-- A packet read back from its flits. Its CRC field stands for the check of R319: it equals the packet's own CRC exactly when the
check over the flits passes. -/
def packetOf (l : List (BitVec 512)) : Packet :=
  let p := packetFields l
  { p with crc := if flitsCrc l = p.crc then packetCrc p else ~~~(packetCrc p) }

/-- A run of flits with a header. -/
def runOfFlits (l : List (BitVec 512)) (src : Option FPort) : FlitRun :=
  let f := l.headD 0
  { flits := l, total := flitTotal f, vc := flitVc f, epoch := f.extractLsb' 7 1, from? := src, via := none }

/-- Whether all flits of a run have arrived. -/
def FlitRun.whole (r : FlitRun) : Bool := decide (r.total ≤ r.flits.length)

/-! ### Dimensions and port groups (R18, R321, R336) -/

/-- The dimension of a port: 0 X, 1 Y, 2 Z. -/
def portDim (p : FPort) : Nat := if p.val < 8 then 0 else if p.val < 12 then 1 else 2

/-- The ports of a group, by dimension and direction (0 +, 1 −). -/
def groupPorts (d dir : Nat) : List FPort :=
  match d, dir with
  | 0, 0 => [0, 1, 2, 3]
  | 0, _ => [4, 5, 6, 7]
  | 1, 0 => [8, 9]
  | 1, _ => [10, 11]
  | _, 0 => [12, 13]
  | _, _ => [14, 15]

/-- The group of a port. -/
def groupOf (p : FPort) : List FPort :=
  if p.val < 4 then groupPorts 0 0 else if p.val < 8 then groupPorts 0 1 else if p.val < 10 then groupPorts 1 0
  else if p.val < 12 then groupPorts 1 1 else if p.val < 14 then groupPorts 2 0 else groupPorts 2 1

/-- The partner port that R19 requires. -/
def partnerPort (p : FPort) : Nat :=
  if p.val < 4 then p.val + 4 else if p.val < 8 then p.val - 4 else if p.val = 8 ∨ p.val = 9 ∨ p.val = 12 ∨ p.val = 13 then p.val + 2
  else p.val - 2

/-- Pool of a dimension's buffer, headroom H, and buffer size in flits (R321). -/
def poolFlits (d : Nat) : Nat := match d with | 0 => 1904 | 1 => 3952 | _ => 8048
def headFlits (d : Nat) : Nat := match d with | 0 => 332 | 1 => 801 | _ => 3769
def bufFlits (d : Nat) : Nat := match d with | 0 => 2048 | 1 => 4096 | _ => 8192

/-- Round-trip budget in nanoseconds (R312, R321). -/
def rttBudget (d : Nat) : Nat := match d with | 0 => 100 | 1 => 250 | _ => 1200

/-- Whether a port is usable (R336): ACTIVE, or retraining after degradation. -/
def FabricPort.usable (f : FabricPort) : Bool :=
  match f.state with
  | .active => true
  | .identify => f.degraded
  | .align => f.degraded
  | .measure => f.degraded
  | _ => false

end Sys2Proof.Machine
end

