-- ==== Sys2Proof/Machine/Links.lean ====
section
/-! DEFINITION. Fabric ports (R303 to R327): training, degradation, codewords received and sent, flow control, and what a port that
goes down leaves (R337, R355). -/

namespace Sys2Proof.Machine

open Sys2Proof

/-! ### Ports that stop -/

/-- A packet cut at a port: counted, with its error (R320, R475). -/
def cutError (s : State) (p : FPort) : State := containedError (bump s 0x23 p.val 1) 0x140 (unitFabric p.val) 0 p.val

/-- The trailer flit of a cut packet: zero but for STOMP. -/
def stompFlit : BitVec 512 := 1#512 <<< 511

/-- The missing flits of a run: zero flits, the last with STOMP (R320). -/
def stompFill (r : FlitRun) : FlitRun :=
  let n := r.total - r.flits.length
  { r with flits := r.flits ++ List.replicate (n - 1) 0#512 ++ (if 0 < n then [stompFlit] else []) }

/-- Whether a run is the open one that arrives by a port. -/
def isOpenFrom (p : FPort) (r : FlitRun) : Bool := r.from? == some p && !r.whole

/-- The open run from a port changed, in the queue or on the wire of an output. -/
def updOpen (p : FPort) (g : FlitRun → FlitRun) (o : FabricPort) : FabricPort :=
  { o with outQ := updFirst (isOpenFrom p) g o.outQ, tx := o.tx.map (fun r => if isOpenFrom p r then g r else r) }

/-- The packet that was arriving is cut (R320): discarded, or stomped where it is being forwarded. -/
def cutRx (s : State) (p : FPort) : State :=
  match s.fabric[p].rx with
  | none => s
  | some r =>
    let s1 := updFabric s p (fun x => { x with rx := none })
    cutError (match r.via with
      | none => s1
      | some o => updFabric s1 o (updOpen p stompFill)) p

/-- The port's own packets of a retrain or a loss: the one arriving is cut, the one being sent is lost. -/
def cutPort (s : State) (p : FPort) : State := updFabric (cutRx s p) p (fun x => { x with tx := none })

/-- The usable ports of a group. -/
def usablePorts (s : State) (g : List FPort) : List FPort := g.filter (fun p => s.fabric[p].usable)

/-- The port that R336 chooses for a packet in a group. -/
def hashPort (s : State) (g : List FPort) (f : BitVec 512) : Option FPort :=
  let u := usablePorts s g
  let v := (flitSrc f).toNat * 2 ^ 11 + (flitDst f).toNat * 4 + flitClass f
  let h := (v ^^^ (v / 2 ^ 5) ^^^ (v / 2 ^ 10) ^^^ (v / 2 ^ 15)) % 32
  u[h % u.length]?

/-- Packets queued at a port that is no longer usable: spread again over the group, or discarded and counted when it is down (R336,
R337). -/
def spread (s : State) (p : FPort) : State :=
  if s.fabric[p].usable then s
  else
    let q := s.fabric[p].outQ
    q.foldl (fun s r =>
      match hashPort s (groupOf p) (r.flits.headD 0) with
      | none => bump s 0x30 0 1
      | some o => updFabric s o (fun x => { x with outQ := x.outQ ++ [r] })) (updFabric s p (fun x => { x with outQ := [] }))

/-- A port DOWN, with its cage and presets kept; a packet in flight is cut. The buffers of a port that goes down are empty (R310). -/
def portDown (s : State) (p : FPort) (st : FpState) : State :=
  spread (updFabric (cutPort s p) p (fun x =>
    { FabricPort.shut x with state := st, outQ := x.outQ, attempts := x.attempts, retryWait := x.retryWait })) p

/-- LINK_DOWN (R351, R414, R487). -/
def linkDownReport (s : State) (p : FPort) (cause : Nat) : State :=
  fmMessage (note (linkEvent s p (if cause = 1 then 8 else 0)) 0x42 (unitFabric p.val) 0 cause 0 0) 2
    (le 1 p.val ++ le 1 cause ++ zeros 2)

/-- The domain of a FAILED or MISWIRED port goes OFF under AUTO while MY_COORD is not valid (R422). -/
def fportRest (s : State) (p : FPort) : State :=
  let d := fportDomain p.val
  let idle := s.fabric[p].state == .failed || s.fabric[p].state == .miswired
  if idle && !s.router.coordValid && s.power.domains[d].request == 0 && domainOn s d then beginEntry s d true else s

/-- Whether a port may train: powered, enabled, its cage on and the device running (R310, R448, R514). -/
def mayTrain (s : State) (p : FPort) : Bool :=
  s.live && domainOn s (fportDomain p.val) && s.settings.fportEnable.getLsbD p.val && s.fabric[p].cageOn

/-- A port leaves DOWN: DETECT (R310). -/
def startTraining (s : State) (p : FPort) : State :=
  if mayTrain s p && s.fabric[p].state == .down then
    updFabric s p (fun x => { FabricPort.shut x with state := .detect, goodOwn := 0xFF, attempts := x.attempts, outQ := x.outQ })
  else s

/-! ### Training frames (R310, R311, R313) -/

/-- Codes of R309. -/
def FpState.code : FpState → Nat
  | .down => 0
  | .detect => 1
  | .equalize => 2
  | .identify => 3
  | .align => 4
  | .measure => 5
  | .active => 6
  | .miswired => 7
  | .failed => 8

/-- Whether a frame's FRAME_CRC and MARKER are good. -/
def frameOk (f : Nat) : Bool := f % 2 ^ 64 == 0xF0F00F0F3C3CC3C3 && crc16Bits f 240 == bits f 255 240

/-- Lane sets of R304, widest first. -/
def laneSets : List (BitVec 8) := [0xFF, 0x0F, 0xF0, 0x03, 0x0C, 0x30, 0xC0]

/-- The widest lane set that is good in a mask. -/
def chooseLanes (good : BitVec 8) : Option (BitVec 8) := laneSets.find? (fun l => (l &&& good) == l)

/-- The lanes of a set. -/
def lanesOf (m : BitVec 8) : List Nat := selected 8 (fun i => m.getLsbD i)

/-- The number of lanes of a set. -/
def widthOf (m : BitVec 8) : Nat := (lanesOf m).length

def setBit8 (m : BitVec 8) (l : Lane) : BitVec 8 := m ||| (1#8 <<< l.val)

/-- A cabling check that fails: MISWIRED, with its reports (R311, R351, R487). -/
def miswired (s : State) (p : FPort) : State :=
  let x := s.fabric[p]
  let ids := x.idents.toList
  let port := match ids.findSome? id with | some i => i.port.toNat | none => 0
  let lanes := ids.map (fun i => match i with | some i => BitVec.ofNat 8 i.lane.toNat | none => 0xFF#8)
  let s1 := portDown s p .miswired
  fportRest (fmMessage (note (linkEvent s1 p 7) 0x41 (unitFabric p.val) 0 (uN lanes 0 8) port 0) 3
    (le 1 p.val ++ le 1 port ++ zeros 2 ++ lanes)) p

/-- The identities of a port's lanes are all known: cabling check and width (R304, R311, R313). -/
def identified (s : State) (p : FPort) : State :=
  let x := s.fabric[p]
  let ls := lanesOf (x.detected &&& x.goodOwn)
  let got := ls.filterMap (fun l => (x.idents.toArray.getD l none).map (fun i => (l, i)))
  if got.length < ls.length then s
  else
    match got with
    | [] => s
    | (_, i0) :: _ =>
      if got.any (fun e => e.2.lane.toNat != e.1 || e.2.moduleId != i0.moduleId || e.2.port.toNat != partnerPort p) then miswired s p
      else
        match chooseLanes (x.detected &&& x.goodOwn &&& x.goodPartner) with
        | none => linkDownReport (portDown s p .down) p 2
        | some l => updFabric s p (fun x => { x with state := .align, lanes := l, aligned := 0, partnerId := i0.moduleId })

/-- Entry into IDENTIFY from ACTIVE with lanes charged (R313): codewords stop, the packets under way are cut. -/
def degrade (s : State) (p : FPort) (charged : BitVec 8) : State :=
  let s1 := bump (cutPort s p) 0x27 p.val 1
  let own := s1.fabric[p].goodOwn &&& ~~~charged
  if (chooseLanes own).isNone then linkDownReport (portDown s1 p .down) p 2
  else
    updFabric s1 p (fun x =>
      { x with state := .identify, goodOwn := own, detected := own, idents := Vector.replicate 8 none, aligned := 0, degraded := true,
               winFixed := Vector.replicate 8 0, winBad := 0, partnerAllOff := true, resync := true, sent := none })

/-- What a good frame tells a port on a lane: the partner's masks and identity, presets and time stamps. -/
def frameSeen (x : FabricPort) (l : Lane) (f : Nat) : FabricPort :=
  let req := bits f 91 88
  let x1 := { x with
    goodPartner := BitVec.ofNat 8 (bits f 83 76), detected := setBit8 x.detected l,
    txPreset := if req ≤ 11 then BitVec.ofNat 4 req else x.txPreset,
    tsEcho := x.tsEcho.set l (BitVec.ofNat 32 (bits f 187 156)) }
  let i : LaneIdent := ⟨BitVec.ofNat 4 (bits f 71 68), BitVec.ofNat 3 (bits f 74 72), BitVec.ofNat 64 (bits f 155 92)⟩
  if 3 ≤ bits f 67 64 then { x1 with idents := x1.idents.set l (some i) } else x1

/-- Whether presets agree on a frame: the partner sends what this end asks for, and this end what the partner asks for. -/
def presetsAgree (x : FabricPort) (f : Nat) : Bool :=
  (x.presetReq == 0xF || x.presetReq.toNat == bits f 87 84) && (bits f 91 88 == 15 || bits f 91 88 == x.txPreset.toNat)

/-- A good training frame on a lane. -/
def trainWith (s : State) (p : FPort) (l : Lane) (f : Nat) : State :=
  let st := bits f 67 64
  let x := s.fabric[p]
  match x.state with
  | .detect =>
    let s1 := updFabric s p (fun x => frameSeen x l f)
    if 2 ≤ widthOf s1.fabric[p].detected then updFabric s1 p (fun x => { x with state := .equalize }) else s1
  | .equalize =>
    let s1 := updFabric s p (fun x =>
      let y := frameSeen x l f
      if 2 ≤ st && presetsAgree y f then { y with settled := setBit8 y.settled l } else y)
    if (s1.fabric[p].detected &&& ~~~s1.fabric[p].settled) == 0 then
      identified (updFabric s1 p (fun x => { x with state := .identify, goodOwn := x.goodOwn &&& x.detected })) p
    else s1
  | .identify => if 3 ≤ st then identified (updFabric s p (fun x => frameSeen x l f)) p else s
  | .align =>
    if 4 ≤ st then
      let s1 := updFabric s p (fun x => { frameSeen x l f with aligned := setBit8 x.aligned l })
      if (s1.fabric[p].lanes &&& ~~~s1.fabric[p].aligned) == 0 then updFabric s1 p (fun x => { x with state := .measure }) else s1
    else s
  | .measure => updFabric s p (fun x => frameSeen x l f)
  | .active =>
    -- the partner has gone back to IDENTIFY: this end follows it (R313)
    if st = 3 then
      let s1 := degrade s p 0
      updFabric s1 p (fun x => frameSeen x l f)
    else s
  | .down => s
  | .miswired => s
  | .failed => s

/-- TRAINING_FRAME (R310, R311, R313): a frame with a bad FRAME_CRC is ignored. A port in DOWN that may train leaves DOWN. -/
def execTrainingFrame (p : FPort) (l : Lane) (frame : BitVec 256) (s : State) : Host.Outcome State Fault Refusal :=
  .next (if !frameOk frame.toNat || !mayTrain s p then s
    else trainWith (if s.fabric[p].retryWait then s else startTraining s p) p l frame.toNat)

/-! ### MEASURE_COMPLETE, TRAINING_TIMEOUT, TRAINING_RETRY (R310, R312) -/

/-- Symbols that a lane carries in MEASURE's codewords and in 1 ms at full rate (R306, R312). -/
def measureSymbols : Nat := 68000000
def windowSymbols : Nat := 21250000

/-- Corrected symbols of a lane in an operand list. -/
def fixedOf (l : List (Lane × Nat)) (i : Nat) : Nat := ((l.filter (fun e => e.1.val == i)).map (fun e => e.2)).sum

/-- Whether a lane's symbol error ratio exceeds LANE_SER_LIMIT. -/
def overSer (s : State) (n symbols : Nat) : Bool := decide (s.settings.serPpm * symbols < n * 1000000)

/-- The corrected symbols of lanes counted (R327). -/
def countFixed (s : State) (p : FPort) (l : List (Lane × Nat)) : State := l.foldl (fun s e => bump s 0x20 (p.val * 8 + e.1.val) e.2) s

/-- A failed attempt (R310): DOWN until the retry, or FAILED after the eighth. -/
def failedAttempt (s : State) (p : FPort) : State :=
  let n := s.fabric[p].attempts + 1
  if 8 ≤ n then fportRest (linkDownReport (updFabric (portDown s p .failed) p (fun x => { x with attempts := n })) p 1) p
  else linkEvent (updFabric (portDown s p .down) p (fun x => { x with attempts := n, retryWait := true })) p 0

/-- A port enters ACTIVE (R310, R312, R351, R414, R487): empty buffers, VC_OFF clear. -/
def enterActive (s : State) (p : FPort) (rtt : Nat) : State :=
  let s1 := updFabric s p (fun x =>
    { x with state := .active, rttNs := rtt, attempts := 0, retryWait := false, degraded := false, vcOff := 0, partnerOff := 0,
             partnerAllOff := false, resync := false, rx := none, winFixed := Vector.replicate 8 0, winBad := 0, sent := none })
  let x := s1.fabric[p]
  fmMessage (note (linkEvent s1 p 6) 0x40 (unitFabric p.val) 0 x.partnerId.toNat (widthOf x.lanes) rtt) 1
    (le 1 p.val ++ le 1 (widthOf x.lanes) ++ zeros 2 ++ le 8 x.partnerId.toNat ++ le 4 rtt)

/-- MEASURE_COMPLETE (R312): LONG_LINK or HIGH_SER return the port to DOWN; the manual gives no code of these causes, so the report
carries a free value. -/
def execMeasureComplete (p : FPort) (rttNs : Nat) (fixed : List (Lane × Nat)) (s : State) : Host.Outcome State Fault Refusal :=
  .next (if s.fabric[p].state != .measure || !s.live then s
    else
      let s1 := countFixed s p fixed
      let bad := decide (rttBudget (portDim p) < rttNs) ||
        (lanesOf s.fabric[p].lanes).any (fun l => overSer s (fixedOf fixed l) measureSymbols)
      if bad then
        let f := drawFree s1
        let s2 := updFabric (portDown f.2 p .down) p (fun x => { x with attempts := x.attempts + 1, retryWait := true })
        if 8 ≤ s2.fabric[p].attempts then
          fportRest (linkDownReport (updFabric s2 p (fun x => { x with state := .failed, retryWait := false })) p 1) p
        else linkDownReport s2 p (f.1 % 256)
      else enterActive s1 p rttNs)

/-- TRAINING_TIMEOUT (R310). -/
def execTrainingTimeout (p : FPort) (s : State) : Host.Outcome State Fault Refusal :=
  .next (match s.fabric[p].state with
    | .detect => failedAttempt s p
    | .equalize => failedAttempt s p
    | .identify => failedAttempt s p
    | .align => failedAttempt s p
    | .measure => failedAttempt s p
    | .down => s
    | .active => s
    | .miswired => s
    | .failed => s)

/-- TRAINING_RETRY (R310). -/
def execTrainingRetry (p : FPort) (s : State) : Host.Outcome State Fault Refusal := .next (startTraining s p)

/-! ### SER_WINDOW, LOSS_OF_LOCK, LOSS_OF_SIGNAL (R313, R314) -/

/-- The lane with the most corrected symbols of a window; the lowest of equals. -/
def worstLane (x : FabricPort) : Nat :=
  (lanesOf x.lanes).foldl (fun b l => if x.winFixed.toArray.getD b 0 < x.winFixed.toArray.getD l 0 then l else b)
    ((lanesOf x.lanes).headD 0)

/-- The lanes that a closing window charges (R313). -/
def chargedLanes (s : State) (x : FabricPort) : BitVec 8 :=
  let high := (lanesOf x.lanes).filter (fun l => overSer s (x.winFixed.toArray.getD l 0) windowSymbols)
  BitVec.ofNat 8 ((((if 16 ≤ x.winBad then [worstLane x] else []) ++ high).dedup.map (fun l => 2 ^ l)).sum)

/-- SER_WINDOW (R313). -/
def execSerWindow (p : FPort) (s : State) : Host.Outcome State Fault Refusal :=
  .next (if s.fabric[p].state != .active then s
    else
      let c := chargedLanes s s.fabric[p]
      if c = 0 then updFabric s p (fun x => { x with winFixed := Vector.replicate 8 0, winBad := 0 }) else degrade s p c)

/-- LOSS_OF_LOCK (R313). -/
def execLossOfLock (p : FPort) (l : Lane) (s : State) : Host.Outcome State Fault Refusal :=
  .next (if s.fabric[p].state == .active && s.fabric[p].lanes.getLsbD l.val then degrade s p (1#8 <<< l.val) else s)

/-- LOSS_OF_SIGNAL (R314, R337, R351). -/
def execLossOfSignal (p : FPort) (s : State) : Host.Outcome State Fault Refusal :=
  .next (match s.fabric[p].state with
    | .down => s
    | .failed => s
    | .detect => s
    | .equalize => linkDownReport (portDown s p .down) p 0
    | .identify => linkDownReport (portDown s p .down) p 0
    | .align => linkDownReport (portDown s p .down) p 0
    | .measure => linkDownReport (portDown s p .down) p 0
    | .active => linkDownReport (portDown s p .down) p 0
    | .miswired => linkDownReport (portDown s p .down) p 0)

/-! ### Codewords received (R308, R316, R320, R321, R325) -/

/-- Flits held in an input buffer for a channel; a run that is being forwarded has left it. -/
def heldVc (x : FabricPort) (v : Nat) : Nat :=
  ((x.inBuf.filter (fun r => r.vc.val == v)).map (fun r => r.flits.length)).sum +
    (match x.rx with
      | some r => if r.vc.val == v && r.via.isNone then r.flits.length else 0
      | none => 0)

/-- Use of the pool (R323). -/
def poolUse (x : FabricPort) : Nat := ((List.range 16).map (fun v => heldVc x v - 9)).sum

/-- The largest number of flits held per class, for the congestion sample (R352). -/
def notePeak (x : FabricPort) : FabricPort :=
  { x with peak := Vector.ofFn (fun c : Fin 4 => max x.peak[c] (((List.range 4).map (fun i => heldVc x (c.val * 4 + i))).sum)) }

/-- A flit that has entered the router counted by its epoch (R332). -/
def countArrival (s : State) (epoch n : Nat) : State :=
  updRouter s (fun r => if epoch = 0 then { r with arrivals0 := r.arrivals0 + BitVec.ofNat 64 n } else { r with arrivals1 := r.arrivals1 + BitVec.ofNat 64 n })

/-- An arrival that does not fit (R325): discarded, counted, reported, and the port retrains. -/
def overrun (s : State) (p : FPort) : State :=
  let s1 := bump (updFabric s p (fun x => { x with rx := none })) 0x26 p.val 1
  degrade (containedError s1 0x141 (unitFabric p.val) 0 p.val) p 0

/-- One more flit of the arriving packet, or its first. -/
def takeFlit (s : State) (p : FPort) (r : FlitRun) : State :=
  let s1 := countArrival s (flitEpoch (r.flits.headD 0)) 1
  match r.via with
  | some o =>
    let f := r.flits.getLastD 0
    updFabric (updFabric s1 o (updOpen p (fun y => { y with flits := y.flits ++ [f] }))) p
      (fun x => { x with rx := if r.whole then none else some r })
  | none =>
    let s2 := updFabric s1 p (fun x => notePeak { x with rx := some r })
    if poolFlits (portDim p) < poolUse s2.fabric[p] then overrun s2 p
    else if r.whole then updFabric s2 p (fun x => { x with inBuf := x.inBuf ++ [r], rx := none })
    else s2

/-- One flit of a codeword: `none` in the answer ends the codeword (a framing error, R316, or a retrain). -/
def enterFlit (s : State) (p : FPort) (f : BitVec 512) : State × Bool :=
  match s.fabric[p].rx with
  | some r =>
    let s1 := takeFlit s p { r with flits := r.flits ++ [f] }
    (s1, s1.fabric[p].state == .active)
  | none =>
    if f = 0 then (s, true)
    else if headerOk f then
      let s1 := takeFlit s p (runOfFlits [f] (some p))
      (s1, s1.fabric[p].state == .active)
    else (updFabric (cutError (bump s 0x22 p.val 1) p) p (fun x => { x with resync := true }), false)

/-- The flits of a codeword, in order. -/
def enterFlits (p : FPort) : List (BitVec 512) → State → State
  | [], s => s
  | f :: t, s =>
    let r := enterFlit s p f
    if r.2 then enterFlits p t r.1 else r.1

/-- CODEWORD (R307, R308, R313, R320). -/
def execCodeword (p : FPort) (c : CodewordIn) (s : State) : Host.Outcome State Fault Refusal :=
  .next (if s.fabric[p].state != .active then s
    else
      match c with
      | .bad =>
        updFabric (cutRx (bump s 0x21 p.val 1) p) p (fun x =>
          { x with winBad := x.winBad + 1, partnerAllOff := true, resync := true })
      | .good head off flits fixed =>
        let s1 := updFabric (countFixed s p fixed) p (fun x =>
          { x with partnerOff := off, partnerAllOff := false, resync := false,
                   winFixed := Vector.ofFn (fun i : Fin 8 => x.winFixed[i] + fixedOf fixed i.val) })
        enterFlits p (if s.fabric[p].resync then flits.drop head.toNat else flits) s1)

/-! ### Codewords sent (R307, R323, R324, R326) -/

/-- VC_OFF of a channel (R323). -/
def vcOffBit (s : State) (x : FabricPort) (d v : Nat) : Bool :=
  let o := heldVc x v
  let pv := o - 9
  let free := poolFlits d - poolUse x
  let quota := s.settings.quota.toArray.getD (3 * (v / 4) + d) 0
  if quota ≤ pv then true
  else if free ≤ headFlits d && 1 ≤ o then true
  else if pv + 64 ≤ quota && (headFlits d + 64 ≤ free || o == 0) then false
  else x.vcOff.getLsbD v

/-- VC_OFF for the next codeword. -/
def nextVcOff (s : State) (p : FPort) : BitVec 16 :=
  BitVec.ofNat 16 (((List.range 16).map (fun v => if vcOffBit s s.fabric[p] (portDim p) v then 2 ^ v else 0)).sum)

/-- The oldest packet of a channel in the output queue, when the channel is on. -/
def eligible (x : FabricPort) (v : Nat) : Option FlitRun :=
  if x.partnerAllOff || x.partnerOff.getLsbD v then none else x.outQ.find? (fun r => r.vc.val == v)

/-- The next packet of a class: its four channels take turns. -/
def pickClass (x : FabricPort) (c : Fin 4) : Option FlitRun :=
  (List.range 4).findSome? (fun i => eligible x (c.val * 4 + (x.rr[c].toNat + i) % 4))

/-- The next packet of an output (R326): system, reply, then collective and request alternating. -/
def pickPacket (x : FabricPort) : Option FlitRun :=
  match pickClass x 3 with
  | some r => some r
  | none =>
    match pickClass x 1 with
    | some r => some r
    | none =>
      match pickClass x 2, pickClass x 0 with
      | some a, some b => if x.collNext then some a else some b
      | some a, none => some a
      | none, some b => some b
      | none, none => none

/-- A chosen packet leaves the queue: the turns move on. -/
def beginSend (x : FabricPort) (r : FlitRun) : FabricPort :=
  let c : Fin 4 := Fin.ofNat 4 (r.vc.val / 4)
  let both := (pickClass x 2).isSome && (pickClass x 0).isSome
  { x with outQ := (match indexOf? (fun y => y == r) x.outQ with | some i => removeAt x.outQ i | none => x.outQ), tx := some r,
           rr := x.rr.set c (BitVec.ofNat 2 (r.vc.val % 4 + 1)),
           collNext := if both && c.val != 1 && c.val != 3 then !x.collNext else x.collNext }

/-- The next flit of an output: whether it starts a packet or is idle, and the port after it. None: the packet being sent has not
arrived so far. -/
def nextFlit (x : FabricPort) : Option (Bool × BitVec 512 × FabricPort) :=
  let pop := fun (start : Bool) (x : FabricPort) (r : FlitRun) =>
    match r.flits with
    | [] => none
    | f :: t => some (start, f, { x with tx := if r.total ≤ 1 then none else some { r with flits := t, total := r.total - 1 } })
  match x.tx with
  | some r => pop false x r
  | none =>
    match pickPacket x with
    | none => some (true, 0, x)
    | some r => pop true (beginSend x r) r

/-- The ten flits of a codeword, with the marks of starts. -/
def nextFlits : Nat → FabricPort → Option (List (Bool × BitVec 512) × FabricPort)
  | 0, x => some ([], x)
  | n + 1, x =>
    match nextFlit x with
    | none => none
    | some (st, f, y) => (nextFlits n y).map (fun r => ((st, f) :: r.1, r.2))

/-- CODEWORD_SEND (R307, R323, R324, R326). A port whose packet has not arrived far enough waits. -/
def execCodewordSend (p : FPort) (s : State) : Host.Outcome State Fault Refusal :=
  .next (if s.fabric[p].state != .active then s
    else
      match nextFlits 10 s.fabric[p] with
      | none => s
      | some (l, x) =>
        let off := nextVcOff s p
        let head := (indexOf? (fun e => e.1) l).getD 0
        updFabric s p (fun _ => { x with vcOff := off, sent := some (BitVec.ofNat 4 head, off, l.map (fun e => e.2)) }))

end Sys2Proof.Machine
end

