-- ==== Sys2Proof/Machine/Routing.lean ====
section
/-! DEFINITION. The router and the end-to-end units (R328 to R356): routes, injection, delivery, acknowledgements, re-sends, path
failures and congestion samples. -/

namespace Sys2Proof.Machine

open Sys2Proof

/-! ### Routes (R328, R333, R335, R336) -/

/-- The extent of a dimension of the pod. -/
def podExtent (r : Router) (d : Nat) : Nat := (match d with | 0 => r.extX.toNat | 1 => r.extY.toNat | _ => r.extZ.toNat) + 1

/-- One coordinate of a physical coordinate. -/
def coordPart (c : Coord) (d : Nat) : Nat := match d with | 0 => bits c.toNat 2 0 | 1 => bits c.toNat 5 3 | _ => bits c.toNat 8 6

/-- Whether a coordinate lies within the pod. -/
def inPod (r : Router) (c : Coord) : Bool := [0, 1, 2].all (fun d => decide (coordPart c d < podExtent r d))

/-- The bank of an epoch, and whether it is valid. -/
def bankOf (r : Router) (epoch : Nat) : Bank := if epoch = 0 then r.bank0 else r.bank1
def bankValid (r : Router) (epoch : Nat) : Bool := if epoch = 0 then r.bank0Valid else r.bank1Valid

/-- The route entry of a destination; one that is not listed is 0. -/
def routeEntry (b : Bank) (c : Coord) : Nat :=
  match b.route.find? (fun e => e.1 == c.toNat) with
  | some e => e.2.toNat
  | none => 0

/-- The default route entry (R333). -/
def defaultEntry (r : Router) (own dst : Coord) : Nat :=
  1 + ((List.range 3).map (fun d =>
    let n := podExtent r d
    let f := (coordPart dst d + n - coordPart own d % n) % n
    if f ≤ n - f then 0 else 2 ^ (d + 1))).sum

/-- Where a router sends a packet. -/
inductive Hop where
  | discard (counter : Nat)
  | deliver
  | out (p : FPort) (dset : Nat)
deriving DecidableEq, Repr

/-- The first dimension in which two coordinates differ, X first. -/
def firstDiff (a b : Coord) : Option Nat := [0, 1, 2].find? (fun d => coordPart a d != coordPart b d)

/-- Whether the next link in a direction is the wrap link (R328). -/
def isWrap (r : Router) (own : Coord) (d dir : Nat) : Bool :=
  if dir = 0 then coordPart own d + 1 == podExtent r d else coordPart own d == 0

/-- The route of a packet by its first flit and the port it came by (R329, R335 to R337). -/
def hopOf (s : State) (src : Option FPort) (f : BitVec 512) : Hop :=
  let r := s.router
  if !r.coordValid then .discard 0x30
  else if !bankValid r (flitEpoch f) then .discard 0x31
  else if flitDst f = r.myCoord then .deliver
  else if !inPod r (flitDst f) then .discard 0x30
  else
    let e := routeEntry (bankOf r (flitEpoch f)) (flitDst f)
    if !bit e 0 then .discard 0x30
    else
      match firstDiff r.myCoord (flitDst f) with
      | none => .deliver
      | some d =>
        let dir := if bit e (d + 1) then 1 else 0
        let kept := match src with | some p => if portDim p = d then flitDset f else 0 | none => 0
        match hashPort s (groupPorts d dir) f with
        | none => .discard 0x30
        | some p => .out p (if isWrap r r.myCoord d dir then 1 else kept)

/-- A run on its way to an output. -/
def routedRun (r : FlitRun) (p : FPort) (dset : Nat) : FlitRun :=
  let fs := match r.flits with | f :: t => withDset f dset :: t | [] => []
  { r with flits := fs, vc := flitVc (fs.headD 0), via := some p }

/-- A run sent where its route says. -/
def routeRun (s : State) (r : FlitRun) : State :=
  match hopOf s r.from? (r.flits.headD 0) with
  | .discard c => bump s c 0 1
  | .deliver => updRouter s (fun x => { x with arrived := x.arrived ++ [(r.from?, packetOf r.flits)] })
  | .out p d => updFabric s p (fun x => { x with outQ := x.outQ ++ [routedRun r p d] })

/-- An arriving packet that may be forwarded before its last flit (R324). -/
def cutThrough (s : State) (p : FPort) (r : FlitRun) : State :=
  match hopOf s (some p) (r.flits.headD 0) with
  | .out o d =>
    if widthOf s.fabric[o].lanes ≤ widthOf s.fabric[p].lanes then
      let s1 := updFabric s p (fun x => { x with rx := some { r with via := some o } })
      updFabric s1 o (fun x => { x with outQ := x.outQ ++ [routedRun r o d] })
    else s
  | .deliver => s
  | .discard _ => s

/-- PACKET_ROUTE (R324, R335 to R337): the oldest packet of a channel, or the next packet injected here. -/
def execPacketRoute (src : RouteFrom) (s : State) : Host.Outcome State Fault Refusal :=
  .next (match src with
    | .inject =>
      match s.router.localQ with
      | [] => s
      | r :: t => routeRun (updRouter s (fun x => { x with localQ := t })) r
    | .port p v =>
      match indexOf? (fun (r : FlitRun) => r.vc == v) s.fabric[p].inBuf with
      | some i =>
        match s.fabric[p].inBuf[i]? with
        | none => s
        | some r => routeRun (updFabric s p (fun x => { x with inBuf := removeAt x.inBuf i })) r
      | none =>
        match s.fabric[p].rx with
        | some r => if r.vc = v && r.via.isNone then cutThrough s p r else s
        | none => s)

/-! ### Flows (R344 to R348) -/

/-- The send flow to a peer in a class. -/
def sendFlow (s : State) (peer : Coord) (c : Cls) : SendFlow :=
  match s.router.sends.find? (fun f => f.peer == peer && f.cls == c) with
  | some f => f
  | none => { peer := peer, cls := c, nextSeq := 0, unacked := [], expiries := 0, failed := false }

def updSend (s : State) (peer : Coord) (c : Cls) (g : SendFlow → SendFlow) : State :=
  let f := g (sendFlow s peer c)
  updRouter s (fun r => { r with sends := f :: r.sends.filter (fun x => !(x.peer == peer && x.cls == c)) })

/-- The receive flow from a peer in a class. -/
def recvFlow (s : State) (peer : Coord) (c : Cls) : RecvFlow :=
  match s.router.recvs.find? (fun f => f.peer == peer && f.cls == c) with
  | some f => f
  | none => { peer := peer, cls := c, ackSeq := 0, got := [], sinceAck := 0, ackDue := false }

def updRecv (s : State) (peer : Coord) (c : Cls) (g : RecvFlow → RecvFlow) : State :=
  let f := g (recvFlow s peer c)
  updRouter s (fun r => { r with recvs := f :: r.recvs.filter (fun x => !(x.peer == peer && x.cls == c)) })

/-- Entries of a class in the retransmit store, and how many fit (R346). -/
def storeHeld (s : State) (c : Cls) : Nat := ((s.router.sends.filter (fun f => f.cls == c)).map (fun f => f.unacked.length)).sum
def storeSize (c : Cls) : Nat :=
  match c.val with
  | 0 => 24 * 2 ^ 20 / 576
  | 1 => 6 * 2 ^ 20 / 576
  | 2 => 16 * 2 ^ 20 / 576
  | _ => 2 * 2 ^ 20 / 576

/-- A packet with the current injection epoch, DSET 0 and its CRC. -/
def stamped (s : State) (k : Packet) : Packet :=
  let p := { k with epoch := s.router.injectEpoch, dset := 0, stomp := false }
  { p with crc := packetCrc p }

/-- A packet entering the router from this device. -/
def enterRouter (s : State) (k : Packet) : State :=
  let fs := packetFlits k
  let r := countArrival s k.epoch.toNat fs.length
  updRouter r (fun x => { x with localQ := x.localQ ++ [runOfFlits fs none] })

/-- Whether a destination cannot be routed (R341). -/
def unreachable (s : State) (c : Coord) : Bool :=
  let r := s.router
  !inPod r c || !bit (routeEntry (bankOf r r.injectEpoch.toNat) c) 0

/-- A path failure (R348, R351, R414, R487, R491). -/
def pathFailure (s : State) (peer : Coord) (c : Cls) : State :=
  let f := sendFlow s peer c
  let held := f.unacked
  let s1 := bump (updSend s peer c (fun f => { f with failed := true })) 0x35 0 1
  let s2 := { s1 with errors := { s1.errors with pathFailure := true, pathFailureCount := satAdd 32 s1.errors.pathFailureCount 1 } }
  let s3 := note (hostEvent s2 allParts 0x11 (unitFabric 26) 0 peer.toNat c.val) 0x43 (unitFabric 26) 0 peer.toNat c.val held.length
  fmMessage s3 4 (le 2 peer.toNat ++ le 1 c.val ++ zeros 1 ++
    (List.range 16).flatMap (fun n => le 2 (min 0xFFFF (held.filter (fun k => k.opcode.toNat == n)).length)))

/-- Whether injection to a peer is held (R349). -/
def pairHeld (s : State) (c : Coord) : Bool := s.router.held.contains c.toNat

/-- Whether a packet waiting at injection may leave now (R329, R344, R346, R348, R349). -/
def mayInject (s : State) (i : Nat) (k : Packet) : Bool :=
  s.router.coordValid && !s.errors.fatal && !pairHeld s k.dst && !(sendFlow s k.dst k.cls).failed &&
    !((s.router.injectQ.take i).any (fun x => x.dst == k.dst && x.cls == k.cls))

/-- PACKET_INJECT (R341, R344, R346, R348): the packet at a place of the injection queue. -/
def execPacketInject (i : Nat) (s : State) : Host.Outcome State Fault Refusal :=
  .next (match s.router.injectQ[i]? with
    | none => s
    | some k =>
      if !mayInject s i k then s
      else if unreachable s k.dst then pathFailure s k.dst k.cls
      else if 4096 ≤ (sendFlow s k.dst k.cls).unacked.length || storeSize k.cls ≤ storeHeld s k.cls then s
      else
        let p := stamped s { k with seq := (sendFlow s k.dst k.cls).nextSeq }
        let s1 := updSend s k.dst k.cls (fun f => { f with nextSeq := f.nextSeq + 1, unacked := f.unacked ++ [p] })
        enterRouter (updRouter s1 (fun r => { r with injectQ := removeAt r.injectQ i })) p)

/-! ### Delivery and acknowledgements (R319, R339, R340, R344, R345) -/

/-- The body of an acknowledgement (form K). -/
def bodyK (ack : Word32) (c : Cls) : Nat := ack.toNat + c.val * 2 ^ 32

/-- Whether a run is a pending acknowledgement of a flow. -/
def isAckFor (peer : Coord) (c : Cls) (r : FlitRun) : Bool :=
  let p := packetFields r.flits
  p.isOp 1 3 && p.dst == peer && bits p.body.toNat 33 32 == c.val

/-- An acknowledgement sent; a pending one of the flow is replaced. To a held peer none is sent (R349). -/
def sendAck (s : State) (peer : Coord) (c : Cls) : State :=
  if pairHeld s peer || !s.router.coordValid then s
  else
    let f := recvFlow s peer c
    let s1 := updRecv s peer c (fun f => { f with sinceAck := 0, ackDue := false })
    let s2 := updRouter s1 (fun r => { r with localQ := r.localQ.filter (fun x => !isAckFor peer c x) })
    enterRouter s2 (stamped s2 (mkPacket 1 3 7 s.router.myCoord peer 0 0 (bodyK f.ackSeq c) []))

/-- ACK_SEQ advanced past every set bit; fuel is the number of bits. -/
def advanceAck : Nat → RecvFlow → RecvFlow
  | 0, f => f
  | n + 1, f => if f.got.contains f.ackSeq then advanceAck n { f with ackSeq := f.ackSeq + 1, got := f.got.filter (fun x => x != f.ackSeq) } else f

/-- Whether a class and opcode are listed (R317). -/
def listedOp (k : Packet) : Bool :=
  match k.cls.val with
  | 0 => decide (1 ≤ k.opcode.toNat) && decide (k.opcode.toNat ≤ 8)
  | 1 => decide (1 ≤ k.opcode.toNat) && decide (k.opcode.toNat ≤ 5)
  | 2 => k.opcode.toNat == 1
  | _ => decide (1 ≤ k.opcode.toNat) && decide (k.opcode.toNat ≤ 4)

/-- A protocol error of the end-to-end unit (R317, R344, R475). -/
def protocolError (s : State) (k : Packet) : State := containedError s 0x141 (unitFabric 26) k.stamp k.src.toNat

/-- A sequence number beyond the window (R344, R475): the job's error when its stamp names one here. -/
def windowError (s : State) (k : Packet) : State :=
  let s1 := bump s 0x33 0 1
  match partOfStamp s k.stamp with
  | some _ => failJob s1 k.stamp 0x104 (unitFabric 26) k.src.toNat 0 0
  | none => protocolError s1 k

/-- An accepted packet: its bit, and its place before its unit. -/
def accept (s : State) (k : Packet) : State :=
  let f := recvFlow s k.src k.cls
  let s1 := updRecv s k.src k.cls (fun f =>
    advanceAck (f.got.length + 1) { f with got := k.seq :: f.got, sinceAck := f.sinceAck + 1, ackDue := true })
  let s2 := if listedOp k then { s1 with inbox := s1.inbox ++ [k] } else protocolError s1 k
  if 31 ≤ f.sinceAck then sendAck s2 k.src k.cls else s2

/-- System packets held by the management agent (R339, R350). -/
def agentHeld (s : State) : Nat := (s.inbox.filter (fun k => k.cls == 3)).length

/-- The partition with FM_CHANNEL set. -/
def fmPart (s : State) : Option Part := allParts.find? (fun p => s.parts[p].assigned && s.parts[p].fmChannel)

/-- Whether a system packet goes to the FM receive ring: a SYS_REPLY, or a message that a device sends (R351, R415). -/
def forFm (k : Packet) : Bool :=
  k.isOp 3 3 || (k.isOp 3 4 && (decide (u16 k.payload 0 < 0x101) || decide (0x104 < u16 k.payload 0)))

/-- Whether the FM receive ring has room for one more packet than those that wait for it (R415). -/
def fmRoom (s : State) : Bool :=
  match fmPart s with
  | none => false
  | some p =>
    let r := s.parts[p].fmrx
    r.usable && portPosts s s.parts[p].port && decide ((s.inbox.filter forFm).length < r.free)

/-- A sequenced packet that has passed its CRC (R344). -/
def deliverSeq (s : State) (k : Packet) : State :=
  let f := recvFlow s k.src k.cls
  let off := (k.seq - f.ackSeq).toNat
  if 2 ^ 31 ≤ off || f.got.contains k.seq then sendAck (bump s 0x32 0 1) k.src k.cls
  else if 4096 ≤ off then windowError s k
  else if k.cls = 3 && (64 ≤ agentHeld s || (forFm k && !fmRoom s)) then bump s 0x36 0 1
  else accept s k

/-- PACKET_DELIVERY (R319, R327, R344, R348). -/
def execPacketDelivery (i : Nat) (s : State) : Host.Outcome State Fault Refusal :=
  .next (match s.router.arrived[i]? with
    | none => s
    | some (p, k) =>
      let s1 := updRouter s (fun r => { r with arrived := removeAt r.arrived i })
      let port := match p with | some q => q.val | none => 0
      if k.stomp then bump s1 0x25 port 1
      else if k.crc ≠ packetCrc k then bump s1 0x24 port 1
      else if k.isOp 1 3 then { s1 with inbox := s1.inbox ++ [k] }
      else deliverSeq s1 k)

/-- The acknowledgement of a flow: every entry below ACK_SEQ is free (R344 to R347). -/
def acked (s : State) (peer : Coord) (c : Cls) (ack : Word32) : State :=
  let f := sendFlow s peer c
  let rest := f.unacked.filter (fun k => decide ((k.seq - ack).toNat < 2 ^ 31))
  if rest.length = f.unacked.length then s else updSend s peer c (fun f => { f with unacked := rest, expiries := 0 })

/-- RESHARDs in progress, which an acknowledgement may complete (R364). -/
def settleReshards (s : State) : State :=
  (s.longs.filter (fun o => match o.body with | .reshard _ => o.state == .running | _ => false)).foldl (fun s o => settleReshard s o.handle) s

/-- E2E_ACK (R345, R346): it may also complete what waits for acknowledgements. -/
def execE2eAck (i : Nat) (s : State) : Host.Outcome State Fault Refusal :=
  .next (match takeInbox s i 1 3 with
    | none => s
    | some (k, s1) =>
      settleEngines (settleReshards (acked s1 k.src (clsN (k.field 161 160)) (BitVec.ofNat 32 (k.field 159 128)))))

/-- ACK_TIMER (R345). -/
def execAckTimer (peer : Coord) (c : Cls) (s : State) : Host.Outcome State Fault Refusal :=
  .next (if (recvFlow s peer c).ackDue && !s.errors.fatal then sendAck s peer c else s)

/-- RESEND_TIMER (R341, R342, R347, R348): the oldest unacknowledged packet is sent again; the sixth expiry declares a path
failure. -/
def execResendTimer (peer : Coord) (c : Cls) (s : State) : Host.Outcome State Fault Refusal :=
  .next (let f := sendFlow s peer c
    match f.unacked with
    | [] => s
    | k :: t =>
      if f.failed || pairHeld s peer || !s.router.coordValid || s.errors.fatal then s
      else if unreachable s peer then pathFailure s peer c
      else
        let p := stamped s k
        let s1 := enterRouter (bump (updSend s peer c (fun f => { f with unacked := p :: t, expiries := f.expiries + 1 })) 0x34 0 1) p
        if 6 ≤ f.expiries + 1 then pathFailure s1 peer c else s1)

/-! ### Congestion (R352 to R354) -/

/-- The level of a port and class (R352). -/
def congLevel (x : FabricPort) (p : FPort) (c : Nat) : Nat :=
  if x.state = .down then 0 else min 15 (16 * x.peak.toArray.getD c 0 / bufFlits (portDim p))

/-- The 32 bytes of a sample. -/
def sampleBytes (s : State) : Bytes :=
  allFports.flatMap (fun p =>
    let x := s.fabric[p]
    [BitVec.ofNat 8 (congLevel x p 0 + 16 * congLevel x p 1), BitVec.ofNat 8 (congLevel x p 2 + 16 * congLevel x p 3)])

/-- CONGESTION_SAMPLE (R352 to R354). -/
def execCongestionSample (s : State) : Host.Outcome State Fault Refusal :=
  .next (if !s.live || !domainOn s 2 then s
    else
      let i := s.router.cmapIndex + 1
      let worst := (allFports.map (fun p => congLevel s.fabric[p] p 0)).foldl max 0
      let b := sampleBytes s
      let s1 := updRouter s (fun r =>
        { r with cmap := (i.toNat, b) :: r.cmap.filter (fun e => e.1 != i.toNat), cmapIndex := i, cmapTime := s.timeBase,
                 throttle := if r.throttleLevel ≤ worst then (if worst = 15 then 4 else 2) else 1 })
      { s1 with fabric := s1.fabric.map (fun x => notePeak { x with peak := Vector.replicate 4 0 }) })

end Sys2Proof.Machine
end

