-- ==== Sys2Proof/Machine/SystemClass.lean ====
section
/-! DEFINITION. The management agent (R329 to R334, R349 to R351, R415, R481, R482, R501 to R509, R528): reads and writes of the
device control space, the routing block and the settings, the FM channel, and the messages of the fabric manager. -/

namespace Sys2Proof.Machine

open Sys2Proof

/-! ### Answers (R350) -/

def sysOk : Nat := 0
def sysBadAddress : Nat := 1
def sysRefused : Nat := 2

/-- LOCAL and SYS_ID of a system packet (R318). -/
def Packet.sysLocal (k : Packet) : Nat := k.field 174 128
def Packet.sysId (k : Packet) : Nat := k.field 207 192

/-- A SYS_REPLY: the status, and the data of a read that succeeded. A payload holds 512 bytes (R316). -/
def sysReply (s : State) (k : Packet) (status : Nat) (data : Bytes) : State :=
  sendBack s k.src (mkPacket 3 3 6 s.router.myCoord k.src 0 0 (bodyS k.sysLocal k.sysId) ((le 4 status ++ data).take 512))

/-- A packet that breaks R350 or R351: discarded and counted. -/
def sysDrop (s : State) : State := bump s 0x36 0 1

/-! ### The routing block (R331, R332, R334) -/

def routingBase : Nat := controlBase + 0x10000

/-- Flits of an epoch in a list of runs. -/
def runsHeld (e : Nat) (l : List FlitRun) : Nat := ((l.filter (fun r => r.epoch.toNat == e)).map (fun r => r.flits.length)).sum

/-- EPOCH_OCCe: flits held in input buffers, on their way through, and in output queues (R332). A run that is being forwarded is
counted at its output. -/
def epochOcc (s : State) (e : Nat) : Nat :=
  (allFports.map (fun p =>
    let x := s.fabric[p]
    runsHeld e x.inBuf + runsHeld e x.outQ + runsHeld e x.tx.toList + runsHeld e (x.rx.toList.filter (fun r => r.via.isNone)))).sum +
    runsHeld e s.router.localQ +
    ((s.router.arrived.filter (fun a => a.2.epoch.toNat == e)).map (fun a => flitCount a.2.payload.length)).sum

/-- The COORD_MAP entry at a place of a bank; one that is not listed is 0. -/
def coordEntry (b : Bank) (i : Nat) : Nat :=
  match b.coordMap.find? (fun e => e.1 == i) with
  | some e => e.2.toNat
  | none => 0

/-- A bank's word at an offset within it. -/
def bankWord (b : Bank) (o : Nat) : Nat :=
  if o < 0x800 then routeEntry b (BitVec.ofNat 9 (o / 4))
  else coordEntry b ((o - 0x800) / 2) + coordEntry b ((o - 0x800) / 2 + 1) * 2 ^ 16

/-- BANK_CTRL as a register. -/
def bankCtrlWord (r : Router) : Nat :=
  (if r.bank0Valid then 1 else 0) + (if r.bank1Valid then 2 else 0) + r.injectEpoch.toNat * 4

/-- A word of the routing block (R331). -/
def routingWord (s : State) (o : Nat) : Nat :=
  let r := s.router
  if o < 0x1800 then bankWord r.bank0 o
  else if 0x2000 ≤ o && o < 0x3800 then bankWord r.bank1 (o - 0x2000)
  else if o = 0x8000 then myCoordWord r
  else if o = 0x8004 then podExtentWord r
  else if o = 0x8008 then bankCtrlWord r
  else if o = 0x8010 then epochOcc s 0
  else if o = 0x8014 then epochOcc s 1
  else if o = 0x8018 then r.arrivals0.toNat % 2 ^ 32
  else if o = 0x801C then r.arrivals0.toNat / 2 ^ 32
  else if o = 0x8020 then r.arrivals1.toNat % 2 ^ 32
  else if o = 0x8024 then r.arrivals1.toNat / 2 ^ 32
  else if o = 0x8028 then r.resendUs
  else if o = 0x802C then r.throttleLevel
  else if o = 0x8030 then r.injectLimit
  else if o = 0x8034 then gatewayWord r
  else if o = 0x8038 then r.cmapIndex.toNat
  else if o = 0x8040 then r.cmapTime % 2 ^ 32
  else if o = 0x8044 then r.cmapTime / 2 ^ 32 % 2 ^ 32
  else if 0x9000 ≤ o && o < 0xB000 then
    match r.cmap.find? (fun e => e.1 == (o - 0x9000) / 32) with
    | some e => u32 e.2 (o % 32)
    | none => 0
  else 0

/-- Whether an offset of the routing block is an RO register. -/
def routingRo (o : Nat) : Bool := (decide (0x8010 ≤ o) && decide (o < 0x8028)) || o == 0x8038 || o == 0x8040 || o == 0x8044 ||
  (decide (0x9000 ≤ o) && decide (o < 0xB000))

/-! #### Recovery of a pair (R349), and MY_COORD (R329, R333, R528) -/

/-- An unacknowledged packet that is discarded without a report: a memory request or reply. -/
def isMemory (k : Packet) : Bool := (k.cls == 0 && decide (1 ≤ k.opcode.toNat) && decide (k.opcode.toNat ≤ 3)) || k.isOp 1 1

/-- Whether a request still waits at injection. -/
def requestWaits (s : State) (k : Packet) : Bool :=
  s.router.injectQ.any (fun x => x.cls == k.cls && x.opcode == k.opcode && x.dst == k.dst && x.stamp == k.stamp && x.aux == k.aux &&
    x.body == k.body && x.payload == k.payload)

/-- Jobs of discarded packets reported, each once (R349, R475 PATH_LOST). -/
def reportLost (s : State) (peer : Coord) (l : List Packet) : State :=
  ((l.map (fun k => k.stamp)).dedup.filter (fun t => (partOfStamp s t).isSome)).foldl
    (fun s t => failJob s t 0x132 (unitFabric 26) peer.toNat 0 0) s

/-- The end-to-end state with a peer reset (R349). -/
def resetPeer (s : State) (peer : Coord) : State :=
  let un := (s.router.sends.filter (fun f => f.peer == peer)).flatMap (fun f => f.unacked)
  let sys := un.filter (fun k => k.cls == 3)
  let lost := un.filter (fun k => !(k.cls == 3) && !isMemory k)
  let s1 := updRouter s (fun r =>
    { r with sends := r.sends.filter (fun f => f.peer != peer), recvs := r.recvs.filter (fun f => f.peer != peer),
             held := r.held.filter (fun n => n != peer.toNat), injectQ := sys ++ r.injectQ })
  let again := s1.trackers.filter (fun t => t.access.target == peer && peer != s1.router.myCoord && !requestWaits s1 t.access.req)
  let s2 := again.foldl (fun s t => sendPacket s t.access.req) s1
  reportLost s2 peer lost

/-- The peers with end-to-end state. -/
def e2ePeers (r : Router) : List Coord :=
  ((r.sends.map (fun f => f.peer)) ++ (r.recvs.map (fun f => f.peer)) ++ r.held.map (fun n => BitVec.ofNat 9 n)).dedup

/-- The default entries of bank 0 (R333). -/
def defaultRoutes (r : Router) : List (Nat × Word32) :=
  (List.range 512).map (fun n => (n, BitVec.ofNat 32 (defaultEntry r r.myCoord (BitVec.ofNat 9 n))))

/-- MY_COORD cleared: the router as it was before assignment (R528). -/
def clearCoord (s : State) : State :=
  let s1 := updRouter s (fun r => { r with coordValid := false, bank0Valid := false, bank1Valid := false, injectEpoch := 0 })
  allFports.foldl fportRest ((e2ePeers s1.router).foldl resetPeer s1)

/-- MY_COORD set: bank 0 is filled with default entries and valid, and the epoch is 0; the rank maps are not valid (R329, R528). -/
def assignCoord (s : State) (c : Coord) : State :=
  let s1 := updRouter s (fun r => { r with myCoord := c, coordValid := true, bank0Valid := true, injectEpoch := 0 })
  updRouter s1 (fun r => { r with bank0 := { route := defaultRoutes r, coordMap := [] } })

/-- A value of MY_COORD written; none when it is refused (R331). -/
def writeMyCoord (s : State) (v : Nat) : Option State :=
  let c : Coord := BitVec.ofNat 9 v
  let valid := bit v 15
  if bits v 31 16 ≠ 0 ∨ bits v 14 9 ≠ 0 then none
  else if s.router.coordValid then
    if c ≠ s.router.myCoord then none else if valid then some s else some (clearCoord s)
  else if valid then some (assignCoord s c)
  else some (updRouter s (fun r => { r with myCoord := c }))

/-- A value of BANK_CTRL written, judged as a whole; none when it is refused (R334). -/
def writeBankCtrl (s : State) (v : Nat) : Option State :=
  let r := s.router
  let e := bits v 2 2
  let ok := v < 8 && (if e = 0 then bit v 0 else bit v 1) &&
    (!r.bank0Valid || bit v 0 || (e != 0 && epochOcc s 0 == 0)) && (!r.bank1Valid || bit v 1 || (e != 1 && epochOcc s 1 == 0))
  if ok then some (updRouter s (fun r => { r with bank0Valid := bit v 0, bank1Valid := bit v 1, injectEpoch := BitVec.ofNat 1 e })) else none

/-- A bank entry word written (R331). -/
def bankWrite (b : Bank) (o v : Nat) : Option Bank :=
  if o < 0x800 then
    if 16 ≤ v then none
    else some { b with route := (o / 4, BitVec.ofNat 32 v) :: b.route.filter (fun e => e.1 != o / 4) }
  else if bits v 14 9 ≠ 0 ∨ bits v 30 25 ≠ 0 then none
  else
    let i := (o - 0x800) / 2
    some { b with coordMap := (i, BitVec.ofNat 16 v) :: (i + 1, BitVec.ofNat 16 (v / 2 ^ 16)) ::
                    b.coordMap.filter (fun e => e.1 != i && e.1 != i + 1) }

/-- FM_GATEWAY written; none when it is refused. -/
def writeGateway (s : State) (v : Nat) : Option State :=
  if bits v 31 16 ≠ 0 ∨ bits v 14 9 ≠ 0 then none
  else some (updRouter s (fun r => { r with gateway := BitVec.ofNat 9 v, gatewayValid := bit v 15 }))

/-- POD_EXTENT written; none when it is refused. -/
def writeExtent (s : State) (v : Nat) : Option State :=
  if 2 ^ 9 ≤ v then none
  else some (updRouter s (fun r => { r with extX := BitVec.ofNat 3 v, extY := BitVec.ofNat 3 (v / 8), extZ := BitVec.ofNat 3 (v / 64) }))

/-- A word of the routing block written; none when it is refused (R331, R332, R334). -/
def routingWrite (s : State) (o v : Nat) : Option State :=
  let r := s.router
  if o < 0x1800 then
    if r.bank0Valid then none else (bankWrite r.bank0 o v).map (fun b => updRouter s (fun r => { r with bank0 := b }))
  else if 0x2000 ≤ o && o < 0x3800 then
    if r.bank1Valid then none else (bankWrite r.bank1 (o - 0x2000) v).map (fun b => updRouter s (fun r => { r with bank1 := b }))
  else if o = 0x8000 then writeMyCoord s v
  else if o = 0x8004 then writeExtent s v
  else if o = 0x8008 then writeBankCtrl s v
  else if routingRo o then none
  else if o = 0x8028 then (if 10 ≤ v && v ≤ 10000 then some (updRouter s (fun r => { r with resendUs := v })) else none)
  else if o = 0x802C then (if v ≤ 16 then some (updRouter s (fun r => { r with throttleLevel := v })) else none)
  else if o = 0x8030 then (if v ≤ 3200 then some (updRouter s (fun r => { r with injectLimit := v })) else none)
  else if o = 0x8034 then writeGateway s v
  else if v = 0 then some s else none

/-! ### The settings block (R501 to R505) -/

/-- A region whose MODE cannot be written (R505). -/
def modeHeld (s : State) (g : Fin 72) : Bool :=
  s.regions[g].assigned || (match s.mgmt.busy with | some (.carveout _ _ rs) => rs.contains g.val | _ => false)

/-- A MODE written; none when it is refused. -/
def writeMode (s : State) (g : Fin 72) (v : Nat) : Option State :=
  if bit v 0 = s.regions[g].stackLocal then some s
  else if modeHeld s g then none
  else some (updRegion s g (fun r => { r with stackLocal := bit v 0 }))

/-- An RWL field written: it keeps its range, and is not changed while LOCK is 1 (R503). -/
def lockField (s : State) (old new lo hi : Nat) (f : State → State) : Option State :=
  if new < lo ∨ hi < new then none else if s.settings.lock && new != old then none else some (f s)

/-- A port that an ENABLE bit takes down (R504): LINK_STATE when it was not down. -/
def disablePort (s : State) (p : FPort) : State :=
  if s.fabric[p].state = .down ∨ s.fabric[p].state = .failed then s else linkEvent (portDown s p .down) p 0

/-- The ports that a value of ENABLE takes down or starts (R504). -/
def setEnables (s : State) (v : Nat) : State :=
  let old := s.settings.fportEnable
  let s1 := { s with settings := { s.settings with fportEnable := BitVec.ofNat 16 v } }
  let s2 := (allFports.filter (fun p => old.getLsbD p.val && !bit v p.val)).foldl disablePort s1
  (allFports.filter (fun p => !old.getLsbD p.val && bit v p.val)).foldl startTraining s2

/-- Whether a value of ENABLE would cut the device out of a ring (R504): an ACTIVE port is cleared and its group keeps no usable
port. -/
def cutsRing (s : State) (v : Nat) : Bool :=
  s.router.coordValid && allFports.any (fun p =>
    s.settings.fportEnable.getLsbD p.val && !bit v p.val && s.fabric[p].state == .active &&
      !(usablePorts s (groupOf p)).any (fun o => bit v o.val))

/-- A value of FPORT_ENABLE written; none when it is refused. -/
def writeEnable (s : State) (v : Nat) : Option State :=
  let e := v % 2 ^ 16
  if s.settings.lock && e != s.settings.fportEnable.toNat then none
  else if cutsRing s e then none
  else some (setEnables s e)

/-- QUOTA limits by dimension: the pool less H of R321 (R502). -/
def quotaTop (d : Nat) : Nat := poolFlits d - headFlits d

/-- A value of SETTINGS_LOCK written; none when it is refused: once 1, LOCK is kept (R502). -/
def writeLock (s : State) (v : Nat) : Option State :=
  if s.settings.lock && !bit v 0 then none else some { s with settings := { s.settings with lock := bit v 0 } }

/-- A word of the settings block written, by its offset from 0x5000; none when it is refused. RSVD bits are ignored (R9). -/
def settingsWrite (s : State) (o v : Nat) : Option State :=
  let t := s.settings
  if o < 0x120 then writeMode s (Fin.ofNat 72 (o / 4)) v
  else if o = 0x200 then
    lockField s t.stallLimit (v % 2 ^ 16) 1 65535 (fun s => { s with settings := { s.settings with stallLimit := v % 2 ^ 16 } })
  else if o = 0x204 then
    lockField s t.scrubHours (v % 2 ^ 8) 1 168 (fun s => { s with settings := { s.settings with scrubHours := v % 2 ^ 8 } })
  else if o = 0x208 then
    lockField s t.hbmIdleUs (v % 2 ^ 14) 10 10000 (fun s => { s with settings := { s.settings with hbmIdleUs := v % 2 ^ 14 } })
  else if o = 0x20C then
    lockField s t.trickleDelta (v % 2 ^ 5) 2 20 (fun s => { s with settings := { s.settings with trickleDelta := v % 2 ^ 5 } })
  else if o = 0x210 then
    lockField s t.serPpm (v % 2 ^ 14) 1 10000 (fun s => { s with settings := { s.settings with serPpm := v % 2 ^ 14 } })
  else if o = 0x214 then writeEnable s v
  else if 0x220 ≤ o && o < 0x250 then
    let i : Fin 12 := Fin.ofNat 12 ((o - 0x220) / 4)
    lockField s t.quota[i] (v % 2 ^ 13) 9 (quotaTop (i.val % 3))
      (fun s => { s with settings := { s.settings with quota := s.settings.quota.set i (v % 2 ^ 13) } })
  else if o = 0x2FC then writeLock s v
  else some s

/-! ### The device control space (R507) -/

/-- A word of the device control space. -/
def controlWord (s : State) (o : Nat) : Nat :=
  if o < 0x10000 then bar0Word s none o else if o < 0x20000 then routingWord s (o - 0x10000) else 0

/-- How a word written in the device control space is answered, with the state after it. -/
def controlWrite (s : State) (o v : Nat) : Nat × State :=
  let answer : Option State → Nat × State := fun r => match r with | some s1 => (sysOk, s1) | none => (sysRefused, s)
  if 0x10000 ≤ o then answer (routingWrite s (o - 0x10000) v)
  else if o < 0x200 ∨ (0x6000 ≤ o ∧ o < 0x7000) then (sysRefused, s)
  else if 0x1000 ≤ o ∧ o < 0x5000 ∨ 0x8000 ≤ o ∧ o < 0xA000 then (sysBadAddress, s)
  else if 0x5000 ≤ o ∧ o < 0x5300 then answer (settingsWrite s (o - 0x5000) v)
  else if o = 0xA000 then (sysOk, writeErrStatus s (BitVec.ofNat 32 v) 0)
  else if o = 0xA10C then (sysOk, { s with errors := { s.errors with index := BitVec.ofNat 32 v } })
  else (sysOk, s)

/-- The words that a write of bytes touches, with their new values, rising; MY_COORD is taken last, so that a POD_EXTENT written with it
counts in its default routes. -/
def writtenWords (s : State) (o : Nat) (b : Bytes) : List (Nat × Nat) :=
  let ws := (List.range (ceilDiv b.length 4)).map (fun i =>
    (o + 4 * i, u32 (overlay (le 4 (controlWord s (o + 4 * i))) 0 (slice b (4 * i) (min 4 (b.length - 4 * i)))) 0))
  ws.filter (fun w => w.1 != 0x18000) ++ ws.filter (fun w => w.1 == 0x18000)

/-- A write into the device control space: all of it, or nothing (R332, R503). -/
def writeControl (s : State) (o : Nat) (b : Bytes) : Nat × State :=
  let r := (writtenWords s o b).foldl (fun (a : Nat × State) w => if a.1 = sysOk then controlWrite a.2 w.1 w.2 else a) (sysOk, s)
  if r.1 = sysOk then r else (r.1, s)

/-- A refused MODE write leaves a record (R505). -/
def noteModes (s : State) (o : Nat) (b : Bytes) : State :=
  ((writtenWords s o b).filter (fun w => decide (0x5000 ≤ w.1) && decide (w.1 < 0x5120))).foldl (fun s w =>
    let g : Fin 72 := Fin.ofNat 72 ((w.1 - 0x5000) / 4)
    if bit w.2 0 != s.regions[g].stackLocal && modeHeld s g then note s 0x23 (unitFabric 29) 0 g.val 0 0 else s) s

/-! ### SYS_READ and SYS_WRITE (R163, R272, R350, R507) -/

/-- Where the n bytes at a local address lie, for the system class. -/
inductive SysSpace where
  | control (o : Nat)
  | memory (domains : List Domain)
  | nowhere
deriving DecidableEq, Repr

/-- The space of a range (R272, R507). -/
def sysSpace (s : State) (a n : Nat) : SysSpace :=
  if controlBase ≤ a && a + n ≤ controlBase + 0x20000 then .control (a - controlBase)
  else if a + n ≤ hbmTop then .memory ((stacksOf s a n).map stackDomain)
  else if inClusterWindow a && inClusterWindow (a + n - 1) then .memory (bandsOf [(a - clusterBase) / clusterBytes, (a + n - 1 - clusterBase) / clusterBytes])
  else if inCoreWindow a && inCoreWindow (a + n - 1) then .memory (bandsOf [(a - coreBase) / coreBytes / 16, (a + n - 1 - coreBase) / coreBytes / 16])
  else .nowhere

/-- The cluster whose core window holds an address: debug access ends its WAIT (R160). -/
def windowCluster (a : Nat) : List Nat := if inCoreWindow a then [(a - coreBase) / coreBytes / 16] else []

/-- Why the system class wakes a domain: debug access, or fabric (R430). -/
def sysSource (a : Nat) : Nat := if inCoreWindow a then 7 else 5

/-- Whether a SYS_READ keeps R350. -/
def readOk (k : Packet) : Bool :=
  let n := u32 k.payload 0
  k.payload.length == 4 && decide (4 ≤ n) && decide (n ≤ 512) && n % 4 == 0 && k.sysLocal % 4 == 0

/-- Whether a SYS_WRITE keeps R350. -/
def writeOk (k : Packet) : Bool := decide (4 ≤ k.payload.length) && decide (k.payload.length ≤ 512) && k.sysLocal % 4 == 0

/-- What a SYS_READ of memory returns; a poisoned line's bytes are free values (log entry 3). -/
def sysBytes (s : State) (a n : Nat) : Bytes :=
  if s.mem.poisoned a n then (List.range n).map (fun i => Config.freeByte s.fresh i) else targetBytes s a n

/-- A SYS_READ served. -/
def sysReadServe (s : State) (k : Packet) : State :=
  let n := u32 k.payload 0
  let a := k.sysLocal
  match sysSpace s a n with
  | .control o => sysReply s k sysOk ((List.range (n / 4)).flatMap (fun i => le 4 (controlWord s (o + 4 * i))))
  | .memory _ => sysReply { endWait s (windowCluster a) with fresh := s.fresh + 1 } k sysOk (sysBytes s a n)
  | .nowhere => sysReply s k sysBadAddress []

/-- A SYS_WRITE served. -/
def sysWriteServe (s : State) (k : Packet) : State :=
  let a := k.sysLocal
  match sysSpace s a k.payload.length with
  | .control o =>
    let r := writeControl s o k.payload
    sysReply (if r.1 = sysRefused then noteModes r.2 o k.payload else r.2) k r.1 []
  | .memory _ => sysReply (targetStore (endWait s (windowCluster a)) a k.payload) k sysOk []
  | .nowhere => sysReply s k sysBadAddress []

/-- The domains that a system access needs. -/
def sysDomains (s : State) (k : Packet) (n : Nat) : List Domain :=
  match sysSpace s k.sysLocal n with
  | .control _ => []
  | .memory ds => ds
  | .nowhere => []

/-- Whether a write touches a register of the device control space. -/
def touches (k : Packet) (lo hi : Nat) : Bool :=
  decide (k.sysLocal < controlBase + hi) && decide (controlBase + lo < k.sysLocal + k.payload.length)

/-- The registers with an operation of their own, as offsets in the device control space. -/
def ownRegisters : List (Nat × Nat) := [(0x18000, 0x18004), (0x18008, 0x1800C), (0x5214, 0x5218), (0x5000, 0x5120), (0x52FC, 0x5300)]

/-- The SYS_WRITE at a place of the inbox that passes a test, served. -/
def serveWrite (s : State) (i : Nat) (test : Packet → Bool) : State :=
  match takeInbox s i 3 2 with
  | none => s
  | some (k, s1) =>
    if !test k then s
    else if !writeOk k then sysDrop s1
    else needing s (sysDomains s k k.payload.length) (sysSource k.sysLocal) s (fun _ => sysWriteServe s1 k)

/-- SYS_READ (R163, R272, R350, R507). -/
def execSysRead (i : Nat) (s : State) : Host.Outcome State Fault Refusal :=
  .next (match takeInbox s i 3 1 with
    | none => s
    | some (k, s1) =>
      if !readOk k then sysDrop s1
      else needing s (sysDomains s k (u32 k.payload 0)) (sysSource k.sysLocal) s (fun _ => sysReadServe s1 k))

/-- SYS_WRITE (R163, R272, R332, R350, R503, R507): to what has no operation of its own. -/
def execSysWrite (i : Nat) (s : State) : Host.Outcome State Fault Refusal :=
  .next (serveWrite s i (fun k => !ownRegisters.any (fun r => touches k r.1 r.2)))

/-- MY_COORD (R329, R331, R528). -/
def execMyCoord (i : Nat) (s : State) : Host.Outcome State Fault Refusal :=
  .next (serveWrite s i (fun k => touches k 0x18000 0x18004))

/-- BANK_CTRL (R334). -/
def execBankCtrl (i : Nat) (s : State) : Host.Outcome State Fault Refusal :=
  .next (serveWrite s i (fun k => touches k 0x18008 0x1800C))

/-- FPORT_ENABLE (R504). -/
def execFportEnable (i : Nat) (s : State) : Host.Outcome State Fault Refusal :=
  .next (serveWrite s i (fun k => touches k 0x5214 0x5218))

/-- HBM_REGION (R505). -/
def execHbmRegion (i : Nat) (s : State) : Host.Outcome State Fault Refusal :=
  .next (serveWrite s i (fun k => touches k 0x5000 0x5120))

/-- SETTINGS_LOCK (R502). -/
def execSettingsLock (i : Nat) (s : State) : Host.Outcome State Fault Refusal :=
  .next (serveWrite s i (fun k => touches k 0x52FC 0x5300))

/-! ### The FM channel (R415) -/

/-- An FM receive ring entry. -/
def fmEntry (k : Packet) (phase : Nat) : Bytes :=
  le 2 k.src.toNat ++ le 1 k.opcode.toNat ++ le 1 phase ++ le 2 k.sysId ++ le 2 k.payload.length ++ le 8 k.sysLocal ++ zeros 48 ++
    slice k.payload 0 512

/-- A packet placed in the FM receive ring, with its signal and event; with no room it is discarded and counted (R350). -/
def fmReceive (s : State) (k : Packet) : State :=
  match fmPart s with
  | none => sysDrop s
  | some p =>
    let r := s.parts[p].fmrx
    let port := s.parts[p].port
    if !(r.usable && portPosts s port && decide (0 < r.free)) then sysDrop s
    else
      let s1 := updHost s port (fun m => m.writeBytes (r.entryAddr r.posted 576) (fmEntry k r.phase))
      let s2 := updPart s1 p (fun x => { x with fmrx := { x.fmrx with posted := x.fmrx.posted + 1 } })
      hostEvent (signalVector s2 port r.vector) [p] 0x40 (unitHost port.val) 0 (s2.parts[p].fmrx.held) 0

/-- SYS_REPLY (R350, R415). -/
def execSysReply (i : Nat) (s : State) : Host.Outcome State Fault Refusal :=
  .next (match takeInbox s i 3 3 with
    | none => s
    | some (k, s1) => fmReceive s1 k)

/-- The codes of messages to a manager, with the LENGTH of each (R351, R479). -/
def toManager (code : Nat) : Option Nat :=
  match code with
  | 1 => some 16
  | 2 => some 4
  | 3 => some 12
  | 4 => some 36
  | 5 => some 16
  | 6 => some 16
  | 0x201 => some 16
  | 0x202 => some 16
  | 0x203 => some 16
  | _ => none

/-- The zero bytes among a message's arguments (R351, R479). -/
def messageZero (code : Nat) (a : Bytes) : Bool :=
  match code with
  | 1 => zeroRange a 2 2
  | 2 => zeroRange a 2 2
  | 3 => zeroRange a 2 2
  | 4 => zeroRange a 3 1
  | 6 => zeroRange a 9 3
  | 0x101 => zeroRange a 2 2
  | 0x102 => zeroRange a 2 2
  | 0x103 => true
  | 0x104 => zeroRange a 1 3
  | _ => zeroRange a 13 3

/-- The code and arguments of a message that keeps R351. -/
def messageOf (k : Packet) (len : Nat → Option Nat) : Option (Nat × Bytes) :=
  let code := u16 k.payload 0
  let args := k.payload.drop 8
  match len code with
  | none => none
  | some n =>
    if decide (8 ≤ k.payload.length) && u16 k.payload 2 == n && zeroRange k.payload 4 4 && args.length == n && messageZero code args then
      some (code, args)
    else none

/-- Whether a code is one of a manager's messages to a device (R351). -/
def toDevice (code : Nat) : Bool := 0x101 ≤ code && code ≤ 0x104

/-- SYS_MESSAGE (R351, R415): one that a device sent goes to the FM receive ring; a code that is not listed, or a message that breaks the
table, is discarded and counted. -/
def execSysMessage (i : Nat) (s : State) : Host.Outcome State Fault Refusal :=
  .next (match takeInbox s i 3 4 with
    | none => s
    | some (k, s1) =>
      if toDevice (u16 k.payload 0) then s
      else
        match messageOf k toManager with
        | none => sysDrop s1
        | some _ => fmReceive s1 k)

/-- A manager's message to this device with one code: the state without it, and its arguments; a broken one is discarded. -/
def managerMessage (s : State) (i code : Nat) (act : State → Bytes → State) : State :=
  match takeInbox s i 3 4 with
  | none => s
  | some (k, s1) =>
    if u16 k.payload 0 ≠ code then s
    else
      match messageOf k (fun _ => some 4) with
      | none => sysDrop s1
      | some (_, a) => act s1 a

/-- Whether a coordinate's two bytes keep R351. -/
def coordBytesOk (a : Bytes) : Bool := decide (u16 a 0 < 512)

/-- HOLD_PAIR (R349). -/
def execHoldPair (i : Nat) (s : State) : Host.Outcome State Fault Refusal :=
  .next (managerMessage s i 0x101 (fun s a =>
    if coordBytesOk a then updRouter s (fun r => { r with held := u16 a 0 :: r.held.filter (fun n => n != u16 a 0) }) else sysDrop s))

/-- RESET_PAIR (R349). -/
def execResetPair (i : Nat) (s : State) : Host.Outcome State Fault Refusal :=
  .next (managerMessage s i 0x102 (fun s a => if coordBytesOk a then resetPeer s (BitVec.ofNat 9 (u16 a 0)) else sysDrop s))

/-- TEARDOWN (R481, R482). -/
def execTeardown (i : Nat) (s : State) : Host.Outcome State Fault Refusal :=
  .next (managerMessage s i 0x103 (fun s a =>
    let t : Stamp := BitVec.ofNat 32 (u32 a 0)
    match partOfStamp s t with
    | some p => teardown s p 0
    | none => fmMessage (note (note s 0x60 (unitFabric 29) t 1 0 0) 0x61 (unitFabric 29) t 0 0 0) 0x203 (reportArgs t 0 0 0 0)))

/-- RETRAIN_PORT (R310, R313, R351): training starts again from DOWN. -/
def execRetrainPort (i : Nat) (s : State) : Host.Outcome State Fault Refusal :=
  .next (managerMessage s i 0x104 (fun s a =>
    if 16 ≤ u8 a 0 then sysDrop s
    else
      let p := fportN (u8 a 0)
      let was := s.fabric[p].state
      let s1 := portDown s p .down
      let s2 := if was = .down ∨ was = .failed then s1 else linkEvent s1 p 0
      let s3 := updFabric s2 p (fun x => { x with attempts := 0, retryWait := false })
      if domainOn s3 (fportDomain p.val) then startTraining s3 p else demand s3 (fportDomain p.val) 10))

/-! ### FM_TRANSMIT (R415) -/

/-- Whether an entry's payload and address keep R350. -/
def fmEntryOk (b : Bytes) : Bool :=
  let n := u16 b 6
  let a := u64 b 8
  let area := decide (controlBase ≤ a) && decide (a < controlBase + 2 ^ 32) || decide (a < hbmTop) || inClusterWindow a || inCoreWindow a
  u16 b 0 < 512 && u8 b 3 == 0 && decide (n ≤ 512) && decide (a < 2 ^ 47) && zeroRange b 16 48 &&
    (match u8 b 2 with
      | 1 => n == 4 && decide (4 ≤ u32 b 64) && decide (u32 b 64 ≤ 512) && u32 b 64 % 4 == 0 && a % 4 == 0 && area
      | 2 => decide (4 ≤ n) && a % 4 == 0 && area
      | 3 => decide (4 ≤ n) && a % 4 == 0 && area
      | 4 => decide (8 ≤ n)
      | _ => false)

/-- The packet of an entry. -/
def fmPacket (s : State) (b : Bytes) : Packet :=
  mkPacket 3 (u8 b 2) 6 s.router.myCoord (BitVec.ofNat 9 (u16 b 0)) 0 0 (bodyS (u64 b 8) (u16 b 4)) (slice b 64 (u16 b 6))

/-- FM_TRANSMIT (R415): the oldest entry of the FM transmit ring that its producer count covers. -/
def execFmTransmit (p : Part) (entry : Bytes) (s : State) : Host.Outcome State Fault Refusal :=
  .next (let x := s.parts[p]
    if !(s.live && x.assigned && x.enable && x.fmChannel && x.fmtx.usable && portPosts s x.port && decide (0 < x.fmtx.held) &&
        entry.length == 576) then s
    else
      let s1 := updPart s p (fun x => { x with fmtx := { x.fmtx with consumed := x.fmtx.consumed + 1 } })
      if fmEntryOk entry then sendPacket s1 (fmPacket s entry) else sysDrop s1)

end Sys2Proof.Machine
end

