-- ==== Sys2Proof/Machine/Boot.lean ====
section
/-! DEFINITION. Resets and boot (R444 to R462, R516): power good, MOD_RESET_N, the beats of the boot ROM, the image and beat 10. -/

namespace Sys2Proof.Machine

open Sys2Proof

/-! ### Resets -/

/-- The state that no reset of the device touches: what the pins carry, the module's EEPROM and PUF, host memory, what the sensors read,
and the model's own bookkeeping. Everything else starts afresh (R444, R445). -/
def afterReset (s : State) : State :=
  let p := s.power
  { State.reset with
    pins := { s.pins with thermTripN := true, faultN := true },
    silicon := s.silicon,
    power := { Power.reset with powerW := p.powerW, inputMv := p.inputMv, tjMax := p.tjMax, hot := p.hot },
    ports := s.ports.map (fun x => { PciePort.reset with host := x.host }),
    mgmt := { s.mgmt with busy := none },
    nextUid := s.nextUid, fresh := s.fresh, pending := s.pending }

/-- A cold reset: the blotter and the time base go too (R444). -/
def coldReset (s : State) : State := { afterReset s with pins := { (afterReset s).pins with pwrGood := false } }

/-- What a warm reset keeps (R445, R488): the time base, the blotter with its lock and its setting, BOOT_COUNT raised by 1, and the
total of records lost while frozen. -/
def warmKept (s : State) : State :=
  { afterReset s with
    timeBase := s.timeBase,
    blotter := { s.blotter with corrected := [], reported := [] },
    telemetry := s.telemetry.filter (fun e => e.1 == (0x53, 0)),
    boot := { Boot.reset with bootCount := s.boot.bootCount + 1, beat := 1 } }

/-! ### Beats 2 to 6 -/

/-- A boot failure (R449, R452, R511): BOOT_ERROR, one record, the stage, and FAULT_N while HALTED. -/
def bootFail (s : State) (code detail : Nat) (st : Stage) : State :=
  let b := { s.boot with errCode := BitVec.ofNat 8 code, errDetail := BitVec.ofNat 16 detail, stage := st }
  note { s with boot := b, pins := { s.pins with faultN := st != Stage.halted } } 0x2 (unitCpb 0) 0 (bootErrorWord b) 0 0

/-- A beat ended. -/
def beatEnds (s : State) (n : Nat) : State := { s with boot := { s.boot with beat := n } }

/-- The identity public key (R454). -/
def identityKey (seed : Bytes) : Bytes := (Config.mldsaPublic seed).toList

/-- Check 1 and check 2 of R457 on the record's signature block. -/
def recordKeyOk (r : Bytes) : Bool := sha3_512 (slice r (u32 r 8 + 8) 2592) == Config.recordKeyHash.toList

def recordSignatureOk (r : Bytes) : Bool :=
  let o := u32 r 8
  u16 r o == 1 && zeroRange r (o + 2) 6 && zeroRange r (o + 7227) 5 &&
    Config.mldsaVerify (slice r (o + 8) 2592) (sha3_512 (r.take o)) (slice r (o + 2600) 4627)

/-- Whether the EEPROM holds the whole record. -/
def recordWhole (r : Bytes) : Bool := decide (u32 r 8 + 7232 ≤ r.length)

/-- PD_CFGn of a domain from the policy defaults (R434, R458). -/
def loadCfg (p : Bytes) (n : Nat) (x : PowerDomain) : PowerDomain :=
  if n = 0 then x
  else
    let v := policyCfg p n
    { x with request := BitVec.ofNat 2 v, method := BitVec.ofNat 1 (v / 4), idleDepth := BitVec.ofNat 2 (v / 16),
             margin := BitVec.ofNat 8 (v / 2 ^ 16) }

/-- The policy defaults and supply setpoints loaded at beat 5 (R434, R435, R448). -/
def loadPolicy (s : State) (r : Bytes) : State :=
  let p := recordPolicy r
  { s with power := { s.power with
      domains := Vector.ofFn (fun n => loadCfg p n.val s.power.domains[n]),
      quads := Vector.ofFn (fun q => { s.power.quads[q] with thresholdMv := u8 p (8 + q.val), setpointMv := u16 r (0x38 + 2 * q.val) }),
      capW := u32 p 4 } }

/-- Beat 6: the repair map; then each port whose PERST# is deasserted begins link training (R448, R459). -/
def beat6 (s : State) (r : Bytes) : State :=
  if !repairOk r then bootFail s 0x07 0 .halted
  else { beatEnds s 6 with ports := Vector.ofFn (fun p => { s.ports[p] with training := s.pins.perstN[p] }) }

/-- Beat 5: the whole record (R456 to R458). SERIAL and IDENTITY_HASH are set. -/
def beat5 (s : State) (r seed : Bytes) : State :=
  let hash := sha3_512 (identityKey seed)
  if !recordWhole r then bootFail s 0x01 0 .halted
  else if !recordPolicyOk r then bootFail s 0x02 0 .halted
  else if !recordKeyOk r then bootFail s 0x03 0 .halted
  else if !recordSignatureOk r then bootFail s 0x04 0 .halted
  else
    let s1 := { s with boot := { s.boot with recordOk := true, serial := slice r 0x10 16, identityHash := hash } }
    if hash != slice r 0x40 64 then bootFail s1 0x06 0 .halted
    else beat6 (beatEnds (loadPolicy s1 r) 5) r

/-- Beats 3 and 4: the record's header, the PUF and the identity key (R448, R454). -/
def beat3 (s : State) : State :=
  match s.silicon.eeprom with
  | none => bootFail s 0x01 0 .halted
  | some r =>
    if r.length < 256 then bootFail s 0x01 0 .halted
    else if !recordHeaderOk r then bootFail s 0x02 0 .halted
    else
      match s.silicon.pufSeed with
      | none => bootFail s 0x05 0 .halted
      | some seed => beat5 (beatEnds { s with boot := { s.boot with seed := some seed } } 4) r seed

/-- Beat 2 and what follows it: boot waits at its start while MOD_RESET_N is asserted (R516); else the ROM starts, SLOT_ID is sampled and
one record marks the boot (R448, R487, R511). -/
def bootFromBeat2 (s : State) : State :=
  if !s.pins.modResetN then { s with boot := { s.boot with held := true } }
  else
    let s1 := beatEnds { s with boot := { s.boot with held := false, slotId := s.pins.slotStrap } } 2
    beat3 (note s1 0x1 (unitCpb 0) 0 s.boot.bootCount.toNat Config.romVersion.toNat 0)

/-- A warm reset with its record: 0 MOD_RESET_N, 1 RESET_DEVICE, 2 the exit from a trip (R444, R487). -/
def warmReset (s : State) (why : Nat) : State := bootFromBeat2 (warmKept (note s 0x4 (unitCpb 3) 0 why 0 0))

/-- A request for a warm reset: held during a thermal trip while any sensor reads 95 °C or more (R438, R446). -/
def askReset (s : State) (why : Nat) : State :=
  if s.power.tripped && s.power.hot then { s with power := { s.power with resetHeld := true } }
  else warmReset s (if s.power.tripped then 2 else why)

/-! ### POWER_GOOD, POWER_GOOD_LOST, MOD_RESET_N -/

/-- POWER_GOOD (R448, R515, R516): PWR_GOOD is released and boot begins at beat 1 with the time base at 0; the operands are what the
EEPROM and the PUF give. -/
def execPowerGood (eeprom seed : Option Bytes) (s : State) : Host.Outcome State Fault Refusal :=
  .next (if s.pins.pwrGood then s
    else
      let s1 := coldReset { s with silicon := { eeprom := eeprom, pufSeed := seed } }
      bootFromBeat2 (beatEnds { s1 with pins := { s1.pins with pwrGood := true } } 1))

/-- POWER_GOOD_LOST (R444, R446, R515, R517): a cold reset. -/
def execPowerGoodLost (s : State) : Host.Outcome State Fault Refusal := .next (if s.pins.pwrGood then coldReset s else s)

/-- MOD_RESET_N asserted (R444, R446, R511, R517): a warm reset, or no effect until power good. -/
def execModResetN (s : State) : Host.Outcome State Fault Refusal :=
  .next (if !s.pins.modResetN then s
    else
      let s1 := { s with pins := { s.pins with modResetN := false } }
      if s.pins.pwrGood then askReset s1 0 else s1)

/-- MOD_RESET_N deasserted (R448, R516): a boot that waits at the start of its beat 2 goes on. -/
def execModResetNRelease (s : State) : Host.Outcome State Fault Refusal :=
  .next (if s.pins.modResetN then s
    else
      let s1 := { s with pins := { s.pins with modResetN := true } }
      if s.pins.pwrGood && s.boot.held then bootFromBeat2 s1 else s1)

/-! ### The image (R453, R460, R461) -/

/-- IMAGE_FETCH_DONE (R448, R449, R452, R453): the copy of IMAGE_LEN bytes, or IMAGE_DMA. -/
def execImageFetchDone (image : Option Bytes) (s : State) : Host.Outcome State Fault Refusal :=
  .next (if s.boot.stage != Stage.fetching then s
    else
      match image with
      | none => bootFail s 0x11 0 .waitImage
      | some b =>
        if b.length = s.boot.imageLen.toNat then { s with boot := { s.boot with stage := .verifying, image := some b, beat := 8 } }
        else bootFail s 0x11 0 .waitImage)

/-- Whether the fields of an image keep R460. -/
def imageFormOk (b : Bytes) : Bool :=
  u32 b 0 == 0x57465A53 && u16 b 4 == 1 && u16 b 6 == 0 && u32 b 8 == b.length && u32 b 0xC == 0x2000 && u32 b 0x1C == 0 &&
    zeroRange b 0x1C93 877

/-- The digest of an image, with IMAGE_DIGEST and bytes 0x0A80 to 0x1FFF taken as zero (R460). -/
def imageDigest (b : Bytes) : Bytes := sha3_512 (overlay (overlay b 0x20 (zeros 64)) 0xA80 (zeros 0x1580))

/-- The failure code of an image, in the order of R461; none when it is accepted. -/
def imageFlaw (b : Bytes) : Option Nat :=
  if !imageFormOk b then some 0x12
  else if sha3_512 (slice b 0x60 2592) != Config.imageKeyHash.toList then some 0x13
  else if imageDigest b != slice b 0x20 64 then some 0x14
  else if !Config.mldsaVerify (slice b 0x60 2592) (slice b 0x20 64) (slice b 0xA80 4627) then some 0x15
  else none

/-- IMAGE_VERIFY_DONE (R448, R449, R451, R461, R484, R487): FW_DIGEST, FW_VERSION and FW_SECURITY_EPOCH are set and beat 10 begins, with
the supervision of the scribe cores. -/
def execImageVerifyDone (s : State) : Host.Outcome State Fault Refusal :=
  .next (match s.boot.image with
    | none => s
    | some b =>
      if s.boot.stage != Stage.verifying then s
      else
        match imageFlaw b with
        | some code => bootFail { s with boot := { s.boot with image := none } } code 0 .waitImage
        | none =>
          let boot := { s.boot with stage := .starting, beat := 9, fwDigest := slice b 0x20 64, fwVersion := BitVec.ofNat 64 (u64 b 0x10),
                                    fwEpoch := BitVec.ofNat 32 (u32 b 0x18) }
          note { s with boot := boot, errors := { s.errors with supervised := true } } 0x3 (unitCpb 0) 0 (u64 b 0x10) (u32 b 0x18) 0)

/-! ### Beat 10 -/

/-- STAGE reads READY: HBM is zeroed and the fabric ports leave DOWN (R448, R280, R310). -/
def bootReady (s : State) : State :=
  let s1 := { s with boot := { s.boot with stage := .ready, beat := 10 }, mem := Memory.empty }
  offerUnowned (allFports.foldl startTraining s1) (List.range 40)

/-- BOOT_READY (R448, R449, R452). -/
def execBootReady (how : BootEnd) (s : State) : Host.Outcome State Fault Refusal :=
  .next (if s.boot.stage != Stage.starting || s.errors.fatal || s.power.tripped then s
    else
      match how with
      | .ready => bootReady s
      | .hbmTrain n => bootFail { s with errors := { s.errors with supervised := false } } 0x20 n.val .halted
      | .scribeStart c => bootFail { s with errors := { s.errors with supervised := false } } 0x21 c.val .halted
      | .firmwareInit c => bootFail { s with errors := { s.errors with supervised := false } } 0x22 c.toNat .halted)

end Sys2Proof.Machine
end

