-- ==== Sys2Proof/Machine/CkptImage.lean ====
section
/-! DEFINITION. The checkpoint image (R368): what it holds, how it is built from the state, and how it is checked and restored
(R373). -/

namespace Sys2Proof.Machine

open Sys2Proof

/-- Clusters of a folio's grids, by GRID_ID and then row by row. -/
def Folio.allClusters (f : Folio) : List Nat := (List.range f.tables.grids.length).flatMap f.gridClusters

/-- Where the parts of the image begin: the token block, the tensor data, and the end. -/
def ckptTokenAt (f : Folio) : Nat := roundUp (0x100 + 32 * f.carried.length) 64
def ckptDataAt (f : Folio) : Nat := roundUp (ckptTokenAt f + 256 * f.allClusters.length) 64

/-- The size of a carried tensor. -/
def carriedBytes (f : Folio) (i : Nat) : Nat := (f.tables.tensors[i]?.map (fun t => t.bytes)).getD 0

/-- Carried tensors with the offsets of their data, one after another. -/
def ckptTensors (f : Folio) : List (Nat × Nat) :=
  (f.carried.foldl (fun (acc : List (Nat × Nat) × Nat) i => (acc.1 ++ [(i, acc.2)], acc.2 + carriedBytes f i)) ([], ckptDataAt f)).1

/-- IMAGE_BYTES. -/
def ckptSize (f : Folio) : Nat := ckptDataAt f + (f.carried.map (carriedBytes f)).sum

/-- A tensor table entry. -/
def ckptEntry (f : Folio) (e : Nat × Nat) : Bytes :=
  le 4 e.1 ++ le 4 ((f.tables.tensors[e.1]?.map (fun t => t.tag)).getD 0) ++ le 8 e.2 ++ le 8 (carriedBytes f e.1) ++
    le 2 (ofSigned 16 (f.scaleOf e.1)) ++ zeros 6

/-- The token block. -/
def ckptTokens (s : State) (f : Folio) : Bytes :=
  f.allClusters.flatMap (fun c => (List.range 64).flatMap (fun n => le 4 (tallyGet s.tokens (c, n))))

/-- The header, with a CONTENT_DIGEST. -/
def ckptHeader (f : Folio) (stamp : Stamp) (step : Nat) (content : Bytes) : Bytes :=
  le 4 0x4B435A53 ++ le 2 1 ++ le 2 0 ++ le 8 (ckptSize f) ++ le 8 step ++ le 2 f.rank ++ le 1 f.box.1 ++ le 1 f.box.2.1 ++
    le 1 f.box.2.2 ++ zeros 3 ++ le 4 stamp.toNat ++ le 4 f.carried.length ++ le 4 (256 * f.allClusters.length) ++ zeros 4 ++
    f.digest ++ content ++ zeros 80

/-- The bytes of an image after its header, for the bytes of the carried tensors in order. -/
def ckptBody (s : State) (f : Folio) (data : Bytes) : Bytes :=
  let table := (ckptTensors f).flatMap (ckptEntry f)
  let tokens := ckptTokens s f
  table ++ zeros (ckptTokenAt f - 0x100 - table.length) ++ tokens ++ zeros (ckptDataAt f - ckptTokenAt f - tokens.length) ++ data

/-- The checkpoint image of a folio at its present job step number (R368). -/
def ckptImage (s : State) (f : Folio) : Bytes :=
  let data := f.carried.flatMap (fun i => s.mem.readBytes (f.tensorAt.getD i 0) (carriedBytes f i))
  let stamp := partStamp s f.part
  let body := ckptBody s f data
  ckptHeader f stamp f.jobStep (sha3_512 (ckptHeader f stamp f.jobStep (zeros 64) ++ body)) ++ body

/-- Whether an image's CONTENT_DIGEST is right. -/
def contentOk (img : Bytes) : Bool :=
  sha3_512 (overlay (img.take (u64 img 8)) 0x70 (zeros 64)) == slice img 0x70 64 && decide (u64 img 8 ≤ img.length)

/-- The reason for which an image is rejected, or none (R373). -/
def ckptReason (f : Folio) (step : Nat) (img : Bytes) : Option Nat :=
  if u32 img 0 ≠ 0x4B435A53 || u16 img 4 ≠ 1 || !contentOk img then some 0x70
  else if slice img 0x30 64 != f.digest then some 0x71
  else if u16 img 0x18 ≠ f.rank || u8 img 0x1A ≠ f.box.1 || u8 img 0x1B ≠ f.box.2.1 || u8 img 0x1C ≠ f.box.2.2 then some 0x72
  else if u64 img 0x10 ≠ step then some 0x73
  else none

/-- Entry k of an image's tensor table: tensor index, OFFSET, BYTES and SCALE_EXP. -/
def ckptRow (img : Bytes) (k : Nat) : Nat × Nat × Nat × Int :=
  let o := 0x100 + 32 * k
  (u32 img o, u64 img (o + 8), u64 img (o + 16), sN img (o + 0x18) 2)

/-- The tensors of a folio that a table does not list undefined (R373). -/
def undefineOthers (s : State) (f : Folio) (listed : List Nat) : State :=
  ((List.range f.tables.tensors.length).filter (fun i => !listed.contains i)).foldl (fun s i =>
    match f.tables.tensors[i]? with
    | none => s
    | some t => if t.inHbm || f.tensorAt.getD i 0 != 0 then undefineRange s (f.tensorAt.getD i 0) (f.tensorAt.getD i 0 + t.size) else s) s

/-- The latest applied step of every gather set to a job step number less 1; the list holds it plus one (R260). -/
def gathersAt (l : List (Nat × Nat)) (step : Nat) : List (Nat × Nat) := l.map (fun e => (e.1, step))

/-- A verified image restored (R373): carried tensors, scale exponents, token counters, the job step number and the gathers' latest
applied step; the other tensors are undefined. -/
def ckptRestore (s0 : State) (f : Folio) (img : Bytes) : State :=
  let rows := (List.range (u32 img 0x24)).map (ckptRow img)
  let s := undefineOthers s0 f (rows.map (fun r => r.1))
  let mem := rows.foldl (fun m r => m.store (f.tensorAt.getD r.1 0) (slice img r.2.1 r.2.2.1)) s.mem
  let tokens := f.allClusters.zipIdx.foldl (fun l c => (List.range 64).foldl (fun l n =>
    tallySet l (c.1, n) (u32 img (ckptTokenAt f + 256 * c.2 + 4 * n))) l) s.tokens
  let step := u64 img 0x10
  updFolio { s with mem := mem, tokens := tokens } f.handle (fun f =>
    { f with jobStep := step, scaleExp := (rows.filter (fun r => r.2.2.2 != 0)).map (fun r => (r.1, r.2.2.2)),
             applied := gathersAt f.applied step, gatherServed := [] })

end Sys2Proof.Machine
end

