-- ==== Sys2Proof/Machine/FolioChecks.lean ====
section
/-! DEFINITION. What finalization checks on the staging copy before it allocates anything (R63 steps 2 to 6): header and section
table (R30 to R35, R529, R530), digest (R36), signature (R37, R38), logical machine (R41, R42) and tensors (R44 to R46, R73, R78). -/

namespace Sys2Proof.Machine

open Sys2Proof

/-! ### Flaws and their order (R70) -/

/-- A fault that a check finds: reason, section index and entry index; `noneIdx` where none applies. -/
structure Flaw where
  reason : Nat
  sec : Nat
  entry : Nat
deriving DecidableEq, Repr

/-- The order of R70 within a step: flaws that name no section first, by reason; then by section, entry and reason. -/
def flawBefore (a b : Flaw) : Bool :=
  let sa := if a.sec = noneIdx then 0 else a.sec + 1
  let sb := if b.sec = noneIdx then 0 else b.sec + 1
  decide (sa < sb) || (sa == sb && (decide (a.entry < b.entry) || (a.entry == b.entry && decide (a.reason < b.reason))))

/-- The flaw that a step reports. -/
def firstFlaw (l : List Flaw) : Option Flaw :=
  l.foldl (fun best x =>
    match best with
    | none => some x
    | some b => if flawBefore x b then some x else some b) none

/-- A flaw when a condition holds. -/
def flawIf (bad : Bool) (reason sec entry : Nat) : List Flaw := if bad then [⟨reason, sec, entry⟩] else []

/-- What the checks read: the staging copy, its tables, the LENGTH of the descriptor and what step 1 sampled (R63). `box` and `coord`
are those the folio is checked against (R35). -/
structure LoadEnv where
  img : Bytes
  t : Tables
  length : Nat
  sample : LoadSample
  box : Nat × Nat × Nat
  coord : Nat × Nat × Nat
deriving DecidableEq, Repr

/-- The index of the first section of a type; `noneIdx` when there is none. -/
def secIdx (t : Tables) (ty : Nat) : Nat := ((t.sections.zipIdx.find? (fun e => e.1.ty == ty)).map (fun e => e.2)).getD noneIdx

/-! ### Step 2: layout -/

/-- The entry size of a section type; none for an unstructured one (R33). -/
def entrySize (ty : Nat) : Option Nat :=
  match ty with
  | 2 => some 64
  | 3 => some 64
  | 4 => some 8
  | 5 => some 32
  | 6 => some 64
  | 7 => some 128
  | 8 => some 64
  | 10 => some 32
  | 11 => some 32
  | 12 => some 16
  | _ => none

/-- Whether R33 lists a type. -/
def knownType (ty : Nat) : Bool := decide (1 ≤ ty && ty ≤ 14) || ty == 0xF0

/-- Whether a type may occur more than once (R33). -/
def repeats (ty : Nat) : Bool := ty == 9 || ty == 13

/-- Section types that a KIND requires (R33). -/
def requiredTypes (kind : Nat) : List Nat :=
  [1, 2, 3, 4] ++ (if kind = 2 then [11] else [5]) ++ (if kind ≤ 1 then [6] else []) ++ (if kind = 0 then [8] else [])

/-- Whether the section table can be read: its count, place and extent are good (R529). -/
def tableReadable (e : LoadEnv) : Bool :=
  decide (1 ≤ e.t.sectionCount) && decide (e.t.sectionCount ≤ 64) && e.t.tableOff % 64 == 0 &&
    decide (e.t.tableOff + 32 * e.t.sectionCount ≤ min e.t.totalBytes e.length)

/-- Flaws of the header (R30, R35, R529). -/
def headerFlaws (e : LoadEnv) : List Flaw :=
  let t := e.t
  flawIf (t.magic != 0x4F465A53) 1 noneIdx noneIdx ++
  flawIf (t.major != 1 || decide (2 < t.minor)) 2 noneIdx noneIdx ++
  flawIf (decide (1 < t.feature)) 3 noneIdx noneIdx ++
  flawIf (decide (4 < t.kind) || (decide (t.kind ≤ 2) && !(e.sample.coordOk && e.sample.hasBox))) 4 noneIdx noneIdx ++
  flawIf (tableReadable e && (bit t.flags 0 != t.sections.any (fun x => x.ty == 0xF0))) 4 noneIdx noneIdx ++
  flawIf (tableReadable e && (requiredTypes t.kind).any (fun ty => !t.sections.any (fun x => x.ty == ty))) 4 noneIdx noneIdx ++
  flawIf (decide (t.sectionCount < 1) || decide (64 < t.sectionCount) || decide (2 ^ 30 < t.totalBytes)) 5 noneIdx noneIdx ++
  flawIf (t.totalBytes != e.length || t.headerBytes != 128 || t.tableOff % 64 != 0 ||
    decide (t.totalBytes < t.tableOff + 32 * t.sectionCount)) 6 noneIdx noneIdx ++
  flawIf (decide (4 ≤ t.flags) || !t.headerRsvd) 8 noneIdx noneIdx

/-- Whether two ranges [lo, hi) overlap. -/
def rangesMeet (a b : Nat × Nat) : Bool := decide (max a.1 b.1 < min a.2 b.2)

/-- The range of a section. -/
def SectionEntry.range (x : SectionEntry) : Nat × Nat := (x.off, x.off + x.len)

/-- The LENGTH that a MACHINE section must have (R529). -/
def machineLen (img : Bytes) (x : SectionEntry) : Nat :=
  let m := sectionBytes img x
  16 + 16 * (u16 m 6 + u32 m 8)

/-- Flaws of a section's bounds and layout (R31, R32, R529). -/
def layoutFlaw (e : LoadEnv) (i : Nat) (x : SectionEntry) : Bool :=
  x.off % 64 != 0 || decide (e.t.totalBytes < x.off + x.len) || rangesMeet x.range (0, 128) ||
    rangesMeet x.range (e.t.tableOff, e.t.tableOff + 32 * e.t.sectionCount) ||
    (e.t.sections.take i).any (fun y => rangesMeet x.range y.range) ||
    (match entrySize x.ty with
      | some n => x.len != x.count * n
      | none => knownType x.ty && x.count != 0) ||
    (x.ty == 1 && x.len != machineLen e.img x) ||
    (x.ty == 0xF0 && (x.len != 7232 || e.t.sections.any (fun y => decide (x.off < y.off))))

/-- Flaws of one section (R31 to R34, R37, R529). -/
def sectionFlaws (e : LoadEnv) (i : Nat) (x : SectionEntry) : List Flaw :=
  let earlier := e.t.sections.take i
  flawIf (knownType x.ty && earlier.any (fun y => y.ty == x.ty && (!repeats x.ty || y.inst == x.inst))) 4 i noneIdx ++
  flawIf (layoutFlaw e i x) 6 i noneIdx ++
  flawIf (!knownType x.ty && !bit x.flags 0) 7 i noneIdx ++
  flawIf (decide (2 ≤ x.flags) || x.rsvd != 0 || (!repeats x.ty && x.inst != 0)) 8 i noneIdx ++
  flawIf (x.ty == 0xF0 && !(zeroRange (sectionBytes e.img x) 2 6 && zeroRange (sectionBytes e.img x) 0x1C3B 5)) 8 i noneIdx

/-- Whether every byte outside a list of ranges, sorted by start, is zero; `at_` is where the next gap may begin. -/
def gapsZero (img : Bytes) : List (Nat × Nat) → Nat → Bool
  | [], at_ => zeroRange img at_ (img.length - at_)
  | r :: t, at_ => (decide (r.1 ≤ at_) || zeroRange img at_ (r.1 - at_)) && gapsZero img t (max at_ r.2)

/-- Non-zero bytes that belong to no section (R32). -/
def gapFlaws (e : LoadEnv) : List Flaw :=
  let rs := (0, 128) :: (e.t.tableOff, e.t.tableOff + 32 * e.t.sectionCount) :: e.t.sections.map SectionEntry.range
  flawIf (!gapsZero e.img (sortBy (fun a b => decide (a.1 < b.1)) rs) 0) 6 noneIdx noneIdx

/-- Whether an index lies in a range given by its first index and its count. -/
def inRun (first count i : Nat) : Bool := decide (first ≤ i) && decide (i < first + count)

/-- Whether STROKES entry i breaks R530 by itself or against an earlier entry. -/
def strokeFlaw (t : Tables) (i : Nat) (x : StrokeEntry) : Bool :=
  x.index != i || decide (t.ops.length < x.opFirst + x.opCount) || decide (t.exchs.length < x.exchFirst + x.exchCount) ||
    (t.strokes.take i).any (fun y => rangesMeet (x.opFirst, x.opFirst + x.opCount) (y.opFirst, y.opFirst + y.opCount) ||
      rangesMeet (x.exchFirst, x.exchFirst + x.exchCount) (y.exchFirst, y.exchFirst + y.exchCount)) ||
    ((t.ops.drop x.opFirst).take x.opCount).any (fun o => o.stroke != x.index) ||
    (bit x.flags 1 != (i + 1 == t.strokes.length))

/-- Flaws of the STROKES section (R53, R530). -/
def strokesFlaws (t : Tables) : List Flaw :=
  let sec := secIdx t 5
  if sec = noneIdx then []
  else
    (t.strokes.zipIdx.flatMap (fun e =>
      flawIf (strokeFlaw t e.2 e.1) 6 sec e.2 ++ flawIf (decide (4 ≤ e.1.flags) || !e.1.rsvdZero) 8 sec e.2)) ++
    flawIf ((List.range t.ops.length).any (fun i => !t.strokes.any (fun x => inRun x.opFirst x.opCount i)) ||
      (t.kind != 2 && (List.range t.exchs.length).any (fun i => !t.strokes.any (fun x => inRun x.exchFirst x.exchCount i))))
      6 sec noneIdx

/-- Step 2 of finalization. -/
def step2Flaws (e : LoadEnv) : List Flaw :=
  headerFlaws e ++
    (if tableReadable e then
      e.t.sections.zipIdx.flatMap (fun x => sectionFlaws e x.2 x.1) ++ gapFlaws e ++ strokesFlaws e.t
    else [])

/-! ### Steps 3 and 4: digest and signature -/

/-- The SIGNATURE section. -/
def signatureOf (t : Tables) : Option SectionEntry := sectionOf t.sections 0xF0

/-- FOLIO_DIGEST of an image (R36). -/
def folioDigest (img : Bytes) (t : Tables) : Bytes :=
  let b := overlay img 0x30 (zeros 64)
  sha3_512 (match signatureOf t with
    | none => b
    | some x => overlay b x.off (zeros x.len))

/-- Step 3 of finalization. -/
def step3Flaws (e : LoadEnv) : List Flaw := flawIf (folioDigest e.img e.t != e.t.digest) 9 noneIdx noneIdx

/-- Step 4 of finalization: the DEBUG flag (R473), then the signature (R37, R38). The three checks of R38 are made in its order. -/
def step4Flaws (e : LoadEnv) : List Flaw :=
  if bit e.t.flags 1 && !e.sample.debugFolios then [⟨0x80, noneIdx, noneIdx⟩]
  else
    match signatureOf e.t with
    | none => flawIf e.sample.requireOwner 0x100 noneIdx noneIdx
    | some x =>
      let b := sectionBytes e.img x
      let key := slice b 8 2592
      if e.sample.requireOwner && sha3_512 key != e.sample.ownerHash then [⟨0x101, secIdx e.t 0xF0, noneIdx⟩]
      else
        flawIf (u16 b 0 != 1 || !Config.mldsaVerify key e.t.digest (slice b 0xA28 4627)) 0x102 (secIdx e.t 0xF0) noneIdx

/-! ### Step 5: the logical machine -/

/-- The bytes of the MACHINE section. -/
def machineBytes (e : LoadEnv) : Bytes :=
  match sectionOf e.t.sections 1 with
  | some x => sectionBytes e.img x
  | none => []

/-- Whether rule 1 of R42 admits a cut's kind on its dimension. -/
def cutPlaceOk (c : CutEntry) : Bool :=
  (c.kind == 0 && c.dim == 0) || ((c.kind == 1 || c.kind == 2) && c.dim == 1) || (c.kind == 3 && (c.dim == 1 || c.dim == 2))

/-- Whether cut j of a list keeps rules 2 to 4 of R42: the kind has not occurred on its dimension, its size is at least 2, and its
stride is the product of the sizes of the dimension's cuts with smaller strides. -/
def cutChainOk (cuts : List CutEntry) (j : Nat) (c : CutEntry) : Bool :=
  let same := cuts.filter (fun d => d.dim == c.dim)
  !((cuts.take j).any (fun d => d.dim == c.dim && d.kind == c.kind)) && decide (2 ≤ c.size) &&
    c.stride == shapeElems ((same.filter (fun d => decide (d.stride < c.stride))).map (fun d => d.size)) &&
    (same.filter (fun d => d.stride == c.stride)).length == 1

/-- Whether the sizes of a dimension's cuts multiply to its extent (rule 3). -/
def dimProductOk (cuts : List CutEntry) (box : Nat × Nat × Nat) (dim : Nat) : Bool :=
  shapeElems ((cuts.filter (fun d => d.dim == dim)).map (fun d => d.size)) == coordIn box dim

/-- Flaws of cut entries against R42. A product that does not match is charged to the dimension's first cut, or to the fixed part when
the dimension has none. -/
def cutFlaws (cuts : List CutEntry) (box : Nat × Nat × Nat) (sec : Nat) : List Flaw :=
  (cuts.zipIdx.flatMap (fun x =>
    flawIf (!cutChainOk cuts x.2 x.1) 0x11 sec x.2 ++ flawIf (!cutPlaceOk x.1) 0x12 sec x.2)) ++
  [0, 1, 2].flatMap (fun dim => flawIf (!dimProductOk cuts box dim) 0x11 sec
    ((cuts.zipIdx.find? (fun x => x.1.dim == dim)).map (fun x => x.2) |>.getD noneIdx))

/-- Whether a grid's shape, quadrant and live range are admitted (R42). -/
def gridOk (t : Tables) (i : Nat) (g : GridEntry) : Bool :=
  g.id == i && (decide (g.quad ≤ 3) || g.quad == 0xFF) && decide (1 ≤ g.width) && decide (g.width ≤ 50) && decide (1 ≤ g.height) &&
    decide (g.height ≤ 25) &&
    (t.kind == 2 || (decide (g.first < t.strokes.length) && decide (g.first + g.live ≤ t.strokes.length)))

/-- Step 5 of finalization. -/
def step5Flaws (e : LoadEnv) : List Flaw :=
  let t := e.t
  let m := machineBytes e
  let sec := secIdx t 1
  flawIf (t.box != e.box || decide (t.boxX < 1) || decide (8 < t.boxX) || decide (t.boxY < 1) || decide (8 < t.boxY) ||
    decide (t.boxZ < 1) || decide (8 < t.boxZ)) 0x10 sec noneIdx ++
  flawIf (decide (6 < u16 m 6) || decide (u32 m 8 < 1) || decide (4096 < u32 m 8)) 5 sec noneIdx ++
  flawIf (!zeroRange m 12 4) 8 sec noneIdx ++
  cutFlaws t.cuts e.box sec ++
  ((List.range t.cuts.length).flatMap (fun j => flawIf (!zeroRange m (16 + 16 * j + 6) 10) 8 sec j)) ++
  (t.grids.zipIdx.flatMap (fun x =>
    flawIf (decide (2 ≤ x.1.flags)) 8 sec (t.cuts.length + x.2) ++ flawIf (!gridOk t x.2 x.1) 0x13 sec (t.cuts.length + x.2)))

/-! ### Step 6: tensor descriptors -/

/-- Whether SCALE_MODE is one that the format admits: 2 for MX formats and for no other (R44, R78). -/
def scaleModeOk (x : TensorEntry) : Bool :=
  decide (x.scaleMode ≤ 3) && (x.format.isMx == (x.scaleMode == 2))

/-- Whether the innermost extent packs whole (R73, R78). -/
def innermostOk (x : TensorEntry) : Bool :=
  (!(x.format.bits == 4) || x.extent 0 % 2 == 0) && (!x.format.isMx || x.extent 0 % 32 == 0)

/-- Whether INIT names an instance that holds the share from INIT_OFFSET on (R44). -/
def initOk (t : Tables) (x : TensorEntry) : Bool :=
  x.init == noneIdx || t.init.any (fun d => d.1 == x.init && decide (x.initOff + x.bytes ≤ d.2.length))

/-- Whether a tensor descriptor is consistent (R44, R46, R70). -/
def tensorConsistent (t : Tables) (i : Nat) (x : TensorEntry) : Bool :=
  decide (1 ≤ x.dims) && decide (x.dims ≤ 6) && x.shape.all (fun n => n != 0) && (x.shape.drop x.dims).all (fun n => n == 1) &&
    decide (x.placement ≤ 3) && (x.shardCut == 0xFF || (decide (x.shardCut < t.cuts.length) && decide (x.shardAxis < x.dims))) &&
    x.bytes == x.size && innermostOk x && initOk t x && !(t.tensors.take i).any (fun y => y.tag == x.tag)

/-- Whether a fixed scale is a positive finite FP32 value (R88). -/
def fixedScaleOk (w : Nat) : Bool := decide (0 < w) && decide (w < 0x7F800000)

/-- Flaws of one tensor descriptor (R44 to R46, R73, R78, R88, R111). -/
def tensorFlaws (t : Tables) (sec i : Nat) (x : TensorEntry) : List Flaw :=
  flawIf (decide (2 ^ 9 ≤ x.role) || x.rsvd != 0) 8 sec i ++
  flawIf ((fmtOf x.fmt).isNone || !scaleModeOk x) 0x20 sec i ++
  flawIf ((fmtOf x.fmt).isSome && !tensorConsistent t i x) 0x21 sec i ++
  flawIf (x.hasRole 1 && x.format != .fp32) 0x31 sec i ++
  flawIf (x.scaleMode == 3 && !fixedScaleOk x.scale) 0x33 sec i ++
  flawIf (decide (4096 ≤ x.layer) && x.layer != 0xFFFF) 0x34 sec i

/-- The descriptor checks of step 6. -/
def step6Flaws (t : Tables) : List Flaw := t.tensors.zipIdx.flatMap (fun x => tensorFlaws t (secIdx t 2) x.2 x.1)

end Sys2Proof.Machine
end

