-- ==== Sys2Proof/Machine/Placement.lean ====
section
/-! DEFINITION. Where a folio lies on the device: its grids (R43, R61), the tensors its grids use and when they are live (R366, R524),
and the carve-out and SRAM it takes (R47, R275, R524). -/

namespace Sys2Proof.Machine

open Sys2Proof

/-! ### Grids (R43, R61) -/

/-- A grid that has its place. -/
structure PlacedGrid where
  grid : Nat
  quad : Nat
  row : Nat
  col : Nat
  width : Nat
  height : Nat
  live : Nat × Nat
deriving DecidableEq, Repr

/-- The strokes [lo, hi) in which a grid is live; without a STROKES table a grid is always live. -/
def gridLive (t : Tables) (g : GridEntry) : Nat × Nat :=
  if t.strokes.isEmpty then (0, 2 ^ 32) else (g.first, if g.live = 0 then max t.strokes.length (g.first + 1) else g.first + g.live)

/-- Whether a grid fits with its top-left cluster at a position, beside the grids already placed. -/
def gridFits (placed : List PlacedGrid) (t : Tables) (g : GridEntry) (q row col : Nat) : Bool :=
  decide (row + g.height ≤ 25) && decide (col + g.width ≤ 50) &&
    placed.all (fun p => !(p.quad == q && rangesMeet p.live (gridLive t g) && rangesMeet (p.row, p.row + p.height) (row, row + g.height) &&
      rangesMeet (p.col, p.col + p.width) (col, col + g.width)))

/-- The quadrants a grid may take. -/
def gridQuads (g : GridEntry) : List Nat := if g.quad ≤ 3 then [g.quad] else [0, 1, 2, 3]

/-- The first position at which a grid fits, by quadrant, row and column. -/
def firstFit (placed : List PlacedGrid) (t : Tables) (g : GridEntry) (quads : List Nat) : Option (Nat × Nat × Nat) :=
  quads.findSome? (fun q => (List.range (26 - g.height)).findSome? (fun r => (List.range (51 - g.width)).findSome? (fun c =>
    if gridFits placed t g q r c then some (q, r, c) else none)))

/-- The first position in one quadrant, when the grid's QUADRANT admits it. -/
def fitInQuad (placed : List PlacedGrid) (t : Tables) (g : GridEntry) (q : Nat) : Option (Nat × Nat × Nat) :=
  if (gridQuads g).contains q then firstFit placed t g [q] else none

/-- Where a hint places its grid, when it can be honoured (R61). -/
def hintPlace (placed : List PlacedGrid) (t : Tables) (g : GridEntry) (h : HintEntry) : Option (Nat × Nat × Nat) :=
  match h.kind with
  | 1 => (gridQuads g).findSome? (fun q => if gridFits placed t g q h.row h.col then some (q, h.row, h.col) else none)
  | 2 => if h.value ≤ 7 then fitInQuad placed t g (h.value / 2) else none
  | 3 =>
    match placed.find? (fun p => p.grid == h.value) with
    | some p => fitInQuad placed t g p.quad
    | none => none
  | _ => none

/-- The place of one grid after those before it: by its first hint that can be honoured, or the first position that fits. -/
def placeGrid (placed : List PlacedGrid) (t : Tables) (i : Nat) (g : GridEntry) : Option (Nat × Nat × Nat) × Bool :=
  match (t.hints.filter (fun h => h.grid == i)).findSome? (hintPlace placed t g) with
  | some x => (some x, true)
  | none => (firstFit placed t g (gridQuads g), false)

/-- What placement gives: the place of each grid, the grids that found none, and how many hints were honoured. -/
structure GridPlan where
  at_ : List (Nat × Nat × Nat)
  placed : List PlacedGrid
  unplaced : List Nat
  honoured : Nat
deriving DecidableEq, Repr

/-- Every grid placed in GRID_ID order (R43). A grid without a place stands in its first admissible quadrant, for the checks only. -/
def placeGrids (t : Tables) : GridPlan :=
  t.grids.zipIdx.foldl (fun acc e =>
    let r := placeGrid acc.placed t e.2 e.1
    match r.1 with
    | some x =>
      { at_ := acc.at_ ++ [x],
        placed := acc.placed ++ [⟨e.2, x.1, x.2.1, x.2.2, e.1.width, e.1.height, gridLive t e.1⟩],
        unplaced := acc.unplaced, honoured := acc.honoured + (if r.2 then 1 else 0) }
    | none => { acc with at_ := acc.at_ ++ [((gridQuads e.1).headD 0, 0, 0)], unplaced := acc.unplaced ++ [e.2] })
    { at_ := [], placed := [], unplaced := [], honoured := 0 }

/-- The flaws of step 8. -/
def step8Flaws (t : Tables) (p : GridPlan) : List Flaw :=
  (t.hints.zipIdx.flatMap (fun h => flawIf (!h.1.zero) 8 (secIdx t 12) h.2)) ++
    p.unplaced.map (fun g => ⟨0x40, secIdx t 1, t.cuts.length + g⟩)

/-- Hints that are ignored (R61). -/
def ignoredHints (t : Tables) (p : GridPlan) : Nat := t.hints.length - p.honoured

/-! ### Who uses a tensor, and when (R366, R524) -/

/-- The strokes of one step; a KIND 2 folio has those of its operations. -/
def stepStrokes (t : Tables) : Nat :=
  if t.strokes.isEmpty then (t.ops.map (fun o => o.stroke + 1)).foldl max 1 else t.strokes.length

/-- The program that a ROAM_START names. -/
def startedProgram (t : Tables) (o : OpEntry) : Option RoamProgram :=
  if o.opcode = 0x0601 then t.programOf o else none

/-- Tensor indices that an operation names, those it reads and those it writes. -/
def OpEntry.names (o : OpEntry) : List Nat := (o.inputs ++ o.outputs).filter (fun i => i != noneIdx)
def OpEntry.reads (o : OpEntry) : List Nat :=
  (o.inputs ++ (if bit o.flags 0 then o.outputs else [])).filter (fun i => i != noneIdx)
/-- UPDATE also writes its state inputs, and LOWRANK_FACTOR's error-feedback output is its input (R241, R255). -/
def OpEntry.writes (o : OpEntry) : List Nat :=
  (o.outputs ++ (if o.opcode = 0x0403 then o.inputs.drop 2 else [])).filter (fun i => i != noneIdx)

/-- Strokes [lo, hi] of the uses of a tensor on a grid: operations, exchanges into the grid, and programs started on it, which may run
to the end of the step (R524). -/
def tensorUses (t : Tables) (g i : Nat) : List (Nat × Nat) :=
  (t.ops.filter (fun o => o.grid == g && o.names.contains i)).map (fun o => (o.stroke, o.stroke)) ++
  (t.exchs.zipIdx.filter (fun e => e.1.dstGrid == g && e.1.dst == i)).map (fun e => (t.issueStroke e.2, e.1.close)) ++
  (t.ops.filter (fun o => o.grid == g &&
    (match startedProgram t o with
      | some p => (programTensors p).contains i
      | none => false))).map (fun o => (o.stroke, stepStrokes t - 1))

/-- Whether a roaming program names a tensor. -/
def roamUses (t : Tables) (i : Nat) : Bool := t.roaming.any (fun p => (programTensors p).contains i)

/-- Whether something writes a tensor in the step before an operation at (stroke, grid, order) reads it. -/
def writtenBefore (t : Tables) (i stroke : Nat) (sameGrid : Option (Nat × Nat)) : Bool :=
  t.ops.any (fun w => w.writes.contains i && (decide (w.stroke < stroke) ||
    (match sameGrid with
      | some (g, order) => w.stroke == stroke && w.grid == g && decide (w.order < order)
      | none => false))) ||
  t.exchs.any (fun e => e.dst == i && decide (e.close < stroke))

/-- Tensors that an exchange reads at this device: its source, and the error-feedback buffer of its bucket (R239). -/
def exchReads (t : Tables) (e : ExchEntry) : List Nat :=
  (e.src :: (if e.kind = 3 then (match t.bucket? e.ref with | some b => [b.ef] | none => []) else []) ++
    (if bit e.flags 0 then [e.dst] else [])).filter (fun i => i != noneIdx)

/-- Whether a tensor may be read in a step before the step writes it (R366). -/
def readFirst (t : Tables) (i : Nat) : Bool :=
  t.ops.any (fun o => o.reads.contains i && !writtenBefore t i o.stroke (some (o.grid, o.order))) ||
  t.exchs.zipIdx.any (fun e => (exchReads t e.1).contains i && !writtenBefore t i (t.issueStroke e.2) none) ||
  t.ops.any (fun o =>
    (match startedProgram t o with
      | some p => (programTensors p).contains i
      | none => false) && !writtenBefore t i o.stroke none)

/-- Whether a tensor is carried (R366). -/
def isCarried (t : Tables) (i : Nat) (x : TensorEntry) : Bool :=
  x.hasRole 0 || x.hasRole 1 || x.hasRole 3 || x.hasRole 8 || readFirst t i

/-- The carried set, in ascending index. -/
def carriedSet (t : Tables) : List Nat := (t.tensors.zipIdx.filter (fun x => isCarried t x.2 x.1)).map (fun x => x.2)

/-- Whether a tensor is live on a grid in a stroke (R524). -/
def tensorLive (t : Tables) (carried : List Nat) (g i : Nat) (x : TensorEntry) (stroke : Nat) : Bool :=
  let u := tensorUses t g i
  !u.isEmpty && (carried.contains i || x.hasRole 5 ||
    (decide ((u.map (fun r => r.1)).foldl min stroke < stroke || u.any (fun r => r.1 == stroke)) &&
      decide (stroke ≤ (u.map (fun r => r.2)).foldl max 0)))

/-! ### SRAM (R47, R524) -/

/-- Whether an interval covers a rank (R179). -/
def intervalCovers (e : IntervalEntry) (rank : Nat) : Bool :=
  (List.range e.rankCount).any (fun i => e.rankFirst + i * e.rankStride == rank)

/-- Cluster SRAM lent by a grid in a stroke at this device (R150). -/
def lentIn (t : Tables) (rank g stroke : Nat) : Nat :=
  ((t.intervals.filter (fun e => e.grid == g && decide (e.first ≤ stroke) && decide (stroke ≤ e.last) && intervalCovers e rank)).map
    (fun e => e.sram)).foldl max 0

/-- Bytes of the tensors live on a grid in a stroke that a test accepts. -/
def liveBytes (t : Tables) (carried : List Nat) (g stroke : Nat) (test : Nat → TensorEntry → Bool) : Nat :=
  ((t.tensors.zipIdx.filter (fun x => test x.2 x.1 && tensorLive t carried g x.2 x.1 stroke)).map (fun x => roundUp x.1.bytes 64)).sum

/-- Whether the SRAM of a grid holds what is live in a stroke: cluster SRAM less what is lent, the cores' scheduled areas less the
spill buffers, and their roaming areas (R115, R147, R524). -/
def sramFits (e : LoadEnv) (carried : List Nat) (g : Nat) (x : GridEntry) (stroke : Nat) : Bool :=
  let t := e.t
  let clusters := x.width * x.height
  decide (liveBytes t carried g stroke (fun _ y => y.placement == 2) ≤ clusters * (clusterBytes - lentIn t (rankOf e.box e.coord) g stroke)) &&
  decide (liveBytes t carried g stroke (fun i y => y.placement == 3 && !roamUses t i) ≤
    clusters * 16 * (40960 - Config.spillBytes e.img g stroke % 8193)) &&
  decide (liveBytes t carried g stroke (fun i y => y.placement == 3 && roamUses t i) ≤ clusters * 16 * 8192)

/-- Whether every grid's SRAM holds what it must in every stroke. -/
def sramHolds (e : LoadEnv) (carried : List Nat) : Bool :=
  let sram := e.t.tensors.any (fun x => decide (2 ≤ x.placement))
  !sram || e.t.grids.zipIdx.all (fun g => (List.range (stepStrokes e.t)).all (fun k => sramFits e carried g.2 g.1 k))

/-! ### The carve-out (R275, R276, R524) -/

/-- Regions of a partition's carve-out with a mode, ascending. -/
def carveRegions (s : State) (p : Part) (stackLocal : Bool) : List Nat :=
  (List.range 72).filter (fun g =>
    let r := regionOf s (g * regionBytes)
    r.assigned && r.part == p && !r.zeroing && r.stackLocal == stackLocal)

/-- Ranges with adjoining ones joined; the list is sorted. -/
def joinRanges : List (Nat × Nat) → List (Nat × Nat)
  | [] => []
  | r :: t =>
    match joinRanges t with
    | [] => [r]
    | x :: u => if r.2 = x.1 then (r.1, x.2) :: u else r :: x :: u

/-- Ranges less used ranges. -/
def lessRanges (l used : List (Nat × Nat)) : List (Nat × Nat) :=
  used.foldl (fun l u => l.flatMap (fun r =>
    (if r.1 < min u.1 r.2 then [(r.1, min u.1 r.2)] else []) ++ (if max u.2 r.1 < r.2 then [(max u.2 r.1, r.2)] else []))) l

/-- Bytes of ranges. -/
def rangeBytes (l : List (Nat × Nat)) : Nat := (l.map (fun r => r.2 - r.1)).sum

/-- HBM ranges that the loaded folios hold. -/
def heldRanges (s : State) : List (Nat × Nat) := s.folios.flatMap (fun f => f.hbm)

/-- Bytes of the slots that a folio's streams reserve in its carve-out (R378). -/
def slotBytes (f : Folio) (l : List PairStream) : Nat :=
  ((l.filter (fun y => y.sender == f.handle)).map (fun y =>
    match f.tables.exchs[y.sendExch]? with
    | none => 0
    | some e => match f.tables.tensors[e.src]? with | some t => 2 * roundUp t.size 64 | none => 0)).sum

/-- Bytes of the slots that pairings hold in a partition's carve-out. -/
def slotsHeld (s : State) (p : Part) : Nat :=
  ((s.folios.filter (fun f => f.part == p)).map (fun f => slotBytes f (s.pairings.flatMap (fun x => x.streams)))).sum

/-- Bytes of the carve-out that the partition's loaded folios hold, snapshot areas and buddy stores included, and the staging copies of
its loads (R524, R370). -/
def carveUsed (s : State) (p : Part) : Nat :=
  ((s.folios.filter (fun f => f.part == p)).map (fun f => rangeBytes f.hbm + f.ckptBytes)).sum + slotsHeld s p +
  (s.longs.map (fun o =>
    match o.body with
    | .load l => if o.part == p && !o.state.isOver then (match l.staged with | some b => roundUp b.length 64 | none => 0) else 0
    | _ => 0)).sum

/-- Bytes of a partition's carve-out. -/
def carveBytes (s : State) (p : Part) : Nat :=
  ((carveRegions s p false).length + (carveRegions s p true).length) * regionBytes

/-- Ranges of INTERLEAVED regions, and of one stack of STACK_LOCAL regions (R274). -/
def interleavedRanges (s : State) (p : Part) : List (Nat × Nat) :=
  joinRanges ((carveRegions s p false).map (fun g => (g * regionBytes, (g + 1) * regionBytes)))
def stackRanges (s : State) (p : Part) (stack : Nat) : List (Nat × Nat) :=
  (carveRegions s p true).map (fun g => (g * regionBytes + stack * 2 ^ 30, g * regionBytes + (stack + 1) * 2 ^ 30))

/-- The quadrant of a PLACEMENT 1 tensor: the lowest of the grids that use it (R275). -/
def tensorQuad (t : Tables) (pl : GridPlan) (i : Nat) : Nat :=
  (((List.range t.grids.length).filter (fun g => gridUses t g i)).map (fun g => (pl.at_.getD g (0, 0, 0)).1)).foldl min 3

/-- Bytes of the ledgers and send lists of every live batch (R195), and of the filler staging area: the outputs of the largest unit
(R181). -/
def ledgerBytes (t : Tables) : Nat :=
  (t.routing.map (fun r => r.maxLive * (16 * (r.tokens * r.k + t.cutSize r.cut) + 8 * t.cutSize r.cut))).sum
def unitOutputs (t : Tables) (u : FillerEntry) : List Nat :=
  (((t.ops.drop u.opFirst).take u.opCount).flatMap OpEntry.writes).dedup
def stagingBytes (t : Tables) : Nat :=
  (t.filler.map (fun u => ((unitOutputs t u).map (fun i => roundUp ((t.tensors[i]?.map (fun x => x.bytes)).getD 0) 64)).sum)).foldl max 0

/-- Bytes of the tensors that a test accepts, each from a line boundary. -/
def tensorBytes (t : Tables) (test : Nat → TensorEntry → Bool) : Nat :=
  ((t.tensors.zipIdx.filter (fun x => test x.2 x.1)).map (fun x => roundUp x.1.bytes 64)).sum

/-- Whether the carve-out holds what R524 counts, the staging copy of `staging` bytes included in what is used already. -/
def carveHolds (s : State) (p : Part) (t : Tables) (pl : GridPlan) : Bool :=
  let used := heldRanges s
  let inter := tensorBytes t (fun _ x => x.placement == 0)
  let stack := fun (q : Nat) => tensorBytes t (fun i x => x.placement == 1 && tensorQuad t pl i == q)
  decide (carveUsed s p + tensorBytes t (fun _ x => x.inHbm) + ledgerBytes t + stagingBytes t ≤ carveBytes s p) &&
  decide (inter ≤ rangeBytes (lessRanges (interleavedRanges s p) used)) &&
  [0, 1, 2, 3].all (fun q => decide (stack q ≤
    rangeBytes (lessRanges (stackRanges s p (2 * q) ++ stackRanges s p (2 * q + 1)) used)))

/-- The capacity flaws of step 6 (R47). -/
def capacityFlaws (s : State) (p : Part) (e : LoadEnv) (pl : GridPlan) (carried : List Nat) : List Flaw :=
  flawIf (!carveHolds s p e.t pl) 0x22 noneIdx noneIdx ++ flawIf (!sramHolds e carried) 0x23 noneIdx noneIdx

/-- The first 64-byte aligned place for n bytes in ranges. -/
def placeIn (free : List (Nat × Nat)) (n : Nat) : Option Nat :=
  free.findSome? (fun r => if roundUp r.1 64 + n ≤ r.2 then some (roundUp r.1 64) else none)

/-- Where the model keeps an HBM tensor whose capacity is there but not in one piece, and where it counts the ledgers and the staging
area (log entry 8). -/
def scatteredBase : Nat := 2 ^ 80
def ledgerBase : Nat := 2 ^ 96

/-- The first byte of one tensor, with the HBM ranges held so far. -/
def placeTensor (s : State) (p : Part) (t : Tables) (pl : GridPlan) (h : Handle) (held : List (Nat × Nat)) (sram i : Nat)
    (x : TensorEntry) : Nat :=
  let spot := fun (l : List (Nat × Nat)) => placeIn (lessRanges l held) x.bytes
  match x.placement with
  | 0 => (spot (interleavedRanges s p)).getD (scatteredBase + h.toNat * 2 ^ 48 * 2 ^ 16 + i * 2 ^ 48)
  | 1 =>
    let q := tensorQuad t pl i
    (spot (stackRanges s p (2 * q) ++ stackRanges s p (2 * q + 1))).getD (scatteredBase + h.toNat * 2 ^ 48 * 2 ^ 16 + i * 2 ^ 48)
  | _ => if (List.range t.grids.length).any (fun g => gridUses t g i) then sramBase + h.toNat * 2 ^ 41 + sram else 0

/-- Every tensor placed: first bytes, and the HBM ranges that the folio holds, its ledgers and staging area among them. -/
def placeTensors (s : State) (p : Part) (t : Tables) (pl : GridPlan) (h : Handle) : List Nat × List (Nat × Nat) :=
  let r := t.tensors.zipIdx.foldl (fun (acc : List Nat × List (Nat × Nat) × Nat) e =>
    let a := placeTensor s p t pl h (heldRanges s ++ acc.2.1) acc.2.2 e.2 e.1
    (acc.1 ++ [a], if e.1.inHbm then acc.2.1 ++ [(a, a + roundUp e.1.bytes 64)] else acc.2.1,
      if e.1.inHbm then acc.2.2 else acc.2.2 + roundUp e.1.bytes 64)) ([], [], 0)
  let extra := ledgerBytes t + stagingBytes t
  (r.1, if extra = 0 then r.2.1 else r.2.1 ++ [(ledgerBase + h.toNat * 2 ^ 48, ledgerBase + h.toNat * 2 ^ 48 + extra)])

end Sys2Proof.Machine
end

