-- ==== Sys2Proof/Machine/OpChecks.lean ====
section
/-! DEFINITION. What finalization checks of operations and attributes at step 7 (R48 to R52, R88, R89, R92, R102, R111, R112, R118,
R122, R123, R128, R135, R151, R152, R199, R238, R241, R255, R259, R361, R423, R523). -/

namespace Sys2Proof.Machine

open Sys2Proof

/-! ### The shape of operands -/

/-- The tensor an operand index names. -/
def Tables.tensor? (t : Tables) (i : Nat) : Option TensorEntry := if i = noneIdx then none else t.tensors[i]?
def Tables.opIn? (t : Tables) (o : OpEntry) (k : Nat) : Option TensorEntry := t.tensor? (o.inputs.getD k noneIdx)
def Tables.opOut? (t : Tables) (o : OpEntry) (k : Nat) : Option TensorEntry := t.tensor? (o.outputs.getD k noneIdx)

/-- The extents of a tensor, padded with 1 to six. -/
def TensorEntry.dims6 (x : TensorEntry) : List Nat := (List.range 6).map x.extent

/-- Whether each extent equals the other's or is 1 (R103, R523). -/
def broadcasts (x out : TensorEntry) : Bool := (x.dims6.zip out.dims6).all (fun e => e.1 == e.2 || e.1 == 1)

/-- Whether an optional operand is absent or passes a test. -/
def optional (x : Option TensorEntry) (test : TensorEntry → Bool) : Bool :=
  match x with
  | none => true
  | some y => test y

/-- Whether an operand is present and passes a test. -/
def present (x : Option TensorEntry) (test : TensorEntry → Bool) : Bool :=
  match x with
  | none => false
  | some y => test y

/-- The operands each opcode takes: inputs that must be named, inputs it may name, outputs that must be named, outputs it may name. -/
def operandCounts (t : Tables) (o : OpEntry) : Nat × Nat × Nat × Nat :=
  let fn := t.attr o 1 0
  match o.opcode with
  | 0x0101 => (2, 3, 1, 1)
  | 0x0102 => (2, 3, 1, 1)
  | 0x0110 => (1, 1, 1, 1)
  | 0x0111 => (1, 2, 1, 1)
  | 0x0201 => if fn = 4 || fn = 7 then (3, 3, 1, 1) else (2, 2, 1, 1)
  | 0x0202 => (1, 1, 1, 1)
  | 0x0203 => (1, 3, 1, 1)
  | 0x0204 => (1, 1, 1, 1)
  | 0x0205 => (2, 2, 1, 2)
  | 0x0206 => (1, 1, 1, 1)
  | 0x0207 => (1, 1, 2, 2)
  | 0x0403 => (2, 4, 2, 2)
  | 0x0501 => (1, 1, 1, 1)
  | 0x0502 => (1, 1, 1, 1)
  | 0x0503 => (2, 2, 1, 1)
  | 0x0504 => (2, 2, 1, 1)
  | 0x0404 => (1, 1, 1, 1)
  | 0x0505 => (1, 1, 1, 1)
  | 0x0506 => (1, 1, 0, 0)
  | 0x0507 => (0, 0, 1, 1)
  | 0x0601 => (0, 0, 0, 0)
  | 0x0602 => (0, 0, 0, 0)
  | 0x0701 => (0, 0, 0, 0)
  | _ => (0, 4, 0, 2)

/-- The opcodes of R50. -/
def knownOpcode (c : Nat) : Bool :=
  [0x0101, 0x0102, 0x0110, 0x0111, 0x0201, 0x0202, 0x0203, 0x0204, 0x0205, 0x0206, 0x0207, 0x0301, 0x0302, 0x0303, 0x0304, 0x0401,
    0x0402, 0x0403, 0x0404, 0x0501, 0x0502, 0x0503, 0x0504, 0x0505, 0x0506, 0x0507, 0x0601, 0x0602, 0x0701].contains c

/-- Whether operands that must be named are, and operands that an opcode does not take are not. NORM may name input2 without input1. -/
def countsOk (t : Tables) (o : OpEntry) : Bool :=
  let n := operandCounts t o
  (o.inputs.take n.1).all (fun i => i != noneIdx) && (o.inputs.drop n.2.1).all (fun i => i == noneIdx) &&
    (o.outputs.take n.2.2.1).all (fun i => i != noneIdx) && (o.outputs.drop n.2.2.2).all (fun i => i == noneIdx)

/-- Whether every named operand and the grid exist (R48). -/
def namesOk (t : Tables) (o : OpEntry) : Bool := o.names.all (fun i => decide (i < t.tensors.length)) && decide (o.grid < t.grids.length)

/-! ### Contractions (R102, R112, R118, R123, R135, R523) -/

/-- Whether the formats of a contraction's operands pair (R112). -/
def pairOk (a b : Fmt) : Bool :=
  let fl := fun (f : Fmt) => !f.isInt && f != .dfp32
  (fl a && fl b) || (a == b && (a == .int8 || a == .int4))

/-- The product of the descales that the tables fix; none when it depends on an amax (R87). -/
def fixedDin (a b : TensorEntry) : Option XVal :=
  if a.scaleMode = 1 || b.scaleMode = 1 then none else some (XVal.mul (descaleWith a 0) (descaleWith b 0))

/-- Whether batch extents equal the output's or are 1 (R523). -/
def batchOk (x out : TensorEntry) : Bool := (x.dims6.drop 2).zip (out.dims6.drop 2) |>.all (fun e => e.1 == e.2 || e.1 == 1)

/-- Whether a MATMUL's operands have the layouts of R523 and admitted formats. -/
def matmulOk (t : Tables) (o : OpEntry) : Bool :=
  match t.opIn? o 0, t.opIn? o 1, t.opOut? o 0 with
  | some a, some b, some y =>
    let tr := t.attr o 0xA 0
    let ta := bit tr 0
    let tb := bit tr 1
    pairOk a.format b.format && !(a.format.isMx && ta) && !(b.format.isMx && tb) &&
      a.extent (if ta then 1 else 0) == b.extent (if tb then 1 else 0) && a.extent (if ta then 0 else 1) == y.extent 1 &&
      b.extent (if tb then 0 else 1) == y.extent 0 && batchOk a y && batchOk b y && optional (t.opIn? o 2) (fun c => broadcasts c y) &&
      !(y.format == .dfp32 && bit o.flags 1) &&
      !(y.format == .dfp32 && bit o.flags 0 && fixedDin a b != some (.num 1))
  | _, _, _ => false

/-- Whether an EXPERT_MATMUL's slot operands belong to its ROUTING entry (R523): the slot as M with both of input0's and the output's
rows, or as K with both inputs transposed. -/
def expertOk (t : Tables) (o : OpEntry) : Bool :=
  match t.routing[t.routingOf o]?, t.opIn? o 0, t.opIn? o 1, t.opOut? o 0 with
  | some r, some a, some b, some y =>
    let cap := t.capacity r
    let el := t.expertsLocal r
    let tr := t.attr o 0xA 0
    a.extent 2 == el && b.extent 2 == el && y.extent 2 == el &&
      (if bits tr 1 0 = 3 then a.extent 1 == cap && b.extent 1 == cap
        else !bit tr 0 && a.extent 1 == cap && y.extent 1 == cap)
  | _, _, _, _ => false

/-- Whether ROUNDING, PRECISION and B40 are allowed (R51, R102, R112). -/
def modesOk (t : Tables) (o : OpEntry) : Bool :=
  let mat := o.opcode == 0x0101 || o.opcode == 0x0102
  let a := t.opIn? o 0
  let b := t.opIn? o 1
  let is := fun (x : Option TensorEntry) (f : Fmt) => present x (fun y => y.format == f)
  let splits := (is a .fp32 && (is b .fp32 || is b .bf16)) || (is b .fp32 && is a .bf16)
  decide (o.rounding ≤ 4) && (o.rounding != 4 || (o.opcode == 0x0403 && present (t.opOut? o 0) (fun y => y.hasRole 0))) &&
    decide (o.precision ≤ 2) && (o.precision == 0 || (mat && splits)) && !(mat && o.precision == 0 && (is a .fp32 || is b .fp32)) &&
    (!bit o.flags 1 || (mat && is a .bf16 && is b .bf16))

/-! ### Attributes (R49, R88, R92) -/

/-- Whether an operation's attribute run can be read: it begins in the section, ends at a KEY of 0, repeats no KEY and holds only the
keys of R49. -/
def runReadable (t : Tables) (o : OpEntry) : Bool :=
  o.attr == noneIdx || (decide (o.attr < t.attrs.length) && (t.attrs.drop o.attr).any (fun a => a.1 == 0) &&
    noRepeats ((t.attrRun o).map (fun a => a.1)) && (t.attrRun o).all (fun a => decide (a.1 ≤ 0xE)))

/-- Whether an attribute is present and its value passes a test. -/
def attrIs (t : Tables) (o : OpEntry) (key : Nat) (test : Nat → Bool) : Bool :=
  match t.attr? o key with
  | some v => test v
  | none => false

/-- Whether FUNCTION is present and in [1, n]. -/
def fnIn (t : Tables) (o : OpEntry) (n : Nat) : Bool := attrIs t o 1 (fun v => decide (1 ≤ v) && decide (v ≤ n))

/-- Whether AXIS is present and names a dimension of input0. -/
def axisOk (t : Tables) (o : OpEntry) : Bool := attrIs t o 2 (fun v => present (t.opIn? o 0) (fun x => decide (v < x.dims)))

/-- Whether BUCKET is present and names a bucket. -/
def bucketOk (t : Tables) (o : OpEntry) : Bool := attrIs t o 8 (fun v => (t.bucket? v).isSome)

/-- Whether ROUTING is present and names an entry. -/
def routingOk (t : Tables) (o : OpEntry) : Bool := attrIs t o 9 (fun v => decide (v < t.routing.length))

/-- Whether the attributes that an opcode needs are present and in range. -/
def attrsOk (t : Tables) (o : OpEntry) : Bool :=
  match o.opcode with
  | 0x0101 => decide (t.attr o 0xA 0 ≤ 3)
  | 0x0102 => decide (t.attr o 0xA 0 ≤ 3) && routingOk t o
  | 0x0201 => fnIn t o 7
  | 0x0202 => fnIn t o 7
  | 0x0203 => fnIn t o 2 && axisOk t o && (t.attr? o 3).isSome
  | 0x0204 => axisOk t o
  | 0x0205 => fnIn t o 2 && ((t.attr? o 2).isNone || axisOk t o)
  | 0x0206 => fnIn t o 3 && axisOk t o
  | 0x0207 => axisOk t o && attrIs t o 4 (fun v => decide (1 ≤ v) && decide (v ≤ 8))
  | 0x0301 => routingOk t o
  | 0x0302 => routingOk t o && fnIn t o 2
  | 0x0303 => routingOk t o
  | 0x0304 => routingOk t o
  | 0x0401 => bucketOk t o
  | 0x0402 => bucketOk t o && fnIn t o 3
  | 0x0403 => bucketOk t o && attrIs t o 0xB (fun v => decide (1 ≤ v) && decide (v ≤ 3))
  | 0x0404 => bucketOk t o
  | 0x0502 => axisOk t o
  | 0x0601 => attrIs t o 0xC (fun v => t.roaming.any (fun p => p.inst == v))
  | 0x0602 => (t.attr? o 1).isSome && attrIs t o 0xD (fun v => decide (v ≤ 63))
  | 0x0701 => attrIs t o 1 (fun v => decide (v ≤ 2))
  | _ => true

/-- Whether CLIP_LO and CLIP_HI are numbers in order (R88). -/
def clipsOk (t : Tables) (o : OpEntry) : Bool :=
  let lo := attrF t o 6 (.inf true)
  let hi := attrF t o 7 (.inf false)
  lo != .nan && hi != .nan && !XVal.lt hi lo

/-- Whether a tensor is the output of an AMAX that R52 lets an operation read (R92). -/
def amaxReadable (t : Tables) (o : OpEntry) (i : Nat) : Bool :=
  t.ops.any (fun w => w.opcode == 0x0110 && w.outputs.headD noneIdx == i && i != noneIdx &&
    (decide (w.stroke < o.stroke) || (w.stroke == o.stroke && w.grid == o.grid && decide (w.order < o.order))))

/-- Whether the per-tensor scale attributes are as R92 asks. -/
def scaleAttrsOk (t : Tables) (o : OpEntry) : Bool :=
  let src := t.attr? o 0xE
  let moves := [0x0501, 0x0502, 0x0503, 0x0504].contains o.opcode
  let scaled := o.outputs.any (fun i => present (t.tensor? i) (fun x => x.scaleMode == 1))
  if moves then src.isNone && (t.attr? o 5).isNone
  else
    (match src with
      | some i => amaxReadable t o i && (t.attr? o 5).isNone
      | none => !scaled || o.opcode == 0x0404 || o.opcode == 0x0505)

/-! ### The vector and movement operations (R91, R103, R110, R111, R126, R128, R151, R152, R361) -/

/-- A shape with the extent of one dimension replaced. -/
def withExtent (x : TensorEntry) (i v : Nat) : List Nat := x.dims6.set i v

/-- Whether the operands of COPY, TRANSPOSE, ROW_GATHER or ROW_SCATTER agree in format and scale (R151). -/
def movesOk (o : OpEntry) (a y : TensorEntry) : Bool :=
  (a.format == y.format || (o.opcode == 0x0504 && bit o.flags 0)) && (a.scaleMode != 1 || y.scaleMode == 1) &&
    (y.scaleMode != 3 || (a.scaleMode == 3 && a.scale == y.scale))

/-- Whether an index tensor is INT32 or UINT32 with n elements (R152). -/
def indexTensorOk (x : Option TensorEntry) (n : Nat) : Bool :=
  present x (fun i => (i.format == .int32 || i.format == .uint32) && i.elems == n)

/-- Rows of a tensor (R152). -/
def TensorEntry.rows (x : TensorEntry) : Nat := x.elems / max (x.extent 0) 1

/-- The mapping that a PERMUTE exchange names: the box and the cuts of an INITDATA instance in the layout of MACHINE (R361). -/
def mappingOf (t : Tables) (inst : Nat) : Option ((Nat × Nat × Nat) × List CutEntry) :=
  (t.init.find? (fun d => d.1 == inst)).map (fun d =>
    ((u16 d.2 0, u16 d.2 2, u16 d.2 4), (chunks 16 ((d.2.drop 16).take (16 * u16 d.2 6))).map readCut))

/-- The PERMUTE exchange of an operation: in the same stroke, with the same tensors (R361). -/
def permuteExch (t : Tables) (o : OpEntry) : Option ExchEntry :=
  (t.exchsOf o.stroke).findSome? (fun x =>
    match t.exchs[x]? with
    | some e => if e.kind = 6 && e.src == o.inputs.headD noneIdx && e.dst == o.outputs.headD noneIdx then some e else none
    | none => none)

/-- The logical shape of a tensor under a list of cuts (R359). -/
def logicalUnder (cuts : List CutEntry) (x : TensorEntry) : List Nat :=
  match (if x.shardCut = 0xFF then none else cuts[x.shardCut]?) with
  | none => x.dims6
  | some c => x.dims6.mapIdx (fun i n => if i = x.shardAxis then n * c.size else n)

/-- Whether the operands of a PERMUTE agree (R361). The target's logical shape counts when its mapping can be read. -/
def permuteOk (t : Tables) (o : OpEntry) (a y : TensorEntry) : Bool :=
  a.format == y.format && a.scaleMode == y.scaleMode && a.scaleMode != 1 && (a.scaleMode != 3 || a.scale == y.scale) &&
    (match permuteExch t o with
      | none => true
      | some e =>
        match mappingOf t e.ref with
        | none => true
        | some m => logicalUnder t.cuts a == logicalUnder m.2 y)

/-- Whether the operand formats and shapes of an operation are admitted, for the opcodes whose fault is 0x0031. -/
def shapesOk (t : Tables) (o : OpEntry) : Bool :=
  let fn := t.attr o 1 0
  let axis := t.attr o 2 0
  let ins := (List.range 4).filterMap (fun k => t.opIn? o k)
  match t.opIn? o 0, t.opOut? o 0 with
  | some a, some y =>
    match o.opcode with
    | 0x0101 => matmulOk t o
    | 0x0102 => matmulOk t o && expertOk t o
    | 0x0110 => y.format == .fp32 && y.elems == 1
    | 0x0111 => a.elems == y.elems && optional (t.opIn? o 1) (fun b => broadcasts b y)
    | 0x0201 => ins.all (fun x => broadcasts x y)
    | 0x0202 => broadcasts a y
    | 0x0203 => ins.all (fun x => broadcasts x y)
    | 0x0204 => broadcasts a y
    | 0x0205 => y.format == .fp32 && y.dims6 == withExtent a axis 1 &&
        optional (t.opOut? o 1) (fun g => g.format == .fp32 && g.dims6 == a.dims6) &&
        present (t.opIn? o 1) (fun b => if fn = 1 then b.format == .int32 && b.dims6 == y.dims6 else b.dims6 == a.dims6)
    | 0x0206 => y.dims6 == withExtent a axis 1
    | 0x0207 => y.dims6 == withExtent a axis (t.attr o 4 0) && present (t.opOut? o 1) (fun b => b.dims6 == y.dims6)
    | 0x0501 => movesOk o a y && a.elems == y.elems
    | 0x0502 => movesOk o a y && !a.format.isMx && y.dims6 == swapCoord a.dims6 axis &&
        (a.format.bits != 4 || (a.extent 0 % 2 == 0 && a.extent axis % 2 == 0))
    | 0x0503 => movesOk o a y && a.extent 0 == y.extent 0 && indexTensorOk (t.opIn? o 1) y.rows
    | 0x0504 => movesOk o a y && a.extent 0 == y.extent 0 && indexTensorOk (t.opIn? o 1) a.rows
    | 0x0505 => permuteOk t o a y
    | 0x0404 => a.scaleMode != 1 && y.scaleMode != 1 && (!(a.scaleMode == 3 || y.scaleMode == 3) || (a.scaleMode == y.scaleMode && a.scale == y.scale))
    | _ => true
  | some a, none => !(o.opcode == 0x0506) || a.hasRole 7
  | none, some y => !(o.opcode == 0x0507) || y.hasRole 6
  | none, none => true

/-! ### The engines' operations (R199, R238, R241, R255, R259) -/

/-- Whether a tensor is of a floating-point format other than double-FP32 (R237, R238). -/
def floatLeaf (x : TensorEntry) : Bool := !x.format.isInt && x.format != .dfp32

/-- The BUCKET exchanges of a bucket, by index, in stroke order (R232). -/
def reductionsOf (t : Tables) (tag : Nat) : List (Nat × ExchEntry) :=
  sortBy (fun a b => decide (t.issueStroke a.1 < t.issueStroke b.1))
    ((t.exchs.zipIdx.filter (fun e => e.1.kind == 3 && e.1.ref == tag)).map (fun e => (e.2, e.1)))

/-- S: the elements of an owned shard (R232). -/
def shardElems (t : Tables) (b : BucketEntry) : Nat := b.elements / max (t.bucketP b) 1

/-- C: the columns of the matrix view (R241). -/
def bucketCols (b : BucketEntry) : Nat := b.elements / max b.rows 1

/-- Whether an operation of a ROUTING entry has the operands of R199. -/
def ductusOperandsOk (t : Tables) (o : OpEntry) : Bool :=
  match t.routing[t.routingOf o]? with
  | none => true
  | some r =>
    let ins := o.inputs
    let is := fun (k i : Nat) => ins.getD k noneIdx == i
    let h := match t.tensor? r.tokensIn with | some x => x.extent 0 | none => 0
    let out := t.opOut? o 0
    let only := fun (n m : Nat) => (o.inputs.drop n).all (fun i => i == noneIdx) && (o.outputs.drop m).all (fun i => i == noneIdx)
    match o.opcode with
    | 0x0301 => o.grid == r.sourceGrid && is 0 r.logits && is 1 r.bias && only 2 1 &&
        optional out (fun y => y.format == .uint32 && y.dims6 == [r.experts, 1, 1, 1, 1, 1])
    | 0x0302 => o.grid == r.sourceGrid && is 0 (if t.attr o 1 0 = 1 then r.answers else r.returns) && only 1 1 &&
        present out (fun y => y.dims6 == [h, r.tokens, 1, 1, 1, 1])
    | 0x0303 => o.grid == r.sourceGrid && is 0 r.dout && r.dout != noneIdx && only 1 0
    | 0x0304 => o.grid == r.sourceGrid && is 0 r.logits && is 1 r.dout && is 2 r.answers && r.dout != noneIdx && only 3 1 &&
        present out (fun y => y.format == .fp32 && y.dims6 == [r.experts, r.tokens, 1, 1, 1, 1])
    | 0x0102 => o.grid == r.expertGrid
    | _ => true

/-- Whether a BUCKET_ADD has the operands of R238. -/
def bucketAddOk (t : Tables) (o : OpEntry) (b : BucketEntry) : Bool :=
  b.compression != 1 && o.inputs.drop 1 == [noneIdx, noneIdx, noneIdx] && o.outputs.drop 1 == [noneIdx] &&
    (match t.opIn? o 0, t.opOut? o 0 with
      | some a, some y => !a.format.isInt && y.format == .fp32 && a.elems == y.elems &&
          (reductionsOf t b.tag).any (fun e => e.2.src == o.outputs.headD noneIdx)
      | _, _ => false)

/-- Whether a tensor is FP32 with the factor shape (r, n). -/
def factorOk (x : Option TensorEntry) (r n : Nat) : Bool :=
  present x (fun y => y.format == .fp32 && y.dims6 == [r, n, 1, 1, 1, 1])

/-- Whether a LOWRANK_FACTOR has the operands of R241. -/
def lowrankOk (t : Tables) (o : OpEntry) (b : BucketEntry) : Bool :=
  let n := b.elements
  let c := bucketCols b
  let fp := fun (x : Option TensorEntry) (k : Nat) => present x (fun y => y.format == .fp32 && y.elems == k)
  let i := fun (k : Nat) => o.inputs.getD k noneIdx
  let dst := fun (k : Nat) => match (reductionsOf t b.tag)[k]? with | some e => e.2.dst | none => noneIdx
  let ef := fun (k : Nat) => fp (t.opIn? o k) n && present (t.opIn? o k) (fun y => y.hasRole 8)
  b.compression == 1 &&
    (match t.attr o 1 0 with
      | 1 => present (t.opIn? o 0) (fun y => floatLeaf y && y.elems == n) && ef 1 && factorOk (t.opIn? o 2) b.rank c && i 3 == noneIdx &&
          factorOk (t.opOut? o 0) b.rank b.rows && o.outputs.getD 1 noneIdx == i 1
      | 2 => i 0 == dst 0 && factorOk (t.opIn? o 0) b.rank b.rows && ef 1 && i 2 == noneIdx && i 3 == noneIdx &&
          factorOk (t.opOut? o 0) b.rank b.rows && factorOk (t.opOut? o 1) b.rank c
      | 3 => factorOk (t.opIn? o 0) b.rank b.rows && i 1 == dst 1 && factorOk (t.opIn? o 1) b.rank c && factorOk (t.opIn? o 2) b.rank c &&
          ef 3 && fp (t.opOut? o 0) (shardElems t b) && o.outputs.getD 1 noneIdx == i 3
      | _ => false)

/-- The LOWRANK_FACTOR FUNCTION 3 whose output0 feeds an UPDATE. -/
def lowrankFeeds (t : Tables) (b : BucketEntry) (i : Nat) : List OpEntry :=
  t.ops.filter (fun w => w.opcode == 0x0402 && t.attr w 1 0 == 3 && t.attr? w 8 == some b.tag && w.outputs.headD noneIdx == i)

/-- The elements of an UPDATE's operands (R255). -/
def updateElems (t : Tables) (b : BucketEntry) : Nat := if b.mode = 1 then b.elements else shardElems t b

/-- Whether an UPDATE has the operands of R255. -/
def updateOk (t : Tables) (o : OpEntry) (b : BucketEntry) : Bool :=
  let n := updateElems t b
  let g := o.inputs.headD noneIdx
  let opt := t.attr o 0xB 0
  let fp := fun (x : Option TensorEntry) (role : Option Nat) => present x (fun y => y.format == .fp32 && y.elems == n &&
    (match role with
      | some r => y.hasRole r
      | none => true))
  fp (t.opIn? o 0) none &&
    (if b.compression = 1 then !(lowrankFeeds t b g).isEmpty else (reductionsOf t b.tag).any (fun e => e.2.dst == g)) &&
    present (t.opIn? o 1) (fun y => y.format == .fp32 && y.elems == 16 && y.shardCut == 0xFF) &&
    (if opt = 1 then o.inputs.getD 2 noneIdx == noneIdx else fp (t.opIn? o 2) (some 3)) &&
    (if opt = 3 then fp (t.opIn? o 3) (some 3) else o.inputs.getD 3 noneIdx == noneIdx) &&
    present (t.opOut? o 0) (fun y => y.hasRole 0 && y.elems == n && y.layer == b.layer) && fp (t.opOut? o 1) (some 1)

/-- Whether an UPDATE comes after its bucket's last exchange, or after the factor that feeds it (R255). -/
def updateLate (t : Tables) (o : OpEntry) (b : BucketEntry) : Bool :=
  if b.compression = 1 then (lowrankFeeds t b (o.inputs.headD noneIdx)).all (fun w => decide (w.stroke < o.stroke))
  else (reductionsOf t b.tag).all (fun e => decide (e.2.close < o.stroke))

/-- Whether a GATHER_PARAMS of a MODE 0 bucket reads what its bucket's UPDATE stores, S elements, into N elements of the same FORMAT
(R259). -/
def gatherOk (t : Tables) (o : OpEntry) (b : BucketEntry) : Bool :=
  b.mode != 1 && t.ops.any (fun w => w.opcode == 0x0403 && t.attr? w 8 == some b.tag && w.outputs.headD noneIdx == o.inputs.headD noneIdx) &&
    present (t.opIn? o 0) (fun a => a.elems == shardElems t b && present (t.opOut? o 0) (fun y => y.elems == b.elements && y.format == a.format))

/-- Whether a state input of an UPDATE is written by another operation (R255). -/
def stateWritten (t : Tables) (o : OpEntry) : Bool :=
  (o.inputs.drop 2).any (fun i => i != noneIdx && t.ops.any (fun w => w.opcode != 0x0403 && w.writes.contains i))

/-- The reasons of an operation's engine operands. -/
def engineFlaws (t : Tables) (sec i : Nat) (o : OpEntry) : List Flaw :=
  flawIf (!ductusOperandsOk t o) 0x33 sec i ++
  (match (t.attr? o 8).bind t.bucket? with
    | none => []
    | some b =>
      match o.opcode with
      | 0x0401 => flawIf (!bucketAddOk t o b) 0x33 sec i ++
          flawIf ((reductionsOf t b.tag).any (fun e => decide (t.issueStroke e.1 ≤ o.stroke))) 0x35 sec i
      | 0x0402 => flawIf (!lowrankOk t o b) 0x33 sec i
      | 0x0403 => flawIf (!updateOk t o b || stateWritten t o) 0x33 sec i ++ flawIf (!updateLate t o b) 0x35 sec i
      | 0x0404 => flawIf (!gatherOk t o b) 0x33 sec i
      | _ => [])

/-! ### Order within a stroke (R52) -/

/-- Whether operation i of the list clashes with another of its stroke: an equal ORDER on its grid, a tensor that an earlier entry on
another grid writes too, or a read of what another operation writes, unless the writer has the lower ORDER on the same grid or both are
BUCKET_ADDs into one leaf, which apply in ORDER (R52, R238). -/
def hazard (ops : List OpEntry) (i : Nat) (o : OpEntry) : Bool :=
  ops.zipIdx.any (fun e =>
    let w := e.1
    e.2 != i && w.stroke == o.stroke &&
      ((decide (e.2 < i) && w.grid == o.grid && w.order == o.order) ||
        (o.reads.any w.writes.contains && !(w.grid == o.grid && decide (w.order < o.order)) &&
          !(w.opcode == 0x0401 && o.opcode == 0x0401 && w.grid == o.grid)) ||
        (w.grid != o.grid && decide (e.2 < i) && o.writes.any w.writes.contains)))

/-- Operations of one filler unit or of the strokes are judged together (R52). -/
def sameSchedule (t : Tables) (i : Nat) : List OpEntry :=
  match t.filler.find? (fun u => inRun u.opFirst u.opCount i) with
  | some u => if t.strokes.isEmpty then (t.ops.drop u.opFirst).take u.opCount else t.ops
  | none => t.ops

/-- The place of an operation in that list. -/
def schedulePlace (t : Tables) (i : Nat) : Nat :=
  match t.filler.find? (fun u => inRun u.opFirst u.opCount i) with
  | some u => if t.strokes.isEmpty then i - u.opFirst else i
  | none => i

/-! ### All of it -/

/-- Whether the ADD flag is admitted (R89, R122). -/
def addFlagOk (t : Tables) (o : OpEntry) : Bool :=
  !bit o.flags 0 || (!bit o.flags 2 &&
    (o.opcode == 0x0101 || o.opcode == 0x0102 || (o.opcode == 0x0206 && t.attr o 1 0 == 1) || o.opcode == 0x0504))

/-- Whether K and output1 of a TOPK are admitted (R128). -/
def topkOk (t : Tables) (o : OpEntry) : Bool :=
  o.opcode != 0x0207 || (present (t.opIn? o 0) (fun x => decide (t.attr o 4 0 ≤ x.extent (t.attr o 2 0))) &&
    present (t.opOut? o 1) (fun y => y.format == .int32))

/-- The flaws of one operation. The checks that read operands or attributes are made when those can be read; shapes, some of which depend
on AXIS and K, are judged when the attributes are in range. -/
def opFlaws (t : Tables) (sec i : Nat) (o : OpEntry) : List Flaw :=
  flawIf (decide (8 ≤ o.flags) || !o.rsvdZero) 8 sec i ++
  (if !knownOpcode o.opcode then [⟨0x30, sec, i⟩]
  else if !runReadable t o then [⟨0x33, sec, i⟩]
  else
    flawIf (!namesOk t o || !countsOk t o || !addFlagOk t o || (attrsOk t o && !shapesOk t o)) 0x31 sec i ++
    flawIf (!modesOk t o) 0x32 sec i ++
    flawIf (!attrsOk t o || !clipsOk t o || !scaleAttrsOk t o || !topkOk t o) 0x33 sec i ++
    engineFlaws t sec i o) ++
  flawIf (hazard (sameSchedule t i) (schedulePlace t i) o) 0x35 sec i

/-- The flaws of the OPERATIONS and ATTRIBUTES sections. -/
def operationFlaws (t : Tables) : List Flaw :=
  (t.ops.zipIdx.flatMap (fun e => opFlaws t (secIdx t 3) e.2 e.1)) ++
    (t.attrs.zipIdx.flatMap (fun a => flawIf (a.1.2.1 != 0) 8 (secIdx t 4) a.2))

end Sys2Proof.Machine
end

