-- ==== Sys2Proof/Machine/TableChecks.lean ====
section
/-! DEFINITION. What finalization checks at step 7 of roaming programs (R50, R282 to R289), routing entries and batches (R195 to R198),
buckets (R229, R230), intervals and filler units (R57 to R59, R530) and counts (R69), and at step 9 (R63, R161). -/

namespace Sys2Proof.Machine

open Sys2Proof

/-! ### Roaming programs -/

/-- The bytes of a transfer by its SIZE code (R284). -/
def sizeBytes (code : Nat) : Nat := 2 ^ code

/-- Whether a LOAD, STORE or ATOMIC record has only the bits of R284, with registers that exist and a known ATOMIC_OP (R289). -/
def accessOk (r : RoamRecord) : Bool :=
  let size := bits r.variant 2 0
  let pod := bit r.variant 3
  let atomic := r.op == 3
  let code := bits r.variant 11 8
  let known := 0x7 + 0x8 + (if r.op = 1 && size ≤ 2 then 0x10 else 0) + (if atomic then 0xF00 else 0)
  let knownC := (if pod then 0 else 0x1F + 0x1F00) + (if atomic && code = 8 then 0x1F0000 else 0)
  let regOk := fun (n : Nat) => decide (n ≤ 23)
  decide (size ≤ 6) && (r.variant &&& known) == r.variant && decide (r.a < 32) && (r.c &&& knownC) == r.c &&
    (if pod then decide (r.b < 32) && regOk r.b else decide (r.b < 2 ^ 16)) &&
    regOk r.a && decide (r.a + max (sizeBytes size / 8) 1 - 1 ≤ 23) &&
    (pod || (regOk (bits r.c 4 0) && (regOk (bits r.c 12 8) || bits r.c 12 8 == 0x1F))) &&
    (!atomic || ((size == 2 || size == 3) && decide (code ≤ 9) && (code != 2 || size == 2) && (code != 9 || size == 3) &&
      (code != 8 || regOk (bits r.c 20 16))))

/-- The functions of an ALU record (R286). -/
def aluKnown (f : Nat) : Bool := decide (f ≤ 0x11) || (decide (0x18 ≤ f) && decide (f ≤ 0x1A))

/-- Whether a record has a known OP and VARIANT, registers that exist and a branch target in range (R50, R284 to R286). -/
def recordOk (count : Nat) (r : RoamRecord) : Bool :=
  let reg := fun (n : Nat) => decide (n ≤ 23)
  match r.op with
  | 1 => accessOk r
  | 2 => accessOk r
  | 3 => accessOk r
  | 4 => aluKnown (bits r.variant 5 0) && decide (r.variant < 2 ^ 7) && reg r.a && reg r.b && (bit r.variant 6 || reg r.c)
  | 5 => decide (r.variant ≤ 2) && decide (r.a < count) && (r.variant == 0 || reg r.b)
  | 6 => r.variant == 0 && reg r.a && reg r.b
  | 7 => decide (r.a ≤ 63)
  | 8 => true
  | _ => false

/-- The records that may follow record i. -/
def successors (l : List RoamRecord) (i : Nat) : List Nat :=
  match l[i]? with
  | none => []
  | some r =>
    match r.op with
    | 8 => []
    | 5 => if r.variant = 0 then [r.a] else [r.a, i + 1]
    | _ => [i + 1]

/-- Records reachable from record 0; fuel is the number of rounds. -/
def reachable (l : List RoamRecord) : Nat → List Nat → List Nat
  | 0, seen => seen
  | n + 1, seen => reachable l n ((seen ++ seen.flatMap (successors l)).dedup)

/-- Whether a program has a reachable END. -/
def endReachable (l : List RoamRecord) : Bool :=
  (reachable l l.length [0]).any (fun i =>
    match l[i]? with
    | some r => r.op == 8
    | none => false)

/-- The flaws of one ROAMING instance, whose section index is given: a flaw of the header names no entry, one of a record names it. -/
def programFlaws (sec len : Nat) (p : RoamProgram) : List Flaw :=
  flawIf (!p.zero) 8 sec noneIdx ++
  flawIf (decide (16384 < p.count) || bit p.mask 0 || decide (256 ≤ p.mask) || decide (64 < p.tokens) || len != 16 + 16 * p.count ||
    !endReachable p.records) 0x36 sec noneIdx ++
  (p.records.zipIdx.flatMap (fun r => flawIf (!recordOk p.count r.1) 0x36 sec r.2))

/-- The flaws of every ROAMING section. -/
def roamingFlaws (e : LoadEnv) : List Flaw :=
  (e.t.sections.zipIdx.filter (fun x => x.1.ty == 9)).flatMap (fun x => programFlaws x.2 x.1.len (readProgram e.img x.1))

/-! ### Routing entries -/

/-- Whether a tensor index names a tensor with a shape and format. -/
def shapedAs (t : Tables) (i : Nat) (shape : List Nat) (fmt : Fmt → Bool) : Bool :=
  present (t.tensor? i) (fun x => x.dims6 == shape ++ List.replicate (6 - shape.length) 1 && fmt x.format)

/-- Whether a tensor index is unused or names a tensor. -/
def usedOk (t : Tables) (i : Nat) : Bool := i == noneIdx || decide (i < t.tensors.length)

/-- Whether the ranges of R196 and R197 hold, those of R5 aside. -/
def routingRangesOk (t : Tables) (i : Nat) (r : RoutingEntry) : Bool :=
  let p := t.cutSize r.cut
  let back := [r.dout, r.slotDout, r.slotDin, r.returns]
  r.id == i && decide (1 ≤ r.experts) && r.experts % max p 1 == 0 && decide (1 ≤ r.k) && decide (r.scoreFn ≤ 1) && decide (r.gateNorm ≤ 2) &&
    (r.cut == 0xFF || present' t r.cut) && decide (1 ≤ r.quota) && decide (r.quota ≤ 131072) && decide (1 ≤ r.tokens) &&
    decide (1 ≤ r.maxLive) && decide (r.maxLive ≤ 64) && decide (r.sourceGrid < t.grids.length) && decide (r.expertGrid < t.grids.length) &&
    decide (t.capacity r ≤ 1048576) &&
    [r.logits, r.tokensIn, r.slotIn, r.slotOut, r.answers].all (fun x => decide (x < t.tensors.length)) && usedOk t r.bias &&
    (if t.kind = 0 then back.all (fun x => decide (x < t.tensors.length))
      else if t.kind = 1 then back.all (fun x => x == noneIdx) else back.all (usedOk t))
where
  /-- Whether a cut index names an expert cut. -/
  present' (t : Tables) (i : Nat) : Bool := match t.cut? i with | some c => c.kind == 0 | none => false

/-- Whether the limits of R5 hold. -/
def routingLimitsOk (r : RoutingEntry) : Bool :=
  decide (r.experts ≤ 4096) && decide (r.k ≤ 8) && decide (r.depth ≤ 4) && decide (r.tokens ≤ 1048576) && decide (r.layer < 4096)

/-- Whether the tensors have the shapes and formats of R198. -/
def routingShapesOk (t : Tables) (r : RoutingEntry) : Bool :=
  let h := match t.tensor? r.tokensIn with | some x => x.extent 0 | none => 0
  let fmt := fun (i : Nat) (f : Fmt) => present (t.tensor? i) (fun x => x.format == f)
  let slots := [h, t.capacity r, t.expertsLocal r]
  let rows := [h, r.k, r.tokens]
  let any := fun (_ : Fmt) => true
  let opt := fun (i : Nat) (b : Bool) => i == noneIdx || b
  shapedAs t r.logits [r.experts, r.tokens] (fun f => f == .fp32 || f == .bf16) &&
    opt r.bias (shapedAs t r.bias [r.experts] (fun f => f == .fp32)) && shapedAs t r.tokensIn [h, r.tokens] any &&
    shapedAs t r.slotIn slots (fmt r.tokensIn) && shapedAs t r.slotOut slots any && shapedAs t r.answers rows (fmt r.slotOut) &&
    opt r.dout (shapedAs t r.dout [h, r.tokens] any) && opt r.slotDout (shapedAs t r.slotDout slots any) &&
    opt r.slotDin (shapedAs t r.slotDin slots any) && opt r.returns (shapedAs t r.returns rows (fmt r.slotDin))

/-- The strokes of each batch of a ROUTING entry: from its ROUTE to the COMBINE that ends it (R199). A batch without that COMBINE, which
step 10 rejects, counts to the end of the step. -/
def batchSpans (t : Tables) (ri : Nat) : List (Nat × Nat) :=
  let fn := if t.kind = 0 then 2 else 1
  (t.ops.zipIdx.filter (fun e => e.1.opcode == 0x0301 && t.routingOf e.1 == ri)).map (fun e =>
    (e.1.stroke, match t.ops.find? (fun c => c.opcode == 0x0302 && t.attr c 1 0 == fn && t.routingOf c == ri &&
        t.batchAt ri c.stroke == some e.2 && decide (e.1.stroke ≤ c.stroke)) with
      | some c => c.stroke
      | none => stepStrokes t))

/-- Batches of a ROUTING entry that are live at the boundary after a stroke. -/
def liveAt (t : Tables) (ri stroke : Nat) : Nat :=
  ((batchSpans t ri).filter (fun b => decide (b.1 ≤ stroke) && decide (stroke < b.2))).length

/-- The largest number of live batches of an entry at any boundary. -/
def mostLive (t : Tables) (ri : Nat) : Nat := ((batchSpans t ri).map (fun b => liveAt t ri b.1)).foldl max 0

/-- Whether the batches that one quadrant's engine holds ever pass 64 (R195). -/
def tooManyLive (t : Tables) (pl : GridPlan) : Bool :=
  [0, 1, 2, 3].any (fun q =>
    let mine := t.routing.zipIdx.filter (fun r => (pl.at_.getD r.1.sourceGrid (0, 0, 0)).1 == q)
    (mine.flatMap (fun r => batchSpans t r.2)).any (fun b => decide (64 < (mine.map (fun r => liveAt t r.2 b.1)).sum)))

/-- The flaws of the ROUTING section. -/
def routingFlaws (t : Tables) (pl : GridPlan) : List Flaw :=
  let sec := secIdx t 7
  (t.routing.zipIdx.flatMap (fun e =>
    flawIf (!e.1.rsvdZero) 8 sec e.2 ++
    (if !routingRangesOk t e.2 e.1 then [⟨0x33, sec, e.2⟩] else flawIf (!routingShapesOk t e.1) 0x31 sec e.2) ++
    flawIf (!routingLimitsOk e.1 || decide (e.1.maxLive < mostLive t e.2)) 0x34 sec e.2)) ++
  flawIf (tooManyLive t pl) 0x34 sec noneIdx

/-! ### Buckets -/

/-- Whether the digits of a bucket are admitted (R229, R230). -/
def digitsOk (t : Tables) (b : BucketEntry) : Bool :=
  let used := b.digits.filter (fun d => d != 0xFF)
  b.digits.headD 0xFF != 0xFF && !(b.digits.getD 1 0xFF == 0xFF && b.digits.getD 2 0xFF != 0xFF) && noRepeats used &&
    used.all (fun d => match t.cut? d with | some c => c.kind == 0 || c.kind == 2 || c.kind == 3 | none => false)

/-- Whether H_BF16 is admitted: DIGIT0 is a cut on X whose SIZE is a power of two of at least 2^H_BF16 (R230). -/
def hBf16Ok (t : Tables) (b : BucketEntry) : Bool :=
  b.hBf16 == 0 || (match t.cut? (b.digits.headD 0xFF) with
    | some c => c.dim == 0 && decide (2 ^ b.hBf16 ≤ c.size) && 2 ^ Nat.log2 c.size == c.size
    | none => false)

/-- Whether a bucket's fields are in their ranges, and 0 where the table says so (R229). -/
def bucketRangesOk (t : Tables) (i : Nat) (b : BucketEntry) : Bool :=
  let lenient := bit b.flags 0
  let expert := bit b.flags 1
  !(t.buckets.take i).any (fun c => c.tag == b.tag) && decide (1 ≤ b.elements) && decide (b.elements ≤ 2 ^ 30) && decide (b.mode ≤ 1) && decide (b.compression ≤ 3) &&
    decide (b.hBf16 ≤ 9) && decide (b.divisor ≤ 1) && decide (b.flags ≤ 3) &&
    (if lenient then decide (1 ≤ b.deadlineUs) && decide (b.deadlineUs ≤ 1000000) && decide (1 ≤ b.minPresent) &&
        decide (b.minPresent ≤ t.bucketP b) else b.deadlineUs == 0 && b.minPresent == 0) &&
    (decide (b.layer < 4096) || b.layer == 0xFFFF) &&
    (if b.compression = 1 then decide (1 ≤ b.rank) && decide (b.rank ≤ 64) && decide (1 ≤ b.rows) else b.rank == 0 && b.rows == 0) &&
    (if b.compression = 2 then decide (1 ≤ b.keep) && decide (b.keep ≤ 128) else b.keep == 0) &&
    (if expert then (match t.routing[b.routing]? with | some r => decide (b.localExpert < t.expertsLocal r) | none => false)
      else b.routing == 0 && b.localExpert == 0) &&
    (if b.compression = 2 || b.compression = 3 then
      present (t.tensor? b.ef) (fun x => x.format == .fp32 && x.elems == b.elements && x.hasRole 8) else b.ef == noneIdx)

/-- Whether the sizes, the low-rank view and the EXPERT flag obey R230. -/
def bucketSizesOk (t : Tables) (b : BucketEntry) : Bool :=
  let p := max (t.bucketP b) 1
  b.elements % ((if b.compression = 2 || b.compression = 3 then 256 else 128) * p) == 0 &&
    (b.compression != 1 || (b.mode == 0 && b.flags == 0 && b.rows % p == 0 && b.elements % max b.rows 1 == 0 &&
      (b.rank * b.rows) % (128 * p) == 0 && (b.rank * bucketCols b) % (128 * p) == 0)) &&
    (!bit b.flags 1 || (b.compression == 0 &&
      (match t.routing[b.routing]? with
        | some r => !b.digits.contains r.cut || r.cut == 0xFF
        | none => false)))

/-- The flaws of the BUCKETS section. -/
def bucketFlaws (t : Tables) : List Flaw :=
  t.buckets.zipIdx.flatMap (fun e =>
    flawIf (!e.1.rsvdZero) 8 (secIdx t 8) e.2 ++
    flawIf (!digitsOk t e.1 || !hBf16Ok t e.1 || !bucketRangesOk t e.2 e.1 || !bucketSizesOk t e.1) 0x33 (secIdx t 8) e.2)

/-! ### Intervals, filler units and BUBBLE -/

/-- Whether two intervals cover one grid and rank in one stroke (R58). -/
def intervalsMeet (a b : IntervalEntry) : Bool :=
  a.grid == b.grid && rangesMeet (a.first, a.last + 1) (b.first, b.last + 1) &&
    (List.range a.rankCount).any (fun i => intervalCovers b (a.rankFirst + i * a.rankStride))

/-- Whether an interval is admitted (R57, R58). -/
def intervalOk (t : Tables) (i : Nat) (e : IntervalEntry) : Bool :=
  decide (e.first ≤ e.last) && decide (e.last < t.strokes.length) && decide (e.grid < t.grids.length) && decide (1 ≤ e.rankStride) &&
    e.sram % 4096 == 0 && decide (e.sram ≤ 262144) && e.cycles == 0 &&
    !t.ops.any (fun o => o.grid == e.grid && decide (e.first ≤ o.stroke) && decide (o.stroke ≤ e.last)) &&
    !(t.intervals.take i).any (intervalsMeet e)

/-- The flaws of INTERVALS and of the BUBBLE bits (R58, R530). -/
def intervalFlaws (t : Tables) : List Flaw :=
  (t.intervals.zipIdx.flatMap (fun e =>
    flawIf (!e.1.rsvdZero) 8 (secIdx t 10) e.2 ++ flawIf (!intervalOk t e.2 e.1) 0x43 (secIdx t 10) e.2)) ++
  (t.strokes.zipIdx.flatMap (fun x =>
    flawIf (bit x.1.flags 0 != t.intervals.any (fun e => decide (e.first ≤ x.2) && decide (x.2 ≤ e.last))) 0x43 (secIdx t 5) x.2))

/-- Whether a filler unit is admitted (R59): its number is its place, its operations exist and belong to no earlier unit, and its
clusters and CYCLES are in range. -/
def unitOk (t : Tables) (i : Nat) (u : FillerEntry) : Bool :=
  u.id == i && decide (u.opFirst + u.opCount ≤ t.ops.length) && decide (1 ≤ u.width) && decide (u.width ≤ 50) && decide (1 ≤ u.height) &&
    decide (u.height ≤ 25) && u.cycles == 0 &&
    !(t.filler.take i).any (fun v => rangesMeet (u.opFirst, u.opFirst + u.opCount) (v.opFirst, v.opFirst + v.opCount))

/-- The flaws of the FILLER section; in a KIND 2 folio its units cover every operation (R530). -/
def fillerFlaws (t : Tables) : List Flaw :=
  (t.filler.zipIdx.flatMap (fun e =>
    flawIf (!e.1.rsvdZero) 8 (secIdx t 11) e.2 ++ flawIf (!unitOk t e.2 e.1) 0x43 (secIdx t 11) e.2)) ++
  flawIf (t.kind == 2 && (List.range t.ops.length).any (fun i => !t.filler.any (fun u => inRun u.opFirst u.opCount i))) 0x43
    (secIdx t 11) noneIdx

/-! ### Counts and the whole of step 7 -/

/-- The count limits of R69. -/
def countFlaws (t : Tables) : List Flaw :=
  let lim := fun (ty n max_ : Nat) => flawIf (decide (max_ < n)) 5 (secIdx t ty) noneIdx
  lim 5 t.strokes.length 262144 ++ lim 3 t.ops.length 4194304 ++ lim 6 t.exchs.length 1048576 ++ lim 2 t.tensors.length 65536 ++
    lim 9 t.roaming.length 1024 ++ lim 10 t.intervals.length 4096 ++ lim 11 t.filler.length 65536 ++ lim 8 t.buckets.length 65536

/-- Step 7 of finalization. -/
def step7Flaws (e : LoadEnv) (pl : GridPlan) : List Flaw :=
  operationFlaws e.t ++ roamingFlaws e ++ routingFlaws e.t pl ++ bucketFlaws e.t ++ intervalFlaws e.t ++ fillerFlaws e.t ++ countFlaws e.t

/-! ### Step 9 -/

/-- Whether a POWER_REST turns the band of a grid off while the grid holds a tensor live across the rest in SRAM (R161). -/
def restLoses (t : Tables) (carried : List Nat) (o : OpEntry) : Bool :=
  o.opcode == 0x0701 && t.attr o 1 0 == 2 &&
    t.tensors.zipIdx.any (fun x => decide (2 ≤ x.1.placement) && tensorLive t carried o.grid x.2 x.1 o.stroke)

/-- Step 9 of finalization: which compute phases the scheduler itself rejects is the implementation's (log entry 3); a folio without
operations has none. -/
def step9Flaws (e : LoadEnv) (carried : List Nat) : List Flaw :=
  (e.t.ops.zipIdx.flatMap (fun o => flawIf (restLoses e.t carried o.1) 0x41 (secIdx e.t 3) o.2)) ++
    (if e.t.ops.isEmpty then []
    else
      match Config.unschedulable e.img e.box e.coord with
      | some x => [⟨0x41, x.1, x.2⟩]
      | none => [])

end Sys2Proof.Machine
end

