-- ==== Sys2Proof/Machine/ExchChecks.lean ====
section
/-! DEFINITION. What finalization checks of exchanges at step 10 (R55, R56, R125, R168, R199, R232, R259, R357, R361, R377, R525), and the
bytes that a step sends on each dimension (R358). -/

namespace Sys2Proof.Machine

open Sys2Proof

/-! ### One exchange -/

/-- Whether a range of elements of a tensor exists and begins and ends between blocks of an MX tensor. -/
def elemRangeOk (x : TensorEntry) (off n : Nat) : Bool :=
  decide (off + n ≤ x.elems) && (!x.format.isMx || (off % 32 == 0 && n % 32 == 0))

/-- Whether two tensors may exchange stored bytes (R525). -/
def sameBytes (a b : TensorEntry) : Bool :=
  a.format == b.format && a.scaleMode == b.scaleMode && a.scaleMode != 1 && (a.scaleMode != 3 || a.scale == b.scale)

/-- Whether a POINT exchange is admitted (R55, R56, R357, R525). -/
def pointOk (t : Tables) (e : ExchEntry) : Bool :=
  match t.tensor? e.src, t.tensor? e.dst with
  | some a, some b =>
    elemRangeOk a e.srcOff e.elements && elemRangeOk b e.dstOff e.elements && e.ref == 0 &&
      (if e.cut = 0xFF then e.peer == 0 else (t.cut? e.cut).isSome) && e.expected == ceilDiv (pointSize e a) 512 &&
      (if bit e.flags 0 then (b.format == .fp32 || b.format == .dfp32) && !a.format.isInt else sameBytes a b)
  | _, _ => false

/-- Whether a ROUTED or ROUTED_REVERSE exchange carries one of its entry's four transfers (R56, R199, R357). -/
def routedOk (t : Tables) (e : ExchEntry) : Bool :=
  match t.routing[e.ref]? with
  | none => false
  | some r =>
    e.cut == r.cut && e.peer == 0 && e.expected == t.cutSize r.cut &&
      (if e.kind = 1 then (e.src == r.tokensIn && e.dst == r.slotIn) || (e.src == r.dout && e.dst == r.slotDout && r.dout != noneIdx)
        else (e.src == r.slotOut && e.dst == r.answers) || (e.src == r.slotDin && e.dst == r.returns && r.returns != noneIdx))

/-- The elements that phase k of a bucket's exchange sends, and those its DST_TENSOR holds (R232). -/
def phaseElems (t : Tables) (b : BucketEntry) (phase : Nat) : Nat × Nat :=
  if b.compression = 1 then
    let n := b.rank * (if phase = 0 then b.rows else bucketCols b)
    (n, n)
  else (b.elements, if b.mode = 0 then shardElems t b else b.elements)

/-- The phase of a BUCKET exchange: its place among those of its bucket (R232). -/
def phaseOf (t : Tables) (x : Nat) (tag : Nat) : Nat := ((reductionsOf t tag).findIdx (fun e => e.1 == x))

/-- Whether an EXPERT bucket's exchange is issued after the last forward dispatch of its entry has closed (R232). -/
def expertLate (t : Tables) (b : BucketEntry) (x : Nat) : Bool :=
  !bit b.flags 1 || (match t.routing[b.routing]? with
    | none => false
    | some r => t.exchs.all (fun d => !(d.kind == 1 && d.ref == b.routing && d.src == r.tokensIn) || decide (d.close < t.issueStroke x)))

/-- Whether a BUCKET exchange is admitted (R56, R232, R237). -/
def bucketExchOk (t : Tables) (x : Nat) (e : ExchEntry) : Bool :=
  match t.bucket? e.ref, t.tensor? e.src, t.tensor? e.dst with
  | some b, some a, some d =>
    let n := phaseElems t b (phaseOf t x e.ref)
    e.cut == 0xFF && e.peer == 0 && e.expected == 0 && e.elements == n.1 && a.elems == n.1 && d.format == .fp32 && d.elems == n.2 &&
      floatLeaf a && expertLate t b x
  | _, _, _ => false

/-- The GATHER_PARAMS that a GATHER entry carries: issued and closed in its stroke, with its tensors, grid and bucket (R259). -/
def gatherOps (t : Tables) (x : Nat) (e : ExchEntry) : List OpEntry :=
  t.ops.filter (fun o => o.opcode == 0x0404 && o.stroke == t.issueStroke x && e.close == o.stroke && o.inputs.headD noneIdx == e.src &&
    o.outputs.headD noneIdx == e.dst && o.grid == e.dstGrid && t.attr? o 8 == some e.ref)

/-- Whether a GATHER entry is admitted (R56, R259). -/
def gatherExchOk (t : Tables) (x : Nat) (e : ExchEntry) : Bool :=
  match t.bucket? e.ref, t.tensor? e.src, t.tensor? e.dst with
  | some b, some a, some d =>
    e.cut == 0xFF && e.peer == 0 && e.close == t.issueStroke x && (gatherOps t x e).length == 1 && sameBytes a d &&
      e.expected == t.bucketP b * payloadCount a.format a.elems
  | _, _, _ => false

/-- Whether a PAIRED entry declares one end of a stream (R56, R377). -/
def pairedOk (t : Tables) (e : ExchEntry) : Bool :=
  e.cut == 0xFF && e.ref == 0 &&
    (match t.tensor? e.src, t.tensor? e.dst with
      | some a, none => e.dst == noneIdx && a.hasRole 7 && a.scaleMode != 1
      | none, some b => e.src == noneIdx && b.hasRole 6 && b.scaleMode != 1 && e.expected == payloadCount b.format b.elems
      | _, _ => false)

/-- Whether a target mapping has the job box's extents and passes R42 (R361). -/
def mappingOk (t : Tables) (inst : Nat) : Bool :=
  match mappingOf t inst with
  | none => false
  | some m => m.1 == t.box && (cutFlaws m.2 t.box 0).isEmpty

/-- The PERMUTE operations that a PERMUTE entry carries (R361). -/
def permuteOps (t : Tables) (x : Nat) (e : ExchEntry) : List OpEntry :=
  t.ops.filter (fun o => o.opcode == 0x0505 && o.stroke == t.issueStroke x && o.inputs.headD noneIdx == e.src &&
    o.outputs.headD noneIdx == e.dst)

/-- Whether a PERMUTE entry is admitted (R56, R361). -/
def permuteExchOk (t : Tables) (x : Nat) (e : ExchEntry) : Bool :=
  e.cut == 0xFF && e.peer == 0 && e.expected == 0 && (permuteOps t x e).length == 1 && mappingOk t e.ref &&
    present (t.tensor? e.dst) (fun y => y.shardCut == 0xFF || (match mappingOf t e.ref with
      | some m => decide (y.shardCut < m.2.length)
      | none => false))

/-- Whether an entry of its kind is admitted. -/
def kindOk (t : Tables) (x : Nat) (e : ExchEntry) : Bool :=
  match e.kind with
  | 0 => pointOk t e
  | 1 => routedOk t e
  | 2 => routedOk t e
  | 3 => bucketExchOk t x e
  | 4 => gatherExchOk t x e
  | 5 => pairedOk t e
  | 6 => permuteExchOk t x e
  | _ => false

/-- Whether CLOSE_STROKE is a stroke not before the issuing one, or the entry is a filler's declaration that no stroke issues (R55,
R377). -/
def closeOk (t : Tables) (x : Nat) (e : ExchEntry) : Bool :=
  t.strokes.isEmpty || (decide (t.issueStroke x ≤ e.close) && decide (e.close < t.strokes.length))

/-! ### Conflicts with operations and with one another (R125, R168) -/

/-- Operations that carry an exchange or take its data in its own strokes: GATHER_PARAMS, PERMUTE, PAIRED_RECV (R259, R361, R378). -/
def carriesExch (e : ExchEntry) (o : OpEntry) : Bool :=
  (e.kind == 4 && o.opcode == 0x0404) || (e.kind == 6 && o.opcode == 0x0505) || (e.kind == 5 && o.opcode == 0x0507)

/-- Whether an operation of the strokes in which an exchange is open writes its source or touches its destination (R168). -/
def clashes (t : Tables) (x : Nat) (e : ExchEntry) : Bool :=
  let srcs := exchReads t { e with flags := 0 }
  t.ops.any (fun o => decide (t.issueStroke x ≤ o.stroke) && decide (o.stroke ≤ e.close) &&
    (o.writes.any srcs.contains || (e.dst != noneIdx && !carriesExch e o && (o.reads.contains e.dst || o.writes.contains e.dst))))

/-- Whether two IN_PLACE_ADD exchanges add into overlapping elements and close in one stroke (R125). -/
def addsMeet (a b : ExchEntry) : Bool :=
  a.kind == 0 && b.kind == 0 && bit a.flags 0 && bit b.flags 0 && a.dst == b.dst && a.close == b.close &&
    rangesMeet (a.dstOff, a.dstOff + a.elements) (b.dstOff, b.dstOff + b.elements)

/-- The flaws of one EXCHANGES entry. -/
def exchFlaws (t : Tables) (sec x : Nat) (e : ExchEntry) : List Flaw :=
  flawIf (decide (2 ≤ e.flags) || !e.rsvdZero) 8 sec x ++
  flawIf (!kindOk t x e || !closeOk t x e || (bit e.flags 0 && e.kind != 0) || !(e.dstGrid == noneIdx || decide (e.dstGrid < t.grids.length)) ||
    (!t.strokes.isEmpty && clashes t x e) || (t.exchs.take x).any (addsMeet e)) 0x42 sec x

/-! ### Batches (R199) -/

/-- The strokes of the items of a batch, by the ROUTE that names it: operations of an opcode and FUNCTION, and exchanges of a DIR. -/
def batchOps (t : Tables) (ri batch opcode fn : Nat) : List Nat :=
  (t.ops.filter (fun o => o.opcode == opcode && t.routingOf o == ri && (fn == 0 || t.attr o 1 0 == fn) &&
    t.batchAt ri o.stroke == some batch)).map (fun o => o.stroke)
def batchExchs (t : Tables) (ri batch dir : Nat) : List Nat :=
  match t.routing[ri]? with
  | none => []
  | some r => (t.exchs.zipIdx.filter (fun e => (e.1.kind == 1 || e.1.kind == 2) && e.1.ref == ri && e.1.dir r == dir &&
      t.exchBatch e.2 == some batch)).map (fun e => t.issueStroke e.2)

/-- Whether a list of items, each given by its strokes and whether it must come in a later stroke than the item before it, holds exactly
one of each in stroke order. -/
def inOrder : Nat → List (List Nat × Bool) → Bool
  | _, [] => true
  | last, x :: rest =>
    match x.1 with
    | [k] => (if x.2 then decide (last < k) else decide (last ≤ k)) && inOrder k rest
    | _ => false

/-- Whether a batch has exactly its items in order. -/
def batchWhole (t : Tables) (ri batch stroke : Nat) : Bool :=
  let fwd := [(batchExchs t ri batch 0, true), (batchExchs t ri batch 1, false), (batchOps t ri batch 0x0302 1, false)]
  let back := [(batchOps t ri batch 0x0303 0, false), (batchExchs t ri batch 2, true), (batchExchs t ri batch 3, false),
    (batchOps t ri batch 0x0302 2, false)]
  inOrder stroke (fwd ++ (if t.kind = 0 then back else []))

/-- Batch flaws, charged to the ROUTING entry whose items are so arranged: a ROUTE's batch that is not whole, and an operation or exchange
that no ROUTE precedes (R199). -/
def batchFlaws (t : Tables) : List Flaw :=
  t.routing.zipIdx.flatMap (fun r =>
    flawIf (t.ops.zipIdx.any (fun o => t.routingOf o.1 == r.2 &&
        (if o.1.opcode = 0x0301 then !batchWhole t r.2 o.2 o.1.stroke
          else [0x0302, 0x0303, 0x0304].contains o.1.opcode && (t.batchAt r.2 o.1.stroke).isNone)) ||
      t.exchs.zipIdx.any (fun e => (e.1.kind == 1 || e.1.kind == 2) && e.1.ref == r.2 && (t.exchBatch e.2).isNone))
      0x42 (secIdx t 7) r.2)

/-! ### Entries that an operation or a bucket must have -/

/-- GATHER_PARAMS and PERMUTE without exactly one entry, and buckets without their exchanges (R232, R259, R361). -/
def missingExchFlaws (t : Tables) : List Flaw :=
  (t.ops.zipIdx.flatMap (fun o =>
    let n := (t.exchs.zipIdx.filter (fun e => (e.1.kind == 4 && o.1.opcode == 0x0404 && (gatherOps t e.2 e.1).contains o.1) ||
      (e.1.kind == 6 && o.1.opcode == 0x0505 && (permuteOps t e.2 e.1).contains o.1))).length
    flawIf ((o.1.opcode == 0x0404 || o.1.opcode == 0x0505) && n != 1) 0x42 (secIdx t 3) o.2)) ++
  (t.buckets.zipIdx.flatMap (fun b =>
    flawIf ((reductionsOf t b.1.tag).length != (if b.1.compression = 1 then 2 else 1)) 0x42 (secIdx t 8) b.2))

/-- Step 10 of finalization. -/
def step10Flaws (t : Tables) : List Flaw :=
  (t.exchs.zipIdx.flatMap (fun e => exchFlaws t (secIdx t 6) e.2 e.1)) ++ batchFlaws t ++ missingExchFlaws t

/-! ### Bytes sent in a step (R358) -/

/-- Bytes by dimension. -/
structure DimBytes where
  x : Nat
  y : Nat
  z : Nat
deriving DecidableEq, Repr

/-- Bytes added on a dimension. -/
def DimBytes.add (d : DimBytes) (dim n : Nat) : DimBytes :=
  match dim with
  | 0 => { d with x := d.x + n }
  | 1 => { d with y := d.y + n }
  | _ => { d with z := d.z + n }

/-- Bytes from one coordinate to another, on the dimension on which they leave this device: the first in which the two differ, X before Y
before Z (R335). -/
def DimBytes.between (d : DimBytes) (a b : Nat × Nat × Nat) (n : Nat) : DimBytes :=
  if a.1 ≠ b.1 then d.add 0 n else if a.2.1 ≠ b.2.1 then d.add 1 n else if a.2.2 ≠ b.2.2 then d.add 2 n else d

/-- Bytes of n elements of a leaf as it travels: FP32, its factor, or its blocks (R240). -/
def leafBytes (b : BucketEntry) (n : Nat) : Nat :=
  match b.compression with
  | 2 => n / 256 * (4 * ceilDiv b.keep 4 + 4 * b.keep)
  | 3 => n / 256 * 36
  | _ => 4 * n

/-- What this device sends for one phase of a bucket: the nodes it hosts whose parents are hosted elsewhere, and under MODE 1 its
reduced shard to every other contributor (R234, R236). -/
def bucketBytes (t : Tables) (coord : Nat × Nat × Nat) (b : BucketEntry) (elems : Nat) (all : Bool) (d : DimBytes) : DimBytes :=
  let p := max (t.bucketP b) 1
  let c := t.contributor b coord
  let s := elems / p
  let at_ := fun (k : Nat) => t.contributorCoord b coord k
  let d1 := (List.range p).foldl (fun d o => (treeAll p).foldl (fun (d : DimBytes) n =>
    match n.2 with
    | none => d
    | some par =>
      if treeHost o n.1.1 n.1.2 = c && treeHost o par.1 par.2 ≠ c then
        d.between coord (at_ (treeHost o par.1 par.2))
          (if n.1.1 = n.1.2 && (b.compression = 2 || b.compression = 3) then leafBytes b s
            else if treeHeight par.1 par.2 ≤ b.hBf16 then 2 * s else 4 * s)
      else d) d) d
  if all then ((List.range p).filter (fun k => k != c)).foldl (fun d k => d.between coord (at_ k) (4 * s)) d1 else d1

/-- What one exchange sends from this device (R358). -/
def exchBytes (f : Folio) (x : Nat) (e : ExchEntry) (d : DimBytes) : DimBytes :=
  let t := f.tables
  match e.kind with
  | 0 =>
    match t.tensor? e.src, t.cut? e.cut with
    | some a, some c => if rankOf f.box (t.pointPeer e f.coord false) = f.rank then d else d.add c.dim (pointSize e a)
    | _, _ => d
  | 3 =>
    match t.bucket? e.ref with
    | some b => bucketBytes t f.coord b (phaseElems t b (phaseOf t x e.ref)).1 (b.mode == 1 || b.compression == 1) d
    | none => d
  | 4 =>
    match t.bucket? e.ref, t.tensor? e.src with
    | some b, some a => ((List.range (t.bucketP b)).filter (fun k => k != t.contributor b f.coord)).foldl
        (fun d k => d.between f.coord (t.contributorCoord b f.coord k) (wireSize a.format a.elems)) d
    | _, _ => d
  | 6 =>
    match t.tensor? e.dst with
    | none => d
    | some b => ((permuteReceivers f e).filter (fun r => r != f.rank)).foldl (fun d r =>
        let c := coordOfRank f.box r
        d.between f.coord c (wireSize b.format (permutePairs f e c f.rank).length)) d
  | 5 => d
  | _ =>
    match t.routing[e.ref]?, t.tensor? e.src with
    | some r, some a =>
      match t.cut? r.cut with
      | none => d
      | some c =>
        let rows := if e.kind = 1 then r.quota * (r.experts - t.expertsLocal r) else r.quota * (c.size - 1) * t.expertsLocal r
        d.add c.dim (rows * wireSize a.format (a.extent 0))
    | _, _ => d

/-- BYTES_X, BYTES_Y and BYTES_Z. -/
def stepBytes (f : Folio) : DimBytes := f.tables.exchs.zipIdx.foldl (fun d e => exchBytes f e.2 e.1 d) ⟨0, 0, 0⟩

end Sys2Proof.Machine
end

