-- ==== Sys2Proof/Machine/Finalize.lean ====
section
/-! DEFINITION. Loading a folio (R62 to R70, R394, R409): LOAD_FOLIO, FINALIZATION_START, FINALIZATION_COMPLETE and
FINALIZATION_TIMEOUT. -/

namespace Sys2Proof.Machine

open Sys2Proof

/-! ### LOAD_FOLIO -/

/-- Loads that a test accepts and that have not ended. -/
def loadsLive (s : State) (test : LongOp → Bool) : Nat :=
  (s.longs.filter (fun o => !o.state.isOver && test o &&
    (match o.body with
      | .load _ => true
      | _ => false))).length

/-- Whether one more folio passes the counts of R67: at LOAD_FOLIO, and again when the folio would be installed. -/
def loadRoom (s : State) (p : Part) : Bool :=
  decide ((s.folios.filter (fun f => f.part == p)).length < 4) && decide (s.folios.length < 8)

/-- The load that a descriptor asks for (R394). -/
def newLoad (d : Bytes) : LoadOp :=
  { resultAddr := u64 d 16, resultLen := u32 d 24, hostAddr := u64 d 32, len := u64 d 40, staged := none, sampled := none }

/-- LOAD_FOLIO (R63, R67). -/
def execLoadFolio (p : Part) (q : Fin 16) (s : State) : Host.Outcome State Fault Refusal :=
  .next (match startable s p q 0x20 with
    | none => s
    | some c =>
      if loadRoom s p then (admitLong s c (newLoad c.desc).len (.load (newLoad c.desc))).2
      else finish (begun s c.uid) c.uid 0x13 0 0 0)

/-! ### The steps of finalization -/

/-- A load with a handle. -/
def loadOf (s : State) (h : Handle) : Option (LongOp × LoadOp) :=
  match longOf s h with
  | none => none
  | some o =>
    match o.body with
    | .load l => some (o, l)
    | _ => none

/-- What step 1 samples (R63, R35). -/
def sampleOf (s : State) (p : Part) : LoadSample :=
  let x := s.parts[p]
  { requireOwner := x.requireOwner, coordOk := s.router.coordValid, ownerHash := slice x.assignBlock 8 64, debugFolios := x.debugFolios,
    hasBox := x.job.isSome, box := match x.job with | some j => j.box | none => (1, 1, 1),
    coord := match x.job with | some j => j.coord | none => (0, 0, 0) }

/-- A load rejected: its blotter record under the scribe core that ran the failing step, and its FINAL record (R70). The manual does
not say which core that is, so it is a free value (log entry 3). -/
def rejectLoad (s : State) (o : LongOp) (f : Flaw) : State :=
  let d := drawFree s
  let s1 := note d.2 0x11 (unitScribe (d.1 % 16)) (partStamp s o.part) f.reason f.sec f.entry
  endLong s1 o.handle .failed (if 0x100 ≤ f.reason then 0x21 else 0x20) f.reason f.sec f.entry

/-- Step 1 begins: the sample is taken and the image copied, when the carve-out has room for the copy (R63). -/
def startLoad (s : State) (o : LongOp) (l : LoadOp) (image : Bytes) : State :=
  if carveBytes s o.part < carveUsed s o.part + roundUp l.len 64 then rejectLoad s o ⟨0x22, noneIdx, noneIdx⟩
  else
    updLong s o.handle (fun o =>
      { o with state := .running, began := true,
               body := .load { l with staged := some (slice image 0 l.len), sampled := some (sampleOf s o.part) } })

/-- FINALIZATION_START (R63, R67): a queued load begins while fewer than two run. `image` is what host memory holds. -/
def execFinalizationStart (h : Handle) (image : Bytes) (s : State) : Host.Outcome State Fault Refusal :=
  .next (match loadOf s h with
    | none => s
    | some (o, l) =>
      if s.live && o.state == .queued && decide (loadsLive s (fun o => o.state == .running || o.state == .cancelling) < 2) then
        startLoad s o l image
      else s)

/-- What the checks read. -/
def loadEnv (l : LoadOp) (img : Bytes) (smp : LoadSample) : LoadEnv :=
  { img := img, t := readImage img, length := l.len, sample := smp, box := smp.box, coord := smp.coord }

/-- The flaw of the first step that finds one (R63, R70). -/
def loadFlaw (s : State) (p : Part) (e : LoadEnv) : Option Flaw :=
  let pl := placeGrids e.t
  let carried := carriedSet e.t
  let descriptors := step6Flaws e.t
  (firstFlaw (step2Flaws e)).orElse (fun _ => (firstFlaw (step3Flaws e)).orElse (fun _ => (firstFlaw (step4Flaws e)).orElse (fun _ =>
    (firstFlaw (step5Flaws e)).orElse (fun _ => (firstFlaw descriptors).orElse (fun _ =>
      (firstFlaw (capacityFlaws s p e pl carried)).orElse (fun _ => (firstFlaw (step7Flaws e pl)).orElse (fun _ =>
        (firstFlaw (step8Flaws e.t pl)).orElse (fun _ => (firstFlaw (step9Flaws e carried)).orElse (fun _ =>
          firstFlaw (step10Flaws e.t))))))))))

/-- The folio that finalization installs (R63 step 11). Its job step number is 0 (R97), its gathers' latest applied step the number less
1 (R260), and its scale exponents are those of tensors nothing has written. -/
def newFolio (s : State) (o : LongOp) (e : LoadEnv) : Folio :=
  let pl := placeGrids e.t
  let r := placeTensors s o.part e.t pl o.handle
  { handle := o.handle, part := o.part, tables := e.t, digest := e.t.digest,
    finalDigest := sha3_512 (Config.finalizedImage e.img e.box e.coord s.boot.fwVersion), box := e.box, coord := e.coord,
    grids := pl.at_, tensorAt := r.1, hbm := r.2,
    intervalCycles := (List.range e.t.intervals.length).map (Config.intervalCycles e.img),
    unitCycles := (List.range e.t.filler.length).map (Config.unitCycles e.img), carried := carriedSet e.t, jobStep := 0, scaleExp := [],
    applied := e.t.buckets.map (fun b => (b.tag, 0)), gatherServed := [], retired := false, snapshot := none, buddy := none,
    ckptBytes := 0, units := e.t.filler.map (fun _ => .pending) }

/-- Memory after step 11 (R47): tensors that INITDATA fills hold it, and the others are zero. -/
def initTensors (m : Memory) (f : Folio) : Memory :=
  (f.tables.tensors.zipIdx.filter (fun x => x.1.inHbm || f.tensorAt.getD x.2 0 != 0)).foldl (fun m x =>
    let a := f.tensorAt.getD x.2 0
    let z := m.zero a (a + x.1.bytes)
    match f.tables.init.find? (fun d => d.1 == x.1.init) with
    | some d => if x.1.init = noneIdx then z else z.store a (slice d.2 x.1.initOff x.1.bytes)
    | none => z) m

/-- The result of a load that completes with OK (R409). -/
def loadResult (f : Folio) : Bytes :=
  let t := f.tables
  let n := stepBytes f
  f.finalDigest ++ f.digest ++ le 4 (t.sections.filter (fun x => !knownType x.ty)).length ++ le 4 (ignoredHints t (placeGrids t)) ++
    le 8 n.x ++ le 8 n.y ++ le 8 n.z ++ le 4 (stepRecordBytes t) ++ zeros 4 ++ le 8 (ckptSize f) ++ le 8 (rangeBytes f.hbm) ++ zeros 72

/-- Steps 11 and 12: the folio is installed, the token counters of its clusters are zero (R143), and the result is written before the
record. -/
def installFolio (s : State) (o : LongOp) (l : LoadOp) (e : LoadEnv) : State :=
  let f := newFolio s o e
  let s1 := { s with
    folios := s.folios ++ [f], mem := initTensors s.mem f,
    tokens := s.tokens.filter (fun k => !f.allClusters.contains k.1.1) }
  let s2 := updHost s1 s.parts[o.part].port (fun m => m.writeBytes l.resultAddr (loadResult f))
  let s3 := note s2 0x10 (unitScribe 0) (partStamp s o.part) f.tables.toolchain o.handle.toNat 0
  endLong (updLong s3 o.handle (fun o => { o with doneUnits := o.totalUnits })) o.handle .done 0 0 0 0

/-- A running load reaches its end: installed, or rejected with the flaw of the first step that finds one. -/
def completeLoad (s : State) (o : LongOp) (l : LoadOp) : State :=
  match l.staged, l.sampled with
  | some img, some smp =>
    let e := loadEnv l img smp
    -- the capacity checks count this load's staging copy through its long operation (R524)
    match loadFlaw s o.part e with
    | some f => rejectLoad s o f
    | none => if loadRoom s o.part then installFolio s o l e else endLong s o.handle .failed 0x13 0 0 0
  | _, _ => s

/-- FINALIZATION_COMPLETE (R63). -/
def execFinalizationComplete (h : Handle) (s : State) : Host.Outcome State Fault Refusal :=
  .next (match loadOf s h with
    | none => s
    | some (o, l) => if s.live && o.state == .running then completeLoad s o l else s)

/-- FINALIZATION_TIMEOUT (R66): the load is rejected at its next step boundary. -/
def execFinalizationTimeout (h : Handle) (s : State) : Host.Outcome State Fault Refusal :=
  .next (match loadOf s h with
    | none => s
    | some (o, _) => if s.live && o.state == .running then rejectLoad s o ⟨0x50, noneIdx, noneIdx⟩ else s)

end Sys2Proof.Machine
end

