-- ==== Sys2Proof/Machine/Routed.lean ====
section
/-! DEFINITION. Rows of the Ductus engines on arrival (R208, R211 to R214, R219, R225, R527) and the drain of dead generations (R223,
R224): ROUTED_DATA, DUCTUS_DRAIN, DUCTUS_DRAIN_ACK_RETURN, DUCTUS_DRAIN_ACK. -/

namespace Sys2Proof.Machine

open Sys2Proof

/-! ### Rows -/

/-- A row that fails a check: discarded, and the job fails (R211, R475). -/
def badRow (s : State) (k : Packet) (t : Tag) : State := failJob s k.stamp 0x102 (unitQuad k.dstUnit.toNat 1) t.routing 0 0

/-- A stale return: discarded and counted (R225). -/
def staleReturn (s : State) (q : Quad) (w : BitVec 128) : State :=
  let u := unitQuad q.val 1 + 0x10000
  let s1 := bump s 2 q.val 1
  let n := match s.staleNotes.find? (fun e => e.1 == u) with | some e => e.2.1 | none => 0
  { s1 with staleNotes := (u, n + 1, w.toNat % 2 ^ 64) :: s1.staleNotes.filter (fun e => e.1 != u) }

/-- Check 6 of R211: the part number and the length of the payload. -/
def partOk (k : Packet) (rowLen : Nat) : Bool :=
  decide (k.aux.toNat < ceilDiv rowLen 512) && k.payload.length == min 512 (rowLen - k.aux.toNat * 512)

/-- The stored bytes of one row of a tensor. -/
def rowLen (t : TRef) : Nat := wireSize t.entry.format (t.entry.extent 0)

/-- A part of a row written (R209, R211). -/
def writeRowPart (m : Memory) (t : TRef) (row : Nat) (k : Packet) : Memory :=
  wireStore m t (row * t.entry.extent 0) (t.entry.extent 0) (k.aux.toNat * 512) k.payload

/-- A packet of an exchange counted for its sender (R170). -/
def countPacket (s : State) (h : Handle) (f : Folio) (stamp : Stamp) (x : Nat) (rank : Nat) : State :=
  match f.tables.exchs[x]? with
  | none => s
  | some e =>
    settleSender (updExch s h x f.step16 (fun y => { y with packets := raise y.packets rank })) h f stamp x e rank

/-- Whether a receive table is bound to a tag's sender (R527). -/
def boundTo (t : RecvTable) (g : Tag) : Bool := t.bound.any (fun b => b.2.1 == g.srcRank && b.2.2.1 == g.srcQuad && b.2.2.2 == g.gen)

/-- The table that a row of DIR 0 or 2 selects: one bound to its sender; for DIR 0 otherwise the oldest table whose dispatch is open
and whose sending position is not bound yet (R527). -/
def selectTable (d : Ductus) (f : Handle) (g : Tag) (pos : Nat) : Option RecvTable :=
  let mine := d.tables.filter (fun t => t.folio == f && t.routing == g.routing)
  match mine.find? (fun t => boundTo t g) with
  | some t => if g.dir = 0 ∧ t.final then none else some t
  | none => if g.dir = 0 then mine.find? (fun t => !t.final && !t.bound.any (fun b => b.1 == pos)) else none

/-- Checks 1 to 5 of R211 for a row of DIR 0 or 2 against its table. -/
def rowOk (f : Folio) (r : RoutingEntry) (t : RecvTable) (g : Tag) : Bool :=
  let local_ := f.tables.expertsLocal r
  let cap := f.tables.capacity r
  let row := g.expert % max local_ 1 * cap + g.slot
  g.dstRank == f.rank && g.expert / max local_ 1 == f.tables.posOn r.cut f.coord && decide (g.expert < r.experts) &&
    decide (g.slot < cap) && g.slot / max r.quota 1 == f.tables.posOn r.cut (coordOfRank f.box g.srcRank) &&
    (t.occupied.any (fun o => o.1 == row)) == (g.dir == 2)

/-- The receive table after a part of a row of DIR 0 (R211, R527): the tag and the occupancy bit at the row's last packet. -/
def tableAfter (t : RecvTable) (g : Tag) (w : BitVec 128) (pos row parts : Nat) : RecvTable :=
  let b := bindTable t pos g.srcRank g.srcQuad g.gen
  let n := tallied t.parts row + 1
  if n < parts then { b with parts := raise b.parts row }
  else { b with parts := b.parts.filter (fun p => p.1 != row), occupied := b.occupied ++ [(row, w)] }

/-- The VISITED bit of a local expert set (R219). -/
def setVisited (l : List (Handle × Nat × Nat)) (x : Handle × Nat × Nat) : List (Handle × Nat × Nat) :=
  if l.contains x then l else l ++ [x]

/-- A row of DIR 0 or 2 at the experts' engine. -/
def expertRow (s : State) (o : LongOp) (r : Run) (f : Folio) (re : RoutingEntry) (k : Packet) (g : Tag) (w : BitVec 128) : State :=
  let q := quadN k.dstUnit.toNat
  let pos := f.tables.posOn re.cut (coordOfRank f.box g.srcRank)
  match selectTable s.ductus[q] f.handle g pos, f.tensor (if g.dir = 0 then re.slotIn else re.slotDout) with
  | some t, some x =>
    let row := g.expert % max (f.tables.expertsLocal re) 1 * f.tables.capacity re + g.slot
    let ex := if g.dir = 0 then some t.exch else f.tables.batchExch g.routing t.batch 2
    match ex with
    | none => badRow s k g
    | some ex =>
      if !rowOk f re t g || !partOk k (rowLen x) || !(r.exchRun o.handle ex f.step16).rxOpen then badRow s k g
      else
        let s1 := { s with mem := writeRowPart s.mem x row k }
        let t2 := tableAfter t g w pos row (ceilDiv (rowLen x) 512)
        let s2 := if g.dir = 0 then
            updDuctus s1 q (fun d =>
              { d with tables := updFirst (fun y => y == t) (fun _ => t2) d.tables,
                       visited := if t2.occupied.length = t.occupied.length then d.visited
                         else setVisited d.visited (f.handle, g.routing, g.expert % max (f.tables.expertsLocal re) 1) })
          else s1
        countPacket s2 o.handle f k.stamp ex g.srcRank
  | _, _ => badRow s k g

/-- Whether a returning row's tag agrees with the ledger entry it names (R214). -/
def ledgerOk (g : Generation) (r : RoutingEntry) (t : Tag) : Bool :=
  decide (t.token < r.tokens) && decide (t.kSlot < r.k) &&
    (match g.ledger[t.token * r.k + t.kSlot]? with
      | none => false
      | some l => !l.dropped && l.expert == t.expert && l.slot == t.slot && l.dstRank == t.dstRank)

/-- A row of DIR 1 or 3 at the source engine. -/
def sourceRow (s : State) (o : LongOp) (r : Run) (f : Folio) (re : RoutingEntry) (k : Packet) (t : Tag) (w : BitVec 128) : State :=
  let q := quadN k.dstUnit.toNat
  match s.ductus[q].gens.find? (fun g => g.gen.toNat == t.gen && g.state.isLive) with
  | none => staleReturn s q w
  | some g =>
    match f.tables.batchExch t.routing g.op t.dir, f.tensor (if t.dir = 1 then re.answers else re.returns) with
    | some ex, some x =>
      if g.folio == f.handle && g.routing == t.routing && ledgerOk g re t && partOk k (rowLen x) &&
          (r.exchRun o.handle ex f.step16).rxOpen then
        countPacket { s with mem := writeRowPart s.mem x (t.token * re.k + t.kSlot) k } o.handle f k.stamp ex t.dstRank
      else badRow s k t
    | _, _ => badRow s k t

/-- A packet of a row at its engine: role stamp, then the tag's checks (R186, R208, R211, R214, R225). -/
def routedArrive (s : State) (k : Packet) : State :=
  match runAt s k with
  | none => staleDrop s (packetUnit k) k.stamp
  | some (o, r, f) =>
    let t := tagOf k.body
    match f.tables.routing[t.routing]? with
    | none => if t.dir % 2 = 1 then staleReturn s (quadN k.dstUnit.toNat) k.body else badRow s k t
    | some re =>
      if t.rsvd ≠ 0 then badRow s k t
      else if t.dir % 2 = 0 then expertRow s o r f re k t k.body
      else sourceRow s o r f re k t k.body

/-- The domains that hold the destination of a row, with the engine's own. -/
def rowDomains (s : State) (k : Packet) : List Domain :=
  match runAt s k with
  | none => []
  | some (_, _, f) =>
    let t := tagOf k.body
    match f.tables.routing[t.routing]? with
    | none => []
    | some r =>
      quncoreDomain (k.dstUnit.toNat % 4) ::
        tensorIdxDomains s f (match t.dir with | 0 => r.slotIn | 1 => r.answers | 2 => r.slotDout | _ => r.returns)

/-- ROUTED_DATA (R186, R187, R208, R211, R214, R219, R225, R425, R527). -/
def execRoutedData (i : Nat) (s : State) : Host.Outcome State Fault Refusal :=
  .next (match takeInbox s i 0 5 with
    | none => s
    | some (k, s1) => needing s (rowDomains s k) 4 s (fun _ => routedArrive s1 k))

/-! ### Drain of dead generations (R223, R224) -/

/-- DUCTUS_DRAIN (R224): the marker is held until it may be acknowledged. -/
def execDuctusDrain (i : Nat) (s : State) : Host.Outcome State Fault Refusal :=
  .next (match takeInbox s i 0 7 with
    | none => s
    | some (k, s1) => updDuctus s1 (quadN k.dstUnit.toNat) (fun d => { d with drains := d.drains ++ [{ packet := k }] }))

/-- The generation, source rank and source quadrant of a drain marker (R318, form D). -/
def Packet.gen (k : Packet) : Nat := k.field 135 128
def Packet.routing (k : Packet) : Nat := k.field 151 136
def Packet.srcRank (k : Packet) : Nat := k.field 160 152
def Packet.srcQuad (k : Packet) : Nat := k.field 162 161

/-- Whether a packet carries a generation toward a source: a returning row or the end marker of a return (R224). -/
def carries (k : Packet) (dst : Coord) (gen srcQuad : Nat) : Bool :=
  k.dst == dst &&
    ((k.isOp 0 5 && (tagOf k.body).dir % 2 == 1 && (tagOf k.body).gen == gen && (tagOf k.body).srcQuad == srcQuad) ||
     (k.isOp 0 6 && u8 k.payload 10 % 2 == 1 && u8 k.payload 11 == gen))

/-- Whether the end-to-end acknowledgements from a device cover every packet that carries a generation to it (R224). -/
def returnsAcked (s : State) (dst : Coord) (gen srcQuad : Nat) : Bool :=
  dst == s.router.myCoord ||
    (!(s.router.injectQ.any (fun k => carries k dst gen srcQuad)) &&
      !(s.router.sends.any (fun f => f.unacked.any (fun k => carries k dst gen srcQuad))))

/-- Whether an exchange that carries a generation toward its source is still open here: a receive table is bound to it. A table is
released when its last return closes, and at a CANCEL's safe point (R527). -/
def tableCarries (s : State) (k : Packet) : Bool :=
  s.ductus.toList.any (fun d => d.tables.any (fun t =>
    t.stamp == k.stamp && t.routing == k.routing &&
      t.bound.any (fun b => b.2.1 == k.srcRank && b.2.2.1 == k.srcQuad && b.2.2.2 == k.gen)))

/-- The n-th held marker of all engines in quadrant order. -/
def heldDrain (s : State) (n : Nat) : Option (Quad × Nat × Packet) :=
  (allQuads.flatMap (fun q => s.ductus[q].drains.zipIdx.map (fun d => (q, d.2, d.1.packet))))[n]?

/-- DUCTUS_DRAIN_ACK_RETURN (R224): the acknowledgement of the n-th held marker leaves once its conditions hold. -/
def execDuctusDrainAckReturn (n : Nat) (s : State) : Host.Outcome State Fault Refusal :=
  .next (match heldDrain s n with
    | none => s
    | some (q, i, k) =>
      if s.live && !tableCarries s k && returnsAcked s k.src k.gen k.srcQuad then
        sendBack (updDuctus s q (fun d => { d with drains := removeAt d.drains i })) k.src
          (mkPacket 1 4 k.srcQuad 0 0 k.stamp 0 k.body.toNat [])
      else s)

/-- The acknowledging rank of a dead generation: the device's own, or the rank of its coordinate in the partition whose folio the
generation belongs to. -/
def ackRank (s : State) (folio : Handle) (k : Packet) : Option Nat :=
  (folioOf s folio).bind (fun f => senderRank s f.part f.rank k)

/-- DUCTUS_DRAIN_ACK (R223): checked against the stamp recorded with the generation, which becomes FREE when all have arrived. -/
def execDuctusDrainAck (i : Nat) (s : State) : Host.Outcome State Fault Refusal :=
  .next (match takeInbox s i 1 4 with
    | none => s
    | some (k, s1) =>
      let q := quadN k.dstUnit.toNat
      match s1.ductus[q].gens.find? (fun g => g.gen.toNat == k.gen && g.state == .dead && g.stamp == k.stamp) with
      | none => staleDrop s1 (unitQuad q.val 1) k.stamp
      | some g =>
        match ackRank s1 g.folio k with
        | none => s1
        | some rank =>
          let left := g.drains.filter (fun d => d.1 != rank)
          updDuctus s1 q (fun d =>
            { d with gens := if left.isEmpty then d.gens.filter (fun x => x.gen != g.gen)
                             else updFirst (fun x => x.gen == g.gen) (fun x => { x with drains := left }) d.gens }))

end Sys2Proof.Machine
end

