-- ==== Sys2Proof/Machine/Strokes.lean ====
section
/-! DEFINITION. The stroke sequencers (R164 to R178), open intervals (R60, R179 to R182) and the step record (R27, R252, R254, R262,
R263, R410, R411): STROKE_OPEN, COMPUTE_END, STROKE_CLOSE, DMA_FENCE, STROKE_STALL, STEP_COMPLETE, FILLER_COMMIT,
FILLER_COMMIT_DONE. -/

namespace Sys2Proof.Machine

open Sys2Proof

/-! ### The job of a quadrant -/

/-- The RUN or STEP that occupies a quadrant, with its folio. -/
structure SeqEnv where
  handle : Handle
  long : LongOp
  run : Run
  folio : Folio

/-- The sequencer's job, when the device runs and the job is in no local stop (R480). -/
def seqEnv (s : State) (q : Quad) : Option SeqEnv :=
  match s.seqs[q].owner with
  | none => none
  | some h =>
    match runOf s h with
    | none => none
    | some (o, r) =>
      if !s.live || partStopped s o.part then none
      else (folioOf s r.folio).map (fun f => { handle := h, long := o, run := r, folio := f })

/-- The stall profile entry of a quadrant and cause raised by a wait whose length is a free value (R174). -/
def chargeStall (s : State) (q : Quad) (h : Handle) : State :=
  let c := s.seqs[q].cause
  if c = 0 then s
  else
    let n := Config.freeNat s.fresh
    updRun { s with fresh := s.fresh + 1 } h (fun r =>
      let k : Fin 32 := Fin.ofNat 32 (q.val * 8 + c - 1)
      { r with stalls := r.stalls.set k ((r.stalls[k] + n) % 2 ^ 64) })

/-- The cause that a waiting quadrant is charged to. -/
def setCause (s : State) (q : Quad) (c : Nat) : State := updSeq s q (fun x => { x with cause := c })

/-! ### Opening (R166) -/

/-- The strokes of a step, at least 1. -/
def stepLen (f : Folio) : Nat := max f.tables.strokeCount 1

/-- Operations of a stroke on grids of a quadrant. -/
def quadOps (f : Folio) (q : Quad) (stroke : Nat) : List (Nat × OpEntry) :=
  (f.tables.opsOf stroke).filterMap (fun i =>
    match f.tables.ops[i]? with
    | some o => if f.gridIn o.grid q then some (i, o) else none
    | none => none)

/-- The bands that the compute phase of a stroke uses in a quadrant. -/
def strokeDomains (f : Folio) (q : Quad) (stroke : Nat) : List Domain :=
  quncoreDomain q.val :: bandsOf ((quadOps f q stroke).flatMap (fun e => f.gridClusters e.2.grid))

/-- Whether the RUN has another stroke to open: its steps are not over, and the step before has completed. -/
def hasNext (v : SeqEnv) (opened : Nat) : Bool :=
  decide (opened < (v.run.stepsDone + 1) * stepLen v.folio) &&
    (v.run.stepCount == 0 || decide (v.run.stepsDone < v.run.stepCount)) && !v.run.ckptHold

/-- Whether a checkpoint is due at a folio's present step boundary, or is being copied there (R367, R369). -/
def ckptDue (s : State) (f : Folio) : Bool :=
  s.longs.any (fun o =>
    match o.body with
    | .ckpt k => k.write && k.folio == f.handle && k.step == f.jobStep && (o.state == .queued || (o.state == .running && k.copying))
    | _ => false)

/-- Whether a run stands at a step boundary: no stroke of its next step has opened, and those before have closed. -/
def atStepBoundary (s : State) (h : Handle) (r : Run) (len : Nat) : Bool :=
  r.quads.all (fun q => s.seqs[q].owner != some h ||
    (s.seqs[q].opened == r.stepsDone * len && s.seqs[q].closed == r.stepsDone * len))

/-- The first unmet condition of R166 by its stall cause; 0 when all hold. -/
def openCause (s : State) (q : Quad) (v : SeqEnv) : Nat :=
  let x := s.seqs[q]
  let stroke := nextStroke v.folio x
  if !v.run.quads.all (fun p => decide (x.opened ≤ s.seqs[p].closed + 1)) then 3
  else if (match v.run.stopAfter with | some n => decide (n ≤ x.opened) | none => false) || v.long.state != .running then 4
  else if (quadOps v.folio q stroke).any (fun e => e.2.opcode == 0x0602 && !x.waits.contains e.1) then 5
  else if !(strokeDomains v.folio q stroke).all (domainOn s) then 6
  else 0

/-! ### Filler dispatch (R60, R179, R378) -/

/-- Whether an interval covers this device (R179). -/
def coversDevice (f : Folio) (e : IntervalEntry) : Bool :=
  (List.range e.rankCount).any (fun i => f.rank == e.rankFirst + i * e.rankStride)

/-- The filler folio paired with a folio, whose RUN or STEP is running. -/
def fillerOf (s : State) (h : Handle) : Option Folio :=
  match s.pairings.find? (fun p => p.fill && (p.a == h || p.b == h)) with
  | none => none
  | some p =>
    match folioOf s (if p.a = h then p.b else p.a) with
    | none => none
    | some g =>
      if g.tables.kind = 2 ∧ s.longs.any (fun o => o.state == .running && o.part == g.part &&
          (match o.body with | .run r => r.folio == g.handle | _ => false)) ∧ !partStopped s g.part then some g else none

/-- Whether a unit writes a PAIRED_OUT tensor whose slot is not consumed (R378). -/
def slotBusy (s : State) (g : Folio) (u : FillerEntry) : Bool :=
  s.pairings.any (fun p => p.streams.any (fun y =>
    y.sender == g.handle && decide (y.consumed + 2 ≤ y.published) &&
      (match g.tables.exchs[y.sendExch]? with
        | none => false
        | some e => (List.range u.opCount).any (fun i =>
            match g.tables.ops[u.opFirst + i]? with | some o => o.outputs.contains e.src | none => false))))

/-- Whether a unit fits an interval with the compute cycles that remain (R60). -/
def unitFits (s : State) (f g : Folio) (i : Nat) (left : Nat) (u : Nat) : Bool :=
  match g.tables.filler[u]?, f.tables.intervals[i]? with
  | some e, some v =>
    (match f.tables.grids[v.grid]? with | some gr => decide (e.width ≤ gr.width) && decide (e.height ≤ gr.height) | none => false) &&
      decide (e.sram ≤ v.sram) && decide (g.unitCycles.getD u 0 ≤ left) && !slotBusy s g e
  | _, _ => false

/-- The dispatch at the opening of a stroke inside an interval. After the interval's first stroke the cycles that remain are a free
value up to the whole (log entry 3). -/
def dispatchUnit (s : State) (h : Handle) (f : Folio) (i : Nat) (first : Bool) : State :=
  if s.fillers.any (fun x => x.owner == h && x.interval == i) then s
  else
    match fillerOf s f.handle with
    | none => s
    | some g =>
      let all := f.intervalCycles.getD i 0
      let left := if first then all else min all (Config.freeNat s.fresh)
      match ((g.units.zipIdx).filter (fun u => u.1 == .pending)).head? with
      | none => s
      | some u =>
        if unitFits s f g i left u.2 then
          let s1 := setUnit (zeroLent { s with fresh := s.fresh + 1 } h i) g.handle u.2 .running
          let x : FillerRun := { owner := h, interval := i, folio := g.handle, unit := u.2, staging := [], opsDone := [], committing := false }
          { s1 with fillers := s1.fillers ++ [x] }
        else { s with fresh := s.fresh + 1 }

/-- Intervals with grids in a quadrant, that cover this device and that a test accepts. -/
def quadIntervals (f : Folio) (q : Quad) (test : IntervalEntry → Bool) : List (Nat × IntervalEntry) :=
  (f.tables.intervals.zipIdx.filter (fun e => f.gridIn e.1.grid q && coversDevice f e.1 && test e.1)).map (fun e => (e.2, e.1))

/-- Filler units dispatched at the opening of a stroke in a quadrant. -/
def dispatchFiller (s : State) (h : Handle) (f : Folio) (q : Quad) (stroke : Nat) : State :=
  (quadIntervals f q (fun e => decide (e.first ≤ stroke) && decide (stroke ≤ e.last))).foldl (fun s e =>
    dispatchUnit s h f e.1 (e.2.first == stroke)) s

/-! ### STROKE_OPEN -/

/-- What the opening of stroke 0 of a step does at a quadrant: TIME_START at the first, VISITED bits cleared (R219, R411). -/
def openStep (s : State) (q : Quad) (v : SeqEnv) : State :=
  let first := v.run.quads.all (fun p => p == q || decide (s.seqs[p].opened < s.seqs[q].opened))
  let s1 := if first then updRun s v.handle (fun r => { r with timeStart := s.timeBase }) else s
  updDuctus s1 q (fun d => { d with visited := d.visited.filter (fun x => x.1 != v.folio.handle) })

/-- The exchanges that a stroke issues, opened as far as its quadrants have opened it. -/
def openExchanges (s : State) (v : SeqEnv) (n stroke : Nat) : State :=
  (v.folio.tables.exchsOf stroke).foldl (fun s x =>
    let s1 := openExch s v.long.part v.handle v.folio n x
    match v.folio.tables.exchs[x]?, runOf s1 v.handle with
    | some e, some (_, r) =>
      if e.kind = 3 ∧ (r.exchRun v.handle x v.folio.step16).txOpen then issueBucket s1 v.folio x
      else if e.kind = 4 then askGathers s1 v.handle x
      else s1
    | _, _ => s1) s

/-- A stroke opened in a quadrant, whose conditions hold. -/
def openStrokeIn (s : State) (q : Quad) (v : SeqEnv) : State :=
  let stroke := nextStroke v.folio s.seqs[q]
  let s1 := updSeq (chargeStall s q v.handle) q (fun x =>
    { x with state := .compute, opened := x.opened + 1, opsDone := [], fences := [], waits := [], fence := none, cause := 0,
             attempted := [] })
  let s2 := if stroke = 0 then openStep s1 q v else s1
  let s3 := endWait s2 ((quadOps v.folio q stroke).flatMap (fun e => v.folio.gridClusters e.2.grid))
  dispatchFiller (openExchanges s3 v s1.seqs[q].opened stroke) v.handle v.folio q stroke

/-- STROKE_OPEN (R60, R165, R166, R168, R169, R179): a quadrant that may not open yet is charged to the first unmet condition, and
domains that the stroke needs are demanded (R425). -/
def execStrokeOpen (q : Quad) (s : State) : Host.Outcome State Fault Refusal :=
  .next (match seqEnv s q with
    | none => s
    | some v =>
      if s.seqs[q].state != .opening || !hasNext v s.seqs[q].opened ||
          (ckptDue s v.folio && atStepBoundary s v.handle v.run (stepLen v.folio)) then s
      else
        let c := openCause s q v
        if c = 0 then openStrokeIn s q v
        else if c = 6 then
          (strokeDomains v.folio q (nextStroke v.folio s.seqs[q])).foldl (fun s d => demand s d 2) (setCause s q 6)
        else setCause s q c)

/-! ### COMPUTE_END -/

/-- The stroke that a quadrant has open. -/
def strokeOf (f : Folio) (x : Sequencer) : Nat := (x.opened - 1) % stepLen f

/-- Whether every operation of the compute phase has run. -/
def phaseDone (s : State) (q : Quad) (f : Folio) : Bool :=
  (quadOps f q (strokeOf f s.seqs[q])).all (fun e => outsideCompute e.2.opcode || s.seqs[q].opsDone.contains e.1)

/-- COMPUTE_END (R165): the last schedule cycle has issued. -/
def execComputeEnd (q : Quad) (s : State) : Host.Outcome State Fault Refusal :=
  .next (match seqEnv s q with
    | none => s
    | some v =>
      if s.seqs[q].state == .compute && phaseDone s q v.folio then updSeq s q (fun x => { x with state := .closing, cause := 0 }) else s)

/-! ### Closure conditions (R167, R246, R526) -/

/-- Whether a BUCKET exchange's instance is delivered: its slot says so, or it has been done. -/
def bucketDelivered (s : State) (v : SeqEnv) (x : Nat) : Bool :=
  match (instanceList v.folio.tables).find? (fun y => y.2.2 == x) with
  | none => true
  | some y =>
    let e := bucketEngine v.folio.tables y.1 y.2.1
    match s.ligature[e].slots.find? (fun i =>
        i.folio == v.folio.handle && i.tag.toNat == y.1 && i.phase == (y.2.1 == 1) && i.step == v.folio.jobStep && i.state != .dead) with
    | some i => i.state == .delivered
    | none =>
      match s.ligature[e].nextOpen.find? (fun z => z.1 == v.handle),
          indexOf? (fun (z : Nat × (Nat × Nat × Nat)) => z.2.2.2 == x) (engineList v.folio.tables e.val) with
      | some z, some n =>
        let off := v.folio.jobStep - v.run.firstStep
        decide (off < z.2.1) || (z.2.1 == off && decide (n < z.2.2))
      | _, _ => false

/-- Whether an exchange has met its count at this device (R167, R170, R246, R260). -/
def countMet (s : State) (v : SeqEnv) (x : Nat) (e : ExchEntry) : Bool :=
  if e.kind = 3 then bucketDelivered s v x && bucketServed v.folio e.ref
  else decide (exchExpected v.folio e ≤ (v.run.exchRun v.handle x v.folio.step16).count)

/-- Whether an exchange has read its last source byte (R167, R246, R260). -/
def sourceRead (v : SeqEnv) (x : Nat) (e : ExchEntry) : Bool :=
  if e.kind = 4 then gatherDrained v.folio x
  else (e.kind == 5 && e.src == noneIdx) || (v.run.exchRun v.handle x v.folio.step16).drained

/-- Exchanges whose arrivals hold a quadrant's closure of a stroke. -/
def shortExch (s : State) (q : Quad) (v : SeqEnv) (stroke : Nat) : Option Nat :=
  (v.folio.tables.exchs.zipIdx.find? (fun e =>
    e.1.close == stroke && (exchDstQuads v.folio e.1).contains q && !countMet s v e.2 e.1)).map (fun e => e.2)

/-- Exchanges whose sources hold a quadrant's closure of a stroke. -/
def undrainedExch (q : Quad) (v : SeqEnv) (stroke : Nat) : Option Nat :=
  (v.folio.tables.exchs.zipIdx.find? (fun e =>
    decide (e.1.close ≤ stroke) && (exchSrcQuads v.folio e.1).contains q && !sourceRead v e.2 e.1)).map (fun e => e.2)

/-- The first unmet condition of R167 by its stall cause, with its exchange; a paired operation that has not run holds the closure as
R378 says. -/
def closeCause (s : State) (q : Quad) (v : SeqEnv) : Nat × Nat :=
  let stroke := strokeOf v.folio s.seqs[q]
  let waits := fun (code : Nat) => (quadOps v.folio q stroke).any (fun e => e.2.opcode == code && !s.seqs[q].opsDone.contains e.1)
  match shortExch s q v stroke with
  | some x => (1, x)
  | none =>
    if waits 0x0507 then (1, noneIdx)
    else
      match undrainedExch q v stroke with
      | some x => (2, x)
      | none => if waits 0x0506 then (2, noneIdx) else (0, noneIdx)

/-! ### What a closure does -/

/-- Exchanges that close with a stroke at their receiving quadrants, all of which have closed it: counters cleared (R168, R170). -/
def closeExchanges (s : State) (v : SeqEnv) (stroke n : Nat) : State :=
  (v.folio.tables.exchs.zipIdx).foldl (fun s e =>
    if e.1.close = stroke ∧ (exchDstQuads v.folio e.1).all (fun q => decide (n ≤ s.seqs[q].closed)) then
      updExch s v.handle e.2 v.folio.step16 (fun y => { y with rxOpen := false, count := 0 })
    else s) s

/-- Batches and receive tables at the closure of a dispatch or return in a quadrant (R220, R527). -/
def closeBatch (s : State) (q : Quad) (v : SeqEnv) (x : Nat) (e : ExchEntry) : State :=
  match v.folio.tables.routing[e.ref]?, v.folio.tables.exchBatch x with
  | some r, some b =>
    let dir := e.dir r
    let s1 := if v.folio.gridQuad r.sourceGrid = q then
        match batchGen s.ductus[q] v.folio.handle e.ref b with
        | none => s
        | some g =>
          if dir = 0 then updGen s q g.gen (fun g => { g with state := .awaitAnswers })
          else if dir = 2 then updGen s q g.gen (fun g => { g with state := .awaitReturns })
          else s
      else s
    if v.folio.gridQuad r.expertGrid = q then
      updDuctus s1 q (fun d =>
        { d with tables :=
            if dir = 0 then d.tables.map (fun t => if t.folio == v.folio.handle && t.routing == e.ref && t.batch == b then { t with final := true } else t)
            else if dir = 3 ∨ (dir = 1 ∧ v.folio.tables.kind ≠ 0) then
              d.tables.filter (fun t => !(t.folio == v.folio.handle && t.routing == e.ref && t.batch == b))
            else d.tables })
    else s1
  | _, _ => s

/-- Routed exchanges that close with a stroke. -/
def closeBatches (s : State) (q : Quad) (v : SeqEnv) (stroke : Nat) : State :=
  (v.folio.tables.exchs.zipIdx.filter (fun e => e.1.close == stroke && (e.1.kind == 1 || e.1.kind == 2))).foldl (fun s e =>
    closeBatch s q v e.2 e.1) s

/-- The reservoir copy of a DEBUG folio: its values are free (R130). -/
def copyReservoirs (s : State) (q : Quad) (f : Folio) : State :=
  if !bit f.tables.flags 1 then s
  else
    let cores := (List.range f.tables.grids.length).flatMap (fun g =>
      if f.gridIn g q then (f.gridClusters g).flatMap (fun c => (List.range 16).map (fun k => c * 16 + k)) else [])
    { s with fresh := s.fresh + 1,
             reservoirs := cores.map (fun c => (c, s.fresh)) ++ s.reservoirs.filter (fun r => !cores.contains r.1) }

/-- Bands in which a core executed WAIT during the stroke but that made no attempt record a refusal (R424). -/
def closeBands (s : State) (q : Quad) (f : Folio) (stroke : Nat) : State :=
  let cs := (quadOps f q stroke).flatMap (fun e =>
    if e.2.opcode == 0x0701 && decide (0 < fnOf f e.2 % 4) && s.seqs[q].opsDone.contains e.1 then f.gridClusters e.2.grid else [])
  ((cs.map bandOfCluster).dedup).foldl (fun s b =>
    if s.seqs[q].attempted.contains b || !domainOn s (bandDomain b) then s
    else
      match (bandClusters b).find? (fun c => !unowned s c && waitDepth s c == 0) with
      | some c => refuse s (bandDomain b) 0x01 c
      | none => s) s

/-- Units whose interval ends with this closure and whose schedule is not complete are pre-empted (R182). -/
def closeIntervals (s : State) (q : Quad) (v : SeqEnv) (stroke : Nat) : State :=
  (quadIntervals v.folio q (fun e => e.last == stroke)).foldl (fun s e =>
    preemptAll s (fun x => x.owner == v.handle && x.interval == e.1)) s

/-- The device stroke boundary after stroke n of a RUN: RETIRING batches become FREE, units of a filler job that is suspended or
cancelled are pre-empted, and a safe point may be reached (R177, R182, R220). -/
def deviceBoundary (s : State) (v : SeqEnv) (n : Nat) : State :=
  let s1 := v.run.quads.foldl (fun s q =>
    if s.seqs[q].opened = n then
      updDuctus s q (fun d => { d with gens := d.gens.filter (fun g => !(g.folio == v.folio.handle && g.state == .retiring)) })
    else s) s
  preemptAll s1 (fun x => x.owner == v.handle && (fillerOf s1 v.folio.handle).isNone)

/-- A stroke closed in a quadrant, whose conditions hold. -/
def closeStrokeIn (s : State) (q : Quad) (v : SeqEnv) : State :=
  let stroke := strokeOf v.folio s.seqs[q]
  let s1 := closeBands (copyReservoirs (chargeStall s q v.handle) q v.folio) q v.folio stroke
  let s2 := updSeq s1 q (fun x => { x with state := .opening, closed := x.closed + 1, cause := 0 })
  let n := s2.seqs[q].closed
  let s3 := closeIntervals (closeBatches (closeExchanges s2 v stroke n) q v stroke) q v stroke
  let s4 := if v.run.quads.all (fun p => decide (n ≤ s3.seqs[p].closed)) then deviceBoundary s3 v n else s3
  reachSafePoint s4 v.handle

/-- STROKE_CLOSE (R130, R167, R170, R177, R178, R182, R220). -/
def execStrokeClose (q : Quad) (s : State) : Host.Outcome State Fault Refusal :=
  .next (match seqEnv s q with
    | none => s
    | some v =>
      if s.seqs[q].state != .closing then s
      else
        let c := (closeCause s q v).1
        if c = 0 then closeStrokeIn s q v else setCause s q c)

/-! ### DMA_FENCE (R173) -/

/-- The operation whose fence flag is set next: the one that a STALLED quadrant waits for, or the first that reads HBM and has not
run. -/
def nextFence (s : State) (q : Quad) (f : Folio) : Option (Nat × OpEntry) :=
  let x := s.seqs[q]
  match x.fence with
  | some i => (f.tables.ops[i]?).map (fun o => (i, o))
  | none =>
    (sortBy (fun a b => decide (a.2.order < b.2.order)) (quadOps f q (strokeOf f x))).find? (fun e =>
      (opReads f e.2).any (fun t => t.entry.inHbm) && !x.fences.contains e.1 && !x.opsDone.contains e.1)

/-- DMA_FENCE (R173): the flag is set, and a quadrant that waits for it goes on. -/
def execDmaFence (q : Quad) (s : State) : Host.Outcome State Fault Refusal :=
  .next (match seqEnv s q with
    | none => s
    | some v =>
      if s.seqs[q].state != .compute && s.seqs[q].state != .stalled then s
      else
        match nextFence s q v.folio with
        | none => s
        | some (i, o) =>
          needing s ((opReads v.folio o).flatMap (fun t => if t.entry.inHbm then tensorDomains s v.folio t else [])) 4 s (fun s =>
            let s1 := if s.seqs[q].state = .stalled then chargeStall s q v.handle else s
            updSeq s1 q (fun x => { x with state := .compute, fences := i :: x.fences, fence := none, cause := 0 })))

/-! ### STROKE_STALL (R175) -/

/-- The exchange that a stalled closure waits for, or 0xFFFF_FFFF. -/
def stallExch (s : State) (q : Quad) (v : SeqEnv) : Nat :=
  if s.seqs[q].state = .closing then (closeCause s q v).2 else noneIdx

/-- The stroke of a stalled quadrant: the one it opens or has open. -/
def stallStroke (s : State) (q : Quad) (v : SeqEnv) : Nat :=
  if s.seqs[q].state = .opening ∨ s.seqs[q].state = .held then nextStroke v.folio s.seqs[q] else strokeOf v.folio s.seqs[q]

/-- STROKE_STALL (R175, R351, R414): the record and event, and the message to the fabric manager. -/
def execStrokeStall (q : Quad) (s : State) : Host.Outcome State Fault Refusal :=
  .next (match seqEnv s q with
    | none => s
    | some v =>
      let c := s.seqs[q].cause
      if c = 0 then s
      else
        let x := stallExch s q v
        let k := stallStroke s q v
        let stamp := partStamp s v.long.part
        fmMessage (hostEvent s [v.long.part] 1 (unitQuad q.val 4) stamp (k + x * 2 ^ 32) c) 6
          (le 4 stamp.toNat ++ le 4 k ++ le 1 c ++ zeros 3 ++ le 4 x))

/-! ### The step record (R252, R254, R262, R263, R411) -/

/-- A wide sum as a double-FP32 pair (R262). -/
def pairBytes (v : XVal) : Bytes :=
  let hi := rn v
  let lo := if hi.isFinite then rn (XVal.sub .nearest v hi) else .zero false
  le 4 (fp32Bits hi).toNat ++ le 4 (fp32Bits (if lo.isZero then .zero false else lo)).toNat

/-- A sum of squares of a run. -/
def margSum (r : Run) (layer what : Nat) : XVal :=
  match r.marg.find? (fun e => e.1 == layer && e.2.1 == what) with | some e => e.2.2 | none => .zero false

/-- The Ligature block (R263). -/
def ligatureBlock (f : Folio) (r : Run) : Bytes :=
  let tags := margTags f.tables
  let skips := sortBy (fun a b => decide (a.1.toNat < b.1.toNat) || (a.1 == b.1 && !a.2.1 && b.2.1)) r.skips
  let unv := sortBy (fun a b => decide (a.1 < b.1) || (a.1 == b.1 && decide (a.2 < b.2))) r.unvisited.dedup
  padTo 64 (le 4 tags.length ++ le 4 skips.length ++ le 4 unv.length ++ le 4 r.instancesDone ++ le 8 f.jobStep ++ zeros 8 ++
    tags.flatMap (fun t => le 2 t ++ zeros 6 ++ pairBytes (margSum r t 0) ++ pairBytes (margSum r t 1) ++ pairBytes (margSum r t 2)) ++
    skips.flatMap (fun k => le 4 k.1.toNat ++ le 1 (if k.2.1 then 1 else 0) ++ zeros 1 ++ le 2 k.2.2.1 ++ bitmapBytes k.2.2.2) ++
    unv.flatMap (fun u => le 2 u.1 ++ le 2 u.2))

/-- The step record (R411). -/
def stepRecord (s : State) (p : Part) (f : Folio) (r : Run) : Bytes :=
  let block := ligatureBlock f r
  let flags := (if r.skips.isEmpty then 0 else 1) + (if r.unvisited.isEmpty then 0 else 2)
  le 4 0x52535A53 ++ le 2 1 ++ le 2 flags ++ le 4 (0x180 + block.length) ++ zeros 4 ++ le 8 f.jobStep ++ le 8 r.timeStart ++
    le 8 s.timeBase ++ le 4 (partStamp s p).toNat ++ le 4 f.handle.toNat ++ zeros 16 ++ r.counters.toList.flatMap (le 4) ++
    r.stalls.toList.flatMap (le 8) ++ block

/-! ### STEP_COMPLETE (R27, R247, R410) -/

/-- The UPDATE operations of a step. -/
def updateOps (t : Tables) : List Nat := (t.ops.zipIdx.filter (fun o => o.1.opcode == 0x0403)).map (fun o => o.2)

/-- Whether a step is complete at this device: its last stroke has closed, every instance is done, and every UPDATE has applied. -/
def stepDone (s : State) (f : Folio) (r : Run) : Bool :=
  decide (0 < f.tables.strokeCount) && r.quads.all (fun q => decide ((r.stepsDone + 1) * stepLen f ≤ s.seqs[q].closed)) &&
    !r.quads.isEmpty && r.instancesDone == (instanceList f.tables).length && (updateOps f.tables).all r.updates.contains

/-- A run ready for its next step. -/
def nextStep (r : Run) : Run :=
  { r with stepsDone := r.stepsDone + 1, counters := Vector.replicate 16 0, stalls := Vector.replicate 32 0, marg := [], skips := [],
           unvisited := [], instancesDone := 0, updates := [], leafWritten := [], exchs := [],
           lastDone := r.stepCount != 0 && r.stepCount == r.stepsDone + 1 }

/-- The folio after a completed step (R97, R260). -/
def Folio.nextStep (f : Folio) : Folio :=
  { f with jobStep := (f.jobStep + 1) % 2 ^ 64, gatherServed := f.gatherServed.filter (fun e => e.1.2 / 512 != f.step16) }

/-- The record of a step of a RUN: to its slot, or held while the slot is not free (R410). -/
def giveRecord (s : State) (h : Handle) (r : Run) (bytes : Bytes) (status d0 : Nat) : State :=
  let slot := r.stepsDone % max r.slots 1
  if r.busySlots.contains slot || !r.heldRecords.isEmpty then
    let s1 := updRun s h (fun r => { r with heldRecords := r.heldRecords ++ [(slot, bytes, status, d0)], backlogStop := true })
    reachSafePoint (stopAtNext s1 h) h
  else writeStepRecord s h slot bytes status d0

/-- STEP_COMPLETE (R27, R97, R247, R252, R254, R261 to R263, R410, R411). -/
def execStepComplete (h : Handle) (s : State) : Host.Outcome State Fault Refusal :=
  .next (match runOf s h with
    | none => s
    | some (o, r) =>
      match folioOf s r.folio with
      | none => s
      | some f =>
        if !s.live || partStopped s o.part || (o.state != .running && o.state != .suspended) || !stepDone s f r then s
        else
          let bytes := stepRecord s o.part f r
          let status := if r.skips.isEmpty then 0 else 3
          let d0 := f.jobStep % 2 ^ 32
          let s1 := updFolio (updRun s h nextStep) f.handle Folio.nextStep
          if o.opcode = 0x23 then
            let s2 := updHost s1 s.parts[o.part].port (fun m => m.writeBytes r.recBase bytes)
            endLong (updLong s2 h (fun o => { o with doneUnits := 1 })) h .done status 0 d0 0
          else endIfLast (giveRecord s1 h r bytes status d0) h)

/-! ### Filler commits (R181) -/

/-- The running unit of a partition's filler job whose schedule is complete. -/
def readyUnit (s : State) (p : Part) : Option (FillerRun × Folio) :=
  s.fillers.findSome? (fun x =>
    match folioOf s x.folio with
    | none => none
    | some f =>
      match f.tables.filler[x.unit]? with
      | none => none
      | some u =>
        if f.part == p && !x.committing && ownerComputes s x && (List.range u.opCount).all (fun i => x.opsDone.contains (u.opFirst + i)) then
          some (x, f)
        else none)

/-- FILLER_COMMIT (R181): the copy begins, and the outputs are undefined until it has finished. -/
def execFillerCommit (p : Part) (s : State) : Host.Outcome State Fault Refusal :=
  .next (if !s.live || partStopped s p then s
    else
      match readyUnit s p with
      | none => s
      | some (x, f) =>
        let s1 := x.staging.foldl (fun s e =>
          match f.tensor e.1 with
          | some t => undefineRange s t.base (t.base + t.entry.size)
          | none => s) s
        setUnit { s1 with fillers := s1.fillers.map (fun y => if y == x then { y with committing := true } else y) } x.folio x.unit .committing)

/-- The streams that a unit publishes: those of the PAIRED_OUT tensors it has written (R378). -/
def publishUnit (s : State) (f : Folio) (x : FillerRun) : State :=
  x.staging.foldl (fun s e =>
    match s.pairings.findSome? (fun p => (p.streams.find? (fun y =>
        y.sender == f.handle && (match f.tables.exchs[y.sendExch]? with | some k => k.src == e.1 | none => false))).map (fun y => (p, y))) with
    | none => s
    | some (p, y) => updStream s p.a p.b y.id (fun y => publish y e.2)) s

/-- FILLER_COMMIT_DONE (R150, R181, R378): the outputs are written, the unit is complete, and its tenancy ends. -/
def execFillerCommitDone (p : Part) (s : State) : Host.Outcome State Fault Refusal :=
  .next (match s.fillers.findSome? (fun x =>
      match folioOf s x.folio with
      | some f => if x.committing && f.part == p then some (x, f) else none
      | none => none) with
    | none => s
    | some (x, f) =>
      if !s.live then s
      else
        let s1 := updMem s (fun m => x.staging.foldl (fun m e =>
          match f.tensor e.1 with
          | some t => m.store t.base e.2
          | none => m) m)
        let s2 := setUnit (zeroLent (publishUnit s1 f x) x.owner x.interval) x.folio x.unit .complete
        { s2 with fillers := s2.fillers.filter (fun y => y != x) })

end Sys2Proof.Machine
end

