-- ==== Sys2Proof/Machine/Checkpoint.lean ====
section
/-! DEFINITION. Checkpoints (R366 to R373): CHECKPOINT_WRITE and CHECKPOINT_READ, the hold at the boundary and the snapshot copy, the drain
to a host buffer or a buddy, and the messages of R371. -/

namespace Sys2Proof.Machine

open Sys2Proof

/-! ### Names -/

/-- The checkpoint with a handle. -/
def ckptOf (s : State) (h : Handle) : Option (LongOp × CkptOp) :=
  match longOf s h with
  | none => none
  | some o =>
    match o.body with
    | .ckpt k => some (o, k)
    | _ => none

/-- A checkpoint's record changed. -/
def updCkpt (s : State) (h : Handle) (f : CkptOp → CkptOp) : State :=
  updLong s h (fun o =>
    match o.body with
    | .ckpt k => { o with body := .ckpt (f k) }
    | _ => o)

/-- The rank of the device at an offset along a cut from this one, with wraparound (R367). -/
def rankAtOffset (f : Folio) (cut : Nat) (off : Int) : Nat :=
  match f.tables.cut? cut with
  | none => f.rank
  | some c => rankOf f.box (coordAtPos c f.coord (((cutPos c f.coord : Int) + off) % ((max c.size 1 : Nat) : Int)).toNat)

/-- Whether a cut index names a data cut. -/
def isDataCut (f : Folio) (cut : Nat) : Bool := match f.tables.cut? cut with | some c => c.kind == 3 | none => false

/-- Payloads of 512 bytes in a window of 256 KiB (R371). -/
def ckptWindow : Nat := 512

/-- A message of R371 on engine 7. -/
def ckptMessage (stamp : Stamp) (msg phase step number shard : Nat) (payload : Bytes) : Packet :=
  { mkPacket 2 1 4 0 0 stamp 0 (bodyC { msg := msg, tag := number % 2 ^ 32, phase := phase, step := step, shard := shard, lo := 0, hi := 0,
                                         seg := number / 2 ^ 32, form := 0 }) payload with engine := 7 }

/-- The payload number of a CKPT_DATA message. -/
def Packet.ckptNumber (k : Packet) : Nat := k.coll.tag + k.coll.seg * 2 ^ 32

/-- Payloads of an image, and payload n of it. -/
def imagePayloads (img : Bytes) : Nat := ceilDiv img.length 512
def imagePayload (img : Bytes) (n : Nat) : Bytes := (img.drop (512 * n)).take 512

/-- Payloads by number put together, when none is missing. -/
def assemble (l : List (Nat × Bytes)) : Bytes := (sortBy (fun a b => decide (a.1 < b.1)) l).flatMap (fun e => e.2)

/-- A payload kept by its number. -/
def keepPayload (l : List (Nat × Bytes)) (k : Packet) : List (Nat × Bytes) := (k.ckptNumber, k.payload) :: l.filter (fun e => e.1 != k.ckptNumber)

/-! ### CHECKPOINT_WRITE -/

/-- The live RUN or STEP of a folio: one that has begun and has not ended. -/
def liveRunOf (s : State) (folio : Handle) : Option (LongOp × Run) :=
  s.longs.findSome? (fun o =>
    match o.body with
    | .run r => if r.folio == folio && o.began && !o.state.isOver then some (o, r) else none
    | _ => none)

/-- Whether the boundary at which a folio's job step number has its present value is still to come or is now. -/
def atBoundaryNow (s : State) (f : Folio) : Bool :=
  match liveRunOf s f.handle with
  | none => true
  | some (o, r) => atStepBoundary s o.handle r (stepLen f)

/-- Whether a TARGET_STEP has passed (R367). -/
def stepPassed (s : State) (f : Folio) (step : Nat) : Bool := decide (step < f.jobStep) || (step == f.jobStep && !atBoundaryNow s f)

/-- Whether the partition has a CHECKPOINT_WRITE queued or running. -/
def writeInFlight (s : State) (p : Part) : Bool :=
  s.longs.any (fun o => o.part == p && !o.state.isOver &&
    (match o.body with
      | .ckpt k => k.write
      | _ => false))

/-- The checkpoint that a descriptor asks for (R394). -/
def newCkpt (f : Folio) (d : Bytes) (write : Bool) : CkptOp :=
  { folio := f.handle, write := write, kind := u8 d 12, cut := u8 d 13, offset := sN d 16 4, step := u64 d 24, hostAddr := u64 d 32,
    hostLen := u64 d 40, copying := false, draining := false, nextPayload := 0, credit := 0, endSent := false, got := [], writing := false }

/-- The areas that a folio's first CHECKPOINT_WRITE allocates: a snapshot and two buddy images (R370). -/
def ckptAreas (f : Folio) : Nat := 3 * roundUp (ckptSize f) 64

/-- Whether the carve-out has room for them, or they are there. -/
def ckptRoom (s : State) (f : Folio) : Bool :=
  f.ckptBytes != 0 || decide (carveUsed s f.part + ckptAreas f ≤ carveBytes s f.part)

/-- The buddy store made ready for an image of TARGET_STEP from the device whose buddy this one is; another source's image is dropped. -/
def armStore (f : Folio) (d : Bytes) : BuddyStore :=
  let src := rankAtOffset f (u8 d 13) (-(sN d 16 4))
  match f.buddy with
  | some b => if b.srcRank = src then { b with incoming := [], armed := some (u64 d 24) } else ⟨src, none, 0, [], some (u64 d 24)⟩
  | none => ⟨src, none, 0, [], some (u64 d 24)⟩

/-- A CHECKPOINT_WRITE that passes its checks: the areas are allocated, and a buddy grants its source credit (R370, R371). -/
def admitWrite (s : State) (c : Cmd) (f : Folio) : State :=
  let d := c.desc
  let s1 := updFolio s f.handle (fun f =>
    { f with ckptBytes := ckptAreas f, buddy := if u8 d 12 = 1 then some (armStore f d) else f.buddy })
  let s2 := (admitLong s1 c (ckptSize f) (.ckpt (newCkpt f d true))).2
  if u8 d 12 = 1 then
    sendToRank s2 f.part f.rank (rankAtOffset f (u8 d 13) (-(sN d 16 4)))
      (ckptMessage (partStamp s f.part) 10 0 (u64 d 24) 0 f.rank (le 4 ckptWindow))
  else s2

/-- CHECKPOINT_WRITE (R367, R370, R394). -/
def execCheckpointWrite (p : Part) (q : Fin 16) (s : State) : Host.Outcome State Fault Refusal :=
  .next (match startable s p q 0x40 with
    | none => s
    | some c =>
      let s1 := begun s c.uid
      match folioRef s p (descHandle c.desc 8) with
      | .bad st => finish s1 c.uid st 0 0 0
      | .ok f =>
        let kind := u8 c.desc 12
        if kind = 2 && decide (u64 c.desc 40 < ckptSize f) then finish s1 c.uid 0x10 3 0 0
        else if stepPassed s f (u64 c.desc 24) || (kind == 1 && !isDataCut f (u8 c.desc 13)) || writeInFlight s p then finish s1 c.uid 0x12 0 0 0
        else if !ckptRoom s f then finish s1 c.uid 0x13 0 0 0
        else admitWrite s c f)

/-! ### The boundary and the copy (R369) -/

/-- Whether every roaming thread of a folio's job is IDLE. -/
def threadsIdle (s : State) (f : Folio) : Bool := !s.threads.any (fun t => t.ofFolio f.handle && t.state != .idle)

/-- Whether a queued checkpoint may take its image now. -/
def ckptReady (s : State) (o : LongOp) (k : CkptOp) (f : Folio) : Bool :=
  s.live && k.write && o.state == .queued && !partStopped s o.part && k.step == f.jobStep && atBoundaryNow s f && threadsIdle s f

/-- The job held and its image taken (R368, R369). -/
def takeImage (s : State) (o : LongOp) (f : Folio) : State :=
  let img := ckptImage s f
  let s1 := updCkpt (updLong s o.handle (fun o => { o with state := .running, began := true })) o.handle (fun k => { k with copying := true })
  let s2 := updFolio s1 f.handle (fun f => { f with snapshot := some { copying := true, step := f.jobStep, image := img } })
  match liveRunOf s f.handle with
  | some (ro, _) => if ro.state = .running || ro.state = .cancelling then updRun s2 ro.handle (fun r => { r with ckptHold := true }) else s2
  | none => s2

/-- CHECKPOINT_BOUNDARY (R367 to R369). -/
def execCheckpointBoundary (h : Handle) (s : State) : Host.Outcome State Fault Refusal :=
  .next (match ckptOf s h with
    | none => s
    | some (o, k) =>
      match folioOf s k.folio with
      | none => s
      | some f => if ckptReady s o k f then takeImage s o f else s)

/-- The first carried tensor with a poisoned line (R477). -/
def ckptPoison (s : State) (f : Folio) : Option Nat :=
  (f.carried.find? (fun i => s.mem.poisoned (f.tensorAt.getD i 0) (carriedBytes f i))).map
    (fun i => poisonAt s.mem (f.tensorAt.getD i 0) (carriedBytes f i))

/-- Payloads of the snapshot that the credit allows sent to the buddy, then CKPT_END (R371). Fuel bounds the payloads. -/
def drainFuel : Nat → State → Handle → State
  | 0, s, _ => s
  | n + 1, s, h =>
    match ckptOf s h with
    | none => s
    | some (o, k) =>
      match folioOf s k.folio with
      | none => s
      | some f =>
        let img := match f.snapshot with | some x => x.image | none => []
        let dst := rankAtOffset f k.cut k.offset
        let stamp := partStamp s o.part
        if !k.draining || k.endSent then s
        else if imagePayloads img ≤ k.nextPayload then
          sendToRank (updCkpt s h (fun k => { k with endSent := true })) o.part f.rank dst
            (ckptMessage stamp 11 0 k.step 0 f.rank (le 8 img.length ++ slice img 0x70 64))
        else if k.credit = 0 then s
        else
          let s1 := updCkpt s h (fun k => { k with nextPayload := k.nextPayload + 1, credit := k.credit - 1 })
          let s2 := updLong s1 h (fun o => { o with doneUnits := min img.length (512 * (k.nextPayload + 1)) })
          drainFuel n (sendToRank s2 o.part f.rank dst (ckptMessage stamp 9 0 k.step k.nextPayload f.rank (imagePayload img k.nextPayload))) h

/-- As much of the drain as the credit allows. -/
def drainBuddy (s : State) (h : Handle) : State :=
  match ckptOf s h with
  | none => s
  | some (_, k) => drainFuel (k.credit + 2) s h

/-- The copy ends: the snapshot is whole, the job goes on, and the drain begins; LOCAL completes (R369, R372). -/
def copyEnds (s : State) (o : LongOp) (k : CkptOp) : State :=
  let s1 := updFolio s k.folio (fun f => { f with snapshot := f.snapshot.map (fun x => { x with copying := false }) })
  let s2 := updCkpt s1 o.handle (fun k => { k with copying := false, draining := decide (k.kind ≠ 0) })
  let s3 := releaseCkptHold s2 k.folio
  if k.kind = 0 then endLong (updLong s3 o.handle (fun o => { o with doneUnits := o.totalUnits })) o.handle .done 0 0 0 0
  else if k.kind = 1 then drainBuddy s3 o.handle
  else s3

/-- SNAPSHOT_COPY_DONE (R369, R372, R477): a poisoned line fails the job. -/
def execSnapshotCopyDone (h : Handle) (s : State) : Host.Outcome State Fault Refusal :=
  .next (match ckptOf s h with
    | none => s
    | some (o, k) =>
      match folioOf s k.folio with
      | none => s
      | some f =>
        if !s.live || o.state != .running || !k.copying || partStopped s o.part then s
        else
          match ckptPoison s f with
          | some a => failJob s (partStamp s o.part) 0x110 (unitHbm 0) 0xFFFFFFFF a 4
          | none => copyEnds s o k)

/-- CHECKPOINT_DRAIN_DONE (R372): the host buffer is written. -/
def execCheckpointDrainDone (h : Handle) (s : State) : Host.Outcome State Fault Refusal :=
  .next (match ckptOf s h with
    | none => s
    | some (o, k) =>
      match (folioOf s k.folio).bind (fun f => f.snapshot) with
      | none => s
      | some x =>
        if s.live && o.state == .running && k.write && k.draining && k.kind == 2 then
          let s1 := updHost s s.parts[o.part].port (fun m => m.writeBytes k.hostAddr x.image)
          endLong (updLong s1 h (fun o => { o with doneUnits := o.totalUnits })) h .done 0 0 0 0
        else s)

/-! ### CHECKPOINT_READ (R373) -/

/-- Whether the job of a partition holds its current ROLE_GEN: there is a job, and it is not torn down (R184, R481). -/
def roleCurrent (s : State) (p : Part) : Bool := match s.parts[p].job with | some j => !j.torn && !j.stopped | none => false

/-- A CHECKPOINT_READ that passes its checks: it runs, and asks the buddy for its image (R371, R373). -/
def admitRead (s : State) (c : Cmd) (f : Folio) : State :=
  let r := admitLong s c (ckptSize f) (.ckpt (newCkpt f c.desc false))
  let s1 := updLong r.2 r.1 (fun o => { o with state := .running, began := true })
  if u8 c.desc 12 = 1 then
    sendToRank s1 f.part f.rank (rankAtOffset f (u8 c.desc 13) (sN c.desc 16 4))
      (ckptMessage (partStamp s f.part) 12 1 (u64 c.desc 24) 0 f.rank [])
  else s1

/-- CHECKPOINT_READ (R373). -/
def execCheckpointRead (p : Part) (q : Fin 16) (s : State) : Host.Outcome State Fault Refusal :=
  .next (match startable s p q 0x41 with
    | none => s
    | some c =>
      let s1 := begun s c.uid
      match folioRef s p (descHandle c.desc 8) with
      | .bad st => finish s1 c.uid st 0 0 0
      | .ok f =>
        let kind := u8 c.desc 12
        if kind = 2 && decide (u64 c.desc 40 < ckptSize f) then finish s1 c.uid 0x10 3 0 0
        else if hasRun s f.handle || !roleCurrent s p || (kind == 1 && !isDataCut f (u8 c.desc 13)) then finish s1 c.uid 0x12 0 0 0
        else admitRead s c f)

/-- An image verified and restored, or rejected with nothing changed (R373). -/
def readImageDone (s : State) (o : LongOp) (k : CkptOp) (img : Bytes) : State :=
  match folioOf s k.folio with
  | none => s
  | some f =>
    match ckptReason f k.step img with
    | some r => endLong s o.handle .failed 0x20 r 0 0
    | none => endLong (updLong (ckptRestore s f img) o.handle (fun o => { o with doneUnits := o.totalUnits })) o.handle .done 0 0 0 0

/-- CHECKPOINT_READ_DONE (R373): from the snapshot area, or from the host buffer whose bytes the command carries. A snapshot whose copy
still runs has no image of any step. -/
def execCheckpointReadDone (h : Handle) (image : Bytes) (s : State) : Host.Outcome State Fault Refusal :=
  .next (match ckptOf s h with
    | none => s
    | some (o, k) =>
      if !s.live || k.write || o.state != .running || k.kind == 1 then s
      else if k.kind = 2 then readImageDone s o k (slice image 0 k.hostLen)
      else
        match (folioOf s k.folio).bind (fun f => f.snapshot) with
        | some x => if x.copying then endLong s h .failed 0x20 0x73 0 0 else readImageDone s o k x.image
        | none => endLong s h .failed 0x20 0x73 0 0)

/-! ### Messages (R371) -/

/-- A message of a type on engine 7 at a place of the inbox, and the state without it. -/
def takeCkpt (s : State) (i msg : Nat) : Option (Packet × State) := (takeInbox s i 2 1).filter (fun x => x.1.engine == 7 && x.1.coll.msg == msg)

/-- The checkpoint of a partition's job that a test accepts and that runs or waits. -/
def ckptWith (s : State) (stamp : Stamp) (test : CkptOp → Bool) : Option (LongOp × CkptOp) :=
  s.longs.findSome? (fun o =>
    match o.body with
    | .ckpt k => if partStamp s o.part == stamp && !o.state.isOver && test k then some (o, k) else none
    | _ => none)

/-- The folio of a stamp's partition whose buddy store waits for an image of a step. -/
def armedStore (s : State) (stamp : Stamp) (step : Nat) : Option Folio :=
  s.folios.find? (fun f => partStamp s f.part == stamp &&
    (match f.buddy with
      | some b => (match b.armed with | some n => n % 2 ^ 16 == step | none => false)
      | none => false))

/-- The pull that runs at this device for a step. -/
def pullOf (s : State) (k : Packet) : Option (LongOp × CkptOp) :=
  ckptWith s k.stamp (fun c => !c.write && c.kind == 1 && c.step % 2 ^ 16 == k.coll.step)

/-- CKPT_DATA (R371): a payload enters the buddy store or the pulled image, and one more payload is granted. A payload that neither waits
for is discarded. -/
def execCkptData (i : Nat) (s : State) : Host.Outcome State Fault Refusal :=
  .next (match takeCkpt s i 9 with
    | none => s
    | some (k, s1) =>
      if (partOfStamp s k.stamp).isNone then staleDrop s1 (unitFabric 23) k.stamp
      else
        let grant := fun (s : State) => sendBack s k.src (ckptMessage k.stamp 10 k.coll.phase k.coll.step 0 k.coll.shard (le 4 1))
        if k.coll.phase = 0 then
          match armedStore s k.stamp k.coll.step with
          | none => s1
          | some f => grant (updFolio s1 f.handle (fun f => { f with buddy := f.buddy.map (fun b => { b with incoming := keepPayload b.incoming k }) }))
        else
          match pullOf s k with
          | none => s1
          | some (o, _) => grant (updCkpt s1 o.handle (fun c => { c with got := keepPayload c.got k })))

/-- Payloads that a pull's credit allows sent to the puller, then CKPT_END (R371, R373). Fuel bounds the payloads. -/
def serveFuel : Nat → State → PullServe → State × PullServe
  | 0, s, x => (s, x)
  | n + 1, s, x =>
    if x.endSent then (s, x)
    else if imagePayloads x.image ≤ x.nextPayload then
      (sendBack s x.peer (ckptMessage x.stamp 11 1 x.step 0 x.srcRank (le 8 x.image.length ++ slice x.image 0x70 64)), { x with endSent := true })
    else if x.credit = 0 then (s, x)
    else
      serveFuel n (sendBack s x.peer (ckptMessage x.stamp 9 1 x.step x.nextPayload x.srcRank (imagePayload x.image x.nextPayload)))
        { x with nextPayload := x.nextPayload + 1, credit := x.credit - 1 }

/-- A pull served as far as its credit allows; one that has sent its end is over. -/
def servePull (s : State) (x : PullServe) : State :=
  let r := serveFuel (x.credit + 2) { s with pulls := s.pulls.filter (fun y => y != x) } x
  if r.2.endSent then r.1 else { r.1 with pulls := r.1.pulls ++ [r.2] }

/-- CKPT_CREDIT (R371). Credit for a CHECKPOINT_WRITE that this device has not got yet waits for it. -/
def execCkptCredit (i : Nat) (s : State) : Host.Outcome State Fault Refusal :=
  .next (match takeCkpt s i 10 with
    | none => s
    | some (k, s1) =>
      if (partOfStamp s k.stamp).isNone then staleDrop s1 (unitFabric 23) k.stamp
      else if k.coll.phase = 0 then
        match ckptWith s k.stamp (fun c => c.write && c.kind == 1) with
        | none => s
        | some (o, c) =>
          if c.step % 2 ^ 16 = k.coll.step then drainBuddy (updCkpt s1 o.handle (fun c => { c with credit := c.credit + u32 k.payload 0 })) o.handle
          else s1
      else
        match s.pulls.find? (fun x => x.peer == k.src && x.stamp == k.stamp && x.step % 2 ^ 16 == k.coll.step) with
        | none => s1
        | some x =>
          let y := { x with credit := x.credit + u32 k.payload 0 }
          servePull { s1 with pulls := s1.pulls.map (fun z => if z == x then y else z) } y)

/-- Whether a received image is whole and has the digest of its CKPT_END. -/
def endMatches (img : Bytes) (k : Packet) : Bool :=
  img.length == u64 k.payload 0 && contentOk img && slice img 0x70 64 == slice k.payload 8 64

/-- An image of the buddy store judged: it replaces the older one when its digest verifies, and CKPT_DONE answers (R370, R371). -/
def storeEnds (s : State) (f : Folio) (b : BuddyStore) (k : Packet) : State :=
  let img := assemble b.incoming
  let ok := endMatches img k
  let b1 := if ok then { b with complete := some img, step := u64 img 0x10, incoming := [], armed := none } else { b with incoming := [] }
  sendBack (updFolio s f.handle (fun f => { f with buddy := some b1 })) k.src
    (ckptMessage k.stamp 13 0 k.coll.step 0 k.coll.shard (le 4 (if ok then 0 else 1)))

/-- CKPT_END (R370, R371, R373). It waits until every payload of the image has come. -/
def execCkptEnd (i : Nat) (s : State) : Host.Outcome State Fault Refusal :=
  .next (match takeCkpt s i 11 with
    | none => s
    | some (k, s1) =>
      if (partOfStamp s k.stamp).isNone then staleDrop s1 (unitFabric 23) k.stamp
      else
        let need := ceilDiv (u64 k.payload 0) 512
        if k.coll.phase = 0 then
          match armedStore s k.stamp k.coll.step with
          | none => s1
          | some f =>
            match f.buddy with
            | none => s1
            | some b => if b.incoming.length < need then s else storeEnds s1 f b k
        else
          match pullOf s k with
          | none => s1
          | some (o, c) =>
            if c.got.length < need then s
            else if endMatches (assemble c.got) k then readImageDone s1 o c (assemble c.got)
            else endLong s1 o.handle .failed 0x20 0x70 0 0)

/-- CKPT_PULL (R371, R373): the stored image of the asking device's rank and STEP is streamed, or CKPT_DONE answers status 2. -/
def execCkptPull (i : Nat) (s : State) : Host.Outcome State Fault Refusal :=
  .next (match takeCkpt s i 12 with
    | none => s
    | some (k, s1) =>
      if (partOfStamp s k.stamp).isNone then staleDrop s1 (unitFabric 23) k.stamp
      else
        match s.folios.findSome? (fun f =>
            match f.buddy with
            | none => none
            | some b =>
              match b.complete with
              | some img => if partStamp s f.part == k.stamp && b.srcRank == k.coll.shard && b.step % 2 ^ 16 == k.coll.step then some (b, img) else none
              | none => none) with
        | none => sendBack s1 k.src (ckptMessage k.stamp 13 1 k.coll.step 0 k.coll.shard (le 4 2))
        | some (b, img) =>
          servePull s1 { peer := k.src, srcRank := b.srcRank, stamp := k.stamp, image := img, step := b.step, nextPayload := 0,
                         credit := ckptWindow, endSent := false })

/-- CKPT_DONE (R371 to R373): the writer's command completes, with DEVICE_FATAL on a digest mismatch; a pull that found no image is
rejected. -/
def execCkptDone (i : Nat) (s : State) : Host.Outcome State Fault Refusal :=
  .next (match takeCkpt s i 13 with
    | none => s
    | some (k, s1) =>
      if (partOfStamp s k.stamp).isNone then staleDrop s1 (unitFabric 23) k.stamp
      else if k.coll.phase = 0 then
        match ckptWith s k.stamp (fun c => c.write && c.kind == 1 && c.endSent && c.step % 2 ^ 16 == k.coll.step) with
        | none => s1
        | some (o, c) =>
          if u32 k.payload 0 = 0 then endLong s1 o.handle .done 0 0 0 0
          else
            let buddy := match folioOf s c.folio with | some f => rankAtOffset f c.cut c.offset | none => 0
            endLong (errorNote s1 0x301 (unitFabric 23) k.stamp 0 0 buddy) o.handle .failed 0x40 0x301 0 0
      else
        match pullOf s k with
        | none => s1
        | some (o, _) => endLong s1 o.handle .failed 0x20 (if u32 k.payload 0 = 2 then 0x73 else 0x70) 0 0)

end Sys2Proof.Machine
end

