-- ==== Sys2Proof/Machine/Copies.lean ====
section
/-! DEFINITION. The end of a copy: COPY_COMPLETE (R407, R408), which wakes the domains of its tensor (R425, R430). -/

namespace Sys2Proof.Machine

open Sys2Proof

/-- COPY_COMPLETE (R407, R408): the copy with this number ends; `data` are the host bytes of a COPY_IN. -/
def execCopyComplete (id : Nat) (data : Bytes) (s : State) : Host.Outcome State Fault Refusal :=
  .next (match copyMoving s id with
    | none => s
    | some (k, f) =>
      needing s (tensorIdxDomains s f k.tensor) 6 s (fun s =>
        if k.toDevice then (if data.length = k.len then copyInDone s f k data else s) else copyOutDone s f k))

end Sys2Proof.Machine
end

