-- ==== Sys2Proof/Machine/Mapping.lean ====
section
/-! DEFINITION. The role generation that a resume or a RESHARD adopts (R184, R226, R266), RESHARD (R362 to R365), and PAIR and UNPAIR
(R376 to R379). -/

namespace Sys2Proof.Machine

open Sys2Proof

/-! ### ROLE_GEN -/

/-- Whether a stamp names a job with an older generation. -/
def olderStamp (j : Job) (gen : Word16) (stamp : Stamp) : Bool :=
  decide (stamp.toNat / 2 ^ 16 = j.id.toNat) && decide (stamp.toNat % 2 ^ 16 < gen.toNat)

/-- DEAD generations and slots of an older generation of a job become FREE (R226, R266). -/
def freeDead (s : State) (j : Job) (gen : Word16) : State :=
  { s with
    ductus := s.ductus.map (fun d => { d with gens := d.gens.filter (fun g => !(g.state == .dead && olderStamp j gen g.stamp)) }),
    ligature := s.ligature.map (fun l => { l with slots := l.slots.filter (fun i => !(i.state == .dead && olderStamp j gen i.stamp)) }) }

/-- A partition's job takes a new ROLE_GEN: every unit's stamp follows, the carve-out's too (R184, R185, R481). -/
def adoptGen (s : State) (p : Part) (gen : Word16) : State :=
  match s.parts[p].job with
  | none => s
  | some j =>
    updPart (freeDead s j gen) p (fun x =>
      { x with job := some { j with gen := gen, written := gen, failed := false, torn := false }, carveStamp := j.id ++ gen })

/-! ### RESHARD -/

/-- The RESHARD with a handle. -/
def reshardWith (s : State) (h : Handle) (f : ReshardOp → ReshardOp) : State :=
  updLong s h (fun o =>
    match o.body with
    | .reshard r => { o with body := .reshard (f r) }
    | _ => o)

/-- Whether A is idle: no RUN or STEP, or one that is suspended directly after a STEP_LAST stroke (R362). -/
def reshardIdle (s : State) (a : Folio) : Bool :=
  s.longs.all (fun o =>
    match o.body with
    | .run r => r.folio != a.handle || o.state.isOver ||
        (o.state == .suspended && o.began && decide (0 < r.stepsDone) && atStepBoundary s o.handle r (stepLen a))
    | _ => true)

/-- Whether the fabric manager has written the job's next ROLE_GEN (R362). -/
def nextGenWritten (s : State) (p : Part) : Bool :=
  match s.parts[p].job with
  | some j => !j.torn && decide (j.gen.toNat < j.written.toNat)
  | none => false

/-- The job box of a partition. -/
def jobBox (s : State) (p : Part) : Nat × Nat × Nat := match s.parts[p].job with | some j => j.box | none => (0, 0, 0)

/-- The conditions of R362. -/
def reshardAdmits (s : State) (p : Part) (a b : Folio) : Bool :=
  b.tables.box == jobBox s p && reshardIdle s a && threadsIdle s a && threadsIdle s b && nextGenWritten s p

/-- The tensor of B that matches a carried tensor of A, with that tensor (R363). -/
def matchedPairs (a b : Folio) : List (TensorEntry × TensorEntry) :=
  a.carried.filterMap (fun i =>
    match a.tables.tensors[i]? with
    | none => none
    | some x => (b.tables.tensors.find? (fun y => y.tag == x.tag)).map (fun y => (x, y)))

/-- Whether a matched pair may move (R363). -/
def pairMoves (a b : Folio) (x y : TensorEntry) : Bool :=
  x.fmt == y.fmt && x.scaleMode == y.scaleMode && x.scaleMode != 1 && (x.scaleMode != 3 || x.scale == y.scale) &&
    logicalUnder a.tables.cuts x == logicalUnder b.tables.cuts y

/-- The reason that rejects a RESHARD, if one does (R363). -/
def reshardReason (a b : Folio) : Option Nat :=
  if b.tables.kind != a.tables.kind || decide (1 < b.tables.kind) then some 0x60
  else if (matchedPairs a b).any (fun e => !pairMoves a b e.1 e.2) then some 0x61
  else none

/-- The tensors of B that have a match among the carried tensors of A, by index, with A's entry. -/
def matchedTensors (a b : Folio) : List (Nat × TensorEntry × TensorEntry) :=
  (b.tables.tensors.zipIdx).filterMap (fun y =>
    ((a.carried.filterMap (fun i => a.tables.tensors[i]?)).find? (fun x => x.tag == y.1.tag)).map (fun x => (y.2, x, y.1)))

/-- The ranks from which the device at a coordinate receives for one matched tensor. -/
def reshardHolders (a b : Folio) (x y : TensorEntry) (d : Nat × Nat × Nat) : List Nat :=
  shareHolders a.box (a.tables.cut? x.shardCut) (b.tables.cut? y.shardCut) x y d

/-- The payloads that this device must receive: (source rank, B tensor, payload) (R364 step 4). -/
def reshardExpected (a b : Folio) : List (Nat × Nat × Nat) :=
  (matchedTensors a b).flatMap (fun e => (reshardHolders a b e.2.1 e.2.2 b.coord).flatMap (fun r =>
    (List.range (payloadCount e.2.2.format
      (sharePairs a.box (a.tables.cut? e.2.1.shardCut) (b.tables.cut? e.2.2.shardCut) e.2.1 e.2.2 b.coord r).length)).map
        (fun n => (r, e.1, n))))

/-- The ranks that the device at a coordinate receives from. -/
def reshardSources (a b : Folio) (d : Nat × Nat × Nat) : List Nat :=
  ((matchedTensors a b).flatMap (fun e => reshardHolders a b e.2.1 e.2.2 d)).dedup

/-- The ranks that this device sends to. -/
def reshardTargets (a b : Folio) : List Nat :=
  (boxRanks b.box).filter (fun r => (reshardSources a b (coordOfRank b.box r)).contains b.rank)

/-- B's tensors without a match set to zero (R363). -/
def zeroUnmatched (s : State) (a b : Folio) : State :=
  let hit := (matchedTensors a b).map (fun e => e.1)
  (b.tables.tensors.zipIdx).foldl (fun s y =>
    if hit.contains y.2 || (!y.1.inHbm && b.tensorAt.getD y.2 0 == 0) then s
    else updMem s (fun m => m.zero (b.tensorAt.getD y.2 0) (b.tensorAt.getD y.2 0 + y.1.size))) s

/-- A RESHARD that passes its checks begins: the new ROLE_GEN is adopted and a ready marker goes to each source (R364 step 1). -/
def beginReshard (s : State) (c : Cmd) (a b : Folio) : State :=
  let gen := match s.parts[c.part].job with | some j => j.written | none => 0
  let r := admitLong s c 0 (.reshard { folioA := a.handle, folioB := b.handle, missing := reshardExpected a b, toSend := reshardTargets a b })
  let s1 := adoptGen (updLong r.2 r.1 (fun o => { o with state := .running, began := true })) c.part gen
  let s2 := (reshardSources a b b.coord).foldl (fun s k =>
    sendToRank s c.part b.rank k (mkPacket 1 2 5 0 0 (partStamp s c.part) 0 (bodyE 0 a.step16 0) [])) (zeroUnmatched s1 a b)
  settleReshard s2 r.1

/-- RESHARD (R362 to R364, R394). -/
def execReshard (p : Part) (q : Fin 16) (s : State) : Host.Outcome State Fault Refusal :=
  .next (match startable s p q 0x42 with
    | none => s
    | some c =>
      let s1 := begun s c.uid
      match folioRef s p (descHandle c.desc 8), folioRef s p (descHandle c.desc 12) with
      | .bad st, _ => finish s1 c.uid st 0 0 0
      | .ok _, .bad st => finish s1 c.uid st 0 0 0
      | .ok a, .ok b =>
        if !reshardAdmits s p a b then finish s1 c.uid 0x12 0 0 0
        else
          match reshardReason a b with
          | some r => finish s1 c.uid 0x20 r 0 0
          | none => beginReshard s c a b)

/-! ### PAIR -/

/-- The PAIRED entries of a folio that declare one end of a stream: (STREAM_ID, exchange, tensor). -/
def streamEnds (t : Tables) (send : Bool) : List (Nat × Nat × TensorEntry) :=
  (t.exchs.zipIdx).filterMap (fun e =>
    if e.1.kind != 5 then none
    else (t.tensor? (if send then e.1.src else e.1.dst)).map (fun x => (e.1.peer, e.2, x)))

/-- Whether a sender's tensor and a receiver's tensor match (R377). -/
def streamMatches (x y : TensorEntry) : Bool :=
  x.hasRole 7 && y.hasRole 6 && x.fmt == y.fmt && x.scaleMode == y.scaleMode && x.bytes == y.bytes

/-- Streams from one folio to another. -/
def streamsFrom (f g : Folio) : List PairStream :=
  (streamEnds f.tables true).filterMap (fun x =>
    ((streamEnds g.tables false).find? (fun y => y.1 == x.1 && streamMatches x.2.2 y.2.2)).map (fun y =>
      { id := x.1, sender := f.handle, sendExch := x.2.1, receiver := g.handle, recvExch := y.2.1, slots := [], published := 0,
        consumed := 0 }))

/-- Whether every declared end in one folio has its partner in the other, and no STREAM_ID is declared twice (R377). -/
def streamsMatch (f g : Folio) : Bool :=
  let sf := streamEnds f.tables true
  let rf := streamEnds f.tables false
  let sg := streamEnds g.tables true
  let rg := streamEnds g.tables false
  let once := fun (l : List (Nat × Nat × TensorEntry)) => (l.map (fun x => x.1)).dedup.length == l.length
  let covers := fun (l m : List (Nat × Nat × TensorEntry)) (sending : Bool) =>
    l.all (fun x => m.any (fun y => y.1 == x.1 && (if sending then streamMatches x.2.2 y.2.2 else streamMatches y.2.2 x.2.2)))
  once (sf ++ sg) && once (rf ++ rg) && covers sf rg true && covers sg rf true && covers rf sg false && covers rg sf false

/-- Whether a FILL pairing joins a KIND 2 folio and one that holds intervals (R376). -/
def fillMatches (f g : Folio) : Bool :=
  (f.tables.kind == 2 && g.tables.kind != 2 && !g.tables.intervals.isEmpty) ||
    (g.tables.kind == 2 && f.tables.kind != 2 && !f.tables.intervals.isEmpty)

/-- Whether both carve-outs have room for a pairing's slots. -/
def slotsFit (s : State) (f g : Folio) (l : List PairStream) : Bool :=
  decide (carveUsed s f.part + slotBytes f l ≤ carveBytes s f.part) &&
    decide (carveUsed s g.part + slotBytes g l ≤ carveBytes s g.part)

/-- The pairing that two folios would have under a MODE (R376): bit 0 FILL, bit 1 STREAM. -/
def newPairing (f g : Folio) (mode : Nat) : Pairing :=
  { a := f.handle, b := g.handle, fill := bit mode 0, streams := if bit mode 1 then streamsFrom f g ++ streamsFrom g f else [] }

/-- Whether a folio is in a pairing. -/
def inPairing (s : State) (h : Handle) : Bool := s.pairings.any (fun x => x.a == h || x.b == h)

/-- Both sides of a pairing complete. -/
def finishBoth (s : State) (u v status reason : Nat) : State := finish (finish s u status reason 0 0) v status reason 0 0

/-- A PAIR meets its pending partner, whose folio is g (R376, R377). -/
def pairUp (s0 : State) (uid : Nat) (f : Folio) (mode : Nat) (w : PairWait) (g : Folio) : State :=
  let s := { s0 with pairWaits := s0.pairWaits.filter (fun x => x.cmd != w.cmd) }
  let x := newPairing g f mode
  if (bit mode 0 && !fillMatches f g) || (bit mode 1 && !streamsMatch f g) then finishBoth s w.cmd uid 0x20 0x74
  else if !slotsFit s g f x.streams then finishBoth s w.cmd uid 0x13 0
  else finishBoth { s with pairings := s.pairings ++ [x] } w.cmd uid 0 0

/-- A PAIR of a folio that is in no pairing (R376). -/
def pairWith (s : State) (c : Cmd) (f : Folio) : State :=
  let peer := partN (u8 c.desc 12)
  let mode := u8 c.desc 13
  let token := slice c.desc 16 16
  let partners := s.pairWaits.filter (fun w => w.part == peer && w.peer == c.part)
  match partners.find? (fun w => w.mode == mode && w.token == token) with
  | some w =>
    match folioOf s w.folio with
    | some g => pairUp (begun s c.uid) c.uid f mode w g
    | none => finish (begun s c.uid) c.uid 0x12 0 0 0
  | none =>
    if partners.isEmpty then
      { begun s c.uid with
        pairWaits := s.pairWaits ++ [{ cmd := c.uid, part := c.part, folio := f.handle, peer := peer, mode := mode, token := token }] }
    else finish (begun s c.uid) c.uid 0x12 0 0 0

/-- PAIR (R376, R377, R394). -/
def execPair (p : Part) (q : Fin 16) (s : State) : Host.Outcome State Fault Refusal :=
  .next (match startable s p q 0x50 with
    | none => s
    | some c =>
      match folioRef s p (descHandle c.desc 8) with
      | .bad st => finish (begun s c.uid) c.uid st 0 0 0
      | .ok f =>
        if inPairing s f.handle || s.pairWaits.any (fun w => w.folio == f.handle) then finish (begun s c.uid) c.uid 0x12 0 0 0
        else pairWith s c f)

/-! ### UNPAIR -/

/-- Whether a folio has a RUN or STEP that is queued, running or suspended (R379). -/
def runStands (s : State) (h : Handle) : Bool :=
  s.longs.any (fun o =>
    match o.body with
    | .run r => r.folio == h && (o.state == .queued || o.state == .running || o.state == .suspended)
    | _ => false)

/-- UNPAIR of a folio (R379, R406). -/
def unpairFolio (s : State) (uid : Nat) (h : Handle) : State :=
  match s.pairWaits.find? (fun w => w.folio == h) with
  | some w => finish (finish { s with pairWaits := s.pairWaits.filter (fun x => x.cmd != w.cmd) } w.cmd 1 0 0 0) uid 0 0 0 0
  | none =>
    match s.pairings.find? (fun x => x.a == h || x.b == h) with
    | none => finish s uid 0x12 0 0 0
    | some x =>
      if runStands s x.a || runStands s x.b then finish s uid 0x12 0 0 0
      else finish { s with pairings := s.pairings.filter (fun y => y != x) } uid 0 0 0 0

/-- UNPAIR (R379, R394, R406). -/
def execUnpair (p : Part) (q : Fin 16) (s : State) : Host.Outcome State Fault Refusal :=
  .next (match startable s p q 0x51 with
    | none => s
    | some c =>
      match folioRef s p (descHandle c.desc 8) with
      | .bad st => finish (begun s c.uid) c.uid st 0 0 0
      | .ok f => unpairFolio (begun s c.uid) c.uid f.handle)

end Sys2Proof.Machine
end

