-- ==== Sys2Proof/Machine/HostPort.lean ====
section
/-! DEFINITION. The PCIe ports (R380, R385, R446, R448): PERST#, link training, power states and port resets. -/

namespace Sys2Proof.Machine

open Sys2Proof

/-- The partitions bound to a port. -/
def boundParts (s : State) (port : Port) : List Part := allParts.filter (fun p => s.parts[p].assigned && s.parts[p].port == port)

/-- Link training of a port begins when its PERST# is deasserted and boot has passed beat 6; a domain that is OFF wakes first (R421,
R448). -/
def beginTraining (s : State) (port : Port) : State :=
  if s.pins.perstN[port] && decide (6 ≤ s.boot.beat) then
    if domainOn s (pcieDomain port.val) then updPort s port (fun x => { x with training := !x.linkUp })
    else demand s (pcieDomain port.val) 6
  else s

/-! ### Cancellation of a partition's work (R385 steps 2 to 4, R470) -/

/-- HOST_RESET reported to the fabric manager and recorded, once per role generation (R385, R475, R487). -/
def reportHostReset (s : State) (port : Port) (p : Part) : State :=
  match s.parts[p].job with
  | none => s
  | some j =>
    let stamp := partStamp s p
    let unit := unitHost port.val
    let s1 := errorNote s 0x131 unit stamp 0 0 port.val
    if j.failed || j.torn then s1
    else
      let s2 := if s1.blotter.freezeOnJob then freeze s1 0x131 else s1
      let s3 := updPart s2 p (fun x => { x with job := x.job.map (fun j => { j with failed := true }) })
      let s4 := bump { s3 with errors := { s3.errors with jobFailed := true,
                                                          jobFailedCount := satAdd 32 s3.errors.jobFailedCount 1 } } 0x52 0 1
      fmMessage s4 5 (reportArgs stamp 0x131 unit port.val 2)

/-- One long operation cancelled as if by CANCEL, with no record (R385). -/
def cancelSilent (s : State) (o : LongOp) : State :=
  let s1 := updLong s o.handle (fun o => { o with silent := true, suspends := [], cancels := [] })
  match longOf s1 o.handle with
  | none => s1
  | some o1 => if o1.state == .cancelling then s1 else cancelLive s1 none o1

/-- Everything of a partition stops: no record is due any more, every long operation is cancelled at its safe point, short copies end at
once, and a PAIR that waits is withdrawn (R385 steps 1 and 2). -/
def stopPartition (s : State) (p : Part) : State :=
  let s1 := (s.copies.filter (fun k => k.part == p && !k.long)).foldl abortCopy s
  let s2 := { s1 with
    cmds := s1.cmds.filter (fun c => c.part != p),
    pairWaits := s1.pairWaits.filter (fun w => w.part != p),
    longs := s1.longs.filter (fun o => !(o.part == p && o.state.isOver)) }
  (s2.longs.filter (fun o => o.part == p)).foldl cancelSilent s2

/-- Steps 2 to 4 of R385 on one partition. -/
def resetPartition (s : State) (port : Port) (p : Part) : State := settleReset (stopPartition (reportHostReset s port p) p) p

/-- The register block of a partition at its reset values, with its assignment and its job kept (R385 step 5). -/
def Partition.blockReset (x : Partition) : Partition :=
  { x with enable := false, sq := Vector.replicate 16 Ring.reset, cq := Vector.replicate 16 CompRing.reset, eq := Ring.reset,
           fmtx := Ring.reset, fmrx := Ring.reset, eventsLost := 0 }

/-- The registers of a port at their reset values (R385 step 5). ERR_VECTOR is the port's own. -/
def resetPortRegs (s : State) (port : Port) : State :=
  let s1 := (boundParts s port).foldl (fun s p => updPart s p Partition.blockReset) s
  let s2 := updPort s1 port (fun x =>
    { PciePort.reset with host := x.host, linkUp := x.linkUp, rate := x.rate, width := x.width, training := x.training })
  { s2 with errors := { s2.errors with vector := s2.errors.vector.set port 0 }, shadows := s2.shadows.filter (fun e => e.1 != port.val) }

/-- What a reset does to the link: a fundamental reset holds it until PERST# deasserts; after a hot reset or a link down it trains
again; an FLR leaves it up. -/
def resetLink (s : State) (port : Port) (kind : PortResetKind) : State :=
  let down := fun (s : State) (training : Bool) => updPort s port (fun x => { x with linkUp := false, rate := 0, width := 0, training := training })
  match kind with
  | .fundamental => down { s with pins := { s.pins with perstN := s.pins.perstN.set port false } } false
  | .hot => down s true
  | .linkDown => down s true
  | .flr => s

/-- A fetch of the image stops with its port (R446). -/
def stopFetch (s : State) (port : Port) : State :=
  if s.boot.stage == Stage.fetching && s.boot.fwPort.toNat == port.val then bootFail s 0x11 0 .waitImage else s

/-- Whether a reset of a kind can reach a port: a fundamental reset while PERST# is deasserted, the others while the link is up. -/
def resetReaches (s : State) (port : Port) (kind : PortResetKind) : Bool :=
  s.pins.pwrGood && (match kind with | .fundamental => s.pins.perstN[port] | _ => s.ports[port].linkUp)

/-- PORT_RESET (R385, R444, R446). -/
def execPortReset (port : Port) (kind : PortResetKind) (s : State) : Host.Outcome State Fault Refusal :=
  .next (if kind = .fundamental ∧ !s.pins.pwrGood then { s with pins := { s.pins with perstN := s.pins.perstN.set port false } }
    else if !resetReaches s port kind then s
    else
      let s1 := stopFetch s port
      let s2 := if s1.live then (boundParts s1 port).foldl (fun s p => resetPartition s port p) s1 else s1
      resetLink (resetPortRegs s2 port) port kind)

/-- PERST (R448, R516): the port's PERST# deasserts. -/
def execPerst (port : Port) (s : State) : Host.Outcome State Fault Refusal :=
  .next (if s.pins.perstN[port] then s
    else
      let s1 := { s with pins := { s.pins with perstN := s.pins.perstN.set port true } }
      if s1.pins.pwrGood && !s1.power.tripped then beginTraining s1 port else s1)

/-- PCIE_LINK_UP (R448, R450, R499): BAR0 shows the boot mailbox, and STAGE reads WAIT_IMAGE. -/
def execPcieLinkUp (port : Port) (rate : Fin 8) (width : Fin 5) (s : State) : Host.Outcome State Fault Refusal :=
  .next (if !(s.pins.pwrGood && s.ports[port].training && domainOn s (pcieDomain port.val) && !s.power.tripped) then s
    else
      let s1 := updPort s port (fun x =>
        { x with training := false, linkUp := true, rate := BitVec.ofNat 4 rate.val, width := BitVec.ofNat 3 width.val, dState := 0 })
      if s1.boot.stage == Stage.romInit then { s1 with boot := { s1.boot with stage := .waitImage, beat := 7 } } else s1)

/-- PCIE_D_STATE (R380): in D3hot the port's partitions fetch no descriptors and post no records; in D0 the records that waited are
posted. -/
def execPcieDState (port : Port) (hot : Bool) (s : State) : Host.Outcome State Fault Refusal :=
  .next (if !(s.pins.pwrGood && s.ports[port].linkUp && !s.power.tripped) then s
    else if hot then updPort s port (fun x => { x with dState := 3 })
    else pump (updPort s port (fun x => { x with dState := 0 })))

end Sys2Proof.Machine
end

