-- ==== Sys2Proof/Machine/Power.lean ====
section
/-! DEFINITION. Power (R416 to R443): policies, POWER_REST, the transitions of domains, the trickle guard and brown-outs, the cap, the
junction sensors, droop and ACLK steps. -/

namespace Sys2Proof.Machine

open Sys2Proof

/-! ### New attempts at a standing REQUEST (R422) -/

/-- Whether a domain with a REQUEST of RETENTION or OFF is ON and blocked. -/
def requestBlocked (s : State) (d : Domain) : Bool :=
  let x := s.power.domains[d]
  decide (2 ≤ x.request.toNat) && decide (d.val < 33) && domainOn s d && (entryBlock s d (x.request == 3)).isSome

/-- Domains whose blocking condition held before a change and does not after it attempt their requested state again. -/
def reattempt (before s : State) : State :=
  (allDomains.filter (fun d => requestBlocked before d && !requestBlocked s d && domainOn s d)).foldl
    (fun s d => attempt s d (s.power.domains[d].request == 3)) s

/-! ### Policies (R440, R441) -/

/-- The byte offset of the first field that breaks the header's ranges (R440). -/
def policyHeadFlaw (b : Bytes) : Option Nat :=
  let flags := u32 b 4
  let droopOk := fun (q : Nat) => decide (10 ≤ u8 b (16 + q)) && decide (u8 b (16 + q) ≤ 100) && u8 b (16 + q) % 5 == 0
  if b.length < 0x20 then some 2
  else if u16 b 0 ≠ 1 then some 0
  else if 73 < u16 b 2 ∨ b.length ≠ 0x20 + 8 * u16 b 2 then some 2
  else if 8 ≤ flags then some 4
  else if bit flags 0 && (decide (u32 b 8 < 1200) || decide (3000 < u32 b 8)) then some 8
  else
    match (List.range 4).find? (fun q => bit flags 1 && decide (26 < u8 b (12 + q))) with
    | some _ => some 12
    | none =>
      match (List.range 4).find? (fun q => bit flags 2 && !droopOk q) with
      | some _ => some 16
      | none => if zeroRange b 20 12 then none else some 20

/-- The domain of entry i of a policy. -/
def policyDomain (b : Bytes) (i : Nat) : Nat := u8 b (0x20 + 8 * i)

/-- The byte offset of the first field that breaks the ranges of entry i. -/
def policyEntryFlaw (b : Bytes) (i : Nat) : Option Nat :=
  let o := 0x20 + 8 * i
  let n := u8 b o
  let band := decide (33 ≤ n)
  let v := fun k => u8 b (o + k)
  if n = 0 ∨ 72 < n ∨ (List.range i).any (fun j => policyDomain b j == n) then some o
  else if v 1 ≠ 0xFF ∧ (if band then 1 else 3) < v 1 then some (o + 1)
  else if v 2 ≠ 0xFF ∧ 1 < v 2 then some (o + 2)
  else if v 3 ≠ 0xFF ∧ (!band ∨ 2 < v 3) then some (o + 3)
  else if v 4 ≠ 0xFF ∧ (v 4 < 10 ∨ 100 < v 4) then some (o + 4)
  else if !zeroRange b (o + 5) 3 then some (o + 5)
  else none

/-- The first offending field of a policy (R440). -/
def policyFlaw (b : Bytes) : Option Nat :=
  match policyHeadFlaw b with
  | some o => some o
  | none => (List.range (u16 b 2)).findSome? (policyEntryFlaw b)

/-- The fields of an entry written into PD_CFGn; 0xFF leaves one as it is. -/
def entryCfg (b : Bytes) (i : Nat) (x : PowerDomain) : PowerDomain :=
  let v := fun k => u8 b (0x20 + 8 * i + k)
  { x with request := if v 1 = 0xFF then x.request else BitVec.ofNat 2 (v 1),
           method := if v 2 = 0xFF then x.method else BitVec.ofNat 1 (v 2),
           idleDepth := if v 3 = 0xFF then x.idleDepth else BitVec.ofNat 2 (v 3),
           margin := if v 4 = 0xFF then x.margin else BitVec.ofNat 8 (v 4) }

/-- The header and the configuration of a policy applied. -/
def policyFields (s : State) (b : Bytes) : State :=
  let flags := u32 b 4
  let quads := Vector.ofFn (fun (q : Quad) =>
    let x := s.power.quads[q]
    { x with policyMax := if bit flags 1 then u8 b (12 + q.val) else x.policyMax,
             thresholdMv := if bit flags 2 then u8 b (16 + q.val) else x.thresholdMv })
  let s1 := { s with power := { s.power with capW := if bit flags 0 then u32 b 8 else s.power.capW, quads := quads } }
  (List.range (u16 b 2)).foldl (fun s i => updDomain s (domainN (policyDomain b i)) (entryCfg b i)) s1

/-- The domains of a policy whose entries name a state: HOLD_ON, RETENTION or OFF. -/
def policyWaits (b : Bytes) : List Nat :=
  (List.range (u16 b 2)).filterMap (fun i =>
    let v := u8 b (0x21 + 8 * i)
    if v = 1 ∨ v = 2 ∨ v = 3 then some (policyDomain b i) else none)

/-- Whether a domain is in the state that its REQUEST names. -/
def requestMet (x : PowerDomain) : Bool :=
  match x.request.toNat with
  | 1 => x.state == .on
  | 2 => x.state == .retention
  | 3 => x.state == .off
  | _ => true

/-- A named state sought at once: HOLD_ON wakes the domain, RETENTION and OFF make an attempt when it is ON (R422, R440). -/
def seekRequest (s : State) (source n : Nat) : State :=
  let d := domainN n
  let x := s.power.domains[d]
  if requestMet x then settlePolicy s d
  else if x.request = 1 then demand s d source
  else attempt s d (x.request == 3)

/-- A policy applied whole, once something waits for its domains. -/
def applyPolicy (s : State) (b : Bytes) (source : Nat) : State := (policyWaits b).foldl (fun s n => seekRequest s source n) s

/-- The domains that a policy names, in policy order. -/
def policyDomains (b : Bytes) : List Nat := (List.range (u16 b 2)).map (policyDomain b)

/-- A POWER_POLICY that passes its checks. -/
def beginPolicy (s : State) (c : Cmd) (b : Bytes) : State :=
  let ds := policyDomains b
  let ws := policyWaits b
  let s1 := policyFields (begun s c.uid) b
  let mark := { s1 with cmds := updFirst (fun (x : Cmd) => x.uid == c.uid) (fun x => { x with policy := some (ds, ws) }) s1.cmds }
  if ws.isEmpty then
    match cmdOf mark c.uid with
    | some k => answerPolicy mark k
    | none => mark
  else applyPolicy mark b 8

/-- POWER_POLICY (R394, R395, R440, R441). The policy is what the read of POLICY_LEN bytes at POLICY_ADDR returns. -/
def execPowerPolicy (p : Part) (q : Fin 16) (policy : Bytes) (s : State) : Host.Outcome State Fault Refusal :=
  .next (match startable s p q 0x71 with
    | none => s
    | some c =>
      if policy.length ≠ u32 c.desc 8 then s
      else
        match policyFlaw policy with
        | some o => finish (begun s c.uid) c.uid 0x10 3 o 0
        | none =>
          let n := 8 + 8 * u16 policy 2
          if u32 c.desc 24 < n then finish (begun s c.uid) c.uid 0x13 6 n 0 else beginPolicy s c policy)

/-! ### POWER_REST (R160, R423, R424) -/

/-- The WAIT of a grid's scheduled threads, with the attempts that it makes due. -/
def restGrid (s : State) (cs : List Nat) (depth : Nat) : State :=
  let s1 := { s with waits := cs.map (fun c => { cluster := c, depth := depth }) ++ s.waits.filter (fun w => !cs.contains w.cluster) }
  if depth = 0 then s1 else ((cs.map bandOfCluster).dedup).foldl attemptIfDue s1

/-- POWER_REST (R160, R423, R424). -/
def execPowerRest (h : Handle) (i : Nat) (s : State) : Host.Outcome State Fault Refusal :=
  .next (match runEnv s h i 0x0701 [.compute] with
    | none => s
    | some e => restGrid (opDone s e) (e.folio.gridClusters e.op.grid) (fnOf e.folio e.op % 4))

/-! ### Transitions (R418 to R430) -/

/-- DOMAIN_WAKE_START (R428): the lowest domain of the quadrant that waits behind the cap begins its wake. -/
def execDomainWakeStart (q : Quad) (s : State) : Host.Outcome State Fault Refusal :=
  .next (if 4 ≤ trickleWakes s q.val then s
    else
      match allDomains.find? (fun d => domainQuad d == some q.val && s.power.domains[d].wakeQueued) with
      | none => s
      | some d => bump (updDomain s d (fun x => { x with state := .waking, fromOff := false, wakeQueued := false })) 0x102 d.val 1)

/-- Whether what a domain needs is ON (R426). -/
def needsMet (s : State) (d : Domain) : Bool := match domainNeeds d with | some n => domainOn s n | none => true

/-- What follows a wake: writes held in the shadow of PD_SCRIBE's registers take effect (R25), a fabric port trains from DOWN and a PCIe
port trains again after OFF (R421). -/
def afterWake (s : State) (d : Domain) (fromOff : Bool) : State :=
  let n := d.val
  if n = 1 then applyShadows s (fun o => decide (0x1000 ≤ o) && decide (o < 0x5000))
  else if 3 ≤ n ∧ n < 19 then startTraining s (fportN (n - 3))
  else if n = 19 ∨ n = 20 then (if fromOff then beginTraining s (portN (n - 19)) else s)
  else s

/-- DOMAIN_WAKE_DONE (R420, R421, R426, R441, R443): the domain is ON; after OFF it has been re-initialized. -/
def execDomainWakeDone (d : Domain) (s : State) : Host.Outcome State Fault Refusal :=
  .next (let x := s.power.domains[d]
    if x.state != .waking || !needsMet s d then s
    else
      let f := drawFree (if x.fromOff then reinit s d else s)
      let s1 := updDomain (bump f.2 0x104 d.val f.1) d (fun x => { x with state := .on, trickle := false, fromOff := false })
      let s2 := afterWake s1 d x.fromOff
      if x.request = 1 then settlePolicy s2 d else s2)

/-- DOMAIN_ENTRY_DONE (R419, R420, R431, R441): RETENTION or OFF is reached. The local sensor's reading at the entry is a free value. -/
def execDomainEntryDone (d : Domain) (s : State) : Host.Outcome State Fault Refusal :=
  .next (let x := s.power.domains[d]
    if x.state != .entering then s
    else
      let f := drawFree s
      let s1 := updDomain f.2 d (fun x =>
        { x with state := if x.toOff then .off else .retention, trickle := !x.toOff && x.entryMethod == 1, entryTempC := f.1 % 256,
                 offersStand := false })
      reattempt s (if 2 ≤ x.request.toNat then settlePolicy s1 d else s1))

/-- BAND_IDLE (R424, R425): a band with standing offers, or whose cores are all unowned, attempts its entry. -/
def execBandIdle (b : Fin 40) (s : State) : Host.Outcome State Fault Refusal :=
  .next (let d := bandDomain b.val
    if !s.live || !domainOn s d then s
    else if s.power.domains[d].offersStand || (bandClusters b.val).all (unowned s) then
      attemptBand (updDomain s d (fun x => { x with offersStand := false })) b.val
    else s)

/-- Whether a domain's REQUEST names RETENTION or OFF and nothing blocks it any more (R422). -/
def requestDue (s : State) (d : Domain) : Bool :=
  let x := s.power.domains[d]
  decide (2 ≤ x.request.toNat) && domainOn s d && (entryBlock s d (x.request == 3)).isNone

/-- An entry of a domain that has been idle: the one that its REQUEST names, or under AUTO the one of the automatic rule (R422). -/
def idleEntry (s : State) (d : Domain) (autoOff : Bool) : State :=
  let x := s.power.domains[d]
  if requestDue s d then beginEntry s d (x.request == 3)
  else if x.request == 0 && domainOn s d && (entryBlock s d autoOff).isNone then beginEntry s d autoOff
  else s

/-- The eight stacks. -/
def allStacks : List Domain := (List.range 8).map stackDomain

/-- HBM_IDLE (R422): HBM_IDLE_US has passed with no access queued at any stack. -/
def execHbmIdle (s : State) : Host.Outcome State Fault Refusal :=
  .next (if !s.live || allStacks.any (fun d => (entryBlock s d false).isSome) then s
    else allStacks.foldl (fun s d => idleEntry s d false) s)

/-- QUNCORE_IDLE (R422). -/
def execQuncoreIdle (q : Quad) (s : State) : Host.Outcome State Fault Refusal :=
  .next (if s.live then idleEntry s (quncoreDomain q.val) false else s)

/-- PCIE_IDLE (R422). -/
def execPcieIdle (port : Port) (s : State) : Host.Outcome State Fault Refusal :=
  .next (if s.live then idleEntry s (pcieDomain port.val) true else s)

/-! ### Trickle retention (R431, R432) -/

/-- TRICKLE_GUARD (R431): the junction has warmed by TRICKLE_DELTA since the entry, and the domain is converted. -/
def execTrickleGuard (d : Domain) (tempC : Nat) (s : State) : Host.Outcome State Fault Refusal :=
  .next (let x := s.power.domains[d]
    if x.state == .retention && x.trickle && decide (x.entryTempC + s.settings.trickleDelta ≤ tempC) then
      powerEvent (updDomain s d (fun x => { x with trickle := false, wakeSource := 11 })) 2 d.val (unitDomain d.val)
    else s)

/-- Whether a folio's job holds state in a domain: grids and tensors in a band, the grids of a quadrant, instance slots in the router's
engines, or regions on a stack (R432). -/
def folioHolds (s : State) (f : Folio) (d : Domain) : Bool :=
  let n := d.val
  let gs := List.range f.tables.grids.length
  if n = 2 then s.ligature.toList.any (fun l => l.slots.any (fun i => i.folio == f.handle))
  else if 21 ≤ n ∧ n < 29 then !f.hbm.isEmpty
  else if 29 ≤ n ∧ n < 33 then
    gs.any (fun g => f.gridIn g (quadN (n - 29))) || s.ductus[quadN (n - 29)].gens.any (fun g => g.folio == f.handle)
  else if 33 ≤ n then gs.any (fun g => (f.gridClusters g).any (fun c => bandOfCluster c == n - 33))
  else false

/-- Whether a partition's job holds state in a domain: a folio of it does, or the domain is a stack and it holds regions. -/
def jobHolds (s : State) (p : Part) (d : Domain) : Bool :=
  (s.folios.any (fun f => f.part == p && folioHolds s f d)) ||
    (decide (21 ≤ d.val) && decide (d.val < 29) && s.regions.toList.any (fun r => r.assigned && r.part == p))

/-- BROWNOUT (R432, R442, R443, R475). -/
def execBrownout (d : Domain) (s : State) : Host.Outcome State Fault Refusal :=
  .next (let x := s.power.domains[d]
    if !(x.state == .retention && x.trickle && !x.wakeQueued) then s
    else
      let hit := allParts.filter (fun p => partStamp s p != 0 && jobHolds s p d)
      let s1 := updDomain s d (fun x => { x with state := .off, trickle := false, fromOff := true, offersStand := false })
      let s2 := powerEvent (bump s1 0x103 d.val 1) 1 d.val (unitDomain d.val)
      hit.foldl (fun s p => failJob s (partStamp s p) 0x130 (unitDomain d.val) d.val 0 0) s2)

/-! ### The cap (R437) -/

/-- Every CAP_CEILING down by n settings, each downward step counted. -/
def capDown (s : State) (n : Nat) : State :=
  let was := allQuads.all (fun q => s.power.quads[q].capCeiling == 26)
  let s1 := allQuads.foldl (fun s q =>
    let c := s.power.quads[q].capCeiling
    bump (updQuadClock s q (fun x => { x with capCeiling := c - n })) 0x120 q.val (min c n)) s
  if was && n != 0 then powerEvent s1 5 0 (unitCpb 3) else s1

/-- Every CAP_CEILING up by one setting. -/
def capUp (s : State) : State :=
  let below := allQuads.any (fun q => decide (s.power.quads[q].capCeiling < 26))
  let s1 := allQuads.foldl (fun s q => updQuadClock s q (fun x => { x with capCeiling := min 26 (x.capCeiling + 1) })) s
  if below && allQuads.all (fun q => s1.power.quads[q].capCeiling == 26) then powerEvent s1 6 0 (unitCpb 3) else s1

/-- Whether every quadrant runs at 400 MHz. -/
def allAtFloor (s : State) : Bool := allQuads.all (fun q => s.power.quads[q].current == 0)

/-- The cap is exceeded: CAP_UNMET at the floor, else the ceilings step down. -/
def capExceeded (s : State) (n : Nat) : State :=
  if allAtFloor s then
    (if s.power.capUnmet then s else powerEvent { s with power := { s.power with capUnmet := true } } 7 0 (unitCpb 3))
  else capDown s n

/-- A window of 1 ms ends: MODULE_POWER, the energy, and the steps of R437. -/
def longWindow (s : State) (w : Nat) : State :=
  let cap := s.power.capW
  let low := if 100 * w < 97 * cap then s.power.lowWindows + 1 else 0
  let unmet := s.power.capUnmet && decide (cap < w)
  let s1 := bump { s with power := { s.power with powerW := min w 4095, lowWindows := low % 10, capUnmet := unmet } } 0x122 0 w
  if cap < w then capExceeded s1 1 else if low = 10 then capUp s1 else s1

/-- A window of 100 µs ends. -/
def shortWindow (s : State) (w : Nat) : State := if 11 * s.power.capW < 10 * w then capExceeded s 4 else s

/-- POWER_SAMPLE (R437, R442, R443): the average of a window of 1 ms or 100 µs, in watts. -/
def execPowerSample (long : Bool) (watts : Nat) (s : State) : Host.Outcome State Fault Refusal :=
  .next (if !s.pins.pwrGood || s.power.tripped then s else if long then longWindow s watts else shortWindow s watts)

/-! ### Junction sensors (R438) -/

/-- The hottest of the sensors that a test accepts; sensors 2b and 2b + 1 are those of band b. -/
def hottest (l : List (Nat × Nat)) (test : Nat → Bool) : Nat := ((l.filter (fun e => test e.1)).map (fun e => e.2)).foldl max 0

/-- What a reading does to a quadrant. -/
def thermalQuad (s : State) (q : Quad) (t : Nat) : State :=
  let x := s.power.quads[q]
  let s1 := if 100 ≤ t && !x.throttling then powerEvent s 3 q.val (unitCpb 4)
    else if decide (t < 100) && x.throttling then powerEvent s 4 q.val (unitCpb 4) else s
  let s2 := if 100 ≤ t ∧ 0 < x.thermalCeiling then bump s1 0x121 q.val 1 else s1
  let cool := if t ≤ 97 then x.coolReadings + 1 else 0
  updQuadClock s2 q (fun x =>
    { x with throttling := decide (100 ≤ t), overTemp := decide (105 ≤ t), coolReadings := cool % 100,
             thermalCeiling := if 100 ≤ t then x.thermalCeiling - 1 else if cool = 100 then min 26 (x.thermalCeiling + 1) else x.thermalCeiling })

/-- A thermal trip (R438, R475, R483, R511): its record, the freeze, every domain but PD_AON OFF, the ports held as in reset. -/
def thermalTrip (s : State) (q : Nat) : State :=
  let s1 := freeze (errorNote s 0x207 (unitCpb 4) 0 0 0 q) 0x207
  let off := fun (x : PowerDomain) => { x with state := .off, trickle := false, wakeQueued := false, offersStand := false }
  { s1 with
    power := { s1.power with tripped := true, domains := Vector.ofFn (fun n => if n.val = 0 then s1.power.domains[n] else off s1.power.domains[n]) },
    pins := { s1.pins with thermTripN := false, faultN := false },
    ports := s1.ports.map (fun x => { PciePort.reset with host := x.host }),
    fabric := s1.fabric.map FabricPort.shut,
    errors := { s1.errors with supervised := false } }

/-- THERMAL_READING (R438, R442, R446): the readings of the junction sensors, by sensor number. A held warm reset acts when every sensor
reads below 95 °C. -/
def execThermalReading (sensors : List (Nat × Nat)) (s : State) : Host.Outcome State Fault Refusal :=
  .next (if !s.pins.pwrGood then s
    else
      let top := hottest sensors (fun _ => true)
      let s1 := { s with power := { s.power with tjMax := min top 255, hot := decide (95 ≤ top) } }
      if s1.power.tripped then (if s1.power.resetHeld && !s1.power.hot then warmReset s1 2 else s1)
      else
        let s2 := allQuads.foldl (fun s q => thermalQuad s q (hottest sensors (fun n => n / 20 == q.val))) s1
        match sensors.find? (fun e => decide (115 ≤ e.2)) with
        | some e => thermalTrip s2 (e.1 / 20)
        | none => s2)

/-- OVER_TEMP (R438, R442): readings of 105 °C or more have been held for 1 ms. -/
def execOverTemp (q : Quad) (s : State) : Host.Outcome State Fault Refusal :=
  .next (if s.pins.pwrGood && !s.power.tripped && s.power.quads[q].overTemp then
      powerEvent (updQuadClock s q (fun x => { x with overTemp := false })) 8 q.val (unitCpb 4)
    else s)

/-- INPUT_RANGE (R442, R515): the input voltage as measured, in mV. -/
def execInputRange (mv : Nat) (s : State) : Host.Outcome State Fault Refusal :=
  .next (if !s.pins.pwrGood then s
    else
      let s1 := { s with power := { s.power with inputMv := mv } }
      if mv < 40000 ∨ 60000 < mv then powerEvent s1 9 mv (unitCpb 4) else s1)

/-! ### Droop and ACLK (R435, R436, R439) -/

/-- The stretch of R435 in eighths of a period. -/
def stretchOf (excessMv : Nat) : Nat := min 4 (1 + excessMv / 10)

/-- DROOP_EXCURSION (R435, R436): a sensor is below the threshold by an excess. The first stretched cycle begins an excursion. -/
def execDroopExcursion (q : Quad) (excessMv : Nat) (s : State) : Host.Outcome State Fault Refusal :=
  .next (if !s.pins.pwrGood || s.power.tripped then s
    else if s.power.quads[q].stretching then updQuadClock s q (fun x => { x with stretch := stretchOf excessMv })
    else
      bump (updQuadClock s q (fun x =>
        { x with stretching := true, stretch := stretchOf excessMv, droopEvents := satAdd 64 x.droopEvents 1 })) 0x110 q.val 1)

/-- DROOP_END (R436, R443): the stretched cycles and the deepest sag below the setpoint are counted. -/
def execDroopEnd (q : Quad) (stretched : Nat) (worstMv : Nat) (s : State) : Host.Outcome State Fault Refusal :=
  .next (if !s.power.quads[q].stretching then s
    else bumpMax (bump (updQuadClock s q (fun x => { x with stretching := false, stretch := 0 })) 0x111 q.val stretched) 0x112 q.val worstMv)

/-- The setting that CURRENT moves to (R434). -/
def QuadClock.target (x : QuadClock) : Nat := min x.policyMax (min x.capCeiling x.thermalCeiling)

/-- One setting towards the target (R439). -/
def QuadClock.stepped (x : QuadClock) : QuadClock :=
  { x with current := if x.current < x.target then x.current + 1 else if x.target < x.current then x.current - 1 else x.current }

/-- ACLK_STEP (R439). -/
def execAclkStep (q : Quad) (s : State) : Host.Outcome State Fault Refusal :=
  .next (if s.pins.pwrGood && !s.power.tripped then updQuadClock s q QuadClock.stepped else s)

end Sys2Proof.Machine
end

