-- ==== Sys2Proof/Machine/Management.lean ====
section
/-! DEFINITION. The management endpoint (R463 to R473, R490, R508) and ATTEST (R394): requests and their responses, attestation,
partitions, carve-outs, coordinates, jobs and power. -/

namespace Sys2Proof.Machine

open Sys2Proof

/-! ### Requests and responses (R467) -/

/-- The four bytes that a response repeats: VENDOR_ID, COMMAND, INSTANCE. -/
def mgmtHead (command : Nat) (inst : Byte) : Bytes := le 2 Config.vendorId.toNat ++ le 1 command ++ [inst]

/-- A request served when the endpoint answers (R466): BUSY while another is being served, NOT_READY when the command is not yet
available; a READY command of a stopped or tripped device is REFUSED. -/
def mgmtServe (s : State) (command : Nat) (inst : Byte) (available : Bool) (act : Bytes → State) : State :=
  let head := mgmtHead command inst
  if !(s.pins.pwrGood && decide (2 ≤ s.boot.beat)) then s
  else if s.mgmt.busy.isSome then mgmtRespond s head 4 []
  else if !available then mgmtRespond s head 1 []
  else act head

/-- A request of a command that is available when STAGE reads READY. -/
def mgmtReady (s : State) (command : Nat) (inst : Byte) (act : Bytes → State) : State :=
  mgmtServe s command inst (decide (s.boot.stage = Stage.ready)) (fun head => if s.live then act head else mgmtRespond s head 3 [])

/-- An argument that breaks R467 is BAD_ARGUMENT; otherwise the request is served or REFUSED. -/
def mgmtAct (s : State) (head : Bytes) (argsOk : Bool) (r : Option State) (data : Bytes) : State :=
  if !argsOk then mgmtRespond s head 2 []
  else
    match r with
    | some s1 => mgmtRespond s1 head 0 data
    | none => mgmtRespond s head 3 []

/-! ### Attestation (R463 to R465, R468) -/

/-- A measurement entry: KIND, INDEX and VALUE. -/
def measurement (kind idx : Nat) (v : Bytes) : Bytes := le 2 kind ++ le 2 idx ++ zeros 4 ++ slice v 0 64

/-- Measurements 1 to 3: the ROM, the record once it has verified, the image once it has been accepted. -/
def deviceMeasurements (s : State) : List Bytes :=
  let rec_ := match s.silicon.eeprom with
    | some r => if s.boot.recordOk then [measurement 2 0 (sha3_512 (r.take (u32 r 8 + 7232)))] else []
    | none => []
  [measurement 1 0 Config.romHash.toList] ++ rec_ ++ (if 9 ≤ s.boot.beat then [measurement 3 0 s.boot.fwDigest] else [])

/-- FOLIO_DIGEST of a partition's loaded folios, by slot. -/
def folioMeasurements (s : State) (p : Part) : List Bytes :=
  ((s.folios.filter (fun f => f.part == p)).zipIdx).map (fun e => measurement 4 (p.val * 256 + e.2) e.1.digest)

/-- The assignment block of an assigned partition. -/
def assignMeasurement (s : State) (p : Part) : List Bytes :=
  if s.parts[p].assigned then [measurement 5 p.val (sha3_512 s.parts[p].assignBlock)] else []

/-- The measurements of partitions in ascending (KIND, INDEX). -/
def measurementsOf (s : State) (ps : List Part) : List Bytes :=
  deviceMeasurements s ++ ps.flatMap (folioMeasurements s) ++ ps.flatMap (assignMeasurement s)

/-- The bytes of an attestation that the signature covers. -/
def attestSigned (s : State) (seed : Bytes) (scope part : Nat) (nonce : Bytes) (ms : List Bytes) : Bytes :=
  le 4 0x54415A53 ++ le 2 1 ++ le 1 scope ++ le 1 part ++ le 4 ms.length ++ le 4 (0xAA0 + 72 * ms.length) ++ le 8 s.timeBase ++
    le 8 s.boot.fwVersion.toNat ++ le 4 s.boot.fwEpoch.toNat ++ le 4 Config.romVersion.toNat ++ slice s.boot.serial 0 16 ++
    le 4 s.boot.bootCount.toNat ++ zeros 4 ++ slice nonce 0 32 ++ zeros 32 ++ slice (identityKey seed) 0 2592 ++ ms.flatten

/-- The context string "SZATTEST". -/
def attestContext : Bytes := [0x53, 0x5A, 0x41, 0x54, 0x54, 0x45, 0x53, 0x54]

/-- An attestation result (R464): the signature over the digest, padded to 64 bytes. -/
def attestation (s : State) (seed : Bytes) (scope part : Nat) (nonce : Bytes) (ms : List Bytes) : Bytes :=
  let b := attestSigned s seed scope part nonce ms
  padTo 64 (b ++ (Config.mldsaSign seed attestContext (sha3_512 b)).toList)

/-- ATTEST of a partition (R394, R464, R465). -/
def execAttest (p : Part) (q : Fin 16) (s : State) : Host.Outcome State Fault Refusal :=
  .next (match startable s p q 0x70, s.boot.seed with
    | some c, some seed => giveResult (begun s c.uid) c (attestation s seed 0 p.val (slice c.desc 32 32) (measurementsOf s [p]))
    | _, _ => s)

/-- MANAGEMENT_ATTEST (R464, R465, R468). -/
def execManagementAttest (inst : Byte) (args : Bytes) (s : State) : Host.Outcome State Fault Refusal :=
  .next (mgmtServe s 0x02 inst (decide (4 ≤ s.boot.beat) || s.boot.errCode == 5) (fun head =>
    match s.boot.seed with
    | none => mgmtRespond s head 3 []
    | some seed => mgmtAct s head (args.length == 32) (some s) (attestation s seed 1 0 args (measurementsOf s allParts))))

/-! ### Boot commands (R467) -/

/-- GET_CERTIFICATE (R456, R467): a range of the identity certificate. -/
def execGetCertificate (inst : Byte) (args : Bytes) (s : State) : Host.Outcome State Fault Refusal :=
  .next (mgmtServe s 0x01 inst (decide (4 ≤ s.boot.beat)) (fun head =>
    match s.silicon.eeprom with
    | none => mgmtRespond s head 3 []
    | some r =>
      let cert := recordCert r
      let ok := args.length == 6 && decide (u16 args 4 ≤ 1024) && decide (u32 args 0 + u16 args 4 ≤ cert.length)
      mgmtAct s head ok (if recordWhole r then some s else none) (slice cert (u32 args 0) (u16 args 4))))

/-- GET_BOOT (R467, R508): BOOT_STATUS, BOOT_ERROR and FW_DIGEST. -/
def execGetBoot (inst : Byte) (args : Bytes) (s : State) : Host.Outcome State Fault Refusal :=
  .next (mgmtServe s 0x03 inst true (fun head =>
    mgmtAct s head args.isEmpty (some s) (le 4 (bootStatus s.boot) ++ le 4 (bootErrorWord s.boot) ++ slice s.boot.fwDigest 0 64)))

/-- RESET_DEVICE (R444, R446, R467): the warm reset follows the response. -/
def execResetDevice (inst : Byte) (args : Bytes) (s : State) : Host.Outcome State Fault Refusal :=
  .next (mgmtServe s 0x04 inst true (fun head =>
    if args.isEmpty then askReset (mgmtRespond s head 0 []) 1 else mgmtRespond s head 2 []))

/-! ### Partitions (R469, R470) -/

/-- Whether an assignment block is refused (R469). -/
def assignRefused (s : State) (b : Bytes) : Bool :=
  let p := partN (u8 b 0)
  let sum := (allParts.map (fun k => if s.parts[k].assigned then s.parts[k].limit else 0)).sum
  s.parts[p].assigned || decide (u16 b 4 < 32) || decide (4096 < u16 b 4) || decide (4096 < sum + u16 b 4) ||
    (bit (u16 b 2) 0 && allParts.any (fun k => s.parts[k].assigned && s.parts[k].fmChannel)) || (bit (u16 b 2) 3 && !recordFlag s 1)

/-- Whether the fields of an assignment block keep R469. -/
def assignOk (b : Bytes) : Bool :=
  b.length == 72 && decide (u8 b 0 ≤ 3) && decide (u8 b 1 ≤ 1) && decide (u16 b 2 < 16) && u16 b 6 == 0 &&
    (bit (u16 b 2) 2 || zeroRange b 8 64)

/-- The partition of a block takes its values; a port whose domain rests is woken (R386, R469). -/
def assignTo (s : State) (b : Bytes) : State :=
  let fl := u16 b 2
  let s1 := updPart s (partN (u8 b 0)) (fun x =>
    { x with assigned := true, port := portN (u8 b 1), fmChannel := bit fl 0, powerAdmin := bit fl 1, requireOwner := bit fl 2,
             debugFolios := bit fl 3, limit := u16 b 4, assignBlock := b })
  let d := pcieDomain (u8 b 1)
  if domainOn s1 d then s1 else demand s1 d 10

/-- ASSIGN_PARTITION (R467, R469, R508). -/
def execAssignPartition (inst : Byte) (args : Bytes) (s : State) : Host.Outcome State Fault Refusal :=
  .next (mgmtReady s 0x10 inst (fun head =>
    mgmtAct s head (assignOk args) (if assignRefused s args then none else some (assignTo s args)) []))

/-- A release that has been accepted: with FORCE it cancels first (R385, R470). -/
def releaseTo (s : State) (head : Bytes) (p : Part) (force : Bool) : State :=
  let s1 := { s with mgmt := { s.mgmt with busy := some (.release head p) } }
  if force then resetPartition s1 s.parts[p].port p else settleRelease s1 p

/-- RELEASE_PARTITION (R467, R470, R508). -/
def execReleasePartition (inst : Byte) (args : Bytes) (s : State) : Host.Outcome State Fault Refusal :=
  .next (mgmtReady s 0x11 inst (fun head =>
    let p := partN (u8 args 0)
    if !(args.length == 2 && decide (u8 args 0 ≤ 3) && decide (u8 args 1 ≤ 1)) then mgmtRespond s head 2 []
    else if !s.parts[p].assigned || (u8 args 1 == 0 && (!quiesced s p || s.folios.any (fun f => f.part == p))) then mgmtRespond s head 3 []
    else releaseTo s head p (u8 args 1 == 1)))

/-! ### Carve-outs (R274, R276, R471, R505) -/

/-- The regions that a mask names. -/
def maskRegions (m : Nat) : List Nat := selected 72 (fun g => bit m g)

/-- Whether SET_CARVEOUT is refused (R471). -/
def carveoutRefused (s : State) (p : Part) (rs : List Nat) : Bool :=
  !s.parts[p].assigned || s.folios.any (fun f => f.part == p) ||
    rs.any (fun g => let r := s.regions[(Fin.ofNat 72 g : Fin 72)]; r.assigned || r.zeroing)

/-- An accepted SET_CARVEOUT: modes are set and the zeroing begins; with no region there is nothing to wait for. -/
def carveoutTo (s : State) (head : Bytes) (p : Part) (rs : List Nat) (modes : Nat) : State :=
  let s1 := rs.foldl (fun s g => updRegion s (Fin.ofNat 72 g) (fun r => { r with stackLocal := bit modes g, part := p, zeroing := true })) s
  if rs.isEmpty then mgmtRespond s1 head 0 [] else { s1 with mgmt := { s1.mgmt with busy := some (.carveout head p rs) } }

/-- SET_CARVEOUT (R467, R471, R505, R508). -/
def execSetCarveout (inst : Byte) (args : Bytes) (s : State) : Host.Outcome State Fault Refusal :=
  .next (mgmtReady s 0x12 inst (fun head =>
    let mask := uN args 8 16
    let p := partN (u8 args 0)
    if !(args.length == 40 && decide (u8 args 0 ≤ 3) && zeroRange args 1 7 && decide (mask < 2 ^ 72)) then mgmtRespond s head 2 []
    else if carveoutRefused s p (maskRegions mask) then mgmtRespond s head 3 []
    else carveoutTo s head p (maskRegions mask) (uN args 24 16)))

/-- A SET_CARVEOUT whose last region has been zeroed responds (R471). -/
def carveoutZeroed (s : State) (g : Nat) : State :=
  match s.mgmt.busy with
  | some (.carveout head p rs) =>
    if !rs.contains g then s
    else
      let left := rs.filter (fun x => x != g)
      if left.isEmpty then mgmtRespond { s with mgmt := { s.mgmt with busy := none } } head 0 []
      else { s with mgmt := { s.mgmt with busy := some (.carveout head p left) } }
  | _ => s

/-- Whether a region's zeroing is that of a SET_CARVEOUT. -/
def beingAssigned (s : State) (g : Nat) : Bool := match s.mgmt.busy with | some (.carveout _ _ rs) => rs.contains g | _ => false

/-- A region set to zero whole; its assignment, or its release, takes effect. -/
def zeroRegion (s : State) (g : Fin 72) : State :=
  let lo := g.val * regionBytes
  let s1 := updMem s (fun m => m.zero lo (lo + regionBytes))
  if beingAssigned s g.val then carveoutZeroed (updRegion s1 g (fun r => { r with assigned := true, zeroing := false })) g.val
  else reattempt s (updRegion s1 g (fun r => { r with assigned := false, part := 0, zeroing := false }))

/-- REGION_ZEROED (R276, R425, R471): the write of zeros needs every stack ON. -/
def execRegionZeroed (g : Fin 72) (s : State) : Host.Outcome State Fault Refusal :=
  .next (if !s.live || !s.regions[g].zeroing then s else needing s allStacks 10 s (fun s => zeroRegion s g))

/-! ### Coordinates and jobs (R331, R467, R472) -/

/-- POD_EXTENT, FM_GATEWAY and MY_COORD written; none when one of them is refused (R331, R508). -/
def setCoord (s : State) (b : Bytes) : Option State :=
  ((writeExtent s (u32 b 4)).bind (fun s1 => writeGateway s1 (u32 b 8))).bind (fun s2 => writeMyCoord s2 (u32 b 0))

/-- SET_COORD (R329, R331, R467, R508). -/
def execSetCoord (inst : Byte) (args : Bytes) (s : State) : Host.Outcome State Fault Refusal :=
  .next (mgmtReady s 0x13 inst (fun head => mgmtAct s head (args.length == 12) (setCoord s args) []))

/-- Whether a partition has a loaded folio of KIND 0, 1 or 2 (R472). -/
def jobLoaded (s : State) (p : Part) : Bool := s.folios.any (fun f => f.part == p && decide (f.tables.kind ≤ 2))

/-- Whether the arguments of SET_JOB keep R183, R184, R40 and R467: 1 <= JOB_ID < 0xFFFF, a ROLE_GEN of at least 1, a coordinate inside
its box. -/
def setJobOk (b : Bytes) : Bool :=
  b.length == 16 && decide (u8 b 0 ≤ 3) && zeroRange b 1 3 && decide (1 ≤ u16 b 4) && decide (u16 b 4 < 0xFFFF) && decide (1 ≤ u16 b 6) &&
    [0, 1, 2].all (fun i => decide (1 ≤ u8 b (8 + i)) && decide (u8 b (8 + i) ≤ 8) && decide (u8 b (11 + i) < u8 b (8 + i))) &&
    zeroRange b 14 2

/-- A job given to a partition with no loaded job folio. -/
def newJob (s : State) (p : Part) (b : Bytes) : State :=
  let id := BitVec.ofNat 16 (u16 b 4)
  let gen := BitVec.ofNat 16 (u16 b 6)
  let s1 := match s.parts[p].job with | some j => if j.id = id then freeDead s j gen else s | none => s
  updPart s1 p (fun x =>
    { x with job := some { id := id, gen := gen, written := gen, box := (u8 b 8, u8 b 9, u8 b 10), coord := (u8 b 11, u8 b 12, u8 b 13),
                           failed := false, stopped := false, torn := false },
             carveStamp := id ++ gen })

/-- SET_JOB (R184, R472): a new ROLE_GEN of a loaded job is adopted at once after a teardown, which is where the resume takes effect, and
otherwise at the RESHARD. -/
def setJob (s : State) (p : Part) (b : Bytes) : Option State :=
  let gen : Word16 := BitVec.ofNat 16 (u16 b 6)
  if !jobLoaded s p then some (newJob s p b)
  else
    match s.parts[p].job with
    | none => none
    | some j =>
      let same := j.id.toNat == u16 b 4 && j.box == (u8 b 8, u8 b 9, u8 b 10) && j.coord == (u8 b 11, u8 b 12, u8 b 13)
      if !same || decide (gen.toNat ≤ j.gen.toNat) then none
      else if j.torn then some (adoptGen s p gen)
      else some (updPart s p (fun x => { x with job := x.job.map (fun j => { j with written := gen }) }))

/-- SET_JOB (R467, R472). -/
def execSetJob (inst : Byte) (args : Bytes) (s : State) : Host.Outcome State Fault Refusal :=
  .next (mgmtReady s 0x14 inst (fun head =>
    let p := partN (u8 args 0)
    mgmtAct s head (setJobOk args) (if s.parts[p].assigned then setJob s p args else none) []))

/-- CLEAR_JOB (R467, R472). -/
def execClearJob (inst : Byte) (args : Bytes) (s : State) : Host.Outcome State Fault Refusal :=
  .next (mgmtReady s 0x15 inst (fun head =>
    let p := partN (u8 args 0)
    let r := if !s.parts[p].assigned || jobLoaded s p then none
      else some (updPart s p (fun x => { x with job := none, carveStamp := 0 }))
    mgmtAct s head (args.length == 1 && decide (u8 args 0 ≤ 3)) r []))

/-! ### Power, blotter, errors, sensors -/

/-- SET_POWER (R440, R441, R467): it responds when every entry has reached its state or met a refusal. -/
def execSetPower (inst : Byte) (args : Bytes) (s : State) : Host.Outcome State Fault Refusal :=
  .next (mgmtReady s 0x16 inst (fun head =>
    match policyFlaw args with
    | some _ => mgmtRespond s head 2 []
    | none =>
      let ws := policyWaits args
      let s1 := policyFields s args
      let s2 := { s1 with mgmt := { s1.mgmt with busy := some (.power head (policyDomains args) ws) } }
      if ws.isEmpty then answerSetPower s2 else applyPolicy s2 args 10))

/-- BLOTTER_STATUS (R490). -/
def execBlotterStatus (inst : Byte) (args : Bytes) (s : State) : Host.Outcome State Fault Refusal :=
  .next (mgmtServe s 0x20 inst true (fun head =>
    let b := s.blotter
    mgmtAct s head args.isEmpty (some s)
      (le 4 b.head ++ le 4 (if b.frozen then b.freezeSeq else 0) ++ le 4 b.lost ++
        le 4 ((if b.frozen then 1 else 0) + (if b.freezeOnJob then 2 else 0)))))

/-- MANAGEMENT_BLOTTER_READ (R489, R490). -/
def execManagementBlotterRead (inst : Byte) (args : Bytes) (s : State) : Host.Outcome State Fault Refusal :=
  .next (mgmtServe s 0x21 inst true (fun head =>
    mgmtAct s head (args.length == 6 && decide (1 ≤ u16 args 4) && decide (u16 args 4 ≤ 32)) (some s)
      (blotterRead s.blotter (u32 args 0) (u16 args 4))))

/-- The lock released, with its record (R488, R491). -/
def unfreeze (s : State) : State :=
  if !s.blotter.frozen then s
  else
    let s1 := note s 0x81 (unitCpb 6) 0 s.blotter.lost 0 0
    { s1 with blotter := { s1.blotter with frozen := false, lost := 0, freezeSeq := 0 } }

/-- BLOTTER_UNFREEZE (R488, R490): REFUSED while the device is stopped. -/
def execBlotterUnfreeze (inst : Byte) (args : Bytes) (s : State) : Host.Outcome State Fault Refusal :=
  .next (mgmtServe s 0x22 inst true (fun head =>
    mgmtAct s head args.isEmpty (if s.errors.fatal then none else some (unfreeze s)) []))

/-- BLOTTER_CONFIG (R490, R491): FREEZE_ON_JOB. -/
def execBlotterConfig (inst : Byte) (args : Bytes) (s : State) : Host.Outcome State Fault Refusal :=
  .next (mgmtServe s 0x23 inst true (fun head =>
    mgmtAct s head (args.length == 1 && decide (u8 args 0 ≤ 1))
      (some { s with blotter := { s.blotter with freezeOnJob := u8 args 0 == 1 } }) []))

/-- ERROR_STATUS (R490, R508): the error block from 0xA000 to 0xA02F. -/
def execErrorStatus (inst : Byte) (args : Bytes) (s : State) : Host.Outcome State Fault Refusal :=
  .next (mgmtServe s 0x24 inst true (fun head =>
    mgmtAct s head args.isEmpty (some s) ((List.range 12).flatMap (fun i => le 4 (errorWord s none (4 * i))))))

/-- The thermal state sensor (R466). -/
def thermalState (p : Power) : Nat :=
  if p.tripped then 3
  else if p.quads.toList.any (fun q => q.overTemp) then 2
  else if p.quads.toList.any (fun q => q.throttling) then 1
  else 0

/-- The reading of a PLDM sensor (R466). -/
def sensorReading (s : State) (n : Nat) : Option Nat :=
  match n with
  | 1 => some s.power.tjMax
  | 2 => some s.power.powerW
  | 3 => some s.power.inputMv
  | 4 => some (400 + 25 * s.power.quads[(0 : Fin 4)].current)
  | 5 => some (400 + 25 * s.power.quads[(1 : Fin 4)].current)
  | 6 => some (400 + 25 * s.power.quads[(2 : Fin 4)].current)
  | 7 => some (400 + 25 * s.power.quads[(3 : Fin 4)].current)
  | 8 => some s.boot.stage.code
  | 9 => some (thermalState s.power)
  | _ => none

/-- PLDM_SENSOR_READ (R466, R508): the sensor number and its reading. -/
def execPldmSensorRead (sensor : Byte) (s : State) : Host.Outcome State Fault Refusal :=
  .next (if !(s.pins.pwrGood && decide (2 ≤ s.boot.beat)) then s
    else
      match sensorReading s sensor.toNat with
      | none => s
      | some v => { s with mgmt := { s.mgmt with responses := s.mgmt.responses ++ [[sensor] ++ le 4 v] } })

end Sys2Proof.Machine
end

