-- ==== Sys2Proof/Machine/Errors.lean ====
section
/-! DEFINITION. Errors and their timers (R187, R225, R279, R475, R480, R484, R486, R514): local stops that time out, heartbeats, summaries,
the patrol scrubber, cages, quadrant bridges and the CPB. -/

namespace Sys2Proof.Machine

open Sys2Proof

/-- LOCAL_STOP_TIMEOUT (R480, R481, R487): the device applies the teardown to itself. -/
def execLocalStopTimeout (p : Part) (s : State) : Host.Outcome State Fault Refusal :=
  .next (match s.parts[p].job with
    | none => s
    | some j => if s.live && j.stopped && !j.torn then teardown s p 2 else s)

/-! ### Heartbeats (R187, R225, R484) -/

/-- A scribe core's counter at a tick: whether it has advanced, and for how many ticks it has not. -/
def beatTick (x : Nat × Nat) (advanced : Bool) : Nat × Nat := if advanced then (x.1 + 1, 0) else (x.1, x.2 + 1)

/-- The record of one unit's discards since its last (R187, R225, R487): stale returns are kept under the unit raised by 2^16. -/
def staleRecord (s : State) (e : Nat × Nat × Nat) : State :=
  if e.1 < 2 ^ 16 then note s 0x30 e.1 0 e.2.1 e.2.2 0 else note s 0x31 (e.1 - 2 ^ 16) 0 e.2.1 (e.2.2 % 2 ^ 32) (e.2.2 / 2 ^ 32)

/-- Every unit's record, in ascending unit order (R486). -/
def staleRecords (s : State) : State :=
  (sortBy (fun (a b : Nat × Nat × Nat) => decide (a.1 % 2 ^ 16 < b.1 % 2 ^ 16)) s.staleNotes).foldl staleRecord { s with staleNotes := [] }

/-- HEARTBEAT_TICK (R187, R225, R484): operand bit k says that core k's counter has advanced since the tick before. -/
def execHeartbeatTick (beats : BitVec 16) (s : State) : Host.Outcome State Fault Refusal :=
  .next (if !s.pins.pwrGood || !s.errors.supervised || s.power.tripped then s
    else
      let v := Vector.ofFn (fun (k : Fin 16) => beatTick s.errors.beats[k] (beats.getLsbD k.val))
      let s1 := staleRecords { s with errors := { s.errors with beats := v } }
      (List.range 16).foldl (fun s k => if 2 ≤ (v.toArray.getD k (0, 0)).2 then deviceStop s 0x201 (unitScribe k) k 0 else s) s1)

/-- CE_SUMMARY (R479, R486, R487): one record for each unit whose corrected count changed in the second; the reports of the second are
over. -/
def execCeSummary (s : State) : Host.Outcome State Fault Refusal :=
  .next (let l := sortBy (fun (a b : Nat × Nat) => decide (a.1 < b.1)) s.blotter.corrected
    let s1 := { s with blotter := { s.blotter with corrected := [], reported := [] } }
    l.foldl (fun s e => note s 0x70 e.1 0 e.2 0 0) s1)

/-! ### The patrol scrubber (R277, R279) -/

/-- User-visible 32-byte units of a stack: 72 GiB. -/
def visibleUnits : Nat := 72 * 2 ^ 30 / 32

/-- The local address of a user-visible unit. -/
def unitLocal (s : State) (stack n : Nat) : Nat :=
  localOfStack (s.regions[(Fin.ofNat 72 (n * 32 / 2 ^ 30) : Fin 72)]).stackLocal stack (n * 32)

/-- Whether the scrubber of a stack may read: the stack is ON and no request is queued. -/
def scrubTurn (s : State) (n : Stack) : Bool :=
  s.live && domainOn s (stackDomain n.val) && !s.lineQueues.any (fun l => l.target == .hbm n && !l.entries.isEmpty)

/-- The scrubber's read of a unit. -/
def scrubUnit (s : State) (n : Stack) (at_ : Nat) (ecc : Ecc) : State :=
  if at_ < visibleUnits then eccRead s (.hbm n) (unitLocal s n.val at_) ecc
  else
    match ecc with
    | .clean => s
    | .corrected => correctedError (bump s 0x10 n.val 1) (unitHbm n.val)
    | .uncorrectable => deviceStop (bump s 0x11 n.val 1) 0x205 (unitHbm n.val) n.val (at_ * 32)

/-- SCRUB (R277, R279): the next unit of the stack, user-visible units first and device-reserved ones after them. -/
def execScrub (n : Stack) (ecc : Ecc) (s : State) : Host.Outcome State Fault Refusal :=
  .next (if !scrubTurn s n then s
    else
      let at_ := s.scrub[n]
      scrubUnit { s with scrub := s.scrub.set n ((at_ + 1) % (visibleUnits + Config.reservedUnits)) } n at_ ecc)

/-! ### Cages (R514) -/

/-- CAGE_OVER_CURRENT (R514, R517): the cage is switched off and its port goes DOWN. -/
def execCageOverCurrent (p : FPort) (s : State) : Host.Outcome State Fault Refusal :=
  .next (if !(s.pins.pwrGood && decide (8 ≤ p.val) && s.fabric[p].cageOn) then s
    else
      let s1 := updFabric s p (fun x => { x with cageOn := false })
      if s.fabric[p].state == .down || s.fabric[p].state == .failed then s1 else linkDownReport (portDown s1 p .down) p 0)

/-- CABLE_RESEAT (R514): the cage is powered again, and its port may train. -/
def execCableReseat (p : FPort) (s : State) : Host.Outcome State Fault Refusal :=
  .next (if !(s.pins.pwrGood && decide (8 ≤ p.val) && !s.fabric[p].cageOn) then s
    else startTraining (updFabric s p (fun x => { x with cageOn := true })) p)

/-! ### Bridges and the CPB (R475) -/

/-- BRIDGE_LINK_CRC_FAIL (R475): the flit is re-sent; the sixteenth failed re-send of one flit stops the device. Whether the failure is of
the flit that failed last is a free value, since nothing tells of a flit that gets through. -/
def execBridgeLinkCrcFail (q : Quad) (s : State) : Host.Outcome State Fault Refusal :=
  .next (if !s.live then s
    else
      let f := drawFree s
      let n := if 0 < s.bridge[q] ∧ f.1 % 2 = 1 then s.bridge[q] + 1 else 1
      let s1 := { f.2 with bridge := s.bridge.set q n }
      if 17 ≤ n then deviceStop s1 0x204 (unitQuad q.val 2) q.val 0 else containedError s1 0x142 (unitQuad q.val 2) 0 q.val)

/-- CPB_FAULT (R475, R483). -/
def execCpbFault (block : Byte) (s : State) : Host.Outcome State Fault Refusal :=
  .next (if s.pins.pwrGood && decide (2 ≤ s.boot.beat) && !s.power.tripped then
      deviceStop s 0x206 (unitCpb block.toNat) block.toNat 0
    else s)

end Sys2Proof.Machine
end

