-- ==== Sys2Proof/Machine/Telemetry.lean ====
section
/-! DEFINITION. TELEMETRY_SNAPSHOT (R413, R443, R491). -/

namespace Sys2Proof.Machine

open Sys2Proof

/-- The counters by ascending COUNTER_ID, each with the number of its indexes (R413, R443, R491). -/
def telemetryIds : List (Nat × Nat) :=
  [(0x0001, 1), (0x0002, 4), (0x0003, 1), (0x0004, 1), (0x0005, 1), (0x0006, 1), (0x0007, 1), (0x0010, 8), (0x0011, 8), (0x0020, 128)] ++
  [(0x0021, 16), (0x0022, 16), (0x0023, 16), (0x0024, 16), (0x0025, 16), (0x0026, 16), (0x0027, 16)] ++
  [(0x0030, 1), (0x0031, 1), (0x0032, 1), (0x0033, 1), (0x0034, 1), (0x0035, 1), (0x0036, 1), (0x0040, 4), (0x0041, 2), (0x0042, 2)] ++
  [(0x0050, 5), (0x0051, 5), (0x0052, 1), (0x0053, 1)] ++
  [(0x0100, 73), (0x0101, 73), (0x0102, 73), (0x0103, 73), (0x0104, 73), (0x0110, 4), (0x0111, 4), (0x0112, 4), (0x0120, 4), (0x0121, 4)] ++
  [(0x0122, 1)]

/-- Every counter with its index. -/
def telemetryKeys : List (Nat × Nat) := telemetryIds.flatMap (fun e => (List.range e.2).map (fun i => (e.1, i)))

/-- One entry of the snapshot. -/
def telemetryEntry (s : State) (k : Nat × Nat) : Bytes := le 2 k.1 ++ le 2 k.2 ++ zeros 4 ++ le 8 (s.counter k.1 k.2)

/-- The snapshot: header and entries in ascending order. -/
def telemetryBytes (s : State) : Bytes :=
  le 4 telemetryKeys.length ++ zeros 4 ++ le 8 s.timeBase ++ telemetryKeys.flatMap (telemetryEntry s)

/-- TELEMETRY_SNAPSHOT (R413, R443, R491). -/
def execTelemetrySnapshot (p : Part) (q : Fin 16) (s : State) : Host.Outcome State Fault Refusal :=
  .next (match startable s p q 0x61 with
    | none => s
    | some c => giveResult (begun s c.uid) c (telemetryBytes s))

end Sys2Proof.Machine
end

