-- ==== Sys2Proof/Machine/Dispatch.lean ====
section
/-! DEFINITION. One arm for each command. -/

namespace Sys2Proof.Machine

/-- The effect of a command on everything but the queue of waiting commands. -/
def exec (i : Instr) (s : State) : Host.Outcome State Fault Refusal :=
  match i with
  | .nop p q => Sys2Proof.Machine.execNop p q s
  | .fence p q => Sys2Proof.Machine.execFence p q s
  | .copyIn p q => Sys2Proof.Machine.execCopyIn p q s
  | .copyOut p q => Sys2Proof.Machine.execCopyOut p q s
  | .copyComplete id data => Sys2Proof.Machine.execCopyComplete id data s
  | .loadFolio p q => Sys2Proof.Machine.execLoadFolio p q s
  | .finalizationStart h image => Sys2Proof.Machine.execFinalizationStart h image s
  | .finalizationComplete h => Sys2Proof.Machine.execFinalizationComplete h s
  | .finalizationTimeout h => Sys2Proof.Machine.execFinalizationTimeout h s
  | .unloadFolio p q => Sys2Proof.Machine.execUnloadFolio p q s
  | .run p q => Sys2Proof.Machine.execRun p q s
  | .step p q => Sys2Proof.Machine.execStep p q s
  | .jobStart h => Sys2Proof.Machine.execJobStart h s
  | .suspend p q => Sys2Proof.Machine.execSuspend p q s
  | .resume p q => Sys2Proof.Machine.execResume p q s
  | .cancel p q => Sys2Proof.Machine.execCancel p q s
  | .checkpointWrite p q => Sys2Proof.Machine.execCheckpointWrite p q s
  | .checkpointBoundary h => Sys2Proof.Machine.execCheckpointBoundary h s
  | .snapshotCopyDone h => Sys2Proof.Machine.execSnapshotCopyDone h s
  | .checkpointDrainDone h => Sys2Proof.Machine.execCheckpointDrainDone h s
  | .checkpointRead p q => Sys2Proof.Machine.execCheckpointRead p q s
  | .reshard p q => Sys2Proof.Machine.execReshard p q s
  | .pair p q => Sys2Proof.Machine.execPair p q s
  | .unpair p q => Sys2Proof.Machine.execUnpair p q s
  | .query p q => Sys2Proof.Machine.execQuery p q s
  | .telemetrySnapshot p q => Sys2Proof.Machine.execTelemetrySnapshot p q s
  | .blotterRead p q => Sys2Proof.Machine.execBlotterRead p q s
  | .attest p q => Sys2Proof.Machine.execAttest p q s
  | .powerPolicy p q policy => Sys2Proof.Machine.execPowerPolicy p q policy s
  | .doorbellRead r => Sys2Proof.Machine.execDoorbellRead r s
  | .nudge port reads => Sys2Proof.Machine.execNudge port reads s
  | .coalUs p x1 => Sys2Proof.Machine.execCoalUs p x1 s
  | .registerWrite port offset wide value => Sys2Proof.Machine.execRegisterWrite port offset wide value s
  | .ringEnable port p r cfg => Sys2Proof.Machine.execRingEnable port p r cfg s
  | .partCtrl port p value => Sys2Proof.Machine.execPartCtrl port p value s
  | .errStatus port value hwSet => Sys2Proof.Machine.execErrStatus port value hwSet s
  | .hostLock port value => Sys2Proof.Machine.execHostLock port value s
  | .vectorCtrl port v value => Sys2Proof.Machine.execVectorCtrl port v value s
  | .bar4Access port offset op => Sys2Proof.Machine.execBar4Access port offset op s
  | .portReset port kind => Sys2Proof.Machine.execPortReset port kind s
  | .perst port => Sys2Proof.Machine.execPerst port s
  | .pcieLinkUp port rate width => Sys2Proof.Machine.execPcieLinkUp port rate width s
  | .go port value => Sys2Proof.Machine.execGo port value s
  | .imageFetchDone image => Sys2Proof.Machine.execImageFetchDone image s
  | .imageVerifyDone => Sys2Proof.Machine.execImageVerifyDone s
  | .bootReady how => Sys2Proof.Machine.execBootReady how s
  | .powerGood eeprom seed => Sys2Proof.Machine.execPowerGood eeprom seed s
  | .powerGoodLost => Sys2Proof.Machine.execPowerGoodLost s
  | .modResetN => Sys2Proof.Machine.execModResetN s
  | .getCertificate inst args => Sys2Proof.Machine.execGetCertificate inst args s
  | .managementAttest inst args => Sys2Proof.Machine.execManagementAttest inst args s
  | .getBoot inst args => Sys2Proof.Machine.execGetBoot inst args s
  | .resetDevice inst args => Sys2Proof.Machine.execResetDevice inst args s
  | .assignPartition inst args => Sys2Proof.Machine.execAssignPartition inst args s
  | .releasePartition inst args => Sys2Proof.Machine.execReleasePartition inst args s
  | .setCarveout inst args => Sys2Proof.Machine.execSetCarveout inst args s
  | .regionZeroed region => Sys2Proof.Machine.execRegionZeroed region s
  | .setCoord inst args => Sys2Proof.Machine.execSetCoord inst args s
  | .setJob inst args => Sys2Proof.Machine.execSetJob inst args s
  | .clearJob inst args => Sys2Proof.Machine.execClearJob inst args s
  | .setPower inst args => Sys2Proof.Machine.execSetPower inst args s
  | .blotterStatus inst args => Sys2Proof.Machine.execBlotterStatus inst args s
  | .managementBlotterRead inst args => Sys2Proof.Machine.execManagementBlotterRead inst args s
  | .blotterUnfreeze inst args => Sys2Proof.Machine.execBlotterUnfreeze inst args s
  | .blotterConfig inst args => Sys2Proof.Machine.execBlotterConfig inst args s
  | .errorStatus inst args => Sys2Proof.Machine.execErrorStatus inst args s
  | .pldmSensorRead sensor => Sys2Proof.Machine.execPldmSensorRead sensor s
  | .sysRead k => Sys2Proof.Machine.execSysRead k s
  | .sysWrite k => Sys2Proof.Machine.execSysWrite k s
  | .sysReply k => Sys2Proof.Machine.execSysReply k s
  | .sysMessage k => Sys2Proof.Machine.execSysMessage k s
  | .fmTransmit p entry => Sys2Proof.Machine.execFmTransmit p entry s
  | .myCoord k => Sys2Proof.Machine.execMyCoord k s
  | .bankCtrl k => Sys2Proof.Machine.execBankCtrl k s
  | .fportEnable k => Sys2Proof.Machine.execFportEnable k s
  | .hbmRegion k => Sys2Proof.Machine.execHbmRegion k s
  | .settingsLock k => Sys2Proof.Machine.execSettingsLock k s
  | .holdPair k => Sys2Proof.Machine.execHoldPair k s
  | .resetPair k => Sys2Proof.Machine.execResetPair k s
  | .teardown k => Sys2Proof.Machine.execTeardown k s
  | .retrainPort k => Sys2Proof.Machine.execRetrainPort k s
  | .trainingFrame p l frame => Sys2Proof.Machine.execTrainingFrame p l frame s
  | .measureComplete p rttNs fixed => Sys2Proof.Machine.execMeasureComplete p rttNs fixed s
  | .trainingTimeout p => Sys2Proof.Machine.execTrainingTimeout p s
  | .trainingRetry p => Sys2Proof.Machine.execTrainingRetry p s
  | .serWindow p => Sys2Proof.Machine.execSerWindow p s
  | .lossOfLock p l => Sys2Proof.Machine.execLossOfLock p l s
  | .lossOfSignal p => Sys2Proof.Machine.execLossOfSignal p s
  | .codeword p x1 => Sys2Proof.Machine.execCodeword p x1 s
  | .codewordSend p => Sys2Proof.Machine.execCodewordSend p s
  | .packetRoute src => Sys2Proof.Machine.execPacketRoute src s
  | .packetInject k => Sys2Proof.Machine.execPacketInject k s
  | .packetDelivery k => Sys2Proof.Machine.execPacketDelivery k s
  | .e2eAck k => Sys2Proof.Machine.execE2eAck k s
  | .ackTimer peer x1 => Sys2Proof.Machine.execAckTimer peer x1 s
  | .resendTimer peer x1 => Sys2Proof.Machine.execResendTimer peer x1 s
  | .congestionSample => Sys2Proof.Machine.execCongestionSample s
  | .strokeOpen q => Sys2Proof.Machine.execStrokeOpen q s
  | .computeEnd q => Sys2Proof.Machine.execComputeEnd q s
  | .strokeClose q => Sys2Proof.Machine.execStrokeClose q s
  | .dmaFence q => Sys2Proof.Machine.execDmaFence q s
  | .strokeStall q => Sys2Proof.Machine.execStrokeStall q s
  | .stepComplete h => Sys2Proof.Machine.execStepComplete h s
  | .fillerCommit p => Sys2Proof.Machine.execFillerCommit p s
  | .fillerCommitDone p => Sys2Proof.Machine.execFillerCommitDone p s
  | .matmul h op => Sys2Proof.Machine.execMatmul h op s
  | .expertMatmul h op => Sys2Proof.Machine.execExpertMatmul h op s
  | .amax h op => Sys2Proof.Machine.execAmax h op s
  | .convert h op => Sys2Proof.Machine.execConvert h op s
  | .eltwise h op => Sys2Proof.Machine.execEltwise h op s
  | .activation h op => Sys2Proof.Machine.execActivation h op s
  | .norm h op => Sys2Proof.Machine.execNorm h op s
  | .softmax h op => Sys2Proof.Machine.execSoftmax h op s
  | .loss h op => Sys2Proof.Machine.execLoss h op s
  | .reduce h op => Sys2Proof.Machine.execReduce h op s
  | .topk h op => Sys2Proof.Machine.execTopk h op s
  | .route h op => Sys2Proof.Machine.execRoute h op s
  | .combine h op => Sys2Proof.Machine.execCombine h op s
  | .routeBack h op => Sys2Proof.Machine.execRouteBack h op s
  | .gateGrad h op => Sys2Proof.Machine.execGateGrad h op s
  | .bucketAdd h op => Sys2Proof.Machine.execBucketAdd h op s
  | .lowrankFactor h op => Sys2Proof.Machine.execLowrankFactor h op s
  | .update h op => Sys2Proof.Machine.execUpdate h op s
  | .gatherParams h op => Sys2Proof.Machine.execGatherParams h op s
  | .copy h op => Sys2Proof.Machine.execCopy h op s
  | .transpose h op => Sys2Proof.Machine.execTranspose h op s
  | .rowGather h op => Sys2Proof.Machine.execRowGather h op s
  | .rowScatter h op => Sys2Proof.Machine.execRowScatter h op s
  | .permute h op => Sys2Proof.Machine.execPermute h op s
  | .pairedSend h op => Sys2Proof.Machine.execPairedSend h op s
  | .pairedRecv h op => Sys2Proof.Machine.execPairedRecv h op s
  | .roamStart h op => Sys2Proof.Machine.execRoamStart h op s
  | .tokenWait h op => Sys2Proof.Machine.execTokenWait h op s
  | .powerRest h op => Sys2Proof.Machine.execPowerRest h op s
  | .load core t => Sys2Proof.Machine.execLoad core t s
  | .store core t => Sys2Proof.Machine.execStore core t s
  | .atomic core t => Sys2Proof.Machine.execAtomic core t s
  | .alu core t => Sys2Proof.Machine.execAlu core t s
  | .branch core t => Sys2Proof.Machine.execBranch core t s
  | .hash core t => Sys2Proof.Machine.execHash core t s
  | .tokenSignal core t => Sys2Proof.Machine.execTokenSignal core t s
  | .endProgram core t => Sys2Proof.Machine.execEndProgram core t s
  | .trackerGrant cluster => Sys2Proof.Machine.execTrackerGrant cluster s
  | .memReply k cluster idx => Sys2Proof.Machine.execMemReply k cluster idx s
  | .memLoad k => Sys2Proof.Machine.execMemLoad k s
  | .memStore k => Sys2Proof.Machine.execMemStore k s
  | .memAtomic k => Sys2Proof.Machine.execMemAtomic k s
  | .lineQueueServe t ecc => Sys2Proof.Machine.execLineQueueServe t ecc s
  | .exchData k => Sys2Proof.Machine.execExchData k s
  | .endMarker k => Sys2Proof.Machine.execEndMarker k s
  | .readyMarker k => Sys2Proof.Machine.execReadyMarker k s
  | .routedData k => Sys2Proof.Machine.execRoutedData k s
  | .ductusDrain k => Sys2Proof.Machine.execDuctusDrain k s
  | .ductusDrainAckReturn n => Sys2Proof.Machine.execDuctusDrainAckReturn n s
  | .ductusDrainAck k => Sys2Proof.Machine.execDuctusDrainAck k s
  | .instanceOpen e => Sys2Proof.Machine.execInstanceOpen e s
  | .data k => Sys2Proof.Machine.execData k s
  | .header k => Sys2Proof.Machine.execHeader k s
  | .credit k => Sys2Proof.Machine.execCredit k s
  | .ready k => Sys2Proof.Machine.execReady k s
  | .lenientDeadline e tag phase => Sys2Proof.Machine.execLenientDeadline e tag phase s
  | .bitmap k => Sys2Proof.Machine.execBitmap k s
  | .drain k => Sys2Proof.Machine.execDrain k s
  | .drainAckReturn n => Sys2Proof.Machine.execDrainAckReturn n s
  | .drainAck k => Sys2Proof.Machine.execDrainAck k s
  | .gatherReq k => Sys2Proof.Machine.execGatherReq k s
  | .gatherServe n => Sys2Proof.Machine.execGatherServe n s
  | .gatherData k => Sys2Proof.Machine.execGatherData k s
  | .ckptData k => Sys2Proof.Machine.execCkptData k s
  | .ckptCredit k => Sys2Proof.Machine.execCkptCredit k s
  | .ckptEnd k => Sys2Proof.Machine.execCkptEnd k s
  | .ckptPull k => Sys2Proof.Machine.execCkptPull k s
  | .ckptDone k => Sys2Proof.Machine.execCkptDone k s
  | .domainWakeStart q => Sys2Proof.Machine.execDomainWakeStart q s
  | .domainWakeDone d => Sys2Proof.Machine.execDomainWakeDone d s
  | .domainEntryDone d => Sys2Proof.Machine.execDomainEntryDone d s
  | .bandIdle b => Sys2Proof.Machine.execBandIdle b s
  | .hbmIdle => Sys2Proof.Machine.execHbmIdle s
  | .quncoreIdle q => Sys2Proof.Machine.execQuncoreIdle q s
  | .pcieIdle port => Sys2Proof.Machine.execPcieIdle port s
  | .trickleGuard d tempC => Sys2Proof.Machine.execTrickleGuard d tempC s
  | .brownout d => Sys2Proof.Machine.execBrownout d s
  | .powerSample longWindow watts => Sys2Proof.Machine.execPowerSample longWindow watts s
  | .thermalReading sensors => Sys2Proof.Machine.execThermalReading sensors s
  | .overTemp q => Sys2Proof.Machine.execOverTemp q s
  | .inputRange mv => Sys2Proof.Machine.execInputRange mv s
  | .droopExcursion q excessMv => Sys2Proof.Machine.execDroopExcursion q excessMv s
  | .droopEnd q stretched worstMv => Sys2Proof.Machine.execDroopEnd q stretched worstMv s
  | .aclkStep q => Sys2Proof.Machine.execAclkStep q s
  | .localStopTimeout p => Sys2Proof.Machine.execLocalStopTimeout p s
  | .heartbeatTick beats => Sys2Proof.Machine.execHeartbeatTick beats s
  | .ceSummary => Sys2Proof.Machine.execCeSummary s
  | .scrub stack ecc => Sys2Proof.Machine.execScrub stack ecc s
  | .modResetNRelease => Sys2Proof.Machine.execModResetNRelease s
  | .cageOverCurrent p => Sys2Proof.Machine.execCageOverCurrent p s
  | .cableReseat p => Sys2Proof.Machine.execCableReseat p s
  | .checkpointReadDone h image => Sys2Proof.Machine.execCheckpointReadDone h image s
  | .pcieDState port hot => Sys2Proof.Machine.execPcieDState port hot s
  | .bridgeLinkCrcFail q => Sys2Proof.Machine.execBridgeLinkCrcFail q s
  | .cpbFault block => Sys2Proof.Machine.execCpbFault block s

end Sys2Proof.Machine
end

