-- ==== Sys2Proof/Machine/Step.lean ====
section
/-! DEFINITION. One step: the command at the front of the queue, or a clock tick of the idle device. -/

namespace Sys2Proof.Machine

/-- One MCLK cycle without a command: the time base advances by 10 ns while PD_AON has power (R26, log entry 7). -/
def State.tick (s : State) : State :=
  if s.pins.pwrGood then { s with timeBase := (s.timeBase + 10) % 2 ^ 64 } else s

/-- The command at the front of the queue is carried out with the rest of the queue; an idle device ticks. -/
def step (s : State) : Host.Outcome State Fault Refusal :=
  match s.pending with
  | [] => .next s.tick
  | c :: rest => exec c { s with pending := rest }

/-- The state with the command that a word spells at the front of its queue. -/
def State.withFetchWord (s : State) (nbits w : Nat) : State :=
  match decodeTableWord nbits w with
  | some c => { s with pending := c :: s.pending }
  | none => s

end Sys2Proof.Machine
end

