-- ==== Sys2Proof/WellFormed.lean ====
section
/-! DEFINITION. Which command terms are well formed: operands that are wider in the type than on the device are in range, and
runs of bytes have the length the device reads. -/

namespace Sys2Proof

/-- A doorbell read brings whole ring entries: 64-byte descriptors, or 576-byte FM transmit entries (R389). -/
def DoorbellRead.wf (r : DoorbellRead) : Bool :=
  match r.ring with
  | .sq _ => r.entries.all (fun e => e.length == 64)
  | .fmtx => r.entries.all (fun e => e.length == 576)
  | .cq _ => r.entries.isEmpty
  | .eq => r.entries.isEmpty
  | .fmrx => r.entries.isEmpty

/-- A good codeword has a HEAD of 0 to 9 and ten flits (R307). -/
def CodewordIn.wf (c : CodewordIn) : Bool :=
  match c with
  | .good head _ flits _ => decide (head.toNat ≤ 9) && flits.length == 10
  | .bad => true

/-- A cluster target is a cluster 0 to 4,999 (R14). -/
def LineTarget.wf (t : LineTarget) : Bool :=
  match t with
  | .hbm _ => true
  | .cluster c => decide (c < 5000)

/-- A BAR4 access of at least one byte that stays in the 64 GiB window (R381). -/
def Bar4Op.wf (op : Bar4Op) (offset : BitVec 36) : Bool :=
  match op with
  | .read len => decide (0 < len) && decide (offset.toNat + len ≤ 2 ^ 36)
  | .write data => decide (0 < data.length) && decide (offset.toNat + data.length ≤ 2 ^ 36)

/-- A roaming thread: a core 0 to 79,999 and a thread 1 to 7 (R15, R138). -/
def threadWf (core : Nat) (t : Fin 8) : Bool := decide (core < 80000) && t.val != 0

/-- At most n bytes, when there are any. -/
def optLen (n : Nat) (b : Option Bytes) : Bool :=
  match b with
  | none => true
  | some b => decide (b.length ≤ n)

/-- Exactly n bytes, when there are any. -/
def optExact (n : Nat) (b : Option Bytes) : Bool :=
  match b with
  | none => true
  | some b => b.length == n

/-- The well-formed commands. -/
def Instr.wf (i : Instr) : Bool :=
  match i with
  | .nop _ _ => true
  | .fence _ _ => true
  | .copyIn _ _ => true
  | .copyOut _ _ => true
  | .copyComplete _ _ => true
  | .loadFolio _ _ => true
  | .finalizationStart _ _ => true
  | .finalizationComplete _ => true
  | .finalizationTimeout _ => true
  | .unloadFolio _ _ => true
  | .run _ _ => true
  | .step _ _ => true
  | .jobStart _ => true
  | .suspend _ _ => true
  | .resume _ _ => true
  | .cancel _ _ => true
  | .checkpointWrite _ _ => true
  | .checkpointBoundary _ => true
  | .snapshotCopyDone _ => true
  | .checkpointDrainDone _ => true
  | .checkpointRead _ _ => true
  | .reshard _ _ => true
  | .pair _ _ => true
  | .unpair _ _ => true
  | .query _ _ => true
  | .telemetrySnapshot _ _ => true
  | .blotterRead _ _ => true
  | .attest _ _ => true
  | .powerPolicy _ _ _ => true
  | .doorbellRead r => r.wf
  | .nudge _ reads => reads.all DoorbellRead.wf
  | .coalUs _ _ => true
  | .registerWrite _ offset wide _ => offset.toNat % (if wide then 8 else 4) == 0
  | .ringEnable _ _ _ _ => true
  | .partCtrl _ _ _ => true
  | .errStatus _ _ _ => true
  | .hostLock _ _ => true
  | .vectorCtrl _ _ _ => true
  | .bar4Access _ offset op => op.wf offset
  | .portReset _ _ => true
  | .perst _ => true
  | .pcieLinkUp _ rate width => decide (1 ≤ rate.val) && (width.val == 1 || width.val == 2 || width.val == 4)
  | .go _ _ => true
  | .imageFetchDone _ => true
  | .imageVerifyDone => true
  | .bootReady _ => true
  | .powerGood eeprom seed => optLen 262144 eeprom && optExact 32 seed
  | .powerGoodLost => true
  | .modResetN => true
  | .getCertificate _ _ => true
  | .managementAttest _ _ => true
  | .getBoot _ _ => true
  | .resetDevice _ _ => true
  | .assignPartition _ _ => true
  | .releasePartition _ _ => true
  | .setCarveout _ _ => true
  | .regionZeroed _ => true
  | .setCoord _ _ => true
  | .setJob _ _ => true
  | .clearJob _ _ => true
  | .setPower _ _ => true
  | .blotterStatus _ _ => true
  | .managementBlotterRead _ _ => true
  | .blotterUnfreeze _ _ => true
  | .blotterConfig _ _ => true
  | .errorStatus _ _ => true
  | .pldmSensorRead _ => true
  | .sysRead _ => true
  | .sysWrite _ => true
  | .sysReply _ => true
  | .sysMessage _ => true
  | .fmTransmit _ entry => entry.length == 576
  | .myCoord _ => true
  | .bankCtrl _ => true
  | .fportEnable _ => true
  | .hbmRegion _ => true
  | .settingsLock _ => true
  | .holdPair _ => true
  | .resetPair _ => true
  | .teardown _ => true
  | .retrainPort _ => true
  | .trainingFrame _ _ _ => true
  | .measureComplete _ _ _ => true
  | .trainingTimeout _ => true
  | .trainingRetry _ => true
  | .serWindow _ => true
  | .lossOfLock _ _ => true
  | .lossOfSignal _ => true
  | .codeword _ c => c.wf
  | .codewordSend _ => true
  | .packetRoute _ => true
  | .packetInject _ => true
  | .packetDelivery _ => true
  | .e2eAck _ => true
  | .ackTimer _ _ => true
  | .resendTimer _ _ => true
  | .congestionSample => true
  | .strokeOpen _ => true
  | .computeEnd _ => true
  | .strokeClose _ => true
  | .dmaFence _ => true
  | .strokeStall _ => true
  | .stepComplete _ => true
  | .fillerCommit _ => true
  | .fillerCommitDone _ => true
  | .matmul _ _ => true
  | .expertMatmul _ _ => true
  | .amax _ _ => true
  | .convert _ _ => true
  | .eltwise _ _ => true
  | .activation _ _ => true
  | .norm _ _ => true
  | .softmax _ _ => true
  | .loss _ _ => true
  | .reduce _ _ => true
  | .topk _ _ => true
  | .route _ _ => true
  | .combine _ _ => true
  | .routeBack _ _ => true
  | .gateGrad _ _ => true
  | .bucketAdd _ _ => true
  | .lowrankFactor _ _ => true
  | .update _ _ => true
  | .gatherParams _ _ => true
  | .copy _ _ => true
  | .transpose _ _ => true
  | .rowGather _ _ => true
  | .rowScatter _ _ => true
  | .permute _ _ => true
  | .pairedSend _ _ => true
  | .pairedRecv _ _ => true
  | .roamStart _ _ => true
  | .tokenWait _ _ => true
  | .powerRest _ _ => true
  | .load core t => threadWf core t
  | .store core t => threadWf core t
  | .atomic core t => threadWf core t
  | .alu core t => threadWf core t
  | .branch core t => threadWf core t
  | .hash core t => threadWf core t
  | .tokenSignal core t => threadWf core t
  | .endProgram core t => threadWf core t
  | .trackerGrant cluster => decide (cluster < 5000)
  | .memReply _ cluster _ => decide (cluster < 5000)
  | .memLoad _ => true
  | .memStore _ => true
  | .memAtomic _ => true
  | .lineQueueServe t _ => t.wf
  | .exchData _ => true
  | .endMarker _ => true
  | .readyMarker _ => true
  | .routedData _ => true
  | .ductusDrain _ => true
  | .ductusDrainAckReturn _ => true
  | .ductusDrainAck _ => true
  | .instanceOpen _ => true
  | .data _ => true
  | .header _ => true
  | .credit _ => true
  | .ready _ => true
  | .lenientDeadline _ _ _ => true
  | .bitmap _ => true
  | .drain _ => true
  | .drainAckReturn _ => true
  | .drainAck _ => true
  | .gatherReq _ => true
  | .gatherServe _ => true
  | .gatherData _ => true
  | .ckptData _ => true
  | .ckptCredit _ => true
  | .ckptEnd _ => true
  | .ckptPull _ => true
  | .ckptDone _ => true
  | .domainWakeStart _ => true
  | .domainWakeDone d => d.val != 0
  | .domainEntryDone d => d.val != 0
  | .bandIdle _ => true
  | .hbmIdle => true
  | .quncoreIdle _ => true
  | .pcieIdle _ => true
  | .trickleGuard d _ => d.val != 0
  | .brownout d => d.val != 0
  | .powerSample _ _ => true
  | .thermalReading sensors => sensors.all (fun x => decide (x.1 < 80))
  | .overTemp _ => true
  | .inputRange _ => true
  | .droopExcursion _ _ => true
  | .droopEnd _ _ _ => true
  | .aclkStep _ => true
  | .localStopTimeout _ => true
  | .heartbeatTick _ => true
  | .ceSummary => true
  | .scrub _ _ => true
  | .modResetNRelease => true
  | .cageOverCurrent _ => true
  | .cableReseat _ => true
  | .checkpointReadDone _ _ => true
  | .pcieDState _ _ => true
  | .bridgeLinkCrcFail _ => true
  | .cpbFault block => decide (block.toNat ≤ 6)

end Sys2Proof
end

