-- ==== Sys2Proof/Safety.lean ====
section
/-! DEFINITION. What counts as a safe run: every command that was waiting is well formed and the machine reaches a next state
at each of the steps. And what a state of the device always is: memory in its canonical form, the blotter's slots, the clock
settings and the device settings in their ranges. -/

namespace Sys2Proof.Machine

/-- Every waiting command is well formed. -/
def State.queueWf (s : State) : Bool := s.pending.all Instr.wf

/-- An outcome that is a next state. -/
def isNext (o : Host.Outcome State Fault Refusal) : Bool :=
  match o with
  | .next _ => true
  | .fault _ => false
  | .refused _ => false

/-- Device memory and the host memory behind each port are in their canonical form. -/
def State.memOk (s : State) : Prop := s.mem.wf = true ∧ ∀ p : Port, s.ports[p].host.wf = true

/-- The blotter holds at most one record in each of its 2,048 slots, and every record was written before HEAD (R485). -/
def Blotter.ok (b : Blotter) : Prop := (∀ e ∈ b.slots, e.1 < 2048 ∧ e.2.1 < b.head) ∧ (b.slots.map (fun e => e.1)).Nodup

/-- The setting in use and the two ceilings of a quadrant are at most 26, which is 1,050 MHz (R434). -/
def QuadClock.ok (x : QuadClock) : Prop := x.current ≤ 26 ∧ x.capCeiling ≤ 26 ∧ x.thermalCeiling ≤ 26

/-- The clock settings of every quadrant are in range. -/
def State.clocksOk (s : State) : Prop := ∀ q : Quad, s.power.quads[q].ok

/-- Every device setting keeps the range of R502. -/
def Settings.ok (x : Settings) : Prop :=
  (1 ≤ x.stallLimit ∧ x.stallLimit ≤ 65535) ∧ (1 ≤ x.scrubHours ∧ x.scrubHours ≤ 168) ∧
  (10 ≤ x.hbmIdleUs ∧ x.hbmIdleUs ≤ 10000) ∧ (2 ≤ x.trickleDelta ∧ x.trickleDelta ≤ 20) ∧ (1 ≤ x.serPpm ∧ x.serPpm ≤ 10000) ∧
  ∀ i : Fin 12, 9 ≤ x.quota[i] ∧ x.quota[i] ≤ (if i.val % 3 = 0 then 1572 else if i.val % 3 = 1 then 3151 else 4279)

/-- What every state of the device is. -/
def State.sound (s : State) : Prop := s.memOk ∧ s.blotter.ok ∧ s.clocksOk ∧ s.settings.ok ∧ s.timeBase < 2 ^ 64

/-- The commands that reset the whole device, or do when a held reset is due (R438, R444, R446). -/
def mayReset (c : Instr) : Bool :=
  match c with
  | .powerGood _ _ | .powerGoodLost | .modResetN | .resetDevice _ _ | .thermalReading _ => true
  | _ => false

/-- The commands that may write a boot register, an input pin, a device setting, or the place of a scrubber or of a bridge. -/
def writesControl (c : Instr) : Bool :=
  match c with
  | .registerWrite _ _ _ _ | .portReset _ _ | .perst _ | .pcieLinkUp _ _ _ | .go _ _ | .imageFetchDone _ | .imageVerifyDone | .bootReady _ | .sysWrite _
  | .myCoord _ | .bankCtrl _ | .fportEnable _ | .hbmRegion _ | .settingsLock _ | .domainWakeDone _ | .scrub _ _ | .modResetNRelease | .bridgeLinkCrcFail _ => true
  | _ => false

/-- The completion ring that takes the records of a command (R389, R401). -/
def ringOf (s : State) (c : Cmd) : CompRing := s.parts[c.part].cq[s.parts[c.part].sq[c.sq].cqSel]

/-- No record and no FENCE waits. -/
def quietRings (s : State) : Prop := (∀ p : Part, ∀ q : Fin 16, s.parts[p].cq[q].waiting = []) ∧ ∀ d ∈ s.cmds, d.fence = none

/-- The command is in flight, no other record and no FENCE waits, and its completion ring can take a record at once (R392, R400). -/
def quietFor (s : State) (c : Cmd) : Prop :=
  (∀ p : Part, ∀ q : Fin 16, s.parts[p].cq[q].waiting = []) ∧ (∀ d ∈ s.cmds, d.fence = none) ∧ cmdOf s c.uid = some c ∧
  ((ringOf s c).ring.usable = true ∧ 0 < (ringOf s c).ring.free ∧ portPosts s s.parts[c.part].port = true)

/-- A record of a command with these fields (R399). -/
def Completion.isFor (r : Completion) (c : Cmd) (kind status reason d0 d1 : Nat) : Prop :=
  r.tag = BitVec.ofNat 32 (u32 c.desc 4) ∧ r.handle = c.handle ∧ r.sq = c.sq ∧ r.opcode = BitVec.ofNat 8 (u8 c.desc 0) ∧
  r.kind = BitVec.ofNat 8 kind ∧ r.status = BitVec.ofNat 8 status ∧ r.reason = BitVec.ofNat 16 reason ∧
  r.detail0 = BitVec.ofNat 32 d0 ∧ r.detail1 = BitVec.ofNat 32 d1

/-- The command has completed: its FINAL record is the newest of its ring and it has left flight (R397, R401). -/
def finishedAs (s t : State) (c : Cmd) (status reason d0 d1 : Nat) : Prop :=
  (∃ r : Completion, (ringOf t c).unread = (ringOf s c).unread ++ [r] ∧ r.isFor c 0 status reason d0 d1) ∧
  (ringOf t c).ring.posted = (ringOf s c).ring.posted + 1 ∧ cmdOf t c.uid = none

/-- An address of host memory that the record of a command or its interrupt message takes (R389, R498). -/
def postsTo (s : State) (c : Cmd) (a : Nat) : Prop :=
  let r := (ringOf s c).ring
  let m := (s.ports[s.parts[c.part].port].msix.toArray.getD r.vector ⟨0, 0, 1⟩).addr.toNat
  (r.entryAddr r.posted 32 ≤ a ∧ a < r.entryAddr r.posted 32 + 32) ∨ (m ≤ a ∧ a < m + 4)

/-- The result of a command is in host memory at RESULT_ADDR, but where its own record or message lies over it (R395, R403). -/
def resultAt (s t : State) (c : Cmd) (b : Bytes) : Prop :=
  ∀ i, i < b.length → ¬postsTo s c (u64 c.desc 16 + i) → t.ports[s.parts[c.part].port].host.read (u64 c.desc 16 + i) = b.getD i 0#8

/-- A command with a result has completed: NO_RESOURCE with the bytes needed when its buffer is too short, else OK after the result
(R395, R403). -/
def givesResult (s t : State) (c : Cmd) (b : Bytes) : Prop :=
  (u32 c.desc 24 < b.length → finishedAs s t c 0x13 6 b.length 0) ∧
  (b.length ≤ u32 c.desc 24 → finishedAs s t c 0 0 0 0 ∧ resultAt s t c b)

/-- A long operation has been admitted: it is QUEUED, or RUNNING where it begins at once, under the next handle of its partition, its
ACCEPTED record with the handle is the newest of its ring, and the command stays in flight (R396, R401, R404). -/
def acceptedAs (s t : State) (c : Cmd) (total : Nat) (body : LongBody) (runs : Bool) : Prop :=
  let h := (newHandle s c.part).1
  t.longs = s.longs ++ [{ handle := h, part := c.part, cmd := c.uid, opcode := BitVec.ofNat 8 (u8 c.desc 0),
                          state := if runs then .running else .queued, began := runs, suspends := [], cancels := [], lastStatus := 0,
                          doneUnits := 0, totalUnits := total, released := false, silent := false, body := body }] ∧
  (∃ r : Completion, (ringOf t c).unread = (ringOf s c).unread ++ [r] ∧ r.isFor { c with handle := h } 1 0 0 0 0) ∧
  cmdOf t c.uid = some { c with started := true, handle := h }

/-- A quiet state whose partition's next handle is in no use, as R396 has it. -/
def admitsNext (s : State) (c : Cmd) : Prop := quietFor s c ∧ handleUsed s (newHandle s c.part).1 = false

/-- Fields that admitting a long operation writes. -/
def admitted (s t : State) : Prop :=
  t = { s with parts := t.parts, ports := t.ports, cmds := t.cmds, longs := t.longs, nextUid := t.nextUid }

/-- A command in flight whose long operation still stands, with no SUSPEND or CANCEL waiting on it. -/
def standsFor (s : State) (o : LongOp) (c : Cmd) : Prop :=
  quietFor s c ∧ o.cmd = c.uid ∧ longOf s o.handle = some o ∧ o.silent = false ∧ o.suspends = [] ∧ o.cancels = []

/-- A long operation has ended (R401, R404): its state and its last status, and its FINAL record. -/
def endedAs (s t : State) (o : LongOp) (c : Cmd) (st : LongState) (status reason d0 d1 : Nat) : Prop :=
  longOf t o.handle = some { o with state := st, lastStatus := BitVec.ofNat 8 status } ∧ finishedAs s t c status reason d0 d1

/-- Fields that posting records and events write. -/
def posts (s t : State) : Prop := t = { s with parts := t.parts, ports := t.ports, cmds := t.cmds, nextUid := t.nextUid }

/-- Fields that the end of a long operation writes. -/
def ends (s t : State) : Prop :=
  t = { s with parts := t.parts, ports := t.ports, cmds := t.cmds, nextUid := t.nextUid, longs := t.longs, seqs := t.seqs }

/-- Fields that records of the blotter and host events write. -/
def reports (s t : State) : Prop :=
  t = { s with parts := t.parts, ports := t.ports, blotter := t.blotter, telemetry := t.telemetry }

/-- Fields that reports to the host and to the FM write. -/
def tells (s t : State) : Prop :=
  t = { s with parts := t.parts, ports := t.ports, blotter := t.blotter, telemetry := t.telemetry, inbox := t.inbox,
               router := { s.router with injectQ := t.router.injectQ }, nextUid := t.nextUid }

/-- Fields that a domain's attempt at a lower state, and the answers to the policies that waited for it, write (R424, R441). -/
def rests (s t : State) : Prop :=
  t = { s with parts := t.parts, ports := t.ports, cmds := t.cmds, nextUid := t.nextUid, mgmt := t.mgmt, power := t.power,
               telemetry := t.telemetry, seqs := t.seqs }

/-- Fields that a change of a fabric port's link writes: the port, the packets queued and sent at the others, and the reports. -/
def relinks (s t : State) (p : FPort) : Prop :=
  tells { s with fabric := t.fabric, fresh := t.fresh } t ∧
  ∀ q : FPort, q ≠ p → t.fabric[q] = { s.fabric[q] with outQ := t.fabric[q].outQ, tx := t.fabric[q].tx }

/-- The management endpoint takes a request: it has power, boot has reached beat 2, and no request is being served (R466, R467). -/
def takesRequest (s : State) : Prop := s.pins.pwrGood = true ∧ 2 ≤ s.boot.beat ∧ s.mgmt.busy = none

/-- n steps from s all answer a next state. -/
def safeFor : Nat → State → Prop
  | 0, _ => True
  | n + 1, s =>
    match step s with
    | .next s' => safeFor n s'
    | .fault _ => False
    | .refused _ => False

end Sys2Proof.Machine
end

