-- ==== Sys2Proof/Certificates/Slice0/Obligations.lean ====
section
/-! DEFINITION. The statements for the provers: each is a proposition about the model, with the rule of the specification it rests on. -/

open Sys2Proof Sys2Proof.Machine

/-! ### The machine as a whole -/

/-- The command at the front of the queue is carried out with the rest of the queue. -/
def Obligations.StepCarriesOutFrontCommand : Prop :=
  ∀ (c : Instr) (rest : List Instr) (s : State), step { s with pending := c :: rest } = exec c { s with pending := rest }

/-- With no command waiting the time base advances by 10 ns while the module has power (R26; that a step of the idle device is one MCLK
cycle is log entry 7), and nothing else changes. -/
def Obligations.IdleStepAdvancesTimeBase : Prop :=
  ∀ s : State, s.pending = [] →
    ∃ t, step s = .next t ∧ t = { s with timeBase := t.timeBase } ∧
      (s.pins.pwrGood = true → t.timeBase = (s.timeBase + 10) % 2 ^ 64) ∧ (s.pins.pwrGood = false → t.timeBase = s.timeBase)

/-- Carrying out a command never touches the queue of waiting commands. -/
def Obligations.CommandsLeaveTheQueue : Prop :=
  ∀ (c : Instr) (s t : State), exec c s = .next t → t.pending = s.pending

/-- The registers right after reset, as the register tables of R434, R451, R491, R499 and R501 give them. -/
def Obligations.ResetRegisterValues : Prop :=
  (∀ n : Fin 73, n ≠ 0 → powerWord State.reset (4 * n.val) = 0 ∧ powerWord State.reset (0x200 + 4 * n.val) = 0x00320000 ∧
    powerWord State.reset (0x400 + 8 * n.val) = 0 ∧ powerWord State.reset (0x404 + 8 * n.val) = 0) ∧
  (∀ q : Quad, powerWord State.reset (0x800 + 16 * q.val) = 0x1A1A1A1A ∧ powerWord State.reset (0x804 + 16 * q.val) = 0x23 ∧
    powerWord State.reset (0x808 + 16 * q.val) = 0 ∧ powerWord State.reset (0x80C + 16 * q.val) = 0) ∧
  (powerWord State.reset 0x840 = 0xBB8 ∧ powerWord State.reset 0x844 = 0 ∧ powerWord State.reset 0x848 = 0) ∧
  (∀ g : Fin 72, settingsWord State.reset (4 * g.val) = 0) ∧
  (settingsWord State.reset 0x200 = 0x64 ∧ settingsWord State.reset 0x204 = 0x18 ∧ settingsWord State.reset 0x208 = 0x32 ∧
    settingsWord State.reset 0x20C = 8 ∧ settingsWord State.reset 0x210 = 0x3E8 ∧ settingsWord State.reset 0x214 = 0xFFFF ∧
    settingsWord State.reset 0x2FC = 0) ∧
  (∀ c : Fin 4, settingsWord State.reset (0x220 + 12 * c.val) = 786 ∧ settingsWord State.reset (0x224 + 12 * c.val) = 1575 ∧
    settingsWord State.reset (0x228 + 12 * c.val) = 2139) ∧
  (bootStatus State.reset.boot = 0 ∧ bootErrorWord State.reset.boot = 0 ∧ errStatusWord State.reset.errors = 0 ∧
    State.reset.blotter.head = 0 ∧ State.reset.timeBase = 0 ∧ myCoordWord State.reset.router = 0) ∧
  (∀ p : Port, portStatusWord State.reset.ports[p] = 0 ∧ State.reset.ports[p].pba = 0 ∧
    ∀ v : Fin 64, State.reset.ports[p].msix[v] = ⟨0, 0, 1⟩) ∧
  (∀ p : Part, partCtrlWord State.reset.parts[p] = 0)

/-- The state after reset is sound: memory in its canonical form, the blotter, the clock settings and the device settings in their ranges. -/
def Obligations.ResetStateIsSound : Prop := State.reset.sound

/-- Every step keeps what every state of the device is: memory in its canonical form, at most one record in each of the 2,048 slots of the
blotter and every record written before HEAD (R485), clock settings and ceilings of at most 26 (R434), every device setting in its range
(R502), a 64-bit time base (R26). -/
def Obligations.EveryStepKeepsSoundness : Prop :=
  ∀ s t : State, s.sound → step s = .next t → t.sound

/-- While LOCK is 1, no command but a reset of the device changes a device setting (R502). -/
def Obligations.LockedSettingsStandUntilReset : Prop :=
  ∀ (c : Instr) (s t : State), mayReset c = false → s.settings.lock = true → exec c s = .next t → t.settings = s.settings

/-- The device stop and a thermal trip are left through a reset of the device only (R438, R483). -/
def Obligations.StopAndTripStandUntilReset : Prop :=
  ∀ (c : Instr) (s t : State), mayReset c = false → exec c s = .next t →
    (s.errors.fatal = true → t.errors.fatal = true) ∧ (s.power.tripped = true → t.power.tripped = true)

/-- HEAD of the blotter never falls but in a cold reset, whatever is commanded; a warm reset continues it (R445, R485). -/
def Obligations.BlotterHeadFallsOnlyInColdReset : Prop :=
  ∀ (c : Instr) (s t : State), exec c s = .next t →
    s.blotter.head ≤ t.blotter.head ∨ (c = .powerGoodLost ∧ s.pins.pwrGood = true) ∨
      (∃ eeprom seed, c = .powerGood eeprom seed ∧ s.pins.pwrGood = false)

/-- A command that neither resets the device nor is one of the named writers of control registers leaves the boot registers, the input
pins, the device settings, the scrubber's place and the bridges' state alone; the module's EEPROM and PUF, and the time base, change with
no command but a cold reset (R26, R501). -/
def Obligations.ControlRegistersHaveTheirOwnWriters : Prop :=
  ∀ (c : Instr) (s t : State), mayReset c = false → exec c s = .next t →
    (t.silicon = s.silicon ∧ t.timeBase = s.timeBase ∧ t.pins.pwrGood = s.pins.pwrGood) ∧
    (writesControl c = false → t.boot = s.boot ∧ t.settings = s.settings ∧ t.scrub = s.scrub ∧ t.bridge = s.bridge ∧
      t.pins.modResetN = s.pins.modResetN ∧ t.pins.perstN = s.pins.perstN ∧ t.pins.slotStrap = s.pins.slotStrap)

/-- A byte written is read back, and every other byte reads as before; a stretch written whole is read back whole. -/
def Obligations.MemoryReadsWhatWasWritten : Prop :=
  (∀ (m : Memory) (a : Nat) (b : Byte) (x : Nat), m.wf = true → (m.write a b).read x = if x = a then b else m.read x) ∧
  (∀ (m : Memory) (a : Nat) (l : Bytes), m.wf = true → (m.store a l).readBytes a l.length = l) ∧
  (∀ (m : Memory) (a : Nat) (l : Bytes) (x : Nat), m.wf = true → x < a ∨ a + l.length ≤ x → (m.store a l).read x = m.read x)

/-- A record never overwrites one of the 1,984 that a freeze has locked: later records cycle through the other 64 slots (R488). -/
def Obligations.FrozenBlotterKeepsLockedRecords : Prop :=
  ∀ (s : State) (code unit : Nat) (stamp : Stamp) (a0 a1 a2 n : Nat) (r : BlotterRec), s.blotter.frozen = true →
    s.blotter.freezeSeq < s.blotter.head → (n % 2048, n, r) ∈ s.blotter.slots → n ≤ s.blotter.freezeSeq →
    s.blotter.freezeSeq < n + 1984 → (n % 2048, n, r) ∈ (note s code unit stamp a0 a1 a2).blotter.slots

/-- The bytes of a completion record are those of R399. -/
def Obligations.CompletionRecordLayout : Prop :=
  ∀ (r : Completion) (sqHead : Word32) (phase : Nat), phase ≤ 1 →
    let b := r.bytes sqHead phase
    b.length = 32 ∧ u32 b 0 = r.tag.toNat ∧ u32 b 4 = r.handle.toNat ∧ u32 b 8 = sqHead.toNat ∧ u8 b 12 = r.sq.val ∧
      u8 b 13 = r.opcode.toNat ∧ u8 b 14 = r.status.toNat ∧ u8 b 15 = r.kind.toNat ∧ u16 b 16 = r.reason.toNat ∧ u16 b 18 = 0 ∧
      u32 b 20 = r.detail0.toNat ∧ u32 b 24 = r.detail1.toNat ∧ slice b 28 3 = [0, 0, 0] ∧ u8 b 31 = phase

/-! ### Host commands -/

/-- NOP completes OK and does nothing else (R394, R401). -/
def Obligations.NopCompletes : Prop :=
  ∀ (s : State) (p : Part) (q : Fin 16) (c : Cmd), quietFor s c → startable s p q 0x01 = some c →
    ∃ t, exec (.nop p q) s = .next t ∧ finishedAs s t c 0 0 0 0 ∧ posts s t

/-- FENCE completes once every earlier command of its scope has posted its FINAL record: at once when none is in flight, else it waits for
exactly those that are (R398). -/
def Obligations.FenceWaitsForItsScope : Prop :=
  ∀ (s : State) (p : Part) (q : Fin 16) (c : Cmd), quietFor s c → startable s p q 0x02 = some c →
    let scope := s.cmds.filter (fun d => d.started && d.part == p && (u8 c.desc 8 == 1 || d.sq == q))
    ∃ t, exec (.fence p q) s = .next t ∧ (scope = [] → finishedAs s t c 0 0 0 0 ∧ posts s t) ∧
      (scope ≠ [] → cmdOf t c.uid = some { c with started := true, fence := some (scope.map (fun d => d.uid)) } ∧
        t = { s with cmds := t.cmds })

/-- A command with a result writes the whole result before its record, and a result that does not fit its buffer gives NO_RESOURCE with
the bytes needed and writes nothing (R395, R403): TELEMETRY_SNAPSHOT, BLOTTER_READ, ATTEST and QUERY. -/
def Obligations.ResultsComeBeforeTheirRecords : Prop :=
  ∀ (s : State) (p : Part) (q : Fin 16) (c : Cmd), s.memOk → quietFor s c →
    (startable s p q 0x61 = some c →
      ∃ t, exec (.telemetrySnapshot p q) s = .next t ∧ givesResult s t c (telemetryBytes s) ∧ posts s t) ∧
    (startable s p q 0x62 = some c →
      ∃ t, exec (.blotterRead p q) s = .next t ∧ givesResult s t c (blotterRead s.blotter (u32 c.desc 8) (u32 c.desc 12)) ∧ posts s t) ∧
    (∀ seed, startable s p q 0x70 = some c → s.boot.seed = some seed →
      ∃ t, exec (.attest p q) s = .next t ∧
        givesResult s t c (attestation s seed 0 p.val (slice c.desc 32 32) (measurementsOf s [p])) ∧ posts s t) ∧
    (∀ f, startable s p q 0x60 = some c → u8 c.desc 12 = 1 → folioRef s p (descHandle c.desc 8) = .ok f →
      ∃ t, exec (.query p q) s = .next t ∧ givesResult s t c (scalesBytes f) ∧ posts s t) ∧
    (∀ o, startable s p q 0x60 = some c → u8 c.desc 12 ≠ 1 →
      s.longs.find? (fun o => o.handle == descHandle c.desc 8 && o.part == p) = some o →
      ∃ t, exec (.query p q) s = .next t ∧ givesResult s t c (queryBytes s o) ∧ posts { s with fresh := s.fresh + 1 } t)

/-- LOAD_FOLIO, RUN and STEP enter QUEUED with the next handle of their partition and an ACCEPTED record (R396, R401, R404): a load
while the partition and the device have room for one more folio (R67), a run of a loaded folio that no RESHARD has replaced and whose
RECORD_STRIDE holds a step record (R394). -/
def Obligations.LongCommandsAreAdmitted : Prop :=
  ∀ (s : State) (p : Part) (q : Fin 16) (c : Cmd), admitsNext s c →
    (startable s p q 0x20 = some c → loadRoom s p = true →
      ∃ t, exec (.loadFolio p q) s = .next t ∧ admitted s t ∧ acceptedAs s t c (u64 c.desc 40) (.load (newLoad c.desc)) false) ∧
    (∀ (f : Folio) (one : Bool), startable s p q (if one then 0x23 else 0x22) = some c → folioRef s c.part (descHandle c.desc 8) = .ok f →
      f.retired = false → stepRecordBytes f.tables ≤ u32 c.desc 24 →
      ∃ t, exec (if one then .step p q else .run p q) s = .next t ∧ admitted s t ∧
        acceptedAs s t c (newRun f c.desc).stepCount (.run (newRun f c.desc)) false)

/-- A copy starts when its range lies in a host-visible tensor of the folio (R394, R395, R407): below 16 MiB its command alone is in flight,
from 16 MiB on it is a long operation, and it is RUNNING. -/
def Obligations.CopiesStart : Prop :=
  ∀ (s : State) (p : Part) (q : Fin 16) (c : Cmd) (f : Folio) (toDevice : Bool), admitsNext s c →
    startable s p q (if toDevice then 0x10 else 0x11) = some c → folioRef s c.part (descHandle c.desc 8) = .ok f →
    copyRangeOk f (u32 c.desc 12) (u64 c.desc 24) (u64 c.desc 32) = true → (u32 c.desc 40 = noneIdx ∨ u32 c.desc 40 < f.tables.grids.length) →
    let k : CopyOp := { id := s.nextUid, part := c.part, toDevice := toDevice, folio := f.handle, tensor := u32 c.desc 12,
                        hostAddr := u64 c.desc 16, off := u64 c.desc 24, len := u64 c.desc 32, tokenGrid := u32 c.desc 40,
                        token := u8 c.desc 44, cmd := c.uid, long := decide (2 ^ 24 ≤ u64 c.desc 32), duringRun := hasRun s f.handle }
    ∃ t, exec (if toDevice then .copyIn p q else .copyOut p q) s = .next t ∧ t.copies = s.copies ++ [k] ∧ admitted { s with copies := t.copies } t ∧
      (u64 c.desc 32 < 2 ^ 24 → t.longs = s.longs ∧ t.parts = s.parts ∧ t.ports = s.ports ∧ cmdOf t c.uid = some { c with started := true }) ∧
      (2 ^ 24 ≤ u64 c.desc 32 → acceptedAs s t c (u64 c.desc 32) (.copy k) true)

/-- A copy below 16 MiB ends when its last byte has moved, the domains of its tensor being on (R407, R408): a COPY_IN that signals no token
has put the host's bytes at its range and completes OK; a COPY_OUT of a range without a poisoned line has put the tensor's bytes in host
memory, but where its own record or message lies over them, and completes OK. -/
def Obligations.CopiesComplete : Prop :=
  ∀ (s : State) (id : Nat) (data : Bytes) (k : CopyOp) (f : Folio) (c : Cmd), s.memOk → quietFor s c → k.cmd = c.uid →
    copyMoving s id = some (k, f) → (tensorIdxDomains s f k.tensor).all (domainOn s) = true → copyLong s k.id = none →
    let a := f.tensorAt.getD k.tensor 0 + k.off
    (k.toDevice = true → k.tokenGrid = noneIdx → data.length = k.len →
      ∃ t, exec (.copyComplete id data) s = .next t ∧ finishedAs s t c 0 0 0 0 ∧
        t.copies = s.copies.filter (fun x => x.id != k.id) ∧ (∀ i, i < k.len → t.mem.read (a + i) = data.getD i 0#8) ∧
        (∀ x, x < a ∨ a + k.len ≤ x → t.mem.read x = s.mem.read x) ∧
        posts { s with mem := t.mem, folios := t.folios, copies := t.copies } t) ∧
    (k.toDevice = false → s.mem.poisoned a k.len = false → k.part = c.part →
      ∃ t, exec (.copyComplete id data) s = .next t ∧ finishedAs s t c 0 0 0 0 ∧
        t.copies = s.copies.filter (fun x => x.id != k.id) ∧ posts { s with copies := t.copies } t ∧
        ∀ i, i < k.len → ¬postsTo s c (k.hostAddr + i) → t.ports[s.parts[c.part].port].host.read (k.hostAddr + i) = s.mem.read (a + i))

/-- A queued RUN or STEP whose quadrants are free begins: it is RUNNING, its quadrants are owned by it and wait in OPENING, and the other
quadrants are as they were (R164, R165). -/
def Obligations.JobStartTakesItsQuadrants : Prop :=
  ∀ (s : State) (h : Handle) (o : LongOp) (r : Run), runOf s h = some (o, r) → mayStart s o r = true →
    ∃ t r', exec (.jobStart h) s = .next t ∧ (∀ q ∈ r.quads, t.seqs[q] = { Sequencer.reset with state := .opening, owner := some h }) ∧
      (∀ q : Quad, q ∉ r.quads → t.seqs[q] = s.seqs[q]) ∧ runOf t h = some ({ o with state := .running, began := true, body := .run r' }, r') ∧
      t = { s with longs := t.longs, seqs := t.seqs, debugWrites := t.debugWrites }

/-- SUSPEND, RESUME and CANCEL act on their target by its state (R405, R406, R412, R177): at once where the table says so; on a running RUN
or STEP with a stroke open they wait for the next safe point, the boundary after the latest stroke that one of its quadrants has opened. -/
def Obligations.TargetsAnswerByTheirState : Prop :=
  ∀ (s : State) (p : Part) (q : Fin 16) (c : Cmd) (o : LongOp), quietFor s c → o.silent = false → longOf s o.handle = some o →
    s.longs.find? (fun x => x.handle == descHandle c.desc 8 && x.part == c.part) = some o →
    let here := { c with started := true }
    let open_ := fun (r : Run) (n : Nat) => r.stopAfter = none ∧ n = (r.quads.map (fun q => s.seqs[q].opened)).foldl max 0 ∧
      ∃ q ∈ r.quads, s.seqs[q].closed < n
    (startable s p q 0x30 = some c → ∃ t, exec (.suspend p q) s = .next t ∧
      (o.body.suspendable = false ∨ o.state = .cancelling ∨ o.state.isOver = true → finishedAs s t c 0x12 0 0 0 ∧ posts s t) ∧
      (o.body.suspendable = true → o.state = .suspended → finishedAs s t c 0 0 0 0 ∧ posts s t) ∧
      (o.body.suspendable = true → o.state = .queued ∨ (o.state = .running ∧ ∃ k, o.body = .copy k) →
        longOf t o.handle = some { o with state := .suspended, lastStatus := 2 } ∧ admitted s t) ∧
      (∀ r n, o.state = .running → o.body = .run r → open_ r n → cmdOf t c.uid = some here ∧
        longOf t o.handle = some { o with suspends := o.suspends ++ [c.uid], body := .run { r with stopAfter := some n } } ∧
        t = { s with cmds := t.cmds, longs := t.longs, seqs := t.seqs })) ∧
    (startable s p q 0x31 = some c → ∃ t, exec (.resume p q) s = .next t ∧
      (o.body.suspendable = false ∨ (o.state ≠ .suspended ∧ (o.state = .running → o.suspends = [])) → finishedAs s t c 0x12 0 0 0 ∧ posts s t) ∧
      (∀ k, o.state = .suspended → o.body = .copy k → finishedAs s t c 0 0 0 0 ∧
        longOf t o.handle = some { o with state := if o.began then .running else .queued } ∧
        t = { s with parts := t.parts, ports := t.ports, cmds := t.cmds, nextUid := t.nextUid, longs := t.longs, seqs := t.seqs }) ∧
      (∀ r, o.state = .suspended → o.body = .run r → r.lastDone = false → s.debugWrites = [] → finishedAs s t c 0 0 0 0 ∧
        longOf t o.handle = some { o with state := if o.began then .running else .queued,
                                          body := .run { r with stopAfter := none, backlogStop := false } } ∧
        (∀ q : Quad, t.seqs[q] = if s.seqs[q].owner == some o.handle && s.seqs[q].state == .held then
          { s.seqs[q] with state := .opening, cause := 0 } else s.seqs[q]) ∧
        t = { s with parts := t.parts, ports := t.ports, cmds := t.cmds, nextUid := t.nextUid, longs := t.longs, seqs := t.seqs,
                     threads := t.threads })) ∧
    (startable s p q 0x32 = some c → ∃ t, exec (.cancel p q) s = .next t ∧
      (o.state.isOver = true → finishedAs s t c 0 0 o.state.code 0 ∧ posts s t) ∧
      (o.state = .cancelling → cmdOf t c.uid = some here ∧ longOf t o.handle = some { o with cancels := o.cancels ++ [c.uid] } ∧
        t = { s with cmds := t.cmds, longs := t.longs }) ∧
      (o.state = .queued ∨ o.state = .suspended → o.began = false → o.suspends = [] → (∃ r, o.body = .run r) ∨ (∃ l, o.body = .load l) →
        longOf t o.handle = some { o with state := .cancelled, lastStatus := 1, cancels := [] } ∧ ends s t) ∧
      (∀ r n, o.state = .running → o.began = true → o.suspends = [] → o.body = .run r → open_ r n → cmdOf t c.uid = some here ∧
        longOf t o.handle = some { o with state := .cancelling, cancels := o.cancels ++ [c.uid], body := .run { r with stopAfter := some n } } ∧
        t = { s with cmds := t.cmds, longs := t.longs, seqs := t.seqs }))

/-- CHECKPOINT_WRITE enters QUEUED and has its areas, a buddy granting its source 512 payloads of credit; CHECKPOINT_READ runs at once, and
one from a buddy asks the buddy for the image (R367, R370, R371, R373). -/
def Obligations.CheckpointsAreAdmitted : Prop :=
  ∀ (s : State) (p : Part) (q : Fin 16) (c : Cmd) (f : Folio), admitsNext s c → folioRef s p (descHandle c.desc 8) = .ok f →
    (u8 c.desc 12 = 2 → ckptSize f ≤ u64 c.desc 40) → (u8 c.desc 12 = 1 → isDataCut f (u8 c.desc 13) = true) →
    let asks := fun (u : State) (k : Packet) (off : Int) =>
      if u8 c.desc 12 = 1 then sendToRank u f.part f.rank (rankAtOffset f (u8 c.desc 13) off) k else u
    (startable s p q 0x40 = some c → stepPassed s f (u64 c.desc 24) = false → writeInFlight s p = false → ckptRoom s f = true →
      ∃ t u, exec (.checkpointWrite p q) s = .next t ∧
        t = asks u (ckptMessage (partStamp s f.part) 10 0 (u64 c.desc 24) 0 f.rank (le 4 512)) (-(sN c.desc 16 4)) ∧
        acceptedAs s u c (ckptSize f) (.ckpt (newCkpt f c.desc true)) false ∧ admitted { s with folios := u.folios } u ∧
        u.folios = updFirst (fun o => o.handle == f.handle)
          (fun f => { f with ckptBytes := ckptAreas f, buddy := if u8 c.desc 12 = 1 then some (armStore f c.desc) else f.buddy }) s.folios) ∧
    (startable s p q 0x41 = some c → hasRun s f.handle = false → roleCurrent s p = true →
      ∃ t u, exec (.checkpointRead p q) s = .next t ∧
        t = asks u (ckptMessage (partStamp s f.part) 12 1 (u64 c.desc 24) 0 f.rank []) (sN c.desc 16 4) ∧
        acceptedAs s u c (ckptSize f) (.ckpt (newCkpt f c.desc false)) true ∧ admitted s u)

/-- A load goes through its steps: FINALIZATION_START takes its sample and its copy of the image when the carve-out has room (R63, R67);
FINALIZATION_COMPLETE installs a folio in which no step finds a flaw, with its tensors initialized and its result in host memory before
its record, and rejects another with its first flaw (R63, R70, R409); FINALIZATION_TIMEOUT rejects with reason 0x0050 (R66). -/
def Obligations.LoadsAreFinalized : Prop :=
  ∀ (s : State) (h : Handle) (image : Bytes) (o : LongOp) (l : LoadOp) (c : Cmd), s.memOk → standsFor s o c → o.handle = h →
    o.body = .load l → s.live = true →
    let written := fun (t : State) => ends { s with blotter := t.blotter, telemetry := t.telemetry, fresh := s.fresh + 1 } t
    (o.state = .queued → loadsLive s (fun o => o.state == .running || o.state == .cancelling) < 2 →
      carveUsed s o.part + roundUp l.len 64 ≤ carveBytes s o.part →
      ∃ t, exec (.finalizationStart h image) s = .next t ∧ t = { s with longs := t.longs } ∧
        longOf t h = some { o with state := .running, began := true,
                                   body := .load { l with staged := some (slice image 0 l.len), sampled := some (sampleOf s o.part) } }) ∧
    (∀ img smp, o.state = .running → l.staged = some img → l.sampled = some smp →
      let e := loadEnv l img smp
      let f := newFolio s o e
      (loadFlaw s o.part e = none → loadRoom s o.part = false →
        ∃ t, exec (.finalizationComplete h) s = .next t ∧ endedAs s t o c .failed 0x13 0 0 0 ∧ ends s t) ∧
      (loadFlaw s o.part e = none → loadRoom s o.part = true →
        ∃ t, exec (.finalizationComplete h) s = .next t ∧ t.folios = s.folios ++ [f] ∧ t.mem = initTensors s.mem f ∧
          longOf t h = some { o with state := .done, lastStatus := 0, doneUnits := o.totalUnits } ∧ finishedAs s t c 0 0 0 0 ∧
          (∀ i, i < (loadResult f).length → ¬postsTo s c (l.resultAddr + i) →
            t.ports[s.parts[o.part].port].host.read (l.resultAddr + i) = (loadResult f).getD i 0#8) ∧
          ends { s with folios := t.folios, mem := t.mem, tokens := s.tokens.filter (fun k => !f.allClusters.contains k.1.1),
                        blotter := t.blotter, telemetry := t.telemetry } t) ∧
      (∀ w, loadFlaw s o.part e = some w →
        ∃ t, exec (.finalizationComplete h) s = .next t ∧ written t ∧
          endedAs s t o c .failed (if 0x100 ≤ w.reason then 0x21 else 0x20) w.reason w.sec w.entry)) ∧
    (o.state = .running → ∃ t, exec (.finalizationTimeout h) s = .next t ∧ written t ∧ endedAs s t o c .failed 0x20 0x50 noneIdx noneIdx)

/-- UNLOAD_FOLIO of a folio that no operation, copy or pairing uses frees it and completes OK (R68); it is recorded in the blotter. -/
def Obligations.UnloadFreesTheFolio : Prop :=
  ∀ (s : State) (p : Part) (q : Fin 16) (c : Cmd) (f : Folio), quietFor s c → (∀ d ∈ s.cmds, d.policy = none) → s.mgmt.busy = none →
    startable s p q 0x21 = some c → folioRef s p (descHandle c.desc 8) = .ok f →
    (∀ o ∈ s.longs, o.state.isOver = false → (∀ r, o.body = .run r → r.folio ≠ f.handle) ∧ (∀ k, o.body = .copy k → k.folio ≠ f.handle) ∧
      (∀ k, o.body = .ckpt k → k.folio ≠ f.handle) ∧ (∀ r, o.body = .reshard r → r.folioA ≠ f.handle ∧ r.folioB ≠ f.handle)) →
    (∀ x ∈ s.pairings, x.a ≠ f.handle ∧ x.b ≠ f.handle) → (∀ w ∈ s.pairWaits, w.folio ≠ f.handle) → (∀ k ∈ s.copies, k.folio ≠ f.handle) →
    ∃ t, exec (.unloadFolio p q) s = .next t ∧ finishedAs s t c 0 0 0 0 ∧ t.folios = s.folios.filter (fun g => g.handle != f.handle) ∧
      t.longs = s.longs.filter (fun o => !(o.handle == f.handle && o.released)) ∧
      (∀ q : Quad, ∀ g ∈ t.ductus[q].gens, g.folio ≠ f.handle) ∧ (∀ e : Engine, ∀ i ∈ t.ligature[e].slots, i.folio ≠ f.handle) ∧
      t = { s with folios := t.folios, longs := t.longs, pairings := t.pairings, ductus := t.ductus, ligature := t.ligature,
                   power := t.power, seqs := t.seqs, telemetry := t.telemetry, blotter := t.blotter, parts := t.parts, ports := t.ports,
                   cmds := t.cmds, nextUid := t.nextUid }

/-- A checkpoint holds its folio's run and takes the image at the boundary it names (R369); when the copy ends a LOCAL one completes, a HOST
one drains, a BUDDY one sends what its credit allows, and a poisoned line fails the job (R372, R477); a HOST drain puts the image in host
memory before its record. -/
def Obligations.CheckpointsTakeAndDrainTheirImage : Prop :=
  ∀ (s : State) (h : Handle) (o : LongOp) (k : CkptOp) (f : Folio) (c : Cmd), s.memOk → standsFor s o c → o.handle = h →
    o.body = .ckpt k → folioOf s k.folio = some f →
    (ckptReady s o k f = true →
      ∃ t, exec (.checkpointBoundary h) s = .next t ∧ t = { s with longs := t.longs, folios := t.folios } ∧
        longOf t h = some { o with state := .running, began := true, body := .ckpt { k with copying := true } } ∧
        folioOf t k.folio = some { f with snapshot := some { copying := true, step := f.jobStep, image := ckptImage s f } } ∧
        ∀ ro r, liveRunOf s f.handle = some (ro, r) → ro.state = .running ∨ ro.state = .cancelling → longOf s ro.handle = some ro →
          longOf t ro.handle = some { ro with body := .run { r with ckptHold := true } }) ∧
    (s.live = true → o.state = .running → k.copying = true → partStopped s o.part = false →
      let u := updCkpt (updFolio s k.folio (fun f => { f with snapshot := f.snapshot.map (fun x => { x with copying := false }) })) h
        (fun k => { k with copying := false, draining := decide (k.kind ≠ 0) })
      (∀ a, ckptPoison s f = some a →
        exec (.snapshotCopyDone h) s = .next (failJob s (partStamp s o.part) 0x110 (unitHbm 0) 0xFFFFFFFF a 4)) ∧
      (ckptPoison s f = none → (∀ x ∈ s.longs, ∀ r, x.body = .run r → r.ckptHold = false) →
        ∃ t, exec (.snapshotCopyDone h) s = .next t ∧ (k.kind = 1 → t = drainBuddy u h) ∧ (k.kind ≠ 0 → k.kind ≠ 1 → t = u) ∧
          (k.kind = 0 → finishedAs s t c 0 0 0 0 ∧ ends { s with folios := u.folios } t ∧
            longOf t h = some { o with state := .done, lastStatus := 0, doneUnits := o.totalUnits,
                                       body := .ckpt { k with copying := false, draining := false } }))) ∧
    (∀ x, f.snapshot = some x → s.live = true → o.state = .running → k.write = true → k.draining = true → k.kind = 2 →
      ∃ t, exec (.checkpointDrainDone h) s = .next t ∧ finishedAs s t c 0 0 0 0 ∧ ends s t ∧
        longOf t h = some { o with state := .done, lastStatus := 0, doneUnits := o.totalUnits } ∧
        ∀ i, i < x.image.length → ¬postsTo s c (k.hostAddr + i) →
          t.ports[s.parts[o.part].port].host.read (k.hostAddr + i) = x.image.getD i 0#8)

/-- CHECKPOINT_READ restores an image that passes its checks and completes OK, and rejects another with FOLIO_REJECTED and its reason,
nothing changed (R373): from the snapshot for KIND 0, from the host's bytes for KIND 2. -/
def Obligations.CheckpointsAreRestored : Prop :=
  ∀ (s : State) (h : Handle) (data : Bytes) (o : LongOp) (k : CkptOp) (f : Folio) (c : Cmd) (img : Bytes), standsFor s o c → o.handle = h →
    o.body = .ckpt k → folioOf s k.folio = some f → s.live = true → k.write = false → o.state = .running →
    (k.kind = 2 ∧ img = slice data 0 k.hostLen) ∨ (k.kind = 0 ∧ ∃ x, f.snapshot = some x ∧ x.copying = false ∧ img = x.image) →
    ∃ t, exec (.checkpointReadDone h data) s = .next t ∧
      (∀ r, ckptReason f k.step img = some r → endedAs s t o c .failed 0x20 r 0 0 ∧ ends s t) ∧
      (ckptReason f k.step img = none → finishedAs s t c 0 0 0 0 ∧
        longOf t h = some { o with state := .done, lastStatus := 0, doneUnits := o.totalUnits } ∧
        ends { s with mem := (ckptRestore s f img).mem, tokens := (ckptRestore s f img).tokens, folios := (ckptRestore s f img).folios,
                      fresh := (ckptRestore s f img).fresh } t)

/-- The messages of a checkpoint (R370, R371, R373): a payload is kept and one more is granted; credit lets the drain or the pull go on; an
end is judged by its digest and answered; a pull is served from the stored image, or answered with status 2; a done ends the writer's
command, and an image that the buddy does not hold rejects the reader's with 0x0073. -/
def Obligations.CheckpointMessagesAreServed : Prop :=
  ∀ (s s1 : State) (i : Nat) (k : Packet), (partOfStamp s k.stamp).isSome = true →
    let answer := fun (u : State) (msg : Nat) (b : Bytes) =>
      sendBack u k.src (ckptMessage k.stamp msg k.coll.phase k.coll.step 0 k.coll.shard b)
    (takeCkpt s i 9 = some (k, s1) →
      (∀ f, k.coll.phase = 0 → armedStore s k.stamp k.coll.step = some f → exec (.ckptData i) s =
        .next (answer (updFolio s1 f.handle (fun f =>
          { f with buddy := f.buddy.map (fun b => { b with incoming := keepPayload b.incoming k }) })) 10 (le 4 1))) ∧
      (∀ o c, k.coll.phase ≠ 0 → pullOf s k = some (o, c) → exec (.ckptData i) s =
        .next (answer (updCkpt s1 o.handle (fun c => { c with got := keepPayload c.got k })) 10 (le 4 1)))) ∧
    (takeCkpt s i 10 = some (k, s1) →
      (∀ o c, k.coll.phase = 0 → ckptWith s k.stamp (fun c => c.write && c.kind == 1) = some (o, c) → c.step % 2 ^ 16 = k.coll.step →
        exec (.ckptCredit i) s =
          .next (drainBuddy (updCkpt s1 o.handle (fun c => { c with credit := c.credit + u32 k.payload 0 })) o.handle)) ∧
      (∀ x, k.coll.phase ≠ 0 → s.pulls.find? (fun x => x.peer == k.src && x.stamp == k.stamp && x.step % 2 ^ 16 == k.coll.step) = some x →
        let y := { x with credit := x.credit + u32 k.payload 0 }
        exec (.ckptCredit i) s = .next (servePull { s1 with pulls := s1.pulls.map (fun z => if z == x then y else z) } y))) ∧
    (takeCkpt s i 11 = some (k, s1) →
      (∀ f b, k.coll.phase = 0 → armedStore s k.stamp k.coll.step = some f → f.buddy = some b →
        ceilDiv (u64 k.payload 0) 512 ≤ b.incoming.length →
        let img := assemble b.incoming
        let whole := endMatches img k
        exec (.ckptEnd i) s = .next (sendBack (updFolio s1 f.handle (fun f =>
          { f with buddy := some (if whole then { b with complete := some img, step := u64 img 0x10, incoming := [], armed := none }
                                  else { b with incoming := [] }) })) k.src
          (ckptMessage k.stamp 13 0 k.coll.step 0 k.coll.shard (le 4 (if whole then 0 else 1))))) ∧
      (∀ o c, k.coll.phase ≠ 0 → pullOf s k = some (o, c) → ceilDiv (u64 k.payload 0) 512 ≤ c.got.length →
        exec (.ckptEnd i) s = .next (if endMatches (assemble c.got) k then readImageDone s1 o c (assemble c.got)
          else endLong s1 o.handle .failed 0x20 0x70 0 0))) ∧
    (takeCkpt s i 12 = some (k, s1) →
      let held := s.folios.findSome? (fun f =>
        match f.buddy with
        | none => none
        | some b =>
          match b.complete with
          | some img => if partStamp s f.part == k.stamp && b.srcRank == k.coll.shard && b.step % 2 ^ 16 == k.coll.step then some (b, img) else none
          | none => none)
      (held = none → exec (.ckptPull i) s = .next (sendBack s1 k.src (ckptMessage k.stamp 13 1 k.coll.step 0 k.coll.shard (le 4 2)))) ∧
      (∀ b img, held = some (b, img) → exec (.ckptPull i) s = .next (servePull s1
        { peer := k.src, srcRank := b.srcRank, stamp := k.stamp, image := img, step := b.step, nextPayload := 0, credit := 512,
          endSent := false }))) ∧
    (takeCkpt s i 13 = some (k, s1) →
      (∀ o c d, k.coll.phase = 0 → u32 k.payload 0 = 0 → standsFor s o d →
        ckptWith s k.stamp (fun c => c.write && c.kind == 1 && c.endSent && c.step % 2 ^ 16 == k.coll.step) = some (o, c) →
        ∃ t, exec (.ckptDone i) s = .next t ∧ endedAs s t o d .done 0 0 0 0 ∧ ends s1 t) ∧
      (∀ o c d, k.coll.phase ≠ 0 → standsFor s o d → pullOf s k = some (o, c) →
        ∃ t, exec (.ckptDone i) s = .next t ∧ endedAs s t o d .failed 0x20 (if u32 k.payload 0 = 2 then 0x73 else 0x70) 0 0 ∧ ends s1 t))

/-- PAIR waits for its partner, or joins the two folios when the partner waits and their slots fit (R376, R377); UNPAIR withdraws a PAIR
that waits, ends a pairing on which no RUN or STEP stands, and is refused otherwise (R379, R406). -/
def Obligations.PairsMeetAndPart : Prop :=
  ∀ (s : State) (p : Part) (q : Fin 16) (c : Cmd) (f : Folio), quietFor s c → folioRef s p (descHandle c.desc 8) = .ok f →
    let peer := partN (u8 c.desc 12)
    let mode := u8 c.desc 13
    let token := slice c.desc 16 16
    let partners := s.pairWaits.filter (fun w => w.part == peer && w.peer == c.part)
    (startable s p q 0x50 = some c → inPairing s f.handle = false → s.pairWaits.any (fun w => w.folio == f.handle) = false →
      (partners = [] → ∃ t, exec (.pair p q) s = .next t ∧ cmdOf t c.uid = some { c with started := true } ∧
        t = { s with cmds := t.cmds, pairWaits := s.pairWaits ++ [{ cmd := c.uid, part := c.part, folio := f.handle, peer := peer,
                                                                    mode := mode, token := token }] }) ∧
      (∀ w g, partners.find? (fun w => w.mode == mode && w.token == token) = some w → folioOf s w.folio = some g →
        (bit mode 0 = true → fillMatches f g = true) → (bit mode 1 = true → streamsMatch f g = true) →
        slotsFit s g f (newPairing g f mode).streams = true →
        ∃ t, exec (.pair p q) s = .next t ∧ t.pairings = s.pairings ++ [newPairing g f mode] ∧
          t.pairWaits = s.pairWaits.filter (fun x => x.cmd != w.cmd) ∧ posts { s with pairings := t.pairings, pairWaits := t.pairWaits } t)) ∧
    (startable s p q 0x51 = some c →
      (∀ w, s.pairWaits.find? (fun w => w.folio == f.handle) = some w →
        ∃ t, exec (.unpair p q) s = .next t ∧ t.pairWaits = s.pairWaits.filter (fun x => x.cmd != w.cmd) ∧
          posts { s with pairWaits := t.pairWaits } t) ∧
      (∀ x, s.pairWaits.find? (fun w => w.folio == f.handle) = none →
        s.pairings.find? (fun x => x.a == f.handle || x.b == f.handle) = some x →
        ∃ t, exec (.unpair p q) s = .next t ∧
          ((runStands s x.a || runStands s x.b) = true → finishedAs s t c 0x12 0 0 0 ∧ posts s t) ∧
          ((runStands s x.a || runStands s x.b) = false → finishedAs s t c 0 0 0 0 ∧ t.pairings = s.pairings.filter (fun y => y != x) ∧
            posts { s with pairings := t.pairings } t)))

/-- RESHARD is refused with WRONG_STATE when its conditions do not hold and rejected when a tensor may not move (R362, R363); otherwise it
runs at once: the new ROLE_GEN is adopted, B's tensors without a match are zero and each source gets a ready marker (R364). -/
def Obligations.ReshardBegins : Prop :=
  ∀ (s : State) (p : Part) (q : Fin 16) (c : Cmd) (a b : Folio) (j : Job), admitsNext s c → startable s p q 0x42 = some c →
    folioRef s p (descHandle c.desc 8) = .ok a → folioRef s p (descHandle c.desc 12) = .ok b → s.parts[c.part].job = some j →
    ∃ t, exec (.reshard p q) s = .next t ∧
      (reshardAdmits s p a b = false → finishedAs s t c 0x12 0 0 0 ∧ posts s t) ∧
      (∀ r, reshardAdmits s p a b = true → reshardReason a b = some r → finishedAs s t c 0x20 r 0 0 ∧ posts s t) ∧
      (reshardAdmits s p a b = true → reshardReason a b = none → ∃ u, admitted s u ∧
        acceptedAs s u c 0 (.reshard { folioA := a.handle, folioB := b.handle, missing := reshardExpected a b, toSend := reshardTargets a b }) true ∧
        t = settleReshard ((reshardSources a b b.coord).foldl (fun s k =>
          sendToRank s c.part b.rank k (mkPacket 1 2 5 0 0 (partStamp s c.part) 0 (bodyE 0 a.step16 0) []))
          (zeroUnmatched (adoptGen u c.part j.written) a b)) (newHandle s c.part).1)

/-! ### Rings, registers and ports -/

/-- A doorbell read takes a consumer count as the ring's own, fetches a descriptor that a submission ring's count covers when the limits
admit it, and fails a ring whose count lies outside its depth (R391, R392, R395, R397). A nudge makes the enabled submission and FM transmit
rings of the port's partitions active for 10 µs (R383). When the moderation time of a completion ring has passed, its vector is signalled
and its count of records starts again (R384). -/
def Obligations.RingsAreServed : Prop :=
  ∀ (s : State) (p : Part), quietRings s → s.live = true → portPosts s s.parts[p].port = true →
    (∀ (n : Fin 16) (index : Word32) (desc : Bytes), s.parts[p].enable = true → s.parts[p].sq[n].usable = true →
      (index - s.parts[p].sq[n].consumed).toNat = 1 → s.parts[p].sq[n].posted = s.parts[p].sq[n].consumed →
      descReason s p desc = 0 → admits s p (u8 desc 0) = true →
      ∃ t, exec (.doorbellRead { part := p, ring := .sq n, index := index, entries := [desc] }) s = .next t ∧
        t.cmds = s.cmds ++ [{ uid := s.nextUid, part := p, sq := n, desc := desc, started := false, handle := 0, fence := none, policy := none }] ∧
        t.parts[p].sq[n].consumed = s.parts[p].sq[n].consumed + 1 ∧ t.parts[p].sq[n].posted = index ∧
        t = { s with cmds := t.cmds, parts := t.parts, nextUid := t.nextUid }) ∧
    (∀ (n : Fin 16) (index : Word32) (entries : List Bytes), s.parts[p].enable = true → s.parts[p].sq[n].usable = true →
      s.parts[p].sq[n].depth < (index - s.parts[p].sq[n].consumed).toNat →
      ∃ t, exec (.doorbellRead { part := p, ring := .sq n, index := index, entries := entries }) s = .next t ∧
        t.parts[p].sq[n].cfg.getLsbD 30 = true ∧ t.cmds = s.cmds ∧ reports s t) ∧
    (∀ (index : Word32) (entries : List Bytes), s.parts[p].eq.usable = true →
      (s.parts[p].eq.posted - index).toNat ≤ s.parts[p].eq.depth →
      ∃ t, exec (.doorbellRead { part := p, ring := .eq, index := index, entries := entries }) s = .next t ∧
        t.parts[p] = { s.parts[p] with eq := { s.parts[p].eq with consumed := index } } ∧ t = { s with parts := t.parts }) ∧
    (∃ t, exec (.nudge s.parts[p].port []) s = .next t ∧
      (∀ n : Fin 16, s.parts[p].sq[n].enabled = true →
        t.parts[p].sq[n] = { s.parts[p].sq[n] with backoff := 1, activeUntil := s.timeBase + 10000 }) ∧
      (∀ n : Fin 16, s.parts[p].sq[n].enabled = false → t.parts[p].sq[n] = s.parts[p].sq[n]) ∧ t = { s with parts := t.parts }) ∧
    (∀ c : Fin 16, s.parts[p].cq[c].ring.usable = true → 0 < s.parts[p].cq[c].sinceSignal → 0 < bits s.parts[p].cq[c].mod.toNat 31 16 →
      ∃ t, exec (.coalUs p c) s = .next t ∧ t.parts[p].cq[c] = { s.parts[p].cq[c] with sinceSignal := 0 } ∧
        t.ports = (signalVector s s.parts[p].port s.parts[p].cq[c].ring.vector).ports ∧ t = { s with parts := t.parts, ports := t.ports })

/-- Writes to the registers of a partition through the port it is bound to, its domain awake (R388, R493, R496, R497): ENABLE of PART_CTRL;
a ring enabled with its counts at 0, or left disabled where its depth is out of range or its completion ring is disabled; a completion ring
that an enabled submission ring names stays enabled; BASE of a disabled ring. A write of an unassigned partition or a misaligned one changes
nothing, and one to a sleeping domain is held (R25). -/
def Obligations.PartitionRegistersAreWritten : Prop :=
  ∀ (s : State) (port : Port) (p : Part) (v : Word32), bar0Open s port = true → s.live = true →
    let other := fun (t : State) => ∀ p' : Part, p' ≠ p → t.parts[p'] = s.parts[p']
    (s.parts[p].assigned = true → s.parts[p].port = port → domainOn s 1 = true →
      (∃ t, exec (.partCtrl port p v) s = .next t ∧ t.parts[p] = { s.parts[p] with enable := v.getLsbD 31 } ∧ other t ∧ t = { s with parts := t.parts }) ∧
      (∀ n : Fin 16, s.parts[p].sq[n].enabled = false → v.getLsbD 31 = true →
        ∃ t, exec (.ringEnable port p (.sq n) v) s = .next t ∧ other t ∧ t = { s with parts := t.parts } ∧
          (1 ≤ v.toNat % 32 → v.toNat % 32 ≤ 16 → s.parts[p].cq[(Fin.ofNat 16 (bits v.toNat 23 20) : Fin 16)].ring.enabled = true →
            t.parts[p].sq[n] = { s.parts[p].sq[n] with cfg := (v &&& 0x00F0001F#32) ||| 0x80000000#32, posted := 0, consumed := 0, backoff := 256,
                                                       activeUntil := 0 }) ∧
          (v.toNat % 32 = 0 ∨ 16 < v.toNat % 32 ∨ s.parts[p].cq[(Fin.ofNat 16 (bits v.toNat 23 20) : Fin 16)].ring.enabled = false →
            t.parts[p].sq[n].enabled = false)) ∧
      (∀ n : Fin 16, s.parts[p].cq[n].ring.enabled = true → cqNamed s.parts[p] n = true → v.getLsbD 31 = false →
        ∃ t, exec (.ringEnable port p (.cq n) v) s = .next t ∧ t = s) ∧
      (s.parts[p].eq.enabled = false →
        ∃ t, exec (.registerWrite port (BitVec.ofNat 16 (0x1008 + 0x1000 * p.val)) false (v.setWidth 64)) s = .next t ∧ other t ∧
          t.parts[p] = { s.parts[p] with eq := { s.parts[p].eq with
            base := BitVec.ofNat 64 (s.parts[p].eq.base.toNat / 2 ^ 32 * 2 ^ 32 + v.toNat / 4096 * 4096 % 2 ^ 32) } } ∧
          t = { s with parts := t.parts })) ∧
    (s.parts[p].assigned = true → s.parts[p].port = port → domainOn s 1 = false →
      ∃ t, exec (.partCtrl port p v) s = .next t ∧ t = { s with shadows := t.shadows } ∧
        shadowAt t (some port) (0x1000 * (p.val + 1)) = some v.toNat) ∧
    (s.parts[p].assigned = false → exec (.partCtrl port p v) s = .next s ∧ ∀ r, exec (.ringEnable port p r v) s = .next s) ∧
    (∀ (o : BitVec 16) (x : Word64), o.toNat % 4 ≠ 0 → exec (.registerWrite port o false x) s = .next s)

/-- A write to ERR_STATUS clears the flags written 1; a hardware set of the same cycle wins, and each set raises its companion counter by
one whether or not the flag was already 1 (R10, R491). -/
def Obligations.ErrorFlagSetsWin : Prop :=
  ∀ (s : State) (port : Port) (v : Word32) (hw : BitVec 4), bar0Open s port = true → s.boot.stage = .ready →
    ∃ t, exec (.errStatus port v hw) s = .next t ∧ t = { s with errors := t.errors } ∧
      t.errors = { s.errors with
        pathFailure := t.errors.pathFailure, hbmUe := t.errors.hbmUe, sramUe := t.errors.sramUe, jobFailed := t.errors.jobFailed,
        pathFailureCount := satAdd 32 s.errors.pathFailureCount (if hw.getLsbD 0 then 1 else 0),
        hbmUeCount := satAdd 32 s.errors.hbmUeCount (if hw.getLsbD 1 then 1 else 0),
        sramUeCount := satAdd 32 s.errors.sramUeCount (if hw.getLsbD 2 then 1 else 0),
        jobFailedCount := satAdd 32 s.errors.jobFailedCount (if hw.getLsbD 3 then 1 else 0) } ∧
      (hw.getLsbD 0 = true → t.errors.pathFailure = true) ∧ (hw.getLsbD 1 = true → t.errors.hbmUe = true) ∧
      (hw.getLsbD 2 = true → t.errors.sramUe = true) ∧ (hw.getLsbD 3 = true → t.errors.jobFailed = true) ∧
      (hw.getLsbD 0 = false → t.errors.pathFailure = if v.getLsbD 0 then false else s.errors.pathFailure) ∧
      (hw.getLsbD 1 = false → t.errors.hbmUe = if v.getLsbD 1 then false else s.errors.hbmUe) ∧
      (hw.getLsbD 2 = false → t.errors.sramUe = if v.getLsbD 2 then false else s.errors.sramUe) ∧
      (hw.getLsbD 3 = false → t.errors.jobFailed = if v.getLsbD 3 then false else s.errors.jobFailed)

/-- HOST_LOCK, once 1, stays, and BAR4_CTRL of a locked port is not written (R500); an unlocked BAR4_CTRL takes ENABLE and a BASE_INDEX of 0 to
8 (R382). Unmasking a vector sends its pending message (R498). A BAR4 access refused by the window or the carve-outs reads nothing and
writes nothing (R382); any other joins the line queues (R301). -/
def Obligations.PortRegistersAndWindow : Prop :=
  ∀ (s : State) (port : Port), bar0Open s port = true → s.live = true →
    (∀ v : Word32, ∃ t, exec (.hostLock port v) s = .next t ∧ t = { s with ports := t.ports } ∧
      t.ports[port] = { s.ports[port] with locked := s.ports[port].locked || v.getLsbD 0 } ∧
      ∀ p', p' ≠ port → t.ports[p'] = s.ports[p']) ∧
    (∀ v : Word64, ∃ t, exec (.registerWrite port 0x9000#16 false v) s = .next t ∧
      (s.ports[port].locked = true → t = s) ∧
      (s.ports[port].locked = false → t = { s with ports := t.ports } ∧
        t.ports[port] = { s.ports[port] with bar4Ctrl := t.ports[port].bar4Ctrl } ∧
        t.ports[port].bar4Ctrl.getLsbD 31 = v.getLsbD 31 ∧
        (v.toNat % 16 ≤ 8 → t.ports[port].bar4Ctrl.toNat % 16 = v.toNat % 16) ∧
        (8 < v.toNat % 16 → t.ports[port].bar4Ctrl.toNat % 16 = s.ports[port].bar4Ctrl.toNat % 16))) ∧
    (∀ (n : Fin 64) (v : Word32), ∃ t, exec (.vectorCtrl port n v) s = .next t ∧ t = { s with ports := t.ports } ∧
      (∀ p', p' ≠ port → t.ports[p'] = s.ports[p']) ∧
      t.ports[port].msix = s.ports[port].msix.set n { s.ports[port].msix[n] with ctrl := v &&& 1#32 } ∧
      (s.ports[port].msix[n].ctrl.getLsbD 0 = true → v.getLsbD 0 = false → s.ports[port].pba.getLsbD n = true →
        t.ports[port].pba = s.ports[port].pba &&& ~~~(1#64 <<< n.val) ∧
        t.ports[port].host = s.ports[port].host.writeBytes s.ports[port].msix[n].addr.toNat (le 4 s.ports[port].msix[n].data.toNat)) ∧
      (s.ports[port].msix[n].ctrl.getLsbD 0 = false ∨ v.getLsbD 0 = true ∨ s.ports[port].pba.getLsbD n = false →
        t.ports[port].pba = s.ports[port].pba ∧ t.ports[port].host = s.ports[port].host)) ∧
    (∀ (off : BitVec 36) (a : Nat), bar4Open s port = true → s.ports[port].bar4Left = 0 →
      a = (s.ports[port].bar4Ctrl.toNat % 16) * 2 ^ 36 + off.toNat →
      let on := bit s.ports[port].bar4Ctrl.toNat 31
      let mine := fun (n : Nat) => bar4Bound s port a && bar4Bound s port (a + n - 1)
      (∀ b : Bytes, (on = false ∨ mine b.length = false → ∃ t, exec (.bar4Access port off (.write b)) s = .next t ∧
          t = { s with telemetry := t.telemetry }) ∧
        (on = true → mine b.length = true → bar4Room s a b.length = true → exec (.bar4Access port off (.write b)) s =
          .next ((linePieces a b.length).foldl (fun s x =>
            admitStore s (.hbm (stackAt s x.1)) (bar4Entry port .store x.1 x.2 ((b.drop (x.1 - a)).take x.2))) s))) ∧
      (∀ k : Nat, (on = false ∨ mine k = false → ∃ t, exec (.bar4Access port off (.read k)) s = .next t ∧
          t = { s with ports := t.ports, telemetry := t.telemetry } ∧ t.ports[port].bar4Data = none ∧ t.ports[port].bar4Left = 0) ∧
        (on = true → mine k = true → bar4Room s a k = true → ∃ t, exec (.bar4Access port off (.read k)) s = .next t ∧
          t.ports[port] = { s.ports[port] with bar4Data := some (zeros k), bar4Start := a, bar4Left := k, bar4Poison := false } ∧
          t = { s with ports := t.ports, lineQueues := t.lineQueues })))

/-- A released PERST# begins link training once boot has passed beat 6 and the port's domain is ON (R448); link up shows the boot mailbox
(R450); D3hot is entered and left (R380). A port reset returns the port's registers and those of its partitions to their reset values
and leaves assignments in place (R385); it reaches a port with PERST# released (fundamental) or with its link up (the others), and stops a
fetch of the image through the port (R446). -/
def Obligations.PortsComeUpAndReset : Prop :=
  ∀ (s : State) (port : Port),
    (s.pins.perstN[port] = false → ∃ t, exec (.perst port) s = .next t ∧ t.pins = { s.pins with perstN := s.pins.perstN.set port true } ∧
      (s.pins.pwrGood = true → s.power.tripped = false → 6 ≤ s.boot.beat → domainOn s (pcieDomain port.val) = true →
        t.ports[port] = { s.ports[port] with training := !s.ports[port].linkUp } ∧ t = { s with pins := t.pins, ports := t.ports }) ∧
      (s.boot.beat < 6 → t = { s with pins := t.pins })) ∧
    (∀ (rate : Fin 8) (width : Fin 5), s.pins.pwrGood = true → s.ports[port].training = true → domainOn s (pcieDomain port.val) = true →
      s.power.tripped = false →
      ∃ t, exec (.pcieLinkUp port rate width) s = .next t ∧ t = { s with ports := t.ports, boot := t.boot } ∧
        t.ports[port] = { s.ports[port] with training := false, linkUp := true, rate := BitVec.ofNat 4 rate.val,
                                             width := BitVec.ofNat 3 width.val, dState := 0 } ∧
        (s.boot.stage = .romInit → t.boot = { s.boot with stage := .waitImage, beat := 7 }) ∧ (s.boot.stage ≠ .romInit → t.boot = s.boot)) ∧
    (s.pins.pwrGood = true → s.ports[port].linkUp = true → s.power.tripped = false →
      exec (.pcieDState port true) s = .next (updPort s port (fun x => { x with dState := 3 })) ∧
      ∃ t, exec (.pcieDState port false) s = .next t ∧ posts s t ∧ t.ports[port].dState = 0) ∧
    (∀ kind : PortResetKind, resetReaches s port kind = true →
      ∃ t, exec (.portReset port kind) s = .next t ∧
        t.ports[port].bar4Ctrl = 0 ∧ t.ports[port].locked = false ∧ t.ports[port].pba = 0 ∧
        t.ports[port].msix = Vector.replicate 64 ⟨0, 0, 1⟩ ∧ t.errors.vector[port] = 0 ∧
        (∀ p : Part, t.parts[p].assigned = true → t.parts[p].port = port → t.parts[p].enable = false ∧
          t.parts[p].sq = Vector.replicate 16 Ring.reset ∧ t.parts[p].eq = Ring.reset) ∧
        (kind ≠ .flr → t.ports[port].linkUp = false) ∧
        (kind = .fundamental → t.pins.perstN[port] = false) ∧
        (s.boot.stage = .fetching → s.boot.fwPort.toNat = port.val → t.boot.stage = .waitImage ∧ t.boot.errCode = 0x11)) ∧
    (∀ kind : PortResetKind, s.pins.pwrGood = true → resetReaches s port kind = false → exec (.portReset port kind) s = .next s)

/-- GO while STAGE reads WAIT_IMAGE begins a fetch, or gives IMAGE_REQUEST for a length out of range (R451, R452); a copy of the length asked for
is verified and any other gives IMAGE_DMA (R453); an accepted image sets FW_DIGEST, FW_VERSION and FW_SECURITY_EPOCH, and a flawed one
returns to WAIT_IMAGE with its code (R461); beat 10 ends in READY with HBM zeroed, or HALTED with its code (R448, R449). -/
def Obligations.BootTakesItsImage : Prop :=
  ∀ (s : State),
    (∀ (port : Port) (v : Word32), bar0Open s port = true → s.boot.stage = .waitImage → v.getLsbD 0 = true →
      ∃ t, exec (.go port v) s = .next t ∧ t.boot.fwPort = BitVec.ofNat 1 port.val ∧
        t.boot.attempts = (if s.boot.attempts = 15 then 15 else s.boot.attempts + 1) ∧
        (0x2000 ≤ s.boot.imageLen.toNat → s.boot.imageLen.toNat ≤ 0x2000000 → t.boot.stage = .fetching ∧ t = { s with boot := t.boot }) ∧
        (s.boot.imageLen.toNat < 0x2000 ∨ 0x2000000 < s.boot.imageLen.toNat →
          t.boot.stage = .waitImage ∧ t.boot.errCode = 0x10 ∧ t.boot.errDetail = 0 ∧
          t = { s with boot := t.boot, blotter := t.blotter, telemetry := t.telemetry })) ∧
    (s.boot.stage = .fetching →
      (∀ b : Bytes, b.length = s.boot.imageLen.toNat → ∃ t, exec (.imageFetchDone (some b)) s = .next t ∧
        t = { s with boot := { s.boot with stage := .verifying, image := some b, beat := 8 } }) ∧
      (∀ o : Option Bytes, (∀ b, o = some b → b.length ≠ s.boot.imageLen.toNat) → ∃ t, exec (.imageFetchDone o) s = .next t ∧
        t.boot = { s.boot with stage := .waitImage, errCode := 0x11, errDetail := 0 } ∧ t.pins = { s.pins with faultN := true })) ∧
    (∀ b : Bytes, s.boot.image = some b → s.boot.stage = .verifying → ∃ t, exec .imageVerifyDone s = .next t ∧
      (imageFlaw b = none → t.boot.stage = .starting ∧ t.boot.fwDigest = slice b 0x20 64 ∧ t.boot.fwVersion.toNat = u64 b 0x10 ∧
        t.boot.fwEpoch.toNat = u32 b 0x18 ∧ t.errors = { s.errors with supervised := true } ∧
        t = { s with boot := t.boot, errors := t.errors, blotter := t.blotter, telemetry := t.telemetry }) ∧
      (∀ code, imageFlaw b = some code → t.boot = { s.boot with stage := .waitImage, image := none, errCode := BitVec.ofNat 8 code, errDetail := 0 })) ∧
    (s.boot.stage = .starting → s.errors.fatal = false → s.power.tripped = false →
      (∃ t, exec (.bootReady .ready) s = .next t ∧ t.boot = { s.boot with stage := .ready, beat := 10 } ∧
        t = offerUnowned (allFports.foldl startTraining { s with boot := t.boot, mem := Memory.empty }) (List.range 40)) ∧
      (∀ (n : Stack) (c : Fin 16) (code : Word16) (how : BootEnd) (err detail : Nat),
        (how = .hbmTrain n ∧ err = 0x20 ∧ detail = n.val) ∨ (how = .scribeStart c ∧ err = 0x21 ∧ detail = c.val) ∨
          (how = .firmwareInit code ∧ err = 0x22 ∧ detail = code.toNat) →
        ∃ t, exec (.bootReady how) s = .next t ∧ t.pins.faultN = false ∧
          t.boot = { s.boot with stage := .halted, errCode := BitVec.ofNat 8 err, errDetail := BitVec.ofNat 16 detail }))

/-- POWER_GOOD starts afresh at beat 1 and boots when MOD_RESET_N is released (R448, R516); the loss of power good loses the blotter, the time
base and every state (R444); MOD_RESET_N and RESET_DEVICE reset all but the time base, the blotter and BOOT_COUNT (R445), held during a hot
trip (R446); a boot goes on when MOD_RESET_N is released (R448). -/
def Obligations.PowerAndResetsStartAfresh : Prop :=
  ∀ (s : State),
    let lost := fun (t : State) => t.mem = Memory.empty ∧ t.folios = [] ∧ t.longs = [] ∧ t.cmds = [] ∧ t.parts = State.reset.parts ∧
      t.regions = State.reset.regions ∧ t.settings = State.reset.settings ∧ t.router = State.reset.router ∧ t.fabric = State.reset.fabric
    let fresh := fun (t : State) => t.mem = Memory.empty ∧ t.folios = [] ∧ t.longs = [] ∧ t.cmds = [] ∧ t.parts = State.reset.parts ∧
      t.regions = State.reset.regions ∧ t.settings = State.reset.settings ∧ t.router = State.reset.router
    (∀ eeprom seed : Option Bytes, s.pins.pwrGood = false → ∃ t, exec (.powerGood eeprom seed) s = .next t ∧ fresh t ∧
      t.pins.pwrGood = true ∧ t.timeBase = 0 ∧ t.silicon = { eeprom := eeprom, pufSeed := seed } ∧ t.boot.bootCount = 0 ∧
      (s.pins.modResetN = false → t.boot = { Boot.reset with beat := 1, held := true }) ∧
      (s.pins.modResetN = true → t.boot.slotId = s.pins.slotStrap ∧ 1 ≤ t.blotter.head ∧
        (∀ r, eeprom = none ∨ (eeprom = some r ∧ r.length < 256) → t.boot.stage = .halted ∧ t.boot.errCode = 1) ∧
        (∀ r, eeprom = some r → 256 ≤ r.length → recordHeaderOk r = false → t.boot.stage = .halted ∧ t.boot.errCode = 2) ∧
        (∀ r, eeprom = some r → 256 ≤ r.length → recordHeaderOk r = true → seed = none → t.boot.stage = .halted ∧ t.boot.errCode = 5) ∧
        (∀ r x, eeprom = some r → 256 ≤ r.length → recordHeaderOk r = true → seed = some x → recordWhole r = true → recordPolicyOk r = true →
          recordKeyOk r = true → recordSignatureOk r = true → sha3_512 (identityKey x) = slice r 0x40 64 → repairOk r = true →
          t.boot.stage = .romInit ∧ t.boot.beat = 6 ∧ t.boot.serial = slice r 0x10 16 ∧ t.boot.identityHash = slice r 0x40 64 ∧
          ∀ p : Port, t.ports[p].training = s.pins.perstN[p]))) ∧
    (s.pins.pwrGood = true →
      (∃ t, exec .powerGoodLost s = .next t ∧ lost t ∧ t.pins.pwrGood = false ∧ t.timeBase = 0 ∧ t.blotter = State.reset.blotter ∧
        t.boot = State.reset.boot) ∧
      (s.pins.modResetN = true →
        ((s.power.tripped && s.power.hot) = false → ∃ t, exec .modResetN s = .next t ∧ lost t ∧ t.timeBase = s.timeBase ∧
          s.blotter.head < t.blotter.head ∧ t.blotter.frozen = s.blotter.frozen ∧ t.blotter.freezeOnJob = s.blotter.freezeOnJob ∧
          t.boot = { Boot.reset with bootCount := s.boot.bootCount + 1, beat := 1, held := true }) ∧
        ((s.power.tripped && s.power.hot) = true → exec .modResetN s = .next { s with
          pins := { s.pins with modResetN := false }, power := { s.power with resetHeld := true } })) ∧
      (s.pins.modResetN = false → s.boot.held = true → ∃ t, exec .modResetNRelease s = .next t ∧ t.boot.held = false ∧
        t.boot.slotId = s.pins.slotStrap ∧ s.blotter.head < t.blotter.head) ∧
      (∀ inst : Byte, 2 ≤ s.boot.beat → s.mgmt.busy = none → (s.power.tripped && s.power.hot) = false → s.pins.modResetN = true →
        ∃ t, exec (.resetDevice inst []) s = .next t ∧ fresh t ∧ t.timeBase = s.timeBase ∧ t.boot.bootCount = s.boot.bootCount + 1 ∧
          t.mgmt.responses = s.mgmt.responses ++ [mgmtHead 0x04 inst ++ [0, 0, 0, 0]])) ∧
    (s.pins.pwrGood = false → exec .modResetN s = .next { s with pins := { s.pins with modResetN := false } } ∧
      exec .modResetNRelease s = .next { s with pins := { s.pins with modResetN := true } })

/-! ### The management endpoint -/

/-- Requests that only read: GET_CERTIFICATE, ATTEST, GET_BOOT, BLOTTER_STATUS, BLOTTER_READ and ERROR_STATUS answer with the request's four bytes,
STATUS and their data and change nothing else (R456, R464, R467, R489, R490); arguments that break their form give BAD_ARGUMENT, one before
its time NOT_READY, and any while another is served BUSY (R467). A PLDM sensor reads as R466 has it. -/
def Obligations.ManagementReadsAnswer : Prop :=
  ∀ (s : State) (inst : Byte) (args : Bytes),
    let reply := fun (cmd status : Nat) (data : Bytes) => Host.Outcome.next (mgmtRespond s (mgmtHead cmd inst) status data)
    (takesRequest s →
      (∀ r, s.silicon.eeprom = some r → 4 ≤ s.boot.beat →
        (args.length = 6 → u16 args 4 ≤ 1024 → u32 args 0 + u16 args 4 ≤ (recordCert r).length → recordWhole r = true →
          exec (.getCertificate inst args) s = reply 0x01 0 (slice (recordCert r) (u32 args 0) (u16 args 4))) ∧
        (args.length ≠ 6 ∨ 1024 < u16 args 4 ∨ (recordCert r).length < u32 args 0 + u16 args 4 →
          exec (.getCertificate inst args) s = reply 0x01 2 [])) ∧
      (s.boot.beat < 4 → exec (.getCertificate inst args) s = reply 0x01 1 []) ∧
      (∀ seed, s.boot.seed = some seed → 4 ≤ s.boot.beat →
        (args.length = 32 → exec (.managementAttest inst args) s =
          reply 0x02 0 (attestation s seed 1 0 args (measurementsOf s allParts))) ∧
        (args.length ≠ 32 → exec (.managementAttest inst args) s = reply 0x02 2 [])) ∧
      (s.boot.seed = none → s.boot.errCode = 5 → exec (.managementAttest inst args) s = reply 0x02 3 []) ∧
      (exec (.getBoot inst []) s = reply 0x03 0 (le 4 (bootStatus s.boot) ++ le 4 (bootErrorWord s.boot) ++ slice s.boot.fwDigest 0 64)) ∧
      (exec (.blotterStatus inst []) s = reply 0x20 0 (le 4 s.blotter.head ++ le 4 (if s.blotter.frozen then s.blotter.freezeSeq else 0) ++
        le 4 s.blotter.lost ++ le 4 ((if s.blotter.frozen then 1 else 0) + (if s.blotter.freezeOnJob then 2 else 0)))) ∧
      (args.length = 6 → 1 ≤ u16 args 4 → u16 args 4 ≤ 32 → exec (.managementBlotterRead inst args) s =
        reply 0x21 0 (blotterRead s.blotter (u32 args 0) (u16 args 4))) ∧
      (args.length ≠ 6 ∨ u16 args 4 = 0 ∨ 32 < u16 args 4 → exec (.managementBlotterRead inst args) s = reply 0x21 2 []) ∧
      (exec (.errorStatus inst []) s = reply 0x24 0 ((List.range 12).flatMap (fun i => le 4 (errorWord s none (4 * i))))) ∧
      (args ≠ [] → exec (.getBoot inst args) s = reply 0x03 2 [] ∧ exec (.blotterStatus inst args) s = reply 0x20 2 [] ∧
        exec (.errorStatus inst args) s = reply 0x24 2 [])) ∧
    (s.pins.pwrGood = true → 2 ≤ s.boot.beat → s.mgmt.busy.isSome = true →
      exec (.getCertificate inst args) s = reply 0x01 4 [] ∧ exec (.managementAttest inst args) s = reply 0x02 4 [] ∧
      exec (.getBoot inst args) s = reply 0x03 4 [] ∧ exec (.blotterStatus inst args) s = reply 0x20 4 [] ∧
      exec (.managementBlotterRead inst args) s = reply 0x21 4 [] ∧ exec (.errorStatus inst args) s = reply 0x24 4 []) ∧
    (s.pins.pwrGood = true → 2 ≤ s.boot.beat →
      let reads := fun (n : Byte) (v : Nat) => exec (.pldmSensorRead n) s =
        .next { s with mgmt := { s.mgmt with responses := s.mgmt.responses ++ [[n] ++ le 4 v] } }
      reads 1 s.power.tjMax ∧ reads 2 s.power.powerW ∧ reads 3 s.power.inputMv ∧
      (∀ q : Quad, reads (BitVec.ofNat 8 (4 + q.val)) (400 + 25 * s.power.quads[q].current)) ∧ reads 8 s.boot.stage.code ∧
      (s.power.tripped = true → reads 9 3) ∧
      (s.power.tripped = false → (∃ q : Quad, s.power.quads[q].overTemp = true) → reads 9 2) ∧
      (s.power.tripped = false → (∀ q : Quad, s.power.quads[q].overTemp = false) → (∃ q : Quad, s.power.quads[q].throttling = true) → reads 9 1) ∧
      (s.power.tripped = false → (∀ q : Quad, s.power.quads[q].overTemp = false) → (∀ q : Quad, s.power.quads[q].throttling = false) → reads 9 0))

/-- SET_CARVEOUT sets the mode of every region of its mask and has them zeroed; each is assigned when it is zero, and the response comes with
the last; a request that names an assigned region, or a partition with a loaded folio, changes nothing (R471). The zeroing of a released
region takes it out of its carve-out. -/
def Obligations.CarveoutsAreZeroedThenAssigned : Prop :=
  ∀ (s : State),
    (∀ (inst : Byte) (args : Bytes), takesRequest s → s.live = true → args.length = 40 → u8 args 0 ≤ 3 → zeroRange args 1 7 = true →
      let p := partN (u8 args 0)
      let mask := uN args 8 16
      let modes := uN args 24 16
      (2 ^ 72 ≤ mask → exec (.setCarveout inst args) s = .next (mgmtRespond s (mgmtHead 0x12 inst) 2 [])) ∧
      (mask < 2 ^ 72 → (s.parts[p].assigned = false ∨ s.folios.any (fun f => f.part == p) = true ∨
          (∃ g : Fin 72, bit mask g = true ∧ s.regions[g].assigned = true)) →
        exec (.setCarveout inst args) s = .next (mgmtRespond s (mgmtHead 0x12 inst) 3 [])) ∧
      (0 < mask → mask < 2 ^ 72 → s.parts[p].assigned = true → s.folios.any (fun f => f.part == p) = false →
        (∀ g : Fin 72, bit mask g = true → s.regions[g].assigned = false ∧ s.regions[g].zeroing = false) →
        ∃ t, exec (.setCarveout inst args) s = .next t ∧ t = { s with regions := t.regions, mgmt := t.mgmt } ∧
          t.mgmt = { s.mgmt with busy := some (.carveout (mgmtHead 0x12 inst) p (maskRegions mask)) } ∧
          (∀ g : Fin 72, bit mask g = true → t.regions[g] = { s.regions[g] with part := p, stackLocal := bit modes g, zeroing := true }) ∧
          (∀ g : Fin 72, bit mask g = false → t.regions[g] = s.regions[g]))) ∧
    (∀ g : Fin 72, s.live = true → s.regions[g].zeroing = true → allStacks.all (domainOn s) = true → s.mem.wf = true →
      ∃ t, exec (.regionZeroed g) s = .next t ∧
        (∀ a, t.mem.read a = if g.val * regionBytes ≤ a ∧ a < (g.val + 1) * regionBytes then 0 else s.mem.read a) ∧
        (∀ g' : Fin 72, g' ≠ g → t.regions[g'] = s.regions[g']) ∧
        (∀ head p rs, s.mgmt.busy = some (.carveout head p rs) → g.val ∈ rs →
          t.regions[g] = { s.regions[g] with assigned := true, zeroing := false } ∧ t = { s with mem := t.mem, regions := t.regions, mgmt := t.mgmt } ∧
          ((∀ x ∈ rs, x = g.val) → t.mgmt = { s.mgmt with busy := none, responses := s.mgmt.responses ++ [head ++ [0, 0, 0, 0]] }) ∧
          ((∃ x ∈ rs, x ≠ g.val) → t.mgmt = { s.mgmt with busy := some (.carveout head p (rs.filter (fun x => x != g.val))) })) ∧
        ((∀ head p rs, s.mgmt.busy = some (.carveout head p rs) → g.val ∉ rs) →
          t.regions[g] = { s.regions[g] with assigned := false, part := 0, zeroing := false }))

/-- Requests that act: ASSIGN_PARTITION gives the partition the values of its block and RELEASE_PARTITION returns it to reset values with its
regions being zeroed (R469, R470); SET_COORD writes MY_COORD, POD_EXTENT and FM_GATEWAY (R331); SET_JOB and CLEAR_JOB set and clear the job
of a partition with no loaded job folio (R472); UNFREEZE and CONFIG change the blotter's lock and FREEZE_ON_JOB (R488, R490). Refused
requests answer REFUSED and change nothing. -/
def Obligations.ManagementRequestsAct : Prop :=
  ∀ (s : State) (inst : Byte) (args : Bytes), takesRequest s →
    let reply := fun (cmd status : Nat) (t : State) => t.mgmt = (mgmtRespond s (mgmtHead cmd inst) status []).mgmt
    let p := partN (u8 args 0)
    let others := fun (t : State) => ∀ p' : Part, p' ≠ p → t.parts[p'] = s.parts[p']
    (s.live = true →
      (assignOk args = true → assignRefused s args = true → exec (.assignPartition inst args) s = .next (mgmtRespond s (mgmtHead 0x10 inst) 3 [])) ∧
      (assignOk args = true → assignRefused s args = false → domainOn s (pcieDomain (u8 args 1)) = true →
        ∃ t, exec (.assignPartition inst args) s = .next t ∧ reply 0x10 0 t ∧ others t ∧ t = { s with parts := t.parts, mgmt := t.mgmt } ∧
          t.parts[p] = { s.parts[p] with
            assigned := true, port := portN (u8 args 1), fmChannel := bit (u16 args 2) 0, powerAdmin := bit (u16 args 2) 1,
            requireOwner := bit (u16 args 2) 2, debugFolios := bit (u16 args 2) 3, limit := u16 args 4, assignBlock := args }) ∧
      (args.length = 2 → u8 args 0 ≤ 3 → u8 args 1 = 0 →
        (s.parts[p].assigned = false ∨ quiesced s p = false ∨ s.folios.any (fun f => f.part == p) = true →
          exec (.releasePartition inst args) s = .next (mgmtRespond s (mgmtHead 0x11 inst) 3 [])) ∧
        (s.parts[p].assigned = true → quiesced s p = true → s.folios.any (fun f => f.part == p) = false →
          ∃ t, exec (.releasePartition inst args) s = .next t ∧ reply 0x11 0 t ∧ others t ∧
            t.parts[p] = { Partition.reset with nextSeq := s.parts[p].nextSeq } ∧
            (∀ g : Fin 72, s.regions[g].assigned = true → s.regions[g].part = p → t.regions[g] = { s.regions[g] with zeroing := true }) ∧
            (∀ g : Fin 72, s.regions[g].assigned = false ∨ s.regions[g].part ≠ p → t.regions[g] = s.regions[g]))) ∧
      (args.length = 12 → bits (u32 args 0) 31 16 = 0 → bits (u32 args 0) 14 9 = 0 → u32 args 4 < 2 ^ 9 → bits (u32 args 8) 31 16 = 0 →
        bits (u32 args 8) 14 9 = 0 → s.router.coordValid = false →
        let r := { s.router with
          extX := BitVec.ofNat 3 (u32 args 4), extY := BitVec.ofNat 3 (u32 args 4 / 8), extZ := BitVec.ofNat 3 (u32 args 4 / 64),
          gateway := BitVec.ofNat 9 (u32 args 8), gatewayValid := bit (u32 args 8) 15, myCoord := BitVec.ofNat 9 (u32 args 0) }
        ∃ t, exec (.setCoord inst args) s = .next t ∧ reply 0x13 0 t ∧ t = { s with router := t.router, mgmt := t.mgmt } ∧
          (bit (u32 args 0) 15 = false → t.router = r) ∧
          (bit (u32 args 0) 15 = true → t.router = { r with
            coordValid := true, bank0Valid := true, injectEpoch := 0, bank0 := { route := defaultRoutes r, coordMap := [] } })) ∧
      (setJobOk args = true → s.parts[p].assigned = true → jobLoaded s p = false →
        ∃ t, exec (.setJob inst args) s = .next t ∧ reply 0x14 0 t ∧ others t ∧
          t.parts[p] = { s.parts[p] with
            job := some { id := BitVec.ofNat 16 (u16 args 4), gen := BitVec.ofNat 16 (u16 args 6), written := BitVec.ofNat 16 (u16 args 6),
                          box := (u8 args 8, u8 args 9, u8 args 10), coord := (u8 args 11, u8 args 12, u8 args 13),
                          failed := false, stopped := false, torn := false },
            carveStamp := BitVec.ofNat 16 (u16 args 4) ++ BitVec.ofNat 16 (u16 args 6) }) ∧
      (∀ j, setJobOk args = true → s.parts[p].assigned = true → jobLoaded s p = true → s.parts[p].job = some j →
        (j.id.toNat ≠ u16 args 4 ∨ (BitVec.ofNat 16 (u16 args 6)).toNat ≤ j.gen.toNat →
          exec (.setJob inst args) s = .next (mgmtRespond s (mgmtHead 0x14 inst) 3 []))) ∧
      (args.length = 1 → u8 args 0 ≤ 3 → s.parts[p].assigned = true →
        (jobLoaded s p = true → exec (.clearJob inst args) s = .next (mgmtRespond s (mgmtHead 0x15 inst) 3 [])) ∧
        (jobLoaded s p = false → ∃ t, exec (.clearJob inst args) s = .next t ∧ reply 0x15 0 t ∧ others t ∧
          t.parts[p] = { s.parts[p] with job := none, carveStamp := 0 } ∧ t = { s with parts := t.parts, mgmt := t.mgmt }))) ∧
    (s.errors.fatal = true → exec (.blotterUnfreeze inst []) s = .next (mgmtRespond s (mgmtHead 0x22 inst) 3 [])) ∧
    (s.errors.fatal = false → ∃ t, exec (.blotterUnfreeze inst []) s = .next t ∧ reply 0x22 0 t ∧ t.blotter.frozen = false ∧
      t = { s with blotter := t.blotter, telemetry := t.telemetry, mgmt := t.mgmt } ∧
      (s.blotter.frozen = true → t.blotter.lost = 0 ∧ t.blotter.head = s.blotter.head + 1) ∧ (s.blotter.frozen = false → t.blotter = s.blotter)) ∧
    (args.length = 1 → u8 args 0 ≤ 1 → ∃ t, exec (.blotterConfig inst args) s = .next t ∧ reply 0x23 0 t ∧
      t = { s with blotter := { s.blotter with freezeOnJob := u8 args 0 == 1 }, mgmt := t.mgmt })

/-- POWER_POLICY and SET_POWER: a policy with a flaw is applied in no part (R440), the command's record holding the offset of the first; a
result too long for its buffer gives NO_RESOURCE (R395); a policy whose entries name no state is applied whole and answered with its result at
once, and one that names states seeks each of them in policy order (R441, R467). -/
def Obligations.PowerPoliciesApplyWhole : Prop :=
  ∀ (s : State) (b : Bytes),
    let n := 8 + 8 * u16 b 2
    let applied := fun (t : State) => t.power = (policyFields s b).power ∧ t.power.capW = (if bit (u32 b 4) 0 then u32 b 8 else s.power.capW) ∧
      ∀ q : Quad, t.power.quads[q] = { s.power.quads[q] with
        policyMax := if bit (u32 b 4) 1 then u8 b (12 + q.val) else s.power.quads[q].policyMax,
        thresholdMv := if bit (u32 b 4) 2 then u8 b (16 + q.val) else s.power.quads[q].thresholdMv }
    (∀ (p : Part) (q : Fin 16) (c : Cmd), s.memOk → quietFor s c → startable s p q 0x71 = some c → b.length = u32 c.desc 8 →
      (∀ o, policyFlaw b = some o → ∃ t, exec (.powerPolicy p q b) s = .next t ∧ finishedAs s t c 0x10 3 o 0 ∧ posts s t) ∧
      (policyFlaw b = none → u32 c.desc 24 < n → ∃ t, exec (.powerPolicy p q b) s = .next t ∧ finishedAs s t c 0x13 6 n 0 ∧ posts s t) ∧
      (policyFlaw b = none → n ≤ u32 c.desc 24 → policyWaits b = [] → ∃ t, exec (.powerPolicy p q b) s = .next t ∧
        applied t ∧ finishedAs s t c 0 0 0 0 ∧ resultAt s t c (policyResult t (policyDomains b)) ∧ posts { s with power := t.power } t) ∧
      (policyFlaw b = none → n ≤ u32 c.desc 24 → policyWaits b ≠ [] → ∃ u, exec (.powerPolicy p q b) s = .next (applyPolicy u b 8) ∧
        applied u ∧ u = { s with power := u.power, cmds := u.cmds } ∧
        cmdOf u c.uid = some { c with started := true, policy := some (policyDomains b, policyWaits b) })) ∧
    (∀ inst : Byte, takesRequest s → s.live = true →
      (∀ o, policyFlaw b = some o → exec (.setPower inst b) s = .next (mgmtRespond s (mgmtHead 0x16 inst) 2 [])) ∧
      (policyFlaw b = none → policyWaits b = [] → ∃ t, exec (.setPower inst b) s = .next t ∧ applied t ∧
        t.mgmt = (mgmtRespond s (mgmtHead 0x16 inst) 0 (policyResult t (policyDomains b))).mgmt ∧ t = { s with power := t.power, mgmt := t.mgmt }) ∧
      (policyFlaw b = none → policyWaits b ≠ [] → ∃ u, exec (.setPower inst b) s = .next (applyPolicy u b 10) ∧ applied u ∧
        u = { s with power := u.power, mgmt := { s.mgmt with busy := some (.power (mgmtHead 0x16 inst) (policyDomains b) (policyWaits b)) } }))

/-! ### The system class -/

/-- SYS_READ and SYS_WRITE of a well-formed packet: the device control space and memory answer OK, with the data of a read, and an address that
nothing holds answers BAD_ADDRESS; a packet that breaks the format is discarded and counted (R350). A SYS_REPLY or a device's SYS_MESSAGE
takes the next entry of the FM receive ring (R415); FM_TRANSMIT takes the oldest entry of the transmit ring and sends its packet (R415). -/
def Obligations.SystemAccessesAnswer : Prop :=
  ∀ (s : State) (i : Nat) (k : Packet),
    let a := k.sysLocal
    let n := u32 k.payload 0
    let rest := { s with inbox := removeAt s.inbox i }
    (takeInbox s i 3 1 = some (k, rest) →
      (readOk k = false → exec (.sysRead i) s = .next (sysDrop rest)) ∧
      (∀ o, readOk k = true → sysSpace s a n = .control o → exec (.sysRead i) s =
        .next (sysReply rest k sysOk ((List.range (n / 4)).flatMap (fun j => le 4 (controlWord rest (o + 4 * j)))))) ∧
      (∀ ds, readOk k = true → sysSpace s a n = .memory ds → ds.all (domainOn s) = true → s.mem.poisoned a n = false →
        exec (.sysRead i) s = .next (sysReply { endWait rest (windowCluster a) with fresh := s.fresh + 1 } k sysOk (targetBytes s a n))) ∧
      (readOk k = true → sysSpace s a n = .nowhere → exec (.sysRead i) s = .next (sysReply rest k sysBadAddress []))) ∧
    (takeInbox s i 3 2 = some (k, rest) → ownRegisters.any (fun r => touches k r.1 r.2) = false →
      (writeOk k = false → exec (.sysWrite i) s = .next (sysDrop rest)) ∧
      (∀ o, writeOk k = true → sysSpace s a k.payload.length = .control o → (writeControl rest o k.payload).1 = sysOk →
        exec (.sysWrite i) s = .next (sysReply (writeControl rest o k.payload).2 k sysOk [])) ∧
      (∀ o, writeOk k = true → sysSpace s a k.payload.length = .control o → (writeControl rest o k.payload).1 = sysBadAddress →
        exec (.sysWrite i) s = .next (sysReply rest k sysBadAddress [])) ∧
      (∀ ds, writeOk k = true → sysSpace s a k.payload.length = .memory ds → ds.all (domainOn s) = true →
        exec (.sysWrite i) s = .next (sysReply (targetStore (endWait rest (windowCluster a)) a k.payload) k sysOk [])) ∧
      (writeOk k = true → sysSpace s a k.payload.length = .nowhere → exec (.sysWrite i) s = .next (sysReply rest k sysBadAddress []))) ∧
    (∀ (p : Part) (code : Nat) (args : Bytes), fmPart s = some p → s.parts[p].fmrx.usable = true → portPosts s s.parts[p].port = true →
      0 < s.parts[p].fmrx.free →
      let lands := fun (c : Instr) => ∃ t, exec c s = .next t ∧ t.parts[p].fmrx = { s.parts[p].fmrx with posted := s.parts[p].fmrx.posted + 1 } ∧
        reports rest t
      (takeInbox s i 3 3 = some (k, rest) → lands (.sysReply i)) ∧
      (takeInbox s i 3 4 = some (k, rest) → toDevice (u16 k.payload 0) = false → messageOf k toManager = some (code, args) → lands (.sysMessage i))) ∧
    (∀ (p : Part) (e : Bytes), s.live = true → s.parts[p].assigned = true → s.parts[p].enable = true → s.parts[p].fmChannel = true →
      s.parts[p].fmtx.usable = true → portPosts s s.parts[p].port = true → 0 < s.parts[p].fmtx.held → e.length = 576 →
      let taken := updPart s p (fun x => { x with fmtx := { x.fmtx with consumed := x.fmtx.consumed + 1 } })
      (fmEntryOk e = true → exec (.fmTransmit p e) s = .next (sendPacket taken (fmPacket s e))) ∧
      (fmEntryOk e = false → exec (.fmTransmit p e) s = .next (sysDrop taken)))

/-- A write of one word to a register with an operation of its own. MY_COORD is assigned with default routes in bank 0, is not changed while it
stands, and takes its value while not valid (R329, R331); BANK_CTRL keeps a valid injection bank (R334); FPORT_ENABLE is refused while LOCK
holds or where it would cut a ring (R504); MODE of an assigned region is refused with a record (R505); LOCK, once 1, is kept (R502). -/
def Obligations.SettingsAndRoutingAreWritten : Prop :=
  ∀ (s : State) (i : Nat) (k : Packet) (v : Nat),
    let rest := { s with inbox := removeAt s.inbox i }
    let at_ := fun (o : Nat) => takeInbox s i 3 2 = some (k, rest) ∧ k.payload.length = 4 ∧ u32 k.payload 0 = v ∧ k.sysLocal = controlBase + o
    let done := fun (c : Instr) (t : State) => exec c s = .next (sysReply t k sysOk [])
    let refused := fun (c : Instr) => exec c s = .next (sysReply rest k sysRefused [])
    (at_ 0x18000 → (bits v 31 16 ≠ 0 ∨ bits v 14 9 ≠ 0 → refused (.myCoord i)) ∧
      (bits v 31 16 = 0 → bits v 14 9 = 0 →
        (s.router.coordValid = false → bit v 15 = true → done (.myCoord i) (assignCoord rest (BitVec.ofNat 9 v))) ∧
        (s.router.coordValid = false → bit v 15 = false → done (.myCoord i) (updRouter rest (fun r => { r with myCoord := BitVec.ofNat 9 v }))) ∧
        (s.router.coordValid = true → BitVec.ofNat 9 v ≠ s.router.myCoord → refused (.myCoord i)) ∧
        (s.router.coordValid = true → BitVec.ofNat 9 v = s.router.myCoord → bit v 15 = true → done (.myCoord i) rest) ∧
        (s.router.coordValid = true → BitVec.ofNat 9 v = s.router.myCoord → bit v 15 = false → done (.myCoord i) (clearCoord rest)))) ∧
    (at_ 0x18008 → ∀ u, writeBankCtrl rest v = u → (u = none → refused (.bankCtrl i)) ∧ (∀ t, u = some t → done (.bankCtrl i) t ∧
      t = updRouter rest (fun r => { r with bank0Valid := bit v 0, bank1Valid := bit v 1, injectEpoch := BitVec.ofNat 1 (bits v 2 2) }) ∧
      (if bits v 2 2 = 0 then bit v 0 else bit v 1) = true)) ∧
    (at_ 0x5214 → (s.settings.lock = true → v % 2 ^ 16 ≠ s.settings.fportEnable.toNat → refused (.fportEnable i)) ∧
      (s.settings.lock = false ∨ v % 2 ^ 16 = s.settings.fportEnable.toNat → cutsRing rest (v % 2 ^ 16) = true → refused (.fportEnable i)) ∧
      (s.settings.lock = false ∨ v % 2 ^ 16 = s.settings.fportEnable.toNat → cutsRing rest (v % 2 ^ 16) = false →
        done (.fportEnable i) (setEnables rest (v % 2 ^ 16)))) ∧
    (∀ g : Fin 72, at_ (0x5000 + 4 * g.val) →
      (bit v 0 = s.regions[g].stackLocal → done (.hbmRegion i) rest) ∧
      (bit v 0 ≠ s.regions[g].stackLocal → modeHeld s g = false →
        done (.hbmRegion i) (updRegion rest g (fun r => { r with stackLocal := bit v 0 }))) ∧
      (bit v 0 ≠ s.regions[g].stackLocal → modeHeld s g = true →
        exec (.hbmRegion i) s = .next (sysReply (note rest 0x23 (unitFabric 29) 0 g.val 0 0) k sysRefused []))) ∧
    (at_ 0x52FC → (s.settings.lock = true → bit v 0 = false → refused (.settingsLock i)) ∧
      (s.settings.lock = false ∨ bit v 0 = true →
        done (.settingsLock i) { rest with settings := { s.settings with lock := bit v 0 } }))

/-- The fabric manager's messages: HOLD_PAIR holds a peer's requests back and RESET_PAIR forgets the end-to-end state with it (R349); TEARDOWN
tears down the job of its stamp, or answers at once when no partition holds it (R481, R482); RETRAIN_PORT takes the port down and trains it
again (R310, R351). A message that breaks its table is discarded and counted (R351). -/
def Obligations.ManagerMessagesAct : Prop :=
  ∀ (s : State) (i : Nat) (k : Packet) (x : Nat) (a : Bytes), takeInbox s i 3 4 = some (k, { s with inbox := removeAt s.inbox i }) →
    let rest := { s with inbox := removeAt s.inbox i }
    (messageOf k (fun _ => some 4) = none →
      (u16 k.payload 0 = 0x101 → exec (.holdPair i) s = .next (sysDrop rest)) ∧ (u16 k.payload 0 = 0x102 → exec (.resetPair i) s = .next (sysDrop rest)) ∧
      (u16 k.payload 0 = 0x103 → exec (.teardown i) s = .next (sysDrop rest)) ∧ (u16 k.payload 0 = 0x104 → exec (.retrainPort i) s = .next (sysDrop rest))) ∧
    (messageOf k (fun _ => some 4) = some (x, a) →
      (u16 k.payload 0 = 0x101 → u16 a 0 < 512 → ∃ t, exec (.holdPair i) s = .next t ∧ t = { rest with router := t.router } ∧
        u16 a 0 ∈ t.router.held ∧ t.router = { s.router with held := t.router.held } ∧ ∀ n, n ≠ u16 a 0 → (n ∈ t.router.held ↔ n ∈ s.router.held)) ∧
      (u16 k.payload 0 = 0x102 → u16 a 0 < 512 → exec (.resetPair i) s = .next (resetPeer rest (BitVec.ofNat 9 (u16 a 0)))) ∧
      (u16 k.payload 0 = 0x103 →
        (∀ p, partOfStamp rest (BitVec.ofNat 32 (u32 a 0)) = some p → exec (.teardown i) s = .next (teardown rest p 0)) ∧
        (∀ p j, partOfStamp rest (BitVec.ofNat 32 (u32 a 0)) = some p → s.parts[p].job = some j → s.folios.any (fun f => f.part == p) = false →
          s.longs.any (fun o => o.part == p && !o.state.isOver) = false → s.trackers = [] → s.fillers = [] →
          ∃ t, exec (.teardown i) s = .next t ∧ t.parts = (updPart s p (fun x => { x with job := some { j with stopped := false, torn := true } })).parts ∧
            t.longs = s.longs ∧ t.mem = s.mem) ∧
        (partOfStamp rest (BitVec.ofNat 32 (u32 a 0)) = none → ∃ t, exec (.teardown i) s = .next t ∧
          tells rest t ∧ (s.pins.pwrGood = true → t.blotter.head = s.blotter.head + 2))) ∧
      (u16 k.payload 0 = 0x104 → ∀ p : FPort, u8 a 0 = p.val → mayTrain s p = true →
        ∃ t, exec (.retrainPort i) s = .next t ∧ t.fabric[p].state = .detect ∧ t.fabric[p].attempts = 0 ∧
          tells { rest with fabric := t.fabric } t) ∧
      (u16 k.payload 0 = 0x104 → 16 ≤ u8 a 0 → exec (.retrainPort i) s = .next (sysDrop rest)))

/-- Training of a fabric port by the state that it is in (R310, R312, R313, R314): frames with a bad CRC are ignored; two lanes take a
port to EQUALIZE; the last lane of the set takes it from ALIGN to MEASURE; a good MEASURE makes it ACTIVE and an attempt that fails takes it
DOWN, or to FAILED after the eighth; charged lanes take an ACTIVE port to IDENTIFY over the lanes that remain; a loss of signal takes it DOWN. -/
def Obligations.PortsTrainByTheirState : Prop :=
  ∀ (s : State) (p : FPort),
    let x := s.fabric[p]
    (∀ (l : Lane) (f : BitVec 256), mayTrain s p = true →
      (frameOk f.toNat = false → exec (.trainingFrame p l f) s = .next s) ∧
      (frameOk f.toNat = true → x.state = .detect → widthOf (setBit8 x.detected l) < 2 → ∃ t, exec (.trainingFrame p l f) s = .next t ∧
        t.fabric[p].state = .detect ∧ t.fabric[p].detected = setBit8 x.detected l ∧ relinks s t p) ∧
      (frameOk f.toNat = true → x.state = .detect → 2 ≤ widthOf (setBit8 x.detected l) → ∃ t, exec (.trainingFrame p l f) s = .next t ∧
        t.fabric[p].state = .equalize ∧ t.fabric[p].detected = setBit8 x.detected l ∧ relinks s t p) ∧
      (frameOk f.toNat = true → x.state = .align → 4 ≤ bits f.toNat 67 64 → x.lanes &&& ~~~(setBit8 x.aligned l) = 0 →
        ∃ t, exec (.trainingFrame p l f) s = .next t ∧ t.fabric[p].state = .measure ∧ t.fabric[p].lanes = x.lanes ∧ relinks s t p)) ∧
    (∀ (rtt : Nat) (fixed : List (Lane × Nat)), x.state = .measure → s.live = true →
      (rtt ≤ rttBudget (portDim p) → (lanesOf x.lanes).any (fun l => overSer s (fixedOf fixed l) measureSymbols) = false →
        ∃ t, exec (.measureComplete p rtt fixed) s = .next t ∧ t.fabric[p].state = .active ∧ t.fabric[p].rttNs = rtt ∧
          t.fabric[p].lanes = x.lanes ∧ t.fabric[p].attempts = 0 ∧ t.fabric[p].degraded = false ∧ relinks s t p) ∧
      (rttBudget (portDim p) < rtt → x.attempts < 7 → ∃ t, exec (.measureComplete p rtt fixed) s = .next t ∧
        t.fabric[p] = { FabricPort.shut x with state := .down, attempts := x.attempts + 1, retryWait := true } ∧ relinks s t p)) ∧
    (x.state = .detect ∨ x.state = .equalize ∨ x.state = .identify ∨ x.state = .align ∨ x.state = .measure →
      (x.attempts < 7 → ∃ t, exec (.trainingTimeout p) s = .next t ∧
        t.fabric[p] = { FabricPort.shut x with state := .down, attempts := x.attempts + 1, retryWait := true } ∧ relinks s t p) ∧
      (7 ≤ x.attempts → s.router.coordValid = true → ∃ t, exec (.trainingTimeout p) s = .next t ∧
        t.fabric[p].state = .failed ∧ t.fabric[p].attempts = x.attempts + 1 ∧ relinks s t p)) ∧
    (x.state = .down → mayTrain s p = true → ∃ t, exec (.trainingRetry p) s = .next t ∧ t.fabric[p].state = .detect ∧
      t.fabric[p].attempts = x.attempts ∧ t.fabric[p].goodOwn = 0xFF ∧ relinks s t p) ∧
    (x.state = .active →
      (chargedLanes s x = 0 → ∃ t, exec (.serWindow p) s = .next t ∧
        t.fabric[p] = { x with winFixed := Vector.replicate 8 0, winBad := 0 } ∧ relinks s t p) ∧
      (∀ c : BitVec 8, (chooseLanes (x.goodOwn &&& ~~~c)).isNone = false → (chargedLanes s x = c ∧ c ≠ 0 → ∃ t, exec (.serWindow p) s = .next t ∧ t.fabric[p].goodOwn = x.goodOwn &&& ~~~c ∧
          t.fabric[p].state = .identify ∧ t.fabric[p].degraded = true ∧ relinks s t p) ∧
        (∀ l : Lane, c = 1#8 <<< l.val → x.lanes.getLsbD l.val = true → ∃ t, exec (.lossOfLock p l) s = .next t ∧
          t.fabric[p].goodOwn = x.goodOwn &&& ~~~c ∧ t.fabric[p].state = .identify ∧ t.fabric[p].degraded = true ∧ relinks s t p)) ∧
      (∀ l : Lane, x.lanes.getLsbD l.val = true → (chooseLanes (x.goodOwn &&& ~~~(1#8 <<< l.val))).isNone = true →
        ∃ t, exec (.lossOfLock p l) s = .next t ∧ t.fabric[p].state = .down ∧ relinks s t p) ∧
      (∃ t, exec (.lossOfSignal p) s = .next t ∧
        t.fabric[p] = { FabricPort.shut x with state := .down, attempts := x.attempts, retryWait := x.retryWait } ∧ relinks s t p))

/-- Codewords and packets on the fabric: a bad codeword cuts what arrives and waits for a HEAD (R308, R320); a good one brings VC_OFF and its
flits (R307, R308); a codeword leaves with VC_OFF of R323 and idle flits where no packet is eligible (R326); the router delivers, forwards or
discards a packet as R335 to R337 say. -/
def Obligations.CodewordsAndRoutes : Prop :=
  ∀ (s : State) (p : FPort),
    let x := s.fabric[p]
    (x.state = .active →
      (∃ t, exec (.codeword p .bad) s = .next t ∧ t.fabric[p].rx = none ∧ t.fabric[p].winBad = x.winBad + 1 ∧ t.fabric[p].resync = true ∧
        t.fabric[p].partnerAllOff = true ∧ t.fabric[p].inBuf = x.inBuf ∧ t.fabric[p].state = .active ∧ relinks s t p) ∧
      (∀ (off : BitVec 16) (f : BitVec 512), x.rx = none → x.resync = false →
        let run := runOfFlits [f] (some p)
        (f = 0 → ∃ t, exec (.codeword p (.good 0 off [f] [])) s = .next t ∧
          t.fabric[p] = { x with partnerOff := off, partnerAllOff := false } ∧ relinks s t p) ∧
        (f ≠ 0 → headerOk f = true → run.whole = true → poolUse { x with rx := some run } ≤ poolFlits (portDim p) →
          ∃ t, exec (.codeword p (.good 0 off [f] [])) s = .next t ∧ t.fabric[p].inBuf = x.inBuf ++ [run] ∧ t.fabric[p].rx = none ∧
            t.fabric[p].partnerOff = off ∧ t.fabric[p].outQ = x.outQ ∧ ∀ q, q ≠ p → t.fabric[q] = s.fabric[q])) ∧
      (∀ l y, nextFlits 10 x = some (l, y) → ∃ t, exec (.codewordSend p) s = .next t ∧ t.fabric[p].vcOff = nextVcOff s p ∧
        (∃ h, t.fabric[p].sent = some (h, nextVcOff s p, l.map (fun e => e.2))) ∧ t.fabric[p].outQ = y.outQ ∧ t.fabric[p].tx = y.tx ∧
        relinks s t p) ∧
      (x.tx = none → pickPacket x = none → ∃ t, exec (.codewordSend p) s = .next t ∧
        (∃ h, t.fabric[p].sent = some (h, nextVcOff s p, List.replicate 10 0)) ∧ t.fabric[p].outQ = x.outQ ∧ relinks s t p)) ∧
    (∀ (r : FlitRun) (rest : List FlitRun), s.router.localQ = r :: rest →
      let taken := updRouter s (fun x => { x with localQ := rest })
      (∀ c, hopOf s r.from? (r.flits.headD 0) = .discard c → exec (.packetRoute .inject) s = .next (bump taken c 0 1)) ∧
      (hopOf s r.from? (r.flits.headD 0) = .deliver → exec (.packetRoute .inject) s =
        .next (updRouter taken (fun x => { x with arrived := x.arrived ++ [(r.from?, packetOf r.flits)] }))) ∧
      (∀ o d, hopOf s r.from? (r.flits.headD 0) = .out o d → exec (.packetRoute .inject) s =
        .next (updFabric taken o (fun x => { x with outQ := x.outQ ++ [routedRun r o d] })))) ∧
    (∀ (r : FlitRun) (rest : List FlitRun), x.inBuf = r :: rest →
      let taken := updFabric s p (fun x => { x with inBuf := rest })
      (∀ c, hopOf s r.from? (r.flits.headD 0) = .discard c → exec (.packetRoute (.port p r.vc)) s = .next (bump taken c 0 1)) ∧
      (hopOf s r.from? (r.flits.headD 0) = .deliver → exec (.packetRoute (.port p r.vc)) s =
        .next (updRouter taken (fun x => { x with arrived := x.arrived ++ [(r.from?, packetOf r.flits)] }))) ∧
      (∀ o d, o ≠ p → hopOf s r.from? (r.flits.headD 0) = .out o d → exec (.packetRoute (.port p r.vc)) s =
        .next (updFabric taken o (fun x => { x with outQ := x.outQ ++ [routedRun r o d] }))))

/-- The end-to-end flows: injection takes the next sequence number and keeps a copy (R344, R346), or declares a path failure where no route
leads (R341); delivery discards a stomped packet, one with a bad CRC and a duplicate, and hands over what lies in the window (R319, R344);
acknowledgements free what lies below ACK_SEQ and leave when they are due (R345, R346); the oldest packet is sent again, six times (R347, R348). -/
def Obligations.FlowsCarryPackets : Prop :=
  ∀ s : State,
    (∀ (i : Nat) (k : Packet), s.router.injectQ[i]? = some k →
      (mayInject s i k = false → exec (.packetInject i) s = .next s) ∧
      (mayInject s i k = true → unreachable s k.dst = true → exec (.packetInject i) s = .next (pathFailure s k.dst k.cls)) ∧
      (mayInject s i k = true → unreachable s k.dst = false → (sendFlow s k.dst k.cls).unacked.length < 4096 →
        storeHeld s k.cls < storeSize k.cls → ∃ t, exec (.packetInject i) s = .next t ∧
          let q := stamped s { k with seq := (sendFlow s k.dst k.cls).nextSeq }
          (sendFlow t k.dst k.cls).nextSeq = (sendFlow s k.dst k.cls).nextSeq + 1 ∧
          (sendFlow t k.dst k.cls).unacked = (sendFlow s k.dst k.cls).unacked ++ [q] ∧
          t.router.localQ = s.router.localQ ++ [runOfFlits (packetFlits q) none] ∧ t.router.injectQ = removeAt s.router.injectQ i ∧
          t = { s with router := t.router })) ∧
    (∀ (i : Nat) (p : Option FPort) (k : Packet), s.router.arrived[i]? = some (p, k) →
      let taken := updRouter s (fun r => { r with arrived := removeAt r.arrived i })
      let f := recvFlow s k.src k.cls
      let off := (k.seq - f.ackSeq).toNat
      (k.stomp = true → ∃ n, exec (.packetDelivery i) s = .next (bump taken 0x25 n 1)) ∧
      (k.stomp = false → k.crc ≠ packetCrc k → ∃ n, exec (.packetDelivery i) s = .next (bump taken 0x24 n 1)) ∧
      (k.stomp = false → k.crc = packetCrc k → k.isOp 1 3 = true →
        exec (.packetDelivery i) s = .next { taken with inbox := s.inbox ++ [k] }) ∧
      (k.stomp = false → k.crc = packetCrc k → k.isOp 1 3 = false →
        (2 ^ 31 ≤ off ∨ k.seq ∈ f.got → exec (.packetDelivery i) s = .next (sendAck (bump taken 0x32 0 1) k.src k.cls)) ∧
        (4096 ≤ off → off < 2 ^ 31 → k.seq ∉ f.got → partOfStamp taken k.stamp = none →
          exec (.packetDelivery i) s = .next (protocolError (bump taken 0x33 0 1) k)) ∧
        (off < 4096 → k.seq ∉ f.got → k.cls ≠ 3 → listedOp k = true → f.sinceAck < 31 → ∃ t, exec (.packetDelivery i) s = .next t ∧
          t.inbox = s.inbox ++ [k] ∧ (recvFlow t k.src k.cls).ackDue = true ∧ (recvFlow t k.src k.cls).sinceAck = f.sinceAck + 1 ∧
          (k.seq ≠ f.ackSeq → f.ackSeq ∉ f.got → (recvFlow t k.src k.cls).ackSeq = f.ackSeq ∧ (recvFlow t k.src k.cls).got = k.seq :: f.got) ∧
          (k.seq = f.ackSeq → f.got = [] → (recvFlow t k.src k.cls).ackSeq = f.ackSeq + 1 ∧ (recvFlow t k.src k.cls).got = []) ∧
          t = { taken with router := t.router, inbox := t.inbox }))) ∧
    (∀ (i : Nat) (k : Packet) (n : Nat) (c : Cls), takeInbox s i 1 3 = some (k, { s with inbox := removeAt s.inbox i }) →
      k.field 159 128 = n → clsN (k.field 161 160) = c →
      (s.longs.any (fun o => match o.body with | .reshard _ => o.state == .running | _ => false) = false) → (∀ e : Engine, s.ligature[e].slots = []) →
      ∃ t, exec (.e2eAck i) s = .next t ∧
        (sendFlow t k.src c).unacked = (sendFlow s k.src c).unacked.filter (fun q => decide ((q.seq - BitVec.ofNat 32 n).toNat < 2 ^ 31)) ∧
        (sendFlow t k.src c).nextSeq = (sendFlow s k.src c).nextSeq ∧ t = { s with inbox := removeAt s.inbox i, router := t.router }) ∧
    (∀ (peer : Coord) (c : Cls), s.errors.fatal = false → s.router.coordValid = true → pairHeld s peer = false →
      ((recvFlow s peer c).ackDue = true → ∃ t, exec (.ackTimer peer c) s = .next t ∧ (recvFlow t peer c).ackDue = false ∧
        (recvFlow t peer c).ackSeq = (recvFlow s peer c).ackSeq ∧
        t.router.localQ = s.router.localQ.filter (fun x => !isAckFor peer c x) ++
          [runOfFlits (packetFlits (stamped s (mkPacket 1 3 7 s.router.myCoord peer 0 0 (bodyK (recvFlow s peer c).ackSeq c) []))) none] ∧
        t = { s with router := t.router }) ∧
      (∀ (k : Packet) (rest : List Packet), (sendFlow s peer c).unacked = k :: rest → (sendFlow s peer c).failed = false →
        (unreachable s peer = true → exec (.resendTimer peer c) s = .next (pathFailure s peer c)) ∧
        (unreachable s peer = false → (sendFlow s peer c).expiries < 5 → ∃ t, exec (.resendTimer peer c) s = .next t ∧
          (sendFlow t peer c).expiries = (sendFlow s peer c).expiries + 1 ∧ (sendFlow t peer c).unacked = stamped s k :: rest ∧
          t.router.localQ = s.router.localQ ++ [runOfFlits (packetFlits (stamped s k)) none] ∧
          t.counter 0x34 0 = (s.counter 0x34 0 + 1) % 2 ^ 64 ∧ t = { s with router := t.router, telemetry := t.telemetry }) ∧
        (unreachable s peer = false → (sendFlow s peer c).expiries = 5 → ∃ t, exec (.resendTimer peer c) s = .next t ∧
          (sendFlow t peer c).failed = true ∧ t.errors.pathFailure = true))) ∧
    (s.live = true → domainOn s 2 = true → ∃ t, exec .congestionSample s = .next t ∧ t.router.cmapIndex = s.router.cmapIndex + 1 ∧
      t.router.cmapTime = s.timeBase ∧ (t.router.cmap.find? (fun e => e.1 == (s.router.cmapIndex + 1).toNat)).map (fun e => e.2) = some (sampleBytes s) ∧
      t = { s with router := t.router, fabric := t.fabric })

/-- The stroke sequencers: a stroke whose conditions hold opens (R166) and closes (R167), a stroke that may not is charged to its first unmet
condition (R174), the compute phase ends when its operations have run (R165), and a fence flag lets its quadrant go on (R173). Without
exchanges, open intervals and safe points to serve, an opening and a closure change nothing else of the job. -/
def Obligations.SequencersKeepTheStrokes : Prop :=
  ∀ (s : State) (q : Quad) (v : SeqEnv), seqEnv s q = some v →
    let x := s.seqs[q]
    let stroke := nextStroke v.folio x
    (x.state = .opening → hasNext v x.opened = true → ckptDue s v.folio = false →
      (openCause s q v = 0 → v.folio.tables.exchsOf stroke = [] → v.folio.tables.intervals = [] → ∃ t, exec (.strokeOpen q) s = .next t ∧
        t.seqs[q] = { x with state := .compute, opened := x.opened + 1, opsDone := [], fences := [], waits := [], fence := none, cause := 0,
                             attempted := [] } ∧ (∀ p : Quad, p ≠ q → t.seqs[p] = s.seqs[p]) ∧
        t = { s with seqs := t.seqs, longs := t.longs, ductus := t.ductus, fresh := t.fresh, waits := t.waits } ∧
        (x.cause = 0 → t.fresh = s.fresh ∧ (stroke ≠ 0 → t.longs = s.longs ∧ t.ductus = s.ductus))) ∧
      (openCause s q v ≠ 0 → openCause s q v ≠ 6 → exec (.strokeOpen q) s = .next (setCause s q (openCause s q v))) ∧
      (openCause s q v = 6 → exec (.strokeOpen q) s =
        .next ((strokeDomains v.folio q stroke).foldl (fun s d => demand s d 2) (setCause s q 6)))) ∧
    (x.state = .compute → phaseDone s q v.folio = true →
      exec (.computeEnd q) s = .next (updSeq s q (fun x => { x with state := .closing, cause := 0 }))) ∧
    (x.state = .closing →
      ((closeCause s q v).1 ≠ 0 → exec (.strokeClose q) s = .next (setCause s q (closeCause s q v).1)) ∧
      ((closeCause s q v).1 = 0 → v.folio.tables.exchs = [] → v.folio.tables.intervals = [] → s.fillers = [] → bit v.folio.tables.flags 1 = false →
        (quadOps v.folio q (strokeOf v.folio x)).all (fun e => e.2.opcode != 0x0701) = true → v.run.stopAfter = none → x.cause = 0 →
        ∃ t, exec (.strokeClose q) s = .next t ∧ t.seqs[q] = { x with state := .opening, closed := x.closed + 1, cause := 0 } ∧
          (∀ p : Quad, p ≠ q → t.seqs[p] = s.seqs[p]) ∧ t = { s with seqs := t.seqs, ductus := t.ductus })) ∧
    (∀ i o, x.state = .compute ∨ (x.state = .stalled ∧ x.cause = 0) → nextFence s q v.folio = some (i, o) →
      ((opReads v.folio o).flatMap (fun t => if t.entry.inHbm then tensorDomains s v.folio t else [])).all (domainOn s) = true →
      exec (.dmaFence q) s = .next (updSeq s q (fun x => { x with state := .compute, fences := i :: x.fences, fence := none, cause := 0 }))) ∧
    (x.cause ≠ 0 → ∃ t, exec (.strokeStall q) s = .next t ∧ tells s t)

/-- A completed step advances JOB_STEP, its counters start again and its record is written (R27, R97, R411); a STEP then ends with its FINAL
record, SKIPS_OCCURRED when instances were skipped (R410). A unit's outputs are undefined from the commit until it is done, and are then the
staged values (R181). -/
def Obligations.StepsAndUnitsComplete : Prop :=
  (∀ (s : State) (o : LongOp) (c : Cmd) (r : Run) (f : Folio), s.memOk → standsFor s o c → o.body = .run r → folioOf s r.folio = some f →
    s.live = true → partStopped s o.part = false → o.state = .running → stepDone s f r = true → o.opcode = 0x23 →
    ∃ t, exec (.stepComplete o.handle) s = .next t ∧ finishedAs s t c (if r.skips.isEmpty then 0 else 3) 0 (f.jobStep % 2 ^ 32) 0 ∧
      (∀ i, i < (stepRecord s o.part f r).length → ¬postsTo s c (r.recBase + i) →
        t.ports[s.parts[o.part].port].host.read (r.recBase + i) = (stepRecord s o.part f r).getD i 0#8) ∧
      folioOf t f.handle = some f.nextStep ∧ (∃ u, longOf t o.handle = some u ∧ u.state = .done ∧ u.doneUnits = 1 ∧ u.body = .run (nextStep r)) ∧
      t = { s with parts := t.parts, ports := t.ports, cmds := t.cmds, nextUid := t.nextUid, longs := t.longs, seqs := t.seqs, folios := t.folios }) ∧
  (∀ (s : State) (p : Part) (x : FillerRun) (f : Folio), s.live = true → partStopped s p = false → readyUnit s p = some (x, f) →
    ∃ t, exec (.fillerCommit p) s = .next t ∧
      t.fillers = s.fillers.map (fun y => if y == x then { y with committing := true } else y) ∧
      t.mem = (x.staging.foldl (fun s e => match f.tensor e.1 with | some w => undefineRange s w.base (w.base + w.entry.size) | none => s) s).mem ∧
      (∀ f', folioOf s x.folio = some f' →
      folioOf t x.folio = some { f' with units := replaceAt f'.units x.unit .committing }) ∧
      t = { s with fillers := t.fillers, folios := t.folios, mem := t.mem, fresh := t.fresh }) ∧
  (∀ (s : State) (p : Part) (x : FillerRun) (f : Folio) (l : List FillerRun), s.live = true → s.fillers = x :: l → x.committing = true →
    folioOf s x.folio = some f → f.part = p → runOf s x.owner = none → s.pairings = [] →
    ∃ t, exec (.fillerCommitDone p) s = .next t ∧ t.fillers = l.filter (fun y => y != x) ∧
      folioOf t x.folio = some { f with units := replaceAt f.units x.unit .complete } ∧
      t.mem = x.staging.foldl (fun m e => match f.tensor e.1 with | some w => m.store w.base e.2 | none => m) s.mem ∧
      t = { s with fillers := t.fillers, folios := t.folios, mem := t.mem })

/-- An operation of a job that can issue, whose fence flag is set and whose sources are not poisoned, writes what the arithmetic of its section
gives for the memory that it read, counts its events, takes its place in the stroke (R52, R173) and leaves the other quadrants, and
everything that is no memory, counter or scale exponent, as it was. PERMUTE and GATHER_PARAMS leave memory to their exchanges; TOKEN_WAIT takes
its count from every counter of its grid (R143). -/
def Obligations.OperationsWriteTheirOutputs : Prop :=
  ∀ (s : State) (h : Handle) (i : Nat),
    let runs := fun (c : Instr) (code : Nat) (g : Folio → OpEntry → Memory → OpOut) =>
      ∀ e, runEnv s h i code [.compute] = some e →
        (needsFence s e = true → ∃ t, exec c s = .next t ∧ t.seqs[e.quad].state = .stalled ∧ t.seqs[e.quad].fence = some i ∧
          t.seqs[e.quad].cause = 8 ∧ t = { s with seqs := t.seqs, fresh := t.fresh }) ∧
        (needsFence s e = false → poisonedRead s e = none → ∃ t, exec c s = .next t ∧ t.mem = (g e.folio e.op s.mem).mem ∧
          t.seqs[e.quad] = { s.seqs[e.quad] with opsDone := s.seqs[e.quad].opsDone ++ [i] } ∧
          (∀ q : Quad, q ≠ e.quad → t.seqs[q] = s.seqs[q]) ∧
          folioOf t e.folio.handle = some { e.folio with scaleExp := setScales e.folio.scaleExp (g e.folio e.op s.mem).scales } ∧
          (∀ o r, longOf s h = some o → o.body = .run r →
            longOf t h = some { o with body := .run { r with counters := addEvents r.counters (g e.folio e.op s.mem).events } }) ∧
          t = { s with mem := t.mem, seqs := t.seqs, folios := t.folios, longs := t.longs, fresh := t.fresh })
    let takesPlace := fun (c : Instr) (code : Nat) => ∀ e, runEnv s h i code [.compute] = some e → ∃ t, exec c s = .next t ∧
      t.seqs[e.quad] = { s.seqs[e.quad] with opsDone := s.seqs[e.quad].opsDone ++ [i] } ∧ t = { s with seqs := t.seqs }
    runs (.matmul h i) 0x0101 (fun f o m => matOut m f o (fun _ _ => true) (fun _ _ => true)) ∧
    runs (.expertMatmul h i) 0x0102 (fun f o m =>
      let asK := bits (f.tables.attr o 0xA 0) 1 0 == 3
      matOut m f o (fun k e => !asK || slotFilled s f o k e) (fun r e => asK || slotFilled s f o r e)) ∧
    runs (.amax h i) 0x0110 (fun f o m => amaxOut m f o (match opIn f o 0 with
      | some t => if 1 < f.tables.cutSize t.entry.shardCut then some (fp32 (BitVec.ofNat 32 (Config.freeNat s.fresh))).abs else none
      | none => none)) ∧
    runs (.convert h i) 0x0111 (fun f o m => convertOut m f o) ∧
    runs (.eltwise h i) 0x0201 (fun f o m => eltwiseOut m f o) ∧
    runs (.activation h i) 0x0202 (fun f o m => activationOut m f o) ∧
    runs (.norm h i) 0x0203 (fun f o m => normOut m f o) ∧
    runs (.softmax h i) 0x0204 (fun f o m => softmaxOut m f o) ∧
    runs (.loss h i) 0x0205 (fun f o m => lossOut m f o) ∧
    runs (.reduce h i) 0x0206 (fun f o m => reduceOut m f o) ∧
    runs (.topk h i) 0x0207 (fun f o m => topkOut m f o) ∧
    runs (.copy h i) 0x0501 (fun f o m => copyOut m f o) ∧
    runs (.transpose h i) 0x0502 (fun f o m => transposeOut m f o) ∧
    runs (.rowGather h i) 0x0503 (fun f o m => rowGatherOut m f o) ∧
    runs (.rowScatter h i) 0x0504 (fun f o m => rowScatterOut m f o) ∧
    takesPlace (.permute h i) 0x0505 ∧ takesPlace (.gatherParams h i) 0x0404 ∧
    (∀ e, waitEnv s h i = some e →
      let n := e.folio.tables.attr e.op 0xD 0
      let v := fnOf e.folio e.op
      let cs := e.folio.gridClusters e.op.grid
      (cs.all (fun c => decide (v ≤ tallyGet s.tokens (c, n))) = false → exec (.tokenWait h i) s = .next s) ∧
      (cs.all (fun c => decide (v ≤ tallyGet s.tokens (c, n))) = true → ∃ t, exec (.tokenWait h i) s = .next t ∧
        (cs.Nodup → ∀ c, tallyGet t.tokens (c, n) = if c ∈ cs then tallyGet s.tokens (c, n) - v else tallyGet s.tokens (c, n)) ∧
        t.seqs[e.quad] = { s.seqs[e.quad] with waits := s.seqs[e.quad].waits ++ [i] } ∧ t = { s with tokens := t.tokens, seqs := t.seqs }))

/-- The operations of the routing engines, of the Ligature buckets and of pairs: ROUTE opens a generation of its batch in LISTING with its
ledger (R200 to R207), COMBINE and GATE_GRAD write their outputs and move the batch on (R215, R217, R218, R220), ROUTE_BACK converts the rows
to send (R216); the bucket operations write their outputs (R238, R241, R255); PAIRED_SEND publishes its tensor and PAIRED_RECV takes the
oldest publication (R378); ROAM_START starts its threads (R142) and POWER_REST sets the depth of its clusters (R423). -/
def Obligations.EnginesAndPairsAct : Prop :=
  ∀ (s : State) (h : Handle) (i : Nat),
    let can := fun (code : Nat) (st : List SeqState) (e : OpEnv) =>
      runEnv s h i code st = some e ∧ needsFence s e = false ∧ poisonedRead s e = none
    let placed := fun (e : OpEnv) (t : State) => t.seqs[e.quad] = { s.seqs[e.quad] with opsDone := s.seqs[e.quad].opsDone ++ [i] } ∧
      ∀ q : Quad, q ≠ e.quad → t.seqs[q] = s.seqs[q]
    (∀ e r z, can 0x0301 [.compute] e → e.folio.tables.routing[e.folio.tables.routingOf e.op]? = some r → opIn e.folio e.op 0 = some z →
      let x := routeBatch s.mem e.folio e.op r z (opIn e.folio e.op 1)
      ∃ t g, exec (.route h i) s = .next t ∧ t.ductus[e.quad].gens = s.ductus[e.quad].gens ++ [g] ∧ g.state = .listing ∧ g.ledger = x.ledger ∧
        g.gen = BitVec.ofNat 8 (nextGen s.ductus[e.quad]) ∧ g.folio = e.folio.handle ∧ g.op = i ∧ placed e t ∧
        t = { s with ductus := t.ductus, mem := t.mem, longs := t.longs, seqs := t.seqs }) ∧
    (∀ e r g a y, can 0x0302 [.compute] e → batchOp s e = some (r, g) → opIn e.folio e.op 0 = some a → opOutT e.folio e.op 0 = some y →
      ∃ t, exec (.combine h i) s = .next t ∧
        t.mem = (outWhole s.mem e.folio e.op y (opStage e.folio e.op (.num 1) true none) (combineElem s.mem e.folio e.op r g a)).mem ∧
        t.ductus[e.quad].gens = updFirst (fun x => x.gen == g.gen) (afterCombine e.folio.tables (fnOf e.folio e.op)) s.ductus[e.quad].gens ∧ placed e t ∧
        t = { s with ductus := t.ductus, mem := t.mem, longs := t.longs, seqs := t.seqs, folios := t.folios }) ∧
    (∀ e r g dy sd, can 0x0303 [.compute] e → batchOp s e = some (r, g) → opIn e.folio e.op 0 = some dy → e.folio.tensor r.slotDout = some sd →
      ∃ t, exec (.routeBack h i) s = .next t ∧ t.ductus[e.quad].gens =
          updFirst (fun x => x.gen == g.gen) (fun x => { x with backRows := (backRows s.mem e.folio e.op r g dy sd).1 }) s.ductus[e.quad].gens ∧
        placed e t ∧ t = { s with ductus := t.ductus, longs := t.longs, seqs := t.seqs }) ∧
    (∀ e r g z dy a y, can 0x0304 [.compute] e → batchOp s e = some (r, g) → opIn e.folio e.op 0 = some z → opIn e.folio e.op 1 = some dy →
      opIn e.folio e.op 2 = some a → opOutT e.folio e.op 0 = some y → ∃ t, exec (.gateGrad h i) s = .next t ∧
        t.mem = (outWhole s.mem e.folio e.op y (opStage e.folio e.op (.num 1) true none)
          (fun n => (gateGrad s.mem e.folio e.op r g z dy a).getD n (.zero false))).mem ∧
        t.ductus[e.quad].gens = updFirst (fun x => x.gen == g.gen)
          (fun x => { x with gateGradDone := true, state := if x.combine2Done then .retiring else x.state }) s.ductus[e.quad].gens ∧ placed e t ∧
        t = { s with ductus := t.ductus, mem := t.mem, longs := t.longs, seqs := t.seqs, folios := t.folios }) ∧
    (∀ e lo r, can 0x0401 [.compute] e → runOf s h = some (lo, r) → ∃ t, exec (.bucketAdd h i) s = .next t ∧
      t.mem = (bucketAddOut s.mem e.folio e.op (!r.leafWritten.contains (e.op.outputs.getD 0 noneIdx))).mem ∧ placed e t ∧
      t = { s with mem := t.mem, longs := t.longs, seqs := t.seqs, folios := t.folios }) ∧
    (∀ e b, can 0x0402 [.compute] e → opBucket e.folio e.op = some b → ∃ t, exec (.lowrankFactor h i) s = .next t ∧
      t.mem = (lowrankOut s.mem e.folio e.op b).mem ∧ placed e t ∧ t = { s with mem := t.mem, longs := t.longs, seqs := t.seqs, folios := t.folios }) ∧
    (∀ e b, can 0x0403 [.compute] e → opBucket e.folio e.op = some b → ∃ t, exec (.update h i) s = .next t ∧
      t.mem = (updateOut s.mem e.folio e.op b).1.mem ∧ placed e t ∧
      (∃ f, folioOf t e.folio.handle = some f ∧ f.applied = setApplied e.folio.applied b.tag (e.folio.jobStep + 1)) ∧
      t = { s with mem := t.mem, longs := t.longs, seqs := t.seqs, folios := t.folios }) ∧
    (∀ e x w p y, runEnv s h i 0x0506 [.compute, .closing] = some e → pairedExch e.folio.tables e.op true = some x → opIn e.folio e.op 0 = some w →
      streamOf s e.folio.handle x true = some (p, y) →
      (y.consumed + 2 ≤ y.published → exec (.pairedSend h i) s = .next s) ∧
      (y.published < y.consumed + 2 → tensorPoisoned s.mem w = false → ∃ t, exec (.pairedSend h i) s = .next t ∧ placed e t ∧
        t.pairings = (updStream s p.a p.b y.id (fun y => publish y (s.mem.readBytes w.base w.entry.size))).pairings ∧
        t = { s with pairings := t.pairings, longs := t.longs, seqs := t.seqs })) ∧
    (∀ e x w p y ex n b, runEnv s h i 0x0507 [.compute, .closing] = some e → pairedExch e.folio.tables e.op false = some x →
      opOutT e.folio e.op 0 = some w → streamOf s e.folio.handle x false = some (p, y) → e.folio.tables.exchs[x]? = some ex →
      y.slots.find? (fun z => z.1 == y.consumed % 2) = some (n, b) → y.consumed < y.published → ∃ t, exec (.pairedRecv h i) s = .next t ∧
        placed e t ∧ t.mem = s.mem.store w.base b ∧
        t.pairings = (updStream s p.a p.b y.id (fun y => { y with consumed := y.consumed + 1 })).pairings ∧
        t = { s with pairings := t.pairings, mem := t.mem, longs := t.longs, seqs := t.seqs }) ∧
    (∀ e p, runEnv s h i 0x0601 [.compute] = some e → e.folio.tables.programOf e.op = some p →
      (bandsOf (e.folio.gridClusters e.op.grid)).all (domainOn s) = true → s.threads = [] → ∃ t, exec (.roamStart h i) s = .next t ∧ placed e t ∧
        (((gridStarts e.folio e.op.grid p.mask).map (fun x => (x.1, x.2.1))).Nodup →
          t.threads = (gridStarts e.folio e.op.grid p.mask).map (fun x => startedThread x.1 x.2.1
            { part := e.folio.part, folio := e.folio.handle, program := p.inst, pos := x.2.2, rank := e.folio.rank }) ∧
          t = { s with threads := t.threads, seqs := t.seqs, waits := t.waits })) ∧
    (∀ e, runEnv s h i 0x0701 [.compute] = some e → fnOf e.folio e.op % 4 = 0 → ∃ t, exec (.powerRest h i) s = .next t ∧ placed e t ∧
      t.waits = (e.folio.gridClusters e.op.grid).map (fun c => { cluster := c, depth := 0 }) ++
        s.waits.filter (fun w => !(e.folio.gridClusters e.op.grid).contains w.cluster) ∧ t = { s with waits := t.waits, seqs := t.seqs })

/-- Roaming threads: the READY thread that is next in its core's round issues its record (R140). ALU, BRANCH and HASH complete in their issue
cycle (R286); TOKEN_SIGNAL raises its cluster's counter (R143); END leaves the thread IDLE or begins its deferred start (R141); an access in
the core's own area completes at once and any other takes a tracker and parks, or waits for one (R140, R154, R155); a reply fills the
registers and makes the thread READY (R155, R284). -/
def Obligations.RoamingThreadsIssue : Prop :=
  ∀ (s : State) (core : Nat) (n : Fin 8),
    let others := fun (t : State) => ∀ c m, (c ≠ core ∨ m ≠ n) → threadOf t c m = threadOf s c m
    let writes := fun (c : Instr) (x : Thread) => ∃ t, exec c s = .next t ∧ threadOf t core n = some x ∧ others t ∧
      t = { s with threads := t.threads, lastIssued := t.lastIssued }
    (∀ e, issueEnv s core n 4 = some e → writes (.alu core n) (({ e.thread with next := e.thread.next + 1 } : Thread).setReg (e.record.a % 32)
      (aluFn (e.record.variant % 64) (e.thread.reg (e.record.b % 32)) (aluOperand e.thread e.record)))) ∧
    (∀ e, issueEnv s core n 6 = some e → writes (.hash core n) (({ e.thread with next := e.thread.next + 1 } : Thread).setReg (e.record.a % 32)
      (mix (e.thread.reg (e.record.b % 32) ^^^ BitVec.ofNat 64 e.record.c)))) ∧
    (∀ e, issueEnv s core n 5 = some e →
      let taken := match e.record.variant with | 0 => true | 1 => e.thread.reg (e.record.b % 32) == 0 | _ => e.thread.reg (e.record.b % 32) != 0
      writes (.branch core n) { e.thread with next := if taken then e.record.a else e.thread.next + 1 }) ∧
    (∀ e, issueEnv s core n 7 = some e → tallyGet s.tokens (core / 16, e.record.a) < 2 ^ 32 - 1 → ∃ t, exec (.tokenSignal core n) s = .next t ∧
      tallyGet t.tokens (core / 16, e.record.a) = tallyGet s.tokens (core / 16, e.record.a) + 1 ∧
      (∀ k, k ≠ (core / 16, e.record.a) → tallyGet t.tokens k = tallyGet s.tokens k) ∧
      threadOf t core n = some { e.thread with next := e.thread.next + 1 } ∧ others t ∧
      t = { s with threads := t.threads, lastIssued := t.lastIssued, tokens := t.tokens }) ∧
    (∀ e, issueEnv s core n 8 = some e →
      (e.thread.deferred = none → ∃ t, exec (.endProgram core n) s = .next t ∧ threadOf t core n = none ∧ others t ∧
        rests { s with threads := t.threads, lastIssued := t.lastIssued } t) ∧
      (∀ st, e.thread.deferred = some st → ∃ t, exec (.endProgram core n) s = .next t ∧ threadOf t core n = some (startedThread core n st) ∧
        others t ∧ t = { s with threads := t.threads, lastIssued := t.lastIssued })) ∧
    (∀ e a, issueEnv s core n 1 = some e → (want core e (2 ^ (e.record.variant % 8)) false).1 = .own a → s.mem.poisoned (a / 64 * 64) 64 = false →
      ∃ acc : Access, acc.kind = .load ∧ acc.size = 2 ^ (e.record.variant % 8) ∧ acc.signed = bit e.record.variant 4 ∧ acc.reg = e.record.a % 32 ∧
        writes (.load core n) (replied { e.thread with next := e.thread.next + 1 } acc 0 (s.mem.readBytes a (2 ^ (e.record.variant % 8))))) ∧
    (∀ e a, issueEnv s core n 2 = some e → (want core e (2 ^ (e.record.variant % 8)) false).1 = .own a → ∃ t, exec (.store core n) s = .next t ∧
      t.mem = s.mem.store a (e.thread.bytes (e.record.a % 32) (2 ^ (e.record.variant % 8))) ∧
      threadOf t core n = some { e.thread with next := e.thread.next + 1 } ∧ others t ∧
      t = { s with threads := t.threads, lastIssued := t.lastIssued, mem := t.mem }) ∧
    (∀ (op : Nat) (c : Instr), (op = 1 ∧ c = .load core n) ∨ (op = 2 ∧ c = .store core n) ∨ (op = 3 ∧ c = .atomic core n) →
      ∀ e rank form place tensor target, issueEnv s core n op = some e →
      (want core e (2 ^ (e.record.variant % 8)) (op == 3)).1 = .out rank form place tensor →
      (rank = e.folio.rank ∧ target = s.router.myCoord) ∨ (rank ≠ e.folio.rank ∧ bit (coordMapEntry s.router e.start.part rank) 15 = true ∧
        target = BitVec.ofNat 9 (coordMapEntry s.router e.start.part rank)) →
      ∃ acc : Access, acc.size = 2 ^ (e.record.variant % 8) ∧ acc.rank = rank ∧ acc.target = target ∧ acc.req.opcode = BitVec.ofNat 4 op ∧
        acc.req.body = (bodyM form place tensor (e.record.variant % 8) (bits e.record.variant 11 8) : Nat) ∧
        (canLeave s (partStamp s e.start.part) (core / 16) acc = false → writes c { e.thread with
          next := e.thread.next + 1, state := .trackerWait, wants := some acc }) ∧
        (∀ i, freeTracker s (core / 16) = some i → canLeave s (partStamp s e.start.part) (core / 16) acc = true → ∃ t, exec c s = .next t ∧
          threadOf t core n = some { e.thread with next := e.thread.next + 1, state := .parked, wants := none, parks := e.thread.parks + 1 } ∧
          others t ∧ (∃ x : Tracker, t.trackers = s.trackers ++ [x] ∧ x.cluster = core / 16 ∧ x.idx = i ∧ x.core = core ∧ x.t = n ∧
            x.stamp = partStamp s e.start.part ∧ x.access.rank = rank) ∧
          tells { s with threads := t.threads, lastIssued := t.lastIssued, trackers := t.trackers, windows := t.windows } t))

/-- Accesses that wait and accesses that return: a tracker that comes free goes to the next thread of R155, and a reply that its tracker
answers frees it, fills the thread's registers and makes the thread READY (R155, R186, R284, R299); one that no tracker answers is
discarded and counted (R186). -/
def Obligations.TrackersServeTheirThreads : Prop :=
  (∀ (s : State) (c i : Nat) (x : Thread) (st : RoamStart) (a : Access) (f : Folio), s.live = true → nextGrant s c = some (x, st, a) →
    threadOf s x.core x.t = some x → freeTracker s (x.core / 16) = some i → folioOf s st.folio = some f → a.rank = f.rank → carriesId s a = false →
    ∃ t, exec (.trackerGrant c) s = .next t ∧
      threadOf t x.core x.t = some { x with state := .parked, wants := none, parks := x.parks + 1 } ∧
      t.trackers = s.trackers ++ [{ cluster := x.core / 16, idx := i, core := x.core, t := x.t, stamp := partStamp s st.part,
                                    access := { a with req := { a.req with aux := 0 } } }] ∧
      t.inbox = s.inbox ++ [{ a.req with aux := 0, src := s.router.myCoord, dst := s.router.myCoord }] ∧
      t = { s with threads := t.threads, trackers := t.trackers, inbox := t.inbox, lastServed := t.lastServed }) ∧
  (∀ (s : State) (i c : Nat) (n : Fin 16) (k : Packet) (tr : Tracker) (x : Thread), takeInbox s i 1 1 = some (k, { s with inbox := removeAt s.inbox i }) →
    k.dstUnit.toNat ≠ 4 → s.trackers.find? (fun y => y.cluster == c && y.idx == n.val) = some tr →
    (answers s tr k = true → domainOn s (bandDomain (bandOfCluster c)) = true → k.field 130 128 = 0 → threadOf s tr.core tr.t = some x →
      x.state = .parked → x.cancelling = false → ∃ t, exec (.memReply i c n) s = .next t ∧
        threadOf t tr.core tr.t = some { replied x tr.access 0 k.payload with state := .ready } ∧
        t.trackers = s.trackers.filter (fun y => !(y.cluster == tr.cluster && y.idx == tr.idx)) ∧
        rests { s with threads := t.threads, trackers := t.trackers, windows := t.windows, inbox := removeAt s.inbox i } t) ∧
    (answers s tr k = false → exec (.memReply i c n) s = .next (staleDrop { s with inbox := removeAt s.inbox i } c k.stamp)))

/-- Memory requests at their target: a request takes a place of its line queue or waits for one (R296); a store is acknowledged when it is
admitted and enters the ledger, and one that the ledger holds is acknowledged without effect (R287, R294); a request whose stamp or address
does not hold is answered so (R186, R299). The head of a queue is then performed: a store writes its bytes and no other, a load is answered
with the bytes, an atomic writes the new value and answers the old one where it returns one (R289, R299). -/
def Obligations.MemoryTargetsServe : Prop :=
  ∀ (s : State) (i : Nat) (k : Packet),
    let rest := { s with inbox := removeAt s.inbox i }
    let queued := fun (c : Instr) (kind : ReqKind) (a : Nat) (t : LineTarget) =>
      (hasRoom s t = true → ∃ u, exec c s = .next u ∧ queueOf u t = queueOf s t ++ [requestEntry kind a k] ∧
        (∀ t', t' ≠ t → queueOf u t' = queueOf s t') ∧ u = { rest with lineQueues := u.lineQueues }) ∧
      (hasRoom s t = false → exec c s = .next s)
    let refuses := fun (c : Instr) => (reach rest k = .bad → exec c s = .next (answer rest k 2 0 [])) ∧
      (∀ held unit, reach rest k = .stale held unit → exec c s = .next (answer (staleDrop rest unit k.stamp) k 1 held []))
    (takeInbox s i 0 1 = some (k, rest) → (∀ a t, reach rest k = .ok a t → queued (.memLoad i) .load a t) ∧ refuses (.memLoad i)) ∧
    (takeInbox s i 0 2 = some (k, rest) → refuses (.memStore i) ∧ ∀ a t, reach rest k = .ok a t →
      (storeReplayed s k = true → exec (.memStore i) s = .next (answer (bump rest 5 0 1) k 0 0 [])) ∧
      (storeReplayed s k = false → hasRoom s t = false → exec (.memStore i) s = .next s) ∧
      (storeReplayed s k = false → hasRoom s t = true → mergeRev (a / 64) (lineBytes a (k.payload.take k.sizeBytes)) (queueOf s t).reverse = none →
        ∃ u, exec (.memStore i) s = .next u ∧
          queueOf u t = queueOf s t ++ [{ requestEntry .store a k with bytes := lineBytes a (k.payload.take k.sizeBytes) }] ∧
          (∀ t', t' ≠ t → queueOf u t' = queueOf s t') ∧ (remote s k = true → storeReplayed u k = true) ∧ u.mem = s.mem ∧
          tells { rest with lineQueues := u.lineQueues, ledger := u.ledger } u)) ∧
    (takeInbox s i 0 3 = some (k, rest) → refuses (.memAtomic i) ∧ ∀ a t, reach rest k = .ok a t →
      (∀ v, atomicReplayed s k = some v → exec (.memAtomic i) s = .next (answer (bump rest 5 0 1) k 0 0 (atomicPayload k.atomicOp v))) ∧
      (atomicReplayed s k = none → queued (.memAtomic i) .atomic a t)) ∧
    (∀ (t : LineTarget) (e : LineEntry) (q : List LineEntry), queueOf s t = e :: q → s.live = true → domainOn s (targetDomain t) = true →
      inCoreWindow (e.line * 64) = false → inCoreWindow (e.line * 64 + e.off) = false →
      let old := targetWord s (e.line * 64 + e.off) e.len
      let op := e.req.atomicOp
      let new := atomicNew op e.len old (u64 e.req.payload 0) (u64 e.req.payload 8)
      (e.kind = .store → s.mem.wf = true → (∀ x ∈ e.bytes, x.1 < 64) → ∃ u, exec (.lineQueueServe t .clean) s = .next u ∧ queueOf u t = q ∧
        (∀ x b, (x, b) ∈ e.bytes → (e.bytes.map (fun y => y.1)).Nodup → u.mem.read (e.line * 64 + x) = b) ∧
        (∀ x, (∀ b, (x, b) ∉ e.bytes.map (fun y => (e.line * 64 + y.1, y.2))) → u.mem.read x = s.mem.read x) ∧
        u = { s with lineQueues := u.lineQueues, mem := u.mem }) ∧
      (e.kind = .load → e.bar4 = none → s.mem.poisoned (e.line * 64) 64 = false → exec (.lineQueueServe t .clean) s =
        .next (answer (setQueue s t q) e.req 0 0 (s.mem.readBytes (e.line * 64 + e.off) e.len))) ∧
      (e.kind = .atomic → s.mem.poisoned (e.line * 64) 64 = false → atomicReplayed s e.req = none → op < 8 → ∃ u,
        exec (.lineQueueServe t .clean) s = .next u ∧ queueOf u t = q ∧ u.mem = s.mem.store (e.line * 64 + e.off) (le e.len new) ∧
        (remote s e.req = true → atomicReplayed u e.req = some (BitVec.ofNat 64 (if atomicReturns op then old else 0))) ∧
        tells { s with lineQueues := u.lineQueues, mem := u.mem, ledger := u.ledger } u))


/-- Exchange packets at this device (R56, R169, R170, R209): a payload of an open exchange below EXPECTED is written at its place and
counted, one beyond EXPECTED or of an exchange that is not open fails the job with ARRIVAL_OVERCOUNT; an end marker records its sender's
packets and counts the sender's unit once that many packets have been written; a ready marker is kept until the exchange opens here, and
then its receiver is served. -/
def Obligations.ExchangePacketsAreTaken : Prop :=
  ∀ (s : State) (i : Nat) (k : Packet) (o : LongOp) (r : Run) (f : Folio) (e : ExchEntry),
    let rest := { s with inbox := removeAt s.inbox i }
    let y := r.exchRun o.handle k.exch f.step16
    let after := fun (t : State) => (runOf t o.handle).map (fun x => x.2.exchRun o.handle k.exch f.step16)
    runOf s o.handle = some (o, r) → f.tables.exchs[k.exch]? = some e → k.step = f.step16 →
    (takeInbox s i 0 4 = some (k, rest) → reshardOf s k.stamp = none → runAt s k = some (o, r, f) →
      (tensorIdxDomains s f e.dst).all (domainOn s) = true →
      (∀ m, y.rxOpen = true → y.count < exchExpected f e →
        arrived s.mem f e ((senderRank s o.part f.rank k).getD f.rank) k.unit k.payload = some m → ∃ t, exec (.exchData i) s = .next t ∧
        t.mem = m ∧ after t = some { y with count := y.count + 1 } ∧ t = { rest with mem := t.mem, longs := t.longs }) ∧
      (y.rxOpen = false ∨ exchExpected f e ≤ y.count → exec (.exchData i) s = .next (failJob rest k.stamp 0x101 (exchUnit f e) k.exch 0 0))) ∧
    (∀ re rank, takeInbox s i 0 6 = some (k, rest) → runAt s k = some (o, r, f) → f.tables.routing[e.ref]? = some re →
      senderRank s o.part f.rank k = some rank → endIsStale s f re (e.dir re) (u8 k.payload 11) = false → y.rxOpen = true →
      e.kind = 1 ∨ e.kind = 2 → (y.ends.any (fun z => z.1 == rank)) = false → y.count < exchExpected f e →
      ∃ t, exec (.endMarker i) s = .next t ∧
        after t = some { y with ends := y.ends ++ [(rank, u32 k.payload 0)],
                                count := if tallied y.packets rank = u32 k.payload 0 then y.count + 1 else y.count } ∧
        (e.dir re ≠ 0 → t.ductus = s.ductus) ∧ (∀ q, q ≠ f.gridQuad re.expertGrid → t.ductus[q] = s.ductus[q]) ∧
        (e.dir re = 0 → t.ductus[f.gridQuad re.expertGrid] = { s.ductus[f.gridQuad re.expertGrid] with
          tables := s.ductus[f.gridQuad re.expertGrid].tables.map (fun t => if t.folio == f.handle && t.exch == k.exch then
            bindTable t (f.tables.posOn re.cut (coordOfRank f.box rank)) rank (f.gridQuad re.sourceGrid).val (u8 k.payload 11) else t) }) ∧
        t = { rest with longs := t.longs, ductus := t.ductus }) ∧
    (∀ rank, takeInbox s i 1 2 = some (k, rest) → reshardOf s k.stamp = none → tableRun s k.stamp = some (o, r, f) →
      senderRank s o.part f.rank k = some rank → y.marks.contains rank = false → folioOf s r.folio = some f →
      (y.txOpen = false → ∃ t, exec (.readyMarker i) s = .next t ∧ after t = some { y with marks := rank :: y.marks } ∧
        t = { rest with longs := t.longs }) ∧
      (∀ ps, y.txOpen = true → partStopped s o.part = false → exchReceivers f e = [rank] → y.served = [] → rank = f.rank →
        servePackets s f (partStamp s o.part) k.exch e rank = some ps → (tensorIdxDomains s f e.src).all (domainOn s) = true →
        ∃ t, exec (.readyMarker i) s = .next t ∧
          t.inbox = removeAt s.inbox i ++ ps.map (fun x => { x with src := s.router.myCoord, dst := s.router.myCoord }) ∧
          after t = some { y with marks := rank :: y.marks, served := [rank], drained := true } ∧
          t = { rest with longs := t.longs, inbox := t.inbox }))

/-- Serving parameters (R259 to R261): a request of the job whose bucket a folio here declares joins the gather queue, and stays in the
inbox while the queue is full; a queued request of the device itself is answered from the stored shard once it may be; a stored payload is
written at its place in the destination and counted, and the consumer asks on. -/
def Obligations.GathersAreServed : Prop :=
  ∀ (s : State) (i : Nat) (k : Packet),
    let rest := { s with inbox := removeAt s.inbox i }
    (takeInbox s i 0 8 = some (k, rest) →
      (16384 ≤ s.gatherQ.length → exec (.gatherReq i) s = .next s) ∧
      (s.gatherQ.length < 16384 →
        (∀ p, partOfStamp s k.stamp = some p → s.folios.any (fun f => f.part == p) = true →
          ((gatherFolio s k.stamp k.coll.tag).isSome = true → exec (.gatherReq i) s = .next { rest with gatherQ := s.gatherQ ++ [k] }) ∧
          (gatherFolio s k.stamp k.coll.tag = none → exec (.gatherReq i) s =
            .next (failJob rest k.stamp 0x103 (unitFabric (16 + k.engine.toNat)) k.coll.tag 0 0))) ∧
        (partOfStamp s k.stamp = none → exec (.gatherReq i) s =
          .next (replyTo (staleDrop rest (unitFabric 16) k.stamp) k 1 [])))) ∧
    (∀ f t, s.gatherQ[i]? = some k → gatherFolio s k.stamp k.coll.tag = some f → gatherSource f k.coll.tag = some t →
      (s.live = false ∨ partStopped s f.part = true ∨ mayServe f k = false → exec (.gatherServe i) s = .next s) ∧
      (s.live = true → partStopped s f.part = false → mayServe f k = true → (tensorDomains s f t).all (domainOn s) = true →
        tensorPoisoned s.mem t = false → folioOf s f.handle = some f → k.src = s.router.myCoord → ∃ u, exec (.gatherServe i) s = .next u ∧
        u.gatherQ = removeAt s.gatherQ i ∧
        u.inbox = s.inbox ++ (gatherReplies s.mem t k).map (fun x : Packet => { x with src := s.router.myCoord, dst := s.router.myCoord }) ∧
        (∃ g, folioOf u f.handle = some g ∧ tallyGet g.gatherServed (gatherKey k ((senderRank s f.part f.rank k).getD f.rank)) =
          tallyGet f.gatherServed (gatherKey k ((senderRank s f.part f.rank k).getD f.rank)) + 1) ∧
        u = { s with gatherQ := u.gatherQ, folios := u.folios, longs := u.longs, inbox := u.inbox })) ∧
    (∀ o r f x e a d, takeInbox s i 1 5 = some (k, rest) → runOfStamp s k.stamp = some (o, r, f) → runOf s o.handle = some (o, r) →
      (f.tables.bucket? k.coll.tag).isSome = true →
      (k.coll.step ≠ f.step16 → gatherTarget f o.handle r k = none → exec (.gatherData i) s = .next (bump rest 4 0 1)) ∧
      (k.coll.step = f.step16 → gatherTarget f o.handle r k = some (x, e) → f.tensor e.src = some a → f.tensor e.dst = some d →
        (tensorIdxDomains s f e.dst).all (domainOn s) = true → (r.exchRun o.handle x f.step16).count < exchExpected f e →
        (∀ b n, f.tables.bucket? e.ref = some b → contributorRank f b n = f.rank ∨
          bit (coordMapEntry s.router o.part (contributorRank f b n)) 15 = true) →
        ∃ t, exec (.gatherData i) s = .next t ∧
          t.mem = wireStore s.mem d (k.coll.shard * a.entry.elems) a.entry.elems (512 * k.coll.seg) k.payload ∧
          (∃ o' r', runOf t o.handle = some (o', r') ∧ (r'.exchRun o.handle x f.step16).count = (r.exchRun o.handle x f.step16).count + 1 ∧
            (r'.exchRun o.handle x f.step16).units = (k.coll.shard, k.coll.seg) :: (r.exchRun o.handle x f.step16).units) ∧
          tells { rest with mem := t.mem, longs := t.longs } t))

/-- Rows and the drain of dead generations: a row whose tag passes the checks of R211 or R214 is written at the place its tag gives and its
packet counted for its sender (R209, R527); one whose reserved bits are set fails the job with ROUTED_ROW, and a return of a generation
that is not live is discarded and counted (R225); a drain marker is held and acknowledged once no receive table carries its generation and
every return is acknowledged (R224); the acknowledgement of the last rank frees the generation (R223). -/
def Obligations.RowsAndDrainsAreTaken : Prop :=
  ∀ (s : State) (i : Nat) (k : Packet) (o : LongOp) (r : Run) (f : Folio) (re : RoutingEntry) (x : TRef) (ex : Nat) (e : ExchEntry),
    let rest := { s with inbox := removeAt s.inbox i }
    let t := tagOf k.body
    let q := quadN k.dstUnit.toNat
    let y := r.exchRun o.handle ex f.step16
    let after := fun (u : State) => (runOf u o.handle).map (fun z => z.2.exchRun o.handle ex f.step16)
    (takeInbox s i 0 5 = some (k, rest) → runAt s k = some (o, r, f) → runOf s o.handle = some (o, r) →
      f.tables.routing[t.routing]? = some re → (rowDomains s k).all (domainOn s) = true →
      (t.rsvd ≠ 0 → exec (.routedData i) s = .next (failJob rest k.stamp 0x102 (unitQuad k.dstUnit.toNat 1) t.routing 0 0)) ∧
      (t.rsvd = 0 → t.dir % 2 = 1 → s.ductus[q].gens.find? (fun g => g.gen.toNat == t.gen && g.state.isLive) = none →
        exec (.routedData i) s = .next (staleReturn rest q k.body)) ∧
      (t.rsvd = 0 → partOk k (rowLen x) = true → y.rxOpen = true → f.tables.exchs[ex]? = some e →
        (∀ g, t.dir % 2 = 1 → s.ductus[q].gens.find? (fun g => g.gen.toNat == t.gen && g.state.isLive) = some g →
          f.tables.batchExch t.routing g.op t.dir = some ex → f.tensor (if t.dir = 1 then re.answers else re.returns) = some x →
          g.folio = f.handle → g.routing = t.routing → ledgerOk g re t = true → (y.ends.any (fun z => z.1 == t.dstRank)) = false →
          ∃ u, exec (.routedData i) s = .next u ∧ u.mem = writeRowPart s.mem x (t.token * re.k + t.kSlot) k ∧
            after u = some { y with packets := raise y.packets t.dstRank } ∧ u = { rest with mem := u.mem, longs := u.longs }) ∧
        (∀ rt, t.dir % 2 = 0 → selectTable s.ductus[q] f.handle t (f.tables.posOn re.cut (coordOfRank f.box t.srcRank)) = some rt →
          f.tensor (if t.dir = 0 then re.slotIn else re.slotDout) = some x →
          (if t.dir = 0 then some rt.exch else f.tables.batchExch t.routing rt.batch 2) = some ex → rowOk f re rt t = true →
          (y.ends.any (fun z => z.1 == t.srcRank)) = false →
          let row := t.expert % max (f.tables.expertsLocal re) 1 * f.tables.capacity re + t.slot
          let rt2 := tableAfter rt t k.body (f.tables.posOn re.cut (coordOfRank f.box t.srcRank)) row (ceilDiv (rowLen x) 512)
          ∃ u, exec (.routedData i) s = .next u ∧ u.mem = writeRowPart s.mem x row k ∧
            after u = some { y with packets := raise y.packets t.srcRank } ∧ (t.dir ≠ 0 → u.ductus = s.ductus) ∧
            (t.dir = 0 → u.ductus[q].tables = updFirst (fun z => z == rt) (fun _ => rt2) s.ductus[q].tables ∧
              u.ductus[q].gens = s.ductus[q].gens ∧ u.ductus[q].drains = s.ductus[q].drains) ∧
            (∀ p, p ≠ q → u.ductus[p] = s.ductus[p]) ∧ u = { rest with mem := u.mem, longs := u.longs, ductus := u.ductus }))) ∧
    (takeInbox s i 0 7 = some (k, rest) → ∃ u, exec (.ductusDrain i) s = .next u ∧
      u.ductus[q] = { s.ductus[q] with drains := s.ductus[q].drains ++ [{ packet := k }] } ∧
      (∀ p, p ≠ q → u.ductus[p] = s.ductus[p]) ∧ u = { rest with ductus := u.ductus }) ∧
    (∀ (d : Quad) (n : Nat), heldDrain s i = some (d, n, k) →
      (s.live = true → tableCarries s k = false → returnsAcked s k.src k.gen k.srcQuad = true → ∃ u, exec (.ductusDrainAckReturn i) s = .next u ∧
        u.ductus[d] = { s.ductus[d] with drains := removeAt s.ductus[d].drains n } ∧ (∀ p, p ≠ d → u.ductus[p] = s.ductus[p]) ∧
        (∃ a : Packet, a = { mkPacket 1 4 k.srcQuad 0 0 k.stamp 0 k.body.toNat [] with src := s.router.myCoord, dst := k.src } ∧
          (k.src = s.router.myCoord → u.inbox = s.inbox ++ [a] ∧ u.router = s.router) ∧
          (k.src ≠ s.router.myCoord → u.inbox = s.inbox ∧ u.router = { s.router with injectQ := s.router.injectQ ++ [a] })) ∧
        u = { s with ductus := u.ductus, inbox := u.inbox, router := u.router }) ∧
      (s.live = false ∨ tableCarries s k = true ∨ returnsAcked s k.src k.gen k.srcQuad = false → exec (.ductusDrainAckReturn i) s = .next s)) ∧
    (takeInbox s i 1 4 = some (k, rest) →
      let dead := fun (g : Generation) => g.gen.toNat == k.gen && g.state == .dead && g.stamp == k.stamp
      (s.ductus[q].gens.find? dead = none → exec (.ductusDrainAck i) s = .next (staleDrop rest (unitQuad q.val 1) k.stamp)) ∧
      (∀ g rank, s.ductus[q].gens.find? dead = some g → ackRank s g.folio k = some rank → ∃ u, exec (.ductusDrainAck i) s = .next u ∧
        (g.drains.all (fun d => d.1 == rank) = true → u.ductus[q].gens = s.ductus[q].gens.filter (fun z => z.gen != g.gen)) ∧
        (g.drains.all (fun d => d.1 == rank) = false → u.ductus[q].gens = updFirst (fun z => z.gen == g.gen)
          (fun z => { z with drains := g.drains.filter (fun d => d.1 != rank) }) s.ductus[q].gens) ∧
        (∀ p, p ≠ q → u.ductus[p] = s.ductus[p]) ∧ u = { rest with ductus := u.ductus }))

/-- Ligature messages and instances (R243 to R254, R264 to R266, R268): a message of an instance that is open acts on its slot, one that
comes early is held, one that comes late, is stale or names no bucket of the job is counted or fails the job; a slot opens with its
windows granted; the arbiter decides at the deadline or when all are READY; drains are held, acknowledged and free their slot. -/
def Obligations.LigatureInstancesServe : Prop :=
  ∀ (s : State) (i : Nat) (k : Packet) (c : Instr) (j : Instance) (v : InstEnv),
    let rest := { s with inbox := removeAt s.inbox i }
    let e := engineN k.engine.toNat
    let peer := collPeer s v k
    let m := k.coll
    let control := (c = .credit i ∧ m.msg = 2) ∨ (c = .ready i ∧ m.msg = 3) ∨ (c = .bitmap i ∧ m.msg = 4)
    let value := (c = .data i ∧ m.msg = 0) ∨ (c = .header i ∧ m.msg = 1)
    (takeInbox s i 2 1 = some (k, rest) → control ∨ value →
      (collFate s k (decide (2 ≤ m.msg)) = .late → exec c s = .next (bump rest 4 0 1)) ∧
      (collFate s k (decide (2 ≤ m.msg)) = .stale → exec c s = .next (staleDrop rest (unitFabric (16 + e.val)) k.stamp)) ∧
      (collFate s k (decide (2 ≤ m.msg)) = .undeclared → exec c s =
        .next (failJob rest k.stamp 0x103 (unitFabric (16 + k.engine.toNat)) m.tag 0 0)) ∧
      (collFate s k true = .early → control → ∃ t, exec c s = .next t ∧
        t.ligature[e] = { s.ligature[e] with early := s.ligature[e].early ++ [k] } ∧
        (∀ d, d ≠ e → t.ligature[d] = s.ligature[d]) ∧ t = { rest with ligature := t.ligature }) ∧
      (collFate s k (decide (2 ≤ m.msg)) = .slot j → instEnv s e j = some v →
        (c = .credit i → m.msg = 2 → isTreeNode v.peers m.lo m.hi = true → m.shard < v.peers → exec c s = .next (settleInstance rest e
          { j with credits := setCredit j.credits peer m.shard m.lo m.hi (creditOf j.credits peer m.shard m.lo m.hi + u32 k.payload 0) })) ∧
        (c = .ready i → m.msg = 3 → v.me = 0 → j.bitmap = none → partStopped s v.part = false →
          let ready := if j.ready.contains peer then j.ready else peer :: j.ready
          (ready.length ≠ v.peers → (j.deadlinePast = true → ready.length < v.bucket.minPresent) → exec c s =
            .next (updSlot rest e { j with ready := ready, deadlineOn := true })) ∧
          (ready.length = v.peers → v.lenient = true → v.peers = 1 → exec c s = .next (takeBitmap rest e v
            { j with ready := ready, deadlineOn := true } ((List.range v.peers).filter (fun n => !ready.contains n))))) ∧
        (c = .bitmap i → m.msg = 4 → v.lenient = true → j.bitmap = none → ∃ (sk : List Nat) (gone : Nat → Nat → Bool),
          (∀ n, n ∈ sk ↔ n < v.peers ∧ bit (u8 k.payload (n / 8)) (n % 8) = true) ∧
          (∀ lo hi, gone lo hi = true ↔ lo = hi ∧ lo ≠ v.me ∧ lo ∈ sk ∧ 1 < v.peers) ∧
          exec c s = .next (settleInstance (bump rest 3 0 (j.unread.filter (fun u => gone u.2.1 u.2.2.1)).length) e
            { j with bitmap := some sk, unread := j.unread.filter (fun u => !gone u.2.1 u.2.2.1),
                     held := j.held.filter (fun x => !gone x.lo x.hi) })) ∧
        (value → valueOk v k = true → (m.lo = m.hi ∧ 1 < v.peers ∧ m.lo ∈ ((j.skipped v).getD []) → exec c s = .next (bump rest 3 0 1)) ∧
          (¬ (m.lo = m.hi ∧ 1 < v.peers ∧ m.lo ∈ ((j.skipped v).getD [])) →
            (m.msg = 1 → exec c s = .next (settleInstance rest e
              { j.hold m.shard m.lo m.hi 0 .header with unread := j.unread ++ [(m.shard, m.lo, m.hi, 0, 2)] })) ∧
            (m.msg = 0 → creditOf j.granted (streamSender v m.shard m.lo m.hi) m.shard m.lo m.hi = 0 → exec c s =
              .next (failJob rest k.stamp 0x103 (unitFabric (16 + k.engine.toNat)) m.tag 0 0)) ∧
            (∀ n, m.msg = 0 → creditOf j.granted (streamSender v m.shard m.lo m.hi) m.shard m.lo m.hi = n + 1 → exec c s =
              .next (settleInstance rest e { ((v.cellsOf m.form m.seg).zipIdx).foldl (fun i x => i.hold m.shard m.lo m.hi x.1
                  (.data (((payloadWords v m.form k.payload).drop (128 * x.2)).take 128))) j with
                unread := j.unread ++ [(m.shard, m.lo, m.hi, m.seg, m.form)],
                granted := setCredit j.granted (streamSender v m.shard m.lo m.hi) m.shard m.lo m.hi n })))))) ∧
    (∀ (d : Engine) (tag : Word32) (ph : Bool),
      s.ligature[d].slots.find? (fun i => i.state != .dead && i.tag == tag && i.phase == ph && i.deadlineOn && !i.deadlinePast) = some j →
      instEnv s d j = some v → s.live = true → v.me = 0 → j.bitmap = none → partStopped s v.part = false → j.ready.length ≠ v.peers →
      j.ready.length < v.bucket.minPresent → exec (.lenientDeadline d tag ph) s = .next (updSlot s d { j with deadlinePast := true })) ∧
    (∀ (d : Engine) (o : LongOp) (r : Run) (f : Folio) (st n : Nat) (x : Nat × (Nat × Nat × Nat)), s.live = true → liveRuns s = [(o, r, f)] →
      partStopped s o.part = false → r.cancelStop = false → nextInstance s o r f d = some (st, n, x) → bucketEnv o f d x.2.1 x.2.2.1 = some v →
      let ni := newInstance f (partStamp s o.part) x.1 x.2.1 x.2.2.1 (r.firstStep + st)
      (roomFor s d v = false → exec (.instanceOpen d) s = .next s) ∧
      (roomFor s d v = true → v.streams.filter (fun x => x.1 != v.me) = [] → s.ligature[d].early.filter (ofInstance ni) = [] →
        (r.exchRun o.handle v.exchIdx f.step16).txOpen = false → ∃ t, exec (.instanceOpen d) s = .next t ∧
          t.ligature[d] = { s.ligature[d] with
            slots := s.ligature[d].slots ++ [ni],
            nextOpen := (o.handle, st, n + 1) :: s.ligature[d].nextOpen.filter (fun z => z.1 != o.handle) } ∧
          (∀ b, b ≠ d → t.ligature[b] = s.ligature[b]) ∧ t = { s with ligature := t.ligature })) ∧
    (takeInbox s i 2 1 = some (k, rest) → m.msg = 5 → ∃ t, exec (.drain i) s = .next t ∧
      t.ligature[e] = { s.ligature[e] with drains := s.ligature[e].drains ++ [k] } ∧
      (∀ d, d ≠ e → t.ligature[d] = s.ligature[d]) ∧ t = { rest with ligature := t.ligature }) ∧
    (∀ (d : Engine) (n : Nat), heldColl s i = some (d, n, k) →
      (s.live = true → pastInstance s d k = true → valuesAcked s k = true → ∃ t, exec (.drainAckReturn i) s = .next t ∧
        t.ligature[d] = { s.ligature[d] with drains := removeAt s.ligature[d].drains n } ∧ (∀ b, b ≠ d → t.ligature[b] = s.ligature[b]) ∧
        (∃ a : Packet, a = { mkPacket 2 1 4 0 0 k.stamp 0 (bodyC { m with msg := 6 }) [] with
            engine := k.engine, src := s.router.myCoord, dst := k.src } ∧
          (k.src = s.router.myCoord → t.inbox = s.inbox ++ [a] ∧ t.router = s.router) ∧
          (k.src ≠ s.router.myCoord → t.inbox = s.inbox ∧ t.router = { s.router with injectQ := s.router.injectQ ++ [a] })) ∧
        t = { s with ligature := t.ligature, inbox := t.inbox, router := t.router }) ∧
      (s.live = false ∨ pastInstance s d k = false ∨ valuesAcked s k = false → exec (.drainAckReturn i) s = .next s)) ∧
    (takeInbox s i 2 1 = some (k, rest) → m.msg = 6 →
      let dead := fun (j : Instance) => j.state == .dead && ofInstance j { k with body := BitVec.ofNat 128 (bodyC { m with msg := 0 }) }
      (s.ligature[e].slots.find? dead = none → exec (.drainAck i) s = .next (staleDrop rest (unitFabric (16 + e.val)) k.stamp)) ∧
      (∀ f b rank, s.ligature[e].slots.find? dead = some j → folioOf s j.folio = some f → f.tables.bucket? j.tag.toNat = some b →
        senderRank s f.part f.rank k = some rank →
        let left := j.drains.filter (fun d => d != f.tables.contributor b (coordOfRank f.box rank))
        ∃ t, exec (.drainAck i) s = .next t ∧
          (left = [] → t.ligature[e].slots = s.ligature[e].slots.filter (fun x => !x.same j)) ∧
          (left ≠ [] → t.ligature[e].slots = s.ligature[e].slots.map (fun x => if x.same j then { j with drains := left } else x)) ∧
          (∀ d, d ≠ e → t.ligature[d] = s.ligature[d]) ∧ t = { rest with ligature := t.ligature }))

/-- Power domains change state (R418 to R430): the lowest wake that waits behind the cap of R428 starts; a wake that is done leaves the
domain ON, re-initialized after OFF; an entry that is done leaves it in RETENTION or OFF; an idle band, stack, uncore or PCIe port begins
its entry where nothing blocks it, and stays as it is where something does. The wake's measured length and the temperature at an entry
are free values (log entry 3). -/
def Obligations.DomainsEnterAndWake : Prop :=
  ∀ (s : State),
    let dom := fun (t : State) (d : Domain) => t.power.domains[d]
    let only := fun (t : State) (d : Domain) => (∀ e, e ≠ d → dom t e = dom s e) ∧
      t = { s with power := { s.power with domains := t.power.domains } }
    let entry := fun (x : PowerDomain) (off : Bool) => { x with state := .entering, toOff := off, entryMethod := x.method }
    (∀ q : Quad, (4 ≤ trickleWakes s q.val → exec (.domainWakeStart q) s = .next s) ∧
      (∀ d, trickleWakes s q.val < 4 → allDomains.find? (fun d => domainQuad d == some q.val && (dom s d).wakeQueued) = some d →
        ∃ t, exec (.domainWakeStart q) s = .next t ∧ dom t d = { dom s d with state := .waking, fromOff := false, wakeQueued := false } ∧
          t.counter 0x102 d.val = (s.counter 0x102 d.val + 1) % 2 ^ 64 ∧ only { t with telemetry := s.telemetry } d)) ∧
    (∀ d : Domain,
      ((dom s d).state ≠ .waking ∨ needsMet s d = false → exec (.domainWakeDone d) s = .next s) ∧
      ((dom s d).state = .waking → needsMet s d = true → ∃ u : State,
        (dom u d).state = .on ∧ (dom u d).trickle = false ∧ (dom u d).fromOff = false ∧ (dom u d).request = (dom s d).request ∧
        (∀ e, e ≠ d → dom u e = dom s e) ∧
        ((dom s d).fromOff = false → u.fresh = s.fresh + 1 ∧ u = { s with power := u.power, telemetry := u.telemetry, fresh := u.fresh }) ∧
        ((dom s d).fromOff = true → u = { reinit s d with power := u.power, telemetry := u.telemetry, fresh := u.fresh }) ∧
        ((dom s d).request ≠ 1 → exec (.domainWakeDone d) s = .next (afterWake u d (dom s d).fromOff)) ∧
        ((dom s d).request = 1 → exec (.domainWakeDone d) s = .next (settlePolicy (afterWake u d (dom s d).fromOff) d)))) ∧
    (∀ d : Domain,
      ((dom s d).state ≠ .entering → exec (.domainEntryDone d) s = .next s) ∧
      ((dom s d).state = .entering → ∃ u : State,
        (dom u d).state = (if (dom s d).toOff then .off else .retention) ∧ (dom u d).offersStand = false ∧
        (dom u d).trickle = (!(dom s d).toOff && (dom s d).entryMethod == 1) ∧ (dom u d).request = (dom s d).request ∧
        u.fresh = s.fresh + 1 ∧ only { u with fresh := s.fresh } d ∧
        ((dom s d).request.toNat < 2 → exec (.domainEntryDone d) s = .next (reattempt s u)) ∧
        (2 ≤ (dom s d).request.toNat → exec (.domainEntryDone d) s = .next (reattempt s (settlePolicy u d))) ∧
        ((dom s d).request.toNat < 2 → (∀ e, requestBlocked s e = false) → exec (.domainEntryDone d) s = .next u))) ∧
    (∀ (b : Fin 40), let d := bandDomain b.val
      (s.live = false ∨ domainOn s d = false ∨ ((dom s d).offersStand = false ∧ ((bandClusters b.val).all (unowned s)) = false) →
        exec (.bandIdle b) s = .next s) ∧
      (s.live = true → domainOn s d = true → ((dom s d).offersStand || (bandClusters b.val).all (unowned s)) = true →
        (∀ c ∈ bandClusters b.val, notOffering s c = none ∧ offered s d c ≠ 0) → (dom s d).request ≠ 1 →
        ∃ t, exec (.bandIdle b) s = .next t ∧
          dom t d = entry { dom s d with offersStand := false } ((bandClusters b.val).all (fun c => offered s d c == 2)) ∧
          (∀ q : Quad, q = quadN (b.val / 10) → b.val ∈ t.seqs[q].attempted) ∧ only { t with seqs := s.seqs } d ∧
          (∀ q : Quad, t.seqs[q] = { s.seqs[q] with attempted := t.seqs[q].attempted }))) ∧
    ((s.live = false ∨ (∃ d ∈ allStacks, (entryBlock s d false).isSome = true) → exec .hbmIdle s = .next s) ∧
      (s.live = true → (∀ d ∈ allStacks, (dom s d).state = .on ∧ (dom s d).request = 0 ∧ entryBlock s d false = none) →
        ∃ t, exec .hbmIdle s = .next t ∧ (∀ d ∈ allStacks, dom t d = entry (dom s d) false) ∧
          (∀ d, d ∉ allStacks → dom t d = dom s d) ∧ t = { s with power := { s.power with domains := t.power.domains } })) ∧
    (∀ (c : Instr) (d : Domain) (off : Bool), ((∃ q : Quad, c = .quncoreIdle q ∧ d = quncoreDomain q.val ∧ off = false) ∨
        (∃ p : Port, c = .pcieIdle p ∧ d = pcieDomain p.val ∧ off = true)) → s.live = true →
      ((dom s d).state = .on → (dom s d).request = 0 → entryBlock s d off = none → ∃ t, exec c s = .next t ∧
        dom t d = entry (dom s d) off ∧ only t d) ∧
      ((dom s d).state = .on → (dom s d).request = 2 → entryBlock s d false = none → ∃ t, exec c s = .next t ∧
        dom t d = entry (dom s d) false ∧ only t d) ∧
      ((dom s d).state ≠ .on ∨ (dom s d).request = 1 ∨ ((dom s d).request = 0 ∧ (entryBlock s d off).isSome = true) → exec c s = .next s))

/-- What the power monitors do (R431, R432, R435 to R439): the trickle guard converts a domain that has warmed, a brown-out turns a domain
in trickle retention OFF and fails the jobs whose state it held, the cap moves every ceiling, a reading of the junction sensors throttles,
eases or trips, the input voltage is recorded, a droop stretches ACLK, and ACLK moves one setting towards its target. -/
def Obligations.PowerMonitorsAct : Prop :=
  ∀ (s : State),
    let quads := fun (t : State) => { s with power := { s.power with quads := t.power.quads } }
    let oneQuad := fun (t : State) (q : Quad) (x : QuadClock) => t.power.quads[q] = x ∧ ∀ r : Quad, r ≠ q → t.power.quads[r] = s.power.quads[r]
    let oneDomain := fun (t : State) (d : Domain) (x : PowerDomain) => t.power.domains[d] = x ∧
      (∀ e : Domain, e ≠ d → t.power.domains[e] = s.power.domains[e]) ∧ reports { s with power := { s.power with domains := t.power.domains } } t
    (∀ (d : Domain) (n : Nat), let x := s.power.domains[d]
      let due := x.state = .retention ∧ x.trickle = true ∧ x.entryTempC + s.settings.trickleDelta ≤ n
      (due → ∃ t, exec (.trickleGuard d n) s = .next t ∧ oneDomain t d { x with trickle := false, wakeSource := 11 }) ∧
      (¬ due → exec (.trickleGuard d n) s = .next s)) ∧
    (∀ d : Domain, let x := s.power.domains[d]
      let hit := x.state = .retention ∧ x.trickle = true ∧ x.wakeQueued = false
      (¬ hit → exec (.brownout d) s = .next s) ∧
      (hit → ∃ u, oneDomain u d { x with state := .off, trickle := false, fromOff := true, offersStand := false } ∧
        exec (.brownout d) s = .next ((allParts.filter (fun p => partStamp s p != 0 && jobHolds s p d)).foldl
          (fun v p => failJob v (partStamp v p) 0x130 (unitDomain d.val) d.val 0 0) u) ∧
        ((∀ p, partStamp s p = 0 ∨ jobHolds s p d = false) → exec (.brownout d) s = .next u))) ∧
    (∀ (long : Bool) (w : Nat),
      (s.pins.pwrGood = false ∨ s.power.tripped = true → exec (.powerSample long w) s = .next s) ∧
      (s.pins.pwrGood = true → s.power.tripped = false → long = false → 11 * s.power.capW ≥ 10 * w → exec (.powerSample long w) s = .next s) ∧
      (s.pins.pwrGood = true → s.power.tripped = false → allAtFloor s = false → long = false → 11 * s.power.capW < 10 * w →
        ∃ t, exec (.powerSample long w) s = .next t ∧ reports (quads t) t ∧
          ∀ q : Quad, t.power.quads[q] = { s.power.quads[q] with capCeiling := s.power.quads[q].capCeiling - 4 }) ∧
      (s.pins.pwrGood = true → s.power.tripped = false → long = true → allAtFloor s = false ∨ w ≤ s.power.capW → ∃ t,
        exec (.powerSample long w) s = .next t ∧ t.power.powerW = min w 4095 ∧
        t.power.lowWindows = (if 100 * w < 97 * s.power.capW then s.power.lowWindows + 1 else 0) % 10 ∧
        t.power.domains = s.power.domains ∧ t.power.tripped = s.power.tripped ∧ reports { s with power := t.power } t ∧
        ∀ q : Quad, t.power.quads[q] = { s.power.quads[q] with capCeiling :=
          if s.power.capW < w then s.power.quads[q].capCeiling - 1
          else if 100 * w < 97 * s.power.capW ∧ s.power.lowWindows + 1 = 10 then min 26 (s.power.quads[q].capCeiling + 1)
          else s.power.quads[q].capCeiling })) ∧
    (∀ l : List (Nat × Nat),
      (s.pins.pwrGood = false → exec (.thermalReading l) s = .next s) ∧
      (s.pins.pwrGood = true → s.power.tripped = false → (∀ e ∈ l, e.2 < 115) → ∃ t, exec (.thermalReading l) s = .next t ∧
        t.power.tjMax = min (hottest l (fun _ => true)) 255 ∧ t.power.hot = decide (95 ≤ hottest l (fun _ => true)) ∧
        t.power.domains = s.power.domains ∧ t.power.tripped = false ∧ reports { s with power := t.power } t ∧
        ∀ q : Quad, let x := s.power.quads[q]
          let n := hottest l (fun k => k / 20 == q.val)
          let cool := if n ≤ 97 then x.coolReadings + 1 else 0
          t.power.quads[q] = { x with
            throttling := decide (100 ≤ n), overTemp := decide (105 ≤ n), coolReadings := cool % 100,
            thermalCeiling := if 100 ≤ n then x.thermalCeiling - 1 else if cool = 100 then min 26 (x.thermalCeiling + 1)
              else x.thermalCeiling }) ∧
      (s.pins.pwrGood = true → s.power.tripped = false → (∃ e ∈ l, 115 ≤ e.2) → ∃ t, exec (.thermalReading l) s = .next t ∧
        t.power.tripped = true ∧ t.pins.thermTripN = false ∧ t.pins.faultN = false ∧
        (∀ d : Domain, d.val ≠ 0 → t.power.domains[d].state = .off) ∧ t.power.domains[(0 : Domain)] = s.power.domains[(0 : Domain)])) ∧
    (∀ (q : Quad) (n m : Nat), let x := s.power.quads[q]
      (s.pins.pwrGood = true → s.power.tripped = false →
        (x.overTemp = true → ∃ t, exec (.overTemp q) s = .next t ∧ oneQuad t q { x with overTemp := false } ∧ reports (quads t) t) ∧
        (∃ t, exec (.inputRange n) s = .next t ∧ reports { s with power := { s.power with inputMv := n } } t) ∧
        (40000 ≤ n → n ≤ 60000 → exec (.inputRange n) s = .next { s with power := { s.power with inputMv := n } }) ∧
        (∃ t, exec (.droopExcursion q n) s = .next t ∧ oneQuad t q { x with
            stretching := true, stretch := min 4 (1 + n / 10),
            droopEvents := if x.stretching then x.droopEvents else satAdd 64 x.droopEvents 1 } ∧
          t = { quads t with telemetry := t.telemetry } ∧
          (x.stretching = false → t.counter 0x110 q.val = (s.counter 0x110 q.val + 1) % 2 ^ 64)) ∧
        (∃ t, exec (.aclkStep q) s = .next t ∧ oneQuad t q { x with
            current := if x.current < x.target then x.current + 1 else if x.target < x.current then x.current - 1 else x.current } ∧
          t = quads t)) ∧
      (x.stretching = true → ∃ t, exec (.droopEnd q n m) s = .next t ∧ oneQuad t q { x with stretching := false, stretch := 0 } ∧
        t.counter 0x111 q.val = (s.counter 0x111 q.val + n) % 2 ^ 64 ∧ t.counter 0x112 q.val = max (s.counter 0x112 q.val) m ∧
        t = { quads t with telemetry := t.telemetry }))

/-- Errors and their timers (R187, R225, R277, R279, R475, R479 to R484, R487, R514): a local stop that times out is torn down; a heartbeat
tick counts each core's beats, writes the discards since the last tick and stops the device when a core has missed two; the summary of
a second clears what it reports; the scrubber reads the next unit; a cage is switched off and on again; a bridge's failed flit is re-sent,
the sixteenth failed re-send of one flit stopping the device; a fault of the CPB stops it. -/
def Obligations.ErrorTimersAct : Prop :=
  ∀ (s : State),
    (∀ (p : Part) (j : Job), s.parts[p].job = some j →
      (s.live = true → j.stopped = true → j.torn = false → exec (.localStopTimeout p) s = .next (teardown s p 2)) ∧
      (s.live = false ∨ j.stopped = false ∨ j.torn = true → exec (.localStopTimeout p) s = .next s)) ∧
    (∀ b : BitVec 16,
      (s.errors.supervised = false → exec (.heartbeatTick b) s = .next s) ∧
      (s.pins.pwrGood = true → s.errors.supervised = true → s.power.tripped = false →
        ((∀ k : Fin 16, b.getLsbD k.val = true ∨ s.errors.beats[k].2 = 0) → ∃ t, exec (.heartbeatTick b) s = .next t ∧
          (∀ k : Fin 16, t.errors.beats[k] = if b.getLsbD k.val then (s.errors.beats[k].1 + 1, 0) else (s.errors.beats[k].1, s.errors.beats[k].2 + 1)) ∧
          t.staleNotes = [] ∧ t.blotter.head = s.blotter.head + s.staleNotes.length ∧
          t = { s with errors := { s.errors with beats := t.errors.beats }, staleNotes := [], blotter := t.blotter, telemetry := t.telemetry }) ∧
        ((∃ k : Fin 16, b.getLsbD k.val = false ∧ 1 ≤ s.errors.beats[k].2) → ∃ t, exec (.heartbeatTick b) s = .next t ∧ t.errors.fatal = true))) ∧
    (∃ t, exec .ceSummary s = .next t ∧ t.blotter.corrected = [] ∧ t.blotter.reported = [] ∧
      (s.pins.pwrGood = true → t.blotter.head = s.blotter.head + s.blotter.corrected.length) ∧
      t = { s with blotter := t.blotter, telemetry := t.telemetry }) ∧
    (∀ (n : Stack) (e : Ecc), let moved := { s with scrub := s.scrub.set n ((s.scrub[n] + 1) % (visibleUnits + Config.reservedUnits)) }
      (scrubTurn s n = false → exec (.scrub n e) s = .next s) ∧
      (scrubTurn s n = true → (e = .clean → exec (.scrub n e) s = .next moved) ∧
        (e = .corrected → exec (.scrub n e) s = .next (correctedError (bump moved 0x10 n.val 1) (unitHbm n.val))) ∧
        (e = .uncorrectable → visibleUnits ≤ s.scrub[n] → ∃ t, exec (.scrub n e) s = .next t ∧ t.errors.fatal = true) ∧
        (e = .uncorrectable → s.scrub[n] < visibleUnits → exec (.scrub n e) s = .next (hbmPoisoned moved n.val (unitLocal s n.val s.scrub[n]))))) ∧
    (∀ p : FPort, s.pins.pwrGood = true → 8 ≤ p.val →
      (s.fabric[p].cageOn = true → ∃ t, exec (.cageOverCurrent p) s = .next t ∧ t.fabric[p].cageOn = false ∧
        t.fabric[p].state = (if s.fabric[p].state = .failed then .failed else .down) ∧ relinks s t p) ∧
      (s.fabric[p].cageOn = false → ∃ t, exec (.cableReseat p) s = .next t ∧ t.fabric[p].cageOn = true ∧
        (s.live = true → domainOn s (fportDomain p.val) = true → s.settings.fportEnable.getLsbD p.val = true → s.fabric[p].state = .down →
          t.fabric[p].state = .detect) ∧ relinks s t p) ∧
      (s.fabric[p].cageOn = false → exec (.cageOverCurrent p) s = .next s) ∧ (s.fabric[p].cageOn = true → exec (.cableReseat p) s = .next s)) ∧
    (∀ q : Quad, s.live = true → ∃ t, exec (.bridgeLinkCrcFail q) s = .next t ∧ (t.bridge[q] = 1 ∨ t.bridge[q] = s.bridge[q] + 1) ∧
      (s.bridge[q] = 0 → t.bridge[q] = 1) ∧ (∀ r : Quad, r ≠ q → t.bridge[r] = s.bridge[r]) ∧
      (17 ≤ t.bridge[q] → t.errors.fatal = true) ∧ (t.bridge[q] < 17 → tells { s with bridge := t.bridge, fresh := t.fresh } t)) ∧
    (∀ b : Byte, (s.pins.pwrGood = true → 2 ≤ s.boot.beat → s.power.tripped = false → ∃ t, exec (.cpbFault b) s = .next t ∧
        t.errors.fatal = true) ∧
      (s.pins.pwrGood = false ∨ s.boot.beat < 2 ∨ s.power.tripped = true → exec (.cpbFault b) s = .next s))
end

