-- ==== Sys2Proof/Laws/Memory.lean ====
section
/-! SUPPORT. Memory: every operation keeps the canonical form, a read after a write gives the value written, and a write leaves
every other byte alone. -/

namespace Sys2Proof.Machine

open Sys2Proof

/-! ### The canonical list -/

theorem cellsWf_mono : ∀ (l : List Host.Cell) (lo lo' : Nat), lo' ≤ lo → cellsWf lo l = true → cellsWf lo' l = true
  | [], _, _, _, _ => rfl
  | (k, v) :: t, lo, lo', h, w => by
    simp only [cellsWf, Bool.and_eq_true, decide_eq_true_eq] at w ⊢
    exact ⟨⟨Nat.le_trans h w.1.1, w.1.2⟩, w.2⟩

theorem cellSet_wf : ∀ (l : List Host.Cell) (lo a : Nat) (b : Byte), lo ≤ a → cellsWf lo l = true →
    cellsWf lo (cellSet l a b) = true
  | [], lo, a, b, h, _ => by
    unfold cellSet
    split
    · rfl
    · simp_all [cellsWf]
  | (k, v) :: t, lo, a, b, h, w => by
    have w' := w
    simp only [cellsWf, Bool.and_eq_true, decide_eq_true_eq] at w'
    unfold cellSet
    split
    · split
      · exact w
      · rename_i h1 h2
        simp only [cellsWf, Bool.and_eq_true, decide_eq_true_eq]
        exact ⟨⟨h, by simpa using h2⟩, ⟨h1, w'.1.2⟩, w'.2⟩
    · split
      · rename_i h1 h2
        split
        · exact cellsWf_mono t (k + 1) lo (by omega) w'.2
        · rename_i h3
          simp only [cellsWf, Bool.and_eq_true, decide_eq_true_eq]
          exact ⟨⟨h, by simpa using h3⟩, by subst h2; exact w'.2⟩
      · rename_i h1 h2
        simp only [cellsWf, Bool.and_eq_true, decide_eq_true_eq]
        exact ⟨w'.1, cellSet_wf t (k + 1) a b (by omega) w'.2⟩

theorem cellsWf_filter (f : Host.Cell → Bool) : ∀ (l : List Host.Cell) (lo : Nat), cellsWf lo l = true →
    cellsWf lo (l.filter f) = true
  | [], _, _ => rfl
  | (k, v) :: t, lo, w => by
    simp only [cellsWf, Bool.and_eq_true, decide_eq_true_eq] at w
    rw [List.filter_cons]
    split
    · simp only [cellsWf, Bool.and_eq_true, decide_eq_true_eq]
      exact ⟨w.1, cellsWf_filter f t (k + 1) w.2⟩
    · exact cellsWf_mono _ (k + 1) lo (by omega) (cellsWf_filter f t (k + 1) w.2)

theorem cellGet_of_lt : ∀ (l : List Host.Cell) (lo a : Nat), a < lo → cellsWf lo l = true → cellGet l a = 0#8
  | [], _, _, _, _ => rfl
  | (k, v) :: t, lo, a, h, w => by
    simp only [cellsWf, Bool.and_eq_true, decide_eq_true_eq] at w
    unfold cellGet
    rw [if_neg (by omega)]
    exact cellGet_of_lt t (k + 1) a (by omega) w.2

theorem cellGet_cellSet : ∀ (l : List Host.Cell) (lo a x : Nat) (b : Byte), cellsWf lo l = true →
    cellGet (cellSet l a b) x = if x = a then b else cellGet l x
  | [], _, a, x, b, _ => by
    unfold cellSet
    split
    · rename_i h; simp [cellGet, h]
    · simp only [cellGet]
      split
      · rename_i h; simp [h]
      · rename_i h; rw [if_neg (fun e => h e.symm)]
  | (k, v) :: t, lo, a, x, b, w => by
    have w' := w
    simp only [cellsWf, Bool.and_eq_true, decide_eq_true_eq] at w'
    unfold cellSet
    split
    · rename_i h1
      split
      · rename_i h2
        split
        · rename_i h3
          rw [cellGet_of_lt ((k, v) :: t) k x (by omega) (by simp [cellsWf, w'.1.2, w'.2]), h2]
        · rfl
      · conv_lhs => unfold cellGet
        by_cases hx : a = x
        · simp [hx]
        · rw [if_neg hx, if_neg (fun e => hx e.symm)]
    · split
      · rename_i h1 h2
        split
        · rename_i h3
          by_cases hx : x = a
          · rw [if_pos hx, cellGet_of_lt t (k + 1) x (by omega) w'.2, h3]
          · rw [if_neg hx]; conv_rhs => unfold cellGet
            rw [if_neg (by omega)]
        · by_cases hx : x = a
          · simp [cellGet, hx]
          · rw [if_neg hx]; unfold cellGet
            rw [if_neg (by omega), if_neg (by omega)]
      · rename_i h1 h2
        unfold cellGet
        by_cases hk : k = x
        · rw [if_pos hk, if_pos hk, if_neg (by omega)]
        · rw [if_neg hk, if_neg hk]
          exact cellGet_cellSet t (k + 1) a x b w'.2

/-! ### Undefined ranges -/

theorem undefAt_append : ∀ (l m : List (Nat × Nat × Nat)) (a : Nat),
    undefAt (l ++ m) a = (undefAt l a).orElse (fun _ => undefAt m a)
  | [], _, _ => rfl
  | (lo, hi, g) :: t, m, a => by
    simp only [List.cons_append, undefAt]
    split
    · rfl
    · exact undefAt_append t m a

theorem undefAt_carve (lo hi : Nat) : ∀ (l : List (Nat × Nat × Nat)) (a : Nat),
    undefAt (carve l lo hi) a = if lo ≤ a ∧ a < hi then none else undefAt l a
  | [], a => by simp [carve, undefAt]
  | (p, q, g) :: t, a => by
    have ih := undefAt_carve lo hi t a
    simp only [carve] at ih ⊢
    rw [List.map_cons, List.flatten_cons, undefAt_append, undefAt_append, ih]
    have one : ∀ (c : Prop) [Decidable c] (x y : Nat), undefAt (if c then [(x, y, g)] else []) a =
        if c ∧ x ≤ a ∧ a < y then some g else none := by
      intro c _ x y
      split
      · rename_i hc
        simp [undefAt, hc]
      · rename_i hc
        simp [undefAt, hc]
    rw [one, one]
    dsimp only
    have hd : undefAt ((p, q, g) :: t) a = if p ≤ a ∧ a < q then some g else undefAt t a := by simp [undefAt]
    rw [hd]
    by_cases h : lo ≤ a ∧ a < hi
    · rw [if_pos h, if_neg (by omega), if_neg (by omega), if_pos h]
      rfl
    · rw [if_neg h, if_neg h]
      by_cases hr : p ≤ a ∧ a < q
      · rw [if_pos hr]
        by_cases h1 : a < lo
        · rw [if_pos (by omega)]
          rfl
        · rw [if_neg (by omega), if_pos (by omega)]
          rfl
      · rw [if_neg hr, if_neg (by omega), if_neg (by omega)]
        rfl

/-! ### Memory -/

@[simp] theorem Memory.wf_empty : Memory.empty.wf = true := rfl

theorem Memory.write_wf (m : Memory) (a : Nat) (b : Byte) (h : m.wf = true) : (m.write a b).wf = true :=
  cellSet_wf _ 0 a b (Nat.zero_le a) h

theorem Memory.writeBytes_wf : ∀ (bs : Bytes) (m : Memory) (a : Nat), m.wf = true → (m.writeBytes a bs).wf = true
  | [], _, _, h => h
  | b :: t, m, a, h => Memory.writeBytes_wf t _ _ (m.write_wf a b h)

theorem Memory.zero_wf (m : Memory) (lo hi : Nat) (h : m.wf = true) : (m.zero lo hi).wf = true :=
  cellsWf_filter _ _ 0 h

theorem Memory.undefine_wf (m : Memory) (lo hi g : Nat) (h : m.wf = true) : (m.undefine lo hi g).wf = true :=
  cellsWf_filter _ _ 0 h

theorem Memory.setPoison_wf (m : Memory) (a : Nat) (h : m.wf = true) : (m.setPoison a).wf = true := h

theorem Memory.clearPoison_wf (m : Memory) (a : Nat) (h : m.wf = true) : (m.clearPoison a).wf = true := h

theorem Memory.store_wf (m : Memory) (a : Nat) (b : Bytes) (h : m.wf = true) : (m.store a b).wf = true :=
  Memory.writeBytes_wf b m a h

theorem Memory.foldl_wf {α : Type} {f : Memory → α → Memory} (hf : ∀ m x, m.wf = true → (f m x).wf = true) :
    ∀ {l : List α} {m : Memory}, m.wf = true → (l.foldl f m).wf = true
  | [], _, h => h
  | x :: l, m, h => Memory.foldl_wf hf (l := l) (hf m x h)

/-- A fold that carries a memory with something else. -/
theorem Memory.foldl_fst_wf {α β : Type} {f : Memory × β → α → Memory × β}
    (hf : ∀ m x, m.1.wf = true → (f m x).1.wf = true) :
    ∀ {l : List α} {m : Memory × β}, m.1.wf = true → (l.foldl f m).1.wf = true
  | [], _, h => h
  | x :: l, m, h => Memory.foldl_fst_wf hf (l := l) (hf m x h)

/-- What a byte write does to every read. -/
theorem Memory.read_write (m : Memory) (a x : Nat) (b : Byte) (h : m.wf = true) :
    (m.write a b).read x = if x = a then b else m.read x := by
  unfold Memory.write Memory.read
  dsimp only
  rw [cellGet_cellSet m.cells 0 a x b h]
  split
  · rename_i g hg
    split at hg
    · rw [undefAt_carve] at hg
      split at hg
      · exact absurd hg (by simp)
      · rename_i h1
        rw [if_neg (by omega), hg]
    · rename_i h1
      by_cases hx : x = a
      · subst hx; simp [hg] at h1
      · rw [if_neg hx, hg]
  · rename_i hg
    by_cases hx : x = a
    · simp [hx]
    · rw [if_neg hx, if_neg hx]
      split at hg
      · rw [undefAt_carve, if_neg (by omega)] at hg
        rw [hg]
      · rw [hg]

/-- What a write of a run of bytes does to every read. -/
theorem Memory.read_writeBytes : ∀ (bs : Bytes) (m : Memory) (a x : Nat), m.wf = true →
    (m.writeBytes a bs).read x = if a ≤ x ∧ x < a + bs.length then bs.getD (x - a) 0#8 else m.read x
  | [], m, a, x, _ => by
    simp only [Memory.writeBytes, List.length_nil]
    rw [if_neg (by omega)]
  | b :: t, m, a, x, h => by
    rw [Memory.writeBytes, Memory.read_writeBytes t (m.write a b) (a + 1) x (m.write_wf a b h), Memory.read_write m a x b h]
    by_cases hx : x = a
    · subst hx
      simp
    · by_cases h1 : a + 1 ≤ x ∧ x < a + 1 + t.length
      · rw [if_pos h1, if_pos (by simp only [List.length_cons]; omega)]
        have : x - a = (x - (a + 1)) + 1 := by omega
        rw [this, List.getD_cons_succ]
      · rw [if_neg h1, if_neg hx, if_neg (by simp only [List.length_cons]; omega)]

/-- A store changes the bytes it covers and nothing else. -/
theorem Memory.read_store (m : Memory) (a x : Nat) (bs : Bytes) (h : m.wf = true) :
    (m.store a bs).read x = if a ≤ x ∧ x < a + bs.length then bs.getD (x - a) 0#8 else m.read x :=
  Memory.read_writeBytes bs m a x h

end Sys2Proof.Machine
end

