-- ==== Sys2Proof/Laws/State.lean ====
section
/-! SUPPORT. What each named update of the state does to each field, so that no proof unfolds a record update. -/

namespace Sys2Proof.Machine

open Sys2Proof

variable (s : State)

@[simp] theorem updPort_pins (p : Port) (f : PciePort → PciePort) : (updPort s p f).pins = s.pins := rfl
@[simp] theorem updPort_silicon (p : Port) (f : PciePort → PciePort) : (updPort s p f).silicon = s.silicon := rfl
@[simp] theorem updPort_boot (p : Port) (f : PciePort → PciePort) : (updPort s p f).boot = s.boot := rfl
@[simp] theorem updPort_power (p : Port) (f : PciePort → PciePort) : (updPort s p f).power = s.power := rfl
@[simp] theorem updPort_settings (p : Port) (f : PciePort → PciePort) : (updPort s p f).settings = s.settings := rfl
@[simp] theorem updPort_regions (p : Port) (f : PciePort → PciePort) : (updPort s p f).regions = s.regions := rfl
@[simp] theorem updPort_blotter (p : Port) (f : PciePort → PciePort) : (updPort s p f).blotter = s.blotter := rfl
@[simp] theorem updPort_errors (p : Port) (f : PciePort → PciePort) : (updPort s p f).errors = s.errors := rfl
@[simp] theorem updPort_timeBase (p : Port) (f : PciePort → PciePort) : (updPort s p f).timeBase = s.timeBase := rfl
@[simp] theorem updPort_telemetry (p : Port) (f : PciePort → PciePort) : (updPort s p f).telemetry = s.telemetry := rfl
@[simp] theorem updPort_staleNotes (p : Port) (f : PciePort → PciePort) : (updPort s p f).staleNotes = s.staleNotes := rfl
@[simp] theorem updPort_ports (p : Port) (f : PciePort → PciePort) : (updPort s p f).ports = s.ports.set p (f s.ports[p]) := rfl
@[simp] theorem updPort_parts (p : Port) (f : PciePort → PciePort) : (updPort s p f).parts = s.parts := rfl
@[simp] theorem updPort_mgmt (p : Port) (f : PciePort → PciePort) : (updPort s p f).mgmt = s.mgmt := rfl
@[simp] theorem updPort_cmds (p : Port) (f : PciePort → PciePort) : (updPort s p f).cmds = s.cmds := rfl
@[simp] theorem updPort_longs (p : Port) (f : PciePort → PciePort) : (updPort s p f).longs = s.longs := rfl
@[simp] theorem updPort_folios (p : Port) (f : PciePort → PciePort) : (updPort s p f).folios = s.folios := rfl
@[simp] theorem updPort_pairings (p : Port) (f : PciePort → PciePort) : (updPort s p f).pairings = s.pairings := rfl
@[simp] theorem updPort_pairWaits (p : Port) (f : PciePort → PciePort) : (updPort s p f).pairWaits = s.pairWaits := rfl
@[simp] theorem updPort_fillers (p : Port) (f : PciePort → PciePort) : (updPort s p f).fillers = s.fillers := rfl
@[simp] theorem updPort_copies (p : Port) (f : PciePort → PciePort) : (updPort s p f).copies = s.copies := rfl
@[simp] theorem updPort_mem (p : Port) (f : PciePort → PciePort) : (updPort s p f).mem = s.mem := rfl
@[simp] theorem updPort_shadows (p : Port) (f : PciePort → PciePort) : (updPort s p f).shadows = s.shadows := rfl
@[simp] theorem updPort_seqs (p : Port) (f : PciePort → PciePort) : (updPort s p f).seqs = s.seqs := rfl
@[simp] theorem updPort_ductus (p : Port) (f : PciePort → PciePort) : (updPort s p f).ductus = s.ductus := rfl
@[simp] theorem updPort_ligature (p : Port) (f : PciePort → PciePort) : (updPort s p f).ligature = s.ligature := rfl
@[simp] theorem updPort_gatherQ (p : Port) (f : PciePort → PciePort) : (updPort s p f).gatherQ = s.gatherQ := rfl
@[simp] theorem updPort_fabric (p : Port) (f : PciePort → PciePort) : (updPort s p f).fabric = s.fabric := rfl
@[simp] theorem updPort_router (p : Port) (f : PciePort → PciePort) : (updPort s p f).router = s.router := rfl
@[simp] theorem updPort_inbox (p : Port) (f : PciePort → PciePort) : (updPort s p f).inbox = s.inbox := rfl
@[simp] theorem updPort_lineQueues (p : Port) (f : PciePort → PciePort) : (updPort s p f).lineQueues = s.lineQueues := rfl
@[simp] theorem updPort_ledger (p : Port) (f : PciePort → PciePort) : (updPort s p f).ledger = s.ledger := rfl
@[simp] theorem updPort_windows (p : Port) (f : PciePort → PciePort) : (updPort s p f).windows = s.windows := rfl
@[simp] theorem updPort_trackers (p : Port) (f : PciePort → PciePort) : (updPort s p f).trackers = s.trackers := rfl
@[simp] theorem updPort_threads (p : Port) (f : PciePort → PciePort) : (updPort s p f).threads = s.threads := rfl
@[simp] theorem updPort_lastIssued (p : Port) (f : PciePort → PciePort) : (updPort s p f).lastIssued = s.lastIssued := rfl
@[simp] theorem updPort_lastServed (p : Port) (f : PciePort → PciePort) : (updPort s p f).lastServed = s.lastServed := rfl
@[simp] theorem updPort_tokens (p : Port) (f : PciePort → PciePort) : (updPort s p f).tokens = s.tokens := rfl
@[simp] theorem updPort_waits (p : Port) (f : PciePort → PciePort) : (updPort s p f).waits = s.waits := rfl
@[simp] theorem updPort_reservoirs (p : Port) (f : PciePort → PciePort) : (updPort s p f).reservoirs = s.reservoirs := rfl
@[simp] theorem updPort_pulls (p : Port) (f : PciePort → PciePort) : (updPort s p f).pulls = s.pulls := rfl
@[simp] theorem updPort_debugWrites (p : Port) (f : PciePort → PciePort) : (updPort s p f).debugWrites = s.debugWrites := rfl
@[simp] theorem updPort_scrub (p : Port) (f : PciePort → PciePort) : (updPort s p f).scrub = s.scrub := rfl
@[simp] theorem updPort_bridge (p : Port) (f : PciePort → PciePort) : (updPort s p f).bridge = s.bridge := rfl
@[simp] theorem updPort_nextUid (p : Port) (f : PciePort → PciePort) : (updPort s p f).nextUid = s.nextUid := rfl
@[simp] theorem updPort_fresh (p : Port) (f : PciePort → PciePort) : (updPort s p f).fresh = s.fresh := rfl
@[simp] theorem updPort_pending (p : Port) (f : PciePort → PciePort) : (updPort s p f).pending = s.pending := rfl

@[simp] theorem updPart_pins (p : Part) (f : Partition → Partition) : (updPart s p f).pins = s.pins := rfl
@[simp] theorem updPart_silicon (p : Part) (f : Partition → Partition) : (updPart s p f).silicon = s.silicon := rfl
@[simp] theorem updPart_boot (p : Part) (f : Partition → Partition) : (updPart s p f).boot = s.boot := rfl
@[simp] theorem updPart_power (p : Part) (f : Partition → Partition) : (updPart s p f).power = s.power := rfl
@[simp] theorem updPart_settings (p : Part) (f : Partition → Partition) : (updPart s p f).settings = s.settings := rfl
@[simp] theorem updPart_regions (p : Part) (f : Partition → Partition) : (updPart s p f).regions = s.regions := rfl
@[simp] theorem updPart_blotter (p : Part) (f : Partition → Partition) : (updPart s p f).blotter = s.blotter := rfl
@[simp] theorem updPart_errors (p : Part) (f : Partition → Partition) : (updPart s p f).errors = s.errors := rfl
@[simp] theorem updPart_timeBase (p : Part) (f : Partition → Partition) : (updPart s p f).timeBase = s.timeBase := rfl
@[simp] theorem updPart_telemetry (p : Part) (f : Partition → Partition) : (updPart s p f).telemetry = s.telemetry := rfl
@[simp] theorem updPart_staleNotes (p : Part) (f : Partition → Partition) : (updPart s p f).staleNotes = s.staleNotes := rfl
@[simp] theorem updPart_ports (p : Part) (f : Partition → Partition) : (updPart s p f).ports = s.ports := rfl
@[simp] theorem updPart_parts (p : Part) (f : Partition → Partition) : (updPart s p f).parts = s.parts.set p (f s.parts[p]) := rfl
@[simp] theorem updPart_mgmt (p : Part) (f : Partition → Partition) : (updPart s p f).mgmt = s.mgmt := rfl
@[simp] theorem updPart_cmds (p : Part) (f : Partition → Partition) : (updPart s p f).cmds = s.cmds := rfl
@[simp] theorem updPart_longs (p : Part) (f : Partition → Partition) : (updPart s p f).longs = s.longs := rfl
@[simp] theorem updPart_folios (p : Part) (f : Partition → Partition) : (updPart s p f).folios = s.folios := rfl
@[simp] theorem updPart_pairings (p : Part) (f : Partition → Partition) : (updPart s p f).pairings = s.pairings := rfl
@[simp] theorem updPart_pairWaits (p : Part) (f : Partition → Partition) : (updPart s p f).pairWaits = s.pairWaits := rfl
@[simp] theorem updPart_fillers (p : Part) (f : Partition → Partition) : (updPart s p f).fillers = s.fillers := rfl
@[simp] theorem updPart_copies (p : Part) (f : Partition → Partition) : (updPart s p f).copies = s.copies := rfl
@[simp] theorem updPart_mem (p : Part) (f : Partition → Partition) : (updPart s p f).mem = s.mem := rfl
@[simp] theorem updPart_shadows (p : Part) (f : Partition → Partition) : (updPart s p f).shadows = s.shadows := rfl
@[simp] theorem updPart_seqs (p : Part) (f : Partition → Partition) : (updPart s p f).seqs = s.seqs := rfl
@[simp] theorem updPart_ductus (p : Part) (f : Partition → Partition) : (updPart s p f).ductus = s.ductus := rfl
@[simp] theorem updPart_ligature (p : Part) (f : Partition → Partition) : (updPart s p f).ligature = s.ligature := rfl
@[simp] theorem updPart_gatherQ (p : Part) (f : Partition → Partition) : (updPart s p f).gatherQ = s.gatherQ := rfl
@[simp] theorem updPart_fabric (p : Part) (f : Partition → Partition) : (updPart s p f).fabric = s.fabric := rfl
@[simp] theorem updPart_router (p : Part) (f : Partition → Partition) : (updPart s p f).router = s.router := rfl
@[simp] theorem updPart_inbox (p : Part) (f : Partition → Partition) : (updPart s p f).inbox = s.inbox := rfl
@[simp] theorem updPart_lineQueues (p : Part) (f : Partition → Partition) : (updPart s p f).lineQueues = s.lineQueues := rfl
@[simp] theorem updPart_ledger (p : Part) (f : Partition → Partition) : (updPart s p f).ledger = s.ledger := rfl
@[simp] theorem updPart_windows (p : Part) (f : Partition → Partition) : (updPart s p f).windows = s.windows := rfl
@[simp] theorem updPart_trackers (p : Part) (f : Partition → Partition) : (updPart s p f).trackers = s.trackers := rfl
@[simp] theorem updPart_threads (p : Part) (f : Partition → Partition) : (updPart s p f).threads = s.threads := rfl
@[simp] theorem updPart_lastIssued (p : Part) (f : Partition → Partition) : (updPart s p f).lastIssued = s.lastIssued := rfl
@[simp] theorem updPart_lastServed (p : Part) (f : Partition → Partition) : (updPart s p f).lastServed = s.lastServed := rfl
@[simp] theorem updPart_tokens (p : Part) (f : Partition → Partition) : (updPart s p f).tokens = s.tokens := rfl
@[simp] theorem updPart_waits (p : Part) (f : Partition → Partition) : (updPart s p f).waits = s.waits := rfl
@[simp] theorem updPart_reservoirs (p : Part) (f : Partition → Partition) : (updPart s p f).reservoirs = s.reservoirs := rfl
@[simp] theorem updPart_pulls (p : Part) (f : Partition → Partition) : (updPart s p f).pulls = s.pulls := rfl
@[simp] theorem updPart_debugWrites (p : Part) (f : Partition → Partition) : (updPart s p f).debugWrites = s.debugWrites := rfl
@[simp] theorem updPart_scrub (p : Part) (f : Partition → Partition) : (updPart s p f).scrub = s.scrub := rfl
@[simp] theorem updPart_bridge (p : Part) (f : Partition → Partition) : (updPart s p f).bridge = s.bridge := rfl
@[simp] theorem updPart_nextUid (p : Part) (f : Partition → Partition) : (updPart s p f).nextUid = s.nextUid := rfl
@[simp] theorem updPart_fresh (p : Part) (f : Partition → Partition) : (updPart s p f).fresh = s.fresh := rfl
@[simp] theorem updPart_pending (p : Part) (f : Partition → Partition) : (updPart s p f).pending = s.pending := rfl

@[simp] theorem updDomain_pins (d : Domain) (f : PowerDomain → PowerDomain) : (updDomain s d f).pins = s.pins := rfl
@[simp] theorem updDomain_silicon (d : Domain) (f : PowerDomain → PowerDomain) : (updDomain s d f).silicon = s.silicon := rfl
@[simp] theorem updDomain_boot (d : Domain) (f : PowerDomain → PowerDomain) : (updDomain s d f).boot = s.boot := rfl
@[simp] theorem updDomain_power (d : Domain) (f : PowerDomain → PowerDomain) : (updDomain s d f).power = { s.power with domains := s.power.domains.set d (f s.power.domains[d]) } := rfl
@[simp] theorem updDomain_settings (d : Domain) (f : PowerDomain → PowerDomain) : (updDomain s d f).settings = s.settings := rfl
@[simp] theorem updDomain_regions (d : Domain) (f : PowerDomain → PowerDomain) : (updDomain s d f).regions = s.regions := rfl
@[simp] theorem updDomain_blotter (d : Domain) (f : PowerDomain → PowerDomain) : (updDomain s d f).blotter = s.blotter := rfl
@[simp] theorem updDomain_errors (d : Domain) (f : PowerDomain → PowerDomain) : (updDomain s d f).errors = s.errors := rfl
@[simp] theorem updDomain_timeBase (d : Domain) (f : PowerDomain → PowerDomain) : (updDomain s d f).timeBase = s.timeBase := rfl
@[simp] theorem updDomain_telemetry (d : Domain) (f : PowerDomain → PowerDomain) : (updDomain s d f).telemetry = s.telemetry := rfl
@[simp] theorem updDomain_staleNotes (d : Domain) (f : PowerDomain → PowerDomain) : (updDomain s d f).staleNotes = s.staleNotes := rfl
@[simp] theorem updDomain_ports (d : Domain) (f : PowerDomain → PowerDomain) : (updDomain s d f).ports = s.ports := rfl
@[simp] theorem updDomain_parts (d : Domain) (f : PowerDomain → PowerDomain) : (updDomain s d f).parts = s.parts := rfl
@[simp] theorem updDomain_mgmt (d : Domain) (f : PowerDomain → PowerDomain) : (updDomain s d f).mgmt = s.mgmt := rfl
@[simp] theorem updDomain_cmds (d : Domain) (f : PowerDomain → PowerDomain) : (updDomain s d f).cmds = s.cmds := rfl
@[simp] theorem updDomain_longs (d : Domain) (f : PowerDomain → PowerDomain) : (updDomain s d f).longs = s.longs := rfl
@[simp] theorem updDomain_folios (d : Domain) (f : PowerDomain → PowerDomain) : (updDomain s d f).folios = s.folios := rfl
@[simp] theorem updDomain_pairings (d : Domain) (f : PowerDomain → PowerDomain) : (updDomain s d f).pairings = s.pairings := rfl
@[simp] theorem updDomain_pairWaits (d : Domain) (f : PowerDomain → PowerDomain) : (updDomain s d f).pairWaits = s.pairWaits := rfl
@[simp] theorem updDomain_fillers (d : Domain) (f : PowerDomain → PowerDomain) : (updDomain s d f).fillers = s.fillers := rfl
@[simp] theorem updDomain_copies (d : Domain) (f : PowerDomain → PowerDomain) : (updDomain s d f).copies = s.copies := rfl
@[simp] theorem updDomain_mem (d : Domain) (f : PowerDomain → PowerDomain) : (updDomain s d f).mem = s.mem := rfl
@[simp] theorem updDomain_shadows (d : Domain) (f : PowerDomain → PowerDomain) : (updDomain s d f).shadows = s.shadows := rfl
@[simp] theorem updDomain_seqs (d : Domain) (f : PowerDomain → PowerDomain) : (updDomain s d f).seqs = s.seqs := rfl
@[simp] theorem updDomain_ductus (d : Domain) (f : PowerDomain → PowerDomain) : (updDomain s d f).ductus = s.ductus := rfl
@[simp] theorem updDomain_ligature (d : Domain) (f : PowerDomain → PowerDomain) : (updDomain s d f).ligature = s.ligature := rfl
@[simp] theorem updDomain_gatherQ (d : Domain) (f : PowerDomain → PowerDomain) : (updDomain s d f).gatherQ = s.gatherQ := rfl
@[simp] theorem updDomain_fabric (d : Domain) (f : PowerDomain → PowerDomain) : (updDomain s d f).fabric = s.fabric := rfl
@[simp] theorem updDomain_router (d : Domain) (f : PowerDomain → PowerDomain) : (updDomain s d f).router = s.router := rfl
@[simp] theorem updDomain_inbox (d : Domain) (f : PowerDomain → PowerDomain) : (updDomain s d f).inbox = s.inbox := rfl
@[simp] theorem updDomain_lineQueues (d : Domain) (f : PowerDomain → PowerDomain) : (updDomain s d f).lineQueues = s.lineQueues := rfl
@[simp] theorem updDomain_ledger (d : Domain) (f : PowerDomain → PowerDomain) : (updDomain s d f).ledger = s.ledger := rfl
@[simp] theorem updDomain_windows (d : Domain) (f : PowerDomain → PowerDomain) : (updDomain s d f).windows = s.windows := rfl
@[simp] theorem updDomain_trackers (d : Domain) (f : PowerDomain → PowerDomain) : (updDomain s d f).trackers = s.trackers := rfl
@[simp] theorem updDomain_threads (d : Domain) (f : PowerDomain → PowerDomain) : (updDomain s d f).threads = s.threads := rfl
@[simp] theorem updDomain_lastIssued (d : Domain) (f : PowerDomain → PowerDomain) : (updDomain s d f).lastIssued = s.lastIssued := rfl
@[simp] theorem updDomain_lastServed (d : Domain) (f : PowerDomain → PowerDomain) : (updDomain s d f).lastServed = s.lastServed := rfl
@[simp] theorem updDomain_tokens (d : Domain) (f : PowerDomain → PowerDomain) : (updDomain s d f).tokens = s.tokens := rfl
@[simp] theorem updDomain_waits (d : Domain) (f : PowerDomain → PowerDomain) : (updDomain s d f).waits = s.waits := rfl
@[simp] theorem updDomain_reservoirs (d : Domain) (f : PowerDomain → PowerDomain) : (updDomain s d f).reservoirs = s.reservoirs := rfl
@[simp] theorem updDomain_pulls (d : Domain) (f : PowerDomain → PowerDomain) : (updDomain s d f).pulls = s.pulls := rfl
@[simp] theorem updDomain_debugWrites (d : Domain) (f : PowerDomain → PowerDomain) : (updDomain s d f).debugWrites = s.debugWrites := rfl
@[simp] theorem updDomain_scrub (d : Domain) (f : PowerDomain → PowerDomain) : (updDomain s d f).scrub = s.scrub := rfl
@[simp] theorem updDomain_bridge (d : Domain) (f : PowerDomain → PowerDomain) : (updDomain s d f).bridge = s.bridge := rfl
@[simp] theorem updDomain_nextUid (d : Domain) (f : PowerDomain → PowerDomain) : (updDomain s d f).nextUid = s.nextUid := rfl
@[simp] theorem updDomain_fresh (d : Domain) (f : PowerDomain → PowerDomain) : (updDomain s d f).fresh = s.fresh := rfl
@[simp] theorem updDomain_pending (d : Domain) (f : PowerDomain → PowerDomain) : (updDomain s d f).pending = s.pending := rfl

@[simp] theorem updQuadClock_pins (q : Quad) (f : QuadClock → QuadClock) : (updQuadClock s q f).pins = s.pins := rfl
@[simp] theorem updQuadClock_silicon (q : Quad) (f : QuadClock → QuadClock) : (updQuadClock s q f).silicon = s.silicon := rfl
@[simp] theorem updQuadClock_boot (q : Quad) (f : QuadClock → QuadClock) : (updQuadClock s q f).boot = s.boot := rfl
@[simp] theorem updQuadClock_power (q : Quad) (f : QuadClock → QuadClock) : (updQuadClock s q f).power = { s.power with quads := s.power.quads.set q (f s.power.quads[q]) } := rfl
@[simp] theorem updQuadClock_settings (q : Quad) (f : QuadClock → QuadClock) : (updQuadClock s q f).settings = s.settings := rfl
@[simp] theorem updQuadClock_regions (q : Quad) (f : QuadClock → QuadClock) : (updQuadClock s q f).regions = s.regions := rfl
@[simp] theorem updQuadClock_blotter (q : Quad) (f : QuadClock → QuadClock) : (updQuadClock s q f).blotter = s.blotter := rfl
@[simp] theorem updQuadClock_errors (q : Quad) (f : QuadClock → QuadClock) : (updQuadClock s q f).errors = s.errors := rfl
@[simp] theorem updQuadClock_timeBase (q : Quad) (f : QuadClock → QuadClock) : (updQuadClock s q f).timeBase = s.timeBase := rfl
@[simp] theorem updQuadClock_telemetry (q : Quad) (f : QuadClock → QuadClock) : (updQuadClock s q f).telemetry = s.telemetry := rfl
@[simp] theorem updQuadClock_staleNotes (q : Quad) (f : QuadClock → QuadClock) : (updQuadClock s q f).staleNotes = s.staleNotes := rfl
@[simp] theorem updQuadClock_ports (q : Quad) (f : QuadClock → QuadClock) : (updQuadClock s q f).ports = s.ports := rfl
@[simp] theorem updQuadClock_parts (q : Quad) (f : QuadClock → QuadClock) : (updQuadClock s q f).parts = s.parts := rfl
@[simp] theorem updQuadClock_mgmt (q : Quad) (f : QuadClock → QuadClock) : (updQuadClock s q f).mgmt = s.mgmt := rfl
@[simp] theorem updQuadClock_cmds (q : Quad) (f : QuadClock → QuadClock) : (updQuadClock s q f).cmds = s.cmds := rfl
@[simp] theorem updQuadClock_longs (q : Quad) (f : QuadClock → QuadClock) : (updQuadClock s q f).longs = s.longs := rfl
@[simp] theorem updQuadClock_folios (q : Quad) (f : QuadClock → QuadClock) : (updQuadClock s q f).folios = s.folios := rfl
@[simp] theorem updQuadClock_pairings (q : Quad) (f : QuadClock → QuadClock) : (updQuadClock s q f).pairings = s.pairings := rfl
@[simp] theorem updQuadClock_pairWaits (q : Quad) (f : QuadClock → QuadClock) : (updQuadClock s q f).pairWaits = s.pairWaits := rfl
@[simp] theorem updQuadClock_fillers (q : Quad) (f : QuadClock → QuadClock) : (updQuadClock s q f).fillers = s.fillers := rfl
@[simp] theorem updQuadClock_copies (q : Quad) (f : QuadClock → QuadClock) : (updQuadClock s q f).copies = s.copies := rfl
@[simp] theorem updQuadClock_mem (q : Quad) (f : QuadClock → QuadClock) : (updQuadClock s q f).mem = s.mem := rfl
@[simp] theorem updQuadClock_shadows (q : Quad) (f : QuadClock → QuadClock) : (updQuadClock s q f).shadows = s.shadows := rfl
@[simp] theorem updQuadClock_seqs (q : Quad) (f : QuadClock → QuadClock) : (updQuadClock s q f).seqs = s.seqs := rfl
@[simp] theorem updQuadClock_ductus (q : Quad) (f : QuadClock → QuadClock) : (updQuadClock s q f).ductus = s.ductus := rfl
@[simp] theorem updQuadClock_ligature (q : Quad) (f : QuadClock → QuadClock) : (updQuadClock s q f).ligature = s.ligature := rfl
@[simp] theorem updQuadClock_gatherQ (q : Quad) (f : QuadClock → QuadClock) : (updQuadClock s q f).gatherQ = s.gatherQ := rfl
@[simp] theorem updQuadClock_fabric (q : Quad) (f : QuadClock → QuadClock) : (updQuadClock s q f).fabric = s.fabric := rfl
@[simp] theorem updQuadClock_router (q : Quad) (f : QuadClock → QuadClock) : (updQuadClock s q f).router = s.router := rfl
@[simp] theorem updQuadClock_inbox (q : Quad) (f : QuadClock → QuadClock) : (updQuadClock s q f).inbox = s.inbox := rfl
@[simp] theorem updQuadClock_lineQueues (q : Quad) (f : QuadClock → QuadClock) : (updQuadClock s q f).lineQueues = s.lineQueues := rfl
@[simp] theorem updQuadClock_ledger (q : Quad) (f : QuadClock → QuadClock) : (updQuadClock s q f).ledger = s.ledger := rfl
@[simp] theorem updQuadClock_windows (q : Quad) (f : QuadClock → QuadClock) : (updQuadClock s q f).windows = s.windows := rfl
@[simp] theorem updQuadClock_trackers (q : Quad) (f : QuadClock → QuadClock) : (updQuadClock s q f).trackers = s.trackers := rfl
@[simp] theorem updQuadClock_threads (q : Quad) (f : QuadClock → QuadClock) : (updQuadClock s q f).threads = s.threads := rfl
@[simp] theorem updQuadClock_lastIssued (q : Quad) (f : QuadClock → QuadClock) : (updQuadClock s q f).lastIssued = s.lastIssued := rfl
@[simp] theorem updQuadClock_lastServed (q : Quad) (f : QuadClock → QuadClock) : (updQuadClock s q f).lastServed = s.lastServed := rfl
@[simp] theorem updQuadClock_tokens (q : Quad) (f : QuadClock → QuadClock) : (updQuadClock s q f).tokens = s.tokens := rfl
@[simp] theorem updQuadClock_waits (q : Quad) (f : QuadClock → QuadClock) : (updQuadClock s q f).waits = s.waits := rfl
@[simp] theorem updQuadClock_reservoirs (q : Quad) (f : QuadClock → QuadClock) : (updQuadClock s q f).reservoirs = s.reservoirs := rfl
@[simp] theorem updQuadClock_pulls (q : Quad) (f : QuadClock → QuadClock) : (updQuadClock s q f).pulls = s.pulls := rfl
@[simp] theorem updQuadClock_debugWrites (q : Quad) (f : QuadClock → QuadClock) : (updQuadClock s q f).debugWrites = s.debugWrites := rfl
@[simp] theorem updQuadClock_scrub (q : Quad) (f : QuadClock → QuadClock) : (updQuadClock s q f).scrub = s.scrub := rfl
@[simp] theorem updQuadClock_bridge (q : Quad) (f : QuadClock → QuadClock) : (updQuadClock s q f).bridge = s.bridge := rfl
@[simp] theorem updQuadClock_nextUid (q : Quad) (f : QuadClock → QuadClock) : (updQuadClock s q f).nextUid = s.nextUid := rfl
@[simp] theorem updQuadClock_fresh (q : Quad) (f : QuadClock → QuadClock) : (updQuadClock s q f).fresh = s.fresh := rfl
@[simp] theorem updQuadClock_pending (q : Quad) (f : QuadClock → QuadClock) : (updQuadClock s q f).pending = s.pending := rfl

@[simp] theorem updSeq_pins (q : Quad) (f : Sequencer → Sequencer) : (updSeq s q f).pins = s.pins := rfl
@[simp] theorem updSeq_silicon (q : Quad) (f : Sequencer → Sequencer) : (updSeq s q f).silicon = s.silicon := rfl
@[simp] theorem updSeq_boot (q : Quad) (f : Sequencer → Sequencer) : (updSeq s q f).boot = s.boot := rfl
@[simp] theorem updSeq_power (q : Quad) (f : Sequencer → Sequencer) : (updSeq s q f).power = s.power := rfl
@[simp] theorem updSeq_settings (q : Quad) (f : Sequencer → Sequencer) : (updSeq s q f).settings = s.settings := rfl
@[simp] theorem updSeq_regions (q : Quad) (f : Sequencer → Sequencer) : (updSeq s q f).regions = s.regions := rfl
@[simp] theorem updSeq_blotter (q : Quad) (f : Sequencer → Sequencer) : (updSeq s q f).blotter = s.blotter := rfl
@[simp] theorem updSeq_errors (q : Quad) (f : Sequencer → Sequencer) : (updSeq s q f).errors = s.errors := rfl
@[simp] theorem updSeq_timeBase (q : Quad) (f : Sequencer → Sequencer) : (updSeq s q f).timeBase = s.timeBase := rfl
@[simp] theorem updSeq_telemetry (q : Quad) (f : Sequencer → Sequencer) : (updSeq s q f).telemetry = s.telemetry := rfl
@[simp] theorem updSeq_staleNotes (q : Quad) (f : Sequencer → Sequencer) : (updSeq s q f).staleNotes = s.staleNotes := rfl
@[simp] theorem updSeq_ports (q : Quad) (f : Sequencer → Sequencer) : (updSeq s q f).ports = s.ports := rfl
@[simp] theorem updSeq_parts (q : Quad) (f : Sequencer → Sequencer) : (updSeq s q f).parts = s.parts := rfl
@[simp] theorem updSeq_mgmt (q : Quad) (f : Sequencer → Sequencer) : (updSeq s q f).mgmt = s.mgmt := rfl
@[simp] theorem updSeq_cmds (q : Quad) (f : Sequencer → Sequencer) : (updSeq s q f).cmds = s.cmds := rfl
@[simp] theorem updSeq_longs (q : Quad) (f : Sequencer → Sequencer) : (updSeq s q f).longs = s.longs := rfl
@[simp] theorem updSeq_folios (q : Quad) (f : Sequencer → Sequencer) : (updSeq s q f).folios = s.folios := rfl
@[simp] theorem updSeq_pairings (q : Quad) (f : Sequencer → Sequencer) : (updSeq s q f).pairings = s.pairings := rfl
@[simp] theorem updSeq_pairWaits (q : Quad) (f : Sequencer → Sequencer) : (updSeq s q f).pairWaits = s.pairWaits := rfl
@[simp] theorem updSeq_fillers (q : Quad) (f : Sequencer → Sequencer) : (updSeq s q f).fillers = s.fillers := rfl
@[simp] theorem updSeq_copies (q : Quad) (f : Sequencer → Sequencer) : (updSeq s q f).copies = s.copies := rfl
@[simp] theorem updSeq_mem (q : Quad) (f : Sequencer → Sequencer) : (updSeq s q f).mem = s.mem := rfl
@[simp] theorem updSeq_shadows (q : Quad) (f : Sequencer → Sequencer) : (updSeq s q f).shadows = s.shadows := rfl
@[simp] theorem updSeq_seqs (q : Quad) (f : Sequencer → Sequencer) : (updSeq s q f).seqs = s.seqs.set q (f s.seqs[q]) := rfl
@[simp] theorem updSeq_ductus (q : Quad) (f : Sequencer → Sequencer) : (updSeq s q f).ductus = s.ductus := rfl
@[simp] theorem updSeq_ligature (q : Quad) (f : Sequencer → Sequencer) : (updSeq s q f).ligature = s.ligature := rfl
@[simp] theorem updSeq_gatherQ (q : Quad) (f : Sequencer → Sequencer) : (updSeq s q f).gatherQ = s.gatherQ := rfl
@[simp] theorem updSeq_fabric (q : Quad) (f : Sequencer → Sequencer) : (updSeq s q f).fabric = s.fabric := rfl
@[simp] theorem updSeq_router (q : Quad) (f : Sequencer → Sequencer) : (updSeq s q f).router = s.router := rfl
@[simp] theorem updSeq_inbox (q : Quad) (f : Sequencer → Sequencer) : (updSeq s q f).inbox = s.inbox := rfl
@[simp] theorem updSeq_lineQueues (q : Quad) (f : Sequencer → Sequencer) : (updSeq s q f).lineQueues = s.lineQueues := rfl
@[simp] theorem updSeq_ledger (q : Quad) (f : Sequencer → Sequencer) : (updSeq s q f).ledger = s.ledger := rfl
@[simp] theorem updSeq_windows (q : Quad) (f : Sequencer → Sequencer) : (updSeq s q f).windows = s.windows := rfl
@[simp] theorem updSeq_trackers (q : Quad) (f : Sequencer → Sequencer) : (updSeq s q f).trackers = s.trackers := rfl
@[simp] theorem updSeq_threads (q : Quad) (f : Sequencer → Sequencer) : (updSeq s q f).threads = s.threads := rfl
@[simp] theorem updSeq_lastIssued (q : Quad) (f : Sequencer → Sequencer) : (updSeq s q f).lastIssued = s.lastIssued := rfl
@[simp] theorem updSeq_lastServed (q : Quad) (f : Sequencer → Sequencer) : (updSeq s q f).lastServed = s.lastServed := rfl
@[simp] theorem updSeq_tokens (q : Quad) (f : Sequencer → Sequencer) : (updSeq s q f).tokens = s.tokens := rfl
@[simp] theorem updSeq_waits (q : Quad) (f : Sequencer → Sequencer) : (updSeq s q f).waits = s.waits := rfl
@[simp] theorem updSeq_reservoirs (q : Quad) (f : Sequencer → Sequencer) : (updSeq s q f).reservoirs = s.reservoirs := rfl
@[simp] theorem updSeq_pulls (q : Quad) (f : Sequencer → Sequencer) : (updSeq s q f).pulls = s.pulls := rfl
@[simp] theorem updSeq_debugWrites (q : Quad) (f : Sequencer → Sequencer) : (updSeq s q f).debugWrites = s.debugWrites := rfl
@[simp] theorem updSeq_scrub (q : Quad) (f : Sequencer → Sequencer) : (updSeq s q f).scrub = s.scrub := rfl
@[simp] theorem updSeq_bridge (q : Quad) (f : Sequencer → Sequencer) : (updSeq s q f).bridge = s.bridge := rfl
@[simp] theorem updSeq_nextUid (q : Quad) (f : Sequencer → Sequencer) : (updSeq s q f).nextUid = s.nextUid := rfl
@[simp] theorem updSeq_fresh (q : Quad) (f : Sequencer → Sequencer) : (updSeq s q f).fresh = s.fresh := rfl
@[simp] theorem updSeq_pending (q : Quad) (f : Sequencer → Sequencer) : (updSeq s q f).pending = s.pending := rfl

@[simp] theorem updDuctus_pins (q : Quad) (f : Ductus → Ductus) : (updDuctus s q f).pins = s.pins := rfl
@[simp] theorem updDuctus_silicon (q : Quad) (f : Ductus → Ductus) : (updDuctus s q f).silicon = s.silicon := rfl
@[simp] theorem updDuctus_boot (q : Quad) (f : Ductus → Ductus) : (updDuctus s q f).boot = s.boot := rfl
@[simp] theorem updDuctus_power (q : Quad) (f : Ductus → Ductus) : (updDuctus s q f).power = s.power := rfl
@[simp] theorem updDuctus_settings (q : Quad) (f : Ductus → Ductus) : (updDuctus s q f).settings = s.settings := rfl
@[simp] theorem updDuctus_regions (q : Quad) (f : Ductus → Ductus) : (updDuctus s q f).regions = s.regions := rfl
@[simp] theorem updDuctus_blotter (q : Quad) (f : Ductus → Ductus) : (updDuctus s q f).blotter = s.blotter := rfl
@[simp] theorem updDuctus_errors (q : Quad) (f : Ductus → Ductus) : (updDuctus s q f).errors = s.errors := rfl
@[simp] theorem updDuctus_timeBase (q : Quad) (f : Ductus → Ductus) : (updDuctus s q f).timeBase = s.timeBase := rfl
@[simp] theorem updDuctus_telemetry (q : Quad) (f : Ductus → Ductus) : (updDuctus s q f).telemetry = s.telemetry := rfl
@[simp] theorem updDuctus_staleNotes (q : Quad) (f : Ductus → Ductus) : (updDuctus s q f).staleNotes = s.staleNotes := rfl
@[simp] theorem updDuctus_ports (q : Quad) (f : Ductus → Ductus) : (updDuctus s q f).ports = s.ports := rfl
@[simp] theorem updDuctus_parts (q : Quad) (f : Ductus → Ductus) : (updDuctus s q f).parts = s.parts := rfl
@[simp] theorem updDuctus_mgmt (q : Quad) (f : Ductus → Ductus) : (updDuctus s q f).mgmt = s.mgmt := rfl
@[simp] theorem updDuctus_cmds (q : Quad) (f : Ductus → Ductus) : (updDuctus s q f).cmds = s.cmds := rfl
@[simp] theorem updDuctus_longs (q : Quad) (f : Ductus → Ductus) : (updDuctus s q f).longs = s.longs := rfl
@[simp] theorem updDuctus_folios (q : Quad) (f : Ductus → Ductus) : (updDuctus s q f).folios = s.folios := rfl
@[simp] theorem updDuctus_pairings (q : Quad) (f : Ductus → Ductus) : (updDuctus s q f).pairings = s.pairings := rfl
@[simp] theorem updDuctus_pairWaits (q : Quad) (f : Ductus → Ductus) : (updDuctus s q f).pairWaits = s.pairWaits := rfl
@[simp] theorem updDuctus_fillers (q : Quad) (f : Ductus → Ductus) : (updDuctus s q f).fillers = s.fillers := rfl
@[simp] theorem updDuctus_copies (q : Quad) (f : Ductus → Ductus) : (updDuctus s q f).copies = s.copies := rfl
@[simp] theorem updDuctus_mem (q : Quad) (f : Ductus → Ductus) : (updDuctus s q f).mem = s.mem := rfl
@[simp] theorem updDuctus_shadows (q : Quad) (f : Ductus → Ductus) : (updDuctus s q f).shadows = s.shadows := rfl
@[simp] theorem updDuctus_seqs (q : Quad) (f : Ductus → Ductus) : (updDuctus s q f).seqs = s.seqs := rfl
@[simp] theorem updDuctus_ductus (q : Quad) (f : Ductus → Ductus) : (updDuctus s q f).ductus = s.ductus.set q (f s.ductus[q]) := rfl
@[simp] theorem updDuctus_ligature (q : Quad) (f : Ductus → Ductus) : (updDuctus s q f).ligature = s.ligature := rfl
@[simp] theorem updDuctus_gatherQ (q : Quad) (f : Ductus → Ductus) : (updDuctus s q f).gatherQ = s.gatherQ := rfl
@[simp] theorem updDuctus_fabric (q : Quad) (f : Ductus → Ductus) : (updDuctus s q f).fabric = s.fabric := rfl
@[simp] theorem updDuctus_router (q : Quad) (f : Ductus → Ductus) : (updDuctus s q f).router = s.router := rfl
@[simp] theorem updDuctus_inbox (q : Quad) (f : Ductus → Ductus) : (updDuctus s q f).inbox = s.inbox := rfl
@[simp] theorem updDuctus_lineQueues (q : Quad) (f : Ductus → Ductus) : (updDuctus s q f).lineQueues = s.lineQueues := rfl
@[simp] theorem updDuctus_ledger (q : Quad) (f : Ductus → Ductus) : (updDuctus s q f).ledger = s.ledger := rfl
@[simp] theorem updDuctus_windows (q : Quad) (f : Ductus → Ductus) : (updDuctus s q f).windows = s.windows := rfl
@[simp] theorem updDuctus_trackers (q : Quad) (f : Ductus → Ductus) : (updDuctus s q f).trackers = s.trackers := rfl
@[simp] theorem updDuctus_threads (q : Quad) (f : Ductus → Ductus) : (updDuctus s q f).threads = s.threads := rfl
@[simp] theorem updDuctus_lastIssued (q : Quad) (f : Ductus → Ductus) : (updDuctus s q f).lastIssued = s.lastIssued := rfl
@[simp] theorem updDuctus_lastServed (q : Quad) (f : Ductus → Ductus) : (updDuctus s q f).lastServed = s.lastServed := rfl
@[simp] theorem updDuctus_tokens (q : Quad) (f : Ductus → Ductus) : (updDuctus s q f).tokens = s.tokens := rfl
@[simp] theorem updDuctus_waits (q : Quad) (f : Ductus → Ductus) : (updDuctus s q f).waits = s.waits := rfl
@[simp] theorem updDuctus_reservoirs (q : Quad) (f : Ductus → Ductus) : (updDuctus s q f).reservoirs = s.reservoirs := rfl
@[simp] theorem updDuctus_pulls (q : Quad) (f : Ductus → Ductus) : (updDuctus s q f).pulls = s.pulls := rfl
@[simp] theorem updDuctus_debugWrites (q : Quad) (f : Ductus → Ductus) : (updDuctus s q f).debugWrites = s.debugWrites := rfl
@[simp] theorem updDuctus_scrub (q : Quad) (f : Ductus → Ductus) : (updDuctus s q f).scrub = s.scrub := rfl
@[simp] theorem updDuctus_bridge (q : Quad) (f : Ductus → Ductus) : (updDuctus s q f).bridge = s.bridge := rfl
@[simp] theorem updDuctus_nextUid (q : Quad) (f : Ductus → Ductus) : (updDuctus s q f).nextUid = s.nextUid := rfl
@[simp] theorem updDuctus_fresh (q : Quad) (f : Ductus → Ductus) : (updDuctus s q f).fresh = s.fresh := rfl
@[simp] theorem updDuctus_pending (q : Quad) (f : Ductus → Ductus) : (updDuctus s q f).pending = s.pending := rfl

@[simp] theorem updLig_pins (e : Engine) (f : Ligature → Ligature) : (updLig s e f).pins = s.pins := rfl
@[simp] theorem updLig_silicon (e : Engine) (f : Ligature → Ligature) : (updLig s e f).silicon = s.silicon := rfl
@[simp] theorem updLig_boot (e : Engine) (f : Ligature → Ligature) : (updLig s e f).boot = s.boot := rfl
@[simp] theorem updLig_power (e : Engine) (f : Ligature → Ligature) : (updLig s e f).power = s.power := rfl
@[simp] theorem updLig_settings (e : Engine) (f : Ligature → Ligature) : (updLig s e f).settings = s.settings := rfl
@[simp] theorem updLig_regions (e : Engine) (f : Ligature → Ligature) : (updLig s e f).regions = s.regions := rfl
@[simp] theorem updLig_blotter (e : Engine) (f : Ligature → Ligature) : (updLig s e f).blotter = s.blotter := rfl
@[simp] theorem updLig_errors (e : Engine) (f : Ligature → Ligature) : (updLig s e f).errors = s.errors := rfl
@[simp] theorem updLig_timeBase (e : Engine) (f : Ligature → Ligature) : (updLig s e f).timeBase = s.timeBase := rfl
@[simp] theorem updLig_telemetry (e : Engine) (f : Ligature → Ligature) : (updLig s e f).telemetry = s.telemetry := rfl
@[simp] theorem updLig_staleNotes (e : Engine) (f : Ligature → Ligature) : (updLig s e f).staleNotes = s.staleNotes := rfl
@[simp] theorem updLig_ports (e : Engine) (f : Ligature → Ligature) : (updLig s e f).ports = s.ports := rfl
@[simp] theorem updLig_parts (e : Engine) (f : Ligature → Ligature) : (updLig s e f).parts = s.parts := rfl
@[simp] theorem updLig_mgmt (e : Engine) (f : Ligature → Ligature) : (updLig s e f).mgmt = s.mgmt := rfl
@[simp] theorem updLig_cmds (e : Engine) (f : Ligature → Ligature) : (updLig s e f).cmds = s.cmds := rfl
@[simp] theorem updLig_longs (e : Engine) (f : Ligature → Ligature) : (updLig s e f).longs = s.longs := rfl
@[simp] theorem updLig_folios (e : Engine) (f : Ligature → Ligature) : (updLig s e f).folios = s.folios := rfl
@[simp] theorem updLig_pairings (e : Engine) (f : Ligature → Ligature) : (updLig s e f).pairings = s.pairings := rfl
@[simp] theorem updLig_pairWaits (e : Engine) (f : Ligature → Ligature) : (updLig s e f).pairWaits = s.pairWaits := rfl
@[simp] theorem updLig_fillers (e : Engine) (f : Ligature → Ligature) : (updLig s e f).fillers = s.fillers := rfl
@[simp] theorem updLig_copies (e : Engine) (f : Ligature → Ligature) : (updLig s e f).copies = s.copies := rfl
@[simp] theorem updLig_mem (e : Engine) (f : Ligature → Ligature) : (updLig s e f).mem = s.mem := rfl
@[simp] theorem updLig_shadows (e : Engine) (f : Ligature → Ligature) : (updLig s e f).shadows = s.shadows := rfl
@[simp] theorem updLig_seqs (e : Engine) (f : Ligature → Ligature) : (updLig s e f).seqs = s.seqs := rfl
@[simp] theorem updLig_ductus (e : Engine) (f : Ligature → Ligature) : (updLig s e f).ductus = s.ductus := rfl
@[simp] theorem updLig_ligature (e : Engine) (f : Ligature → Ligature) : (updLig s e f).ligature = s.ligature.set e (f s.ligature[e]) := rfl
@[simp] theorem updLig_gatherQ (e : Engine) (f : Ligature → Ligature) : (updLig s e f).gatherQ = s.gatherQ := rfl
@[simp] theorem updLig_fabric (e : Engine) (f : Ligature → Ligature) : (updLig s e f).fabric = s.fabric := rfl
@[simp] theorem updLig_router (e : Engine) (f : Ligature → Ligature) : (updLig s e f).router = s.router := rfl
@[simp] theorem updLig_inbox (e : Engine) (f : Ligature → Ligature) : (updLig s e f).inbox = s.inbox := rfl
@[simp] theorem updLig_lineQueues (e : Engine) (f : Ligature → Ligature) : (updLig s e f).lineQueues = s.lineQueues := rfl
@[simp] theorem updLig_ledger (e : Engine) (f : Ligature → Ligature) : (updLig s e f).ledger = s.ledger := rfl
@[simp] theorem updLig_windows (e : Engine) (f : Ligature → Ligature) : (updLig s e f).windows = s.windows := rfl
@[simp] theorem updLig_trackers (e : Engine) (f : Ligature → Ligature) : (updLig s e f).trackers = s.trackers := rfl
@[simp] theorem updLig_threads (e : Engine) (f : Ligature → Ligature) : (updLig s e f).threads = s.threads := rfl
@[simp] theorem updLig_lastIssued (e : Engine) (f : Ligature → Ligature) : (updLig s e f).lastIssued = s.lastIssued := rfl
@[simp] theorem updLig_lastServed (e : Engine) (f : Ligature → Ligature) : (updLig s e f).lastServed = s.lastServed := rfl
@[simp] theorem updLig_tokens (e : Engine) (f : Ligature → Ligature) : (updLig s e f).tokens = s.tokens := rfl
@[simp] theorem updLig_waits (e : Engine) (f : Ligature → Ligature) : (updLig s e f).waits = s.waits := rfl
@[simp] theorem updLig_reservoirs (e : Engine) (f : Ligature → Ligature) : (updLig s e f).reservoirs = s.reservoirs := rfl
@[simp] theorem updLig_pulls (e : Engine) (f : Ligature → Ligature) : (updLig s e f).pulls = s.pulls := rfl
@[simp] theorem updLig_debugWrites (e : Engine) (f : Ligature → Ligature) : (updLig s e f).debugWrites = s.debugWrites := rfl
@[simp] theorem updLig_scrub (e : Engine) (f : Ligature → Ligature) : (updLig s e f).scrub = s.scrub := rfl
@[simp] theorem updLig_bridge (e : Engine) (f : Ligature → Ligature) : (updLig s e f).bridge = s.bridge := rfl
@[simp] theorem updLig_nextUid (e : Engine) (f : Ligature → Ligature) : (updLig s e f).nextUid = s.nextUid := rfl
@[simp] theorem updLig_fresh (e : Engine) (f : Ligature → Ligature) : (updLig s e f).fresh = s.fresh := rfl
@[simp] theorem updLig_pending (e : Engine) (f : Ligature → Ligature) : (updLig s e f).pending = s.pending := rfl

@[simp] theorem updFabric_pins (p : FPort) (f : FabricPort → FabricPort) : (updFabric s p f).pins = s.pins := rfl
@[simp] theorem updFabric_silicon (p : FPort) (f : FabricPort → FabricPort) : (updFabric s p f).silicon = s.silicon := rfl
@[simp] theorem updFabric_boot (p : FPort) (f : FabricPort → FabricPort) : (updFabric s p f).boot = s.boot := rfl
@[simp] theorem updFabric_power (p : FPort) (f : FabricPort → FabricPort) : (updFabric s p f).power = s.power := rfl
@[simp] theorem updFabric_settings (p : FPort) (f : FabricPort → FabricPort) : (updFabric s p f).settings = s.settings := rfl
@[simp] theorem updFabric_regions (p : FPort) (f : FabricPort → FabricPort) : (updFabric s p f).regions = s.regions := rfl
@[simp] theorem updFabric_blotter (p : FPort) (f : FabricPort → FabricPort) : (updFabric s p f).blotter = s.blotter := rfl
@[simp] theorem updFabric_errors (p : FPort) (f : FabricPort → FabricPort) : (updFabric s p f).errors = s.errors := rfl
@[simp] theorem updFabric_timeBase (p : FPort) (f : FabricPort → FabricPort) : (updFabric s p f).timeBase = s.timeBase := rfl
@[simp] theorem updFabric_telemetry (p : FPort) (f : FabricPort → FabricPort) : (updFabric s p f).telemetry = s.telemetry := rfl
@[simp] theorem updFabric_staleNotes (p : FPort) (f : FabricPort → FabricPort) : (updFabric s p f).staleNotes = s.staleNotes := rfl
@[simp] theorem updFabric_ports (p : FPort) (f : FabricPort → FabricPort) : (updFabric s p f).ports = s.ports := rfl
@[simp] theorem updFabric_parts (p : FPort) (f : FabricPort → FabricPort) : (updFabric s p f).parts = s.parts := rfl
@[simp] theorem updFabric_mgmt (p : FPort) (f : FabricPort → FabricPort) : (updFabric s p f).mgmt = s.mgmt := rfl
@[simp] theorem updFabric_cmds (p : FPort) (f : FabricPort → FabricPort) : (updFabric s p f).cmds = s.cmds := rfl
@[simp] theorem updFabric_longs (p : FPort) (f : FabricPort → FabricPort) : (updFabric s p f).longs = s.longs := rfl
@[simp] theorem updFabric_folios (p : FPort) (f : FabricPort → FabricPort) : (updFabric s p f).folios = s.folios := rfl
@[simp] theorem updFabric_pairings (p : FPort) (f : FabricPort → FabricPort) : (updFabric s p f).pairings = s.pairings := rfl
@[simp] theorem updFabric_pairWaits (p : FPort) (f : FabricPort → FabricPort) : (updFabric s p f).pairWaits = s.pairWaits := rfl
@[simp] theorem updFabric_fillers (p : FPort) (f : FabricPort → FabricPort) : (updFabric s p f).fillers = s.fillers := rfl
@[simp] theorem updFabric_copies (p : FPort) (f : FabricPort → FabricPort) : (updFabric s p f).copies = s.copies := rfl
@[simp] theorem updFabric_mem (p : FPort) (f : FabricPort → FabricPort) : (updFabric s p f).mem = s.mem := rfl
@[simp] theorem updFabric_shadows (p : FPort) (f : FabricPort → FabricPort) : (updFabric s p f).shadows = s.shadows := rfl
@[simp] theorem updFabric_seqs (p : FPort) (f : FabricPort → FabricPort) : (updFabric s p f).seqs = s.seqs := rfl
@[simp] theorem updFabric_ductus (p : FPort) (f : FabricPort → FabricPort) : (updFabric s p f).ductus = s.ductus := rfl
@[simp] theorem updFabric_ligature (p : FPort) (f : FabricPort → FabricPort) : (updFabric s p f).ligature = s.ligature := rfl
@[simp] theorem updFabric_gatherQ (p : FPort) (f : FabricPort → FabricPort) : (updFabric s p f).gatherQ = s.gatherQ := rfl
@[simp] theorem updFabric_fabric (p : FPort) (f : FabricPort → FabricPort) : (updFabric s p f).fabric = s.fabric.set p (f s.fabric[p]) := rfl
@[simp] theorem updFabric_router (p : FPort) (f : FabricPort → FabricPort) : (updFabric s p f).router = s.router := rfl
@[simp] theorem updFabric_inbox (p : FPort) (f : FabricPort → FabricPort) : (updFabric s p f).inbox = s.inbox := rfl
@[simp] theorem updFabric_lineQueues (p : FPort) (f : FabricPort → FabricPort) : (updFabric s p f).lineQueues = s.lineQueues := rfl
@[simp] theorem updFabric_ledger (p : FPort) (f : FabricPort → FabricPort) : (updFabric s p f).ledger = s.ledger := rfl
@[simp] theorem updFabric_windows (p : FPort) (f : FabricPort → FabricPort) : (updFabric s p f).windows = s.windows := rfl
@[simp] theorem updFabric_trackers (p : FPort) (f : FabricPort → FabricPort) : (updFabric s p f).trackers = s.trackers := rfl
@[simp] theorem updFabric_threads (p : FPort) (f : FabricPort → FabricPort) : (updFabric s p f).threads = s.threads := rfl
@[simp] theorem updFabric_lastIssued (p : FPort) (f : FabricPort → FabricPort) : (updFabric s p f).lastIssued = s.lastIssued := rfl
@[simp] theorem updFabric_lastServed (p : FPort) (f : FabricPort → FabricPort) : (updFabric s p f).lastServed = s.lastServed := rfl
@[simp] theorem updFabric_tokens (p : FPort) (f : FabricPort → FabricPort) : (updFabric s p f).tokens = s.tokens := rfl
@[simp] theorem updFabric_waits (p : FPort) (f : FabricPort → FabricPort) : (updFabric s p f).waits = s.waits := rfl
@[simp] theorem updFabric_reservoirs (p : FPort) (f : FabricPort → FabricPort) : (updFabric s p f).reservoirs = s.reservoirs := rfl
@[simp] theorem updFabric_pulls (p : FPort) (f : FabricPort → FabricPort) : (updFabric s p f).pulls = s.pulls := rfl
@[simp] theorem updFabric_debugWrites (p : FPort) (f : FabricPort → FabricPort) : (updFabric s p f).debugWrites = s.debugWrites := rfl
@[simp] theorem updFabric_scrub (p : FPort) (f : FabricPort → FabricPort) : (updFabric s p f).scrub = s.scrub := rfl
@[simp] theorem updFabric_bridge (p : FPort) (f : FabricPort → FabricPort) : (updFabric s p f).bridge = s.bridge := rfl
@[simp] theorem updFabric_nextUid (p : FPort) (f : FabricPort → FabricPort) : (updFabric s p f).nextUid = s.nextUid := rfl
@[simp] theorem updFabric_fresh (p : FPort) (f : FabricPort → FabricPort) : (updFabric s p f).fresh = s.fresh := rfl
@[simp] theorem updFabric_pending (p : FPort) (f : FabricPort → FabricPort) : (updFabric s p f).pending = s.pending := rfl

@[simp] theorem updRouter_pins (f : Router → Router) : (updRouter s f).pins = s.pins := rfl
@[simp] theorem updRouter_silicon (f : Router → Router) : (updRouter s f).silicon = s.silicon := rfl
@[simp] theorem updRouter_boot (f : Router → Router) : (updRouter s f).boot = s.boot := rfl
@[simp] theorem updRouter_power (f : Router → Router) : (updRouter s f).power = s.power := rfl
@[simp] theorem updRouter_settings (f : Router → Router) : (updRouter s f).settings = s.settings := rfl
@[simp] theorem updRouter_regions (f : Router → Router) : (updRouter s f).regions = s.regions := rfl
@[simp] theorem updRouter_blotter (f : Router → Router) : (updRouter s f).blotter = s.blotter := rfl
@[simp] theorem updRouter_errors (f : Router → Router) : (updRouter s f).errors = s.errors := rfl
@[simp] theorem updRouter_timeBase (f : Router → Router) : (updRouter s f).timeBase = s.timeBase := rfl
@[simp] theorem updRouter_telemetry (f : Router → Router) : (updRouter s f).telemetry = s.telemetry := rfl
@[simp] theorem updRouter_staleNotes (f : Router → Router) : (updRouter s f).staleNotes = s.staleNotes := rfl
@[simp] theorem updRouter_ports (f : Router → Router) : (updRouter s f).ports = s.ports := rfl
@[simp] theorem updRouter_parts (f : Router → Router) : (updRouter s f).parts = s.parts := rfl
@[simp] theorem updRouter_mgmt (f : Router → Router) : (updRouter s f).mgmt = s.mgmt := rfl
@[simp] theorem updRouter_cmds (f : Router → Router) : (updRouter s f).cmds = s.cmds := rfl
@[simp] theorem updRouter_longs (f : Router → Router) : (updRouter s f).longs = s.longs := rfl
@[simp] theorem updRouter_folios (f : Router → Router) : (updRouter s f).folios = s.folios := rfl
@[simp] theorem updRouter_pairings (f : Router → Router) : (updRouter s f).pairings = s.pairings := rfl
@[simp] theorem updRouter_pairWaits (f : Router → Router) : (updRouter s f).pairWaits = s.pairWaits := rfl
@[simp] theorem updRouter_fillers (f : Router → Router) : (updRouter s f).fillers = s.fillers := rfl
@[simp] theorem updRouter_copies (f : Router → Router) : (updRouter s f).copies = s.copies := rfl
@[simp] theorem updRouter_mem (f : Router → Router) : (updRouter s f).mem = s.mem := rfl
@[simp] theorem updRouter_shadows (f : Router → Router) : (updRouter s f).shadows = s.shadows := rfl
@[simp] theorem updRouter_seqs (f : Router → Router) : (updRouter s f).seqs = s.seqs := rfl
@[simp] theorem updRouter_ductus (f : Router → Router) : (updRouter s f).ductus = s.ductus := rfl
@[simp] theorem updRouter_ligature (f : Router → Router) : (updRouter s f).ligature = s.ligature := rfl
@[simp] theorem updRouter_gatherQ (f : Router → Router) : (updRouter s f).gatherQ = s.gatherQ := rfl
@[simp] theorem updRouter_fabric (f : Router → Router) : (updRouter s f).fabric = s.fabric := rfl
@[simp] theorem updRouter_router (f : Router → Router) : (updRouter s f).router = f s.router := rfl
@[simp] theorem updRouter_inbox (f : Router → Router) : (updRouter s f).inbox = s.inbox := rfl
@[simp] theorem updRouter_lineQueues (f : Router → Router) : (updRouter s f).lineQueues = s.lineQueues := rfl
@[simp] theorem updRouter_ledger (f : Router → Router) : (updRouter s f).ledger = s.ledger := rfl
@[simp] theorem updRouter_windows (f : Router → Router) : (updRouter s f).windows = s.windows := rfl
@[simp] theorem updRouter_trackers (f : Router → Router) : (updRouter s f).trackers = s.trackers := rfl
@[simp] theorem updRouter_threads (f : Router → Router) : (updRouter s f).threads = s.threads := rfl
@[simp] theorem updRouter_lastIssued (f : Router → Router) : (updRouter s f).lastIssued = s.lastIssued := rfl
@[simp] theorem updRouter_lastServed (f : Router → Router) : (updRouter s f).lastServed = s.lastServed := rfl
@[simp] theorem updRouter_tokens (f : Router → Router) : (updRouter s f).tokens = s.tokens := rfl
@[simp] theorem updRouter_waits (f : Router → Router) : (updRouter s f).waits = s.waits := rfl
@[simp] theorem updRouter_reservoirs (f : Router → Router) : (updRouter s f).reservoirs = s.reservoirs := rfl
@[simp] theorem updRouter_pulls (f : Router → Router) : (updRouter s f).pulls = s.pulls := rfl
@[simp] theorem updRouter_debugWrites (f : Router → Router) : (updRouter s f).debugWrites = s.debugWrites := rfl
@[simp] theorem updRouter_scrub (f : Router → Router) : (updRouter s f).scrub = s.scrub := rfl
@[simp] theorem updRouter_bridge (f : Router → Router) : (updRouter s f).bridge = s.bridge := rfl
@[simp] theorem updRouter_nextUid (f : Router → Router) : (updRouter s f).nextUid = s.nextUid := rfl
@[simp] theorem updRouter_fresh (f : Router → Router) : (updRouter s f).fresh = s.fresh := rfl
@[simp] theorem updRouter_pending (f : Router → Router) : (updRouter s f).pending = s.pending := rfl

@[simp] theorem updRegion_pins (g : Fin 72) (f : Region → Region) : (updRegion s g f).pins = s.pins := rfl
@[simp] theorem updRegion_silicon (g : Fin 72) (f : Region → Region) : (updRegion s g f).silicon = s.silicon := rfl
@[simp] theorem updRegion_boot (g : Fin 72) (f : Region → Region) : (updRegion s g f).boot = s.boot := rfl
@[simp] theorem updRegion_power (g : Fin 72) (f : Region → Region) : (updRegion s g f).power = s.power := rfl
@[simp] theorem updRegion_settings (g : Fin 72) (f : Region → Region) : (updRegion s g f).settings = s.settings := rfl
@[simp] theorem updRegion_regions (g : Fin 72) (f : Region → Region) : (updRegion s g f).regions = s.regions.set g (f s.regions[g]) := rfl
@[simp] theorem updRegion_blotter (g : Fin 72) (f : Region → Region) : (updRegion s g f).blotter = s.blotter := rfl
@[simp] theorem updRegion_errors (g : Fin 72) (f : Region → Region) : (updRegion s g f).errors = s.errors := rfl
@[simp] theorem updRegion_timeBase (g : Fin 72) (f : Region → Region) : (updRegion s g f).timeBase = s.timeBase := rfl
@[simp] theorem updRegion_telemetry (g : Fin 72) (f : Region → Region) : (updRegion s g f).telemetry = s.telemetry := rfl
@[simp] theorem updRegion_staleNotes (g : Fin 72) (f : Region → Region) : (updRegion s g f).staleNotes = s.staleNotes := rfl
@[simp] theorem updRegion_ports (g : Fin 72) (f : Region → Region) : (updRegion s g f).ports = s.ports := rfl
@[simp] theorem updRegion_parts (g : Fin 72) (f : Region → Region) : (updRegion s g f).parts = s.parts := rfl
@[simp] theorem updRegion_mgmt (g : Fin 72) (f : Region → Region) : (updRegion s g f).mgmt = s.mgmt := rfl
@[simp] theorem updRegion_cmds (g : Fin 72) (f : Region → Region) : (updRegion s g f).cmds = s.cmds := rfl
@[simp] theorem updRegion_longs (g : Fin 72) (f : Region → Region) : (updRegion s g f).longs = s.longs := rfl
@[simp] theorem updRegion_folios (g : Fin 72) (f : Region → Region) : (updRegion s g f).folios = s.folios := rfl
@[simp] theorem updRegion_pairings (g : Fin 72) (f : Region → Region) : (updRegion s g f).pairings = s.pairings := rfl
@[simp] theorem updRegion_pairWaits (g : Fin 72) (f : Region → Region) : (updRegion s g f).pairWaits = s.pairWaits := rfl
@[simp] theorem updRegion_fillers (g : Fin 72) (f : Region → Region) : (updRegion s g f).fillers = s.fillers := rfl
@[simp] theorem updRegion_copies (g : Fin 72) (f : Region → Region) : (updRegion s g f).copies = s.copies := rfl
@[simp] theorem updRegion_mem (g : Fin 72) (f : Region → Region) : (updRegion s g f).mem = s.mem := rfl
@[simp] theorem updRegion_shadows (g : Fin 72) (f : Region → Region) : (updRegion s g f).shadows = s.shadows := rfl
@[simp] theorem updRegion_seqs (g : Fin 72) (f : Region → Region) : (updRegion s g f).seqs = s.seqs := rfl
@[simp] theorem updRegion_ductus (g : Fin 72) (f : Region → Region) : (updRegion s g f).ductus = s.ductus := rfl
@[simp] theorem updRegion_ligature (g : Fin 72) (f : Region → Region) : (updRegion s g f).ligature = s.ligature := rfl
@[simp] theorem updRegion_gatherQ (g : Fin 72) (f : Region → Region) : (updRegion s g f).gatherQ = s.gatherQ := rfl
@[simp] theorem updRegion_fabric (g : Fin 72) (f : Region → Region) : (updRegion s g f).fabric = s.fabric := rfl
@[simp] theorem updRegion_router (g : Fin 72) (f : Region → Region) : (updRegion s g f).router = s.router := rfl
@[simp] theorem updRegion_inbox (g : Fin 72) (f : Region → Region) : (updRegion s g f).inbox = s.inbox := rfl
@[simp] theorem updRegion_lineQueues (g : Fin 72) (f : Region → Region) : (updRegion s g f).lineQueues = s.lineQueues := rfl
@[simp] theorem updRegion_ledger (g : Fin 72) (f : Region → Region) : (updRegion s g f).ledger = s.ledger := rfl
@[simp] theorem updRegion_windows (g : Fin 72) (f : Region → Region) : (updRegion s g f).windows = s.windows := rfl
@[simp] theorem updRegion_trackers (g : Fin 72) (f : Region → Region) : (updRegion s g f).trackers = s.trackers := rfl
@[simp] theorem updRegion_threads (g : Fin 72) (f : Region → Region) : (updRegion s g f).threads = s.threads := rfl
@[simp] theorem updRegion_lastIssued (g : Fin 72) (f : Region → Region) : (updRegion s g f).lastIssued = s.lastIssued := rfl
@[simp] theorem updRegion_lastServed (g : Fin 72) (f : Region → Region) : (updRegion s g f).lastServed = s.lastServed := rfl
@[simp] theorem updRegion_tokens (g : Fin 72) (f : Region → Region) : (updRegion s g f).tokens = s.tokens := rfl
@[simp] theorem updRegion_waits (g : Fin 72) (f : Region → Region) : (updRegion s g f).waits = s.waits := rfl
@[simp] theorem updRegion_reservoirs (g : Fin 72) (f : Region → Region) : (updRegion s g f).reservoirs = s.reservoirs := rfl
@[simp] theorem updRegion_pulls (g : Fin 72) (f : Region → Region) : (updRegion s g f).pulls = s.pulls := rfl
@[simp] theorem updRegion_debugWrites (g : Fin 72) (f : Region → Region) : (updRegion s g f).debugWrites = s.debugWrites := rfl
@[simp] theorem updRegion_scrub (g : Fin 72) (f : Region → Region) : (updRegion s g f).scrub = s.scrub := rfl
@[simp] theorem updRegion_bridge (g : Fin 72) (f : Region → Region) : (updRegion s g f).bridge = s.bridge := rfl
@[simp] theorem updRegion_nextUid (g : Fin 72) (f : Region → Region) : (updRegion s g f).nextUid = s.nextUid := rfl
@[simp] theorem updRegion_fresh (g : Fin 72) (f : Region → Region) : (updRegion s g f).fresh = s.fresh := rfl
@[simp] theorem updRegion_pending (g : Fin 72) (f : Region → Region) : (updRegion s g f).pending = s.pending := rfl

@[simp] theorem updMem_pins (f : Memory → Memory) : (updMem s f).pins = s.pins := rfl
@[simp] theorem updMem_silicon (f : Memory → Memory) : (updMem s f).silicon = s.silicon := rfl
@[simp] theorem updMem_boot (f : Memory → Memory) : (updMem s f).boot = s.boot := rfl
@[simp] theorem updMem_power (f : Memory → Memory) : (updMem s f).power = s.power := rfl
@[simp] theorem updMem_settings (f : Memory → Memory) : (updMem s f).settings = s.settings := rfl
@[simp] theorem updMem_regions (f : Memory → Memory) : (updMem s f).regions = s.regions := rfl
@[simp] theorem updMem_blotter (f : Memory → Memory) : (updMem s f).blotter = s.blotter := rfl
@[simp] theorem updMem_errors (f : Memory → Memory) : (updMem s f).errors = s.errors := rfl
@[simp] theorem updMem_timeBase (f : Memory → Memory) : (updMem s f).timeBase = s.timeBase := rfl
@[simp] theorem updMem_telemetry (f : Memory → Memory) : (updMem s f).telemetry = s.telemetry := rfl
@[simp] theorem updMem_staleNotes (f : Memory → Memory) : (updMem s f).staleNotes = s.staleNotes := rfl
@[simp] theorem updMem_ports (f : Memory → Memory) : (updMem s f).ports = s.ports := rfl
@[simp] theorem updMem_parts (f : Memory → Memory) : (updMem s f).parts = s.parts := rfl
@[simp] theorem updMem_mgmt (f : Memory → Memory) : (updMem s f).mgmt = s.mgmt := rfl
@[simp] theorem updMem_cmds (f : Memory → Memory) : (updMem s f).cmds = s.cmds := rfl
@[simp] theorem updMem_longs (f : Memory → Memory) : (updMem s f).longs = s.longs := rfl
@[simp] theorem updMem_folios (f : Memory → Memory) : (updMem s f).folios = s.folios := rfl
@[simp] theorem updMem_pairings (f : Memory → Memory) : (updMem s f).pairings = s.pairings := rfl
@[simp] theorem updMem_pairWaits (f : Memory → Memory) : (updMem s f).pairWaits = s.pairWaits := rfl
@[simp] theorem updMem_fillers (f : Memory → Memory) : (updMem s f).fillers = s.fillers := rfl
@[simp] theorem updMem_copies (f : Memory → Memory) : (updMem s f).copies = s.copies := rfl
@[simp] theorem updMem_mem (f : Memory → Memory) : (updMem s f).mem = f s.mem := rfl
@[simp] theorem updMem_shadows (f : Memory → Memory) : (updMem s f).shadows = s.shadows := rfl
@[simp] theorem updMem_seqs (f : Memory → Memory) : (updMem s f).seqs = s.seqs := rfl
@[simp] theorem updMem_ductus (f : Memory → Memory) : (updMem s f).ductus = s.ductus := rfl
@[simp] theorem updMem_ligature (f : Memory → Memory) : (updMem s f).ligature = s.ligature := rfl
@[simp] theorem updMem_gatherQ (f : Memory → Memory) : (updMem s f).gatherQ = s.gatherQ := rfl
@[simp] theorem updMem_fabric (f : Memory → Memory) : (updMem s f).fabric = s.fabric := rfl
@[simp] theorem updMem_router (f : Memory → Memory) : (updMem s f).router = s.router := rfl
@[simp] theorem updMem_inbox (f : Memory → Memory) : (updMem s f).inbox = s.inbox := rfl
@[simp] theorem updMem_lineQueues (f : Memory → Memory) : (updMem s f).lineQueues = s.lineQueues := rfl
@[simp] theorem updMem_ledger (f : Memory → Memory) : (updMem s f).ledger = s.ledger := rfl
@[simp] theorem updMem_windows (f : Memory → Memory) : (updMem s f).windows = s.windows := rfl
@[simp] theorem updMem_trackers (f : Memory → Memory) : (updMem s f).trackers = s.trackers := rfl
@[simp] theorem updMem_threads (f : Memory → Memory) : (updMem s f).threads = s.threads := rfl
@[simp] theorem updMem_lastIssued (f : Memory → Memory) : (updMem s f).lastIssued = s.lastIssued := rfl
@[simp] theorem updMem_lastServed (f : Memory → Memory) : (updMem s f).lastServed = s.lastServed := rfl
@[simp] theorem updMem_tokens (f : Memory → Memory) : (updMem s f).tokens = s.tokens := rfl
@[simp] theorem updMem_waits (f : Memory → Memory) : (updMem s f).waits = s.waits := rfl
@[simp] theorem updMem_reservoirs (f : Memory → Memory) : (updMem s f).reservoirs = s.reservoirs := rfl
@[simp] theorem updMem_pulls (f : Memory → Memory) : (updMem s f).pulls = s.pulls := rfl
@[simp] theorem updMem_debugWrites (f : Memory → Memory) : (updMem s f).debugWrites = s.debugWrites := rfl
@[simp] theorem updMem_scrub (f : Memory → Memory) : (updMem s f).scrub = s.scrub := rfl
@[simp] theorem updMem_bridge (f : Memory → Memory) : (updMem s f).bridge = s.bridge := rfl
@[simp] theorem updMem_nextUid (f : Memory → Memory) : (updMem s f).nextUid = s.nextUid := rfl
@[simp] theorem updMem_fresh (f : Memory → Memory) : (updMem s f).fresh = s.fresh := rfl
@[simp] theorem updMem_pending (f : Memory → Memory) : (updMem s f).pending = s.pending := rfl

@[simp] theorem updHost_pins (p : Port) (f : Memory → Memory) : (updHost s p f).pins = s.pins := rfl
@[simp] theorem updHost_silicon (p : Port) (f : Memory → Memory) : (updHost s p f).silicon = s.silicon := rfl
@[simp] theorem updHost_boot (p : Port) (f : Memory → Memory) : (updHost s p f).boot = s.boot := rfl
@[simp] theorem updHost_power (p : Port) (f : Memory → Memory) : (updHost s p f).power = s.power := rfl
@[simp] theorem updHost_settings (p : Port) (f : Memory → Memory) : (updHost s p f).settings = s.settings := rfl
@[simp] theorem updHost_regions (p : Port) (f : Memory → Memory) : (updHost s p f).regions = s.regions := rfl
@[simp] theorem updHost_blotter (p : Port) (f : Memory → Memory) : (updHost s p f).blotter = s.blotter := rfl
@[simp] theorem updHost_errors (p : Port) (f : Memory → Memory) : (updHost s p f).errors = s.errors := rfl
@[simp] theorem updHost_timeBase (p : Port) (f : Memory → Memory) : (updHost s p f).timeBase = s.timeBase := rfl
@[simp] theorem updHost_telemetry (p : Port) (f : Memory → Memory) : (updHost s p f).telemetry = s.telemetry := rfl
@[simp] theorem updHost_staleNotes (p : Port) (f : Memory → Memory) : (updHost s p f).staleNotes = s.staleNotes := rfl
@[simp] theorem updHost_ports (p : Port) (f : Memory → Memory) : (updHost s p f).ports = s.ports.set p { s.ports[p] with host := f s.ports[p].host } := rfl
@[simp] theorem updHost_parts (p : Port) (f : Memory → Memory) : (updHost s p f).parts = s.parts := rfl
@[simp] theorem updHost_mgmt (p : Port) (f : Memory → Memory) : (updHost s p f).mgmt = s.mgmt := rfl
@[simp] theorem updHost_cmds (p : Port) (f : Memory → Memory) : (updHost s p f).cmds = s.cmds := rfl
@[simp] theorem updHost_longs (p : Port) (f : Memory → Memory) : (updHost s p f).longs = s.longs := rfl
@[simp] theorem updHost_folios (p : Port) (f : Memory → Memory) : (updHost s p f).folios = s.folios := rfl
@[simp] theorem updHost_pairings (p : Port) (f : Memory → Memory) : (updHost s p f).pairings = s.pairings := rfl
@[simp] theorem updHost_pairWaits (p : Port) (f : Memory → Memory) : (updHost s p f).pairWaits = s.pairWaits := rfl
@[simp] theorem updHost_fillers (p : Port) (f : Memory → Memory) : (updHost s p f).fillers = s.fillers := rfl
@[simp] theorem updHost_copies (p : Port) (f : Memory → Memory) : (updHost s p f).copies = s.copies := rfl
@[simp] theorem updHost_mem (p : Port) (f : Memory → Memory) : (updHost s p f).mem = s.mem := rfl
@[simp] theorem updHost_shadows (p : Port) (f : Memory → Memory) : (updHost s p f).shadows = s.shadows := rfl
@[simp] theorem updHost_seqs (p : Port) (f : Memory → Memory) : (updHost s p f).seqs = s.seqs := rfl
@[simp] theorem updHost_ductus (p : Port) (f : Memory → Memory) : (updHost s p f).ductus = s.ductus := rfl
@[simp] theorem updHost_ligature (p : Port) (f : Memory → Memory) : (updHost s p f).ligature = s.ligature := rfl
@[simp] theorem updHost_gatherQ (p : Port) (f : Memory → Memory) : (updHost s p f).gatherQ = s.gatherQ := rfl
@[simp] theorem updHost_fabric (p : Port) (f : Memory → Memory) : (updHost s p f).fabric = s.fabric := rfl
@[simp] theorem updHost_router (p : Port) (f : Memory → Memory) : (updHost s p f).router = s.router := rfl
@[simp] theorem updHost_inbox (p : Port) (f : Memory → Memory) : (updHost s p f).inbox = s.inbox := rfl
@[simp] theorem updHost_lineQueues (p : Port) (f : Memory → Memory) : (updHost s p f).lineQueues = s.lineQueues := rfl
@[simp] theorem updHost_ledger (p : Port) (f : Memory → Memory) : (updHost s p f).ledger = s.ledger := rfl
@[simp] theorem updHost_windows (p : Port) (f : Memory → Memory) : (updHost s p f).windows = s.windows := rfl
@[simp] theorem updHost_trackers (p : Port) (f : Memory → Memory) : (updHost s p f).trackers = s.trackers := rfl
@[simp] theorem updHost_threads (p : Port) (f : Memory → Memory) : (updHost s p f).threads = s.threads := rfl
@[simp] theorem updHost_lastIssued (p : Port) (f : Memory → Memory) : (updHost s p f).lastIssued = s.lastIssued := rfl
@[simp] theorem updHost_lastServed (p : Port) (f : Memory → Memory) : (updHost s p f).lastServed = s.lastServed := rfl
@[simp] theorem updHost_tokens (p : Port) (f : Memory → Memory) : (updHost s p f).tokens = s.tokens := rfl
@[simp] theorem updHost_waits (p : Port) (f : Memory → Memory) : (updHost s p f).waits = s.waits := rfl
@[simp] theorem updHost_reservoirs (p : Port) (f : Memory → Memory) : (updHost s p f).reservoirs = s.reservoirs := rfl
@[simp] theorem updHost_pulls (p : Port) (f : Memory → Memory) : (updHost s p f).pulls = s.pulls := rfl
@[simp] theorem updHost_debugWrites (p : Port) (f : Memory → Memory) : (updHost s p f).debugWrites = s.debugWrites := rfl
@[simp] theorem updHost_scrub (p : Port) (f : Memory → Memory) : (updHost s p f).scrub = s.scrub := rfl
@[simp] theorem updHost_bridge (p : Port) (f : Memory → Memory) : (updHost s p f).bridge = s.bridge := rfl
@[simp] theorem updHost_nextUid (p : Port) (f : Memory → Memory) : (updHost s p f).nextUid = s.nextUid := rfl
@[simp] theorem updHost_fresh (p : Port) (f : Memory → Memory) : (updHost s p f).fresh = s.fresh := rfl
@[simp] theorem updHost_pending (p : Port) (f : Memory → Memory) : (updHost s p f).pending = s.pending := rfl

@[simp] theorem updLong_pins (h : Handle) (f : LongOp → LongOp) : (updLong s h f).pins = s.pins := rfl
@[simp] theorem updLong_silicon (h : Handle) (f : LongOp → LongOp) : (updLong s h f).silicon = s.silicon := rfl
@[simp] theorem updLong_boot (h : Handle) (f : LongOp → LongOp) : (updLong s h f).boot = s.boot := rfl
@[simp] theorem updLong_power (h : Handle) (f : LongOp → LongOp) : (updLong s h f).power = s.power := rfl
@[simp] theorem updLong_settings (h : Handle) (f : LongOp → LongOp) : (updLong s h f).settings = s.settings := rfl
@[simp] theorem updLong_regions (h : Handle) (f : LongOp → LongOp) : (updLong s h f).regions = s.regions := rfl
@[simp] theorem updLong_blotter (h : Handle) (f : LongOp → LongOp) : (updLong s h f).blotter = s.blotter := rfl
@[simp] theorem updLong_errors (h : Handle) (f : LongOp → LongOp) : (updLong s h f).errors = s.errors := rfl
@[simp] theorem updLong_timeBase (h : Handle) (f : LongOp → LongOp) : (updLong s h f).timeBase = s.timeBase := rfl
@[simp] theorem updLong_telemetry (h : Handle) (f : LongOp → LongOp) : (updLong s h f).telemetry = s.telemetry := rfl
@[simp] theorem updLong_staleNotes (h : Handle) (f : LongOp → LongOp) : (updLong s h f).staleNotes = s.staleNotes := rfl
@[simp] theorem updLong_ports (h : Handle) (f : LongOp → LongOp) : (updLong s h f).ports = s.ports := rfl
@[simp] theorem updLong_parts (h : Handle) (f : LongOp → LongOp) : (updLong s h f).parts = s.parts := rfl
@[simp] theorem updLong_mgmt (h : Handle) (f : LongOp → LongOp) : (updLong s h f).mgmt = s.mgmt := rfl
@[simp] theorem updLong_cmds (h : Handle) (f : LongOp → LongOp) : (updLong s h f).cmds = s.cmds := rfl
@[simp] theorem updLong_longs (h : Handle) (f : LongOp → LongOp) : (updLong s h f).longs = updFirst (fun o => o.handle == h) f s.longs := rfl
@[simp] theorem updLong_folios (h : Handle) (f : LongOp → LongOp) : (updLong s h f).folios = s.folios := rfl
@[simp] theorem updLong_pairings (h : Handle) (f : LongOp → LongOp) : (updLong s h f).pairings = s.pairings := rfl
@[simp] theorem updLong_pairWaits (h : Handle) (f : LongOp → LongOp) : (updLong s h f).pairWaits = s.pairWaits := rfl
@[simp] theorem updLong_fillers (h : Handle) (f : LongOp → LongOp) : (updLong s h f).fillers = s.fillers := rfl
@[simp] theorem updLong_copies (h : Handle) (f : LongOp → LongOp) : (updLong s h f).copies = s.copies := rfl
@[simp] theorem updLong_mem (h : Handle) (f : LongOp → LongOp) : (updLong s h f).mem = s.mem := rfl
@[simp] theorem updLong_shadows (h : Handle) (f : LongOp → LongOp) : (updLong s h f).shadows = s.shadows := rfl
@[simp] theorem updLong_seqs (h : Handle) (f : LongOp → LongOp) : (updLong s h f).seqs = s.seqs := rfl
@[simp] theorem updLong_ductus (h : Handle) (f : LongOp → LongOp) : (updLong s h f).ductus = s.ductus := rfl
@[simp] theorem updLong_ligature (h : Handle) (f : LongOp → LongOp) : (updLong s h f).ligature = s.ligature := rfl
@[simp] theorem updLong_gatherQ (h : Handle) (f : LongOp → LongOp) : (updLong s h f).gatherQ = s.gatherQ := rfl
@[simp] theorem updLong_fabric (h : Handle) (f : LongOp → LongOp) : (updLong s h f).fabric = s.fabric := rfl
@[simp] theorem updLong_router (h : Handle) (f : LongOp → LongOp) : (updLong s h f).router = s.router := rfl
@[simp] theorem updLong_inbox (h : Handle) (f : LongOp → LongOp) : (updLong s h f).inbox = s.inbox := rfl
@[simp] theorem updLong_lineQueues (h : Handle) (f : LongOp → LongOp) : (updLong s h f).lineQueues = s.lineQueues := rfl
@[simp] theorem updLong_ledger (h : Handle) (f : LongOp → LongOp) : (updLong s h f).ledger = s.ledger := rfl
@[simp] theorem updLong_windows (h : Handle) (f : LongOp → LongOp) : (updLong s h f).windows = s.windows := rfl
@[simp] theorem updLong_trackers (h : Handle) (f : LongOp → LongOp) : (updLong s h f).trackers = s.trackers := rfl
@[simp] theorem updLong_threads (h : Handle) (f : LongOp → LongOp) : (updLong s h f).threads = s.threads := rfl
@[simp] theorem updLong_lastIssued (h : Handle) (f : LongOp → LongOp) : (updLong s h f).lastIssued = s.lastIssued := rfl
@[simp] theorem updLong_lastServed (h : Handle) (f : LongOp → LongOp) : (updLong s h f).lastServed = s.lastServed := rfl
@[simp] theorem updLong_tokens (h : Handle) (f : LongOp → LongOp) : (updLong s h f).tokens = s.tokens := rfl
@[simp] theorem updLong_waits (h : Handle) (f : LongOp → LongOp) : (updLong s h f).waits = s.waits := rfl
@[simp] theorem updLong_reservoirs (h : Handle) (f : LongOp → LongOp) : (updLong s h f).reservoirs = s.reservoirs := rfl
@[simp] theorem updLong_pulls (h : Handle) (f : LongOp → LongOp) : (updLong s h f).pulls = s.pulls := rfl
@[simp] theorem updLong_debugWrites (h : Handle) (f : LongOp → LongOp) : (updLong s h f).debugWrites = s.debugWrites := rfl
@[simp] theorem updLong_scrub (h : Handle) (f : LongOp → LongOp) : (updLong s h f).scrub = s.scrub := rfl
@[simp] theorem updLong_bridge (h : Handle) (f : LongOp → LongOp) : (updLong s h f).bridge = s.bridge := rfl
@[simp] theorem updLong_nextUid (h : Handle) (f : LongOp → LongOp) : (updLong s h f).nextUid = s.nextUid := rfl
@[simp] theorem updLong_fresh (h : Handle) (f : LongOp → LongOp) : (updLong s h f).fresh = s.fresh := rfl
@[simp] theorem updLong_pending (h : Handle) (f : LongOp → LongOp) : (updLong s h f).pending = s.pending := rfl

@[simp] theorem updFolio_pins (h : Handle) (f : Folio → Folio) : (updFolio s h f).pins = s.pins := rfl
@[simp] theorem updFolio_silicon (h : Handle) (f : Folio → Folio) : (updFolio s h f).silicon = s.silicon := rfl
@[simp] theorem updFolio_boot (h : Handle) (f : Folio → Folio) : (updFolio s h f).boot = s.boot := rfl
@[simp] theorem updFolio_power (h : Handle) (f : Folio → Folio) : (updFolio s h f).power = s.power := rfl
@[simp] theorem updFolio_settings (h : Handle) (f : Folio → Folio) : (updFolio s h f).settings = s.settings := rfl
@[simp] theorem updFolio_regions (h : Handle) (f : Folio → Folio) : (updFolio s h f).regions = s.regions := rfl
@[simp] theorem updFolio_blotter (h : Handle) (f : Folio → Folio) : (updFolio s h f).blotter = s.blotter := rfl
@[simp] theorem updFolio_errors (h : Handle) (f : Folio → Folio) : (updFolio s h f).errors = s.errors := rfl
@[simp] theorem updFolio_timeBase (h : Handle) (f : Folio → Folio) : (updFolio s h f).timeBase = s.timeBase := rfl
@[simp] theorem updFolio_telemetry (h : Handle) (f : Folio → Folio) : (updFolio s h f).telemetry = s.telemetry := rfl
@[simp] theorem updFolio_staleNotes (h : Handle) (f : Folio → Folio) : (updFolio s h f).staleNotes = s.staleNotes := rfl
@[simp] theorem updFolio_ports (h : Handle) (f : Folio → Folio) : (updFolio s h f).ports = s.ports := rfl
@[simp] theorem updFolio_parts (h : Handle) (f : Folio → Folio) : (updFolio s h f).parts = s.parts := rfl
@[simp] theorem updFolio_mgmt (h : Handle) (f : Folio → Folio) : (updFolio s h f).mgmt = s.mgmt := rfl
@[simp] theorem updFolio_cmds (h : Handle) (f : Folio → Folio) : (updFolio s h f).cmds = s.cmds := rfl
@[simp] theorem updFolio_longs (h : Handle) (f : Folio → Folio) : (updFolio s h f).longs = s.longs := rfl
@[simp] theorem updFolio_folios (h : Handle) (f : Folio → Folio) : (updFolio s h f).folios = updFirst (fun o => o.handle == h) f s.folios := rfl
@[simp] theorem updFolio_pairings (h : Handle) (f : Folio → Folio) : (updFolio s h f).pairings = s.pairings := rfl
@[simp] theorem updFolio_pairWaits (h : Handle) (f : Folio → Folio) : (updFolio s h f).pairWaits = s.pairWaits := rfl
@[simp] theorem updFolio_fillers (h : Handle) (f : Folio → Folio) : (updFolio s h f).fillers = s.fillers := rfl
@[simp] theorem updFolio_copies (h : Handle) (f : Folio → Folio) : (updFolio s h f).copies = s.copies := rfl
@[simp] theorem updFolio_mem (h : Handle) (f : Folio → Folio) : (updFolio s h f).mem = s.mem := rfl
@[simp] theorem updFolio_shadows (h : Handle) (f : Folio → Folio) : (updFolio s h f).shadows = s.shadows := rfl
@[simp] theorem updFolio_seqs (h : Handle) (f : Folio → Folio) : (updFolio s h f).seqs = s.seqs := rfl
@[simp] theorem updFolio_ductus (h : Handle) (f : Folio → Folio) : (updFolio s h f).ductus = s.ductus := rfl
@[simp] theorem updFolio_ligature (h : Handle) (f : Folio → Folio) : (updFolio s h f).ligature = s.ligature := rfl
@[simp] theorem updFolio_gatherQ (h : Handle) (f : Folio → Folio) : (updFolio s h f).gatherQ = s.gatherQ := rfl
@[simp] theorem updFolio_fabric (h : Handle) (f : Folio → Folio) : (updFolio s h f).fabric = s.fabric := rfl
@[simp] theorem updFolio_router (h : Handle) (f : Folio → Folio) : (updFolio s h f).router = s.router := rfl
@[simp] theorem updFolio_inbox (h : Handle) (f : Folio → Folio) : (updFolio s h f).inbox = s.inbox := rfl
@[simp] theorem updFolio_lineQueues (h : Handle) (f : Folio → Folio) : (updFolio s h f).lineQueues = s.lineQueues := rfl
@[simp] theorem updFolio_ledger (h : Handle) (f : Folio → Folio) : (updFolio s h f).ledger = s.ledger := rfl
@[simp] theorem updFolio_windows (h : Handle) (f : Folio → Folio) : (updFolio s h f).windows = s.windows := rfl
@[simp] theorem updFolio_trackers (h : Handle) (f : Folio → Folio) : (updFolio s h f).trackers = s.trackers := rfl
@[simp] theorem updFolio_threads (h : Handle) (f : Folio → Folio) : (updFolio s h f).threads = s.threads := rfl
@[simp] theorem updFolio_lastIssued (h : Handle) (f : Folio → Folio) : (updFolio s h f).lastIssued = s.lastIssued := rfl
@[simp] theorem updFolio_lastServed (h : Handle) (f : Folio → Folio) : (updFolio s h f).lastServed = s.lastServed := rfl
@[simp] theorem updFolio_tokens (h : Handle) (f : Folio → Folio) : (updFolio s h f).tokens = s.tokens := rfl
@[simp] theorem updFolio_waits (h : Handle) (f : Folio → Folio) : (updFolio s h f).waits = s.waits := rfl
@[simp] theorem updFolio_reservoirs (h : Handle) (f : Folio → Folio) : (updFolio s h f).reservoirs = s.reservoirs := rfl
@[simp] theorem updFolio_pulls (h : Handle) (f : Folio → Folio) : (updFolio s h f).pulls = s.pulls := rfl
@[simp] theorem updFolio_debugWrites (h : Handle) (f : Folio → Folio) : (updFolio s h f).debugWrites = s.debugWrites := rfl
@[simp] theorem updFolio_scrub (h : Handle) (f : Folio → Folio) : (updFolio s h f).scrub = s.scrub := rfl
@[simp] theorem updFolio_bridge (h : Handle) (f : Folio → Folio) : (updFolio s h f).bridge = s.bridge := rfl
@[simp] theorem updFolio_nextUid (h : Handle) (f : Folio → Folio) : (updFolio s h f).nextUid = s.nextUid := rfl
@[simp] theorem updFolio_fresh (h : Handle) (f : Folio → Folio) : (updFolio s h f).fresh = s.fresh := rfl
@[simp] theorem updFolio_pending (h : Handle) (f : Folio → Folio) : (updFolio s h f).pending = s.pending := rfl

@[simp] theorem updRun_pins (h : Handle) (f : Run → Run) : (updRun s h f).pins = s.pins := rfl
@[simp] theorem updRun_silicon (h : Handle) (f : Run → Run) : (updRun s h f).silicon = s.silicon := rfl
@[simp] theorem updRun_boot (h : Handle) (f : Run → Run) : (updRun s h f).boot = s.boot := rfl
@[simp] theorem updRun_power (h : Handle) (f : Run → Run) : (updRun s h f).power = s.power := rfl
@[simp] theorem updRun_settings (h : Handle) (f : Run → Run) : (updRun s h f).settings = s.settings := rfl
@[simp] theorem updRun_regions (h : Handle) (f : Run → Run) : (updRun s h f).regions = s.regions := rfl
@[simp] theorem updRun_blotter (h : Handle) (f : Run → Run) : (updRun s h f).blotter = s.blotter := rfl
@[simp] theorem updRun_errors (h : Handle) (f : Run → Run) : (updRun s h f).errors = s.errors := rfl
@[simp] theorem updRun_timeBase (h : Handle) (f : Run → Run) : (updRun s h f).timeBase = s.timeBase := rfl
@[simp] theorem updRun_telemetry (h : Handle) (f : Run → Run) : (updRun s h f).telemetry = s.telemetry := rfl
@[simp] theorem updRun_staleNotes (h : Handle) (f : Run → Run) : (updRun s h f).staleNotes = s.staleNotes := rfl
@[simp] theorem updRun_ports (h : Handle) (f : Run → Run) : (updRun s h f).ports = s.ports := rfl
@[simp] theorem updRun_parts (h : Handle) (f : Run → Run) : (updRun s h f).parts = s.parts := rfl
@[simp] theorem updRun_mgmt (h : Handle) (f : Run → Run) : (updRun s h f).mgmt = s.mgmt := rfl
@[simp] theorem updRun_cmds (h : Handle) (f : Run → Run) : (updRun s h f).cmds = s.cmds := rfl
@[simp] theorem updRun_folios (h : Handle) (f : Run → Run) : (updRun s h f).folios = s.folios := rfl
@[simp] theorem updRun_pairings (h : Handle) (f : Run → Run) : (updRun s h f).pairings = s.pairings := rfl
@[simp] theorem updRun_pairWaits (h : Handle) (f : Run → Run) : (updRun s h f).pairWaits = s.pairWaits := rfl
@[simp] theorem updRun_fillers (h : Handle) (f : Run → Run) : (updRun s h f).fillers = s.fillers := rfl
@[simp] theorem updRun_copies (h : Handle) (f : Run → Run) : (updRun s h f).copies = s.copies := rfl
@[simp] theorem updRun_mem (h : Handle) (f : Run → Run) : (updRun s h f).mem = s.mem := rfl
@[simp] theorem updRun_shadows (h : Handle) (f : Run → Run) : (updRun s h f).shadows = s.shadows := rfl
@[simp] theorem updRun_seqs (h : Handle) (f : Run → Run) : (updRun s h f).seqs = s.seqs := rfl
@[simp] theorem updRun_ductus (h : Handle) (f : Run → Run) : (updRun s h f).ductus = s.ductus := rfl
@[simp] theorem updRun_ligature (h : Handle) (f : Run → Run) : (updRun s h f).ligature = s.ligature := rfl
@[simp] theorem updRun_gatherQ (h : Handle) (f : Run → Run) : (updRun s h f).gatherQ = s.gatherQ := rfl
@[simp] theorem updRun_fabric (h : Handle) (f : Run → Run) : (updRun s h f).fabric = s.fabric := rfl
@[simp] theorem updRun_router (h : Handle) (f : Run → Run) : (updRun s h f).router = s.router := rfl
@[simp] theorem updRun_inbox (h : Handle) (f : Run → Run) : (updRun s h f).inbox = s.inbox := rfl
@[simp] theorem updRun_lineQueues (h : Handle) (f : Run → Run) : (updRun s h f).lineQueues = s.lineQueues := rfl
@[simp] theorem updRun_ledger (h : Handle) (f : Run → Run) : (updRun s h f).ledger = s.ledger := rfl
@[simp] theorem updRun_windows (h : Handle) (f : Run → Run) : (updRun s h f).windows = s.windows := rfl
@[simp] theorem updRun_trackers (h : Handle) (f : Run → Run) : (updRun s h f).trackers = s.trackers := rfl
@[simp] theorem updRun_threads (h : Handle) (f : Run → Run) : (updRun s h f).threads = s.threads := rfl
@[simp] theorem updRun_lastIssued (h : Handle) (f : Run → Run) : (updRun s h f).lastIssued = s.lastIssued := rfl
@[simp] theorem updRun_lastServed (h : Handle) (f : Run → Run) : (updRun s h f).lastServed = s.lastServed := rfl
@[simp] theorem updRun_tokens (h : Handle) (f : Run → Run) : (updRun s h f).tokens = s.tokens := rfl
@[simp] theorem updRun_waits (h : Handle) (f : Run → Run) : (updRun s h f).waits = s.waits := rfl
@[simp] theorem updRun_reservoirs (h : Handle) (f : Run → Run) : (updRun s h f).reservoirs = s.reservoirs := rfl
@[simp] theorem updRun_pulls (h : Handle) (f : Run → Run) : (updRun s h f).pulls = s.pulls := rfl
@[simp] theorem updRun_debugWrites (h : Handle) (f : Run → Run) : (updRun s h f).debugWrites = s.debugWrites := rfl
@[simp] theorem updRun_scrub (h : Handle) (f : Run → Run) : (updRun s h f).scrub = s.scrub := rfl
@[simp] theorem updRun_bridge (h : Handle) (f : Run → Run) : (updRun s h f).bridge = s.bridge := rfl
@[simp] theorem updRun_nextUid (h : Handle) (f : Run → Run) : (updRun s h f).nextUid = s.nextUid := rfl
@[simp] theorem updRun_fresh (h : Handle) (f : Run → Run) : (updRun s h f).fresh = s.fresh := rfl
@[simp] theorem updRun_pending (h : Handle) (f : Run → Run) : (updRun s h f).pending = s.pending := rfl

@[simp] theorem bump_pins (id idx n : Nat) : (bump s id idx n).pins = s.pins := rfl
@[simp] theorem bump_silicon (id idx n : Nat) : (bump s id idx n).silicon = s.silicon := rfl
@[simp] theorem bump_boot (id idx n : Nat) : (bump s id idx n).boot = s.boot := rfl
@[simp] theorem bump_power (id idx n : Nat) : (bump s id idx n).power = s.power := rfl
@[simp] theorem bump_settings (id idx n : Nat) : (bump s id idx n).settings = s.settings := rfl
@[simp] theorem bump_regions (id idx n : Nat) : (bump s id idx n).regions = s.regions := rfl
@[simp] theorem bump_blotter (id idx n : Nat) : (bump s id idx n).blotter = s.blotter := rfl
@[simp] theorem bump_errors (id idx n : Nat) : (bump s id idx n).errors = s.errors := rfl
@[simp] theorem bump_timeBase (id idx n : Nat) : (bump s id idx n).timeBase = s.timeBase := rfl
@[simp] theorem bump_staleNotes (id idx n : Nat) : (bump s id idx n).staleNotes = s.staleNotes := rfl
@[simp] theorem bump_ports (id idx n : Nat) : (bump s id idx n).ports = s.ports := rfl
@[simp] theorem bump_parts (id idx n : Nat) : (bump s id idx n).parts = s.parts := rfl
@[simp] theorem bump_mgmt (id idx n : Nat) : (bump s id idx n).mgmt = s.mgmt := rfl
@[simp] theorem bump_cmds (id idx n : Nat) : (bump s id idx n).cmds = s.cmds := rfl
@[simp] theorem bump_longs (id idx n : Nat) : (bump s id idx n).longs = s.longs := rfl
@[simp] theorem bump_folios (id idx n : Nat) : (bump s id idx n).folios = s.folios := rfl
@[simp] theorem bump_pairings (id idx n : Nat) : (bump s id idx n).pairings = s.pairings := rfl
@[simp] theorem bump_pairWaits (id idx n : Nat) : (bump s id idx n).pairWaits = s.pairWaits := rfl
@[simp] theorem bump_fillers (id idx n : Nat) : (bump s id idx n).fillers = s.fillers := rfl
@[simp] theorem bump_copies (id idx n : Nat) : (bump s id idx n).copies = s.copies := rfl
@[simp] theorem bump_mem (id idx n : Nat) : (bump s id idx n).mem = s.mem := rfl
@[simp] theorem bump_shadows (id idx n : Nat) : (bump s id idx n).shadows = s.shadows := rfl
@[simp] theorem bump_seqs (id idx n : Nat) : (bump s id idx n).seqs = s.seqs := rfl
@[simp] theorem bump_ductus (id idx n : Nat) : (bump s id idx n).ductus = s.ductus := rfl
@[simp] theorem bump_ligature (id idx n : Nat) : (bump s id idx n).ligature = s.ligature := rfl
@[simp] theorem bump_gatherQ (id idx n : Nat) : (bump s id idx n).gatherQ = s.gatherQ := rfl
@[simp] theorem bump_fabric (id idx n : Nat) : (bump s id idx n).fabric = s.fabric := rfl
@[simp] theorem bump_router (id idx n : Nat) : (bump s id idx n).router = s.router := rfl
@[simp] theorem bump_inbox (id idx n : Nat) : (bump s id idx n).inbox = s.inbox := rfl
@[simp] theorem bump_lineQueues (id idx n : Nat) : (bump s id idx n).lineQueues = s.lineQueues := rfl
@[simp] theorem bump_ledger (id idx n : Nat) : (bump s id idx n).ledger = s.ledger := rfl
@[simp] theorem bump_windows (id idx n : Nat) : (bump s id idx n).windows = s.windows := rfl
@[simp] theorem bump_trackers (id idx n : Nat) : (bump s id idx n).trackers = s.trackers := rfl
@[simp] theorem bump_threads (id idx n : Nat) : (bump s id idx n).threads = s.threads := rfl
@[simp] theorem bump_lastIssued (id idx n : Nat) : (bump s id idx n).lastIssued = s.lastIssued := rfl
@[simp] theorem bump_lastServed (id idx n : Nat) : (bump s id idx n).lastServed = s.lastServed := rfl
@[simp] theorem bump_tokens (id idx n : Nat) : (bump s id idx n).tokens = s.tokens := rfl
@[simp] theorem bump_waits (id idx n : Nat) : (bump s id idx n).waits = s.waits := rfl
@[simp] theorem bump_reservoirs (id idx n : Nat) : (bump s id idx n).reservoirs = s.reservoirs := rfl
@[simp] theorem bump_pulls (id idx n : Nat) : (bump s id idx n).pulls = s.pulls := rfl
@[simp] theorem bump_debugWrites (id idx n : Nat) : (bump s id idx n).debugWrites = s.debugWrites := rfl
@[simp] theorem bump_scrub (id idx n : Nat) : (bump s id idx n).scrub = s.scrub := rfl
@[simp] theorem bump_bridge (id idx n : Nat) : (bump s id idx n).bridge = s.bridge := rfl
@[simp] theorem bump_nextUid (id idx n : Nat) : (bump s id idx n).nextUid = s.nextUid := rfl
@[simp] theorem bump_fresh (id idx n : Nat) : (bump s id idx n).fresh = s.fresh := rfl
@[simp] theorem bump_pending (id idx n : Nat) : (bump s id idx n).pending = s.pending := rfl

@[simp] theorem bumpMax_pins (id idx n : Nat) : (bumpMax s id idx n).pins = s.pins := rfl
@[simp] theorem bumpMax_silicon (id idx n : Nat) : (bumpMax s id idx n).silicon = s.silicon := rfl
@[simp] theorem bumpMax_boot (id idx n : Nat) : (bumpMax s id idx n).boot = s.boot := rfl
@[simp] theorem bumpMax_power (id idx n : Nat) : (bumpMax s id idx n).power = s.power := rfl
@[simp] theorem bumpMax_settings (id idx n : Nat) : (bumpMax s id idx n).settings = s.settings := rfl
@[simp] theorem bumpMax_regions (id idx n : Nat) : (bumpMax s id idx n).regions = s.regions := rfl
@[simp] theorem bumpMax_blotter (id idx n : Nat) : (bumpMax s id idx n).blotter = s.blotter := rfl
@[simp] theorem bumpMax_errors (id idx n : Nat) : (bumpMax s id idx n).errors = s.errors := rfl
@[simp] theorem bumpMax_timeBase (id idx n : Nat) : (bumpMax s id idx n).timeBase = s.timeBase := rfl
@[simp] theorem bumpMax_staleNotes (id idx n : Nat) : (bumpMax s id idx n).staleNotes = s.staleNotes := rfl
@[simp] theorem bumpMax_ports (id idx n : Nat) : (bumpMax s id idx n).ports = s.ports := rfl
@[simp] theorem bumpMax_parts (id idx n : Nat) : (bumpMax s id idx n).parts = s.parts := rfl
@[simp] theorem bumpMax_mgmt (id idx n : Nat) : (bumpMax s id idx n).mgmt = s.mgmt := rfl
@[simp] theorem bumpMax_cmds (id idx n : Nat) : (bumpMax s id idx n).cmds = s.cmds := rfl
@[simp] theorem bumpMax_longs (id idx n : Nat) : (bumpMax s id idx n).longs = s.longs := rfl
@[simp] theorem bumpMax_folios (id idx n : Nat) : (bumpMax s id idx n).folios = s.folios := rfl
@[simp] theorem bumpMax_pairings (id idx n : Nat) : (bumpMax s id idx n).pairings = s.pairings := rfl
@[simp] theorem bumpMax_pairWaits (id idx n : Nat) : (bumpMax s id idx n).pairWaits = s.pairWaits := rfl
@[simp] theorem bumpMax_fillers (id idx n : Nat) : (bumpMax s id idx n).fillers = s.fillers := rfl
@[simp] theorem bumpMax_copies (id idx n : Nat) : (bumpMax s id idx n).copies = s.copies := rfl
@[simp] theorem bumpMax_mem (id idx n : Nat) : (bumpMax s id idx n).mem = s.mem := rfl
@[simp] theorem bumpMax_shadows (id idx n : Nat) : (bumpMax s id idx n).shadows = s.shadows := rfl
@[simp] theorem bumpMax_seqs (id idx n : Nat) : (bumpMax s id idx n).seqs = s.seqs := rfl
@[simp] theorem bumpMax_ductus (id idx n : Nat) : (bumpMax s id idx n).ductus = s.ductus := rfl
@[simp] theorem bumpMax_ligature (id idx n : Nat) : (bumpMax s id idx n).ligature = s.ligature := rfl
@[simp] theorem bumpMax_gatherQ (id idx n : Nat) : (bumpMax s id idx n).gatherQ = s.gatherQ := rfl
@[simp] theorem bumpMax_fabric (id idx n : Nat) : (bumpMax s id idx n).fabric = s.fabric := rfl
@[simp] theorem bumpMax_router (id idx n : Nat) : (bumpMax s id idx n).router = s.router := rfl
@[simp] theorem bumpMax_inbox (id idx n : Nat) : (bumpMax s id idx n).inbox = s.inbox := rfl
@[simp] theorem bumpMax_lineQueues (id idx n : Nat) : (bumpMax s id idx n).lineQueues = s.lineQueues := rfl
@[simp] theorem bumpMax_ledger (id idx n : Nat) : (bumpMax s id idx n).ledger = s.ledger := rfl
@[simp] theorem bumpMax_windows (id idx n : Nat) : (bumpMax s id idx n).windows = s.windows := rfl
@[simp] theorem bumpMax_trackers (id idx n : Nat) : (bumpMax s id idx n).trackers = s.trackers := rfl
@[simp] theorem bumpMax_threads (id idx n : Nat) : (bumpMax s id idx n).threads = s.threads := rfl
@[simp] theorem bumpMax_lastIssued (id idx n : Nat) : (bumpMax s id idx n).lastIssued = s.lastIssued := rfl
@[simp] theorem bumpMax_lastServed (id idx n : Nat) : (bumpMax s id idx n).lastServed = s.lastServed := rfl
@[simp] theorem bumpMax_tokens (id idx n : Nat) : (bumpMax s id idx n).tokens = s.tokens := rfl
@[simp] theorem bumpMax_waits (id idx n : Nat) : (bumpMax s id idx n).waits = s.waits := rfl
@[simp] theorem bumpMax_reservoirs (id idx n : Nat) : (bumpMax s id idx n).reservoirs = s.reservoirs := rfl
@[simp] theorem bumpMax_pulls (id idx n : Nat) : (bumpMax s id idx n).pulls = s.pulls := rfl
@[simp] theorem bumpMax_debugWrites (id idx n : Nat) : (bumpMax s id idx n).debugWrites = s.debugWrites := rfl
@[simp] theorem bumpMax_scrub (id idx n : Nat) : (bumpMax s id idx n).scrub = s.scrub := rfl
@[simp] theorem bumpMax_bridge (id idx n : Nat) : (bumpMax s id idx n).bridge = s.bridge := rfl
@[simp] theorem bumpMax_nextUid (id idx n : Nat) : (bumpMax s id idx n).nextUid = s.nextUid := rfl
@[simp] theorem bumpMax_fresh (id idx n : Nat) : (bumpMax s id idx n).fresh = s.fresh := rfl
@[simp] theorem bumpMax_pending (id idx n : Nat) : (bumpMax s id idx n).pending = s.pending := rfl

@[simp] theorem undefineRange_pins (lo hi : Nat) : (undefineRange s lo hi).pins = s.pins := rfl
@[simp] theorem undefineRange_silicon (lo hi : Nat) : (undefineRange s lo hi).silicon = s.silicon := rfl
@[simp] theorem undefineRange_boot (lo hi : Nat) : (undefineRange s lo hi).boot = s.boot := rfl
@[simp] theorem undefineRange_power (lo hi : Nat) : (undefineRange s lo hi).power = s.power := rfl
@[simp] theorem undefineRange_settings (lo hi : Nat) : (undefineRange s lo hi).settings = s.settings := rfl
@[simp] theorem undefineRange_regions (lo hi : Nat) : (undefineRange s lo hi).regions = s.regions := rfl
@[simp] theorem undefineRange_blotter (lo hi : Nat) : (undefineRange s lo hi).blotter = s.blotter := rfl
@[simp] theorem undefineRange_errors (lo hi : Nat) : (undefineRange s lo hi).errors = s.errors := rfl
@[simp] theorem undefineRange_timeBase (lo hi : Nat) : (undefineRange s lo hi).timeBase = s.timeBase := rfl
@[simp] theorem undefineRange_telemetry (lo hi : Nat) : (undefineRange s lo hi).telemetry = s.telemetry := rfl
@[simp] theorem undefineRange_staleNotes (lo hi : Nat) : (undefineRange s lo hi).staleNotes = s.staleNotes := rfl
@[simp] theorem undefineRange_ports (lo hi : Nat) : (undefineRange s lo hi).ports = s.ports := rfl
@[simp] theorem undefineRange_parts (lo hi : Nat) : (undefineRange s lo hi).parts = s.parts := rfl
@[simp] theorem undefineRange_mgmt (lo hi : Nat) : (undefineRange s lo hi).mgmt = s.mgmt := rfl
@[simp] theorem undefineRange_cmds (lo hi : Nat) : (undefineRange s lo hi).cmds = s.cmds := rfl
@[simp] theorem undefineRange_longs (lo hi : Nat) : (undefineRange s lo hi).longs = s.longs := rfl
@[simp] theorem undefineRange_folios (lo hi : Nat) : (undefineRange s lo hi).folios = s.folios := rfl
@[simp] theorem undefineRange_pairings (lo hi : Nat) : (undefineRange s lo hi).pairings = s.pairings := rfl
@[simp] theorem undefineRange_pairWaits (lo hi : Nat) : (undefineRange s lo hi).pairWaits = s.pairWaits := rfl
@[simp] theorem undefineRange_fillers (lo hi : Nat) : (undefineRange s lo hi).fillers = s.fillers := rfl
@[simp] theorem undefineRange_copies (lo hi : Nat) : (undefineRange s lo hi).copies = s.copies := rfl
@[simp] theorem undefineRange_mem (lo hi : Nat) : (undefineRange s lo hi).mem = s.mem.undefine lo hi s.fresh := rfl
@[simp] theorem undefineRange_shadows (lo hi : Nat) : (undefineRange s lo hi).shadows = s.shadows := rfl
@[simp] theorem undefineRange_seqs (lo hi : Nat) : (undefineRange s lo hi).seqs = s.seqs := rfl
@[simp] theorem undefineRange_ductus (lo hi : Nat) : (undefineRange s lo hi).ductus = s.ductus := rfl
@[simp] theorem undefineRange_ligature (lo hi : Nat) : (undefineRange s lo hi).ligature = s.ligature := rfl
@[simp] theorem undefineRange_gatherQ (lo hi : Nat) : (undefineRange s lo hi).gatherQ = s.gatherQ := rfl
@[simp] theorem undefineRange_fabric (lo hi : Nat) : (undefineRange s lo hi).fabric = s.fabric := rfl
@[simp] theorem undefineRange_router (lo hi : Nat) : (undefineRange s lo hi).router = s.router := rfl
@[simp] theorem undefineRange_inbox (lo hi : Nat) : (undefineRange s lo hi).inbox = s.inbox := rfl
@[simp] theorem undefineRange_lineQueues (lo hi : Nat) : (undefineRange s lo hi).lineQueues = s.lineQueues := rfl
@[simp] theorem undefineRange_ledger (lo hi : Nat) : (undefineRange s lo hi).ledger = s.ledger := rfl
@[simp] theorem undefineRange_windows (lo hi : Nat) : (undefineRange s lo hi).windows = s.windows := rfl
@[simp] theorem undefineRange_trackers (lo hi : Nat) : (undefineRange s lo hi).trackers = s.trackers := rfl
@[simp] theorem undefineRange_threads (lo hi : Nat) : (undefineRange s lo hi).threads = s.threads := rfl
@[simp] theorem undefineRange_lastIssued (lo hi : Nat) : (undefineRange s lo hi).lastIssued = s.lastIssued := rfl
@[simp] theorem undefineRange_lastServed (lo hi : Nat) : (undefineRange s lo hi).lastServed = s.lastServed := rfl
@[simp] theorem undefineRange_tokens (lo hi : Nat) : (undefineRange s lo hi).tokens = s.tokens := rfl
@[simp] theorem undefineRange_waits (lo hi : Nat) : (undefineRange s lo hi).waits = s.waits := rfl
@[simp] theorem undefineRange_reservoirs (lo hi : Nat) : (undefineRange s lo hi).reservoirs = s.reservoirs := rfl
@[simp] theorem undefineRange_pulls (lo hi : Nat) : (undefineRange s lo hi).pulls = s.pulls := rfl
@[simp] theorem undefineRange_debugWrites (lo hi : Nat) : (undefineRange s lo hi).debugWrites = s.debugWrites := rfl
@[simp] theorem undefineRange_scrub (lo hi : Nat) : (undefineRange s lo hi).scrub = s.scrub := rfl
@[simp] theorem undefineRange_bridge (lo hi : Nat) : (undefineRange s lo hi).bridge = s.bridge := rfl
@[simp] theorem undefineRange_nextUid (lo hi : Nat) : (undefineRange s lo hi).nextUid = s.nextUid := rfl
@[simp] theorem undefineRange_fresh (lo hi : Nat) : (undefineRange s lo hi).fresh = s.fresh + 1 := rfl
@[simp] theorem undefineRange_pending (lo hi : Nat) : (undefineRange s lo hi).pending = s.pending := rfl

@[simp] theorem undefineHost_pins (p : Port) (lo hi : Nat) : (undefineHost s p lo hi).pins = s.pins := rfl
@[simp] theorem undefineHost_silicon (p : Port) (lo hi : Nat) : (undefineHost s p lo hi).silicon = s.silicon := rfl
@[simp] theorem undefineHost_boot (p : Port) (lo hi : Nat) : (undefineHost s p lo hi).boot = s.boot := rfl
@[simp] theorem undefineHost_power (p : Port) (lo hi : Nat) : (undefineHost s p lo hi).power = s.power := rfl
@[simp] theorem undefineHost_settings (p : Port) (lo hi : Nat) : (undefineHost s p lo hi).settings = s.settings := rfl
@[simp] theorem undefineHost_regions (p : Port) (lo hi : Nat) : (undefineHost s p lo hi).regions = s.regions := rfl
@[simp] theorem undefineHost_blotter (p : Port) (lo hi : Nat) : (undefineHost s p lo hi).blotter = s.blotter := rfl
@[simp] theorem undefineHost_errors (p : Port) (lo hi : Nat) : (undefineHost s p lo hi).errors = s.errors := rfl
@[simp] theorem undefineHost_timeBase (p : Port) (lo hi : Nat) : (undefineHost s p lo hi).timeBase = s.timeBase := rfl
@[simp] theorem undefineHost_telemetry (p : Port) (lo hi : Nat) : (undefineHost s p lo hi).telemetry = s.telemetry := rfl
@[simp] theorem undefineHost_staleNotes (p : Port) (lo hi : Nat) : (undefineHost s p lo hi).staleNotes = s.staleNotes := rfl
@[simp] theorem undefineHost_parts (p : Port) (lo hi : Nat) : (undefineHost s p lo hi).parts = s.parts := rfl
@[simp] theorem undefineHost_mgmt (p : Port) (lo hi : Nat) : (undefineHost s p lo hi).mgmt = s.mgmt := rfl
@[simp] theorem undefineHost_cmds (p : Port) (lo hi : Nat) : (undefineHost s p lo hi).cmds = s.cmds := rfl
@[simp] theorem undefineHost_longs (p : Port) (lo hi : Nat) : (undefineHost s p lo hi).longs = s.longs := rfl
@[simp] theorem undefineHost_folios (p : Port) (lo hi : Nat) : (undefineHost s p lo hi).folios = s.folios := rfl
@[simp] theorem undefineHost_pairings (p : Port) (lo hi : Nat) : (undefineHost s p lo hi).pairings = s.pairings := rfl
@[simp] theorem undefineHost_pairWaits (p : Port) (lo hi : Nat) : (undefineHost s p lo hi).pairWaits = s.pairWaits := rfl
@[simp] theorem undefineHost_fillers (p : Port) (lo hi : Nat) : (undefineHost s p lo hi).fillers = s.fillers := rfl
@[simp] theorem undefineHost_copies (p : Port) (lo hi : Nat) : (undefineHost s p lo hi).copies = s.copies := rfl
@[simp] theorem undefineHost_mem (p : Port) (lo hi : Nat) : (undefineHost s p lo hi).mem = s.mem := rfl
@[simp] theorem undefineHost_shadows (p : Port) (lo hi : Nat) : (undefineHost s p lo hi).shadows = s.shadows := rfl
@[simp] theorem undefineHost_seqs (p : Port) (lo hi : Nat) : (undefineHost s p lo hi).seqs = s.seqs := rfl
@[simp] theorem undefineHost_ductus (p : Port) (lo hi : Nat) : (undefineHost s p lo hi).ductus = s.ductus := rfl
@[simp] theorem undefineHost_ligature (p : Port) (lo hi : Nat) : (undefineHost s p lo hi).ligature = s.ligature := rfl
@[simp] theorem undefineHost_gatherQ (p : Port) (lo hi : Nat) : (undefineHost s p lo hi).gatherQ = s.gatherQ := rfl
@[simp] theorem undefineHost_fabric (p : Port) (lo hi : Nat) : (undefineHost s p lo hi).fabric = s.fabric := rfl
@[simp] theorem undefineHost_router (p : Port) (lo hi : Nat) : (undefineHost s p lo hi).router = s.router := rfl
@[simp] theorem undefineHost_inbox (p : Port) (lo hi : Nat) : (undefineHost s p lo hi).inbox = s.inbox := rfl
@[simp] theorem undefineHost_lineQueues (p : Port) (lo hi : Nat) : (undefineHost s p lo hi).lineQueues = s.lineQueues := rfl
@[simp] theorem undefineHost_ledger (p : Port) (lo hi : Nat) : (undefineHost s p lo hi).ledger = s.ledger := rfl
@[simp] theorem undefineHost_windows (p : Port) (lo hi : Nat) : (undefineHost s p lo hi).windows = s.windows := rfl
@[simp] theorem undefineHost_trackers (p : Port) (lo hi : Nat) : (undefineHost s p lo hi).trackers = s.trackers := rfl
@[simp] theorem undefineHost_threads (p : Port) (lo hi : Nat) : (undefineHost s p lo hi).threads = s.threads := rfl
@[simp] theorem undefineHost_lastIssued (p : Port) (lo hi : Nat) : (undefineHost s p lo hi).lastIssued = s.lastIssued := rfl
@[simp] theorem undefineHost_lastServed (p : Port) (lo hi : Nat) : (undefineHost s p lo hi).lastServed = s.lastServed := rfl
@[simp] theorem undefineHost_tokens (p : Port) (lo hi : Nat) : (undefineHost s p lo hi).tokens = s.tokens := rfl
@[simp] theorem undefineHost_waits (p : Port) (lo hi : Nat) : (undefineHost s p lo hi).waits = s.waits := rfl
@[simp] theorem undefineHost_reservoirs (p : Port) (lo hi : Nat) : (undefineHost s p lo hi).reservoirs = s.reservoirs := rfl
@[simp] theorem undefineHost_pulls (p : Port) (lo hi : Nat) : (undefineHost s p lo hi).pulls = s.pulls := rfl
@[simp] theorem undefineHost_debugWrites (p : Port) (lo hi : Nat) : (undefineHost s p lo hi).debugWrites = s.debugWrites := rfl
@[simp] theorem undefineHost_scrub (p : Port) (lo hi : Nat) : (undefineHost s p lo hi).scrub = s.scrub := rfl
@[simp] theorem undefineHost_bridge (p : Port) (lo hi : Nat) : (undefineHost s p lo hi).bridge = s.bridge := rfl
@[simp] theorem undefineHost_nextUid (p : Port) (lo hi : Nat) : (undefineHost s p lo hi).nextUid = s.nextUid := rfl
@[simp] theorem undefineHost_fresh (p : Port) (lo hi : Nat) : (undefineHost s p lo hi).fresh = s.fresh + 1 := rfl
@[simp] theorem undefineHost_pending (p : Port) (lo hi : Nat) : (undefineHost s p lo hi).pending = s.pending := rfl

end Sys2Proof.Machine
end

