-- ==== Sys2Proof/Laws/Keeps.lean ====
section
/-! SUPPORT. What an operation of the device keeps: `Keeps b s t` says once what every operation short of a reset may not do to the
state, so that a frame or an invariant over all commands follows from one lemma per operation. With `b` true, the boot registers, the
input pins, the settings and the positions of the scrubber and of the bridges are kept as well. -/

namespace Sys2Proof.Machine

open Sys2Proof

/-- What operations that write no boot register, input pin or setting keep besides. -/
structure Held (s t : State) : Prop where
  boot : t.boot = s.boot
  modResetN : t.pins.modResetN = s.pins.modResetN
  perstN : t.pins.perstN = s.pins.perstN
  slotStrap : t.pins.slotStrap = s.pins.slotStrap
  settings : t.settings = s.settings
  scrub : t.scrub = s.scrub
  bridge : t.bridge = s.bridge

/-- What every operation short of a reset keeps. -/
structure Keeps (b : Bool) (s t : State) : Prop where
  pending : t.pending = s.pending
  silicon : t.silicon = s.silicon
  pwrGood : t.pins.pwrGood = s.pins.pwrGood
  timeBase : t.timeBase = s.timeBase
  fatal : s.errors.fatal = true → t.errors.fatal = true
  tripped : s.power.tripped = true → t.power.tripped = true
  head : s.blotter.head ≤ t.blotter.head
  blotter : s.blotter.ok → t.blotter.ok
  clocks : s.clocksOk → t.clocksOk
  range : s.settings.ok → t.settings.ok
  lock : s.settings.lock = true → t.settings = s.settings
  mem : s.memOk → t.memOk
  held : b = true → Held s t

variable {b : Bool} {s t u : State}

theorem Held.refl (s : State) : Held s s := ⟨rfl, rfl, rfl, rfl, rfl, rfl, rfl⟩

theorem Held.trans (h : Held s t) (k : Held t u) : Held s u :=
  ⟨k.boot.trans h.boot, k.modResetN.trans h.modResetN, k.perstN.trans h.perstN, k.slotStrap.trans h.slotStrap,
    k.settings.trans h.settings, k.scrub.trans h.scrub, k.bridge.trans h.bridge⟩

theorem Keeps.refl (s : State) : Keeps b s s :=
  ⟨rfl, rfl, rfl, rfl, id, id, Nat.le_refl _, id, id, id, fun _ => rfl, id, fun _ => Held.refl s⟩

theorem Keeps.trans (h : Keeps b s t) (k : Keeps b t u) : Keeps b s u where
  pending := k.pending.trans h.pending
  silicon := k.silicon.trans h.silicon
  pwrGood := k.pwrGood.trans h.pwrGood
  timeBase := k.timeBase.trans h.timeBase
  fatal := fun x => k.fatal (h.fatal x)
  tripped := fun x => k.tripped (h.tripped x)
  head := Nat.le_trans h.head k.head
  blotter := fun x => k.blotter (h.blotter x)
  clocks := fun x => k.clocks (h.clocks x)
  range := fun x => k.range (h.range x)
  lock := fun x => (k.lock (by rw [h.lock x]; exact x)).trans (h.lock x)
  mem := fun x => k.mem (h.mem x)
  held := fun x => (h.held x).trans (k.held x)

/-- What keeps everything keeps the less. -/
theorem Keeps.weaken (h : Keeps true s t) : Keeps b s t :=
  ⟨h.pending, h.silicon, h.pwrGood, h.timeBase, h.fatal, h.tripped, h.head, h.blotter, h.clocks, h.range, h.lock, h.mem,
    fun _ => h.held rfl⟩

/-- A state that agrees with another on what is kept. -/
theorem Keeps.of_eq (pending : t.pending = s.pending) (silicon : t.silicon = s.silicon) (pwrGood : t.pins.pwrGood = s.pins.pwrGood)
    (modResetN : t.pins.modResetN = s.pins.modResetN) (perstN : t.pins.perstN = s.pins.perstN)
    (slotStrap : t.pins.slotStrap = s.pins.slotStrap) (timeBase : t.timeBase = s.timeBase)
    (fatal : t.errors.fatal = s.errors.fatal) (tripped : t.power.tripped = s.power.tripped) (blotter : t.blotter = s.blotter)
    (quads : t.power.quads = s.power.quads) (settings : t.settings = s.settings) (mem : t.mem = s.mem) (ports : t.ports = s.ports)
    (boot : t.boot = s.boot) (scrub : t.scrub = s.scrub) (bridge : t.bridge = s.bridge) : Keeps b s t where
  pending := pending
  silicon := silicon
  pwrGood := pwrGood
  timeBase := timeBase
  fatal := fun x => fatal.trans x
  tripped := fun x => tripped.trans x
  head := by rw [blotter]
  blotter := fun x => by rw [blotter]; exact x
  clocks := fun x => by unfold State.clocksOk; rw [quads]; exact x
  range := fun x => by rw [settings]; exact x
  lock := fun _ => settings
  mem := fun x => by unfold State.memOk; rw [mem, ports]; exact x
  held := fun _ => ⟨boot, modResetN, perstN, slotStrap, settings, scrub, bridge⟩

/-- A record update that touches nothing of what is kept. -/
theorem Keeps.upd {r : State} (h : Keeps b r s)
    {pins : Pins} {silicon : Silicon} {boot : Boot} {power : Power} {settings : Settings} {regions : Vector Region 72}
    {blotter : Blotter} {errors : ErrorBlock} {timeBase : Nat} {telemetry : List ((Nat × Nat) × Nat)}
    {staleNotes : List (Nat × Nat × Nat)} {ports : Vector PciePort 2} {parts : Vector Partition 4} {mgmt : Mgmt}
    {cmds : List Cmd} {longs : List LongOp} {folios : List Folio} {pairings : List Pairing} {pairWaits : List PairWait}
    {fillers : List FillerRun} {copies : List CopyOp} {mem : Memory} {shadows : List (Nat × Nat × Nat)}
    {seqs : Vector Sequencer 4} {ductus : Vector Ductus 4} {ligature : Vector Ligature 8} {gatherQ : List Packet}
    {fabric : Vector FabricPort 16} {router : Router} {inbox : List Packet} {lineQueues : List LineQueue}
    {ledger : List LedgerSource} {windows : List ReqWindow} {trackers : List Tracker} {threads : List Thread}
    {lastIssued lastServed : List (Nat × Nat)} {tokens : List ((Nat × Nat) × Nat)} {waits : List WaitMode}
    {reservoirs : List (Nat × Nat)} {pulls : List PullServe} {debugWrites : List (Nat × Bytes)} {scrub : Vector Nat 8}
    {bridge : Vector Nat 4} {nextUid fresh : Nat} {pending : List Instr}
    (h1 : pending = s.pending) (h2 : silicon = s.silicon) (h3 : pins.pwrGood = s.pins.pwrGood)
    (h4 : pins.modResetN = s.pins.modResetN) (h5 : pins.perstN = s.pins.perstN) (h6 : pins.slotStrap = s.pins.slotStrap)
    (h7 : timeBase = s.timeBase) (h8 : errors.fatal = s.errors.fatal) (h9 : power.tripped = s.power.tripped)
    (h10 : blotter = s.blotter) (h11 : power.quads = s.power.quads) (h12 : settings = s.settings) (h13 : mem = s.mem)
    (h14 : ports = s.ports) (h15 : boot = s.boot) (h16 : scrub = s.scrub) (h17 : bridge = s.bridge) :
    Keeps b r (State.mk pins silicon boot power settings regions blotter errors timeBase telemetry staleNotes ports parts mgmt cmds
      longs folios pairings pairWaits fillers copies mem shadows seqs ductus ligature gatherQ fabric router inbox lineQueues ledger
      windows trackers threads lastIssued lastServed tokens waits reservoirs pulls debugWrites scrub bridge nextUid fresh pending) :=
  h.trans (Keeps.of_eq h1 h2 h3 h4 h5 h6 h7 h8 h9 h10 h11 h12 h13 h14 h15 h16 h17)

/-- A record update that writes boot registers or input pins besides. -/
theorem Keeps.updF {r : State} (h : Keeps false r s)
    {pins : Pins} {silicon : Silicon} {boot : Boot} {power : Power} {settings : Settings} {regions : Vector Region 72}
    {blotter : Blotter} {errors : ErrorBlock} {timeBase : Nat} {telemetry : List ((Nat × Nat) × Nat)}
    {staleNotes : List (Nat × Nat × Nat)} {ports : Vector PciePort 2} {parts : Vector Partition 4} {mgmt : Mgmt}
    {cmds : List Cmd} {longs : List LongOp} {folios : List Folio} {pairings : List Pairing} {pairWaits : List PairWait}
    {fillers : List FillerRun} {copies : List CopyOp} {mem : Memory} {shadows : List (Nat × Nat × Nat)}
    {seqs : Vector Sequencer 4} {ductus : Vector Ductus 4} {ligature : Vector Ligature 8} {gatherQ : List Packet}
    {fabric : Vector FabricPort 16} {router : Router} {inbox : List Packet} {lineQueues : List LineQueue}
    {ledger : List LedgerSource} {windows : List ReqWindow} {trackers : List Tracker} {threads : List Thread}
    {lastIssued lastServed : List (Nat × Nat)} {tokens : List ((Nat × Nat) × Nat)} {waits : List WaitMode}
    {reservoirs : List (Nat × Nat)} {pulls : List PullServe} {debugWrites : List (Nat × Bytes)} {scrub : Vector Nat 8}
    {bridge : Vector Nat 4} {nextUid fresh : Nat} {pending : List Instr}
    (h1 : pending = s.pending) (h2 : silicon = s.silicon) (h3 : pins.pwrGood = s.pins.pwrGood)
    
    (h7 : timeBase = s.timeBase) (h8 : errors.fatal = s.errors.fatal) (h9 : power.tripped = s.power.tripped)
    (h10 : blotter = s.blotter) (h11 : power.quads = s.power.quads) (h12 : settings = s.settings) (h13 : mem = s.mem)
    (h14 : ports = s.ports) :
    Keeps false r (State.mk pins silicon boot power settings regions blotter errors timeBase telemetry staleNotes ports parts mgmt cmds
      longs folios pairings pairWaits fillers copies mem shadows seqs ductus ligature gatherQ fabric router inbox lineQueues ledger
      windows trackers threads lastIssued lastServed tokens waits reservoirs pulls debugWrites scrub bridge nextUid fresh pending) :=
  h.trans {
    pending := h1
    silicon := h2
    pwrGood := h3
    timeBase := h7
    fatal := fun x => h8.trans x
    tripped := fun x => h9.trans x
    head := by rw [h10]
    blotter := fun x => by rw [h10]; exact x
    clocks := fun x => by unfold State.clocksOk; rw [h11]; exact x
    range := fun x => by rw [h12]; exact x
    lock := fun _ => h12
    mem := fun x => by unfold State.memOk; rw [h13, h14]; exact x
    held := fun x => absurd x (by decide) }

theorem Blotter.ok_of {x y : Blotter} (h1 : y.slots = x.slots) (h2 : y.head = x.head) (h : x.ok) : y.ok := by
  unfold Blotter.ok
  rw [h1, h2]
  exact h

theorem Keeps.ite {c : Prop} [Decidable c] (h : c → Keeps b s t) (k : ¬c → Keeps b s u) : Keeps b s (if c then t else u) := by
  by_cases hc : c
  · rw [if_pos hc]; exact h hc
  · rw [if_neg hc]; exact k hc

theorem Keeps.foldl {α : Type} {f : State → α → State} {s : State} (hf : ∀ x a, Keeps b s x → Keeps b s (f x a)) :
    ∀ {l : List α} {t : State}, Keeps b s t → Keeps b s (l.foldl f t)
  | [], _, h => h
  | a :: l, t, h => Keeps.foldl hf (l := l) (hf t a h)

/-- A fold that carries the state with something else. -/
theorem Keeps.foldl_fst {α β : Type} {f : State × β → α → State × β} {s : State}
    (hf : ∀ x a, Keeps b s x.1 → Keeps b s (f x a).1) :
    ∀ {l : List α} {x : State × β}, Keeps b s x.1 → Keeps b s (l.foldl f x).1
  | [], _, h => h
  | a :: l, x, h => Keeps.foldl_fst hf (l := l) (hf x a h)

theorem some_of_ite {α : Type} {c : Prop} [Decidable c] {x y : Option α} {z : α} (h : (if c then x else y) = some z) :
    (c ∧ x = some z) ∨ (¬c ∧ y = some z) := by
  by_cases hc : c
  · rw [if_pos hc] at h; exact .inl ⟨hc, h⟩
  · rw [if_neg hc] at h; exact .inr ⟨hc, h⟩

/-! ### The named updates -/

variable {r : State}

theorem updHost_keeps (h : Keeps b r s) (p : Port) (f : Memory → Memory) (hf : ∀ m, m.wf = true → (f m).wf = true) : Keeps b r (updHost s p f) :=
  h.trans {
    pending := rfl
    silicon := rfl
    pwrGood := rfl
    timeBase := rfl
    fatal := id
    tripped := id
    head := Nat.le_refl _
    blotter := id
    clocks := id
    range := id
    lock := fun _ => rfl
    mem := fun x => ⟨x.1, fun q => by
      by_cases e : (p : Nat) = (q : Nat)
      · simp only [updHost_ports, Fin.getElem_fin, e, Vector.getElem_set_self]
        exact hf _ (x.2 q)
      · simp only [updHost_ports, Fin.getElem_fin, Vector.getElem_set_ne _ _ e]
        exact x.2 q⟩
    held := fun _ => ⟨rfl, rfl, rfl, rfl, rfl, rfl, rfl⟩ }

theorem updPort_keeps (h : Keeps b r s) (p : Port) (f : PciePort → PciePort) (hf : ∀ x, (f x).host = x.host) : Keeps b r (updPort s p f) :=
  h.trans {
    pending := rfl
    silicon := rfl
    pwrGood := rfl
    timeBase := rfl
    fatal := id
    tripped := id
    head := Nat.le_refl _
    blotter := id
    clocks := id
    range := id
    lock := fun _ => rfl
    mem := fun x => ⟨x.1, fun q => by
      by_cases e : (p : Nat) = (q : Nat)
      · simp only [updPort_ports, Fin.getElem_fin, e, Vector.getElem_set_self, hf]
        exact x.2 q
      · simp only [updPort_ports, Fin.getElem_fin, Vector.getElem_set_ne _ _ e]
        exact x.2 q⟩
    held := fun _ => ⟨rfl, rfl, rfl, rfl, rfl, rfl, rfl⟩ }

theorem updMem_keeps (h : Keeps b r s) (f : Memory → Memory) (hf : ∀ m, m.wf = true → (f m).wf = true) : Keeps b r (updMem s f) :=
  h.trans {
    pending := rfl
    silicon := rfl
    pwrGood := rfl
    timeBase := rfl
    fatal := id
    tripped := id
    head := Nat.le_refl _
    blotter := id
    clocks := id
    range := id
    lock := fun _ => rfl
    mem := fun x => ⟨hf _ x.1, x.2⟩
    held := fun _ => ⟨rfl, rfl, rfl, rfl, rfl, rfl, rfl⟩ }

theorem setMem_keeps (h : Keeps b r s) (m : Memory) (hf : s.mem.wf = true → m.wf = true) : Keeps b r ({ s with mem := m }) :=
  h.trans {
    pending := rfl
    silicon := rfl
    pwrGood := rfl
    timeBase := rfl
    fatal := id
    tripped := id
    head := Nat.le_refl _
    blotter := id
    clocks := id
    range := id
    lock := fun _ => rfl
    mem := fun x => ⟨hf x.1, x.2⟩
    held := fun _ => ⟨rfl, rfl, rfl, rfl, rfl, rfl, rfl⟩ }

theorem updQuadClock_keeps (h : Keeps b r s) (p : Quad) (f : QuadClock → QuadClock)
    (hf : s.power.quads[p].ok → (f s.power.quads[p]).ok) : Keeps b r (updQuadClock s p f) :=
  h.trans {
    pending := rfl
    silicon := rfl
    pwrGood := rfl
    timeBase := rfl
    fatal := id
    tripped := id
    head := Nat.le_refl _
    blotter := id
    clocks := fun x q => by
      by_cases e : (p : Nat) = (q : Nat)
      · simp only [updQuadClock_power, Fin.getElem_fin, e, Vector.getElem_set_self]
        have k := hf (x p)
        simp only [Fin.getElem_fin, e] at k
        exact k
      · simp only [updQuadClock_power, Fin.getElem_fin, Vector.getElem_set_ne _ _ e]
        exact x q
    range := id
    lock := fun _ => rfl
    mem := id
    held := fun _ => ⟨rfl, rfl, rfl, rfl, rfl, rfl, rfl⟩ }

theorem setPower_keeps (h : Keeps b r s) (x : Power) (ht : s.power.tripped = true → x.tripped = true)
    (hc : (∀ q : Quad, s.power.quads[q].ok) → ∀ q : Quad, x.quads[q].ok) : Keeps b r ({ s with power := x }) :=
  h.trans {
    pending := rfl
    silicon := rfl
    pwrGood := rfl
    timeBase := rfl
    fatal := id
    tripped := ht
    head := Nat.le_refl _
    blotter := id
    clocks := hc
    range := id
    lock := fun _ => rfl
    mem := id
    held := fun _ => ⟨rfl, rfl, rfl, rfl, rfl, rfl, rfl⟩ }

theorem setBlotter_keeps (h : Keeps b r s) (x : Blotter) (hh : s.blotter.head ≤ x.head) (ho : s.blotter.ok → x.ok) : Keeps b r ({ s with blotter := x }) :=
  h.trans {
    pending := rfl
    silicon := rfl
    pwrGood := rfl
    timeBase := rfl
    fatal := id
    tripped := id
    head := hh
    blotter := ho
    clocks := id
    range := id
    lock := fun _ => rfl
    mem := id
    held := fun _ => ⟨rfl, rfl, rfl, rfl, rfl, rfl, rfl⟩ }

/-- A record update that writes the blotter besides. -/
theorem Keeps.updB (h : Keeps b r s)
    {pins : Pins} {silicon : Silicon} {boot : Boot} {power : Power} {settings : Settings} {regions : Vector Region 72}
    {blotter : Blotter} {errors : ErrorBlock} {timeBase : Nat} {telemetry : List ((Nat × Nat) × Nat)}
    {staleNotes : List (Nat × Nat × Nat)} {ports : Vector PciePort 2} {parts : Vector Partition 4} {mgmt : Mgmt}
    {cmds : List Cmd} {longs : List LongOp} {folios : List Folio} {pairings : List Pairing} {pairWaits : List PairWait}
    {fillers : List FillerRun} {copies : List CopyOp} {mem : Memory} {shadows : List (Nat × Nat × Nat)}
    {seqs : Vector Sequencer 4} {ductus : Vector Ductus 4} {ligature : Vector Ligature 8} {gatherQ : List Packet}
    {fabric : Vector FabricPort 16} {router : Router} {inbox : List Packet} {lineQueues : List LineQueue}
    {ledger : List LedgerSource} {windows : List ReqWindow} {trackers : List Tracker} {threads : List Thread}
    {lastIssued lastServed : List (Nat × Nat)} {tokens : List ((Nat × Nat) × Nat)} {waits : List WaitMode}
    {reservoirs : List (Nat × Nat)} {pulls : List PullServe} {debugWrites : List (Nat × Bytes)} {scrub : Vector Nat 8}
    {bridge : Vector Nat 4} {nextUid fresh : Nat} {pending : List Instr}
    (h1 : pending = s.pending) (h2 : silicon = s.silicon) (h3 : pins.pwrGood = s.pins.pwrGood)
    (h4 : pins.modResetN = s.pins.modResetN) (h5 : pins.perstN = s.pins.perstN) (h6 : pins.slotStrap = s.pins.slotStrap)
    (h7 : timeBase = s.timeBase) (h8 : errors.fatal = s.errors.fatal) (h9 : power.tripped = s.power.tripped)
    (h10 : s.blotter.head ≤ blotter.head) (h0 : s.blotter.ok → blotter.ok) (h11 : power.quads = s.power.quads) (h12 : settings = s.settings) (h13 : mem = s.mem)
    (h14 : ports = s.ports) (h15 : boot = s.boot) (h16 : scrub = s.scrub) (h17 : bridge = s.bridge) :
    Keeps b r (State.mk pins silicon boot power settings regions blotter errors timeBase telemetry staleNotes ports parts mgmt cmds
      longs folios pairings pairWaits fillers copies mem shadows seqs ductus ligature gatherQ fabric router inbox lineQueues ledger
      windows trackers threads lastIssued lastServed tokens waits reservoirs pulls debugWrites scrub bridge nextUid fresh pending) :=
  (setBlotter_keeps h blotter h10 h0).trans (Keeps.of_eq h1 h2 h3 h4 h5 h6 h7 h8 h9 rfl h11 h12 h13 h14 h15 h16 h17)

/-- A record update that writes the memory besides. -/
theorem Keeps.updM (h : Keeps b r s)
    {pins : Pins} {silicon : Silicon} {boot : Boot} {power : Power} {settings : Settings} {regions : Vector Region 72}
    {blotter : Blotter} {errors : ErrorBlock} {timeBase : Nat} {telemetry : List ((Nat × Nat) × Nat)}
    {staleNotes : List (Nat × Nat × Nat)} {ports : Vector PciePort 2} {parts : Vector Partition 4} {mgmt : Mgmt}
    {cmds : List Cmd} {longs : List LongOp} {folios : List Folio} {pairings : List Pairing} {pairWaits : List PairWait}
    {fillers : List FillerRun} {copies : List CopyOp} {mem : Memory} {shadows : List (Nat × Nat × Nat)}
    {seqs : Vector Sequencer 4} {ductus : Vector Ductus 4} {ligature : Vector Ligature 8} {gatherQ : List Packet}
    {fabric : Vector FabricPort 16} {router : Router} {inbox : List Packet} {lineQueues : List LineQueue}
    {ledger : List LedgerSource} {windows : List ReqWindow} {trackers : List Tracker} {threads : List Thread}
    {lastIssued lastServed : List (Nat × Nat)} {tokens : List ((Nat × Nat) × Nat)} {waits : List WaitMode}
    {reservoirs : List (Nat × Nat)} {pulls : List PullServe} {debugWrites : List (Nat × Bytes)} {scrub : Vector Nat 8}
    {bridge : Vector Nat 4} {nextUid fresh : Nat} {pending : List Instr}
    (h1 : pending = s.pending) (h2 : silicon = s.silicon) (h3 : pins.pwrGood = s.pins.pwrGood)
    (h4 : pins.modResetN = s.pins.modResetN) (h5 : pins.perstN = s.pins.perstN) (h6 : pins.slotStrap = s.pins.slotStrap)
    (h7 : timeBase = s.timeBase) (h8 : errors.fatal = s.errors.fatal) (h9 : power.tripped = s.power.tripped)
    (h10 : blotter = s.blotter) (h11 : power.quads = s.power.quads) (h12 : settings = s.settings) (h13 : s.mem.wf = true → mem.wf = true)
    (h14 : ports = s.ports) (h15 : boot = s.boot) (h16 : scrub = s.scrub) (h17 : bridge = s.bridge) :
    Keeps b r (State.mk pins silicon boot power settings regions blotter errors timeBase telemetry staleNotes ports parts mgmt cmds
      longs folios pairings pairWaits fillers copies mem shadows seqs ductus ligature gatherQ fabric router inbox lineQueues ledger
      windows trackers threads lastIssued lastServed tokens waits reservoirs pulls debugWrites scrub bridge nextUid fresh pending) :=
  (setMem_keeps h mem h13).trans (Keeps.of_eq h1 h2 h3 h4 h5 h6 h7 h8 h9 h10 h11 h12 rfl h14 h15 h16 h17)

theorem updPart_keeps (h : Keeps b r s) (p : Part) (f : Partition → Partition) : Keeps b r (updPart s p f) :=
  h.trans (Keeps.of_eq rfl rfl rfl rfl rfl rfl rfl rfl rfl rfl rfl rfl rfl rfl rfl rfl rfl)

theorem updDomain_keeps (h : Keeps b r s) (d : Domain) (f : PowerDomain → PowerDomain) : Keeps b r (updDomain s d f) :=
  h.trans (Keeps.of_eq rfl rfl rfl rfl rfl rfl rfl rfl rfl rfl rfl rfl rfl rfl rfl rfl rfl)

theorem updSeq_keeps (h : Keeps b r s) (q : Quad) (f : Sequencer → Sequencer) : Keeps b r (updSeq s q f) :=
  h.trans (Keeps.of_eq rfl rfl rfl rfl rfl rfl rfl rfl rfl rfl rfl rfl rfl rfl rfl rfl rfl)

theorem updDuctus_keeps (h : Keeps b r s) (q : Quad) (f : Ductus → Ductus) : Keeps b r (updDuctus s q f) :=
  h.trans (Keeps.of_eq rfl rfl rfl rfl rfl rfl rfl rfl rfl rfl rfl rfl rfl rfl rfl rfl rfl)

theorem updLig_keeps (h : Keeps b r s) (e : Engine) (f : Ligature → Ligature) : Keeps b r (updLig s e f) :=
  h.trans (Keeps.of_eq rfl rfl rfl rfl rfl rfl rfl rfl rfl rfl rfl rfl rfl rfl rfl rfl rfl)

theorem updFabric_keeps (h : Keeps b r s) (p : FPort) (f : FabricPort → FabricPort) : Keeps b r (updFabric s p f) :=
  h.trans (Keeps.of_eq rfl rfl rfl rfl rfl rfl rfl rfl rfl rfl rfl rfl rfl rfl rfl rfl rfl)

theorem updRouter_keeps (h : Keeps b r s) (f : Router → Router) : Keeps b r (updRouter s f) :=
  h.trans (Keeps.of_eq rfl rfl rfl rfl rfl rfl rfl rfl rfl rfl rfl rfl rfl rfl rfl rfl rfl)

theorem updRegion_keeps (h : Keeps b r s) (g : Fin 72) (f : Region → Region) : Keeps b r (updRegion s g f) :=
  h.trans (Keeps.of_eq rfl rfl rfl rfl rfl rfl rfl rfl rfl rfl rfl rfl rfl rfl rfl rfl rfl)

theorem updLong_keeps (h : Keeps b r s) (n : Handle) (f : LongOp → LongOp) : Keeps b r (updLong s n f) :=
  h.trans (Keeps.of_eq rfl rfl rfl rfl rfl rfl rfl rfl rfl rfl rfl rfl rfl rfl rfl rfl rfl)

theorem updFolio_keeps (h : Keeps b r s) (n : Handle) (f : Folio → Folio) : Keeps b r (updFolio s n f) :=
  h.trans (Keeps.of_eq rfl rfl rfl rfl rfl rfl rfl rfl rfl rfl rfl rfl rfl rfl rfl rfl rfl)

theorem updRun_keeps (h : Keeps b r s) (n : Handle) (f : Run → Run) : Keeps b r (updRun s n f) :=
  h.trans (Keeps.of_eq rfl rfl rfl rfl rfl rfl rfl rfl rfl rfl rfl rfl rfl rfl rfl rfl rfl)

theorem bump_keeps (h : Keeps b r s) (id idx n : Nat) : Keeps b r (bump s id idx n) :=
  h.trans (Keeps.of_eq rfl rfl rfl rfl rfl rfl rfl rfl rfl rfl rfl rfl rfl rfl rfl rfl rfl)

theorem bumpMax_keeps (h : Keeps b r s) (id idx n : Nat) : Keeps b r (bumpMax s id idx n) :=
  h.trans (Keeps.of_eq rfl rfl rfl rfl rfl rfl rfl rfl rfl rfl rfl rfl rfl rfl rfl rfl rfl)

theorem drawFree_keeps (h : Keeps b r s) : Keeps b r (drawFree s).2 :=
  h.trans (Keeps.of_eq rfl rfl rfl rfl rfl rfl rfl rfl rfl rfl rfl rfl rfl rfl rfl rfl rfl)

theorem undefineRange_keeps (h : Keeps b r s) (lo hi : Nat) : Keeps b r (undefineRange s lo hi) :=
  (updMem_keeps h (fun m => m.undefine lo hi s.fresh) (fun m k => m.undefine_wf lo hi _ k)).trans
    (Keeps.of_eq rfl rfl rfl rfl rfl rfl rfl rfl rfl rfl rfl rfl rfl rfl rfl rfl rfl)

theorem undefineHost_keeps (h : Keeps b r s) (p : Port) (lo hi : Nat) : Keeps b r (undefineHost s p lo hi) :=
  (updHost_keeps h p (fun m => m.undefine lo hi s.fresh) (fun m k => m.undefine_wf lo hi _ k)).trans
    (Keeps.of_eq rfl rfl rfl rfl rfl rfl rfl rfl rfl rfl rfl rfl rfl rfl rfl rfl rfl)

end Sys2Proof.Machine
end

