-- ==== Sys2Proof/Laws/KeepsEvents.lean ====
section
/-! SUPPORT. What the operations of Machine/Events.lean keep. -/

namespace Sys2Proof.Machine

open Sys2Proof

theorem blotter_put_ok (x : Blotter) (r : BlotterRec) (h : x.ok) : (x.put r).ok := by
  have slot : blotterSlot x x.head < 2048 := by unfold blotterSlot; split <;> omega
  refine ⟨fun e he => ?_, ?_⟩
  · rcases List.mem_cons.mp he with e1 | e1
    · subst e1; exact ⟨slot, Nat.lt_succ_self _⟩
    · have := h.1 e (List.mem_filter.mp e1).1
      exact ⟨this.1, Nat.lt_succ_of_lt this.2⟩
  · simp only [Blotter.put, List.map_cons, List.nodup_cons]
    refine ⟨?_, ?_⟩
    · intro hm
      obtain ⟨e, he, e2⟩ := List.mem_map.mp hm
      have := (List.mem_filter.mp he).2
      simp [e2] at this
    · exact List.Nodup.sublist (List.Sublist.map _ List.filter_sublist) h.2

theorem note_keeps {lv : Bool} {root s : State} (code unit : Nat) (stamp : Stamp) (a0 a1 a2 : Nat) (kp : Keeps lv root s) :
    Keeps lv root (note s code unit stamp a0 a1 a2) := by
  unfold note
  split
  · exact kp
  · dsimp only
    split
    · exact setBlotter_keeps (bump_keeps kp 0x53 0 1) _ (Nat.le_succ _) (fun h => blotter_put_ok _ _ h)
    · exact setBlotter_keeps kp _ (Nat.le_succ _) (fun h => blotter_put_ok _ _ h)

theorem freeze_keeps {lv : Bool} {root s : State} (cause : Nat) (kp : Keeps lv root s) : Keeps lv root (freeze s cause) := by
  unfold freeze
  dsimp only
  split
  · exact note_keeps _ _ _ _ _ _ kp
  · exact setBlotter_keeps (note_keeps _ _ _ _ _ _ kp) _ (Nat.le_refl _) id

theorem signalVector_keeps {lv : Bool} {root s : State} (p : Port) (v : Nat) (kp : Keeps lv root s) :
    Keeps lv root (signalVector s p v) := by
  unfold signalVector
  dsimp only
  repeat' first
    | with_reducible assumption
    | (intro _; with_reducible rfl)
    | (intro _ _)
    | with_reducible apply Memory.writeBytes_wf
    | (with_reducible refine Keeps.ite (fun _ => ?_) (fun _ => ?_))
    | with_reducible apply updHost_keeps
    | with_reducible apply updPort_keeps

theorem eventPut_keeps {lv : Bool} {root s : State} (p : Part) (code unit : Nat) (stamp : Stamp) (a0 a1 : Nat) (kp : Keeps lv root s) :
    Keeps lv root (eventPut s p code unit stamp a0 a1) := by
  unfold eventPut
  dsimp only
  repeat' first
    | with_reducible assumption
    | (intro _ _)
    | with_reducible apply Memory.writeBytes_wf
    | with_reducible apply updHost_keeps
    | with_reducible apply updPart_keeps
    | with_reducible apply signalVector_keeps

theorem postEvent_keeps {lv : Bool} {root s : State} (p : Part) (code unit : Nat) (stamp : Stamp) (a0 a1 : Nat) (kp : Keeps lv root s) :
    Keeps lv root (postEvent s p code unit stamp a0 a1) := by
  unfold postEvent
  dsimp only
  repeat' first
    | with_reducible assumption
    | (with_reducible refine Keeps.ite (fun _ => ?_) (fun _ => ?_))
    | with_reducible apply updPart_keeps
    | with_reducible apply bump_keeps
    | with_reducible apply note_keeps
    | with_reducible apply eventPut_keeps

theorem hostEvent_keeps {lv : Bool} {root s : State} (ps : List Part) (code unit : Nat) (stamp : Stamp) (a0 a1 : Nat) (kp : Keeps lv root s) :
    Keeps lv root (hostEvent s ps code unit stamp a0 a1) := by
  unfold hostEvent
  repeat' first
    | with_reducible assumption
    | (with_reducible refine Keeps.foldl (fun _ _ _ => ?_) ?_)
    | with_reducible apply note_keeps
    | with_reducible apply postEvent_keeps

theorem hostEventQuiet_keeps {lv : Bool} {root s : State} (ps : List Part) (code unit : Nat) (stamp : Stamp) (a0 a1 : Nat) (kp : Keeps lv root s) :
    Keeps lv root (hostEventQuiet s ps code unit stamp a0 a1) := by
  unfold hostEventQuiet
  repeat' first
    | with_reducible assumption
    | (with_reducible refine Keeps.foldl (fun _ _ _ => ?_) ?_)
    | with_reducible apply postEvent_keeps

theorem retireCmd_keeps {lv : Bool} {root s : State} (uid : Nat) (kp : Keeps lv root s) :
    Keeps lv root (retireCmd s uid) := by
  unfold retireCmd
  repeat' first
    | with_reducible assumption
    | fail_if_no_progress (with_reducible refine Keeps.upd ?_ rfl rfl rfl rfl rfl rfl rfl rfl rfl rfl rfl rfl rfl rfl rfl rfl rfl)

theorem updCq_keeps {lv : Bool} {root s : State} (p : Part) (q : Fin 16) (f : CompRing → CompRing) (kp : Keeps lv root s) :
    Keeps lv root (updCq s p q f) := by
  unfold updCq
  repeat' first
    | with_reducible assumption
    | with_reducible apply updPart_keeps

theorem postOne_keeps {lv : Bool} {root s : State} (p : Part) (q : Fin 16) (r : Completion) (kp : Keeps lv root s) :
    Keeps lv root (postOne s p q r) := by
  unfold postOne
  dsimp only
  repeat' first
    | with_reducible assumption
    | (intro _ _)
    | with_reducible apply Memory.writeBytes_wf
    | (with_reducible refine Keeps.ite (fun _ => ?_) (fun _ => ?_))
    | with_reducible apply updHost_keeps
    | with_reducible apply signalVector_keeps
    | with_reducible apply retireCmd_keeps
    | with_reducible apply updCq_keeps
    | split

theorem enqueueRecord_keeps {lv : Bool} {root s : State} (c : Cmd) (r : Completion) (kp : Keeps lv root s) :
    Keeps lv root (enqueueRecord s c r) := by
  unfold enqueueRecord
  repeat' first
    | with_reducible assumption
    | with_reducible apply updCq_keeps
    | fail_if_no_progress (with_reducible refine Keeps.upd ?_ rfl rfl rfl rfl rfl rfl rfl rfl rfl rfl rfl rfl rfl rfl rfl rfl rfl)

theorem pumpFuel_keeps {lv : Bool} {root : State} : ∀ (n : Nat) {s : State}, Keeps lv root s → Keeps lv root (pumpFuel n s)
  | 0, _, kp => kp
  | n + 1, s, kp => by
    unfold pumpFuel
    split
    · exact pumpFuel_keeps n (postOne_keeps _ _ _ kp)
    · split
      · refine pumpFuel_keeps n (enqueueRecord_keeps _ _ ?_)
        exact Keeps.upd kp rfl rfl rfl rfl rfl rfl rfl rfl rfl rfl rfl rfl rfl rfl rfl rfl rfl
      · exact kp

theorem pump_keeps {lv : Bool} {root s : State} (kp : Keeps lv root s) : Keeps lv root (pump s) := pumpFuel_keeps _ kp

theorem postRecord_keeps {lv : Bool} {root s : State} (uid status kind reason d0 d1 : Nat) (kp : Keeps lv root s) :
    Keeps lv root (postRecord s uid status kind reason d0 d1) := by
  unfold postRecord
  repeat' first
    | with_reducible assumption
    | with_reducible apply enqueueRecord_keeps
    | with_reducible apply pump_keeps
    | split

theorem finish_keeps {lv : Bool} {root s : State} (uid status reason d0 d1 : Nat) (kp : Keeps lv root s) :
    Keeps lv root (finish s uid status reason d0 d1) := by
  unfold finish
  repeat' first
    | with_reducible assumption
    | with_reducible apply postRecord_keeps

theorem finishAfter_keeps {lv : Bool} {root s : State} (uid status reason d0 d1 : Nat) (after : Option Nat) (kp : Keeps lv root s) :
    Keeps lv root (finishAfter s uid status reason d0 d1 after) := by
  unfold finishAfter
  repeat' first
    | with_reducible assumption
    | with_reducible apply enqueueRecord_keeps
    | with_reducible apply pump_keeps
    | split

theorem sendPacket_keeps {lv : Bool} {root s : State} (p : Packet) (kp : Keeps lv root s) :
    Keeps lv root (sendPacket s p) := by
  unfold sendPacket
  repeat' first
    | with_reducible assumption
    | (with_reducible refine Keeps.ite (fun _ => ?_) (fun _ => ?_))
    | with_reducible apply updRouter_keeps
    | fail_if_no_progress (with_reducible refine Keeps.upd ?_ rfl rfl rfl rfl rfl rfl rfl rfl rfl rfl rfl rfl rfl rfl rfl rfl rfl)

theorem fmMessage_keeps {lv : Bool} {root s : State} (code : Nat) (args : Bytes) (kp : Keeps lv root s) :
    Keeps lv root (fmMessage s code args) := by
  unfold fmMessage
  repeat' first
    | with_reducible assumption
    | (with_reducible refine Keeps.ite (fun _ => ?_) (fun _ => ?_))
    | with_reducible apply sendPacket_keeps
    | fail_if_no_progress (with_reducible refine Keeps.upd ?_ rfl rfl rfl rfl rfl rfl rfl rfl rfl rfl rfl rfl rfl rfl rfl rfl rfl)

theorem errorNote_keeps {lv : Bool} {root s : State} (code unit : Nat) (stamp : Stamp) (a0 a1 detail : Nat) (kp : Keeps lv root s) :
    Keeps lv root (errorNote s code unit stamp a0 a1 detail) := by
  unfold errorNote
  repeat' first
    | with_reducible assumption
    | with_reducible apply note_keeps

theorem containedError_keeps {lv : Bool} {root s : State} (code unit : Nat) (stamp : Stamp) (detail : Nat) (kp : Keeps lv root s) :
    Keeps lv root (containedError s code unit stamp detail) := by
  unfold containedError
  dsimp only
  repeat' first
    | with_reducible assumption
    | with_reducible exact Nat.le_refl _
    | with_reducible exact Blotter.ok_of rfl rfl
    | (with_reducible refine Keeps.ite (fun _ => ?_) (fun _ => ?_))
    | with_reducible apply hostEventQuiet_keeps
    | with_reducible apply fmMessage_keeps
    | with_reducible apply errorNote_keeps
    | fail_if_no_progress (with_reducible refine Keeps.upd ?_ rfl rfl rfl rfl rfl rfl rfl rfl rfl rfl rfl rfl rfl rfl rfl rfl rfl)
    | (with_reducible refine Keeps.updB ?_ rfl rfl rfl rfl rfl rfl rfl rfl rfl ?_ ?_ rfl rfl rfl rfl rfl rfl rfl)

theorem signalFatal_keeps {lv : Bool} {root s : State}  (kp : Keeps lv root s) :
    Keeps lv root (signalFatal s) := by
  unfold signalFatal
  dsimp only
  repeat' first
    | with_reducible assumption
    | (with_reducible refine Keeps.ite (fun _ => ?_) (fun _ => ?_))
    | (with_reducible refine Keeps.foldl (fun _ _ _ => ?_) ?_)
    | with_reducible apply signalVector_keeps

theorem finishAll_keeps {lv : Bool} {root s : State} (code : Nat) (kp : Keeps lv root s) :
    Keeps lv root (finishAll s code) := by
  unfold finishAll
  repeat' first
    | with_reducible assumption
    | (with_reducible refine Keeps.foldl (fun _ _ _ => ?_) ?_)
    | with_reducible apply finish_keeps

theorem setErrors_keeps {lv : Bool} {root s : State} (x : ErrorBlock) (p : Pins) (hp : p.pwrGood = s.pins.pwrGood)
    (h1 : p.modResetN = s.pins.modResetN) (h2 : p.perstN = s.pins.perstN) (h3 : p.slotStrap = s.pins.slotStrap)
    (hf : s.errors.fatal = true → x.fatal = true) (kp : Keeps lv root s) : Keeps lv root { s with errors := x, pins := p } :=
  kp.trans {
    pending := rfl
    silicon := rfl
    pwrGood := hp
    timeBase := rfl
    fatal := hf
    tripped := id
    head := Nat.le_refl _
    blotter := id
    clocks := id
    range := id
    lock := fun _ => rfl
    mem := id
    held := fun _ => ⟨rfl, h1, h2, h3, rfl, rfl, rfl⟩ }

theorem deviceStop_keeps {lv : Bool} {root s : State} (code unit detail a0 : Nat) (kp : Keeps lv root s) :
    Keeps lv root (deviceStop s code unit detail a0) := by
  unfold deviceStop
  dsimp only
  split
  · exact errorNote_keeps _ _ _ _ _ _ kp
  · with_reducible refine Keeps.upd ?_ rfl rfl rfl rfl rfl rfl rfl rfl rfl rfl rfl rfl rfl rfl rfl rfl rfl
    have k := setErrors_keeps
      { (freeze (errorNote s code unit 0 a0 0 detail) code).errors with
        fatal := true, cause := BitVec.ofNat 32 (unit * 2 ^ 16 + code), fatalTime := s.timeBase, supervised := false }
      { (freeze (errorNote s code unit 0 a0 0 detail) code).pins with faultN := false } rfl rfl rfl rfl (fun _ => rfl)
      (freeze_keeps code (errorNote_keeps code unit 0 a0 0 detail kp))
    split
    · exact fmMessage_keeps _ _ (signalFatal_keeps k)
    · exact finishAll_keeps _ (fmMessage_keeps _ _ (signalFatal_keeps k))

theorem failJob_keeps {lv : Bool} {root s : State} (stamp : Stamp) (code unit detail a0 a1 : Nat) (kp : Keeps lv root s) :
    Keeps lv root (failJob s stamp code unit detail a0 a1) := by
  unfold failJob
  dsimp only
  repeat' first
    | with_reducible assumption
    | (with_reducible refine Keeps.ite (fun _ => ?_) (fun _ => ?_))
    | with_reducible apply updPart_keeps
    | with_reducible apply bump_keeps
    | with_reducible apply freeze_keeps
    | with_reducible apply hostEventQuiet_keeps
    | with_reducible apply fmMessage_keeps
    | with_reducible apply errorNote_keeps
    | with_reducible apply deviceStop_keeps
    | split
    | fail_if_no_progress (with_reducible refine Keeps.upd ?_ rfl rfl rfl rfl rfl rfl rfl rfl rfl rfl rfl rfl rfl rfl rfl rfl rfl)

theorem staleDrop_keeps {lv : Bool} {root s : State} (unit : Nat) (stamp : Stamp) (kp : Keeps lv root s) :
    Keeps lv root (staleDrop s unit stamp) := by
  unfold staleDrop
  dsimp only
  repeat' first
    | with_reducible assumption
    | with_reducible apply bump_keeps
    | split
    | fail_if_no_progress (with_reducible refine Keeps.upd ?_ rfl rfl rfl rfl rfl rfl rfl rfl rfl rfl rfl rfl rfl rfl rfl rfl rfl)

theorem correctedError_keeps {lv : Bool} {root s : State} (unit : Nat) (kp : Keeps lv root s) :
    Keeps lv root (correctedError s unit) := by
  unfold correctedError
  dsimp only
  repeat' first
    | with_reducible assumption
    | with_reducible exact Nat.le_refl _
    | with_reducible exact Blotter.ok_of rfl rfl
    | split
    | fail_if_no_progress (with_reducible refine Keeps.upd ?_ rfl rfl rfl rfl rfl rfl rfl rfl rfl rfl rfl rfl rfl rfl rfl rfl rfl)
    | (with_reducible refine Keeps.updB ?_ rfl rfl rfl rfl rfl rfl rfl rfl rfl ?_ ?_ rfl rfl rfl rfl rfl rfl rfl)

theorem linkEvent_keeps {lv : Bool} {root s : State} (p : FPort) (code : Nat) (kp : Keeps lv root s) :
    Keeps lv root (linkEvent s p code) := by
  unfold linkEvent
  repeat' first
    | with_reducible assumption
    | with_reducible apply hostEvent_keeps

theorem powerEvent_keeps {lv : Bool} {root s : State} (what arg unit : Nat) (kp : Keeps lv root s) :
    Keeps lv root (powerEvent s what arg unit) := by
  unfold powerEvent
  repeat' first
    | with_reducible assumption
    | with_reducible apply hostEvent_keeps

end Sys2Proof.Machine
end

