-- ==== Sys2Proof/Laws/KeepsPeers.lean ====
section
/-! SUPPORT. What the operations of Machine/Peers.lean keep. -/

namespace Sys2Proof.Machine

open Sys2Proof

theorem sendToRank_keeps {lv : Bool} {root s : State} (p : Part) (own rank : Nat) (pkt : Packet) (kp : Keeps lv root s) :
    Keeps lv root (sendToRank s p own rank pkt) := by
  unfold sendToRank
  dsimp only
  repeat' first
    | with_reducible assumption
    | (with_reducible refine Keeps.ite (fun _ => ?_) (fun _ => ?_))
    | with_reducible apply bump_keeps
    | with_reducible apply sendPacket_keeps
    | with_reducible apply failJob_keeps
    | fail_if_no_progress (with_reducible refine Keeps.upd ?_ rfl rfl rfl rfl rfl rfl rfl rfl rfl rfl rfl rfl rfl rfl rfl rfl rfl)

theorem sendBack_keeps {lv : Bool} {root s : State} (dest : Coord) (pkt : Packet) (kp : Keeps lv root s) :
    Keeps lv root (sendBack s dest pkt) := by
  unfold sendBack
  dsimp only
  repeat' first
    | with_reducible assumption
    | (with_reducible refine Keeps.ite (fun _ => ?_) (fun _ => ?_))
    | with_reducible apply sendPacket_keeps
    | fail_if_no_progress (with_reducible refine Keeps.upd ?_ rfl rfl rfl rfl rfl rfl rfl rfl rfl rfl rfl rfl rfl rfl rfl rfl rfl)

end Sys2Proof.Machine
end

