-- ==== Sys2Proof/Laws/MemoryOps.lean ====
section
/-! SUPPORT. Every function from memory to memory keeps the canonical form. -/

namespace Sys2Proof.Machine

open Sys2Proof

theorem foldl_wrote_wf {α : Type} {f : Wrote → α → Wrote} (hf : ∀ w x, w.mem.wf = true → (f w x).mem.wf = true) :
    ∀ {l : List α} {w : Wrote}, w.mem.wf = true → (l.foldl f w).mem.wf = true
  | [], _, h => h
  | x :: l, w, h => foldl_wrote_wf hf (l := l) (hf w x h)

theorem writeElem_wf {m : Memory} (base : Nat) (f : Fmt) (n w : Nat) (h : m.wf = true) :
    (writeElem m base f n w).wf = true := by
  unfold writeElem
  try dsimp only
  repeat' first
    | with_reducible assumption
    | with_reducible apply Memory.writeBytes_wf
    | with_reducible apply Memory.write_wf
    | split
    | (intro _ _)
    | dsimp only

theorem wireStore_wf {m : Memory} (t : TRef) (off n start : Nat) (b : Bytes) (h : m.wf = true) :
    (wireStore m t off n start b).wf = true := by
  unfold wireStore
  try dsimp only
  repeat' first
    | with_reducible assumption
    | with_reducible apply Memory.store_wf
    | with_reducible apply writeElem_wf
    | (with_reducible refine Memory.foldl_wf (fun _ _ _ => ?_) ?_)
    | (with_reducible refine Memory.foldl_fst_wf (fun _ _ _ => ?_) ?_)
    | (with_reducible refine foldl_wrote_wf (fun _ _ _ => ?_) ?_)
    | split
    | (intro _ _)
    | dsimp only

theorem writeBlock_wf {m : Memory} (t : TRef) (block : Nat) (w : List XVal) (conv : Nat → XVal → Nat × NumEvents) (h : m.wf = true) :
    (writeBlock m t block w conv).mem.wf = true := by
  unfold writeBlock
  try dsimp only
  repeat' first
    | with_reducible assumption
    | with_reducible apply Memory.write_wf
    | with_reducible apply writeElem_wf
    | (with_reducible refine Memory.foldl_wf (fun _ _ _ => ?_) ?_)
    | (with_reducible refine Memory.foldl_fst_wf (fun _ _ _ => ?_) ?_)
    | (with_reducible refine foldl_wrote_wf (fun _ _ _ => ?_) ?_)
    | split
    | (intro _ _)
    | dsimp only

theorem writeRun_wf {m : Memory} (t : TRef) (start : Nat) (cs : List XVal) (conv : Nat → XVal → Nat × NumEvents) (h : m.wf = true) :
    (writeRun m t start cs conv).mem.wf = true := by
  unfold writeRun
  try dsimp only
  repeat' first
    | with_reducible assumption
    | with_reducible apply writeElem_wf
    | with_reducible apply writeBlock_wf
    | (with_reducible refine Memory.foldl_wf (fun _ _ _ => ?_) ?_)
    | (with_reducible refine Memory.foldl_fst_wf (fun _ _ _ => ?_) ?_)
    | (with_reducible refine foldl_wrote_wf (fun _ _ _ => ?_) ?_)
    | split
    | (intro _ _)
    | dsimp only

theorem clearTensorPoison_wf {m : Memory} (t : TRef) (h : m.wf = true) : (clearTensorPoison m t).wf = true := h

theorem deliver_wf {m : Memory} (t : TRef) (dout : XVal) (o : OutStage) (start : Nat) (xs : List XVal) (h : m.wf = true) :
    (deliver m t dout o start xs).mem.wf = true := by
  unfold deliver
  try dsimp only
  repeat' first
    | with_reducible assumption
    | with_reducible apply writeRun_wf
    | with_reducible apply clearTensorPoison_wf
    | split
    | (intro _ _)
    | dsimp only

theorem pickStore_wf {m : Memory} (t : TRef) (idxs : List Nat) (start : Nat) (b : Bytes) (h : m.wf = true) :
    (pickStore m t idxs start b).wf = true := by
  unfold pickStore
  try dsimp only
  repeat' first
    | with_reducible assumption
    | with_reducible apply Memory.write_wf
    | with_reducible apply writeElem_wf
    | (with_reducible refine Memory.foldl_wf (fun _ _ _ => ?_) ?_)
    | (with_reducible refine Memory.foldl_fst_wf (fun _ _ _ => ?_) ?_)
    | (with_reducible refine foldl_wrote_wf (fun _ _ _ => ?_) ?_)
    | split
    | (intro _ _)
    | dsimp only

theorem matRun_wf {m : Memory} (f : Folio) (o : OpEntry) (x : MatArgs) (dout : XVal) (h : m.wf = true) :
    (matRun m f o x dout).mem.wf = true := by
  unfold matRun
  try dsimp only
  repeat' first
    | with_reducible assumption
    | with_reducible apply deliver_wf
    | (with_reducible refine Memory.foldl_wf (fun _ _ _ => ?_) ?_)
    | (with_reducible refine Memory.foldl_fst_wf (fun _ _ _ => ?_) ?_)
    | (with_reducible refine foldl_wrote_wf (fun _ _ _ => ?_) ?_)
    | split
    | (intro _ _)
    | dsimp only

theorem noOut_wf {m : Memory} (h : m.wf = true) : (noOut m).mem.wf = true := h

theorem outWhole_wf {m : Memory} (f : Folio) (o : OpEntry) (t : TRef) (stage : OutStage) (x : Nat → XVal) (h : m.wf = true) :
    (outWhole m f o t stage x).mem.wf = true := by
  unfold outWhole
  try dsimp only
  repeat' first
    | with_reducible assumption
    | with_reducible apply deliver_wf
    | split
    | (intro _ _)
    | dsimp only

theorem OpOut.andThen_wf {a : OpOut} (f : Memory → OpOut) (hf : ∀ m : Memory, m.wf = true → (f m).mem.wf = true)
    (h : a.mem.wf = true) : (a.andThen f).mem.wf = true := hf _ h

theorem convertOut_wf {m : Memory} (f : Folio) (o : OpEntry) (h : m.wf = true) :
    (convertOut m f o).mem.wf = true := by
  unfold convertOut
  repeat' first
    | with_reducible assumption
    | with_reducible apply noOut_wf
    | with_reducible apply outWhole_wf
    | split
    | (intro _ _)
    | dsimp only

theorem eltwiseOut_wf {m : Memory} (f : Folio) (o : OpEntry) (h : m.wf = true) :
    (eltwiseOut m f o).mem.wf = true := by
  unfold eltwiseOut
  try dsimp only
  repeat' first
    | with_reducible assumption
    | with_reducible apply Memory.zero_wf
    | with_reducible apply noOut_wf
    | with_reducible apply outWhole_wf
    | split
    | (intro _ _)
    | dsimp only

theorem activationOut_wf {m : Memory} (f : Folio) (o : OpEntry) (h : m.wf = true) :
    (activationOut m f o).mem.wf = true := by
  unfold activationOut
  repeat' first
    | with_reducible assumption
    | with_reducible apply Memory.zero_wf
    | with_reducible apply noOut_wf
    | with_reducible apply outWhole_wf
    | split
    | (intro _ _)
    | dsimp only

theorem normOut_wf {m : Memory} (f : Folio) (o : OpEntry) (h : m.wf = true) :
    (normOut m f o).mem.wf = true := by
  unfold normOut
  try dsimp only
  repeat' first
    | with_reducible assumption
    | with_reducible apply Memory.zero_wf
    | with_reducible apply noOut_wf
    | with_reducible apply outWhole_wf
    | split
    | (intro _ _)
    | dsimp only

theorem softmaxOut_wf {m : Memory} (f : Folio) (o : OpEntry) (h : m.wf = true) :
    (softmaxOut m f o).mem.wf = true := by
  unfold softmaxOut
  repeat' first
    | with_reducible assumption
    | with_reducible apply Memory.zero_wf
    | with_reducible apply noOut_wf
    | with_reducible apply outWhole_wf
    | split
    | (intro _ _)
    | dsimp only

theorem lossOut_wf {m : Memory} (f : Folio) (o : OpEntry) (h : m.wf = true) :
    (lossOut m f o).mem.wf = true := by
  unfold lossOut
  try dsimp only
  repeat' first
    | with_reducible assumption
    | with_reducible apply noOut_wf
    | with_reducible apply outWhole_wf
    | with_reducible apply OpOut.andThen_wf
    | split
    | (intro _ _)
    | dsimp only

theorem reduceOut_wf {m : Memory} (f : Folio) (o : OpEntry) (h : m.wf = true) :
    (reduceOut m f o).mem.wf = true := by
  unfold reduceOut
  try dsimp only
  repeat' first
    | with_reducible assumption
    | with_reducible apply noOut_wf
    | with_reducible apply outWhole_wf
    | split
    | (intro _ _)
    | dsimp only

theorem amaxOut_wf {m : Memory} (f : Folio) (o : OpEntry) (remote : Option XVal) (h : m.wf = true) :
    (amaxOut m f o remote).mem.wf = true := by
  unfold amaxOut
  try dsimp only
  repeat' first
    | with_reducible assumption
    | with_reducible apply noOut_wf
    | with_reducible apply outWhole_wf
    | split
    | (intro _ _)
    | dsimp only

theorem topkOut_wf {m : Memory} (f : Folio) (o : OpEntry) (h : m.wf = true) :
    (topkOut m f o).mem.wf = true := by
  unfold topkOut
  try dsimp only
  repeat' first
    | with_reducible assumption
    | with_reducible apply writeElem_wf
    | with_reducible apply noOut_wf
    | with_reducible apply outWhole_wf
    | with_reducible apply OpOut.andThen_wf
    | (with_reducible refine Memory.foldl_wf (fun _ _ _ => ?_) ?_)
    | (with_reducible refine Memory.foldl_fst_wf (fun _ _ _ => ?_) ?_)
    | (with_reducible refine foldl_wrote_wf (fun _ _ _ => ?_) ?_)
    | split
    | (intro _ _)
    | dsimp only

theorem copyElem_wf {m : Memory} (src : Memory) (a y : TRef) (from_ to_ : Nat) (h : m.wf = true) :
    (copyElem src a y m from_ to_).wf = true := by
  unfold copyElem
  repeat' first
    | with_reducible assumption
    | with_reducible apply writeElem_wf
    | (intro _ _)
    | dsimp only

theorem moveElems_wf {m : Memory} (a y : TRef) (n : Nat) (src : Nat → Nat) (h : m.wf = true) :
    (moveElems m a y n src).wf = true := by
  unfold moveElems
  try dsimp only
  repeat' first
    | with_reducible assumption
    | with_reducible apply Memory.write_wf
    | with_reducible apply copyElem_wf
    | (with_reducible refine Memory.foldl_wf (fun _ _ _ => ?_) ?_)
    | (with_reducible refine Memory.foldl_fst_wf (fun _ _ _ => ?_) ?_)
    | (with_reducible refine foldl_wrote_wf (fun _ _ _ => ?_) ?_)
    | split
    | (intro _ _)
    | dsimp only

theorem copyOut_wf {m : Memory} (f : Folio) (o : OpEntry) (h : m.wf = true) :
    (copyOut m f o).mem.wf = true := by
  unfold copyOut
  try dsimp only
  repeat' first
    | with_reducible assumption
    | with_reducible apply clearTensorPoison_wf
    | with_reducible apply noOut_wf
    | with_reducible apply moveElems_wf
    | split
    | (intro _ _)
    | dsimp only

theorem transposeOut_wf {m : Memory} (f : Folio) (o : OpEntry) (h : m.wf = true) :
    (transposeOut m f o).mem.wf = true := by
  unfold transposeOut
  try dsimp only
  repeat' first
    | with_reducible assumption
    | with_reducible apply clearTensorPoison_wf
    | with_reducible apply noOut_wf
    | with_reducible apply moveElems_wf
    | split
    | (intro _ _)
    | dsimp only

theorem copyRow_wf {m : Memory} (src : Memory) (a y : TRef) (from_ to_ : Nat) (h : m.wf = true) :
    (copyRow src a y m from_ to_).wf = true := by
  unfold copyRow
  try dsimp only
  repeat' first
    | with_reducible assumption
    | with_reducible apply Memory.write_wf
    | with_reducible apply copyElem_wf
    | (with_reducible refine Memory.foldl_wf (fun _ _ _ => ?_) ?_)
    | (with_reducible refine Memory.foldl_fst_wf (fun _ _ _ => ?_) ?_)
    | (with_reducible refine foldl_wrote_wf (fun _ _ _ => ?_) ?_)
    | split
    | (intro _ _)
    | dsimp only

theorem zeroRow_wf {m : Memory} (y : TRef) (to_ : Nat) (h : m.wf = true) :
    (zeroRow y m to_).wf = true := by
  unfold zeroRow
  try dsimp only
  repeat' first
    | with_reducible assumption
    | with_reducible apply Memory.write_wf
    | with_reducible apply writeElem_wf
    | (with_reducible refine Memory.foldl_wf (fun _ _ _ => ?_) ?_)
    | (with_reducible refine Memory.foldl_fst_wf (fun _ _ _ => ?_) ?_)
    | (with_reducible refine foldl_wrote_wf (fun _ _ _ => ?_) ?_)
    | split
    | (intro _ _)
    | dsimp only

theorem rowGatherOut_wf {m : Memory} (f : Folio) (o : OpEntry) (h : m.wf = true) :
    (rowGatherOut m f o).mem.wf = true := by
  unfold rowGatherOut
  try dsimp only
  repeat' first
    | with_reducible assumption
    | with_reducible apply noOut_wf
    | with_reducible apply copyRow_wf
    | with_reducible apply zeroRow_wf
    | (with_reducible refine Memory.foldl_wf (fun _ _ _ => ?_) ?_)
    | (with_reducible refine Memory.foldl_fst_wf (fun _ _ _ => ?_) ?_)
    | (with_reducible refine foldl_wrote_wf (fun _ _ _ => ?_) ?_)
    | split
    | (intro _ _)
    | dsimp only

theorem scatterAdd_wf {m : Memory} (src : Memory) (f : Folio) (o : OpEntry) (a y : TRef) (from_ to_ : Nat) (h : m.wf = true) :
    (scatterAdd src f o a y m from_ to_).mem.wf = true := by
  unfold scatterAdd
  try dsimp only
  repeat' first
    | with_reducible assumption
    | with_reducible apply writeRun_wf
    | (intro _ _)
    | dsimp only

theorem rowScatterOut_wf {m : Memory} (f : Folio) (o : OpEntry) (h : m.wf = true) :
    (rowScatterOut m f o).mem.wf = true := by
  unfold rowScatterOut
  try dsimp only
  repeat' first
    | with_reducible assumption
    | with_reducible apply noOut_wf
    | with_reducible apply copyRow_wf
    | with_reducible apply scatterAdd_wf
    | (with_reducible refine Memory.foldl_wf (fun _ _ _ => ?_) ?_)
    | (with_reducible refine Memory.foldl_fst_wf (fun _ _ _ => ?_) ?_)
    | (with_reducible refine foldl_wrote_wf (fun _ _ _ => ?_) ?_)
    | split
    | (intro _ _)
    | dsimp only

theorem withStaging_wf {m : Memory} (f : Folio) (x : FillerRun) (h : m.wf = true) :
    (withStaging f x m).wf = true := by
  unfold withStaging
  repeat' first
    | with_reducible assumption
    | with_reducible apply Memory.writeBytes_wf
    | (with_reducible refine Memory.foldl_wf (fun _ _ _ => ?_) ?_)
    | (with_reducible refine Memory.foldl_fst_wf (fun _ _ _ => ?_) ?_)
    | (with_reducible refine foldl_wrote_wf (fun _ _ _ => ?_) ?_)
    | split
    | (intro _ _)
    | dsimp only

theorem matOut_wf {m : Memory} (f : Folio) (o : OpEntry) (pk pm : Nat → Nat → Bool) (h : m.wf = true) :
    (matOut m f o pk pm).mem.wf = true := by
  unfold matOut
  try dsimp only
  repeat' first
    | with_reducible assumption
    | with_reducible apply matRun_wf
    | with_reducible apply noOut_wf
    | split
    | (intro _ _)
    | dsimp only

theorem addInto_wf {m : Memory} (t : TRef) (n : Nat) (v : XVal) (h : m.wf = true) :
    (addInto m t n v).wf = true := by
  unfold addInto
  try dsimp only
  repeat' first
    | with_reducible assumption
    | with_reducible apply writeElem_wf
    | split
    | (intro _ _)
    | dsimp only

theorem addPayload_wf {m : Memory} (e : ExchEntry) (src : TensorEntry) (dst : TRef) (unit : Nat) (b : Bytes) (h : m.wf = true) :
    (addPayload m e src dst unit b).wf = true := by
  unfold addPayload
  try dsimp only
  repeat' first
    | with_reducible assumption
    | with_reducible apply addInto_wf
    | (with_reducible refine Memory.foldl_wf (fun _ _ _ => ?_) ?_)
    | (with_reducible refine Memory.foldl_fst_wf (fun _ _ _ => ?_) ?_)
    | (with_reducible refine foldl_wrote_wf (fun _ _ _ => ?_) ?_)
    | split
    | (intro _ _)
    | dsimp only

theorem arrived_wf {m t : Memory} (f : Folio) (e : ExchEntry) (rank unit : Nat) (b : Bytes) (hq : (arrived m f e rank unit b) = some t) (h : m.wf = true) :
    t.wf = true := by
  unfold arrived at hq
  repeat' first
    | dsimp only at hq
    | split at hq
    | cases hq
  repeat' first
    | with_reducible assumption
    | with_reducible apply wireStore_wf
    | with_reducible apply pickStore_wf
    | with_reducible apply addPayload_wf
    | split
    | (intro _ _)
    | dsimp only

theorem bucketAddOut_wf {m : Memory} (f : Folio) (o : OpEntry) (first : Bool) (h : m.wf = true) :
    (bucketAddOut m f o first).mem.wf = true := by
  unfold bucketAddOut
  try dsimp only
  repeat' first
    | with_reducible assumption
    | with_reducible apply noOut_wf
    | with_reducible apply outWhole_wf
    | split
    | (intro _ _)
    | dsimp only

theorem lowrank1_wf {m : Memory} (f : Folio) (o : OpEntry) (r rows cols : Nat) (h : m.wf = true) :
    (lowrank1 m f o r rows cols).mem.wf = true := by
  unfold lowrank1
  try dsimp only
  repeat' first
    | with_reducible assumption
    | with_reducible apply Memory.zero_wf
    | with_reducible apply noOut_wf
    | with_reducible apply outWhole_wf
    | with_reducible apply OpOut.andThen_wf
    | split
    | (intro _ _)
    | dsimp only

theorem lowrank2_wf {m : Memory} (f : Folio) (o : OpEntry) (r rows cols : Nat) (h : m.wf = true) :
    (lowrank2 m f o r rows cols).mem.wf = true := by
  unfold lowrank2
  try dsimp only
  repeat' first
    | with_reducible assumption
    | with_reducible apply Memory.zero_wf
    | with_reducible apply noOut_wf
    | with_reducible apply outWhole_wf
    | with_reducible apply OpOut.andThen_wf
    | split
    | (intro _ _)
    | dsimp only

theorem lowrank3_wf {m : Memory} (f : Folio) (o : OpEntry) (b : BucketEntry) (r rows cols : Nat) (h : m.wf = true) :
    (lowrank3 m f o b r rows cols).mem.wf = true := by
  unfold lowrank3
  try dsimp only
  repeat' first
    | with_reducible assumption
    | with_reducible apply noOut_wf
    | with_reducible apply outWhole_wf
    | with_reducible apply OpOut.andThen_wf
    | split
    | (intro _ _)
    | dsimp only

theorem lowrankOut_wf {m : Memory} (f : Folio) (o : OpEntry) (b : BucketEntry) (h : m.wf = true) :
    (lowrankOut m f o b).mem.wf = true := by
  unfold lowrankOut
  try dsimp only
  repeat' first
    | with_reducible assumption
    | with_reducible apply lowrank1_wf
    | with_reducible apply lowrank2_wf
    | with_reducible apply lowrank3_wf
    | split
    | (intro _ _)
    | dsimp only

theorem updateParam_wf {m : Memory} (f : Folio) (o : OpEntry) (t : TRef) (off : Nat) (ws : List XVal) (h : m.wf = true) :
    (updateParam m f o t off ws).mem.wf = true := by
  unfold updateParam
  try dsimp only
  repeat' first
    | with_reducible assumption
    | with_reducible apply writeRun_wf
    | with_reducible apply clearTensorPoison_wf
    | split
    | (intro _ _)
    | dsimp only

theorem storeVals_wf {m : Memory} (t : Option TRef) (vs : List XVal) (h : m.wf = true) :
    (storeVals m t vs).wf = true := by
  unfold storeVals
  repeat' first
    | with_reducible assumption
    | with_reducible apply writeElem_wf
    | (with_reducible refine Memory.foldl_wf (fun _ _ _ => ?_) ?_)
    | (with_reducible refine Memory.foldl_fst_wf (fun _ _ _ => ?_) ?_)
    | (with_reducible refine foldl_wrote_wf (fun _ _ _ => ?_) ?_)
    | split
    | (intro _ _)
    | dsimp only

theorem updateOut_wf {m : Memory} (f : Folio) (o : OpEntry) (b : BucketEntry) (h : m.wf = true) :
    (updateOut m f o b).1.mem.wf = true := by
  unfold updateOut
  try dsimp only
  repeat' first
    | with_reducible assumption
    | with_reducible apply Memory.zero_wf
    | with_reducible apply noOut_wf
    | with_reducible apply updateParam_wf
    | with_reducible apply storeVals_wf
    | split
    | (intro _ _)
    | dsimp only

theorem writeRowPart_wf {m : Memory} (t : TRef) (row : Nat) (k : Packet) (h : m.wf = true) :
    (writeRowPart m t row k).wf = true := by
  unfold writeRowPart
  repeat' first
    | with_reducible assumption
    | with_reducible apply wireStore_wf
    | (intro _ _)
    | dsimp only

theorem initTensors_wf {m : Memory} (f : Folio) (h : m.wf = true) :
    (initTensors m f).wf = true := by
  unfold initTensors
  try dsimp only
  repeat' first
    | with_reducible assumption
    | with_reducible apply Memory.store_wf
    | with_reducible apply Memory.zero_wf
    | (with_reducible refine Memory.foldl_wf (fun _ _ _ => ?_) ?_)
    | (with_reducible refine Memory.foldl_fst_wf (fun _ _ _ => ?_) ?_)
    | (with_reducible refine foldl_wrote_wf (fun _ _ _ => ?_) ?_)
    | split
    | (intro _ _)
    | dsimp only

end Sys2Proof.Machine
end

