-- ==== Sys2Proof/Laws/KeepsLongOps.lean ====
section
/-! SUPPORT. What the operations of Machine/LongOps.lean keep. -/

namespace Sys2Proof.Machine

open Sys2Proof

theorem newHandle_keeps {lv : Bool} {root s : State} (p : Part) (kp : Keeps lv root s) :
    Keeps lv root (newHandle s p).2 := by
  unfold newHandle
  dsimp only
  repeat' first
    | with_reducible assumption
    | (with_reducible refine Keeps.ite (fun _ => ?_) (fun _ => ?_))
    | with_reducible apply updPart_keeps

theorem begun_keeps {lv : Bool} {root s : State} (uid : Nat) (kp : Keeps lv root s) :
    Keeps lv root (begun s uid) := by
  unfold begun
  repeat' first
    | with_reducible assumption
    | fail_if_no_progress (with_reducible refine Keeps.upd ?_ rfl rfl rfl rfl rfl rfl rfl rfl rfl rfl rfl rfl rfl rfl rfl rfl rfl)

theorem longRecord_keeps {lv : Bool} {root s : State} (h : Handle) (kind status reason d0 d1 : Nat) (slot after : Option Nat) (kp : Keeps lv root s) :
    Keeps lv root (longRecord s h kind status reason d0 d1 slot after) := by
  unfold longRecord
  dsimp only
  repeat' first
    | with_reducible assumption
    | with_reducible apply updLong_keeps
    | with_reducible apply enqueueRecord_keeps
    | with_reducible apply pump_keeps
    | split

theorem admitLong_keeps {lv : Bool} {root s : State} (c : Cmd) (total : Nat) (body : LongBody) (kp : Keeps lv root s) :
    Keeps lv root (admitLong s c total body).2 := by
  unfold admitLong
  dsimp only
  repeat' first
    | with_reducible assumption
    | with_reducible apply newHandle_keeps
    | with_reducible apply longRecord_keeps
    | split
    | dsimp only
    | fail_if_no_progress (with_reducible refine Keeps.upd ?_ rfl rfl rfl rfl rfl rfl rfl rfl rfl rfl rfl rfl rfl rfl rfl rfl rfl)

theorem finishMany_keeps {lv : Bool} {root s : State} (uids : List Nat) (status d0 : Nat) (after : Option Nat) (kp : Keeps lv root s) :
    Keeps lv root (finishMany s uids status d0 after) := by
  unfold finishMany
  repeat' first
    | with_reducible assumption
    | (with_reducible refine Keeps.foldl (fun _ _ _ => ?_) ?_)
    | with_reducible apply finishAfter_keeps

theorem dropSuspends_keeps {lv : Bool} {root s : State} (h : Handle) (status : Nat) (kp : Keeps lv root s) :
    Keeps lv root (dropSuspends s h status) := by
  unfold dropSuspends
  repeat' first
    | with_reducible assumption
    | with_reducible apply updLong_keeps
    | with_reducible apply finishMany_keeps
    | split

theorem zeroLent_keeps {lv : Bool} {root s : State} (owner : Handle) (i : Nat) (kp : Keeps lv root s) :
    Keeps lv root (zeroLent s owner i) := by
  unfold zeroLent
  repeat' first
    | with_reducible assumption
    | (intro _ _)
    | with_reducible apply Memory.zero_wf
    | (with_reducible refine Memory.foldl_wf (fun _ _ _ => ?_) ?_)
    | (with_reducible refine Keeps.foldl_fst (fun _ _ _ => ?_) ?_)
    | (with_reducible refine Keeps.foldl (fun _ _ _ => ?_) ?_)
    | with_reducible apply updMem_keeps
    | split

theorem setUnit_keeps {lv : Bool} {root s : State} (folio : Handle) (u : Nat) (st : UnitState) (kp : Keeps lv root s) :
    Keeps lv root (setUnit s folio u st) := by
  unfold setUnit
  repeat' first
    | with_reducible assumption
    | with_reducible apply updFolio_keeps

theorem preempt_keeps {lv : Bool} {root s : State} (x : FillerRun) (kp : Keeps lv root s) :
    Keeps lv root (preempt s x) := by
  unfold preempt
  dsimp only
  repeat' first
    | with_reducible assumption
    | (with_reducible refine Keeps.ite (fun _ => ?_) (fun _ => ?_))
    | with_reducible apply zeroLent_keeps
    | with_reducible apply setUnit_keeps
    | fail_if_no_progress (with_reducible refine Keeps.upd ?_ rfl rfl rfl rfl rfl rfl rfl rfl rfl rfl rfl rfl rfl rfl rfl rfl rfl)

theorem preemptAll_keeps {lv : Bool} {root s : State} (test : FillerRun → Bool) (kp : Keeps lv root s) :
    Keeps lv root (preemptAll s test) := by
  unfold preemptAll
  repeat' first
    | with_reducible assumption
    | (with_reducible refine Keeps.foldl (fun _ _ _ => ?_) ?_)
    | with_reducible apply preempt_keeps

theorem cancelThreads_keeps {lv : Bool} {root s : State} (folio : Handle) (kp : Keeps lv root s) :
    Keeps lv root (cancelThreads s folio) := by
  unfold cancelThreads
  repeat' first
    | with_reducible assumption
    | (with_reducible refine Keeps.ite (fun _ => ?_) (fun _ => ?_))
    | fail_if_no_progress (with_reducible refine Keeps.upd ?_ rfl rfl rfl rfl rfl rfl rfl rfl rfl rfl rfl rfl rfl rfl rfl rfl rfl)

theorem holdThreads_keeps {lv : Bool} {root s : State} (folio : Handle) (kp : Keeps lv root s) :
    Keeps lv root (holdThreads s folio) := by
  unfold holdThreads
  repeat' first
    | with_reducible assumption
    | (with_reducible refine Keeps.ite (fun _ => ?_) (fun _ => ?_))
    | fail_if_no_progress (with_reducible refine Keeps.upd ?_ rfl rfl rfl rfl rfl rfl rfl rfl rfl rfl rfl rfl rfl rfl rfl rfl rfl)

theorem resumeThreads_keeps {lv : Bool} {root s : State} (folio : Handle) (kp : Keeps lv root s) :
    Keeps lv root (resumeThreads s folio) := by
  unfold resumeThreads
  repeat' first
    | with_reducible assumption
    | (with_reducible refine Keeps.ite (fun _ => ?_) (fun _ => ?_))
    | fail_if_no_progress (with_reducible refine Keeps.upd ?_ rfl rfl rfl rfl rfl rfl rfl rfl rfl rfl rfl rfl rfl rfl rfl rfl rfl)

theorem sendDrains_keeps {lv : Bool} {root s : State} (p : Part) (q : Quad) (f : Folio) (g : Generation) (kp : Keeps lv root s) :
    Keeps lv root (sendDrains s p q f g) := by
  unfold sendDrains
  repeat' first
    | with_reducible assumption
    | (with_reducible refine Keeps.foldl (fun _ _ _ => ?_) ?_)
    | with_reducible apply sendToRank_keeps
    | split

theorem cancelBatches_keeps {lv : Bool} {root s : State} (p : Part) (f : Folio) (drain : Bool) (kp : Keeps lv root s) :
    Keeps lv root (cancelBatches s p f drain) := by
  unfold cancelBatches
  dsimp only
  repeat' first
    | with_reducible assumption
    | (with_reducible refine Keeps.ite (fun _ => ?_) (fun _ => ?_))
    | (with_reducible refine Keeps.foldl (fun _ _ _ => ?_) ?_)
    | with_reducible apply updDuctus_keeps
    | with_reducible apply sendDrains_keeps

theorem sendColl_keeps {lv : Bool} {root s : State} (p : Part) (f : Folio) (b : BucketEntry) (e : Engine) (stamp : Stamp) (peer : Nat) (h : CollHead) (payload : Bytes) (kp : Keeps lv root s) :
    Keeps lv root (sendColl s p f b e stamp peer h payload) := by
  unfold sendColl
  repeat' first
    | with_reducible assumption
    | with_reducible apply sendToRank_keeps

theorem cancelSlots_keeps {lv : Bool} {root s0 : State} (p : Part) (f : Folio) (drain : Bool) (kp : Keeps lv root s0) :
    Keeps lv root (cancelSlots s0 p f drain) := by
  unfold cancelSlots
  dsimp only
  repeat' first
    | with_reducible assumption
    | (with_reducible refine Keeps.ite (fun _ => ?_) (fun _ => ?_))
    | (with_reducible refine Keeps.foldl_fst (fun _ _ _ => ?_) ?_)
    | (with_reducible refine Keeps.foldl (fun _ _ _ => ?_) ?_)
    | with_reducible apply updLig_keeps
    | with_reducible apply updFolio_keeps
    | with_reducible apply sendColl_keeps
    | split
    | fail_if_no_progress (with_reducible refine Keeps.upd ?_ rfl rfl rfl rfl rfl rfl rfl rfl rfl rfl rfl rfl rfl rfl rfl rfl rfl)

theorem releaseQuads_keeps {lv : Bool} {root s : State} (h : Handle) (kp : Keeps lv root s) :
    Keeps lv root (releaseQuads s h) := by
  unfold releaseQuads
  repeat' first
    | with_reducible assumption
    | (with_reducible refine Keeps.ite (fun _ => ?_) (fun _ => ?_))
    | fail_if_no_progress (with_reducible refine Keeps.upd ?_ rfl rfl rfl rfl rfl rfl rfl rfl rfl rfl rfl rfl rfl rfl rfl rfl rfl)

theorem dropFolio_keeps {lv : Bool} {root s : State} (h : Handle) (kp : Keeps lv root s) :
    Keeps lv root (dropFolio s h) := by
  unfold dropFolio
  repeat' first
    | with_reducible assumption
    | fail_if_no_progress (with_reducible refine Keeps.upd ?_ rfl rfl rfl rfl rfl rfl rfl rfl rfl rfl rfl rfl rfl rfl rfl rfl rfl)

theorem mgmtRespond_keeps {lv : Bool} {root s : State} (head : Bytes) (status : Nat) (data : Bytes) (kp : Keeps lv root s) :
    Keeps lv root (mgmtRespond s head status data) := by
  unfold mgmtRespond
  repeat' first
    | with_reducible assumption
    | fail_if_no_progress (with_reducible refine Keeps.upd ?_ rfl rfl rfl rfl rfl rfl rfl rfl rfl rfl rfl rfl rfl rfl rfl rfl rfl)

theorem clearPartition_keeps {lv : Bool} {root s : State} (p : Part) (kp : Keeps lv root s) :
    Keeps lv root (clearPartition s p) := by
  unfold clearPartition
  dsimp only
  repeat' first
    | with_reducible assumption
    | (with_reducible refine Keeps.ite (fun _ => ?_) (fun _ => ?_))
    | with_reducible apply updPart_keeps
    | fail_if_no_progress (with_reducible refine Keeps.upd ?_ rfl rfl rfl rfl rfl rfl rfl rfl rfl rfl rfl rfl rfl rfl rfl rfl rfl)

theorem settleRelease_keeps {lv : Bool} {root s : State} (p : Part) (kp : Keeps lv root s) :
    Keeps lv root (settleRelease s p) := by
  unfold settleRelease
  repeat' first
    | with_reducible assumption
    | (with_reducible refine Keeps.ite (fun _ => ?_) (fun _ => ?_))
    | with_reducible apply mgmtRespond_keeps
    | with_reducible apply clearPartition_keeps
    | split
    | fail_if_no_progress (with_reducible refine Keeps.upd ?_ rfl rfl rfl rfl rfl rfl rfl rfl rfl rfl rfl rfl rfl rfl rfl rfl rfl)

theorem settleReset_keeps {lv : Bool} {root s : State} (p : Part) (kp : Keeps lv root s) :
    Keeps lv root (settleReset s p) := by
  unfold settleReset
  repeat' first
    | with_reducible assumption
    | (with_reducible refine Keeps.ite (fun _ => ?_) (fun _ => ?_))
    | (with_reducible refine Keeps.foldl (fun _ _ _ => ?_) ?_)
    | with_reducible apply dropFolio_keeps
    | with_reducible apply settleRelease_keeps

theorem endLong_keeps {lv : Bool} {root s : State} (h : Handle) (st : LongState) (status reason d0 d1 : Nat) (kp : Keeps lv root s) :
    Keeps lv root (endLong s h st status reason d0 d1) := by
  unfold endLong
  dsimp only
  repeat' first
    | with_reducible assumption
    | (with_reducible refine Keeps.ite (fun _ => ?_) (fun _ => ?_))
    | with_reducible apply updLong_keeps
    | with_reducible apply longRecord_keeps
    | with_reducible apply finishMany_keeps
    | with_reducible apply dropSuspends_keeps
    | with_reducible apply releaseQuads_keeps
    | with_reducible apply settleReset_keeps
    | split
    | fail_if_no_progress (with_reducible refine Keeps.upd ?_ rfl rfl rfl rfl rfl rfl rfl rfl rfl rfl rfl rfl rfl rfl rfl rfl rfl)

theorem cancelRun_keeps {lv : Bool} {root s : State} (h : Handle) (kp : Keeps lv root s) :
    Keeps lv root (cancelRun s h) := by
  unfold cancelRun
  dsimp only
  repeat' first
    | with_reducible assumption
    | (with_reducible refine Keeps.ite (fun _ => ?_) (fun _ => ?_))
    | with_reducible apply updRun_keeps
    | with_reducible apply preemptAll_keeps
    | with_reducible apply cancelThreads_keeps
    | with_reducible apply cancelBatches_keeps
    | with_reducible apply cancelSlots_keeps
    | with_reducible apply releaseQuads_keeps
    | with_reducible apply endLong_keeps
    | split

theorem settleCancel_keeps {lv : Bool} {root s : State} (h : Handle) (kp : Keeps lv root s) :
    Keeps lv root (settleCancel s h) := by
  unfold settleCancel
  repeat' first
    | with_reducible assumption
    | (with_reducible refine Keeps.ite (fun _ => ?_) (fun _ => ?_))
    | with_reducible apply endLong_keeps
    | split

theorem holdQuads_keeps {lv : Bool} {root s : State} (h : Handle) (kp : Keeps lv root s) :
    Keeps lv root (holdQuads s h) := by
  unfold holdQuads
  repeat' first
    | with_reducible assumption
    | (with_reducible refine Keeps.ite (fun _ => ?_) (fun _ => ?_))
    | split
    | fail_if_no_progress (with_reducible refine Keeps.upd ?_ rfl rfl rfl rfl rfl rfl rfl rfl rfl rfl rfl rfl rfl rfl rfl rfl rfl)

theorem reachSafePoint_keeps {lv : Bool} {root s : State} (h : Handle) (kp : Keeps lv root s) :
    Keeps lv root (reachSafePoint s h) := by
  unfold reachSafePoint
  dsimp only
  repeat' first
    | with_reducible assumption
    | (with_reducible refine Keeps.ite (fun _ => ?_) (fun _ => ?_))
    | with_reducible apply updLong_keeps
    | with_reducible apply longRecord_keeps
    | with_reducible apply finishMany_keeps
    | with_reducible apply preemptAll_keeps
    | with_reducible apply holdThreads_keeps
    | with_reducible apply cancelRun_keeps
    | with_reducible apply settleCancel_keeps
    | with_reducible apply holdQuads_keeps
    | split

theorem stopAtNext_keeps {lv : Bool} {root s : State} (h : Handle) (kp : Keeps lv root s) :
    Keeps lv root (stopAtNext s h) := by
  unfold stopAtNext
  dsimp only
  repeat' first
    | with_reducible assumption
    | (with_reducible refine Keeps.foldl (fun _ _ _ => ?_) ?_)
    | with_reducible apply updRun_keeps
    | split

theorem goOn_keeps {lv : Bool} {root s : State} (h : Handle) (kp : Keeps lv root s) :
    Keeps lv root (goOn s h) := by
  unfold goOn
  dsimp only
  repeat' first
    | with_reducible assumption
    | (with_reducible refine Keeps.ite (fun _ => ?_) (fun _ => ?_))
    | with_reducible apply updRun_keeps
    | fail_if_no_progress (with_reducible refine Keeps.upd ?_ rfl rfl rfl rfl rfl rfl rfl rfl rfl rfl rfl rfl rfl rfl rfl rfl rfl)

theorem writeStepRecord_keeps {lv : Bool} {root s : State} (h : Handle) (slot : Nat) (bytes : Bytes) (status d0 : Nat) (kp : Keeps lv root s) :
    Keeps lv root (writeStepRecord s h slot bytes status d0) := by
  unfold writeStepRecord
  dsimp only
  repeat' first
    | with_reducible assumption
    | (intro _ _)
    | with_reducible apply Memory.writeBytes_wf
    | with_reducible apply updHost_keeps
    | with_reducible apply updRun_keeps
    | with_reducible apply longRecord_keeps
    | split

theorem flushRecords_keeps {lv : Bool} {root : State} : ∀ (n : Nat) {s : State} (h : Handle), Keeps lv root s →
    Keeps lv root (flushRecords n s h)
  | 0, _, _, kp => kp
  | n + 1, s, h, kp => by
    unfold flushRecords
    split
    · exact kp
    · split
      · exact kp
      · split
        · exact kp
        · exact flushRecords_keeps n h (writeStepRecord_keeps _ _ _ _ _ (updRun_keeps kp _ _))

theorem endIfLast_keeps {lv : Bool} {root s : State} (h : Handle) (kp : Keeps lv root s) :
    Keeps lv root (endIfLast s h) := by
  unfold endIfLast
  repeat' first
    | with_reducible assumption
    | (with_reducible refine Keeps.ite (fun _ => ?_) (fun _ => ?_))
    | with_reducible apply updLong_keeps
    | with_reducible apply endLong_keeps
    | split

theorem consumed_keeps {lv : Bool} {root s : State} (c : Completion) (kp : Keeps lv root s) :
    Keeps lv root (consumed s c) := by
  unfold consumed
  dsimp only
  repeat' first
    | with_reducible assumption
    | (with_reducible refine Keeps.ite (fun _ => ?_) (fun _ => ?_))
    | with_reducible apply updLong_keeps
    | with_reducible apply updRun_keeps
    | with_reducible apply flushRecords_keeps
    | with_reducible apply endIfLast_keeps
    | split
    | fail_if_no_progress (with_reducible refine Keeps.upd ?_ rfl rfl rfl rfl rfl rfl rfl rfl rfl rfl rfl rfl rfl rfl rfl rfl rfl)

theorem undefineTensors_keeps {lv : Bool} {root s : State} (f : Folio) (kp : Keeps lv root s) :
    Keeps lv root (undefineTensors s f) := by
  unfold undefineTensors
  repeat' first
    | with_reducible assumption
    | (with_reducible refine Keeps.foldl (fun _ _ _ => ?_) ?_)
    | with_reducible apply undefineRange_keeps
    | split

theorem tornTracker_keeps {lv : Bool} {root s : State} (t : Tracker) (kp : Keeps lv root s) :
    Keeps lv root (tornTracker s t) := by
  unfold tornTracker
  dsimp only
  repeat' first
    | with_reducible assumption
    | with_reducible apply note_keeps
    | with_reducible apply errorNote_keeps

theorem teardown_keeps {lv : Bool} {root s0 : State} (p : Part) (how : Nat) (kp : Keeps lv root s0) :
    Keeps lv root (teardown s0 p how) := by
  unfold teardown
  dsimp only
  repeat' first
    | with_reducible assumption
    | (with_reducible refine Keeps.ite (fun _ => ?_) (fun _ => ?_))
    | (with_reducible refine Keeps.foldl_fst (fun _ _ _ => ?_) ?_)
    | (with_reducible refine Keeps.foldl (fun _ _ _ => ?_) ?_)
    | with_reducible apply updPart_keeps
    | with_reducible apply updRun_keeps
    | with_reducible apply note_keeps
    | with_reducible apply fmMessage_keeps
    | with_reducible apply preemptAll_keeps
    | with_reducible apply cancelBatches_keeps
    | with_reducible apply cancelSlots_keeps
    | with_reducible apply releaseQuads_keeps
    | with_reducible apply endLong_keeps
    | with_reducible apply undefineTensors_keeps
    | with_reducible apply tornTracker_keeps
    | split
    | fail_if_no_progress (with_reducible refine Keeps.upd ?_ rfl rfl rfl rfl rfl rfl rfl rfl rfl rfl rfl rfl rfl rfl rfl rfl rfl)

end Sys2Proof.Machine
end

