-- ==== Sys2Proof/Laws/KeepsTensors.lean ====
section
/-! SUPPORT. What the operations of Machine/Tensors.lean keep. -/

namespace Sys2Proof.Machine

open Sys2Proof

theorem countEvents_keeps {lv : Bool} {root s : State} (h : Handle) (e : NumEvents) (kp : Keeps lv root s) :
    Keeps lv root (countEvents s h e) := by
  unfold countEvents
  repeat' first
    | with_reducible assumption
    | with_reducible apply updRun_keeps

end Sys2Proof.Machine
end

