-- ==== Sys2Proof/Laws/KeepsRegisters.lean ====
section
/-! SUPPORT. What the operations of Machine/Registers.lean keep. -/

namespace Sys2Proof.Machine

open Sys2Proof

theorem writePart_keeps {lv : Bool} {root s : State} (port : Port) (p : Part) (o : Nat) (v : Word32) (kp : Keeps lv root s) :
    Keeps lv root (writePart s port p o v) := by
  unfold writePart
  repeat' first
    | with_reducible assumption
    | (with_reducible refine Keeps.ite (fun _ => ?_) (fun _ => ?_))
    | with_reducible apply updPart_keeps
    | with_reducible apply bump_keeps
    | with_reducible apply note_keeps
    | fail_if_no_progress (with_reducible refine Keeps.upd ?_ rfl rfl rfl rfl rfl rfl rfl rfl rfl rfl rfl rfl rfl rfl rfl rfl rfl)

theorem writeVectorCtrl_keeps {lv : Bool} {root s : State} (port : Port) (n : Fin 64) (v : Word32) (kp : Keeps lv root s) :
    Keeps lv root (writeVectorCtrl s port n v) := by
  unfold writeVectorCtrl
  dsimp only
  repeat' first
    | with_reducible assumption
    | (intro _; with_reducible rfl)
    | (with_reducible refine Keeps.ite (fun _ => ?_) (fun _ => ?_))
    | with_reducible apply updPort_keeps
    | with_reducible apply signalVector_keeps

theorem writeMsix_keeps {lv : Bool} {root s : State} (port : Port) (o : Nat) (v : Word32) (kp : Keeps lv root s) :
    Keeps lv root (writeMsix s port o v) := by
  unfold writeMsix
  dsimp only
  repeat' first
    | with_reducible assumption
    | (intro _; with_reducible rfl)
    | (with_reducible refine Keeps.ite (fun _ => ?_) (fun _ => ?_))
    | with_reducible apply updPort_keeps
    | with_reducible apply writeVectorCtrl_keeps
    | split

theorem writeBar4Ctrl_keeps {lv : Bool} {root s : State} (port : Port) (v : Word32) (kp : Keeps lv root s) :
    Keeps lv root (writeBar4Ctrl s port v) := by
  unfold writeBar4Ctrl
  dsimp only
  repeat' first
    | with_reducible assumption
    | (intro _; with_reducible rfl)
    | (with_reducible refine Keeps.ite (fun _ => ?_) (fun _ => ?_))
    | with_reducible apply updPort_keeps

theorem writeHostLock_keeps {lv : Bool} {root s : State} (port : Port) (v : Word32) (kp : Keeps lv root s) :
    Keeps lv root (writeHostLock s port v) := by
  unfold writeHostLock
  repeat' first
    | with_reducible assumption
    | (intro _; with_reducible rfl)
    | with_reducible apply updPort_keeps

theorem writeErrStatus_keeps {lv : Bool} {root s : State} (v : Word32) (hw : BitVec 4) (kp : Keeps lv root s) :
    Keeps lv root (writeErrStatus s v hw) := by
  unfold writeErrStatus
  dsimp only
  repeat' first
    | with_reducible assumption
    | (with_reducible refine Keeps.ite (fun _ => ?_) (fun _ => ?_))
    | fail_if_no_progress (with_reducible refine Keeps.upd ?_ rfl rfl rfl rfl rfl rfl rfl rfl rfl rfl rfl rfl rfl rfl rfl rfl rfl)

theorem writeErrVector_keeps {lv : Bool} {root s : State} (port : Port) (v : Word32) (kp : Keeps lv root s) :
    Keeps lv root (writeErrVector s port v) := by
  unfold writeErrVector
  repeat' first
    | with_reducible assumption
    | fail_if_no_progress (with_reducible refine Keeps.upd ?_ rfl rfl rfl rfl rfl rfl rfl rfl rfl rfl rfl rfl rfl rfl rfl rfl rfl)

theorem writeGo_keeps {root s : State} (port : Port) (v : Word32) (kp : Keeps false root s) :
    Keeps false root (writeGo s port v) := by
  unfold writeGo
  dsimp only
  repeat' first
    | with_reducible assumption
    | (with_reducible refine Keeps.ite (fun _ => ?_) (fun _ => ?_))
    | with_reducible apply note_keeps
    | fail_if_no_progress (with_reducible refine Keeps.upd ?_ rfl rfl rfl rfl rfl rfl rfl rfl rfl rfl rfl rfl rfl rfl rfl rfl rfl)
    | fail_if_no_progress (with_reducible refine Keeps.updF ?_ rfl rfl rfl rfl rfl rfl rfl rfl rfl rfl rfl)

theorem writeMailbox_keeps {root s : State} (port : Port) (o : Nat) (v : Word32) (kp : Keeps false root s) :
    Keeps false root (writeMailbox s port o v) := by
  unfold writeMailbox
  repeat' first
    | with_reducible assumption
    | (with_reducible refine Keeps.ite (fun _ => ?_) (fun _ => ?_))
    | with_reducible apply writeGo_keeps
    | fail_if_no_progress (with_reducible refine Keeps.upd ?_ rfl rfl rfl rfl rfl rfl rfl rfl rfl rfl rfl rfl rfl rfl rfl rfl rfl)
    | fail_if_no_progress (with_reducible refine Keeps.updF ?_ rfl rfl rfl rfl rfl rfl rfl rfl rfl rfl rfl)

theorem bar0Write_keeps {root s : State} (port : Port) (o : Nat) (v : Word32) (kp : Keeps false root s) :
    Keeps false root (bar0Write s port o v) := by
  unfold bar0Write
  repeat' first
    | with_reducible assumption
    | (with_reducible refine Keeps.ite (fun _ => ?_) (fun _ => ?_))
    | with_reducible apply writePart_keeps
    | with_reducible apply writeMsix_keeps
    | with_reducible apply writeBar4Ctrl_keeps
    | with_reducible apply writeHostLock_keeps
    | with_reducible apply writeErrStatus_keeps
    | with_reducible apply writeErrVector_keeps
    | with_reducible apply writeMailbox_keeps
    | fail_if_no_progress (with_reducible refine Keeps.upd ?_ rfl rfl rfl rfl rfl rfl rfl rfl rfl rfl rfl rfl rfl rfl rfl rfl rfl)

theorem bar0Access_keeps {root s : State} (port : Port) (o : Nat) (wide : Bool) (v : Nat) (kp : Keeps false root s) :
    Keeps false root (bar0Access s port o wide v) := by
  unfold bar0Access
  repeat' first
    | with_reducible assumption
    | (with_reducible refine Keeps.ite (fun _ => ?_) (fun _ => ?_))
    | with_reducible apply bar0Write_keeps

theorem applyShadows_keeps {root s : State} (mine : Nat → Bool) (kp : Keeps false root s) :
    Keeps false root (applyShadows s mine) := by
  unfold applyShadows
  dsimp only
  repeat' first
    | with_reducible assumption
    | (with_reducible refine Keeps.foldl_fst (fun _ _ _ => ?_) ?_)
    | (with_reducible refine Keeps.foldl (fun _ _ _ => ?_) ?_)
    | with_reducible apply bar0Write_keeps
    | fail_if_no_progress (with_reducible refine Keeps.upd ?_ rfl rfl rfl rfl rfl rfl rfl rfl rfl rfl rfl rfl rfl rfl rfl rfl rfl)

theorem execRegisterWrite_keeps (port : Port) (offset : BitVec 16) (wide : Bool) (value : Word64) {s nx : State} (hx : execRegisterWrite port offset wide value s = .next nx) :
    Keeps false s nx := by
  unfold execRegisterWrite at hx
  obtain rfl := Host.Outcome.next.inj hx
  have kp := Keeps.refl (b := false) s
  repeat' first
    | with_reducible assumption
    | with_reducible apply bar0Access_keeps

theorem execRingEnable_keeps {lv : Bool} (port : Port) (p : Part) (r : RingId) (cfg : Word32) {s nx : State} (hx : execRingEnable port p r cfg s = .next nx) :
    Keeps lv s nx := by
  unfold execRingEnable at hx
  obtain rfl := Host.Outcome.next.inj hx
  have kp := Keeps.refl (b := lv) s
  repeat' first
    | with_reducible assumption
    | (with_reducible refine Keeps.ite (fun _ => ?_) (fun _ => ?_))
    | with_reducible apply writePart_keeps

theorem execPartCtrl_keeps {lv : Bool} (port : Port) (p : Part) (value : Word32) {s nx : State} (hx : execPartCtrl port p value s = .next nx) :
    Keeps lv s nx := by
  unfold execPartCtrl at hx
  obtain rfl := Host.Outcome.next.inj hx
  have kp := Keeps.refl (b := lv) s
  repeat' first
    | with_reducible assumption
    | (with_reducible refine Keeps.ite (fun _ => ?_) (fun _ => ?_))
    | with_reducible apply writePart_keeps

theorem execErrStatus_keeps {lv : Bool} (port : Port) (value : Word32) (hwSet : BitVec 4) {s nx : State} (hx : execErrStatus port value hwSet s = .next nx) :
    Keeps lv s nx := by
  unfold execErrStatus at hx
  obtain rfl := Host.Outcome.next.inj hx
  have kp := Keeps.refl (b := lv) s
  repeat' first
    | with_reducible assumption
    | (with_reducible refine Keeps.ite (fun _ => ?_) (fun _ => ?_))
    | with_reducible apply writeErrStatus_keeps

theorem execHostLock_keeps {lv : Bool} (port : Port) (value : Word32) {s nx : State} (hx : execHostLock port value s = .next nx) :
    Keeps lv s nx := by
  unfold execHostLock at hx
  obtain rfl := Host.Outcome.next.inj hx
  have kp := Keeps.refl (b := lv) s
  repeat' first
    | with_reducible assumption
    | (with_reducible refine Keeps.ite (fun _ => ?_) (fun _ => ?_))
    | with_reducible apply writeHostLock_keeps

theorem execVectorCtrl_keeps {lv : Bool} (port : Port) (v : Fin 64) (value : Word32) {s nx : State} (hx : execVectorCtrl port v value s = .next nx) :
    Keeps lv s nx := by
  unfold execVectorCtrl at hx
  obtain rfl := Host.Outcome.next.inj hx
  have kp := Keeps.refl (b := lv) s
  repeat' first
    | with_reducible assumption
    | (with_reducible refine Keeps.ite (fun _ => ?_) (fun _ => ?_))
    | with_reducible apply writeVectorCtrl_keeps

theorem execGo_keeps (port : Port) (value : Word32) {s nx : State} (hx : execGo port value s = .next nx) :
    Keeps false s nx := by
  unfold execGo at hx
  obtain rfl := Host.Outcome.next.inj hx
  have kp := Keeps.refl (b := false) s
  repeat' first
    | with_reducible assumption
    | (with_reducible refine Keeps.ite (fun _ => ?_) (fun _ => ?_))
    | with_reducible apply writeGo_keeps

end Sys2Proof.Machine
end

