-- ==== Sys2Proof/Laws/KeepsRings.lean ====
section
/-! SUPPORT. What the operations of Machine/Rings.lean keep. -/

namespace Sys2Proof.Machine

open Sys2Proof

theorem fetchOne_keeps {lv : Bool} {root s : State} (p : Part) (q : Fin 16) (d : Bytes) (kp : Keeps lv root s) :
    Keeps lv root (fetchOne s p q d) := by
  unfold fetchOne
  dsimp only
  repeat' first
    | with_reducible assumption
    | (with_reducible refine Keeps.ite (fun _ => ?_) (fun _ => ?_))
    | with_reducible apply updPart_keeps
    | with_reducible apply finish_keeps
    | with_reducible apply consumed_keeps
    | fail_if_no_progress (with_reducible refine Keeps.upd ?_ rfl rfl rfl rfl rfl rfl rfl rfl rfl rfl rfl rfl rfl rfl rfl rfl rfl)

theorem fetchAll_keeps {lv : Bool} {root : State} (p : Part) (q : Fin 16) : ∀ (l : List Bytes) {s : State}, Keeps lv root s →
    Keeps lv root (fetchAll p q l s)
  | [], _, kp => kp
  | d :: t, s, kp => by
    unfold fetchAll
    split
    · exact kp
    · exact fetchAll_keeps p q t (fetchOne_keeps p q d kp)

theorem doorbell_keeps {lv : Bool} {root s : State} (d : DoorbellRead) (kp : Keeps lv root s) :
    Keeps lv root (doorbell s d) := by
  unfold doorbell
  dsimp only
  repeat' first
    | with_reducible assumption
    | (with_reducible refine Keeps.ite (fun _ => ?_) (fun _ => ?_))
    | (with_reducible refine Keeps.foldl_fst (fun _ _ _ => ?_) ?_)
    | (with_reducible refine Keeps.foldl (fun _ _ _ => ?_) ?_)
    | with_reducible apply updPart_keeps
    | with_reducible apply drawFree_keeps
    | with_reducible apply hostEvent_keeps
    | with_reducible apply updCq_keeps
    | with_reducible apply pump_keeps
    | with_reducible apply consumed_keeps
    | with_reducible apply fetchAll_keeps
    | split

theorem activate_keeps {lv : Bool} {root s : State} (port : Port) (kp : Keeps lv root s) :
    Keeps lv root (activate s port) := by
  unfold activate
  dsimp only
  repeat' first
    | with_reducible assumption
    | (with_reducible refine Keeps.ite (fun _ => ?_) (fun _ => ?_))
    | fail_if_no_progress (with_reducible refine Keeps.upd ?_ rfl rfl rfl rfl rfl rfl rfl rfl rfl rfl rfl rfl rfl rfl rfl rfl rfl)

theorem coalesce_keeps {lv : Bool} {root s : State} (p : Part) (c : Fin 16) (kp : Keeps lv root s) :
    Keeps lv root (coalesce s p c) := by
  unfold coalesce
  dsimp only
  repeat' first
    | with_reducible assumption
    | (with_reducible refine Keeps.ite (fun _ => ?_) (fun _ => ?_))
    | with_reducible apply signalVector_keeps
    | with_reducible apply updCq_keeps

theorem execDoorbellRead_keeps {lv : Bool} (r : DoorbellRead) {s nx : State} (hx : execDoorbellRead r s = .next nx) :
    Keeps lv s nx := by
  unfold execDoorbellRead at hx
  obtain rfl := Host.Outcome.next.inj hx
  have kp := Keeps.refl (b := lv) s
  repeat' first
    | with_reducible assumption
    | with_reducible apply doorbell_keeps

theorem execNudge_keeps {lv : Bool} (port : Port) (reads : List DoorbellRead) {s nx : State} (hx : execNudge port reads s = .next nx) :
    Keeps lv s nx := by
  unfold execNudge at hx
  obtain rfl := Host.Outcome.next.inj hx
  have kp := Keeps.refl (b := lv) s
  repeat' first
    | with_reducible assumption
    | (with_reducible refine Keeps.ite (fun _ => ?_) (fun _ => ?_))
    | (with_reducible refine Keeps.foldl (fun _ _ _ => ?_) ?_)
    | with_reducible apply doorbell_keeps
    | with_reducible apply activate_keeps

theorem execCoalUs_keeps {lv : Bool} (p : Part) (c : Fin 16) {s nx : State} (hx : execCoalUs p c s = .next nx) :
    Keeps lv s nx := by
  unfold execCoalUs at hx
  obtain rfl := Host.Outcome.next.inj hx
  have kp := Keeps.refl (b := lv) s
  repeat' first
    | with_reducible assumption
    | (with_reducible refine Keeps.ite (fun _ => ?_) (fun _ => ?_))
    | with_reducible apply coalesce_keeps

end Sys2Proof.Machine
end

