-- ==== Sys2Proof/Laws/KeepsWindow.lean ====
section
/-! SUPPORT. What the operations of Machine/Window.lean keep. -/

namespace Sys2Proof.Machine

open Sys2Proof

theorem writeThread_keeps {lv : Bool} {root s : State} (core : Nat) (t : Fin 8) (o : Nat) (b : Bytes) (kp : Keeps lv root s) :
    Keeps lv root (writeThread s core t o b) := by
  unfold writeThread
  dsimp only
  repeat' first
    | with_reducible assumption
    | fail_if_no_progress (with_reducible refine Keeps.upd ?_ rfl rfl rfl rfl rfl rfl rfl rfl rfl rfl rfl rfl rfl rfl rfl rfl rfl)

theorem windowApply_keeps {lv : Bool} {root s : State} (core off : Nat) (b : Bytes) (kp : Keeps lv root s) :
    Keeps lv root (windowApply s core off b) := by
  unfold windowApply
  repeat' first
    | with_reducible assumption
    | (intro _ _)
    | with_reducible apply Memory.store_wf
    | (with_reducible refine Keeps.ite (fun _ => ?_) (fun _ => ?_))
    | with_reducible apply updMem_keeps
    | with_reducible apply writeThread_keeps

theorem windowWrite_keeps {lv : Bool} {root s : State} (core off : Nat) (b : Bytes) (kp : Keeps lv root s) :
    Keeps lv root (windowWrite s core off b) := by
  unfold windowWrite
  repeat' first
    | with_reducible assumption
    | (with_reducible refine Keeps.ite (fun _ => ?_) (fun _ => ?_))
    | with_reducible apply note_keeps
    | with_reducible apply windowApply_keeps
    | fail_if_no_progress (with_reducible refine Keeps.upd ?_ rfl rfl rfl rfl rfl rfl rfl rfl rfl rfl rfl rfl rfl rfl rfl rfl rfl)

theorem dropWrites_keeps {lv : Bool} {root s : State} (f : Folio) (kp : Keeps lv root s) :
    Keeps lv root (dropWrites s f) := by
  unfold dropWrites
  repeat' first
    | with_reducible assumption
    | fail_if_no_progress (with_reducible refine Keeps.upd ?_ rfl rfl rfl rfl rfl rfl rfl rfl rfl rfl rfl rfl rfl rfl rfl rfl rfl)

theorem applyWrites_keeps {lv : Bool} {root s : State} (folio : Handle) (kp : Keeps lv root s) :
    Keeps lv root (applyWrites s folio) := by
  unfold applyWrites
  repeat' first
    | with_reducible assumption
    | (with_reducible refine Keeps.foldl_fst (fun _ _ _ => ?_) ?_)
    | (with_reducible refine Keeps.foldl (fun _ _ _ => ?_) ?_)
    | with_reducible apply windowApply_keeps
    | with_reducible apply dropWrites_keeps
    | split

theorem targetStore_keeps {lv : Bool} {root s : State} (a : Nat) (b : Bytes) (kp : Keeps lv root s) :
    Keeps lv root (targetStore s a b) := by
  unfold targetStore
  repeat' first
    | with_reducible assumption
    | (intro _ _)
    | with_reducible apply Memory.store_wf
    | (with_reducible refine Keeps.ite (fun _ => ?_) (fun _ => ?_))
    | with_reducible apply updMem_keeps
    | with_reducible apply windowWrite_keeps

end Sys2Proof.Machine
end

