-- ==== Sys2Proof/Laws/KeepsCommands.lean ====
section
/-! SUPPORT. What the operations of Machine/Commands.lean keep. -/

namespace Sys2Proof.Machine

open Sys2Proof

theorem giveResult_keeps {lv : Bool} {root s : State} (c : Cmd) (bytes : Bytes) (kp : Keeps lv root s) :
    Keeps lv root (giveResult s c bytes) := by
  unfold giveResult
  repeat' first
    | with_reducible assumption
    | (intro _ _)
    | with_reducible apply Memory.writeBytes_wf
    | (with_reducible refine Keeps.ite (fun _ => ?_) (fun _ => ?_))
    | with_reducible apply updHost_keeps
    | with_reducible apply finish_keeps

theorem signalToken_keeps {lv : Bool} {root s : State} (cluster n : Nat) (kp : Keeps lv root s) :
    Keeps lv root (signalToken s cluster n) := by
  unfold signalToken
  dsimp only
  repeat' first
    | with_reducible assumption
    | (with_reducible refine Keeps.ite (fun _ => ?_) (fun _ => ?_))
    | with_reducible apply note_keeps
    | fail_if_no_progress (with_reducible refine Keeps.upd ?_ rfl rfl rfl rfl rfl rfl rfl rfl rfl rfl rfl rfl rfl rfl rfl rfl rfl)

theorem execNop_keeps {lv : Bool} (p : Part) (q : Fin 16) {s nx : State} (hx : execNop p q s = .next nx) :
    Keeps lv s nx := by
  unfold execNop at hx
  obtain rfl := Host.Outcome.next.inj hx
  have kp := Keeps.refl (b := lv) s
  repeat' first
    | with_reducible assumption
    | with_reducible apply finish_keeps
    | with_reducible apply begun_keeps
    | split

theorem execFence_keeps {lv : Bool} (p : Part) (q : Fin 16) {s nx : State} (hx : execFence p q s = .next nx) :
    Keeps lv s nx := by
  unfold execFence at hx
  obtain rfl := Host.Outcome.next.inj hx
  have kp := Keeps.refl (b := lv) s
  dsimp only
  repeat' first
    | with_reducible assumption
    | with_reducible apply pump_keeps
    | split
    | fail_if_no_progress (with_reducible refine Keeps.upd ?_ rfl rfl rfl rfl rfl rfl rfl rfl rfl rfl rfl rfl rfl rfl rfl rfl rfl)

theorem startCopy_keeps {lv : Bool} {root s : State} (c : Cmd) (toDevice : Bool) (kp : Keeps lv root s) :
    Keeps lv root (startCopy s c toDevice) := by
  have k1 := begun_keeps c.uid kp
  unfold startCopy
  extract_lets d s1
  cases folioRef s c.part (descHandle d 8) with
  | bad st => exact finish_keeps _ _ _ _ _ k1
  | ok f =>
    refine Keeps.ite (fun _ => finish_keeps _ _ _ _ _ k1) (fun _ => ?_)
    refine Keeps.ite (fun _ => finish_keeps _ _ _ _ _ k1) (fun _ => ?_)
    extract_lets k s2 a
    have k2 : Keeps lv root s2 := by
      with_reducible refine Keeps.upd ?_ rfl rfl rfl rfl rfl rfl rfl rfl rfl rfl rfl rfl rfl rfl rfl rfl rfl
      exact k1
    exact Keeps.ite (fun _ => updLong_keeps (admitLong_keeps _ _ _ k2) _ _) (fun _ => k2)

theorem execCopyIn_keeps {lv : Bool} (p : Part) (q : Fin 16) {s nx : State} (hx : execCopyIn p q s = .next nx) :
    Keeps lv s nx := by
  unfold execCopyIn at hx
  obtain rfl := Host.Outcome.next.inj hx
  have kp := Keeps.refl (b := lv) s
  repeat' first
    | with_reducible assumption
    | with_reducible apply startCopy_keeps
    | split

theorem execCopyOut_keeps {lv : Bool} (p : Part) (q : Fin 16) {s nx : State} (hx : execCopyOut p q s = .next nx) :
    Keeps lv s nx := by
  unfold execCopyOut at hx
  obtain rfl := Host.Outcome.next.inj hx
  have kp := Keeps.refl (b := lv) s
  repeat' first
    | with_reducible assumption
    | with_reducible apply startCopy_keeps
    | split

theorem endCopy_keeps {lv : Bool} {root s : State} (k : CopyOp) (st : LongState) (status reason d0 : Nat) (kp : Keeps lv root s) :
    Keeps lv root (endCopy s k st status reason d0) := by
  unfold endCopy
  dsimp only
  repeat' first
    | with_reducible assumption
    | (with_reducible refine Keeps.ite (fun _ => ?_) (fun _ => ?_))
    | with_reducible apply updLong_keeps
    | with_reducible apply finish_keeps
    | with_reducible apply endLong_keeps
    | split
    | fail_if_no_progress (with_reducible refine Keeps.upd ?_ rfl rfl rfl rfl rfl rfl rfl rfl rfl rfl rfl rfl rfl rfl rfl rfl rfl)

theorem copyInDone_keeps {lv : Bool} {root s : State} (f : Folio) (k : CopyOp) (data : Bytes) (kp : Keeps lv root s) :
    Keeps lv root (copyInDone s f k data) := by
  unfold copyInDone
  dsimp only
  repeat' first
    | with_reducible assumption
    | (intro _ _)
    | with_reducible apply Memory.store_wf
    | (with_reducible refine Memory.foldl_wf (fun _ _ _ => ?_) ?_)
    | (with_reducible refine Keeps.ite (fun _ => ?_) (fun _ => ?_))
    | (with_reducible refine Keeps.foldl_fst (fun _ _ _ => ?_) ?_)
    | (with_reducible refine Keeps.foldl (fun _ _ _ => ?_) ?_)
    | with_reducible apply updMem_keeps
    | with_reducible apply updFolio_keeps
    | with_reducible apply signalToken_keeps
    | with_reducible apply endCopy_keeps

theorem copyOutDone_keeps {lv : Bool} {root s : State} (f : Folio) (k : CopyOp) (kp : Keeps lv root s) :
    Keeps lv root (copyOutDone s f k) := by
  unfold copyOutDone
  dsimp only
  repeat' first
    | with_reducible assumption
    | (intro _ _)
    | with_reducible apply Memory.writeBytes_wf
    | (with_reducible refine Keeps.ite (fun _ => ?_) (fun _ => ?_))
    | with_reducible apply updHost_keeps
    | with_reducible apply undefineHost_keeps
    | with_reducible apply errorNote_keeps
    | with_reducible apply endCopy_keeps

theorem startRun_keeps {lv : Bool} {root s : State} (c : Cmd) (kp : Keeps lv root s) :
    Keeps lv root (startRun s c) := by
  unfold startRun
  repeat' first
    | with_reducible assumption
    | (with_reducible refine Keeps.ite (fun _ => ?_) (fun _ => ?_))
    | with_reducible apply finish_keeps
    | with_reducible apply begun_keeps
    | with_reducible apply admitLong_keeps
    | split

theorem execRun_keeps {lv : Bool} (p : Part) (q : Fin 16) {s nx : State} (hx : execRun p q s = .next nx) :
    Keeps lv s nx := by
  unfold execRun at hx
  obtain rfl := Host.Outcome.next.inj hx
  have kp := Keeps.refl (b := lv) s
  repeat' first
    | with_reducible assumption
    | with_reducible apply startRun_keeps
    | split

theorem execStep_keeps {lv : Bool} (p : Part) (q : Fin 16) {s nx : State} (hx : execStep p q s = .next nx) :
    Keeps lv s nx := by
  unfold execStep at hx
  obtain rfl := Host.Outcome.next.inj hx
  have kp := Keeps.refl (b := lv) s
  repeat' first
    | with_reducible assumption
    | with_reducible apply startRun_keeps
    | split

theorem beginRun_keeps {lv : Bool} {root s : State} (o : LongOp) (r : Run) (kp : Keeps lv root s) :
    Keeps lv root (beginRun s o r) := by
  unfold beginRun
  dsimp only
  repeat' first
    | with_reducible assumption
    | (with_reducible refine Keeps.foldl (fun _ _ _ => ?_) ?_)
    | with_reducible apply updSeq_keeps
    | with_reducible apply updLong_keeps
    | with_reducible apply updRun_keeps
    | with_reducible apply dropWrites_keeps
    | split

theorem execJobStart_keeps {lv : Bool} (h : Handle) {s nx : State} (hx : execJobStart h s = .next nx) :
    Keeps lv s nx := by
  unfold execJobStart at hx
  obtain rfl := Host.Outcome.next.inj hx
  have kp := Keeps.refl (b := lv) s
  repeat' first
    | with_reducible assumption
    | (with_reducible refine Keeps.ite (fun _ => ?_) (fun _ => ?_))
    | with_reducible apply beginRun_keeps
    | split

theorem suspendNow_keeps {lv : Bool} {root s : State} (h : Handle) (uid : Nat) (kp : Keeps lv root s) :
    Keeps lv root (suspendNow s h uid) := by
  unfold suspendNow
  dsimp only
  repeat' first
    | with_reducible assumption
    | with_reducible apply updLong_keeps
    | with_reducible apply finishAfter_keeps
    | with_reducible apply longRecord_keeps

theorem suspendTarget_keeps {lv : Bool} {root s : State} (uid : Nat) (o : LongOp) (kp : Keeps lv root s) :
    Keeps lv root (suspendTarget s uid o) := by
  unfold suspendTarget
  repeat' first
    | with_reducible assumption
    | (with_reducible refine Keeps.ite (fun _ => ?_) (fun _ => ?_))
    | with_reducible apply updLong_keeps
    | with_reducible apply finish_keeps
    | with_reducible apply reachSafePoint_keeps
    | with_reducible apply stopAtNext_keeps
    | with_reducible apply suspendNow_keeps
    | split

theorem releaseHold_keeps {lv : Bool} {root s : State} (h : Handle) (kp : Keeps lv root s) :
    Keeps lv root (releaseHold s h) := by
  unfold releaseHold
  repeat' first
    | with_reducible assumption
    | (with_reducible refine Keeps.ite (fun _ => ?_) (fun _ => ?_))
    | with_reducible apply goOn_keeps
    | split

theorem resumeTarget_keeps {lv : Bool} {root s : State} (uid : Nat) (o : LongOp) (kp : Keeps lv root s) :
    Keeps lv root (resumeTarget s uid o) := by
  unfold resumeTarget
  dsimp only
  repeat' first
    | with_reducible assumption
    | (with_reducible refine Keeps.ite (fun _ => ?_) (fun _ => ?_))
    | with_reducible apply updLong_keeps
    | with_reducible apply finish_keeps
    | with_reducible apply dropSuspends_keeps
    | with_reducible apply resumeThreads_keeps
    | with_reducible apply goOn_keeps
    | with_reducible apply endIfLast_keeps
    | with_reducible apply applyWrites_keeps
    | with_reducible apply releaseHold_keeps
    | split

theorem undefineMatched_keeps {lv : Bool} {root s : State} (r : ReshardOp) (kp : Keeps lv root s) :
    Keeps lv root (undefineMatched s r) := by
  unfold undefineMatched
  dsimp only
  repeat' first
    | with_reducible assumption
    | (with_reducible refine Keeps.ite (fun _ => ?_) (fun _ => ?_))
    | (with_reducible refine Keeps.foldl (fun _ _ _ => ?_) ?_)
    | with_reducible apply undefineRange_keeps
    | split

theorem abortCopy_keeps {lv : Bool} {root s : State} (k : CopyOp) (kp : Keeps lv root s) :
    Keeps lv root (abortCopy s k) := by
  unfold abortCopy
  dsimp only
  repeat' first
    | with_reducible assumption
    | (with_reducible refine Keeps.ite (fun _ => ?_) (fun _ => ?_))
    | with_reducible apply undefineRange_keeps
    | with_reducible apply undefineHost_keeps
    | split
    | fail_if_no_progress (with_reducible refine Keeps.upd ?_ rfl rfl rfl rfl rfl rfl rfl rfl rfl rfl rfl rfl rfl rfl rfl rfl rfl)

theorem releaseCkptHold_keeps {lv : Bool} {root s : State} (folio : Handle) (kp : Keeps lv root s) :
    Keeps lv root (releaseCkptHold s folio) := by
  unfold releaseCkptHold
  dsimp only
  repeat' first
    | with_reducible assumption
    | (with_reducible refine Keeps.ite (fun _ => ?_) (fun _ => ?_))
    | (with_reducible refine Keeps.foldl (fun _ _ _ => ?_) ?_)
    | with_reducible apply updRun_keeps
    | with_reducible apply reachSafePoint_keeps
    | with_reducible apply releaseHold_keeps

theorem cancelBody_keeps {lv : Bool} {root s : State} (o : LongOp) (kp : Keeps lv root s) :
    Keeps lv root (cancelBody s o) := by
  unfold cancelBody
  repeat' first
    | with_reducible assumption
    | (with_reducible refine Keeps.ite (fun _ => ?_) (fun _ => ?_))
    | with_reducible apply endLong_keeps
    | with_reducible apply reachSafePoint_keeps
    | with_reducible apply stopAtNext_keeps
    | with_reducible apply undefineMatched_keeps
    | with_reducible apply abortCopy_keeps
    | with_reducible apply releaseCkptHold_keeps
    | split

theorem cancelLive_keeps {lv : Bool} {root s : State} (uid : Option Nat) (o : LongOp) (kp : Keeps lv root s) :
    Keeps lv root (cancelLive s uid o) := by
  unfold cancelLive
  dsimp only
  repeat' first
    | with_reducible assumption
    | with_reducible apply updLong_keeps
    | with_reducible apply dropSuspends_keeps
    | with_reducible apply cancelBody_keeps

theorem cancelTarget_keeps {lv : Bool} {root s : State} (uid : Nat) (o : LongOp) (kp : Keeps lv root s) :
    Keeps lv root (cancelTarget s uid o) := by
  unfold cancelTarget
  repeat' first
    | with_reducible assumption
    | with_reducible apply updLong_keeps
    | with_reducible apply finish_keeps
    | with_reducible apply cancelLive_keeps
    | split

theorem onTarget_keeps {lv : Bool} {root s : State} (c : Cmd) (f : State → Nat → LongOp → State)
    (hf : ∀ s n o, Keeps lv root s → Keeps lv root (f s n o)) (kp : Keeps lv root s) : Keeps lv root (onTarget s c f) := by
  unfold onTarget
  split
  · exact finish_keeps _ _ _ _ _ (begun_keeps _ kp)
  · exact hf _ _ _ (begun_keeps _ kp)

theorem execSuspend_keeps {lv : Bool} (p : Part) (q : Fin 16) {s nx : State} (hx : execSuspend p q s = .next nx) :
    Keeps lv s nx := by
  unfold execSuspend at hx
  obtain rfl := Host.Outcome.next.inj hx
  have kp := Keeps.refl (b := lv) s
  repeat' first
    | with_reducible assumption
    | with_reducible apply suspendTarget_keeps
    | with_reducible apply onTarget_keeps
    | (intro _ _)
    | (intro _)
    | split

theorem execResume_keeps {lv : Bool} (p : Part) (q : Fin 16) {s nx : State} (hx : execResume p q s = .next nx) :
    Keeps lv s nx := by
  unfold execResume at hx
  obtain rfl := Host.Outcome.next.inj hx
  have kp := Keeps.refl (b := lv) s
  repeat' first
    | with_reducible assumption
    | with_reducible apply resumeTarget_keeps
    | with_reducible apply onTarget_keeps
    | (intro _ _)
    | (intro _)
    | split

theorem execCancel_keeps {lv : Bool} (p : Part) (q : Fin 16) {s nx : State} (hx : execCancel p q s = .next nx) :
    Keeps lv s nx := by
  unfold execCancel at hx
  obtain rfl := Host.Outcome.next.inj hx
  have kp := Keeps.refl (b := lv) s
  repeat' first
    | with_reducible assumption
    | with_reducible apply cancelTarget_keeps
    | with_reducible apply onTarget_keeps
    | (intro _ _)
    | (intro _)
    | split

theorem execQuery_keeps {lv : Bool} (p : Part) (q : Fin 16) {s nx : State} (hx : execQuery p q s = .next nx) :
    Keeps lv s nx := by
  unfold execQuery at hx
  obtain rfl := Host.Outcome.next.inj hx
  have kp := Keeps.refl (b := lv) s
  dsimp only
  repeat' first
    | with_reducible assumption
    | (with_reducible refine Keeps.ite (fun _ => ?_) (fun _ => ?_))
    | with_reducible apply finish_keeps
    | with_reducible apply begun_keeps
    | with_reducible apply giveResult_keeps
    | split
    | fail_if_no_progress (with_reducible refine Keeps.upd ?_ rfl rfl rfl rfl rfl rfl rfl rfl rfl rfl rfl rfl rfl rfl rfl rfl rfl)

theorem execBlotterRead_keeps {lv : Bool} (p : Part) (q : Fin 16) {s nx : State} (hx : execBlotterRead p q s = .next nx) :
    Keeps lv s nx := by
  unfold execBlotterRead at hx
  obtain rfl := Host.Outcome.next.inj hx
  have kp := Keeps.refl (b := lv) s
  repeat' first
    | with_reducible assumption
    | with_reducible apply begun_keeps
    | with_reducible apply giveResult_keeps
    | split

end Sys2Proof.Machine
end

