-- ==== Sys2Proof/Laws/KeepsOperations.lean ====
section
/-! SUPPORT. What the operations of Machine/Operations.lean keep. -/

namespace Sys2Proof.Machine

open Sys2Proof

theorem stallFence_keeps {lv : Bool} {root s : State} (e : OpEnv) (kp : Keeps lv root s) :
    Keeps lv root (stallFence s e) := by
  unfold stallFence
  repeat' first
    | with_reducible assumption
    | with_reducible apply updSeq_keeps

theorem opDone_keeps {lv : Bool} {root s : State} (e : OpEnv) (kp : Keeps lv root s) :
    Keeps lv root (opDone s e) := by
  unfold opDone
  repeat' first
    | with_reducible assumption
    | (with_reducible refine Keeps.ite (fun _ => ?_) (fun _ => ?_))
    | with_reducible apply updSeq_keeps
    | split
    | fail_if_no_progress (with_reducible refine Keeps.upd ?_ rfl rfl rfl rfl rfl rfl rfl rfl rfl rfl rfl rfl rfl rfl rfl rfl rfl)

theorem applyOut_keeps {lv : Bool} {root s : State} (e : OpEnv) (g : Memory → OpOut)
    (hg : ∀ m, m.wf = true → (g m).mem.wf = true) (kp : Keeps lv root s) : Keeps lv root (applyOut s e g) := by
  unfold applyOut
  cases e.unit with
  | none => exact opDone_keeps _ (countEvents_keeps _ _ (updFolio_keeps (setMem_keeps kp _ (hg _)) _ _))
  | some x =>
    refine opDone_keeps _ (updFolio_keeps ?_ _ _)
    with_reducible refine Keeps.upd ?_ rfl rfl rfl rfl rfl rfl rfl rfl rfl rfl rfl rfl rfl rfl rfl rfl rfl
    exact kp

theorem runOp_keeps {lv : Bool} {root s : State} (e : OpEnv) (g : Memory → OpOut)
    (hg : ∀ m, m.wf = true → (g m).mem.wf = true) (kp : Keeps lv root s) : Keeps lv root (runOp s e g) := by
  unfold runOp
  split
  · exact stallFence_keeps e kp
  · split
    · exact failJob_keeps _ _ _ _ _ _ kp
    · exact applyOut_keeps e g hg kp

theorem opRow_keeps {lv : Bool} {root s : State} (h : Handle) (i opcode : Nat) (g : Folio → OpEntry → Memory → OpOut)
    (hg : ∀ f o m, m.wf = true → (g f o m).mem.wf = true) (kp : Keeps lv root s) : Keeps lv root (opRow s h i opcode g) := by
  unfold opRow
  split
  · exact kp
  · exact runOp_keeps _ _ (hg _ _) kp

theorem execMatmul_keeps {lv : Bool} (h : Handle) (i : Nat) {s nx : State} (hx : execMatmul h i s = .next nx) :
    Keeps lv s nx := by
  unfold execMatmul at hx
  obtain rfl := Host.Outcome.next.inj hx
  have kp := Keeps.refl (b := lv) s
  repeat' first
    | with_reducible assumption
    | (intro _ _ _ _)
    | dsimp only
    | with_reducible apply matOut_wf
    | with_reducible apply opRow_keeps

theorem execExpertMatmul_keeps {lv : Bool} (h : Handle) (i : Nat) {s nx : State} (hx : execExpertMatmul h i s = .next nx) :
    Keeps lv s nx := by
  unfold execExpertMatmul at hx
  obtain rfl := Host.Outcome.next.inj hx
  have kp := Keeps.refl (b := lv) s
  dsimp only
  repeat' first
    | with_reducible assumption
    | (intro _ _ _ _)
    | dsimp only
    | with_reducible apply matOut_wf
    | with_reducible apply opRow_keeps

theorem execAmax_keeps {lv : Bool} (h : Handle) (i : Nat) {s nx : State} (hx : execAmax h i s = .next nx) :
    Keeps lv s nx := by
  unfold execAmax at hx
  obtain rfl := Host.Outcome.next.inj hx
  have kp := Keeps.refl (b := lv) s
  repeat' first
    | with_reducible assumption
    | (intro _ _ _ _)
    | dsimp only
    | with_reducible apply amaxOut_wf
    | (with_reducible refine Keeps.ite (fun _ => ?_) (fun _ => ?_))
    | with_reducible apply opRow_keeps
    | split
    | fail_if_no_progress (with_reducible refine Keeps.upd ?_ rfl rfl rfl rfl rfl rfl rfl rfl rfl rfl rfl rfl rfl rfl rfl rfl rfl)

theorem execConvert_keeps {lv : Bool} (h : Handle) (i : Nat) {s nx : State} (hx : execConvert h i s = .next nx) :
    Keeps lv s nx := by
  unfold execConvert at hx
  obtain rfl := Host.Outcome.next.inj hx
  have kp := Keeps.refl (b := lv) s
  repeat' first
    | with_reducible assumption
    | (intro _ _ _ _)
    | dsimp only
    | with_reducible apply convertOut_wf
    | with_reducible apply opRow_keeps

theorem execEltwise_keeps {lv : Bool} (h : Handle) (i : Nat) {s nx : State} (hx : execEltwise h i s = .next nx) :
    Keeps lv s nx := by
  unfold execEltwise at hx
  obtain rfl := Host.Outcome.next.inj hx
  have kp := Keeps.refl (b := lv) s
  repeat' first
    | with_reducible assumption
    | (intro _ _ _ _)
    | dsimp only
    | with_reducible apply eltwiseOut_wf
    | with_reducible apply opRow_keeps

theorem execActivation_keeps {lv : Bool} (h : Handle) (i : Nat) {s nx : State} (hx : execActivation h i s = .next nx) :
    Keeps lv s nx := by
  unfold execActivation at hx
  obtain rfl := Host.Outcome.next.inj hx
  have kp := Keeps.refl (b := lv) s
  repeat' first
    | with_reducible assumption
    | (intro _ _ _ _)
    | dsimp only
    | with_reducible apply activationOut_wf
    | with_reducible apply opRow_keeps

theorem execNorm_keeps {lv : Bool} (h : Handle) (i : Nat) {s nx : State} (hx : execNorm h i s = .next nx) :
    Keeps lv s nx := by
  unfold execNorm at hx
  obtain rfl := Host.Outcome.next.inj hx
  have kp := Keeps.refl (b := lv) s
  repeat' first
    | with_reducible assumption
    | (intro _ _ _ _)
    | dsimp only
    | with_reducible apply normOut_wf
    | with_reducible apply opRow_keeps

theorem execSoftmax_keeps {lv : Bool} (h : Handle) (i : Nat) {s nx : State} (hx : execSoftmax h i s = .next nx) :
    Keeps lv s nx := by
  unfold execSoftmax at hx
  obtain rfl := Host.Outcome.next.inj hx
  have kp := Keeps.refl (b := lv) s
  repeat' first
    | with_reducible assumption
    | (intro _ _ _ _)
    | dsimp only
    | with_reducible apply softmaxOut_wf
    | with_reducible apply opRow_keeps

theorem execLoss_keeps {lv : Bool} (h : Handle) (i : Nat) {s nx : State} (hx : execLoss h i s = .next nx) :
    Keeps lv s nx := by
  unfold execLoss at hx
  obtain rfl := Host.Outcome.next.inj hx
  have kp := Keeps.refl (b := lv) s
  repeat' first
    | with_reducible assumption
    | (intro _ _ _ _)
    | dsimp only
    | with_reducible apply lossOut_wf
    | with_reducible apply opRow_keeps

theorem execReduce_keeps {lv : Bool} (h : Handle) (i : Nat) {s nx : State} (hx : execReduce h i s = .next nx) :
    Keeps lv s nx := by
  unfold execReduce at hx
  obtain rfl := Host.Outcome.next.inj hx
  have kp := Keeps.refl (b := lv) s
  repeat' first
    | with_reducible assumption
    | (intro _ _ _ _)
    | dsimp only
    | with_reducible apply reduceOut_wf
    | with_reducible apply opRow_keeps

theorem execTopk_keeps {lv : Bool} (h : Handle) (i : Nat) {s nx : State} (hx : execTopk h i s = .next nx) :
    Keeps lv s nx := by
  unfold execTopk at hx
  obtain rfl := Host.Outcome.next.inj hx
  have kp := Keeps.refl (b := lv) s
  repeat' first
    | with_reducible assumption
    | (intro _ _ _ _)
    | dsimp only
    | with_reducible apply topkOut_wf
    | with_reducible apply opRow_keeps

theorem execCopy_keeps {lv : Bool} (h : Handle) (i : Nat) {s nx : State} (hx : execCopy h i s = .next nx) :
    Keeps lv s nx := by
  unfold execCopy at hx
  obtain rfl := Host.Outcome.next.inj hx
  have kp := Keeps.refl (b := lv) s
  repeat' first
    | with_reducible assumption
    | (intro _ _ _ _)
    | dsimp only
    | with_reducible apply copyOut_wf
    | with_reducible apply opRow_keeps

theorem execTranspose_keeps {lv : Bool} (h : Handle) (i : Nat) {s nx : State} (hx : execTranspose h i s = .next nx) :
    Keeps lv s nx := by
  unfold execTranspose at hx
  obtain rfl := Host.Outcome.next.inj hx
  have kp := Keeps.refl (b := lv) s
  repeat' first
    | with_reducible assumption
    | (intro _ _ _ _)
    | dsimp only
    | with_reducible apply transposeOut_wf
    | with_reducible apply opRow_keeps

theorem execRowGather_keeps {lv : Bool} (h : Handle) (i : Nat) {s nx : State} (hx : execRowGather h i s = .next nx) :
    Keeps lv s nx := by
  unfold execRowGather at hx
  obtain rfl := Host.Outcome.next.inj hx
  have kp := Keeps.refl (b := lv) s
  repeat' first
    | with_reducible assumption
    | (intro _ _ _ _)
    | dsimp only
    | with_reducible apply rowGatherOut_wf
    | with_reducible apply opRow_keeps

theorem execRowScatter_keeps {lv : Bool} (h : Handle) (i : Nat) {s nx : State} (hx : execRowScatter h i s = .next nx) :
    Keeps lv s nx := by
  unfold execRowScatter at hx
  obtain rfl := Host.Outcome.next.inj hx
  have kp := Keeps.refl (b := lv) s
  repeat' first
    | with_reducible assumption
    | (intro _ _ _ _)
    | dsimp only
    | with_reducible apply rowScatterOut_wf
    | with_reducible apply opRow_keeps

theorem execPermute_keeps {lv : Bool} (h : Handle) (i : Nat) {s nx : State} (hx : execPermute h i s = .next nx) :
    Keeps lv s nx := by
  unfold execPermute at hx
  obtain rfl := Host.Outcome.next.inj hx
  have kp := Keeps.refl (b := lv) s
  repeat' first
    | with_reducible assumption
    | with_reducible apply opDone_keeps
    | split

theorem execGatherParams_keeps {lv : Bool} (h : Handle) (i : Nat) {s nx : State} (hx : execGatherParams h i s = .next nx) :
    Keeps lv s nx := by
  unfold execGatherParams at hx
  obtain rfl := Host.Outcome.next.inj hx
  have kp := Keeps.refl (b := lv) s
  repeat' first
    | with_reducible assumption
    | with_reducible apply opDone_keeps
    | split

theorem execTokenWait_keeps {lv : Bool} (h : Handle) (i : Nat) {s nx : State} (hx : execTokenWait h i s = .next nx) :
    Keeps lv s nx := by
  unfold execTokenWait at hx
  obtain rfl := Host.Outcome.next.inj hx
  have kp := Keeps.refl (b := lv) s
  dsimp only
  repeat' first
    | with_reducible assumption
    | (with_reducible refine Keeps.ite (fun _ => ?_) (fun _ => ?_))
    | (with_reducible refine Keeps.foldl (fun _ _ _ => ?_) ?_)
    | with_reducible apply updSeq_keeps
    | split
    | fail_if_no_progress (with_reducible refine Keeps.upd ?_ rfl rfl rfl rfl rfl rfl rfl rfl rfl rfl rfl rfl rfl rfl rfl rfl rfl)

end Sys2Proof.Machine
end

