-- ==== Sys2Proof/Laws/KeepsDuctus.lean ====
section
/-! SUPPORT. What the operations of Machine/Ductus.lean keep. -/

namespace Sys2Proof.Machine

open Sys2Proof

theorem updGen_keeps {lv : Bool} {root s : State} (q : Quad) (gen : Byte) (f : Generation → Generation) (kp : Keeps lv root s) :
    Keeps lv root (updGen s q gen f) := by
  unfold updGen
  repeat' first
    | with_reducible assumption
    | with_reducible apply updDuctus_keeps

theorem countRoute_keeps {lv : Bool} {root s : State} (h : Handle) (x : RouteOut) (kp : Keeps lv root s) :
    Keeps lv root (countRoute s h x) := by
  unfold countRoute
  dsimp only
  repeat' first
    | with_reducible assumption
    | with_reducible apply updRun_keeps

theorem routeDone_keeps {lv : Bool} {root s : State} (e : OpEnv) (r : RoutingEntry) (z : TRef) (kp : Keeps lv root s) :
    Keeps lv root (routeDone s e r z) := by
  unfold routeDone
  dsimp only
  repeat' first
    | with_reducible assumption
    | with_reducible apply writeElem_wf
    | (with_reducible refine Memory.foldl_wf (fun _ _ _ => ?_) ?_)
    | (with_reducible refine Keeps.foldl_fst (fun _ _ _ => ?_) ?_)
    | (with_reducible refine Keeps.foldl (fun _ _ _ => ?_) ?_)
    | with_reducible apply updDuctus_keeps
    | with_reducible apply opDone_keeps
    | with_reducible apply countRoute_keeps
    | split
    | fail_if_no_progress (with_reducible refine Keeps.upd ?_ rfl rfl rfl rfl rfl rfl rfl rfl rfl rfl rfl rfl rfl rfl rfl rfl rfl)
    | (with_reducible refine Keeps.updM ?_ rfl rfl rfl rfl rfl rfl rfl rfl rfl rfl rfl rfl (fun _ => ?_) rfl rfl rfl rfl)

theorem engineOp_keeps {lv : Bool} {root s : State} (h : Handle) (i opcode : Nat) (g : OpEnv → State)
    (hg : ∀ e, Keeps lv root (g e)) (kp : Keeps lv root s) : Keeps lv root (engineOp s h i opcode g) := by
  unfold engineOp
  repeat' first
    | with_reducible assumption
    | (with_reducible refine Keeps.ite (fun _ => ?_) (fun _ => ?_))
    | with_reducible apply hg
    | with_reducible apply failJob_keeps
    | with_reducible apply stallFence_keeps
    | split

theorem execRoute_keeps {lv : Bool} (h : Handle) (i : Nat) {s nx : State} (hx : execRoute h i s = .next nx) :
    Keeps lv s nx := by
  unfold execRoute at hx
  obtain rfl := Host.Outcome.next.inj hx
  have kp := Keeps.refl (b := lv) s
  repeat' first
    | with_reducible assumption
    | with_reducible apply routeDone_keeps
    | with_reducible apply engineOp_keeps
    | (intro _ _)
    | (intro _)
    | split

theorem execCombine_keeps {lv : Bool} (h : Handle) (i : Nat) {s nx : State} (hx : execCombine h i s = .next nx) :
    Keeps lv s nx := by
  unfold execCombine at hx
  obtain rfl := Host.Outcome.next.inj hx
  have kp := Keeps.refl (b := lv) s
  repeat' first
    | with_reducible assumption
    | dsimp only
    | with_reducible apply outWhole_wf
    | with_reducible apply applyOut_keeps
    | with_reducible apply updGen_keeps
    | with_reducible apply engineOp_keeps
    | (intro _ _)
    | (intro _)
    | split

theorem execRouteBack_keeps {lv : Bool} (h : Handle) (i : Nat) {s nx : State} (hx : execRouteBack h i s = .next nx) :
    Keeps lv s nx := by
  unfold execRouteBack at hx
  obtain rfl := Host.Outcome.next.inj hx
  have kp := Keeps.refl (b := lv) s
  dsimp only
  repeat' first
    | with_reducible assumption
    | with_reducible apply countEvents_keeps
    | with_reducible apply opDone_keeps
    | with_reducible apply updGen_keeps
    | with_reducible apply engineOp_keeps
    | (intro _ _)
    | (intro _)
    | split

theorem execGateGrad_keeps {lv : Bool} (h : Handle) (i : Nat) {s nx : State} (hx : execGateGrad h i s = .next nx) :
    Keeps lv s nx := by
  unfold execGateGrad at hx
  obtain rfl := Host.Outcome.next.inj hx
  have kp := Keeps.refl (b := lv) s
  dsimp only
  repeat' first
    | with_reducible assumption
    | dsimp only
    | with_reducible apply Memory.zero_wf
    | with_reducible apply outWhole_wf
    | (with_reducible refine Keeps.ite (fun _ => ?_) (fun _ => ?_))
    | with_reducible apply applyOut_keeps
    | with_reducible apply updGen_keeps
    | with_reducible apply engineOp_keeps
    | (intro _ _)
    | (intro _)
    | split

end Sys2Proof.Machine
end

