-- ==== Sys2Proof/Laws/KeepsDomains.lean ====
section
/-! SUPPORT. What the operations of Machine/Domains.lean keep. -/

namespace Sys2Proof.Machine

open Sys2Proof

theorem answerPolicy_keeps {lv : Bool} {root s : State} (c : Cmd) (kp : Keeps lv root s) :
    Keeps lv root (answerPolicy s c) := by
  unfold answerPolicy
  dsimp only
  repeat' first
    | with_reducible assumption
    | with_reducible apply giveResult_keeps
    | split
    | fail_if_no_progress (with_reducible refine Keeps.upd ?_ rfl rfl rfl rfl rfl rfl rfl rfl rfl rfl rfl rfl rfl rfl rfl rfl rfl)

theorem answerSetPower_keeps {lv : Bool} {root s : State}  (kp : Keeps lv root s) :
    Keeps lv root (answerSetPower s) := by
  unfold answerSetPower
  repeat' first
    | with_reducible assumption
    | (with_reducible refine Keeps.ite (fun _ => ?_) (fun _ => ?_))
    | with_reducible apply mgmtRespond_keeps
    | split
    | fail_if_no_progress (with_reducible refine Keeps.upd ?_ rfl rfl rfl rfl rfl rfl rfl rfl rfl rfl rfl rfl rfl rfl rfl rfl rfl)

theorem settlePolicy_keeps {lv : Bool} {root s : State} (d : Domain) (kp : Keeps lv root s) :
    Keeps lv root (settlePolicy s d) := by
  unfold settlePolicy
  dsimp only
  repeat' first
    | with_reducible assumption
    | (with_reducible refine Keeps.foldl (fun _ _ _ => ?_) ?_)
    | with_reducible apply answerPolicy_keeps
    | with_reducible apply answerSetPower_keeps
    | fail_if_no_progress (with_reducible refine Keeps.upd ?_ rfl rfl rfl rfl rfl rfl rfl rfl rfl rfl rfl rfl rfl rfl rfl rfl rfl)

theorem demandOne_keeps {lv : Bool} {root s : State} (d : Domain) (source : Nat) (kp : Keeps lv root s) :
    Keeps lv root (demandOne s d source) := by
  unfold demandOne
  dsimp only
  repeat' first
    | with_reducible assumption
    | (with_reducible refine Keeps.ite (fun _ => ?_) (fun _ => ?_))
    | with_reducible apply updDomain_keeps
    | with_reducible apply bump_keeps
    | split
    | fail_if_no_progress (with_reducible refine Keeps.upd ?_ rfl rfl rfl rfl rfl rfl rfl rfl rfl rfl rfl rfl rfl rfl rfl rfl rfl)

theorem demand_keeps {lv : Bool} {root s : State} (d : Domain) (source : Nat) (kp : Keeps lv root s) :
    Keeps lv root (demand s d source) := by
  unfold demand
  dsimp only
  repeat' first
    | with_reducible assumption
    | (with_reducible refine Keeps.ite (fun _ => ?_) (fun _ => ?_))
    | with_reducible apply updDomain_keeps
    | with_reducible apply demandOne_keeps
    | split

theorem needing_keeps {lv : Bool} {root s : State} (ds : List Domain) (source : Nat) (waits : State) (act : State → State)
    (hw : Keeps lv root waits) (ha : ∀ s, Keeps lv root s → Keeps lv root (act s)) (kp : Keeps lv root s) :
    Keeps lv root (needing s ds source waits act) := by
  unfold needing
  repeat' first
    | with_reducible assumption
    | (with_reducible refine Keeps.ite (fun _ => ?_) (fun _ => ?_))
    | (with_reducible refine Keeps.foldl (fun _ _ _ => ?_) ?_)
    | with_reducible apply demand_keeps
    | with_reducible apply ha

theorem refuse_keeps {lv : Bool} {root s : State} (d : Domain) (code unit : Nat) (kp : Keeps lv root s) :
    Keeps lv root (refuse s d code unit) := by
  unfold refuse
  repeat' first
    | with_reducible assumption
    | with_reducible apply updDomain_keeps
    | with_reducible apply bump_keeps
    | with_reducible apply settlePolicy_keeps

theorem beginEntry_keeps {lv : Bool} {root s : State} (d : Domain) (toOff : Bool) (kp : Keeps lv root s) :
    Keeps lv root (beginEntry s d toOff) := by
  unfold beginEntry
  repeat' first
    | with_reducible assumption
    | with_reducible apply updDomain_keeps

theorem attempt_keeps {lv : Bool} {root s : State} (d : Domain) (toOff : Bool) (kp : Keeps lv root s) :
    Keeps lv root (attempt s d toOff) := by
  unfold attempt
  repeat' first
    | with_reducible assumption
    | (with_reducible refine Keeps.ite (fun _ => ?_) (fun _ => ?_))
    | with_reducible apply refuse_keeps
    | with_reducible apply beginEntry_keeps
    | split

theorem attemptBand_keeps {lv : Bool} {root s0 : State} (b : Nat) (kp : Keeps lv root s0) :
    Keeps lv root (attemptBand s0 b) := by
  unfold attemptBand
  dsimp only
  repeat' first
    | with_reducible assumption
    | (with_reducible refine Keeps.ite (fun _ => ?_) (fun _ => ?_))
    | with_reducible apply updSeq_keeps
    | with_reducible apply refuse_keeps
    | with_reducible apply beginEntry_keeps
    | split

theorem attemptIfDue_keeps {lv : Bool} {root s : State} (b : Nat) (kp : Keeps lv root s) :
    Keeps lv root (attemptIfDue s b) := by
  unfold attemptIfDue
  repeat' first
    | with_reducible assumption
    | (with_reducible refine Keeps.ite (fun _ => ?_) (fun _ => ?_))
    | with_reducible apply attemptBand_keeps

theorem reoffer_keeps {lv : Bool} {root s : State} (cs : List Nat) (kp : Keeps lv root s) :
    Keeps lv root (reoffer s cs) := by
  unfold reoffer
  repeat' first
    | with_reducible assumption
    | (with_reducible refine Keeps.ite (fun _ => ?_) (fun _ => ?_))
    | (with_reducible refine Keeps.foldl (fun _ _ _ => ?_) ?_)
    | with_reducible apply attemptBand_keeps

theorem endWait_keeps {lv : Bool} {root s : State} (cs : List Nat) (kp : Keeps lv root s) :
    Keeps lv root (endWait s cs) := by
  unfold endWait
  repeat' first
    | with_reducible assumption
    | fail_if_no_progress (with_reducible refine Keeps.upd ?_ rfl rfl rfl rfl rfl rfl rfl rfl rfl rfl rfl rfl rfl rfl rfl rfl rfl)

theorem wipeBand_keeps {lv : Bool} {root s : State} (b : Nat) (kp : Keeps lv root s) :
    Keeps lv root (wipeBand s b) := by
  unfold wipeBand
  dsimp only
  repeat' first
    | with_reducible assumption
    | (intro _ _)
    | with_reducible apply Memory.zero_wf
    | (with_reducible refine Memory.foldl_wf (fun _ _ _ => ?_) ?_)
    | (with_reducible refine Keeps.foldl_fst (fun _ _ _ => ?_) ?_)
    | (with_reducible refine Keeps.foldl (fun _ _ _ => ?_) ?_)
    | with_reducible apply updMem_keeps
    | with_reducible apply undefineRange_keeps
    | fail_if_no_progress (with_reducible refine Keeps.upd ?_ rfl rfl rfl rfl rfl rfl rfl rfl rfl rfl rfl rfl rfl rfl rfl rfl rfl)

theorem wipeStack_keeps {lv : Bool} {root s : State} (n : Nat) (kp : Keeps lv root s) :
    Keeps lv root (wipeStack s n) := by
  unfold wipeStack
  repeat' first
    | with_reducible assumption
    | (intro _ _)
    | exact cellsWf_filter _ _ 0 (by assumption)
    | with_reducible apply updMem_keeps

theorem reinit_keeps {lv : Bool} {root s : State} (d : Domain) (kp : Keeps lv root s) :
    Keeps lv root (reinit s d) := by
  unfold reinit
  dsimp only
  repeat' first
    | with_reducible assumption
    | (with_reducible refine Keeps.ite (fun _ => ?_) (fun _ => ?_))
    | with_reducible apply updDuctus_keeps
    | with_reducible apply updFabric_keeps
    | with_reducible apply wipeBand_keeps
    | with_reducible apply wipeStack_keeps
    | fail_if_no_progress (with_reducible refine Keeps.upd ?_ rfl rfl rfl rfl rfl rfl rfl rfl rfl rfl rfl rfl rfl rfl rfl rfl rfl)

theorem offerUnowned_keeps {lv : Bool} {root s : State} (bs : List Nat) (kp : Keeps lv root s) :
    Keeps lv root (offerUnowned s bs) := by
  unfold offerUnowned
  repeat' first
    | with_reducible assumption
    | (with_reducible refine Keeps.ite (fun _ => ?_) (fun _ => ?_))
    | (with_reducible refine Keeps.foldl (fun _ _ _ => ?_) ?_)
    | with_reducible apply attemptBand_keeps

theorem execUnloadFolio_keeps {lv : Bool} (p : Part) (q : Fin 16) {s nx : State} (hx : execUnloadFolio p q s = .next nx) :
    Keeps lv s nx := by
  unfold execUnloadFolio at hx
  obtain rfl := Host.Outcome.next.inj hx
  have kp := Keeps.refl (b := lv) s
  dsimp only
  repeat' first
    | with_reducible assumption
    | (with_reducible refine Keeps.ite (fun _ => ?_) (fun _ => ?_))
    | with_reducible apply note_keeps
    | with_reducible apply finish_keeps
    | with_reducible apply begun_keeps
    | with_reducible apply dropFolio_keeps
    | with_reducible apply offerUnowned_keeps
    | split

end Sys2Proof.Machine
end

