-- ==== Sys2Proof/Laws/KeepsCopies.lean ====
section
/-! SUPPORT. What the operations of Machine/Copies.lean keep. -/

namespace Sys2Proof.Machine

open Sys2Proof

theorem execCopyComplete_keeps {lv : Bool} (id : Nat) (data : Bytes) {s nx : State} (hx : execCopyComplete id data s = .next nx) :
    Keeps lv s nx := by
  unfold execCopyComplete at hx
  obtain rfl := Host.Outcome.next.inj hx
  have kp := Keeps.refl (b := lv) s
  repeat' first
    | with_reducible assumption
    | (with_reducible refine Keeps.ite (fun _ => ?_) (fun _ => ?_))
    | with_reducible apply copyInDone_keeps
    | with_reducible apply copyOutDone_keeps
    | with_reducible apply needing_keeps
    | (intro _ _)
    | (intro _)
    | split

end Sys2Proof.Machine
end

