-- ==== Sys2Proof/Laws/KeepsCkptImage.lean ====
section
/-! SUPPORT. What the operations of Machine/CkptImage.lean keep. -/

namespace Sys2Proof.Machine

open Sys2Proof

theorem undefineOthers_keeps {lv : Bool} {root s : State} (f : Folio) (listed : List Nat) (kp : Keeps lv root s) :
    Keeps lv root (undefineOthers s f listed) := by
  unfold undefineOthers
  repeat' first
    | with_reducible assumption
    | (with_reducible refine Keeps.ite (fun _ => ?_) (fun _ => ?_))
    | (with_reducible refine Keeps.foldl (fun _ _ _ => ?_) ?_)
    | with_reducible apply undefineRange_keeps
    | split

theorem ckptRestore_keeps {lv : Bool} {root s0 : State} (f : Folio) (img : Bytes) (kp : Keeps lv root s0) :
    Keeps lv root (ckptRestore s0 f img) := by
  unfold ckptRestore
  dsimp only
  repeat' first
    | with_reducible assumption
    | with_reducible apply Memory.store_wf
    | (with_reducible refine Memory.foldl_wf (fun _ _ _ => ?_) ?_)
    | (with_reducible refine Keeps.foldl_fst (fun _ _ _ => ?_) ?_)
    | (with_reducible refine Keeps.foldl (fun _ _ _ => ?_) ?_)
    | with_reducible apply updFolio_keeps
    | with_reducible apply undefineOthers_keeps
    | fail_if_no_progress (with_reducible refine Keeps.upd ?_ rfl rfl rfl rfl rfl rfl rfl rfl rfl rfl rfl rfl rfl rfl rfl rfl rfl)
    | (with_reducible refine Keeps.updM ?_ rfl rfl rfl rfl rfl rfl rfl rfl rfl rfl rfl rfl (fun _ => ?_) rfl rfl rfl rfl)

end Sys2Proof.Machine
end

