-- ==== Sys2Proof/Laws/KeepsLinks.lean ====
section
/-! SUPPORT. What the operations of Machine/Links.lean keep. -/

namespace Sys2Proof.Machine

open Sys2Proof

theorem cutError_keeps {lv : Bool} {root s : State} (p : FPort) (kp : Keeps lv root s) :
    Keeps lv root (cutError s p) := by
  unfold cutError
  repeat' first
    | with_reducible assumption
    | with_reducible apply bump_keeps
    | with_reducible apply containedError_keeps

theorem cutRx_keeps {lv : Bool} {root s : State} (p : FPort) (kp : Keeps lv root s) :
    Keeps lv root (cutRx s p) := by
  unfold cutRx
  dsimp only
  repeat' first
    | with_reducible assumption
    | with_reducible apply updFabric_keeps
    | with_reducible apply cutError_keeps
    | split

theorem cutPort_keeps {lv : Bool} {root s : State} (p : FPort) (kp : Keeps lv root s) :
    Keeps lv root (cutPort s p) := by
  unfold cutPort
  repeat' first
    | with_reducible assumption
    | with_reducible apply updFabric_keeps
    | with_reducible apply cutRx_keeps

theorem spread_keeps {lv : Bool} {root s : State} (p : FPort) (kp : Keeps lv root s) :
    Keeps lv root (spread s p) := by
  unfold spread
  dsimp only
  repeat' first
    | with_reducible assumption
    | (with_reducible refine Keeps.ite (fun _ => ?_) (fun _ => ?_))
    | (with_reducible refine Keeps.foldl (fun _ _ _ => ?_) ?_)
    | with_reducible apply updFabric_keeps
    | with_reducible apply bump_keeps
    | split

theorem portDown_keeps {lv : Bool} {root s : State} (p : FPort) (st : FpState) (kp : Keeps lv root s) :
    Keeps lv root (portDown s p st) := by
  unfold portDown
  repeat' first
    | with_reducible assumption
    | with_reducible apply updFabric_keeps
    | with_reducible apply cutPort_keeps
    | with_reducible apply spread_keeps

theorem linkDownReport_keeps {lv : Bool} {root s : State} (p : FPort) (cause : Nat) (kp : Keeps lv root s) :
    Keeps lv root (linkDownReport s p cause) := by
  unfold linkDownReport
  repeat' first
    | with_reducible assumption
    | (with_reducible refine Keeps.ite (fun _ => ?_) (fun _ => ?_))
    | with_reducible apply note_keeps
    | with_reducible apply fmMessage_keeps
    | with_reducible apply linkEvent_keeps

theorem fportRest_keeps {lv : Bool} {root s : State} (p : FPort) (kp : Keeps lv root s) :
    Keeps lv root (fportRest s p) := by
  unfold fportRest
  dsimp only
  repeat' first
    | with_reducible assumption
    | (with_reducible refine Keeps.ite (fun _ => ?_) (fun _ => ?_))
    | with_reducible apply beginEntry_keeps

theorem startTraining_keeps {lv : Bool} {root s : State} (p : FPort) (kp : Keeps lv root s) :
    Keeps lv root (startTraining s p) := by
  unfold startTraining
  repeat' first
    | with_reducible assumption
    | (with_reducible refine Keeps.ite (fun _ => ?_) (fun _ => ?_))
    | with_reducible apply updFabric_keeps

theorem miswired_keeps {lv : Bool} {root s : State} (p : FPort) (kp : Keeps lv root s) :
    Keeps lv root (miswired s p) := by
  unfold miswired
  dsimp only
  repeat' first
    | with_reducible assumption
    | with_reducible apply note_keeps
    | with_reducible apply fmMessage_keeps
    | with_reducible apply linkEvent_keeps
    | with_reducible apply portDown_keeps
    | with_reducible apply fportRest_keeps

theorem identified_keeps {lv : Bool} {root s : State} (p : FPort) (kp : Keeps lv root s) :
    Keeps lv root (identified s p) := by
  unfold identified
  dsimp only
  repeat' first
    | with_reducible assumption
    | (with_reducible refine Keeps.ite (fun _ => ?_) (fun _ => ?_))
    | with_reducible apply updFabric_keeps
    | with_reducible apply portDown_keeps
    | with_reducible apply linkDownReport_keeps
    | with_reducible apply miswired_keeps
    | split

theorem degrade_keeps {lv : Bool} {root s : State} (p : FPort) (charged : BitVec 8) (kp : Keeps lv root s) :
    Keeps lv root (degrade s p charged) := by
  unfold degrade
  dsimp only
  repeat' first
    | with_reducible assumption
    | (with_reducible refine Keeps.ite (fun _ => ?_) (fun _ => ?_))
    | with_reducible apply updFabric_keeps
    | with_reducible apply bump_keeps
    | with_reducible apply cutPort_keeps
    | with_reducible apply portDown_keeps
    | with_reducible apply linkDownReport_keeps

theorem trainWith_keeps {lv : Bool} {root s : State} (p : FPort) (l : Lane) (f : Nat) (kp : Keeps lv root s) :
    Keeps lv root (trainWith s p l f) := by
  unfold trainWith
  dsimp only
  repeat' first
    | with_reducible assumption
    | (with_reducible refine Keeps.ite (fun _ => ?_) (fun _ => ?_))
    | with_reducible apply updFabric_keeps
    | with_reducible apply identified_keeps
    | with_reducible apply degrade_keeps
    | split

theorem execTrainingFrame_keeps {lv : Bool} (p : FPort) (l : Lane) (frame : BitVec 256) {s nx : State} (hx : execTrainingFrame p l frame s = .next nx) :
    Keeps lv s nx := by
  unfold execTrainingFrame at hx
  obtain rfl := Host.Outcome.next.inj hx
  have kp := Keeps.refl (b := lv) s
  repeat' first
    | with_reducible assumption
    | (with_reducible refine Keeps.ite (fun _ => ?_) (fun _ => ?_))
    | with_reducible apply startTraining_keeps
    | with_reducible apply trainWith_keeps

theorem countFixed_keeps {lv : Bool} {root s : State} (p : FPort) (l : List (Lane × Nat)) (kp : Keeps lv root s) :
    Keeps lv root (countFixed s p l) := by
  unfold countFixed
  repeat' first
    | with_reducible assumption
    | (with_reducible refine Keeps.foldl_fst (fun _ _ _ => ?_) ?_)
    | (with_reducible refine Keeps.foldl (fun _ _ _ => ?_) ?_)
    | with_reducible apply bump_keeps

theorem failedAttempt_keeps {lv : Bool} {root s : State} (p : FPort) (kp : Keeps lv root s) :
    Keeps lv root (failedAttempt s p) := by
  unfold failedAttempt
  dsimp only
  repeat' first
    | with_reducible assumption
    | (with_reducible refine Keeps.ite (fun _ => ?_) (fun _ => ?_))
    | with_reducible apply updFabric_keeps
    | with_reducible apply linkEvent_keeps
    | with_reducible apply portDown_keeps
    | with_reducible apply linkDownReport_keeps
    | with_reducible apply fportRest_keeps

theorem enterActive_keeps {lv : Bool} {root s : State} (p : FPort) (rtt : Nat) (kp : Keeps lv root s) :
    Keeps lv root (enterActive s p rtt) := by
  unfold enterActive
  dsimp only
  repeat' first
    | with_reducible assumption
    | with_reducible apply updFabric_keeps
    | with_reducible apply note_keeps
    | with_reducible apply fmMessage_keeps
    | with_reducible apply linkEvent_keeps

theorem execMeasureComplete_keeps {lv : Bool} (p : FPort) (rttNs : Nat) (fixed : List (Lane × Nat)) {s nx : State} (hx : execMeasureComplete p rttNs fixed s = .next nx) :
    Keeps lv s nx := by
  unfold execMeasureComplete at hx
  obtain rfl := Host.Outcome.next.inj hx
  have kp := Keeps.refl (b := lv) s
  dsimp only
  repeat' first
    | with_reducible assumption
    | (with_reducible refine Keeps.ite (fun _ => ?_) (fun _ => ?_))
    | with_reducible apply updFabric_keeps
    | with_reducible apply drawFree_keeps
    | with_reducible apply portDown_keeps
    | with_reducible apply linkDownReport_keeps
    | with_reducible apply fportRest_keeps
    | with_reducible apply countFixed_keeps
    | with_reducible apply enterActive_keeps

theorem execTrainingTimeout_keeps {lv : Bool} (p : FPort) {s nx : State} (hx : execTrainingTimeout p s = .next nx) :
    Keeps lv s nx := by
  unfold execTrainingTimeout at hx
  obtain rfl := Host.Outcome.next.inj hx
  have kp := Keeps.refl (b := lv) s
  repeat' first
    | with_reducible assumption
    | with_reducible apply failedAttempt_keeps
    | split

theorem execTrainingRetry_keeps {lv : Bool} (p : FPort) {s nx : State} (hx : execTrainingRetry p s = .next nx) :
    Keeps lv s nx := by
  unfold execTrainingRetry at hx
  obtain rfl := Host.Outcome.next.inj hx
  have kp := Keeps.refl (b := lv) s
  repeat' first
    | with_reducible assumption
    | with_reducible apply startTraining_keeps

theorem execSerWindow_keeps {lv : Bool} (p : FPort) {s nx : State} (hx : execSerWindow p s = .next nx) :
    Keeps lv s nx := by
  unfold execSerWindow at hx
  obtain rfl := Host.Outcome.next.inj hx
  have kp := Keeps.refl (b := lv) s
  dsimp only
  repeat' first
    | with_reducible assumption
    | (with_reducible refine Keeps.ite (fun _ => ?_) (fun _ => ?_))
    | with_reducible apply updFabric_keeps
    | with_reducible apply degrade_keeps

theorem execLossOfLock_keeps {lv : Bool} (p : FPort) (l : Lane) {s nx : State} (hx : execLossOfLock p l s = .next nx) :
    Keeps lv s nx := by
  unfold execLossOfLock at hx
  obtain rfl := Host.Outcome.next.inj hx
  have kp := Keeps.refl (b := lv) s
  repeat' first
    | with_reducible assumption
    | (with_reducible refine Keeps.ite (fun _ => ?_) (fun _ => ?_))
    | with_reducible apply degrade_keeps

theorem execLossOfSignal_keeps {lv : Bool} (p : FPort) {s nx : State} (hx : execLossOfSignal p s = .next nx) :
    Keeps lv s nx := by
  unfold execLossOfSignal at hx
  obtain rfl := Host.Outcome.next.inj hx
  have kp := Keeps.refl (b := lv) s
  repeat' first
    | with_reducible assumption
    | with_reducible apply portDown_keeps
    | with_reducible apply linkDownReport_keeps
    | split

theorem countArrival_keeps {lv : Bool} {root s : State} (epoch n : Nat) (kp : Keeps lv root s) :
    Keeps lv root (countArrival s epoch n) := by
  unfold countArrival
  repeat' first
    | with_reducible assumption
    | (with_reducible refine Keeps.ite (fun _ => ?_) (fun _ => ?_))
    | with_reducible apply updRouter_keeps

theorem overrun_keeps {lv : Bool} {root s : State} (p : FPort) (kp : Keeps lv root s) :
    Keeps lv root (overrun s p) := by
  unfold overrun
  dsimp only
  repeat' first
    | with_reducible assumption
    | with_reducible apply updFabric_keeps
    | with_reducible apply bump_keeps
    | with_reducible apply containedError_keeps
    | with_reducible apply degrade_keeps

theorem takeFlit_keeps {lv : Bool} {root s : State} (p : FPort) (r : FlitRun) (kp : Keeps lv root s) :
    Keeps lv root (takeFlit s p r) := by
  unfold takeFlit
  dsimp only
  repeat' first
    | with_reducible assumption
    | (with_reducible refine Keeps.ite (fun _ => ?_) (fun _ => ?_))
    | with_reducible apply updFabric_keeps
    | with_reducible apply countArrival_keeps
    | with_reducible apply overrun_keeps
    | split

theorem enterFlit_keeps {lv : Bool} {root s : State} (p : FPort) (f : BitVec 512) (kp : Keeps lv root s) :
    Keeps lv root (enterFlit s p f).1 := by
  unfold enterFlit
  dsimp only
  repeat' first
    | with_reducible assumption
    | (with_reducible refine Keeps.ite (fun _ => ?_) (fun _ => ?_))
    | with_reducible apply updFabric_keeps
    | with_reducible apply bump_keeps
    | with_reducible apply cutError_keeps
    | with_reducible apply takeFlit_keeps
    | split

theorem enterFlits_keeps {lv : Bool} {root : State} (p : FPort) : ∀ (l : List (BitVec 512)) {s : State}, Keeps lv root s →
    Keeps lv root (enterFlits p l s)
  | [], _, kp => kp
  | f :: t, s, kp => by
    unfold enterFlits
    dsimp only
    split
    · exact enterFlits_keeps p t (enterFlit_keeps p f kp)
    · exact enterFlit_keeps p f kp

theorem execCodeword_keeps {lv : Bool} (p : FPort) (c : CodewordIn) {s nx : State} (hx : execCodeword p c s = .next nx) :
    Keeps lv s nx := by
  unfold execCodeword at hx
  obtain rfl := Host.Outcome.next.inj hx
  have kp := Keeps.refl (b := lv) s
  dsimp only
  repeat' first
    | with_reducible assumption
    | (with_reducible refine Keeps.ite (fun _ => ?_) (fun _ => ?_))
    | with_reducible apply updFabric_keeps
    | with_reducible apply bump_keeps
    | with_reducible apply cutRx_keeps
    | with_reducible apply countFixed_keeps
    | with_reducible apply enterFlits_keeps
    | split

theorem execCodewordSend_keeps {lv : Bool} (p : FPort) {s nx : State} (hx : execCodewordSend p s = .next nx) :
    Keeps lv s nx := by
  unfold execCodewordSend at hx
  obtain rfl := Host.Outcome.next.inj hx
  have kp := Keeps.refl (b := lv) s
  dsimp only
  repeat' first
    | with_reducible assumption
    | (with_reducible refine Keeps.ite (fun _ => ?_) (fun _ => ?_))
    | with_reducible apply updFabric_keeps
    | split

end Sys2Proof.Machine
end

