-- ==== Sys2Proof/Laws/KeepsExchanges.lean ====
section
/-! SUPPORT. What the operations of Machine/Exchanges.lean keep. -/

namespace Sys2Proof.Machine

open Sys2Proof

theorem updExch_keeps {lv : Bool} {root s : State} (h : Handle) (x step : Nat) (f : ExchRun → ExchRun) (kp : Keeps lv root s) :
    Keeps lv root (updExch s h x step f) := by
  unfold updExch
  dsimp only
  repeat' first
    | with_reducible assumption
    | with_reducible apply updRun_keeps

theorem sendMarkers_keeps {lv : Bool} {root s : State} (p : Part) (f : Folio) (x : Nat) (e : ExchEntry) (kp : Keeps lv root s) :
    Keeps lv root (sendMarkers s p f x e) := by
  unfold sendMarkers
  repeat' first
    | with_reducible assumption
    | (with_reducible refine Keeps.foldl (fun _ _ _ => ?_) ?_)
    | with_reducible apply sendToRank_keeps

theorem serveOne_keeps {lv : Bool} {root s : State} (p : Part) (h : Handle) (f : Folio) (x : Nat) (e : ExchEntry) (rank : Nat) (kp : Keeps lv root s) :
    Keeps lv root (serveOne s p h f x e rank) := by
  unfold serveOne
  dsimp only
  repeat' first
    | with_reducible assumption
    | (with_reducible refine Keeps.foldl (fun _ _ _ => ?_) ?_)
    | with_reducible apply failJob_keeps
    | with_reducible apply sendToRank_keeps
    | with_reducible apply demand_keeps
    | with_reducible apply updExch_keeps
    | split

theorem serveReady_keeps {lv : Bool} {root s : State} (h : Handle) (x : Nat) (kp : Keeps lv root s) :
    Keeps lv root (serveReady s h x) := by
  unfold serveReady
  dsimp only
  repeat' first
    | with_reducible assumption
    | (with_reducible refine Keeps.ite (fun _ => ?_) (fun _ => ?_))
    | (with_reducible refine Keeps.foldl (fun _ _ _ => ?_) ?_)
    | with_reducible apply serveOne_keeps
    | split

theorem takeTable_keeps {lv : Bool} {root s : State} (p : Part) (f : Folio) (x : Nat) (e : ExchEntry) (kp : Keeps lv root s) :
    Keeps lv root (takeTable s p f x e) := by
  unfold takeTable
  repeat' first
    | with_reducible assumption
    | (with_reducible refine Keeps.ite (fun _ => ?_) (fun _ => ?_))
    | with_reducible apply updDuctus_keeps
    | split

theorem dispatchOpens_keeps {lv : Bool} {root s : State} (f : Folio) (x : Nat) (e : ExchEntry) (kp : Keeps lv root s) :
    Keeps lv root (dispatchOpens s f x e) := by
  unfold dispatchOpens
  repeat' first
    | with_reducible assumption
    | (with_reducible refine Keeps.ite (fun _ => ?_) (fun _ => ?_))
    | with_reducible apply updGen_keeps
    | split

theorem openExch_keeps {lv : Bool} {root s : State} (p : Part) (h : Handle) (f : Folio) (n x : Nat) (kp : Keeps lv root s) :
    Keeps lv root (openExch s p h f n x) := by
  unfold openExch
  dsimp only
  repeat' first
    | with_reducible assumption
    | (with_reducible refine Keeps.ite (fun _ => ?_) (fun _ => ?_))
    | with_reducible apply updExch_keeps
    | with_reducible apply sendMarkers_keeps
    | with_reducible apply serveReady_keeps
    | with_reducible apply takeTable_keeps
    | with_reducible apply dispatchOpens_keeps
    | split

theorem takeInbox_keeps {lv : Bool} {root s : State} (i cls op : Nat) {k} {t : State} (hq : (takeInbox s i cls op) = some (k, t)) (kp : Keeps lv root s) :
    Keeps lv root t := by
  unfold takeInbox at hq
  repeat' first
    | dsimp only at hq
    | split at hq
    | cases hq
  repeat' first
    | with_reducible assumption
    | (with_reducible refine Keeps.ite (fun _ => ?_) (fun _ => ?_))
    | split
    | dsimp only
    | fail_if_no_progress (with_reducible refine Keeps.upd ?_ rfl rfl rfl rfl rfl rfl rfl rfl rfl rfl rfl rfl rfl rfl rfl rfl rfl)

theorem overcount_keeps {lv : Bool} {root s : State} (stamp : Stamp) (unit x : Nat) (kp : Keeps lv root s) :
    Keeps lv root (overcount s stamp unit x) := by
  unfold overcount
  repeat' first
    | with_reducible assumption
    | with_reducible apply failJob_keeps

theorem countUnit_keeps {lv : Bool} {root s : State} (h : Handle) (x step : Nat) (kp : Keeps lv root s) :
    Keeps lv root (countUnit s h x step) := by
  unfold countUnit
  repeat' first
    | with_reducible assumption
    | with_reducible apply updExch_keeps

theorem settleReshard_keeps {lv : Bool} {root s : State} (h : Handle) (kp : Keeps lv root s) :
    Keeps lv root (settleReshard s h) := by
  unfold settleReshard
  dsimp only
  repeat' first
    | with_reducible assumption
    | (with_reducible refine Keeps.ite (fun _ => ?_) (fun _ => ?_))
    | with_reducible apply updFolio_keeps
    | with_reducible apply endLong_keeps
    | split
    | fail_if_no_progress (with_reducible refine Keeps.upd ?_ rfl rfl rfl rfl rfl rfl rfl rfl rfl rfl rfl rfl rfl rfl rfl rfl rfl)

theorem reshardArrive_keeps {lv : Bool} {root s : State} (o : LongOp) (r : ReshardOp) (k : Packet) (kp : Keeps lv root s) :
    Keeps lv root (reshardArrive s o r k) := by
  unfold reshardArrive
  dsimp only
  repeat' first
    | with_reducible assumption
    | with_reducible apply pickStore_wf
    | (with_reducible refine Keeps.ite (fun _ => ?_) (fun _ => ?_))
    | with_reducible apply updLong_keeps
    | with_reducible apply overcount_keeps
    | with_reducible apply settleReshard_keeps
    | split
    | fail_if_no_progress (with_reducible refine Keeps.upd ?_ rfl rfl rfl rfl rfl rfl rfl rfl rfl rfl rfl rfl rfl rfl rfl rfl rfl)
    | (with_reducible refine Keeps.updM ?_ rfl rfl rfl rfl rfl rfl rfl rfl rfl rfl rfl rfl (fun _ => ?_) rfl rfl rfl rfl)

theorem exchArrive_keeps {lv : Bool} {root s : State} (k : Packet) (kp : Keeps lv root s) :
    Keeps lv root (exchArrive s k) := by
  unfold exchArrive
  dsimp only
  repeat' first
    | with_reducible assumption
    | (with_reducible refine Keeps.ite (fun _ => ?_) (fun _ => ?_))
    | exact arrived_wf _ _ _ _ _ (by assumption) (by assumption)
    | with_reducible apply staleDrop_keeps
    | with_reducible apply overcount_keeps
    | with_reducible apply countUnit_keeps
    | with_reducible apply reshardArrive_keeps
    | split
    | fail_if_no_progress (with_reducible refine Keeps.upd ?_ rfl rfl rfl rfl rfl rfl rfl rfl rfl rfl rfl rfl rfl rfl rfl rfl rfl)
    | (with_reducible refine Keeps.updM ?_ rfl rfl rfl rfl rfl rfl rfl rfl rfl rfl rfl rfl (fun _ => ?_) rfl rfl rfl rfl)

theorem execExchData_keeps {lv : Bool} (i : Nat) {s nx : State} (hx : execExchData i s = .next nx) :
    Keeps lv s nx := by
  unfold execExchData at hx
  obtain rfl := Host.Outcome.next.inj hx
  have kp := Keeps.refl (b := lv) s
  repeat' first
    | with_reducible assumption
    | (with_reducible refine takeInbox_keeps _ _ _ (by assumption) ?_)
    | with_reducible apply needing_keeps
    | with_reducible apply exchArrive_keeps
    | (intro _ _)
    | (intro _)
    | split

theorem settleSender_keeps {lv : Bool} {root s : State} (h : Handle) (f : Folio) (stamp : Stamp) (x : Nat) (e : ExchEntry) (rank : Nat) (kp : Keeps lv root s) :
    Keeps lv root (settleSender s h f stamp x e rank) := by
  unfold settleSender
  dsimp only
  repeat' first
    | with_reducible assumption
    | (with_reducible refine Keeps.ite (fun _ => ?_) (fun _ => ?_))
    | with_reducible apply overcount_keeps
    | with_reducible apply countUnit_keeps
    | split

theorem endArrive_keeps {lv : Bool} {root s : State} (k : Packet) (kp : Keeps lv root s) :
    Keeps lv root (endArrive s k) := by
  unfold endArrive
  dsimp only
  repeat' first
    | with_reducible assumption
    | (with_reducible refine Keeps.ite (fun _ => ?_) (fun _ => ?_))
    | with_reducible apply updDuctus_keeps
    | with_reducible apply staleDrop_keeps
    | with_reducible apply updExch_keeps
    | with_reducible apply overcount_keeps
    | with_reducible apply settleSender_keeps
    | split

theorem execEndMarker_keeps {lv : Bool} (i : Nat) {s nx : State} (hx : execEndMarker i s = .next nx) :
    Keeps lv s nx := by
  unfold execEndMarker at hx
  obtain rfl := Host.Outcome.next.inj hx
  have kp := Keeps.refl (b := lv) s
  repeat' first
    | with_reducible assumption
    | (with_reducible refine takeInbox_keeps _ _ _ (by assumption) ?_)
    | with_reducible apply endArrive_keeps
    | split

theorem reshardSend_keeps {lv : Bool} {root s : State} (o : LongOp) (r : ReshardOp) (rank : Nat) (kp : Keeps lv root s) :
    Keeps lv root (reshardSend s o r rank) := by
  unfold reshardSend
  dsimp only
  repeat' first
    | with_reducible assumption
    | (with_reducible refine Keeps.ite (fun _ => ?_) (fun _ => ?_))
    | (with_reducible refine Keeps.foldl (fun _ _ _ => ?_) ?_)
    | with_reducible apply updLong_keeps
    | with_reducible apply sendToRank_keeps
    | with_reducible apply settleReshard_keeps
    | split

theorem markArrive_keeps {lv : Bool} {root s : State} (k : Packet) (kp : Keeps lv root s) :
    Keeps lv root (markArrive s k) := by
  unfold markArrive
  repeat' first
    | with_reducible assumption
    | (with_reducible refine Keeps.ite (fun _ => ?_) (fun _ => ?_))
    | with_reducible apply staleDrop_keeps
    | with_reducible apply updExch_keeps
    | with_reducible apply serveReady_keeps
    | with_reducible apply reshardSend_keeps
    | split

theorem execReadyMarker_keeps {lv : Bool} (i : Nat) {s nx : State} (hx : execReadyMarker i s = .next nx) :
    Keeps lv s nx := by
  unfold execReadyMarker at hx
  obtain rfl := Host.Outcome.next.inj hx
  have kp := Keeps.refl (b := lv) s
  repeat' first
    | with_reducible assumption
    | (with_reducible refine takeInbox_keeps _ _ _ (by assumption) ?_)
    | with_reducible apply markArrive_keeps
    | split

theorem updStream_keeps {lv : Bool} {root s : State} (a b : Handle) (id : Nat) (f : PairStream → PairStream) (kp : Keeps lv root s) :
    Keeps lv root (updStream s a b id f) := by
  unfold updStream
  repeat' first
    | with_reducible assumption
    | (with_reducible refine Keeps.ite (fun _ => ?_) (fun _ => ?_))
    | fail_if_no_progress (with_reducible refine Keeps.upd ?_ rfl rfl rfl rfl rfl rfl rfl rfl rfl rfl rfl rfl rfl rfl rfl rfl rfl)

theorem pairedSend_keeps {lv : Bool} {root s : State} (e : OpEnv) (kp : Keeps lv root s) :
    Keeps lv root (pairedSend s e) := by
  unfold pairedSend
  dsimp only
  repeat' first
    | with_reducible assumption
    | (with_reducible refine Keeps.ite (fun _ => ?_) (fun _ => ?_))
    | with_reducible apply failJob_keeps
    | with_reducible apply opDone_keeps
    | with_reducible apply updExch_keeps
    | with_reducible apply updStream_keeps
    | split

theorem execPairedSend_keeps {lv : Bool} (h : Handle) (i : Nat) {s nx : State} (hx : execPairedSend h i s = .next nx) :
    Keeps lv s nx := by
  unfold execPairedSend at hx
  obtain rfl := Host.Outcome.next.inj hx
  have kp := Keeps.refl (b := lv) s
  repeat' first
    | with_reducible assumption
    | with_reducible apply pairedSend_keeps
    | split

theorem pairedRecv_keeps {lv : Bool} {root s : State} (e : OpEnv) (kp : Keeps lv root s) :
    Keeps lv root (pairedRecv s e) := by
  unfold pairedRecv
  dsimp only
  repeat' first
    | with_reducible assumption
    | with_reducible apply Memory.store_wf
    | (with_reducible refine Keeps.ite (fun _ => ?_) (fun _ => ?_))
    | with_reducible apply consumed_keeps
    | with_reducible apply opDone_keeps
    | with_reducible apply updExch_keeps
    | with_reducible apply updStream_keeps
    | split
    | fail_if_no_progress (with_reducible refine Keeps.upd ?_ rfl rfl rfl rfl rfl rfl rfl rfl rfl rfl rfl rfl rfl rfl rfl rfl rfl)
    | (with_reducible refine Keeps.updM ?_ rfl rfl rfl rfl rfl rfl rfl rfl rfl rfl rfl rfl (fun _ => ?_) rfl rfl rfl rfl)

theorem execPairedRecv_keeps {lv : Bool} (h : Handle) (i : Nat) {s nx : State} (hx : execPairedRecv h i s = .next nx) :
    Keeps lv s nx := by
  unfold execPairedRecv at hx
  obtain rfl := Host.Outcome.next.inj hx
  have kp := Keeps.refl (b := lv) s
  repeat' first
    | with_reducible assumption
    | with_reducible apply pairedRecv_keeps
    | split

end Sys2Proof.Machine
end

