-- ==== Sys2Proof/Laws/KeepsLigatureOps.lean ====
section
/-! SUPPORT. What the operations of Machine/LigatureOps.lean keep. -/

namespace Sys2Proof.Machine

open Sys2Proof

theorem vectorOp_keeps {lv : Bool} {root s : State} (h : Handle) (i opcode : Nat) (g : OpEnv → State)
    (hg : ∀ e, Keeps lv root (g e)) (kp : Keeps lv root s) : Keeps lv root (vectorOp s h i opcode g) := by
  unfold vectorOp
  repeat' first
    | with_reducible assumption
    | (with_reducible refine Keeps.ite (fun _ => ?_) (fun _ => ?_))
    | with_reducible apply hg
    | with_reducible apply failJob_keeps
    | with_reducible apply stallFence_keeps
    | split

theorem countMarg_keeps {lv : Bool} {root s : State} (h : Handle) (b : BucketEntry) (what : Nat) (terms : List XVal) (kp : Keeps lv root s) :
    Keeps lv root (countMarg s h b what terms) := by
  unfold countMarg
  repeat' first
    | with_reducible assumption
    | (with_reducible refine Keeps.ite (fun _ => ?_) (fun _ => ?_))
    | with_reducible apply updRun_keeps

theorem execBucketAdd_keeps {lv : Bool} (h : Handle) (i : Nat) {s nx : State} (hx : execBucketAdd h i s = .next nx) :
    Keeps lv s nx := by
  unfold execBucketAdd at hx
  obtain rfl := Host.Outcome.next.inj hx
  have kp := Keeps.refl (b := lv) s
  dsimp only
  repeat' first
    | with_reducible assumption
    | dsimp only
    | with_reducible apply bucketAddOut_wf
    | (with_reducible refine Keeps.ite (fun _ => ?_) (fun _ => ?_))
    | with_reducible apply updRun_keeps
    | with_reducible apply applyOut_keeps
    | with_reducible apply vectorOp_keeps
    | (intro _ _)
    | (intro _)

theorem execLowrankFactor_keeps {lv : Bool} (h : Handle) (i : Nat) {s nx : State} (hx : execLowrankFactor h i s = .next nx) :
    Keeps lv s nx := by
  unfold execLowrankFactor at hx
  obtain rfl := Host.Outcome.next.inj hx
  have kp := Keeps.refl (b := lv) s
  dsimp only
  repeat' first
    | with_reducible assumption
    | dsimp only
    | with_reducible apply lowrankOut_wf
    | (with_reducible refine Keeps.ite (fun _ => ?_) (fun _ => ?_))
    | with_reducible apply applyOut_keeps
    | with_reducible apply vectorOp_keeps
    | with_reducible apply countMarg_keeps
    | (intro _ _)
    | (intro _)
    | split

theorem execUpdate_keeps {lv : Bool} (h : Handle) (i : Nat) {s nx : State} (hx : execUpdate h i s = .next nx) :
    Keeps lv s nx := by
  unfold execUpdate at hx
  obtain rfl := Host.Outcome.next.inj hx
  have kp := Keeps.refl (b := lv) s
  dsimp only
  repeat' first
    | with_reducible assumption
    | dsimp only
    | with_reducible apply updateOut_wf
    | with_reducible apply updFolio_keeps
    | with_reducible apply updRun_keeps
    | with_reducible apply applyOut_keeps
    | with_reducible apply vectorOp_keeps
    | with_reducible apply countMarg_keeps
    | (intro _ _)
    | (intro _)
    | split

end Sys2Proof.Machine
end

