-- ==== Sys2Proof/Laws/KeepsLigature.lean ====
section
/-! SUPPORT. What the operations of Machine/Ligature.lean keep. -/

namespace Sys2Proof.Machine

open Sys2Proof

theorem LeafPart.foldl_keeps {lv : Bool} {root : State} {α : Type} {f : LeafPart → α → LeafPart}
    (hf : ∀ x a, Keeps lv root x.state → Keeps lv root (f x a).state) :
    ∀ {l : List α} {x : LeafPart}, Keeps lv root x.state → Keeps lv root (l.foldl f x).state
  | [], _, h => h
  | a :: l, x, h => LeafPart.foldl_keeps hf (l := l) (hf x a h)

theorem readLeaf_keeps {lv : Bool} {root s : State} (v : InstEnv) (src : TRef) (form first n : Nat) (kp : Keeps lv root s) :
    Keeps lv root (readLeaf s v src form first n).state := by
  unfold readLeaf
  dsimp only
  split
  · split
    · exact kp
    · refine LeafPart.foldl_keeps (fun x a h => ?_) kp
      refine countEvents_keeps _ _ (setMem_keeps h _ (fun hm => ?_))
      exact Memory.foldl_wf (fun _ _ h => writeElem_wf _ _ _ _ h) hm
  · exact kp

theorem tell_keeps {lv : Bool} {root s : State} (v : InstEnv) (i : Instance) (peer : Nat) (h : CollHead) (payload : Bytes) (kp : Keeps lv root s) :
    Keeps lv root (tell s v i peer h payload) := by
  unfold tell
  repeat' first
    | with_reducible assumption
    | with_reducible apply sendColl_keeps

theorem leafStep_keeps {lv : Bool} {root : State} (v : InstEnv) (src : TRef) (o : Nat) (x : State × Instance) (kp : Keeps lv root x.1) :
    Keeps lv root (leafStep v src o x).1 := by
  unfold leafStep
  dsimp only
  repeat' first
    | with_reducible assumption
    | (with_reducible refine Keeps.ite (fun _ => ?_) (fun _ => ?_))
    | (with_reducible refine Keeps.foldl_fst (fun _ _ _ => ?_) ?_)
    | (with_reducible refine Keeps.foldl (fun _ _ _ => ?_) ?_)
    | with_reducible apply readLeaf_keeps
    | with_reducible apply tell_keeps
    | split

theorem headerLeaf_keeps {lv : Bool} {root : State} (v : InstEnv) (x : State × Instance) (kp : Keeps lv root x.1) :
    Keeps lv root (headerLeaf v x).1 := by
  unfold headerLeaf
  dsimp only
  repeat' first
    | with_reducible assumption
    | (with_reducible refine Keeps.ite (fun _ => ?_) (fun _ => ?_))
    | (with_reducible refine Keeps.foldl_fst (fun _ _ _ => ?_) ?_)
    | (with_reducible refine Keeps.foldl (fun _ _ _ => ?_) ?_)
    | with_reducible apply tell_keeps
    | split

theorem leafRun_keeps {lv : Bool} {root : State} (v : InstEnv) (x : State × Instance) (kp : Keeps lv root x.1) :
    Keeps lv root (leafRun v x).1 := by
  unfold leafRun
  dsimp only
  repeat' first
    | with_reducible assumption
    | (with_reducible refine Keeps.ite (fun _ => ?_) (fun _ => ?_))
    | (with_reducible refine Keeps.foldl_fst (fun _ _ _ => ?_) ?_)
    | (with_reducible refine Keeps.foldl (fun _ _ _ => ?_) ?_)
    | with_reducible apply leafStep_keeps
    | with_reducible apply headerLeaf_keeps
    | split

theorem sendPart_keeps {lv : Bool} {root : State} (v : InstEnv) (peer key o lo hi form seg : Nat) (cellAt : Instance → Nat → Option (List Word32)) (x : State × Instance) (kp : Keeps lv root x.1) :
    Keeps lv root (sendPart v peer key o lo hi form seg cellAt x).1 := by
  unfold sendPart
  dsimp only
  repeat' first
    | with_reducible assumption
    | (with_reducible refine Keeps.ite (fun _ => ?_) (fun _ => ?_))
    | with_reducible apply tell_keeps
    | split

theorem sendHeader_keeps {lv : Bool} {root : State} (v : InstEnv) (peer key o lo hi : Nat) (x : State × Instance) (kp : Keeps lv root x.1) :
    Keeps lv root (sendHeader v peer key o lo hi x).1 := by
  unfold sendHeader
  repeat' first
    | with_reducible assumption
    | (with_reducible refine Keeps.ite (fun _ => ?_) (fun _ => ?_))
    | with_reducible apply tell_keeps
    | split

theorem sendNode_keeps {lv : Bool} {root : State} (v : InstEnv) (o : Nat) (e : (Nat × Nat) × Option (Nat × Nat)) (x : State × Instance) (kp : Keeps lv root x.1) :
    Keeps lv root (sendNode v o e x).1 := by
  unfold sendNode
  dsimp only
  repeat' first
    | with_reducible assumption
    | (with_reducible refine Keeps.ite (fun _ => ?_) (fun _ => ?_))
    | (with_reducible refine Keeps.foldl_fst (fun _ _ _ => ?_) ?_)
    | (with_reducible refine Keeps.foldl (fun _ _ _ => ?_) ?_)
    | with_reducible apply sendPart_keeps
    | with_reducible apply sendHeader_keeps
    | split

theorem writeDst_keeps {lv : Bool} {root s : State} (v : InstEnv) (first : Nat) (ws : List Word32) (kp : Keeps lv root s) :
    Keeps lv root (writeDst s v first ws) := by
  unfold writeDst
  repeat' first
    | with_reducible assumption
    | (intro _ _)
    | with_reducible apply Memory.store_wf
    | with_reducible apply updMem_keeps
    | split

theorem writeCell_keeps {lv : Bool} {root : State} (v : InstEnv) (o c : Nat) (x : State × Instance) (kp : Keeps lv root x.1) :
    Keeps lv root (writeCell v o c x).1 := by
  unfold writeCell
  dsimp only
  repeat' first
    | with_reducible assumption
    | (with_reducible refine Keeps.ite (fun _ => ?_) (fun _ => ?_))
    | with_reducible apply countMarg_keeps
    | with_reducible apply writeDst_keeps
    | split

theorem sendShard_keeps {lv : Bool} {root : State} (v : InstEnv) (x : State × Instance) (kp : Keeps lv root x.1) :
    Keeps lv root (sendShard v x).1 := by
  unfold sendShard
  repeat' first
    | with_reducible assumption
    | (with_reducible refine Keeps.ite (fun _ => ?_) (fun _ => ?_))
    | (with_reducible refine Keeps.foldl_fst (fun _ _ _ => ?_) ?_)
    | (with_reducible refine Keeps.foldl (fun _ _ _ => ?_) ?_)
    | with_reducible apply sendPart_keeps
    | with_reducible apply sendHeader_keeps
    | split

theorem returnCredits_keeps {lv : Bool} {root : State} (v : InstEnv) (x : State × Instance) (kp : Keeps lv root x.1) :
    Keeps lv root (returnCredits v x).1 := by
  unfold returnCredits
  dsimp only
  repeat' first
    | with_reducible assumption
    | (with_reducible refine Keeps.ite (fun _ => ?_) (fun _ => ?_))
    | (with_reducible refine Keeps.foldl_fst (fun _ _ _ => ?_) ?_)
    | (with_reducible refine Keeps.foldl (fun _ _ _ => ?_) ?_)
    | with_reducible apply tell_keeps
    | split

theorem updSlot_keeps {lv : Bool} {root s : State} (e : Engine) (i : Instance) (kp : Keeps lv root s) :
    Keeps lv root (updSlot s e i) := by
  unfold updSlot
  repeat' first
    | with_reducible assumption
    | (with_reducible refine Keeps.ite (fun _ => ?_) (fun _ => ?_))
    | with_reducible apply updLig_keeps

theorem recordDone_keeps {lv : Bool} {root s : State} (v : InstEnv) (i : Instance) (kp : Keeps lv root s) :
    Keeps lv root (recordDone s v i) := by
  unfold recordDone
  dsimp only
  repeat' first
    | with_reducible assumption
    | (with_reducible refine Keeps.ite (fun _ => ?_) (fun _ => ?_))
    | with_reducible apply updRun_keeps

theorem settleInstance_keeps {lv : Bool} {root s : State} (e : Engine) (i : Instance) (kp : Keeps lv root s) :
    Keeps lv root (settleInstance s e i) := by
  unfold settleInstance
  dsimp only
  repeat' first
    | with_reducible assumption
    | (with_reducible refine Keeps.ite (fun _ => ?_) (fun _ => ?_))
    | (with_reducible refine Keeps.foldl_fst (fun _ _ _ => ?_) ?_)
    | (with_reducible refine Keeps.foldl (fun _ _ _ => ?_) ?_)
    | with_reducible apply updLig_keeps
    | with_reducible apply failJob_keeps
    | with_reducible apply updExch_keeps
    | with_reducible apply leafRun_keeps
    | with_reducible apply sendNode_keeps
    | with_reducible apply writeCell_keeps
    | with_reducible apply sendShard_keeps
    | with_reducible apply returnCredits_keeps
    | with_reducible apply updSlot_keeps
    | with_reducible apply recordDone_keeps
    | split

theorem settleEngines_keeps {lv : Bool} {root s : State}  (kp : Keeps lv root s) :
    Keeps lv root (settleEngines s) := by
  unfold settleEngines
  repeat' first
    | with_reducible assumption
    | (with_reducible refine Keeps.foldl (fun _ _ _ => ?_) ?_)
    | with_reducible apply settleInstance_keeps

theorem issueInstance_keeps {lv : Bool} {root s : State} (e : Engine) (i : Instance) (kp : Keeps lv root s) :
    Keeps lv root (issueInstance s e i) := by
  unfold issueInstance
  dsimp only
  repeat' first
    | with_reducible assumption
    | (with_reducible refine Keeps.ite (fun _ => ?_) (fun _ => ?_))
    | with_reducible apply tell_keeps
    | with_reducible apply settleInstance_keeps
    | split

theorem issueBucket_keeps {lv : Bool} {root s : State} (f : Folio) (x : Nat) (kp : Keeps lv root s) :
    Keeps lv root (issueBucket s f x) := by
  unfold issueBucket
  dsimp only
  repeat' first
    | with_reducible assumption
    | with_reducible apply issueInstance_keeps
    | split

theorem takeColl_keeps {lv : Bool} {root s : State} (i msg : Nat) {k : Packet} {t : State} (hq : takeColl s i msg = some (k, t))
    (kp : Keeps lv root s) : Keeps lv root t := by
  unfold takeColl at hq
  exact takeInbox_keeps _ _ _ (Option.filter_eq_some_iff.mp hq).1 kp

theorem collError_keeps {lv : Bool} {root s : State} (k : Packet) (kp : Keeps lv root s) :
    Keeps lv root (collError s k) := by
  unfold collError
  repeat' first
    | with_reducible assumption
    | with_reducible apply failJob_keeps

theorem takeBitmap_keeps {lv : Bool} {root s : State} (e : Engine) (v : InstEnv) (i : Instance) (sk : List Nat) (kp : Keeps lv root s) :
    Keeps lv root (takeBitmap s e v i sk) := by
  unfold takeBitmap
  dsimp only
  repeat' first
    | with_reducible assumption
    | (with_reducible refine Keeps.ite (fun _ => ?_) (fun _ => ?_))
    | with_reducible apply bump_keeps
    | with_reducible apply settleInstance_keeps

theorem arbitrate_keeps {lv : Bool} {root s : State} (e : Engine) (v : InstEnv) (i : Instance) (kp : Keeps lv root s) :
    Keeps lv root (arbitrate s e v i) := by
  unfold arbitrate
  dsimp only
  repeat' first
    | with_reducible assumption
    | (with_reducible refine Keeps.ite (fun _ => ?_) (fun _ => ?_))
    | (with_reducible refine Keeps.foldl (fun _ _ _ => ?_) ?_)
    | with_reducible apply tell_keeps
    | with_reducible apply updSlot_keeps
    | with_reducible apply takeBitmap_keeps

theorem collControl_keeps {lv : Bool} {root s : State} (e : Engine) (i : Instance) (k : Packet) (kp : Keeps lv root s) :
    Keeps lv root (collControl s e i k) := by
  unfold collControl
  dsimp only
  repeat' first
    | with_reducible assumption
    | (with_reducible refine Keeps.ite (fun _ => ?_) (fun _ => ?_))
    | with_reducible apply settleInstance_keeps
    | with_reducible apply collError_keeps
    | with_reducible apply takeBitmap_keeps
    | with_reducible apply arbitrate_keeps
    | split

theorem controlArrive_keeps {lv : Bool} {root s : State} (k : Packet) (kp : Keeps lv root s) :
    Keeps lv root (controlArrive s k) := by
  unfold controlArrive
  dsimp only
  repeat' first
    | with_reducible assumption
    | with_reducible apply updLig_keeps
    | with_reducible apply bump_keeps
    | with_reducible apply staleDrop_keeps
    | with_reducible apply collError_keeps
    | with_reducible apply collControl_keeps
    | split

theorem execCredit_keeps {lv : Bool} (i : Nat) {s nx : State} (hx : execCredit i s = .next nx) :
    Keeps lv s nx := by
  unfold execCredit at hx
  obtain rfl := Host.Outcome.next.inj hx
  have kp := Keeps.refl (b := lv) s
  repeat' first
    | with_reducible assumption
    | (with_reducible refine takeColl_keeps _ _ (by assumption) ?_)
    | with_reducible apply controlArrive_keeps
    | split

theorem execReady_keeps {lv : Bool} (i : Nat) {s nx : State} (hx : execReady i s = .next nx) :
    Keeps lv s nx := by
  unfold execReady at hx
  obtain rfl := Host.Outcome.next.inj hx
  have kp := Keeps.refl (b := lv) s
  repeat' first
    | with_reducible assumption
    | (with_reducible refine takeColl_keeps _ _ (by assumption) ?_)
    | with_reducible apply controlArrive_keeps
    | split

theorem execBitmap_keeps {lv : Bool} (i : Nat) {s nx : State} (hx : execBitmap i s = .next nx) :
    Keeps lv s nx := by
  unfold execBitmap at hx
  obtain rfl := Host.Outcome.next.inj hx
  have kp := Keeps.refl (b := lv) s
  repeat' first
    | with_reducible assumption
    | (with_reducible refine takeColl_keeps _ _ (by assumption) ?_)
    | with_reducible apply controlArrive_keeps
    | split

theorem execLenientDeadline_keeps {lv : Bool} (e : Engine) (tag : Word32) (phase : Bool) {s nx : State} (hx : execLenientDeadline e tag phase s = .next nx) :
    Keeps lv s nx := by
  unfold execLenientDeadline at hx
  obtain rfl := Host.Outcome.next.inj hx
  have kp := Keeps.refl (b := lv) s
  repeat' first
    | with_reducible assumption
    | (with_reducible refine Keeps.ite (fun _ => ?_) (fun _ => ?_))
    | with_reducible apply arbitrate_keeps
    | split

theorem grantAll_keeps {lv : Bool} {root s : State} (v : InstEnv) (i : Instance) (kp : Keeps lv root s) :
    Keeps lv root (grantAll s v i).1 := by
  unfold grantAll
  dsimp only
  repeat' first
    | with_reducible assumption
    | (with_reducible refine Keeps.foldl_fst (fun _ _ _ => ?_) ?_)
    | (with_reducible refine Keeps.foldl (fun _ _ _ => ?_) ?_)
    | with_reducible apply tell_keeps

theorem takeEarly_keeps {lv : Bool} {root s : State} (e : Engine) (i : Instance) (kp : Keeps lv root s) :
    Keeps lv root (takeEarly s e i) := by
  unfold takeEarly
  dsimp only
  repeat' first
    | with_reducible assumption
    | (with_reducible refine Keeps.foldl (fun _ _ _ => ?_) ?_)
    | with_reducible apply updLig_keeps
    | with_reducible apply collControl_keeps
    | split

theorem openInstance_keeps {lv : Bool} {root s : State} (o : LongOp) (r : Run) (f : Folio) (e : Engine) (x : Nat × Nat × (Nat × (Nat × Nat × Nat))) (kp : Keeps lv root s) :
    Keeps lv root (openInstance s o r f e x) := by
  unfold openInstance
  dsimp only
  repeat' first
    | with_reducible assumption
    | (with_reducible refine Keeps.ite (fun _ => ?_) (fun _ => ?_))
    | with_reducible apply updLig_keeps
    | with_reducible apply issueBucket_keeps
    | with_reducible apply grantAll_keeps
    | with_reducible apply takeEarly_keeps
    | split

theorem execInstanceOpen_keeps {lv : Bool} (e : Engine) {s nx : State} (hx : execInstanceOpen e s = .next nx) :
    Keeps lv s nx := by
  unfold execInstanceOpen at hx
  obtain rfl := Host.Outcome.next.inj hx
  have kp := Keeps.refl (b := lv) s
  repeat' first
    | with_reducible assumption
    | (with_reducible refine Keeps.ite (fun _ => ?_) (fun _ => ?_))
    | with_reducible apply openInstance_keeps
    | split

theorem valueArrive_keeps {lv : Bool} {root s : State} (e : Engine) (i : Instance) (k : Packet) (kp : Keeps lv root s) :
    Keeps lv root (valueArrive s e i k) := by
  unfold valueArrive
  dsimp only
  repeat' first
    | with_reducible assumption
    | (with_reducible refine Keeps.ite (fun _ => ?_) (fun _ => ?_))
    | (with_reducible refine Keeps.foldl_fst (fun _ _ _ => ?_) ?_)
    | (with_reducible refine Keeps.foldl (fun _ _ _ => ?_) ?_)
    | with_reducible apply bump_keeps
    | with_reducible apply settleInstance_keeps
    | with_reducible apply collError_keeps
    | split

theorem dataArrive_keeps {lv : Bool} {root s : State} (k : Packet) (kp : Keeps lv root s) :
    Keeps lv root (dataArrive s k) := by
  unfold dataArrive
  dsimp only
  repeat' first
    | with_reducible assumption
    | with_reducible apply bump_keeps
    | with_reducible apply staleDrop_keeps
    | with_reducible apply collError_keeps
    | with_reducible apply valueArrive_keeps
    | split

theorem execData_keeps {lv : Bool} (i : Nat) {s nx : State} (hx : execData i s = .next nx) :
    Keeps lv s nx := by
  unfold execData at hx
  obtain rfl := Host.Outcome.next.inj hx
  have kp := Keeps.refl (b := lv) s
  repeat' first
    | with_reducible assumption
    | (with_reducible refine takeColl_keeps _ _ (by assumption) ?_)
    | with_reducible apply dataArrive_keeps
    | split

theorem execHeader_keeps {lv : Bool} (i : Nat) {s nx : State} (hx : execHeader i s = .next nx) :
    Keeps lv s nx := by
  unfold execHeader at hx
  obtain rfl := Host.Outcome.next.inj hx
  have kp := Keeps.refl (b := lv) s
  repeat' first
    | with_reducible assumption
    | (with_reducible refine takeColl_keeps _ _ (by assumption) ?_)
    | with_reducible apply dataArrive_keeps
    | split

theorem execDrain_keeps {lv : Bool} (i : Nat) {s nx : State} (hx : execDrain i s = .next nx) :
    Keeps lv s nx := by
  unfold execDrain at hx
  obtain rfl := Host.Outcome.next.inj hx
  have kp := Keeps.refl (b := lv) s
  repeat' first
    | with_reducible assumption
    | (with_reducible refine takeColl_keeps _ _ (by assumption) ?_)
    | with_reducible apply updLig_keeps
    | split

theorem execDrainAckReturn_keeps {lv : Bool} (n : Nat) {s nx : State} (hx : execDrainAckReturn n s = .next nx) :
    Keeps lv s nx := by
  unfold execDrainAckReturn at hx
  obtain rfl := Host.Outcome.next.inj hx
  have kp := Keeps.refl (b := lv) s
  repeat' first
    | with_reducible assumption
    | (with_reducible refine Keeps.ite (fun _ => ?_) (fun _ => ?_))
    | with_reducible apply updLig_keeps
    | with_reducible apply sendBack_keeps
    | split

theorem execDrainAck_keeps {lv : Bool} (i : Nat) {s nx : State} (hx : execDrainAck i s = .next nx) :
    Keeps lv s nx := by
  unfold execDrainAck at hx
  obtain rfl := Host.Outcome.next.inj hx
  have kp := Keeps.refl (b := lv) s
  dsimp only
  repeat' first
    | with_reducible assumption
    | (with_reducible refine Keeps.ite (fun _ => ?_) (fun _ => ?_))
    | (with_reducible refine takeColl_keeps _ _ (by assumption) ?_)
    | with_reducible apply updLig_keeps
    | with_reducible apply staleDrop_keeps
    | with_reducible apply updSlot_keeps
    | split

end Sys2Proof.Machine
end

