-- ==== Sys2Proof/Laws/KeepsRouting.lean ====
section
/-! SUPPORT. What the operations of Machine/Routing.lean keep. -/

namespace Sys2Proof.Machine

open Sys2Proof

theorem routeRun_keeps {lv : Bool} {root s : State} (r : FlitRun) (kp : Keeps lv root s) :
    Keeps lv root (routeRun s r) := by
  unfold routeRun
  repeat' first
    | with_reducible assumption
    | with_reducible apply updFabric_keeps
    | with_reducible apply updRouter_keeps
    | with_reducible apply bump_keeps
    | split

theorem cutThrough_keeps {lv : Bool} {root s : State} (p : FPort) (r : FlitRun) (kp : Keeps lv root s) :
    Keeps lv root (cutThrough s p r) := by
  unfold cutThrough
  dsimp only
  repeat' first
    | with_reducible assumption
    | (with_reducible refine Keeps.ite (fun _ => ?_) (fun _ => ?_))
    | with_reducible apply updFabric_keeps
    | split

theorem execPacketRoute_keeps {lv : Bool} (src : RouteFrom) {s nx : State} (hx : execPacketRoute src s = .next nx) :
    Keeps lv s nx := by
  unfold execPacketRoute at hx
  obtain rfl := Host.Outcome.next.inj hx
  have kp := Keeps.refl (b := lv) s
  repeat' first
    | with_reducible assumption
    | (with_reducible refine Keeps.ite (fun _ => ?_) (fun _ => ?_))
    | with_reducible apply updFabric_keeps
    | with_reducible apply updRouter_keeps
    | with_reducible apply routeRun_keeps
    | with_reducible apply cutThrough_keeps
    | split

theorem updSend_keeps {lv : Bool} {root s : State} (peer : Coord) (c : Cls) (g : SendFlow → SendFlow) (kp : Keeps lv root s) :
    Keeps lv root (updSend s peer c g) := by
  unfold updSend
  dsimp only
  repeat' first
    | with_reducible assumption
    | with_reducible apply updRouter_keeps

theorem updRecv_keeps {lv : Bool} {root s : State} (peer : Coord) (c : Cls) (g : RecvFlow → RecvFlow) (kp : Keeps lv root s) :
    Keeps lv root (updRecv s peer c g) := by
  unfold updRecv
  dsimp only
  repeat' first
    | with_reducible assumption
    | with_reducible apply updRouter_keeps

theorem enterRouter_keeps {lv : Bool} {root s : State} (k : Packet) (kp : Keeps lv root s) :
    Keeps lv root (enterRouter s k) := by
  unfold enterRouter
  dsimp only
  repeat' first
    | with_reducible assumption
    | with_reducible apply updRouter_keeps
    | with_reducible apply countArrival_keeps

theorem pathFailure_keeps {lv : Bool} {root s : State} (peer : Coord) (c : Cls) (kp : Keeps lv root s) :
    Keeps lv root (pathFailure s peer c) := by
  unfold pathFailure
  dsimp only
  repeat' first
    | with_reducible assumption
    | with_reducible apply bump_keeps
    | with_reducible apply note_keeps
    | with_reducible apply hostEvent_keeps
    | with_reducible apply fmMessage_keeps
    | with_reducible apply updSend_keeps
    | fail_if_no_progress (with_reducible refine Keeps.upd ?_ rfl rfl rfl rfl rfl rfl rfl rfl rfl rfl rfl rfl rfl rfl rfl rfl rfl)

theorem execPacketInject_keeps {lv : Bool} (i : Nat) {s nx : State} (hx : execPacketInject i s = .next nx) :
    Keeps lv s nx := by
  unfold execPacketInject at hx
  obtain rfl := Host.Outcome.next.inj hx
  have kp := Keeps.refl (b := lv) s
  dsimp only
  repeat' first
    | with_reducible assumption
    | (with_reducible refine Keeps.ite (fun _ => ?_) (fun _ => ?_))
    | with_reducible apply updRouter_keeps
    | with_reducible apply updSend_keeps
    | with_reducible apply enterRouter_keeps
    | with_reducible apply pathFailure_keeps
    | split

theorem sendAck_keeps {lv : Bool} {root s : State} (peer : Coord) (c : Cls) (kp : Keeps lv root s) :
    Keeps lv root (sendAck s peer c) := by
  unfold sendAck
  dsimp only
  repeat' first
    | with_reducible assumption
    | (with_reducible refine Keeps.ite (fun _ => ?_) (fun _ => ?_))
    | with_reducible apply updRouter_keeps
    | with_reducible apply updRecv_keeps
    | with_reducible apply enterRouter_keeps

theorem protocolError_keeps {lv : Bool} {root s : State} (k : Packet) (kp : Keeps lv root s) :
    Keeps lv root (protocolError s k) := by
  unfold protocolError
  repeat' first
    | with_reducible assumption
    | with_reducible apply containedError_keeps

theorem windowError_keeps {lv : Bool} {root s : State} (k : Packet) (kp : Keeps lv root s) :
    Keeps lv root (windowError s k) := by
  unfold windowError
  dsimp only
  repeat' first
    | with_reducible assumption
    | with_reducible apply bump_keeps
    | with_reducible apply failJob_keeps
    | with_reducible apply protocolError_keeps
    | split

theorem accept_keeps {lv : Bool} {root s : State} (k : Packet) (kp : Keeps lv root s) :
    Keeps lv root (accept s k) := by
  unfold accept
  dsimp only
  repeat' first
    | with_reducible assumption
    | (with_reducible refine Keeps.ite (fun _ => ?_) (fun _ => ?_))
    | with_reducible apply updRecv_keeps
    | with_reducible apply sendAck_keeps
    | with_reducible apply protocolError_keeps
    | fail_if_no_progress (with_reducible refine Keeps.upd ?_ rfl rfl rfl rfl rfl rfl rfl rfl rfl rfl rfl rfl rfl rfl rfl rfl rfl)

theorem deliverSeq_keeps {lv : Bool} {root s : State} (k : Packet) (kp : Keeps lv root s) :
    Keeps lv root (deliverSeq s k) := by
  unfold deliverSeq
  dsimp only
  repeat' first
    | with_reducible assumption
    | (with_reducible refine Keeps.ite (fun _ => ?_) (fun _ => ?_))
    | with_reducible apply bump_keeps
    | with_reducible apply sendAck_keeps
    | with_reducible apply windowError_keeps
    | with_reducible apply accept_keeps

theorem execPacketDelivery_keeps {lv : Bool} (i : Nat) {s nx : State} (hx : execPacketDelivery i s = .next nx) :
    Keeps lv s nx := by
  unfold execPacketDelivery at hx
  obtain rfl := Host.Outcome.next.inj hx
  have kp := Keeps.refl (b := lv) s
  dsimp only
  repeat' first
    | with_reducible assumption
    | (with_reducible refine Keeps.ite (fun _ => ?_) (fun _ => ?_))
    | with_reducible apply updRouter_keeps
    | with_reducible apply bump_keeps
    | with_reducible apply deliverSeq_keeps
    | split
    | fail_if_no_progress (with_reducible refine Keeps.upd ?_ rfl rfl rfl rfl rfl rfl rfl rfl rfl rfl rfl rfl rfl rfl rfl rfl rfl)

theorem acked_keeps {lv : Bool} {root s : State} (peer : Coord) (c : Cls) (ack : Word32) (kp : Keeps lv root s) :
    Keeps lv root (acked s peer c ack) := by
  unfold acked
  dsimp only
  repeat' first
    | with_reducible assumption
    | (with_reducible refine Keeps.ite (fun _ => ?_) (fun _ => ?_))
    | with_reducible apply updSend_keeps

theorem settleReshards_keeps {lv : Bool} {root s : State}  (kp : Keeps lv root s) :
    Keeps lv root (settleReshards s) := by
  unfold settleReshards
  repeat' first
    | with_reducible assumption
    | (with_reducible refine Keeps.foldl (fun _ _ _ => ?_) ?_)
    | with_reducible apply settleReshard_keeps

theorem execE2eAck_keeps {lv : Bool} (i : Nat) {s nx : State} (hx : execE2eAck i s = .next nx) :
    Keeps lv s nx := by
  unfold execE2eAck at hx
  obtain rfl := Host.Outcome.next.inj hx
  have kp := Keeps.refl (b := lv) s
  repeat' first
    | with_reducible assumption
    | (with_reducible refine takeInbox_keeps _ _ _ (by assumption) ?_)
    | with_reducible apply settleEngines_keeps
    | with_reducible apply acked_keeps
    | with_reducible apply settleReshards_keeps
    | split

theorem execAckTimer_keeps {lv : Bool} (peer : Coord) (c : Cls) {s nx : State} (hx : execAckTimer peer c s = .next nx) :
    Keeps lv s nx := by
  unfold execAckTimer at hx
  obtain rfl := Host.Outcome.next.inj hx
  have kp := Keeps.refl (b := lv) s
  repeat' first
    | with_reducible assumption
    | (with_reducible refine Keeps.ite (fun _ => ?_) (fun _ => ?_))
    | with_reducible apply sendAck_keeps

theorem execResendTimer_keeps {lv : Bool} (peer : Coord) (c : Cls) {s nx : State} (hx : execResendTimer peer c s = .next nx) :
    Keeps lv s nx := by
  unfold execResendTimer at hx
  obtain rfl := Host.Outcome.next.inj hx
  have kp := Keeps.refl (b := lv) s
  dsimp only
  repeat' first
    | with_reducible assumption
    | (with_reducible refine Keeps.ite (fun _ => ?_) (fun _ => ?_))
    | with_reducible apply bump_keeps
    | with_reducible apply updSend_keeps
    | with_reducible apply enterRouter_keeps
    | with_reducible apply pathFailure_keeps
    | split

theorem execCongestionSample_keeps {lv : Bool}  {s nx : State} (hx : execCongestionSample s = .next nx) :
    Keeps lv s nx := by
  unfold execCongestionSample at hx
  obtain rfl := Host.Outcome.next.inj hx
  have kp := Keeps.refl (b := lv) s
  dsimp only
  repeat' first
    | with_reducible assumption
    | (with_reducible refine Keeps.ite (fun _ => ?_) (fun _ => ?_))
    | (with_reducible refine Keeps.foldl_fst (fun _ _ _ => ?_) ?_)
    | (with_reducible refine Keeps.foldl (fun _ _ _ => ?_) ?_)
    | with_reducible apply updRouter_keeps
    | fail_if_no_progress (with_reducible refine Keeps.upd ?_ rfl rfl rfl rfl rfl rfl rfl rfl rfl rfl rfl rfl rfl rfl rfl rfl rfl)

end Sys2Proof.Machine
end

