-- ==== Sys2Proof/Laws/KeepsRouted.lean ====
section
/-! SUPPORT. What the operations of Machine/Routed.lean keep. -/

namespace Sys2Proof.Machine

open Sys2Proof

theorem badRow_keeps {lv : Bool} {root s : State} (k : Packet) (t : Tag) (kp : Keeps lv root s) :
    Keeps lv root (badRow s k t) := by
  unfold badRow
  repeat' first
    | with_reducible assumption
    | with_reducible apply failJob_keeps

theorem staleReturn_keeps {lv : Bool} {root s : State} (q : Quad) (w : BitVec 128) (kp : Keeps lv root s) :
    Keeps lv root (staleReturn s q w) := by
  unfold staleReturn
  dsimp only
  repeat' first
    | with_reducible assumption
    | with_reducible apply bump_keeps
    | split
    | fail_if_no_progress (with_reducible refine Keeps.upd ?_ rfl rfl rfl rfl rfl rfl rfl rfl rfl rfl rfl rfl rfl rfl rfl rfl rfl)

theorem countPacket_keeps {lv : Bool} {root s : State} (h : Handle) (f : Folio) (stamp : Stamp) (x : Nat) (rank : Nat) (kp : Keeps lv root s) :
    Keeps lv root (countPacket s h f stamp x rank) := by
  unfold countPacket
  repeat' first
    | with_reducible assumption
    | with_reducible apply updExch_keeps
    | with_reducible apply settleSender_keeps
    | split

theorem expertRow_keeps {lv : Bool} {root s : State} (o : LongOp) (r : Run) (f : Folio) (re : RoutingEntry) (k : Packet) (g : Tag) (w : BitVec 128) (kp : Keeps lv root s) :
    Keeps lv root (expertRow s o r f re k g w) := by
  unfold expertRow
  dsimp only
  repeat' first
    | with_reducible assumption
    | with_reducible apply writeRowPart_wf
    | (with_reducible refine Keeps.ite (fun _ => ?_) (fun _ => ?_))
    | with_reducible apply updDuctus_keeps
    | with_reducible apply badRow_keeps
    | with_reducible apply countPacket_keeps
    | split
    | fail_if_no_progress (with_reducible refine Keeps.upd ?_ rfl rfl rfl rfl rfl rfl rfl rfl rfl rfl rfl rfl rfl rfl rfl rfl rfl)
    | (with_reducible refine Keeps.updM ?_ rfl rfl rfl rfl rfl rfl rfl rfl rfl rfl rfl rfl (fun _ => ?_) rfl rfl rfl rfl)

theorem sourceRow_keeps {lv : Bool} {root s : State} (o : LongOp) (r : Run) (f : Folio) (re : RoutingEntry) (k : Packet) (t : Tag) (w : BitVec 128) (kp : Keeps lv root s) :
    Keeps lv root (sourceRow s o r f re k t w) := by
  unfold sourceRow
  dsimp only
  repeat' first
    | with_reducible assumption
    | with_reducible apply writeRowPart_wf
    | (with_reducible refine Keeps.ite (fun _ => ?_) (fun _ => ?_))
    | with_reducible apply badRow_keeps
    | with_reducible apply staleReturn_keeps
    | with_reducible apply countPacket_keeps
    | split
    | fail_if_no_progress (with_reducible refine Keeps.upd ?_ rfl rfl rfl rfl rfl rfl rfl rfl rfl rfl rfl rfl rfl rfl rfl rfl rfl)
    | (with_reducible refine Keeps.updM ?_ rfl rfl rfl rfl rfl rfl rfl rfl rfl rfl rfl rfl (fun _ => ?_) rfl rfl rfl rfl)

theorem routedArrive_keeps {lv : Bool} {root s : State} (k : Packet) (kp : Keeps lv root s) :
    Keeps lv root (routedArrive s k) := by
  unfold routedArrive
  dsimp only
  repeat' first
    | with_reducible assumption
    | (with_reducible refine Keeps.ite (fun _ => ?_) (fun _ => ?_))
    | with_reducible apply staleDrop_keeps
    | with_reducible apply badRow_keeps
    | with_reducible apply staleReturn_keeps
    | with_reducible apply expertRow_keeps
    | with_reducible apply sourceRow_keeps
    | split

theorem execRoutedData_keeps {lv : Bool} (i : Nat) {s nx : State} (hx : execRoutedData i s = .next nx) :
    Keeps lv s nx := by
  unfold execRoutedData at hx
  obtain rfl := Host.Outcome.next.inj hx
  have kp := Keeps.refl (b := lv) s
  repeat' first
    | with_reducible assumption
    | (with_reducible refine takeInbox_keeps _ _ _ (by assumption) ?_)
    | with_reducible apply needing_keeps
    | with_reducible apply routedArrive_keeps
    | (intro _ _)
    | (intro _)
    | split

theorem execDuctusDrain_keeps {lv : Bool} (i : Nat) {s nx : State} (hx : execDuctusDrain i s = .next nx) :
    Keeps lv s nx := by
  unfold execDuctusDrain at hx
  obtain rfl := Host.Outcome.next.inj hx
  have kp := Keeps.refl (b := lv) s
  repeat' first
    | with_reducible assumption
    | (with_reducible refine takeInbox_keeps _ _ _ (by assumption) ?_)
    | with_reducible apply updDuctus_keeps
    | split

theorem execDuctusDrainAckReturn_keeps {lv : Bool} (n : Nat) {s nx : State} (hx : execDuctusDrainAckReturn n s = .next nx) :
    Keeps lv s nx := by
  unfold execDuctusDrainAckReturn at hx
  obtain rfl := Host.Outcome.next.inj hx
  have kp := Keeps.refl (b := lv) s
  repeat' first
    | with_reducible assumption
    | (with_reducible refine Keeps.ite (fun _ => ?_) (fun _ => ?_))
    | with_reducible apply updDuctus_keeps
    | with_reducible apply sendBack_keeps
    | split

theorem execDuctusDrainAck_keeps {lv : Bool} (i : Nat) {s nx : State} (hx : execDuctusDrainAck i s = .next nx) :
    Keeps lv s nx := by
  unfold execDuctusDrainAck at hx
  obtain rfl := Host.Outcome.next.inj hx
  have kp := Keeps.refl (b := lv) s
  dsimp only
  repeat' first
    | with_reducible assumption
    | (with_reducible refine Keeps.ite (fun _ => ?_) (fun _ => ?_))
    | (with_reducible refine takeInbox_keeps _ _ _ (by assumption) ?_)
    | with_reducible apply updDuctus_keeps
    | with_reducible apply staleDrop_keeps
    | split

end Sys2Proof.Machine
end

