-- ==== Sys2Proof/Laws/KeepsGathers.lean ====
section
/-! SUPPORT. What the operations of Machine/Gathers.lean keep. -/

namespace Sys2Proof.Machine

open Sys2Proof

theorem askOne_keeps {lv : Bool} {root s : State} (p : Part) (h : Handle) (f : Folio) (b : BucketEntry) (x : Nat) (e : ExchEntry) (o : Nat) (kp : Keeps lv root s) :
    Keeps lv root (askOne p h f b x e o s) := by
  unfold askOne
  dsimp only
  repeat' first
    | with_reducible assumption
    | (with_reducible refine Keeps.ite (fun _ => ?_) (fun _ => ?_))
    | with_reducible apply sendToRank_keeps
    | with_reducible apply updExch_keeps
    | split

theorem askGathers_keeps {lv : Bool} {root s : State} (h : Handle) (x : Nat) (kp : Keeps lv root s) :
    Keeps lv root (askGathers s h x) := by
  unfold askGathers
  repeat' first
    | with_reducible assumption
    | (with_reducible refine Keeps.ite (fun _ => ?_) (fun _ => ?_))
    | (with_reducible refine Keeps.foldl (fun _ _ _ => ?_) ?_)
    | with_reducible apply askOne_keeps
    | split

theorem replyTo_keeps {lv : Bool} {root s : State} (k : Packet) (code : Nat) (payload : Bytes) (kp : Keeps lv root s) :
    Keeps lv root (replyTo s k code payload) := by
  unfold replyTo
  dsimp only
  repeat' first
    | with_reducible assumption
    | (with_reducible refine Keeps.ite (fun _ => ?_) (fun _ => ?_))
    | with_reducible apply sendBack_keeps

theorem execGatherReq_keeps {lv : Bool} (i : Nat) {s nx : State} (hx : execGatherReq i s = .next nx) :
    Keeps lv s nx := by
  unfold execGatherReq at hx
  obtain rfl := Host.Outcome.next.inj hx
  have kp := Keeps.refl (b := lv) s
  repeat' first
    | with_reducible assumption
    | (with_reducible refine Keeps.ite (fun _ => ?_) (fun _ => ?_))
    | (with_reducible refine takeInbox_keeps _ _ _ (by assumption) ?_)
    | with_reducible apply staleDrop_keeps
    | with_reducible apply collError_keeps
    | with_reducible apply replyTo_keeps
    | split
    | fail_if_no_progress (with_reducible refine Keeps.upd ?_ rfl rfl rfl rfl rfl rfl rfl rfl rfl rfl rfl rfl rfl rfl rfl rfl rfl)

theorem serveGather_keeps {lv : Bool} {root s : State} (f : Folio) (t : TRef) (k : Packet) (kp : Keeps lv root s) :
    Keeps lv root (serveGather s f t k) := by
  unfold serveGather
  dsimp only
  repeat' first
    | with_reducible assumption
    | (with_reducible refine Keeps.ite (fun _ => ?_) (fun _ => ?_))
    | (with_reducible refine Keeps.foldl (fun _ _ _ => ?_) ?_)
    | with_reducible apply updFolio_keeps
    | with_reducible apply sendBack_keeps
    | with_reducible apply countMarg_keeps
    | split

theorem execGatherServe_keeps {lv : Bool} (n : Nat) {s nx : State} (hx : execGatherServe n s = .next nx) :
    Keeps lv s nx := by
  unfold execGatherServe at hx
  obtain rfl := Host.Outcome.next.inj hx
  have kp := Keeps.refl (b := lv) s
  dsimp only
  repeat' first
    | with_reducible assumption
    | (with_reducible refine Keeps.ite (fun _ => ?_) (fun _ => ?_))
    | with_reducible apply failJob_keeps
    | with_reducible apply needing_keeps
    | with_reducible apply serveGather_keeps
    | (intro _ _)
    | (intro _)
    | split
    | fail_if_no_progress (with_reducible refine Keeps.upd ?_ rfl rfl rfl rfl rfl rfl rfl rfl rfl rfl rfl rfl rfl rfl rfl rfl rfl)

theorem gatherArrive_keeps {lv : Bool} {root s : State} (k : Packet) (kp : Keeps lv root s) :
    Keeps lv root (gatherArrive s k) := by
  unfold gatherArrive
  dsimp only
  repeat' first
    | with_reducible assumption
    | with_reducible apply wireStore_wf
    | (with_reducible refine Keeps.ite (fun _ => ?_) (fun _ => ?_))
    | with_reducible apply bump_keeps
    | with_reducible apply staleDrop_keeps
    | with_reducible apply updExch_keeps
    | with_reducible apply overcount_keeps
    | with_reducible apply collError_keeps
    | with_reducible apply askGathers_keeps
    | split
    | fail_if_no_progress (with_reducible refine Keeps.upd ?_ rfl rfl rfl rfl rfl rfl rfl rfl rfl rfl rfl rfl rfl rfl rfl rfl rfl)
    | (with_reducible refine Keeps.updM ?_ rfl rfl rfl rfl rfl rfl rfl rfl rfl rfl rfl rfl (fun _ => ?_) rfl rfl rfl rfl)

theorem execGatherData_keeps {lv : Bool} (i : Nat) {s nx : State} (hx : execGatherData i s = .next nx) :
    Keeps lv s nx := by
  unfold execGatherData at hx
  obtain rfl := Host.Outcome.next.inj hx
  have kp := Keeps.refl (b := lv) s
  repeat' first
    | with_reducible assumption
    | (with_reducible refine takeInbox_keeps _ _ _ (by assumption) ?_)
    | with_reducible apply needing_keeps
    | with_reducible apply gatherArrive_keeps
    | (intro _ _)
    | (intro _)
    | split

end Sys2Proof.Machine
end

