-- ==== Sys2Proof/Laws/KeepsStrokes.lean ====
section
/-! SUPPORT. What the operations of Machine/Strokes.lean keep. -/

namespace Sys2Proof.Machine

open Sys2Proof

theorem chargeStall_keeps {lv : Bool} {root s : State} (q : Quad) (h : Handle) (kp : Keeps lv root s) :
    Keeps lv root (chargeStall s q h) := by
  unfold chargeStall
  dsimp only
  repeat' first
    | with_reducible assumption
    | (with_reducible refine Keeps.ite (fun _ => ?_) (fun _ => ?_))
    | with_reducible apply updRun_keeps
    | fail_if_no_progress (with_reducible refine Keeps.upd ?_ rfl rfl rfl rfl rfl rfl rfl rfl rfl rfl rfl rfl rfl rfl rfl rfl rfl)

theorem setCause_keeps {lv : Bool} {root s : State} (q : Quad) (c : Nat) (kp : Keeps lv root s) :
    Keeps lv root (setCause s q c) := by
  unfold setCause
  repeat' first
    | with_reducible assumption
    | with_reducible apply updSeq_keeps

theorem dispatchUnit_keeps {lv : Bool} {root s : State} (h : Handle) (f : Folio) (i : Nat) (first : Bool) (kp : Keeps lv root s) :
    Keeps lv root (dispatchUnit s h f i first) := by
  unfold dispatchUnit
  dsimp only
  repeat' first
    | with_reducible assumption
    | (with_reducible refine Keeps.ite (fun _ => ?_) (fun _ => ?_))
    | with_reducible apply zeroLent_keeps
    | with_reducible apply setUnit_keeps
    | split
    | fail_if_no_progress (with_reducible refine Keeps.upd ?_ rfl rfl rfl rfl rfl rfl rfl rfl rfl rfl rfl rfl rfl rfl rfl rfl rfl)

theorem dispatchFiller_keeps {lv : Bool} {root s : State} (h : Handle) (f : Folio) (q : Quad) (stroke : Nat) (kp : Keeps lv root s) :
    Keeps lv root (dispatchFiller s h f q stroke) := by
  unfold dispatchFiller
  repeat' first
    | with_reducible assumption
    | (with_reducible refine Keeps.foldl_fst (fun _ _ _ => ?_) ?_)
    | (with_reducible refine Keeps.foldl (fun _ _ _ => ?_) ?_)
    | with_reducible apply dispatchUnit_keeps

theorem openStep_keeps {lv : Bool} {root s : State} (q : Quad) (v : SeqEnv) (kp : Keeps lv root s) :
    Keeps lv root (openStep s q v) := by
  unfold openStep
  dsimp only
  repeat' first
    | with_reducible assumption
    | (with_reducible refine Keeps.ite (fun _ => ?_) (fun _ => ?_))
    | with_reducible apply updDuctus_keeps
    | with_reducible apply updRun_keeps

theorem openExchanges_keeps {lv : Bool} {root s : State} (v : SeqEnv) (n stroke : Nat) (kp : Keeps lv root s) :
    Keeps lv root (openExchanges s v n stroke) := by
  unfold openExchanges
  dsimp only
  repeat' first
    | with_reducible assumption
    | (with_reducible refine Keeps.ite (fun _ => ?_) (fun _ => ?_))
    | (with_reducible refine Keeps.foldl (fun _ _ _ => ?_) ?_)
    | with_reducible apply openExch_keeps
    | with_reducible apply issueBucket_keeps
    | with_reducible apply askGathers_keeps
    | split

theorem openStrokeIn_keeps {lv : Bool} {root s : State} (q : Quad) (v : SeqEnv) (kp : Keeps lv root s) :
    Keeps lv root (openStrokeIn s q v) := by
  unfold openStrokeIn
  dsimp only
  repeat' first
    | with_reducible assumption
    | (with_reducible refine Keeps.ite (fun _ => ?_) (fun _ => ?_))
    | with_reducible apply updSeq_keeps
    | with_reducible apply endWait_keeps
    | with_reducible apply chargeStall_keeps
    | with_reducible apply dispatchFiller_keeps
    | with_reducible apply openStep_keeps
    | with_reducible apply openExchanges_keeps

theorem execStrokeOpen_keeps {lv : Bool} (q : Quad) {s nx : State} (hx : execStrokeOpen q s = .next nx) :
    Keeps lv s nx := by
  unfold execStrokeOpen at hx
  obtain rfl := Host.Outcome.next.inj hx
  have kp := Keeps.refl (b := lv) s
  dsimp only
  repeat' first
    | with_reducible assumption
    | (with_reducible refine Keeps.ite (fun _ => ?_) (fun _ => ?_))
    | (with_reducible refine Keeps.foldl (fun _ _ _ => ?_) ?_)
    | with_reducible apply demand_keeps
    | with_reducible apply setCause_keeps
    | with_reducible apply openStrokeIn_keeps
    | split

theorem execComputeEnd_keeps {lv : Bool} (q : Quad) {s nx : State} (hx : execComputeEnd q s = .next nx) :
    Keeps lv s nx := by
  unfold execComputeEnd at hx
  obtain rfl := Host.Outcome.next.inj hx
  have kp := Keeps.refl (b := lv) s
  repeat' first
    | with_reducible assumption
    | (with_reducible refine Keeps.ite (fun _ => ?_) (fun _ => ?_))
    | with_reducible apply updSeq_keeps
    | split

theorem closeExchanges_keeps {lv : Bool} {root s : State} (v : SeqEnv) (stroke n : Nat) (kp : Keeps lv root s) :
    Keeps lv root (closeExchanges s v stroke n) := by
  unfold closeExchanges
  repeat' first
    | with_reducible assumption
    | (with_reducible refine Keeps.ite (fun _ => ?_) (fun _ => ?_))
    | (with_reducible refine Keeps.foldl_fst (fun _ _ _ => ?_) ?_)
    | (with_reducible refine Keeps.foldl (fun _ _ _ => ?_) ?_)
    | with_reducible apply updExch_keeps

theorem closeBatch_keeps {lv : Bool} {root s : State} (q : Quad) (v : SeqEnv) (x : Nat) (e : ExchEntry) (kp : Keeps lv root s) :
    Keeps lv root (closeBatch s q v x e) := by
  unfold closeBatch
  dsimp only
  repeat' first
    | with_reducible assumption
    | (with_reducible refine Keeps.ite (fun _ => ?_) (fun _ => ?_))
    | with_reducible apply updDuctus_keeps
    | with_reducible apply updGen_keeps
    | split

theorem closeBatches_keeps {lv : Bool} {root s : State} (q : Quad) (v : SeqEnv) (stroke : Nat) (kp : Keeps lv root s) :
    Keeps lv root (closeBatches s q v stroke) := by
  unfold closeBatches
  repeat' first
    | with_reducible assumption
    | (with_reducible refine Keeps.foldl_fst (fun _ _ _ => ?_) ?_)
    | (with_reducible refine Keeps.foldl (fun _ _ _ => ?_) ?_)
    | with_reducible apply closeBatch_keeps

theorem copyReservoirs_keeps {lv : Bool} {root s : State} (q : Quad) (f : Folio) (kp : Keeps lv root s) :
    Keeps lv root (copyReservoirs s q f) := by
  unfold copyReservoirs
  dsimp only
  repeat' first
    | with_reducible assumption
    | (with_reducible refine Keeps.ite (fun _ => ?_) (fun _ => ?_))
    | fail_if_no_progress (with_reducible refine Keeps.upd ?_ rfl rfl rfl rfl rfl rfl rfl rfl rfl rfl rfl rfl rfl rfl rfl rfl rfl)

theorem closeBands_keeps {lv : Bool} {root s : State} (q : Quad) (f : Folio) (stroke : Nat) (kp : Keeps lv root s) :
    Keeps lv root (closeBands s q f stroke) := by
  unfold closeBands
  dsimp only
  repeat' first
    | with_reducible assumption
    | (with_reducible refine Keeps.ite (fun _ => ?_) (fun _ => ?_))
    | (with_reducible refine Keeps.foldl_fst (fun _ _ _ => ?_) ?_)
    | (with_reducible refine Keeps.foldl (fun _ _ _ => ?_) ?_)
    | with_reducible apply refuse_keeps
    | split

theorem closeIntervals_keeps {lv : Bool} {root s : State} (q : Quad) (v : SeqEnv) (stroke : Nat) (kp : Keeps lv root s) :
    Keeps lv root (closeIntervals s q v stroke) := by
  unfold closeIntervals
  repeat' first
    | with_reducible assumption
    | (with_reducible refine Keeps.foldl_fst (fun _ _ _ => ?_) ?_)
    | (with_reducible refine Keeps.foldl (fun _ _ _ => ?_) ?_)
    | with_reducible apply preemptAll_keeps

theorem deviceBoundary_keeps {lv : Bool} {root s : State} (v : SeqEnv) (n : Nat) (kp : Keeps lv root s) :
    Keeps lv root (deviceBoundary s v n) := by
  unfold deviceBoundary
  dsimp only
  repeat' first
    | with_reducible assumption
    | (with_reducible refine Keeps.ite (fun _ => ?_) (fun _ => ?_))
    | (with_reducible refine Keeps.foldl (fun _ _ _ => ?_) ?_)
    | with_reducible apply updDuctus_keeps
    | with_reducible apply preemptAll_keeps

theorem closeStrokeIn_keeps {lv : Bool} {root s : State} (q : Quad) (v : SeqEnv) (kp : Keeps lv root s) :
    Keeps lv root (closeStrokeIn s q v) := by
  unfold closeStrokeIn
  dsimp only
  repeat' first
    | with_reducible assumption
    | (with_reducible refine Keeps.ite (fun _ => ?_) (fun _ => ?_))
    | with_reducible apply updSeq_keeps
    | with_reducible apply reachSafePoint_keeps
    | with_reducible apply chargeStall_keeps
    | with_reducible apply closeExchanges_keeps
    | with_reducible apply closeBatches_keeps
    | with_reducible apply copyReservoirs_keeps
    | with_reducible apply closeBands_keeps
    | with_reducible apply closeIntervals_keeps
    | with_reducible apply deviceBoundary_keeps

theorem execStrokeClose_keeps {lv : Bool} (q : Quad) {s nx : State} (hx : execStrokeClose q s = .next nx) :
    Keeps lv s nx := by
  unfold execStrokeClose at hx
  obtain rfl := Host.Outcome.next.inj hx
  have kp := Keeps.refl (b := lv) s
  dsimp only
  repeat' first
    | with_reducible assumption
    | (with_reducible refine Keeps.ite (fun _ => ?_) (fun _ => ?_))
    | with_reducible apply setCause_keeps
    | with_reducible apply closeStrokeIn_keeps
    | split

theorem execDmaFence_keeps {lv : Bool} (q : Quad) {s nx : State} (hx : execDmaFence q s = .next nx) :
    Keeps lv s nx := by
  unfold execDmaFence at hx
  obtain rfl := Host.Outcome.next.inj hx
  have kp := Keeps.refl (b := lv) s
  dsimp only
  repeat' first
    | with_reducible assumption
    | (with_reducible refine Keeps.ite (fun _ => ?_) (fun _ => ?_))
    | with_reducible apply updSeq_keeps
    | with_reducible apply needing_keeps
    | with_reducible apply chargeStall_keeps
    | (intro _ _)
    | (intro _)
    | split

theorem execStrokeStall_keeps {lv : Bool} (q : Quad) {s nx : State} (hx : execStrokeStall q s = .next nx) :
    Keeps lv s nx := by
  unfold execStrokeStall at hx
  obtain rfl := Host.Outcome.next.inj hx
  have kp := Keeps.refl (b := lv) s
  dsimp only
  repeat' first
    | with_reducible assumption
    | (with_reducible refine Keeps.ite (fun _ => ?_) (fun _ => ?_))
    | with_reducible apply hostEvent_keeps
    | with_reducible apply fmMessage_keeps
    | split

theorem giveRecord_keeps {lv : Bool} {root s : State} (h : Handle) (r : Run) (bytes : Bytes) (status d0 : Nat) (kp : Keeps lv root s) :
    Keeps lv root (giveRecord s h r bytes status d0) := by
  unfold giveRecord
  dsimp only
  repeat' first
    | with_reducible assumption
    | (with_reducible refine Keeps.ite (fun _ => ?_) (fun _ => ?_))
    | with_reducible apply updRun_keeps
    | with_reducible apply reachSafePoint_keeps
    | with_reducible apply stopAtNext_keeps
    | with_reducible apply writeStepRecord_keeps

theorem execStepComplete_keeps {lv : Bool} (h : Handle) {s nx : State} (hx : execStepComplete h s = .next nx) :
    Keeps lv s nx := by
  unfold execStepComplete at hx
  obtain rfl := Host.Outcome.next.inj hx
  have kp := Keeps.refl (b := lv) s
  dsimp only
  repeat' first
    | with_reducible assumption
    | (intro _ _)
    | with_reducible apply Memory.writeBytes_wf
    | (with_reducible refine Keeps.ite (fun _ => ?_) (fun _ => ?_))
    | with_reducible apply updHost_keeps
    | with_reducible apply updLong_keeps
    | with_reducible apply updFolio_keeps
    | with_reducible apply updRun_keeps
    | with_reducible apply endLong_keeps
    | with_reducible apply endIfLast_keeps
    | with_reducible apply giveRecord_keeps
    | split

theorem execFillerCommit_keeps {lv : Bool} (p : Part) {s nx : State} (hx : execFillerCommit p s = .next nx) :
    Keeps lv s nx := by
  unfold execFillerCommit at hx
  obtain rfl := Host.Outcome.next.inj hx
  have kp := Keeps.refl (b := lv) s
  dsimp only
  repeat' first
    | with_reducible assumption
    | (with_reducible refine Keeps.ite (fun _ => ?_) (fun _ => ?_))
    | (with_reducible refine Keeps.foldl_fst (fun _ _ _ => ?_) ?_)
    | (with_reducible refine Keeps.foldl (fun _ _ _ => ?_) ?_)
    | with_reducible apply undefineRange_keeps
    | with_reducible apply setUnit_keeps
    | split
    | fail_if_no_progress (with_reducible refine Keeps.upd ?_ rfl rfl rfl rfl rfl rfl rfl rfl rfl rfl rfl rfl rfl rfl rfl rfl rfl)

theorem publishUnit_keeps {lv : Bool} {root s : State} (f : Folio) (x : FillerRun) (kp : Keeps lv root s) :
    Keeps lv root (publishUnit s f x) := by
  unfold publishUnit
  repeat' first
    | with_reducible assumption
    | (with_reducible refine Keeps.foldl_fst (fun _ _ _ => ?_) ?_)
    | (with_reducible refine Keeps.foldl (fun _ _ _ => ?_) ?_)
    | with_reducible apply updStream_keeps
    | split

theorem execFillerCommitDone_keeps {lv : Bool} (p : Part) {s nx : State} (hx : execFillerCommitDone p s = .next nx) :
    Keeps lv s nx := by
  unfold execFillerCommitDone at hx
  obtain rfl := Host.Outcome.next.inj hx
  have kp := Keeps.refl (b := lv) s
  dsimp only
  repeat' first
    | with_reducible assumption
    | (intro _ _)
    | with_reducible apply Memory.store_wf
    | (with_reducible refine Memory.foldl_wf (fun _ _ _ => ?_) ?_)
    | (with_reducible refine Keeps.ite (fun _ => ?_) (fun _ => ?_))
    | (with_reducible refine Keeps.foldl_fst (fun _ _ _ => ?_) ?_)
    | (with_reducible refine Keeps.foldl (fun _ _ _ => ?_) ?_)
    | with_reducible apply updMem_keeps
    | with_reducible apply zeroLent_keeps
    | with_reducible apply setUnit_keeps
    | with_reducible apply publishUnit_keeps
    | split
    | fail_if_no_progress (with_reducible refine Keeps.upd ?_ rfl rfl rfl rfl rfl rfl rfl rfl rfl rfl rfl rfl rfl rfl rfl rfl rfl)

end Sys2Proof.Machine
end

