-- ==== Sys2Proof/Laws/KeepsMemoryTarget.lean ====
section
/-! SUPPORT. What the operations of Machine/MemoryTarget.lean keep. -/

namespace Sys2Proof.Machine

open Sys2Proof

theorem answer_keeps {lv : Bool} {root s : State} (k : Packet) (code : Nat) (held : Stamp) (payload : Bytes) (kp : Keeps lv root s) :
    Keeps lv root (answer s k code held payload) := by
  unfold answer
  repeat' first
    | with_reducible assumption
    | with_reducible apply sendBack_keeps

theorem updLedger_keeps {lv : Bool} {root s : State} (src : Coord) (stamp : Stamp) (g : LedgerSource → LedgerSource) (kp : Keeps lv root s) :
    Keeps lv root (updLedger s src stamp g) := by
  unfold updLedger
  repeat' first
    | with_reducible assumption
    | fail_if_no_progress (with_reducible refine Keeps.upd ?_ rfl rfl rfl rfl rfl rfl rfl rfl rfl rfl rfl rfl rfl rfl rfl rfl rfl)

theorem ledgerStore_keeps {lv : Bool} {root s : State} (k : Packet) (kp : Keeps lv root s) :
    Keeps lv root (ledgerStore s k) := by
  unfold ledgerStore
  repeat' first
    | with_reducible assumption
    | with_reducible apply updLedger_keeps

theorem ledgerAtomic_keeps {lv : Bool} {root s : State} (k : Packet) (v : Word64) (kp : Keeps lv root s) :
    Keeps lv root (ledgerAtomic s k v) := by
  unfold ledgerAtomic
  repeat' first
    | with_reducible assumption
    | with_reducible apply updLedger_keeps

theorem setQueue_keeps {lv : Bool} {root s : State} (t : LineTarget) (l : List LineEntry) (kp : Keeps lv root s) :
    Keeps lv root (setQueue s t l) := by
  unfold setQueue
  dsimp only
  repeat' first
    | with_reducible assumption
    | (with_reducible refine Keeps.ite (fun _ => ?_) (fun _ => ?_))
    | fail_if_no_progress (with_reducible refine Keeps.upd ?_ rfl rfl rfl rfl rfl rfl rfl rfl rfl rfl rfl rfl rfl rfl rfl rfl rfl)

theorem admitStore_keeps {lv : Bool} {root s : State} (t : LineTarget) (e : LineEntry) (kp : Keeps lv root s) :
    Keeps lv root (admitStore s t e) := by
  unfold admitStore
  repeat' first
    | with_reducible assumption
    | with_reducible apply bump_keeps
    | with_reducible apply setQueue_keeps
    | split

theorem performTopk_keeps {lv : Bool} {root s : State} (stamp : Stamp) (a v : Nat) (kp : Keeps lv root s) :
    Keeps lv root (performTopk s stamp a v) := by
  unfold performTopk
  dsimp only
  repeat' first
    | with_reducible assumption
    | (with_reducible refine Keeps.ite (fun _ => ?_) (fun _ => ?_))
    | with_reducible apply undefineRange_keeps
    | with_reducible apply countEvents_keeps
    | with_reducible apply targetStore_keeps
    | split

theorem performAtomic_keeps {lv : Bool} {root s : State} (stamp : Stamp) (op a n ra rc : Nat) (kp : Keeps lv root s) :
    Keeps lv root (performAtomic s stamp op a n ra rc).2 := by
  unfold performAtomic
  dsimp only
  repeat' first
    | with_reducible assumption
    | (with_reducible refine Keeps.ite (fun _ => ?_) (fun _ => ?_))
    | with_reducible apply targetStore_keeps
    | with_reducible apply performTopk_keeps
    | split

theorem hbmPoisoned_keeps {lv : Bool} {root s : State} (n a : Nat) (kp : Keeps lv root s) :
    Keeps lv root (hbmPoisoned s n a) := by
  unfold hbmPoisoned
  dsimp only
  repeat' first
    | with_reducible assumption
    | (intro _ _)
    | with_reducible apply Memory.setPoison_wf
    | with_reducible apply updMem_keeps
    | with_reducible apply bump_keeps
    | with_reducible apply note_keeps
    | fail_if_no_progress (with_reducible refine Keeps.upd ?_ rfl rfl rfl rfl rfl rfl rfl rfl rfl rfl rfl rfl rfl rfl rfl rfl rfl)

theorem sramPoisoned_keeps {lv : Bool} {root s : State} (c a : Nat) (kp : Keeps lv root s) :
    Keeps lv root (sramPoisoned s c a) := by
  unfold sramPoisoned
  dsimp only
  repeat' first
    | with_reducible assumption
    | (intro _ _)
    | with_reducible apply Memory.setPoison_wf
    | (with_reducible refine Keeps.ite (fun _ => ?_) (fun _ => ?_))
    | with_reducible apply updMem_keeps
    | with_reducible apply bump_keeps
    | with_reducible apply failJob_keeps
    | fail_if_no_progress (with_reducible refine Keeps.upd ?_ rfl rfl rfl rfl rfl rfl rfl rfl rfl rfl rfl rfl rfl rfl rfl rfl rfl)

theorem eccRead_keeps {lv : Bool} {root s : State} (t : LineTarget) (a : Nat) (e : Ecc) (kp : Keeps lv root s) :
    Keeps lv root (eccRead s t a e) := by
  unfold eccRead
  repeat' first
    | with_reducible assumption
    | with_reducible apply bump_keeps
    | with_reducible apply correctedError_keeps
    | with_reducible apply hbmPoisoned_keeps
    | with_reducible apply sramPoisoned_keeps
    | split

theorem refuseRequest_keeps {lv : Bool} {root s : State} (k : Packet) (r : Reach) (kp : Keeps lv root s) :
    Keeps lv root (refuseRequest s k r) := by
  unfold refuseRequest
  repeat' first
    | with_reducible assumption
    | with_reducible apply staleDrop_keeps
    | with_reducible apply answer_keeps
    | split

theorem execMemLoad_keeps {lv : Bool} (i : Nat) {s nx : State} (hx : execMemLoad i s = .next nx) :
    Keeps lv s nx := by
  unfold execMemLoad at hx
  obtain rfl := Host.Outcome.next.inj hx
  have kp := Keeps.refl (b := lv) s
  repeat' first
    | with_reducible assumption
    | (with_reducible refine Keeps.ite (fun _ => ?_) (fun _ => ?_))
    | (with_reducible refine takeInbox_keeps _ _ _ (by assumption) ?_)
    | with_reducible apply setQueue_keeps
    | with_reducible apply refuseRequest_keeps
    | split

theorem execMemStore_keeps {lv : Bool} (i : Nat) {s nx : State} (hx : execMemStore i s = .next nx) :
    Keeps lv s nx := by
  unfold execMemStore at hx
  obtain rfl := Host.Outcome.next.inj hx
  have kp := Keeps.refl (b := lv) s
  dsimp only
  repeat' first
    | with_reducible assumption
    | (with_reducible refine Keeps.ite (fun _ => ?_) (fun _ => ?_))
    | (with_reducible refine takeInbox_keeps _ _ _ (by assumption) ?_)
    | with_reducible apply bump_keeps
    | with_reducible apply answer_keeps
    | with_reducible apply ledgerStore_keeps
    | with_reducible apply admitStore_keeps
    | with_reducible apply refuseRequest_keeps
    | split

theorem execMemAtomic_keeps {lv : Bool} (i : Nat) {s nx : State} (hx : execMemAtomic i s = .next nx) :
    Keeps lv s nx := by
  unfold execMemAtomic at hx
  obtain rfl := Host.Outcome.next.inj hx
  have kp := Keeps.refl (b := lv) s
  repeat' first
    | with_reducible assumption
    | (with_reducible refine Keeps.ite (fun _ => ?_) (fun _ => ?_))
    | (with_reducible refine takeInbox_keeps _ _ _ (by assumption) ?_)
    | with_reducible apply bump_keeps
    | with_reducible apply answer_keeps
    | with_reducible apply setQueue_keeps
    | with_reducible apply refuseRequest_keeps
    | split

theorem performStore_keeps {lv : Bool} {root s : State} (e : LineEntry) (kp : Keeps lv root s) :
    Keeps lv root (performStore s e) := by
  unfold performStore
  dsimp only
  repeat' first
    | with_reducible assumption
    | (intro _ _)
    | with_reducible apply Memory.write_wf
    | with_reducible apply Memory.clearPoison_wf
    | (with_reducible refine Memory.foldl_wf (fun _ _ _ => ?_) ?_)
    | (with_reducible refine Keeps.ite (fun _ => ?_) (fun _ => ?_))
    | (with_reducible refine Keeps.foldl_fst (fun _ _ _ => ?_) ?_)
    | (with_reducible refine Keeps.foldl (fun _ _ _ => ?_) ?_)
    | with_reducible apply updMem_keeps
    | with_reducible apply targetStore_keeps

theorem performLoad_keeps {lv : Bool} {root s : State} (e : LineEntry) (kp : Keeps lv root s) :
    Keeps lv root (performLoad s e) := by
  unfold performLoad
  dsimp only
  repeat' first
    | with_reducible assumption
    | (with_reducible refine Keeps.ite (fun _ => ?_) (fun _ => ?_))
    | with_reducible apply answer_keeps

theorem serveAtomic_keeps {lv : Bool} {root s : State} (e : LineEntry) (kp : Keeps lv root s) :
    Keeps lv root (serveAtomic s e) := by
  unfold serveAtomic
  dsimp only
  repeat' first
    | with_reducible assumption
    | (with_reducible refine Keeps.ite (fun _ => ?_) (fun _ => ?_))
    | with_reducible apply bump_keeps
    | with_reducible apply answer_keeps
    | with_reducible apply ledgerAtomic_keeps
    | with_reducible apply performAtomic_keeps
    | split

theorem performBar4_keeps {lv : Bool} {root s : State} (p : Port) (e : LineEntry) (kp : Keeps lv root s) :
    Keeps lv root (performBar4 s p e) := by
  unfold performBar4
  dsimp only
  repeat' first
    | with_reducible assumption
    | (intro _; with_reducible rfl)
    | (with_reducible refine Keeps.ite (fun _ => ?_) (fun _ => ?_))
    | with_reducible apply updPort_keeps

theorem performEntry_keeps {lv : Bool} {root s : State} (e : LineEntry) (kp : Keeps lv root s) :
    Keeps lv root (performEntry s e) := by
  unfold performEntry
  repeat' first
    | with_reducible assumption
    | with_reducible apply performStore_keeps
    | with_reducible apply performLoad_keeps
    | with_reducible apply serveAtomic_keeps
    | with_reducible apply performBar4_keeps
    | split

theorem execLineQueueServe_keeps {lv : Bool} (t : LineTarget) (ecc : Ecc) {s nx : State} (hx : execLineQueueServe t ecc s = .next nx) :
    Keeps lv s nx := by
  unfold execLineQueueServe at hx
  obtain rfl := Host.Outcome.next.inj hx
  have kp := Keeps.refl (b := lv) s
  dsimp only
  repeat' first
    | with_reducible assumption
    | (with_reducible refine Keeps.ite (fun _ => ?_) (fun _ => ?_))
    | with_reducible apply needing_keeps
    | with_reducible apply setQueue_keeps
    | with_reducible apply eccRead_keeps
    | with_reducible apply performEntry_keeps
    | (intro _ _)
    | (intro _)
    | split

theorem bar4Read_keeps {lv : Bool} {root s : State} (p : Port) (a n : Nat) (kp : Keeps lv root s) :
    Keeps lv root (bar4Read s p a n) := by
  unfold bar4Read
  dsimp only
  repeat' first
    | with_reducible assumption
    | (intro _; with_reducible rfl)
    | (with_reducible refine Keeps.foldl_fst (fun _ _ _ => ?_) ?_)
    | (with_reducible refine Keeps.foldl (fun _ _ _ => ?_) ?_)
    | with_reducible apply updPort_keeps
    | with_reducible apply setQueue_keeps

theorem bar4Write_keeps {lv : Bool} {root s : State} (p : Port) (a : Nat) (b : Bytes) (kp : Keeps lv root s) :
    Keeps lv root (bar4Write s p a b) := by
  unfold bar4Write
  repeat' first
    | with_reducible assumption
    | (with_reducible refine Keeps.foldl_fst (fun _ _ _ => ?_) ?_)
    | (with_reducible refine Keeps.foldl (fun _ _ _ => ?_) ?_)
    | with_reducible apply admitStore_keeps

theorem bar4Refuse_keeps {lv : Bool} {root s : State} (p : Port) (op : Bar4Op) (kp : Keeps lv root s) :
    Keeps lv root (bar4Refuse s p op) := by
  unfold bar4Refuse
  repeat' first
    | with_reducible assumption
    | (intro _; with_reducible rfl)
    | with_reducible apply updPort_keeps
    | split

theorem execBar4Access_keeps {lv : Bool} (port : Port) (offset : BitVec 36) (op : Bar4Op) {s nx : State} (hx : execBar4Access port offset op s = .next nx) :
    Keeps lv s nx := by
  unfold execBar4Access at hx
  obtain rfl := Host.Outcome.next.inj hx
  have kp := Keeps.refl (b := lv) s
  dsimp only
  repeat' first
    | with_reducible assumption
    | (with_reducible refine Keeps.ite (fun _ => ?_) (fun _ => ?_))
    | with_reducible apply bump_keeps
    | with_reducible apply bar4Read_keeps
    | with_reducible apply bar4Write_keeps
    | with_reducible apply bar4Refuse_keeps
    | split

end Sys2Proof.Machine
end

