-- ==== Sys2Proof/Laws/KeepsRoaming.lean ====
section
/-! SUPPORT. What the operations of Machine/Roaming.lean keep. -/

namespace Sys2Proof.Machine

open Sys2Proof

theorem updThread_keeps {lv : Bool} {root s : State} (core : Nat) (t : Fin 8) (g : Thread → Thread) (kp : Keeps lv root s) :
    Keeps lv root (updThread s core t g) := by
  unfold updThread
  repeat' first
    | with_reducible assumption
    | fail_if_no_progress (with_reducible refine Keeps.upd ?_ rfl rfl rfl rfl rfl rfl rfl rfl rfl rfl rfl rfl rfl rfl rfl rfl rfl)

theorem issued_keeps {lv : Bool} {root s : State} (x : Thread) (next : Nat) (kp : Keeps lv root s) :
    Keeps lv root (issued s x next) := by
  unfold issued
  repeat' first
    | with_reducible assumption
    | with_reducible apply updThread_keeps
    | fail_if_no_progress (with_reducible refine Keeps.upd ?_ rfl rfl rfl rfl rfl rfl rfl rfl rfl rfl rfl rfl rfl rfl rfl rfl rfl)

theorem startThread_keeps {lv : Bool} {root s : State} (h : Handle) (core : Nat) (t : Fin 8) (st : RoamStart) (kp : Keeps lv root s) :
    Keeps lv root (startThread h s core t st) := by
  unfold startThread
  repeat' first
    | with_reducible assumption
    | (with_reducible refine Keeps.ite (fun _ => ?_) (fun _ => ?_))
    | with_reducible apply updRun_keeps
    | with_reducible apply note_keeps
    | with_reducible apply updThread_keeps
    | split
    | fail_if_no_progress (with_reducible refine Keeps.upd ?_ rfl rfl rfl rfl rfl rfl rfl rfl rfl rfl rfl rfl rfl rfl rfl rfl rfl)

theorem execRoamStart_keeps {lv : Bool} (h : Handle) (i : Nat) {s nx : State} (hx : execRoamStart h i s = .next nx) :
    Keeps lv s nx := by
  unfold execRoamStart at hx
  obtain rfl := Host.Outcome.next.inj hx
  have kp := Keeps.refl (b := lv) s
  dsimp only
  repeat' first
    | with_reducible assumption
    | (with_reducible refine Keeps.foldl_fst (fun _ _ _ => ?_) ?_)
    | (with_reducible refine Keeps.foldl (fun _ _ _ => ?_) ?_)
    | with_reducible apply opDone_keeps
    | with_reducible apply needing_keeps
    | with_reducible apply endWait_keeps
    | with_reducible apply startThread_keeps
    | (intro _ _)
    | (intro _)
    | split

theorem threadEnds_keeps {lv : Bool} {root s : State} (x : Thread) (kp : Keeps lv root s) :
    Keeps lv root (threadEnds s x) := by
  unfold threadEnds
  dsimp only
  repeat' first
    | with_reducible assumption
    | with_reducible apply reoffer_keeps
    | split
    | fail_if_no_progress (with_reducible refine Keeps.upd ?_ rfl rfl rfl rfl rfl rfl rfl rfl rfl rfl rfl rfl rfl rfl rfl rfl rfl)

theorem execEndProgram_keeps {lv : Bool} (core : Nat) (t : Fin 8) {s nx : State} (hx : execEndProgram core t s = .next nx) :
    Keeps lv s nx := by
  unfold execEndProgram at hx
  obtain rfl := Host.Outcome.next.inj hx
  have kp := Keeps.refl (b := lv) s
  repeat' first
    | with_reducible assumption
    | with_reducible apply issued_keeps
    | with_reducible apply threadEnds_keeps
    | split

theorem writeBack_keeps {lv : Bool} {root s : State} (e : IssueEnv) (v : Word64) (kp : Keeps lv root s) :
    Keeps lv root (writeBack s e v) := by
  unfold writeBack
  repeat' first
    | with_reducible assumption
    | with_reducible apply updThread_keeps
    | with_reducible apply issued_keeps

theorem execAlu_keeps {lv : Bool} (core : Nat) (t : Fin 8) {s nx : State} (hx : execAlu core t s = .next nx) :
    Keeps lv s nx := by
  unfold execAlu at hx
  obtain rfl := Host.Outcome.next.inj hx
  have kp := Keeps.refl (b := lv) s
  repeat' first
    | with_reducible assumption
    | with_reducible apply writeBack_keeps
    | split

theorem execBranch_keeps {lv : Bool} (core : Nat) (t : Fin 8) {s nx : State} (hx : execBranch core t s = .next nx) :
    Keeps lv s nx := by
  unfold execBranch at hx
  obtain rfl := Host.Outcome.next.inj hx
  have kp := Keeps.refl (b := lv) s
  dsimp only
  repeat' first
    | with_reducible assumption
    | (with_reducible refine Keeps.ite (fun _ => ?_) (fun _ => ?_))
    | with_reducible apply issued_keeps
    | split

theorem execHash_keeps {lv : Bool} (core : Nat) (t : Fin 8) {s nx : State} (hx : execHash core t s = .next nx) :
    Keeps lv s nx := by
  unfold execHash at hx
  obtain rfl := Host.Outcome.next.inj hx
  have kp := Keeps.refl (b := lv) s
  repeat' first
    | with_reducible assumption
    | with_reducible apply writeBack_keeps
    | split

theorem execTokenSignal_keeps {lv : Bool} (core : Nat) (t : Fin 8) {s nx : State} (hx : execTokenSignal core t s = .next nx) :
    Keeps lv s nx := by
  unfold execTokenSignal at hx
  obtain rfl := Host.Outcome.next.inj hx
  have kp := Keeps.refl (b := lv) s
  repeat' first
    | with_reducible assumption
    | with_reducible apply signalToken_keeps
    | with_reducible apply issued_keeps
    | split

theorem takeId_keeps {lv : Bool} {root s : State} (stamp : Stamp) (target : Coord) (kind : ReqKind) (kp : Keeps lv root s) :
    Keeps lv root (takeId s stamp target kind).2 := by
  unfold takeId
  dsimp only
  repeat' first
    | with_reducible assumption
    | split
    | dsimp only
    | fail_if_no_progress (with_reducible refine Keeps.upd ?_ rfl rfl rfl rfl rfl rfl rfl rfl rfl rfl rfl rfl rfl rfl rfl rfl rfl)

theorem ackId_keeps {lv : Bool} {root s : State} (stamp : Stamp) (target : Coord) (kind : ReqKind) (id : Word16) (kp : Keeps lv root s) :
    Keeps lv root (ackId s stamp target kind id) := by
  unfold ackId
  dsimp only
  repeat' first
    | with_reducible assumption
    | with_reducible apply acked_keeps
    | fail_if_no_progress (with_reducible refine Keeps.upd ?_ rfl rfl rfl rfl rfl rfl rfl rfl rfl rfl rfl rfl rfl rfl rfl rfl rfl)

theorem leave_keeps {lv : Bool} {root s : State} (x : Thread) (st : RoamStart) (a : Access) (kp : Keeps lv root s) :
    Keeps lv root (leave s x st a) := by
  unfold leave
  dsimp only
  repeat' first
    | with_reducible assumption
    | (with_reducible refine Keeps.ite (fun _ => ?_) (fun _ => ?_))
    | with_reducible apply sendToRank_keeps
    | with_reducible apply updThread_keeps
    | with_reducible apply takeId_keeps
    | split
    | fail_if_no_progress (with_reducible refine Keeps.upd ?_ rfl rfl rfl rfl rfl rfl rfl rfl rfl rfl rfl rfl rfl rfl rfl rfl rfl)

theorem issueAccess_keeps {lv : Bool} {root s : State} (e : IssueEnv) (a : Access) (kp : Keeps lv root s) :
    Keeps lv root (issueAccess s e a) := by
  unfold issueAccess
  dsimp only
  repeat' first
    | with_reducible assumption
    | (with_reducible refine Keeps.ite (fun _ => ?_) (fun _ => ?_))
    | with_reducible apply updThread_keeps
    | with_reducible apply issued_keeps
    | with_reducible apply leave_keeps

theorem badReply_keeps {lv : Bool} {root s : State} (c : Nat) (stamp : Stamp) (a : Access) (code : Nat) (kp : Keeps lv root s) :
    Keeps lv root (badReply s c stamp a code) := by
  unfold badReply
  dsimp only
  repeat' first
    | with_reducible assumption
    | (with_reducible refine Keeps.ite (fun _ => ?_) (fun _ => ?_))
    | with_reducible apply bump_keeps
    | with_reducible apply note_keeps
    | with_reducible apply failJob_keeps

theorem accessOwn_keeps {lv : Bool} {root s : State} (e : IssueEnv) (a : Access) (addr : Nat) (data : Bytes) (op rc : Nat) (kp : Keeps lv root s) :
    Keeps lv root (accessOwn s e a addr data op rc) := by
  unfold accessOwn
  dsimp only
  repeat' first
    | with_reducible assumption
    | (intro _ _)
    | with_reducible apply Memory.store_wf
    | (with_reducible refine Keeps.ite (fun _ => ?_) (fun _ => ?_))
    | with_reducible apply updMem_keeps
    | with_reducible apply performAtomic_keeps
    | with_reducible apply updThread_keeps
    | with_reducible apply issued_keeps
    | with_reducible apply badReply_keeps
    | split

theorem memoryRecord_keeps {lv : Bool} {root s : State} (core : Nat) (t : Fin 8) (op : Nat) (kp : Keeps lv root s) :
    Keeps lv root (memoryRecord s core t op) := by
  unfold memoryRecord
  dsimp only
  repeat' first
    | with_reducible assumption
    | (with_reducible refine Keeps.ite (fun _ => ?_) (fun _ => ?_))
    | with_reducible apply updThread_keeps
    | with_reducible apply issued_keeps
    | with_reducible apply issueAccess_keeps
    | with_reducible apply badReply_keeps
    | with_reducible apply accessOwn_keeps
    | split

theorem execLoad_keeps {lv : Bool} (core : Nat) (t : Fin 8) {s nx : State} (hx : execLoad core t s = .next nx) :
    Keeps lv s nx := by
  unfold execLoad at hx
  obtain rfl := Host.Outcome.next.inj hx
  have kp := Keeps.refl (b := lv) s
  repeat' first
    | with_reducible assumption
    | with_reducible apply memoryRecord_keeps

theorem execStore_keeps {lv : Bool} (core : Nat) (t : Fin 8) {s nx : State} (hx : execStore core t s = .next nx) :
    Keeps lv s nx := by
  unfold execStore at hx
  obtain rfl := Host.Outcome.next.inj hx
  have kp := Keeps.refl (b := lv) s
  repeat' first
    | with_reducible assumption
    | with_reducible apply memoryRecord_keeps

theorem execAtomic_keeps {lv : Bool} (core : Nat) (t : Fin 8) {s nx : State} (hx : execAtomic core t s = .next nx) :
    Keeps lv s nx := by
  unfold execAtomic at hx
  obtain rfl := Host.Outcome.next.inj hx
  have kp := Keeps.refl (b := lv) s
  repeat' first
    | with_reducible assumption
    | with_reducible apply memoryRecord_keeps

theorem execTrackerGrant_keeps {lv : Bool} (cluster : Nat) {s nx : State} (hx : execTrackerGrant cluster s = .next nx) :
    Keeps lv s nx := by
  unfold execTrackerGrant at hx
  obtain rfl := Host.Outcome.next.inj hx
  have kp := Keeps.refl (b := lv) s
  repeat' first
    | with_reducible assumption
    | (with_reducible refine Keeps.ite (fun _ => ?_) (fun _ => ?_))
    | with_reducible apply leave_keeps
    | split
    | fail_if_no_progress (with_reducible refine Keeps.upd ?_ rfl rfl rfl rfl rfl rfl rfl rfl rfl rfl rfl rfl rfl rfl rfl rfl rfl)

theorem accessOver_keeps {lv : Bool} {root s : State} (core : Nat) (t : Fin 8) (kp : Keeps lv root s) :
    Keeps lv root (accessOver s core t) := by
  unfold accessOver
  dsimp only
  repeat' first
    | with_reducible assumption
    | (with_reducible refine Keeps.ite (fun _ => ?_) (fun _ => ?_))
    | (with_reducible refine Keeps.foldl (fun _ _ _ => ?_) ?_)
    | with_reducible apply settleCancel_keeps
    | with_reducible apply updThread_keeps
    | split
    | fail_if_no_progress (with_reducible refine Keeps.upd ?_ rfl rfl rfl rfl rfl rfl rfl rfl rfl rfl rfl rfl rfl rfl rfl rfl rfl)

theorem deliverReply_keeps {lv : Bool} {root s : State} (tr : Tracker) (k : Packet) (kp : Keeps lv root s) :
    Keeps lv root (deliverReply s tr k) := by
  unfold deliverReply
  dsimp only
  repeat' first
    | with_reducible assumption
    | (with_reducible refine Keeps.ite (fun _ => ?_) (fun _ => ?_))
    | with_reducible apply reoffer_keeps
    | with_reducible apply updThread_keeps
    | with_reducible apply ackId_keeps
    | with_reducible apply badReply_keeps
    | with_reducible apply accessOver_keeps
    | fail_if_no_progress (with_reducible refine Keeps.upd ?_ rfl rfl rfl rfl rfl rfl rfl rfl rfl rfl rfl rfl rfl rfl rfl rfl rfl)

theorem gatherReplied_keeps {lv : Bool} {root s : State} (k : Packet) (kp : Keeps lv root s) :
    Keeps lv root (gatherReplied s k) := by
  unfold gatherReplied
  repeat' first
    | with_reducible assumption
    | (with_reducible refine Keeps.ite (fun _ => ?_) (fun _ => ?_))
    | with_reducible apply failJob_keeps
    | with_reducible apply staleDrop_keeps
    | split

theorem execMemReply_keeps {lv : Bool} (i cluster : Nat) (idx : Fin 16) {s nx : State} (hx : execMemReply i cluster idx s = .next nx) :
    Keeps lv s nx := by
  unfold execMemReply at hx
  obtain rfl := Host.Outcome.next.inj hx
  have kp := Keeps.refl (b := lv) s
  repeat' first
    | with_reducible assumption
    | (with_reducible refine Keeps.ite (fun _ => ?_) (fun _ => ?_))
    | (with_reducible refine takeInbox_keeps _ _ _ (by assumption) ?_)
    | with_reducible apply staleDrop_keeps
    | with_reducible apply needing_keeps
    | with_reducible apply deliverReply_keeps
    | with_reducible apply gatherReplied_keeps
    | (intro _ _)
    | (intro _)
    | split

end Sys2Proof.Machine
end

