-- ==== Sys2Proof/Laws/KeepsSystemClass.lean ====
section
/-! SUPPORT. What the operations of Machine/SystemClass.lean keep. -/

namespace Sys2Proof.Machine

open Sys2Proof

theorem sysReply_keeps {lv : Bool} {root s : State} (k : Packet) (status : Nat) (data : Bytes) (kp : Keeps lv root s) :
    Keeps lv root (sysReply s k status data) := by
  unfold sysReply
  repeat' first
    | with_reducible assumption
    | with_reducible apply sendBack_keeps

theorem sysDrop_keeps {lv : Bool} {root s : State}  (kp : Keeps lv root s) :
    Keeps lv root (sysDrop s) := by
  unfold sysDrop
  repeat' first
    | with_reducible assumption
    | with_reducible apply bump_keeps

theorem reportLost_keeps {lv : Bool} {root s : State} (peer : Coord) (l : List Packet) (kp : Keeps lv root s) :
    Keeps lv root (reportLost s peer l) := by
  unfold reportLost
  repeat' first
    | with_reducible assumption
    | (with_reducible refine Keeps.foldl (fun _ _ _ => ?_) ?_)
    | with_reducible apply failJob_keeps

theorem resetPeer_keeps {lv : Bool} {root s : State} (peer : Coord) (kp : Keeps lv root s) :
    Keeps lv root (resetPeer s peer) := by
  unfold resetPeer
  dsimp only
  repeat' first
    | with_reducible assumption
    | (with_reducible refine Keeps.foldl (fun _ _ _ => ?_) ?_)
    | with_reducible apply updRouter_keeps
    | with_reducible apply sendPacket_keeps
    | with_reducible apply reportLost_keeps

theorem clearCoord_keeps {lv : Bool} {root s : State}  (kp : Keeps lv root s) :
    Keeps lv root (clearCoord s) := by
  unfold clearCoord
  dsimp only
  repeat' first
    | with_reducible assumption
    | (with_reducible refine Keeps.foldl (fun _ _ _ => ?_) ?_)
    | with_reducible apply updRouter_keeps
    | with_reducible apply fportRest_keeps
    | with_reducible apply resetPeer_keeps

theorem assignCoord_keeps {lv : Bool} {root s : State} (c : Coord) (kp : Keeps lv root s) :
    Keeps lv root (assignCoord s c) := by
  unfold assignCoord
  dsimp only
  repeat' first
    | with_reducible assumption
    | with_reducible apply updRouter_keeps

theorem writeMyCoord_keeps {lv : Bool} {root s : State} (v : Nat) {t : State} (hq : writeMyCoord s v = some t)
    (kp : Keeps lv root s) : Keeps lv root t := by
  unfold writeMyCoord at hq
  extract_lets c valid at hq
  rcases some_of_ite hq with ⟨_, hq⟩ | ⟨_, hq⟩
  · cases hq
  rcases some_of_ite hq with ⟨_, hq⟩ | ⟨_, hq⟩
  · rcases some_of_ite hq with ⟨_, hq⟩ | ⟨_, hq⟩
    · cases hq
    rcases some_of_ite hq with ⟨_, hq⟩ | ⟨_, hq⟩
    · cases hq; exact kp
    · rw [← Option.some.inj hq]; exact clearCoord_keeps kp
  rcases some_of_ite hq with ⟨_, hq⟩ | ⟨_, hq⟩
  · rw [← Option.some.inj hq]; exact assignCoord_keeps _ kp
  · cases hq; exact updRouter_keeps kp _

theorem writeBankCtrl_keeps {lv : Bool} {root s : State} (v : Nat) {t : State} (hq : writeBankCtrl s v = some t)
    (kp : Keeps lv root s) : Keeps lv root t := by
  unfold writeBankCtrl at hq
  extract_lets r e ok at hq
  rcases some_of_ite hq with ⟨_, hq⟩ | ⟨_, hq⟩
  · cases hq; exact updRouter_keeps kp _
  · cases hq

theorem writeGateway_keeps {lv : Bool} {root s : State} (v : Nat) {t : State} (hq : (writeGateway s v) = some t) (kp : Keeps lv root s) :
    Keeps lv root t := by
  unfold writeGateway at hq
  repeat' first
    | dsimp only at hq
    | split at hq
    | cases hq
  repeat' first
    | with_reducible assumption
    | (with_reducible refine Keeps.ite (fun _ => ?_) (fun _ => ?_))
    | with_reducible apply updRouter_keeps

theorem writeExtent_keeps {lv : Bool} {root s : State} (v : Nat) {t : State} (hq : (writeExtent s v) = some t) (kp : Keeps lv root s) :
    Keeps lv root t := by
  unfold writeExtent at hq
  repeat' first
    | dsimp only at hq
    | split at hq
    | cases hq
  repeat' first
    | with_reducible assumption
    | (with_reducible refine Keeps.ite (fun _ => ?_) (fun _ => ?_))
    | with_reducible apply updRouter_keeps

theorem bankMap_keeps {lv : Bool} {root s t : State} (x : Option Bank) (f : Bank → Router → Router)
    (hq : x.map (fun y => updRouter s (f y)) = some t) (kp : Keeps lv root s) : Keeps lv root t := by
  obtain ⟨y, _, rfl⟩ := Option.map_eq_some_iff.mp hq
  exact updRouter_keeps kp _

theorem routingWrite_keeps {lv : Bool} {root s : State} (o v : Nat) {t : State} (hq : routingWrite s o v = some t)
    (kp : Keeps lv root s) : Keeps lv root t := by
  unfold routingWrite at hq
  extract_lets r at hq
  rcases some_of_ite hq with ⟨_, hq⟩ | ⟨_, hq⟩
  · rcases some_of_ite hq with ⟨_, hq⟩ | ⟨_, hq⟩
    · cases hq
    · exact bankMap_keeps _ (fun y r => { r with bank0 := y }) hq kp
  rcases some_of_ite hq with ⟨_, hq⟩ | ⟨_, hq⟩
  · rcases some_of_ite hq with ⟨_, hq⟩ | ⟨_, hq⟩
    · cases hq
    · exact bankMap_keeps _ (fun y r => { r with bank1 := y }) hq kp
  rcases some_of_ite hq with ⟨_, hq⟩ | ⟨_, hq⟩
  · exact writeMyCoord_keeps _ hq kp
  rcases some_of_ite hq with ⟨_, hq⟩ | ⟨_, hq⟩
  · exact writeExtent_keeps _ hq kp
  rcases some_of_ite hq with ⟨_, hq⟩ | ⟨_, hq⟩
  · exact writeBankCtrl_keeps _ hq kp
  rcases some_of_ite hq with ⟨_, hq⟩ | ⟨_, hq⟩
  · cases hq
  rcases some_of_ite hq with ⟨_, hq⟩ | ⟨_, hq⟩
  · rcases some_of_ite hq with ⟨_, hq⟩ | ⟨_, hq⟩
    · cases hq; exact updRouter_keeps kp _
    · cases hq
  rcases some_of_ite hq with ⟨_, hq⟩ | ⟨_, hq⟩
  · rcases some_of_ite hq with ⟨_, hq⟩ | ⟨_, hq⟩
    · cases hq; exact updRouter_keeps kp _
    · cases hq
  rcases some_of_ite hq with ⟨_, hq⟩ | ⟨_, hq⟩
  · rcases some_of_ite hq with ⟨_, hq⟩ | ⟨_, hq⟩
    · cases hq; exact updRouter_keeps kp _
    · cases hq
  rcases some_of_ite hq with ⟨_, hq⟩ | ⟨_, hq⟩
  · exact writeGateway_keeps _ hq kp
  rcases some_of_ite hq with ⟨_, hq⟩ | ⟨_, hq⟩
  · cases hq; exact kp
  · cases hq

theorem writeMode_keeps {lv : Bool} {root s : State} (g : Fin 72) (v : Nat) {t : State} (hq : (writeMode s g v) = some t) (kp : Keeps lv root s) :
    Keeps lv root t := by
  unfold writeMode at hq
  repeat' first
    | dsimp only at hq
    | split at hq
    | cases hq
  repeat' first
    | with_reducible assumption
    | (with_reducible refine Keeps.ite (fun _ => ?_) (fun _ => ?_))
    | with_reducible apply updRegion_keeps

theorem lockField_keeps {root s : State} (old new lo hi : Nat) (f : State → State) {t : State}
    (hq : lockField s old new lo hi f = some t) (hf : lo ≤ new → new ≤ hi → (s.settings.lock = true → new = old) → Keeps false root (f s)) :
    Keeps false root t := by
  unfold lockField at hq
  split at hq
  · cases hq
  · split at hq
    · cases hq
    · rename_i h1 h2
      cases hq
      exact hf (by omega) (by omega) (fun hl => by simpa [hl] using h2)

theorem disablePort_keeps {lv : Bool} {root s : State} (p : FPort) (kp : Keeps lv root s) :
    Keeps lv root (disablePort s p) := by
  unfold disablePort
  repeat' first
    | with_reducible assumption
    | (with_reducible refine Keeps.ite (fun _ => ?_) (fun _ => ?_))
    | with_reducible apply linkEvent_keeps
    | with_reducible apply portDown_keeps

theorem setSettings_keeps {root s : State} (x : Settings) (hr : s.settings.ok → x.ok) (hl : s.settings.lock = true → x = s.settings)
    (kp : Keeps false root s) : Keeps false root { s with settings := x } :=
  kp.trans {
    pending := rfl
    silicon := rfl
    pwrGood := rfl
    timeBase := rfl
    fatal := id
    tripped := id
    head := Nat.le_refl _
    blotter := id
    clocks := id
    range := hr
    lock := hl
    mem := id
    held := fun h => absurd h (by decide) }

theorem setEnables_keeps {root s : State} (v : Nat) (hl : s.settings.lock = true → v = s.settings.fportEnable.toNat)
    (kp : Keeps false root s) : Keeps false root (setEnables s v) := by
  unfold setEnables
  dsimp only
  refine Keeps.foldl (fun _ _ h => startTraining_keeps _ h) (Keeps.foldl (fun _ _ h => disablePort_keeps _ h) ?_)
  refine setSettings_keeps _ (fun h => h) (fun h => ?_) kp
  rw [hl h, BitVec.ofNat_toNat, BitVec.setWidth_eq]

theorem writeEnable_keeps {root s : State} (v : Nat) {t : State} (hq : writeEnable s v = some t) (kp : Keeps false root s) :
    Keeps false root t := by
  unfold writeEnable at hq
  dsimp only at hq
  split at hq
  · cases hq
  · rename_i h1
    split at hq
    · cases hq
    · cases hq
      exact setEnables_keeps _ (fun hl => by simpa [hl] using h1) kp

theorem writeLock_keeps {root s : State} (v : Nat) {t : State} (hq : writeLock s v = some t) (kp : Keeps false root s) :
    Keeps false root t := by
  unfold writeLock at hq
  split at hq
  · cases hq
  · rename_i h1
    cases hq
    refine setSettings_keeps _ (fun h => h) (fun hl => ?_) kp
    have h2 : bit v 0 = true := by simpa [hl] using h1
    rw [h2, ← hl]

theorem settingsWrite_keeps {root s : State} (o v : Nat) {t : State} (hq : settingsWrite s o v = some t)
    (kp : Keeps false root s) : Keeps false root t := by
  unfold settingsWrite at hq
  dsimp only at hq
  split at hq
  · exact writeMode_keeps _ _ hq kp
  split at hq
  · refine lockField_keeps _ _ _ _ _ hq (fun h1 h2 h3 => setSettings_keeps _ (fun h => ⟨⟨h1, h2⟩, h.2⟩) (fun hl => ?_) kp)
    rw [h3 hl]
  split at hq
  · refine lockField_keeps _ _ _ _ _ hq (fun h1 h2 h3 => setSettings_keeps _ (fun h => ⟨h.1, ⟨h1, h2⟩, h.2.2⟩) (fun hl => ?_) kp)
    rw [h3 hl]
  split at hq
  · refine lockField_keeps _ _ _ _ _ hq (fun h1 h2 h3 =>
      setSettings_keeps _ (fun h => ⟨h.1, h.2.1, ⟨h1, h2⟩, h.2.2.2⟩) (fun hl => ?_) kp)
    rw [h3 hl]
  split at hq
  · refine lockField_keeps _ _ _ _ _ hq (fun h1 h2 h3 =>
      setSettings_keeps _ (fun h => ⟨h.1, h.2.1, h.2.2.1, ⟨h1, h2⟩, h.2.2.2.2⟩) (fun hl => ?_) kp)
    rw [h3 hl]
  split at hq
  · refine lockField_keeps _ _ _ _ _ hq (fun h1 h2 h3 =>
      setSettings_keeps _ (fun h => ⟨h.1, h.2.1, h.2.2.1, h.2.2.2.1, ⟨h1, h2⟩, h.2.2.2.2.2⟩) (fun hl => ?_) kp)
    rw [h3 hl]
  split at hq
  · exact writeEnable_keeps _ hq kp
  split at hq
  · refine lockField_keeps _ _ _ _ _ hq (fun h1 h2 h3 =>
      setSettings_keeps _ (fun h => ⟨h.1, h.2.1, h.2.2.1, h.2.2.2.1, h.2.2.2.2.1, fun i => ?_⟩) (fun hl => ?_) kp)
    · by_cases e : (Fin.ofNat 12 ((o - 0x220) / 4)).val = i.val
      · have h4 : quotaTop (i.val % 3) = if i.val % 3 = 0 then 1572 else if i.val % 3 = 1 then 3151 else 4279 := by
          rcases (by omega : i.val % 3 = 0 ∨ i.val % 3 = 1 ∨ i.val % 3 = 2) with h5 | h5 | h5 <;> rw [h5] <;> rfl
        rw [e, h4] at h2
        simp only [Fin.getElem_fin, e, Vector.getElem_set_self]
        exact ⟨h1, h2⟩
      · simp only [Fin.getElem_fin, Vector.getElem_set_ne _ _ e]
        exact h.2.2.2.2.2 i
    · rw [h3 hl]
      simp
  split at hq
  · exact writeLock_keeps _ hq kp
  · cases hq
    exact kp

theorem controlWrite_keeps {root s : State} (o v : Nat) (kp : Keeps false root s) :
    Keeps false root (controlWrite s o v).2 := by
  unfold controlWrite
  dsimp only
  repeat' first
    | with_reducible assumption
    | (with_reducible refine Keeps.ite (fun _ => ?_) (fun _ => ?_))
    | (with_reducible refine routingWrite_keeps _ _ (by assumption) ?_)
    | (with_reducible refine settingsWrite_keeps _ _ (by assumption) ?_)
    | with_reducible apply writeErrStatus_keeps
    | with_reducible apply answer_keeps
    | split
    | dsimp only
    | fail_if_no_progress (with_reducible refine Keeps.upd ?_ rfl rfl rfl rfl rfl rfl rfl rfl rfl rfl rfl rfl rfl rfl rfl rfl rfl)

theorem writes_keeps {root : State} : ∀ (l : List (Nat × Nat)) {x : Nat × State}, Keeps false root x.2 →
    Keeps false root (l.foldl (fun (a : Nat × State) w => if a.1 = sysOk then controlWrite a.2 w.1 w.2 else a) x).2
  | [], _, h => h
  | w :: l, x, h => by
    refine writes_keeps l ?_
    dsimp only
    split
    · exact controlWrite_keeps _ _ h
    · exact h

theorem writeControl_keeps {root s : State} (o : Nat) (b : Bytes) (kp : Keeps false root s) :
    Keeps false root (writeControl s o b).2 := by
  unfold writeControl
  dsimp only
  split
  · exact writes_keeps _ kp
  · exact kp

theorem noteModes_keeps {lv : Bool} {root s : State} (o : Nat) (b : Bytes) (kp : Keeps lv root s) :
    Keeps lv root (noteModes s o b) := by
  unfold noteModes
  dsimp only
  repeat' first
    | with_reducible assumption
    | (with_reducible refine Keeps.ite (fun _ => ?_) (fun _ => ?_))
    | (with_reducible refine Keeps.foldl_fst (fun _ _ _ => ?_) ?_)
    | (with_reducible refine Keeps.foldl (fun _ _ _ => ?_) ?_)
    | with_reducible apply note_keeps

theorem sysReadServe_keeps {lv : Bool} {root s : State} (k : Packet) (kp : Keeps lv root s) :
    Keeps lv root (sysReadServe s k) := by
  unfold sysReadServe
  dsimp only
  repeat' first
    | with_reducible assumption
    | with_reducible apply endWait_keeps
    | with_reducible apply sysReply_keeps
    | split
    | fail_if_no_progress (with_reducible refine Keeps.upd ?_ rfl rfl rfl rfl rfl rfl rfl rfl rfl rfl rfl rfl rfl rfl rfl rfl rfl)

theorem sysWriteServe_keeps {root s : State} (k : Packet) (kp : Keeps false root s) :
    Keeps false root (sysWriteServe s k) := by
  unfold sysWriteServe
  dsimp only
  repeat' first
    | with_reducible assumption
    | (with_reducible refine Keeps.ite (fun _ => ?_) (fun _ => ?_))
    | with_reducible apply targetStore_keeps
    | with_reducible apply endWait_keeps
    | with_reducible apply sysReply_keeps
    | with_reducible apply writeControl_keeps
    | with_reducible apply noteModes_keeps
    | split

theorem serveWrite_keeps {root s : State} (i : Nat) (test : Packet → Bool) (kp : Keeps false root s) :
    Keeps false root (serveWrite s i test) := by
  unfold serveWrite
  repeat' first
    | with_reducible assumption
    | (with_reducible refine Keeps.ite (fun _ => ?_) (fun _ => ?_))
    | (with_reducible refine takeInbox_keeps _ _ _ (by assumption) ?_)
    | with_reducible apply needing_keeps
    | with_reducible apply sysDrop_keeps
    | with_reducible apply sysWriteServe_keeps
    | (intro _ _)
    | (intro _)
    | split

theorem execSysRead_keeps {lv : Bool} (i : Nat) {s nx : State} (hx : execSysRead i s = .next nx) :
    Keeps lv s nx := by
  unfold execSysRead at hx
  obtain rfl := Host.Outcome.next.inj hx
  have kp := Keeps.refl (b := lv) s
  repeat' first
    | with_reducible assumption
    | (with_reducible refine Keeps.ite (fun _ => ?_) (fun _ => ?_))
    | (with_reducible refine takeInbox_keeps _ _ _ (by assumption) ?_)
    | with_reducible apply needing_keeps
    | with_reducible apply sysDrop_keeps
    | with_reducible apply sysReadServe_keeps
    | (intro _ _)
    | (intro _)
    | split

theorem execSysWrite_keeps (i : Nat) {s nx : State} (hx : execSysWrite i s = .next nx) :
    Keeps false s nx := by
  unfold execSysWrite at hx
  obtain rfl := Host.Outcome.next.inj hx
  have kp := Keeps.refl (b := false) s
  repeat' first
    | with_reducible assumption
    | with_reducible apply serveWrite_keeps

theorem execMyCoord_keeps (i : Nat) {s nx : State} (hx : execMyCoord i s = .next nx) :
    Keeps false s nx := by
  unfold execMyCoord at hx
  obtain rfl := Host.Outcome.next.inj hx
  have kp := Keeps.refl (b := false) s
  repeat' first
    | with_reducible assumption
    | with_reducible apply serveWrite_keeps

theorem execBankCtrl_keeps (i : Nat) {s nx : State} (hx : execBankCtrl i s = .next nx) :
    Keeps false s nx := by
  unfold execBankCtrl at hx
  obtain rfl := Host.Outcome.next.inj hx
  have kp := Keeps.refl (b := false) s
  repeat' first
    | with_reducible assumption
    | with_reducible apply serveWrite_keeps

theorem execFportEnable_keeps (i : Nat) {s nx : State} (hx : execFportEnable i s = .next nx) :
    Keeps false s nx := by
  unfold execFportEnable at hx
  obtain rfl := Host.Outcome.next.inj hx
  have kp := Keeps.refl (b := false) s
  repeat' first
    | with_reducible assumption
    | with_reducible apply serveWrite_keeps

theorem execHbmRegion_keeps (i : Nat) {s nx : State} (hx : execHbmRegion i s = .next nx) :
    Keeps false s nx := by
  unfold execHbmRegion at hx
  obtain rfl := Host.Outcome.next.inj hx
  have kp := Keeps.refl (b := false) s
  repeat' first
    | with_reducible assumption
    | with_reducible apply serveWrite_keeps

theorem execSettingsLock_keeps (i : Nat) {s nx : State} (hx : execSettingsLock i s = .next nx) :
    Keeps false s nx := by
  unfold execSettingsLock at hx
  obtain rfl := Host.Outcome.next.inj hx
  have kp := Keeps.refl (b := false) s
  repeat' first
    | with_reducible assumption
    | with_reducible apply serveWrite_keeps

theorem fmReceive_keeps {lv : Bool} {root s : State} (k : Packet) (kp : Keeps lv root s) :
    Keeps lv root (fmReceive s k) := by
  unfold fmReceive
  dsimp only
  repeat' first
    | with_reducible assumption
    | (intro _ _)
    | with_reducible apply Memory.writeBytes_wf
    | (with_reducible refine Keeps.ite (fun _ => ?_) (fun _ => ?_))
    | with_reducible apply updHost_keeps
    | with_reducible apply updPart_keeps
    | with_reducible apply signalVector_keeps
    | with_reducible apply hostEvent_keeps
    | with_reducible apply sysDrop_keeps
    | split

theorem execSysReply_keeps {lv : Bool} (i : Nat) {s nx : State} (hx : execSysReply i s = .next nx) :
    Keeps lv s nx := by
  unfold execSysReply at hx
  obtain rfl := Host.Outcome.next.inj hx
  have kp := Keeps.refl (b := lv) s
  repeat' first
    | with_reducible assumption
    | (with_reducible refine takeInbox_keeps _ _ _ (by assumption) ?_)
    | with_reducible apply fmReceive_keeps
    | split

theorem execSysMessage_keeps {lv : Bool} (i : Nat) {s nx : State} (hx : execSysMessage i s = .next nx) :
    Keeps lv s nx := by
  unfold execSysMessage at hx
  obtain rfl := Host.Outcome.next.inj hx
  have kp := Keeps.refl (b := lv) s
  repeat' first
    | with_reducible assumption
    | (with_reducible refine Keeps.ite (fun _ => ?_) (fun _ => ?_))
    | (with_reducible refine takeInbox_keeps _ _ _ (by assumption) ?_)
    | with_reducible apply sysDrop_keeps
    | with_reducible apply fmReceive_keeps
    | split

theorem managerMessage_keeps {lv : Bool} {root s : State} (i code : Nat) (act : State → Bytes → State)
    (ha : ∀ s a, Keeps lv root s → Keeps lv root (act s a)) (kp : Keeps lv root s) :
    Keeps lv root (managerMessage s i code act) := by
  unfold managerMessage
  repeat' first
    | with_reducible assumption
    | (with_reducible refine Keeps.ite (fun _ => ?_) (fun _ => ?_))
    | (with_reducible refine takeInbox_keeps _ _ _ (by assumption) ?_)
    | with_reducible apply ha
    | with_reducible apply sysDrop_keeps
    | split

theorem execHoldPair_keeps {lv : Bool} (i : Nat) {s nx : State} (hx : execHoldPair i s = .next nx) :
    Keeps lv s nx := by
  unfold execHoldPair at hx
  obtain rfl := Host.Outcome.next.inj hx
  have kp := Keeps.refl (b := lv) s
  repeat' first
    | with_reducible assumption
    | (with_reducible refine Keeps.ite (fun _ => ?_) (fun _ => ?_))
    | with_reducible apply updRouter_keeps
    | with_reducible apply sysDrop_keeps
    | with_reducible apply managerMessage_keeps
    | (intro _ _)
    | (intro _)

theorem execResetPair_keeps {lv : Bool} (i : Nat) {s nx : State} (hx : execResetPair i s = .next nx) :
    Keeps lv s nx := by
  unfold execResetPair at hx
  obtain rfl := Host.Outcome.next.inj hx
  have kp := Keeps.refl (b := lv) s
  repeat' first
    | with_reducible assumption
    | (with_reducible refine Keeps.ite (fun _ => ?_) (fun _ => ?_))
    | with_reducible apply sysDrop_keeps
    | with_reducible apply resetPeer_keeps
    | with_reducible apply managerMessage_keeps
    | (intro _ _)
    | (intro _)

theorem execTeardown_keeps {lv : Bool} (i : Nat) {s nx : State} (hx : execTeardown i s = .next nx) :
    Keeps lv s nx := by
  unfold execTeardown at hx
  obtain rfl := Host.Outcome.next.inj hx
  have kp := Keeps.refl (b := lv) s
  dsimp only
  repeat' first
    | with_reducible assumption
    | with_reducible apply note_keeps
    | with_reducible apply fmMessage_keeps
    | with_reducible apply teardown_keeps
    | with_reducible apply managerMessage_keeps
    | (intro _ _)
    | (intro _)
    | split

theorem execRetrainPort_keeps {lv : Bool} (i : Nat) {s nx : State} (hx : execRetrainPort i s = .next nx) :
    Keeps lv s nx := by
  unfold execRetrainPort at hx
  obtain rfl := Host.Outcome.next.inj hx
  have kp := Keeps.refl (b := lv) s
  dsimp only
  repeat' first
    | with_reducible assumption
    | (with_reducible refine Keeps.ite (fun _ => ?_) (fun _ => ?_))
    | with_reducible apply updFabric_keeps
    | with_reducible apply linkEvent_keeps
    | with_reducible apply demand_keeps
    | with_reducible apply portDown_keeps
    | with_reducible apply startTraining_keeps
    | with_reducible apply sysDrop_keeps
    | with_reducible apply managerMessage_keeps
    | (intro _ _)
    | (intro _)

theorem execFmTransmit_keeps {lv : Bool} (p : Part) (entry : Bytes) {s nx : State} (hx : execFmTransmit p entry s = .next nx) :
    Keeps lv s nx := by
  unfold execFmTransmit at hx
  obtain rfl := Host.Outcome.next.inj hx
  have kp := Keeps.refl (b := lv) s
  dsimp only
  repeat' first
    | with_reducible assumption
    | (with_reducible refine Keeps.ite (fun _ => ?_) (fun _ => ?_))
    | with_reducible apply updPart_keeps
    | with_reducible apply sendPacket_keeps
    | with_reducible apply consumed_keeps
    | with_reducible apply sysDrop_keeps

end Sys2Proof.Machine
end

