-- ==== Sys2Proof/Laws/KeepsFinalize.lean ====
section
/-! SUPPORT. What the operations of Machine/Finalize.lean keep. -/

namespace Sys2Proof.Machine

open Sys2Proof

theorem execLoadFolio_keeps {lv : Bool} (p : Part) (q : Fin 16) {s nx : State} (hx : execLoadFolio p q s = .next nx) :
    Keeps lv s nx := by
  unfold execLoadFolio at hx
  obtain rfl := Host.Outcome.next.inj hx
  have kp := Keeps.refl (b := lv) s
  repeat' first
    | with_reducible assumption
    | (with_reducible refine Keeps.ite (fun _ => ?_) (fun _ => ?_))
    | with_reducible apply finish_keeps
    | with_reducible apply begun_keeps
    | with_reducible apply admitLong_keeps
    | split

theorem rejectLoad_keeps {lv : Bool} {root s : State} (o : LongOp) (f : Flaw) (kp : Keeps lv root s) :
    Keeps lv root (rejectLoad s o f) := by
  unfold rejectLoad
  dsimp only
  repeat' first
    | with_reducible assumption
    | (with_reducible refine Keeps.ite (fun _ => ?_) (fun _ => ?_))
    | with_reducible apply drawFree_keeps
    | with_reducible apply note_keeps
    | with_reducible apply endLong_keeps

theorem startLoad_keeps {lv : Bool} {root s : State} (o : LongOp) (l : LoadOp) (image : Bytes) (kp : Keeps lv root s) :
    Keeps lv root (startLoad s o l image) := by
  unfold startLoad
  repeat' first
    | with_reducible assumption
    | (with_reducible refine Keeps.ite (fun _ => ?_) (fun _ => ?_))
    | with_reducible apply updLong_keeps
    | with_reducible apply rejectLoad_keeps

theorem execFinalizationStart_keeps {lv : Bool} (h : Handle) (image : Bytes) {s nx : State} (hx : execFinalizationStart h image s = .next nx) :
    Keeps lv s nx := by
  unfold execFinalizationStart at hx
  obtain rfl := Host.Outcome.next.inj hx
  have kp := Keeps.refl (b := lv) s
  repeat' first
    | with_reducible assumption
    | (with_reducible refine Keeps.ite (fun _ => ?_) (fun _ => ?_))
    | with_reducible apply startLoad_keeps
    | split

theorem installFolio_keeps {lv : Bool} {root s : State} (o : LongOp) (l : LoadOp) (e : LoadEnv) (kp : Keeps lv root s) :
    Keeps lv root (installFolio s o l e) := by
  unfold installFolio
  dsimp only
  repeat' first
    | with_reducible assumption
    | (intro _ _)
    | with_reducible apply Memory.writeBytes_wf
    | with_reducible apply initTensors_wf
    | with_reducible apply updHost_keeps
    | with_reducible apply updLong_keeps
    | with_reducible apply note_keeps
    | with_reducible apply endLong_keeps
    | fail_if_no_progress (with_reducible refine Keeps.upd ?_ rfl rfl rfl rfl rfl rfl rfl rfl rfl rfl rfl rfl rfl rfl rfl rfl rfl)
    | (with_reducible refine Keeps.updM ?_ rfl rfl rfl rfl rfl rfl rfl rfl rfl rfl rfl rfl (fun _ => ?_) rfl rfl rfl rfl)

theorem completeLoad_keeps {lv : Bool} {root s : State} (o : LongOp) (l : LoadOp) (kp : Keeps lv root s) :
    Keeps lv root (completeLoad s o l) := by
  unfold completeLoad
  dsimp only
  repeat' first
    | with_reducible assumption
    | with_reducible apply rejectLoad_keeps
    | with_reducible apply installFolio_keeps
    | with_reducible apply endLong_keeps
    | (with_reducible refine Keeps.ite (fun _ => ?_) (fun _ => ?_))
    | split

theorem execFinalizationComplete_keeps {lv : Bool} (h : Handle) {s nx : State} (hx : execFinalizationComplete h s = .next nx) :
    Keeps lv s nx := by
  unfold execFinalizationComplete at hx
  obtain rfl := Host.Outcome.next.inj hx
  have kp := Keeps.refl (b := lv) s
  repeat' first
    | with_reducible assumption
    | (with_reducible refine Keeps.ite (fun _ => ?_) (fun _ => ?_))
    | with_reducible apply completeLoad_keeps
    | split

theorem execFinalizationTimeout_keeps {lv : Bool} (h : Handle) {s nx : State} (hx : execFinalizationTimeout h s = .next nx) :
    Keeps lv s nx := by
  unfold execFinalizationTimeout at hx
  obtain rfl := Host.Outcome.next.inj hx
  have kp := Keeps.refl (b := lv) s
  repeat' first
    | with_reducible assumption
    | (with_reducible refine Keeps.ite (fun _ => ?_) (fun _ => ?_))
    | with_reducible apply rejectLoad_keeps
    | split

end Sys2Proof.Machine
end

