-- ==== Sys2Proof/Laws/KeepsCheckpoint.lean ====
section
/-! SUPPORT. What the operations of Machine/Checkpoint.lean keep. -/

namespace Sys2Proof.Machine

open Sys2Proof

theorem updCkpt_keeps {lv : Bool} {root s : State} (h : Handle) (f : CkptOp → CkptOp) (kp : Keeps lv root s) :
    Keeps lv root (updCkpt s h f) := by
  unfold updCkpt
  repeat' first
    | with_reducible assumption
    | with_reducible apply updLong_keeps

theorem admitWrite_keeps {lv : Bool} {root s : State} (c : Cmd) (f : Folio) (kp : Keeps lv root s) :
    Keeps lv root (admitWrite s c f) := by
  unfold admitWrite
  dsimp only
  repeat' first
    | with_reducible assumption
    | (with_reducible refine Keeps.ite (fun _ => ?_) (fun _ => ?_))
    | with_reducible apply updFolio_keeps
    | with_reducible apply sendToRank_keeps
    | with_reducible apply admitLong_keeps

theorem execCheckpointWrite_keeps {lv : Bool} (p : Part) (q : Fin 16) {s nx : State} (hx : execCheckpointWrite p q s = .next nx) :
    Keeps lv s nx := by
  unfold execCheckpointWrite at hx
  obtain rfl := Host.Outcome.next.inj hx
  have kp := Keeps.refl (b := lv) s
  dsimp only
  repeat' first
    | with_reducible assumption
    | (with_reducible refine Keeps.ite (fun _ => ?_) (fun _ => ?_))
    | with_reducible apply finish_keeps
    | with_reducible apply begun_keeps
    | with_reducible apply admitWrite_keeps
    | split

theorem takeImage_keeps {lv : Bool} {root s : State} (o : LongOp) (f : Folio) (kp : Keeps lv root s) :
    Keeps lv root (takeImage s o f) := by
  unfold takeImage
  dsimp only
  repeat' first
    | with_reducible assumption
    | (with_reducible refine Keeps.ite (fun _ => ?_) (fun _ => ?_))
    | with_reducible apply updLong_keeps
    | with_reducible apply updFolio_keeps
    | with_reducible apply updRun_keeps
    | with_reducible apply updCkpt_keeps
    | split

theorem execCheckpointBoundary_keeps {lv : Bool} (h : Handle) {s nx : State} (hx : execCheckpointBoundary h s = .next nx) :
    Keeps lv s nx := by
  unfold execCheckpointBoundary at hx
  obtain rfl := Host.Outcome.next.inj hx
  have kp := Keeps.refl (b := lv) s
  repeat' first
    | with_reducible assumption
    | (with_reducible refine Keeps.ite (fun _ => ?_) (fun _ => ?_))
    | with_reducible apply takeImage_keeps
    | split

theorem drainFuel_keeps {lv : Bool} {root : State} : ∀ (n : Nat) {s : State} (h : Handle), Keeps lv root s →
    Keeps lv root (drainFuel n s h)
  | 0, _, _, kp => kp
  | n + 1, s, h, kp => by
    unfold drainFuel
    dsimp only
    repeat' first
      | with_reducible assumption
      | (with_reducible refine Keeps.ite (fun _ => ?_) (fun _ => ?_))
      | with_reducible apply drainFuel_keeps
      | with_reducible apply sendToRank_keeps
      | with_reducible apply updLong_keeps
      | with_reducible apply updCkpt_keeps
      | split

theorem drainBuddy_keeps {lv : Bool} {root s : State} (h : Handle) (kp : Keeps lv root s) :
    Keeps lv root (drainBuddy s h) := by
  unfold drainBuddy
  repeat' first
    | with_reducible assumption
    | with_reducible apply drainFuel_keeps
    | split

theorem copyEnds_keeps {lv : Bool} {root s : State} (o : LongOp) (k : CkptOp) (kp : Keeps lv root s) :
    Keeps lv root (copyEnds s o k) := by
  unfold copyEnds
  dsimp only
  repeat' first
    | with_reducible assumption
    | (with_reducible refine Keeps.ite (fun _ => ?_) (fun _ => ?_))
    | with_reducible apply updLong_keeps
    | with_reducible apply updFolio_keeps
    | with_reducible apply endLong_keeps
    | with_reducible apply releaseCkptHold_keeps
    | with_reducible apply updCkpt_keeps
    | with_reducible apply drainBuddy_keeps

theorem execSnapshotCopyDone_keeps {lv : Bool} (h : Handle) {s nx : State} (hx : execSnapshotCopyDone h s = .next nx) :
    Keeps lv s nx := by
  unfold execSnapshotCopyDone at hx
  obtain rfl := Host.Outcome.next.inj hx
  have kp := Keeps.refl (b := lv) s
  repeat' first
    | with_reducible assumption
    | (with_reducible refine Keeps.ite (fun _ => ?_) (fun _ => ?_))
    | with_reducible apply failJob_keeps
    | with_reducible apply copyEnds_keeps
    | split

theorem execCheckpointDrainDone_keeps {lv : Bool} (h : Handle) {s nx : State} (hx : execCheckpointDrainDone h s = .next nx) :
    Keeps lv s nx := by
  unfold execCheckpointDrainDone at hx
  obtain rfl := Host.Outcome.next.inj hx
  have kp := Keeps.refl (b := lv) s
  dsimp only
  repeat' first
    | with_reducible assumption
    | (intro _ _)
    | with_reducible apply Memory.writeBytes_wf
    | with_reducible apply Memory.write_wf
    | (with_reducible refine Keeps.ite (fun _ => ?_) (fun _ => ?_))
    | with_reducible apply updHost_keeps
    | with_reducible apply updLong_keeps
    | with_reducible apply endLong_keeps
    | split

theorem admitRead_keeps {lv : Bool} {root s : State} (c : Cmd) (f : Folio) (kp : Keeps lv root s) :
    Keeps lv root (admitRead s c f) := by
  unfold admitRead
  dsimp only
  repeat' first
    | with_reducible assumption
    | (with_reducible refine Keeps.ite (fun _ => ?_) (fun _ => ?_))
    | with_reducible apply updLong_keeps
    | with_reducible apply sendToRank_keeps
    | with_reducible apply admitLong_keeps

theorem execCheckpointRead_keeps {lv : Bool} (p : Part) (q : Fin 16) {s nx : State} (hx : execCheckpointRead p q s = .next nx) :
    Keeps lv s nx := by
  unfold execCheckpointRead at hx
  obtain rfl := Host.Outcome.next.inj hx
  have kp := Keeps.refl (b := lv) s
  dsimp only
  repeat' first
    | with_reducible assumption
    | (with_reducible refine Keeps.ite (fun _ => ?_) (fun _ => ?_))
    | with_reducible apply finish_keeps
    | with_reducible apply begun_keeps
    | with_reducible apply admitRead_keeps
    | split

theorem readImageDone_keeps {lv : Bool} {root s : State} (o : LongOp) (k : CkptOp) (img : Bytes) (kp : Keeps lv root s) :
    Keeps lv root (readImageDone s o k img) := by
  unfold readImageDone
  repeat' first
    | with_reducible assumption
    | with_reducible apply updLong_keeps
    | with_reducible apply endLong_keeps
    | with_reducible apply ckptRestore_keeps
    | split

theorem execCheckpointReadDone_keeps {lv : Bool} (h : Handle) (image : Bytes) {s nx : State} (hx : execCheckpointReadDone h image s = .next nx) :
    Keeps lv s nx := by
  unfold execCheckpointReadDone at hx
  obtain rfl := Host.Outcome.next.inj hx
  have kp := Keeps.refl (b := lv) s
  repeat' first
    | with_reducible assumption
    | (with_reducible refine Keeps.ite (fun _ => ?_) (fun _ => ?_))
    | with_reducible apply endLong_keeps
    | with_reducible apply readImageDone_keeps
    | split

theorem takeCkpt_keeps {lv : Bool} {root s : State} (i msg : Nat) {k : Packet} {t : State} (hq : takeCkpt s i msg = some (k, t))
    (kp : Keeps lv root s) : Keeps lv root t := by
  unfold takeCkpt at hq
  exact takeInbox_keeps _ _ _ (Option.filter_eq_some_iff.mp hq).1 kp

theorem execCkptData_keeps {lv : Bool} (i : Nat) {s nx : State} (hx : execCkptData i s = .next nx) :
    Keeps lv s nx := by
  unfold execCkptData at hx
  obtain rfl := Host.Outcome.next.inj hx
  have kp := Keeps.refl (b := lv) s
  dsimp only
  repeat' first
    | with_reducible assumption
    | (with_reducible refine Keeps.ite (fun _ => ?_) (fun _ => ?_))
    | (with_reducible refine takeCkpt_keeps _ _ (by assumption) ?_)
    | with_reducible apply updFolio_keeps
    | with_reducible apply staleDrop_keeps
    | with_reducible apply sendBack_keeps
    | with_reducible apply updCkpt_keeps
    | split

theorem serveFuel_keeps {lv : Bool} {root : State} : ∀ (n : Nat) {s : State} (x : PullServe), Keeps lv root s →
    Keeps lv root (serveFuel n s x).1
  | 0, _, _, kp => kp
  | n + 1, s, x, kp => by
    unfold serveFuel
    split
    · exact kp
    · split
      · exact sendBack_keeps _ _ kp
      · split
        · exact kp
        · exact serveFuel_keeps n _ (sendBack_keeps _ _ kp)

theorem servePull_keeps {lv : Bool} {root s : State} (x : PullServe) (kp : Keeps lv root s) :
    Keeps lv root (servePull s x) := by
  unfold servePull
  dsimp only
  repeat' first
    | with_reducible assumption
    | (with_reducible refine Keeps.ite (fun _ => ?_) (fun _ => ?_))
    | with_reducible apply serveFuel_keeps
    | fail_if_no_progress (with_reducible refine Keeps.upd ?_ rfl rfl rfl rfl rfl rfl rfl rfl rfl rfl rfl rfl rfl rfl rfl rfl rfl)

theorem execCkptCredit_keeps {lv : Bool} (i : Nat) {s nx : State} (hx : execCkptCredit i s = .next nx) :
    Keeps lv s nx := by
  unfold execCkptCredit at hx
  obtain rfl := Host.Outcome.next.inj hx
  have kp := Keeps.refl (b := lv) s
  dsimp only
  repeat' first
    | with_reducible assumption
    | (with_reducible refine Keeps.ite (fun _ => ?_) (fun _ => ?_))
    | (with_reducible refine takeCkpt_keeps _ _ (by assumption) ?_)
    | with_reducible apply staleDrop_keeps
    | with_reducible apply updCkpt_keeps
    | with_reducible apply drainBuddy_keeps
    | with_reducible apply servePull_keeps
    | split
    | fail_if_no_progress (with_reducible refine Keeps.upd ?_ rfl rfl rfl rfl rfl rfl rfl rfl rfl rfl rfl rfl rfl rfl rfl rfl rfl)

theorem storeEnds_keeps {lv : Bool} {root s : State} (f : Folio) (b : BuddyStore) (k : Packet) (kp : Keeps lv root s) :
    Keeps lv root (storeEnds s f b k) := by
  unfold storeEnds
  dsimp only
  repeat' first
    | with_reducible assumption
    | (with_reducible refine Keeps.ite (fun _ => ?_) (fun _ => ?_))
    | with_reducible apply updFolio_keeps
    | with_reducible apply sendBack_keeps

theorem execCkptEnd_keeps {lv : Bool} (i : Nat) {s nx : State} (hx : execCkptEnd i s = .next nx) :
    Keeps lv s nx := by
  unfold execCkptEnd at hx
  obtain rfl := Host.Outcome.next.inj hx
  have kp := Keeps.refl (b := lv) s
  dsimp only
  repeat' first
    | with_reducible assumption
    | (with_reducible refine Keeps.ite (fun _ => ?_) (fun _ => ?_))
    | (with_reducible refine takeCkpt_keeps _ _ (by assumption) ?_)
    | with_reducible apply staleDrop_keeps
    | with_reducible apply endLong_keeps
    | with_reducible apply readImageDone_keeps
    | with_reducible apply storeEnds_keeps
    | split

theorem execCkptPull_keeps {lv : Bool} (i : Nat) {s nx : State} (hx : execCkptPull i s = .next nx) :
    Keeps lv s nx := by
  unfold execCkptPull at hx
  obtain rfl := Host.Outcome.next.inj hx
  have kp := Keeps.refl (b := lv) s
  repeat' first
    | with_reducible assumption
    | (with_reducible refine Keeps.ite (fun _ => ?_) (fun _ => ?_))
    | (with_reducible refine takeCkpt_keeps _ _ (by assumption) ?_)
    | with_reducible apply staleDrop_keeps
    | with_reducible apply sendBack_keeps
    | with_reducible apply servePull_keeps
    | split

theorem execCkptDone_keeps {lv : Bool} (i : Nat) {s nx : State} (hx : execCkptDone i s = .next nx) :
    Keeps lv s nx := by
  unfold execCkptDone at hx
  obtain rfl := Host.Outcome.next.inj hx
  have kp := Keeps.refl (b := lv) s
  dsimp only
  repeat' first
    | with_reducible assumption
    | (with_reducible refine Keeps.ite (fun _ => ?_) (fun _ => ?_))
    | (with_reducible refine takeCkpt_keeps _ _ (by assumption) ?_)
    | with_reducible apply errorNote_keeps
    | with_reducible apply staleDrop_keeps
    | with_reducible apply endLong_keeps
    | split

end Sys2Proof.Machine
end

