-- ==== Sys2Proof/Laws/KeepsMapping.lean ====
section
/-! SUPPORT. What the operations of Machine/Mapping.lean keep. -/

namespace Sys2Proof.Machine

open Sys2Proof

theorem freeDead_keeps {lv : Bool} {root s : State} (j : Job) (gen : Word16) (kp : Keeps lv root s) :
    Keeps lv root (freeDead s j gen) := by
  unfold freeDead
  repeat' first
    | with_reducible assumption
    | fail_if_no_progress (with_reducible refine Keeps.upd ?_ rfl rfl rfl rfl rfl rfl rfl rfl rfl rfl rfl rfl rfl rfl rfl rfl rfl)

theorem adoptGen_keeps {lv : Bool} {root s : State} (p : Part) (gen : Word16) (kp : Keeps lv root s) :
    Keeps lv root (adoptGen s p gen) := by
  unfold adoptGen
  repeat' first
    | with_reducible assumption
    | with_reducible apply updPart_keeps
    | with_reducible apply freeDead_keeps
    | split

theorem reshardWith_keeps {lv : Bool} {root s : State} (h : Handle) (f : ReshardOp → ReshardOp) (kp : Keeps lv root s) :
    Keeps lv root (reshardWith s h f) := by
  unfold reshardWith
  repeat' first
    | with_reducible assumption
    | with_reducible apply updLong_keeps

theorem zeroUnmatched_keeps {lv : Bool} {root s : State} (a b : Folio) (kp : Keeps lv root s) :
    Keeps lv root (zeroUnmatched s a b) := by
  unfold zeroUnmatched
  dsimp only
  repeat' first
    | with_reducible assumption
    | (intro _ _)
    | with_reducible apply Memory.zero_wf
    | (with_reducible refine Memory.foldl_wf (fun _ _ _ => ?_) ?_)
    | (with_reducible refine Keeps.ite (fun _ => ?_) (fun _ => ?_))
    | (with_reducible refine Keeps.foldl_fst (fun _ _ _ => ?_) ?_)
    | (with_reducible refine Keeps.foldl (fun _ _ _ => ?_) ?_)
    | with_reducible apply updMem_keeps

theorem beginReshard_keeps {lv : Bool} {root s : State} (c : Cmd) (a b : Folio) (kp : Keeps lv root s) :
    Keeps lv root (beginReshard s c a b) := by
  unfold beginReshard
  dsimp only
  repeat' first
    | with_reducible assumption
    | (with_reducible refine Keeps.foldl_fst (fun _ _ _ => ?_) ?_)
    | (with_reducible refine Keeps.foldl (fun _ _ _ => ?_) ?_)
    | with_reducible apply updLong_keeps
    | with_reducible apply sendToRank_keeps
    | with_reducible apply admitLong_keeps
    | with_reducible apply settleReshard_keeps
    | with_reducible apply adoptGen_keeps
    | with_reducible apply zeroUnmatched_keeps

theorem execReshard_keeps {lv : Bool} (p : Part) (q : Fin 16) {s nx : State} (hx : execReshard p q s = .next nx) :
    Keeps lv s nx := by
  unfold execReshard at hx
  obtain rfl := Host.Outcome.next.inj hx
  have kp := Keeps.refl (b := lv) s
  dsimp only
  repeat' first
    | with_reducible assumption
    | (with_reducible refine Keeps.ite (fun _ => ?_) (fun _ => ?_))
    | with_reducible apply finish_keeps
    | with_reducible apply begun_keeps
    | with_reducible apply beginReshard_keeps
    | split

theorem finishBoth_keeps {lv : Bool} {root s : State} (u v status reason : Nat) (kp : Keeps lv root s) :
    Keeps lv root (finishBoth s u v status reason) := by
  unfold finishBoth
  repeat' first
    | with_reducible assumption
    | with_reducible apply finish_keeps

theorem pairUp_keeps {lv : Bool} {root s0 : State} (uid : Nat) (f : Folio) (mode : Nat) (w : PairWait) (g : Folio) (kp : Keeps lv root s0) :
    Keeps lv root (pairUp s0 uid f mode w g) := by
  unfold pairUp
  dsimp only
  repeat' first
    | with_reducible assumption
    | (with_reducible refine Keeps.ite (fun _ => ?_) (fun _ => ?_))
    | with_reducible apply finishBoth_keeps
    | fail_if_no_progress (with_reducible refine Keeps.upd ?_ rfl rfl rfl rfl rfl rfl rfl rfl rfl rfl rfl rfl rfl rfl rfl rfl rfl)

theorem pairWith_keeps {lv : Bool} {root s : State} (c : Cmd) (f : Folio) (kp : Keeps lv root s) :
    Keeps lv root (pairWith s c f) := by
  unfold pairWith
  dsimp only
  repeat' first
    | with_reducible assumption
    | (with_reducible refine Keeps.ite (fun _ => ?_) (fun _ => ?_))
    | with_reducible apply finish_keeps
    | with_reducible apply begun_keeps
    | with_reducible apply pairUp_keeps
    | split
    | fail_if_no_progress (with_reducible refine Keeps.upd ?_ rfl rfl rfl rfl rfl rfl rfl rfl rfl rfl rfl rfl rfl rfl rfl rfl rfl)

theorem execPair_keeps {lv : Bool} (p : Part) (q : Fin 16) {s nx : State} (hx : execPair p q s = .next nx) :
    Keeps lv s nx := by
  unfold execPair at hx
  obtain rfl := Host.Outcome.next.inj hx
  have kp := Keeps.refl (b := lv) s
  repeat' first
    | with_reducible assumption
    | (with_reducible refine Keeps.ite (fun _ => ?_) (fun _ => ?_))
    | with_reducible apply finish_keeps
    | with_reducible apply begun_keeps
    | with_reducible apply pairWith_keeps
    | split

theorem unpairFolio_keeps {lv : Bool} {root s : State} (uid : Nat) (h : Handle) (kp : Keeps lv root s) :
    Keeps lv root (unpairFolio s uid h) := by
  unfold unpairFolio
  repeat' first
    | with_reducible assumption
    | (with_reducible refine Keeps.ite (fun _ => ?_) (fun _ => ?_))
    | with_reducible apply finish_keeps
    | split
    | fail_if_no_progress (with_reducible refine Keeps.upd ?_ rfl rfl rfl rfl rfl rfl rfl rfl rfl rfl rfl rfl rfl rfl rfl rfl rfl)

theorem execUnpair_keeps {lv : Bool} (p : Part) (q : Fin 16) {s nx : State} (hx : execUnpair p q s = .next nx) :
    Keeps lv s nx := by
  unfold execUnpair at hx
  obtain rfl := Host.Outcome.next.inj hx
  have kp := Keeps.refl (b := lv) s
  repeat' first
    | with_reducible assumption
    | with_reducible apply finish_keeps
    | with_reducible apply begun_keeps
    | with_reducible apply unpairFolio_keeps
    | split

end Sys2Proof.Machine
end

