-- ==== Sys2Proof/Laws/KeepsBoot.lean ====
section
/-! SUPPORT. What the operations of Machine/Boot.lean keep. -/

namespace Sys2Proof.Machine

open Sys2Proof

theorem bootFail_keeps {root s : State} (code detail : Nat) (st : Stage) (kp : Keeps false root s) :
    Keeps false root (bootFail s code detail st) := by
  unfold bootFail
  dsimp only
  repeat' first
    | with_reducible assumption
    | with_reducible apply note_keeps
    | fail_if_no_progress (with_reducible refine Keeps.upd ?_ rfl rfl rfl rfl rfl rfl rfl rfl rfl rfl rfl rfl rfl rfl rfl rfl rfl)
    | fail_if_no_progress (with_reducible refine Keeps.updF ?_ rfl rfl rfl rfl rfl rfl rfl rfl rfl rfl rfl)

theorem beatEnds_keeps {root s : State} (n : Nat) (kp : Keeps false root s) :
    Keeps false root (beatEnds s n) := by
  unfold beatEnds
  repeat' first
    | with_reducible assumption
    | fail_if_no_progress (with_reducible refine Keeps.upd ?_ rfl rfl rfl rfl rfl rfl rfl rfl rfl rfl rfl rfl rfl rfl rfl rfl rfl)
    | fail_if_no_progress (with_reducible refine Keeps.updF ?_ rfl rfl rfl rfl rfl rfl rfl rfl rfl rfl rfl)

theorem loadPolicy_keeps {lv : Bool} {root s : State} (p : Bytes) (kp : Keeps lv root s) : Keeps lv root (loadPolicy s p) := by
  unfold loadPolicy
  extract_lets y
  refine setPower_keeps kp _ id (fun h q => ?_)
  have k := h q
  simp only [Fin.getElem_fin, Vector.getElem_ofFn, QuadClock.ok] at k ⊢
  exact k

theorem training_keeps {root s : State} (f : Port → Bool) (kp : Keeps false root s) :
    Keeps false root { s with ports := Vector.ofFn (fun p => { s.ports[p] with training := f p }) } :=
  kp.trans {
    pending := rfl
    silicon := rfl
    pwrGood := rfl
    timeBase := rfl
    fatal := id
    tripped := id
    head := Nat.le_refl _
    blotter := id
    clocks := id
    range := id
    lock := fun _ => rfl
    mem := fun h => ⟨h.1, fun p => by
      have k := h.2 p
      simp only [Fin.getElem_fin, Vector.getElem_ofFn] at k ⊢
      exact k⟩
    held := fun h => absurd h (by decide) }

theorem beat6_keeps {root s : State} (r : Bytes) (kp : Keeps false root s) : Keeps false root (beat6 s r) := by
  unfold beat6
  split
  · exact bootFail_keeps _ _ _ kp
  · exact training_keeps (s := beatEnds s 6) _ (beatEnds_keeps _ kp)

theorem beat5_keeps {root s : State} (r seed : Bytes) (kp : Keeps false root s) :
    Keeps false root (beat5 s r seed) := by
  unfold beat5
  dsimp only
  repeat' first
    | with_reducible assumption
    | (with_reducible refine Keeps.ite (fun _ => ?_) (fun _ => ?_))
    | with_reducible apply bootFail_keeps
    | with_reducible apply beatEnds_keeps
    | with_reducible apply loadPolicy_keeps
    | with_reducible apply beat6_keeps
    | fail_if_no_progress (with_reducible refine Keeps.upd ?_ rfl rfl rfl rfl rfl rfl rfl rfl rfl rfl rfl rfl rfl rfl rfl rfl rfl)
    | fail_if_no_progress (with_reducible refine Keeps.updF ?_ rfl rfl rfl rfl rfl rfl rfl rfl rfl rfl rfl)

theorem beat3_keeps {root s : State}  (kp : Keeps false root s) :
    Keeps false root (beat3 s) := by
  unfold beat3
  repeat' first
    | with_reducible assumption
    | (with_reducible refine Keeps.ite (fun _ => ?_) (fun _ => ?_))
    | with_reducible apply bootFail_keeps
    | with_reducible apply beatEnds_keeps
    | with_reducible apply beat5_keeps
    | split
    | fail_if_no_progress (with_reducible refine Keeps.upd ?_ rfl rfl rfl rfl rfl rfl rfl rfl rfl rfl rfl rfl rfl rfl rfl rfl rfl)
    | fail_if_no_progress (with_reducible refine Keeps.updF ?_ rfl rfl rfl rfl rfl rfl rfl rfl rfl rfl rfl)

theorem bootFromBeat2_keeps {root s : State}  (kp : Keeps false root s) :
    Keeps false root (bootFromBeat2 s) := by
  unfold bootFromBeat2
  dsimp only
  repeat' first
    | with_reducible assumption
    | (with_reducible refine Keeps.ite (fun _ => ?_) (fun _ => ?_))
    | with_reducible apply note_keeps
    | with_reducible apply beatEnds_keeps
    | with_reducible apply beat3_keeps
    | fail_if_no_progress (with_reducible refine Keeps.upd ?_ rfl rfl rfl rfl rfl rfl rfl rfl rfl rfl rfl rfl rfl rfl rfl rfl rfl)
    | fail_if_no_progress (with_reducible refine Keeps.updF ?_ rfl rfl rfl rfl rfl rfl rfl rfl rfl rfl rfl)

theorem execModResetNRelease_keeps  {s nx : State} (hx : execModResetNRelease s = .next nx) :
    Keeps false s nx := by
  unfold execModResetNRelease at hx
  obtain rfl := Host.Outcome.next.inj hx
  have kp := Keeps.refl (b := false) s
  dsimp only
  repeat' first
    | with_reducible assumption
    | (with_reducible refine Keeps.ite (fun _ => ?_) (fun _ => ?_))
    | with_reducible apply bootFromBeat2_keeps
    | fail_if_no_progress (with_reducible refine Keeps.upd ?_ rfl rfl rfl rfl rfl rfl rfl rfl rfl rfl rfl rfl rfl rfl rfl rfl rfl)
    | fail_if_no_progress (with_reducible refine Keeps.updF ?_ rfl rfl rfl rfl rfl rfl rfl rfl rfl rfl rfl)

theorem execImageFetchDone_keeps (image : Option Bytes) {s nx : State} (hx : execImageFetchDone image s = .next nx) :
    Keeps false s nx := by
  unfold execImageFetchDone at hx
  obtain rfl := Host.Outcome.next.inj hx
  have kp := Keeps.refl (b := false) s
  repeat' first
    | with_reducible assumption
    | (with_reducible refine Keeps.ite (fun _ => ?_) (fun _ => ?_))
    | with_reducible apply bootFail_keeps
    | split
    | fail_if_no_progress (with_reducible refine Keeps.upd ?_ rfl rfl rfl rfl rfl rfl rfl rfl rfl rfl rfl rfl rfl rfl rfl rfl rfl)
    | fail_if_no_progress (with_reducible refine Keeps.updF ?_ rfl rfl rfl rfl rfl rfl rfl rfl rfl rfl rfl)

theorem execImageVerifyDone_keeps  {s nx : State} (hx : execImageVerifyDone s = .next nx) :
    Keeps false s nx := by
  unfold execImageVerifyDone at hx
  obtain rfl := Host.Outcome.next.inj hx
  have kp := Keeps.refl (b := false) s
  dsimp only
  repeat' first
    | with_reducible assumption
    | (with_reducible refine Keeps.ite (fun _ => ?_) (fun _ => ?_))
    | with_reducible apply note_keeps
    | with_reducible apply bootFail_keeps
    | split
    | fail_if_no_progress (with_reducible refine Keeps.upd ?_ rfl rfl rfl rfl rfl rfl rfl rfl rfl rfl rfl rfl rfl rfl rfl rfl rfl)
    | fail_if_no_progress (with_reducible refine Keeps.updF ?_ rfl rfl rfl rfl rfl rfl rfl rfl rfl rfl rfl)

theorem bootReady_keeps {root s : State} (kp : Keeps false root s) : Keeps false root (bootReady s) := by
  unfold bootReady
  dsimp only
  refine offerUnowned_keeps _ (Keeps.foldl (fun _ _ h => startTraining_keeps _ h) ?_)
  with_reducible refine Keeps.updF (setMem_keeps kp Memory.empty (fun _ => rfl)) rfl rfl rfl rfl rfl rfl rfl rfl rfl rfl rfl

theorem execBootReady_keeps (how : BootEnd) {s nx : State} (hx : execBootReady how s = .next nx) :
    Keeps false s nx := by
  unfold execBootReady at hx
  obtain rfl := Host.Outcome.next.inj hx
  have kp := Keeps.refl (b := false) s
  repeat' first
    | with_reducible assumption
    | (with_reducible refine Keeps.ite (fun _ => ?_) (fun _ => ?_))
    | with_reducible apply bootFail_keeps
    | with_reducible apply bootReady_keeps
    | split
    | fail_if_no_progress (with_reducible refine Keeps.upd ?_ rfl rfl rfl rfl rfl rfl rfl rfl rfl rfl rfl rfl rfl rfl rfl rfl rfl)

end Sys2Proof.Machine
end

