-- ==== Sys2Proof/Laws/KeepsHostPort.lean ====
section
/-! SUPPORT. What the operations of Machine/HostPort.lean keep. -/

namespace Sys2Proof.Machine

open Sys2Proof

theorem beginTraining_keeps {lv : Bool} {root s : State} (port : Port) (kp : Keeps lv root s) :
    Keeps lv root (beginTraining s port) := by
  unfold beginTraining
  repeat' first
    | with_reducible assumption
    | (intro _; with_reducible rfl)
    | (with_reducible refine Keeps.ite (fun _ => ?_) (fun _ => ?_))
    | with_reducible apply updPort_keeps
    | with_reducible apply demand_keeps

theorem reportHostReset_keeps {lv : Bool} {root s : State} (port : Port) (p : Part) (kp : Keeps lv root s) :
    Keeps lv root (reportHostReset s port p) := by
  unfold reportHostReset
  dsimp only
  repeat' first
    | with_reducible assumption
    | (with_reducible refine Keeps.ite (fun _ => ?_) (fun _ => ?_))
    | with_reducible apply updPart_keeps
    | with_reducible apply bump_keeps
    | with_reducible apply freeze_keeps
    | with_reducible apply fmMessage_keeps
    | with_reducible apply errorNote_keeps
    | split
    | fail_if_no_progress (with_reducible refine Keeps.upd ?_ rfl rfl rfl rfl rfl rfl rfl rfl rfl rfl rfl rfl rfl rfl rfl rfl rfl)

theorem cancelSilent_keeps {lv : Bool} {root s : State} (o : LongOp) (kp : Keeps lv root s) :
    Keeps lv root (cancelSilent s o) := by
  unfold cancelSilent
  dsimp only
  repeat' first
    | with_reducible assumption
    | (with_reducible refine Keeps.ite (fun _ => ?_) (fun _ => ?_))
    | with_reducible apply updLong_keeps
    | with_reducible apply cancelLive_keeps
    | split

theorem stopPartition_keeps {lv : Bool} {root s : State} (p : Part) (kp : Keeps lv root s) :
    Keeps lv root (stopPartition s p) := by
  unfold stopPartition
  dsimp only
  repeat' first
    | with_reducible assumption
    | (with_reducible refine Keeps.foldl (fun _ _ _ => ?_) ?_)
    | with_reducible apply abortCopy_keeps
    | with_reducible apply cancelSilent_keeps
    | fail_if_no_progress (with_reducible refine Keeps.upd ?_ rfl rfl rfl rfl rfl rfl rfl rfl rfl rfl rfl rfl rfl rfl rfl rfl rfl)

theorem resetPartition_keeps {lv : Bool} {root s : State} (port : Port) (p : Part) (kp : Keeps lv root s) :
    Keeps lv root (resetPartition s port p) := by
  unfold resetPartition
  repeat' first
    | with_reducible assumption
    | with_reducible apply settleReset_keeps
    | with_reducible apply reportHostReset_keeps
    | with_reducible apply stopPartition_keeps

theorem resetPortRegs_keeps {lv : Bool} {root s : State} (port : Port) (kp : Keeps lv root s) :
    Keeps lv root (resetPortRegs s port) := by
  unfold resetPortRegs
  dsimp only
  repeat' first
    | with_reducible assumption
    | (intro _; with_reducible rfl)
    | (with_reducible refine Keeps.foldl_fst (fun _ _ _ => ?_) ?_)
    | (with_reducible refine Keeps.foldl (fun _ _ _ => ?_) ?_)
    | with_reducible apply updPort_keeps
    | with_reducible apply updPart_keeps
    | fail_if_no_progress (with_reducible refine Keeps.upd ?_ rfl rfl rfl rfl rfl rfl rfl rfl rfl rfl rfl rfl rfl rfl rfl rfl rfl)

theorem resetLink_keeps {root s : State} (port : Port) (kind : PortResetKind) (kp : Keeps false root s) :
    Keeps false root (resetLink s port kind) := by
  unfold resetLink
  dsimp only
  repeat' first
    | with_reducible assumption
    | (intro _; with_reducible rfl)
    | with_reducible apply updPort_keeps
    | split
    | fail_if_no_progress (with_reducible refine Keeps.upd ?_ rfl rfl rfl rfl rfl rfl rfl rfl rfl rfl rfl rfl rfl rfl rfl rfl rfl)
    | fail_if_no_progress (with_reducible refine Keeps.updF ?_ rfl rfl rfl rfl rfl rfl rfl rfl rfl rfl rfl)

theorem stopFetch_keeps {root s : State} (port : Port) (kp : Keeps false root s) :
    Keeps false root (stopFetch s port) := by
  unfold stopFetch
  repeat' first
    | with_reducible assumption
    | (with_reducible refine Keeps.ite (fun _ => ?_) (fun _ => ?_))
    | with_reducible apply bootFail_keeps

theorem execPortReset_keeps (port : Port) (kind : PortResetKind) {s nx : State} (hx : execPortReset port kind s = .next nx) :
    Keeps false s nx := by
  unfold execPortReset at hx
  obtain rfl := Host.Outcome.next.inj hx
  have kp := Keeps.refl (b := false) s
  dsimp only
  repeat' first
    | with_reducible assumption
    | (with_reducible refine Keeps.ite (fun _ => ?_) (fun _ => ?_))
    | (with_reducible refine Keeps.foldl (fun _ _ _ => ?_) ?_)
    | with_reducible apply resetPartition_keeps
    | with_reducible apply resetPortRegs_keeps
    | with_reducible apply resetLink_keeps
    | with_reducible apply stopFetch_keeps
    | fail_if_no_progress (with_reducible refine Keeps.upd ?_ rfl rfl rfl rfl rfl rfl rfl rfl rfl rfl rfl rfl rfl rfl rfl rfl rfl)
    | fail_if_no_progress (with_reducible refine Keeps.updF ?_ rfl rfl rfl rfl rfl rfl rfl rfl rfl rfl rfl)

theorem execPerst_keeps (port : Port) {s nx : State} (hx : execPerst port s = .next nx) :
    Keeps false s nx := by
  unfold execPerst at hx
  obtain rfl := Host.Outcome.next.inj hx
  have kp := Keeps.refl (b := false) s
  dsimp only
  repeat' first
    | with_reducible assumption
    | (with_reducible refine Keeps.ite (fun _ => ?_) (fun _ => ?_))
    | with_reducible apply beginTraining_keeps
    | fail_if_no_progress (with_reducible refine Keeps.upd ?_ rfl rfl rfl rfl rfl rfl rfl rfl rfl rfl rfl rfl rfl rfl rfl rfl rfl)
    | fail_if_no_progress (with_reducible refine Keeps.updF ?_ rfl rfl rfl rfl rfl rfl rfl rfl rfl rfl rfl)

theorem execPcieLinkUp_keeps (port : Port) (rate : Fin 8) (width : Fin 5) {s nx : State} (hx : execPcieLinkUp port rate width s = .next nx) :
    Keeps false s nx := by
  unfold execPcieLinkUp at hx
  obtain rfl := Host.Outcome.next.inj hx
  have kp := Keeps.refl (b := false) s
  dsimp only
  repeat' first
    | with_reducible assumption
    | (intro _; with_reducible rfl)
    | (with_reducible refine Keeps.ite (fun _ => ?_) (fun _ => ?_))
    | with_reducible apply updPort_keeps
    | fail_if_no_progress (with_reducible refine Keeps.upd ?_ rfl rfl rfl rfl rfl rfl rfl rfl rfl rfl rfl rfl rfl rfl rfl rfl rfl)
    | fail_if_no_progress (with_reducible refine Keeps.updF ?_ rfl rfl rfl rfl rfl rfl rfl rfl rfl rfl rfl)

theorem execPcieDState_keeps {lv : Bool} (port : Port) (hot : Bool) {s nx : State} (hx : execPcieDState port hot s = .next nx) :
    Keeps lv s nx := by
  unfold execPcieDState at hx
  obtain rfl := Host.Outcome.next.inj hx
  have kp := Keeps.refl (b := lv) s
  repeat' first
    | with_reducible assumption
    | (intro _; with_reducible rfl)
    | (with_reducible refine Keeps.ite (fun _ => ?_) (fun _ => ?_))
    | with_reducible apply updPort_keeps
    | with_reducible apply pump_keeps

end Sys2Proof.Machine
end

