-- ==== Sys2Proof/Laws/KeepsPower.lean ====
section
/-! SUPPORT. What the operations of Machine/Power.lean keep. -/

namespace Sys2Proof.Machine

open Sys2Proof

theorem reattempt_keeps {lv : Bool} {root s : State} (before : State) (kp : Keeps lv root s) : Keeps lv root (reattempt before s) := by
  unfold reattempt
  exact Keeps.foldl (fun _ _ k => attempt_keeps _ _ k) kp

theorem policyFields_keeps {lv : Bool} {root s : State} (b : Bytes) (kp : Keeps lv root s) : Keeps lv root (policyFields s b) := by
  unfold policyFields
  extract_lets flags quads s1
  refine Keeps.foldl (fun _ _ k => updDomain_keeps k _ _) ?_
  refine setPower_keeps kp _ id (fun h q => ?_)
  have k := h q
  simp only [quads, Fin.getElem_fin, Vector.getElem_ofFn, QuadClock.ok] at k ⊢
  exact k

theorem seekRequest_keeps {lv : Bool} {root s : State} (source n : Nat) (kp : Keeps lv root s) :
    Keeps lv root (seekRequest s source n) := by
  unfold seekRequest
  dsimp only
  repeat' first
    | with_reducible assumption
    | (with_reducible refine Keeps.ite (fun _ => ?_) (fun _ => ?_))
    | with_reducible apply settlePolicy_keeps
    | with_reducible apply demand_keeps
    | with_reducible apply attempt_keeps

theorem applyPolicy_keeps {lv : Bool} {root s : State} (b : Bytes) (source : Nat) (kp : Keeps lv root s) :
    Keeps lv root (applyPolicy s b source) := by
  unfold applyPolicy
  repeat' first
    | with_reducible assumption
    | (with_reducible refine Keeps.foldl (fun _ _ _ => ?_) ?_)
    | with_reducible apply seekRequest_keeps

theorem beginPolicy_keeps {lv : Bool} {root s : State} (c : Cmd) (b : Bytes) (kp : Keeps lv root s) :
    Keeps lv root (beginPolicy s c b) := by
  unfold beginPolicy
  dsimp only
  repeat' first
    | with_reducible assumption
    | (with_reducible refine Keeps.ite (fun _ => ?_) (fun _ => ?_))
    | with_reducible apply begun_keeps
    | with_reducible apply answerPolicy_keeps
    | with_reducible apply policyFields_keeps
    | with_reducible apply applyPolicy_keeps
    | split
    | fail_if_no_progress (with_reducible refine Keeps.upd ?_ rfl rfl rfl rfl rfl rfl rfl rfl rfl rfl rfl rfl rfl rfl rfl rfl rfl)

theorem execPowerPolicy_keeps {lv : Bool} (p : Part) (q : Fin 16) (policy : Bytes) {s nx : State} (hx : execPowerPolicy p q policy s = .next nx) :
    Keeps lv s nx := by
  unfold execPowerPolicy at hx
  obtain rfl := Host.Outcome.next.inj hx
  have kp := Keeps.refl (b := lv) s
  dsimp only
  repeat' first
    | with_reducible assumption
    | (with_reducible refine Keeps.ite (fun _ => ?_) (fun _ => ?_))
    | with_reducible apply finish_keeps
    | with_reducible apply begun_keeps
    | with_reducible apply beginPolicy_keeps
    | split

theorem restGrid_keeps {lv : Bool} {root s : State} (cs : List Nat) (depth : Nat) (kp : Keeps lv root s) :
    Keeps lv root (restGrid s cs depth) := by
  unfold restGrid
  dsimp only
  repeat' first
    | with_reducible assumption
    | (with_reducible refine Keeps.ite (fun _ => ?_) (fun _ => ?_))
    | (with_reducible refine Keeps.foldl (fun _ _ _ => ?_) ?_)
    | with_reducible apply attemptIfDue_keeps
    | fail_if_no_progress (with_reducible refine Keeps.upd ?_ rfl rfl rfl rfl rfl rfl rfl rfl rfl rfl rfl rfl rfl rfl rfl rfl rfl)

theorem execPowerRest_keeps {lv : Bool} (h : Handle) (i : Nat) {s nx : State} (hx : execPowerRest h i s = .next nx) :
    Keeps lv s nx := by
  unfold execPowerRest at hx
  obtain rfl := Host.Outcome.next.inj hx
  have kp := Keeps.refl (b := lv) s
  repeat' first
    | with_reducible assumption
    | with_reducible apply opDone_keeps
    | with_reducible apply restGrid_keeps
    | split

theorem execDomainWakeStart_keeps {lv : Bool} (q : Quad) {s nx : State} (hx : execDomainWakeStart q s = .next nx) :
    Keeps lv s nx := by
  unfold execDomainWakeStart at hx
  obtain rfl := Host.Outcome.next.inj hx
  have kp := Keeps.refl (b := lv) s
  repeat' first
    | with_reducible assumption
    | (with_reducible refine Keeps.ite (fun _ => ?_) (fun _ => ?_))
    | with_reducible apply updDomain_keeps
    | with_reducible apply bump_keeps
    | split

theorem afterWake_keeps {root s : State} (d : Domain) (fromOff : Bool) (kp : Keeps false root s) :
    Keeps false root (afterWake s d fromOff) := by
  unfold afterWake
  dsimp only
  repeat' first
    | with_reducible assumption
    | (with_reducible refine Keeps.ite (fun _ => ?_) (fun _ => ?_))
    | with_reducible apply applyShadows_keeps
    | with_reducible apply startTraining_keeps
    | with_reducible apply beginTraining_keeps

theorem execDomainWakeDone_keeps (d : Domain) {s nx : State} (hx : execDomainWakeDone d s = .next nx) :
    Keeps false s nx := by
  unfold execDomainWakeDone at hx
  obtain rfl := Host.Outcome.next.inj hx
  have kp := Keeps.refl (b := false) s
  dsimp only
  repeat' first
    | with_reducible assumption
    | (with_reducible refine Keeps.ite (fun _ => ?_) (fun _ => ?_))
    | with_reducible apply updDomain_keeps
    | with_reducible apply bump_keeps
    | with_reducible apply drawFree_keeps
    | with_reducible apply settlePolicy_keeps
    | with_reducible apply reinit_keeps
    | with_reducible apply afterWake_keeps

theorem execDomainEntryDone_keeps {lv : Bool} (d : Domain) {s nx : State} (hx : execDomainEntryDone d s = .next nx) :
    Keeps lv s nx := by
  unfold execDomainEntryDone at hx
  obtain rfl := Host.Outcome.next.inj hx
  have kp := Keeps.refl (b := lv) s
  dsimp only
  repeat' first
    | with_reducible assumption
    | (with_reducible refine Keeps.ite (fun _ => ?_) (fun _ => ?_))
    | with_reducible apply updDomain_keeps
    | with_reducible apply drawFree_keeps
    | with_reducible apply settlePolicy_keeps
    | with_reducible apply reattempt_keeps

theorem execBandIdle_keeps {lv : Bool} (b : Fin 40) {s nx : State} (hx : execBandIdle b s = .next nx) :
    Keeps lv s nx := by
  unfold execBandIdle at hx
  obtain rfl := Host.Outcome.next.inj hx
  have kp := Keeps.refl (b := lv) s
  dsimp only
  repeat' first
    | with_reducible assumption
    | (with_reducible refine Keeps.ite (fun _ => ?_) (fun _ => ?_))
    | with_reducible apply updDomain_keeps
    | with_reducible apply attemptBand_keeps

theorem idleEntry_keeps {lv : Bool} {root s : State} (d : Domain) (autoOff : Bool) (kp : Keeps lv root s) :
    Keeps lv root (idleEntry s d autoOff) := by
  unfold idleEntry
  dsimp only
  repeat' first
    | with_reducible assumption
    | (with_reducible refine Keeps.ite (fun _ => ?_) (fun _ => ?_))
    | with_reducible apply beginEntry_keeps

theorem execHbmIdle_keeps {lv : Bool}  {s nx : State} (hx : execHbmIdle s = .next nx) :
    Keeps lv s nx := by
  unfold execHbmIdle at hx
  obtain rfl := Host.Outcome.next.inj hx
  have kp := Keeps.refl (b := lv) s
  repeat' first
    | with_reducible assumption
    | (with_reducible refine Keeps.ite (fun _ => ?_) (fun _ => ?_))
    | (with_reducible refine Keeps.foldl (fun _ _ _ => ?_) ?_)
    | with_reducible apply idleEntry_keeps

theorem execQuncoreIdle_keeps {lv : Bool} (q : Quad) {s nx : State} (hx : execQuncoreIdle q s = .next nx) :
    Keeps lv s nx := by
  unfold execQuncoreIdle at hx
  obtain rfl := Host.Outcome.next.inj hx
  have kp := Keeps.refl (b := lv) s
  repeat' first
    | with_reducible assumption
    | (with_reducible refine Keeps.ite (fun _ => ?_) (fun _ => ?_))
    | with_reducible apply idleEntry_keeps

theorem execPcieIdle_keeps {lv : Bool} (port : Port) {s nx : State} (hx : execPcieIdle port s = .next nx) :
    Keeps lv s nx := by
  unfold execPcieIdle at hx
  obtain rfl := Host.Outcome.next.inj hx
  have kp := Keeps.refl (b := lv) s
  repeat' first
    | with_reducible assumption
    | (with_reducible refine Keeps.ite (fun _ => ?_) (fun _ => ?_))
    | with_reducible apply idleEntry_keeps

theorem execTrickleGuard_keeps {lv : Bool} (d : Domain) (tempC : Nat) {s nx : State} (hx : execTrickleGuard d tempC s = .next nx) :
    Keeps lv s nx := by
  unfold execTrickleGuard at hx
  obtain rfl := Host.Outcome.next.inj hx
  have kp := Keeps.refl (b := lv) s
  dsimp only
  repeat' first
    | with_reducible assumption
    | (with_reducible refine Keeps.ite (fun _ => ?_) (fun _ => ?_))
    | with_reducible apply updDomain_keeps
    | with_reducible apply powerEvent_keeps

theorem execBrownout_keeps {lv : Bool} (d : Domain) {s nx : State} (hx : execBrownout d s = .next nx) :
    Keeps lv s nx := by
  unfold execBrownout at hx
  obtain rfl := Host.Outcome.next.inj hx
  have kp := Keeps.refl (b := lv) s
  dsimp only
  repeat' first
    | with_reducible assumption
    | (with_reducible refine Keeps.ite (fun _ => ?_) (fun _ => ?_))
    | (with_reducible refine Keeps.foldl (fun _ _ _ => ?_) ?_)
    | with_reducible apply updDomain_keeps
    | with_reducible apply bump_keeps
    | with_reducible apply failJob_keeps
    | with_reducible apply powerEvent_keeps

theorem capDown_keeps {lv : Bool} {root s : State} (n : Nat) (kp : Keeps lv root s) : Keeps lv root (capDown s n) := by
  unfold capDown
  dsimp only
  have kf : Keeps lv root (allQuads.foldl (fun s q => bump (updQuadClock s q (fun x =>
      { x with capCeiling := s.power.quads[q].capCeiling - n })) 0x120 q.val (min s.power.quads[q].capCeiling n)) s) :=
    Keeps.foldl (fun x q k => bump_keeps (updQuadClock_keeps k q _
      (fun h => ⟨h.1, Nat.le_trans (Nat.sub_le _ _) h.2.1, h.2.2⟩)) _ _ _) kp
  refine Keeps.ite (fun _ => powerEvent_keeps _ _ _ kf) (fun _ => kf)

theorem capUp_keeps {lv : Bool} {root s : State} (kp : Keeps lv root s) : Keeps lv root (capUp s) := by
  unfold capUp
  dsimp only
  have kf : Keeps lv root (allQuads.foldl (fun s q => updQuadClock s q (fun x =>
      { x with capCeiling := min 26 (x.capCeiling + 1) })) s) :=
    Keeps.foldl (fun x q k => updQuadClock_keeps k q _ (fun h => ⟨h.1, Nat.min_le_left _ _, h.2.2⟩)) kp
  refine Keeps.ite (fun _ => powerEvent_keeps _ _ _ kf) (fun _ => kf)

theorem capExceeded_keeps {lv : Bool} {root s : State} (n : Nat) (kp : Keeps lv root s) :
    Keeps lv root (capExceeded s n) := by
  unfold capExceeded
  repeat' first
    | with_reducible assumption
    | (with_reducible refine Keeps.ite (fun _ => ?_) (fun _ => ?_))
    | with_reducible apply powerEvent_keeps
    | with_reducible apply capDown_keeps
    | fail_if_no_progress (with_reducible refine Keeps.upd ?_ rfl rfl rfl rfl rfl rfl rfl rfl rfl rfl rfl rfl rfl rfl rfl rfl rfl)

theorem longWindow_keeps {lv : Bool} {root s : State} (w : Nat) (kp : Keeps lv root s) :
    Keeps lv root (longWindow s w) := by
  unfold longWindow
  dsimp only
  repeat' first
    | with_reducible assumption
    | (with_reducible refine Keeps.ite (fun _ => ?_) (fun _ => ?_))
    | with_reducible apply bump_keeps
    | with_reducible apply capUp_keeps
    | with_reducible apply capExceeded_keeps
    | fail_if_no_progress (with_reducible refine Keeps.upd ?_ rfl rfl rfl rfl rfl rfl rfl rfl rfl rfl rfl rfl rfl rfl rfl rfl rfl)

theorem shortWindow_keeps {lv : Bool} {root s : State} (w : Nat) (kp : Keeps lv root s) :
    Keeps lv root (shortWindow s w) := by
  unfold shortWindow
  repeat' first
    | with_reducible assumption
    | (with_reducible refine Keeps.ite (fun _ => ?_) (fun _ => ?_))
    | with_reducible apply capExceeded_keeps

theorem execPowerSample_keeps {lv : Bool} (long : Bool) (watts : Nat) {s nx : State} (hx : execPowerSample long watts s = .next nx) :
    Keeps lv s nx := by
  unfold execPowerSample at hx
  obtain rfl := Host.Outcome.next.inj hx
  have kp := Keeps.refl (b := lv) s
  repeat' first
    | with_reducible assumption
    | (with_reducible refine Keeps.ite (fun _ => ?_) (fun _ => ?_))
    | with_reducible apply longWindow_keeps
    | with_reducible apply shortWindow_keeps

theorem thermalQuad_keeps {lv : Bool} {root s : State} (q : Quad) (t : Nat) (kp : Keeps lv root s) :
    Keeps lv root (thermalQuad s q t) := by
  unfold thermalQuad
  extract_lets x s1 s2 cool
  have k1 : Keeps lv s s1 := Keeps.ite (fun _ => powerEvent_keeps _ _ _ (Keeps.refl s))
    (fun _ => Keeps.ite (fun _ => powerEvent_keeps _ _ _ (Keeps.refl s)) (fun _ => Keeps.refl s))
  have k2 : Keeps lv s s2 := Keeps.ite (fun _ => bump_keeps k1 _ _ _) (fun _ => k1)
  refine updQuadClock_keeps (kp.trans k2) q _ (fun h => ⟨h.1, h.2.1, ?_⟩)
  have h3 := h.2.2
  generalize s2.power.quads[q] = y at h3
  clear_value s2 cool
  dsimp only
  split
  · exact Nat.le_trans (Nat.sub_le _ _) h3
  · split
    · exact Nat.min_le_left _ _
    · exact h3

theorem thermalTrip_keeps {lv : Bool} {root s : State} (q : Nat) (kp : Keeps lv root s) : Keeps lv root (thermalTrip s q) := by
  unfold thermalTrip
  extract_lets s1 off
  have k1 : Keeps lv root s1 := freeze_keeps _ (errorNote_keeps _ _ _ _ _ _ kp)
  clear_value s1
  refine k1.trans {
    pending := rfl
    silicon := rfl
    pwrGood := rfl
    timeBase := rfl
    fatal := id
    tripped := fun _ => rfl
    head := Nat.le_refl _
    blotter := id
    clocks := id
    range := id
    lock := fun _ => rfl
    mem := fun h => ⟨h.1, fun p => ?_⟩
    held := fun _ => ⟨rfl, rfl, rfl, rfl, rfl, rfl, rfl⟩ }
  have k := h.2 p
  simp only [Fin.getElem_fin, Vector.getElem_map] at k ⊢
  exact k

theorem execOverTemp_keeps {lv : Bool} (q : Quad) {s nx : State} (hx : execOverTemp q s = .next nx) :
    Keeps lv s nx := by
  unfold execOverTemp at hx
  obtain rfl := Host.Outcome.next.inj hx
  have kp := Keeps.refl (b := lv) s
  repeat' first
    | with_reducible assumption
    | (intro hk; exact ⟨hk.1, hk.2.1, hk.2.2⟩)
    | (with_reducible refine Keeps.ite (fun _ => ?_) (fun _ => ?_))
    | with_reducible apply updQuadClock_keeps
    | with_reducible apply powerEvent_keeps

theorem execInputRange_keeps {lv : Bool} (mv : Nat) {s nx : State} (hx : execInputRange mv s = .next nx) :
    Keeps lv s nx := by
  unfold execInputRange at hx
  obtain rfl := Host.Outcome.next.inj hx
  have kp := Keeps.refl (b := lv) s
  dsimp only
  repeat' first
    | with_reducible assumption
    | (with_reducible refine Keeps.ite (fun _ => ?_) (fun _ => ?_))
    | with_reducible apply powerEvent_keeps
    | fail_if_no_progress (with_reducible refine Keeps.upd ?_ rfl rfl rfl rfl rfl rfl rfl rfl rfl rfl rfl rfl rfl rfl rfl rfl rfl)

theorem execDroopExcursion_keeps {lv : Bool} (q : Quad) (excessMv : Nat) {s nx : State} (hx : execDroopExcursion q excessMv s = .next nx) :
    Keeps lv s nx := by
  unfold execDroopExcursion at hx
  obtain rfl := Host.Outcome.next.inj hx
  have kp := Keeps.refl (b := lv) s
  repeat' first
    | with_reducible assumption
    | (intro hk; exact ⟨hk.1, hk.2.1, hk.2.2⟩)
    | (with_reducible refine Keeps.ite (fun _ => ?_) (fun _ => ?_))
    | with_reducible apply updQuadClock_keeps
    | with_reducible apply bump_keeps

theorem execDroopEnd_keeps {lv : Bool} (q : Quad) (stretched : Nat) (worstMv : Nat) {s nx : State} (hx : execDroopEnd q stretched worstMv s = .next nx) :
    Keeps lv s nx := by
  unfold execDroopEnd at hx
  obtain rfl := Host.Outcome.next.inj hx
  have kp := Keeps.refl (b := lv) s
  repeat' first
    | with_reducible assumption
    | (intro hk; exact ⟨hk.1, hk.2.1, hk.2.2⟩)
    | (with_reducible refine Keeps.ite (fun _ => ?_) (fun _ => ?_))
    | with_reducible apply updQuadClock_keeps
    | with_reducible apply bump_keeps
    | with_reducible apply bumpMax_keeps

theorem QuadClock.stepped_ok {x : QuadClock} (h : x.ok) : x.stepped.ok := by
  obtain ⟨h1, h2, h3⟩ := h
  refine ⟨?_, h2, h3⟩
  unfold QuadClock.stepped QuadClock.target
  dsimp only
  split
  · omega
  · split <;> omega

theorem execAclkStep_keeps {lv : Bool} (q : Quad) {s nx : State} (hx : execAclkStep q s = .next nx) : Keeps lv s nx := by
  unfold execAclkStep at hx
  obtain rfl := Host.Outcome.next.inj hx
  have kp := Keeps.refl (b := lv) s
  exact Keeps.ite (fun _ => updQuadClock_keeps kp q _ QuadClock.stepped_ok) (fun _ => kp)

end Sys2Proof.Machine
end

