-- ==== Sys2Proof/Laws/KeepsTelemetry.lean ====
section
/-! SUPPORT. What the operations of Machine/Telemetry.lean keep. -/

namespace Sys2Proof.Machine

open Sys2Proof

theorem execTelemetrySnapshot_keeps {lv : Bool} (p : Part) (q : Fin 16) {s nx : State} (hx : execTelemetrySnapshot p q s = .next nx) :
    Keeps lv s nx := by
  unfold execTelemetrySnapshot at hx
  obtain rfl := Host.Outcome.next.inj hx
  have kp := Keeps.refl (b := lv) s
  repeat' first
    | with_reducible assumption
    | with_reducible apply begun_keeps
    | with_reducible apply giveResult_keeps
    | split

end Sys2Proof.Machine
end

