-- ==== Sys2Proof/Laws/KeepsManagement.lean ====
section
/-! SUPPORT. What the operations of Machine/Management.lean keep. -/

namespace Sys2Proof.Machine

open Sys2Proof

theorem mgmtServe_keeps {lv : Bool} {root s : State} (command : Nat) (inst : Byte) (available : Bool) (act : Bytes → State)
    (ha : ∀ b, Keeps lv root (act b)) (kp : Keeps lv root s) : Keeps lv root (mgmtServe s command inst available act) := by
  unfold mgmtServe
  dsimp only
  repeat' first
    | with_reducible assumption
    | (with_reducible refine Keeps.ite (fun _ => ?_) (fun _ => ?_))
    | with_reducible apply ha
    | with_reducible apply mgmtRespond_keeps

theorem mgmtReady_keeps {lv : Bool} {root s : State} (command : Nat) (inst : Byte) (act : Bytes → State)
    (ha : ∀ b, Keeps lv root (act b)) (kp : Keeps lv root s) : Keeps lv root (mgmtReady s command inst act) := by
  unfold mgmtReady
  repeat' first
    | with_reducible assumption
    | (with_reducible refine Keeps.ite (fun _ => ?_) (fun _ => ?_))
    | (with_reducible refine mgmtServe_keeps _ _ _ _ (fun _ => ?_) ?_)
    | with_reducible apply ha
    | with_reducible apply mgmtRespond_keeps

theorem mgmtAct_keeps {lv : Bool} {root s : State} (head : Bytes) (ok : Bool) (r : Option State) (data : Bytes)
    (hr : ∀ t, r = some t → Keeps lv root t) (kp : Keeps lv root s) : Keeps lv root (mgmtAct s head ok r data) := by
  unfold mgmtAct
  repeat' first
    | with_reducible assumption
    | (with_reducible refine Keeps.ite (fun _ => ?_) (fun _ => ?_))
    | with_reducible apply mgmtRespond_keeps
    | (with_reducible exact hr _ rfl)
    | split

theorem execAttest_keeps {lv : Bool} (p : Part) (q : Fin 16) {s nx : State} (hx : execAttest p q s = .next nx) :
    Keeps lv s nx := by
  unfold execAttest at hx
  obtain rfl := Host.Outcome.next.inj hx
  have kp := Keeps.refl (b := lv) s
  repeat' first
    | with_reducible assumption
    | with_reducible apply begun_keeps
    | with_reducible apply giveResult_keeps
    | split

theorem execManagementAttest_keeps {lv : Bool} (inst : Byte) (args : Bytes) {s nx : State} (hx : execManagementAttest inst args s = .next nx) :
    Keeps lv s nx := by
  unfold execManagementAttest at hx
  obtain rfl := Host.Outcome.next.inj hx
  have kp := Keeps.refl (b := lv) s
  repeat' first
    | with_reducible assumption
    | (intro _ hk; cases hk; exact kp)
    | with_reducible apply mgmtRespond_keeps
    | with_reducible apply mgmtServe_keeps
    | with_reducible apply mgmtAct_keeps
    | (intro _ hk; cases hk; exact kp)
    | (intro _ hk; split at hk <;> first | (cases hk; done) | skip)
    | (intro _ hk)
    | (with_reducible cases (‹some _ = some _›))
    | (intro _ _)
    | (intro _)
    | split

theorem execGetCertificate_keeps {lv : Bool} (inst : Byte) (args : Bytes) {s nx : State} (hx : execGetCertificate inst args s = .next nx) :
    Keeps lv s nx := by
  unfold execGetCertificate at hx
  obtain rfl := Host.Outcome.next.inj hx
  have kp := Keeps.refl (b := lv) s
  dsimp only
  repeat' first
    | with_reducible assumption
    | (with_reducible refine Keeps.ite (fun _ => ?_) (fun _ => ?_))
    | (intro _ hk; split at hk <;> cases hk; exact kp)
    | with_reducible apply mgmtRespond_keeps
    | with_reducible apply mgmtServe_keeps
    | with_reducible apply mgmtAct_keeps
    | (intro _ hk; cases hk; exact kp)
    | (intro _ hk; split at hk <;> first | (cases hk; done) | skip)
    | (intro _ hk)
    | (with_reducible cases (‹some _ = some _›))
    | (intro _ _)
    | (intro _)
    | split

theorem execGetBoot_keeps {lv : Bool} (inst : Byte) (args : Bytes) {s nx : State} (hx : execGetBoot inst args s = .next nx) :
    Keeps lv s nx := by
  unfold execGetBoot at hx
  obtain rfl := Host.Outcome.next.inj hx
  have kp := Keeps.refl (b := lv) s
  repeat' first
    | with_reducible assumption
    | with_reducible apply mgmtServe_keeps
    | with_reducible apply mgmtAct_keeps
    | (intro _ hk; cases hk; exact kp)
    | (intro _ hk; split at hk <;> first | (cases hk; done) | skip)
    | (intro _ hk)
    | (with_reducible cases (‹some _ = some _›))
    | (intro _ _)
    | (intro _)

theorem assignTo_keeps {lv : Bool} {root s : State} (b : Bytes) (kp : Keeps lv root s) :
    Keeps lv root (assignTo s b) := by
  unfold assignTo
  dsimp only
  repeat' first
    | with_reducible assumption
    | (with_reducible refine Keeps.ite (fun _ => ?_) (fun _ => ?_))
    | with_reducible apply updPart_keeps
    | with_reducible apply demand_keeps

theorem execAssignPartition_keeps {lv : Bool} (inst : Byte) (args : Bytes) {s nx : State} (hx : execAssignPartition inst args s = .next nx) :
    Keeps lv s nx := by
  unfold execAssignPartition at hx
  obtain rfl := Host.Outcome.next.inj hx
  have kp := Keeps.refl (b := lv) s
  repeat' first
    | with_reducible assumption
    | (with_reducible refine Keeps.ite (fun _ => ?_) (fun _ => ?_))
    | with_reducible apply mgmtReady_keeps
    | with_reducible apply mgmtAct_keeps
    | with_reducible apply assignTo_keeps
    | (intro _ hk; cases hk; exact kp)
    | (intro _ hk; split at hk <;> first | (cases hk; done) | skip)
    | (intro _ hk)
    | (with_reducible cases (‹some _ = some _›))
    | (intro _ _)
    | (intro _)

theorem releaseTo_keeps {lv : Bool} {root s : State} (head : Bytes) (p : Part) (force : Bool) (kp : Keeps lv root s) :
    Keeps lv root (releaseTo s head p force) := by
  unfold releaseTo
  dsimp only
  repeat' first
    | with_reducible assumption
    | (with_reducible refine Keeps.ite (fun _ => ?_) (fun _ => ?_))
    | with_reducible apply settleRelease_keeps
    | with_reducible apply resetPartition_keeps
    | fail_if_no_progress (with_reducible refine Keeps.upd ?_ rfl rfl rfl rfl rfl rfl rfl rfl rfl rfl rfl rfl rfl rfl rfl rfl rfl)

theorem execReleasePartition_keeps {lv : Bool} (inst : Byte) (args : Bytes) {s nx : State} (hx : execReleasePartition inst args s = .next nx) :
    Keeps lv s nx := by
  unfold execReleasePartition at hx
  obtain rfl := Host.Outcome.next.inj hx
  have kp := Keeps.refl (b := lv) s
  dsimp only
  repeat' first
    | with_reducible assumption
    | (with_reducible refine Keeps.ite (fun _ => ?_) (fun _ => ?_))
    | with_reducible apply mgmtRespond_keeps
    | with_reducible apply mgmtReady_keeps
    | with_reducible apply releaseTo_keeps
    | (intro _ _)
    | (intro _)

theorem carveoutTo_keeps {lv : Bool} {root s : State} (head : Bytes) (p : Part) (rs : List Nat) (modes : Nat) (kp : Keeps lv root s) :
    Keeps lv root (carveoutTo s head p rs modes) := by
  unfold carveoutTo
  dsimp only
  repeat' first
    | with_reducible assumption
    | (with_reducible refine Keeps.ite (fun _ => ?_) (fun _ => ?_))
    | (with_reducible refine Keeps.foldl (fun _ _ _ => ?_) ?_)
    | with_reducible apply updRegion_keeps
    | with_reducible apply mgmtRespond_keeps
    | fail_if_no_progress (with_reducible refine Keeps.upd ?_ rfl rfl rfl rfl rfl rfl rfl rfl rfl rfl rfl rfl rfl rfl rfl rfl rfl)

theorem execSetCarveout_keeps {lv : Bool} (inst : Byte) (args : Bytes) {s nx : State} (hx : execSetCarveout inst args s = .next nx) :
    Keeps lv s nx := by
  unfold execSetCarveout at hx
  obtain rfl := Host.Outcome.next.inj hx
  have kp := Keeps.refl (b := lv) s
  dsimp only
  repeat' first
    | with_reducible assumption
    | (with_reducible refine Keeps.ite (fun _ => ?_) (fun _ => ?_))
    | with_reducible apply mgmtRespond_keeps
    | with_reducible apply mgmtReady_keeps
    | with_reducible apply carveoutTo_keeps
    | (intro _ _)
    | (intro _)

theorem carveoutZeroed_keeps {lv : Bool} {root s : State} (g : Nat) (kp : Keeps lv root s) :
    Keeps lv root (carveoutZeroed s g) := by
  unfold carveoutZeroed
  dsimp only
  repeat' first
    | with_reducible assumption
    | (with_reducible refine Keeps.ite (fun _ => ?_) (fun _ => ?_))
    | with_reducible apply mgmtRespond_keeps
    | split
    | fail_if_no_progress (with_reducible refine Keeps.upd ?_ rfl rfl rfl rfl rfl rfl rfl rfl rfl rfl rfl rfl rfl rfl rfl rfl rfl)

theorem zeroRegion_keeps {lv : Bool} {root s : State} (g : Fin 72) (kp : Keeps lv root s) :
    Keeps lv root (zeroRegion s g) := by
  unfold zeroRegion
  dsimp only
  repeat' first
    | with_reducible assumption
    | (intro _ _)
    | with_reducible apply Memory.zero_wf
    | (with_reducible refine Keeps.ite (fun _ => ?_) (fun _ => ?_))
    | with_reducible apply updMem_keeps
    | with_reducible apply updRegion_keeps
    | with_reducible apply reattempt_keeps
    | with_reducible apply carveoutZeroed_keeps

theorem execRegionZeroed_keeps {lv : Bool} (g : Fin 72) {s nx : State} (hx : execRegionZeroed g s = .next nx) :
    Keeps lv s nx := by
  unfold execRegionZeroed at hx
  obtain rfl := Host.Outcome.next.inj hx
  have kp := Keeps.refl (b := lv) s
  repeat' first
    | with_reducible assumption
    | (with_reducible refine Keeps.ite (fun _ => ?_) (fun _ => ?_))
    | with_reducible apply needing_keeps
    | with_reducible apply zeroRegion_keeps
    | (intro _ _)

theorem setCoord_keeps {lv : Bool} {root s : State} (b : Bytes) {t : State} (hq : setCoord s b = some t) (kp : Keeps lv root s) :
    Keeps lv root t := by
  unfold setCoord at hq
  obtain ⟨s2, h2, h3⟩ := Option.bind_eq_some_iff.mp hq
  obtain ⟨s1, h1, h2⟩ := Option.bind_eq_some_iff.mp h2
  exact writeMyCoord_keeps _ h3 (writeGateway_keeps _ h2 (writeExtent_keeps _ h1 kp))

theorem execSetCoord_keeps {lv : Bool} (inst : Byte) (args : Bytes) {s nx : State} (hx : execSetCoord inst args s = .next nx) :
    Keeps lv s nx := by
  unfold execSetCoord at hx
  obtain rfl := Host.Outcome.next.inj hx
  have kp := Keeps.refl (b := lv) s
  repeat' first
    | with_reducible assumption
    | (with_reducible refine setCoord_keeps _ (by assumption) ?_)
    | with_reducible apply mgmtReady_keeps
    | with_reducible apply mgmtAct_keeps
    | (intro _ hk; cases hk; exact kp)
    | (intro _ hk; split at hk <;> first | (cases hk; done) | skip)
    | (intro _ hk)
    | (with_reducible cases (‹some _ = some _›))
    | (intro _ _)
    | (intro _)

theorem newJob_keeps {lv : Bool} {root s : State} (p : Part) (b : Bytes) (kp : Keeps lv root s) :
    Keeps lv root (newJob s p b) := by
  unfold newJob
  dsimp only
  repeat' first
    | with_reducible assumption
    | (with_reducible refine Keeps.ite (fun _ => ?_) (fun _ => ?_))
    | with_reducible apply updPart_keeps
    | with_reducible apply freeDead_keeps
    | split

theorem setJob_keeps {lv : Bool} {root s : State} (p : Part) (b : Bytes) {t : State} (hq : (setJob s p b) = some t) (kp : Keeps lv root s) :
    Keeps lv root t := by
  unfold setJob at hq
  repeat' first
    | dsimp only at hq
    | split at hq
    | cases hq
  repeat' first
    | with_reducible assumption
    | (with_reducible refine Keeps.ite (fun _ => ?_) (fun _ => ?_))
    | with_reducible apply updPart_keeps
    | with_reducible apply adoptGen_keeps
    | with_reducible apply newJob_keeps

theorem execSetJob_keeps {lv : Bool} (inst : Byte) (args : Bytes) {s nx : State} (hx : execSetJob inst args s = .next nx) :
    Keeps lv s nx := by
  unfold execSetJob at hx
  obtain rfl := Host.Outcome.next.inj hx
  have kp := Keeps.refl (b := lv) s
  dsimp only
  repeat' first
    | with_reducible assumption
    | (with_reducible refine Keeps.ite (fun _ => ?_) (fun _ => ?_))
    | (with_reducible refine setJob_keeps _ _ (by assumption) ?_)
    | with_reducible apply mgmtReady_keeps
    | with_reducible apply mgmtAct_keeps
    | (intro _ hk; cases hk; exact kp)
    | (intro _ hk; split at hk <;> first | (cases hk; done) | skip)
    | (intro _ hk)
    | (with_reducible cases (‹some _ = some _›))
    | (intro _ _)
    | (intro _)

theorem execClearJob_keeps {lv : Bool} (inst : Byte) (args : Bytes) {s nx : State} (hx : execClearJob inst args s = .next nx) :
    Keeps lv s nx := by
  unfold execClearJob at hx
  obtain rfl := Host.Outcome.next.inj hx
  have kp := Keeps.refl (b := lv) s
  dsimp only
  repeat' first
    | with_reducible assumption
    | (with_reducible refine Keeps.ite (fun _ => ?_) (fun _ => ?_))
    | with_reducible apply updPart_keeps
    | with_reducible apply mgmtReady_keeps
    | with_reducible apply mgmtAct_keeps
    | (intro _ hk; cases hk; exact kp)
    | (intro _ hk; split at hk <;> first | (cases hk; done) | skip)
    | (intro _ hk)
    | (with_reducible cases (‹some _ = some _›))
    | (intro _ _)
    | (intro _)

theorem execSetPower_keeps {lv : Bool} (inst : Byte) (args : Bytes) {s nx : State} (hx : execSetPower inst args s = .next nx) :
    Keeps lv s nx := by
  unfold execSetPower at hx
  obtain rfl := Host.Outcome.next.inj hx
  have kp := Keeps.refl (b := lv) s
  dsimp only
  repeat' first
    | with_reducible assumption
    | (with_reducible refine Keeps.ite (fun _ => ?_) (fun _ => ?_))
    | with_reducible apply mgmtRespond_keeps
    | with_reducible apply answerSetPower_keeps
    | with_reducible apply policyFields_keeps
    | with_reducible apply applyPolicy_keeps
    | with_reducible apply mgmtReady_keeps
    | (intro _ _)
    | (intro _)
    | split
    | fail_if_no_progress (with_reducible refine Keeps.upd ?_ rfl rfl rfl rfl rfl rfl rfl rfl rfl rfl rfl rfl rfl rfl rfl rfl rfl)

theorem execBlotterStatus_keeps {lv : Bool} (inst : Byte) (args : Bytes) {s nx : State} (hx : execBlotterStatus inst args s = .next nx) :
    Keeps lv s nx := by
  unfold execBlotterStatus at hx
  obtain rfl := Host.Outcome.next.inj hx
  have kp := Keeps.refl (b := lv) s
  dsimp only
  repeat' first
    | with_reducible assumption
    | (with_reducible refine Keeps.ite (fun _ => ?_) (fun _ => ?_))
    | with_reducible apply mgmtServe_keeps
    | with_reducible apply mgmtAct_keeps
    | (intro _ hk; cases hk; exact kp)
    | (intro _ hk; split at hk <;> first | (cases hk; done) | skip)
    | (intro _ hk)
    | (with_reducible cases (‹some _ = some _›))
    | (intro _ _)
    | (intro _)

theorem execManagementBlotterRead_keeps {lv : Bool} (inst : Byte) (args : Bytes) {s nx : State} (hx : execManagementBlotterRead inst args s = .next nx) :
    Keeps lv s nx := by
  unfold execManagementBlotterRead at hx
  obtain rfl := Host.Outcome.next.inj hx
  have kp := Keeps.refl (b := lv) s
  repeat' first
    | with_reducible assumption
    | with_reducible apply mgmtServe_keeps
    | with_reducible apply mgmtAct_keeps
    | (intro _ hk; cases hk; exact kp)
    | (intro _ hk; split at hk <;> first | (cases hk; done) | skip)
    | (intro _ hk)
    | (with_reducible cases (‹some _ = some _›))
    | (intro _ _)
    | (intro _)

theorem unfreeze_keeps {lv : Bool} {root s : State}  (kp : Keeps lv root s) :
    Keeps lv root (unfreeze s) := by
  unfold unfreeze
  dsimp only
  repeat' first
    | with_reducible assumption
    | with_reducible exact Nat.le_refl _
    | with_reducible exact Blotter.ok_of rfl rfl
    | (with_reducible refine Keeps.ite (fun _ => ?_) (fun _ => ?_))
    | with_reducible apply note_keeps
    | fail_if_no_progress (with_reducible refine Keeps.upd ?_ rfl rfl rfl rfl rfl rfl rfl rfl rfl rfl rfl rfl rfl rfl rfl rfl rfl)
    | (with_reducible refine Keeps.updB ?_ rfl rfl rfl rfl rfl rfl rfl rfl rfl ?_ ?_ rfl rfl rfl rfl rfl rfl rfl)

theorem execBlotterUnfreeze_keeps {lv : Bool} (inst : Byte) (args : Bytes) {s nx : State} (hx : execBlotterUnfreeze inst args s = .next nx) :
    Keeps lv s nx := by
  unfold execBlotterUnfreeze at hx
  obtain rfl := Host.Outcome.next.inj hx
  have kp := Keeps.refl (b := lv) s
  repeat' first
    | with_reducible assumption
    | (with_reducible refine Keeps.ite (fun _ => ?_) (fun _ => ?_))
    | with_reducible apply mgmtServe_keeps
    | with_reducible apply mgmtAct_keeps
    | with_reducible apply unfreeze_keeps
    | (intro _ hk; cases hk; exact kp)
    | (intro _ hk; split at hk <;> first | (cases hk; done) | skip)
    | (intro _ hk)
    | (with_reducible cases (‹some _ = some _›))
    | (intro _ _)
    | (intro _)

theorem execBlotterConfig_keeps {lv : Bool} (inst : Byte) (args : Bytes) {s nx : State} (hx : execBlotterConfig inst args s = .next nx) :
    Keeps lv s nx := by
  unfold execBlotterConfig at hx
  obtain rfl := Host.Outcome.next.inj hx
  have kp := Keeps.refl (b := lv) s
  repeat' first
    | with_reducible assumption
    | with_reducible exact Nat.le_refl _
    | with_reducible exact Blotter.ok_of rfl rfl
    | with_reducible apply mgmtServe_keeps
    | with_reducible apply mgmtAct_keeps
    | (intro _ hk; cases hk; exact kp)
    | (intro _ hk; split at hk <;> first | (cases hk; done) | skip)
    | (intro _ hk)
    | (with_reducible cases (‹some _ = some _›))
    | (intro _ _)
    | (intro _)
    | fail_if_no_progress (with_reducible refine Keeps.upd ?_ rfl rfl rfl rfl rfl rfl rfl rfl rfl rfl rfl rfl rfl rfl rfl rfl rfl)
    | (with_reducible refine Keeps.updB ?_ rfl rfl rfl rfl rfl rfl rfl rfl rfl ?_ ?_ rfl rfl rfl rfl rfl rfl rfl)

theorem execErrorStatus_keeps {lv : Bool} (inst : Byte) (args : Bytes) {s nx : State} (hx : execErrorStatus inst args s = .next nx) :
    Keeps lv s nx := by
  unfold execErrorStatus at hx
  obtain rfl := Host.Outcome.next.inj hx
  have kp := Keeps.refl (b := lv) s
  repeat' first
    | with_reducible assumption
    | with_reducible apply mgmtServe_keeps
    | with_reducible apply mgmtAct_keeps
    | (intro _ hk; cases hk; exact kp)
    | (intro _ hk; split at hk <;> first | (cases hk; done) | skip)
    | (intro _ hk)
    | (with_reducible cases (‹some _ = some _›))
    | (intro _ _)
    | (intro _)

theorem execPldmSensorRead_keeps {lv : Bool} (sensor : Byte) {s nx : State} (hx : execPldmSensorRead sensor s = .next nx) :
    Keeps lv s nx := by
  unfold execPldmSensorRead at hx
  obtain rfl := Host.Outcome.next.inj hx
  have kp := Keeps.refl (b := lv) s
  repeat' first
    | with_reducible assumption
    | (with_reducible refine Keeps.ite (fun _ => ?_) (fun _ => ?_))
    | split
    | fail_if_no_progress (with_reducible refine Keeps.upd ?_ rfl rfl rfl rfl rfl rfl rfl rfl rfl rfl rfl rfl rfl rfl rfl rfl rfl)

end Sys2Proof.Machine
end

