-- ==== Sys2Proof/Laws/KeepsErrors.lean ====
section
/-! SUPPORT. What the operations of Machine/Errors.lean keep. -/

namespace Sys2Proof.Machine

open Sys2Proof

theorem execLocalStopTimeout_keeps {lv : Bool} (p : Part) {s nx : State} (hx : execLocalStopTimeout p s = .next nx) :
    Keeps lv s nx := by
  unfold execLocalStopTimeout at hx
  obtain rfl := Host.Outcome.next.inj hx
  have kp := Keeps.refl (b := lv) s
  repeat' first
    | with_reducible assumption
    | (with_reducible refine Keeps.ite (fun _ => ?_) (fun _ => ?_))
    | with_reducible apply teardown_keeps
    | split

theorem staleRecord_keeps {lv : Bool} {root s : State} (e : Nat × Nat × Nat) (kp : Keeps lv root s) :
    Keeps lv root (staleRecord s e) := by
  unfold staleRecord
  repeat' first
    | with_reducible assumption
    | (with_reducible refine Keeps.ite (fun _ => ?_) (fun _ => ?_))
    | with_reducible apply note_keeps

theorem staleRecords_keeps {lv : Bool} {root s : State}  (kp : Keeps lv root s) :
    Keeps lv root (staleRecords s) := by
  unfold staleRecords
  repeat' first
    | with_reducible assumption
    | (with_reducible refine Keeps.foldl_fst (fun _ _ _ => ?_) ?_)
    | (with_reducible refine Keeps.foldl (fun _ _ _ => ?_) ?_)
    | with_reducible apply staleRecord_keeps
    | fail_if_no_progress (with_reducible refine Keeps.upd ?_ rfl rfl rfl rfl rfl rfl rfl rfl rfl rfl rfl rfl rfl rfl rfl rfl rfl)

theorem execHeartbeatTick_keeps {lv : Bool} (beats : BitVec 16) {s nx : State} (hx : execHeartbeatTick beats s = .next nx) :
    Keeps lv s nx := by
  unfold execHeartbeatTick at hx
  obtain rfl := Host.Outcome.next.inj hx
  have kp := Keeps.refl (b := lv) s
  dsimp only
  repeat' first
    | with_reducible assumption
    | (with_reducible refine Keeps.ite (fun _ => ?_) (fun _ => ?_))
    | (with_reducible refine Keeps.foldl (fun _ _ _ => ?_) ?_)
    | with_reducible apply deviceStop_keeps
    | with_reducible apply staleRecords_keeps
    | fail_if_no_progress (with_reducible refine Keeps.upd ?_ rfl rfl rfl rfl rfl rfl rfl rfl rfl rfl rfl rfl rfl rfl rfl rfl rfl)

theorem execCeSummary_keeps {lv : Bool}  {s nx : State} (hx : execCeSummary s = .next nx) :
    Keeps lv s nx := by
  unfold execCeSummary at hx
  obtain rfl := Host.Outcome.next.inj hx
  have kp := Keeps.refl (b := lv) s
  dsimp only
  repeat' first
    | with_reducible assumption
    | with_reducible exact Nat.le_refl _
    | with_reducible exact Blotter.ok_of rfl rfl
    | (with_reducible refine Keeps.foldl_fst (fun _ _ _ => ?_) ?_)
    | (with_reducible refine Keeps.foldl (fun _ _ _ => ?_) ?_)
    | with_reducible apply note_keeps
    | fail_if_no_progress (with_reducible refine Keeps.upd ?_ rfl rfl rfl rfl rfl rfl rfl rfl rfl rfl rfl rfl rfl rfl rfl rfl rfl)
    | (with_reducible refine Keeps.updB ?_ rfl rfl rfl rfl rfl rfl rfl rfl rfl ?_ ?_ rfl rfl rfl rfl rfl rfl rfl)

theorem scrubUnit_keeps {lv : Bool} {root s : State} (n : Stack) (at_ : Nat) (ecc : Ecc) (kp : Keeps lv root s) :
    Keeps lv root (scrubUnit s n at_ ecc) := by
  unfold scrubUnit
  repeat' first
    | with_reducible assumption
    | (with_reducible refine Keeps.ite (fun _ => ?_) (fun _ => ?_))
    | with_reducible apply bump_keeps
    | with_reducible apply deviceStop_keeps
    | with_reducible apply correctedError_keeps
    | with_reducible apply eccRead_keeps
    | split

theorem execScrub_keeps (n : Stack) (ecc : Ecc) {s nx : State} (hx : execScrub n ecc s = .next nx) :
    Keeps false s nx := by
  unfold execScrub at hx
  obtain rfl := Host.Outcome.next.inj hx
  have kp := Keeps.refl (b := false) s
  dsimp only
  repeat' first
    | with_reducible assumption
    | (with_reducible refine Keeps.ite (fun _ => ?_) (fun _ => ?_))
    | with_reducible apply scrubUnit_keeps
    | fail_if_no_progress (with_reducible refine Keeps.upd ?_ rfl rfl rfl rfl rfl rfl rfl rfl rfl rfl rfl rfl rfl rfl rfl rfl rfl)
    | fail_if_no_progress (with_reducible refine Keeps.updF ?_ rfl rfl rfl rfl rfl rfl rfl rfl rfl rfl rfl)

theorem execCageOverCurrent_keeps {lv : Bool} (p : FPort) {s nx : State} (hx : execCageOverCurrent p s = .next nx) :
    Keeps lv s nx := by
  unfold execCageOverCurrent at hx
  obtain rfl := Host.Outcome.next.inj hx
  have kp := Keeps.refl (b := lv) s
  dsimp only
  repeat' first
    | with_reducible assumption
    | (with_reducible refine Keeps.ite (fun _ => ?_) (fun _ => ?_))
    | with_reducible apply updFabric_keeps
    | with_reducible apply portDown_keeps
    | with_reducible apply linkDownReport_keeps

theorem execCableReseat_keeps {lv : Bool} (p : FPort) {s nx : State} (hx : execCableReseat p s = .next nx) :
    Keeps lv s nx := by
  unfold execCableReseat at hx
  obtain rfl := Host.Outcome.next.inj hx
  have kp := Keeps.refl (b := lv) s
  repeat' first
    | with_reducible assumption
    | (with_reducible refine Keeps.ite (fun _ => ?_) (fun _ => ?_))
    | with_reducible apply updFabric_keeps
    | with_reducible apply startTraining_keeps

theorem execBridgeLinkCrcFail_keeps (q : Quad) {s nx : State} (hx : execBridgeLinkCrcFail q s = .next nx) :
    Keeps false s nx := by
  unfold execBridgeLinkCrcFail at hx
  obtain rfl := Host.Outcome.next.inj hx
  have kp := Keeps.refl (b := false) s
  dsimp only
  repeat' first
    | with_reducible assumption
    | (with_reducible refine Keeps.ite (fun _ => ?_) (fun _ => ?_))
    | with_reducible apply drawFree_keeps
    | with_reducible apply containedError_keeps
    | with_reducible apply deviceStop_keeps
    | fail_if_no_progress (with_reducible refine Keeps.upd ?_ rfl rfl rfl rfl rfl rfl rfl rfl rfl rfl rfl rfl rfl rfl rfl rfl rfl)
    | fail_if_no_progress (with_reducible refine Keeps.updF ?_ rfl rfl rfl rfl rfl rfl rfl rfl rfl rfl rfl)

theorem execCpbFault_keeps {lv : Bool} (block : Byte) {s nx : State} (hx : execCpbFault block s = .next nx) :
    Keeps lv s nx := by
  unfold execCpbFault at hx
  obtain rfl := Host.Outcome.next.inj hx
  have kp := Keeps.refl (b := lv) s
  repeat' first
    | with_reducible assumption
    | (with_reducible refine Keeps.ite (fun _ => ?_) (fun _ => ?_))
    | with_reducible apply deviceStop_keeps

end Sys2Proof.Machine
end

