-- ==== Sys2Proof/Laws/Resets.lean ====
section
/-! SUPPORT. The resets: what they leave is what every state of the device is, and what Keeps says of a state gives soundness. -/

namespace Sys2Proof.Machine

open Sys2Proof

variable {s t : State}

theorem Keeps.sound {b : Bool} (h : Keeps b s t) (k : s.sound) : t.sound :=
  ⟨h.mem k.1, h.blotter k.2.1, h.clocks k.2.2.1, h.range k.2.2.2.1, by rw [h.timeBase]; exact k.2.2.2.2⟩

theorem Blotter.reset_ok : Blotter.reset.ok := ⟨fun _ h => absurd h (List.not_mem_nil), List.nodup_nil⟩

theorem Settings.reset_ok : Settings.reset.ok := by unfold Settings.ok; decide

theorem Power.reset_ok (q : Quad) : Power.reset.quads[q].ok := by
  revert q
  unfold QuadClock.ok
  decide

theorem afterReset_sound (h : s.sound) : (afterReset s).sound := by
  refine ⟨⟨rfl, fun p => ?_⟩, Blotter.reset_ok, Power.reset_ok, Settings.reset_ok, Nat.two_pow_pos 64⟩
  have k := h.1.2 p
  simp only [afterReset, Fin.getElem_fin, Vector.getElem_map] at k ⊢
  exact k

theorem coldReset_sound (h : s.sound) : (coldReset s).sound := by
  have k := afterReset_sound h
  exact ⟨k.1, k.2.1, k.2.2.1, k.2.2.2.1, k.2.2.2.2⟩

theorem warmKept_sound (h : s.sound) : (warmKept s).sound := by
  have k := afterReset_sound h
  exact ⟨k.1, Blotter.ok_of rfl rfl h.2.1, k.2.2.1, k.2.2.2.1, h.2.2.2.2⟩

theorem warmReset_sound (why : Nat) (h : s.sound) : (warmReset s why).sound := by
  unfold warmReset
  exact (bootFromBeat2_keeps (Keeps.refl _)).sound (warmKept_sound ((note_keeps _ _ _ _ _ _ (Keeps.refl (b := false) s)).sound h))

theorem setPower_sound (x : Power) (hc : ∀ q : Quad, x.quads[q].ok) (h : s.sound) : ({ s with power := x } : State).sound :=
  ⟨h.1, h.2.1, hc, h.2.2.2.1, h.2.2.2.2⟩

theorem askReset_sound (why : Nat) (h : s.sound) : (askReset s why).sound := by
  unfold askReset
  split
  · exact setPower_sound _ h.2.2.1 h
  · exact warmReset_sound _ h

/-- What a reset of the whole device leaves alone, whatever it is: the queue, and the blotter's sequence numbers of a warm reset. -/
theorem warmReset_pending (why : Nat) : (warmReset s why).pending = s.pending := by
  unfold warmReset
  rw [(bootFromBeat2_keeps (Keeps.refl _)).pending]
  exact (note_keeps _ _ _ _ _ _ (Keeps.refl (b := false) s)).pending

theorem askReset_pending (why : Nat) : (askReset s why).pending = s.pending := by
  unfold askReset
  split
  · rfl
  · exact warmReset_pending _

theorem warmReset_head (why : Nat) : s.blotter.head ≤ (warmReset s why).blotter.head := by
  unfold warmReset
  have k := (bootFromBeat2_keeps (Keeps.refl (warmKept (note s 4 (unitCpb 3) 0 why 0 0)))).head
  exact Nat.le_trans (note_keeps _ _ _ _ _ _ (Keeps.refl (b := false) s)).head k

theorem askReset_head (why : Nat) : s.blotter.head ≤ (askReset s why).blotter.head := by
  unfold askReset
  split
  · exact Nat.le_refl _
  · exact warmReset_head _

/-! ### The commands that may reset the device -/

theorem execPowerGood_sound (eeprom seed : Option Bytes) {s nx : State} (hx : execPowerGood eeprom seed s = .next nx) (h : s.sound) :
    nx.sound := by
  unfold execPowerGood at hx
  obtain rfl := Host.Outcome.next.inj hx
  split
  · exact h
  · extract_lets s1
    have k : s1.sound := coldReset_sound (s := { s with silicon := _ }) h
    clear_value s1
    refine (bootFromBeat2_keeps (beatEnds_keeps _ (Keeps.refl _))).sound ?_
    exact ⟨k.1, k.2.1, k.2.2.1, k.2.2.2.1, k.2.2.2.2⟩

theorem execPowerGoodLost_sound {s nx : State} (hx : execPowerGoodLost s = .next nx) (h : s.sound) : nx.sound := by
  unfold execPowerGoodLost at hx
  obtain rfl := Host.Outcome.next.inj hx
  split
  · exact coldReset_sound h
  · exact h

theorem execModResetN_sound {s nx : State} (hx : execModResetN s = .next nx) (h : s.sound) : nx.sound := by
  unfold execModResetN at hx
  obtain rfl := Host.Outcome.next.inj hx
  split
  · exact h
  · dsimp only
    split
    · exact askReset_sound _ h
    · exact h

theorem execResetDevice_sound (inst : Byte) (args : Bytes) {s nx : State} (hx : execResetDevice inst args s = .next nx) (h : s.sound) :
    nx.sound := by
  unfold execResetDevice at hx
  obtain rfl := Host.Outcome.next.inj hx
  unfold mgmtServe
  have kr : ∀ d st, (mgmtRespond s d st []).sound := fun d st => (mgmtRespond_keeps _ _ _ (Keeps.refl (b := true) s)).sound h
  dsimp only
  split
  · exact h
  · split
    · exact kr _ _
    · split
      · exact kr _ _
      · split
        · exact askReset_sound _ (kr _ _)
        · exact kr _ _

theorem execThermalReading_sound (l : List (Nat × Nat)) {s nx : State} (hx : execThermalReading l s = .next nx) (h : s.sound) :
    nx.sound := by
  unfold execThermalReading at hx
  obtain rfl := Host.Outcome.next.inj hx
  split
  · exact h
  · dsimp only
    have k1 := setPower_sound { s.power with tjMax := min (hottest l (fun _ => true)) 255, hot := decide (95 ≤ hottest l (fun _ => true)) }
      h.2.2.1 h
    have kk : ∀ s1, Keeps true s1 (allQuads.foldl (fun s q => thermalQuad s q (hottest l (fun n => n / 20 == q.val))) s1) :=
      fun s1 => Keeps.foldl (fun _ _ k => thermalQuad_keeps _ _ k) (Keeps.refl s1)
    split
    · split
      · exact warmReset_sound _ k1
      · exact k1
    · split
      · exact (thermalTrip_keeps _ (kk _)).sound k1
      · exact (kk _).sound k1

/-! ### The queue and HEAD through a reset -/

/-- The queue is as it was, and HEAD of the blotter has not fallen. -/
def Follows (s t : State) : Prop := t.pending = s.pending ∧ s.blotter.head ≤ t.blotter.head

theorem Follows.refl (s : State) : Follows s s := ⟨rfl, Nat.le_refl _⟩

theorem Keeps.follows {b : Bool} {r s t : State} (h : Keeps b s t) (k : Follows r s) : Follows r t :=
  ⟨h.pending.trans k.1, Nat.le_trans k.2 h.head⟩

theorem warmReset_follows {r s : State} (why : Nat) (k : Follows r s) : Follows r (warmReset s why) :=
  ⟨(warmReset_pending why).trans k.1, Nat.le_trans k.2 (warmReset_head why)⟩

theorem askReset_follows {r s : State} (why : Nat) (k : Follows r s) : Follows r (askReset s why) :=
  ⟨(askReset_pending why).trans k.1, Nat.le_trans k.2 (askReset_head why)⟩

theorem execModResetN_follows {s nx : State} (hx : execModResetN s = .next nx) : Follows s nx := by
  unfold execModResetN at hx
  obtain rfl := Host.Outcome.next.inj hx
  split
  · exact Follows.refl s
  · dsimp only
    split
    · exact askReset_follows _ ⟨rfl, Nat.le_refl _⟩
    · exact ⟨rfl, Nat.le_refl _⟩

theorem execResetDevice_follows (inst : Byte) (args : Bytes) {s nx : State} (hx : execResetDevice inst args s = .next nx) :
    Follows s nx := by
  unfold execResetDevice at hx
  obtain rfl := Host.Outcome.next.inj hx
  unfold mgmtServe
  have kr : ∀ d st, Follows s (mgmtRespond s d st []) := fun _ _ => ⟨rfl, Nat.le_refl _⟩
  dsimp only
  split
  · exact Follows.refl s
  · split
    · exact kr _ _
    · split
      · exact kr _ _
      · split
        · exact askReset_follows _ (kr _ _)
        · exact kr _ _

theorem execThermalReading_follows (l : List (Nat × Nat)) {s nx : State} (hx : execThermalReading l s = .next nx) : Follows s nx := by
  unfold execThermalReading at hx
  obtain rfl := Host.Outcome.next.inj hx
  split
  · exact Follows.refl s
  · dsimp only
    have k1 : Follows s { s with power := { s.power with tjMax := min (hottest l (fun _ => true)) 255,
                                                         hot := decide (95 ≤ hottest l (fun _ => true)) } } := ⟨rfl, Nat.le_refl _⟩
    have kk : ∀ s1, Keeps true s1 (allQuads.foldl (fun s q => thermalQuad s q (hottest l (fun n => n / 20 == q.val))) s1) :=
      fun s1 => Keeps.foldl (fun _ _ k => thermalQuad_keeps _ _ k) (Keeps.refl s1)
    split
    · split
      · exact warmReset_follows _ k1
      · exact k1
    · split
      · exact (thermalTrip_keeps _ (kk _)).follows k1
      · exact (kk _).follows k1

end Sys2Proof.Machine
end

