-- ==== Sys2Proof/Laws/Exec.lean ====
section
/-! SUPPORT. What carrying out a command keeps: one lemma for the commands that do not reset the device, one for those that write no
control register besides, and soundness for all. -/

namespace Sys2Proof.Machine

open Sys2Proof

theorem exec_keeps {c : Instr} (hc : mayReset c = false) {s t : State} (hx : exec c s = .next t) : Keeps false s t := by
  cases c with
  | nop _ _ => exact execNop_keeps _ _ hx
  | fence _ _ => exact execFence_keeps _ _ hx
  | copyIn _ _ => exact execCopyIn_keeps _ _ hx
  | copyOut _ _ => exact execCopyOut_keeps _ _ hx
  | copyComplete _ _ => exact execCopyComplete_keeps _ _ hx
  | loadFolio _ _ => exact execLoadFolio_keeps _ _ hx
  | finalizationStart _ _ => exact execFinalizationStart_keeps _ _ hx
  | finalizationComplete _ => exact execFinalizationComplete_keeps _ hx
  | finalizationTimeout _ => exact execFinalizationTimeout_keeps _ hx
  | unloadFolio _ _ => exact execUnloadFolio_keeps _ _ hx
  | run _ _ => exact execRun_keeps _ _ hx
  | step _ _ => exact execStep_keeps _ _ hx
  | jobStart _ => exact execJobStart_keeps _ hx
  | suspend _ _ => exact execSuspend_keeps _ _ hx
  | resume _ _ => exact execResume_keeps _ _ hx
  | cancel _ _ => exact execCancel_keeps _ _ hx
  | checkpointWrite _ _ => exact execCheckpointWrite_keeps _ _ hx
  | checkpointBoundary _ => exact execCheckpointBoundary_keeps _ hx
  | snapshotCopyDone _ => exact execSnapshotCopyDone_keeps _ hx
  | checkpointDrainDone _ => exact execCheckpointDrainDone_keeps _ hx
  | checkpointRead _ _ => exact execCheckpointRead_keeps _ _ hx
  | reshard _ _ => exact execReshard_keeps _ _ hx
  | pair _ _ => exact execPair_keeps _ _ hx
  | unpair _ _ => exact execUnpair_keeps _ _ hx
  | query _ _ => exact execQuery_keeps _ _ hx
  | telemetrySnapshot _ _ => exact execTelemetrySnapshot_keeps _ _ hx
  | blotterRead _ _ => exact execBlotterRead_keeps _ _ hx
  | attest _ _ => exact execAttest_keeps _ _ hx
  | powerPolicy _ _ _ => exact execPowerPolicy_keeps _ _ _ hx
  | doorbellRead _ => exact execDoorbellRead_keeps _ hx
  | nudge _ _ => exact execNudge_keeps _ _ hx
  | coalUs _ _ => exact execCoalUs_keeps _ _ hx
  | registerWrite _ _ _ _ => exact execRegisterWrite_keeps _ _ _ _ hx
  | ringEnable _ _ _ _ => exact execRingEnable_keeps _ _ _ _ hx
  | partCtrl _ _ _ => exact execPartCtrl_keeps _ _ _ hx
  | errStatus _ _ _ => exact execErrStatus_keeps _ _ _ hx
  | hostLock _ _ => exact execHostLock_keeps _ _ hx
  | vectorCtrl _ _ _ => exact execVectorCtrl_keeps _ _ _ hx
  | bar4Access _ _ _ => exact execBar4Access_keeps _ _ _ hx
  | portReset _ _ => exact execPortReset_keeps _ _ hx
  | perst _ => exact execPerst_keeps _ hx
  | pcieLinkUp _ _ _ => exact execPcieLinkUp_keeps _ _ _ hx
  | go _ _ => exact execGo_keeps _ _ hx
  | imageFetchDone _ => exact execImageFetchDone_keeps _ hx
  | imageVerifyDone => exact execImageVerifyDone_keeps hx
  | bootReady _ => exact execBootReady_keeps _ hx
  | powerGood _ _ => exact absurd (show true = false from hc) (by decide)
  | powerGoodLost => exact absurd (show true = false from hc) (by decide)
  | modResetN => exact absurd (show true = false from hc) (by decide)
  | getCertificate _ _ => exact execGetCertificate_keeps _ _ hx
  | managementAttest _ _ => exact execManagementAttest_keeps _ _ hx
  | getBoot _ _ => exact execGetBoot_keeps _ _ hx
  | resetDevice _ _ => exact absurd (show true = false from hc) (by decide)
  | assignPartition _ _ => exact execAssignPartition_keeps _ _ hx
  | releasePartition _ _ => exact execReleasePartition_keeps _ _ hx
  | setCarveout _ _ => exact execSetCarveout_keeps _ _ hx
  | regionZeroed _ => exact execRegionZeroed_keeps _ hx
  | setCoord _ _ => exact execSetCoord_keeps _ _ hx
  | setJob _ _ => exact execSetJob_keeps _ _ hx
  | clearJob _ _ => exact execClearJob_keeps _ _ hx
  | setPower _ _ => exact execSetPower_keeps _ _ hx
  | blotterStatus _ _ => exact execBlotterStatus_keeps _ _ hx
  | managementBlotterRead _ _ => exact execManagementBlotterRead_keeps _ _ hx
  | blotterUnfreeze _ _ => exact execBlotterUnfreeze_keeps _ _ hx
  | blotterConfig _ _ => exact execBlotterConfig_keeps _ _ hx
  | errorStatus _ _ => exact execErrorStatus_keeps _ _ hx
  | pldmSensorRead _ => exact execPldmSensorRead_keeps _ hx
  | sysRead _ => exact execSysRead_keeps _ hx
  | sysWrite _ => exact execSysWrite_keeps _ hx
  | sysReply _ => exact execSysReply_keeps _ hx
  | sysMessage _ => exact execSysMessage_keeps _ hx
  | fmTransmit _ _ => exact execFmTransmit_keeps _ _ hx
  | myCoord _ => exact execMyCoord_keeps _ hx
  | bankCtrl _ => exact execBankCtrl_keeps _ hx
  | fportEnable _ => exact execFportEnable_keeps _ hx
  | hbmRegion _ => exact execHbmRegion_keeps _ hx
  | settingsLock _ => exact execSettingsLock_keeps _ hx
  | holdPair _ => exact execHoldPair_keeps _ hx
  | resetPair _ => exact execResetPair_keeps _ hx
  | teardown _ => exact execTeardown_keeps _ hx
  | retrainPort _ => exact execRetrainPort_keeps _ hx
  | trainingFrame _ _ _ => exact execTrainingFrame_keeps _ _ _ hx
  | measureComplete _ _ _ => exact execMeasureComplete_keeps _ _ _ hx
  | trainingTimeout _ => exact execTrainingTimeout_keeps _ hx
  | trainingRetry _ => exact execTrainingRetry_keeps _ hx
  | serWindow _ => exact execSerWindow_keeps _ hx
  | lossOfLock _ _ => exact execLossOfLock_keeps _ _ hx
  | lossOfSignal _ => exact execLossOfSignal_keeps _ hx
  | codeword _ _ => exact execCodeword_keeps _ _ hx
  | codewordSend _ => exact execCodewordSend_keeps _ hx
  | packetRoute _ => exact execPacketRoute_keeps _ hx
  | packetInject _ => exact execPacketInject_keeps _ hx
  | packetDelivery _ => exact execPacketDelivery_keeps _ hx
  | e2eAck _ => exact execE2eAck_keeps _ hx
  | ackTimer _ _ => exact execAckTimer_keeps _ _ hx
  | resendTimer _ _ => exact execResendTimer_keeps _ _ hx
  | congestionSample => exact execCongestionSample_keeps hx
  | strokeOpen _ => exact execStrokeOpen_keeps _ hx
  | computeEnd _ => exact execComputeEnd_keeps _ hx
  | strokeClose _ => exact execStrokeClose_keeps _ hx
  | dmaFence _ => exact execDmaFence_keeps _ hx
  | strokeStall _ => exact execStrokeStall_keeps _ hx
  | stepComplete _ => exact execStepComplete_keeps _ hx
  | fillerCommit _ => exact execFillerCommit_keeps _ hx
  | fillerCommitDone _ => exact execFillerCommitDone_keeps _ hx
  | matmul _ _ => exact execMatmul_keeps _ _ hx
  | expertMatmul _ _ => exact execExpertMatmul_keeps _ _ hx
  | amax _ _ => exact execAmax_keeps _ _ hx
  | convert _ _ => exact execConvert_keeps _ _ hx
  | eltwise _ _ => exact execEltwise_keeps _ _ hx
  | activation _ _ => exact execActivation_keeps _ _ hx
  | norm _ _ => exact execNorm_keeps _ _ hx
  | softmax _ _ => exact execSoftmax_keeps _ _ hx
  | loss _ _ => exact execLoss_keeps _ _ hx
  | reduce _ _ => exact execReduce_keeps _ _ hx
  | topk _ _ => exact execTopk_keeps _ _ hx
  | route _ _ => exact execRoute_keeps _ _ hx
  | combine _ _ => exact execCombine_keeps _ _ hx
  | routeBack _ _ => exact execRouteBack_keeps _ _ hx
  | gateGrad _ _ => exact execGateGrad_keeps _ _ hx
  | bucketAdd _ _ => exact execBucketAdd_keeps _ _ hx
  | lowrankFactor _ _ => exact execLowrankFactor_keeps _ _ hx
  | update _ _ => exact execUpdate_keeps _ _ hx
  | gatherParams _ _ => exact execGatherParams_keeps _ _ hx
  | copy _ _ => exact execCopy_keeps _ _ hx
  | transpose _ _ => exact execTranspose_keeps _ _ hx
  | rowGather _ _ => exact execRowGather_keeps _ _ hx
  | rowScatter _ _ => exact execRowScatter_keeps _ _ hx
  | permute _ _ => exact execPermute_keeps _ _ hx
  | pairedSend _ _ => exact execPairedSend_keeps _ _ hx
  | pairedRecv _ _ => exact execPairedRecv_keeps _ _ hx
  | roamStart _ _ => exact execRoamStart_keeps _ _ hx
  | tokenWait _ _ => exact execTokenWait_keeps _ _ hx
  | powerRest _ _ => exact execPowerRest_keeps _ _ hx
  | load _ _ => exact execLoad_keeps _ _ hx
  | store _ _ => exact execStore_keeps _ _ hx
  | atomic _ _ => exact execAtomic_keeps _ _ hx
  | alu _ _ => exact execAlu_keeps _ _ hx
  | branch _ _ => exact execBranch_keeps _ _ hx
  | hash _ _ => exact execHash_keeps _ _ hx
  | tokenSignal _ _ => exact execTokenSignal_keeps _ _ hx
  | endProgram _ _ => exact execEndProgram_keeps _ _ hx
  | trackerGrant _ => exact execTrackerGrant_keeps _ hx
  | memReply _ _ _ => exact execMemReply_keeps _ _ _ hx
  | memLoad _ => exact execMemLoad_keeps _ hx
  | memStore _ => exact execMemStore_keeps _ hx
  | memAtomic _ => exact execMemAtomic_keeps _ hx
  | lineQueueServe _ _ => exact execLineQueueServe_keeps _ _ hx
  | exchData _ => exact execExchData_keeps _ hx
  | endMarker _ => exact execEndMarker_keeps _ hx
  | readyMarker _ => exact execReadyMarker_keeps _ hx
  | routedData _ => exact execRoutedData_keeps _ hx
  | ductusDrain _ => exact execDuctusDrain_keeps _ hx
  | ductusDrainAckReturn _ => exact execDuctusDrainAckReturn_keeps _ hx
  | ductusDrainAck _ => exact execDuctusDrainAck_keeps _ hx
  | instanceOpen _ => exact execInstanceOpen_keeps _ hx
  | data _ => exact execData_keeps _ hx
  | header _ => exact execHeader_keeps _ hx
  | credit _ => exact execCredit_keeps _ hx
  | ready _ => exact execReady_keeps _ hx
  | lenientDeadline _ _ _ => exact execLenientDeadline_keeps _ _ _ hx
  | bitmap _ => exact execBitmap_keeps _ hx
  | drain _ => exact execDrain_keeps _ hx
  | drainAckReturn _ => exact execDrainAckReturn_keeps _ hx
  | drainAck _ => exact execDrainAck_keeps _ hx
  | gatherReq _ => exact execGatherReq_keeps _ hx
  | gatherServe _ => exact execGatherServe_keeps _ hx
  | gatherData _ => exact execGatherData_keeps _ hx
  | ckptData _ => exact execCkptData_keeps _ hx
  | ckptCredit _ => exact execCkptCredit_keeps _ hx
  | ckptEnd _ => exact execCkptEnd_keeps _ hx
  | ckptPull _ => exact execCkptPull_keeps _ hx
  | ckptDone _ => exact execCkptDone_keeps _ hx
  | domainWakeStart _ => exact execDomainWakeStart_keeps _ hx
  | domainWakeDone _ => exact execDomainWakeDone_keeps _ hx
  | domainEntryDone _ => exact execDomainEntryDone_keeps _ hx
  | bandIdle _ => exact execBandIdle_keeps _ hx
  | hbmIdle => exact execHbmIdle_keeps hx
  | quncoreIdle _ => exact execQuncoreIdle_keeps _ hx
  | pcieIdle _ => exact execPcieIdle_keeps _ hx
  | trickleGuard _ _ => exact execTrickleGuard_keeps _ _ hx
  | brownout _ => exact execBrownout_keeps _ hx
  | powerSample _ _ => exact execPowerSample_keeps _ _ hx
  | thermalReading _ => exact absurd (show true = false from hc) (by decide)
  | overTemp _ => exact execOverTemp_keeps _ hx
  | inputRange _ => exact execInputRange_keeps _ hx
  | droopExcursion _ _ => exact execDroopExcursion_keeps _ _ hx
  | droopEnd _ _ _ => exact execDroopEnd_keeps _ _ _ hx
  | aclkStep _ => exact execAclkStep_keeps _ hx
  | localStopTimeout _ => exact execLocalStopTimeout_keeps _ hx
  | heartbeatTick _ => exact execHeartbeatTick_keeps _ hx
  | ceSummary => exact execCeSummary_keeps hx
  | scrub _ _ => exact execScrub_keeps _ _ hx
  | modResetNRelease => exact execModResetNRelease_keeps hx
  | cageOverCurrent _ => exact execCageOverCurrent_keeps _ hx
  | cableReseat _ => exact execCableReseat_keeps _ hx
  | checkpointReadDone _ _ => exact execCheckpointReadDone_keeps _ _ hx
  | pcieDState _ _ => exact execPcieDState_keeps _ _ hx
  | bridgeLinkCrcFail _ => exact execBridgeLinkCrcFail_keeps _ hx
  | cpbFault _ => exact execCpbFault_keeps _ hx

theorem exec_keeps_held {c : Instr} (hc : mayReset c = false) (hw : writesControl c = false) {s t : State}
    (hx : exec c s = .next t) : Keeps true s t := by
  cases c with
  | nop _ _ => exact execNop_keeps _ _ hx
  | fence _ _ => exact execFence_keeps _ _ hx
  | copyIn _ _ => exact execCopyIn_keeps _ _ hx
  | copyOut _ _ => exact execCopyOut_keeps _ _ hx
  | copyComplete _ _ => exact execCopyComplete_keeps _ _ hx
  | loadFolio _ _ => exact execLoadFolio_keeps _ _ hx
  | finalizationStart _ _ => exact execFinalizationStart_keeps _ _ hx
  | finalizationComplete _ => exact execFinalizationComplete_keeps _ hx
  | finalizationTimeout _ => exact execFinalizationTimeout_keeps _ hx
  | unloadFolio _ _ => exact execUnloadFolio_keeps _ _ hx
  | run _ _ => exact execRun_keeps _ _ hx
  | step _ _ => exact execStep_keeps _ _ hx
  | jobStart _ => exact execJobStart_keeps _ hx
  | suspend _ _ => exact execSuspend_keeps _ _ hx
  | resume _ _ => exact execResume_keeps _ _ hx
  | cancel _ _ => exact execCancel_keeps _ _ hx
  | checkpointWrite _ _ => exact execCheckpointWrite_keeps _ _ hx
  | checkpointBoundary _ => exact execCheckpointBoundary_keeps _ hx
  | snapshotCopyDone _ => exact execSnapshotCopyDone_keeps _ hx
  | checkpointDrainDone _ => exact execCheckpointDrainDone_keeps _ hx
  | checkpointRead _ _ => exact execCheckpointRead_keeps _ _ hx
  | reshard _ _ => exact execReshard_keeps _ _ hx
  | pair _ _ => exact execPair_keeps _ _ hx
  | unpair _ _ => exact execUnpair_keeps _ _ hx
  | query _ _ => exact execQuery_keeps _ _ hx
  | telemetrySnapshot _ _ => exact execTelemetrySnapshot_keeps _ _ hx
  | blotterRead _ _ => exact execBlotterRead_keeps _ _ hx
  | attest _ _ => exact execAttest_keeps _ _ hx
  | powerPolicy _ _ _ => exact execPowerPolicy_keeps _ _ _ hx
  | doorbellRead _ => exact execDoorbellRead_keeps _ hx
  | nudge _ _ => exact execNudge_keeps _ _ hx
  | coalUs _ _ => exact execCoalUs_keeps _ _ hx
  | registerWrite _ _ _ _ => exact absurd (show true = false from hw) (by decide)
  | ringEnable _ _ _ _ => exact execRingEnable_keeps _ _ _ _ hx
  | partCtrl _ _ _ => exact execPartCtrl_keeps _ _ _ hx
  | errStatus _ _ _ => exact execErrStatus_keeps _ _ _ hx
  | hostLock _ _ => exact execHostLock_keeps _ _ hx
  | vectorCtrl _ _ _ => exact execVectorCtrl_keeps _ _ _ hx
  | bar4Access _ _ _ => exact execBar4Access_keeps _ _ _ hx
  | portReset _ _ => exact absurd (show true = false from hw) (by decide)
  | perst _ => exact absurd (show true = false from hw) (by decide)
  | pcieLinkUp _ _ _ => exact absurd (show true = false from hw) (by decide)
  | go _ _ => exact absurd (show true = false from hw) (by decide)
  | imageFetchDone _ => exact absurd (show true = false from hw) (by decide)
  | imageVerifyDone => exact absurd (show true = false from hw) (by decide)
  | bootReady _ => exact absurd (show true = false from hw) (by decide)
  | powerGood _ _ => exact absurd (show true = false from hc) (by decide)
  | powerGoodLost => exact absurd (show true = false from hc) (by decide)
  | modResetN => exact absurd (show true = false from hc) (by decide)
  | getCertificate _ _ => exact execGetCertificate_keeps _ _ hx
  | managementAttest _ _ => exact execManagementAttest_keeps _ _ hx
  | getBoot _ _ => exact execGetBoot_keeps _ _ hx
  | resetDevice _ _ => exact absurd (show true = false from hc) (by decide)
  | assignPartition _ _ => exact execAssignPartition_keeps _ _ hx
  | releasePartition _ _ => exact execReleasePartition_keeps _ _ hx
  | setCarveout _ _ => exact execSetCarveout_keeps _ _ hx
  | regionZeroed _ => exact execRegionZeroed_keeps _ hx
  | setCoord _ _ => exact execSetCoord_keeps _ _ hx
  | setJob _ _ => exact execSetJob_keeps _ _ hx
  | clearJob _ _ => exact execClearJob_keeps _ _ hx
  | setPower _ _ => exact execSetPower_keeps _ _ hx
  | blotterStatus _ _ => exact execBlotterStatus_keeps _ _ hx
  | managementBlotterRead _ _ => exact execManagementBlotterRead_keeps _ _ hx
  | blotterUnfreeze _ _ => exact execBlotterUnfreeze_keeps _ _ hx
  | blotterConfig _ _ => exact execBlotterConfig_keeps _ _ hx
  | errorStatus _ _ => exact execErrorStatus_keeps _ _ hx
  | pldmSensorRead _ => exact execPldmSensorRead_keeps _ hx
  | sysRead _ => exact execSysRead_keeps _ hx
  | sysWrite _ => exact absurd (show true = false from hw) (by decide)
  | sysReply _ => exact execSysReply_keeps _ hx
  | sysMessage _ => exact execSysMessage_keeps _ hx
  | fmTransmit _ _ => exact execFmTransmit_keeps _ _ hx
  | myCoord _ => exact absurd (show true = false from hw) (by decide)
  | bankCtrl _ => exact absurd (show true = false from hw) (by decide)
  | fportEnable _ => exact absurd (show true = false from hw) (by decide)
  | hbmRegion _ => exact absurd (show true = false from hw) (by decide)
  | settingsLock _ => exact absurd (show true = false from hw) (by decide)
  | holdPair _ => exact execHoldPair_keeps _ hx
  | resetPair _ => exact execResetPair_keeps _ hx
  | teardown _ => exact execTeardown_keeps _ hx
  | retrainPort _ => exact execRetrainPort_keeps _ hx
  | trainingFrame _ _ _ => exact execTrainingFrame_keeps _ _ _ hx
  | measureComplete _ _ _ => exact execMeasureComplete_keeps _ _ _ hx
  | trainingTimeout _ => exact execTrainingTimeout_keeps _ hx
  | trainingRetry _ => exact execTrainingRetry_keeps _ hx
  | serWindow _ => exact execSerWindow_keeps _ hx
  | lossOfLock _ _ => exact execLossOfLock_keeps _ _ hx
  | lossOfSignal _ => exact execLossOfSignal_keeps _ hx
  | codeword _ _ => exact execCodeword_keeps _ _ hx
  | codewordSend _ => exact execCodewordSend_keeps _ hx
  | packetRoute _ => exact execPacketRoute_keeps _ hx
  | packetInject _ => exact execPacketInject_keeps _ hx
  | packetDelivery _ => exact execPacketDelivery_keeps _ hx
  | e2eAck _ => exact execE2eAck_keeps _ hx
  | ackTimer _ _ => exact execAckTimer_keeps _ _ hx
  | resendTimer _ _ => exact execResendTimer_keeps _ _ hx
  | congestionSample => exact execCongestionSample_keeps hx
  | strokeOpen _ => exact execStrokeOpen_keeps _ hx
  | computeEnd _ => exact execComputeEnd_keeps _ hx
  | strokeClose _ => exact execStrokeClose_keeps _ hx
  | dmaFence _ => exact execDmaFence_keeps _ hx
  | strokeStall _ => exact execStrokeStall_keeps _ hx
  | stepComplete _ => exact execStepComplete_keeps _ hx
  | fillerCommit _ => exact execFillerCommit_keeps _ hx
  | fillerCommitDone _ => exact execFillerCommitDone_keeps _ hx
  | matmul _ _ => exact execMatmul_keeps _ _ hx
  | expertMatmul _ _ => exact execExpertMatmul_keeps _ _ hx
  | amax _ _ => exact execAmax_keeps _ _ hx
  | convert _ _ => exact execConvert_keeps _ _ hx
  | eltwise _ _ => exact execEltwise_keeps _ _ hx
  | activation _ _ => exact execActivation_keeps _ _ hx
  | norm _ _ => exact execNorm_keeps _ _ hx
  | softmax _ _ => exact execSoftmax_keeps _ _ hx
  | loss _ _ => exact execLoss_keeps _ _ hx
  | reduce _ _ => exact execReduce_keeps _ _ hx
  | topk _ _ => exact execTopk_keeps _ _ hx
  | route _ _ => exact execRoute_keeps _ _ hx
  | combine _ _ => exact execCombine_keeps _ _ hx
  | routeBack _ _ => exact execRouteBack_keeps _ _ hx
  | gateGrad _ _ => exact execGateGrad_keeps _ _ hx
  | bucketAdd _ _ => exact execBucketAdd_keeps _ _ hx
  | lowrankFactor _ _ => exact execLowrankFactor_keeps _ _ hx
  | update _ _ => exact execUpdate_keeps _ _ hx
  | gatherParams _ _ => exact execGatherParams_keeps _ _ hx
  | copy _ _ => exact execCopy_keeps _ _ hx
  | transpose _ _ => exact execTranspose_keeps _ _ hx
  | rowGather _ _ => exact execRowGather_keeps _ _ hx
  | rowScatter _ _ => exact execRowScatter_keeps _ _ hx
  | permute _ _ => exact execPermute_keeps _ _ hx
  | pairedSend _ _ => exact execPairedSend_keeps _ _ hx
  | pairedRecv _ _ => exact execPairedRecv_keeps _ _ hx
  | roamStart _ _ => exact execRoamStart_keeps _ _ hx
  | tokenWait _ _ => exact execTokenWait_keeps _ _ hx
  | powerRest _ _ => exact execPowerRest_keeps _ _ hx
  | load _ _ => exact execLoad_keeps _ _ hx
  | store _ _ => exact execStore_keeps _ _ hx
  | atomic _ _ => exact execAtomic_keeps _ _ hx
  | alu _ _ => exact execAlu_keeps _ _ hx
  | branch _ _ => exact execBranch_keeps _ _ hx
  | hash _ _ => exact execHash_keeps _ _ hx
  | tokenSignal _ _ => exact execTokenSignal_keeps _ _ hx
  | endProgram _ _ => exact execEndProgram_keeps _ _ hx
  | trackerGrant _ => exact execTrackerGrant_keeps _ hx
  | memReply _ _ _ => exact execMemReply_keeps _ _ _ hx
  | memLoad _ => exact execMemLoad_keeps _ hx
  | memStore _ => exact execMemStore_keeps _ hx
  | memAtomic _ => exact execMemAtomic_keeps _ hx
  | lineQueueServe _ _ => exact execLineQueueServe_keeps _ _ hx
  | exchData _ => exact execExchData_keeps _ hx
  | endMarker _ => exact execEndMarker_keeps _ hx
  | readyMarker _ => exact execReadyMarker_keeps _ hx
  | routedData _ => exact execRoutedData_keeps _ hx
  | ductusDrain _ => exact execDuctusDrain_keeps _ hx
  | ductusDrainAckReturn _ => exact execDuctusDrainAckReturn_keeps _ hx
  | ductusDrainAck _ => exact execDuctusDrainAck_keeps _ hx
  | instanceOpen _ => exact execInstanceOpen_keeps _ hx
  | data _ => exact execData_keeps _ hx
  | header _ => exact execHeader_keeps _ hx
  | credit _ => exact execCredit_keeps _ hx
  | ready _ => exact execReady_keeps _ hx
  | lenientDeadline _ _ _ => exact execLenientDeadline_keeps _ _ _ hx
  | bitmap _ => exact execBitmap_keeps _ hx
  | drain _ => exact execDrain_keeps _ hx
  | drainAckReturn _ => exact execDrainAckReturn_keeps _ hx
  | drainAck _ => exact execDrainAck_keeps _ hx
  | gatherReq _ => exact execGatherReq_keeps _ hx
  | gatherServe _ => exact execGatherServe_keeps _ hx
  | gatherData _ => exact execGatherData_keeps _ hx
  | ckptData _ => exact execCkptData_keeps _ hx
  | ckptCredit _ => exact execCkptCredit_keeps _ hx
  | ckptEnd _ => exact execCkptEnd_keeps _ hx
  | ckptPull _ => exact execCkptPull_keeps _ hx
  | ckptDone _ => exact execCkptDone_keeps _ hx
  | domainWakeStart _ => exact execDomainWakeStart_keeps _ hx
  | domainWakeDone _ => exact absurd (show true = false from hw) (by decide)
  | domainEntryDone _ => exact execDomainEntryDone_keeps _ hx
  | bandIdle _ => exact execBandIdle_keeps _ hx
  | hbmIdle => exact execHbmIdle_keeps hx
  | quncoreIdle _ => exact execQuncoreIdle_keeps _ hx
  | pcieIdle _ => exact execPcieIdle_keeps _ hx
  | trickleGuard _ _ => exact execTrickleGuard_keeps _ _ hx
  | brownout _ => exact execBrownout_keeps _ hx
  | powerSample _ _ => exact execPowerSample_keeps _ _ hx
  | thermalReading _ => exact absurd (show true = false from hc) (by decide)
  | overTemp _ => exact execOverTemp_keeps _ hx
  | inputRange _ => exact execInputRange_keeps _ hx
  | droopExcursion _ _ => exact execDroopExcursion_keeps _ _ hx
  | droopEnd _ _ _ => exact execDroopEnd_keeps _ _ _ hx
  | aclkStep _ => exact execAclkStep_keeps _ hx
  | localStopTimeout _ => exact execLocalStopTimeout_keeps _ hx
  | heartbeatTick _ => exact execHeartbeatTick_keeps _ hx
  | ceSummary => exact execCeSummary_keeps hx
  | scrub _ _ => exact absurd (show true = false from hw) (by decide)
  | modResetNRelease => exact absurd (show true = false from hw) (by decide)
  | cageOverCurrent _ => exact execCageOverCurrent_keeps _ hx
  | cableReseat _ => exact execCableReseat_keeps _ hx
  | checkpointReadDone _ _ => exact execCheckpointReadDone_keeps _ _ hx
  | pcieDState _ _ => exact execPcieDState_keeps _ _ hx
  | bridgeLinkCrcFail _ => exact absurd (show true = false from hw) (by decide)
  | cpbFault _ => exact execCpbFault_keeps _ hx

theorem exec_sound (c : Instr) {s t : State} (hx : exec c s = .next t) (h : s.sound) : t.sound := by
  by_cases hc : mayReset c = false
  · exact (exec_keeps hc hx).sound h
  · cases c with
    | powerGood _ _ => exact execPowerGood_sound _ _ hx h
    | powerGoodLost => exact execPowerGoodLost_sound hx h
    | modResetN => exact execModResetN_sound hx h
    | resetDevice _ _ => exact execResetDevice_sound _ _ hx h
    | thermalReading _ => exact execThermalReading_sound _ hx h
    | _ => exact absurd rfl hc

end Sys2Proof.Machine
end

