-- ==== Sys2Proof/Laws/Records.lean ====
section
/-! SUPPORT. The FINAL record of a command in a quiet state: it is posted at once, it is the only one, and the command leaves flight. -/

namespace Sys2Proof.Machine

open Sys2Proof

theorem findSome?_only {α β : Type} {f : α → Option β} {a : α} {b : β} (ha : f a = some b) :
    ∀ {l : List α}, a ∈ l → (∀ x ∈ l, f x = none ∨ x = a) → l.findSome? f = some b
  | [], h, _ => absurd h List.not_mem_nil
  | x :: l, h, k => by
    rw [List.findSome?_cons]
    rcases k x List.mem_cons_self with e | e
    · rw [e]
      rcases List.mem_cons.mp h with e2 | e2
      · rw [← e2, ha] at e; cases e
      · exact findSome?_only ha e2 (fun y hy => k y (List.mem_cons_of_mem _ hy))
    · rw [e, ha]

/-- Nothing waits: no record can be posted. -/
theorem nextPostAny_none {s : State} (h : ∀ p : Part, ∀ q : Fin 16, s.parts[p].cq[q].waiting = []) : nextPostAny s = none := by
  unfold nextPostAny
  rw [List.findSome?_eq_none_iff]
  intro x _
  have e : nextPost s x.1 x.2 = none := by
    unfold nextPost
    simp only [h x.1 x.2, List.find?_nil, ite_self]
  rw [e]

theorem drainedFence_none {s : State} (h : ∀ d ∈ s.cmds, d.fence = none) : drainedFence s = none := by
  unfold drainedFence
  rw [List.find?_eq_none]
  intro d hd
  rw [h d hd]
  decide

/-- With nothing waiting the pump rests. -/
theorem pumpFuel_quiet {s : State} (h : ∀ p : Part, ∀ q : Fin 16, s.parts[p].cq[q].waiting = []) (k : ∀ d ∈ s.cmds, d.fence = none) :
    ∀ n, pumpFuel n s = s
  | 0 => rfl
  | n + 1 => by
    unfold pumpFuel
    rw [nextPostAny_none h, drainedFence_none k]

/-- One waiting record that can be posted is posted, and the pump rests if nothing waits after it. -/
theorem pump_one {s : State} {p : Part} {q : Fin 16} {r : Completion} (h : nextPostAny s = some (p, q, r))
    (h1 : ∀ p' : Part, ∀ q' : Fin 16, (postOne s p q r).parts[p'].cq[q'].waiting = [])
    (h2 : ∀ d ∈ (postOne s p q r).cmds, d.fence = none) : pump s = postOne s p q r := by
  have e : ∀ n, pumpFuel (n + 1) s = postOne s p q r := fun n => by
    conv_lhs => unfold pumpFuel
    rw [h]
    exact pumpFuel_quiet h1 h2 n
  exact e _

/-! ### A completion ring after an update -/

theorem updCq_cq (s : State) (p : Part) (q : Fin 16) (f : CompRing → CompRing) :
    (updCq s p q f).parts[p].cq[q] = f s.parts[p].cq[q] := by
  simp [updCq]

theorem updCq_cq_ne (s : State) (p p' : Part) (q q' : Fin 16) (f : CompRing → CompRing) (h : ¬(p' = p ∧ q' = q)) :
    (updCq s p q f).parts[p'].cq[q'] = s.parts[p'].cq[q'] := by
  by_cases e : (p : Nat) = (p' : Nat)
  · have e2 : p' = p := Fin.ext e.symm
    subst e2
    have : ¬(q : Nat) = (q' : Nat) := fun e3 => h ⟨rfl, Fin.ext e3.symm⟩
    simp [updCq, Vector.getElem_set_ne _ _ this]
  · simp [updCq, Vector.getElem_set_ne _ _ e]

theorem updCq_sq (s : State) (p p' : Part) (q : Fin 16) (f : CompRing → CompRing) :
    (updCq s p q f).parts[p'].sq = s.parts[p'].sq ∧ (updCq s p q f).parts[p'].port = s.parts[p'].port := by
  by_cases e : (p : Nat) = (p' : Nat)
  · have e2 : p' = p := Fin.ext e.symm
    subst e2
    simp [updCq]
  · simp [updCq, Vector.getElem_set_ne _ _ e]

theorem allParts_mem (p : Part) : p ∈ allParts := by revert p; decide

theorem ringIds_mem (q : Fin 16) : q ∈ (List.range 16).map (fun n => (Fin.ofNat 16 n : Fin 16)) := by revert q; decide

/-- The record of a command that has joined its ring is the one to post. -/
theorem nextPostAny_enqueued {s : State} {c : Cmd} (h : quietFor s c) {r : Completion} (hr : r.after = none) :
    nextPostAny (enqueueRecord s c r) = some (c.part, s.parts[c.part].sq[c.sq].cqSel, r) := by
  have hw : ∀ p : Part, ∀ q : Fin 16, ({ s with nextUid := s.nextUid + 1 } : State).parts[p].cq[q].waiting = [] := h.1
  have hme : nextPost (enqueueRecord s c r) c.part s.parts[c.part].sq[c.sq].cqSel = some r := by
    unfold nextPost enqueueRecord
    rw [updCq_cq, (updCq_sq _ _ _ _ _).2]
    dsimp only
    have hp : portPosts (updCq { s with nextUid := s.nextUid + 1 } c.part s.parts[c.part].sq[c.sq].cqSel
        (fun x => { x with waiting := x.waiting ++ [r] })) s.parts[c.part].port = true := h.2.2.2.2.2
    have hu := h.2.2.2.1
    have hf := h.2.2.2.2.1
    unfold ringOf at hu hf
    rw [hp, hu]
    simp only [h.1 _ _, hf, decide_true, Bool.and_self, Bool.not_true, Bool.and_false, Bool.false_eq_true, if_false, List.nil_append,
      List.find?_cons, List.find?_nil]
    have : recordReady (updCq { s with nextUid := s.nextUid + 1 } c.part s.parts[c.part].sq[c.sq].cqSel
        (fun x => { x with waiting := x.waiting ++ [r] })) r = true := by unfold recordReady; rw [hr]
    rw [this]
  unfold nextPostAny
  refine findSome?_only (a := (c.part, s.parts[c.part].sq[c.sq].cqSel)) ?_ ?_ ?_
  · dsimp only; rw [hme]
  · exact List.mem_flatMap.mpr ⟨_, allParts_mem _, List.mem_map.mpr ⟨_, (ringIds_mem _ : _) |> fun m => (List.mem_map.mp m).choose_spec.1, by
      have m := (List.mem_map.mp (ringIds_mem s.parts[c.part].sq[c.sq].cqSel)).choose_spec.2
      rw [m]⟩⟩
  · intro x _
    by_cases e : x = (c.part, s.parts[c.part].sq[c.sq].cqSel)
    · exact .inr e
    · left
      have ne : ¬(x.1 = c.part ∧ x.2 = s.parts[c.part].sq[c.sq].cqSel) := fun k => e (Prod.ext k.1 k.2)
      have : nextPost (enqueueRecord s c r) x.1 x.2 = none := by
        unfold nextPost enqueueRecord
        rw [updCq_cq_ne _ _ _ _ _ _ ne]
        simp only [h.1 x.1 x.2, List.find?_nil, ite_self]
      rw [this]

/-! ### Posting it -/

theorem signalVector_frame (s : State) (p : Port) (v : Nat) : ∃ x, signalVector s p v = { s with ports := x } := by
  unfold signalVector
  dsimp only
  split
  · exact ⟨_, rfl⟩
  · exact ⟨_, rfl⟩

theorem settleFences_none {l : List Cmd} (h : ∀ d ∈ l, d.fence = none) : settleFences l = l := by
  unfold settleFences
  conv_rhs => rw [← List.map_id l]
  refine List.map_congr_left (fun d hd => ?_)
  rw [h d hd]
  rfl

/-- The ring that a record has been posted to. -/
abbrev ringWith (r : Completion) (rest : List Completion) (n : Nat) (x : CompRing) : CompRing :=
  { x with ring := { x.ring with posted := x.ring.posted + 1 }, waiting := rest, unread := x.unread ++ [r], sinceSignal := n }

/-- The commands in flight after a record. -/
abbrev afterRecord (r : Completion) (l : List Cmd) : List Cmd :=
  match r.finalOf with
  | some u => l.filter (fun d => d.uid != u)
  | none => l

/-- A record posted: its ring, the messages, and the commands in flight. -/
theorem postOne_eq {s : State} {p : Part} {q : Fin 16} {r : Completion} (hu : s.parts[p].cq[q].ring.usable = true)
    (hf : ∀ d ∈ s.cmds, d.fence = none) :
    ∃ ports n, postOne s p q r = { s with
      parts := (updCq s p q (ringWith r (s.parts[p].cq[q].waiting.filter (fun x => x.uid != r.uid)) n)).parts,
      ports := ports, cmds := afterRecord r s.cmds } := by
  have hret : ∀ (a : State) (u : Nat), a.cmds = s.cmds →
      retireCmd a u = { a with cmds := s.cmds.filter (fun d => d.uid != u) } := by
    intro a u ha
    have hfl : settleFences (s.cmds.filter (fun d => d.uid != u)) = s.cmds.filter (fun d => d.uid != u) :=
      settleFences_none (fun d hd => hf d (List.mem_filter.mp hd).1)
    unfold retireCmd
    rw [ha, hfl]
  obtain ⟨bytes, hb⟩ : ∃ b, b = r.bytes s.parts[p].sq[r.sq].consumed s.parts[p].cq[q].ring.phase := ⟨_, rfl⟩
  obtain ⟨w, hw⟩ : ∃ w, w = updHost s s.parts[p].port (fun m => m.writeBytes
      (s.parts[p].cq[q].ring.entryAddr s.parts[p].cq[q].ring.posted 32) bytes) := ⟨_, rfl⟩
  obtain ⟨rest, hrest⟩ : ∃ l, l = s.parts[p].cq[q].waiting.filter (fun x => x.uid != r.uid) := ⟨_, rfl⟩
  have hs : ∀ n, ∃ x, signalVector (updCq w p q (ringWith r rest n)) s.parts[p].port s.parts[p].cq[q].ring.vector =
      { updCq w p q (ringWith r rest n) with ports := x } := fun n => signalVector_frame _ _ _
  rw [← hrest]
  have hc : ∀ n, (updCq w p q (ringWith r rest n)).cmds = s.cmds := fun n => by rw [hw]; rfl
  unfold postOne
  dsimp only
  rw [hu, if_neg (by decide), ← hb, ← hw, ← hrest]
  unfold afterRecord
  by_cases hg : (r.signal || decide (max 1 (bits s.parts[p].cq[q].mod.toNat 15 0) ≤ s.parts[p].cq[q].sinceSignal + 1)) = true
  · simp only [hg, if_true]
    obtain ⟨x, hx⟩ := hs 0
    refine ⟨x, 0, ?_⟩
    cases hfo : r.finalOf with
    | some u =>
      dsimp only
      rw [hx, hret _ _ (by exact hc 0), hw]
      rfl
    | none =>
      dsimp only
      rw [hx, hw]
      rfl
  · simp only [hg]
    refine ⟨w.ports, s.parts[p].cq[q].sinceSignal + 1, ?_⟩
    cases hfo : r.finalOf with
    | some u =>
      dsimp only
      rw [hret _ _ (by rw [hw]; rfl), hw]
      rfl
    | none =>
      dsimp only
      rw [hw]
      rfl

theorem ringOf_eq {s : State} {c : Cmd} {k : Fin 16} (h : s.parts[c.part].sq[c.sq].cqSel = k) : ringOf s c = s.parts[c.part].cq[k] := by
  subst h
  rfl

/-- A record that joins its ring in a quiet state is posted, and nothing follows it. -/
theorem enqueue_pump {s : State} {c : Cmd} (h : quietFor s c) {k : Fin 16} (hk : s.parts[c.part].sq[c.sq].cqSel = k) {r : Completion}
    (hra : r.after = none) : pump (enqueueRecord s c r) = postOne (enqueueRecord s c r) c.part k r ∧
    ∃ ports n, pump (enqueueRecord s c r) = { s with
      parts := (updCq (enqueueRecord s c r) c.part k (ringWith r [] n)).parts, ports := ports, cmds := afterRecord r s.cmds,
      nextUid := s.nextUid + 1 } := by
  have hu : s.parts[c.part].cq[k].ring.usable = true := by subst hk; exact h.2.2.2.1
  have en : enqueueRecord s c r = updCq { s with nextUid := s.nextUid + 1 } c.part k (fun x => { x with waiting := x.waiting ++ [r] }) := by
    unfold enqueueRecord
    rw [hk]
  have hn := nextPostAny_enqueued h hra
  rw [hk] at hn
  have hue : (enqueueRecord s c r).parts[c.part].cq[k].ring.usable = true := by
    rw [en, updCq_cq]
    exact hu
  obtain ⟨ports, n, hp⟩ := postOne_eq hue (s := enqueueRecord s c r) (r := r) h.2.1
  have hwe : (enqueueRecord s c r).parts[c.part].cq[k].waiting.filter (fun x => x.uid != r.uid) = [] := by
    rw [en, updCq_cq]
    dsimp only
    rw [h.1 c.part k]
    simp
  rw [hwe] at hp
  have e2 : pump (enqueueRecord s c r) = postOne (enqueueRecord s c r) c.part k r := by
    refine pump_one hn (fun p' q' => ?_) (fun d hd => ?_)
    · rw [hp]
      by_cases e : p' = c.part ∧ q' = k
      · rw [e.1, e.2]
        exact congrArg CompRing.waiting (updCq_cq _ _ _ _)
      · refine (congrArg CompRing.waiting (updCq_cq_ne _ _ _ _ _ _ e)).trans ?_
        rw [en, updCq_cq_ne _ _ _ _ _ _ e]
        exact h.1 p' q'
    · rw [hp] at hd
      have hd2 : d ∈ afterRecord r s.cmds := hd
      unfold afterRecord at hd2
      split at hd2
      · exact h.2.1 d (List.mem_filter.mp hd2).1
      · exact h.2.1 d hd2
  exact ⟨e2, ports, n, e2.trans hp⟩

/-- The ring of a command after its record has been posted. -/
theorem ringOf_posted {s : State} {c : Cmd} {k : Fin 16} (hk : s.parts[c.part].sq[c.sq].cqSel = k) (r : Completion) (n : Nat) :
    ringOf (updCq (enqueueRecord s c r) c.part k (ringWith r [] n)) c =
      ringWith r [] n { s.parts[c.part].cq[k] with waiting := s.parts[c.part].cq[k].waiting ++ [r] } := by
  have en : enqueueRecord s c r = updCq { s with nextUid := s.nextUid + 1 } c.part k (fun x => { x with waiting := x.waiting ++ [r] }) := by
    unfold enqueueRecord
    rw [hk]
  have kY : (updCq (enqueueRecord s c r) c.part k (ringWith r [] n)).parts[c.part].sq[c.sq].cqSel = k := by
    rw [(updCq_sq _ _ _ _ _).1, en, (updCq_sq _ _ _ _ _).1]
    exact hk
  exact (ringOf_eq kY).trans (by rw [updCq_cq, en, updCq_cq])

/-- A FINAL record in a quiet state (R400, R401): it is the newest record of its ring, the command leaves flight, and nothing else than the
ring, the messages to the host and the record's own number changes. -/
theorem finish_quiet {s : State} {c : Cmd} (h : quietFor s c) (status reason d0 d1 : Nat) :
    finishedAs s (finish s c.uid status reason d0 d1) c status reason d0 d1 ∧
    ∃ parts ports, finish s c.uid status reason d0 d1 =
      { s with parts := parts, ports := ports, cmds := s.cmds.filter (fun d => d.uid != c.uid), nextUid := s.nextUid + 1 } := by
  obtain ⟨k, hk⟩ : ∃ k, s.parts[c.part].sq[c.sq].cqSel = k := ⟨_, rfl⟩
  have e1 : finish s c.uid status reason d0 d1 = pump (enqueueRecord s c (mkRecord s c status 0 reason d0 d1)) := by
    unfold finish postRecord
    rw [h.2.2.1]
  obtain ⟨_, ports, n, hp⟩ := enqueue_pump h hk (r := mkRecord s c status 0 reason d0 d1) rfl
  have hs := ringOf_posted hk (mkRecord s c status 0 reason d0 d1) n
  have h0 := ringOf_eq hk
  rw [e1, hp]
  refine ⟨⟨⟨mkRecord s c status 0 reason d0 d1, ?_, ?_⟩, ?_, ?_⟩, _, _, rfl⟩
  · rw [h0]
    show (ringOf (updCq (enqueueRecord s c _) c.part k (ringWith _ [] n)) c).unread = _
    rw [hs]
  · exact ⟨rfl, rfl, rfl, rfl, rfl, rfl, rfl, rfl, rfl⟩
  · rw [h0]
    show (ringOf (updCq (enqueueRecord s c _) c.part k (ringWith _ [] n)) c).ring.posted = _
    rw [hs]
  · unfold cmdOf
    rw [List.find?_eq_none]
    intro d hd
    have := (List.mem_filter.mp hd).2
    simpa using this

/-! ### A command that starts and completes at once -/

theorem updFirst_find {α : Type} {test : α → Bool} {f : α → α} (hf : ∀ x, test x = true → test (f x) = true) :
    ∀ {l : List α} {x : α}, l.find? test = some x → (updFirst test f l).find? test = some (f x)
  | [], _, h => by simp at h
  | y :: l, x, h => by
    unfold updFirst
    by_cases e : test y = true
    · rw [if_pos e, List.find?_cons_of_pos (hf y e)]
      rw [List.find?_cons_of_pos e] at h
      rw [Option.some.inj h]
    · rw [if_neg e, List.find?_cons_of_neg e]
      rw [List.find?_cons_of_neg e] at h
      exact updFirst_find hf h

theorem updFirst_all {α : Type} {test : α → Bool} {f : α → α} {P : α → Prop} (hf : ∀ x, P x → P (f x)) :
    ∀ {l : List α}, (∀ x ∈ l, P x) → ∀ x ∈ updFirst test f l, P x
  | [], h => h
  | y :: l, h => by
    unfold updFirst
    split
    · exact fun x hx => by
        rcases List.mem_cons.mp hx with e | e
        · subst e; exact hf y (h y List.mem_cons_self)
        · exact h x (List.mem_cons_of_mem _ e)
    · exact fun x hx => by
        rcases List.mem_cons.mp hx with e | e
        · subst e; exact h x List.mem_cons_self
        · exact updFirst_all hf (fun z hz => h z (List.mem_cons_of_mem _ hz)) x e

/-- A command begun in a quiet state is still quiet, whatever else of the state has changed meanwhile. -/
theorem quietFor_begun {s u : State} {c : Cmd} (h : quietFor s c) (hp : u.parts = s.parts)
    (hk : ∀ p : Port, portPosts u p = portPosts s p) (hc : u.cmds = (begun s c.uid).cmds) : quietFor u { c with started := true } := by
  have e : ∀ b, ringOf u { c with started := b } = ringOf s c := fun b => by
    unfold ringOf
    simp only [hp]
  refine ⟨by rw [hp]; exact h.1, ?_, ?_, ?_, ?_, ?_⟩
  · rw [hc]
    exact updFirst_all (f := fun (d : Cmd) => { d with started := true }) (fun x hx => hx) h.2.1
  · unfold cmdOf
    rw [hc]
    exact updFirst_find (test := fun (d : Cmd) => d.uid == c.uid) (f := fun (d : Cmd) => { d with started := true }) (fun x hx => hx) h.2.2.1
  · rw [e]; exact h.2.2.2.1
  · rw [e]; exact h.2.2.2.2.1
  · rw [hk, hp]; exact h.2.2.2.2.2

theorem finish_begun {s u : State} {c : Cmd} (h : quietFor s c) (hp : u.parts = s.parts) (hk : ∀ p : Port, portPosts u p = portPosts s p)
    (hc : u.cmds = (begun s c.uid).cmds) (status reason d0 d1 : Nat) :
    finishedAs s (finish u c.uid status reason d0 d1) c status reason d0 d1 ∧
    ∃ parts ports cmds, finish u c.uid status reason d0 d1 =
      { u with parts := parts, ports := ports, cmds := cmds, nextUid := u.nextUid + 1 } := by
  have q := quietFor_begun h hp hk hc
  have k := finish_quiet q status reason d0 d1
  have e : ringOf u { c with started := true } = ringOf s c := by
    unfold ringOf
    simp only [hp]
  refine ⟨⟨?_, ?_, k.1.2.2⟩, ?_⟩
  · obtain ⟨r, hr, hf⟩ := k.1.1
    exact ⟨r, by rw [← e]; exact hr, hf⟩
  · rw [← e]; exact k.1.2.1
  · obtain ⟨parts, ports, hx⟩ := k.2
    exact ⟨parts, ports, _, hx⟩

end Sys2Proof.Machine
end

