-- ==== Sys2Proof/Laws/Frames.lean ====
section
/-! SUPPORT. Which fields of the state the shared operations write: each answers the state with only the named fields replaced. -/

namespace Sys2Proof.Machine

open Sys2Proof

theorem posts.refl (s : State) : posts s s := rfl

theorem posts.trans {s t u : State} (h : posts s t) (k : posts t u) : posts s u := by
  unfold posts at *
  rw [k, h]

theorem posts.mk' (s : State) (a : Vector Partition 4) (b : Vector PciePort 2) (c : List Cmd) (d : Nat) :
    posts s { s with parts := a, ports := b, cmds := c, nextUid := d } := rfl

theorem signalVector_posts (s : State) (p : Port) (v : Nat) : posts s (signalVector s p v) := by
  obtain ⟨x, hx⟩ := signalVector_frame s p v
  rw [hx]
  rfl

theorem updPart_posts (s : State) (p : Part) (f : Partition → Partition) : posts s (updPart s p f) := rfl

theorem updHost_posts (s : State) (p : Port) (f : Memory → Memory) : posts s (updHost s p f) := rfl

theorem updCq_posts (s : State) (p : Part) (q : Fin 16) (f : CompRing → CompRing) : posts s (updCq s p q f) := rfl

theorem retireCmd_posts (s : State) (u : Nat) : posts s (retireCmd s u) := rfl

theorem postOne_posts (s : State) (p : Part) (q : Fin 16) (r : Completion) : posts s (postOne s p q r) := by
  have hret : ∀ x u, posts s x → posts s (retireCmd x u) := fun x u h => h.trans (retireCmd_posts x u)
  unfold postOne
  dsimp only
  split
  · split
    · exact hret _ _ (updCq_posts _ _ _ _)
    · exact updCq_posts _ _ _ _
  · have hw : ∀ f g, posts s (updCq (updHost s s.parts[p].port f) p q g) := fun f g =>
      (updHost_posts s _ f).trans (updCq_posts _ _ _ _)
    split
    · split
      · exact hret _ _ ((hw _ _).trans (signalVector_posts _ _ _))
      · exact hret _ _ (hw _ _)
    · split
      · exact (hw _ _).trans (signalVector_posts _ _ _)
      · exact hw _ _

theorem enqueueRecord_posts (s : State) (c : Cmd) (r : Completion) : posts s (enqueueRecord s c r) := rfl

theorem pumpFuel_posts : ∀ (n : Nat) (s : State), posts s (pumpFuel n s)
  | 0, s => posts.refl s
  | n + 1, s => by
    unfold pumpFuel
    split
    · exact (postOne_posts _ _ _ _).trans (pumpFuel_posts n _)
    · split
      · refine posts.trans ?_ (pumpFuel_posts n _)
        rfl
      · exact posts.refl s

theorem pump_posts (s : State) : posts s (pump s) := pumpFuel_posts _ s

theorem finishAfter_posts (s : State) (u st re d0 d1 : Nat) (a : Option Nat) : posts s (finishAfter s u st re d0 d1 a) := by
  unfold finishAfter
  split
  · exact posts.refl s
  · exact (enqueueRecord_posts _ _ _).trans (pump_posts _)

theorem finish_posts (s : State) (u st re d0 d1 : Nat) : posts s (finish s u st re d0 d1) := by
  unfold finish postRecord
  split
  · exact posts.refl s
  · exact (enqueueRecord_posts _ _ _).trans (pump_posts _)

theorem finishMany_posts (l : List Nat) (st d0 : Nat) (a : Option Nat) : ∀ s, posts s (finishMany s l st d0 a) := by
  unfold finishMany
  induction l with
  | nil => exact posts.refl
  | cons u l ih => exact fun s => (finishAfter_posts _ _ _ _ _ _ _).trans (ih _)

/-- What is kept when a step of a fold keeps a relation to the state. -/
theorem foldl_rel {α : Type} {R : State → State → Prop} (h0 : ∀ s, R s s) (ht : ∀ {a b c}, R a b → R b c → R a c) {f : State → α → State}
    (hf : ∀ s a, R s (f s a)) : ∀ (l : List α) (s : State), R s (l.foldl f s)
  | [], s => h0 s
  | a :: l, s => ht (hf s a) (foldl_rel h0 ht hf l (f s a))

/-! ### Events -/

theorem reports.refl (s : State) : reports s s := rfl

theorem reports.trans {s t u : State} (h : reports s t) (k : reports t u) : reports s u := by
  unfold reports at *
  rw [k, h]

theorem bump_reports (s : State) (a b n : Nat) : reports s (bump s a b n) := rfl

theorem bumpMax_reports (s : State) (a b n : Nat) : reports s (bumpMax s a b n) := rfl

theorem note_reports (s : State) (code unit : Nat) (stamp : Stamp) (a0 a1 a2 : Nat) : reports s (note s code unit stamp a0 a1 a2) := by
  unfold note
  split
  · rfl
  · dsimp only
    split <;> rfl

theorem signalVector_reports (s : State) (p : Port) (v : Nat) : reports s (signalVector s p v) := by
  obtain ⟨x, hx⟩ := signalVector_frame s p v
  rw [hx]
  rfl

theorem updPart_reports (s : State) (p : Part) (f : Partition → Partition) : reports s (updPart s p f) := rfl

theorem updHost_reports (s : State) (p : Port) (f : Memory → Memory) : reports s (updHost s p f) := rfl

theorem eventPut_reports (s : State) (p : Part) (code unit : Nat) (stamp : Stamp) (a0 a1 : Nat) :
    reports s (eventPut s p code unit stamp a0 a1) := by
  unfold eventPut
  exact ((updHost_reports _ _ _).trans (updPart_reports _ _ _)).trans (signalVector_reports _ _ _)

theorem postEvent_reports (s : State) (p : Part) (code unit : Nat) (stamp : Stamp) (a0 a1 : Nat) :
    reports s (postEvent s p code unit stamp a0 a1) := by
  unfold postEvent
  dsimp only
  split
  · rfl
  · split
    · exact eventPut_reports _ _ _ _ _ _ _
    · have h1 : reports s (bump (updPart s p (fun x => { x with eventsLost := x.eventsLost + 1 })) 0x40 p.val 1) :=
        (updPart_reports _ _ _).trans (bump_reports _ _ _ _)
      split
      · exact ((h1.trans (eventPut_reports _ _ _ _ _ _ _)).trans (note_reports _ _ _ _ _ _ _)).trans (updPart_reports _ _ _)
      · exact h1

theorem hostEventQuiet_reports (s : State) (ps : List Part) (code unit : Nat) (stamp : Stamp) (a0 a1 : Nat) :
    reports s (hostEventQuiet s ps code unit stamp a0 a1) :=
  foldl_rel reports.refl reports.trans (fun _ _ => postEvent_reports _ _ _ _ _ _ _) _ _

theorem hostEvent_reports (s : State) (ps : List Part) (code unit : Nat) (stamp : Stamp) (a0 a1 : Nat) :
    reports s (hostEvent s ps code unit stamp a0 a1) :=
  (note_reports _ _ _ _ _ _ _).trans (foldl_rel reports.refl reports.trans (fun _ _ => postEvent_reports _ _ _ _ _ _ _) _ _)

theorem powerEvent_reports (s : State) (what arg unit : Nat) : reports s (powerEvent s what arg unit) := hostEvent_reports _ _ _ _ _ _ _

theorem linkEvent_reports (s : State) (p : FPort) (code : Nat) : reports s (linkEvent s p code) := hostEvent_reports _ _ _ _ _ _ _

/-! ### Messages -/

theorem tells.refl (s : State) : tells s s := rfl

theorem tells.trans {s t u : State} (h : tells s t) (k : tells t u) : tells s u := by
  unfold tells at *
  rw [k, h]

theorem reports.tells {s t : State} (h : reports s t) : tells s t := by
  unfold reports at h
  unfold Machine.tells
  rw [h]

theorem sendPacket_tells (s : State) (p : Packet) : tells s (sendPacket s p) := by
  unfold sendPacket
  split <;> rfl

theorem fmMessage_tells (s : State) (code : Nat) (args : Bytes) : tells s (fmMessage s code args) := by
  unfold fmMessage
  split
  · exact tells.trans (t := { s with nextUid := s.nextUid + 1 }) rfl (sendPacket_tells _ _)
  · rfl

theorem containedError_tells (s : State) (code unit : Nat) (stamp : Stamp) (detail : Nat) :
    tells s (containedError s code unit stamp detail) := by
  unfold containedError
  dsimp only
  have h := ((note_reports s (0x8000 + code) unit stamp 0 0 detail).trans
    (hostEventQuiet_reports _ allParts 0x30 unit stamp (errArg code unit detail) 1)).tells
  split
  · exact h
  · refine (h.trans ?_).trans (fmMessage_tells _ _ _)
    rfl

end Sys2Proof.Machine
end

