-- ==== Sys2Proof/Laws/Attempts.lean ====
section
/-! SUPPORT. What an attempt at a lower power state writes: the frame of refusals, entries and the policies they answer. -/

namespace Sys2Proof.Machine

open Sys2Proof

theorem rests.refl (s : State) : rests s s := rfl

theorem rests.trans {s t u : State} (h : rests s t) (k : rests t u) : rests s u := by
  unfold rests at *
  rw [k, h]

theorem posts.rests {s t : State} (h : posts s t) : rests s t := by
  unfold posts at h
  unfold Machine.rests
  rw [h]

theorem giveResult_posts (s : State) (c : Cmd) (b : Bytes) : posts s (giveResult s c b) := by
  unfold giveResult
  split
  · exact finish_posts _ _ _ _ _ _
  · exact (updHost_posts s _ _).trans (finish_posts _ _ _ _ _ _)

theorem answerPolicy_rests (s : State) (c : Cmd) : rests s (answerPolicy s c) := by
  unfold answerPolicy
  split
  · exact rests.refl s
  · exact rests.trans (t := { s with cmds := _ }) rfl (giveResult_posts _ _ _).rests

theorem answerSetPower_rests (s : State) : rests s (answerSetPower s) := by
  unfold answerSetPower
  split
  · split <;> rfl
  · rfl

theorem foldl_rests {α : Type} {f : State → α → State} (hf : ∀ s a, rests s (f s a)) : ∀ (l : List α) (s : State), rests s (l.foldl f s)
  | [], s => rests.refl s
  | a :: l, s => (hf s a).trans (foldl_rests hf l (f s a))

theorem settlePolicy_rests (s : State) (d : Domain) : rests s (settlePolicy s d) := by
  unfold settlePolicy
  dsimp only
  refine rests.trans ?_ (answerSetPower_rests _)
  exact rests.trans (t := { s with cmds := s.cmds.map (fun c => Cmd.reached c d.val),
                                   mgmt := { s.mgmt with busy := s.mgmt.busy.map (fun b => MgmtPending.reached b d.val) } })
    rfl (foldl_rests answerPolicy_rests _ _)

theorem refuse_rests (s : State) (d : Domain) (code unit : Nat) : rests s (refuse s d code unit) :=
  rests.trans (t := bump (updDomain s d _) 0x100 d.val 1) rfl (settlePolicy_rests _ _)

theorem attempt_rests (s : State) (d : Domain) (toOff : Bool) : rests s (attempt s d toOff) := by
  unfold attempt
  split
  · rfl
  · split
    · exact refuse_rests _ _ _ _
    · rfl

theorem attemptBand_rests (s : State) (b : Nat) : rests s (attemptBand s b) := by
  unfold attemptBand
  dsimp only
  split
  · rfl
  · split
    · exact rests.trans (t := updSeq s _ _) rfl (refuse_rests _ _ _ _)
    · split
      · exact rests.trans (t := updSeq s _ _) rfl (refuse_rests _ _ _ _)
      · split <;> rfl

theorem reattempt_rests (b s : State) : rests s (reattempt b s) := foldl_rests (fun s d => attempt_rests s d _) _ _

theorem offerUnowned_rests (s : State) (bs : List Nat) : rests s (offerUnowned s bs) :=
  foldl_rests (fun s b => by split; exact attemptBand_rests _ _; rfl) _ _

end Sys2Proof.Machine
end

