-- ==== Sys2Proof/Laws/Complete.lean ====
section
/-! SUPPORT. Completing and accepting commands: what reaches host memory, FENCE, and the ACCEPTED record of a long operation. -/

namespace Sys2Proof.Machine

open Sys2Proof

/-! ### Host memory -/

/-- A port after a write to host memory through a port. -/
theorem updHost_port (s : State) (p q : Port) (f : Memory → Memory) :
    (updHost s p f).ports[q] = if q = p then { s.ports[q] with host := f s.ports[q].host } else s.ports[q] := by
  unfold updHost
  by_cases e : (p : Nat) = (q : Nat)
  · have e2 : q = p := Fin.ext e.symm
    subst e2
    simp
  · have e2 : ¬q = p := fun h => e (congrArg Fin.val h.symm)
    simp [Vector.getElem_set_ne _ _ e, e2]

/-- A port's memory after a write through a port. -/
theorem updHost_host (s : State) (p q : Port) (f : Memory → Memory) :
    (updHost s p f).ports[q].host = if q = p then f s.ports[q].host else s.ports[q].host := by
  unfold updHost
  by_cases e : (p : Nat) = (q : Nat)
  · have e2 : q = p := Fin.ext e.symm
    subst e2
    simp
  · have e2 : ¬q = p := fun h => e (congrArg Fin.val h.symm)
    simp [Vector.getElem_set_ne _ _ e, e2]

/-- An address outside the place of a message reads as before. -/
theorem signalVector_read {s : State} (hm : s.memOk) (p q : Port) (v a : Nat)
    (h : ¬((s.ports[p].msix.toArray.getD v ⟨0, 0, 1⟩).addr.toNat ≤ a ∧
      a < (s.ports[p].msix.toArray.getD v ⟨0, 0, 1⟩).addr.toNat + 4)) :
    (signalVector s p v).ports[q].host.read a = s.ports[q].host.read a := by
  unfold signalVector
  dsimp only
  split
  · by_cases e : (p : Nat) = (q : Nat)
    · have e2 : q = p := Fin.ext e.symm
      subst e2
      simp
    · simp [Vector.getElem_set_ne _ _ e]
  · rw [updHost_host]
    split
    · rename_i e
      subst e
      rw [Memory.read_writeBytes _ _ _ _ (hm.2 q), if_neg]
      exact h
    · rfl

theorem retireCmd_ports (s : State) (u : Nat) : (retireCmd s u).ports = s.ports := rfl

theorem updCq_ports (s : State) (p : Part) (q : Fin 16) (f : CompRing → CompRing) : (updCq s p q f).ports = s.ports := rfl

/-- Posting a record writes the ring's entry and the message only. -/
theorem postOne_read {s : State} (hm : s.memOk) (p : Part) (q : Fin 16) (r : Completion) (Q : Port) (a : Nat)
    (h1 : ¬(s.parts[p].cq[q].ring.entryAddr s.parts[p].cq[q].ring.posted 32 ≤ a ∧
      a < s.parts[p].cq[q].ring.entryAddr s.parts[p].cq[q].ring.posted 32 + 32))
    (h2 : ¬((s.ports[s.parts[p].port].msix.toArray.getD s.parts[p].cq[q].ring.vector ⟨0, 0, 1⟩).addr.toNat ≤ a ∧
      a < (s.ports[s.parts[p].port].msix.toArray.getD s.parts[p].cq[q].ring.vector ⟨0, 0, 1⟩).addr.toNat + 4)) :
    (postOne s p q r).ports[Q].host.read a = s.ports[Q].host.read a := by
  have hl : ∀ n ph, (r.bytes n ph).length = 32 := by
    intro n ph
    have e : ∀ n v, (le n v).length = n := by
      intro n
      induction n with
      | zero => intro v; rfl
      | succ n ih => intro v; simp [le, ih]
    simp [Completion.bytes, e, zeros]
  have hw : ∀ b : Bytes, b.length = 32 → (updHost s s.parts[p].port (fun m => m.writeBytes
      (s.parts[p].cq[q].ring.entryAddr s.parts[p].cq[q].ring.posted 32) b)).ports[Q].host.read a = s.ports[Q].host.read a := by
    intro b hb
    rw [updHost_host]
    split
    · rw [Memory.read_writeBytes _ _ _ _ (hm.2 Q), if_neg]
      rw [hb]
      exact h1
    · rfl
  have hk : ∀ (b : Bytes), (updHost s s.parts[p].port (fun m => m.writeBytes
      (s.parts[p].cq[q].ring.entryAddr s.parts[p].cq[q].ring.posted 32) b)).memOk := fun b =>
    (updHost_keeps (Keeps.refl (b := true) s) _ _ (fun m k => Memory.writeBytes_wf _ _ _ k)).mem hm
  have hx : ∀ (b : Bytes), (updHost s s.parts[p].port (fun m => m.writeBytes
      (s.parts[p].cq[q].ring.entryAddr s.parts[p].cq[q].ring.posted 32) b)).ports[s.parts[p].port].msix =
      s.ports[s.parts[p].port].msix := by
    intro b
    unfold updHost
    simp
  have hs : ∀ (b : Bytes) (g : CompRing → CompRing), b.length = 32 → (signalVector (updCq (updHost s s.parts[p].port (fun m => m.writeBytes
      (s.parts[p].cq[q].ring.entryAddr s.parts[p].cq[q].ring.posted 32) b)) p q g) s.parts[p].port
      s.parts[p].cq[q].ring.vector).ports[Q].host.read a = s.ports[Q].host.read a := by
    intro b g hb
    generalize hu : updHost s s.parts[p].port (fun m => m.writeBytes
      (s.parts[p].cq[q].ring.entryAddr s.parts[p].cq[q].ring.posted 32) b) = u
    have k1 := hk b
    have k2 := hw b hb
    have k3 := hx b
    rw [hu] at k1 k2 k3
    refine (signalVector_read (s := updCq u p q g) k1 _ Q _ a ?_).trans k2
    have k4 : (updCq u p q g).ports[s.parts[p].port].msix = s.ports[s.parts[p].port].msix := k3
    rw [k4]
    exact h2
  have hret : ∀ (x : State) (u : Nat), x.ports[Q].host.read a = s.ports[Q].host.read a →
      (retireCmd x u).ports[Q].host.read a = s.ports[Q].host.read a := fun _ _ e => e
  unfold postOne
  dsimp only
  split
  · split <;> rfl
  · split
    · split
      · exact hret _ _ (hs _ _ (hl _ _))
      · exact hret _ _ (hw _ (hl _ _))
    · split
      · exact hs _ _ (hl _ _)
      · exact hw _ (hl _ _)

/-- Posting the record of a command in a quiet state writes its ring's entry and its message only. -/
theorem enqueue_pump_read {s : State} {c : Cmd} (h : quietFor s c) (hm : s.memOk) {r : Completion} (hra : r.after = none) (Q : Port)
    (a : Nat) (ha : ¬postsTo s c a) : (pump (enqueueRecord s c r)).ports[Q].host.read a = s.ports[Q].host.read a := by
  obtain ⟨k, hk⟩ : ∃ k, s.parts[c.part].sq[c.sq].cqSel = k := ⟨_, rfl⟩
  have h0 := ringOf_eq hk
  have en : enqueueRecord s c r = updCq { s with nextUid := s.nextUid + 1 } c.part k (fun x => { x with waiting := x.waiting ++ [r] }) := by
    unfold enqueueRecord
    rw [hk]
  rw [(enqueue_pump h hk hra).1]
  have hring : (enqueueRecord s c r).parts[c.part].cq[k].ring = (ringOf s c).ring := by
    rw [en, updCq_cq, h0]
  have hport : (enqueueRecord s c r).parts[c.part].port = s.parts[c.part].port := by
    rw [en, (updCq_sq _ _ _ _ _).2]
  have hpp : (enqueueRecord s c r).ports = s.ports := rfl
  have hmm : (enqueueRecord s c r).memOk := hm
  clear en
  obtain ⟨X, hX⟩ : ∃ X, X = enqueueRecord s c r := ⟨_, rfl⟩
  rw [← hX] at hring hport hpp hmm ⊢
  unfold postsTo at ha
  dsimp only at ha
  refine (postOne_read hmm c.part k r Q a ?_ ?_).trans ?_
  · rw [hring]
    exact fun x => ha (.inl x)
  · simp only [hring, hport, hpp]
    exact fun x => ha (.inr x)
  · simp only [hpp]

/-- The FINAL record of a command that has just begun leaves every other byte of host memory. -/
theorem finish_begun_read {s u : State} {c : Cmd} (h : quietFor s c) (hp : u.parts = s.parts)
    (hk : ∀ p : Port, portPosts u p = portPosts s p) (hx : ∀ p : Port, u.ports[p].msix = s.ports[p].msix)
    (hc : u.cmds = (begun s c.uid).cmds) (hm : u.memOk) (status reason d0 d1 : Nat) (Q : Port) (a : Nat) (ha : ¬postsTo s c a) :
    (finish u c.uid status reason d0 d1).ports[Q].host.read a = u.ports[Q].host.read a := by
  have q := quietFor_begun h hp hk hc
  have e1 : finish u c.uid status reason d0 d1 =
      pump (enqueueRecord u { c with started := true } (mkRecord u { c with started := true } status 0 reason d0 d1)) := by
    unfold finish postRecord
    have := q.2.2.1
    dsimp only at this
    rw [this]
  rw [e1]
  refine enqueue_pump_read q hm rfl Q a (fun k => ha ?_)
  have e : ringOf u { c with started := true } = ringOf s c := by
    unfold ringOf
    simp only [hp]
  unfold postsTo at k ⊢
  rw [e] at k
  simp only [hp, hx] at k
  exact k

/-- A result given in a quiet state (R395, R403): its bytes, then its FINAL record. -/
theorem giveResult_begun {s u : State} {c : Cmd} (h : quietFor s c) (hp : u.parts = s.parts) (hq : u.ports = s.ports)
    (hc : u.cmds = (begun s c.uid).cmds) (hm : u.memOk) {b : Bytes} (hl : b.length ≤ u32 c.desc 24) :
    finishedAs s (giveResult u c b) c 0 0 0 0 ∧ posts u (giveResult u c b) ∧ resultAt s (giveResult u c b) c b := by
  unfold giveResult
  rw [if_neg (Nat.not_lt.mpr hl)]
  obtain ⟨w, hw⟩ : ∃ w, w = updHost u u.parts[c.part].port (fun m => m.writeBytes (u64 c.desc 16) b) := ⟨_, rfl⟩
  rw [← hw]
  have hwp : w.parts = s.parts := by rw [hw]; exact hp
  have hwc : w.cmds = (begun s c.uid).cmds := by rw [hw]; exact hc
  have hwk : ∀ p : Port, portPosts w p = portPosts s p ∧ w.ports[p].msix = s.ports[p].msix := by
    intro p
    unfold portPosts
    rw [hw, updHost_port]
    split <;> simp only [hq, and_self]
  have hwm : w.memOk := by
    rw [hw]
    exact (updHost_keeps (Keeps.refl (b := true) u) _ _ (fun m k => Memory.writeBytes_wf _ _ _ k)).mem hm
  refine ⟨(finish_begun h hwp (fun p => (hwk p).1) hwc 0 0 0 0).1, ?_, ?_⟩
  · refine posts.trans ?_ (finish_posts w c.uid 0 0 0 0)
    rw [hw]
    rfl
  · intro i hi ha
    rw [finish_begun_read h hwp (fun p => (hwk p).1) (fun p => (hwk p).2) hwc hwm 0 0 0 0 _ _ ha, hw, updHost_host,
      if_pos (by rw [hp]), Memory.read_writeBytes _ _ _ _ (hm.2 _), if_pos ⟨Nat.le_add_right _ _, by omega⟩]
    rw [Nat.add_sub_cancel_left]

/-! ### Long operations -/

theorem updFirst_longs {h : Handle} {o : LongOp} {f : LongOp → LongOp} (ho : o.handle = h) :
    ∀ {l : List LongOp}, l.any (fun x => x.handle == h) = false → updFirst (fun x => x.handle == h) f (l ++ [o]) = l ++ [f o]
  | [], _ => by simp [updFirst, ho]
  | x :: l, k => by
    simp only [List.any_cons, Bool.or_eq_false_iff] at k
    simp only [List.cons_append, updFirst, k.1, Bool.false_eq_true, if_false, updFirst_longs ho k.2]

theorem find_longs {h : Handle} {o : LongOp} (ho : o.handle = h) :
    ∀ {l : List LongOp}, l.any (fun x => x.handle == h) = false → (l ++ [o]).find? (fun x => x.handle == h) = some o
  | [], _ => by simp [ho]
  | x :: l, k => by
    simp only [List.any_cons, Bool.or_eq_false_iff] at k
    simp only [List.cons_append, List.find?_cons, k.1, find_longs ho k.2]

/-- The sequence number of a partition moved: its rings and its port are as they were. -/
theorem nextSeq_parts (s : State) (p p' : Part) (n : Nat) :
    (updPart s p (fun x => { x with nextSeq := n })).parts[p'].cq = s.parts[p'].cq ∧
      (updPart s p (fun x => { x with nextSeq := n })).parts[p'].sq = s.parts[p'].sq ∧
      (updPart s p (fun x => { x with nextSeq := n })).parts[p'].port = s.parts[p'].port := by
  by_cases e : (p : Nat) = (p' : Nat)
  · have e2 : p' = p := Fin.ext e.symm
    subst e2
    simp
  · simp [Vector.getElem_set_ne _ _ e]

theorem ringOf_of {s u : State} {c d : Cmd} (hp : ∀ p : Part, u.parts[p].cq = s.parts[p].cq ∧ u.parts[p].sq = s.parts[p].sq)
    (h1 : d.part = c.part) (h2 : d.sq = c.sq) : ringOf u d = ringOf s c := by
  unfold ringOf
  simp only [h1, h2, (hp c.part).1, (hp c.part).2]

/-- What a quiet state for a command needs, from another that has the same rings. -/
theorem quietFor_of {s u : State} {c d : Cmd} (h : quietFor s c)
    (hp : ∀ p : Part, u.parts[p].cq = s.parts[p].cq ∧ u.parts[p].sq = s.parts[p].sq ∧ u.parts[p].port = s.parts[p].port)
    (hk : ∀ p : Port, portPosts u p = portPosts s p) (hf : ∀ x ∈ u.cmds, x.fence = none) (hc : cmdOf u d.uid = some d)
    (h1 : d.part = c.part) (h2 : d.sq = c.sq) : quietFor u d := by
  have e := ringOf_of (c := c) (d := d) (fun p => ⟨(hp p).1, (hp p).2.1⟩) h1 h2
  refine ⟨fun p q => by rw [(hp p).1]; exact h.1 p q, hf, hc, ?_, ?_, ?_⟩
  · rw [e]; exact h.2.2.2.1
  · rw [e]; exact h.2.2.2.2.1
  · simp only [hk, h1, (hp c.part).2.2]; exact h.2.2.2.2.2

/-- A long operation admitted in a quiet state under a handle that is not in use. -/
theorem admit_quiet {s : State} {c : Cmd} (h : quietFor s c) (hf : handleUsed s (newHandle s c.part).1 = false) (total : Nat)
    (body : LongBody) :
    acceptedAs s (admitLong s c total body).2 c total body false ∧ (admitLong s c total body).1 = (newHandle s c.part).1 ∧
    admitted s (admitLong s c total body).2 := by
  have hl : s.longs.any (fun o => o.handle == (newHandle s c.part).1) = false := by
    unfold handleUsed at hf
    exact (Bool.or_eq_false_iff.mp hf).1
  obtain ⟨hd, hhd⟩ : ∃ x, (newHandle s c.part).1 = x := ⟨_, rfl⟩
  obtain ⟨n, hn⟩ : ∃ n, (newHandle s c.part).2 = updPart s c.part (fun x => { x with nextSeq := n }) := ⟨_, rfl⟩
  unfold acceptedAs
  rw [hhd] at hl ⊢
  obtain ⟨o, ho⟩ : ∃ o : LongOp, o = LongOp.mk hd c.part c.uid (BitVec.ofNat 8 (u8 c.desc 0)) .queued false [] [] 0 0 total false false
      body := ⟨_, rfl⟩
  obtain ⟨V, hV⟩ : ∃ V : State, V = { (updPart s c.part (fun x => { x with nextSeq := n })) with
      cmds := updFirst (fun d => d.uid == c.uid) (fun d => { d with started := true, handle := hd }) s.cmds,
      longs := s.longs ++ [o] } := ⟨_, rfl⟩
  have hVc : cmdOf V c.uid = some { c with started := true, handle := hd } := by
    unfold cmdOf
    rw [hV]
    exact updFirst_find (test := fun (d : Cmd) => d.uid == c.uid) (f := fun (d : Cmd) => { d with started := true, handle := hd })
      (fun x hx => hx) h.2.2.1
  have hVq : quietFor V { c with started := true, handle := hd } := by
    refine quietFor_of h (fun p => ?_) (fun p => ?_) ?_ hVc rfl rfl
    · rw [hV]; exact nextSeq_parts s c.part p n
    · rw [hV]; rfl
    · rw [hV]
      exact updFirst_all (f := fun (d : Cmd) => { d with started := true, handle := hd }) (fun x hx => hx) h.2.1
  have hVr : ringOf V c = ringOf s c := ringOf_of (fun p => by rw [hV]; exact ⟨(nextSeq_parts s c.part p n).1, (nextSeq_parts s c.part p n).2.1⟩)
    rfl rfl
  have hVl : V.longs = s.longs ++ [o] := by rw [hV]
  have e : admitLong s c total body = (hd, pump (enqueueRecord V { c with started := true, handle := hd }
      (mkRecord V { c with started := true, handle := hd } 0 1 0 0 0))) := by
    unfold admitLong
    dsimp only
    rw [hhd, hn]
    refine congrArg (fun x => (hd, x)) ?_
    have hV2 : ({ (updPart s c.part (fun x => { x with nextSeq := n })) with
        cmds := updFirst (fun d => d.uid == c.uid) (fun d => { d with started := true, handle := hd }) s.cmds,
        longs := s.longs ++ [LongOp.mk hd c.part c.uid (BitVec.ofNat 8 (u8 c.desc 0)) .queued false [] [] 0 0 total false false
          body] } : State) = V := by rw [hV, ho]
    refine (congrArg (fun x => longRecord x hd 1 0 0 0 0 none none) hV2).trans ?_
    have ho2 : ({ o with lastStatus := BitVec.ofNat 8 0 } : LongOp) = o := by rw [ho]; rfl
    have hup : updLong V hd (fun o => { o with lastStatus := BitVec.ofNat 8 0 }) = V := by
      unfold updLong
      rw [hVl, updFirst_longs (by rw [ho]) hl, ho2, ← hVl]
    unfold longRecord
    have hlo : longOf V hd = some o := by
      unfold longOf
      rw [hVl]
      exact find_longs (by rw [ho]) hl
    rw [hlo]
    dsimp only
    rw [hup]
    have hcm : o.cmd = c.uid := by rw [ho]
    rw [hcm, hVc]
    rfl
  rw [e]
  obtain ⟨k, hk⟩ : ∃ k, V.parts[c.part].sq[c.sq].cqSel = k := ⟨_, rfl⟩
  obtain ⟨_, ports, m, hp⟩ := enqueue_pump hVq (k := k) hk (r := mkRecord V { c with started := true, handle := hd } 0 1 0 0 0) rfl
  have hs := ringOf_posted (c := { c with started := true, handle := hd }) hk (mkRecord V { c with started := true, handle := hd } 0 1 0 0 0) m
  have h0 : ringOf V c = V.parts[c.part].cq[k] := ringOf_eq hk
  rw [hp]
  refine ⟨⟨?_, ⟨mkRecord V { c with started := true, handle := hd } 0 1 0 0 0, ?_, ?_⟩, ?_⟩, rfl, ?_⟩
  · show V.longs = _
    rw [hVl, ho]
    rfl
  · rw [← hVr, h0]
    have h3 := congrArg CompRing.unread hs
    exact h3
  · exact ⟨rfl, rfl, rfl, rfl, rfl, rfl, rfl, rfl, rfl⟩
  · exact hVc
  · rw [hV]
    rfl

/-- The operation just admitted begins at once. -/
theorem accepted_runs {s u : State} {c : Cmd} {total : Nat} {body : LongBody} (h : acceptedAs s u c total body false)
    (hf : handleUsed s (newHandle s c.part).1 = false) :
    acceptedAs s (updLong u (newHandle s c.part).1 (fun o => { o with state := .running, began := true })) c total body true := by
  obtain ⟨h1, h2, h3⟩ := h
  refine ⟨?_, h2, h3⟩
  have hl : s.longs.any (fun o => o.handle == (newHandle s c.part).1) = false := by
    unfold handleUsed at hf
    exact (Bool.or_eq_false_iff.mp hf).1
  unfold updLong
  dsimp only
  rw [h1]
  exact (updFirst_longs (h := (newHandle s c.part).1) (f := fun (o : LongOp) => { o with state := .running, began := true }) rfl hl).trans rfl

/-! ### FENCE -/

/-- An updated element is the first one of a kind that no element was of before. -/
theorem updFirst_new {α : Type} {test P : α → Bool} {f : α → α} :
    ∀ {l : List α} {x : α}, l.find? test = some x → P (f x) = true → (∀ y ∈ l, P y = false) → (updFirst test f l).find? P = some (f x)
  | [], _, h, _, _ => by simp at h
  | y :: l, x, h, hP, hn => by
    unfold updFirst
    by_cases e : test y = true
    · rw [List.find?_cons_of_pos e] at h
      obtain rfl := Option.some.inj h
      rw [if_pos e, List.find?_cons_of_pos hP]
    · rw [List.find?_cons_of_neg e] at h
      rw [if_neg e, List.find?_cons_of_neg (by simp [hn y List.mem_cons_self])]
      exact updFirst_new h hP (fun z hz => hn z (List.mem_cons_of_mem _ hz))

theorem updFirst_twice {α : Type} {test : α → Bool} {f g : α → α} (hf : ∀ x, test x = true → test (f x) = true) :
    ∀ l : List α, updFirst test g (updFirst test f l) = updFirst test (fun x => g (f x)) l
  | [] => rfl
  | y :: l => by
    by_cases e : test y = true
    · simp only [updFirst, e, hf y e, if_true]
    · simp only [updFirst, e, Bool.false_eq_true, if_false, updFirst_twice hf l]

/-- With enough fuel left one waiting record that can be posted is posted, and the pump rests. -/
theorem pumpFuel_one {s : State} {p : Part} {q : Fin 16} {r : Completion} (h : nextPostAny s = some (p, q, r))
    (h1 : ∀ p' : Part, ∀ q' : Fin 16, (postOne s p q r).parts[p'].cq[q'].waiting = [])
    (h2 : ∀ d ∈ (postOne s p q r).cmds, d.fence = none) (n : Nat) : pumpFuel (n + 1) s = postOne s p q r := by
  conv_lhs => unfold pumpFuel
  rw [h]
  exact pumpFuel_quiet h1 h2 n

/-- A record that joins its ring in a quiet state is posted with any fuel. -/
theorem enqueue_pumpFuel {s : State} {c : Cmd} (h : quietFor s c) {r : Completion} (hra : r.after = none) (n : Nat) :
    pumpFuel (n + 1) (enqueueRecord s c r) = pump (enqueueRecord s c r) := by
  obtain ⟨k, hk⟩ : ∃ k, s.parts[c.part].sq[c.sq].cqSel = k := ⟨_, rfl⟩
  have hn := nextPostAny_enqueued h hra
  rw [hk] at hn
  obtain ⟨e, ports, m, hp⟩ := enqueue_pump h hk hra
  rw [e] at hp
  have hc : ∀ d ∈ (postOne (enqueueRecord s c r) c.part k r).cmds, d.fence = none := by
    intro d hd
    rw [hp] at hd
    have hd2 : d ∈ afterRecord r s.cmds := hd
    unfold afterRecord at hd2
    split at hd2
    · exact h.2.1 d (List.mem_filter.mp hd2).1
    · exact h.2.1 d hd2
  have hw : ∀ p' : Part, ∀ q' : Fin 16, (postOne (enqueueRecord s c r) c.part k r).parts[p'].cq[q'].waiting = [] := by
    intro p' q'
    rw [hp]
    by_cases e : p' = c.part ∧ q' = k
    · rw [e.1, e.2]
      exact congrArg CompRing.waiting (updCq_cq _ _ _ _)
    · refine (congrArg CompRing.waiting (updCq_cq_ne _ _ _ _ _ _ e)).trans ?_
      have en : enqueueRecord s c r = updCq { s with nextUid := s.nextUid + 1 } c.part k (fun x => { x with waiting := x.waiting ++ [r] }) := by
        unfold enqueueRecord
        rw [hk]
      rw [en, updCq_cq_ne _ _ _ _ _ _ e]
      exact h.1 p' q'
  rw [e]
  exact pumpFuel_one hn hw hc n

/-- A FENCE with nothing in its scope completes at once. -/
theorem fence_empty {s : State} {c : Cmd} (h : quietFor s c) :
    pump { s with cmds := updFirst (fun d => d.uid == c.uid) (fun d => { d with started := true, fence := some [] }) s.cmds } =
      finish (begun s c.uid) c.uid 0 0 0 0 := by
  obtain ⟨X, hX⟩ : ∃ X : State, X =
    { s with cmds := updFirst (fun d => d.uid == c.uid) (fun d => { d with started := true, fence := some [] }) s.cmds } := ⟨_, rfl⟩
  rw [← hX]
  have hXp : X.parts = s.parts := by rw [hX]
  have hw : ∀ p : Part, ∀ q : Fin 16, X.parts[p].cq[q].waiting = [] := by rw [hXp]; exact h.1
  have hd : drainedFence X = some { c with started := true, fence := some [] } := by
    unfold drainedFence
    rw [hX]
    exact updFirst_new (f := fun (d : Cmd) => { d with started := true, fence := some [] }) h.2.2.1 rfl
      (fun y hy => by rw [h.2.1 y hy])
  have hs1 : ({ X with cmds := updFirst (fun d => d.uid == c.uid) (fun d => { d with fence := none }) X.cmds } : State) = begun s c.uid := by
    rw [hX]
    unfold begun
    have ht := updFirst_twice (test := fun (d : Cmd) => d.uid == c.uid) (f := fun (d : Cmd) => { d with started := true, fence := some [] })
      (g := fun (d : Cmd) => { d with fence := none }) (fun x hx => hx) s.cmds
    refine congrArg (fun x => ({ s with cmds := x } : State)) (ht.trans ?_)
    clear ht hX hXp hw hd
    have := h.2.1
    revert this
    generalize s.cmds = l
    intro hl
    induction l with
    | nil => rfl
    | cons y l ih =>
      unfold updFirst
      split
      · rw [← hl y List.mem_cons_self]
      · rw [ih (fun d m => hl d (List.mem_cons_of_mem _ m))]
  have hq := quietFor_begun h (u := begun s c.uid) rfl (fun _ => rfl) rfl
  have hne : pumpNeed X = (pumpNeed X - 2) + 1 + 1 := by
    have : s.cmds ≠ [] := by
      intro e
      have := h.2.2.1
      unfold cmdOf at this
      rw [e] at this
      simp at this
    have hl : 0 < X.cmds.length := by
      rw [hX]
      dsimp only
      cases hc : s.cmds with
      | nil => exact absurd hc this
      | cons y l =>
        unfold updFirst
        split <;> simp
    unfold pumpNeed
    omega
  unfold pump
  rw [hne]
  conv_lhs => unfold pumpFuel
  rw [nextPostAny_none hw, hd]
  dsimp only
  rw [hs1]
  refine (enqueue_pumpFuel hq (r := mkRecord (begun s c.uid) { c with started := true } 0 0 0 0 0) rfl _).trans ?_
  unfold finish postRecord
  have := hq.2.2.1
  dsimp only at this
  rw [this]

/-- A FENCE whose scope has not drained waits. -/
theorem fence_waits {s : State} {c : Cmd} (h : quietFor s c) {l : List Nat} (hl : l ≠ []) :
    pump { s with cmds := updFirst (fun d => d.uid == c.uid) (fun d => { d with started := true, fence := some l }) s.cmds } =
      { s with cmds := updFirst (fun d => d.uid == c.uid) (fun d => { d with started := true, fence := some l }) s.cmds } := by
  have hd : drainedFence { s with cmds := updFirst (fun d => d.uid == c.uid) (fun d => { d with started := true, fence := some l }) s.cmds } = none := by
    unfold drainedFence
    rw [List.find?_eq_none]
    have : ∀ d ∈ updFirst (fun d => d.uid == c.uid) (fun (d : Cmd) => { d with started := true, fence := some l }) s.cmds,
        d.fence = none ∨ d.fence = some l := by
      have hs := h.2.1
      revert hs
      generalize s.cmds = k
      intro hs
      induction k with
      | nil => intro d hd; simp [updFirst] at hd
      | cons y k ih =>
        intro d hd
        unfold updFirst at hd
        split at hd
        · rcases List.mem_cons.mp hd with e | e
          · subst e; exact .inr rfl
          · exact .inl (hs d (List.mem_cons_of_mem _ e))
        · rcases List.mem_cons.mp hd with e | e
          · subst e; exact .inl (hs d List.mem_cons_self)
          · exact ih (fun z m => hs z (List.mem_cons_of_mem _ m)) d e
    intro d hd
    rcases this d hd with e | e
    · simp [e]
    · simp [e, hl]
  unfold pump pumpNeed
  conv_lhs => unfold pumpFuel
  rw [nextPostAny_none (by exact h.1), hd]

/-! ### Commands that complete in the state they start in -/

theorem begun_posts (s : State) (u : Nat) : posts s (begun s u) := rfl

/-- A command that starts and completes at once. -/
theorem finish_here {s : State} {c : Cmd} (h : quietFor s c) (st re d0 d1 : Nat) :
    finishedAs s (finish (begun s c.uid) c.uid st re d0 d1) c st re d0 d1 ∧ posts s (finish (begun s c.uid) c.uid st re d0 d1) :=
  ⟨(finish_begun (u := begun s c.uid) h rfl (fun _ => rfl) rfl st re d0 d1).1, (begun_posts s c.uid).trans (finish_posts _ _ _ _ _ _)⟩

/-- A result given by a command that starts and completes at once, from a state that differs in nothing the records touch. -/
theorem gives_here {s u : State} {c : Cmd} (hm : s.memOk) (h : quietFor s c) (hp : u.parts = s.parts) (hq : u.ports = s.ports)
    (hc : u.cmds = (begun s c.uid).cmds) (hm2 : u.mem = s.mem) (b : Bytes) :
    givesResult s (giveResult u c b) c b ∧ posts u (giveResult u c b) := by
  have hmu : u.memOk := ⟨by rw [hm2]; exact hm.1, by rw [hq]; exact hm.2⟩
  have hk : ∀ p : Port, portPosts u p = portPosts s p := fun p => by unfold portPosts; rw [hq]
  by_cases hl : b.length ≤ u32 c.desc 24
  · have k := giveResult_begun h hp hq hc hmu hl
    exact ⟨⟨fun x => absurd hl (Nat.not_le.mpr x), fun _ => ⟨k.1, k.2.2⟩⟩, k.2.1⟩
  · have e : giveResult u c b = finish u c.uid 0x13 6 b.length 0 := by
      unfold giveResult; rw [if_pos (by omega)]
    rw [e]
    exact ⟨⟨fun _ => (finish_begun h hp hk hc _ _ _ _).1, fun x => absurd x hl⟩, finish_posts _ _ _ _ _ _⟩

/-! ### Handles -/

theorem handleUsed_of {s u : State} (hl : u.longs = s.longs) (hf : u.folios = s.folios) (x : Handle) : handleUsed u x = handleUsed s x := by
  unfold handleUsed
  rw [hl, hf]

theorem freeSeqFuel_of {s u : State} (h : ∀ x, handleUsed u x = handleUsed s x) (p : Part) :
    ∀ k n, freeSeqFuel u p k n = freeSeqFuel s p k n
  | 0, _ => rfl
  | k + 1, n => by
    unfold freeSeqFuel
    simp only [h, freeSeqFuel_of h p k]

/-- The next handle depends on the operations, the folios and the partition only. -/
theorem newHandle_of {s u : State} (hl : u.longs = s.longs) (hf : u.folios = s.folios) (hp : u.parts = s.parts) (p : Part) :
    (newHandle u p).1 = (newHandle s p).1 := by
  unfold newHandle
  dsimp only
  rw [freeSeqFuel_of (handleUsed_of hl hf), hl, hf, hp]

/-- A state that differs from a quiet one in nothing that handles and records read. -/
theorem admitsNext_of {s u : State} {c : Cmd} (h : admitsNext s c) (hp : u.parts = s.parts) (hk : u.ports = s.ports) (hc : u.cmds = s.cmds)
    (hl : u.longs = s.longs) (hf : u.folios = s.folios) : admitsNext u c := by
  refine ⟨quietFor_of h.1 (fun p => by rw [hp]; exact ⟨rfl, rfl, rfl⟩) (fun p => by unfold portPosts; rw [hk]) (by rw [hc]; exact h.1.2.1) ?_
    rfl rfl, ?_⟩
  · unfold cmdOf
    rw [hc]
    exact h.1.2.2.1
  · rw [newHandle_of hl hf hp, handleUsed_of hl hf]
    exact h.2

/-! ### Completion from a state that has changed elsewhere -/

theorem quietFor_from {s u : State} {c : Cmd} (h : quietFor s c) (hp : u.parts = s.parts) (hk : ∀ p : Port, portPosts u p = portPosts s p)
    (hc : u.cmds = s.cmds) : quietFor u c := by
  refine quietFor_of h (fun p => by rw [hp]; exact ⟨rfl, rfl, rfl⟩) hk (by rw [hc]; exact h.2.1) ?_ rfl rfl
  unfold cmdOf
  rw [hc]
  exact h.2.2.1

/-- The FINAL record of a command that has been in flight, from a state that differs in nothing the records read. -/
theorem finish_from {s u : State} {c : Cmd} (h : quietFor s c) (hp : u.parts = s.parts) (hk : ∀ p : Port, portPosts u p = portPosts s p)
    (hc : u.cmds = s.cmds) (st re d0 d1 : Nat) :
    finishedAs s (finish u c.uid st re d0 d1) c st re d0 d1 ∧ posts u (finish u c.uid st re d0 d1) := by
  obtain ⟨⟨r, hr, hi⟩, h2, h3⟩ := (finish_quiet (quietFor_from h hp hk hc) st re d0 d1).1
  have e : ringOf u c = ringOf s c := by
    unfold ringOf
    simp only [hp]
  rw [e] at hr h2
  exact ⟨⟨⟨r, hr, hi⟩, h2, h3⟩, finish_posts _ _ _ _ _ _⟩

/-- Every byte but those of the record and its message is as before. -/
theorem finish_from_read {s u : State} {c : Cmd} (h : quietFor s c) (hp : u.parts = s.parts) (hk : ∀ p : Port, portPosts u p = portPosts s p)
    (hx : ∀ p : Port, u.ports[p].msix = s.ports[p].msix) (hc : u.cmds = s.cmds) (hm : u.memOk) (st re d0 d1 : Nat) (Q : Port) (a : Nat)
    (ha : ¬postsTo s c a) : (finish u c.uid st re d0 d1).ports[Q].host.read a = u.ports[Q].host.read a := by
  have q := quietFor_from h hp hk hc
  have e1 : finish u c.uid st re d0 d1 = pump (enqueueRecord u c (mkRecord u c st 0 re d0 d1)) := by
    unfold finish postRecord
    rw [q.2.2.1]
  rw [e1]
  refine enqueue_pump_read q hm rfl Q a (fun k => ha ?_)
  have e : ringOf u c = ringOf s c := by
    unfold ringOf
    simp only [hp]
  unfold postsTo at k ⊢
  rw [e] at k
  simp only [hp, hx] at k
  exact k

end Sys2Proof.Machine
end

