-- ==== Sys2Proof/Laws/Ends.lean ====
section
/-! SUPPORT. The end of a long operation: its state, its FINAL record, and what it leaves. -/

namespace Sys2Proof.Machine

open Sys2Proof

theorem ends.refl (s : State) : ends s s := rfl

theorem ends.trans {s t u : State} (h : ends s t) (k : ends t u) : ends s u := by
  unfold ends at *
  rw [k, h]

theorem posts.ends {s t : State} (h : posts s t) : ends s t := by
  unfold posts at h
  unfold Machine.ends
  rw [h]

theorem posts.longs_eq {s t : State} (h : posts s t) : t.longs = s.longs := by rw [h]
theorem posts.seqs_eq {s t : State} (h : posts s t) : t.seqs = s.seqs := by rw [h]

theorem updLong_ends (s : State) (h : Handle) (f : LongOp → LongOp) : ends s (updLong s h f) := rfl
theorem updRun_ends (s : State) (h : Handle) (f : Run → Run) : ends s (updRun s h f) := rfl
theorem releaseQuads_ends (s : State) (h : Handle) : ends s (releaseQuads s h) := rfl

theorem updLong_longOf {s : State} {h : Handle} {o : LongOp} (f : LongOp → LongOp) (hf : ∀ x, (f x).handle = x.handle)
    (ho : longOf s h = some o) : longOf (updLong s h f) h = some (f o) := by
  unfold longOf updLong at *
  exact updFirst_find (test := fun (o : LongOp) => o.handle == h) (f := f) (fun x hx => by rw [hf]; exact hx) ho

theorem posts.longOf_eq {s t : State} (p : posts s t) (h : Handle) : longOf t h = longOf s h := by
  unfold longOf
  rw [p.longs_eq]

/-- A record of a long operation writes what records write, and its last status. -/
theorem longRecord_posts {s : State} {h : Handle} {o : LongOp} (ho : longOf s h = some o) (kind status reason d0 d1 : Nat)
    (slot after : Option Nat) :
    posts (updLong s h (fun o => { o with lastStatus := BitVec.ofNat 8 status })) (longRecord s h kind status reason d0 d1 slot after) := by
  unfold longRecord
  rw [ho]
  dsimp only
  split
  · exact posts.refl _
  · exact (enqueueRecord_posts _ _ _).trans (pump_posts _)

theorem dropSuspends_posts {s : State} {h : Handle} {o : LongOp} (ho : longOf s h = some o) (status : Nat) :
    posts (updLong s h (fun o => { o with suspends := [] })) (dropSuspends s h status) := by
  unfold dropSuspends
  rw [ho]
  exact finishMany_posts _ _ _ _ _

/-- What the end of a long operation writes, for one that is not silent. -/
theorem endLong_ends {s : State} {h : Handle} {o : LongOp} (ho : longOf s h = some o) (hs : o.silent = false) (st : LongState)
    (status reason d0 d1 : Nat) :
    ends s (endLong s h st status reason d0 d1) ∧
    longOf (endLong s h st status reason d0 d1) h =
      some { o with state := st, lastStatus := BitVec.ofNat 8 status, suspends := [], cancels := [] } ∧
    (endLong s h st status reason d0 d1).seqs = (releaseQuads s h).seqs := by
  unfold endLong
  rw [ho]
  dsimp only
  rw [if_neg (by rw [hs]; decide)]
  have h1 := dropSuspends_posts (s := releaseQuads s h) (h := h) (o := o) ho 0x12
  have l1 : longOf (dropSuspends (releaseQuads s h) h 0x12) h = some { o with suspends := [] } := by
    rw [h1.longOf_eq]
    exact updLong_longOf (fun o => { o with suspends := [] }) (fun _ => rfl) ho
  have h2 := longRecord_posts l1 0 status reason d0 d1 none none
  have l2 : longOf (longRecord (dropSuspends (releaseQuads s h) h 0x12) h 0 status reason d0 d1 none none) h =
      some { o with suspends := [], lastStatus := BitVec.ofNat 8 status } := by
    rw [h2.longOf_eq]
    exact updLong_longOf (fun o => { o with lastStatus := BitVec.ofNat 8 status }) (fun _ => rfl) l1
  have h3 := finishMany_posts o.cancels 0 st.code (some (dropSuspends (releaseQuads s h) h 0x12).nextUid)
    (updLong (longRecord (dropSuspends (releaseQuads s h) h 0x12) h 0 status reason d0 d1 none none) h
      (fun o => { o with state := st, cancels := [] }))
  refine ⟨?_, ?_, ?_⟩
  · refine ends.trans ?_ h3.ends
    refine ends.trans ?_ (updLong_ends _ _ _)
    refine ends.trans ?_ h2.ends
    refine ends.trans ?_ (updLong_ends _ _ _)
    refine ends.trans ?_ h1.ends
    exact ends.trans (releaseQuads_ends _ _) (updLong_ends _ _ _)
  · rw [h3.longOf_eq]
    exact updLong_longOf (fun o => { o with state := st, cancels := [] }) (fun _ => rfl) l2
  · rw [h3.seqs_eq]
    show (longRecord _ _ _ _ _ _ _ _ _).seqs = _
    rw [h2.seqs_eq]
    show (dropSuspends _ _ _).seqs = _
    rw [h1.seqs_eq]
    rfl

/-- A record with no slot and none before it is posted as a command's record is. -/
theorem longRecord_final {s : State} {h : Handle} {o : LongOp} {c : Cmd} (ho : longOf s h = some o) (hu : o.cmd = c.uid)
    (hc : cmdOf s c.uid = some c) (status reason d0 d1 : Nat) :
    longRecord s h 0 status reason d0 d1 none none =
      finish (updLong s h (fun o => { o with lastStatus := BitVec.ofNat 8 status })) c.uid status reason d0 d1 := by
  have e : cmdOf (updLong s h (fun o => { o with lastStatus := BitVec.ofNat 8 status })) c.uid = some c := hc
  unfold longRecord finish postRecord
  rw [ho]
  simp only [hu, e, hc]
  rfl

/-- The end of a long operation that stands alone is its command's FINAL record, among changes of the operation and its quadrants. -/
theorem endLong_eq {u : State} {h : Handle} {o : LongOp} {c : Cmd} (hl : longOf u h = some o) (hu : o.cmd = c.uid)
    (hc : cmdOf u c.uid = some c) (hs : o.silent = false) (hsu : o.suspends = []) (hca : o.cancels = []) (st : LongState)
    (status reason d0 d1 : Nat) :
    ∃ l q g, endLong u h st status reason d0 d1 = updLong (finish { u with longs := l, seqs := q } c.uid status reason d0 d1) h g := by
  unfold endLong
  rw [hl]
  dsimp only
  rw [hs, if_neg (by decide), hca]
  have hd : dropSuspends (releaseQuads u h) h 0x12 = updLong (releaseQuads u h) h (fun o => { o with suspends := [] }) := by
    unfold dropSuspends
    have : longOf (releaseQuads u h) h = some o := hl
    rw [this]
    dsimp only
    rw [hsu]
    rfl
  rw [hd]
  obtain ⟨w, hw⟩ : ∃ w, w = updLong (releaseQuads u h) h (fun o => { o with suspends := [] }) := ⟨_, rfl⟩
  rw [← hw]
  have lw : longOf w h = some { o with suspends := [] } := by
    rw [hw]
    exact updLong_longOf (fun o => { o with suspends := [] }) (fun _ => rfl) (show longOf (releaseQuads u h) h = _ from hl)
  have cw : cmdOf w c.uid = some c := by rw [hw]; exact hc
  rw [longRecord_final lw hu cw]
  exact ⟨_, _, _, by rw [hw]; rfl⟩

/-- The end of a long operation that stands alone, from a state that differs in nothing the records touch. -/
theorem endLong_quiet {s u : State} {o : LongOp} {c : Cmd} (h : standsFor s o c) (hp : u.parts = s.parts) (hc : u.cmds = s.cmds)
    (hk : ∀ p : Port, portPosts u p = portPosts s p) {f : LongOp → LongOp}
    (hl : longOf u o.handle = some (f o)) (hf : (f o).cmd = o.cmd ∧ (f o).silent = false ∧ (f o).suspends = [] ∧ (f o).cancels = [])
    (st : LongState) (status reason d0 d1 : Nat) :
    longOf (endLong u o.handle st status reason d0 d1) o.handle = some { f o with state := st, lastStatus := BitVec.ofNat 8 status } ∧
    finishedAs s (endLong u o.handle st status reason d0 d1) c status reason d0 d1 ∧
    ends u (endLong u o.handle st status reason d0 d1) := by
  obtain ⟨hq, hu, ho, hs, hsu, hca⟩ := h
  have hE := endLong_ends hl hf.2.1 st status reason d0 d1
  refine ⟨?_, ?_, hE.1⟩
  · rw [hE.2.1]
    have e : ∀ x : LongOp, x.suspends = [] → x.cancels = [] →
        ({ x with state := st, lastStatus := BitVec.ofNat 8 status, suspends := [], cancels := [] } : LongOp) =
          { x with state := st, lastStatus := BitVec.ofNat 8 status } := by
      intro x a b
      rw [a, b]
    rw [e _ hf.2.2.1 hf.2.2.2]
  · have cu : cmdOf u c.uid = some c := by
      unfold cmdOf
      rw [hc]
      exact hq.2.2.1
    obtain ⟨l, q, g, e⟩ := endLong_eq (c := c) hl (hf.1.trans hu) cu hf.2.1 hf.2.2.1 hf.2.2.2 st status reason d0 d1
    rw [e]
    exact (finish_from hq (u := { u with longs := l, seqs := q }) hp hk hc status reason d0 d1).1

/-- Host memory after it: every byte but those of the record and its message is as before. -/
theorem endLong_quiet_read {s u : State} {o : LongOp} {c : Cmd} (h : standsFor s o c) (hp : u.parts = s.parts) (hc : u.cmds = s.cmds)
    (hk : ∀ p : Port, portPosts u p = portPosts s p) (hx : ∀ p : Port, u.ports[p].msix = s.ports[p].msix) (hm : u.memOk)
    {f : LongOp → LongOp} (hl : longOf u o.handle = some (f o))
    (hf : (f o).cmd = o.cmd ∧ (f o).silent = false ∧ (f o).suspends = [] ∧ (f o).cancels = [])
    (st : LongState) (status reason d0 d1 : Nat) (Q : Port) (a : Nat) (ha : ¬postsTo s c a) :
    (endLong u o.handle st status reason d0 d1).ports[Q].host.read a = u.ports[Q].host.read a := by
  have cu : cmdOf u c.uid = some c := by
    unfold cmdOf
    rw [hc]
    exact h.1.2.2.1
  obtain ⟨l, q, g, e⟩ := endLong_eq (c := c) hl (hf.1.trans h.2.1) cu hf.2.1 hf.2.2.1 hf.2.2.2 st status reason d0 d1
  rw [e]
  exact finish_from_read h.1 (u := { u with longs := l, seqs := q }) hp hk hx hc hm status reason d0 d1 Q a ha

/-! ### Looking up a long operation -/

theorem runOf_some {s : State} {h : Handle} {o : LongOp} {r : Run} (h1 : longOf s h = some o) (h2 : o.body = .run r) :
    runOf s h = some (o, r) := by
  unfold runOf
  rw [h1]
  dsimp only
  rw [h2]

theorem updRun_longOf {s : State} {h : Handle} {o : LongOp} {r : Run} (f : Run → Run) (h1 : longOf s h = some o) (h2 : o.body = .run r) :
    longOf (updRun s h f) h = some { o with body := .run (f r) } := by
  unfold updRun
  refine (updLong_longOf _ (fun x => by split <;> rfl) h1).trans ?_
  rw [h2]

/-- An update under another handle leaves an operation. -/
theorem updLong_longOf_ne {s : State} {h h' : Handle} (f : LongOp → LongOp) (hf : ∀ x, (f x).handle = x.handle) (hne : h ≠ h') :
    longOf (updLong s h f) h' = longOf s h' := by
  unfold longOf updLong
  dsimp only
  generalize s.longs = l
  induction l with
  | nil => rfl
  | cons y l ih =>
    by_cases e : (y.handle == h) = true
    · have : (y.handle == h') = false := by
        rw [beq_eq_false_iff_ne]
        intro k
        exact hne ((eq_of_beq e).symm.trans k)
      simp only [updFirst, e, if_true, List.find?_cons, hf, this]
    · simp only [updFirst, e, Bool.false_eq_true, if_false, List.find?_cons, ih]

theorem updRun_longOf_ne {s : State} {h h' : Handle} (f : Run → Run) (hne : h ≠ h') : longOf (updRun s h f) h' = longOf s h' :=
  updLong_longOf_ne _ (fun x => by split <;> rfl) hne

theorem longOf_handle {s : State} {h : Handle} {o : LongOp} (ho : longOf s h = some o) : o.handle = h := by
  have := List.find?_some ho
  simpa using this

theorem folioOf_handle {s : State} {h : Handle} {f : Folio} (hf : folioOf s h = some f) : f.handle = h := by
  have := List.find?_some hf
  simpa using this

theorem updFolio_folioOf {s : State} {h : Handle} {o : Folio} (f : Folio → Folio) (hf : ∀ x, (f x).handle = x.handle)
    (ho : folioOf s h = some o) : folioOf (updFolio s h f) h = some (f o) := by
  unfold folioOf updFolio at *
  exact updFirst_find (test := fun (o : Folio) => o.handle == h) (f := f) (fun x hx => by rw [hf]; exact hx) ho

/-- The record that a flaw or an event of the blotter leaves. -/
theorem note_only (s : State) (code unit : Nat) (stamp : Stamp) (a0 a1 a2 : Nat) :
    ∃ b t, note s code unit stamp a0 a1 a2 = { s with blotter := b, telemetry := t } := by
  unfold note
  split
  · exact ⟨_, _, rfl⟩
  · dsimp only
    split
    · exact ⟨_, _, rfl⟩
    · exact ⟨_, _, rfl⟩

end Sys2Proof.Machine
end

