-- ==== Sys2Proof/Laws/Fabric.lean ====
section
/-! SUPPORT. What a change of a fabric port's link does to the port and to the rest of the device. -/

namespace Sys2Proof.Machine

@[simp] theorem updFabric_same (s : State) (p : FPort) (f : FabricPort → FabricPort) : (updFabric s p f).fabric[p] = f s.fabric[p] := by
  simp [updFabric]

theorem updFabric_other (s : State) (p q : FPort) (f : FabricPort → FabricPort) (h : q ≠ p) : (updFabric s p f).fabric[q] = s.fabric[q] := by
  have : ¬((p : Nat) = (q : Nat)) := fun k => h (Fin.ext k.symm)
  simp [updFabric, Vector.getElem_set_ne _ _ this]

theorem relinks.refl (s : State) (p : FPort) : relinks s s p := ⟨rfl, fun _ _ => rfl⟩

theorem relinks.trans {s t u : State} {p : FPort} (h : relinks s t p) (k : relinks t u p) : relinks s u p := by
  obtain ⟨h1, h2⟩ := h
  obtain ⟨k1, k2⟩ := k
  refine ⟨?_, fun q hq => ?_⟩
  · unfold tells at *; rw [k1, h1]
  · have a := h2 q hq
    have b := k2 q hq
    rw [a] at b
    exact b

theorem tells.relinks {s t : State} (p : FPort) (h : tells s t) : relinks s t p := by
  unfold Sys2Proof.Machine.relinks tells at *
  refine ⟨?_, fun q _ => ?_⟩ <;> rw [h]

theorem reports.relinks {s t : State} (p : FPort) (h : reports s t) : relinks s t p := tells.relinks p h.tells

theorem bump_relinks (s : State) (p : FPort) (a b n : Nat) : relinks s (bump s a b n) p := tells.relinks p rfl

theorem updFabric_relinks (s : State) (p : FPort) (f : FabricPort → FabricPort) : relinks s (updFabric s p f) p :=
  ⟨rfl, fun q hq => by rw [updFabric_other _ _ _ _ hq]⟩

/-- A change of the output queue or of the packet being sent at any port. -/
theorem updQueue_relinks (s : State) (p o : FPort) (f : FabricPort → FabricPort) (hf : ∀ x, f x = { x with outQ := (f x).outQ, tx := (f x).tx }) :
    relinks s (updFabric s o f) p := by
  refine ⟨rfl, fun q _ => ?_⟩
  by_cases e : q = o
  · subst e; rw [updFabric_same]; exact hf _
  · rw [updFabric_other _ _ _ _ e]

theorem drawFree_relinks (s : State) (p : FPort) : relinks s (drawFree s).2 p := ⟨rfl, fun _ _ => rfl⟩

theorem hashPort_usable {s : State} {g : List FPort} {f : BitVec 512} {o : FPort} (h : hashPort s g f = some o) : s.fabric[o].usable = true := by
  unfold hashPort at h
  have := List.mem_of_getElem? h
  unfold usablePorts at this
  exact (List.mem_filter.mp this).2

theorem spread_at (s : State) (p : FPort) (hu : s.fabric[p].usable = false) :
    (spread s p).fabric[p] = { s.fabric[p] with outQ := [] } ∧ relinks s (spread s p) p := by
  unfold spread
  rw [if_neg (by rw [hu]; decide)]
  dsimp only
  have h0 : (updFabric s p (fun x => { x with outQ := [] })).fabric[p] = { s.fabric[p] with outQ := [] } ∧
      relinks s (updFabric s p (fun x => { x with outQ := [] })) p := ⟨updFabric_same _ _ _, updFabric_relinks _ _ _⟩
  generalize updFabric s p (fun x => { x with outQ := [] }) = w at h0
  generalize s.fabric[p].outQ = l
  revert w
  induction l with
  | nil => exact fun w hw => hw
  | cons r l ih =>
    intro w hw
    rw [List.foldl_cons]
    refine ih _ ?_
    split
    · exact ⟨hw.1, hw.2.trans (bump_relinks _ _ _ _ _)⟩
    · rename_i o ho
      have hne : p ≠ o := by
        intro e
        have := hashPort_usable ho
        rw [← e, hw.1] at this
        rw [show ({ s.fabric[p] with outQ := [] } : FabricPort).usable = s.fabric[p].usable from rfl, hu] at this
        cases this
      refine ⟨?_, hw.2.trans (updQueue_relinks _ _ _ _ (fun _ => rfl))⟩
      rw [updFabric_other _ _ _ _ hne]
      exact hw.1

theorem cutError_relinks (s : State) (p q : FPort) : relinks s (cutError s p) q := by
  unfold cutError
  exact tells.relinks q (tells.trans (rfl : tells s (bump s 0x23 p.val 1)) (containedError_tells _ _ _ _ _))

theorem cutError_fabric (s : State) (p : FPort) : (cutError s p).fabric = s.fabric := by
  unfold cutError
  rw [(containedError_tells (bump s 0x23 p.val 1) 0x140 (unitFabric p.val) 0 p.val : containedError _ _ _ _ _ = _)]
  rfl

/-- A cut error leaves a port as the state before it says. -/
theorem cutError_at {s w : State} {p : FPort}
    (k : w.fabric[p] = { s.fabric[p] with rx := none, outQ := w.fabric[p].outQ, tx := w.fabric[p].tx } ∧ relinks s w p) :
    (cutError w p).fabric[p] = { s.fabric[p] with rx := none, outQ := (cutError w p).fabric[p].outQ, tx := (cutError w p).fabric[p].tx } ∧
      relinks s (cutError w p) p := by
  refine ⟨?_, k.2.trans (cutError_relinks _ _ _)⟩
  rw [cutError_fabric]
  exact k.1

/-- A port after a cut: only the packets of that port are touched. -/
theorem cutRx_at (s : State) (p : FPort) :
    (cutRx s p).fabric[p] = { s.fabric[p] with rx := none, outQ := (cutRx s p).fabric[p].outQ, tx := (cutRx s p).fabric[p].tx } ∧
      relinks s (cutRx s p) p := by
  unfold cutRx
  split
  · rename_i h
    refine ⟨?_, relinks.refl _ _⟩
    rw [← h]
  · apply cutError_at
    split
    · rw [updFabric_same]; exact ⟨rfl, updFabric_relinks _ _ _⟩
    · rename_i o _
      refine ⟨?_, (updFabric_relinks s p _).trans (updQueue_relinks _ _ _ _ (fun _ => rfl))⟩
      by_cases eo : p = o
      · subst eo; rw [updFabric_same, updFabric_same]; rfl
      · rw [updFabric_other _ _ _ _ eo, updFabric_same]

theorem cutPort_at (s : State) (p : FPort) :
    (cutPort s p).fabric[p] = { s.fabric[p] with rx := none, outQ := (cutPort s p).fabric[p].outQ, tx := none } ∧ relinks s (cutPort s p) p := by
  obtain ⟨h1, h2⟩ := cutRx_at s p
  unfold cutPort
  refine ⟨?_, h2.trans (updFabric_relinks _ _ _)⟩
  rw [updFabric_same]
  rw [h1]

/-- A port that has gone down: idle, its buffers empty, its cage, presets and attempts kept (R310, R314). -/
theorem portDown_at (s : State) (p : FPort) (st : FpState) (h : st = .down ∨ st = .failed ∨ st = .miswired) :
    (portDown s p st).fabric[p] =
        { FabricPort.shut s.fabric[p] with state := st, attempts := s.fabric[p].attempts, retryWait := s.fabric[p].retryWait } ∧
      relinks s (portDown s p st) p := by
  unfold portDown
  obtain ⟨h1, h2⟩ := cutPort_at s p
  obtain ⟨k1, k2⟩ := spread_at (updFabric (cutPort s p) p (fun x =>
    { FabricPort.shut x with state := st, outQ := x.outQ, attempts := x.attempts, retryWait := x.retryWait })) p (by
      rw [updFabric_same]; rcases h with rfl | rfl | rfl <;> rfl)
  refine ⟨?_, (h2.trans (updFabric_relinks _ _ _)).trans k2⟩
  rw [k1, updFabric_same, h1]
  rfl

theorem linkDownReport_tells (s : State) (p : FPort) (cause : Nat) : tells s (linkDownReport s p cause) := by
  unfold linkDownReport
  exact ((linkEvent_reports _ _ _).trans (note_reports _ _ _ _ _ _ _)).tells.trans (fmMessage_tells _ _ _)

theorem tells.coordValid {s t : State} (h : tells s t) : t.router.coordValid = s.router.coordValid := by rw [h]

theorem tells.fabric_eq {s t : State} (h : tells s t) : t.fabric = s.fabric := by rw [h]

/-- Degradation with lanes left: IDENTIFY over the lanes that remain, the packets under way cut (R313). -/
theorem degrade_at (s : State) (p : FPort) (c : BitVec 8) (h : (chooseLanes (s.fabric[p].goodOwn &&& ~~~c)).isNone = false) :
    (degrade s p c).fabric[p] = { s.fabric[p] with
      state := .identify, goodOwn := s.fabric[p].goodOwn &&& ~~~c, detected := s.fabric[p].goodOwn &&& ~~~c,
      idents := Vector.replicate 8 none, aligned := 0, degraded := true, winFixed := Vector.replicate 8 0, winBad := 0,
      partnerAllOff := true, resync := true, sent := none, rx := none, outQ := (degrade s p c).fabric[p].outQ, tx := none } ∧
      relinks s (degrade s p c) p := by
  obtain ⟨h1, h2⟩ := cutPort_at s p
  unfold degrade
  dsimp only
  have h0 : (bump (cutPort s p) 0x27 p.val 1).fabric[p] = (cutPort s p).fabric[p] := rfl
  rw [h0]
  have hg : (cutPort s p).fabric[p].goodOwn = s.fabric[p].goodOwn := by rw [h1]
  rw [hg]
  rw [if_neg (by rw [h]; decide)]
  refine ⟨?_, (h2.trans (bump_relinks _ _ _ _ _)).trans (updFabric_relinks _ _ _)⟩
  rw [updFabric_same, h0, h1]

/-- Degradation with no lane set left: the port goes DOWN and says so (R313). -/
theorem degrade_down (s : State) (p : FPort) (c : BitVec 8) (h : (chooseLanes (s.fabric[p].goodOwn &&& ~~~c)).isNone = true) :
    (degrade s p c).fabric[p].state = .down ∧ relinks s (degrade s p c) p := by
  obtain ⟨h1, h2⟩ := cutPort_at s p
  unfold degrade
  dsimp only
  have h0 : (bump (cutPort s p) 0x27 p.val 1).fabric[p] = (cutPort s p).fabric[p] := rfl
  rw [h0]
  have hg : (cutPort s p).fabric[p].goodOwn = s.fabric[p].goodOwn := by rw [h1]
  rw [hg, if_pos h]
  obtain ⟨d1, d2⟩ := portDown_at (bump (cutPort s p) 0x27 p.val 1) p .down (.inl rfl)
  have hl := linkDownReport_tells (portDown (bump (cutPort s p) 0x27 p.val 1) p .down) p 2
  refine ⟨?_, ((h2.trans (bump_relinks _ _ _ _ _)).trans d2).trans (hl.relinks p)⟩
  rw [hl.fabric_eq, d1]

end Sys2Proof.Machine
end

