-- ==== Sys2Proof/Laws/Tally.lean ====
section
/-! SUPPORT. A telemetry counter reads as it was last raised. -/

namespace Sys2Proof.Machine

theorem find_insertBy {α : Type} {P : α → Bool} {less : α → α → Bool} {x : α} (hx : P x = true) :
    ∀ l : List α, (∀ y ∈ l, P y = false) → (insertBy less x l).find? P = some x
  | [], _ => by simp [insertBy, hx]
  | y :: l, h => by
    unfold insertBy
    split
    · rw [List.find?_cons_of_pos hx]
    · rw [List.find?_cons_of_neg (by rw [h y List.mem_cons_self]; decide)]
      exact find_insertBy hx l (fun z hz => h z (List.mem_cons_of_mem _ hz))

theorem tallyGet_tallySet (l : List ((Nat × Nat) × Nat)) (k : Nat × Nat) (v : Nat) : tallyGet (tallySet l k v) k = v := by
  have hn : ∀ y ∈ l.filter (fun e => e.1 != k), (y.1 == k) = false := by
    intro y hy
    have := (List.mem_filter.mp hy).2
    simpa [bne] using this
  unfold tallySet
  dsimp only
  split
  · rename_i h
    unfold tallyGet
    have : (l.filter (fun e => e.1 != k)).find? (fun e => e.1 == k) = none := by
      rw [List.find?_eq_none]
      intro y hy
      rw [hn y hy]; decide
    rw [this, h]
  · unfold tallyGet
    rw [find_insertBy (by simp) _ hn]

theorem find_insertBy_ne {α : Type} {P : α → Bool} {less : α → α → Bool} {x : α} (hx : P x = false) :
    ∀ l : List α, (insertBy less x l).find? P = l.find? P
  | [] => by simp [insertBy, hx]
  | y :: l => by
    unfold insertBy
    split
    · rw [List.find?_cons_of_neg (by rw [hx]; decide)]
    · by_cases hy : P y = true
      · rw [List.find?_cons_of_pos hy, List.find?_cons_of_pos hy]
      · rw [List.find?_cons_of_neg hy, List.find?_cons_of_neg hy]
        exact find_insertBy_ne hx l

theorem find_filter_ne {α : Type} {P Q : α → Bool} (h : ∀ x, P x = true → Q x = true) : ∀ l : List α, (l.filter Q).find? P = l.find? P
  | [] => rfl
  | x :: l => by
    by_cases hp : P x = true
    · rw [List.filter_cons_of_pos (h x hp), List.find?_cons_of_pos hp, List.find?_cons_of_pos hp]
    · by_cases hq : Q x = true
      · rw [List.filter_cons_of_pos hq, List.find?_cons_of_neg hp, List.find?_cons_of_neg hp]
        exact find_filter_ne h l
      · rw [List.filter_cons_of_neg hq, List.find?_cons_of_neg hp]
        exact find_filter_ne h l

theorem tallyGet_tallySet_ne (l : List ((Nat × Nat) × Nat)) (k k' : Nat × Nat) (v : Nat) (h : k' ≠ k) : tallyGet (tallySet l k v) k' = tallyGet l k' := by
  have hf : (l.filter (fun e => e.1 != k)).find? (fun e => e.1 == k') = l.find? (fun e => e.1 == k') := by
    refine find_filter_ne ?_ l
    intro x hx
    have : x.1 = k' := by simpa using hx
    rw [this]
    simpa [bne] using h
  unfold tallySet
  dsimp only
  split
  · unfold tallyGet
    rw [hf]
  · unfold tallyGet
    rw [find_insertBy_ne (by simpa using fun e => h e.symm), hf]

theorem counter_bump (s : State) (id idx n : Nat) : (bump s id idx n).counter id idx = (s.counter id idx + n) % 2 ^ 64 := by
  unfold bump State.counter
  exact tallyGet_tallySet _ _ _

end Sys2Proof.Machine
end

