-- ==== Sys2Proof/Tests/Slice0.lean ====
section
/-! SUPPORT. One small witness per clause of the obligations, at boundary values, and the checks of the command terms. Each takes one
command on a small device. -/

open Sys2Proof Sys2Proof.Machine

namespace Sys2Proof.Tests

set_option Elab.async false

/-- Bytes with pieces at offsets of 64 zero bytes: a descriptor. -/
def desc (l : List (Nat × Bytes)) : Bytes := l.foldl (fun d x => d.take x.1 ++ x.2 ++ d.drop (x.1 + x.2.length)) (zeros 64)

/-- The command of a descriptor, in flight and not started. -/
def cmd (d : Bytes) : Cmd := { uid := 1, part := 0, sq := 0, desc := d, started := false, handle := 0, fence := none, policy := none }

/-- A ring with 64 entries at 1 MiB, enabled. -/
def ring : Ring := { Ring.reset with base := 0x100000, cfg := 0x80000006 }

/-- Partition 0: assigned to port 0, enabled, with every ring. -/
def part0 : Partition :=
  { Partition.reset with
    enable := true, assigned := true, fmChannel := true, powerAdmin := true, sq := Vector.replicate 16 ring,
    cq := Vector.replicate 16 { CompRing.reset with ring := ring }, eq := ring, fmtx := ring, fmrx := ring }

/-- A job of one device. -/
def job : Job :=
  { id := 1, gen := 1, written := 1, box := (1, 1, 1), coord := (0, 0, 0), failed := false, stopped := false, torn := false }

/-- A device at READY with its first port up and partition 0 assigned. -/
def up : State :=
  { State.reset with
    pins := { State.reset.pins with modResetN := true, perstN := Vector.replicate 2 true, pwrGood := true },
    boot := { Boot.reset with stage := .ready, beat := 10 },
    ports := State.reset.ports.set 0 { PciePort.reset with linkUp := true },
    parts := State.reset.parts.set 0 part0,
    router := { Router.reset with coordValid := true, extX := 1, extY := 1, extZ := 1, bank0Valid := true } }

/-- The same with a job. -/
def withJob : State := { up with parts := up.parts.set 0 { part0 with job := some job } }

/-- A state with one command in flight. -/
def sent (s : State) (d : Bytes) : State := { s with cmds := [cmd d], nextUid := 2 }

theorem test_up_live : up.live = true := by decide +kernel

/-! ### States the witnesses use -/

/-- A host-visible FP32 tensor of 16 elements in HBM. -/
def tensor0 : TensorEntry :=
  { tag := 7, fmt := 1, dims := 1, role := 0x20, shape := [16, 1, 1, 1, 1, 1], placement := 0, scaleMode := 0, shardCut := 0xFF, shardAxis := 0,
    layer := 0xFFFF, rsvd := 0, scale := 0, init := noneIdx, initOff := 0, bytes := 64 }

/-- A grid of one cluster. -/
def grid0 : GridEntry := { id := 0, quad := 0, flags := 0, width := 1, height := 1, first := 0, live := 0 }

/-- A stroke with no operation, the last of its step. -/
def stroke0 : StrokeEntry := { index := 0, opFirst := 0, opCount := 0, exchFirst := 0, exchCount := 0, flags := 2, rsvdZero := true }

/-- The tables of a folio with one tensor, one grid and one stroke. -/
def tables0 : Tables :=
  { magic := 0x4F465A53, major := 1, minor := 0, headerBytes := 128, flags := 0, kind := 3, feature := 0, sectionCount := 0, totalBytes := 0,
    tableOff := 0, toolchain := 0, digest := zeros 64, headerRsvd := true, sections := [], boxX := 1, boxY := 1, boxZ := 1, cuts := [],
    grids := [grid0], tensors := [tensor0], ops := [], attrs := [], strokes := [stroke0], exchs := [], routing := [], buckets := [],
    roaming := [], intervals := [], filler := [], hints := [], init := [] }

/-- That folio, loaded in partition 0 under handle 16, its tensor at 4 KiB. -/
def folio0 : Folio :=
  { handle := 16, part := 0, tables := tables0, digest := zeros 64, finalDigest := zeros 64, box := (1, 1, 1), coord := (0, 0, 0),
    grids := [(0, 0, 0)], tensorAt := [4096], hbm := [(4096, 4160)], intervalCycles := [], unitCycles := [], carried := [], jobStep := 0,
    scaleExp := [], applied := [], gatherServed := [], retired := false, snapshot := none, buddy := none, ckptBytes := 0, units := [] }

/-- A run of one step of that folio. -/
def run0 : Run :=
  { folio := 16, quads := [0], stepCount := 1, recBase := 0x200000, stride := 0x200, slots := 1, stepsDone := 0, firstStep := 0, timeStart := 0,
    counters := Vector.replicate 16 0, stalls := Vector.replicate 32 0, marg := [], skips := [], unvisited := [], instancesDone := 0,
    updates := [], leafWritten := [], exchs := [], stopAfter := none, cancelStop := false, backlogStop := false, busySlots := [],
    heldRecords := [], ckptHold := false, lastDone := false }

/-- A long operation of command 1 under handle 32. -/
def long (state : LongState) (body : LongBody) : LongOp :=
  { handle := 32, part := 0, cmd := 1, opcode := 0x22, state := state, began := state != .queued, suspends := [], cancels := [], lastStatus := 0,
    doneUnits := 0, totalUnits := 1, released := false, silent := false, body := body }

/-- The device with the folio loaded, and its job. -/
def loaded : State := { withJob with folios := [folio0] }

/-- The folio's run stands, its command in flight. -/
def longAt (s : State) (state : LongState) (body : LongBody) (d : Bytes) : State :=
  { s with cmds := [{ cmd d with started := true, handle := 32 }], longs := [long state body], nextUid := 2 }

/-- The descriptor of an opcode with a handle in its first operand. -/
def descOf (op : Nat) (h : Nat) (l : List (Nat × Bytes)) : Bytes := desc ([(0, le 1 op), (8, le 4 h)] ++ l)

/-! Ill-formed commands are refused by the checks of WellFormed.lean. -/

theorem test_wf_doorbell_descriptor_length :
    Instr.wf (.doorbellRead { part := 0, ring := .sq 0, index := 1, entries := [zeros 63] }) = false ∧
    Instr.wf (.doorbellRead { part := 0, ring := .sq 0, index := 1, entries := [zeros 64] }) = true ∧
    Instr.wf (.doorbellRead { part := 0, ring := .fmtx, index := 1, entries := [zeros 64] }) = false ∧
    Instr.wf (.doorbellRead { part := 0, ring := .cq 0, index := 1, entries := [zeros 64] }) = false ∧
    Instr.wf (.doorbellRead { part := 0, ring := .eq, index := 1, entries := [zeros 64] }) = false ∧
    Instr.wf (.doorbellRead { part := 0, ring := .fmrx, index := 1, entries := [zeros 64] }) = false ∧
    Instr.wf (.nudge 0 [{ part := 0, ring := .sq 0, index := 1, entries := [zeros 63] }]) = false := by decide +kernel

theorem test_wf_register_alignment :
    Instr.wf (.registerWrite 0 0x1002 false 0) = false ∧ Instr.wf (.registerWrite 0 0x1004 true 0) = false ∧
    Instr.wf (.registerWrite 0 0x1004 false 0) = true := by decide

theorem test_wf_bar4 :
    Instr.wf (.bar4Access 0 0 (.read 0)) = false ∧ Instr.wf (.bar4Access 0 0xFFFFFFFFF (.read 2)) = false ∧
    Instr.wf (.bar4Access 0 0 (.write [])) = false ∧ Instr.wf (.bar4Access 0 0xFFFFFFFFF (.write [0])) = true := by decide

theorem test_wf_pcie_link : Instr.wf (.pcieLinkUp 0 0 1) = false ∧ Instr.wf (.pcieLinkUp 0 5 3) = false := by decide

theorem test_wf_power_good :
    Instr.wf (.powerGood none (some (zeros 31))) = false ∧ Instr.wf (.powerGood none (some (zeros 32))) = true := by decide

theorem test_wf_fm_entry : Instr.wf (.fmTransmit 0 (zeros 575)) = false := by decide +kernel

theorem test_wf_codeword :
    Instr.wf (.codeword 0 (.good 10 0 (List.replicate 10 0) [])) = false ∧
    Instr.wf (.codeword 0 (.good 9 0 (List.replicate 9 0) [])) = false ∧
    Instr.wf (.codeword 0 (.good 9 0 (List.replicate 10 0) [])) = true := by decide

/-- Thread 0 never roams, and there are 80,000 cores in 5,000 clusters. -/
theorem test_wf_threads :
    Instr.wf (.load 0 0) = false ∧ Instr.wf (.store 80000 1) = false ∧ Instr.wf (.load 79999 7) = true ∧
    Instr.wf (.trackerGrant 5000) = false ∧ Instr.wf (.memReply 0 5000 0) = false ∧
    Instr.wf (.lineQueueServe (.cluster 5000) .clean) = false := by decide

/-- Domain 0 is always on. -/
theorem test_wf_domains :
    Instr.wf (.domainWakeDone 0) = false ∧ Instr.wf (.domainEntryDone 0) = false ∧ Instr.wf (.trickleGuard 0 50) = false ∧
    Instr.wf (.brownout 0) = false ∧ Instr.wf (.thermalReading [(80, 50)]) = false ∧ Instr.wf (.cpbFault 7) = false := by decide

/-- No row of the table gives bits. -/
theorem test_decode_no_word : decodeTableWord 32 0 = none ∧ decodeTableWord 64 0xFFFFFFFF = none := by decide

/-- The SHA3-512 of no bytes, as FIPS 202 gives it (R7): its first four bytes. -/
theorem test_sha3_512_of_nothing : (sha3_512 []).take 4 = [0xa6, 0x9f, 0x73, 0xcc] := by decide +kernel

/-! ### The machine as a whole -/

theorem test_IdleStepAdvancesTimeBase : up.pending = [] ∧ up.pins.pwrGood = true ∧ State.reset.pending = [] ∧ State.reset.pins.pwrGood = false := by
  decide +kernel

theorem test_CommandsLeaveTheQueue : ∃ t, exec (.nop 0 0) up = .next t := ⟨_, rfl⟩

theorem test_EveryStepKeepsSoundness : up.sound ∧ ∃ t, step up = .next t :=
  ⟨by unfold State.sound State.memOk Blotter.ok State.clocksOk QuadClock.ok Settings.ok; decide +kernel, _, rfl⟩

theorem test_LockedSettingsStandUntilReset : mayReset (.settingsLock 0) = false ∧
    { up with settings := { Settings.reset with lock := true } }.settings.lock = true ∧
    ∃ t, exec (.settingsLock 0) { up with settings := { Settings.reset with lock := true } } = .next t := ⟨rfl, rfl, _, rfl⟩

theorem test_StopAndTripStandUntilReset : mayReset (.overTemp 3) = false ∧
    { up with errors := { ErrorBlock.reset with fatal := true } }.errors.fatal = true ∧
    { up with power := { Power.reset with tripped := true } }.power.tripped = true ∧ ∃ t, exec (.overTemp 3) up = .next t :=
  ⟨rfl, rfl, rfl, _, rfl⟩

theorem test_BlotterHeadFallsOnlyInColdReset : ∃ t, exec .powerGoodLost up = .next t := ⟨_, rfl⟩

theorem test_ControlRegistersHaveTheirOwnWriters : mayReset (.nop 0 0) = false ∧ writesControl (.nop 0 0) = false ∧
    ∃ t, exec (.nop 0 0) up = .next t := ⟨rfl, rfl, _, rfl⟩

theorem test_MemoryReadsWhatWasWritten : Memory.wf (Memory.empty.write 5 3) = true ∧ ((Memory.empty.write 5 3).write 5 0).cells = [] ∧
    (0 < 4 ∨ 4 + [1#8].length ≤ 0) := by decide +kernel

theorem test_FrozenBlotterKeepsLockedRecords :
    let r : BlotterRec := ⟨0, 1, 0, 0, 0, 0, 0⟩
    let b : Blotter := { Blotter.reset with slots := [(0, 0, r)], head := 1, frozen := true }
    ({ up with blotter := b }).blotter.frozen = true ∧ b.freezeSeq < b.head ∧ (0 % 2048, 0, r) ∈ b.slots ∧ 0 ≤ b.freezeSeq ∧
      b.freezeSeq < 0 + 1984 := by decide +kernel

theorem test_CompletionRecordLayout : (0 : Nat) ≤ 1 ∧ (1 : Nat) ≤ 1 := by decide

/-! ### Host commands -/

theorem test_NopCompletes : quietFor (sent up (desc [(0, [1])])) (cmd (desc [(0, [1])])) ∧
    startable (sent up (desc [(0, [1])])) 0 0 0x01 = some (cmd (desc [(0, [1])])) := by
  unfold quietFor; decide +kernel

theorem test_FenceWaitsForItsScope :
    let d := desc [(0, [2])]
    let e := { cmd d with uid := 2, started := true, desc := desc [(0, [0x10])] }
    let s := { sent up d with cmds := [e, cmd d], nextUid := 3 }
    (quietFor (sent up d) (cmd d) ∧ startable (sent up d) 0 0 0x02 = some (cmd d)) ∧
    (quietFor s (cmd d) ∧ startable s 0 0 0x02 = some (cmd d) ∧
      s.cmds.filter (fun x => x.started && x.part == 0 && (u8 (cmd d).desc 8 == 1 || x.sq == 0)) ≠ []) := by
  unfold quietFor; decide +kernel

theorem test_ResultsComeBeforeTheirRecords :
    let run := longAt loaded .running (.run run0) (desc [(0, [0x22])])
    let q := { cmd (descOf 0x60 32 []) with uid := 2 }
    let a := { loaded with boot := { loaded.boot with seed := some (zeros 32) } }
    up.memOk ∧
    (∀ op ∈ [0x61, 0x62], quietFor (sent up (desc [(0, le 1 op)])) (cmd (desc [(0, le 1 op)])) ∧
      startable (sent up (desc [(0, le 1 op)])) 0 0 op = some (cmd (desc [(0, le 1 op)]))) ∧
    (quietFor (sent a (descOf 0x70 0 [])) (cmd (descOf 0x70 0 [])) ∧ a.boot.seed = some (zeros 32) ∧
      startable (sent a (descOf 0x70 0 [])) 0 0 0x70 = some (cmd (descOf 0x70 0 []))) ∧
    (startable (sent loaded (descOf 0x60 16 [(12, [1])])) 0 0 0x60 = some (cmd (descOf 0x60 16 [(12, [1])])) ∧
      u8 (descOf 0x60 16 [(12, [1])]) 12 = 1 ∧ folioRef loaded 0 (descHandle (descOf 0x60 16 [(12, [1])]) 8) = .ok folio0) ∧
    (quietFor { run with cmds := run.cmds ++ [q] } q ∧ startable { run with cmds := run.cmds ++ [q] } 0 0 0x60 = some q ∧ u8 q.desc 12 ≠ 1 ∧
      run.longs.find? (fun o => o.handle == descHandle q.desc 8 && o.part == 0) = some (long .running (.run run0))) := by
  unfold quietFor State.memOk; decide +kernel

theorem test_LongCommandsAreAdmitted :
    let d := fun (op : Nat) => descOf op 16 [(12, le 4 1), (16, le 8 0x200000), (24, le 4 0x200), (28, le 4 1)]
    (admitsNext (sent loaded (d 0x20)) (cmd (d 0x20)) ∧ startable (sent loaded (d 0x20)) 0 0 0x20 = some (cmd (d 0x20)) ∧
      loadRoom (sent loaded (d 0x20)) 0 = true) ∧
    ∀ one : Bool, let op := if one then 0x23 else 0x22
      admitsNext (sent loaded (d op)) (cmd (d op)) ∧ startable (sent loaded (d op)) 0 0 op = some (cmd (d op)) ∧
      folioRef (sent loaded (d op)) 0 (descHandle (d op) 8) = .ok folio0 ∧ folio0.retired = false ∧
      stepRecordBytes folio0.tables ≤ u32 (d op) 24 := by
  unfold admitsNext quietFor; decide +kernel

theorem test_CopiesStart :
    let d := fun (op len grid : Nat) => descOf op 16 [(24, le 8 0), (32, le 8 len), (40, le 4 grid)]
    ∀ toDevice : Bool, let op := if toDevice then 0x10 else 0x11
      ∀ grid ∈ [0, noneIdx], admitsNext (sent loaded (d op 64 grid)) (cmd (d op 64 grid)) ∧
        startable (sent loaded (d op 64 grid)) 0 0 op = some (cmd (d op 64 grid)) ∧
        folioRef loaded 0 (descHandle (d op 64 grid) 8) = .ok folio0 ∧
        copyRangeOk folio0 (u32 (d op 64 grid) 12) (u64 (d op 64 grid) 24) (u64 (d op 64 grid) 32) = true ∧
        copyRangeOk { folio0 with tables := { tables0 with tensors := [{ tensor0 with bytes := 2 ^ 24 }] } } 0 0
          (u64 (d op (2 ^ 24) grid) 32) = true ∧ 2 ^ 24 ≤ u64 (d op (2 ^ 24) grid) 32 ∧ u64 (d op 64 grid) 32 < 2 ^ 24 ∧
        (u32 (d op 64 grid) 40 = noneIdx ∨ u32 (d op 64 grid) 40 < tables0.grids.length) := by
  unfold admitsNext quietFor; decide +kernel

/-- A copy of the folio's tensor below 16 MiB. -/
def copy0 (toDevice : Bool) : CopyOp :=
  { id := 5, part := 0, toDevice := toDevice, folio := 16, tensor := 0, hostAddr := 0x300000, off := 0, len := 64, tokenGrid := noneIdx, token := 0,
    cmd := 1, long := false, duringRun := false }

theorem test_CopiesComplete :
    ∀ toDevice : Bool,
      let c := { cmd (desc [(0, [0x10])]) with started := true }
      let s := { loaded with cmds := [c], copies := [copy0 toDevice], nextUid := 6 }
      s.memOk ∧ quietFor s c ∧ (copy0 toDevice).cmd = c.uid ∧ copyMoving s 5 = some (copy0 toDevice, folio0) ∧
        (tensorIdxDomains s folio0 0).all (domainOn s) = true ∧ copyLong s 5 = none ∧ (zeros 64).length = (copy0 toDevice).len ∧
        (copy0 toDevice).toDevice = toDevice ∧ (copy0 toDevice).tokenGrid = noneIdx ∧ s.mem.poisoned 4096 64 = false ∧
        (copy0 toDevice).part = c.part := by
  unfold quietFor State.memOk; decide +kernel

theorem test_JobStartTakesItsQuadrants : let s := longAt loaded .queued (.run run0) (desc [(0, [0x22])])
    runOf s 32 = some (long .queued (.run run0), run0) ∧ mayStart s (long .queued (.run run0)) run0 = true ∧ (0 : Quad) ∈ run0.quads ∧
      (1 : Quad) ∉ run0.quads := by decide +kernel

/-- SUSPEND, RESUME or CANCEL of a long operation. -/
def onTarget (op : Nat) (o : LongOp) : State :=
  { longAt loaded o.state o.body (desc [(0, [0x22])]) with
    longs := [o], cmds := [{ cmd (desc [(0, [0x22])]) with started := true, handle := 32 }, { cmd (descOf op 32 []) with uid := 2 }], nextUid := 3,
    seqs := State.reset.seqs.set 0 { Sequencer.reset with state := .compute, owner := some 32, opened := 1 } }

theorem test_TargetsAnswerByTheirState :
    let ok := fun (op : Nat) (o : LongOp) => let c := { cmd (descOf op 32 []) with uid := 2 }
      quietFor (onTarget op o) c ∧ o.silent = false ∧ longOf (onTarget op o) o.handle = some o ∧ startable (onTarget op o) 0 0 op = some c ∧
      (onTarget op o).longs.find? (fun x => x.handle == descHandle c.desc 8 && x.part == c.part) = some o
    let open_ := run0.stopAfter = none ∧ 1 = (run0.quads.map (fun q => (onTarget 0x30 (long .running (.run run0))).seqs[q].opened)).foldl max 0 ∧
      (onTarget 0x30 (long .running (.run run0))).seqs[(0 : Quad)].closed < 1
    let load := LongBody.load (newLoad (desc []))
    open_ ∧
    (∀ o ∈ [long .queued load, long .cancelling (.run run0), long .done (.run run0), long .suspended (.run run0), long .queued (.run run0),
      long .running (.copy (copy0 true)), long .running (.run run0)], ok 0x30 o) ∧
    (∀ o ∈ [long .queued load, long .queued (.run run0), long .suspended (.copy (copy0 true)), long .suspended (.run run0)], ok 0x31 o) ∧
    (∀ o ∈ [long .failed (.run run0), long .cancelling (.run run0), long .queued (.run run0), long .queued load, long .running (.run run0)],
      ok 0x32 o) ∧
    load.suspendable = false ∧ (long .suspended (.run run0)).suspends = [] ∧ run0.lastDone = false ∧ loaded.debugWrites = [] := by
  unfold quietFor; decide +kernel

/-- Bytes with pieces at offsets of n zero bytes. -/
def patch (n : Nat) (l : List (Nat × Bytes)) : Bytes := l.foldl (fun d x => overlay d x.1 x.2) (zeros n)

/-- An image of KIND 3 with one tensor, one grid of one cluster and one stroke, its digest not written yet (R30, R31, R41, R44, R53). -/
def rawImage : Bytes :=
  patch 480 [(0, le 4 0x4F465A53), (4, le 2 1), (8, le 4 128), (0x10, le 2 3), (0x14, le 4 5), (0x18, le 8 480), (0x20, le 8 128),
    (128, le 2 1 ++ zeros 6 ++ le 8 320 ++ le 8 32), (160, le 2 2 ++ zeros 6 ++ le 8 384 ++ le 8 64 ++ le 4 1),
    (192, le 2 3 ++ zeros 6 ++ le 8 448), (224, le 2 4 ++ zeros 6 ++ le 8 448), (256, le 2 5 ++ zeros 6 ++ le 8 448 ++ le 8 32 ++ le 4 1),
    (320, le 2 1 ++ le 2 1 ++ le 2 1 ++ le 2 0 ++ le 4 1), (336 + 6, le 2 1 ++ le 2 1),
    (384, le 4 7 ++ le 1 1 ++ le 1 1 ++ le 2 0x20 ++ le 4 16 ++ le 4 1 ++ le 4 1 ++ le 4 1 ++ le 4 1 ++ le 4 1 ++
      le 1 0 ++ le 1 0 ++ le 1 0xFF ++ le 1 0 ++ le 2 0xFFFF ++ le 2 0 ++ le 4 0 ++ le 4 0xFFFFFFFF ++ le 8 0 ++ le 8 64),
    (448 + 0x14, le 4 2)]

/-- The same with its digest (R36), computed outside the model. -/
def image : Bytes := overlay rawImage 0x30 (le 64
  0x2934cddd92fb46bd0ad34f73c431a03aa51a542c90833e9aa8f32e5ae94383b53476f58f0f30289e72abd9dc410f34a715d28f33e9e9fe498b11be1000370640)

/-- The device with HBM region 0 assigned to partition 0 and a load of 480 bytes in flight. -/
def loading (state : LongState) (l : LoadOp) : State :=
  longAt { withJob with regions := State.reset.regions.set 0 { assigned := true, part := 0, stackLocal := false, zeroing := false } } state (.load l)
    (desc [(0, [0x20])])

/-- A load of 480 bytes. -/
def load0 : LoadOp := { resultAddr := 0x400000, resultLen := 256, hostAddr := 0x500000, len := 480, staged := none, sampled := none }

/-- That load's command. -/
def loadCmd : Cmd := { cmd (desc [(0, [0x20])]) with started := true, handle := 32 }

/-- The load once its sample and its copy are taken. -/
def load1 (img : Bytes) : LoadOp := { load0 with staged := some img, sampled := some (sampleOf (loading .queued load0) 0) }

theorem test_LoadsAreFinalized_start :
    let s := loading .queued load0
    s.memOk ∧ standsFor s (long .queued (.load load0)) loadCmd ∧ s.live = true ∧
      loadsLive s (fun o => o.state == .running || o.state == .cancelling) < 2 ∧ carveUsed s 0 + roundUp load0.len 64 ≤ carveBytes s 0 := by
  unfold standsFor quietFor State.memOk; decide +kernel

/-- What the image says. -/
def imageTables : Tables :=
  { tables0 with sectionCount := 5, totalBytes := 480, tableOff := 128, digest := slice image 0x30 64,
                 sections := [⟨1, 0, 0, 320, 32, 0, 0⟩, ⟨2, 0, 0, 384, 64, 1, 0⟩, ⟨3, 0, 0, 448, 0, 0, 0⟩, ⟨4, 0, 0, 448, 0, 0, 0⟩,
                   ⟨5, 0, 0, 448, 32, 1, 0⟩] }

theorem test_readImage : readImage image = imageTables := by decide +kernel

/-- A good image passes every check of finalization. -/
theorem test_LoadsAreFinalized_good :
    loadFlaw (loading .running load0) 0 (loadEnv load0 image (sampleOf (loading .queued load0) 0)) = none ∧
      loadRoom (loading .running load0) 0 = true := by
  unfold loadEnv; rw [test_readImage]; decide +kernel

/-- With four folios there is no room for a fifth (R67). -/
theorem test_LoadsAreFinalized_full : loadRoom { loading .running load0 with folios := List.replicate 4 folio0 } 0 = false := by decide +kernel

/-- No bytes are rejected with reason 1 (R70). -/
theorem test_LoadsAreFinalized_bad :
    loadFlaw (loading .running load0) 0 (loadEnv load0 [] (sampleOf (loading .queued load0) 0)) = some ⟨1, noneIdx, noneIdx⟩ := by
  decide +kernel

theorem test_LoadsAreFinalized_running : standsFor (loading .running (load1 [])) (long .running (.load (load1 []))) loadCmd ∧
    (load1 []).staged = some [] ∧ (load1 []).sampled = some (sampleOf (loading .queued load0) 0) := by
  unfold standsFor quietFor; decide +kernel

/-- The folio with one carried tensor, no grid and a data cut. -/
def folioC : Folio := { folio0 with tables := { tables0 with grids := [], cuts := [⟨3, 2, 2, 1⟩] }, grids := [] }

/-- The same with its device holding a carve-out region. -/
def loadedC (f : Folio) : State :=
  { withJob with folios := [f], regions := State.reset.regions.set 0 { assigned := true, part := 0, stackLocal := false, zeroing := false } }

theorem test_CheckpointsAreAdmitted :
    let d := fun (op kind : Nat) => descOf op 16 [(12, le 1 kind), (40, le 8 256)]
    ∀ kind ∈ [0, 1, 2], ∀ op ∈ [0x40, 0x41],
      let s := sent (loadedC folioC) (d op kind)
      admitsNext s (cmd (d op kind)) ∧ folioRef s 0 (descHandle (d op kind) 8) = .ok folioC ∧
        (u8 (d op kind) 12 = 2 → ckptSize folioC ≤ u64 (d op kind) 40) ∧ (u8 (d op kind) 12 = 1 → isDataCut folioC (u8 (d op kind) 13) = true) ∧
        startable s 0 0 op = some (cmd (d op kind)) ∧ stepPassed s folioC (u64 (d op kind) 24) = false ∧ writeInFlight s 0 = false ∧
        ckptRoom s folioC = true ∧ hasRun s folioC.handle = false ∧ roleCurrent s 0 = true := by
  unfold admitsNext quietFor; decide +kernel

theorem test_UnloadFreesTheFolio :
    let c := cmd (descOf 0x21 16 [])
    let s := sent loaded (descOf 0x21 16 [])
    quietFor s c ∧ (∀ d ∈ s.cmds, d.policy = none) ∧ s.mgmt.busy = none ∧ startable s 0 0 0x21 = some c ∧
      folioRef s 0 (descHandle c.desc 8) = .ok folio0 ∧ s.longs = [] ∧ s.pairings = [] ∧ s.pairWaits = [] ∧ s.copies = [] := by
  unfold quietFor; decide +kernel

/-- A checkpoint of the folio. -/
def ckpt0 : CkptOp :=
  { folio := 16, write := true, kind := 0, cut := 0, offset := 0, step := 0, hostAddr := 0x600000, hostLen := 256, copying := false,
    draining := false, nextPayload := 0, credit := 0, endSent := false, got := [], writing := false }

/-- Its command. -/
def ckptCmd : Cmd := { cmd (desc [(0, [0x40])]) with started := true, handle := 32 }

/-- The state in which it stands. -/
def ckptAt (f : Folio) (state : LongState) (k : CkptOp) : State := longAt (loadedC f) state (.ckpt k) (desc [(0, [0x40])])

/-- A run of the folio under handle 33. -/
def otherRun : LongOp := { long .running (.run run0) with handle := 33, cmd := 7 }

theorem test_CheckpointsTakeAndDrainTheirImage_boundary :
    let s := { ckptAt folioC .queued ckpt0 with longs := [long .queued (.ckpt ckpt0), otherRun] }
    s.memOk ∧ standsFor s (long .queued (.ckpt ckpt0)) ckptCmd ∧ folioOf s 16 = some folioC ∧
      ckptReady s (long .queued (.ckpt ckpt0)) ckpt0 folioC = true ∧ liveRunOf s folioC.handle = some (otherRun, run0) ∧
      otherRun.state = .running ∧ longOf s otherRun.handle = some otherRun := by
  unfold standsFor quietFor State.memOk; decide +kernel

theorem test_CheckpointsTakeAndDrainTheirImage_copied :
    ∀ kind ∈ [0, 1, 2],
      let k := { ckpt0 with kind := kind, copying := true }
      let s := ckptAt folioC .running k
      standsFor s (long .running (.ckpt k)) ckptCmd ∧ s.live = true ∧ partStopped s 0 = false ∧ ckptPoison s folioC = none := by
  unfold standsFor quietFor; decide +kernel

theorem test_CheckpointsTakeAndDrainTheirImage_poisoned :
    let k := { ckpt0 with copying := true }
    let s := { ckptAt { folioC with carried := [0] } .running k with mem := { Memory.empty with poison := [64] } }
    s.memOk ∧ standsFor s (long .running (.ckpt k)) ckptCmd ∧ ckptPoison s { folioC with carried := [0] } = some 4096 := by
  unfold standsFor quietFor State.memOk; decide +kernel

theorem test_CheckpointsTakeAndDrainTheirImage_drained :
    let k := { ckpt0 with kind := 2, draining := true }
    let s := ckptAt { folioC with snapshot := some { copying := false, step := 0, image := zeros 256 } } .running k
    s.memOk ∧ standsFor s (long .running (.ckpt k)) ckptCmd ∧ s.live = true := by
  unfold standsFor quietFor State.memOk; decide +kernel

/-- An image of that folio, its content digest not written yet (R368). -/
def rawCkpt : Bytes :=
  patch 256 [(0, le 4 0x4B435A53), (4, le 2 1), (8, le 8 256), (0x1A, [1, 1, 1]), (0x20, le 4 0x00010001)]

/-- The same with its content digest, computed outside the model. -/
def ckptBytes : Bytes := overlay rawCkpt 0x70 (le 64
  0x5351f4b40f8e20c0c721d014ed0e3815c8a2c6b4ed4496b5c0af08fe1610efaebe12d46bb630d22e65f449ceb81437524f9eafaa304104feb286fa1c6b78c8f1)

theorem test_checkpoint_digest : contentOk ckptBytes = true := by decide +kernel

theorem test_CheckpointsAreRestored_reason : ckptReason folioC 0 ckptBytes = none ∧ ckptReason folioC 0 (zeros 256) = some 0x70 ∧
    slice ckptBytes 0 256 = ckptBytes := by
  unfold ckptReason; rw [test_checkpoint_digest]; decide +kernel

theorem test_CheckpointsAreRestored_host :
    let k := { ckpt0 with write := false, kind := 2 }
    let s := ckptAt folioC .running k
    standsFor s (long .running (.ckpt k)) ckptCmd ∧ folioOf s 16 = some folioC ∧ s.live = true ∧ k.hostLen = 256 := by
  unfold standsFor quietFor; decide +kernel

theorem test_CheckpointsAreRestored_local :
    let k := { ckpt0 with write := false }
    let f := { folioC with snapshot := some { copying := false, step := 0, image := ckptBytes } }
    let s := ckptAt f .running k
    standsFor s (long .running (.ckpt k)) ckptCmd ∧ folioOf s 16 = some f ∧ s.live = true := by
  unfold standsFor quietFor; decide +kernel

/-- A checkpoint message of the job's stamp that waits. -/
def ckptMsg (msg phase : Nat) (b : Bytes) : Packet := { ckptMessage 0x00010001 msg phase 0 0 0 b with src := 7 }

/-- The state with it in front of the inbox. -/
def atInbox (s : State) (k : Packet) : State := { s with inbox := [k] }

/-- A buddy store armed for step 0. -/
def store0 : BuddyStore := { srcRank := 0, complete := none, step := 0, incoming := [], armed := some 0 }

/-- A message is taken from the inbox, and its stamp is a job's here. -/
def tookCkpt (s : State) (msg phase : Nat) (b : Bytes) : Prop :=
  (takeCkpt (atInbox s (ckptMsg msg phase b)) 0 msg).map (fun x => x.1) = some (ckptMsg msg phase b) ∧ (ckptMsg msg phase b).coll.phase = phase ∧
    (ckptMsg msg phase b).coll.step = 0 ∧ (partOfStamp s 0x00010001).isSome = true

/-- A CHECKPOINT_READ from the buddy, and a CHECKPOINT_WRITE to it. -/
def pull0 : CkptOp := { ckpt0 with write := false, kind := 1 }
def push0 : CkptOp := { ckpt0 with kind := 1, endSent := true }

theorem test_CheckpointMessagesAreServed_data :
    let s := loadedC { folioC with buddy := some store0 }
    (tookCkpt s 9 0 (zeros 256) ∧ armedStore s 0x00010001 0 = some { folioC with buddy := some store0 }) ∧
    (tookCkpt (ckptAt folioC .running pull0) 9 1 (zeros 256) ∧
      pullOf (ckptAt folioC .running pull0) (ckptMsg 9 1 (zeros 256)) = some (long .running (.ckpt pull0), pull0)) := by
  unfold tookCkpt; decide +kernel

/-- An image that this device serves. -/
def serve0 : PullServe :=
  { peer := 7, srcRank := 0, stamp := 0x00010001, image := zeros 256, step := 0, nextPayload := 0, credit := 0, endSent := false }

theorem test_CheckpointMessagesAreServed_credit :
    let s := { loadedC folioC with pulls := [serve0] }
    (tookCkpt (ckptAt folioC .running push0) 10 0 (le 4 1) ∧
      ckptWith (ckptAt folioC .running push0) 0x00010001 (fun c => c.write && c.kind == 1) = some (long .running (.ckpt push0), push0)) ∧
    (tookCkpt s 10 1 (le 4 1) ∧
      s.pulls.find? (fun x => x.peer == 7 && x.stamp == 0x00010001 && x.step % 2 ^ 16 == 0) = some serve0) := by
  unfold tookCkpt; decide +kernel

theorem test_CheckpointMessagesAreServed_end :
    let b := { store0 with incoming := [(0, zeros 256)] }
    let k := { pull0 with got := [(0, zeros 256)] }
    let m := le 8 256 ++ zeros 64
    (tookCkpt (loadedC { folioC with buddy := some b }) 11 0 m ∧
      armedStore (loadedC { folioC with buddy := some b }) 0x00010001 0 = some { folioC with buddy := some b } ∧
      ceilDiv (u64 m 0) 512 ≤ b.incoming.length) ∧
    (tookCkpt (ckptAt folioC .running k) 11 1 m ∧ pullOf (ckptAt folioC .running k) (ckptMsg 11 1 m) = some (long .running (.ckpt k), k) ∧
      ceilDiv (u64 m 0) 512 ≤ k.got.length) := by
  unfold tookCkpt; decide +kernel

theorem test_CheckpointMessagesAreServed_pull :
    tookCkpt (loadedC folioC) 12 1 [] ∧ tookCkpt (loadedC { folioC with buddy := some { store0 with complete := some (zeros 256) } }) 12 1 [] ∧
      partStamp (loadedC folioC) 0 = 0x00010001 ∧ store0.srcRank = (ckptMsg 12 1 []).coll.shard ∧ store0.step % 2 ^ 16 = 0 := by
  unfold tookCkpt; decide +kernel

theorem test_CheckpointMessagesAreServed_written :
    let s := atInbox (ckptAt folioC .running push0) (ckptMsg 13 0 (le 4 0))
    tookCkpt (ckptAt folioC .running push0) 13 0 (le 4 0) ∧ standsFor s (long .running (.ckpt push0)) ckptCmd ∧
      ckptWith s 0x00010001 (fun c => c.write && c.kind == 1 && c.endSent && c.step % 2 ^ 16 == 0) =
        some (long .running (.ckpt push0), push0) := by
  unfold tookCkpt standsFor quietFor; decide +kernel

theorem test_CheckpointMessagesAreServed_missing :
    let s := atInbox (ckptAt folioC .running pull0) (ckptMsg 13 1 (le 4 2))
    tookCkpt (ckptAt folioC .running pull0) 13 1 (le 4 2) ∧ standsFor s (long .running (.ckpt pull0)) ckptCmd ∧
      pullOf s (ckptMsg 13 1 (le 4 2)) = some (long .running (.ckpt pull0), pull0) := by
  unfold tookCkpt standsFor quietFor; decide +kernel

theorem test_checkpoint_end_matches : endMatches ckptBytes (ckptMsg 11 0 (le 8 256 ++ slice ckptBytes 0x70 64)) = true := by
  unfold endMatches; rw [test_checkpoint_digest]; decide +kernel

theorem test_PairsMeetAndPart :
    let d := descOf 0x50 16 [(12, [1]), (13, [2])]
    let f := { folio0 with part := (0 : Part) }
    let g := { folio0 with handle := 17, part := 1 }
    let w : PairWait := { cmd := 9, part := 1, folio := 17, peer := 0, mode := 2, token := zeros 16 }
    let s := { sent (loadedC f) d with folios := [f, g], pairWaits := [w], regions := Vector.replicate 72 ⟨true, 0, false, false⟩ |>.set 1 ⟨true, 1, false, false⟩ }
    quietFor s (cmd d) ∧ folioRef s 0 (descHandle d 8) = .ok f ∧ startable s 0 0 0x50 = some (cmd d) ∧ inPairing s f.handle = false ∧
      s.pairWaits.any (fun w => w.folio == f.handle) = false ∧
      (s.pairWaits.filter (fun w => w.part == partN (u8 d 12) && w.peer == 0)).find? (fun w => w.mode == u8 d 13 && w.token == slice d 16 16) = some w ∧
      folioOf s w.folio = some g ∧ bit (u8 d 13) 0 = false ∧ streamsMatch f g = true ∧ slotsFit s g f (newPairing g f (u8 d 13)).streams = true ∧
      (sent loaded d).pairWaits.filter (fun w => w.part == partN (u8 d 12) && w.peer == 0) = [] := by
  unfold quietFor; decide +kernel

/-- PAIR_MODE bit 0 joins a training folio with an interval and a filler folio. -/
theorem test_PairsMeetAndPart_fill :
    fillMatches { folio0 with tables := { tables0 with intervals := [⟨0, 0, 0, 0, 1, 1, 0, 1, true⟩] } }
      { folio0 with tables := { tables0 with kind := 2 } } = true := by decide +kernel

theorem test_PairsMeetAndPart_unpair :
    let d := descOf 0x51 16 []
    let w : PairWait := { cmd := 9, part := 0, folio := 16, peer := 1, mode := 0, token := zeros 16 }
    let x : Pairing := { a := 16, b := 17, fill := false, streams := [] }
    let c := { cmd d with uid := 2 }
    let s := { sent loaded d with pairings := [x] }
    let r := { longAt loaded .running (.run run0) (desc [(0, [0x22])]) with pairings := [x], nextUid := 3 }
    (quietFor s (cmd d) ∧ startable s 0 0 0x51 = some (cmd d) ∧ folioRef s 0 (descHandle d 8) = .ok folio0 ∧
      s.pairWaits.find? (fun w => w.folio == folio0.handle) = none ∧
      s.pairings.find? (fun x => x.a == folio0.handle || x.b == folio0.handle) = some x ∧ (runStands s x.a || runStands s x.b) = false) ∧
    (quietFor { r with cmds := r.cmds ++ [c] } c ∧ startable { r with cmds := r.cmds ++ [c] } 0 0 0x51 = some c ∧
      (runStands r x.a || runStands r x.b) = true) ∧
    ({ sent loaded d with pairWaits := [w] }).pairWaits.find? (fun w => w.folio == folio0.handle) = some w := by
  unfold quietFor; decide +kernel

theorem test_ReshardBegins :
    let d := descOf 0x42 16 [(12, le 4 17)]
    let b := fun (kind : Nat) => { folio0 with handle := 17, tables := { tables0 with kind := kind, boxX := 1 } }
    let a := { folio0 with tables := { tables0 with kind := 1 } }
    let j := { job with written := 2 }
    let s := fun (j : Job) (kind : Nat) => { sent loaded d with folios := [a, b kind], parts := up.parts.set 0 { part0 with job := some j } }
    (∀ kind ∈ [1, 3], admitsNext (s j kind) (cmd d) ∧ startable (s j kind) 0 0 0x42 = some (cmd d) ∧
      folioRef (s j kind) 0 (descHandle d 8) = .ok a ∧ folioRef (s j kind) 0 (descHandle d 12) = .ok (b kind) ∧
      (s j kind).parts[(0 : Part)].job = some j ∧ reshardAdmits (s j kind) 0 a (b kind) = true) ∧
    (admitsNext (s job 1) (cmd d) ∧ (s job 1).parts[(0 : Part)].job = some job ∧ reshardAdmits (s job 1) 0 a (b 1) = false) ∧
    reshardReason a (b 1) = none ∧ reshardReason a (b 3) = some 0x60 := by
  unfold admitsNext quietFor; decide +kernel

/-! ### Rings, registers and ports -/

/-- Partition 0 with a limit, its first submission ring with entry 0 posted. -/
def ringed : State := { up with parts := State.reset.parts.set 0 { part0 with limit := 64 } }

theorem test_RingsAreServed :
    let mod := { part0 with cq := part0.cq.set 0 { CompRing.reset with ring := ring, sinceSignal := 1, mod := 0x00010000 } }
    let q := { up with parts := State.reset.parts.set 0 mod }
    quietRings ringed ∧ ringed.live = true ∧ portPosts ringed ringed.parts[(0 : Part)].port = true ∧ ringed.parts[(0 : Part)].enable = true ∧
      ringed.parts[(0 : Part)].sq[(15 : Fin 16)].usable = true ∧ (1 - ringed.parts[(0 : Part)].sq[(15 : Fin 16)].consumed).toNat = 1 ∧
      ringed.parts[(0 : Part)].sq[(15 : Fin 16)].posted = ringed.parts[(0 : Part)].sq[(15 : Fin 16)].consumed ∧
      descReason ringed 0 (desc [(0, [1])]) = 0 ∧ admits ringed 0 1 = true ∧
      ringed.parts[(0 : Part)].sq[(0 : Fin 16)].depth < ((65 : Word32) - ringed.parts[(0 : Part)].sq[(0 : Fin 16)].consumed).toNat ∧
      ringed.parts[(0 : Part)].eq.usable = true ∧
      (ringed.parts[(0 : Part)].eq.posted - (0 : Word32)).toNat ≤ ringed.parts[(0 : Part)].eq.depth ∧
      ringed.parts[(0 : Part)].sq[(3 : Fin 16)].enabled = true ∧ up.parts[(1 : Part)].sq[(3 : Fin 16)].enabled = false ∧
      quietRings q ∧ q.parts[(0 : Part)].cq[(0 : Fin 16)].ring.usable = true ∧ 0 < q.parts[(0 : Part)].cq[(0 : Fin 16)].sinceSignal ∧
      0 < bits q.parts[(0 : Part)].cq[(0 : Fin 16)].mod.toNat 31 16 := by
  unfold quietRings; decide +kernel

theorem test_PartitionRegistersAreWritten :
    let off := { up with parts := State.reset.parts.set 0 { part0 with sq := Vector.replicate 16 Ring.reset, eq := Ring.reset } }
    let named := { up with parts := State.reset.parts.set 0 { part0 with sq := Vector.replicate 16 { ring with cfg := 0x80300006 } } }
    let asleep := { up with power := { up.power with domains := up.power.domains.set 1 { PowerDomain.reset with state := .retention } } }
    bar0Open up 0 = true ∧ up.live = true ∧ up.parts[(0 : Part)].assigned = true ∧ up.parts[(0 : Part)].port = 0 ∧ domainOn up 1 = true ∧
      off.parts[(0 : Part)].sq[(15 : Fin 16)].enabled = false ∧ (0x80000010 : Word32).getLsbD 31 = true ∧
      (0x80000010 : Word32).toNat % 32 = 16 ∧ (0x80000001 : Word32).toNat % 32 = 1 ∧ (0x80000000 : Word32).toNat % 32 = 0 ∧
      16 < (0x80000011 : Word32).toNat % 32 ∧ off.parts[(0 : Part)].cq[(Fin.ofNat 16 (bits 0x80000010 23 20) : Fin 16)].ring.enabled = true ∧
      named.parts[(0 : Part)].cq[(3 : Fin 16)].ring.enabled = true ∧ cqNamed named.parts[(0 : Part)] 3 = true ∧
      (0x6 : Word32).getLsbD 31 = false ∧ off.parts[(0 : Part)].eq.enabled = false ∧ bar0Open asleep 0 = true ∧ asleep.live = true ∧
      domainOn asleep 1 = false ∧ asleep.parts[(0 : Part)].assigned = true ∧ up.parts[(1 : Part)].assigned = false ∧
      (0x1001 : BitVec 16).toNat % 4 ≠ 0 := by
  decide +kernel

theorem test_ErrorFlagSetsWin : bar0Open up 0 = true ∧ up.boot.stage = .ready ∧ (0xF : BitVec 4).getLsbD 3 = true ∧
    (0x7 : BitVec 4).getLsbD 3 = false := by decide +kernel

theorem test_PortRegistersAndWindow :
    let locked := { up with ports := up.ports.set 0 { PciePort.reset with linkUp := true, locked := true } }
    let e : MsixEntry := ⟨0x100000, 7, 1⟩
    let masked := { up with ports := up.ports.set 0 { PciePort.reset with linkUp := true, pba := 1 <<< 63, msix := PciePort.reset.msix.set 63 e } }
    let rec_ := patch 576 [(0x98, le 4 256), (0x9C, le 4 308), (258, [1])]
    let on := { loadedC folioC with
      silicon := { eeprom := some rec_, pufSeed := none },
      ports := up.ports.set 0 { PciePort.reset with linkUp := true, bar4Ctrl := 0x80000000 } }
    bar0Open up 0 = true ∧ up.live = true ∧ locked.ports[(0 : Port)].locked = true ∧ bar0Open locked 0 = true ∧
      up.ports[(0 : Port)].locked = false ∧ (0x80000008 : Word64).toNat % 16 ≤ 8 ∧ 8 < (0x80000009 : Word64).toNat % 16 ∧
      masked.ports[(0 : Port)].msix[(63 : Fin 64)].ctrl.getLsbD 0 = true ∧ (0 : Word32).getLsbD 0 = false ∧
      masked.ports[(0 : Port)].pba.getLsbD 63 = true ∧ up.ports[(0 : Port)].pba.getLsbD 63 = false ∧ bar4Open on 0 = true ∧
      on.ports[(0 : Port)].bar4Left = 0 ∧ bit on.ports[(0 : Port)].bar4Ctrl.toNat 31 = true ∧
      (on.ports[(0 : Port)].bar4Ctrl.toNat % 16) * 2 ^ 36 + (4032 : BitVec 36).toNat = 4032 ∧
      bar4Bound on 0 4032 = true ∧ bar4Bound on 0 (4032 + 64 - 1) = true ∧ bar4Room on 4032 64 = true ∧ bar4Bound on 0 regionBytes = false ∧
      bar4Open { on with ports := up.ports } 0 = true ∧ bit up.ports[(0 : Port)].bar4Ctrl.toNat 31 = false := by
  decide +kernel

theorem test_PortsComeUpAndReset :
    let down := { up with pins := { up.pins with perstN := Vector.replicate 2 false }, ports := State.reset.ports }
    let training := { down with ports := State.reset.ports.set 0 { PciePort.reset with training := true }, boot := { Boot.reset with beat := 6 } }
    let fetching := { up with boot := { Boot.reset with stage := .fetching, beat := 7 } }
    down.pins.perstN[(0 : Port)] = false ∧ down.pins.pwrGood = true ∧ down.power.tripped = false ∧ 6 ≤ down.boot.beat ∧
      domainOn down (pcieDomain 0) = true ∧ State.reset.pins.perstN[(1 : Port)] = false ∧ State.reset.boot.beat < 6 ∧
      training.pins.pwrGood = true ∧ training.ports[(0 : Port)].training = true ∧ domainOn training (pcieDomain 0) = true ∧
      training.boot.stage = .romInit ∧ up.boot.stage ≠ .romInit ∧ up.ports[(0 : Port)].linkUp = true ∧ up.pins.pwrGood = true ∧
      up.power.tripped = false ∧ (∀ kind ∈ [PortResetKind.fundamental, .hot, .linkDown, .flr], resetReaches up 0 kind = true) ∧
      resetReaches down 0 .fundamental = false ∧ resetReaches down 0 .hot = false ∧ resetReaches fetching 0 .hot = true ∧
      fetching.boot.stage = .fetching ∧ fetching.boot.fwPort.toNat = (0 : Port).val := by
  decide +kernel

/-- A state of a boot stage with an image length. -/
def booting (stage : Stage) (len : Word32) : State := { up with boot := { Boot.reset with stage := stage, beat := 7, imageLen := len } }

/-- The witness of an accepted image would need the free hashes and signatures of log entry 3, so an image that is rejected stands here. -/
theorem test_BootTakesItsImage :
    let v := { booting .verifying 4 with boot := { Boot.reset with stage := .verifying, beat := 8, image := some [1, 2, 3, 4] } }
    bar0Open (booting .waitImage 0x2000) 0 = true ∧ (booting .waitImage 0x2000).boot.stage = .waitImage ∧ (1 : Word32).getLsbD 0 = true ∧
      0x2000 ≤ (booting .waitImage 0x2000).boot.imageLen.toNat ∧ (booting .waitImage 0x2000000).boot.imageLen.toNat ≤ 0x2000000 ∧
      (booting .waitImage 0x1FFF).boot.imageLen.toNat < 0x2000 ∧ 0x2000000 < (booting .waitImage 0x2000001).boot.imageLen.toNat ∧
      (booting .fetching 4).boot.stage = .fetching ∧ ([1, 2, 3, 4] : Bytes).length = (booting .fetching 4).boot.imageLen.toNat ∧
      v.boot.image = some [1, 2, 3, 4] ∧ v.boot.stage = .verifying ∧ imageFlaw [1, 2, 3, 4] = some 0x12 ∧
      (booting .starting 0).boot.stage = .starting ∧ (booting .starting 0).errors.fatal = false ∧ (booting .starting 0).power.tripped = false := by
  decide +kernel

/-- A module record whose header is good (R456), with nothing in it. -/
def record : Bytes :=
  patch 8192 [(0, le 4 0x524D5A53), (4, le 2 1), (8, le 4 256), (0x20, [0x53, 0x5A, 0x42, 0x38, 0x30, 0x2D, 0x4C, 0x51]), (0x30, le 2 0xB1)]

/-- A whole record would need the free hashes and signatures of log entry 3; the records that boot rejects before it stand here. -/
theorem test_PowerAndResetsStartAfresh :
    let hot := { up with power := { up.power with tripped := true, hot := true } }
    let released := { State.reset with pins := { State.reset.pins with modResetN := true } }
    let held := { up with pins := { up.pins with modResetN := false }, boot := { Boot.reset with beat := 1, held := true } }
    State.reset.pins.pwrGood = false ∧ State.reset.pins.modResetN = false ∧ released.pins.pwrGood = false ∧ released.pins.modResetN = true ∧
      (zeros 255).length < 256 ∧ 256 ≤ (zeros 256).length ∧ recordHeaderOk (zeros 256) = false ∧ 256 ≤ record.length ∧ recordHeaderOk record = true ∧
      up.pins.pwrGood = true ∧ up.pins.modResetN = true ∧ (up.power.tripped && up.power.hot) = false ∧
      (hot.power.tripped && hot.power.hot) = true ∧ hot.pins.modResetN = true ∧ held.pins.pwrGood = true ∧ held.pins.modResetN = false ∧
      held.boot.held = true ∧ 2 ≤ up.boot.beat ∧ up.mgmt.busy = none := by
  decide +kernel

/-! ### The management endpoint -/

theorem test_ManagementReadsAnswer :
    let whole := patch 512 [(0x90, le 4 256), (0x94, le 4 64)]
    let s := { up with silicon := { eeprom := some whole, pufSeed := none }, boot := { up.boot with seed := some (zeros 32) } }
    let early := { up with boot := { Boot.reset with beat := 2 } }
    let halted := { up with boot := { Boot.reset with stage := .halted, beat := 3, errCode := 5 } }
    let busy := { up with mgmt := { busy := some (.release [] 0), responses := [] } }
    takesRequest s ∧ s.silicon.eeprom = some whole ∧ 4 ≤ s.boot.beat ∧ (le 4 0 ++ le 2 64 : Bytes).length = 6 ∧ u16 (le 4 0 ++ le 2 64) 4 ≤ 1024 ∧
      u32 (le 4 0 ++ le 2 64) 0 + u16 (le 4 0 ++ le 2 64) 4 ≤ (recordCert whole).length ∧ 1024 < u16 (le 4 0 ++ le 2 1025) 4 ∧
      (recordCert whole).length < u32 (le 4 1 ++ le 2 64) 0 + u16 (le 4 1 ++ le 2 64) 4 ∧ takesRequest early ∧ early.boot.beat < 4 ∧
      s.boot.seed = some (zeros 32) ∧ (zeros 32).length = 32 ∧ ([] : Bytes).length ≠ 32 ∧ takesRequest halted ∧ halted.boot.seed = none ∧
      halted.boot.errCode = 5 ∧ 1 ≤ u16 (le 4 0 ++ le 2 32) 4 ∧ u16 (le 4 0 ++ le 2 32) 4 ≤ 32 ∧ u16 (le 4 0 ++ le 2 0) 4 = 0 ∧
      32 < u16 (le 4 0 ++ le 2 33) 4 ∧ busy.pins.pwrGood = true ∧ 2 ≤ busy.boot.beat ∧ busy.mgmt.busy.isSome = true := by
  unfold takesRequest; decide +kernel

theorem test_ManagementReadsAnswer_sensor :
    let hot := { up with power := { up.power with quads := up.power.quads.set 2 { QuadClock.reset with overTemp := true } } }
    let slow := { up with power := { up.power with quads := up.power.quads.set 3 { QuadClock.reset with throttling := true } } }
    { up with power := { up.power with tripped := true } }.power.tripped = true ∧ hot.power.tripped = false ∧
      hot.power.quads[(2 : Quad)].overTemp = true ∧ (∀ q : Quad, slow.power.quads[q].overTemp = false) ∧
      slow.power.quads[(3 : Quad)].throttling = true ∧ (∀ q : Quad, up.power.quads[q].throttling = false) := by decide +kernel

/-- The arguments of SET_CARVEOUT for partition 0 with a mask. -/
def carveArgs (mask : Nat) : Bytes := le 8 0 ++ le 16 mask ++ le 16 0

theorem test_CarveoutsAreZeroedThenAssigned :
    let m := 2 ^ 71 + 1
    takesRequest up ∧ up.live = true ∧ (carveArgs m).length = 40 ∧ u8 (carveArgs m) 0 ≤ 3 ∧ zeroRange (carveArgs m) 1 7 = true ∧
      2 ^ 72 ≤ uN (carveArgs (2 ^ 72)) 8 16 ∧ 0 < uN (carveArgs m) 8 16 ∧ uN (carveArgs m) 8 16 < 2 ^ 72 ∧ up.parts[(0 : Part)].assigned = true ∧
      up.folios.any (fun f => f.part == 0) = false ∧ State.reset.parts[(0 : Part)].assigned = false ∧ loaded.folios.any (fun f => f.part == 0) = true ∧
      (∀ g : Fin 72, bit m g = true → up.regions[g].assigned = false ∧ up.regions[g].zeroing = false) ∧ bit m (71 : Fin 72) = true ∧
      (loadedC folioC).regions[(0 : Fin 72)].assigned = true := by
  unfold takesRequest; decide +kernel

theorem test_CarveoutsAreZeroedThenAssigned_zeroed :
    let z := { up with regions := up.regions.set 71 { assigned := false, part := 0, stackLocal := false, zeroing := true },
                       mgmt := { busy := some (.carveout [] 0 [70, 71]), responses := [] } }
    let last := { z with mgmt := { busy := some (.carveout [] 0 [71]), responses := [] } }
    let freed := { z with mgmt := { busy := none, responses := [] } }
    z.live = true ∧ z.regions[(71 : Fin 72)].zeroing = true ∧ allStacks.all (domainOn z) = true ∧ z.mem.wf = true ∧
      z.mgmt.busy = some (.carveout [] 0 [70, 71]) ∧ 71 ∈ [70, 71] ∧ last.mgmt.busy = some (.carveout [] 0 [71]) ∧
      (∀ x ∈ [71], x = 71) ∧ freed.mgmt.busy = none := by decide +kernel

/-- The arguments of ASSIGN_PARTITION. -/
def assignArgs (part flags limit : Nat) : Bytes := le 1 part ++ le 1 0 ++ le 2 flags ++ le 2 limit ++ zeros 66

/-- The arguments of SET_JOB for partition 0. -/
def jobArgs (id gen : Nat) : Bytes := zeros 4 ++ le 2 id ++ le 2 gen ++ [1, 1, 8] ++ [0, 0, 7] ++ zeros 2

theorem test_ManagementRequestsAct_assign :
    takesRequest up ∧ up.live = true ∧ assignOk (assignArgs 3 3 4000) = true ∧ assignRefused State.reset (assignArgs 3 3 4096) = false ∧
      assignRefused up (assignArgs 1 0 32) = false ∧ assignRefused up (assignArgs 0 0 64) = true ∧ domainOn up (pcieDomain 0) = true := by
  unfold takesRequest; decide +kernel

theorem test_ManagementRequestsAct_release :
    let quiet := { up with parts := up.parts.set 0 { part0 with enable := false } }
    ([0, 0] : Bytes).length = 2 ∧ u8 [0, 0] 0 ≤ 3 ∧ u8 [0, 0] 1 = 0 ∧ quiet.parts[(0 : Part)].assigned = true ∧ quiesced quiet 0 = true ∧
      quiet.folios.any (fun f => f.part == 0) = false ∧ quiesced up 0 = false ∧ State.reset.parts[(0 : Part)].assigned = false ∧
      loaded.folios.any (fun f => f.part == 0) = true := by decide +kernel

theorem test_ManagementRequestsAct_coord :
    let a := fun (valid : Nat) => le 4 (0x1FF + valid) ++ le 4 0x1FF ++ le 4 0x8001
    let s := { up with router := Router.reset }
    takesRequest s ∧ (a 0x8000).length = 12 ∧ bits (u32 (a 0x8000) 0) 31 16 = 0 ∧ bits (u32 (a 0x8000) 0) 14 9 = 0 ∧ u32 (a 0x8000) 4 < 2 ^ 9 ∧
      bits (u32 (a 0x8000) 8) 31 16 = 0 ∧ bits (u32 (a 0x8000) 8) 14 9 = 0 ∧ s.router.coordValid = false ∧ bit (u32 (a 0x8000) 0) 15 = true ∧
      bit (u32 (a 0) 0) 15 = false := by unfold takesRequest; decide +kernel

theorem test_ManagementRequestsAct_job :
    let trained := { loaded with folios := [{ folio0 with tables := { tables0 with kind := 2 } }] }
    setJobOk (jobArgs 1 1) = true ∧ setJobOk (jobArgs 0xFFFE 0xFFFF) = true ∧ jobLoaded loaded 0 = false ∧ jobLoaded trained 0 = true ∧
      trained.parts[(0 : Part)].job = some job ∧ job.id.toNat ≠ u16 (jobArgs 2 5) 4 ∧
      (BitVec.ofNat 16 (u16 (jobArgs 1 1) 6)).toNat ≤ job.gen.toNat ∧ ([0] : Bytes).length = 1 ∧ u8 [0] 0 ≤ 3 ∧ takesRequest trained := by
  unfold takesRequest; decide +kernel

theorem test_ManagementRequestsAct_blotter :
    let stopped := { up with errors := { ErrorBlock.reset with fatal := true } }
    let frozen := { up with blotter := { Blotter.reset with frozen := true } }
    takesRequest stopped ∧ stopped.errors.fatal = true ∧ takesRequest frozen ∧ frozen.errors.fatal = false ∧ frozen.blotter.frozen = true ∧
      up.blotter.frozen = false ∧ u8 [1] 0 ≤ 1 := by unfold takesRequest; decide +kernel

/-- A POWER_POLICY with one entry for domain 72. -/
def policy (state : Nat) : Bytes := le 2 1 ++ le 2 1 ++ le 4 7 ++ le 4 3000 ++ [26, 26, 26, 26] ++ [10, 100, 35, 35] ++ zeros 12 ++
  le 1 72 ++ le 1 state ++ [1, 2, 100] ++ zeros 3

theorem test_PowerPoliciesApplyWhole :
    let d := fun (room : Nat) => desc [(0, [0x71]), (8, le 4 40), (24, le 4 room)]
    (∀ room ∈ [15, 16], quietFor (sent up (d room)) (cmd (d room)) ∧ startable (sent up (d room)) 0 0 0x71 = some (cmd (d room)) ∧
      (policy 0xFF).length = u32 (d room) 8) ∧ up.memOk ∧
      policyFlaw (policy 0xFF) = none ∧ policyFlaw (policy 2) = some 0x21 ∧ policyFlaw (policy 1) = none ∧ policyWaits (policy 0xFF) = [] ∧
      policyWaits (policy 1) ≠ [] ∧ u32 (d 15) 24 < 8 + 8 * u16 (policy 0xFF) 2 ∧ 8 + 8 * u16 (policy 0xFF) 2 ≤ u32 (d 16) 24 ∧ takesRequest up ∧
      up.live = true := by
  unfold quietFor takesRequest State.memOk; decide +kernel

/-! ### The system class -/

/-- A system-class packet to an address. -/
def sysPacket (op addr : Nat) (b : Bytes) : Packet := mkPacket 3 op 5 1 0 0 0 addr b

/-- The packet waits in the inbox of a state. -/
def takes (s : State) (cls op : Nat) (k : Packet) : Prop := takeInbox (atInbox s k) 0 cls op = some (k, { atInbox s k with inbox := [] })

theorem test_SystemAccessesAnswer_read :
    takes up 3 1 (sysPacket 1 controlBase (le 4 512)) ∧ readOk (sysPacket 1 controlBase (le 4 512)) = true ∧
      readOk (sysPacket 1 controlBase (le 4 516)) = false ∧ sysSpace up (sysPacket 1 controlBase (le 4 512)).sysLocal 512 = .control 0 ∧
      sysSpace up 4096 512 = .memory ((stacksOf up 4096 512).map stackDomain) ∧
      ((stacksOf up 4096 512).map stackDomain).all (domainOn up) = true ∧ up.mem.poisoned 4096 512 = false ∧
      sysSpace up (2 ^ 47 - 4) 4 = .nowhere := by
  unfold takes; decide +kernel

theorem test_SystemAccessesAnswer_write :
    let k := sysPacket 2 (controlBase + 0x5200) (le 4 100)
    takes up 3 2 k ∧ ownRegisters.any (fun r => touches k r.1 r.2) = false ∧ writeOk k = true ∧ writeOk (sysPacket 2 controlBase []) = false ∧
      sysSpace up k.sysLocal 4 = .control 0x5200 ∧ (writeControl up 0x5200 k.payload).1 = sysOk ∧
      (writeControl up 0x1000 (le 4 0)).1 = sysBadAddress := by
  unfold takes; decide +kernel

theorem test_SystemAccessesAnswer_manager :
    let m := sysPacket 4 0 (le 2 1 ++ le 2 16 ++ zeros 20)
    let s := { up with parts := up.parts.set 0 { part0 with fmtx := { ring with posted := 1 } } }
    let e := le 2 1 ++ [1, 0, 0, 0] ++ le 2 4 ++ le 8 controlBase ++ zeros 48 ++ le 4 4 ++ zeros 508
    fmPart up = some 0 ∧ up.parts[(0 : Part)].fmrx.usable = true ∧ 0 < up.parts[(0 : Part)].fmrx.free ∧ takes up 3 3 (sysPacket 3 0 (zeros 8)) ∧
      takes up 3 4 m ∧ toDevice (u16 m.payload 0) = false ∧ messageOf m toManager = some (1, zeros 16) ∧ s.live = true ∧
      s.parts[(0 : Part)].assigned = true ∧ s.parts[(0 : Part)].enable = true ∧ s.parts[(0 : Part)].fmChannel = true ∧
      s.parts[(0 : Part)].fmtx.usable = true ∧ portPosts s s.parts[(0 : Part)].port = true ∧ 0 < s.parts[(0 : Part)].fmtx.held ∧
      e.length = 576 ∧ fmEntryOk e = true ∧ fmEntryOk (zeros 576) = false := by
  unfold takes; decide +kernel

/-- A write of one word of the control space. -/
def wordPacket (o v : Nat) : Packet := sysPacket 2 (controlBase + o) (le 4 v)

theorem test_SettingsAndRoutingAreWritten :
    let fresh := { up with router := Router.reset }
    let locked := { up with settings := { Settings.reset with lock := true } }
    let cut := { up with fabric := up.fabric.set 0 { FabricPort.reset with state := .active } }
    takes fresh 3 2 (wordPacket 0x18000 0x8001) ∧ (wordPacket 0x18000 0x8001).payload.length = 4 ∧
      (wordPacket 0x18000 0x8001).sysLocal = controlBase + 0x18000 ∧ bits 0x8001 31 16 = 0 ∧ bits 0x8001 14 9 = 0 ∧ bits 0x200 14 9 ≠ 0 ∧
      fresh.router.coordValid = false ∧ bit 0x8001 15 = true ∧ up.router.coordValid = true ∧ BitVec.ofNat 9 1 ≠ up.router.myCoord ∧
      BitVec.ofNat 9 0x8000 = up.router.myCoord ∧ takes up 3 2 (wordPacket 0x18008 1) ∧ writeBankCtrl up 1 = some (updRouter up (fun r =>
        { r with bank0Valid := true, bank1Valid := false, injectEpoch := 0 })) ∧ writeBankCtrl up 2 = none ∧
      takes locked 3 2 (wordPacket 0x5214 0xFFFE) ∧ 0xFFFE % 2 ^ 16 ≠ locked.settings.fportEnable.toNat ∧
      0xFFFF % 2 ^ 16 = locked.settings.fportEnable.toNat ∧ cutsRing cut 0xFFFE = true ∧ cutsRing up 0xFFFE = false ∧
      takes up 3 2 (wordPacket (0x5000 + 4 * 71) 1) ∧ bit 1 0 ≠ up.regions[(71 : Fin 72)].stackLocal ∧ modeHeld up 71 = false ∧
      modeHeld (loadedC folioC) 0 = true ∧ bit 0 0 = up.regions[(71 : Fin 72)].stackLocal ∧ takes locked 3 2 (wordPacket 0x52FC 0) ∧
      locked.settings.lock = true ∧ bit 0 0 = false := by
  unfold takes; decide +kernel

/-- A message of the fabric manager. -/
def fmMessage (code : Nat) (a : Bytes) : Packet := sysPacket 4 0 (le 2 code ++ le 2 4 ++ zeros 4 ++ a)

theorem test_ManagerMessagesAct :
    (∀ code ∈ [0x101, 0x102, 0x103, 0x104], takes up 3 4 (fmMessage code (le 4 511)) ∧ u16 (fmMessage code (le 4 511)).payload 0 = code ∧
      messageOf (fmMessage code []) (fun _ => some 4) = none) ∧
    messageOf (fmMessage 0x101 (le 4 511)) (fun _ => some 4) = some (0x101, le 4 511) ∧ u16 (le 4 511) 0 < 512 ∧
    messageOf (fmMessage 0x103 (le 4 0x00010001)) (fun _ => some 4) = some (0x103, le 4 0x00010001) ∧
    partOfStamp withJob (BitVec.ofNat 32 (u32 (le 4 0x00010001) 0)) = some 0 ∧ withJob.parts[(0 : Part)].job = some job ∧
    withJob.folios.any (fun f => f.part == 0) = false ∧ withJob.longs = [] ∧ withJob.trackers = [] ∧ withJob.fillers = [] ∧
    partOfStamp withJob (BitVec.ofNat 32 (u32 (le 4 0x00020001) 0)) = none ∧
    messageOf (fmMessage 0x104 (le 4 15)) (fun _ => some 4) = some (0x104, le 4 15) ∧ u8 (le 4 15) 0 = (15 : FPort).val ∧ mayTrain up 15 = true ∧
    16 ≤ u8 (le 4 16) 0 := by
  unfold takes; decide +kernel

/-! ### The fabric -/

/-- A fabric port in a state, in the device that is up. -/
def portAt (x : FabricPort) : State := { up with fabric := up.fabric.set 15 x }

/-- A training frame with a good CRC (R310). -/
def frame (v : Nat) : BitVec 256 :=
  let b := 0xF0F00F0F3C3CC3C3 + v * 2 ^ 64
  BitVec.ofNat 256 (b + crc16Bits b 240 * 2 ^ 240)

theorem test_PortsTrainByTheirState_frame :
    let two := { FabricPort.reset with state := .detect, detected := 1#8 }
    let al := { FabricPort.reset with state := .align, lanes := 0xFF, aligned := 0x7F }
    mayTrain (portAt two) 15 = true ∧ frameOk (frame 1).toNat = true ∧ frameOk ((frame 1).toNat + 2 ^ 64) = false ∧
      widthOf (setBit8 FabricPort.reset.detected 7) < 2 ∧ 2 ≤ widthOf (setBit8 two.detected 7) ∧ 4 ≤ bits (frame 4).toNat 67 64 ∧
      al.lanes &&& ~~~(setBit8 al.aligned 7) = 0 ∧ frameOk (frame 4).toNat = true ∧ mayTrain (portAt al) 15 = true := by decide +kernel

theorem test_PortsTrainByTheirState_measure :
    let m := { FabricPort.reset with state := .measure, lanes := 0xFF, attempts := 6 }
    let d := { m with state := .detect, attempts := 7 }
    (portAt m).fabric[(15 : FPort)].state = .measure ∧ (portAt m).live = true ∧ 1200 ≤ rttBudget (portDim 15) ∧
      (lanesOf m.lanes).any (fun l => overSer (portAt m) (fixedOf [] l) measureSymbols) = false ∧ rttBudget (portDim 15) < 1201 ∧ m.attempts < 7 ∧
      7 ≤ d.attempts ∧ (portAt d).router.coordValid = true ∧ (portAt d).fabric[(15 : FPort)].state = .detect ∧
      up.fabric[(15 : FPort)].state = .down ∧ mayTrain up 15 = true := by decide +kernel

theorem test_PortsTrainByTheirState_active :
    let a := { FabricPort.reset with state := .active, lanes := 0xFF, goodOwn := 0xFF, winBad := 15 }
    let bad := { a with winBad := 16 }
    let thin := { a with lanes := 0x03, goodOwn := 0x03 }
    (portAt a).fabric[(15 : FPort)].state = .active ∧ chargedLanes (portAt a) a = 0 ∧ chargedLanes (portAt bad) bad = 1 ∧
      (chooseLanes (bad.goodOwn &&& ~~~1)).isNone = false ∧ (1 : BitVec 8) = 1#8 <<< (0 : Lane).val ∧ bad.lanes.getLsbD 0 = true ∧
      thin.lanes.getLsbD 1 = true ∧ (chooseLanes (thin.goodOwn &&& ~~~(1#8 <<< 1))).isNone = true := by decide +kernel

/-- A packet of one flit to a coordinate, sealed. -/
def onePacket (dst : Coord) : Packet := stamped up (mkPacket 3 3 5 0 dst 0 0 0 [])

/-- Its flits as they stand in a router. -/
def oneRun (dst : Coord) : FlitRun := runOfFlits (packetFlits (onePacket dst)) none

theorem test_CodewordsAndRoutes_codeword :
    let a := { FabricPort.reset with state := .active }
    let full := { a with outQ := List.replicate 10 (oneRun 1) }
    let f := (oneRun 1).flits.headD 0
    (portAt a).fabric[(15 : FPort)].state = .active ∧ a.rx = none ∧ a.resync = false ∧ f ≠ 0 ∧ headerOk f = true ∧
      (runOfFlits [f] (some 15)).whole = true ∧ poolUse { a with rx := some (runOfFlits [f] (some 15)) } ≤ poolFlits (portDim 15) ∧
      ((nextFlits 10 full).map (fun x => x.1.length)) = some 10 ∧ a.tx = none ∧ (pickPacket a).isNone = true := by decide +kernel

/-- A device of a pod of two with a route to its neighbour and the port towards it up. -/
def routed : State :=
  { up with
    router := { up.router with extX := 2, bank0 := { route := [(1, 1)], coordMap := [] }, localQ := [oneRun 1] },
    fabric := (up.fabric.set 0 { FabricPort.reset with state := .active }).set 12 { FabricPort.reset with inBuf := [oneRun 0] } }

theorem test_CodewordsAndRoutes_route :
    routed.router.localQ = [oneRun 1] ∧ routed.fabric[(12 : FPort)].inBuf = [oneRun 0] ∧
      hopOf routed none ((oneRun 1).flits.headD 0) = .out 0 0 ∧ hopOf routed none ((oneRun 0).flits.headD 0) = .deliver ∧
      hopOf routed none ((oneRun 7).flits.headD 0) = .discard 0x30 ∧
      hopOf { routed with router := { routed.router with bank0Valid := false } } none ((oneRun 1).flits.headD 0) = .discard 0x31 := by
  decide +kernel

theorem test_FlowsCarryPackets_inject :
    let s := { routed with router := { routed.router with injectQ := [onePacket 1, onePacket 1, onePacket 7] } }
    s.router.injectQ[(0 : Nat)]? = some (onePacket 1) ∧ mayInject s 0 (onePacket 1) = true ∧ mayInject s 1 (onePacket 1) = false ∧
      unreachable s 1 = false ∧ unreachable s 7 = true ∧ mayInject s 2 (onePacket 7) = true ∧ (sendFlow s 1 3).unacked.length < 4096 ∧
      storeHeld s 3 < storeSize 3 := by decide +kernel

theorem test_FlowsCarryPackets_deliver :
    let k := onePacket 0
    let stomped := { k with stomp := true }
    let far := stamped up { k with seq := 4096 }
    let old := stamped up { k with seq := 0xFFFFFFFF }
    let store := stamped up (mkPacket 1 1 5 0 0 0 0 0 [])
    let ack := stamped up (mkPacket 1 3 7 0 0 0 0 0 [])
    stomped.stomp = true ∧ k.stomp = false ∧ k.crc = packetCrc k ∧ { k with crc := k.crc + 1 }.crc ≠ packetCrc { k with crc := k.crc + 1 } ∧
      ack.isOp 1 3 = true ∧ ack.crc = packetCrc ack ∧ k.isOp 1 3 = false ∧ 2 ^ 31 ≤ (old.seq - (recvFlow up 0 3).ackSeq).toNat ∧
      old.crc = packetCrc old ∧ 4096 ≤ (far.seq - (recvFlow up 0 3).ackSeq).toNat ∧ (far.seq - (recvFlow up 0 3).ackSeq).toNat < 2 ^ 31 ∧
      far.seq ∉ (recvFlow up 0 3).got ∧ partOfStamp up far.stamp = none ∧ store.crc = packetCrc store ∧ store.cls ≠ 3 ∧ listedOp store = true ∧
      (recvFlow up 0 1).sinceAck < 31 ∧ store.seq = (recvFlow up 0 1).ackSeq ∧ (recvFlow up 0 1).got = [] := by decide +kernel

/-- A flow to coordinate 1 with one packet that is not acknowledged. -/
def flowing (n : Nat) : State :=
  { routed with router := { routed.router with
      sends := [{ peer := 1, cls := 0, nextSeq := 1, unacked := [onePacket 1], expiries := n, failed := false }],
      recvs := [{ peer := 1, cls := 0, ackSeq := 3, got := [], sinceAck := 1, ackDue := true }] } }

theorem test_FlowsCarryPackets_acks :
    let k := { mkPacket 1 3 7 1 0 0 0 5 [] with src := 1 }
    takeInbox (atInbox (flowing 0) k) 0 1 3 = some (k, { atInbox (flowing 0) k with inbox := [] }) ∧ k.field 159 128 = 5 ∧ clsN (k.field 161 160) = 0 ∧
      (flowing 0).longs = [] ∧ (∀ e : Engine, (flowing 0).ligature[e].slots = []) ∧ (flowing 0).errors.fatal = false ∧
      (flowing 0).router.coordValid = true ∧ pairHeld (flowing 0) 1 = false ∧ (recvFlow (flowing 0) 1 0).ackDue = true ∧
      (sendFlow (flowing 0) 1 0).unacked = [onePacket 1] ∧ (sendFlow (flowing 0) 1 0).failed = false ∧ unreachable (flowing 0) 1 = false ∧
      (sendFlow (flowing 4) 1 0).expiries < 5 ∧ (sendFlow (flowing 5) 1 0).expiries = 5 ∧
      unreachable { flowing 0 with router := { (flowing 0).router with bank0 := ⟨[], []⟩ } } 1 = true ∧ up.live = true ∧ domainOn up 2 = true := by
  decide +kernel

/-! ### Strokes and operations -/

/-- An operation of grid 0 and stroke 0. -/
def opOf (code : Nat) (inputs outputs : List Nat) : OpEntry :=
  { opcode := code, flags := 0, precision := 0, rounding := 0, spill := 0, grid := 0, attr := 0, inputs := inputs, outputs := outputs, stroke := 0,
    order := 0, rsvdZero := true }

/-- The folio with one operation in its stroke. -/
def folioOp (o : OpEntry) : Folio := { folio0 with tables := { tables0 with ops := [o], strokes := [{ stroke0 with opCount := 1 }] } }

/-- A quadrant of its run in a state, with strokes opened and closed. -/
def strokeAt (f : Folio) (st : SeqState) (opened closed : Nat) : State :=
  { longAt { withJob with folios := [f] } .running (.run run0) (desc [(0, [0x22])]) with
    seqs := State.reset.seqs.set 0 { Sequencer.reset with state := st, owner := some 32, opened := opened, closed := closed } }

/-- The environment of that quadrant. -/
def seqEnv0 (f : Folio) : SeqEnv := { handle := 32, long := long .running (.run run0), run := run0, folio := f }

theorem test_SequencersKeepTheStrokes_open :
    (seqEnv (strokeAt folio0 .opening 0 0) 0).map (fun v => (v.handle, v.long, v.run, v.folio)) = some (32, long .running (.run run0), run0, folio0) ∧
      hasNext (seqEnv0 folio0) 0 = true ∧ ckptDue (strokeAt folio0 .opening 0 0) folio0 = false ∧
      openCause (strokeAt folio0 .opening 0 0) 0 (seqEnv0 folio0) = 0 ∧ folio0.tables.exchsOf 0 = [] ∧ folio0.tables.intervals = [] := by
  decide +kernel

theorem test_SequencersKeepTheStrokes_cause :
    let f := folioOp (opOf 0x0602 [] [])
    let g := folioOp (opOf 0x0501 [0] [0])
    let asleep := { strokeAt g .opening 0 0 with power := { up.power with domains := Vector.replicate 73 { PowerDomain.reset with state := .off } } }
    openCause (strokeAt f .opening 0 0) 0 (seqEnv0 f) = 5 ∧ openCause asleep 0 (seqEnv0 g) = 6 ∧
      (seqEnv asleep 0).isSome = true ∧ (seqEnv (strokeAt f .opening 0 0) 0).isSome = true := by decide +kernel

theorem test_SequencersKeepTheStrokes_close :
    let f := folioOp (opOf 0x0507 [] [])
    (seqEnv (strokeAt folio0 .compute 1 0) 0).isSome = true ∧ phaseDone (strokeAt folio0 .compute 1 0) 0 folio0 = true ∧
      (seqEnv (strokeAt folio0 .closing 1 0) 0).isSome = true ∧ (closeCause (strokeAt folio0 .closing 1 0) 0 (seqEnv0 folio0)).1 = 0 ∧
      (closeCause (strokeAt f .closing 1 0) 0 (seqEnv0 f)).1 = 1 ∧ folio0.tables.exchs = [] ∧ (strokeAt folio0 .closing 1 0).fillers = [] ∧
      bit folio0.tables.flags 1 = false ∧ (quadOps folio0 0 0).all (fun e => e.2.opcode != 0x0701) = true ∧ run0.stopAfter = none := by
  decide +kernel

theorem test_SequencersKeepTheStrokes_fence :
    let f := folioOp (opOf 0x0501 [0] [0])
    nextFence (strokeAt f .compute 1 0) 0 f = some (0, opOf 0x0501 [0] [0]) ∧
      ((opReads f (opOf 0x0501 [0] [0])).flatMap (fun t => if t.entry.inHbm then tensorDomains (strokeAt f .compute 1 0) f t else [])).all
        (domainOn (strokeAt f .compute 1 0)) = true := by decide +kernel

theorem test_SequencersKeepTheStrokes_stall :
    let s := strokeAt folio0 .opening 0 0
    let c := { s with seqs := s.seqs.set 0 { s.seqs[(0 : Quad)] with cause := 3 } }
    (seqEnv c 0).isSome = true ∧ c.seqs[(0 : Quad)].cause ≠ 0 := by decide +kernel

theorem test_StepsAndUnitsComplete_step :
    let o := { long .running (.run run0) with opcode := 0x23 }
    let c := { cmd (desc [(0, [0x22])]) with started := true, handle := 32 }
    let s := { strokeAt folio0 .opening 1 1 with longs := [o] }
    s.memOk ∧ standsFor s o c ∧ folioOf s run0.folio = some folio0 ∧ s.live = true ∧ partStopped s 0 = false ∧ stepDone s folio0 run0 = true := by
  unfold standsFor quietFor State.memOk; decide +kernel

/-- A filler unit of a filler folio under handle 17 in interval 0 of the run's folio. -/
def fillerRun (committing : Bool) : FillerRun :=
  { owner := 32, interval := 0, folio := 17, unit := 0, staging := [(0, zeros 64)], opsDone := [0], committing := committing }

/-- The filler folio. -/
def folioF : Folio :=
  { folioOp (opOf 0x0501 [0] [0]) with
    handle := 17, tables := { (folioOp (opOf 0x0501 [0] [0])).tables with kind := 2, filler := [⟨0, 0, 1, 1, 1, 0, 1, true⟩] }, units := [.running] }

theorem test_StepsAndUnitsComplete_unit :
    let f := { folio0 with tables := { tables0 with intervals := [⟨0, 0, 0, 0, 1, 1, 0, 1, true⟩] } }
    let s := { strokeAt f .compute 1 0 with folios := [f, folioF], fillers := [fillerRun false] }
    let d := { up with folios := [folioF], fillers := [fillerRun true] }
    s.live = true ∧ partStopped s 0 = false ∧ readyUnit s 0 = some (fillerRun false, folioF) ∧ d.live = true ∧ d.fillers = [fillerRun true] ∧
      folioOf d 17 = some folioF ∧ (runOf d 32).isNone = true ∧ d.pairings = [] := by decide +kernel

/-- The state in which an operation of the run can issue. -/
def opAt (o : OpEntry) (fenced : Bool) : State :=
  let s := strokeAt (folioOp o) (if o.opcode = 0x0602 then .opening else .compute) (if o.opcode = 0x0602 then 0 else 1) 0
  { s with seqs := s.seqs.set 0 { s.seqs[(0 : Quad)] with fences := if fenced then [0] else [] } }

/-- Its environment. -/
def envOf (o : OpEntry) : OpEnv := { handle := 32, folio := folioOp o, idx := 0, op := o, quad := 0, unit := none }

/-- An environment is there, and it is that one. -/
def isEnv (x : Option OpEnv) (o : OpEntry) : Bool :=
  match x with
  | some e => e.handle == 32 && e.folio == folioOp o && e.idx == 0 && e.op == o && e.quad == 0 && e.unit.isNone
  | none => false

/-- Every operation that runs in the compute phase can issue there, with its fence set and without. -/
theorem test_OperationsWriteTheirOutputs :
    ∀ code ∈ [0x0101, 0x0102, 0x0110, 0x0111, 0x0201, 0x0202, 0x0203, 0x0204, 0x0205, 0x0206, 0x0207, 0x0501, 0x0502, 0x0503, 0x0504, 0x0505, 0x0404],
      isEnv (runEnv (opAt (opOf code [0] [0]) true) 32 0 code [.compute]) (opOf code [0] [0]) = true ∧
        isEnv (runEnv (opAt (opOf code [0] [0]) false) 32 0 code [.compute]) (opOf code [0] [0]) = true ∧
        needsFence (opAt (opOf code [0] [0]) true) (envOf (opOf code [0] [0])) = false ∧
        needsFence (opAt (opOf 0x0501 [0] [0]) false) (envOf (opOf 0x0501 [0] [0])) = true ∧
        poisonedRead (opAt (opOf code [0] [0]) true) (envOf (opOf code [0] [0])) = none ∧
        longOf (opAt (opOf code [0] [0]) true) 32 = some (long .running (.run run0)) := by decide +kernel

theorem test_OperationsWriteTheirOutputs_wait :
    let o := opOf 0x0602 [] []
    isEnv (waitEnv (opAt o false) 32 0) o = true ∧ fnOf (envOf o).folio o = 0 ∧
      ((envOf o).folio.gridClusters 0).Nodup ∧ (envOf o).folio.gridClusters 0 ≠ [] := by decide +kernel

/-- A routing layer of one expert, one token and one choice. -/
def route0 : RoutingEntry :=
  { id := 0, experts := 1, k := 1, depth := 0, scoreFn := 0, gateNorm := 0, cut := 0xFF, quota := 1, tokens := 1, layer := 0xFFFF, maxLive := 1,
    sourceGrid := 0, expertGrid := 0, logits := 0, bias := noneIdx, tokensIn := 0, slotIn := 0, slotOut := 0, answers := 0, dout := 0, slotDout := 0,
    slotDin := 0, returns := 0, rsvdZero := true }

/-- A bucket of 16 elements with tag 5. -/
def bucket0 : BucketEntry :=
  { tag := 5, elements := 16, mode := 0, compression := 0, hBf16 := 0, divisor := 0, digits := [], flags := 0, deadlineUs := 100, minPresent := 1,
    layer := 0xFFFF, rank := 0, keep := 0, routing := noneIdx, localExpert := 0, rows := 0, ef := noneIdx, rsvdZero := true }

/-- A paired exchange. -/
def paired0 : ExchEntry :=
  { kind := 5, cut := 0xFF, flags := 0, src := 0, dst := 0, dstGrid := 0, peer := 9, ref := noneIdx, srcOff := 0, dstOff := 0, elements := 16,
    expected := 0, close := 0, rsvdZero := true }

/-- A program of one record for thread 1. -/
def program0 (r : RoamRecord) : RoamProgram := { inst := 0, count := 1, mask := 2, tokens := 64, zero := true, records := [r] }

/-- A folio with the operation, the ROUTE of its batch, its bucket, its stream and its program. -/
def folioE (code : Nat) (r : RoamRecord) : Folio :=
  { folio0 with tables := { tables0 with
      ops := [{ opOf code [0, 0, 0] [0, 0] with attr := 0 }, { opOf 0x0301 [0] [0] with attr := 0 }],
      attrs := [(9, 0, 0), (8, 0, 5), (0xC, 0, 0), (0, 0, 0)], strokes := [{ stroke0 with opCount := 2, exchCount := 1 }], exchs := [paired0],
      routing := [route0], buckets := [bucket0], roaming := [program0 r] } }

/-- The END record. -/
def record0 : RoamRecord := ⟨8, 0, 0, 0, 0⟩

/-- A live generation of the batch. -/
def gen0 : Generation :=
  { gen := 0, state := .listing, folio := 16, routing := 0, op := 1, order := 0, stamp := 0x00010001, ledger := [], sendList := [], backRows := [],
    gateGradDone := false, combine2Done := false, drains := [] }

/-- The stream of the folio with itself. -/
def stream0 (published : Nat) : PairStream :=
  { id := 9, sender := 16, sendExch := 0, receiver := 16, recvExch := 0, slots := [(0, zeros 64)], published := published, consumed := 0 }

/-- The state in which the operation can issue. -/
def engineAt (code published : Nat) : State :=
  let s := strokeAt (folioE code record0) .compute 1 0
  { s with
    seqs := s.seqs.set 0 { s.seqs[(0 : Quad)] with fences := [0] },
    ductus := s.ductus.set 0 { Ductus.reset with gens := [gen0] },
    pairings := [{ a := 16, b := 16, fill := false, streams := [stream0 published] }] }

/-- Its environment. -/
def envE (code : Nat) : OpEnv :=
  { handle := 32, folio := folioE code record0, idx := 0, op := { opOf code [0, 0, 0] [0, 0] with attr := 0 }, quad := 0, unit := none }

/-- An environment is there, and it is that one. -/
def isEnvE (x : Option OpEnv) (code : Nat) : Bool :=
  match x with
  | some e => e.handle == 32 && e.folio == folioE code record0 && e.idx == 0 && e.op == { opOf code [0, 0, 0] [0, 0] with attr := 0 } && e.quad == 0 && e.unit.isNone
  | none => false

theorem test_EnginesAndPairsAct_can :
    ∀ code ∈ [0x0301, 0x0302, 0x0303, 0x0304, 0x0401, 0x0402, 0x0403, 0x0506, 0x0507, 0x0601, 0x0701],
      isEnvE (runEnv (engineAt code 1) 32 0 code [.compute]) code = true ∧ isEnvE (runEnv (engineAt code 1) 32 0 code [.compute, .closing]) code = true ∧
        needsFence (engineAt code 1) (envE code) = false ∧ poisonedRead (engineAt code 1) (envE code) = none := by decide +kernel

theorem test_EnginesAndPairsAct_operands :
    ∀ code ∈ [0x0301, 0x0302, 0x0303, 0x0304],
      (envE code).folio.tables.routing[(envE code).folio.tables.routingOf (envE code).op]? = some route0 ∧
        batchOp (engineAt code 1) (envE code) = some (route0, gen0) ∧ (opIn (envE code).folio (envE code).op 0).isSome = true ∧
        (opIn (envE code).folio (envE code).op 2).isSome = true ∧ (opOutT (envE code).folio (envE code).op 0).isSome = true ∧
        ((envE code).folio.tensor route0.slotDout).isSome = true := by decide +kernel

theorem test_EnginesAndPairsAct_pairs :
    runOf (engineAt 0x0401 1) 32 = some (long .running (.run run0), run0) ∧ opBucket (folioE 0x0402 record0) (envE 0x0402).op = some bucket0 ∧
      pairedExch (folioE 0x0506 record0).tables (envE 0x0506).op true = some 0 ∧ pairedExch (folioE 0x0507 record0).tables (envE 0x0507).op false = some 0 ∧
      (streamOf (engineAt 0x0506 1) 16 0 true).map (fun x => x.2) = some (stream0 1) ∧
      (streamOf (engineAt 0x0506 2) 16 0 true).map (fun x => x.2) = some (stream0 2) ∧ (stream0 2).consumed + 2 ≤ (stream0 2).published ∧
      (stream0 1).published < (stream0 1).consumed + 2 ∧ (streamOf (engineAt 0x0507 1) 16 0 false).map (fun x => x.2) = some (stream0 1) ∧
      (stream0 1).slots.find? (fun z => z.1 == (stream0 1).consumed % 2) = some (0, zeros 64) ∧ (stream0 1).consumed < (stream0 1).published ∧
      (folioE 0x0507 record0).tables.exchs[(0 : Nat)]? = some paired0 := by decide +kernel

theorem test_EnginesAndPairsAct_roam :
    (folioE 0x0601 record0).tables.programOf (envE 0x0601).op = some (program0 record0) ∧
      (bandsOf ((folioE 0x0601 record0).gridClusters 0)).all (domainOn (engineAt 0x0601 1)) = true ∧ (engineAt 0x0601 1).threads = [] ∧
      ((gridStarts (folioE 0x0601 record0) 0 2).map (fun x => (x.1, x.2.1))).Nodup ∧ (gridStarts (folioE 0x0601 record0) 0 2).length = 16 ∧
      fnOf (folioE 0x0701 record0) (envE 0x0701).op % 4 = 0 := by decide +kernel

/-! ### Roaming threads and memory -/

/-- A thread 1 of core 0 that runs the program. -/
def thread0 (st : ThreadState) : Thread := { startedThread 0 1 { part := 0, folio := 16, program := 0, pos := 0, rank := 0 } with state := st }

/-- The folio with a program of one record and its tensor in a placement, for a box of n devices. -/
def folioT (r : RoamRecord) (placement n : Nat) : Folio :=
  { folio0 with box := (n, 1, 1), tables := { tables0 with tensors := [{ tensor0 with placement := placement }], roaming := [program0 r] } }

/-- The state in which its thread is next to issue. -/
def roamAt (r : RoamRecord) (placement n : Nat) : State :=
  { withJob with folios := [folioT r placement n], threads := [thread0 .ready],
                 router := { up.router with bank0 := { route := [], coordMap := [(1, 0x8001)] } } }

theorem test_RoamingThreadsIssue_own :
    ∀ op ∈ [4, 5, 6, 7, 8], (issueEnv (roamAt ⟨op, 0, 3, 0, 0⟩ 0 1) 0 1 op).isSome = true ∧
      tallyGet (roamAt ⟨7, 0, 3, 0, 0⟩ 0 1).tokens (0 / 16, 3) < 2 ^ 32 - 1 ∧ (thread0 .ready).deferred = none := by decide +kernel

/-- A thread with a start that waits for its end. -/
theorem test_RoamingThreadsIssue_deferred :
    let st : RoamStart := { part := 0, folio := 16, program := 0, pos := 0, rank := 0 }
    let s := { roamAt record0 0 1 with threads := [{ thread0 .ready with deferred := some st }] }
    (issueEnv s 0 1 8).map (fun e => e.thread.deferred) = some (some st) := by decide +kernel

/-- What a record wants, comparable. -/
def wantIs (w : Option Want) : Option (Nat × Nat × Nat × Nat × Nat) :=
  w.map (fun x => match x with | .own a => (0, a, 0, 0, 0) | .out r f p t => (1, r, f, p, t) | .bad => (2, 0, 0, 0, 0))

/-- An access record with its offset in register 0, which holds the thread number. -/
def accessRec (op rank : Nat) : RoamRecord := ⟨op, 0, 4, 0, rank * 256⟩

theorem test_RoamingThreadsIssue_access :
    (∀ op ∈ [1, 2], wantIs ((issueEnv (roamAt (accessRec op 0x1F) 3 1) 0 1 op).map (fun e => (want 0 e 1 false).1)) = some (0, 4097, 0, 0, 0)) ∧
    (∀ op ∈ [1, 2, 3], wantIs ((issueEnv (roamAt (accessRec op 0x1F) 0 1) 0 1 op).map (fun e => (want 0 e 1 (op == 3)).1)) = some (1, 0, 0, 1, 0)) ∧
    (∀ op ∈ [1, 2, 3], wantIs ((issueEnv (roamAt (accessRec op 0) 0 2) 0 1 op).map (fun e => (want 0 e 1 (op == 3)).1)) = some (1, 1, 0, 1, 0)) := by
  decide +kernel

theorem test_RoamingThreadsIssue_target :
    (roamAt (accessRec 1 0) 3 1).mem.poisoned (4097 / 64 * 64) 64 = false ∧ (folioT (accessRec 1 0) 0 1).rank = 0 ∧
      bit (coordMapEntry (roamAt (accessRec 1 0) 0 2).router 0 1) 15 = true ∧ freeTracker (roamAt (accessRec 1 0) 0 1) 0 = some 0 := by
  decide +kernel

/-- An access to the device's own memory. -/
def access0 : Access :=
  { kind := .load, size := 1, signed := false, reg := 4, returns := false, rank := 0, target := 0, named := 0, req := mkPacket 0 1 5 0 0 0x00010001 0 0 [] }

/-- Its tracker. -/
def tracker0 (i : Nat) : Tracker := { cluster := 0, idx := i, core := 0, t := 1, stamp := 0x00010001, access := access0 }

theorem test_RoamingThreadsIssue_full :
    canLeave { roamAt record0 0 1 with trackers := (List.range 16).map tracker0 } 0x00010001 0 access0 = false ∧
      canLeave (roamAt record0 0 1) 0x00010001 0 access0 = true := by decide +kernel

theorem test_TrackersServeTheirThreads_grant :
    let x := { thread0 .trackerWait with wants := some access0 }
    let s := { roamAt record0 0 1 with threads := [x] }
    s.live = true ∧ nextGrant s 0 = some (x, { part := 0, folio := 16, program := 0, pos := 0, rank := 0 }, access0) ∧ threadOf s 0 1 = some x ∧
      freeTracker s 0 = some 0 ∧ folioOf s 16 = some (folioT record0 0 1) ∧ access0.rank = (folioT record0 0 1).rank ∧ carriesId s access0 = false := by
  decide +kernel

theorem test_TrackersServeTheirThreads_reply :
    let s := { roamAt record0 0 1 with threads := [thread0 .parked], trackers := [tracker0 15] }
    let k := mkPacket 1 1 5 0 0 0x00010001 0 0 (zeros 8)
    takes s 1 1 k ∧ k.dstUnit.toNat ≠ 4 ∧ s.trackers.find? (fun y => y.cluster == 0 && y.idx == (15 : Fin 16).val) = some (tracker0 15) ∧
      answers s (tracker0 15) k = true ∧ answers s (tracker0 15) { k with stamp := 0x00010002 } = false ∧
      domainOn s (bandDomain (bandOfCluster 0)) = true ∧ k.field 130 128 = 0 ∧ threadOf s 0 1 = some (thread0 .parked) ∧
      (thread0 .parked).state = .parked ∧ (thread0 .parked).cancelling = false := by
  unfold takes; decide +kernel

/-- A device whose partition 0 holds HBM region 0 under its job's stamp. -/
def target0 : State := { loadedC folio0 with parts := up.parts.set 0 { part0 with job := some job, carveStamp := 0x00010001 } }

/-- A memory request of 8 bytes at 4 KiB. -/
def memPacket (op : Nat) (stamp : Stamp) (addr : Nat) : Packet := mkPacket 0 op 5 1 0 stamp 3 (bodyM 1 addr 0 3 0) (zeros 16)

theorem test_MemoryTargetsServe_request :
    ∀ op ∈ [1, 2, 3], takes target0 0 op (memPacket op 0x00010001 4096) ∧
      reach target0 (memPacket op 0x00010001 4096) = .ok 4096 (.hbm (stackAt target0 4096)) ∧ hasRoom target0 (.hbm (stackAt target0 4096)) = true ∧
      reach target0 (memPacket op 0x00010001 4092) = .bad ∧ reach target0 (memPacket op 0 4096) = .stale 0 (unitHbm 0) := by
  unfold takes; decide +kernel

/-- A line of the queue of address 4096 with a load, a store or an atomic of a packet. -/
def line0 (kind : ReqKind) (op : Nat) : LineEntry := { requestEntry kind 4096 (memPacket op 0x00010001 4096) with bytes := [(63, 1#8)] }

/-- The queue holds n of them. -/
def queued0 (kind : ReqKind) (op n : Nat) : State :=
  { target0 with lineQueues := [{ target := .hbm (stackAt target0 4096), entries := List.replicate n (line0 kind op) }] }

theorem test_MemoryTargetsServe_queue :
    let seen := { target0 with ledger := [{ src := 1, stamp := 0x00010001, atomics := [(3, 9)], stores := [3] }] }
    hasRoom (queued0 .load 1 511) (.hbm (stackAt target0 4096)) = true ∧ hasRoom (queued0 .load 1 512) (.hbm (stackAt target0 4096)) = false ∧
      storeReplayed target0 (memPacket 2 0x00010001 4096) = false ∧ storeReplayed seen (memPacket 2 0x00010001 4096) = true ∧
      atomicReplayed target0 (memPacket 3 0x00010001 4096) = none ∧ atomicReplayed seen (memPacket 3 0x00010001 4096) = some 9 ∧
      (mergeRev (4096 / 64) (lineBytes 4096 (zeros 8)) (queueOf target0 (.hbm (stackAt target0 4096))).reverse).isNone = true ∧
      remote target0 (memPacket 2 0x00010001 4096) = true := by decide +kernel

theorem test_MemoryTargetsServe_serve :
    (∀ kind ∈ [ReqKind.load, .store, .atomic], queueOf (queued0 kind 3 2) (.hbm (stackAt target0 4096)) = [line0 kind 3, line0 kind 3]) ∧
      (queued0 .load 1 1).live = true ∧ domainOn (queued0 .load 1 1) (targetDomain (.hbm (stackAt target0 4096))) = true ∧
      inCoreWindow ((line0 .load 1).line * 64) = false ∧ inCoreWindow ((line0 .load 1).line * 64 + (line0 .load 1).off) = false ∧
      target0.mem.wf = true ∧ (∀ x ∈ (line0 .store 2).bytes, x.1 < 64) ∧ ((line0 .store 2).bytes.map (fun y => y.1)).Nodup ∧
      (line0 .load 1).bar4 = none ∧ target0.mem.poisoned 4096 64 = false ∧ (line0 .atomic 3).req.atomicOp < 8 := by decide +kernel

/-- A receive of data with tag n, at its own place. -/
def tensorN (n : Nat) : TensorEntry := { tensor0 with tag := n }

/-- An exchange of a kind between two tensors. -/
def exch0 (kind ref src dst : Nat) : ExchEntry := { paired0 with kind := kind, ref := ref, src := src, dst := dst, peer := 0, expected := 1 }

/-- A routing layer with a tensor for each of its uses. -/
def route8 : RoutingEntry := { route0 with tokensIn := 0, slotIn := 1, slotOut := 2, answers := 3, dout := 4, slotDout := 5, slotDin := 6, returns := 7 }

/-- A folio with a POINT exchange, the four directions of its routing layer and the gather of bucket 5. -/
def folioX : Folio :=
  { folio0 with
    tensorAt := (List.range 8).map (fun i => 4096 + 64 * i)
    tables := { tables0 with
      tensors := (List.range 8).map tensorN, ops := [{ opOf 0x0301 [0] [0] with attr := 0 }], attrs := [(9, 0, 0), (0, 0, 0)],
      strokes := [{ stroke0 with opCount := 1, exchCount := 6 }],
      exchs := [exch0 0 noneIdx 0 1, exch0 1 0 0 1, exch0 2 0 2 3, exch0 1 0 4 5, exch0 2 0 6 7, exch0 4 5 0 1], routing := [route8],
      buckets := [bucket0] } }

/-- One of its exchanges in the present step. -/
def exchRun0 (x : Nat) : ExchRun :=
  { run := 32, exch := x, step := 0, rxOpen := true, txOpen := true, marks := [], served := [], drained := false, count := 0, units := [],
    packets := [], ends := [], gathers := [(0, 1, 1)] }

/-- Its run, with the exchanges open or not. -/
def runX (opened : Bool) : Run := { run0 with exchs := (List.range 6).map (fun x => { exchRun0 x with rxOpen := opened, txOpen := opened }) }

/-- The state in which the run computes with its job's stamp. -/
def exchAt (opened : Bool) : State :=
  { strokeAt folioX .compute 1 0 with
    longs := [long .running (.run (runX opened))], parts := up.parts.set 0 { part0 with job := some job, carveStamp := 0x00010001 } }

/-- A packet of the job from the device itself. -/
def jobPacket (cls op aux body : Nat) (b : Bytes) : Packet := mkPacket cls op 0 0 0 0x00010001 aux body b

theorem test_ExchangePacketsAreTaken_run :
    runOf (exchAt true) 32 = some (long .running (.run (runX true)), runX true) ∧ folioX.tables.exchs[(0 : Nat)]? = some (exch0 0 noneIdx 0 1) ∧
      (jobPacket 0 4 0 (bodyE 0 0 0) []).step = folioX.step16 ∧ reshardOf (exchAt true) 0x00010001 = none ∧
      folioOf (exchAt true) 16 = some folioX ∧ ((runX true).exchRun 32 0 0).rxOpen = true ∧ ((runX false).exchRun 32 0 0).rxOpen = false ∧
      ((runX true).exchRun 32 0 0).count < exchExpected folioX (exch0 0 noneIdx 0 1) ∧
      exchExpected folioX (exch0 0 noneIdx 0 1) ≤ 1 ∧ ((runX false).exchRun 32 0 0).txOpen = false := by decide +kernel

theorem test_ExchangePacketsAreTaken_data :
    let k := jobPacket 0 4 0 (bodyE 0 0 0) (zeros 64)
    takes (exchAt true) 0 4 k ∧ runAt (exchAt true) k = some (long .running (.run (runX true)), runX true, folioX) ∧
      (tensorIdxDomains (exchAt true) folioX 1).all (domainOn (exchAt true)) = true ∧
      (arrived (exchAt true).mem folioX (exch0 0 noneIdx 0 1) 0 0 (zeros 64)).isSome = true := by unfold takes; decide +kernel

theorem test_ExchangePacketsAreTaken_end :
    ∀ x ∈ [1, 2, 3, 4], let k := jobPacket 0 6 0 (bodyE x 0 0) (zeros 12)
      let s := { exchAt true with ductus := State.reset.ductus.set 0 { Ductus.reset with gens := [gen0] } }
      takes s 0 6 k ∧ runAt s k = some (long .running (.run (runX true)), runX true, folioX) ∧ k.exch = x ∧ senderRank s 0 folioX.rank k = some 0 ∧
        (folioX.tables.exchs[x]?).map (fun e => endIsStale s folioX route8 (e.dir route8) (u8 k.payload 11)) = some false ∧
        ((runX true).exchRun 32 x 0).rxOpen = true ∧ (((runX true).exchRun 32 x 0).ends.any (fun z => z.1 == 0)) = false ∧
        (folioX.tables.exchs[x]?).map (fun e => e.dir route8) = some ([9, 0, 1, 2, 3].getD x 9) := by
  unfold takes; decide +kernel

theorem test_ExchangePacketsAreTaken_marker :
    let k := jobPacket 1 2 0 (bodyE 0 0 0) []
    takes (exchAt true) 1 2 k ∧ takes (exchAt false) 1 2 k ∧
      tableRun (exchAt true) 0x00010001 = some (long .running (.run (runX true)), runX true, folioX) ∧
      senderRank (exchAt true) 0 folioX.rank k = some 0 ∧ ((runX true).exchRun 32 0 0).marks.contains 0 = false ∧
      partStopped (exchAt true) 0 = false ∧ exchReceivers folioX (exch0 0 noneIdx 0 1) = [0] ∧ ((runX true).exchRun 32 0 0).served = [] ∧
      folioX.rank = 0 ∧ (servePackets (exchAt true) folioX 0x00010001 0 (exch0 0 noneIdx 0 1) 0).isSome = true ∧
      (tensorIdxDomains (exchAt true) folioX 0).all (domainOn (exchAt true)) = true := by unfold takes; decide +kernel

/-- A message of bucket 5. -/
def gatherBody (msg : Nat) : Nat := bodyC { msg := msg, tag := 5, phase := 0, step := 0, shard := 0, lo := 0, hi := 0, seg := 0, form := 0 }

theorem test_GathersAreServed_request :
    let k := jobPacket 0 8 0 (gatherBody 7) (le 4 1)
    let s := { exchAt true with gatherQ := [k] }
    takes (exchAt true) 0 8 k ∧ (exchAt true).gatherQ.length < 16384 ∧ partOfStamp (exchAt true) k.stamp = some 0 ∧
      (exchAt true).folios.any (fun f => f.part == 0) = true ∧ gatherFolio (exchAt true) k.stamp k.coll.tag = some folioX ∧
      gatherFolio (exchAt true) k.stamp 6 = none ∧ partOfStamp (exchAt true) 0x00020001 = none ∧
      s.gatherQ[(0 : Nat)]? = some k ∧ (gatherSource folioX 5).isSome = true ∧ s.live = true ∧ partStopped s 0 = false ∧ mayServe folioX k = true ∧
      (tensorIdxDomains s folioX 0).all (domainOn s) = true ∧ s.mem.poison = [] ∧ folioOf s 16 = some folioX ∧ k.src = s.router.myCoord := by
  unfold takes; decide +kernel

theorem test_GathersAreServed_full : 16384 ≤ { up with gatherQ := List.replicate 16384 (jobPacket 0 8 0 0 []) }.gatherQ.length := by
  show 16384 ≤ (List.replicate 16384 (jobPacket 0 8 0 0 [])).length
  rw [List.length_replicate]

/-- A request for a step whose UPDATE has not been applied waits. -/
theorem test_GathersAreServed_waits :
    mayServe folioX (jobPacket 0 8 0 (bodyC { msg := 7, tag := 5, phase := 0, step := 1, shard := 0, lo := 0, hi := 0, seg := 0, form := 0 }) []) =
      false := by decide +kernel

theorem test_GathersAreServed_data :
    let k := jobPacket 1 5 0 (gatherBody 8) (zeros 64)
    let late := { k with body := BitVec.ofNat 128 (bodyC { msg := 8, tag := 5, phase := 0, step := 7, shard := 0, lo := 0, hi := 0, seg := 3, form := 0 }) }
    takes (exchAt true) 1 5 k ∧ runOfStamp (exchAt true) k.stamp = some (long .running (.run (runX true)), runX true, folioX) ∧
      (folioX.tables.bucket? k.coll.tag).isSome = true ∧ k.coll.step = folioX.step16 ∧
      gatherTarget folioX 32 (runX true) k = some (5, exch0 4 5 0 1) ∧ (folioX.tensor 0).isSome = true ∧ (folioX.tensor 1).isSome = true ∧
      (tensorIdxDomains (exchAt true) folioX 1).all (domainOn (exchAt true)) = true ∧
      ((runX true).exchRun 32 5 0).count < exchExpected folioX (exch0 4 5 0 1) ∧ folioX.tables.bucket? 5 = some bucket0 ∧
      contributorRank folioX bucket0 0 = folioX.rank ∧ takes (exchAt true) 1 5 late ∧ late.coll.step ≠ folioX.step16 ∧
      gatherTarget folioX 32 (runX true) late = none := by unfold takes; decide +kernel

/-- The body of a row: its tag (R208). -/
def rowBody (dir rsvd : Nat) : Nat := dir * 2 ^ 102 + rsvd

/-- A table for the forward rows of the batch, and one whose slot 0 is occupied. -/
def table0 (dir : Nat) : RecvTable :=
  { folio := 16, routing := 0, stamp := 0x00010001, batch := 0, exch := 1, bound := if dir = 0 then [] else [(0, 0, 0, 0)],
    occupied := if dir = 0 then [] else [(0, 0)], parts := [], final := dir != 0 }

/-- The state with a live generation whose ledger places its row, and the table. -/
def rowAt (dir : Nat) : State :=
  { exchAt true with
    ductus := State.reset.ductus.set 0 { Ductus.reset with
      gens := [{ gen0 with op := 0, ledger := [⟨0, 0, 0, false, 0, false, 0, 0⟩] }], tables := [table0 dir] } }

theorem test_RowsAndDrainsAreTaken_row :
    ∀ dir ∈ [0, 1, 2, 3], let k := jobPacket 0 5 0 (rowBody dir 0) (zeros 64)
      takes (rowAt dir) 0 5 k ∧ runAt (rowAt dir) k = some (long .running (.run (runX true)), runX true, folioX) ∧
        runOf (rowAt dir) 32 = some (long .running (.run (runX true)), runX true) ∧ folioX.tables.routing[(tagOf k.body).routing]? = some route8 ∧
        (rowDomains (rowAt dir) k).all (domainOn (rowAt dir)) = true ∧ (tagOf k.body).rsvd = 0 ∧ (tagOf k.body).dir = dir ∧
        (tagOf (BitVec.ofNat 128 (rowBody dir 1))).rsvd ≠ 0 ∧ (folioX.tensor ([1, 3, 5, 7].getD dir 0)).isSome = true ∧
        folioX.tables.batchExch 0 0 dir = some (dir + 1) ∧ ((runX true).exchRun 32 (dir + 1) 0).rxOpen = true := by
  unfold takes; decide +kernel

theorem test_RowsAndDrainsAreTaken_checks :
    let t := fun (dir : Nat) => tagOf (jobPacket 0 5 0 (rowBody dir 0) (zeros 64)).body
    ((folioX.tensor 3).map (fun x => partOk (jobPacket 0 5 0 (rowBody 1 0) (zeros 64)) (rowLen x))) = some true ∧
      ledgerOk { gen0 with op := 0, ledger := [⟨0, 0, 0, false, 0, false, 0, 0⟩] } route8 (t 1) = true ∧
      (Ductus.reset.gens.find? (fun g => g.gen.toNat == (t 1).gen && g.state.isLive)) = none ∧
      selectTable (rowAt 0).ductus[(0 : Quad)] 16 (t 0) 0 = some (table0 0) ∧ rowOk folioX route8 (table0 0) (t 0) = true ∧
      selectTable (rowAt 2).ductus[(0 : Quad)] 16 (t 2) 0 = some (table0 2) ∧ rowOk folioX route8 (table0 2) (t 2) = true := by decide +kernel

theorem test_RowsAndDrainsAreTaken_drain :
    let k := jobPacket 0 7 0 0 []
    let a := jobPacket 1 4 0 0 []
    let s := { rowAt 0 with ductus := State.reset.ductus.set 0 { Ductus.reset with drains := [{ packet := k }] } }
    let dead := { gen0 with state := .dead, drains := [(0, 0), (1, 0)] }
    let d := { rowAt 0 with ductus := State.reset.ductus.set 0 { Ductus.reset with gens := [dead] } }
    takes (rowAt 0) 0 7 k ∧ heldDrain s 0 = some (0, 0, k) ∧ s.live = true ∧ tableCarries s k = false ∧ returnsAcked s k.src k.gen k.srcQuad = true ∧
      tableCarries (rowAt 2) k = true ∧ takes d 1 4 a ∧
      d.ductus[(0 : Quad)].gens.find? (fun g => g.gen.toNat == a.gen && g.state == .dead && g.stamp == a.stamp) = some dead ∧
      ackRank d 16 a = some 0 ∧ dead.drains.all (fun d => d.1 == 0) = false ∧ ({ dead with drains := [(0, 0)] }).drains.all (fun d => d.1 == 0) = true ∧
      (rowAt 0).ductus[(0 : Quad)].gens.find? (fun g => g.gen.toNat == a.gen && g.state == .dead && g.stamp == a.stamp) = none := by
  unfold takes; decide +kernel

/-- A folio with one lenient bucket over n devices along Z. -/
def folioL (n : Nat) : Folio :=
  { folio0 with
    box := (1, 1, n)
    tables := { tables0 with
      boxZ := n, cuts := [⟨3, 2, 2, 1⟩], buckets := [{ bucket0 with elements := 256, digits := if n = 1 then [] else [0], flags := 1 }],
      exchs := [{ exch0 3 5 0 0 with elements := 256 }], strokes := [{ stroke0 with exchCount := 1 }] } }

/-- An instance of the bucket. -/
def inst0 (n : Nat) : Instance := newInstance (folioL n) 0x00010001 0 5 0 0

/-- The state in which the run computes, with instances in slots of engine 0. -/
def ligAt (n : Nat) (l : List Instance) : State :=
  { strokeAt (folioL n) .compute 1 0 with
    parts := up.parts.set 0 { part0 with job := some job, carveStamp := 0x00010001 },
    ligature := State.reset.ligature.set 0 { Ligature.reset with slots := l } }

/-- A collective message of the bucket. -/
def collPacket (msg tag step lo hi : Nat) (b : Bytes) : Packet :=
  jobPacket 2 1 0 (bodyC { msg := msg, tag := tag, phase := 0, step := step, shard := 0, lo := lo, hi := hi, seg := 0, form := 0 }) b

/-- Which fate a message has, and the instance it finds. -/
def fateIs (x : CollFate) : Nat × Option Instance :=
  match x with
  | .slot i => (0, some i)
  | .early => (1, none)
  | .late => (2, none)
  | .stale => (3, none)
  | .undeclared => (4, none)

theorem test_LigatureInstancesServe_fate :
    let past := { ligAt 2 [inst0 2] with ligature := State.reset.ligature.set 0 { Ligature.reset with slots := [inst0 2], nextOpen := [(32, 0, 1)] } }
    (∀ msg ∈ [0, 1, 2, 3, 4], takes (ligAt 2 [inst0 2]) 2 1 (collPacket msg 5 0 0 0 [])) ∧
      fateIs (collFate (ligAt 2 [inst0 2]) (collPacket 2 5 0 0 0 []) true) = (0, some (inst0 2)) ∧
      fateIs (collFate (ligAt 2 []) (collPacket 2 5 0 0 0 []) true) = (1, none) ∧
      fateIs (collFate past (collPacket 2 5 0xFFFF 0 0 []) true) = (2, none) ∧
      fateIs (collFate (ligAt 2 []) { collPacket 2 5 0 0 0 [] with stamp := 9 } true) = (3, none) ∧
      fateIs (collFate (ligAt 2 []) (collPacket 2 6 0 0 0 []) true) = (4, none) := by
  unfold takes; decide +kernel

theorem test_LigatureInstancesServe_control :
    let v := instEnv (ligAt 2 [inst0 2]) 0 (inst0 2)
    let w := instEnv (ligAt 1 [inst0 1]) 0 (inst0 1)
    v.map (fun v => (v.peers, v.me, v.lenient, v.bucket.minPresent)) = some (2, 0, true, 1) ∧
      w.map (fun v => (v.peers, v.me, v.lenient)) = some (1, 0, true) ∧ isTreeNode 2 1 1 = true ∧ (collPacket 2 5 0 1 1 (le 4 1)).coll.shard < 2 ∧
      (inst0 2).bitmap = none ∧ partStopped (ligAt 2 [inst0 2]) 0 = false ∧ (inst0 2).deadlinePast = false ∧ ([0] : List Nat).length ≠ 2 ∧
      ([0] : List Nat).length = 1 ∧ v.map (fun v => collPeer (ligAt 2 [inst0 2]) v (collPacket 3 5 0 0 0 [])) = some 0 := by decide +kernel

theorem test_LigatureInstancesServe_value :
    let v := instEnv (ligAt 2 [inst0 2]) 0 (inst0 2)
    let g := { inst0 2 with granted := [⟨1, 0, 1, 1, 1⟩] }
    v.map (fun v => valueOk v (collPacket 0 5 0 1 1 (zeros 512))) = some true ∧ v.map (fun v => valueOk v (collPacket 1 5 0 1 1 [])) = some true ∧
      v.map (fun v => streamSender v 0 1 1) = some 1 ∧ creditOf (inst0 2).granted 1 0 1 1 = 0 ∧ creditOf g.granted 1 0 1 1 = 0 + 1 ∧
      v.map (fun v => ((inst0 2).skipped v).getD []) = some [] ∧ v.map (fun v => (({ inst0 2 with bitmap := some [1] }).skipped v).getD []) = some [1] := by
  decide +kernel

theorem test_LigatureInstancesServe_arbiter :
    let j := { inst0 2 with deadlineOn := true }
    let s := ligAt 2 [j]
    s.ligature[(0 : Engine)].slots.find? (fun i => i.state != .dead && i.tag == 5 && i.phase == false && i.deadlineOn && !i.deadlinePast) = some j ∧
      (instEnv s 0 j).isSome = true ∧ s.live = true ∧ j.bitmap = none ∧ partStopped s 0 = false ∧ j.ready.length ≠ 2 ∧
      j.ready.length < bucket0.minPresent := by decide +kernel

theorem test_LigatureInstancesServe_open :
    let s := ligAt 1 []
    let v := bucketEnv (long .running (.run run0)) (folioL 1) 0 5 0
    s.live = true ∧ liveRuns s = [(long .running (.run run0), run0, folioL 1)] ∧ partStopped s 0 = false ∧ run0.cancelStop = false ∧
      (nextInstance s (long .running (.run run0)) run0 (folioL 1) 0).isSome = true ∧ v.map (fun v => roomFor s 0 v) = some true ∧
      v.map (fun v => roomFor (ligAt 1 (List.replicate 32 (inst0 1))) 0 v) = some false ∧ v.map (fun v => v.streams.length) = some 0 ∧
      s.ligature[(0 : Engine)].early = [] ∧ (run0.exchRun 32 0 0).txOpen = false := by decide +kernel

theorem test_LigatureInstancesServe_drain :
    let k := collPacket 5 5 0 0 0 []
    let a := collPacket 6 5 0 0 0 []
    let s := { ligAt 2 [] with ligature := State.reset.ligature.set 0 { Ligature.reset with drains := [k], nextOpen := [(32, 0, 1)] } }
    let dead := { inst0 2 with state := .dead, drains := [0, 1] }
    takes (ligAt 2 []) 2 1 k ∧ k.coll.msg = 5 ∧ heldColl s 0 = some (0, 0, k) ∧ s.live = true ∧ pastInstance s 0 k = true ∧ valuesAcked s k = true ∧
      pastInstance (ligAt 2 [inst0 2]) 0 k = false ∧ takes (ligAt 2 [dead]) 2 1 a ∧ a.coll.msg = 6 ∧
      (ligAt 2 [dead]).ligature[(0 : Engine)].slots.find? (fun j => j.state == .dead &&
        ofInstance j { a with body := BitVec.ofNat 128 (bodyC { a.coll with msg := 0 }) }) = some dead ∧
      folioOf (ligAt 2 [dead]) 16 = some (folioL 2) ∧ ((folioL 2).tables.bucket? 5).isSome = true ∧
      senderRank (ligAt 2 [dead]) 0 (folioL 2).rank a = some 0 ∧
      dead.drains.filter (fun d => d != (folioL 2).tables.contributor { bucket0 with digits := [0] } (coordOfRank (1, 1, 2) 0)) = [1] := by
  unfold takes; decide +kernel

/-! ### Power and errors -/

/-- A domain in a condition. -/
def domainAt (d : Domain) (x : PowerDomain) : State := { up with power := { up.power with domains := up.power.domains.set d x } }

theorem test_DomainsEnterAndWake_wake :
    let w := { PowerDomain.reset with state := .waking, trickle := true }
    let four := { up with power := { up.power with domains := (((up.power.domains.set 33 w).set 34 w).set 35 w).set 36 w } }
    let q := { PowerDomain.reset with state := .retention, trickle := true, wakeQueued := true }
    4 ≤ trickleWakes four 0 ∧ trickleWakes (domainAt 42 q) 0 < 4 ∧
      allDomains.find? (fun d => domainQuad d == some 0 && (domainAt 42 q).power.domains[d].wakeQueued) = some 42 ∧
      up.power.domains[(33 : Domain)].state ≠ .waking ∧ (domainAt 33 w).power.domains[(33 : Domain)].state = .waking ∧
      needsMet (domainAt 33 w) 33 = true ∧ (domainAt 33 { w with request := 1 }).power.domains[(33 : Domain)].request = 1 ∧
      (domainAt 33 { w with fromOff := true }).power.domains[(33 : Domain)].fromOff = true ∧ PowerDomain.reset.request ≠ 1 := by decide +kernel

theorem test_DomainsEnterAndWake_entry :
    let e := { PowerDomain.reset with state := .entering }
    up.power.domains[(33 : Domain)].state ≠ .entering ∧ (domainAt 33 e).power.domains[(33 : Domain)].state = .entering ∧ e.request.toNat < 2 ∧
      2 ≤ ({ e with request := 2 }).request.toNat ∧ (∀ d : Domain, requestBlocked (domainAt 33 e) d = false) := by decide +kernel

theorem test_DomainsEnterAndWake_idle :
    let stopped := { up with boot := { Boot.reset with stage := .halted } }
    let x := { PowerDomain.reset with offersStand := true }
    up.live = true ∧ domainOn up (bandDomain 39) = true ∧ (bandClusters 39).all (unowned up) = true ∧
      (∀ c ∈ bandClusters 39, notOffering up c = none ∧ offered up (bandDomain 39) c ≠ 0) ∧ up.power.domains[bandDomain 39].request ≠ 1 ∧
      stopped.live = false ∧ (domainAt (bandDomain 39) x).power.domains[bandDomain 39].offersStand = true ∧
      loaded.power.domains[bandDomain 0].offersStand = false ∧ (bandClusters 0).all (unowned loaded) = false ∧
      (∀ d ∈ allStacks, up.power.domains[d].state = .on ∧ up.power.domains[d].request = 0 ∧ entryBlock up d false = none) ∧
      (∃ d ∈ allStacks, (entryBlock (queued0 .load 1 1) d false).isSome = true) := by decide +kernel

theorem test_DomainsEnterAndWake_other :
    let x := { PowerDomain.reset with request := 2 }
    let s := { up with power := { up.power with domains :=
      (Vector.replicate 73 { PowerDomain.reset with state := .off }).set (quncoreDomain 3).val PowerDomain.reset } }
    s.power.domains[quncoreDomain 3].state = .on ∧ entryBlock s (quncoreDomain 3) false = none ∧ s.live = true ∧
      (entryBlock up (quncoreDomain 3) false).isSome = true ∧
      entryBlock up (pcieDomain 1) true = none ∧ up.power.domains[pcieDomain 1].state = .on ∧
      s.power.domains[quncoreDomain 3].request = 0 ∧ (domainAt (pcieDomain 1) x).power.domains[pcieDomain 1].request = 2 ∧
      entryBlock (domainAt (pcieDomain 1) x) (pcieDomain 1) false = none ∧ (entryBlock up (pcieDomain 0) true).isSome = true := by
  decide +kernel

theorem test_PowerMonitorsAct_trickle :
    let x := { PowerDomain.reset with state := .retention, trickle := true, entryTempC := 60 }
    let s := domainAt 72 x
    s.power.domains[(72 : Domain)].state = .retention ∧ x.entryTempC + s.settings.trickleDelta ≤ 68 ∧ ¬ x.entryTempC + s.settings.trickleDelta ≤ 67 ∧
      x.wakeQueued = false ∧ (∀ p, partStamp s p = 0 ∨ jobHolds s p 72 = false) ∧ up.power.domains[(72 : Domain)].state ≠ .retention := by
  decide +kernel

theorem test_PowerMonitorsAct_sample :
    let floor := { up with power := { up.power with quads := Vector.replicate 4 { QuadClock.reset with current := 0 } } }
    let low := { up with power := { up.power with lowWindows := 9 } }
    State.reset.pins.pwrGood = false ∧ up.pins.pwrGood = true ∧ up.power.tripped = false ∧ 11 * up.power.capW ≥ 10 * 3300 ∧
      11 * up.power.capW < 10 * 3301 ∧ allAtFloor up = false ∧ allAtFloor floor = true ∧ 3000 ≤ floor.power.capW ∧ up.power.capW < 3001 ∧
      100 * 2909 < 97 * low.power.capW ∧ low.power.lowWindows + 1 = 10 := by decide +kernel

theorem test_PowerMonitorsAct_thermal :
    (∀ e ∈ [(0, 114), (79, 100)], e.2 < 115) ∧ (∃ e ∈ [(0, 115)], 115 ≤ e.2) ∧ hottest [(0, 114), (79, 100)] (fun k => k / 20 == 3) = 100 ∧
      up.pins.pwrGood = true ∧ up.power.tripped = false := by decide +kernel

theorem test_PowerMonitorsAct_quad :
    let s := { up with power := { up.power with quads := up.power.quads.set 3 { QuadClock.reset with overTemp := true, stretching := true } } }
    s.power.quads[(3 : Quad)].overTemp = true ∧ s.power.quads[(3 : Quad)].stretching = true ∧ up.power.quads[(3 : Quad)].stretching = false ∧
      40000 ≤ 60000 ∧ s.pins.pwrGood = true ∧ s.power.tripped = false := by decide +kernel

theorem test_ErrorTimersAct_stop :
    let s := { up with parts := up.parts.set 0 { part0 with job := some { job with stopped := true } } }
    s.parts[(0 : Part)].job = some { job with stopped := true } ∧ s.live = true ∧ withJob.parts[(0 : Part)].job = some job ∧ job.stopped = false := by
  decide +kernel

theorem test_ErrorTimersAct_heartbeat :
    let s := { up with errors := { ErrorBlock.reset with supervised := true } }
    let l := { up with errors := { s.errors with beats := s.errors.beats.set 15 (7, 1) } }
    up.errors.supervised = false ∧ s.pins.pwrGood = true ∧ s.errors.supervised = true ∧ s.power.tripped = false ∧
      (∀ k : Fin 16, (0x7FFF : BitVec 16).getLsbD k.val = true ∨ s.errors.beats[k].2 = 0) ∧ (0x7FFF : BitVec 16).getLsbD 15 = false ∧
      1 ≤ l.errors.beats[(15 : Fin 16)].2 := by decide +kernel

theorem test_ErrorTimersAct_timers :
    scrubTurn up 7 = true ∧ (∃ n : Stack, scrubTurn (queued0 .load 1 1) n = false) ∧ up.scrub[(7 : Stack)] < visibleUnits ∧
      visibleUnits ≤ ({ up with scrub := Vector.replicate 8 visibleUnits }).scrub[(7 : Stack)] ∧ 8 ≤ (15 : FPort).val ∧
      up.fabric[(15 : FPort)].cageOn = true ∧ (portAt { FabricPort.reset with cageOn := false }).fabric[(15 : FPort)].cageOn = false ∧
      domainOn up (fportDomain 15) = true ∧ up.settings.fportEnable.getLsbD 15 = true ∧ up.fabric[(15 : FPort)].state = .down ∧
      up.bridge[(3 : Quad)] = 0 ∧ 2 ≤ up.boot.beat ∧ State.reset.boot.beat < 2 := by decide +kernel

end Sys2Proof.Tests
end

section
/-! SUPPORT. The write of ERR_STATUS (R10, R491): what one W1C flag holds after a cycle, and the error block after the command. -/

namespace Sys2Proof.Machine

open Sys2Proof

/-- A W1C flag after a cycle in which hardware may set it and software may clear it: the set wins (R10). -/
def w1cFlag (set clear old : Bool) : Bool := set || (old && !clear)

theorem w1cFlag_of_set {set clear old : Bool} (h : set = true) : w1cFlag set clear old = true := by
  simp [w1cFlag, h]

theorem w1cFlag_of_not_set {set clear old : Bool} (h : set = false) : w1cFlag set clear old = if clear then false else old := by
  subst h
  cases clear with
  | false => simp [w1cFlag]
  | true => simp [w1cFlag]

/-- ERR_STATUS is written through the port that answers, from READY onward (R381, R491). -/
theorem exec_errStatus_of_ready {s : State} {port : Port} (v : Word32) (hw : BitVec 4) (ho : bar0Open s port = true)
    (hr : s.boot.stage = .ready) : exec (.errStatus port v hw) s = .next (writeErrStatus s v hw) := by
  have hx : exec (.errStatus port v hw) s = execErrStatus port v hw s := rfl
  rw [hx, execErrStatus, ho, hr]
  rfl

theorem writeErrStatus_frame (s : State) (v : Word32) (hw : BitVec 4) :
    writeErrStatus s v hw = { s with errors := (writeErrStatus s v hw).errors } := rfl

/-- The error block after a write: each flag by the W1C rule, each companion counter raised by its hardware set. -/
theorem writeErrStatus_errors (s : State) (v : Word32) (hw : BitVec 4) :
    (writeErrStatus s v hw).errors = { s.errors with
      pathFailure := w1cFlag (hw.getLsbD 0) (v.getLsbD 0) s.errors.pathFailure
      hbmUe := w1cFlag (hw.getLsbD 1) (v.getLsbD 1) s.errors.hbmUe
      sramUe := w1cFlag (hw.getLsbD 2) (v.getLsbD 2) s.errors.sramUe
      jobFailed := w1cFlag (hw.getLsbD 3) (v.getLsbD 3) s.errors.jobFailed
      pathFailureCount := satAdd 32 s.errors.pathFailureCount (if hw.getLsbD 0 then 1 else 0)
      hbmUeCount := satAdd 32 s.errors.hbmUeCount (if hw.getLsbD 1 then 1 else 0)
      sramUeCount := satAdd 32 s.errors.sramUeCount (if hw.getLsbD 2 then 1 else 0)
      jobFailedCount := satAdd 32 s.errors.jobFailedCount (if hw.getLsbD 3 then 1 else 0) } := rfl

/-- Settles O32: each flag follows the W1C rule, by whether hardware sets it in the cycle; counters and frame are those of the write. -/
theorem errorFlagSetsWin : Obligations.ErrorFlagSetsWin := by
  unfold Obligations.ErrorFlagSetsWin
  intro s port v hw ho hr
  refine ⟨writeErrStatus s v hw, exec_errStatus_of_ready v hw ho hr, writeErrStatus_frame s v hw, ?_⟩
  rw [writeErrStatus_errors]
  exact ⟨rfl, w1cFlag_of_set, w1cFlag_of_set, w1cFlag_of_set, w1cFlag_of_set,
    w1cFlag_of_not_set, w1cFlag_of_not_set, w1cFlag_of_not_set, w1cFlag_of_not_set⟩

end Sys2Proof.Machine
end

section
/-! SUPPORT. SET_CARVEOUT and the zeroing of regions (R276, R471): what a zeroed range reads, the regions that a mask names, the request as
the endpoint serves it, and what a zeroed region leaves behind. -/

namespace Sys2Proof.Machine

open Sys2Proof

/-! ### A range set to zero -/

theorem cellGet_filter (keep : Nat → Bool) (a : Nat) : ∀ l : List Host.Cell,
    cellGet (l.filter (fun c => keep c.1)) a = if keep a then cellGet l a else 0#8
  | [] => by simp [cellGet]
  | (k, v) :: t => by
    have ih := cellGet_filter keep a t
    by_cases hk : k = a
    · subst hk
      cases hkeep : keep k <;> simp [hkeep, cellGet, ih]
    · cases hkeep : keep k <;> simp [hkeep, cellGet, ih, hk]

/-- What a zeroed range does to every read. -/
theorem Memory.read_zero (m : Memory) (lo hi a : Nat) :
    (m.zero lo hi).read a = if lo ≤ a ∧ a < hi then 0#8 else m.read a := by
  unfold Memory.zero Memory.read
  dsimp only
  rw [undefAt_carve, cellGet_filter (fun k => decide (k < lo) || decide (hi ≤ k)) a m.cells]
  by_cases h : lo ≤ a ∧ a < hi
  · rw [if_pos h, if_pos h, if_neg (by simp; omega)]
  · rw [if_neg h, if_neg h, if_pos (by simp; omega)]

/-! ### The regions that a mask names -/

theorem bit_eq_testBit (v i : Nat) : bit v i = v.testBit i := by
  rw [Nat.testBit_eq_decide_div_mod_eq, bit, beq_eq_decide]

theorem mem_maskRegions {m x : Nat} : x ∈ maskRegions m ↔ x < 72 ∧ bit m x = true := by
  simp [maskRegions, selected]

theorem fin_mem_maskRegions {m : Nat} (g : Fin 72) : g.val ∈ maskRegions m ↔ bit m g = true := by
  simp [mem_maskRegions]

theorem maskRegions_nodup (m : Nat) : (maskRegions m).Nodup := List.nodup_range.filter _

/-- A mask that keeps R471 and is not zero names a region. -/
theorem maskRegions_ne_nil {m : Nat} (hpos : 0 < m) (hlt : m < 2 ^ 72) : maskRegions m ≠ [] := by
  obtain ⟨i, hi⟩ := Nat.exists_testBit_of_ne_zero hpos.ne'
  have hi72 : i < 72 := (Nat.pow_lt_pow_iff_right (by omega)).mp ((Nat.ge_two_pow_of_testBit hi).trans_lt hlt)
  exact List.ne_nil_of_mem (mem_maskRegions.mpr ⟨hi72, (bit_eq_testBit m i).trans hi⟩)

/-! ### Updates along a list of regions -/

theorem foldl_updRegion_frame (f : Nat → Region → Region) : ∀ (rs : List Nat) (s : State),
    rs.foldl (fun s g => updRegion s (Fin.ofNat 72 g) (f g)) s =
      { s with regions := (rs.foldl (fun s g => updRegion s (Fin.ofNat 72 g) (f g)) s).regions }
  | [], _ => rfl
  | x :: rs, s => foldl_updRegion_frame f rs (updRegion s (Fin.ofNat 72 x) (f x))

theorem updRegion_regions_get (s : State) (x g : Fin 72) (f : Region → Region) :
    (updRegion s x f).regions[g] = if g = x then f s.regions[g] else s.regions[g] := by
  by_cases h : g = x
  · subst h
    simp
  · have hv : x.val ≠ g.val := fun e => h (Fin.ext e.symm)
    simp [h, hv]

/-- Each region of a list without repeats is updated once, and no other region is. -/
theorem foldl_updRegion_get (f : Nat → Region → Region) (g : Fin 72) : ∀ (rs : List Nat) (s : State), rs.Nodup → (∀ x ∈ rs, x < 72) →
    (rs.foldl (fun s g => updRegion s (Fin.ofNat 72 g) (f g)) s).regions[g] = if g.val ∈ rs then f g.val s.regions[g] else s.regions[g]
  | [], _, _, _ => by simp
  | x :: rs, s, hnd, hlt => by
    obtain ⟨hx, hrs⟩ := List.nodup_cons.mp hnd
    have hx72 : x < 72 := hlt x List.mem_cons_self
    have hfin : g = Fin.ofNat 72 x ↔ g.val = x := by simp [Fin.ext_iff, Nat.mod_eq_of_lt hx72]
    rw [List.foldl_cons, foldl_updRegion_get f g rs _ hrs (fun y hy => hlt y (List.mem_cons_of_mem x hy)), updRegion_regions_get]
    by_cases hg : g.val = x
    · subst hg
      rw [if_neg hx, if_pos (hfin.mpr rfl), if_pos List.mem_cons_self]
    · rw [if_neg (fun e => hg (hfin.mp e))]
      simp [hg]

/-! ### The request -/

theorem stage_of_live {s : State} (h : s.live = true) : s.boot.stage = .ready := by
  simp only [State.live, Bool.and_eq_true, decide_eq_true_eq] at h
  exact h.1.1

/-- A READY command of a live device that is taken is acted on (R466, R467). -/
theorem mgmtReady_of_taken {s : State} (command : Nat) (inst : Byte) (act : Bytes → State) (ht : takesRequest s) (hl : s.live = true) :
    mgmtReady s command inst act = act (mgmtHead command inst) := by
  obtain ⟨hpwr, hbeat, hbusy⟩ := ht
  simp [mgmtReady, mgmtServe, hpwr, hbeat, hbusy, hl, stage_of_live hl]

/-- SET_CARVEOUT with arguments of the right form, up to the mask: bad mask, refusal or acceptance. -/
theorem exec_setCarveout_of_taken {s : State} {inst : Byte} {args : Bytes} (ht : takesRequest s) (hl : s.live = true)
    (hlen : args.length = 40) (hp : u8 args 0 ≤ 3) (hz : zeroRange args 1 7 = true) :
    exec (.setCarveout inst args) s = .next (
      if 2 ^ 72 ≤ uN args 8 16 then mgmtRespond s (mgmtHead 0x12 inst) 2 []
      else if carveoutRefused s (partN (u8 args 0)) (maskRegions (uN args 8 16)) then mgmtRespond s (mgmtHead 0x12 inst) 3 []
      else carveoutTo s (mgmtHead 0x12 inst) (partN (u8 args 0)) (maskRegions (uN args 8 16)) (uN args 24 16)) := by
  have hx : exec (.setCarveout inst args) s = execSetCarveout inst args s := rfl
  rw [hx, execSetCarveout, mgmtReady_of_taken _ _ _ ht hl]
  simp [hlen, hp, hz]

theorem carveoutRefused_iff (s : State) (p : Part) (m : Nat) :
    carveoutRefused s p (maskRegions m) = true ↔ s.parts[p].assigned = false ∨ s.folios.any (fun f => f.part == p) = true ∨
      ∃ g : Fin 72, bit m g = true ∧ (s.regions[g].assigned = true ∨ s.regions[g].zeroing = true) := by
  have hany : (maskRegions m).any (fun g => let r := s.regions[(Fin.ofNat 72 g : Fin 72)]; r.assigned || r.zeroing) = true ↔
      ∃ g : Fin 72, bit m g = true ∧ (s.regions[g].assigned = true ∨ s.regions[g].zeroing = true) := by
    rw [List.any_eq_true]
    constructor
    · rintro ⟨x, hx, h⟩
      obtain ⟨hx72, hbit⟩ := mem_maskRegions.mp hx
      exact ⟨⟨x, hx72⟩, hbit, by simpa [Nat.mod_eq_of_lt hx72] using h⟩
    · rintro ⟨g, hbit, h⟩
      exact ⟨g.val, (fin_mem_maskRegions g).mpr hbit, by simpa using h⟩
  rw [carveoutRefused, Bool.or_eq_true, Bool.or_eq_true, hany, or_assoc, Bool.not_eq_true']

/-- A region as an accepted SET_CARVEOUT leaves it: its mode is set and its zeroing has begun (R471). -/
def carveRegion (p : Part) (modes g : Nat) (r : Region) : Region := { r with stackLocal := bit modes g, part := p, zeroing := true }

/-- An accepted SET_CARVEOUT of at least one region. -/
theorem carveoutTo_of_ne_nil (s : State) (head : Bytes) (p : Part) {rs : List Nat} (modes : Nat) (h : rs ≠ []) :
    carveoutTo s head p rs modes =
      { s with regions := (rs.foldl (fun s g => updRegion s (Fin.ofNat 72 g) (carveRegion p modes g)) s).regions,
               mgmt := { s.mgmt with busy := some (.carveout head p rs) } } := by
  have hfold : carveoutTo s head p rs modes =
      let s1 := rs.foldl (fun s g => updRegion s (Fin.ofNat 72 g) (carveRegion p modes g)) s
      if rs.isEmpty then mgmtRespond s1 head 0 [] else { s1 with mgmt := { s1.mgmt with busy := some (.carveout head p rs) } } := rfl
  rw [hfold, if_neg (by simpa using h), foldl_updRegion_frame]

/-! ### A region zeroed -/

theorem exec_regionZeroed_of_on {s : State} {g : Fin 72} (hl : s.live = true) (hz : s.regions[g].zeroing = true)
    (hon : allStacks.all (domainOn s) = true) : exec (.regionZeroed g) s = .next (zeroRegion s g) := by
  have hx : exec (.regionZeroed g) s = execRegionZeroed g s := rfl
  rw [hx, execRegionZeroed, hl, hz, needing, if_pos hon]
  rfl

theorem beingAssigned_of_carveout {s : State} {head : Bytes} {p : Part} {rs : List Nat} (h : s.mgmt.busy = some (.carveout head p rs))
    (g : Nat) : beingAssigned s g = rs.contains g := by
  simp only [beingAssigned, h]

theorem beingAssigned_eq_false {s : State} {g : Nat} (h : ∀ head p rs, s.mgmt.busy = some (.carveout head p rs) → g ∉ rs) :
    beingAssigned s g = false := by
  unfold beingAssigned
  split
  · next head p rs hb => simpa using h head p rs hb
  · rfl

theorem carveoutZeroed_frame (s : State) (g : Nat) : carveoutZeroed s g = { s with mgmt := (carveoutZeroed s g).mgmt } := by
  unfold carveoutZeroed
  split
  · dsimp only
    split
    · rfl
    · split <;> rfl
  · rfl

@[simp] theorem carveoutZeroed_mem (s : State) (g : Nat) : (carveoutZeroed s g).mem = s.mem := by rw [carveoutZeroed_frame]

@[simp] theorem carveoutZeroed_regions (s : State) (g : Nat) : (carveoutZeroed s g).regions = s.regions := by rw [carveoutZeroed_frame]

/-- A response OK without data (R467). -/
theorem mgmtRespond_ok_mgmt (s : State) (head : Bytes) :
    (mgmtRespond s head 0 []).mgmt = { s.mgmt with responses := s.mgmt.responses ++ [head ++ [0, 0, 0, 0]] } := by
  have hcode : le 1 0 ++ zeros 3 = [0, 0, 0, 0] := rfl
  rw [mgmtRespond, List.append_nil, List.append_assoc, hcode]

/-- The zeroing of a request's last region sends its response (R471). -/
theorem carveoutZeroed_mgmt_of_last {s : State} {head : Bytes} {p : Part} {rs : List Nat} {g : Nat}
    (hb : s.mgmt.busy = some (.carveout head p rs)) (hg : g ∈ rs) (hall : ∀ x ∈ rs, x = g) :
    (carveoutZeroed s g).mgmt = { s.mgmt with busy := none, responses := s.mgmt.responses ++ [head ++ [0, 0, 0, 0]] } := by
  have hnil : rs.filter (fun x => x != g) = [] := by simpa using hall
  simp only [carveoutZeroed, hb, hnil]
  rw [if_neg (by simpa using hg), if_pos List.isEmpty_nil, mgmtRespond_ok_mgmt]

/-- A zeroing that leaves other regions of its request keeps the request waiting. -/
theorem carveoutZeroed_mgmt_of_more {s : State} {head : Bytes} {p : Part} {rs : List Nat} {g : Nat}
    (hb : s.mgmt.busy = some (.carveout head p rs)) (hg : g ∈ rs) (hmore : ∃ x ∈ rs, x ≠ g) :
    (carveoutZeroed s g).mgmt = { s.mgmt with busy := some (.carveout head p (rs.filter (fun x => x != g))) } := by
  have hne : (rs.filter (fun x => x != g)).isEmpty = false := by simpa using hmore
  simp only [carveoutZeroed, hb, hne]
  rw [if_neg (by simpa using hg), if_neg Bool.false_ne_true]

theorem rests.mem_eq {s t : State} (h : rests s t) : t.mem = s.mem := by
  unfold rests at h
  rw [h]

theorem rests.regions_eq {s t : State} (h : rests s t) : t.regions = s.regions := by
  unfold rests at h
  rw [h]

/-- A region once it is zero: assigned when a SET_CARVEOUT named it, and otherwise out of its carve-out. -/
def zeroedRegion (assign : Bool) (r : Region) : Region :=
  if assign then { r with assigned := true, zeroing := false } else { r with assigned := false, part := 0, zeroing := false }

/-- The range of a region set to zero, and the region's fields after it. -/
def zeroedState (s : State) (g : Fin 72) : State :=
  updRegion (updMem s (fun m => m.zero (g.val * regionBytes) (g.val * regionBytes + regionBytes))) g (zeroedRegion (beingAssigned s g.val))

theorem zeroRegion_of_assigned {s : State} {g : Fin 72} (h : beingAssigned s g.val = true) :
    zeroRegion s g = carveoutZeroed (zeroedState s g) g.val := by
  simp only [zeroRegion, zeroedState, h]
  rfl

theorem zeroRegion_of_released {s : State} {g : Fin 72} (h : beingAssigned s g.val = false) :
    zeroRegion s g = reattempt s (zeroedState s g) := by
  simp only [zeroRegion, zeroedState, h]
  rfl

theorem zeroRegion_mem (s : State) (g : Fin 72) : (zeroRegion s g).mem = (zeroedState s g).mem := by
  cases h : beingAssigned s g.val with
  | true => rw [zeroRegion_of_assigned h, carveoutZeroed_mem]
  | false => rw [zeroRegion_of_released h, (reattempt_rests _ _).mem_eq]

theorem zeroRegion_regions (s : State) (g : Fin 72) : (zeroRegion s g).regions = (zeroedState s g).regions := by
  cases h : beingAssigned s g.val with
  | true => rw [zeroRegion_of_assigned h, carveoutZeroed_regions]
  | false => rw [zeroRegion_of_released h, (reattempt_rests _ _).regions_eq]

theorem zeroRegion_read (s : State) (g : Fin 72) (a : Nat) :
    (zeroRegion s g).mem.read a = if g.val * regionBytes ≤ a ∧ a < (g.val + 1) * regionBytes then 0 else s.mem.read a := by
  rw [zeroRegion_mem, Nat.succ_mul]
  exact Memory.read_zero s.mem _ _ a

theorem zeroRegion_regions_get (s : State) (g g' : Fin 72) :
    (zeroRegion s g).regions[g'] = if g' = g then zeroedRegion (beingAssigned s g.val) s.regions[g'] else s.regions[g'] := by
  rw [zeroRegion_regions]
  exact updRegion_regions_get _ g g' _

theorem zeroRegion_frame_of_assigned {s : State} {g : Fin 72} (h : beingAssigned s g.val = true) :
    zeroRegion s g = { s with mem := (zeroRegion s g).mem, regions := (zeroRegion s g).regions, mgmt := (zeroRegion s g).mgmt } := by
  rw [zeroRegion_of_assigned h, carveoutZeroed_frame]
  rfl

/-! ### O38 -/

/-- An accepted request: the frame, the request that waits, and each region by its mask bit. -/
theorem carveoutTo_accepted (s : State) (head : Bytes) (p : Part) {mask : Nat} (modes : Nat) (hpos : 0 < mask) (hlt : mask < 2 ^ 72) :
    let t := carveoutTo s head p (maskRegions mask) modes
    t = { s with regions := t.regions, mgmt := t.mgmt } ∧
      t.mgmt = { s.mgmt with busy := some (.carveout head p (maskRegions mask)) } ∧
      (∀ g : Fin 72, t.regions[g] = if bit mask g then carveRegion p modes g s.regions[g] else s.regions[g]) := by
  intro t
  have ht := carveoutTo_of_ne_nil s head p modes (maskRegions_ne_nil hpos hlt)
  refine ⟨by rw [show t = _ from ht], by rw [show t = _ from ht], fun g => ?_⟩
  rw [show t = _ from ht]
  dsimp only
  rw [foldl_updRegion_get _ g _ s (maskRegions_nodup mask) (fun x hx => (mem_maskRegions.mp hx).1)]
  simp only [fin_mem_maskRegions]

/-- Settles O38: the request by its three outcomes, and a zeroed region by whether a SET_CARVEOUT waits for it. -/
theorem carveoutsAreZeroedThenAssigned : Obligations.CarveoutsAreZeroedThenAssigned := by
  unfold Obligations.CarveoutsAreZeroedThenAssigned
  intro s
  constructor
  · intro inst args htake hlive hlen hpart hzero p mask modes
    have hexec := exec_setCarveout_of_taken (inst := inst) htake hlive hlen hpart hzero
    refine ⟨fun hbad => ?_, fun hlt hrefuse => ?_, fun hpos hlt hassigned hfolios hfree => ?_⟩
    · rw [hexec, if_pos hbad]
    · have hr : carveoutRefused s p (maskRegions mask) = true :=
        (carveoutRefused_iff s p mask).mpr (hrefuse.imp_right (Or.imp_right fun ⟨g, hbit, hg⟩ => ⟨g, hbit, .inl hg⟩))
      rw [hexec, if_neg (Nat.not_le.mpr hlt), if_pos hr]
    · have hr : ¬ carveoutRefused s p (maskRegions mask) = true := by
        rw [carveoutRefused_iff]
        rintro (hna | hf | ⟨g, hbit, hg⟩)
        · exact Bool.false_ne_true (hna.symm.trans hassigned)
        · exact Bool.false_ne_true (hfolios.symm.trans hf)
        · obtain ⟨hfreed, hidle⟩ := hfree g hbit
          exact hg.elim (fun h => Bool.false_ne_true (hfreed.symm.trans h)) (fun h => Bool.false_ne_true (hidle.symm.trans h))
      obtain ⟨hframe, hmgmt, hregions⟩ := carveoutTo_accepted s (mgmtHead 0x12 inst) p modes hpos hlt
      refine ⟨_, by rw [hexec, if_neg (Nat.not_le.mpr hlt), if_neg hr], hframe, hmgmt, fun g hbit => ?_, fun g hbit => ?_⟩
      · rw [hregions, if_pos hbit]
        rfl
      · rw [hregions, hbit, if_neg Bool.false_ne_true]
  · intro g hlive hzeroing hon _
    refine ⟨zeroRegion s g, exec_regionZeroed_of_on hlive hzeroing hon, zeroRegion_read s g, fun g' hne => ?_, ?_, fun hnot => ?_⟩
    · rw [zeroRegion_regions_get, if_neg hne]
    · intro head p rs hbusy hmem
      have hassign : beingAssigned s g.val = true := by rw [beingAssigned_of_carveout hbusy, List.contains_iff_mem]; exact hmem
      refine ⟨?_, zeroRegion_frame_of_assigned hassign, fun hall => ?_, fun hmore => ?_⟩
      · rw [zeroRegion_regions_get, if_pos rfl, hassign]
        rfl
      · rw [zeroRegion_of_assigned hassign]
        exact carveoutZeroed_mgmt_of_last (s := zeroedState s g) hbusy hmem hall
      · rw [zeroRegion_of_assigned hassign]
        exact carveoutZeroed_mgmt_of_more (s := zeroedState s g) hbusy hmem hmore
    · rw [zeroRegion_regions_get, if_pos rfl, beingAssigned_eq_false hnot]
      rfl

end Sys2Proof.Machine
end

section
/-! SUPPORT. The machine as a whole: one step, what every command keeps, the state after reset, memory, the blotter's locked records and the
bytes of a completion record. -/

namespace Sys2Proof.Machine

/-! ### One step -/

theorem step_of_idle {s : State} (h : s.pending = []) : step s = .next s.tick := by
  rw [step, h]

theorem step_of_front {s : State} {c : Instr} {rest : List Instr} (h : s.pending = c :: rest) :
    step s = exec c { s with pending := rest } := by
  rw [step, h]

theorem tick_of_power {s : State} (h : s.pins.pwrGood = true) : s.tick = { s with timeBase := (s.timeBase + 10) % 2 ^ 64 } :=
  if_pos h

theorem tick_of_no_power {s : State} (h : s.pins.pwrGood = false) : s.tick = s :=
  if_neg (ne_true_of_eq_false h)

/-- Settles O1: the definition of a step, for a queue that is not empty. -/
theorem stepCarriesOutFrontCommand : Obligations.StepCarriesOutFrontCommand :=
  fun _ _ _ => step_of_front rfl

/-- Settles O2: a tick by whether the module has power. -/
theorem idleStepAdvancesTimeBase : Obligations.IdleStepAdvancesTimeBase := by
  intro s hidle
  refine ⟨s.tick, step_of_idle hidle, ?_, fun h => by rw [tick_of_power h], fun h => by rw [tick_of_no_power h]⟩
  cases h : s.pins.pwrGood with
  | true => rw [tick_of_power h]
  | false => rw [tick_of_no_power h]

/-! ### What every command keeps -/

/-- Every command but a cold reset leaves the queue and does not let HEAD fall; a cold reset leaves the queue too. -/
theorem exec_pending_head {c : Instr} {s t : State} (h : exec c s = .next t) :
    t.pending = s.pending ∧ (s.blotter.head ≤ t.blotter.head ∨ (c = .powerGoodLost ∧ s.pins.pwrGood = true) ∨
      ∃ eeprom seed, c = .powerGood eeprom seed ∧ s.pins.pwrGood = false) := by
  by_cases hc : mayReset c = false
  · exact ⟨(exec_keeps hc h).pending, .inl (exec_keeps hc h).head⟩
  · cases c with
    | powerGood eeprom seed =>
      have hx : execPowerGood eeprom seed s = .next t := h
      unfold execPowerGood at hx
      obtain rfl := Host.Outcome.next.inj hx
      cases hp : s.pins.pwrGood with
      | true => exact ⟨rfl, .inl (Nat.le_refl _)⟩
      | false =>
        refine ⟨?_, .inr (.inr ⟨eeprom, seed, rfl, rfl⟩)⟩
        rw [if_neg Bool.false_ne_true, (bootFromBeat2_keeps (Keeps.refl _)).pending]
        rfl
    | powerGoodLost =>
      have hx : execPowerGoodLost s = .next t := h
      unfold execPowerGoodLost at hx
      obtain rfl := Host.Outcome.next.inj hx
      cases hp : s.pins.pwrGood with
      | true => exact ⟨rfl, .inr (.inl ⟨rfl, rfl⟩)⟩
      | false => exact ⟨rfl, .inl (Nat.le_refl _)⟩
    | modResetN => exact (execModResetN_follows h).imp id .inl
    | resetDevice inst args => exact (execResetDevice_follows inst args h).imp id .inl
    | thermalReading l => exact (execThermalReading_follows l h).imp id .inl
    | _ => exact absurd rfl hc

/-- Settles O3: the queue is among what every command keeps, resets included. -/
theorem commandsLeaveTheQueue : Obligations.CommandsLeaveTheQueue :=
  fun _ _ _ h => (exec_pending_head h).1

/-- Settles O9: HEAD only rises but in the two cold resets, by the cases of `exec_pending_head`. -/
theorem blotterHeadFallsOnlyInColdReset : Obligations.BlotterHeadFallsOnlyInColdReset :=
  fun _ _ _ h => (exec_pending_head h).2

theorem tick_sound {s : State} (h : s.sound) : s.tick.sound := by
  cases hp : s.pins.pwrGood with
  | false => rwa [tick_of_no_power hp]
  | true =>
    obtain ⟨hmem, hblotter, hclocks, hsettings, -⟩ := h
    rw [tick_of_power hp]
    exact ⟨hmem, hblotter, hclocks, hsettings, Nat.mod_lt _ (Nat.two_pow_pos 64)⟩

/-- Settles O6: an idle step by the tick, any other by the soundness of every command. -/
theorem everyStepKeepsSoundness : Obligations.EveryStepKeepsSoundness := by
  intro s t hsound hstep
  cases hq : s.pending with
  | nil =>
    rw [step_of_idle hq] at hstep
    obtain rfl := Host.Outcome.next.inj hstep
    exact tick_sound hsound
  | cons c rest =>
    rw [step_of_front hq] at hstep
    exact exec_sound c hstep hsound

/-- Settles O7: LOCK is among what a command that does not reset the device keeps. -/
theorem lockedSettingsStandUntilReset : Obligations.LockedSettingsStandUntilReset :=
  fun _ _ _ hc hlock h => (exec_keeps hc h).lock hlock

/-- Settles O8: the stop and the trip are among what a command that does not reset the device keeps. -/
theorem stopAndTripStandUntilReset : Obligations.StopAndTripStandUntilReset :=
  fun _ _ _ hc h => ⟨(exec_keeps hc h).fatal, (exec_keeps hc h).tripped⟩

/-- Settles O10: what every such command keeps, and what the commands that are no writers of control registers hold besides. -/
theorem controlRegistersHaveTheirOwnWriters : Obligations.ControlRegistersHaveTheirOwnWriters := by
  intro c s t hc h
  have hkeeps := exec_keeps hc h
  refine ⟨⟨hkeeps.silicon, hkeeps.timeBase, hkeeps.pwrGood⟩, fun hw => ?_⟩
  have hheld := (exec_keeps_held hc hw h).held rfl
  exact ⟨hheld.boot, hheld.settings, hheld.scrub, hheld.bridge, hheld.modResetN, hheld.perstN, hheld.slotStrap⟩

/-! ### The state after reset -/

/-- Settles O4: each register of the reset state evaluated. -/
theorem resetRegisterValues : Obligations.ResetRegisterValues := by
  unfold Obligations.ResetRegisterValues
  decide +kernel

theorem reset_memOk : State.reset.memOk := ⟨rfl, by decide⟩

/-- Settles O5: each part of the reset state by its own lemma. -/
theorem resetStateIsSound : Obligations.ResetStateIsSound :=
  ⟨reset_memOk, Blotter.reset_ok, Power.reset_ok, Settings.reset_ok, Nat.two_pow_pos 64⟩

/-! ### Memory -/

@[simp] theorem Memory.length_readBytes (m : Memory) (a n : Nat) : (m.readBytes a n).length = n := by
  simp [Memory.readBytes]

theorem Memory.getElem_readBytes (m : Memory) (a n i : Nat) (h : i < (m.readBytes a n).length) :
    (m.readBytes a n)[i] = m.read (a + i) := by
  simp [Memory.readBytes]

/-- A byte of a stretch that was stored. -/
theorem Memory.read_store_at {m : Memory} (h : m.wf = true) (a : Nat) (l : Bytes) {i : Nat} (hi : i < l.length) :
    (m.store a l).read (a + i) = l.getD i 0#8 := by
  rw [m.read_store _ _ _ h, if_pos ⟨Nat.le_add_right _ _, Nat.add_lt_add_left hi a⟩, Nat.add_sub_cancel_left]

/-- A byte outside a stretch that was stored. -/
theorem Memory.read_store_outside {m : Memory} (h : m.wf = true) (a : Nat) (l : Bytes) {x : Nat} (hx : x < a ∨ a + l.length ≤ x) :
    (m.store a l).read x = m.read x := by
  rw [m.read_store _ _ _ h, if_neg (by omega)]

theorem Memory.readBytes_store {m : Memory} (h : m.wf = true) (a : Nat) (l : Bytes) : (m.store a l).readBytes a l.length = l := by
  refine List.ext_getElem (Memory.length_readBytes _ _ _) fun i h1 h2 => ?_
  rw [Memory.getElem_readBytes, Memory.read_store_at h a l h2, List.getD_eq_getElem _ _ h2]

/-- Settles O11: a byte, a stretch, and what lies outside a stretch. -/
theorem memoryReadsWhatWasWritten : Obligations.MemoryReadsWhatWasWritten :=
  ⟨fun m a b x h => m.read_write a x b h, fun _ a l h => Memory.readBytes_store h a l,
    fun _ a l _ h hx => Memory.read_store_outside h a l hx⟩

/-! ### The blotter's locked records -/

/-- The slot of the next record of a frozen blotter is none of the 1,984 that the freeze has locked (R488). -/
theorem blotterSlot_ne_locked {b : Blotter} {n : Nat} (hf : b.frozen = true) (h1 : n ≤ b.freezeSeq)
    (h2 : b.freezeSeq < n + 1984) : n % 2048 ≠ blotterSlot b b.head := by
  rw [blotterSlot, if_pos hf]
  omega

/-- A record in a slot other than the next one stays. -/
theorem mem_put_slots {b : Blotter} {e : Nat × Nat × BlotterRec} (he : e ∈ b.slots) (hne : e.1 ≠ blotterSlot b b.head) (r : BlotterRec) :
    e ∈ (b.put r).slots :=
  List.mem_cons_of_mem _ (List.mem_filter.mpr ⟨he, by simpa using hne⟩)

/-- A record noted is put into the blotter, or the blotter is as it was. -/
theorem note_slots (s : State) (code unit : Nat) (stamp : Stamp) (a0 a1 a2 : Nat) :
    (note s code unit stamp a0 a1 a2).blotter.slots = s.blotter.slots ∨
      ∃ r, (note s code unit stamp a0 a1 a2).blotter.slots = (s.blotter.put r).slots := by
  unfold note
  split
  · exact .inl rfl
  · dsimp only
    split <;> exact .inr ⟨_, rfl⟩

/-- Settles O12: the next slot is none of the locked ones, and every other slot keeps its record. -/
theorem frozenBlotterKeepsLockedRecords : Obligations.FrozenBlotterKeepsLockedRecords := by
  intro s code unit stamp a0 a1 a2 n r hf _ hmem h1 h2
  obtain hsame | ⟨r', hput⟩ := note_slots s code unit stamp a0 a1 a2
  · rwa [hsame]
  · rw [hput]
    exact mem_put_slots hmem (blotterSlot_ne_locked hf h1 h2) r'

/-! ### The bytes of a completion record -/

@[simp] theorem length_le : ∀ n v : Nat, (le n v).length = n
  | 0, _ => rfl
  | n + 1, v => by rw [le, List.length_cons, length_le n]

@[simp] theorem length_zeros (n : Nat) : (zeros n).length = n := List.length_replicate

theorem length_completionBytes (r : Completion) (sqHead : Word32) (phase : Nat) : (r.bytes sqHead phase).length = 32 := by
  simp [Completion.bytes]

/-- Settles O13: the record's bytes written out, each field read back at its place of R399. -/
theorem completionRecordLayout : Obligations.CompletionRecordLayout := by
  intro r sqHead phase hphase b
  have htag := r.tag.isLt
  have hhandle := r.handle.isLt
  have hhead := sqHead.isLt
  have hsq := r.sq.isLt
  have hopcode := r.opcode.isLt
  have hstatus := r.status.isLt
  have hkind := r.kind.isLt
  have hreason := r.reason.isLt
  have hdetail0 := r.detail0.isLt
  have hdetail1 := r.detail1.isLt
  refine ⟨length_completionBytes r sqHead phase, ?_⟩
  simp only [b, Completion.bytes, le, zeros, u8, u16, u32, uN, slice, List.cons_append, List.nil_append, List.getD_cons_succ,
    List.getD_cons_zero, List.replicate, List.drop, List.take, BitVec.toNat_ofNat]
  refine ⟨?_, ?_, ?_, ?_, ?_, ?_, ?_, ?_, trivial, ?_, ?_, rfl, ?_⟩ <;> omega

end Sys2Proof.Machine
end

section
/-! SUPPORT. Commands that complete at once, FENCE, the admission of long operations, copies, and the start of a RUN or STEP
(R394 to R398, R401, R404, R407, R408, R164). -/

namespace Sys2Proof.Machine

/-! ### Commands in flight -/

/-- The state with the command of a number updated. -/
def updCmd (s : State) (uid : Nat) (f : Cmd → Cmd) : State := { s with cmds := updFirst (fun d => d.uid == uid) f s.cmds }

theorem cmdOf_updCmd {s : State} {c : Cmd} (f : Cmd → Cmd) (hf : ∀ d, (f d).uid = d.uid) (h : cmdOf s c.uid = some c) :
    cmdOf (updCmd s c.uid f) c.uid = some (f c) :=
  updFirst_find (test := fun (d : Cmd) => d.uid == c.uid) (f := f) (fun d hd => by rw [hf]; exact hd) h

theorem begun_cmdOf {s : State} {c : Cmd} (h : cmdOf s c.uid = some c) : cmdOf (begun s c.uid) c.uid = some { c with started := true } :=
  cmdOf_updCmd (fun d => { d with started := true }) (fun _ => rfl) h

/-- Whether a port takes posts is a matter of the ports alone. -/
theorem portPosts_of_ports {s u : State} (h : u.ports = s.ports) (p : Port) : portPosts u p = portPosts s p := by
  rw [portPosts, portPosts, h]

theorem quietFor.cmdOf_eq {s : State} {c : Cmd} (h : quietFor s c) : cmdOf s c.uid = some c := h.2.2.1

/-! ### NOP and FENCE -/

theorem exec_nop_of_startable {s : State} {p : Part} {q : Fin 16} {c : Cmd} (h : startable s p q 0x01 = some c) :
    exec (.nop p q) s = .next (finish (begun s c.uid) c.uid 0 0 0 0) := by
  have hx : exec (.nop p q) s = execNop p q s := rfl
  rw [hx, execNop, h]

/-- Settles O14: NOP is its FINAL record. -/
theorem nopCompletes : Obligations.NopCompletes :=
  fun _ _ _ _ hquiet hstart => ⟨_, exec_nop_of_startable hstart, finish_here hquiet 0 0 0 0⟩

/-- A FENCE in flight, with the numbers of the commands that it waits for. -/
def fenced (l : List Nat) (d : Cmd) : Cmd := { d with started := true, fence := some l }

theorem exec_fence_of_startable {s : State} {p : Part} {q : Fin 16} {c : Cmd} (h : startable s p q 0x02 = some c) :
    let scope := s.cmds.filter (fun d => d.started && d.part == p && (u8 c.desc 8 == 1 || d.sq == q))
    exec (.fence p q) s = .next (pump (updCmd s c.uid (fenced (scope.map (fun d => d.uid))))) := by
  have hx : exec (.fence p q) s = execFence p q s := rfl
  rw [hx, execFence, h]
  rfl

theorem pump_fenced_nil {s : State} {c : Cmd} (h : quietFor s c) :
    pump (updCmd s c.uid (fenced [])) = finish (begun s c.uid) c.uid 0 0 0 0 := fence_empty h

theorem pump_fenced {s : State} {c : Cmd} (h : quietFor s c) {l : List Nat} (hl : l ≠ []) :
    pump (updCmd s c.uid (fenced l)) = updCmd s c.uid (fenced l) := fence_waits h hl

/-- Settles O15: with an empty scope a FENCE completes, with any other it waits. -/
theorem fenceWaitsForItsScope : Obligations.FenceWaitsForItsScope := by
  intro s p q c hquiet hstart scope
  refine ⟨_, exec_fence_of_startable hstart, fun hnil => ?_, fun hne => ?_⟩
  · rw [show s.cmds.filter _ = [] from hnil, List.map_nil, pump_fenced_nil hquiet]
    exact finish_here hquiet 0 0 0 0
  · rw [pump_fenced hquiet (fun h => hne (List.map_eq_nil_iff.mp h))]
    exact ⟨cmdOf_updCmd (fenced _) (fun _ => rfl) hquiet.cmdOf_eq, rfl⟩

/-! ### The admission of LOAD_FOLIO, RUN and STEP -/

theorem exec_loadFolio_of_room {s : State} {p : Part} {q : Fin 16} {c : Cmd} (h : startable s p q 0x20 = some c)
    (hroom : loadRoom s p = true) :
    exec (.loadFolio p q) s = .next (admitLong s c (newLoad c.desc).len (.load (newLoad c.desc))).2 := by
  have hx : exec (.loadFolio p q) s = execLoadFolio p q s := rfl
  rw [hx, execLoadFolio, h]
  dsimp only
  rw [if_pos hroom]

theorem exec_run_or_step_of_startable {s : State} {p : Part} {q : Fin 16} {c : Cmd} {one : Bool}
    (h : startable s p q (if one then 0x23 else 0x22) = some c) :
    exec (if one then .step p q else .run p q) s = .next (startRun s c) := by
  cases one with
  | true =>
    have hx : exec (.step p q) s = execStep p q s := rfl
    rw [if_pos rfl, hx, execStep, show startable s p q 0x23 = some c from h]
  | false =>
    have hx : exec (.run p q) s = execRun p q s := rfl
    rw [if_neg Bool.false_ne_true, hx, execRun, show startable s p q 0x22 = some c from h]

/-- A RUN or STEP of a folio that is loaded and not replaced, with room for its records, is admitted. -/
theorem startRun_of_folio {s : State} {c : Cmd} {f : Folio} (hf : folioRef s c.part (descHandle c.desc 8) = .ok f)
    (hr : f.retired = false) (hl : stepRecordBytes f.tables ≤ u32 c.desc 24) :
    startRun s c = (admitLong s c (newRun f c.desc).stepCount (.run (newRun f c.desc))).2 := by
  rw [startRun, hf]
  dsimp only
  rw [hr, if_neg Bool.false_ne_true, if_neg (Nat.not_lt.mpr hl)]

/-- Settles O17: a load and a run are admitted under the next handle. -/
theorem longCommandsAreAdmitted : Obligations.LongCommandsAreAdmitted := by
  intro s p q c ⟨hquiet, hfree⟩
  constructor
  · intro hstart hroom
    obtain ⟨haccepted, -, hframe⟩ := admit_quiet hquiet hfree (newLoad c.desc).len (.load (newLoad c.desc))
    exact ⟨_, exec_loadFolio_of_room hstart hroom, hframe, haccepted⟩
  · intro f one hstart hf hr hl
    obtain ⟨haccepted, -, hframe⟩ := admit_quiet hquiet hfree (newRun f c.desc).stepCount (.run (newRun f c.desc))
    refine ⟨_, exec_run_or_step_of_startable hstart, ?_, ?_⟩
    · rwa [startRun_of_folio hf hr hl]
    · rwa [startRun_of_folio hf hr hl]

/-! ### Copies that start -/

/-- The copy that a descriptor asks for (R394, R407). -/
def askedCopy (s : State) (c : Cmd) (f : Folio) (toDevice : Bool) : CopyOp :=
  { id := s.nextUid, part := c.part, toDevice := toDevice, folio := f.handle, tensor := u32 c.desc 12, hostAddr := u64 c.desc 16,
    off := u64 c.desc 24, len := u64 c.desc 32, tokenGrid := u32 c.desc 40, token := u8 c.desc 44, cmd := c.uid,
    long := decide (2 ^ 24 ≤ u64 c.desc 32), duringRun := hasRun s f.handle }

/-- The state with a copy in progress, its command in flight. -/
def withCopy (s : State) (c : Cmd) (k : CopyOp) : State := { begun s c.uid with nextUid := s.nextUid + 1, copies := s.copies ++ [k] }

theorem exec_copy_of_startable {s : State} {p : Part} {q : Fin 16} {c : Cmd} {toDevice : Bool}
    (h : startable s p q (if toDevice then 0x10 else 0x11) = some c) :
    exec (if toDevice then .copyIn p q else .copyOut p q) s = .next (startCopy s c toDevice) := by
  cases toDevice with
  | true =>
    have hx : exec (.copyIn p q) s = execCopyIn p q s := rfl
    rw [if_pos rfl, hx, execCopyIn, show startable s p q 0x10 = some c from h]
  | false =>
    have hx : exec (.copyOut p q) s = execCopyOut p q s := rfl
    rw [if_neg Bool.false_ne_true, hx, execCopyOut, show startable s p q 0x11 = some c from h]

/-- A copy whose range and token grid are good starts, as a long operation from 16 MiB on. -/
theorem startCopy_of_range {s : State} {c : Cmd} {f : Folio} {toDevice : Bool} (hf : folioRef s c.part (descHandle c.desc 8) = .ok f)
    (hrange : copyRangeOk f (u32 c.desc 12) (u64 c.desc 24) (u64 c.desc 32) = true)
    (hgrid : u32 c.desc 40 = noneIdx ∨ u32 c.desc 40 < f.tables.grids.length) :
    let k := askedCopy s c f toDevice
    startCopy s c toDevice =
      if k.long then updLong (admitLong (withCopy s c k) c k.len (.copy k)).2 (admitLong (withCopy s c k) c k.len (.copy k)).1
        (fun o => { o with state := .running, began := true })
      else withCopy s c k := by
  have hgood : ¬ (u32 c.desc 40 ≠ noneIdx && f.tables.grids.length ≤ u32 c.desc 40) = true := by
    simpa [imp_iff_not_or, not_le] using hgrid
  intro k
  unfold startCopy
  dsimp only
  simp only [hf, hrange, Bool.not_true, Bool.false_eq_true, if_false, if_neg hgood]
  unfold k askedCopy withCopy
  generalize decide (2 ^ 24 ≤ u64 c.desc 32) = b
  rfl

theorem askedCopy_long (s : State) (c : Cmd) (f : Folio) (toDevice : Bool) :
    (askedCopy s c f toDevice).long = decide (2 ^ 24 ≤ u64 c.desc 32) := by
  rw [askedCopy]

/-- A short copy in progress: its command alone is in flight (R394). -/
theorem withCopy_short {s : State} {c : Cmd} (h : quietFor s c) (k : CopyOp) :
    admitted { s with copies := (withCopy s c k).copies } (withCopy s c k) ∧ (withCopy s c k).longs = s.longs ∧
      (withCopy s c k).parts = s.parts ∧ (withCopy s c k).ports = s.ports ∧
      cmdOf (withCopy s c k) c.uid = some { c with started := true } :=
  ⟨rfl, rfl, rfl, rfl, begun_cmdOf h.cmdOf_eq⟩

/-- A long copy in progress: admitted, and running at once (R404). -/
theorem withCopy_long {s : State} {c : Cmd} (h : admitsNext s c) (k : CopyOp) (n : Nat) {a : Handle × State}
    (ha : a = admitLong (withCopy s c k) c n (.copy k)) :
    let t := updLong a.2 a.1 (fun o => { o with state := .running, began := true })
    t.copies = s.copies ++ [k] ∧ admitted { s with copies := t.copies } t ∧ acceptedAs s t c n (.copy k) true := by
  obtain ⟨hquiet, hfree⟩ := h
  have hhandle : (newHandle (withCopy s c k) c.part).1 = (newHandle s c.part).1 :=
    newHandle_of (s := s) (u := withCopy s c k) rfl rfl rfl _
  have hfree' : handleUsed (withCopy s c k) (newHandle (withCopy s c k) c.part).1 = false := by
    rw [hhandle]
    exact hfree
  have hquiet' : quietFor (withCopy s c k) { c with started := true } := quietFor_begun hquiet rfl (fun _ => rfl) rfl
  obtain ⟨haccepted, hsame, hframe⟩ := admit_quiet hquiet' hfree' n (.copy k)
  have hruns := accepted_runs haccepted hfree'
  have ha' : admitLong (withCopy s c k) { c with started := true } n (.copy k) = a := ha.symm
  rw [ha'] at hruns hsame hframe
  unfold admitted at hframe
  have hhandle' : (newHandle (withCopy s c k) { c with started := true }.part).1 = (newHandle s c.part).1 := hhandle
  obtain ⟨hlongs, hrecord, hcmd⟩ := hruns
  rw [hhandle'] at hlongs hrecord hcmd
  rw [hsame.trans hhandle]
  refine ⟨?_, ?_, hlongs, hrecord, hcmd⟩
  · exact (congrArg State.copies hframe).trans rfl
  · unfold admitted updLong
    rw [hframe]
    rfl

/-- Settles O18: a copy by whether it is shorter than 16 MiB. -/
theorem copiesStart : Obligations.CopiesStart := by
  intro s p q c f toDevice hnext hstart hf hrange hgrid
  change let k := askedCopy s c f toDevice; _
  intro k
  refine ⟨_, exec_copy_of_startable hstart, ?_⟩
  rw [startCopy_of_range hf hrange hgrid, askedCopy_long]
  by_cases hlong : 2 ^ 24 ≤ u64 c.desc 32
  · rw [if_pos (decide_eq_true hlong)]
    obtain ⟨hcopies, hframe, haccepted⟩ := withCopy_long hnext k (u64 c.desc 32) rfl
    exact ⟨hcopies, hframe, fun hshort => absurd hlong (Nat.not_le.mpr hshort), fun _ => haccepted⟩
  · rw [if_neg (by simpa using hlong)]
    obtain ⟨hframe, hrest⟩ := withCopy_short hnext.1 k
    exact ⟨rfl, hframe, fun _ => hrest, fun h => absurd h hlong⟩

/-! ### Copies that complete -/

theorem exec_copyComplete_of_moving {s : State} {id : Nat} {k : CopyOp} {f : Folio} (data : Bytes) (hmoving : copyMoving s id = some (k, f))
    (hon : (tensorIdxDomains s f k.tensor).all (domainOn s) = true) :
    exec (.copyComplete id data) s =
      .next (if k.toDevice then (if data.length = k.len then copyInDone s f k data else s) else copyOutDone s f k) := by
  have hx : exec (.copyComplete id data) s = execCopyComplete id data s := rfl
  rw [hx, execCopyComplete, hmoving]
  dsimp only
  rw [needing, if_pos hon]

/-- A copy that is no long operation ends with the FINAL record of its command. -/
theorem endCopy_of_short {s : State} {k : CopyOp} (h : copyLong s k.id = none) (st : LongState) (status reason d0 : Nat) :
    endCopy s k st status reason d0 = finish { s with copies := s.copies.filter (fun x => x.id != k.id) } k.cmd status reason d0 0 := by
  have hs : copyLong { s with copies := s.copies.filter (fun x => x.id != k.id) } k.id = none := h
  unfold endCopy
  dsimp only
  rw [hs]

/-- The state of a COPY_IN whose bytes are in place, before its record (R94, R407). -/
def copiedIn (s : State) (f : Folio) (k : CopyOp) (data : Bytes) : State :=
  { updFolio (updMem s (fun m => m.store (f.tensorAt.getD k.tensor 0 + k.off) data)) k.folio
      (fun f => { f with scaleExp := f.scaleExp.filter (fun e => e.1 != k.tensor) }) with
    copies := s.copies.filter (fun x => x.id != k.id) }

theorem copyInDone_of_no_token {s : State} {f : Folio} {k : CopyOp} (data : Bytes) (hgrid : k.tokenGrid = noneIdx)
    (hshort : copyLong s k.id = none) : copyInDone s f k data = finish (copiedIn s f k data) k.cmd 0 0 0 0 := by
  unfold copyInDone
  dsimp only
  rw [if_pos hgrid, endCopy_of_short (by exact hshort)]
  rfl

/-- The state of a COPY_OUT whose bytes are in host memory, before its record. -/
def copiedOut (s : State) (f : Folio) (k : CopyOp) : State :=
  { updHost s s.parts[k.part].port (fun m => m.writeBytes k.hostAddr (s.mem.readBytes (f.tensorAt.getD k.tensor 0 + k.off) k.len)) with
    copies := s.copies.filter (fun x => x.id != k.id) }

/-- A range without a poisoned line is clean to its end. -/
theorem cleanPrefix_of_clean {m : Memory} {a n : Nat} (h : m.poisoned a n = false) : cleanPrefix m a n = n := by
  have hnone : m.poison.filter (fun l => decide (l * 64 < a + n) && decide (a < l * 64 + 64)) = [] := by
    rw [List.filter_eq_nil_iff]
    exact List.any_eq_false.mp h
  rw [cleanPrefix, hnone]
  rfl

theorem copyOutDone_of_clean {s : State} {f : Folio} {k : CopyOp} (hclean : s.mem.poisoned (f.tensorAt.getD k.tensor 0 + k.off) k.len = false)
    (hshort : copyLong s k.id = none) : copyOutDone s f k = finish (copiedOut s f k) k.cmd 0 0 0 0 := by
  unfold copyOutDone
  dsimp only
  rw [hclean, if_neg Bool.false_ne_true, cleanPrefix_of_clean hclean, endCopy_of_short (by exact hshort)]
  rfl

/-- A write to host memory leaves the ports' registers. -/
theorem updHost_registers (s : State) (q : Port) (g : Memory → Memory) (p : Port) :
    portPosts (updHost s q g) p = portPosts s p ∧ (updHost s q g).ports[p].msix = s.ports[p].msix := by
  unfold portPosts
  rw [updHost_port]
  by_cases h : p = q
  · simp [h]
  · simp [h]

theorem updHost_writeBytes_memOk {s : State} (h : s.memOk) (q : Port) (a : Nat) (b : Bytes) :
    (updHost s q (fun m => m.writeBytes a b)).memOk :=
  (updHost_keeps (Keeps.refl (b := true) s) _ _ (fun m hm => Memory.writeBytes_wf b m a hm)).mem h

/-- A byte of a stretch written to host memory. -/
theorem updHost_writeBytes_read {s : State} (h : s.memOk) {p q : Port} (hp : p = q) (a : Nat) (b : Bytes) {i : Nat} (hi : i < b.length) :
    (updHost s q (fun m => m.writeBytes a b)).ports[p].host.read (a + i) = b.getD i 0#8 := by
  rw [updHost_host, if_pos hp, Memory.read_writeBytes _ _ _ _ (h.2 p), if_pos ⟨Nat.le_add_right _ _, Nat.add_lt_add_left hi a⟩,
    Nat.add_sub_cancel_left]

/-- The end of a COPY_IN that signals no token. -/
theorem copyIn_completes {s : State} {f : Folio} {k : CopyOp} {c : Cmd} {data : Bytes} (hmem : s.memOk) (hquiet : quietFor s c)
    (hlen : data.length = k.len) :
    let a := f.tensorAt.getD k.tensor 0 + k.off
    let t := finish (copiedIn s f k data) c.uid 0 0 0 0
    finishedAs s t c 0 0 0 0 ∧ t.copies = s.copies.filter (fun x => x.id != k.id) ∧
      (∀ i, i < k.len → t.mem.read (a + i) = data.getD i 0#8) ∧ (∀ x, x < a ∨ a + k.len ≤ x → t.mem.read x = s.mem.read x) ∧
      posts { s with mem := t.mem, folios := t.folios, copies := t.copies } t := by
  intro a t
  obtain ⟨hfinal, hposts⟩ := finish_from hquiet (u := copiedIn s f k data) rfl (fun _ => rfl) rfl 0 0 0 0
  unfold posts at hposts
  have hread : t.mem = s.mem.store a data := by rw [show t = _ from hposts]; rfl
  refine ⟨hfinal, by rw [show t = _ from hposts]; rfl, fun i hi => ?_, fun x hx => ?_, ?_⟩
  · rw [hread, Memory.read_store_at hmem.1 a data (hlen ▸ hi)]
  · rw [hread, Memory.read_store_outside hmem.1 a data (hlen ▸ hx)]
  · unfold posts
    rw [show t = _ from hposts]
    rfl

/-- The end of a COPY_OUT of a range without a poisoned line. -/
theorem copyOut_completes {s : State} {f : Folio} {k : CopyOp} {c : Cmd} (hmem : s.memOk) (hquiet : quietFor s c) (hpart : k.part = c.part) :
    let a := f.tensorAt.getD k.tensor 0 + k.off
    let t := finish (copiedOut s f k) c.uid 0 0 0 0
    finishedAs s t c 0 0 0 0 ∧ t.copies = s.copies.filter (fun x => x.id != k.id) ∧ posts { s with copies := t.copies } t ∧
      ∀ i, i < k.len → ¬postsTo s c (k.hostAddr + i) → t.ports[s.parts[c.part].port].host.read (k.hostAddr + i) = s.mem.read (a + i) := by
  intro a t
  have hregisters := updHost_registers s s.parts[k.part].port (fun m => m.writeBytes k.hostAddr (s.mem.readBytes a k.len))
  obtain ⟨hfinal, hposts⟩ := finish_from hquiet (u := copiedOut s f k) rfl (fun p => (hregisters p).1) rfl 0 0 0 0
  unfold posts at hposts
  refine ⟨hfinal, by rw [show t = _ from hposts]; rfl, ?_, fun i hi hfar => ?_⟩
  · unfold posts
    rw [show t = _ from hposts]
    rfl
  · have hkept := finish_from_read hquiet (u := copiedOut s f k) rfl (fun p => (hregisters p).1) (fun p => (hregisters p).2) rfl
      (updHost_writeBytes_memOk hmem _ _ _) 0 0 0 0 s.parts[c.part].port (k.hostAddr + i) hfar
    have hi' : i < (s.mem.readBytes a k.len).length := by rwa [Memory.length_readBytes]
    calc t.ports[s.parts[c.part].port].host.read (k.hostAddr + i)
        = (copiedOut s f k).ports[s.parts[c.part].port].host.read (k.hostAddr + i) := hkept
      _ = (s.mem.readBytes a k.len).getD i 0#8 := updHost_writeBytes_read hmem (by simp only [hpart]) _ _ hi'
      _ = s.mem.read (a + i) := by rw [List.getD_eq_getElem _ _ hi', Memory.getElem_readBytes]

/-- Settles O19: a short copy by its direction. -/
theorem copiesComplete : Obligations.CopiesComplete := by
  intro s id data k f c hmem hquiet hcmd hmoving hon hshort a
  have hexec := exec_copyComplete_of_moving data hmoving hon
  constructor
  · intro hin hgrid hlen
    refine ⟨_, ?_, copyIn_completes hmem hquiet hlen⟩
    rw [hexec, if_pos hin, if_pos hlen, copyInDone_of_no_token data hgrid hshort, hcmd]
  · intro hout hclean hpart
    refine ⟨_, ?_, copyOut_completes hmem hquiet hpart⟩
    rw [hexec, hout, if_neg Bool.false_ne_true, copyOutDone_of_clean hclean hshort, hcmd]

/-! ### The start of a RUN or STEP -/

theorem exec_jobStart_of_mayStart {s : State} {h : Handle} {o : LongOp} {r : Run} (hr : runOf s h = some (o, r)) (hm : mayStart s o r = true) :
    exec (.jobStart h) s = .next (beginRun s o r) := by
  have hx : exec (.jobStart h) s = execJobStart h s := rfl
  rw [hx, execJobStart, hr]
  dsimp only
  rw [if_pos hm]

/-- The operation and the body that a run stands for. -/
theorem runOf_eq_some {s : State} {h : Handle} {o : LongOp} {r : Run} (hr : runOf s h = some (o, r)) :
    longOf s h = some o ∧ o.body = .run r := by
  unfold runOf at hr
  split at hr
  · cases hr
  · next o' ho =>
    split at hr
    · next r' hb =>
      cases hr
      exact ⟨ho, hb⟩
    · cases hr

/-- The sequencers of a list of quadrants set alike. -/
theorem foldl_updSeq_seqs (x : Sequencer) (q : Quad) : ∀ (l : List Quad) (s : State),
    (l.foldl (fun s q => updSeq s q (fun _ => x)) s).seqs[q] = if q ∈ l then x else s.seqs[q]
  | [], s => by simp
  | y :: l, s => by
    have hy : (updSeq s y (fun _ => x)).seqs[q] = if q = y then x else s.seqs[q] := by
      by_cases h : q = y
      · subst h
        simp
      · have hv : (y : Nat) ≠ (q : Nat) := fun e => h (Fin.ext e.symm)
        simp [h, hv]
    rw [List.foldl_cons, foldl_updSeq_seqs x q l, hy]
    by_cases hl : q ∈ l
    · simp [hl]
    · simp [hl]

theorem foldl_updSeq_frame (x : Sequencer) : ∀ (l : List Quad) (s : State),
    l.foldl (fun s q => updSeq s q (fun _ => x)) s = { s with seqs := (l.foldl (fun s q => updSeq s q (fun _ => x)) s).seqs }
  | [], _ => rfl
  | y :: l, s => foldl_updSeq_frame x l (updSeq s y (fun _ => x))

/-- The step that a run begins with. -/
def startStep (s : State) (r : Run) : Nat :=
  match folioOf s r.folio with
  | some f => f.jobStep
  | none => 0

/-- A run that has begun, before it takes its quadrants: the debug writes that its folio held are dropped (R166). -/
def runBegun (s : State) (o : LongOp) (r : Run) : State :=
  updRun (updLong (match folioOf s r.folio with | some f => dropWrites s f | none => s) o.handle
    (fun o => { o with state := .running, began := true })) o.handle (fun x => { x with firstStep := startStep s r })

theorem beginRun_eq (s : State) (o : LongOp) (r : Run) :
    beginRun s o r =
      r.quads.foldl (fun s q => updSeq s q (fun _ => { Sequencer.reset with state := .opening, owner := some o.handle })) (runBegun s o r) :=
  rfl

theorem runBegun_frame (s : State) (o : LongOp) (r : Run) :
    runBegun s o r = { s with longs := (runBegun s o r).longs, debugWrites := (runBegun s o r).debugWrites } := by
  unfold runBegun
  split <;> rfl

theorem longOf_runBegun {s : State} {o : LongOp} {r : Run} (ho : longOf s o.handle = some o) (hb : o.body = .run r) :
    longOf (runBegun s o r) o.handle =
      some { o with state := .running, began := true, body := .run { r with firstStep := startStep s r } } := by
  have hdrop : longOf (match folioOf s r.folio with | some f => dropWrites s f | none => s) o.handle = some o := by
    split <;> exact ho
  exact updRun_longOf _ (updLong_longOf (fun o => { o with state := .running, began := true }) (fun _ => rfl) hdrop) hb

/-- Settles O20: the run begins, then takes its quadrants one after another. -/
theorem jobStartTakesItsQuadrants : Obligations.JobStartTakesItsQuadrants := by
  intro s h o r hr hm
  obtain ⟨ho, hb⟩ := runOf_eq_some hr
  obtain rfl : o.handle = h := longOf_handle ho
  have hframe := foldl_updSeq_frame { Sequencer.reset with state := .opening, owner := some o.handle } r.quads (runBegun s o r)
  rw [← beginRun_eq] at hframe
  have hseqs : (runBegun s o r).seqs = s.seqs := by rw [runBegun_frame]
  refine ⟨beginRun s o r, { r with firstStep := startStep s r }, exec_jobStart_of_mayStart hr hm, fun q hq => ?_, fun q hq => ?_, ?_, ?_⟩
  · rw [beginRun_eq, foldl_updSeq_seqs, if_pos hq]
  · rw [beginRun_eq, foldl_updSeq_seqs, if_neg hq, hseqs]
  · refine runOf_some ?_ rfl
    rw [hframe]
    exact longOf_runBegun ho hb
  · rw [hframe, runBegun_frame]

end Sys2Proof.Machine
end

section
/-! SUPPORT. SUSPEND, RESUME and CANCEL by the state of their target (R405, R406, R412, R177). -/

namespace Sys2Proof.Machine

/-! ### The command and its target -/

theorem onTarget_of_found {s : State} {c : Cmd} {o : LongOp} (f : State → Nat → LongOp → State)
    (h : s.longs.find? (fun x => x.handle == descHandle c.desc 8 && x.part == c.part) = some o) :
    onTarget s c f = f (begun s c.uid) c.uid o := by
  rw [onTarget, h]

section
variable {s : State} {p : Part} {q : Fin 16} {c : Cmd} {o : LongOp}
  (h : s.longs.find? (fun x => x.handle == descHandle c.desc 8 && x.part == c.part) = some o)
include h

theorem exec_suspend_of_found (hs : startable s p q 0x30 = some c) :
    exec (.suspend p q) s = .next (suspendTarget (begun s c.uid) c.uid o) := by
  have hx : exec (.suspend p q) s = execSuspend p q s := rfl
  rw [hx, execSuspend, hs]
  exact congrArg _ (onTarget_of_found suspendTarget h)

theorem exec_resume_of_found (hs : startable s p q 0x31 = some c) :
    exec (.resume p q) s = .next (resumeTarget (begun s c.uid) c.uid o) := by
  have hx : exec (.resume p q) s = execResume p q s := rfl
  rw [hx, execResume, hs]
  exact congrArg _ (onTarget_of_found resumeTarget h)

theorem exec_cancel_of_found (hs : startable s p q 0x32 = some c) :
    exec (.cancel p q) s = .next (cancelTarget (begun s c.uid) c.uid o) := by
  have hx : exec (.cancel p q) s = execCancel p q s := rfl
  rw [hx, execCancel, hs]
  exact congrArg _ (onTarget_of_found cancelTarget h)

end

/-! ### A RUN with an open stroke -/

/-- The latest stroke that one of a run's quadrants has opened. -/
def latestOpened (s : State) (r : Run) : Nat := (r.quads.map (fun q => s.seqs[q].opened)).foldl max 0

theorem stopAtNext_of_going {s : State} {h : Handle} {o : LongOp} {r : Run} (ho : longOf s h = some o) (hb : o.body = .run r)
    (hr : r.stopAfter = none) : stopAtNext s h = updRun s h (fun x => { x with stopAfter := some (latestOpened s r) }) := by
  rw [stopAtNext, runOf_some ho hb]
  dsimp only
  rw [hr]
  rfl

/-- A run whose safe point is a stroke that one of its quadrants has not closed is not there yet (R177). -/
theorem atSafePoint_of_open {s : State} {r : Run} {n : Nat} (h : ∃ q ∈ r.quads, s.seqs[q].closed < n) :
    atSafePoint s { r with stopAfter := some n } = false := by
  obtain ⟨q, hq, hlt⟩ := h
  exact List.all_eq_false.mpr ⟨q, hq, by simpa using hlt⟩

/-- A RUN with an open stroke gets its safe point and waits for it; only its quadrants that are there already are held. -/
theorem reachSafePoint_of_open {s : State} {h : Handle} {o : LongOp} {r : Run} (ho : longOf s h = some o) (hb : o.body = .run r)
    (hr : r.stopAfter = none) (hopen : ∃ q ∈ r.quads, s.seqs[q].closed < latestOpened s r) :
    let t := reachSafePoint (stopAtNext s h) h
    longOf t h = some { o with body := .run { r with stopAfter := some (latestOpened s r) } } ∧
      t = { s with longs := t.longs, seqs := t.seqs } := by
  rw [stopAtNext_of_going ho hb hr]
  have hlong := updRun_longOf (fun x => { x with stopAfter := some (latestOpened s r) }) ho hb
  have hrun := runOf_some hlong rfl
  have hsafe : atSafePoint (updRun s h (fun x => { x with stopAfter := some (latestOpened s r) }))
      { r with stopAfter := some (latestOpened s r) } = false := atSafePoint_of_open hopen
  unfold reachSafePoint
  rw [hrun]
  dsimp only
  rw [hsafe, if_pos (by decide), holdQuads, hrun]
  exact ⟨hlong, rfl⟩

/-! ### SUSPEND -/

theorem suspendTarget_of_refused {s : State} {uid : Nat} {o : LongOp}
    (h : o.body.suspendable = false ∨ o.state = .cancelling ∨ o.state.isOver = true) : suspendTarget s uid o = finish s uid 0x12 0 0 0 := by
  unfold suspendTarget
  cases hb : o.body.suspendable with
  | false => rfl
  | true =>
    rw [hb] at h
    cases hs : o.state with
    | cancelling | done | cancelled | failed => rfl
    | queued | running | suspended =>
      rw [hs] at h
      exact absurd h (by decide)

theorem suspendTarget_of_suspended {s : State} {uid : Nat} {o : LongOp} (hb : o.body.suspendable = true) (h : o.state = .suspended) :
    suspendTarget s uid o = finish s uid 0 0 0 0 := by
  rw [suspendTarget, hb, h]
  rfl

theorem suspendTarget_of_ready {s : State} {uid : Nat} {o : LongOp} (hb : o.body.suspendable = true)
    (h : o.state = .queued ∨ (o.state = .running ∧ ∃ k, o.body = .copy k)) : suspendTarget s uid o = suspendNow s o.handle uid := by
  rw [suspendTarget, hb]
  obtain hq | ⟨hr, k, hk⟩ := h
  · rw [hq]
    rfl
  · rw [hr, hk]
    rfl

theorem suspendTarget_of_run {s : State} {uid : Nat} {o : LongOp} {r : Run} (h : o.state = .running) (hb : o.body = .run r) :
    suspendTarget s uid o =
      reachSafePoint (stopAtNext (updLong s o.handle (fun o => { o with suspends := o.suspends ++ [uid] })) o.handle) o.handle := by
  rw [suspendTarget, h, hb]
  rfl

theorem admitted_of_posts {s u t : State} (hu : u = { s with longs := u.longs }) (h : posts u t) : admitted s t := by
  unfold posts at h
  unfold admitted
  rw [h, hu]

/-- A target suspended at once: its state, and the frame of the two records. -/
theorem suspendNow_target {s : State} {o : LongOp} (uid : Nat) (ho : longOf s o.handle = some o) :
    longOf (suspendNow s o.handle uid) o.handle = some { o with state := .suspended, lastStatus := 2 } ∧
      admitted s (suspendNow s o.handle uid) := by
  have hstate := updLong_longOf (fun o => { o with state := .suspended }) (fun _ => rfl) ho
  have hrecord := longRecord_posts hstate 2 2 0 0 0 none none
  have hfinish := finishAfter_posts (longRecord (updLong s o.handle (fun o => { o with state := .suspended })) o.handle 2 2 0 0 0 none none)
    uid 0 0 0 0 (some s.nextUid)
  constructor
  · exact (hfinish.longOf_eq _).trans ((hrecord.longOf_eq _).trans
      (updLong_longOf (fun o => { o with lastStatus := BitVec.ofNat 8 2 }) (fun _ => rfl) hstate))
  · exact admitted_of_posts rfl (hrecord.trans hfinish)

/-! ### RESUME -/

theorem resumeTarget_of_refused {s : State} {uid : Nat} {o : LongOp}
    (h : o.body.suspendable = false ∨ (o.state ≠ .suspended ∧ (o.state = .running → o.suspends = []))) :
    resumeTarget s uid o = finish s uid 0x12 0 0 0 := by
  unfold resumeTarget
  cases hb : o.body.suspendable with
  | false => rfl
  | true =>
    obtain hf | ⟨hne, hnone⟩ := h
    · rw [hb] at hf
      cases hf
    · cases hs : o.state with
      | queued | cancelling | done | cancelled | failed => rfl
      | suspended => exact absurd hs hne
      | running =>
        rw [hnone hs]
        rfl

/-- A suspended target set going: its state, its run's holds lifted, and its quadrants that were held. -/
def setGoing (s : State) (o : LongOp) : State :=
  goOn (updLong s o.handle (fun o => { o with state := if o.began then .running else .queued })) o.handle

theorem setGoing_seqs (s : State) (o : LongOp) (q : Quad) : (setGoing s o).seqs[q] =
    if s.seqs[q].owner == some o.handle && s.seqs[q].state == .held then { s.seqs[q] with state := .opening, cause := 0 } else s.seqs[q] := by
  show (s.seqs.map _)[q] = _
  simp

theorem setGoing_frame (s : State) (o : LongOp) :
    setGoing s o = { s with longs := (setGoing s o).longs, seqs := (setGoing s o).seqs } := rfl

theorem resumeThreads_frame (s : State) (h : Handle) : resumeThreads s h = { s with threads := (resumeThreads s h).threads } := rfl

theorem longOf_setGoing_copy {s : State} {o : LongOp} {k : CopyOp} (ho : longOf s o.handle = some o) (hb : o.body = .copy k) :
    longOf (setGoing s o) o.handle = some { o with state := if o.began then .running else .queued } := by
  have hstate := updLong_longOf (fun o => { o with state := if o.began then .running else .queued }) (fun _ => rfl) ho
  refine (updLong_longOf _ (fun x => by split <;> rfl) hstate).trans ?_
  rw [hb]

theorem longOf_setGoing_run {s : State} {o : LongOp} {r : Run} (ho : longOf s o.handle = some o) (hb : o.body = .run r) :
    longOf (setGoing s o) o.handle =
      some { o with state := if o.began then .running else .queued, body := .run { r with stopAfter := none, backlogStop := false } } :=
  updRun_longOf _ (updLong_longOf (fun o => { o with state := if o.began then .running else .queued }) (fun _ => rfl) ho) hb

/-- Without a held debug write there is none to apply (R166). -/
theorem applyWrites_of_none {s : State} (f : Handle) (h : s.debugWrites = []) : applyWrites s f = s := by
  unfold applyWrites
  split
  · rfl
  · have hheld : ∀ f, heldWrites s f = [] := fun f => by rw [heldWrites, h]; rfl
    rw [hheld, dropWrites, h]
    show ({ s with debugWrites := [] } : State) = s
    rw [← h]

theorem endIfLast_of_copy {s : State} {h : Handle} {o : LongOp} {k : CopyOp} (ho : longOf s h = some o) (hb : o.body = .copy k) :
    endIfLast s h = s := by
  rw [endIfLast, runOf, ho]
  dsimp only
  rw [hb]

theorem endIfLast_of_more {s : State} {h : Handle} {o : LongOp} {r : Run} (ho : longOf s h = some o) (hb : o.body = .run r)
    (hr : r.lastDone = false) : endIfLast s h = s := by
  rw [endIfLast, runOf_some ho hb]
  dsimp only
  rw [hr, Bool.and_false, Bool.false_and, Bool.false_and, if_neg Bool.false_ne_true]

/-- RESUME of a suspended target, after the changes of the target and of the threads of a run. -/
theorem resumeTarget_of_suspended {s : State} {uid : Nat} {o : LongOp} (h : o.state = .suspended) (hb : o.body.suspendable = true) :
    resumeTarget s uid o = endIfLast (finish (match o.body with
      | .run r => resumeThreads (applyWrites (setGoing s o) r.folio) r.folio
      | _ => setGoing s o) uid 0 0 0 0) o.handle := by
  rw [resumeTarget, hb, h]
  rfl

theorem resumeTarget_of_copy {s : State} {uid : Nat} {o : LongOp} {k : CopyOp} (h : o.state = .suspended) (hb : o.body = .copy k)
    (ho : longOf s o.handle = some o) : resumeTarget s uid o = finish (setGoing s o) uid 0 0 0 0 := by
  rw [resumeTarget_of_suspended h (by rw [hb]; rfl), hb]
  exact endIfLast_of_copy (((finish_posts (setGoing s o) uid 0 0 0 0).longOf_eq _).trans (longOf_setGoing_copy ho hb)) hb

theorem resumeTarget_of_run {s : State} {uid : Nat} {o : LongOp} {r : Run} (h : o.state = .suspended) (hb : o.body = .run r)
    (ho : longOf s o.handle = some o) (hr : r.lastDone = false) (hw : s.debugWrites = []) :
    resumeTarget s uid o = finish (resumeThreads (setGoing s o) r.folio) uid 0 0 0 0 := by
  rw [resumeTarget_of_suspended h (by rw [hb]; rfl), hb]
  dsimp only
  rw [applyWrites_of_none r.folio (s := setGoing s o) hw]
  have hlong : longOf (resumeThreads (setGoing s o) r.folio) o.handle = _ := longOf_setGoing_run ho hb
  exact endIfLast_of_more (((finish_posts _ uid 0 0 0 0).longOf_eq _).trans hlong) rfl hr

/-! ### CANCEL -/

theorem cancelTarget_of_over {s : State} {uid : Nat} {o : LongOp} (h : o.state.isOver = true) :
    cancelTarget s uid o = finish s uid 0 0 o.state.code 0 := by
  unfold cancelTarget
  cases hs : o.state with
  | done | cancelled | failed => rfl
  | queued | running | suspended | cancelling =>
    rw [hs] at h
    cases h

theorem cancelTarget_of_cancelling {s : State} {uid : Nat} {o : LongOp} (h : o.state = .cancelling) :
    cancelTarget s uid o = updLong s o.handle (fun o => { o with cancels := o.cancels ++ [uid] }) := by
  rw [cancelTarget, h]

theorem cancelTarget_of_live {s : State} {uid : Nat} {o : LongOp} (h : o.state = .queued ∨ o.state = .running ∨ o.state = .suspended) :
    cancelTarget s uid o = cancelLive s (some uid) o := by
  unfold cancelTarget
  obtain h | h | h := h <;> rw [h]

theorem dropSuspends_of_none {s : State} {o : LongOp} (ho : longOf s o.handle = some o) (h : o.suspends = []) (status : Nat) :
    dropSuspends s o.handle status = updLong s o.handle (fun o => { o with suspends := [] }) := by
  rw [dropSuspends, ho]
  dsimp only
  rw [h]
  rfl

/-- The state in which an accepted CANCEL acts on a target that no SUSPEND waits for. -/
def cancelling (s : State) (uid : Nat) (o : LongOp) : State :=
  updLong (updLong s o.handle (fun o => { o with suspends := [] })) o.handle
    (fun o => { o with cancels := o.cancels ++ [uid], state := .cancelling })

theorem longOf_cancelling {s : State} {o : LongOp} (uid : Nat) (ho : longOf s o.handle = some o) (h : o.suspends = []) :
    longOf (cancelling s uid o) o.handle = some { o with state := .cancelling, cancels := o.cancels ++ [uid] } := by
  have hdropped := updLong_longOf (fun o => { o with suspends := [] }) (fun _ => rfl) ho
  refine (updLong_longOf (fun o => { o with cancels := o.cancels ++ [uid], state := .cancelling }) (fun _ => rfl) hdropped).trans ?_
  rw [← h]

theorem cancelLive_of_no_suspend {s : State} {uid : Nat} {o : LongOp} (ho : longOf s o.handle = some o) (h : o.suspends = []) :
    cancelLive s (some uid) o = cancelBody (cancelling s uid o) o := by
  rw [cancelLive, dropSuspends_of_none ho h]
  rfl

theorem cancelBody_of_not_begun {s : State} {o : LongOp} (hbegan : o.began = false)
    (hb : (∃ r, o.body = .run r) ∨ ∃ l, o.body = .load l) : cancelBody s o = endLong s o.handle .cancelled 1 0 0 0 := by
  obtain ⟨r, hb⟩ | ⟨l, hb⟩ := hb
  · rw [cancelBody, hb]
    dsimp only
    rw [hbegan, if_neg Bool.false_ne_true]
  · rw [cancelBody, hb]

theorem cancelBody_of_run {s : State} {o : LongOp} {r : Run} (hbegan : o.began = true) (hb : o.body = .run r) :
    cancelBody s o = reachSafePoint (stopAtNext s o.handle) o.handle := by
  rw [cancelBody, hb]
  dsimp only
  rw [if_pos hbegan]

/-- A CANCEL that ends its target at once (R405). -/
theorem endLong_cancelling {s : State} {o : LongOp} (uid : Nat) (ho : longOf s o.handle = some o) (hsilent : o.silent = false)
    (h : o.suspends = []) :
    longOf (endLong (cancelling s uid o) o.handle .cancelled 1 0 0 0) o.handle =
        some { o with state := .cancelled, lastStatus := 1, cancels := [] } ∧
      ends s (endLong (cancelling s uid o) o.handle .cancelled 1 0 0 0) := by
  obtain ⟨hends, hlong, -⟩ := endLong_ends (longOf_cancelling uid ho h) hsilent .cancelled 1 0 0 0
  refine ⟨hlong.trans ?_, ends.trans (t := cancelling s uid o) rfl hends⟩
  rw [← h]
  rfl

/-! ### The three commands -/

section
variable {s : State} {c : Cmd} {o : LongOp} (hquiet : quietFor s c) (ho : longOf s o.handle = some o)
include hquiet

/-- The target of a command that begins a run's wait for its safe point. -/
theorem waits_for_safePoint {u : State} {h : Handle} {o : LongOp} {r : Run} {n : Nat} (hu : u = { begun s c.uid with longs := u.longs })
    (ho : longOf u h = some o) (hb : o.body = .run r) (hr : r.stopAfter = none)
    (hn : n = (r.quads.map (fun q => s.seqs[q].opened)).foldl max 0) (hopen : ∃ q ∈ r.quads, s.seqs[q].closed < n) :
    let t := reachSafePoint (stopAtNext u h) h
    cmdOf t c.uid = some { c with started := true } ∧ longOf t h = some { o with body := .run { r with stopAfter := some n } } ∧
      t = { s with cmds := t.cmds, longs := t.longs, seqs := t.seqs } := by
  have hseqs : u.seqs = s.seqs := by rw [hu]; rfl
  have hlatest : latestOpened u r = n := by rw [latestOpened, hseqs, hn]
  obtain ⟨hlong, hframe⟩ := reachSafePoint_of_open ho hb hr (by rw [hlatest, hseqs]; exact hopen)
  rw [hlatest] at hlong
  refine ⟨?_, hlong, ?_⟩
  · rw [hframe, hu]
    exact begun_cmdOf hquiet.cmdOf_eq
  · rw [hframe, hu]
    rfl

include ho

theorem suspend_answers : let t := suspendTarget (begun s c.uid) c.uid o
    (o.body.suspendable = false ∨ o.state = .cancelling ∨ o.state.isOver = true → finishedAs s t c 0x12 0 0 0 ∧ posts s t) ∧
    (o.body.suspendable = true → o.state = .suspended → finishedAs s t c 0 0 0 0 ∧ posts s t) ∧
    (o.body.suspendable = true → o.state = .queued ∨ (o.state = .running ∧ ∃ k, o.body = .copy k) →
      longOf t o.handle = some { o with state := .suspended, lastStatus := 2 } ∧ admitted s t) := by
  refine ⟨fun h => ?_, fun hb h => ?_, fun hb h => ?_⟩
  · rw [suspendTarget_of_refused h]
    exact finish_here hquiet 0x12 0 0 0
  · rw [suspendTarget_of_suspended hb h]
    exact finish_here hquiet 0 0 0 0
  · rw [suspendTarget_of_ready hb h]
    exact suspendNow_target c.uid (s := begun s c.uid) ho

theorem resume_answers : let t := resumeTarget (begun s c.uid) c.uid o
    (o.body.suspendable = false ∨ (o.state ≠ .suspended ∧ (o.state = .running → o.suspends = [])) →
      finishedAs s t c 0x12 0 0 0 ∧ posts s t) ∧
    (∀ k, o.state = .suspended → o.body = .copy k → finishedAs s t c 0 0 0 0 ∧
      longOf t o.handle = some { o with state := if o.began then .running else .queued } ∧
      t = { s with parts := t.parts, ports := t.ports, cmds := t.cmds, nextUid := t.nextUid, longs := t.longs, seqs := t.seqs }) ∧
    (∀ r, o.state = .suspended → o.body = .run r → r.lastDone = false → s.debugWrites = [] → finishedAs s t c 0 0 0 0 ∧
      longOf t o.handle = some { o with state := if o.began then .running else .queued,
                                        body := .run { r with stopAfter := none, backlogStop := false } } ∧
      (∀ q : Quad, t.seqs[q] = if s.seqs[q].owner == some o.handle && s.seqs[q].state == .held then
        { s.seqs[q] with state := .opening, cause := 0 } else s.seqs[q]) ∧
      t = { s with parts := t.parts, ports := t.ports, cmds := t.cmds, nextUid := t.nextUid, longs := t.longs, seqs := t.seqs,
                   threads := t.threads }) := by
  refine ⟨fun h => ?_, fun k h hb => ?_, fun r h hb hr hw => ?_⟩
  · rw [resumeTarget_of_refused h]
    exact finish_here hquiet 0x12 0 0 0
  · rw [resumeTarget_of_copy (s := begun s c.uid) h hb ho]
    have hfinal := (finish_begun (u := setGoing (begun s c.uid) o) hquiet (by rw [setGoing_frame]; rfl)
      (portPosts_of_ports (by rw [setGoing_frame]; rfl)) (by rw [setGoing_frame]) 0 0 0 0).1
    have hposts := finish_posts (setGoing (begun s c.uid) o) c.uid 0 0 0 0
    refine ⟨hfinal, (hposts.longOf_eq _).trans (longOf_setGoing_copy (s := begun s c.uid) ho hb), ?_⟩
    unfold posts at hposts
    rw [hposts, setGoing_frame]
    rfl
  · rw [resumeTarget_of_run (s := begun s c.uid) h hb ho hr hw]
    have hfinal := (finish_begun (u := resumeThreads (setGoing (begun s c.uid) o) r.folio) hquiet
      (by rw [resumeThreads_frame, setGoing_frame]; rfl) (portPosts_of_ports (by rw [resumeThreads_frame, setGoing_frame]; rfl))
      (by rw [resumeThreads_frame, setGoing_frame]) 0 0 0 0).1
    have hposts := finish_posts (resumeThreads (setGoing (begun s c.uid) o) r.folio) c.uid 0 0 0 0
    have hlong : longOf (resumeThreads (setGoing (begun s c.uid) o) r.folio) o.handle = _ := longOf_setGoing_run (s := begun s c.uid) ho hb
    refine ⟨hfinal, (hposts.longOf_eq _).trans hlong, fun q => ?_, ?_⟩
    · rw [hposts.seqs_eq]
      exact setGoing_seqs (begun s c.uid) o q
    · unfold posts at hposts
      rw [hposts, resumeThreads_frame, setGoing_frame]
      rfl

theorem cancel_answers (hsilent : o.silent = false) : let t := cancelTarget (begun s c.uid) c.uid o
    (o.state.isOver = true → finishedAs s t c 0 0 o.state.code 0 ∧ posts s t) ∧
    (o.state = .cancelling → cmdOf t c.uid = some { c with started := true } ∧
      longOf t o.handle = some { o with cancels := o.cancels ++ [c.uid] } ∧ t = { s with cmds := t.cmds, longs := t.longs }) ∧
    (o.state = .queued ∨ o.state = .suspended → o.began = false → o.suspends = [] → (∃ r, o.body = .run r) ∨ (∃ l, o.body = .load l) →
      longOf t o.handle = some { o with state := .cancelled, lastStatus := 1, cancels := [] } ∧ ends s t) := by
  refine ⟨fun h => ?_, fun h => ?_, fun h hbegan hnone hb => ?_⟩
  · rw [cancelTarget_of_over h]
    exact finish_here hquiet 0 0 o.state.code 0
  · rw [cancelTarget_of_cancelling h]
    exact ⟨begun_cmdOf hquiet.cmdOf_eq, updLong_longOf (s := begun s c.uid) (fun o => { o with cancels := o.cancels ++ [c.uid] }) (fun _ => rfl) ho,
      rfl⟩
  · rw [cancelTarget_of_live (h.imp_right .inr), cancelLive_of_no_suspend (s := begun s c.uid) ho hnone, cancelBody_of_not_begun hbegan hb]
    exact endLong_cancelling (s := begun s c.uid) c.uid ho hsilent hnone

end

/-- Settles O21: each command by the state of its target; the waits for a safe point by `waits_for_safePoint`. -/
theorem targetsAnswerByTheirState : Obligations.TargetsAnswerByTheirState := by
  intro s p q c o hquiet hsilent ho hfind here open_
  refine ⟨fun hs => ?_, fun hs => ⟨_, exec_resume_of_found hfind hs, resume_answers hquiet ho⟩, fun hs => ?_⟩
  · obtain ⟨hrefused, hsuspended, hready⟩ := suspend_answers hquiet ho
    refine ⟨_, exec_suspend_of_found hfind hs, hrefused, hsuspended, hready, fun r n h hb ⟨hr, hn, hopen⟩ => ?_⟩
    rw [suspendTarget_of_run h hb]
    have hasked := updLong_longOf (s := begun s c.uid) (fun o => { o with suspends := o.suspends ++ [c.uid] }) (fun _ => rfl) ho
    exact waits_for_safePoint hquiet rfl hasked hb hr hn hopen
  · obtain ⟨hover, hcancelling, hended⟩ := cancel_answers hquiet ho hsilent
    refine ⟨_, exec_cancel_of_found hfind hs, hover, hcancelling, hended, fun r n h hbegan hnone hb ⟨hr, hn, hopen⟩ => ?_⟩
    rw [cancelTarget_of_live (.inr (.inl h)), cancelLive_of_no_suspend (s := begun s c.uid) ho hnone, cancelBody_of_run hbegan hb]
    exact waits_for_safePoint (u := cancelling (begun s c.uid) c.uid o) hquiet rfl
      (longOf_cancelling (s := begun s c.uid) c.uid ho hnone) hb hr hn hopen

end Sys2Proof.Machine
end

section
/-! SUPPORT. The admission of checkpoints (R367, R370, R371, R373), the ends of long operations that stand alone, and finalization
(R63 to R70, R409). -/

namespace Sys2Proof.Machine

/-! ### Folios updated in place -/

theorem any_updFirst {α : Type} {test P : α → Bool} {f : α → α} (hf : ∀ x, P (f x) = P x) : ∀ l : List α, (updFirst test f l).any P = l.any P
  | [] => rfl
  | y :: l => by
    unfold updFirst
    split
    · simp [hf]
    · simp [any_updFirst hf l]

@[simp] theorem length_updFirst {α : Type} (test : α → Bool) (f : α → α) : ∀ l : List α, (updFirst test f l).length = l.length
  | [] => rfl
  | y :: l => by
    unfold updFirst
    split
    · rfl
    · simp [length_updFirst test f l]

theorem handleUsed_updFolio (s : State) (h : Handle) {f : Folio → Folio} (hf : ∀ x, (f x).handle = x.handle) (x : Handle) :
    handleUsed (updFolio s h f) x = handleUsed s x := by
  unfold handleUsed updFolio
  dsimp only
  rw [any_updFirst (fun y => by rw [hf])]

/-- An update of a folio that keeps its handle changes no handle that is free. -/
theorem newHandle_updFolio (s : State) (h : Handle) {f : Folio → Folio} (hf : ∀ x, (f x).handle = x.handle) (p : Part) :
    (newHandle (updFolio s h f) p).1 = (newHandle s p).1 := by
  have hlen : (updFolio s h f).folios.length = s.folios.length := length_updFirst _ _ _
  unfold newHandle
  dsimp only
  rw [freeSeqFuel_of (handleUsed_updFolio s h hf), hlen]
  rfl

theorem admitsNext_updFolio {s : State} {c : Cmd} (h : admitsNext s c) (x : Handle) {f : Folio → Folio} (hf : ∀ y, (f y).handle = y.handle) :
    admitsNext (updFolio s x f) c := by
  obtain ⟨hquiet, hfree⟩ := h
  refine ⟨hquiet, ?_⟩
  rw [newHandle_updFolio s x hf, handleUsed_updFolio s x hf]
  exact hfree

/-! ### Checkpoints admitted -/

/-- The folio of a CHECKPOINT_WRITE with its areas, and its buddy store armed (R370). -/
def armedFolio (d : Bytes) (f : Folio) : Folio :=
  { f with ckptBytes := ckptAreas f, buddy := if u8 d 12 = 1 then some (armStore f d) else f.buddy }

section
variable {s : State} {p : Part} {q : Fin 16} {c : Cmd} {f : Folio}
  (hf : folioRef s p (descHandle c.desc 8) = .ok f) (hlen : u8 c.desc 12 = 2 → ckptSize f ≤ u64 c.desc 40)
  (hcut : u8 c.desc 12 = 1 → isDataCut f (u8 c.desc 13) = true)

include hlen in
theorem hostBuffer_holds : (decide (u8 c.desc 12 = 2) && decide (u64 c.desc 40 < ckptSize f)) = false := by
  by_cases h : u8 c.desc 12 = 2
  · rw [decide_eq_false (Nat.not_lt.mpr (hlen h)), Bool.and_false]
  · rw [decide_eq_false h, Bool.false_and]

include hcut in
theorem buddyCut_is_data : (u8 c.desc 12 == 1 && !isDataCut f (u8 c.desc 13)) = false := by
  by_cases h : u8 c.desc 12 = 1
  · rw [hcut h, Bool.not_true, Bool.and_false]
  · rw [beq_false_of_ne h, Bool.false_and]

include hf hlen hcut

theorem exec_checkpointWrite_admits (hs : startable s p q 0x40 = some c) (hstep : stepPassed s f (u64 c.desc 24) = false)
    (hnone : writeInFlight s p = false) (hroom : ckptRoom s f = true) : exec (.checkpointWrite p q) s = .next (admitWrite s c f) := by
  have hx : exec (.checkpointWrite p q) s = execCheckpointWrite p q s := rfl
  rw [hx, execCheckpointWrite, hs]
  dsimp only
  rw [hf]
  dsimp only
  rw [hostBuffer_holds hlen, hstep, buddyCut_is_data hcut, hnone, hroom]
  rfl

theorem exec_checkpointRead_admits (hs : startable s p q 0x41 = some c) (hrun : hasRun s f.handle = false) (hrole : roleCurrent s p = true) :
    exec (.checkpointRead p q) s = .next (admitRead s c f) := by
  have hx : exec (.checkpointRead p q) s = execCheckpointRead p q s := rfl
  rw [hx, execCheckpointRead, hs]
  dsimp only
  rw [hf]
  dsimp only
  rw [hostBuffer_holds hlen, hrun, hrole, buddyCut_is_data hcut]
  rfl

end

/-- The state after a CHECKPOINT_WRITE is admitted, before the credit for the buddy's source. -/
def writeAdmitted (s : State) (c : Cmd) (f : Folio) : State :=
  (admitLong (updFolio s f.handle (armedFolio c.desc)) c (ckptSize f) (.ckpt (newCkpt f c.desc true))).2

theorem writeAdmitted_accepted {s : State} {c : Cmd} {f : Folio} (h : admitsNext s c) :
    let u := writeAdmitted s c f
    acceptedAs s u c (ckptSize f) (.ckpt (newCkpt f c.desc true)) false ∧ admitted { s with folios := u.folios } u ∧
      u.folios = updFirst (fun o => o.handle == f.handle) (armedFolio c.desc) s.folios := by
  intro u
  have hhandle := newHandle_updFolio s f.handle (f := armedFolio c.desc) (fun _ => rfl) c.part
  obtain ⟨hquiet, hfree⟩ := admitsNext_updFolio h f.handle (f := armedFolio c.desc) (fun _ => rfl)
  obtain ⟨⟨hlongs, hrecord, hcmd⟩, -, hframe⟩ := admit_quiet hquiet hfree (ckptSize f) (.ckpt (newCkpt f c.desc true))
  rw [hhandle] at hlongs hrecord hcmd
  have hu : u = (admitLong (updFolio s f.handle (armedFolio c.desc)) c (ckptSize f) (.ckpt (newCkpt f c.desc true))).2 := rfl
  rw [← hu] at hframe
  unfold admitted at hframe
  refine ⟨⟨hlongs, hrecord, hcmd⟩, ?_, by rw [hframe]; rfl⟩
  unfold admitted
  rw [hframe]
  rfl

/-- The state after a CHECKPOINT_READ is admitted and runs, before it asks a buddy. -/
def readAdmitted (s : State) (c : Cmd) (f : Folio) : State :=
  let r := admitLong s c (ckptSize f) (.ckpt (newCkpt f c.desc false))
  updLong r.2 r.1 (fun o => { o with state := .running, began := true })

theorem readAdmitted_accepted {s : State} {c : Cmd} (f : Folio) (h : admitsNext s c) :
    acceptedAs s (readAdmitted s c f) c (ckptSize f) (.ckpt (newCkpt f c.desc false)) true ∧ admitted s (readAdmitted s c f) := by
  obtain ⟨hquiet, hfree⟩ := h
  obtain ⟨haccepted, hsame, hframe⟩ := admit_quiet hquiet hfree (ckptSize f) (.ckpt (newCkpt f c.desc false))
  unfold readAdmitted
  dsimp only
  rw [hsame]
  refine ⟨accepted_runs haccepted hfree, ?_⟩
  unfold admitted at hframe ⊢
  rw [hframe]
  rfl

/-- Settles O22: the checks pass, the operation is admitted, and a buddy is sent its message. -/
theorem checkpointsAreAdmitted : Obligations.CheckpointsAreAdmitted := by
  intro s p q c f hnext hf hlen hcut asks
  constructor
  · intro hstart hstep hnone hroom
    obtain ⟨haccepted, hframe, hfolios⟩ := writeAdmitted_accepted (f := f) hnext
    exact ⟨_, writeAdmitted s c f, exec_checkpointWrite_admits hf hlen hcut hstart hstep hnone hroom, rfl, haccepted, hframe, hfolios⟩
  · intro hstart hrun hrole
    obtain ⟨haccepted, hframe⟩ := readAdmitted_accepted f hnext
    exact ⟨_, readAdmitted s c f, exec_checkpointRead_admits hf hlen hcut hstart hrun hrole, rfl, haccepted, hframe⟩

/-! ### The end of an operation that stands alone -/

theorem standsFor.longOf_eq {s : State} {o : LongOp} {c : Cmd} (h : standsFor s o c) : longOf s o.handle = some o := h.2.2.1

/-- A long operation that ends as it stands. -/
theorem endLong_standing {s u : State} {o : LongOp} {c : Cmd} (h : standsFor s o c) (hp : u.parts = s.parts) (hc : u.cmds = s.cmds)
    (hk : ∀ p : Port, portPosts u p = portPosts s p) (hl : longOf u o.handle = some o) (st : LongState) (status reason d0 d1 : Nat) :
    endedAs s (endLong u o.handle st status reason d0 d1) o c st status reason d0 d1 ∧
      ends u (endLong u o.handle st status reason d0 d1) := by
  obtain ⟨-, -, -, hsilent, hsuspends, hcancels⟩ := id h
  obtain ⟨hlong, hfinal, hends⟩ := endLong_quiet (f := id) h hp hc hk hl ⟨rfl, hsilent, hsuspends, hcancels⟩ st status reason d0 d1
  exact ⟨⟨hlong, hfinal⟩, hends⟩

/-- A long operation with all its units done. -/
def wholly (o : LongOp) : LongOp := { o with doneUnits := o.totalUnits }

theorem longOf_wholly {u : State} {h : Handle} {o : LongOp} (hl : longOf u h = some o) : longOf (updLong u h wholly) h = some (wholly o) :=
  updLong_longOf wholly (fun _ => rfl) hl

section
variable {s u : State} {o : LongOp} {c : Cmd} (h : standsFor s o c) (hp : u.parts = s.parts) (hc : u.cmds = s.cmds)
  (hk : ∀ p : Port, portPosts u p = portPosts s p) (hl : longOf u o.handle = some o)
include h hp hc hk hl

/-- A long operation that completes OK with all its units. -/
theorem completes_wholly : let t := endLong (updLong u o.handle wholly) o.handle .done 0 0 0 0
    longOf t o.handle = some { o with state := .done, lastStatus := 0, doneUnits := o.totalUnits } ∧ finishedAs s t c 0 0 0 0 ∧ ends u t := by
  obtain ⟨-, -, -, hsilent, hsuspends, hcancels⟩ := id h
  obtain ⟨hlong, hfinal, hends⟩ := endLong_quiet (u := updLong u o.handle wholly) (f := wholly) h hp hc hk (longOf_wholly hl)
    ⟨rfl, hsilent, hsuspends, hcancels⟩ .done 0 0 0 0
  exact ⟨hlong, hfinal, (updLong_ends u o.handle wholly).trans hends⟩

/-- Host memory after it, but for the record and its message. -/
theorem completes_wholly_read (hx : ∀ p : Port, u.ports[p].msix = s.ports[p].msix) (hm : u.memOk) (q : Port) {a : Nat}
    (ha : ¬postsTo s c a) :
    (endLong (updLong u o.handle wholly) o.handle .done 0 0 0 0).ports[q].host.read a = u.ports[q].host.read a := by
  obtain ⟨-, -, -, hsilent, hsuspends, hcancels⟩ := id h
  exact endLong_quiet_read (u := updLong u o.handle wholly) (f := wholly) h hp hc hk hx hm (longOf_wholly hl)
    ⟨rfl, hsilent, hsuspends, hcancels⟩ .done 0 0 0 0 q a ha

end

/-! ### Finalization -/

theorem loadOf_of_body {s : State} {h : Handle} {o : LongOp} {l : LoadOp} (ho : longOf s h = some o) (hb : o.body = .load l) :
    loadOf s h = some (o, l) := by
  rw [loadOf, ho]
  dsimp only
  rw [hb]

section
variable {s : State} {o : LongOp} {l : LoadOp} (ho : longOf s o.handle = some o) (hb : o.body = .load l) (hlive : s.live = true)
include ho hb hlive

theorem exec_finalizationStart_of_room (image : Bytes) (hq : o.state = .queued)
    (hfew : loadsLive s (fun o => o.state == .running || o.state == .cancelling) < 2)
    (hroom : carveUsed s o.part + roundUp l.len 64 ≤ carveBytes s o.part) :
    exec (.finalizationStart o.handle image) s = .next (updLong s o.handle (fun o =>
      { o with state := .running, began := true,
               body := .load { l with staged := some (slice image 0 l.len), sampled := some (sampleOf s o.part) } })) := by
  have hx : exec (.finalizationStart o.handle image) s = execFinalizationStart o.handle image s := rfl
  rw [hx, execFinalizationStart, loadOf_of_body ho hb]
  dsimp only
  rw [hlive, hq, decide_eq_true hfew, if_pos (by decide), startLoad, if_neg (Nat.not_lt.mpr hroom)]

theorem exec_finalizationComplete_of_running (hr : o.state = .running) :
    exec (.finalizationComplete o.handle) s = .next (completeLoad s o l) := by
  have hx : exec (.finalizationComplete o.handle) s = execFinalizationComplete o.handle s := rfl
  rw [hx, execFinalizationComplete, loadOf_of_body ho hb]
  dsimp only
  rw [hlive, hr, if_pos (by decide)]

theorem exec_finalizationTimeout_of_running (hr : o.state = .running) :
    exec (.finalizationTimeout o.handle) s = .next (rejectLoad s o ⟨0x50, noneIdx, noneIdx⟩) := by
  have hx : exec (.finalizationTimeout o.handle) s = execFinalizationTimeout o.handle s := rfl
  rw [hx, execFinalizationTimeout, loadOf_of_body ho hb]
  dsimp only
  rw [hlive, hr, if_pos (by decide)]

end

section
variable {s : State} {o : LongOp} {l : LoadOp} {img : Bytes} {smp : LoadSample} (hi : l.staged = some img) (hsmp : l.sampled = some smp)
include hi hsmp

theorem completeLoad_of_flaw {w : Flaw} (h : loadFlaw s o.part (loadEnv l img smp) = some w) : completeLoad s o l = rejectLoad s o w := by
  rw [completeLoad, hi, hsmp]
  dsimp only
  rw [h]

theorem completeLoad_of_room (h : loadFlaw s o.part (loadEnv l img smp) = none) (hroom : loadRoom s o.part = true) :
    completeLoad s o l = installFolio s o l (loadEnv l img smp) := by
  rw [completeLoad, hi, hsmp]
  dsimp only
  rw [h]
  dsimp only
  rw [if_pos hroom]

theorem completeLoad_of_full (h : loadFlaw s o.part (loadEnv l img smp) = none) (hfull : loadRoom s o.part = false) :
    completeLoad s o l = endLong s o.handle .failed 0x13 0 0 0 := by
  rw [completeLoad, hi, hsmp]
  dsimp only
  rw [h]
  dsimp only
  rw [if_neg (ne_true_of_eq_false hfull)]

end

/-- A load rejected: its FINAL record, and the record of the blotter (R70). -/
theorem rejectLoad_ends {s : State} {o : LongOp} {c : Cmd} (h : standsFor s o c) (f : Flaw) :
    let t := rejectLoad s o f
    endedAs s t o c .failed (if 0x100 ≤ f.reason then 0x21 else 0x20) f.reason f.sec f.entry ∧
      ends { s with blotter := t.blotter, telemetry := t.telemetry, fresh := s.fresh + 1 } t := by
  obtain ⟨b, tl, hnote⟩ := note_only (drawFree s).2 0x11 (unitScribe ((drawFree s).1 % 16)) (partStamp s o.part) f.reason f.sec f.entry
  unfold rejectLoad
  dsimp only
  rw [hnote]
  obtain ⟨hended, hends⟩ := endLong_standing (u := { (drawFree s).2 with blotter := b, telemetry := tl }) h rfl rfl (fun _ => rfl)
    h.longOf_eq .failed (if 0x100 ≤ f.reason then 0x21 else 0x20) f.reason f.sec f.entry
  refine ⟨hended, ?_⟩
  unfold ends at hends ⊢
  rw [hends]
  rfl

/-- The state with a folio installed: its tensors initialized and the token counters of its clusters zero (R63 step 11, R143). -/
def withFolio (s : State) (f : Folio) : State :=
  { s with folios := s.folios ++ [f], mem := initTensors s.mem f, tokens := s.tokens.filter (fun k => !f.allClusters.contains k.1.1) }

theorem withFolio_memOk {s : State} (hm : s.memOk) (f : Folio) : (withFolio s f).memOk := ⟨initTensors_wf f hm.1, hm.2⟩

/-- The state with a folio installed and its result in host memory, before the records (R63 step 12). -/
def installed (s : State) (o : LongOp) (l : LoadOp) (f : Folio) : State :=
  updHost (withFolio s f) s.parts[o.part].port (fun m => m.writeBytes l.resultAddr (loadResult f))

theorem installFolio_eq (s : State) (o : LongOp) (l : LoadOp) (e : LoadEnv) :
    let f := newFolio s o e
    ∃ b tl, installFolio s o l e =
      endLong (updLong { installed s o l f with blotter := b, telemetry := tl } o.handle wholly) o.handle .done 0 0 0 0 := by
  intro f
  obtain ⟨b, tl, hnote⟩ := note_only (installed s o l f) 0x10 (unitScribe 0) (partStamp s o.part) f.tables.toolchain o.handle.toNat 0
  refine ⟨b, tl, ?_⟩
  rw [← hnote]
  rfl

theorem installed_memOk {s : State} (hm : s.memOk) (o : LongOp) (l : LoadOp) (f : Folio) : (installed s o l f).memOk :=
  updHost_writeBytes_memOk (withFolio_memOk hm f) _ _ _

/-- A folio installed: the operation, the result in host memory, and the frame. -/
theorem installFolio_ends {s : State} {o : LongOp} {c : Cmd} (hm : s.memOk) (h : standsFor s o c) (l : LoadOp) (e : LoadEnv) :
    let f := newFolio s o e
    let t := installFolio s o l e
    t.folios = s.folios ++ [f] ∧ t.mem = initTensors s.mem f ∧
      longOf t o.handle = some { o with state := .done, lastStatus := 0, doneUnits := o.totalUnits } ∧ finishedAs s t c 0 0 0 0 ∧
      (∀ i, i < (loadResult f).length → ¬postsTo s c (l.resultAddr + i) →
        t.ports[s.parts[o.part].port].host.read (l.resultAddr + i) = (loadResult f).getD i 0#8) ∧
      ends { s with folios := t.folios, mem := t.mem, tokens := s.tokens.filter (fun k => !f.allClusters.contains k.1.1),
                    blotter := t.blotter, telemetry := t.telemetry } t := by
  intro f t
  obtain ⟨b, tl, ht⟩ := installFolio_eq s o l e
  have hregisters := updHost_registers (withFolio s f) s.parts[o.part].port (fun m => m.writeBytes l.resultAddr (loadResult f))
  obtain ⟨hlong, hfinal, hends⟩ := completes_wholly (u := { installed s o l f with blotter := b, telemetry := tl }) h rfl rfl
    (fun p => (hregisters p).1) h.longOf_eq
  rw [← ht] at hlong hfinal hends
  unfold ends at hends
  refine ⟨?_, ?_, hlong, hfinal, fun i hi hfar => ?_, ?_⟩
  · rw [show t = _ from hends]
    rfl
  · rw [show t = _ from hends]
    rfl
  · have hkept := completes_wholly_read (u := { installed s o l f with blotter := b, telemetry := tl }) h rfl rfl
      (fun p => (hregisters p).1) h.longOf_eq (fun p => (hregisters p).2) (installed_memOk hm o l f) s.parts[o.part].port hfar
    rw [← ht] at hkept
    exact hkept.trans (updHost_writeBytes_read (withFolio_memOk hm f) rfl _ _ hi)
  · unfold ends
    rw [show t = _ from hends]
    rfl

/-- Settles O23: a load by its step, and a complete one by its first flaw and the room that is left. -/
theorem loadsAreFinalized : Obligations.LoadsAreFinalized := by
  rintro s _ image o l c hmem hstands rfl hb hlive written
  have ho := hstands.longOf_eq
  refine ⟨fun hq hfew hroom => ?_, ?_, fun hr => ?_⟩
  · exact ⟨_, exec_finalizationStart_of_room ho hb hlive image hq hfew hroom, rfl, updLong_longOf
      (fun o => { o with state := .running, began := true,
                         body := .load { l with staged := some (slice image 0 l.len), sampled := some (sampleOf s o.part) } }) (fun _ => rfl) ho⟩
  · intro img smp hr hi hsmp e f
    have hexec := exec_finalizationComplete_of_running ho hb hlive hr
    refine ⟨fun hgood hfull => ?_, fun hgood hroom => ?_, fun w hw => ?_⟩
    · rw [completeLoad_of_full hi hsmp hgood hfull] at hexec
      exact ⟨_, hexec, endLong_standing hstands rfl rfl (fun _ => rfl) ho .failed 0x13 0 0 0⟩
    · rw [completeLoad_of_room hi hsmp hgood hroom] at hexec
      exact ⟨_, hexec, installFolio_ends hmem hstands l e⟩
    · rw [completeLoad_of_flaw hi hsmp hw] at hexec
      exact ⟨_, hexec, (rejectLoad_ends hstands w).symm⟩
  · exact ⟨_, exec_finalizationTimeout_of_running ho hb hlive hr, (rejectLoad_ends hstands ⟨0x50, noneIdx, noneIdx⟩).symm⟩

end Sys2Proof.Machine
end

section
/-! SUPPORT. The boundary of a checkpoint, its copy and its drain, and the restoring of an image (R368, R369, R372, R373, R477). -/

namespace Sys2Proof.Machine

/-! ### A checkpoint's operation -/

theorem ckptOf_of_body {s : State} {h : Handle} {o : LongOp} {k : CkptOp} (ho : longOf s h = some o) (hb : o.body = .ckpt k) :
    ckptOf s h = some (o, k) := by
  rw [ckptOf, ho]
  dsimp only
  rw [hb]

theorem updCkpt_longOf {s : State} {h : Handle} {o : LongOp} {k : CkptOp} (f : CkptOp → CkptOp) (ho : longOf s h = some o)
    (hb : o.body = .ckpt k) : longOf (updCkpt s h f) h = some { o with body := .ckpt (f k) } := by
  refine (updLong_longOf _ (fun x => by split <;> rfl) ho).trans ?_
  rw [hb]

theorem updCkpt_longOf_ne {s : State} {h h' : Handle} (f : CkptOp → CkptOp) (hne : h ≠ h') : longOf (updCkpt s h f) h' = longOf s h' :=
  updLong_longOf_ne _ (fun x => by split <;> rfl) hne

/-- An update of a run leaves an operation that is no run. -/
theorem updRun_longOf_ckpt {s : State} {h h' : Handle} {o : LongOp} {k : CkptOp} (f : Run → Run) (ho : longOf s h = some o)
    (hb : o.body = .ckpt k) : longOf (updRun s h' f) h = some o := by
  by_cases he : h' = h
  · subst he
    refine (updLong_longOf _ (fun x => by split <;> rfl) ho).trans ?_
    rw [hb]
  · rw [updRun_longOf_ne f he, ho]

theorem liveRunOf_body {s : State} {h : Handle} {ro : LongOp} {r : Run} (hr : liveRunOf s h = some (ro, r)) : ro.body = .run r := by
  unfold liveRunOf at hr
  obtain ⟨o, -, ho⟩ := List.exists_of_findSome?_eq_some hr
  split at ho
  · next r' hb =>
    split at ho
    · cases ho
      exact hb
    · cases ho
  · cases ho

/-! ### The image taken -/

theorem exec_checkpointBoundary_of_ready {s : State} {o : LongOp} {k : CkptOp} {f : Folio} (ho : longOf s o.handle = some o)
    (hb : o.body = .ckpt k) (hf : folioOf s k.folio = some f) (hr : ckptReady s o k f = true) :
    exec (.checkpointBoundary o.handle) s = .next (takeImage s o f) := by
  have hx : exec (.checkpointBoundary o.handle) s = execCheckpointBoundary o.handle s := rfl
  rw [hx, execCheckpointBoundary, ckptOf_of_body ho hb]
  dsimp only
  rw [hf]
  dsimp only
  rw [if_pos hr]

/-- The checkpoint copies its image, before its folio's run is held. -/
def imageTaken (s : State) (o : LongOp) (f : Folio) : State :=
  updFolio (updCkpt (updLong s o.handle (fun o => { o with state := .running, began := true })) o.handle (fun k => { k with copying := true }))
    f.handle (fun g => { g with snapshot := some { copying := true, step := g.jobStep, image := ckptImage s f } })

/-- The run that a checkpoint of a folio holds: its live run, while it runs or is being cancelled (R369). -/
def heldRun (s : State) (f : Folio) : Option Handle :=
  match liveRunOf s f.handle with
  | some (ro, _) => if ro.state = .running || ro.state = .cancelling then some ro.handle else none
  | none => none

/-- The run held at the boundary, when there is one. -/
def holdRun (s : State) (h : Option Handle) : State :=
  match h with
  | some h => updRun s h (fun r => { r with ckptHold := true })
  | none => s

theorem takeImage_eq (s : State) (o : LongOp) (f : Folio) : takeImage s o f = holdRun (imageTaken s o f) (heldRun s f) := by
  unfold takeImage heldRun
  dsimp only
  cases liveRunOf s f.handle with
  | none => rfl
  | some x =>
    dsimp only
    split <;> rfl

theorem holdRun_frame (s : State) (h : Option Handle) : holdRun s h = { s with longs := (holdRun s h).longs } := by
  cases h <;> rfl

theorem takeImage_frame (s : State) (o : LongOp) (f : Folio) :
    takeImage s o f = { s with longs := (takeImage s o f).longs, folios := (takeImage s o f).folios } := by
  rw [takeImage_eq, holdRun_frame]
  rfl

theorem longOf_imageTaken {s : State} {o : LongOp} {k : CkptOp} (f : Folio) (ho : longOf s o.handle = some o) (hb : o.body = .ckpt k) :
    longOf (imageTaken s o f) o.handle = some { o with state := .running, began := true, body := .ckpt { k with copying := true } } :=
  updCkpt_longOf (fun k => { k with copying := true })
    (updLong_longOf (fun o => { o with state := .running, began := true }) (fun _ => rfl) ho) hb

theorem longOf_takeImage {s : State} {o : LongOp} {k : CkptOp} (f : Folio) (ho : longOf s o.handle = some o) (hb : o.body = .ckpt k) :
    longOf (takeImage s o f) o.handle = some { o with state := .running, began := true, body := .ckpt { k with copying := true } } := by
  rw [takeImage_eq]
  cases heldRun s f with
  | some h => exact updRun_longOf_ckpt _ (longOf_imageTaken f ho hb) rfl
  | none => exact longOf_imageTaken f ho hb

theorem folioOf_takeImage {s : State} {f : Folio} (o : LongOp) (hf : folioOf s f.handle = some f) :
    folioOf (takeImage s o f) f.handle = some { f with snapshot := some { copying := true, step := f.jobStep, image := ckptImage s f } } := by
  have hsame : folioOf (takeImage s o f) f.handle = folioOf (imageTaken s o f) f.handle := by
    rw [takeImage_eq, holdRun_frame]
    rfl
  have hlongs : folioOf (updCkpt (updLong s o.handle (fun o => { o with state := .running, began := true })) o.handle
    (fun k => { k with copying := true })) f.handle = some f := hf
  exact hsame.trans
    (updFolio_folioOf (fun g => { g with snapshot := some { copying := true, step := g.jobStep, image := ckptImage s f } }) (fun _ => rfl) hlongs)

/-- The run of the folio is held at the boundary. -/
theorem longOf_takeImage_run {s : State} {o ro : LongOp} {k : CkptOp} {r : Run} {f : Folio} (ho : longOf s o.handle = some o)
    (hb : o.body = .ckpt k) (hr : liveRunOf s f.handle = some (ro, r)) (hst : ro.state = .running ∨ ro.state = .cancelling)
    (hro : longOf s ro.handle = some ro) : longOf (takeImage s o f) ro.handle = some { ro with body := .run { r with ckptHold := true } } := by
  have hbody := liveRunOf_body hr
  have hne : o.handle ≠ ro.handle := by
    intro he
    rw [← he, ho] at hro
    cases hro
    rw [hb] at hbody
    cases hbody
  have hheld : heldRun s f = some ro.handle := by
    rw [heldRun, hr]
    dsimp only
    rw [if_pos (by simpa using hst)]
  have hkept : longOf (imageTaken s o f) ro.handle = some ro :=
    (updCkpt_longOf_ne (fun k => { k with copying := true }) hne).trans
      ((updLong_longOf_ne (fun o => { o with state := .running, began := true }) (fun _ => rfl) hne).trans hro)
  rw [takeImage_eq, hheld]
  exact updRun_longOf (fun r => { r with ckptHold := true }) hkept hbody

/-! ### The copy done -/

section
variable {s : State} {o : LongOp} {k : CkptOp} {f : Folio} (ho : longOf s o.handle = some o) (hb : o.body = .ckpt k)
  (hf : folioOf s k.folio = some f)
include ho hb hf

theorem exec_snapshotCopyDone_of_poison {a : Nat} (hlive : s.live = true) (hr : o.state = .running) (hc : k.copying = true)
    (hgoing : partStopped s o.part = false) (ha : ckptPoison s f = some a) :
    exec (.snapshotCopyDone o.handle) s = .next (failJob s (partStamp s o.part) 0x110 (unitHbm 0) 0xFFFFFFFF a 4) := by
  have hx : exec (.snapshotCopyDone o.handle) s = execSnapshotCopyDone o.handle s := rfl
  rw [hx, execSnapshotCopyDone, ckptOf_of_body ho hb]
  dsimp only
  rw [hf]
  dsimp only
  rw [hlive, hr, hc, hgoing, if_neg (by decide), ha]

theorem exec_snapshotCopyDone_of_clean (hlive : s.live = true) (hr : o.state = .running) (hc : k.copying = true)
    (hgoing : partStopped s o.part = false) (hclean : ckptPoison s f = none) :
    exec (.snapshotCopyDone o.handle) s = .next (copyEnds s o k) := by
  have hx : exec (.snapshotCopyDone o.handle) s = execSnapshotCopyDone o.handle s := rfl
  rw [hx, execSnapshotCopyDone, ckptOf_of_body ho hb]
  dsimp only
  rw [hf]
  dsimp only
  rw [hlive, hr, hc, hgoing, if_neg (by decide), hclean]

end

/-- The copy has ended: the snapshot is whole, and the drain has begun unless the checkpoint is LOCAL. -/
def copied (s : State) (h : Handle) (k : CkptOp) : State :=
  updCkpt (updFolio s k.folio (fun f => { f with snapshot := f.snapshot.map (fun x => { x with copying := false }) })) h
    (fun k => { k with copying := false, draining := decide (k.kind ≠ 0) })

theorem releaseCkptHold_of_none {s : State} (f : Handle) (h : ∀ x ∈ s.longs, ∀ r, x.body = .run r → r.ckptHold = false) :
    releaseCkptHold s f = s := by
  unfold releaseCkptHold
  refine (congrArg (fun l => List.foldl _ s l) (List.filter_eq_nil_iff.mpr fun x hx => ?_)).trans rfl
  cases hb : x.body with
  | run r => simp [h x hx r hb]
  | load _ | copy _ | ckpt _ | reshard _ => simp

/-- The end of the copy puts no run on hold. -/
theorem copied_longs {s : State} (h : Handle) (k : CkptOp) (hfree : ∀ x ∈ s.longs, ∀ r, x.body = .run r → r.ckptHold = false) :
    ∀ x ∈ (copied s h k).longs, ∀ r, x.body = .run r → r.ckptHold = false := by
  refine updFirst_all (P := fun (x : LongOp) => ∀ r, x.body = .run r → r.ckptHold = false) (fun y hy r => ?_) hfree
  split
  · intro hrun
    cases hrun
  · exact hy r

/-- The end of a copy when no run is held, by the kind of the checkpoint (R372). -/
theorem copyEnds_of_no_hold {s : State} (o : LongOp) (k : CkptOp) (hfree : ∀ x ∈ s.longs, ∀ r, x.body = .run r → r.ckptHold = false) :
    copyEnds s o k =
      if k.kind = 0 then endLong (updLong (copied s o.handle k) o.handle wholly) o.handle .done 0 0 0 0
      else if k.kind = 1 then drainBuddy (copied s o.handle k) o.handle
      else copied s o.handle k := by
  have hsame := releaseCkptHold_of_none k.folio (copied_longs o.handle k hfree)
  have hends : copyEnds s o k =
      if k.kind = 0 then endLong (updLong (releaseCkptHold (copied s o.handle k) k.folio) o.handle wholly) o.handle .done 0 0 0 0
      else if k.kind = 1 then drainBuddy (releaseCkptHold (copied s o.handle k) k.folio) o.handle
      else releaseCkptHold (copied s o.handle k) k.folio := rfl
  rw [hends, hsame]

/-- A LOCAL checkpoint completes when its copy ends. -/
theorem localCopy_completes {s : State} {o : LongOp} {k : CkptOp} {c : Cmd} (h : standsFor s o c) (hb : o.body = .ckpt k) (hk : k.kind = 0) :
    let t := endLong (updLong (copied s o.handle k) o.handle wholly) o.handle .done 0 0 0 0
    finishedAs s t c 0 0 0 0 ∧ ends { s with folios := (copied s o.handle k).folios } t ∧
      longOf t o.handle = some { o with state := .done, lastStatus := 0, doneUnits := o.totalUnits,
                                        body := .ckpt { k with copying := false, draining := false } } := by
  intro t
  obtain ⟨-, -, -, hsilent, hsuspends, hcancels⟩ := id h
  have hbody := updCkpt_longOf (s := updFolio s k.folio (fun f => { f with snapshot := f.snapshot.map (fun x => { x with copying := false }) }))
    (fun k => { k with copying := false, draining := decide (k.kind ≠ 0) }) h.longOf_eq hb
  obtain ⟨hlong, hfinal, hends⟩ := endLong_quiet (u := updLong (copied s o.handle k) o.handle wholly)
    (f := fun o => wholly { o with body := .ckpt { k with copying := false, draining := decide (k.kind ≠ 0) } }) h rfl rfl (fun _ => rfl)
    (longOf_wholly hbody) ⟨rfl, hsilent, hsuspends, hcancels⟩ .done 0 0 0 0
  refine ⟨hfinal, ?_, ?_⟩
  · unfold ends at hends ⊢
    rw [show t = _ from hends]
    rfl
  · rw [show longOf t o.handle = _ from hlong, hk]
    rfl

/-! ### The drain to a host buffer -/

theorem exec_checkpointDrainDone_of_draining {s : State} {o : LongOp} {k : CkptOp} {f : Folio} {x : Snapshot}
    (ho : longOf s o.handle = some o) (hb : o.body = .ckpt k) (hf : folioOf s k.folio = some f)
    (hx : f.snapshot = some x) (hlive : s.live = true) (hr : o.state = .running) (hw : k.write = true) (hd : k.draining = true) (hk : k.kind = 2) :
    exec (.checkpointDrainDone o.handle) s =
      .next (endLong (updLong (updHost s s.parts[o.part].port (fun m => m.writeBytes k.hostAddr x.image)) o.handle wholly) o.handle
        .done 0 0 0 0) := by
  have he : exec (.checkpointDrainDone o.handle) s = execCheckpointDrainDone o.handle s := rfl
  have hsnap : (some f).bind (fun f => f.snapshot) = some x := hx
  rw [he, execCheckpointDrainDone, ckptOf_of_body ho hb]
  dsimp only
  rw [hf, hsnap]
  dsimp only
  rw [hlive, hr, hw, hd, hk, if_pos (by decide)]
  rfl

/-- A HOST drain completes with its image in host memory. -/
theorem hostDrain_completes {s : State} {o : LongOp} {c : Cmd} (hm : s.memOk) (h : standsFor s o c) (a : Nat) (b : Bytes) :
    let t := endLong (updLong (updHost s s.parts[o.part].port (fun m => m.writeBytes a b)) o.handle wholly) o.handle .done 0 0 0 0
    finishedAs s t c 0 0 0 0 ∧ ends s t ∧
      longOf t o.handle = some { o with state := .done, lastStatus := 0, doneUnits := o.totalUnits } ∧
      ∀ i, i < b.length → ¬postsTo s c (a + i) → t.ports[s.parts[o.part].port].host.read (a + i) = b.getD i 0#8 := by
  intro t
  have hregisters := updHost_registers s s.parts[o.part].port (fun m => m.writeBytes a b)
  obtain ⟨hlong, hfinal, hends⟩ := completes_wholly (u := updHost s s.parts[o.part].port (fun m => m.writeBytes a b)) h rfl rfl
    (fun p => (hregisters p).1) h.longOf_eq
  refine ⟨hfinal, (updHost_posts s _ _).ends.trans hends, hlong, fun i hi hfar => ?_⟩
  have hkept := completes_wholly_read (u := updHost s s.parts[o.part].port (fun m => m.writeBytes a b)) h rfl rfl
    (fun p => (hregisters p).1) h.longOf_eq (fun p => (hregisters p).2) (updHost_writeBytes_memOk hm _ _ _) s.parts[o.part].port hfar
  exact hkept.trans (updHost_writeBytes_read hm rfl a b hi)

/-- Settles O25: the boundary, the end of the copy by its poison and its kind, and the end of a HOST drain. -/
theorem checkpointsTakeAndDrainTheirImage : Obligations.CheckpointsTakeAndDrainTheirImage := by
  rintro s _ o k f c hmem hstands rfl hb hf
  have ho := hstands.longOf_eq
  have hhandle := folioOf_handle hf
  refine ⟨fun hready => ?_, ?_, fun x hx hlive hr hw hd hk => ?_⟩
  · refine ⟨_, exec_checkpointBoundary_of_ready ho hb hf hready, takeImage_frame s o f, longOf_takeImage f ho hb, ?_, ?_⟩
    · rw [← hhandle]
      exact folioOf_takeImage o (hhandle ▸ hf)
    · exact fun ro r hrun hst hro => longOf_takeImage_run ho hb hrun hst hro
  · intro hlive hr hc hgoing u
    refine ⟨fun a ha => exec_snapshotCopyDone_of_poison ho hb hf hlive hr hc hgoing ha, fun hclean hfree => ?_⟩
    refine ⟨_, exec_snapshotCopyDone_of_clean ho hb hf hlive hr hc hgoing hclean, ?_⟩
    rw [copyEnds_of_no_hold o k hfree]
    refine ⟨fun h1 => ?_, fun h0 h1 => ?_, fun h0 => ?_⟩
    · rw [if_neg (by rw [h1]; decide), if_pos h1]
      rfl
    · rw [if_neg h0, if_neg h1]
      rfl
    · rw [if_pos h0]
      exact localCopy_completes hstands hb h0
  · exact ⟨_, exec_checkpointDrainDone_of_draining ho hb hf hx hlive hr hw hd hk, hostDrain_completes hmem hstands k.hostAddr x.image⟩

/-! ### An image restored -/

theorem exec_checkpointReadDone_of_source {s : State} {o : LongOp} {k : CkptOp} {f : Folio} {data img : Bytes}
    (ho : longOf s o.handle = some o) (hb : o.body = .ckpt k) (hf : folioOf s k.folio = some f) (hlive : s.live = true) (hw : k.write = false)
    (hr : o.state = .running)
    (hsource : (k.kind = 2 ∧ img = slice data 0 k.hostLen) ∨ (k.kind = 0 ∧ ∃ x, f.snapshot = some x ∧ x.copying = false ∧ img = x.image)) :
    exec (.checkpointReadDone o.handle data) s = .next (readImageDone s o k img) := by
  have hx : exec (.checkpointReadDone o.handle data) s = execCheckpointReadDone o.handle data s := rfl
  rw [hx, execCheckpointReadDone, ckptOf_of_body ho hb]
  dsimp only
  obtain ⟨hk, rfl⟩ | ⟨hk, x, hsnap, hcopied, rfl⟩ := hsource
  · rw [hlive, hw, hr, hk, if_neg (by decide), if_pos rfl]
  · have hbind : (some f).bind (fun f => f.snapshot) = some x := hsnap
    rw [hlive, hw, hr, hk, if_neg (by decide), if_neg (by decide), hf, hbind]
    dsimp only
    rw [hcopied, if_neg Bool.false_ne_true]

theorem readImageDone_of_reason {s : State} {o : LongOp} {k : CkptOp} {f : Folio} {img : Bytes} {r : Nat} (hf : folioOf s k.folio = some f)
    (hr : ckptReason f k.step img = some r) : readImageDone s o k img = endLong s o.handle .failed 0x20 r 0 0 := by
  rw [readImageDone, hf]
  dsimp only
  rw [hr]

theorem readImageDone_of_good {s : State} {o : LongOp} {k : CkptOp} {f : Folio} {img : Bytes} (hf : folioOf s k.folio = some f)
    (hr : ckptReason f k.step img = none) :
    readImageDone s o k img = endLong (updLong (ckptRestore s f img) o.handle wholly) o.handle .done 0 0 0 0 := by
  rw [readImageDone, hf]
  dsimp only
  rw [hr]
  rfl

/-- Fields that undefined ranges write. -/
def undefines (s t : State) : Prop := t = { s with mem := t.mem, fresh := t.fresh }

theorem undefines.trans {s t u : State} (h : undefines s t) (k : undefines t u) : undefines s u := by
  unfold undefines at *
  rw [k, h]

theorem undefineOthers_undefines (s : State) (f : Folio) (listed : List Nat) : undefines s (undefineOthers s f listed) := by
  refine foldl_rel (R := undefines) (fun _ => rfl) undefines.trans (fun u i => ?_) _ _
  split
  · rfl
  · split <;> rfl

/-- What restoring an image writes (R373). -/
theorem ckptRestore_frame (s : State) (f : Folio) (img : Bytes) : ckptRestore s f img =
    { s with mem := (ckptRestore s f img).mem, tokens := (ckptRestore s f img).tokens, folios := (ckptRestore s f img).folios,
             fresh := (ckptRestore s f img).fresh } := by
  have h := undefineOthers_undefines s f (((List.range (u32 img 0x24)).map (ckptRow img)).map (fun r => r.1))
  unfold undefines at h
  unfold ckptRestore
  dsimp only
  rw [h]
  rfl

/-- Settles O26: the image by the reason that its checks give. -/
theorem checkpointsAreRestored : Obligations.CheckpointsAreRestored := by
  rintro s _ data o k f c img hstands rfl hb hf hlive hw hr hsource
  have ho := hstands.longOf_eq
  refine ⟨_, exec_checkpointReadDone_of_source ho hb hf hlive hw hr hsource, fun r hreason => ?_, fun hgood => ?_⟩
  · rw [readImageDone_of_reason hf hreason]
    exact endLong_standing hstands rfl rfl (fun _ => rfl) ho .failed 0x20 r 0 0
  · rw [readImageDone_of_good hf hgood]
    have hframe := ckptRestore_frame s f img
    obtain ⟨hlong, hfinal, hends⟩ := completes_wholly (u := ckptRestore s f img) hstands (by rw [hframe]) (by rw [hframe])
      (portPosts_of_ports (by rw [hframe])) (by rw [hframe]; exact ho)
    exact ⟨hfinal, hlong, by rwa [← hframe]⟩

end Sys2Proof.Machine
end

section
/-! SUPPORT. The messages of a buddy checkpoint (R370, R371, R373), PAIR and UNPAIR (R376 to R379), and the start of a RESHARD
(R362 to R364). -/

namespace Sys2Proof.Machine

/-! ### A checkpoint message taken from the inbox -/

/-- What taking a message leaves: everything but the inbox. -/
theorem takeCkpt_state {s s1 : State} {i m : Nat} {k : Packet} (h : takeCkpt s i m = some (k, s1)) : ∃ x, s1 = { s with inbox := x } := by
  unfold takeCkpt takeInbox at h
  split at h
  · cases h
  · split at h
    · obtain ⟨heq, -⟩ := Option.filter_eq_some_iff.mp h
      cases heq
      exact ⟨_, rfl⟩
    · cases h

/-- An operation that ends on a message. -/
theorem endLong_taken {s s1 : State} {i m : Nat} {k : Packet} {o : LongOp} {d : Cmd} (h : standsFor s o d) (ht : takeCkpt s i m = some (k, s1))
    (st : LongState) (status reason : Nat) :
    endedAs s (endLong s1 o.handle st status reason 0 0) o d st status reason 0 0 ∧
      ends s1 (endLong s1 o.handle st status reason 0 0) := by
  obtain ⟨x, rfl⟩ := takeCkpt_state ht
  exact endLong_standing (u := { s with inbox := x }) h rfl rfl (fun _ => rfl) h.longOf_eq st status reason 0 0

/-- The answer to a checkpoint message. -/
def ckptAnswer (u : State) (k : Packet) (msg : Nat) (b : Bytes) : State :=
  sendBack u k.src (ckptMessage k.stamp msg k.coll.phase k.coll.step 0 k.coll.shard b)

section
variable {s s1 : State} {i : Nat} {k : Packet} (hp : (partOfStamp s k.stamp).isSome = true)
include hp

theorem stampHeld : ¬(partOfStamp s k.stamp).isNone = true := by
  rw [Option.isNone_iff_eq_none, ← Option.not_isSome_iff_eq_none, hp]
  decide

section
variable (ht : takeCkpt s i 9 = some (k, s1))
include ht

theorem exec_ckptData_of_armed {f : Folio} (h0 : k.coll.phase = 0) (hf : armedStore s k.stamp k.coll.step = some f) :
    exec (.ckptData i) s = .next (ckptAnswer (updFolio s1 f.handle (fun f =>
      { f with buddy := f.buddy.map (fun b => { b with incoming := keepPayload b.incoming k }) })) k 10 (le 4 1)) := by
  have hx : exec (.ckptData i) s = execCkptData i s := rfl
  rw [hx, execCkptData, ht]
  dsimp only
  rw [if_neg (stampHeld hp), if_pos h0, hf]
  rfl

theorem exec_ckptData_of_pull {o : LongOp} {c : CkptOp} (h0 : k.coll.phase ≠ 0) (ho : pullOf s k = some (o, c)) :
    exec (.ckptData i) s =
      .next (ckptAnswer (updCkpt s1 o.handle (fun c => { c with got := keepPayload c.got k })) k 10 (le 4 1)) := by
  have hx : exec (.ckptData i) s = execCkptData i s := rfl
  rw [hx, execCkptData, ht]
  dsimp only
  rw [if_neg (stampHeld hp), if_neg h0, ho]
  rfl

end

section
variable (ht : takeCkpt s i 10 = some (k, s1))
include ht

theorem exec_ckptCredit_of_drain {o : LongOp} {c : CkptOp} (h0 : k.coll.phase = 0)
    (ho : ckptWith s k.stamp (fun c => c.write && c.kind == 1) = some (o, c)) (hstep : c.step % 2 ^ 16 = k.coll.step) :
    exec (.ckptCredit i) s =
      .next (drainBuddy (updCkpt s1 o.handle (fun c => { c with credit := c.credit + u32 k.payload 0 })) o.handle) := by
  have hx : exec (.ckptCredit i) s = execCkptCredit i s := rfl
  rw [hx, execCkptCredit, ht]
  dsimp only
  rw [if_neg (stampHeld hp), if_pos h0, ho]
  dsimp only
  rw [if_pos hstep]

theorem exec_ckptCredit_of_serve {x : PullServe} (h0 : k.coll.phase ≠ 0)
    (hf : s.pulls.find? (fun x => x.peer == k.src && x.stamp == k.stamp && x.step % 2 ^ 16 == k.coll.step) = some x) :
    let y := { x with credit := x.credit + u32 k.payload 0 }
    exec (.ckptCredit i) s = .next (servePull { s1 with pulls := s1.pulls.map (fun z => if z == x then y else z) } y) := by
  have hx : exec (.ckptCredit i) s = execCkptCredit i s := rfl
  rw [hx, execCkptCredit, ht]
  dsimp only
  rw [if_neg (stampHeld hp), if_neg h0, hf]

end

section
variable (ht : takeCkpt s i 11 = some (k, s1))
include ht

theorem exec_ckptEnd_of_store {f : Folio} {b : BuddyStore} (h0 : k.coll.phase = 0) (hf : armedStore s k.stamp k.coll.step = some f)
    (hb : f.buddy = some b) (hall : ceilDiv (u64 k.payload 0) 512 ≤ b.incoming.length) :
    exec (.ckptEnd i) s = .next (storeEnds s1 f b k) := by
  have hx : exec (.ckptEnd i) s = execCkptEnd i s := rfl
  rw [hx, execCkptEnd, ht]
  dsimp only
  rw [if_neg (stampHeld hp), if_pos h0, hf]
  dsimp only
  rw [hb]
  dsimp only
  rw [if_neg (Nat.not_lt.mpr hall)]

theorem exec_ckptEnd_of_pull {o : LongOp} {c : CkptOp} (h0 : k.coll.phase ≠ 0) (ho : pullOf s k = some (o, c))
    (hall : ceilDiv (u64 k.payload 0) 512 ≤ c.got.length) :
    exec (.ckptEnd i) s = .next (if endMatches (assemble c.got) k then readImageDone s1 o c (assemble c.got)
      else endLong s1 o.handle .failed 0x20 0x70 0 0) := by
  have hx : exec (.ckptEnd i) s = execCkptEnd i s := rfl
  rw [hx, execCkptEnd, ht]
  dsimp only
  rw [if_neg (stampHeld hp), if_neg h0, ho]
  dsimp only
  rw [if_neg (Nat.not_lt.mpr hall)]

end

/-- A pull is served from the image that a folio's buddy store holds for its rank and step, or answered with status 2. -/
theorem exec_ckptPull (ht : takeCkpt s i 12 = some (k, s1)) :
    let held := s.folios.findSome? (fun f =>
      match f.buddy with
      | none => none
      | some b =>
        match b.complete with
        | some img => if partStamp s f.part == k.stamp && b.srcRank == k.coll.shard && b.step % 2 ^ 16 == k.coll.step then some (b, img) else none
        | none => none)
    (held = none → exec (.ckptPull i) s = .next (sendBack s1 k.src (ckptMessage k.stamp 13 1 k.coll.step 0 k.coll.shard (le 4 2)))) ∧
      (∀ b img, held = some (b, img) → exec (.ckptPull i) s = .next (servePull s1
        { peer := k.src, srcRank := b.srcRank, stamp := k.stamp, image := img, step := b.step, nextPayload := 0, credit := 512,
          endSent := false })) := by
  have hx : exec (.ckptPull i) s = execCkptPull i s := rfl
  rw [hx, execCkptPull, ht]
  dsimp only
  rw [if_neg (stampHeld hp)]
  constructor
  · intro hnone
    split
    · rfl
    · next hsome => exact absurd (hsome.symm.trans hnone) (by simp)
  · intro b img hheld
    split
    · next hnone => exact absurd (hnone.symm.trans hheld) (by simp)
    · next hsome =>
      cases hsome.symm.trans hheld
      rfl

section
variable (ht : takeCkpt s i 13 = some (k, s1))
include ht

theorem exec_ckptDone_of_writer {o : LongOp} {c : CkptOp} (h0 : k.coll.phase = 0) (hgood : u32 k.payload 0 = 0)
    (ho : ckptWith s k.stamp (fun c => c.write && c.kind == 1 && c.endSent && c.step % 2 ^ 16 == k.coll.step) = some (o, c)) :
    exec (.ckptDone i) s = .next (endLong s1 o.handle .done 0 0 0 0) := by
  have hx : exec (.ckptDone i) s = execCkptDone i s := rfl
  rw [hx, execCkptDone, ht]
  dsimp only
  rw [if_neg (stampHeld hp), if_pos h0, ho]
  dsimp only
  rw [if_pos hgood]

theorem exec_ckptDone_of_reader {o : LongOp} {c : CkptOp} (h0 : k.coll.phase ≠ 0) (ho : pullOf s k = some (o, c)) :
    exec (.ckptDone i) s = .next (endLong s1 o.handle .failed 0x20 (if u32 k.payload 0 = 2 then 0x73 else 0x70) 0 0) := by
  have hx : exec (.ckptDone i) s = execCkptDone i s := rfl
  rw [hx, execCkptDone, ht]
  dsimp only
  rw [if_neg (stampHeld hp), if_neg h0, ho]

end

end

/-- Settles O27: each of the five messages, by the side that it comes to. -/
theorem checkpointMessagesAreServed : Obligations.CheckpointMessagesAreServed := by
  intro s s1 i k hp answer
  refine ⟨fun ht => ⟨?_, ?_⟩, fun ht => ⟨?_, ?_⟩, fun ht => ⟨?_, ?_⟩, fun ht => exec_ckptPull hp ht, fun ht => ⟨?_, ?_⟩⟩
  · exact fun f h0 hf => exec_ckptData_of_armed hp ht h0 hf
  · exact fun o c h0 ho => exec_ckptData_of_pull hp ht h0 ho
  · exact fun o c h0 ho hstep => exec_ckptCredit_of_drain hp ht h0 ho hstep
  · exact fun x h0 hf => exec_ckptCredit_of_serve hp ht h0 hf
  · exact fun f b h0 hf hb hall => exec_ckptEnd_of_store hp ht h0 hf hb hall
  · exact fun o c h0 ho hall => exec_ckptEnd_of_pull hp ht h0 ho hall
  · exact fun o c d h0 hgood hstands ho => ⟨_, exec_ckptDone_of_writer hp ht h0 hgood ho, endLong_taken hstands ht _ _ _⟩
  · exact fun o c d h0 hstands ho => ⟨_, exec_ckptDone_of_reader hp ht h0 ho, endLong_taken hstands ht _ _ _⟩

/-! ### PAIR -/

theorem exec_pair_of_unpaired {s : State} {p : Part} {q : Fin 16} {c : Cmd} {f : Folio} (hs : startable s p q 0x50 = some c)
    (hf : folioRef s p (descHandle c.desc 8) = .ok f) (hfree : inPairing s f.handle = false)
    (hwait : s.pairWaits.any (fun w => w.folio == f.handle) = false) : exec (.pair p q) s = .next (pairWith s c f) := by
  have hx : exec (.pair p q) s = execPair p q s := rfl
  rw [hx, execPair, hs]
  dsimp only
  rw [hf]
  dsimp only
  rw [hfree, hwait, if_neg (by decide)]

/-- The pairs that wait once a command has joined or withdrawn. -/
def waitsWithout (s : State) (uid : Nat) : List PairWait := s.pairWaits.filter (fun x => x.cmd != uid)

/-- Two commands that complete leave what neither of them writes. -/
theorem finish_finish_posts (s : State) (u v a b : Nat) : posts s (finish (finish s u a 0 0 0) v b 0 0 0) :=
  (finish_posts s u a 0 0 0).trans (finish_posts _ v b 0 0 0)

/-- Completions keep what only the pairing tables hold. -/
theorem posts_tables {s u t : State} (hu : u = { s with cmds := u.cmds, pairings := u.pairings, pairWaits := u.pairWaits }) (h : posts u t) :
    t.pairings = u.pairings ∧ t.pairWaits = u.pairWaits ∧ posts { s with pairings := t.pairings, pairWaits := t.pairWaits } t := by
  unfold posts at h ⊢
  rw [h, hu]
  exact ⟨rfl, rfl, rfl⟩

/-- The state in which a PAIR has met its partner, before the records. -/
def paired (s : State) (uid : Nat) (w : PairWait) (x : Pairing) : State :=
  { begun s uid with pairWaits := waitsWithout s w.cmd, pairings := s.pairings ++ [x] }

section
variable {s : State} {c : Cmd} {f : Folio}

theorem pairWith_alone (h : s.pairWaits.filter (fun w => w.part == partN (u8 c.desc 12) && w.peer == c.part) = []) :
    pairWith s c f = { begun s c.uid with
      pairWaits := s.pairWaits ++ [{ cmd := c.uid, part := c.part, folio := f.handle, peer := partN (u8 c.desc 12),
                                     mode := u8 c.desc 13, token := slice c.desc 16 16 }] } := by
  unfold pairWith
  dsimp only
  rw [h]
  rfl

theorem pairUp_of_match {w : PairWait} {g : Folio} {mode uid : Nat} (hfill : bit mode 0 = true → fillMatches f g = true)
    (hstream : bit mode 1 = true → streamsMatch f g = true) (hslots : slotsFit s g f (newPairing g f mode).streams = true) :
    pairUp (begun s uid) uid f mode w g = finish (finish (paired s uid w (newPairing g f mode)) w.cmd 0 0 0 0) uid 0 0 0 0 := by
  have hmatch : ((bit mode 0 && !fillMatches f g) || (bit mode 1 && !streamsMatch f g)) = false := by
    cases h0 : bit mode 0 <;> cases h1 : bit mode 1 <;> simp_all
  have hfit : slotsFit { begun s uid with pairWaits := waitsWithout s w.cmd } g f (newPairing g f mode).streams = true := hslots
  unfold pairUp
  dsimp only
  rw [hmatch, if_neg Bool.false_ne_true]
  exact if_neg (fun hno => absurd (hfit.symm.trans ((Bool.not_eq_true' _).mp hno)) (by decide))

theorem pairWith_of_partner {w : PairWait} {g : Folio}
    (hw : (s.pairWaits.filter (fun w => w.part == partN (u8 c.desc 12) && w.peer == c.part)).find?
      (fun w => w.mode == u8 c.desc 13 && w.token == slice c.desc 16 16) = some w)
    (hg : folioOf s w.folio = some g) : pairWith s c f = pairUp (begun s c.uid) c.uid f (u8 c.desc 13) w g := by
  unfold pairWith
  dsimp only
  rw [hw]
  dsimp only
  rw [hg]

end

/-! ### UNPAIR -/

section
variable {s : State} {p : Part} {q : Fin 16} {c : Cmd} {f : Folio}

theorem exec_unpair_of_startable (hs : startable s p q 0x51 = some c) (hf : folioRef s p (descHandle c.desc 8) = .ok f) :
    exec (.unpair p q) s = .next (unpairFolio (begun s c.uid) c.uid f.handle) := by
  have hx : exec (.unpair p q) s = execUnpair p q s := rfl
  rw [hx, execUnpair, hs]
  dsimp only
  rw [hf]

theorem unpairFolio_of_waiting {uid : Nat} {h : Handle} {w : PairWait} (hw : s.pairWaits.find? (fun w => w.folio == h) = some w) :
    unpairFolio s uid h = finish (finish { s with pairWaits := waitsWithout s w.cmd } w.cmd 1 0 0 0) uid 0 0 0 0 := by
  rw [unpairFolio, hw]
  rfl

/-- The state with a pairing ended. -/
def parted (s : State) (x : Pairing) : State := { s with pairings := s.pairings.filter (fun y => y != x) }

theorem unpairFolio_of_paired {uid : Nat} {h : Handle} {x : Pairing} (hw : s.pairWaits.find? (fun w => w.folio == h) = none)
    (hx : s.pairings.find? (fun x => x.a == h || x.b == h) = some x) :
    unpairFolio s uid h =
      if (runStands s x.a || runStands s x.b) = true then finish s uid 0x12 0 0 0 else finish (parted s x) uid 0 0 0 0 := by
  rw [unpairFolio, hw]
  dsimp only
  rw [hx]
  rfl

end

/-- Settles O28: PAIR by its partner, UNPAIR by the folio's state. -/
theorem pairsMeetAndPart : Obligations.PairsMeetAndPart := by
  intro s p q c f hquiet hf peer mode token partners
  refine ⟨fun hs hfree hwait => ⟨fun halone => ?_, fun w g hw hg hfill hstream hslots => ?_⟩, fun hs => ⟨fun w hw => ?_, fun x hw hx => ?_⟩⟩
  · rw [exec_pair_of_unpaired hs hf hfree hwait, pairWith_alone halone]
    exact ⟨_, rfl, begun_cmdOf hquiet.cmdOf_eq, rfl⟩
  · rw [exec_pair_of_unpaired hs hf hfree hwait, pairWith_of_partner hw hg, pairUp_of_match hfill hstream hslots]
    exact ⟨_, rfl, posts_tables (u := paired s c.uid w (newPairing g f (u8 c.desc 13))) rfl (finish_finish_posts _ w.cmd c.uid 0 0)⟩
  · rw [exec_unpair_of_startable hs hf, unpairFolio_of_waiting (show (begun s c.uid).pairWaits.find? _ = some w from hw)]
    have hposts := finish_finish_posts { begun s c.uid with pairWaits := waitsWithout s w.cmd } w.cmd c.uid 1 0
    obtain ⟨hpairings, hwaits, hframe⟩ := posts_tables (s := s) rfl hposts
    refine ⟨_, rfl, hwaits, ?_⟩
    rwa [hpairings] at hframe
  · rw [exec_unpair_of_startable hs hf, unpairFolio_of_paired (s := begun s c.uid) hw hx]
    have hstand : (runStands (begun s c.uid) x.a || runStands (begun s c.uid) x.b) = (runStands s x.a || runStands s x.b) := rfl
    rw [hstand]
    refine ⟨_, rfl, fun hruns => ?_, fun hnone => ?_⟩
    · rw [if_pos hruns]
      exact finish_here hquiet 0x12 0 0 0
    · rw [hnone, if_neg Bool.false_ne_true]
      obtain ⟨hpairings, hwaits, hframe⟩ := posts_tables (s := s) (u := parted (begun s c.uid) x) rfl (finish_posts _ c.uid 0 0 0 0)
      refine ⟨(finish_begun hquiet (u := parted (begun s c.uid) x) rfl (fun _ => rfl) rfl 0 0 0 0).1, hpairings, ?_⟩
      rwa [hwaits] at hframe

/-! ### RESHARD -/

theorem exec_reshard_of_folios {s : State} {p : Part} {q : Fin 16} {c : Cmd} {a b : Folio} (hs : startable s p q 0x42 = some c)
    (ha : folioRef s p (descHandle c.desc 8) = .ok a) (hb : folioRef s p (descHandle c.desc 12) = .ok b) :
    exec (.reshard p q) s = .next (if (!reshardAdmits s p a b) = true then finish (begun s c.uid) c.uid 0x12 0 0 0
      else (reshardReason a b).elim (beginReshard s c a b) (fun r => finish (begun s c.uid) c.uid 0x20 r 0 0)) := by
  have hx : exec (.reshard p q) s = execReshard p q s := rfl
  rw [hx, execReshard, hs]
  dsimp only
  rw [ha, hb]
  dsimp only
  cases reshardReason a b <;> rfl

/-- The transfer of a RESHARD that begins: what this device expects and the ranks that it sends to. -/
def askedReshard (a b : Folio) : LongBody :=
  .reshard { folioA := a.handle, folioB := b.handle, missing := reshardExpected a b, toSend := reshardTargets a b }

/-- The state with a RESHARD admitted and running, before the new ROLE_GEN. -/
def reshardRuns (s : State) (c : Cmd) (a b : Folio) : State :=
  updLong (admitLong s c 0 (askedReshard a b)).2 (newHandle s c.part).1 (fun o => { o with state := .running, began := true })

theorem reshardRuns_accepted {s : State} {c : Cmd} (h : admitsNext s c) (a b : Folio) :
    admitted s (reshardRuns s c a b) ∧ acceptedAs s (reshardRuns s c a b) c 0 (askedReshard a b) true := by
  obtain ⟨haccepted, -, hframe⟩ := admit_quiet h.1 h.2 0 (askedReshard a b)
  refine ⟨?_, accepted_runs haccepted h.2⟩
  unfold admitted at hframe ⊢
  rw [reshardRuns, hframe]
  rfl

theorem beginReshard_eq {s : State} {c : Cmd} {a b : Folio} {j : Job} (h : admitsNext s c) (hj : s.parts[c.part].job = some j) :
    beginReshard s c a b = settleReshard ((reshardSources a b b.coord).foldl (fun s k =>
        sendToRank s c.part b.rank k (mkPacket 1 2 5 0 0 (partStamp s c.part) 0 (bodyE 0 a.step16 0) []))
      (zeroUnmatched (adoptGen (reshardRuns s c a b) c.part j.written) a b)) (newHandle s c.part).1 := by
  obtain ⟨-, hhandle, -⟩ := admit_quiet h.1 h.2 0 (askedReshard a b)
  have hbegin : beginReshard s c a b = settleReshard ((reshardSources a b b.coord).foldl (fun s k =>
        sendToRank s c.part b.rank k (mkPacket 1 2 5 0 0 (partStamp s c.part) 0 (bodyE 0 a.step16 0) []))
      (zeroUnmatched (adoptGen (updLong (admitLong s c 0 (askedReshard a b)).2 (admitLong s c 0 (askedReshard a b)).1
        (fun o => { o with state := .running, began := true })) c.part (match s.parts[c.part].job with | some j => j.written | none => 0)) a b))
      (admitLong s c 0 (askedReshard a b)).1 := rfl
  rw [hbegin, hj, hhandle]
  rfl

/-- Settles O29: RESHARD by its conditions and its tensors. -/
theorem reshardBegins : Obligations.ReshardBegins := by
  intro s p q c a b j h hs ha hb hj
  refine ⟨_, exec_reshard_of_folios hs ha hb, fun hno => ?_, fun r hyes hr => ?_, fun hyes hr => ?_⟩
  · rw [hno, if_pos (by decide)]
    exact finish_here h.1 0x12 0 0 0
  · rw [hyes, if_neg (by decide), hr]
    exact finish_here h.1 0x20 r 0 0
  · rw [hyes, if_neg (by decide), hr]
    obtain ⟨hadmitted, haccepted⟩ := reshardRuns_accepted h a b
    exact ⟨reshardRuns s c a b, hadmitted, haccepted, beginReshard_eq h hj⟩

end Sys2Proof.Machine
end

section
/-! SUPPORT. Writes to the registers of a partition (R388, R493, R496, R497, R25). -/

namespace Sys2Proof.Machine

/-! ### One partition updated -/

theorem updPart_at (s : State) (p : Part) (f : Partition → Partition) : (updPart s p f).parts[p] = f s.parts[p] := by
  simp

theorem updPart_at_ne (s : State) {p p' : Part} (f : Partition → Partition) (h : p' ≠ p) : (updPart s p f).parts[p'] = s.parts[p'] := by
  have hval : ¬(p : Nat) = (p' : Nat) := fun k => h (Fin.ext k.symm)
  simp [Vector.getElem_set_ne _ _ hval]

/-- An update that keeps the partition as it stands. -/
theorem updPart_of_fixed {s : State} {p : Part} {f : Partition → Partition} (h : f s.parts[p] = s.parts[p]) : updPart s p f = s := by
  unfold updPart
  rw [h]
  simp

/-! ### The word that an offset names -/

/-- A write to the CFG register of a ring. -/
theorem writePartWord_cfg (x : Partition) (r : RingId) (v : Word32) : writePartWord x (cfgOffset r) v = writeCfg x r v := by
  cases r with
  | sq n =>
    have hn := n.isLt
    have hindex : (Fin.ofNat 16 ((0x110 + 0x20 * n.val - 0x100) / 32) : Fin 16) = n := Fin.ext (by rw [Fin.val_ofNat]; omega)
    have hmod : (0x110 + 0x20 * n.val) % 32 = 16 := by omega
    have hhi : 0x110 + 0x20 * n.val < 0x300 := by omega
    have hlo (a : Nat) (h : a ≤ 0x100) : ¬0x110 + 0x20 * n.val < a := by omega
    have hne (a : Nat) (h : a ≤ 0x100) : ¬0x110 + 0x20 * n.val = a := by omega
    simp [writePartWord, cfgOffset, hmod, hhi, hlo, hne, -Fin.ofNat_eq_cast, hindex, Nat.le_add_right_of_le]
  | cq n =>
    have hn := n.isLt
    have hindex : (Fin.ofNat 16 ((0x310 + 0x20 * n.val - 0x300) / 32) : Fin 16) = n := Fin.ext (by rw [Fin.val_ofNat]; omega)
    have hmod : (0x310 + 0x20 * n.val) % 32 = 16 := by omega
    have hhi : 0x310 + 0x20 * n.val < 0x500 := by omega
    have hlo (a : Nat) (h : a ≤ 0x300) : ¬0x310 + 0x20 * n.val < a := by omega
    have hne (a : Nat) (h : a ≤ 0x300) : ¬0x310 + 0x20 * n.val = a := by omega
    simp [writePartWord, cfgOffset, hmod, hhi, hlo, hne, -Fin.ofNat_eq_cast, hindex, Nat.le_add_right_of_le]
  | eq | fmtx | fmrx => rfl

/-- A write to the low half of BASE of a disabled event ring (R388, R496). -/
theorem writePartWord_eqBase {x : Partition} (v : Word32) (h : x.eq.enabled = false) :
    writePartWord x 8 v = { x with eq := { x.eq with base := setHalf x.eq.base false (v.toNat / 4096 * 4096) } } := by
  have hring : ringAddrWrite x.eq 0 v.toNat = { x.eq with base := setHalf x.eq.base false (v.toNat / 4096 * 4096) } := by
    rw [ringAddrWrite, h]
    rfl
  rw [← hring]
  rfl

theorem writePartWord_ctrl {x : Partition} (v : Word32) (h : x.assigned = true) : writePartWord x 0 v = { x with enable := v.getLsbD 31 } := by
  have hctrl : writePartWord x 0 v = writePartCtrl x v := rfl
  rw [hctrl, writePartCtrl, if_pos h]

/-! ### CFG of a disabled ring -/

theorem ringCfgWrite_enables {r : Ring} {mask v : Word32} {ok : Bool} (hoff : r.enabled = false) (hon : v.getLsbD 31 = true)
    (hlo : 1 ≤ v.toNat % 32) (hhi : v.toNat % 32 ≤ 16) (hok : ok = true) :
    ringCfgWrite r mask ok v = { r with cfg := (v &&& mask) ||| 0x80000000#32, posted := 0, consumed := 0, backoff := 256, activeUntil := 0 } := by
  rw [ringCfgWrite, hoff, hon, hok, decide_eq_true hlo, decide_eq_true hhi]
  rfl

theorem ringCfgWrite_leaves {r : Ring} {mask v : Word32} {ok : Bool} (hoff : r.enabled = false)
    (hno : v.toNat % 32 = 0 ∨ 16 < v.toNat % 32 ∨ ok = false) : ringCfgWrite r mask ok v = { r with cfg := v &&& mask } := by
  have hcond : (v.getLsbD 31 && (decide (1 ≤ v.toNat % 32) && decide (v.toNat % 32 ≤ 16)) && ok) = false := by
    obtain h | h | h := hno
    · rw [h]
      simp
    · rw [decide_eq_false (Nat.not_le.mpr h)]
      simp
    · rw [h]
      simp
  rw [ringCfgWrite, hoff, if_neg Bool.false_ne_true]
  dsimp only
  rw [hcond, if_neg Bool.false_ne_true]

/-- The fields of a submission ring's CFG do not hold ENABLE. -/
theorem ringCfgWrite_disabled {r : Ring} {v : Word32} {ok : Bool} (hoff : r.enabled = false)
    (hno : v.toNat % 32 = 0 ∨ 16 < v.toNat % 32 ∨ ok = false) : (ringCfgWrite r 0x00F0001F#32 ok v).enabled = false := by
  rw [ringCfgWrite_leaves hoff hno]
  simp [Ring.enabled]

theorem writeCfg_sq (x : Partition) (n : Fin 16) (v : Word32) : (writeCfg x (.sq n) v).sq[n] =
    ringCfgWrite x.sq[n] 0x00F0001F#32 x.cq[(Fin.ofNat 16 (bits v.toNat 23 20) : Fin 16)].ring.enabled v := by
  simp [writeCfg]

/-- A completion ring that an enabled submission ring names is not disabled (R497). -/
theorem writeCfg_named {x : Partition} {n : Fin 16} {v : Word32} (hon : x.cq[n].ring.enabled = true) (hnamed : cqNamed x n = true)
    (hv : v.getLsbD 31 = false) : writeCfg x (.cq n) v = x := by
  unfold writeCfg
  dsimp only
  rw [hon, hnamed, hv]
  rfl

/-! ### The write through a port -/

section
variable {s : State} {port : Port} {p : Part}

theorem writePart_of_awake (ha : s.parts[p].assigned = true) (hp : s.parts[p].port = port) (hd : domainOn s 1 = true) (o : Nat)
    (v : Word32) : writePart s port p o v = updPart s p (fun x => writePartWord x o v) := by
  unfold writePart
  rw [ha, if_neg (by decide), if_neg (not_not.mpr hp), if_pos hd]

/-- A write held until the domain wakes (R25). -/
def heldWrite (s : State) (port : Port) (o v : Nat) : State :=
  { s with shadows := (port.val, o, v) :: s.shadows.filter (fun e => !(e.1 == port.val && e.2.1 == o)) }

theorem shadowAt_heldWrite (s : State) (port : Port) (o v : Nat) : shadowAt (heldWrite s port o v) (some port) o = some v := by
  simp [shadowAt, heldWrite]

theorem writePart_of_asleep (ha : s.parts[p].assigned = true) (hp : s.parts[p].port = port) (hd : domainOn s 1 = false) (o : Nat)
    (v : Word32) : writePart s port p o v = heldWrite s port (0x1000 * (p.val + 1) + o) v.toNat := by
  unfold writePart
  rw [ha, if_neg (by decide), if_neg (not_not.mpr hp), hd, if_neg Bool.false_ne_true]
  rfl

theorem writePart_of_unassigned (ha : s.parts[p].assigned = false) (o : Nat) (v : Word32) : writePart s port p o v = s := by
  unfold writePart
  rw [ha, if_pos (by decide)]

section
variable (ho : bar0Open s port = true) (hl : s.live = true)
include ho hl

theorem exec_partCtrl_of_open (v : Word32) : exec (.partCtrl port p v) s = .next (writePart s port p 0 v) := by
  have hx : exec (.partCtrl port p v) s = execPartCtrl port p v s := rfl
  rw [hx, execPartCtrl, ho, hl, if_pos (by decide)]

theorem exec_ringEnable_of_open (r : RingId) (v : Word32) :
    exec (.ringEnable port p r v) s = .next (writePart s port p (cfgOffset r) v) := by
  have hx : exec (.ringEnable port p r v) s = execRingEnable port p r v s := rfl
  rw [hx, execRingEnable, ho, hl, if_pos (by decide)]

end

theorem exec_registerWrite_misaligned (o : BitVec 16) (x : Word64) (h : o.toNat % 4 ≠ 0) :
    exec (.registerWrite port o false x) s = .next s := by
  have hx : exec (.registerWrite port o false x) s = .next (bar0Access s port o.toNat false x.toNat) := rfl
  rw [hx, bar0Access, if_pos (by simp [h])]

theorem exec_registerWrite_word {o : BitVec 16} (v : Word32) (ho : bar0Open s port = true) (h : o.toNat % 4 = 0) :
    exec (.registerWrite port o false (v.setWidth 64)) s = .next (bar0Write s port o.toNat v) := by
  have hx : exec (.registerWrite port o false (v.setWidth 64)) s = .next (bar0Access s port o.toNat false (v.setWidth 64).toNat) := rfl
  have hv : BitVec.ofNat 32 (v.setWidth 64).toNat = v := by
    apply BitVec.eq_of_toNat_eq
    rw [BitVec.toNat_ofNat, BitVec.toNat_setWidth]
    omega
  rw [hx, bar0Access, ho, if_neg (by simp [h]), if_neg Bool.false_ne_true, hv]

end

theorem fatal_of_live {s : State} (hl : s.live = true) : s.errors.fatal = false := by
  unfold State.live at hl
  simp only [Bool.and_eq_true, Bool.not_eq_true'] at hl
  exact hl.1.2

/-- An offset in the block of a partition. -/
theorem bar0Write_of_part {s : State} (port : Port) {p : Part} {o : Nat} (v : Word32) (hl : s.live = true) (ho : o < 0x1000) :
    bar0Write s port (0x1000 * (p.val + 1) + o) v = writePart s port p o v := by
  have hp := p.isLt
  have hpart : partN ((0x1000 * (p.val + 1) + o) / 0x1000 - 1) = p := Fin.ext (by simp [partN]; omega)
  have hoffset : (0x1000 * (p.val + 1) + o) % 0x1000 = o := by omega
  have hlo : 0x1000 ≤ 0x1000 * (p.val + 1) + o := by omega
  have hhi : 0x1000 * (p.val + 1) + o < 0x5000 := by omega
  unfold bar0Write
  rw [if_neg (by omega), if_neg (not_not.mpr (stage_of_live hl)), if_neg (by omega), if_neg (by omega), if_neg (by omega),
    fatal_of_live hl, if_neg Bool.false_ne_true, decide_eq_true hlo, decide_eq_true hhi, if_pos (by decide), hpart, hoffset]

theorem eqBase_offset (p : Part) : (BitVec.ofNat 16 (0x1008 + 0x1000 * p.val)).toNat = 0x1000 * (p.val + 1) + 8 := by
  have hp := p.isLt
  rw [BitVec.toNat_ofNat]
  omega

/-- Settles O31: the write by the state of the partition and its domain, then by the register. -/
theorem partitionRegistersAreWritten : Obligations.PartitionRegistersAreWritten := by
  intro s port p v ho hl other
  refine ⟨fun ha hp hd => ⟨?_, fun n hoff hv => ?_, fun n hon hnamed hv => ?_, fun hoff => ?_⟩, fun ha hp hd => ?_, fun ha => ?_, ?_⟩
  · rw [exec_partCtrl_of_open ho hl, writePart_of_awake ha hp hd]
    exact ⟨_, rfl, (updPart_at _ _ _).trans (writePartWord_ctrl v ha), fun p' hne => updPart_at_ne _ _ hne, rfl⟩
  · rw [exec_ringEnable_of_open ho hl, writePart_of_awake ha hp hd]
    have hring : (updPart s p (fun x => writePartWord x (cfgOffset (.sq n)) v)).parts[p].sq[n] =
        ringCfgWrite s.parts[p].sq[n] 0x00F0001F#32 s.parts[p].cq[(Fin.ofNat 16 (bits v.toNat 23 20) : Fin 16)].ring.enabled v := by
      rw [updPart_at, writePartWord_cfg, writeCfg_sq]
    refine ⟨_, rfl, fun p' hne => updPart_at_ne _ _ hne, rfl, fun hlo hhi hcq => ?_, fun hno => ?_⟩
    · exact hring.trans (ringCfgWrite_enables hoff hv hlo hhi hcq)
    · rw [hring]
      exact ringCfgWrite_disabled hoff hno
  · rw [exec_ringEnable_of_open ho hl, writePart_of_awake ha hp hd]
    exact ⟨_, rfl, updPart_of_fixed ((writePartWord_cfg _ _ v).trans (writeCfg_named hon hnamed hv))⟩
  · have hoffset := eqBase_offset p
    rw [exec_registerWrite_word v ho (by omega), hoffset, bar0Write_of_part port v hl (by decide), writePart_of_awake ha hp hd]
    exact ⟨_, rfl, fun p' hne => updPart_at_ne _ _ hne, (updPart_at _ _ _).trans (writePartWord_eqBase v hoff), rfl⟩
  · rw [exec_partCtrl_of_open ho hl, writePart_of_asleep ha hp hd]
    exact ⟨_, rfl, rfl, shadowAt_heldWrite s port (0x1000 * (p.val + 1)) v.toNat⟩
  · refine ⟨?_, fun r => ?_⟩
    · rw [exec_partCtrl_of_open ho hl, writePart_of_unassigned ha]
    · rw [exec_ringEnable_of_open ho hl, writePart_of_unassigned ha]
  · exact exec_registerWrite_misaligned

end Sys2Proof.Machine
end

section
/-! SUPPORT. HOST_LOCK, BAR4_CTRL, MSI-X vectors and the BAR4 window of a port (R301, R382, R498, R500). -/

namespace Sys2Proof.Machine

/-! ### One port updated -/

theorem updPort_at (s : State) (p : Port) (f : PciePort → PciePort) : (updPort s p f).ports[p] = f s.ports[p] := by
  simp [updPort]

theorem updPort_at_ne (s : State) {p p' : Port} (f : PciePort → PciePort) (h : p' ≠ p) : (updPort s p f).ports[p'] = s.ports[p'] := by
  have hval : ¬(p : Nat) = (p' : Nat) := fun k => h (Fin.ext k.symm)
  simp [updPort, Vector.getElem_set_ne _ _ hval]

theorem updPort_updPort (s : State) (p : Port) (f g : PciePort → PciePort) : updPort (updPort s p f) p g = updPort s p (fun x => g (f x)) := by
  simp [updPort]

/-! ### HOST_LOCK and BAR4_CTRL -/

section
variable {s : State} {port : Port}

theorem exec_hostLock_of_open (ho : bar0Open s port = true) (hl : s.live = true) (v : Word32) :
    exec (.hostLock port v) s = .next (writeHostLock s port v) := by
  have hx : exec (.hostLock port v) s = execHostLock port v s := rfl
  rw [hx, execHostLock, ho, hl, if_pos (by decide)]

theorem bar0Write_bar4Ctrl (hl : s.live = true) (v : Word32) : bar0Write s port 0x9000 v = writeBar4Ctrl s port v := by
  unfold bar0Write
  rw [if_neg (by decide), if_neg (not_not.mpr (stage_of_live hl)), if_neg (by decide), if_neg (by decide), if_neg (by decide),
    fatal_of_live hl, if_neg Bool.false_ne_true, if_neg (by decide), if_neg (by decide), if_pos rfl]

theorem exec_registerWrite_bar4Ctrl (ho : bar0Open s port = true) (hl : s.live = true) (v : Word64) :
    exec (.registerWrite port 0x9000#16 false v) s = .next (writeBar4Ctrl s port (BitVec.ofNat 32 v.toNat)) := by
  have hx : exec (.registerWrite port 0x9000#16 false v) s = .next (bar0Access s port 0x9000 false v.toNat) := rfl
  rw [hx, bar0Access, ho, if_neg (by decide), if_neg Bool.false_ne_true, bar0Write_bar4Ctrl hl]

theorem writeBar4Ctrl_of_locked (h : s.ports[port].locked = true) (v : Word32) : writeBar4Ctrl s port v = s := by
  rw [writeBar4Ctrl, if_pos h]

/-- The BASE_INDEX that a write of BAR4_CTRL gives: the written one up to 8, else the one that stands (R382). -/
def bar4Base (s : State) (port : Port) (v : Word32) : Nat := if v.toNat % 16 ≤ 8 then v.toNat % 16 else s.ports[port].bar4Ctrl.toNat % 16

/-- BAR4_CTRL with ENABLE and a BASE_INDEX. -/
def bar4Word (on : Bool) (base : Nat) : Word32 := BitVec.ofNat 32 ((if on then 2 ^ 31 else 0) + base)

theorem writeBar4Ctrl_of_unlocked (h : s.ports[port].locked = false) (v : Word32) : writeBar4Ctrl s port v =
    updPort s port (fun x => { x with bar4Ctrl := bar4Word (v.getLsbD 31) (bar4Base s port v) }) := by
  rw [writeBar4Ctrl, h, if_neg Bool.false_ne_true]
  rfl

end

theorem toNat_bar4Word (on : Bool) {base : Nat} (h : base < 16) : (bar4Word on base).toNat = (if on then 2 ^ 31 else 0) + base := by
  rw [bar4Word, BitVec.toNat_ofNat, Nat.mod_eq_of_lt]
  split <;> omega

theorem bar4Word_base (on : Bool) {base : Nat} (h : base < 16) : (bar4Word on base).toNat % 16 = base := by
  rw [toNat_bar4Word on h]
  split <;> omega

theorem bar4Word_enable (on : Bool) {base : Nat} (h : base < 16) : (bar4Word on base).getLsbD 31 = on := by
  rw [BitVec.getLsbD, toNat_bar4Word on h, Nat.testBit_eq_decide_div_mod_eq]
  cases on with
  | true => exact decide_eq_true (by rw [if_pos rfl]; omega)
  | false => exact decide_eq_false (by rw [if_neg Bool.false_ne_true]; omega)

/-! ### MSI-X vectors -/

section
variable {s : State} {port : Port} {n : Fin 64} {v : Word32}

theorem exec_vectorCtrl_of_open (ho : bar0Open s port = true) (hl : s.live = true) (n : Fin 64) (v : Word32) :
    exec (.vectorCtrl port n v) s = .next (writeVectorCtrl s port n v) := by
  have hx : exec (.vectorCtrl port n v) s = execVectorCtrl port n v s := rfl
  rw [hx, execVectorCtrl, ho, hl, if_pos (by decide)]

/-- A port with the mask of a vector written. -/
def maskWritten (x : PciePort) (n : Fin 64) (v : Word32) : PciePort :=
  { x with msix := x.msix.set n { x.msix[n] with ctrl := v &&& 1#32 } }

/-- A port whose pending vector has been unmasked and its message sent. -/
def vectorSent (x : PciePort) (n : Fin 64) (v : Word32) : PciePort :=
  { maskWritten x n v with
    pba := x.pba &&& ~~~(1#64 <<< n.val), host := x.host.writeBytes x.msix[n].addr.toNat (le 4 x.msix[n].data.toNat) }

theorem writeVectorCtrl_quiet (h : s.ports[port].msix[n].ctrl.getLsbD 0 = false ∨ v.getLsbD 0 = true ∨ s.ports[port].pba.getLsbD n = false) :
    writeVectorCtrl s port n v = updPort s port (fun x => maskWritten x n v) := by
  have hcond : (s.ports[port].msix[n].ctrl.getLsbD 0 && !v.getLsbD 0 && s.ports[port].pba.getLsbD n) = false := by
    obtain h | h | h := h
    · rw [h]
      rfl
    · rw [h]
      simp only [Bool.not_true, Bool.and_false, Bool.false_and]
    · rw [h, Bool.and_false]
  unfold writeVectorCtrl
  dsimp only
  rw [hcond, if_neg Bool.false_ne_true]
  rfl

/-- The message of an unmasked vector. -/
theorem signalVector_of_unmasked (h : (s.ports[port].msix[n]).ctrl.getLsbD 0 = false) : signalVector s port n.val =
    updHost s port (fun m => m.writeBytes s.ports[port].msix[n].addr.toNat (le 4 s.ports[port].msix[n].data.toNat)) := by
  have hget : s.ports[port].msix.toArray.getD n.val ⟨0, 0, 1⟩ = s.ports[port].msix[n] := by simp
  unfold signalVector
  rw [hget]
  dsimp only
  rw [h, if_neg Bool.false_ne_true]

theorem writeVectorCtrl_pending (hm : s.ports[port].msix[n].ctrl.getLsbD 0 = true) (hv : v.getLsbD 0 = false)
    (hp : s.ports[port].pba.getLsbD n = true) : writeVectorCtrl s port n v = updPort s port (fun x => vectorSent x n v) := by
  have hcond : (s.ports[port].msix[n].ctrl.getLsbD 0 && !v.getLsbD 0 && s.ports[port].pba.getLsbD n) = true := by
    rw [hm, hv, hp]
    rfl
  have hwritten : writeVectorCtrl s port n v = signalVector
      (updPort s port (fun x => { maskWritten x n v with pba := x.pba &&& ~~~(1#64 <<< n.val) })) port n.val := by
    unfold writeVectorCtrl
    dsimp only
    rw [hcond, if_pos rfl, updPort_updPort]
    rfl
  have hzero : (v &&& 1#32).getLsbD 0 = false := by
    rw [BitVec.getLsbD_and, hv]
    rfl
  have hunmasked : (updPort s port (fun x => { maskWritten x n v with pba := x.pba &&& ~~~(1#64 <<< n.val) })).ports[port].msix[n].ctrl.getLsbD 0 =
      false := by
    rw [updPort_at]
    simpa [maskWritten] using hzero
  rw [hwritten, signalVector_of_unmasked hunmasked, updHost, updPort_at, updPort_updPort]
  simp [updPort, vectorSent, maskWritten]

end

/-! ### The BAR4 window -/

/-- The bytes that an access reaches. -/
def bar4Length (op : Bar4Op) : Nat :=
  match op with
  | .read k => k
  | .write b => b.length

theorem bar4_takes {s : State} {port : Port} (hopen : bar4Open s port = true) (hidle : s.ports[port].bar4Left = 0) :
    ¬(!bar4Open s port || decide (0 < s.ports[port].bar4Left)) = true := by
  rw [hopen, hidle]
  decide

section
variable {s : State} {port : Port} {off : BitVec 36} {op : Bar4Op} {a : Nat}
  (hopen : bar4Open s port = true) (hidle : s.ports[port].bar4Left = 0) (ha : a = (s.ports[port].bar4Ctrl.toNat % 16) * 2 ^ 36 + off.toNat)
include hopen hidle

theorem exec_bar4Access_of_disabled (hoff : bit s.ports[port].bar4Ctrl.toNat 31 = false) :
    exec (.bar4Access port off op) s = .next (bar4Refuse s port op) := by
  have hx : exec (.bar4Access port off op) s = execBar4Access port off op s := rfl
  rw [hx]
  unfold execBar4Access
  rw [if_neg (bar4_takes hopen hidle)]
  dsimp only
  rw [hoff, if_pos (by decide)]

include ha

theorem exec_bar4Access_of_foreign (hon : bit s.ports[port].bar4Ctrl.toNat 31 = true)
    (hmine : (bar4Bound s port a && bar4Bound s port (a + bar4Length op - 1)) = false) :
    exec (.bar4Access port off op) s = .next (bump (bar4Refuse s port op) 0x42 port.val 1) := by
  subst ha
  have hx : exec (.bar4Access port off op) s = execBar4Access port off op s := rfl
  rw [hx]
  unfold execBar4Access
  rw [if_neg (bar4_takes hopen hidle)]
  dsimp only
  rw [hon, if_neg (by decide)]
  exact congrArg _ (if_pos (congrArg _ hmine))

theorem exec_bar4Access_of_room (hon : bit s.ports[port].bar4Ctrl.toNat 31 = true)
    (hmine : (bar4Bound s port a && bar4Bound s port (a + bar4Length op - 1)) = true) (hroom : bar4Room s a (bar4Length op) = true) :
    exec (.bar4Access port off op) s =
      .next (match op with | .read k => bar4Read s port a k | .write b => bar4Write s port a b) := by
  subst ha
  have hx : exec (.bar4Access port off op) s = execBar4Access port off op s := rfl
  rw [hx]
  unfold execBar4Access
  rw [if_neg (bar4_takes hopen hidle)]
  dsimp only
  refine congrArg _ ((if_neg fun hno => ?_).trans ((if_neg fun hno => ?_).trans ((if_neg fun hno => ?_).trans ?_)))
  · exact absurd (hno.symm.trans (congrArg _ hon)) (by decide)
  · exact absurd (hno.symm.trans (congrArg _ hmine)) (by decide)
  · exact absurd (hno.symm.trans (congrArg _ hroom)) (by decide)
  · cases op <;> rfl

/-- A refused access changes the counter and, for a read, what the port reads. -/
theorem exec_bar4Access_refused
    (h : bit s.ports[port].bar4Ctrl.toNat 31 = false ∨ (bar4Bound s port a && bar4Bound s port (a + bar4Length op - 1)) = false) :
    ∃ t, exec (.bar4Access port off op) s = .next t ∧ t = { bar4Refuse s port op with telemetry := t.telemetry } := by
  cases hon : bit s.ports[port].bar4Ctrl.toNat 31 with
  | false => exact ⟨_, exec_bar4Access_of_disabled (a := a) hopen hidle hon, rfl⟩
  | true => exact ⟨_, exec_bar4Access_of_foreign hopen hidle ha hon (h.resolve_left (by rw [hon]; decide)), rfl⟩

end

/-- The lines of a read join the queues and leave the rest. -/
theorem foldl_setQueue_frame (entry : Nat × Nat → LineEntry) (l : List (Nat × Nat)) (s : State) :
    let t := l.foldl (fun s x => setQueue s (.hbm (stackAt s x.1)) (queueOf s (.hbm (stackAt s x.1)) ++ [entry x])) s
    t = { s with lineQueues := t.lineQueues } := by
  induction l generalizing s with
  | nil => rfl
  | cons x l ih =>
    exact (ih (setQueue s (.hbm (stackAt s x.1)) (queueOf s (.hbm (stackAt s x.1)) ++ [entry x]))).trans rfl

/-- A port that waits for a read. -/
def bar4Waits (s : State) (port : Port) (a k : Nat) : State :=
  updPort s port (fun x => { x with bar4Data := some (zeros k), bar4Start := a, bar4Left := k, bar4Poison := false })

theorem bar4Read_frame (s : State) (port : Port) (a k : Nat) :
    (bar4Read s port a k).ports[port] = { s.ports[port] with bar4Data := some (zeros k), bar4Start := a, bar4Left := k, bar4Poison := false } ∧
      bar4Read s port a k = { s with ports := (bar4Read s port a k).ports, lineQueues := (bar4Read s port a k).lineQueues } := by
  have hframe : bar4Read s port a k = { bar4Waits s port a k with lineQueues := (bar4Read s port a k).lineQueues } :=
    foldl_setQueue_frame (fun x => bar4Entry port .load x.1 x.2 []) (linePieces a k) (bar4Waits s port a k)
  have hports : (bar4Read s port a k).ports = (bar4Waits s port a k).ports := by rw [hframe]
  refine ⟨?_, ?_⟩
  · rw [hports]
    exact updPort_at _ _ _
  · rw [hports]
    exact hframe.trans rfl

theorem bar4Refuse_read (s : State) (port : Port) (k : Nat) :
    (bar4Refuse s port (.read k)).ports[port].bar4Data = none ∧ (bar4Refuse s port (.read k)).ports[port].bar4Left = 0 := by
  rw [bar4Refuse, updPort_at]
  exact ⟨rfl, rfl⟩

/-- Settles O33: each register by its lock or mask, the window by its bounds. -/
theorem portRegistersAndWindow : Obligations.PortRegistersAndWindow := by
  intro s port ho hl
  refine ⟨fun v => ?_, fun v => ?_, fun n v => ?_, fun off a hopen hidle ha => ?_⟩
  · exact ⟨_, exec_hostLock_of_open ho hl v, rfl, updPort_at _ _ _, fun p' hne => updPort_at_ne _ _ hne⟩
  · refine ⟨_, exec_registerWrite_bar4Ctrl ho hl v, fun hlocked => writeBar4Ctrl_of_locked hlocked _, fun hfree => ?_⟩
    have hmod : (BitVec.ofNat 32 v.toNat).toNat % 16 = v.toNat % 16 := by
      rw [BitVec.toNat_ofNat]
      omega
    have hbit : (BitVec.ofNat 32 v.toNat).getLsbD 31 = v.getLsbD 31 := by
      rw [BitVec.getLsbD, BitVec.toNat_ofNat, Nat.testBit_mod_two_pow]
      rfl
    have hbase : bar4Base s port (BitVec.ofNat 32 v.toNat) < 16 := by
      unfold bar4Base
      split <;> omega
    rw [writeBar4Ctrl_of_unlocked hfree, updPort_at]
    refine ⟨rfl, rfl, (bar4Word_enable _ hbase).trans hbit, fun hle => ?_, fun hgt => ?_⟩
    · exact (bar4Word_base _ hbase).trans ((if_pos (hmod.symm ▸ hle)).trans hmod)
    · exact (bar4Word_base _ hbase).trans (if_neg (by omega))
  · rw [exec_vectorCtrl_of_open ho hl]
    by_cases hpending : s.ports[port].msix[n].ctrl.getLsbD 0 = true ∧ v.getLsbD 0 = false ∧ s.ports[port].pba.getLsbD n = true
    · obtain ⟨hm, hv, hp⟩ := hpending
      rw [writeVectorCtrl_pending hm hv hp]
      refine ⟨_, rfl, rfl, fun p' hne => updPort_at_ne _ _ hne, ?_, fun _ _ _ => ?_, fun hno => ?_⟩
      · rw [updPort_at]
        rfl
      · rw [updPort_at]
        exact ⟨rfl, rfl⟩
      · exact absurd hno (by rw [hm, hv, hp]; decide)
    · have hquiet : s.ports[port].msix[n].ctrl.getLsbD 0 = false ∨ v.getLsbD 0 = true ∨ s.ports[port].pba.getLsbD n = false := by
        by_contra hno
        simp only [not_or, Bool.not_eq_false, Bool.not_eq_true] at hno
        exact hpending hno
      rw [writeVectorCtrl_quiet hquiet]
      refine ⟨_, rfl, rfl, fun p' hne => updPort_at_ne _ _ hne, ?_, fun hm hv hp => absurd ⟨hm, hv, hp⟩ hpending, fun _ => ?_⟩
      · rw [updPort_at]
        rfl
      · rw [updPort_at]
        exact ⟨rfl, rfl⟩
  · intro on mine
    refine ⟨fun b => ?_, fun k => ?_⟩
    · refine ⟨fun hno => ?_, fun hon hmine hroom => exec_bar4Access_of_room (op := .write b) hopen hidle ha hon hmine hroom⟩
      obtain ⟨t, hexec, hframe⟩ := exec_bar4Access_refused (op := .write b) hopen hidle ha hno
      exact ⟨t, hexec, hframe⟩
    · refine ⟨fun hno => ?_, fun hon hmine hroom => ?_⟩
      · obtain ⟨t, hexec, hframe⟩ := exec_bar4Access_refused (op := .read k) hopen hidle ha hno
        refine ⟨t, hexec, ?_, ?_⟩
        · rw [hframe]
          rfl
        · rw [hframe]
          exact bar4Refuse_read s port k
      · exact ⟨_, exec_bar4Access_of_room (op := .read k) hopen hidle ha hon hmine hroom, bar4Read_frame s port a k⟩

end Sys2Proof.Machine
end

section
/-! SUPPORT. The firmware image (R448 to R453, R461), power good and its loss, and the warm resets (R444 to R446, R448, R516). -/

namespace Sys2Proof.Machine

/-! ### A record noted and a boot failure -/

section
variable (s : State) (code unit : Nat) (stamp : Stamp) (a0 a1 a2 : Nat)

theorem note_frame : note s code unit stamp a0 a1 a2 =
    { s with blotter := (note s code unit stamp a0 a1 a2).blotter, telemetry := (note s code unit stamp a0 a1 a2).telemetry } := by
  obtain ⟨b, tl, h⟩ := note_only s code unit stamp a0 a1 a2
  rw [h]

theorem note_boot : (note s code unit stamp a0 a1 a2).boot = s.boot := by rw [note_frame]

theorem note_pins : (note s code unit stamp a0 a1 a2).pins = s.pins := by rw [note_frame]

/-- With power good a record raises HEAD by one and leaves the freeze as it is. -/
theorem note_blotter (h : s.pins.pwrGood = true) : (note s code unit stamp a0 a1 a2).blotter.head = s.blotter.head + 1 ∧
    (note s code unit stamp a0 a1 a2).blotter.frozen = s.blotter.frozen ∧
    (note s code unit stamp a0 a1 a2).blotter.freezeOnJob = s.blotter.freezeOnJob := by
  unfold note
  rw [h, if_neg (by decide)]
  dsimp only
  split <;> exact ⟨rfl, rfl, rfl⟩

end

section
variable (s : State) (code detail : Nat) (st : Stage)

theorem bootFail_boot : (bootFail s code detail st).boot =
    { s.boot with errCode := BitVec.ofNat 8 code, errDetail := BitVec.ofNat 16 detail, stage := st } := note_boot _ _ _ _ _ _ _

theorem bootFail_pins : (bootFail s code detail st).pins = { s.pins with faultN := st != Stage.halted } := note_pins _ _ _ _ _ _ _

theorem bootFail_frame : bootFail s code detail st =
    { s with boot := (bootFail s code detail st).boot, pins := (bootFail s code detail st).pins,
             blotter := (bootFail s code detail st).blotter, telemetry := (bootFail s code detail st).telemetry } := by
  rw [bootFail_boot, bootFail_pins]
  exact note_frame _ _ _ _ _ _ _

end

/-! ### GO and the copy of the image -/

/-- The boot registers after GO is taken (R451). -/
def goTaken (b : Boot) (port : Port) : Boot :=
  { b with attempts := if b.attempts = 15 then 15 else b.attempts + 1, fwPort := BitVec.ofNat 1 port.val,
           fwDigest := zeros 64, fwVersion := 0, fwEpoch := 0 }

theorem exec_go_of_waitImage {s : State} {port : Port} {v : Word32} (ho : bar0Open s port = true) (hs : s.boot.stage = .waitImage)
    (hv : v.getLsbD 0 = true) :
    exec (.go port v) s = .next (if (decide (0x2000 ≤ s.boot.imageLen.toNat) && decide (s.boot.imageLen.toNat ≤ 0x2000000)) = true then
        { s with boot := { goTaken s.boot port with stage := .fetching } }
      else note { s with boot := { goTaken s.boot port with errCode := 0x10, errDetail := 0 } } 0x2 (unitCpb 0) 0 0x10 0 0) := by
  have hx : exec (.go port v) s = execGo port v s := rfl
  rw [hx, execGo, if_pos ho, writeGo, hv, hs, if_neg (by decide)]
  rfl

section
variable {s : State} (hs : s.boot.stage = .fetching)
include hs

theorem exec_imageFetchDone_whole {b : Bytes} (hb : b.length = s.boot.imageLen.toNat) :
    exec (.imageFetchDone (some b)) s = .next { s with boot := { s.boot with stage := .verifying, image := some b, beat := 8 } } := by
  have hx : exec (.imageFetchDone (some b)) s = execImageFetchDone (some b) s := rfl
  rw [hx, execImageFetchDone, hs, if_neg (by decide)]
  dsimp only
  rw [if_pos hb]

theorem exec_imageFetchDone_other {o : Option Bytes} (ho : ∀ b, o = some b → b.length ≠ s.boot.imageLen.toNat) :
    exec (.imageFetchDone o) s = .next (bootFail s 0x11 0 .waitImage) := by
  have hx : exec (.imageFetchDone o) s = execImageFetchDone o s := rfl
  rw [hx]
  unfold execImageFetchDone
  rw [hs, if_neg (by decide)]
  cases o with
  | none => rfl
  | some b =>
    dsimp only
    rw [if_neg (ho b rfl)]

end

/-! ### The image verified -/

/-- The boot registers with an image accepted (R461). -/
def imageAccepted (b : Boot) (image : Bytes) : Boot :=
  { b with stage := .starting, beat := 9, fwDigest := slice image 0x20 64, fwVersion := BitVec.ofNat 64 (u64 image 0x10),
           fwEpoch := BitVec.ofNat 32 (u32 image 0x18) }

section
variable {s : State} {b : Bytes} (hi : s.boot.image = some b) (hs : s.boot.stage = .verifying)
include hi hs

theorem exec_imageVerifyDone_good (h : imageFlaw b = none) : exec .imageVerifyDone s = .next (note
    { s with boot := imageAccepted s.boot b, errors := { s.errors with supervised := true } } 0x3 (unitCpb 0) 0 (u64 b 0x10) (u32 b 0x18) 0) := by
  have hx : exec .imageVerifyDone s = execImageVerifyDone s := rfl
  rw [hx, execImageVerifyDone, hi]
  dsimp only
  rw [hs, if_neg (by decide), h]
  rfl

theorem exec_imageVerifyDone_flawed {code : Nat} (h : imageFlaw b = some code) : exec .imageVerifyDone s =
    .next (bootFail { s with boot := { s.boot with image := none } } code 0 .waitImage) := by
  have hx : exec .imageVerifyDone s = execImageVerifyDone s := rfl
  rw [hx, execImageVerifyDone, hi]
  dsimp only
  rw [hs, if_neg (by decide), h]

end

/-- A little-endian number of n bytes. -/
theorem uN_lt (b : Bytes) : ∀ n o : Nat, uN b o n < 256 ^ n
  | 0, _ => Nat.one_pos
  | n + 1, o => by
    have htail := uN_lt b n (o + 1)
    have hhead : u8 b o < 256 := (b.getD o 0).isLt
    have hsplit : uN b o (n + 1) = u8 b o + 256 * uN b (o + 1) n := rfl
    rw [hsplit, Nat.pow_succ]
    omega

theorem imageAccepted_version (r : Boot) (b : Bytes) :
    (imageAccepted r b).fwVersion.toNat = u64 b 0x10 ∧ (imageAccepted r b).fwEpoch.toNat = u32 b 0x18 := by
  have h64 : u64 b 0x10 < 2 ^ 64 := uN_lt b 8 0x10
  have h32 : u32 b 0x18 < 2 ^ 32 := uN_lt b 4 0x18
  exact ⟨(BitVec.toNat_ofNat _ _).trans (Nat.mod_eq_of_lt h64), (BitVec.toNat_ofNat _ _).trans (Nat.mod_eq_of_lt h32)⟩

/-! ### The end of beat 10 -/

section
variable {s : State} (hs : s.boot.stage = .starting) (hf : s.errors.fatal = false) (ht : s.power.tripped = false)
include hs hf ht

theorem exec_bootReady_of_starting : exec (.bootReady .ready) s = .next (bootReady s) := by
  have hx : exec (.bootReady .ready) s = execBootReady .ready s := rfl
  rw [hx, execBootReady, hs, hf, ht, if_neg (by decide)]

theorem exec_bootReady_failed (n : Stack) (c : Fin 16) (code : Word16) (how : BootEnd) (err detail : Nat)
    (h : (how = .hbmTrain n ∧ err = 0x20 ∧ detail = n.val) ∨ (how = .scribeStart c ∧ err = 0x21 ∧ detail = c.val) ∨
      (how = .firmwareInit code ∧ err = 0x22 ∧ detail = code.toNat)) :
    exec (.bootReady how) s = .next (bootFail { s with errors := { s.errors with supervised := false } } err detail .halted) := by
  have hx : exec (.bootReady how) s = execBootReady how s := rfl
  rw [hx]
  unfold execBootReady
  rw [hs, hf, ht, if_neg (by decide)]
  obtain ⟨rfl, rfl, rfl⟩ | ⟨rfl, rfl, rfl⟩ | ⟨rfl, rfl, rfl⟩ := h <;> rfl

end

/-- The training of the ports and the entries of the bands leave the boot registers. -/
theorem bootReady_boot (s : State) : (bootReady s).boot = { s.boot with stage := .ready, beat := 10 } :=
  ((offerUnowned_keeps (lv := true) _ (Keeps.foldl (fun _ p k => startTraining_keeps p k) (Keeps.refl _))).held rfl).boot

/-- Settles O35: GO, the copy, the verification and beat 10, each by its outcome. -/
theorem bootTakesItsImage : Obligations.BootTakesItsImage := by
  intro s
  refine ⟨fun port v ho hs hv => ?_, fun hs => ⟨fun b hb => ?_, fun o ho => ?_⟩, fun b hi hs => ?_, fun hs hf ht => ⟨?_, ?_⟩⟩
  · refine ⟨_, exec_go_of_waitImage ho hs hv, ?_⟩
    by_cases hlen : 0x2000 ≤ s.boot.imageLen.toNat ∧ s.boot.imageLen.toNat ≤ 0x2000000
    · rw [if_pos (by simpa using hlen)]
      exact ⟨rfl, rfl, fun _ _ => ⟨rfl, rfl⟩, fun h => by omega⟩
    · rw [if_neg (by simpa using hlen), note_frame]
      exact ⟨rfl, rfl, fun h1 h2 => absurd ⟨h1, h2⟩ hlen, fun _ => ⟨hs, rfl, rfl, rfl⟩⟩
  · exact ⟨_, exec_imageFetchDone_whole hs hb, rfl⟩
  · exact ⟨_, exec_imageFetchDone_other hs ho, bootFail_boot _ _ _ _, bootFail_pins _ _ _ _⟩
  · cases hflaw : imageFlaw b with
    | none =>
      refine ⟨_, exec_imageVerifyDone_good hi hs hflaw, fun _ => ?_, fun _ h => absurd h (by simp)⟩
      obtain ⟨hversion, hepoch⟩ := imageAccepted_version s.boot b
      rw [note_frame]
      exact ⟨rfl, rfl, hversion, hepoch, rfl, rfl⟩
    | some code =>
      refine ⟨_, exec_imageVerifyDone_flawed hi hs hflaw, fun h => absurd h (by simp), fun _ h => ?_⟩
      cases h
      exact bootFail_boot _ _ _ _
  · refine ⟨_, exec_bootReady_of_starting hs hf ht, bootReady_boot s, ?_⟩
    rw [bootReady_boot]
    rfl
  · intro n c code how err detail h
    exact ⟨_, exec_bootReady_failed hs hf ht n c code how err detail h, congrArg Pins.faultN (bootFail_pins _ _ _ _), bootFail_boot _ _ _ _⟩

/-! ### What beats 2 to 6 leave -/

/-- What the beats up to 6 write, and what of the boot registers they keep. -/
structure Booted (s t : State) : Prop where
  frame : t = { s with boot := t.boot, pins := t.pins, blotter := t.blotter, telemetry := t.telemetry, power := t.power, ports := t.ports }
  pwrGood : t.pins.pwrGood = s.pins.pwrGood
  bootCount : t.boot.bootCount = s.boot.bootCount
  held : t.boot.held = s.boot.held
  slotId : t.boot.slotId = s.boot.slotId
  head : s.blotter.head ≤ t.blotter.head

theorem Booted.trans {s t u : State} (h : Booted s t) (k : Booted t u) : Booted s u where
  frame := by
    rw [k.frame, h.frame]
  pwrGood := k.pwrGood.trans h.pwrGood
  bootCount := k.bootCount.trans h.bootCount
  held := k.held.trans h.held
  slotId := k.slotId.trans h.slotId
  head := h.head.trans k.head

theorem bootFail_booted (s : State) (code detail : Nat) (st : Stage) : Booted s (bootFail s code detail st) where
  frame := by
    rw [bootFail_frame]
  pwrGood := by rw [bootFail_pins]
  bootCount := by rw [bootFail_boot]
  held := by rw [bootFail_boot]
  slotId := by rw [bootFail_boot]
  head := (bootFail_keeps code detail st (Keeps.refl s)).head

theorem beat6_booted (s : State) (r : Bytes) : Booted s (beat6 s r) := by
  unfold beat6
  split
  · exact bootFail_booted s _ _ _
  · exact ⟨rfl, rfl, rfl, rfl, rfl, Nat.le_refl _⟩

/-- The boot registers with the record's identity. -/
def recordTaken (s : State) (r seed : Bytes) : State :=
  { s with boot := { s.boot with recordOk := true, serial := slice r 0x10 16, identityHash := sha3_512 (identityKey seed) } }

theorem beat5_booted (s : State) (r seed : Bytes) : Booted s (beat5 s r seed) := by
  have hrecordTaken : Booted s (recordTaken s r seed) := ⟨rfl, rfl, rfl, rfl, rfl, Nat.le_refl _⟩
  have hloaded : Booted s (beatEnds (loadPolicy (recordTaken s r seed) r) 5) := ⟨rfl, rfl, rfl, rfl, rfl, Nat.le_refl _⟩
  unfold beat5
  split
  · exact bootFail_booted s _ _ _
  · split
    · exact bootFail_booted s _ _ _
    · split
      · exact bootFail_booted s _ _ _
      · split
        · exact bootFail_booted s _ _ _
        · dsimp only
          split
          · exact hrecordTaken.trans (bootFail_booted _ _ _ _)
          · exact hloaded.trans (beat6_booted _ r)

/-! ### How beats 3 to 6 end -/

section
variable {s : State}

theorem beat3_of_noRecord (h : s.silicon.eeprom = none ∨ ∃ r, s.silicon.eeprom = some r ∧ r.length < 256) :
    beat3 s = bootFail s 0x01 0 .halted := by
  unfold beat3
  obtain hnone | ⟨r, hr, hlen⟩ := h
  · rw [hnone]
  · rw [hr]
    dsimp only
    rw [if_pos hlen]

variable {r : Bytes} (hr : s.silicon.eeprom = some r) (hlen : 256 ≤ r.length)
include hr hlen

theorem beat3_of_badHeader (h : recordHeaderOk r = false) : beat3 s = bootFail s 0x02 0 .halted := by
  unfold beat3
  rw [hr]
  dsimp only
  rw [if_neg (Nat.not_lt.mpr hlen), h, if_pos (by decide)]

theorem beat3_of_noSeed (h : recordHeaderOk r = true) (hseed : s.silicon.pufSeed = none) : beat3 s = bootFail s 0x05 0 .halted := by
  unfold beat3
  rw [hr]
  dsimp only
  rw [if_neg (Nat.not_lt.mpr hlen), h, if_neg (by decide), hseed]

theorem beat3_of_header {seed : Bytes} (h : recordHeaderOk r = true) (hseed : s.silicon.pufSeed = some seed) :
    beat3 s = beat5 (beatEnds { s with boot := { s.boot with seed := some seed } } 4) r seed := by
  unfold beat3
  rw [hr]
  dsimp only
  rw [if_neg (Nat.not_lt.mpr hlen), h, if_neg (by decide), hseed]

end

theorem beat3_booted (s : State) : Booted s (beat3 s) := by
  cases hr : s.silicon.eeprom with
  | none =>
    rw [beat3_of_noRecord (.inl hr)]
    exact bootFail_booted s _ _ _
  | some r =>
    by_cases hlen : r.length < 256
    · rw [beat3_of_noRecord (.inr ⟨r, hr, hlen⟩)]
      exact bootFail_booted s _ _ _
    cases hh : recordHeaderOk r with
    | false =>
      rw [beat3_of_badHeader hr (Nat.not_lt.mp hlen) hh]
      exact bootFail_booted s _ _ _
    | true =>
      cases hseed : s.silicon.pufSeed with
      | none =>
        rw [beat3_of_noSeed hr (Nat.not_lt.mp hlen) hh hseed]
        exact bootFail_booted s _ _ _
      | some seed =>
        have hbeat4 : Booted s (beatEnds { s with boot := { s.boot with seed := some seed } } 4) := ⟨rfl, rfl, rfl, rfl, rfl, Nat.le_refl _⟩
        rw [beat3_of_header hr (Nat.not_lt.mp hlen) hh hseed]
        exact hbeat4.trans (beat5_booted _ r seed)

theorem beat5_of_good {s : State} {r seed : Bytes} (hw : recordWhole r = true) (hp : recordPolicyOk r = true) (hk : recordKeyOk r = true)
    (hs : recordSignatureOk r = true) (hid : sha3_512 (identityKey seed) = slice r 0x40 64) :
    beat5 s r seed = beat6 (beatEnds (loadPolicy (recordTaken s r seed) r) 5) r := by
  unfold beat5
  dsimp only
  rw [hw, hp, hk, hs, if_neg (by decide), if_neg (by decide), if_neg (by decide), if_neg (by decide),
    if_neg (by rw [hid]; simp)]
  rfl

theorem beat6_of_good {s : State} {r : Bytes} (h : repairOk r = true) :
    beat6 s r = { beatEnds s 6 with ports := Vector.ofFn (fun p => { s.ports[p] with training := s.pins.perstN[p] }) } := by
  unfold beat6
  rw [h, if_neg (by decide)]

/-- A good record ends beat 6: the record's identity stands and each port with PERST# released trains (R448). -/
theorem beat3_of_good {s : State} {r seed : Bytes} (hr : s.silicon.eeprom = some r) (hlen : 256 ≤ r.length) (hh : recordHeaderOk r = true)
    (hseed : s.silicon.pufSeed = some seed) (hw : recordWhole r = true) (hp : recordPolicyOk r = true) (hk : recordKeyOk r = true)
    (hs : recordSignatureOk r = true) (hid : sha3_512 (identityKey seed) = slice r 0x40 64) (hrepair : repairOk r = true) :
    (beat3 s).boot.stage = s.boot.stage ∧ (beat3 s).boot.beat = 6 ∧ (beat3 s).boot.serial = slice r 0x10 16 ∧
      (beat3 s).boot.identityHash = slice r 0x40 64 ∧ ∀ p : Port, (beat3 s).ports[p].training = s.pins.perstN[p] := by
  rw [beat3_of_header hr hlen hh hseed, beat5_of_good hw hp hk hs hid, beat6_of_good hrepair]
  refine ⟨rfl, rfl, rfl, hid, fun p => ?_⟩
  simp [beatEnds, loadPolicy, recordTaken]

/-! ### Beat 2 -/

/-- The state when beat 2 has ended, with its record. -/
def beat2 (s : State) : State :=
  note (beatEnds { s with boot := { s.boot with held := false, slotId := s.pins.slotStrap } } 2) 0x1 (unitCpb 0) 0 s.boot.bootCount.toNat
    Config.romVersion.toNat 0

theorem bootFromBeat2_of_released {s : State} (h : s.pins.modResetN = true) : bootFromBeat2 s = beat3 (beat2 s) := by
  rw [bootFromBeat2, h, if_neg (by decide)]
  rfl

theorem bootFromBeat2_of_held {s : State} (h : s.pins.modResetN = false) : bootFromBeat2 s = { s with boot := { s.boot with held := true } } := by
  rw [bootFromBeat2, h, if_pos (by decide)]

theorem beat2_frame (s : State) : beat2 s =
    { s with blotter := (beat2 s).blotter, telemetry := (beat2 s).telemetry,
             boot := { s.boot with held := false, slotId := s.pins.slotStrap, beat := 2 } } := note_frame _ _ _ _ _ _ _

theorem beat2_head {s : State} (h : s.pins.pwrGood = true) : (beat2 s).blotter.head = s.blotter.head + 1 :=
  (note_blotter (beatEnds { s with boot := { s.boot with held := false, slotId := s.pins.slotStrap } } 2) _ _ _ _ _ _ h).1

/-! ### The resets -/

/-- A state with nothing loaded and every partition, region, setting and route at its reset value. -/
def startsFresh (t : State) : Prop :=
  t.mem = Memory.empty ∧ t.folios = [] ∧ t.longs = [] ∧ t.cmds = [] ∧ t.parts = State.reset.parts ∧ t.regions = State.reset.regions ∧
    t.settings = State.reset.settings ∧ t.router = State.reset.router

theorem Booted.startsFresh {s t : State} (h : Booted s t) (hs : startsFresh s) : startsFresh t := by
  unfold Machine.startsFresh at hs ⊢
  rw [h.frame]
  exact hs

theorem beat2_startsFresh {s : State} (hs : startsFresh s) : startsFresh (beat2 s) := by
  unfold startsFresh at hs ⊢
  rw [beat2_frame]
  exact hs

/-- The state that power good finds, at the end of beat 1. -/
def poweredUp (s : State) (eeprom seed : Option Bytes) : State :=
  let s1 := coldReset { s with silicon := { eeprom := eeprom, pufSeed := seed } }
  beatEnds { s1 with pins := { s1.pins with pwrGood := true } } 1

theorem exec_powerGood_of_off {s : State} (eeprom seed : Option Bytes) (h : s.pins.pwrGood = false) :
    exec (.powerGood eeprom seed) s = .next (bootFromBeat2 (poweredUp s eeprom seed)) := by
  have hx : exec (.powerGood eeprom seed) s = execPowerGood eeprom seed s := rfl
  rw [hx, execPowerGood, h, if_neg Bool.false_ne_true]
  rfl

theorem exec_powerGoodLost_of_on {s : State} (h : s.pins.pwrGood = true) : exec .powerGoodLost s = .next (coldReset s) := by
  have hx : exec .powerGoodLost s = execPowerGoodLost s := rfl
  rw [hx, execPowerGoodLost, if_pos h]

theorem askReset_of_hot {s : State} (h : (s.power.tripped && s.power.hot) = true) (why : Nat) :
    askReset s why = { s with power := { s.power with resetHeld := true } } := by
  rw [askReset, if_pos h]

/-- A warm reset, with the record of its reason. -/
theorem askReset_of_cool {s : State} (h : (s.power.tripped && s.power.hot) = false) (why : Nat) :
    askReset s why = bootFromBeat2 (warmKept (note s 0x4 (unitCpb 3) 0 (if s.power.tripped then 2 else why) 0 0)) := by
  rw [askReset, h, if_neg Bool.false_ne_true]
  rfl

/-- The state with MOD_RESET_N asserted. -/
def resetAsserted (s : State) : State := { s with pins := { s.pins with modResetN := false } }

theorem exec_modResetN_of_released {s : State} (h : s.pins.modResetN = true) (hp : s.pins.pwrGood = true) :
    exec .modResetN s = .next (askReset (resetAsserted s) 0) := by
  have hx : exec .modResetN s = execModResetN s := rfl
  rw [hx, execModResetN, h, if_neg (by decide)]
  dsimp only
  rw [if_pos hp]
  rfl

/-- The state with MOD_RESET_N released. -/
def resetReleased (s : State) : State := { s with pins := { s.pins with modResetN := true } }

theorem exec_modResetNRelease_of_held {s : State} (h : s.pins.modResetN = false) (hp : s.pins.pwrGood = true) (hh : s.boot.held = true) :
    exec .modResetNRelease s = .next (bootFromBeat2 (resetReleased s)) := by
  have hx : exec .modResetNRelease s = execModResetNRelease s := rfl
  rw [hx, execModResetNRelease, h, if_neg (by decide)]
  dsimp only
  rw [if_pos (by rw [hp, hh]; decide)]
  rfl

theorem exec_resetDevice_of_idle {s : State} (inst : Byte) (hp : s.pins.pwrGood = true) (hb : 2 ≤ s.boot.beat) (hm : s.mgmt.busy = none) :
    exec (.resetDevice inst []) s = .next (askReset (mgmtRespond s (mgmtHead 0x04 inst) 0 []) 1) := by
  have hx : exec (.resetDevice inst []) s = execResetDevice inst [] s := rfl
  rw [hx, execResetDevice, mgmtServe, hp, hm, decide_eq_true hb, if_neg (by decide), if_neg (by decide), if_neg (by decide), if_pos (by rfl)]

/-- Without power good MOD_RESET_N is its pin alone. -/
theorem exec_modResetN_of_off {s : State} (hp : s.pins.pwrGood = false) : exec .modResetN s = .next (resetAsserted s) ∧
    exec .modResetNRelease s = .next (resetReleased s) := by
  have hx : exec .modResetN s = execModResetN s := rfl
  have hy : exec .modResetNRelease s = execModResetNRelease s := rfl
  rw [hx, hy, execModResetN, execModResetNRelease]
  dsimp only
  rw [if_neg (c := s.pins.pwrGood = true) (by rw [hp]; decide), if_neg (c := (s.pins.pwrGood && s.boot.held) = true) (by simp [hp])]
  constructor
  · cases hm : s.pins.modResetN with
    | true => rfl
    | false => rw [if_pos (by decide), resetAsserted, ← hm]
  · cases hm : s.pins.modResetN with
    | false => rfl
    | true => rw [if_pos rfl, resetReleased, ← hm]

/-- Settles O36: power good by MOD_RESET_N and the record, and each reset by what holds it. -/
theorem powerAndResetsStartAfresh : Obligations.PowerAndResetsStartAfresh := by
  intro s lost fresh
  refine ⟨fun eeprom seed hp => ?_, fun hp => ⟨?_, fun hm => ⟨fun hcool => ?_, fun hhot => ?_⟩, fun hm hheld => ?_, fun inst hb hq hcool hm => ?_⟩,
    fun hp => exec_modResetN_of_off hp⟩
  · rw [exec_powerGood_of_off eeprom seed hp]
    have hfresh : startsFresh (poweredUp s eeprom seed) := ⟨rfl, rfl, rfl, rfl, rfl, rfl, rfl, rfl⟩
    cases hm : s.pins.modResetN with
    | false =>
      rw [bootFromBeat2_of_held (show (poweredUp s eeprom seed).pins.modResetN = false from hm)]
      exact ⟨_, rfl, hfresh, rfl, rfl, rfl, rfl, fun _ => rfl, fun h => absurd h (by decide)⟩
    | true =>
      rw [bootFromBeat2_of_released (show (poweredUp s eeprom seed).pins.modResetN = true from hm)]
      have hbeat2 := beat2_frame (poweredUp s eeprom seed)
      have hhead := beat2_head (s := poweredUp s eeprom seed) rfl
      have hbooted := beat3_booted (beat2 (poweredUp s eeprom seed))
      have hfresh2 := hbooted.startsFresh (beat2_startsFresh hfresh)
      have hrom : (beat2 (poweredUp s eeprom seed)).silicon.eeprom = eeprom := by rw [hbeat2]; rfl
      have hpuf : (beat2 (poweredUp s eeprom seed)).silicon.pufSeed = seed := by rw [hbeat2]; rfl
      have hstage : (beat2 (poweredUp s eeprom seed)).boot.stage = .romInit := by rw [hbeat2]; rfl
      have hperst : (beat2 (poweredUp s eeprom seed)).pins.perstN = s.pins.perstN := by rw [hbeat2]; rfl
      refine ⟨_, rfl, hfresh2, ?_, ?_, ?_, ?_, fun h => absurd h (by decide), fun _ => ⟨?_, ?_, fun r hr => ?_, fun r hr hlen hh => ?_,
        fun r hr hlen hh hs => ?_, fun r x hr hlen hh hs hw hpo hk hsig hid hrep => ?_⟩⟩
      · rw [hbooted.pwrGood, hbeat2]
        rfl
      · rw [hbooted.frame, hbeat2]
        rfl
      · rw [hbooted.frame, hbeat2]
        rfl
      · rw [hbooted.bootCount, hbeat2]
        rfl
      · rw [hbooted.slotId, hbeat2]
        rfl
      · have hle := hbooted.head
        omega
      · rw [beat3_of_noRecord (hr.imp (hrom.trans ·) fun ⟨he, hl⟩ => ⟨r, hrom.trans he, hl⟩), bootFail_boot]
        exact ⟨rfl, rfl⟩
      · rw [beat3_of_badHeader (hrom.trans hr) hlen hh, bootFail_boot]
        exact ⟨rfl, rfl⟩
      · rw [beat3_of_noSeed (hrom.trans hr) hlen hh (hpuf.trans hs), bootFail_boot]
        exact ⟨rfl, rfl⟩
      · obtain ⟨hst, hbt, hserial, hidentity, htraining⟩ := beat3_of_good (hrom.trans hr) hlen hh (hpuf.trans hs) hw hpo hk hsig hid hrep
        exact ⟨hst.trans hstage, hbt, hserial, hidentity, fun p => by rw [htraining, hperst]⟩
  · exact ⟨_, exec_powerGoodLost_of_on hp, ⟨rfl, rfl, rfl, rfl, rfl, rfl, rfl, rfl, rfl⟩, rfl, rfl, rfl, rfl⟩
  · rw [exec_modResetN_of_released hm hp, askReset_of_cool (s := resetAsserted s) hcool]
    obtain ⟨hhead, hfrozen, hfreeze⟩ := note_blotter (resetAsserted s) 0x4 (unitCpb 3) 0 (if (resetAsserted s).power.tripped then 2 else 0) 0 0 hp
    have hframe := note_frame (resetAsserted s) 0x4 (unitCpb 3) 0 (if (resetAsserted s).power.tripped then 2 else 0) 0 0
    generalize note (resetAsserted s) 0x4 (unitCpb 3) 0 (if (resetAsserted s).power.tripped then 2 else 0) 0 0 = v at hhead hfrozen hfreeze hframe
    have hpin : (warmKept v).pins.modResetN = false := by
      have h : v.pins.modResetN = false := by rw [hframe]; rfl
      exact h
    rw [bootFromBeat2_of_held hpin]
    refine ⟨_, rfl, ⟨rfl, rfl, rfl, rfl, rfl, rfl, rfl, rfl, rfl⟩, ?_, ?_, hfrozen, hfreeze, ?_⟩
    · have h : v.timeBase = s.timeBase := by rw [hframe]; rfl
      exact h
    · have h : s.blotter.head < v.blotter.head := by rw [hhead]; exact Nat.lt_succ_self _
      exact h
    · have h : v.boot = s.boot := by rw [hframe]; rfl
      rw [← h]
      rfl
  · rw [exec_modResetN_of_released hm hp, askReset_of_hot (s := resetAsserted s) hhot]
    rfl
  · rw [exec_modResetNRelease_of_held hm hp hheld, bootFromBeat2_of_released (s := resetReleased s) rfl]
    have hbeat2 := beat2_frame (resetReleased s)
    have hhead : (beat2 (resetReleased s)).blotter.head = s.blotter.head + 1 := beat2_head (s := resetReleased s) hp
    have hbooted := beat3_booted (beat2 (resetReleased s))
    refine ⟨_, rfl, ?_, ?_, ?_⟩
    · rw [hbooted.held, hbeat2]
    · rw [hbooted.slotId, hbeat2]
      rfl
    · have hle := hbooted.head
      omega
  · rw [exec_resetDevice_of_idle inst hp hb hq,
      askReset_of_cool (s := mgmtRespond s (mgmtHead 0x04 inst) 0 []) (show (s.power.tripped && s.power.hot) = false from hcool)]
    have hframe := note_frame (mgmtRespond s (mgmtHead 0x04 inst) 0 []) 0x4 (unitCpb 3) 0 (if s.power.tripped then 2 else 1) 0 0
    have hwhy : (if (mgmtRespond s (mgmtHead 0x04 inst) 0 []).power.tripped then 2 else 1) = if s.power.tripped then 2 else 1 := rfl
    rw [hwhy]
    generalize note (mgmtRespond s (mgmtHead 0x04 inst) 0 []) 0x4 (unitCpb 3) 0 (if s.power.tripped then 2 else 1) 0 0 = v at hframe ⊢
    have hpin : (warmKept v).pins.modResetN = true := by
      have h : v.pins.modResetN = true := by rw [hframe]; exact hm
      exact h
    have hfresh : startsFresh (warmKept v) := ⟨rfl, rfl, rfl, rfl, rfl, rfl, rfl, rfl⟩
    rw [bootFromBeat2_of_released hpin]
    have hbeat2 := beat2_frame (warmKept v)
    have hbooted := beat3_booted (beat2 (warmKept v))
    refine ⟨_, rfl, hbooted.startsFresh (beat2_startsFresh hfresh), ?_, ?_, ?_⟩
    · rw [hbooted.frame, hbeat2]
      have h : v.timeBase = s.timeBase := by rw [hframe]; rfl
      exact h
    · rw [hbooted.bootCount, hbeat2]
      have h : v.boot = s.boot := by rw [hframe]; rfl
      exact congrArg (fun b => b.bootCount + 1) h
    · rw [hbooted.frame, hbeat2]
      have h : v.mgmt.responses = s.mgmt.responses ++ [mgmtHead 0x04 inst ++ le 1 0 ++ zeros 3 ++ []] := by rw [hframe]; rfl
      rw [List.append_nil] at h
      exact h

end Sys2Proof.Machine
end

section
/-! SUPPORT. Management requests that only read, and the PLDM sensors (R456, R464, R466, R467, R489, R490). -/

namespace Sys2Proof.Machine

/-! ### A request by the state of the endpoint -/

section
variable {s : State}

theorem mgmtServe_of_taken (h : takesRequest s) (n : Nat) (inst : Byte) (act : Bytes → State) :
    mgmtServe s n inst true act = act (mgmtHead n inst) := by
  obtain ⟨hpwr, hbeat, hfree⟩ := h
  rw [mgmtServe, hpwr, hfree, decide_eq_true hbeat, if_neg (by decide), if_neg (by decide), if_neg (by decide)]

/-- A request before its time (R467). -/
theorem mgmtServe_of_early (h : takesRequest s) (n : Nat) (inst : Byte) (act : Bytes → State) :
    mgmtServe s n inst false act = mgmtRespond s (mgmtHead n inst) 1 [] := by
  obtain ⟨hpwr, hbeat, hfree⟩ := h
  rw [mgmtServe, hpwr, hfree, decide_eq_true hbeat, if_neg (by decide), if_neg (by decide), if_pos (by decide)]

/-- A request while another is served (R467). -/
theorem mgmtServe_of_busy (hpwr : s.pins.pwrGood = true) (hbeat : 2 ≤ s.boot.beat) (hbusy : s.mgmt.busy.isSome = true) (n : Nat) (inst : Byte)
    (av : Bool) (act : Bytes → State) : mgmtServe s n inst av act = mgmtRespond s (mgmtHead n inst) 4 [] := by
  rw [mgmtServe, hpwr, hbusy, decide_eq_true hbeat, if_neg (by decide), if_pos rfl]

theorem mgmtAct_of_good {ok : Bool} (h : ok = true) (head : Bytes) (t : State) (data : Bytes) :
    mgmtAct s head ok (some t) data = mgmtRespond t head 0 data := by
  rw [mgmtAct, h, if_neg (by decide)]

/-- Arguments that break their form (R467). -/
theorem mgmtAct_of_bad {ok : Bool} (h : ok = false) (head : Bytes) (t : Option State) (data : Bytes) :
    mgmtAct s head ok t data = mgmtRespond s head 2 [] := by
  unfold mgmtAct
  rw [h, if_pos (by decide)]

/-! ### The requests that are taken -/

variable (h : takesRequest s) (inst : Byte) (args : Bytes)
include h

theorem exec_getCertificate_of_taken {r : Bytes} (hr : s.silicon.eeprom = some r) (hb : 4 ≤ s.boot.beat) :
    exec (.getCertificate inst args) s = .next (mgmtAct s (mgmtHead 0x01 inst)
      (args.length == 6 && decide (u16 args 4 ≤ 1024) && decide (u32 args 0 + u16 args 4 ≤ (recordCert r).length))
      (if recordWhole r then some s else none) (slice (recordCert r) (u32 args 0) (u16 args 4))) := by
  have hx : exec (.getCertificate inst args) s = execGetCertificate inst args s := rfl
  rw [hx, execGetCertificate, decide_eq_true hb, mgmtServe_of_taken h, hr]

theorem exec_getCertificate_of_early (hb : s.boot.beat < 4) :
    exec (.getCertificate inst args) s = .next (mgmtRespond s (mgmtHead 0x01 inst) 1 []) := by
  have hx : exec (.getCertificate inst args) s = execGetCertificate inst args s := rfl
  rw [hx, execGetCertificate, decide_eq_false (Nat.not_le.mpr hb), mgmtServe_of_early h]

theorem exec_managementAttest_of_seed {seed : Bytes} (hs : s.boot.seed = some seed) (hb : 4 ≤ s.boot.beat) :
    exec (.managementAttest inst args) s = .next (mgmtAct s (mgmtHead 0x02 inst) (args.length == 32) (some s)
      (attestation s seed 1 0 args (measurementsOf s allParts))) := by
  have hx : exec (.managementAttest inst args) s = execManagementAttest inst args s := rfl
  rw [hx, execManagementAttest, decide_eq_true hb, Bool.true_or, mgmtServe_of_taken h, hs]

theorem exec_managementAttest_of_failed (hs : s.boot.seed = none) (he : s.boot.errCode = 5) :
    exec (.managementAttest inst args) s = .next (mgmtRespond s (mgmtHead 0x02 inst) 3 []) := by
  have hx : exec (.managementAttest inst args) s = execManagementAttest inst args s := rfl
  have hfive : (s.boot.errCode == 5) = true := by rw [he]; rfl
  rw [hx, execManagementAttest, hfive, Bool.or_true, mgmtServe_of_taken h, hs]

theorem exec_getBoot_of_taken : exec (.getBoot inst args) s = .next (mgmtAct s (mgmtHead 0x03 inst) args.isEmpty (some s)
    (le 4 (bootStatus s.boot) ++ le 4 (bootErrorWord s.boot) ++ slice s.boot.fwDigest 0 64)) := by
  have hx : exec (.getBoot inst args) s = execGetBoot inst args s := rfl
  rw [hx, execGetBoot, mgmtServe_of_taken h]

theorem exec_blotterStatus_of_taken : exec (.blotterStatus inst args) s = .next (mgmtAct s (mgmtHead 0x20 inst) args.isEmpty (some s)
    (le 4 s.blotter.head ++ le 4 (if s.blotter.frozen then s.blotter.freezeSeq else 0) ++ le 4 s.blotter.lost ++
      le 4 ((if s.blotter.frozen then 1 else 0) + (if s.blotter.freezeOnJob then 2 else 0)))) := by
  have hx : exec (.blotterStatus inst args) s = execBlotterStatus inst args s := rfl
  rw [hx, execBlotterStatus, mgmtServe_of_taken h]

theorem exec_managementBlotterRead_of_taken : exec (.managementBlotterRead inst args) s = .next (mgmtAct s (mgmtHead 0x21 inst)
    (args.length == 6 && decide (1 ≤ u16 args 4) && decide (u16 args 4 ≤ 32)) (some s)
    (blotterRead s.blotter (u32 args 0) (u16 args 4))) := by
  have hx : exec (.managementBlotterRead inst args) s = execManagementBlotterRead inst args s := rfl
  rw [hx, execManagementBlotterRead, mgmtServe_of_taken h]

theorem exec_errorStatus_of_taken : exec (.errorStatus inst args) s = .next (mgmtAct s (mgmtHead 0x24 inst) args.isEmpty (some s)
    ((List.range 12).flatMap (fun i => le 4 (errorWord s none (4 * i))))) := by
  have hx : exec (.errorStatus inst args) s = execErrorStatus inst args s := rfl
  rw [hx, execErrorStatus, mgmtServe_of_taken h]

end

/-! ### The sensors -/

theorem exec_pldmSensorRead_of_reading {s : State} {n : Byte} {v : Nat} (hpwr : s.pins.pwrGood = true) (hbeat : 2 ≤ s.boot.beat)
    (hv : sensorReading s n.toNat = some v) : exec (.pldmSensorRead n) s =
      .next { s with mgmt := { s.mgmt with responses := s.mgmt.responses ++ [[n] ++ le 4 v] } } := by
  have hx : exec (.pldmSensorRead n) s = execPldmSensorRead n s := rfl
  rw [hx, execPldmSensorRead, if_neg (by rw [hpwr, decide_eq_true hbeat]; decide), hv]

/-- The clock of a quadrant is sensors 4 to 7. -/
theorem sensorReading_clock (s : State) : ∀ q : Quad,
    sensorReading s (BitVec.ofNat 8 (4 + q.val)).toNat = some (400 + 25 * s.power.quads[q].current)
  | 0 | 1 | 2 | 3 => rfl

theorem any_quads {v : Vector QuadClock 4} {f : QuadClock → Bool} : v.toList.any f = true ↔ ∃ q : Quad, f v[q] = true := by
  simp [Vector.any_toList, Vector.any_eq_true, Fin.exists_iff]

theorem any_quads_eq_false {v : Vector QuadClock 4} {f : QuadClock → Bool} (h : ∀ q : Quad, f v[q] = false) : v.toList.any f = false :=
  Bool.eq_false_iff.mpr fun hany => by
    obtain ⟨q, hq⟩ := any_quads.mp hany
    exact Bool.false_ne_true ((h q).symm.trans hq)

section
variable {p : Power}

theorem thermalState_of_tripped (h : p.tripped = true) : thermalState p = 3 := by
  rw [thermalState, if_pos h]

theorem thermalState_of_over (h : p.tripped = false) (ho : ∃ q : Quad, p.quads[q].overTemp = true) : thermalState p = 2 := by
  rw [thermalState, h, if_neg Bool.false_ne_true, if_pos (any_quads.mpr ho)]

theorem thermalState_of_throttling (h : p.tripped = false) (ho : ∀ q : Quad, p.quads[q].overTemp = false)
    (ht : ∃ q : Quad, p.quads[q].throttling = true) : thermalState p = 1 := by
  rw [thermalState, h, if_neg Bool.false_ne_true, any_quads_eq_false ho, if_neg Bool.false_ne_true, if_pos (any_quads.mpr ht)]

theorem thermalState_of_cool (h : p.tripped = false) (ho : ∀ q : Quad, p.quads[q].overTemp = false)
    (ht : ∀ q : Quad, p.quads[q].throttling = false) : thermalState p = 0 := by
  rw [thermalState, h, if_neg Bool.false_ne_true, any_quads_eq_false ho, if_neg Bool.false_ne_true, any_quads_eq_false ht,
    if_neg Bool.false_ne_true]

end

/-- Settles O37: each request by its arguments and its time, each sensor by its number. -/
theorem managementReadsAnswer : Obligations.ManagementReadsAnswer := by
  intro s inst args reply
  have hempty : args ≠ [] → args.isEmpty = false := fun hne => by simpa using hne
  refine ⟨fun h => ⟨fun r hr hb => ⟨fun hlen hmax hin hwhole => ?_, fun hbad => ?_⟩, fun hb => exec_getCertificate_of_early h inst args hb,
    fun seed hs hb => ⟨fun hlen => ?_, fun hlen => ?_⟩, fun hs he => exec_managementAttest_of_failed h inst args hs he, ?_, ?_,
    fun hlen hlo hhi => ?_, fun hbad => ?_, ?_, fun hne => ⟨?_, ?_, ?_⟩⟩, fun hpwr hbeat hbusy => ?_, fun hpwr hbeat => ?_⟩
  · rw [exec_getCertificate_of_taken h inst args hr hb, hwhole, if_pos rfl,
      mgmtAct_of_good (by rw [hlen, decide_eq_true hmax, decide_eq_true hin]; rfl)]
  · rw [exec_getCertificate_of_taken h inst args hr hb, mgmtAct_of_bad]
    simp only [Bool.and_eq_false_iff, beq_eq_false_iff_ne, decide_eq_false_iff_not]
    omega
  · rw [exec_managementAttest_of_seed h inst args hs hb, mgmtAct_of_good (by rw [hlen]; rfl)]
  · rw [exec_managementAttest_of_seed h inst args hs hb, mgmtAct_of_bad (beq_false_of_ne hlen)]
  · rw [exec_getBoot_of_taken h, mgmtAct_of_good List.isEmpty_nil]
  · rw [exec_blotterStatus_of_taken h, mgmtAct_of_good List.isEmpty_nil]
  · rw [exec_managementBlotterRead_of_taken h, mgmtAct_of_good (by rw [hlen, decide_eq_true hlo, decide_eq_true hhi]; rfl)]
  · rw [exec_managementBlotterRead_of_taken h, mgmtAct_of_bad]
    simp only [Bool.and_eq_false_iff, beq_eq_false_iff_ne, decide_eq_false_iff_not]
    omega
  · rw [exec_errorStatus_of_taken h, mgmtAct_of_good List.isEmpty_nil]
  · rw [exec_getBoot_of_taken h, mgmtAct_of_bad (hempty hne)]
  · rw [exec_blotterStatus_of_taken h, mgmtAct_of_bad (hempty hne)]
  · rw [exec_errorStatus_of_taken h, mgmtAct_of_bad (hempty hne)]
  · have hreply (n : Nat) (av : Bool) (act : Bytes → State) :
        (.next (mgmtServe s n inst av act) : Host.Outcome State Fault Refusal) = .next (mgmtRespond s (mgmtHead n inst) 4 []) :=
      congrArg _ (mgmtServe_of_busy hpwr hbeat hbusy n inst av act)
    exact ⟨hreply 0x01 _ _, hreply 0x02 _ _, hreply 0x03 _ _, hreply 0x20 _ _, hreply 0x21 _ _, hreply 0x24 _ _⟩
  · intro reads
    have hread (n : Byte) (v : Nat) (hv : sensorReading s n.toNat = some v) : reads n v := exec_pldmSensorRead_of_reading hpwr hbeat hv
    exact ⟨hread 1 _ rfl, hread 2 _ rfl, hread 3 _ rfl, fun q => hread _ _ (sensorReading_clock s q), hread 8 _ rfl,
      fun ht => hread 9 _ (congrArg some (thermalState_of_tripped ht)),
      fun ht ho => hread 9 _ (congrArg some (thermalState_of_over ht ho)),
      fun ht ho hq => hread 9 _ (congrArg some (thermalState_of_throttling ht ho hq)),
      fun ht ho hq => hread 9 _ (congrArg some (thermalState_of_cool ht ho hq))⟩

end Sys2Proof.Machine
end

section
/-! SUPPORT. Management requests that act on partitions, coordinates, jobs and the blotter (R331, R467, R469 to R472, R488, R490). -/

namespace Sys2Proof.Machine

/-- A request of the right form that is REFUSED (R467). -/
theorem mgmtAct_of_refused {s : State} {ok : Bool} (h : ok = true) (head data : Bytes) :
    mgmtAct s head ok none data = mgmtRespond s head 3 [] := by
  unfold mgmtAct
  rw [h, if_neg (by decide)]

/-- A response is a matter of the endpoint alone. -/
theorem mgmtRespond_mgmt_congr {s t : State} (h : t.mgmt = s.mgmt) (head : Bytes) (status : Nat) (data : Bytes) :
    (mgmtRespond t head status data).mgmt = (mgmtRespond s head status data).mgmt := by
  rw [mgmtRespond, mgmtRespond, h]

/-! ### ASSIGN_PARTITION -/

/-- A partition with the values of its block (R469). -/
def assignedPart (b : Bytes) (x : Partition) : Partition :=
  { x with assigned := true, port := portN (u8 b 1), fmChannel := bit (u16 b 2) 0, powerAdmin := bit (u16 b 2) 1,
           requireOwner := bit (u16 b 2) 2, debugFolios := bit (u16 b 2) 3, limit := u16 b 4, assignBlock := b }

theorem assignTo_of_awake {s : State} {b : Bytes} (h : domainOn s (pcieDomain (u8 b 1)) = true) :
    assignTo s b = updPart s (partN (u8 b 0)) (assignedPart b) := by
  have hawake : domainOn (updPart s (partN (u8 b 0)) (assignedPart b)) (pcieDomain (u8 b 1)) = true := h
  unfold assignTo
  exact if_pos hawake

section
variable {s : State} (h : takesRequest s) (hl : s.live = true) (inst : Byte) {args : Bytes}
include h hl

theorem exec_assignPartition_of_good (hok : assignOk args = true) : exec (.assignPartition inst args) s = .next
    (mgmtAct s (mgmtHead 0x10 inst) true (if assignRefused s args then none else some (assignTo s args)) []) := by
  have hx : exec (.assignPartition inst args) s = execAssignPartition inst args s := rfl
  rw [hx, execAssignPartition, mgmtReady_of_taken _ _ _ h hl, hok]

/-! ### RELEASE_PARTITION -/

theorem exec_releasePartition_of_good (hlen : args.length = 2) (hp : u8 args 0 ≤ 3) (hforce : u8 args 1 = 0) :
    exec (.releasePartition inst args) s = .next
      (if (!s.parts[partN (u8 args 0)].assigned ||
          (!quiesced s (partN (u8 args 0)) || s.folios.any (fun f => f.part == partN (u8 args 0)))) = true then
        mgmtRespond s (mgmtHead 0x11 inst) 3 []
      else releaseTo s (mgmtHead 0x11 inst) (partN (u8 args 0)) false) := by
  have hx : exec (.releasePartition inst args) s = execReleasePartition inst args s := rfl
  rw [hx, execReleasePartition, mgmtReady_of_taken _ _ _ h hl]
  dsimp only
  rw [if_neg (by rw [hlen, decide_eq_true hp, hforce]; decide), hforce]
  rfl

end

/-- A release that is accepted completes at once, its regions being zeroed (R470). -/
theorem releaseTo_unforced (s : State) (head : Bytes) (p : Part) : releaseTo s head p false =
    mgmtRespond { clearPartition { s with mgmt := { s.mgmt with busy := some (.release head p) } } p with mgmt := { s.mgmt with busy := none } }
      head 0 [] := by
  rw [releaseTo, if_neg Bool.false_ne_true, settleRelease]
  dsimp only
  rw [if_pos rfl]

theorem clearPartition_part (s : State) (p : Part) : (clearPartition s p).parts[p] = { Partition.reset with nextSeq := s.parts[p].nextSeq } :=
  updPart_at s p (fun x => { Partition.reset with nextSeq := x.nextSeq })

theorem clearPartition_part_ne (s : State) {p p' : Part} (h : p' ≠ p) : (clearPartition s p).parts[p'] = s.parts[p'] :=
  updPart_at_ne s (fun x => { Partition.reset with nextSeq := x.nextSeq }) h

theorem clearPartition_region (s : State) (p : Part) (g : Fin 72) : (clearPartition s p).regions[g] =
    if s.regions[g].assigned && s.regions[g].part == p then { s.regions[g] with zeroing := true } else s.regions[g] := by
  simp [clearPartition]

/-! ### SET_COORD -/

section
variable {s : State} {v : Nat}

theorem writeExtent_of_lt (h : v < 2 ^ 9) : writeExtent s v =
    some (updRouter s (fun r => { r with extX := BitVec.ofNat 3 v, extY := BitVec.ofNat 3 (v / 8), extZ := BitVec.ofNat 3 (v / 64) })) := by
  rw [writeExtent, if_neg (Nat.not_le.mpr h)]

theorem writeGateway_of_clear (hhi : bits v 31 16 = 0) (hlo : bits v 14 9 = 0) :
    writeGateway s v = some (updRouter s (fun r => { r with gateway := BitVec.ofNat 9 v, gatewayValid := bit v 15 })) := by
  rw [writeGateway, if_neg (by simp [hhi, hlo])]

/-- MY_COORD written while it is not valid (R331). -/
theorem writeMyCoord_of_unset (hhi : bits v 31 16 = 0) (hlo : bits v 14 9 = 0) (hvalid : s.router.coordValid = false) :
    writeMyCoord s v = some (if bit v 15 then assignCoord s (BitVec.ofNat 9 v)
      else updRouter s (fun r => { r with myCoord := BitVec.ofNat 9 v })) := by
  rw [writeMyCoord, if_neg (by simp [hhi, hlo]), hvalid, if_neg Bool.false_ne_true]
  split <;> rfl

end

/-- The extent and the gateway that SET_COORD writes, before MY_COORD. -/
def placedAt (r : Router) (ext gateway : Nat) : Router :=
  { r with extX := BitVec.ofNat 3 ext, extY := BitVec.ofNat 3 (ext / 8), extZ := BitVec.ofNat 3 (ext / 64),
           gateway := BitVec.ofNat 9 gateway, gatewayValid := bit gateway 15 }

/-- A router with MY_COORD assigned (R329). -/
def routerAssigned (r : Router) (c : Coord) : Router :=
  { r with myCoord := c, coordValid := true, bank0Valid := true, injectEpoch := 0,
           bank0 := { route := defaultRoutes { r with myCoord := c }, coordMap := [] } }

/-- A router after SET_COORD while MY_COORD is not valid (R331). -/
def coordSet (r : Router) (coord ext gateway : Nat) : Router :=
  if bit coord 15 then routerAssigned (placedAt r ext gateway) (BitVec.ofNat 9 coord)
  else { placedAt r ext gateway with myCoord := BitVec.ofNat 9 coord }

theorem updRouter_updRouter (s : State) (f g : Router → Router) : updRouter (updRouter s f) g = updRouter s (fun r => g (f r)) := rfl

theorem assignCoord_eq (s : State) (c : Coord) : assignCoord s c = updRouter s (fun r => routerAssigned r c) := rfl

theorem setCoord_of_unset {s : State} {b : Bytes} (h0 : bits (u32 b 0) 31 16 = 0) (h1 : bits (u32 b 0) 14 9 = 0) (h2 : u32 b 4 < 2 ^ 9)
    (h3 : bits (u32 b 8) 31 16 = 0) (h4 : bits (u32 b 8) 14 9 = 0) (hvalid : s.router.coordValid = false) :
    setCoord s b = some (updRouter s (fun r => coordSet r (u32 b 0) (u32 b 4) (u32 b 8))) := by
  rw [setCoord, writeExtent_of_lt h2, Option.bind_some, writeGateway_of_clear h3 h4, Option.bind_some, updRouter_updRouter]
  generalize u32 b 0 = c at h0 h1 ⊢
  generalize u32 b 4 = e
  generalize u32 b 8 = g
  refine (writeMyCoord_of_unset (s := updRouter s (fun r => placedAt r e g)) h0 h1 hvalid).trans ?_
  rw [assignCoord_eq, updRouter_updRouter, updRouter_updRouter]
  by_cases hbit : bit c 15 = true
  · rw [if_pos hbit]
    exact congrArg (fun f => some (updRouter s f)) (funext fun r => (if_pos hbit).symm)
  · rw [if_neg hbit]
    exact congrArg (fun f => some (updRouter s f)) (funext fun r => (if_neg hbit).symm)

theorem exec_setCoord_of_good {s t : State} (h : takesRequest s) (hl : s.live = true) (inst : Byte) {args : Bytes} (hlen : args.length = 12)
    (hset : setCoord s args = some t) : exec (.setCoord inst args) s = .next (mgmtRespond t (mgmtHead 0x13 inst) 0 []) := by
  have hx : exec (.setCoord inst args) s = execSetCoord inst args s := rfl
  rw [hx, execSetCoord, mgmtReady_of_taken _ _ _ h hl, hset, mgmtAct_of_good (by rw [hlen]; rfl)]

/-! ### SET_JOB and CLEAR_JOB -/

/-- A partition with the job of a SET_JOB (R472). -/
def jobGiven (b : Bytes) (x : Partition) : Partition :=
  { x with job := some { id := BitVec.ofNat 16 (u16 b 4), gen := BitVec.ofNat 16 (u16 b 6), written := BitVec.ofNat 16 (u16 b 6),
                         box := (u8 b 8, u8 b 9, u8 b 10), coord := (u8 b 11, u8 b 12, u8 b 13),
                         failed := false, stopped := false, torn := false },
           carveStamp := BitVec.ofNat 16 (u16 b 4) ++ BitVec.ofNat 16 (u16 b 6) }

/-- A new job frees the dead generations of an older one and gives the partition its job. -/
theorem newJob_eq (s : State) (p : Part) (b : Bytes) :
    ∃ u : State, u.mgmt = s.mgmt ∧ u.parts = s.parts ∧ newJob s p b = updPart u p (jobGiven b) := by
  unfold newJob
  dsimp only
  split
  · split
    · exact ⟨freeDead s _ _, rfl, rfl, rfl⟩
    · exact ⟨s, rfl, rfl, rfl⟩
  · exact ⟨s, rfl, rfl, rfl⟩

section
variable {s : State} (h : takesRequest s) (hl : s.live = true) (inst : Byte) {args : Bytes}
include h hl

theorem exec_setJob_of_good (hok : setJobOk args = true) (ha : s.parts[partN (u8 args 0)].assigned = true) :
    exec (.setJob inst args) s = .next (mgmtAct s (mgmtHead 0x14 inst) true (setJob s (partN (u8 args 0)) args) []) := by
  have hx : exec (.setJob inst args) s = execSetJob inst args s := rfl
  rw [hx, execSetJob, mgmtReady_of_taken _ _ _ h hl]
  dsimp only
  rw [hok, if_pos ha]

theorem exec_clearJob_of_good (hlen : args.length = 1) (hp : u8 args 0 ≤ 3) (ha : s.parts[partN (u8 args 0)].assigned = true) :
    exec (.clearJob inst args) s = .next (mgmtAct s (mgmtHead 0x15 inst) true (if jobLoaded s (partN (u8 args 0)) then none
      else some (updPart s (partN (u8 args 0)) (fun x => { x with job := none, carveStamp := 0 }))) []) := by
  have hx : exec (.clearJob inst args) s = execClearJob inst args s := rfl
  rw [hx, execClearJob, mgmtReady_of_taken _ _ _ h hl]
  dsimp only
  rw [hlen, decide_eq_true hp, ha]
  rfl

end

theorem setJob_of_unloaded {s : State} {p : Part} (h : jobLoaded s p = false) (b : Bytes) : setJob s p b = some (newJob s p b) := by
  unfold setJob
  dsimp only
  rw [h, if_pos (by decide)]

/-- A job of a loaded folio keeps its id and takes only a later generation (R472). -/
theorem setJob_of_other {s : State} {p : Part} {b : Bytes} {j : Job} (h : jobLoaded s p = true) (hj : s.parts[p].job = some j)
    (hno : j.id.toNat ≠ u16 b 4 ∨ (BitVec.ofNat 16 (u16 b 6)).toNat ≤ j.gen.toNat) : setJob s p b = none := by
  unfold setJob
  dsimp only
  rw [h, if_neg (by decide), hj]
  dsimp only
  refine if_pos ?_
  obtain hid | hgen := hno
  · rw [beq_false_of_ne hid]
    rfl
  · rw [decide_eq_true hgen, Bool.or_true]

/-! ### The blotter -/

section
variable {s : State} (h : takesRequest s) (inst : Byte) {args : Bytes}
include h

theorem exec_blotterUnfreeze_of_taken : exec (.blotterUnfreeze inst []) s =
    .next (mgmtAct s (mgmtHead 0x22 inst) true (if s.errors.fatal then none else some (unfreeze s)) []) := by
  have hx : exec (.blotterUnfreeze inst []) s = execBlotterUnfreeze inst [] s := rfl
  rw [hx, execBlotterUnfreeze, mgmtServe_of_taken h]
  rfl

theorem exec_blotterConfig_of_good (hlen : args.length = 1) (hval : u8 args 0 ≤ 1) : exec (.blotterConfig inst args) s =
    .next (mgmtRespond { s with blotter := { s.blotter with freezeOnJob := u8 args 0 == 1 } } (mgmtHead 0x23 inst) 0 []) := by
  have hx : exec (.blotterConfig inst args) s = execBlotterConfig inst args s := rfl
  rw [hx, execBlotterConfig, mgmtServe_of_taken h, mgmtAct_of_good (by rw [hlen, decide_eq_true hval]; rfl)]

end

theorem unfreeze_of_open {s : State} (h : s.blotter.frozen = false) : unfreeze s = s := by
  rw [unfreeze, h, if_pos (by decide)]

/-- The lock released by its record (R488). -/
theorem unfreeze_of_frozen {s : State} (hpwr : s.pins.pwrGood = true) (h : s.blotter.frozen = true) :
    unfreeze s = { s with blotter := (unfreeze s).blotter, telemetry := (unfreeze s).telemetry } ∧ (unfreeze s).blotter.frozen = false ∧
      (unfreeze s).blotter.lost = 0 ∧ (unfreeze s).blotter.head = s.blotter.head + 1 := by
  obtain ⟨hhead, -, -⟩ := note_blotter s 0x81 (unitCpb 6) 0 s.blotter.lost 0 0 hpwr
  have hframe := note_frame s 0x81 (unitCpb 6) 0 s.blotter.lost 0 0
  rw [unfreeze, h, if_neg (by decide)]
  dsimp only
  exact ⟨by rw [hframe], rfl, rfl, hhead⟩

/-- Settles O39: each request by whether it is refused. -/
theorem managementRequestsAct : Obligations.ManagementRequestsAct := by
  intro s inst args h reply p others
  refine ⟨fun hl => ⟨fun hok href => ?_, fun hok hnot hawake => ?_, fun hlen hp hforce => ⟨fun hno => ?_, fun ha hq hf => ?_⟩, ?_,
    fun hok ha hfree => ?_, fun j hok ha hloaded hj hno => ?_, fun hlen hp ha => ⟨fun hloaded => ?_, fun hfree => ?_⟩⟩,
    fun hfatal => ?_, fun hlive => ?_, fun hlen hval => ?_⟩
  · rw [exec_assignPartition_of_good h hl inst hok, href, if_pos rfl, mgmtAct_of_refused rfl]
  · rw [exec_assignPartition_of_good h hl inst hok, hnot, if_neg Bool.false_ne_true, mgmtAct_of_good rfl, assignTo_of_awake hawake]
    exact ⟨_, rfl, mgmtRespond_mgmt_congr rfl _ _ _, fun p' hne => updPart_at_ne s (assignedPart args) hne, rfl,
      updPart_at s p (assignedPart args)⟩
  · have hcond : (!s.parts[p].assigned || (!quiesced s p || s.folios.any (fun f => f.part == p))) = true := by
      obtain ha | hq | hf := hno
      · rw [ha]
        rfl
      · rw [hq, Bool.not_false, Bool.true_or, Bool.or_true]
      · rw [hf, Bool.or_true, Bool.or_true]
    rw [exec_releasePartition_of_good h hl inst hlen hp hforce, if_pos hcond]
  · have hcond : (!s.parts[p].assigned || (!quiesced s p || s.folios.any (fun f => f.part == p))) = false := by
      rw [ha, hq, hf]
      rfl
    rw [exec_releasePartition_of_good h hl inst hlen hp hforce, if_neg (by rw [hcond]; decide), releaseTo_unforced]
    obtain ⟨-, -, hidle⟩ := h
    refine ⟨_, rfl, ?_, fun p' hne => clearPartition_part_ne _ hne, clearPartition_part _ _, fun g hg hgp => ?_, fun g hg => ?_⟩
    · refine mgmtRespond_mgmt_congr ?_ _ _ _
      dsimp only
      rw [← hidle]
    · refine (clearPartition_region _ p g).trans (if_pos ?_)
      rw [hg, hgp, Bool.true_and, beq_self_eq_true]
    · refine (clearPartition_region _ p g).trans (if_neg ?_)
      obtain hg | hg := hg <;> simp only [hg, Bool.false_and, beq_false_of_ne, ne_eq, not_false_eq_true, Bool.and_false, Bool.false_eq_true]
  · intro hlen h0 h1 h2 h3 h4 hvalid r
    rw [exec_setCoord_of_good h hl inst hlen (setCoord_of_unset h0 h1 h2 h3 h4 hvalid)]
    refine ⟨_, rfl, mgmtRespond_mgmt_congr rfl _ _ _, rfl, fun hbit => ?_, fun hbit => ?_⟩
    · exact if_neg (by rw [hbit]; decide)
    · exact if_pos hbit
  · obtain ⟨u, hmgmt, hparts, hnew⟩ := newJob_eq s p args
    rw [exec_setJob_of_good h hl inst hok ha, setJob_of_unloaded hfree, hnew, mgmtAct_of_good rfl]
    refine ⟨_, rfl, mgmtRespond_mgmt_congr hmgmt _ _ _, fun p' hne => ?_, ?_⟩
    · exact (updPart_at_ne u (jobGiven args) hne).trans (by rw [hparts])
    · exact (updPart_at u p (jobGiven args)).trans (by rw [hparts]; rfl)
  · rw [exec_setJob_of_good h hl inst hok ha, setJob_of_other hloaded hj hno, mgmtAct_of_refused rfl]
  · rw [exec_clearJob_of_good h hl inst hlen hp ha, hloaded, if_pos rfl, mgmtAct_of_refused rfl]
  · rw [exec_clearJob_of_good h hl inst hlen hp ha, hfree, if_neg Bool.false_ne_true, mgmtAct_of_good rfl]
    exact ⟨_, rfl, mgmtRespond_mgmt_congr rfl _ _ _, fun p' hne => updPart_at_ne s (fun x => { x with job := none, carveStamp := 0 }) hne,
      updPart_at s p (fun x => { x with job := none, carveStamp := 0 }), rfl⟩
  · rw [exec_blotterUnfreeze_of_taken h, hfatal, if_pos rfl, mgmtAct_of_refused rfl]
  · rw [exec_blotterUnfreeze_of_taken h, hlive, if_neg Bool.false_ne_true, mgmtAct_of_good rfl]
    cases hfrozen : s.blotter.frozen with
    | false =>
      rw [unfreeze_of_open hfrozen]
      exact ⟨_, rfl, rfl, hfrozen, rfl, fun hno => absurd hno (by decide), fun _ => rfl⟩
    | true =>
      obtain ⟨hframe, hopen, hlost, hhead⟩ := unfreeze_of_frozen h.1 hfrozen
      refine ⟨_, rfl, mgmtRespond_mgmt_congr (by rw [hframe]) _ _ _, hopen, ?_, fun _ => ⟨hlost, hhead⟩, fun hno => absurd hno (by decide)⟩
      rw [mgmtRespond, hframe]
  · exact ⟨_, exec_blotterConfig_of_good h inst hlen hval, rfl, rfl⟩

end Sys2Proof.Machine
end

section
/-! SUPPORT. Power policies: their fields, their flaws, their results and the states that they seek (R395, R440, R441, R467). -/

namespace Sys2Proof.Machine

/-! ### The fields of a policy -/

/-- The header of a policy applied to the power block. -/
def policyHeader (b : Bytes) (p : Power) : Power :=
  { p with
    capW := if bit (u32 b 4) 0 then u32 b 8 else p.capW,
    quads := Vector.ofFn (fun (q : Quad) =>
      { p.quads[q] with policyMax := if bit (u32 b 4) 1 then u8 b (12 + q.val) else p.quads[q].policyMax,
                        thresholdMv := if bit (u32 b 4) 2 then u8 b (16 + q.val) else p.quads[q].thresholdMv }) }

/-- One entry of a policy applied to the power block. -/
def policyEntry (b : Bytes) (p : Power) (i : Nat) : Power :=
  { p with domains := p.domains.set (domainN (policyDomain b i)) (entryCfg b i p.domains[domainN (policyDomain b i)]) }

/-- The power block after a policy's header and entries (R440). -/
def policyPower (p : Power) (b : Bytes) : Power := (List.range (u16 b 2)).foldl (policyEntry b) (policyHeader b p)

theorem foldl_entries_eq (b : Bytes) (l : List Nat) (s : State) :
    l.foldl (fun s i => updDomain s (domainN (policyDomain b i)) (entryCfg b i)) s = { s with power := l.foldl (policyEntry b) s.power } := by
  induction l generalizing s with
  | nil => rfl
  | cons i l ih => exact ih (updDomain s (domainN (policyDomain b i)) (entryCfg b i))

/-- A policy's fields are a matter of the power block alone. -/
theorem policyFields_eq (s : State) (b : Bytes) : policyFields s b = { s with power := policyPower s.power b } :=
  foldl_entries_eq b (List.range (u16 b 2)) { s with power := policyHeader b s.power }

/-- The entries of a policy leave the cap and the quadrants. -/
theorem foldl_policyEntry_kept (b : Bytes) (l : List Nat) (p : Power) :
    (l.foldl (policyEntry b) p).capW = p.capW ∧ (l.foldl (policyEntry b) p).quads = p.quads := by
  induction l generalizing p with
  | nil => exact ⟨rfl, rfl⟩
  | cons i l ih => exact ih (policyEntry b p i)

/-- The power block that a policy gives. -/
theorem policyPower_applied (s : State) (b : Bytes) : policyPower s.power b = (policyFields s b).power ∧
    (policyPower s.power b).capW = (if bit (u32 b 4) 0 then u32 b 8 else s.power.capW) ∧
    ∀ q : Quad, (policyPower s.power b).quads[q] = { s.power.quads[q] with
      policyMax := if bit (u32 b 4) 1 then u8 b (12 + q.val) else s.power.quads[q].policyMax,
      thresholdMv := if bit (u32 b 4) 2 then u8 b (16 + q.val) else s.power.quads[q].thresholdMv } := by
  obtain ⟨hcap, hquads⟩ := foldl_policyEntry_kept b (List.range (u16 b 2)) (policyHeader b s.power)
  refine ⟨by rw [policyFields_eq], hcap, fun q => ?_⟩
  rw [policyPower, hquads]
  simp [policyHeader]

/-! ### The result of a policy -/

theorem length_policyResult (s : State) (ds : List Nat) : (policyResult s ds).length = 8 + 8 * ds.length := by
  simp [policyResult, List.length_flatMap]
  omega

theorem length_policyDomains (b : Bytes) : (policyDomains b).length = u16 b 2 := by
  simp [policyDomains]

/-- The state with a policy applied and its command in flight, with what the command waits for. -/
def policyMarked (s : State) (c : Cmd) (b : Bytes) (waits : Option (List Nat × List Nat)) : State :=
  updCmd { s with power := policyPower s.power b } c.uid (fun x => { x with started := true, policy := waits })

theorem updCmd_updCmd (s : State) (uid : Nat) {f : Cmd → Cmd} (g : Cmd → Cmd) (hf : ∀ d, (f d).uid = d.uid) :
    updCmd (updCmd s uid f) uid g = updCmd s uid (fun d => g (f d)) := by
  unfold updCmd
  dsimp only
  rw [updFirst_twice (fun d hd => by rw [hf]; exact hd)]

theorem beginPolicy_of_waits {s : State} {c : Cmd} {b : Bytes} (h : policyWaits b ≠ []) :
    beginPolicy s c b = applyPolicy (policyMarked s c b (some (policyDomains b, policyWaits b))) b 8 := by
  have hmark := updCmd_updCmd { s with power := policyPower s.power b } c.uid (f := fun x => { x with started := true })
    (fun x => { x with policy := some (policyDomains b, policyWaits b) }) (fun _ => rfl)
  unfold beginPolicy
  rw [policyFields_eq, if_neg (by simpa using h)]
  exact congrArg (applyPolicy · b 8) hmark

theorem beginPolicy_of_no_waits {s : State} {c : Cmd} {b : Bytes} (hc : cmdOf s c.uid = some c) (h : policyWaits b = []) :
    beginPolicy s c b = giveResult (policyMarked s c b none) c (policyResult { s with power := policyPower s.power b } (policyDomains b)) := by
  have hmark : updCmd (updCmd { s with power := policyPower s.power b } c.uid (fun x => { x with started := true })) c.uid
      (fun x => { x with policy := some (policyDomains b, policyWaits b) }) = policyMarked s c b (some (policyDomains b, policyWaits b)) :=
    updCmd_updCmd _ _ _ (fun _ => rfl)
  have hanswer : updCmd (policyMarked s c b (some (policyDomains b, policyWaits b))) c.uid (fun x => { x with policy := none }) =
      policyMarked s c b none := updCmd_updCmd _ _ _ (fun _ => rfl)
  have hcmd : cmdOf (policyMarked s c b (some (policyDomains b, policyWaits b))) c.uid =
      some { c with started := true, policy := some (policyDomains b, policyWaits b) } :=
    cmdOf_updCmd (fun x => { x with started := true, policy := some (policyDomains b, policyWaits b) }) (fun _ => rfl) hc
  rw [← hmark] at hcmd hanswer
  unfold beginPolicy
  rw [policyFields_eq, if_pos (by rw [h]; rfl)]
  split
  · next k hk =>
    cases hk.symm.trans hcmd
    exact congrArg (fun u => giveResult u c (policyResult { s with power := policyPower s.power b } (policyDomains b))) hanswer
  · next hk => exact absurd (hk.symm.trans hcmd) (by simp)

theorem policyMarked_quiet {s : State} {c : Cmd} (h : quietFor s c) (b : Bytes) (waits : Option (List Nat × List Nat)) :
    quietFor (policyMarked s c b waits) { c with started := true, policy := waits } := by
  obtain ⟨hpump, hfence, hcmd, hrest⟩ := h
  refine ⟨hpump, ?_, cmdOf_updCmd (fun x => { x with started := true, policy := waits }) (fun _ => rfl) hcmd, hrest⟩
  exact updFirst_all (P := fun d : Cmd => d.fence = none) (f := fun x => { x with started := true, policy := waits })
    (fun d hd => hd) hfence

/-- Bytes put in host memory before a FINAL record stay, but where the record lies over them. -/
theorem finish_updHost_read {s : State} {c : Cmd} (hm : s.memOk) (h : quietFor s c) (p : Port) (a : Nat) (r : Bytes) {i : Nat}
    (hi : i < r.length) (hfar : ¬postsTo s c (a + i)) :
    (finish (updHost s p (fun m => m.writeBytes a r)) c.uid 0 0 0 0).ports[p].host.read (a + i) = r.getD i 0#8 := by
  have hregisters := updHost_registers s p (fun m => m.writeBytes a r)
  have hkept := finish_from_read (u := updHost s p (fun m => m.writeBytes a r)) h rfl (fun q => (hregisters q).1) (fun q => (hregisters q).2) rfl
    (updHost_writeBytes_memOk hm _ _ _) 0 0 0 0 p (a + i) hfar
  exact hkept.trans (updHost_writeBytes_read hm rfl a r hi)

/-- The result of a policy that waits for nothing, in host memory, and its FINAL record. -/
theorem policyMarked_gives {s : State} {c : Cmd} (hm : s.memOk) (h : quietFor s c) (b r : Bytes) (hlen : r.length ≤ u32 c.desc 24) :
    let t := giveResult (policyMarked s c b none) c r
    finishedAs s t c 0 0 0 0 ∧ posts { s with power := policyPower s.power b } t ∧ resultAt s t c r := by
  intro t
  have hquiet := policyMarked_quiet h b none
  have hregisters := updHost_registers (policyMarked s c b none) s.parts[c.part].port (fun m => m.writeBytes (u64 c.desc 16) r)
  have hgive : t =
      finish (updHost (policyMarked s c b none) s.parts[c.part].port (fun m => m.writeBytes (u64 c.desc 16) r)) c.uid 0 0 0 0 :=
    if_neg (Nat.not_lt.mpr hlen)
  obtain ⟨hfinal, hposts⟩ := finish_from hquiet
    (u := updHost (policyMarked s c b none) s.parts[c.part].port (fun m => m.writeBytes (u64 c.desc 16) r))
    rfl (fun p => (hregisters p).1) rfl 0 0 0 0
  rw [hgive]
  refine ⟨hfinal, ?_, fun i hi hfar => ?_⟩
  · unfold posts at hposts ⊢
    rw [hposts]
    rfl
  · exact finish_updHost_read (s := policyMarked s c b none) hm hquiet s.parts[c.part].port (u64 c.desc 16) r hi hfar

/-! ### The two requests -/

section
variable {s : State} {p : Part} {q : Fin 16} {c : Cmd} {b : Bytes} (hs : startable s p q 0x71 = some c) (hlen : b.length = u32 c.desc 8)
include hs hlen

theorem exec_powerPolicy_of_flaw {o : Nat} (ho : policyFlaw b = some o) :
    exec (.powerPolicy p q b) s = .next (finish (begun s c.uid) c.uid 0x10 3 o 0) := by
  have hx : exec (.powerPolicy p q b) s = execPowerPolicy p q b s := rfl
  rw [hx, execPowerPolicy, hs]
  dsimp only
  rw [if_neg (not_not.mpr hlen), ho]

theorem exec_powerPolicy_of_good (ho : policyFlaw b = none) : exec (.powerPolicy p q b) s = .next
    (if u32 c.desc 24 < 8 + 8 * u16 b 2 then finish (begun s c.uid) c.uid 0x13 6 (8 + 8 * u16 b 2) 0 else beginPolicy s c b) := by
  have hx : exec (.powerPolicy p q b) s = execPowerPolicy p q b s := rfl
  rw [hx, execPowerPolicy, hs]
  dsimp only
  rw [if_neg (not_not.mpr hlen), ho]

end

/-- The endpoint with a policy that it serves (R467). -/
def policyServed (s : State) (b head : Bytes) : State :=
  { s with power := policyPower s.power b, mgmt := { s.mgmt with busy := some (.power head (policyDomains b) (policyWaits b)) } }

theorem exec_setPower_of_flaw {s : State} {b : Bytes} {o : Nat} (h : takesRequest s) (hl : s.live = true) (inst : Byte)
    (ho : policyFlaw b = some o) : exec (.setPower inst b) s = .next (mgmtRespond s (mgmtHead 0x16 inst) 2 []) := by
  have hx : exec (.setPower inst b) s = execSetPower inst b s := rfl
  rw [hx, execSetPower, mgmtReady_of_taken _ _ _ h hl, ho]

theorem exec_setPower_of_good {s : State} {b : Bytes} (h : takesRequest s) (hl : s.live = true) (inst : Byte)
    (ho : policyFlaw b = none) : exec (.setPower inst b) s = .next
      (if (policyWaits b).isEmpty then answerSetPower (policyServed s b (mgmtHead 0x16 inst))
        else applyPolicy (policyServed s b (mgmtHead 0x16 inst)) b 10) := by
  have hx : exec (.setPower inst b) s = execSetPower inst b s := rfl
  rw [hx, execSetPower, mgmtReady_of_taken _ _ _ h hl, ho]
  dsimp only
  rw [policyFields_eq]
  rfl

theorem answerSetPower_of_no_waits {s : State} {b : Bytes} (head : Bytes) (hw : policyWaits b = []) :
    answerSetPower (policyServed s b head) = mgmtRespond { s with power := policyPower s.power b, mgmt := { s.mgmt with busy := none } } head 0
      (policyResult { s with power := policyPower s.power b } (policyDomains b)) := by
  unfold answerSetPower policyServed
  dsimp only
  rw [hw, if_pos (by rfl)]
  rfl

theorem policyResult_congr {s t : State} (h : t.power = s.power) (ds : List Nat) : policyResult t ds = policyResult s ds := by
  unfold policyResult
  rw [h]

/-- Settles O40: a policy by its flaw, its buffer and what it waits for. -/
theorem powerPoliciesApplyWhole : Obligations.PowerPoliciesApplyWhole := by
  intro s b n applied
  obtain ⟨happlied, hcap, hquads⟩ := policyPower_applied s b
  have hof (t : State) (ht : t.power = policyPower s.power b) : applied t := by
    refine ⟨ht.trans happlied, ?_, fun q => ?_⟩
    · rw [ht, hcap]
    · rw [ht, hquads]
  refine ⟨fun p q c hm hquiet hs hlen => ⟨fun o ho => ?_, fun ho hshort => ?_, fun ho hfit hw => ?_, fun ho hfit hw => ?_⟩,
    fun inst htakes hlive => ⟨fun o ho => exec_setPower_of_flaw htakes hlive inst ho, fun ho hw => ?_, fun ho hw => ?_⟩⟩
  · rw [exec_powerPolicy_of_flaw hs hlen ho]
    exact ⟨_, rfl, finish_here hquiet _ _ _ _⟩
  · rw [exec_powerPolicy_of_good hs hlen ho, if_pos hshort]
    exact ⟨_, rfl, finish_here hquiet _ _ _ _⟩
  · rw [exec_powerPolicy_of_good hs hlen ho, if_neg (Nat.not_lt.mpr hfit), beginPolicy_of_no_waits hquiet.cmdOf_eq hw]
    obtain ⟨hfinal, hposts, hresult⟩ := policyMarked_gives hm hquiet b
      (policyResult { s with power := policyPower s.power b } (policyDomains b)) (by rw [length_policyResult, length_policyDomains]; exact hfit)
    generalize giveResult (policyMarked s c b none) c (policyResult { s with power := policyPower s.power b } (policyDomains b)) = t
      at hfinal hposts hresult ⊢
    have hpower : t.power = policyPower s.power b := by
      unfold posts at hposts
      rw [hposts]
    refine ⟨t, rfl, hof t hpower, hfinal, ?_, ?_⟩
    · rwa [policyResult_congr (s := { s with power := policyPower s.power b }) hpower]
    · rwa [hpower]
  · rw [exec_powerPolicy_of_good hs hlen ho, if_neg (Nat.not_lt.mpr hfit), beginPolicy_of_waits hw]
    exact ⟨_, rfl, hof _ rfl, rfl, cmdOf_updCmd (fun x => { x with started := true, policy := some (policyDomains b, policyWaits b) })
      (fun _ => rfl) hquiet.cmdOf_eq⟩
  · obtain ⟨-, -, hidle⟩ := id htakes
    rw [exec_setPower_of_good htakes hlive inst ho, if_pos (by rw [hw]; rfl), answerSetPower_of_no_waits _ hw]
    refine ⟨_, rfl, hof _ rfl, mgmtRespond_mgmt_congr ?_ _ _ _, rfl⟩
    dsimp only
    rw [← hidle]
  · rw [exec_setPower_of_good htakes hlive inst ho, if_neg (by simpa using hw)]
    exact ⟨_, rfl, hof _ rfl, rfl⟩

end Sys2Proof.Machine
end

section
/-! SUPPORT. System accesses and the FM rings (R163, R272, R350, R415, R507). -/

namespace Sys2Proof.Machine

/-! ### A system access by the space of its range -/

theorem needing_of_on {s : State} {ds : List Domain} {src : Nat} {w : State} {act : State → State} (h : ds.all (domainOn s) = true) :
    needing s ds src w act = act s := by
  rw [needing, if_pos h]

/-- The domains that a space needs. -/
def spaceDomains (x : SysSpace) : List Domain :=
  match x with
  | .memory ds => ds
  | _ => []

theorem sysDomains_eq (s : State) (k : Packet) (n : Nat) : sysDomains s k n = spaceDomains (sysSpace s k.sysLocal n) := by
  unfold sysDomains spaceDomains
  cases sysSpace s k.sysLocal n <;> rfl

/-- The state with a message taken from the inbox. -/
def taken (s : State) (i : Nat) : State := { s with inbox := removeAt s.inbox i }

section
variable {s : State} {i : Nat} {k : Packet}

theorem exec_sysRead_of_bad (ht : takeInbox s i 3 1 = some (k, taken s i)) (hr : readOk k = false) :
    exec (.sysRead i) s = .next (sysDrop (taken s i)) := by
  have hx : exec (.sysRead i) s = execSysRead i s := rfl
  rw [hx, execSysRead, ht]
  dsimp only
  rw [hr, if_pos (by decide)]

theorem exec_sysRead_of_good (ht : takeInbox s i 3 1 = some (k, taken s i)) (hr : readOk k = true) {x : SysSpace}
    (hx : sysSpace s k.sysLocal (u32 k.payload 0) = x) (hon : (spaceDomains x).all (domainOn s) = true) :
    exec (.sysRead i) s = .next (sysReadServe (taken s i) k) := by
  have he : exec (.sysRead i) s = execSysRead i s := rfl
  rw [he, execSysRead, ht]
  dsimp only
  rw [hr, if_neg (by decide), sysDomains_eq, hx, needing_of_on hon]

theorem serveWrite_of_bad {test : Packet → Bool} (ht : takeInbox s i 3 2 = some (k, taken s i)) (hk : test k = true) (hw : writeOk k = false) :
    serveWrite s i test = sysDrop (taken s i) := by
  rw [serveWrite, ht]
  dsimp only
  rw [hk, hw, if_neg (by decide), if_pos (by decide)]

theorem serveWrite_of_good {test : Packet → Bool} (ht : takeInbox s i 3 2 = some (k, taken s i)) (hk : test k = true) (hw : writeOk k = true)
    {x : SysSpace} (hx : sysSpace s k.sysLocal k.payload.length = x) (hon : (spaceDomains x).all (domainOn s) = true) :
    serveWrite s i test = sysWriteServe (taken s i) k := by
  rw [serveWrite, ht]
  dsimp only
  rw [hk, hw, if_neg (by decide), if_neg (by decide), sysDomains_eq, hx, needing_of_on hon]

end

section
variable {s : State} {k : Packet}

theorem sysReadServe_of_control {o : Nat} (h : sysSpace s k.sysLocal (u32 k.payload 0) = .control o) : sysReadServe s k =
    sysReply s k sysOk ((List.range (u32 k.payload 0 / 4)).flatMap (fun j => le 4 (controlWord s (o + 4 * j)))) := by
  rw [sysReadServe, h]

theorem sysReadServe_of_memory {ds : List Domain} (h : sysSpace s k.sysLocal (u32 k.payload 0) = .memory ds)
    (hclean : s.mem.poisoned k.sysLocal (u32 k.payload 0) = false) : sysReadServe s k =
    sysReply { endWait s (windowCluster k.sysLocal) with fresh := s.fresh + 1 } k sysOk (targetBytes s k.sysLocal (u32 k.payload 0)) := by
  rw [sysReadServe, h]
  dsimp only
  rw [sysBytes, hclean, if_neg Bool.false_ne_true]

theorem sysReadServe_of_nowhere (h : sysSpace s k.sysLocal (u32 k.payload 0) = .nowhere) :
    sysReadServe s k = sysReply s k sysBadAddress [] := by
  rw [sysReadServe, h]

theorem sysWriteServe_of_control {o : Nat} (h : sysSpace s k.sysLocal k.payload.length = .control o)
    (hanswer : (writeControl s o k.payload).1 ≠ sysRefused) : sysWriteServe s k =
    sysReply (writeControl s o k.payload).2 k (writeControl s o k.payload).1 [] := by
  rw [sysWriteServe, h]
  dsimp only
  rw [if_neg hanswer]

theorem sysWriteServe_of_refused {o : Nat} (h : sysSpace s k.sysLocal k.payload.length = .control o)
    (hanswer : (writeControl s o k.payload).1 = sysRefused) : sysWriteServe s k =
    sysReply (noteModes (writeControl s o k.payload).2 o k.payload) k sysRefused [] := by
  rw [sysWriteServe, h]
  dsimp only
  rw [hanswer, if_pos rfl]

theorem sysWriteServe_of_memory {ds : List Domain} (h : sysSpace s k.sysLocal k.payload.length = .memory ds) : sysWriteServe s k =
    sysReply (targetStore (endWait s (windowCluster k.sysLocal)) k.sysLocal k.payload) k sysOk [] := by
  rw [sysWriteServe, h]

theorem sysWriteServe_of_nowhere (h : sysSpace s k.sysLocal k.payload.length = .nowhere) :
    sysWriteServe s k = sysReply s k sysBadAddress [] := by
  rw [sysWriteServe, h]

end

/-- A write into the control space is whole or leaves the state (R332). -/
theorem writeControl_of_not_ok {s : State} {o : Nat} {b : Bytes} (h : (writeControl s o b).1 ≠ sysOk) : (writeControl s o b).2 = s := by
  unfold writeControl at h ⊢
  dsimp only at h ⊢
  split
  · next hok =>
    rw [if_pos hok] at h
    exact absurd hok h
  · rfl

/-! ### The FM receive ring -/

/-- Whether every partition keeps its FM receive ring. -/
def keepsFmrx (s t : State) : Prop := ∀ p : Part, t.parts[p].fmrx = s.parts[p].fmrx

theorem keepsFmrx.trans {s t u : State} (h : keepsFmrx s t) (k : keepsFmrx t u) : keepsFmrx s u := fun p => (k p).trans (h p)

theorem keepsFmrx_of_parts {s t : State} (h : t.parts = s.parts) : keepsFmrx s t := fun p => by rw [h]

theorem updPart_keepsFmrx (s : State) (q : Part) {f : Partition → Partition} (hf : ∀ x, (f x).fmrx = x.fmrx) : keepsFmrx s (updPart s q f) := by
  intro p
  by_cases h : p = q
  · rw [h, updPart_at, hf]
  · rw [updPart_at_ne s f h]

theorem signalVector_keepsFmrx (s : State) (p : Port) (v : Nat) : keepsFmrx s (signalVector s p v) := by
  obtain ⟨x, hx⟩ := signalVector_frame s p v
  exact keepsFmrx_of_parts (by rw [hx])

theorem note_keepsFmrx (s : State) (code unit : Nat) (stamp : Stamp) (a0 a1 a2 : Nat) : keepsFmrx s (note s code unit stamp a0 a1 a2) :=
  keepsFmrx_of_parts (by rw [note_frame])

theorem eventPut_keepsFmrx (s : State) (q : Part) (code unit : Nat) (stamp : Stamp) (a0 a1 : Nat) :
    keepsFmrx s (eventPut s q code unit stamp a0 a1) := by
  unfold eventPut
  dsimp only
  refine keepsFmrx.trans ?_ (signalVector_keepsFmrx _ _ _)
  exact updPart_keepsFmrx (updHost s s.parts[q].port _) q (fun _ => rfl)

theorem postEvent_keepsFmrx (s : State) (q : Part) (code unit : Nat) (stamp : Stamp) (a0 a1 : Nat) :
    keepsFmrx s (postEvent s q code unit stamp a0 a1) := by
  have hlost : keepsFmrx s (bump (updPart s q (fun x => { x with eventsLost := x.eventsLost + 1 })) 0x40 q.val 1) :=
    updPart_keepsFmrx s q (f := fun x => { x with eventsLost := x.eventsLost + 1 }) (fun _ => rfl)
  unfold postEvent
  dsimp only
  split
  · exact fun _ => rfl
  · split
    · exact eventPut_keepsFmrx s q code unit stamp a0 a1
    · split
      · exact hlost.trans ((eventPut_keepsFmrx _ _ _ _ _ _ _).trans ((note_keepsFmrx _ _ _ _ _ _ _).trans (updPart_keepsFmrx _ q (fun _ => rfl))))
      · exact hlost

theorem hostEvent_one_keepsFmrx (s : State) (p : Part) (code unit : Nat) (stamp : Stamp) (a0 a1 : Nat) :
    keepsFmrx s (hostEvent s [p] code unit stamp a0 a1) :=
  (note_keepsFmrx _ _ _ _ _ _ _).trans (postEvent_keepsFmrx _ _ _ _ _ _ _)

/-- A packet takes the next entry of the FM receive ring when there is room (R415). -/
theorem fmReceive_of_room {s : State} (k : Packet) {p : Part} (hp : fmPart s = some p) (husable : s.parts[p].fmrx.usable = true)
    (hposts : portPosts s s.parts[p].port = true) (hfree : 0 < s.parts[p].fmrx.free) :
    (fmReceive s k).parts[p].fmrx = { s.parts[p].fmrx with posted := s.parts[p].fmrx.posted + 1 } ∧ reports s (fmReceive s k) := by
  unfold fmReceive
  rw [hp]
  dsimp only
  rw [husable, hposts, decide_eq_true hfree, if_neg (by decide)]
  constructor
  · refine ((signalVector_keepsFmrx _ _ _).trans (hostEvent_one_keepsFmrx _ _ _ _ _ _ _) p).trans ?_
    rw [updPart_at]
    rfl
  · exact (updHost_reports s _ _).trans ((updPart_reports _ _ _).trans ((signalVector_reports _ _ _).trans (hostEvent_reports _ _ _ _ _ _ _)))

theorem exec_sysReply_of_taken {s : State} {i : Nat} {k : Packet} (ht : takeInbox s i 3 3 = some (k, taken s i)) :
    exec (.sysReply i) s = .next (fmReceive (taken s i) k) := by
  have hx : exec (.sysReply i) s = execSysReply i s := rfl
  rw [hx, execSysReply, ht]

theorem exec_sysMessage_of_manager {s : State} {i : Nat} {k : Packet} {m : Nat × Bytes} (ht : takeInbox s i 3 4 = some (k, taken s i))
    (hd : toDevice (u16 k.payload 0) = false) (hm : messageOf k toManager = some m) :
    exec (.sysMessage i) s = .next (fmReceive (taken s i) k) := by
  have hx : exec (.sysMessage i) s = execSysMessage i s := rfl
  rw [hx, execSysMessage, ht]
  dsimp only
  rw [hd, if_neg Bool.false_ne_true, hm]

theorem exec_fmTransmit_of_held {s : State} {p : Part} {e : Bytes}
    (h : (s.live && s.parts[p].assigned && s.parts[p].enable && s.parts[p].fmChannel && s.parts[p].fmtx.usable &&
      portPosts s s.parts[p].port && decide (0 < s.parts[p].fmtx.held) && e.length == 576) = true) :
    let consumed := updPart s p (fun x => { x with fmtx := { x.fmtx with consumed := x.fmtx.consumed + 1 } })
    exec (.fmTransmit p e) s = .next (if fmEntryOk e then sendPacket consumed (fmPacket s e) else sysDrop consumed) := by
  have hx : exec (.fmTransmit p e) s = execFmTransmit p e s := rfl
  rw [hx, execFmTransmit]
  dsimp only
  rw [h, if_neg (by decide)]

/-- Settles O41: an access by its form and its space, a message by the receive ring, an entry by its form. -/
theorem systemAccessesAnswer : Obligations.SystemAccessesAnswer := by
  intro s i k a n rest
  refine ⟨fun ht => ⟨exec_sysRead_of_bad ht, fun o hr hx => ?_, fun ds hr hx hon hclean => ?_, fun hr hx => ?_⟩,
    fun ht hfree => ?_, fun p code args hp husable hposts hroom => ?_, fun p e hl ha he hf hu hpo hh hlen => ?_⟩
  · rw [exec_sysRead_of_good ht hr hx rfl, sysReadServe_of_control (s := taken s i) hx]
    rfl
  · rw [exec_sysRead_of_good ht hr hx hon, sysReadServe_of_memory (s := taken s i) hx hclean]
    rfl
  · rw [exec_sysRead_of_good ht hr hx rfl, sysReadServe_of_nowhere (s := taken s i) hx]
    rfl
  · have htest : (!ownRegisters.any (fun r => touches k r.1 r.2)) = true := by rw [hfree]; rfl
    have hexec : exec (.sysWrite i) s = .next (serveWrite s i (fun k => !ownRegisters.any (fun r => touches k r.1 r.2))) := rfl
    rw [hexec]
    refine ⟨fun hw => ?_, fun o hw hx hok => ?_, fun o hw hx hbad => ?_, fun ds hw hx hon => ?_, fun hw hx => ?_⟩
    · rw [serveWrite_of_bad ht htest hw]
      rfl
    · have hanswer : (writeControl (taken s i) o k.payload).1 = sysOk := hok
      rw [serveWrite_of_good ht htest hw hx rfl, sysWriteServe_of_control (s := taken s i) hx (by rw [hanswer]; decide), hanswer]
      rfl
    · have hanswer : (writeControl (taken s i) o k.payload).1 = sysBadAddress := hbad
      rw [serveWrite_of_good ht htest hw hx rfl, sysWriteServe_of_control (s := taken s i) hx (by rw [hanswer]; decide),
        writeControl_of_not_ok (by rw [hanswer]; decide), hanswer]
      rfl
    · rw [serveWrite_of_good ht htest hw hx hon, sysWriteServe_of_memory (s := taken s i) hx]
      rfl
    · rw [serveWrite_of_good ht htest hw hx rfl, sysWriteServe_of_nowhere (s := taken s i) hx]
      rfl
  · intro lands
    refine ⟨fun ht => ?_, fun ht hd hm => ?_⟩
    · exact ⟨_, exec_sysReply_of_taken ht, fmReceive_of_room (s := taken s i) k hp husable hposts hroom⟩
    · exact ⟨_, exec_sysMessage_of_manager ht hd hm, fmReceive_of_room (s := taken s i) k hp husable hposts hroom⟩
  · have hexec := exec_fmTransmit_of_held (s := s) (p := p) (e := e) (by rw [hl, ha, he, hf, hu, hpo, decide_eq_true hh, hlen]; rfl)
    intro consumed
    refine ⟨fun hok => hexec.trans ?_, fun hno => hexec.trans ?_⟩
    · rw [if_pos hok]
    · rw [hno, if_neg Bool.false_ne_true]

end Sys2Proof.Machine
end

section
/-! SUPPORT. Writes of one word to the registers that have an operation of their own (R329, R331, R334, R502, R504, R505). -/

namespace Sys2Proof.Machine

/-! ### One word written to the control space -/

theorem exists_of_length_four {l : Bytes} (h : l.length = 4) : ∃ a b c d, l = [a, b, c, d] := by
  match l, h with
  | [a, b, c, d], _ => exact ⟨a, b, c, d, rfl⟩

theorem overlay_whole {old new : Bytes} (h : old.length = new.length) : overlay old 0 new = new := by
  simp [overlay, h]

/-- Four bytes are the word at their offset. -/
theorem writtenWords_of_word (s : State) (o : Nat) {b : Bytes} (h : b.length = 4) : writtenWords s o b = [(o, u32 b 0)] := by
  have hceil : ceilDiv b.length 4 = 1 := by rw [h]; rfl
  have hslice : slice b (4 * 0) (min 4 (b.length - 4 * 0)) = b := by
    obtain ⟨b0, b1, b2, b3, rfl⟩ := exists_of_length_four h
    rfl
  have hwhole : overlay (le 4 (controlWord s (o + 4 * 0))) 0 b = b := overlay_whole (by rw [length_le, h])
  unfold writtenWords
  rw [hceil]
  simp only [List.range_one, List.map_cons, List.map_nil, hslice]
  rw [hwhole]
  by_cases ho : o = 0x18000 <;> simp [ho]

/-- The answer of a register that takes its word or refuses it. -/
def wordAnswer (s : State) (r : Option State) : Nat × State := r.elim (sysRefused, s) (fun t => (sysOk, t))

theorem writeControl_of_word {s : State} {o v : Nat} {b : Bytes} {r : Option State} (h : b.length = 4) (hv : u32 b 0 = v)
    (hc : controlWrite s o v = wordAnswer s r) : writeControl s o b = wordAnswer s r := by
  have hfold : (writtenWords s o b).foldl (fun (a : Nat × State) w => if a.1 = sysOk then controlWrite a.2 w.1 w.2 else a) (sysOk, s) =
      wordAnswer s r := by
    rw [writtenWords_of_word s o h, hv, List.foldl_cons, List.foldl_nil, if_pos rfl, hc]
  unfold writeControl
  rw [hfold]
  cases r <;> rfl

/-- One word in a SYS_WRITE to an offset of the control space. -/
def wordAt (s : State) (i : Nat) (k : Packet) (v o : Nat) : Prop :=
  takeInbox s i 3 2 = some (k, taken s i) ∧ k.payload.length = 4 ∧ u32 k.payload 0 = v ∧ k.sysLocal = controlBase + o

/-- The answer to a word that its register takes or refuses. -/
def wordReply (s : State) (o : Nat) (k : Packet) (r : Option State) : State :=
  r.elim (sysReply (noteModes s o k.payload) k sysRefused []) (fun t => sysReply t k sysOk [])

section
variable {s : State} {i v o : Nat} {k : Packet}

theorem wordAt.touches (h : wordAt s i k v o) {lo hi : Nat} (hlo : lo < o + 4) (hhi : o < hi) : touches k lo hi = true := by
  obtain ⟨-, hlen, -, hat⟩ := h
  rw [Machine.touches, hlen, hat, decide_eq_true (by omega), decide_eq_true (by omega)]
  rfl

theorem serveWrite_of_word {test : Packet → Bool} {r : Option State} (h : wordAt s i k v o) (ho : o % 4 = 0) (hlt : o + 4 ≤ 0x20000)
    (htest : test k = true) (hc : controlWrite (taken s i) o v = wordAnswer (taken s i) r) :
    serveWrite s i test = wordReply (taken s i) o k r := by
  obtain ⟨ht, hlen, hv, hat⟩ := h
  have hbase : (controlBase + o) % 4 = 0 := by
    unfold controlBase
    omega
  have hw : writeOk k = true := by
    rw [writeOk, hlen, hat, hbase]
    rfl
  have hspace : sysSpace s k.sysLocal k.payload.length = .control o := by
    rw [hlen, hat, sysSpace, decide_eq_true (Nat.le_add_right _ _), decide_eq_true (by omega), if_pos (by decide), Nat.add_sub_cancel_left]
  have hwritten := writeControl_of_word hlen hv hc
  rw [serveWrite_of_good ht htest hw hspace rfl]
  cases r with
  | none =>
    have hanswer : (writeControl (taken s i) o k.payload).1 = sysRefused := congrArg Prod.fst hwritten
    rw [sysWriteServe_of_refused (s := taken s i) hspace hanswer, hwritten]
    rfl
  | some t =>
    have hanswer : (writeControl (taken s i) o k.payload).1 = sysOk := congrArg Prod.fst hwritten
    rw [sysWriteServe_of_control (s := taken s i) hspace (by rw [hanswer]; decide), hwritten]
    rfl

/-- A refused word outside the MODE registers leaves no record. -/
theorem noteModes_of_other (s : State) {b : Bytes} (h : b.length = 4) (ho : ¬(0x5000 ≤ o ∧ o < 0x5120)) : noteModes s o b = s := by
  rw [noteModes, writtenWords_of_word s o h, List.filter_cons_of_neg (by simpa using ho)]
  rfl

/-- A refused MODE of a held region leaves its record (R505). -/
theorem noteModes_of_held {s : State} {g : Fin 72} {b : Bytes} (ho : o = 0x5000 + 4 * g.val) (h : b.length = 4)
    (hv : bit (u32 b 0) 0 ≠ s.regions[g].stackLocal) (hheld : modeHeld s g = true) :
    noteModes s o b = note s 0x23 (unitFabric 29) 0 g.val 0 0 := by
  have hg := g.isLt
  have hindex : (Fin.ofNat 72 ((o - 0x5000) / 4) : Fin 72) = g := Fin.ext (by rw [Fin.val_ofNat]; omega)
  have hmode : (decide (0x5000 ≤ o) && decide (o < 0x5120)) = true := by
    rw [decide_eq_true (by omega), decide_eq_true (by omega)]
    rfl
  have hcond : (bit (u32 b 0) 0 != s.regions[g].stackLocal && modeHeld s g) = true := by
    rw [hheld, Bool.and_true]
    exact bne_iff_ne.mpr hv
  rw [noteModes, writtenWords_of_word s _ h,
    List.filter_cons_of_pos (p := fun w : Nat × Nat => decide (0x5000 ≤ w.1) && decide (w.1 < 0x5120)) hmode, List.filter_nil, List.foldl_cons,
    List.foldl_nil]
  exact (congrArg (fun g' : Fin 72 => if (bit (u32 b 0) 0 != s.regions[g'].stackLocal && modeHeld s g') = true then
    note s 0x23 (unitFabric 29) 0 g'.val 0 0 else s) hindex).trans (if_pos hcond)

/-- The reply of a register other than MODE. -/
theorem wordReply_of_other {r : Option State} (h : wordAt s i k v o) (ho : ¬(0x5000 ≤ o ∧ o < 0x5120)) : wordReply (taken s i) o k r =
    r.elim (sysReply (taken s i) k sysRefused []) (fun t => sysReply t k sysOk []) := by
  obtain ⟨-, hlen, -, -⟩ := h
  rw [wordReply, noteModes_of_other _ hlen ho]

end

/-! ### The registers with an operation of their own -/

section
variable (s : State) (v : Nat)

theorem controlWrite_myCoord : controlWrite s 0x18000 v = wordAnswer s (writeMyCoord s v) := by
  have hroute : routingWrite s 0x8000 v = writeMyCoord s v := rfl
  rw [← hroute]
  cases hr : routingWrite s 0x8000 v <;> simp [controlWrite, hr, wordAnswer]

theorem controlWrite_bankCtrl : controlWrite s 0x18008 v = wordAnswer s (writeBankCtrl s v) := by
  have hroute : routingWrite s 0x8008 v = writeBankCtrl s v := rfl
  rw [← hroute]
  cases hr : routingWrite s 0x8008 v <;> simp [controlWrite, hr, wordAnswer]

theorem controlWrite_settings {o : Nat} (hlo : 0x5000 ≤ o) (hhi : o < 0x5300) :
    controlWrite s o v = wordAnswer s (settingsWrite s (o - 0x5000) v) := by
  unfold controlWrite
  dsimp only
  rw [if_neg (by omega), if_neg (by omega), if_neg (by omega), if_pos ⟨hlo, hhi⟩]
  cases settingsWrite s (o - 0x5000) v <;> rfl

theorem settingsWrite_mode (g : Fin 72) : settingsWrite s (0x5000 + 4 * g.val - 0x5000) v = writeMode s g v := by
  have hg := g.isLt
  have hindex : (Fin.ofNat 72 ((0x5000 + 4 * g.val - 0x5000) / 4) : Fin 72) = g := Fin.ext (by rw [Fin.val_ofNat]; omega)
  rw [settingsWrite, if_pos (by omega), hindex]

end

section
variable {s : State} {i v : Nat} {k : Packet}

theorem exec_myCoord_of_word (h : wordAt s i k v 0x18000) : exec (.myCoord i) s =
    .next ((writeMyCoord (taken s i) v).elim (sysReply (taken s i) k sysRefused []) (fun t => sysReply t k sysOk [])) := by
  rw [← wordReply_of_other h (by decide)]
  exact congrArg _ (serveWrite_of_word h (by decide) (by decide) (h.touches (by decide) (by decide)) (controlWrite_myCoord _ v))

theorem exec_bankCtrl_of_word (h : wordAt s i k v 0x18008) : exec (.bankCtrl i) s =
    .next ((writeBankCtrl (taken s i) v).elim (sysReply (taken s i) k sysRefused []) (fun t => sysReply t k sysOk [])) := by
  rw [← wordReply_of_other h (by decide)]
  exact congrArg _ (serveWrite_of_word h (by decide) (by decide) (h.touches (by decide) (by decide)) (controlWrite_bankCtrl _ v))

theorem exec_fportEnable_of_word (h : wordAt s i k v 0x5214) : exec (.fportEnable i) s =
    .next ((writeEnable (taken s i) v).elim (sysReply (taken s i) k sysRefused []) (fun t => sysReply t k sysOk [])) := by
  rw [← wordReply_of_other h (by decide)]
  exact congrArg _ (serveWrite_of_word h (by decide) (by decide) (h.touches (by decide) (by decide))
    (controlWrite_settings _ v (by decide) (by decide)))

theorem exec_settingsLock_of_word (h : wordAt s i k v 0x52FC) : exec (.settingsLock i) s =
    .next ((writeLock (taken s i) v).elim (sysReply (taken s i) k sysRefused []) (fun t => sysReply t k sysOk [])) := by
  rw [← wordReply_of_other h (by decide)]
  exact congrArg _ (serveWrite_of_word h (by decide) (by decide) (h.touches (by decide) (by decide))
    (controlWrite_settings _ v (by decide) (by decide)))

theorem exec_hbmRegion_of_word {g : Fin 72} (h : wordAt s i k v (0x5000 + 4 * g.val)) : exec (.hbmRegion i) s =
    .next (wordReply (taken s i) (0x5000 + 4 * g.val) k (writeMode (taken s i) g v)) := by
  have hg := g.isLt
  refine congrArg _ (serveWrite_of_word h (by omega) (by omega) (h.touches (by omega) (by omega)) ?_)
  rw [controlWrite_settings _ v (by omega) (by omega), settingsWrite_mode]

end

/-! ### What each register takes -/

section
variable {s : State} {v : Nat}

theorem writeMyCoord_of_reserved (h : bits v 31 16 ≠ 0 ∨ bits v 14 9 ≠ 0) : writeMyCoord s v = none := by
  rw [writeMyCoord, if_pos h]

/-- MY_COORD written while it stands (R331). -/
theorem writeMyCoord_of_set (hhi : bits v 31 16 = 0) (hlo : bits v 14 9 = 0) (hvalid : s.router.coordValid = true) :
    (BitVec.ofNat 9 v ≠ s.router.myCoord → writeMyCoord s v = none) ∧
      (BitVec.ofNat 9 v = s.router.myCoord → bit v 15 = true → writeMyCoord s v = some s) ∧
      (BitVec.ofNat 9 v = s.router.myCoord → bit v 15 = false → writeMyCoord s v = some (clearCoord s)) := by
  rw [writeMyCoord, if_neg (by simp [hhi, hlo]), if_pos hvalid]
  refine ⟨fun hne => if_pos hne, fun heq hbit => ?_, fun heq hbit => ?_⟩
  · rw [if_neg (not_not.mpr heq), if_pos hbit]
  · rw [if_neg (not_not.mpr heq), hbit, if_neg Bool.false_ne_true]

/-- BANK_CTRL keeps a valid injection bank (R334). -/
theorem writeBankCtrl_of_some {t : State} (h : writeBankCtrl s v = some t) :
    t = updRouter s (fun r => { r with bank0Valid := bit v 0, bank1Valid := bit v 1, injectEpoch := BitVec.ofNat 1 (bits v 2 2) }) ∧
      (if bits v 2 2 = 0 then bit v 0 else bit v 1) = true := by
  unfold writeBankCtrl at h
  dsimp only at h
  rw [Option.ite_none_right_eq_some] at h
  obtain ⟨hok, ht⟩ := h
  simp only [Bool.and_eq_true] at hok
  obtain ⟨⟨⟨-, hbank⟩, -⟩, -⟩ := hok
  exact ⟨(Option.some.inj ht).symm, hbank⟩

theorem writeEnable_of_locked (hl : s.settings.lock = true) (hv : v % 2 ^ 16 ≠ s.settings.fportEnable.toNat) : writeEnable s v = none := by
  rw [writeEnable, hl, Bool.true_and, if_pos (bne_iff_ne.mpr hv)]

theorem writeEnable_of_free (h : s.settings.lock = false ∨ v % 2 ^ 16 = s.settings.fportEnable.toNat) :
    (cutsRing s (v % 2 ^ 16) = true → writeEnable s v = none) ∧
      (cutsRing s (v % 2 ^ 16) = false → writeEnable s v = some (setEnables s (v % 2 ^ 16))) := by
  have hcond : (s.settings.lock && v % 2 ^ 16 != s.settings.fportEnable.toNat) = false := by
    obtain h | h := h
    · rw [h]
      rfl
    · rw [h, bne_self_eq_false, Bool.and_false]
  unfold writeEnable
  dsimp only
  rw [hcond, if_neg Bool.false_ne_true]
  refine ⟨fun hcuts => if_pos hcuts, fun hwhole => ?_⟩
  rw [hwhole, if_neg Bool.false_ne_true]

theorem writeMode_of_same {g : Fin 72} (h : bit v 0 = s.regions[g].stackLocal) : writeMode s g v = some s := by
  rw [writeMode, if_pos h]

theorem writeMode_of_other {g : Fin 72} (h : bit v 0 ≠ s.regions[g].stackLocal) :
    (modeHeld s g = true → writeMode s g v = none) ∧
      (modeHeld s g = false → writeMode s g v = some (updRegion s g (fun r => { r with stackLocal := bit v 0 }))) := by
  rw [writeMode, if_neg h]
  refine ⟨fun hheld => if_pos hheld, fun hfree => ?_⟩
  rw [hfree, if_neg Bool.false_ne_true]

theorem writeLock_of_locked (hl : s.settings.lock = true) (hv : bit v 0 = false) : writeLock s v = none := by
  rw [writeLock, hl, hv, if_pos (by decide)]

theorem writeLock_of_free (h : s.settings.lock = false ∨ bit v 0 = true) :
    writeLock s v = some { s with settings := { s.settings with lock := bit v 0 } } := by
  rw [writeLock, if_neg (by obtain h | h := h <;> simp [h])]

end

/-- Settles O42: each register by what its word asks. -/
theorem settingsAndRoutingAreWritten : Obligations.SettingsAndRoutingAreWritten := by
  intro s i k v rest at_ done refused
  refine ⟨fun h => ?_, fun h u hu => ?_, fun h => ?_, fun g h => ?_, fun h => ?_⟩
  · have hexec := exec_myCoord_of_word h
    have hanswer (r : Option State) (hr : writeMyCoord (taken s i) v = r) : exec (.myCoord i) s =
        .next (r.elim (sysReply (taken s i) k sysRefused []) (fun t => sysReply t k sysOk [])) := hr ▸ hexec
    refine ⟨fun hbad => hanswer _ (writeMyCoord_of_reserved hbad), fun hhi hlo => ⟨fun hnot hbit => ?_, fun hnot hbit => ?_, fun hset => ?_,
      fun hset => ?_, fun hset => ?_⟩⟩
    · refine hanswer (some (assignCoord (taken s i) (BitVec.ofNat 9 v))) ?_
      rw [writeMyCoord_of_unset (s := taken s i) hhi hlo hnot, hbit, if_pos rfl]
    · refine hanswer (some (updRouter (taken s i) (fun r => { r with myCoord := BitVec.ofNat 9 v }))) ?_
      rw [writeMyCoord_of_unset (s := taken s i) hhi hlo hnot, hbit, if_neg Bool.false_ne_true]
    · exact fun hne => hanswer _ ((writeMyCoord_of_set (s := taken s i) hhi hlo hset).1 hne)
    · exact fun heq hbit => hanswer _ ((writeMyCoord_of_set (s := taken s i) hhi hlo hset).2.1 heq hbit)
    · intro heq hbit
      have hclear := hanswer (some (clearCoord (taken s i))) ((writeMyCoord_of_set (s := taken s i) hhi hlo hset).2.2 heq hbit)
      rw [Option.elim_some] at hclear
      exact hclear
  · have hexec := exec_bankCtrl_of_word h
    have hanswer (r : Option State) (hr : writeBankCtrl (taken s i) v = r) : exec (.bankCtrl i) s =
        .next (r.elim (sysReply (taken s i) k sysRefused []) (fun t => sysReply t k sysOk [])) := hr ▸ hexec
    exact ⟨fun hnone => hanswer none (hu.trans hnone), fun t hsome => ⟨hanswer (some t) (hu.trans hsome), writeBankCtrl_of_some (hu.trans hsome)⟩⟩
  · have hexec := exec_fportEnable_of_word h
    have hanswer (r : Option State) (hr : writeEnable (taken s i) v = r) : exec (.fportEnable i) s =
        .next (r.elim (sysReply (taken s i) k sysRefused []) (fun t => sysReply t k sysOk [])) := hr ▸ hexec
    exact ⟨fun hl hne => hanswer _ (writeEnable_of_locked (s := taken s i) hl hne),
      fun hfree hcuts => hanswer _ ((writeEnable_of_free (s := taken s i) hfree).1 hcuts),
      fun hfree hwhole => hanswer _ ((writeEnable_of_free (s := taken s i) hfree).2 hwhole)⟩
  · have hexec := exec_hbmRegion_of_word h
    have hanswer (r : Option State) (hr : writeMode (taken s i) g v = r) : exec (.hbmRegion i) s =
        .next (wordReply (taken s i) (0x5000 + 4 * g.val) k r) := hr ▸ hexec
    obtain ⟨-, hlen, hv, -⟩ := h
    refine ⟨fun hsame => hanswer _ (writeMode_of_same (s := taken s i) hsame), fun hother hfree => ?_, fun hother hheld => ?_⟩
    · exact hanswer _ ((writeMode_of_other (s := taken s i) hother).2 hfree)
    · refine (hanswer _ ((writeMode_of_other (s := taken s i) hother).1 hheld)).trans ?_
      rw [wordReply, noteModes_of_held (s := taken s i) rfl hlen (by rw [hv]; exact hother) hheld]
      rfl
  · have hexec := exec_settingsLock_of_word h
    have hanswer (r : Option State) (hr : writeLock (taken s i) v = r) : exec (.settingsLock i) s =
        .next (r.elim (sysReply (taken s i) k sysRefused []) (fun t => sysReply t k sysOk [])) := hr ▸ hexec
    exact ⟨fun hl hoff => hanswer _ (writeLock_of_locked (s := taken s i) hl hoff),
      fun hfree => hanswer _ (writeLock_of_free (s := taken s i) hfree)⟩

end Sys2Proof.Machine
end

section
/-! SUPPORT. The fabric manager's messages (R310, R349, R351, R481, R482). -/

namespace Sys2Proof.Machine

/-! ### Taking a message -/

section
variable {s : State} {i : Nat} {k : Packet} {c : Nat} {act : State → Bytes → State}

theorem managerMessage_of_taken (ht : takeInbox s i 3 4 = some (k, taken s i)) (hc : u16 k.payload 0 = c) :
    managerMessage s i c act = ((messageOf k (fun _ => some 4)).map (fun m => act (taken s i) m.2)).getD (sysDrop (taken s i)) := by
  rw [managerMessage, ht]
  dsimp only
  rw [if_neg (by simp [hc])]
  cases messageOf k (fun _ => some 4) <;> rfl

theorem managerMessage_of_broken (ht : takeInbox s i 3 4 = some (k, taken s i)) (hc : u16 k.payload 0 = c)
    (hm : messageOf k (fun _ => some 4) = none) : managerMessage s i c act = sysDrop (taken s i) := by
  rw [managerMessage_of_taken ht hc, hm, Option.map_none, Option.getD_none]

theorem managerMessage_of_good (ht : takeInbox s i 3 4 = some (k, taken s i)) (hc : u16 k.payload 0 = c) {x : Nat} {a : Bytes}
    (hm : messageOf k (fun _ => some 4) = some (x, a)) : managerMessage s i c act = act (taken s i) a := by
  rw [managerMessage_of_taken ht hc, hm, Option.map_some, Option.getD_some]

end

theorem coordBytesOk_of_lt {a : Bytes} (h : u16 a 0 < 512) : coordBytesOk a = true := by
  unfold coordBytesOk
  simpa using h

/-- The peers held back, with one more. -/
def holding (r : Router) (n : Nat) : Router := { r with held := n :: r.held.filter (fun m => m != n) }

theorem mem_held_holding {r : Router} {n m : Nat} (h : m ≠ n) : m ∈ (holding r n).held ↔ m ∈ r.held := by
  simp [holding, h]

/-! ### What a message to the fabric manager leaves -/

theorem fmMessage_frame (s : State) (c : Nat) (a : Bytes) : fmMessage s c a =
    { s with inbox := (fmMessage s c a).inbox, router := (fmMessage s c a).router, nextUid := (fmMessage s c a).nextUid } := by
  unfold fmMessage sendPacket
  split
  · split <;> rfl
  · rfl

theorem fmMessage_blotter (s : State) (c : Nat) (a : Bytes) : (fmMessage s c a).blotter = s.blotter := by rw [fmMessage_frame]

/-! ### A teardown -/

/-- Nothing of a partition is loaded or under way, and no tracker or filler is in use. -/
def unloaded (s : State) (p : Part) : Prop :=
  s.folios.any (fun f => f.part == p) = false ∧ s.longs.any (fun o => o.part == p && !o.state.isOver) = false ∧ s.trackers = [] ∧ s.fillers = []

section
variable {s : State} {p : Part}

theorem unloaded.no_folio (h : unloaded s p) : s.folios.filter (fun f => f.part == p) = [] := by
  rw [List.filter_eq_nil_iff]
  exact List.any_eq_false.mp h.1

theorem unloaded.no_long (h : unloaded s p) : s.longs.filter (fun o => o.part == p && !o.state.isOver) = [] := by
  rw [List.filter_eq_nil_iff]
  exact List.any_eq_false.mp h.2.1

theorem unloaded.no_tracker (h : unloaded s p) : s.trackers = [] := h.2.2.1

theorem unloaded.no_filler (h : unloaded s p) : s.fillers = [] := h.2.2.2

theorem unloaded.of_note (h : unloaded s p) (code unit : Nat) (stamp : Stamp) (a0 a1 a2 : Nat) : unloaded (note s code unit stamp a0 a1 a2) p := by
  rw [note_frame]
  exact h

theorem preemptAll_of_nil (h : s.fillers = []) (test : FillerRun → Bool) : preemptAll s test = s := by
  rw [preemptAll, h]
  rfl

/-- The job of a partition, torn down. -/
def torn (x : Partition) : Partition := { x with job := x.job.map (fun j => { j with stopped := false, torn := true }) }

/-- A teardown of a job that has nothing loaded marks the job torn and reports (R481). -/
theorem teardown_of_unloaded {j : Job} (hj : s.parts[p].job = some j) (h : unloaded s p) (how : Nat) :
    ∃ u : State, u.parts = (updPart s p torn).parts ∧ u.longs = s.longs ∧ u.mem = s.mem ∧
      teardown s p how = fmMessage (note u 0x61 (unitFabric 29) j.stamp 0 p.val 0) 0x203 (reportArgs j.stamp 0 0 0 0) := by
  unfold teardown
  rw [hj]
  have hv : unloaded (note s 0x60 (unitFabric 29) j.stamp how p.val 0) p := h.of_note _ _ _ _ _ _
  have hframe := note_frame (s := s) (code := 0x60) (unit := unitFabric 29) (stamp := j.stamp) (a0 := how) (a1 := p.val) (a2 := 0)
  dsimp only
  generalize note s 0x60 (unitFabric 29) j.stamp how p.val 0 = v at hv hframe ⊢
  have hparts : v.parts = s.parts := by rw [hframe]
  have hlongs : v.longs = s.longs := by rw [hframe]
  have hmem : v.mem = s.mem := by rw [hframe]
  simp only [hv.no_folio, hv.no_long, List.filterMap_nil, List.foldl_nil, preemptAll_of_nil hv.no_filler, hv.no_tracker, List.filter_nil]
  refine ⟨_, ?_, ?_, ?_, rfl⟩
  · simp only [updPart, hparts, torn]
  · exact hlongs
  · exact hmem

/-- So the partition's job alone is changed, and no long operation and no byte of memory. -/
theorem teardown_of_unloaded_frame {j : Job} (hj : s.parts[p].job = some j) (h : unloaded s p) (how : Nat) :
    (teardown s p how).parts = (updPart s p (fun x => { x with job := some { j with stopped := false, torn := true } })).parts ∧
      (teardown s p how).longs = s.longs ∧ (teardown s p how).mem = s.mem := by
  obtain ⟨u, hparts, hlongs, hmem, ht⟩ := teardown_of_unloaded hj h how
  rw [ht, fmMessage_frame, note_frame]
  refine ⟨?_, hlongs, hmem⟩
  simp only [hparts, updPart, torn, hj, Option.map_some]

end

/-- A teardown of a stamp that no partition holds: two records and the answer (R482). -/
def tornNowhere (s : State) (t : Stamp) : State :=
  fmMessage (note (note s 0x60 (unitFabric 29) t 1 0 0) 0x61 (unitFabric 29) t 0 0 0) 0x203 (reportArgs t 0 0 0 0)

theorem tornNowhere_tells (s : State) (t : Stamp) : tells s (tornNowhere s t) :=
  ((note_reports _ _ _ _ _ _ _).trans (note_reports _ _ _ _ _ _ _)).tells.trans (fmMessage_tells _ _ _)

theorem tornNowhere_head {s : State} (h : s.pins.pwrGood = true) (t : Stamp) : (tornNowhere s t).blotter.head = s.blotter.head + 2 := by
  have hfirst := (note_blotter s 0x60 (unitFabric 29) t 1 0 0 h).1
  have hpower := (congrArg Pins.pwrGood (note_pins s 0x60 (unitFabric 29) t 1 0 0)).trans h
  rw [tornNowhere, fmMessage_blotter, (note_blotter _ _ _ _ _ _ _ hpower).1, hfirst]

/-! ### A port trained again -/

theorem spread_fresh (s : State) (p : FPort) : (spread s p).fresh = s.fresh := by
  unfold spread
  split
  · rfl
  · refine (foldl_rel (R := fun a b => b.fresh = a.fresh) (fun _ => rfl) (fun h k => k.trans h) (fun w r => ?_) _ _ : _ = _)
    split <;> rfl

theorem cutError_fresh (s : State) (p : FPort) : (cutError s p).fresh = s.fresh := by
  rw [cutError, (containedError_tells (bump s 0x23 p.val 1) 0x140 (unitFabric p.val) 0 p.val : containedError _ _ _ _ _ = _)]
  rfl

theorem cutPort_fresh (s : State) (p : FPort) : (cutPort s p).fresh = s.fresh := by
  have hrx : (cutRx s p).fresh = s.fresh := by
    unfold cutRx
    split
    · rfl
    · rw [cutError_fresh]
      split <;> rfl
  rw [cutPort]
  exact hrx

theorem portDown_fresh (s : State) (p : FPort) (st : FpState) : (portDown s p st).fresh = s.fresh := by
  rw [portDown, spread_fresh]
  exact cutPort_fresh s p

/-- What a port going DOWN leaves: the fabric ports change, and reports go out. -/
theorem portDown_tells (s : State) (p : FPort) : tells { s with fabric := (portDown s p .down).fabric } (portDown s p .down) := by
  have h := (portDown_at s p .down (.inl rfl)).2.1
  rw [portDown_fresh] at h
  exact h

/-- Training goes on what a link does not change. -/
theorem mayTrain_congr {s t : State} {p : FPort} (h : tells { s with fabric := t.fabric } t) (hc : t.fabric[p].cageOn = s.fabric[p].cageOn) :
    mayTrain t p = mayTrain s p := by
  unfold mayTrain
  rw [hc, h]
  rfl

theorem domainOn_of_mayTrain {s : State} {p : FPort} (h : mayTrain s p = true) : domainOn s (fportDomain p.val) = true := by
  unfold mayTrain at h
  simp only [Bool.and_eq_true] at h
  exact h.1.1.2

theorem startTraining_of_down {s : State} {p : FPort} (h : mayTrain s p = true) (hd : s.fabric[p].state = .down) : startTraining s p =
    updFabric s p (fun x => { FabricPort.shut x with state := .detect, goodOwn := 0xFF, attempts := x.attempts, outQ := x.outQ }) := by
  rw [startTraining, h, hd]
  rfl

/-- A port taken down for its training, and the link event of a port that was up. -/
def downAgain (s : State) (p : FPort) : State :=
  if s.fabric[p].state = .down ∨ s.fabric[p].state = .failed then portDown s p .down else linkEvent (portDown s p .down) p 0

theorem downAgain_reports (s : State) (p : FPort) : reports (portDown s p .down) (downAgain s p) := by
  unfold downAgain
  split
  · exact reports.refl _
  · exact linkEvent_reports _ _ _

theorem downAgain_fabric (s : State) (p : FPort) : (downAgain s p).fabric = (portDown s p .down).fabric := (downAgain_reports s p).tells.fabric_eq

theorem downAgain_tells (s : State) (p : FPort) : tells { s with fabric := (downAgain s p).fabric } (downAgain s p) := by
  rw [downAgain_fabric]
  exact (portDown_tells s p).trans (downAgain_reports s p).tells

/-- The attempts of a port forgotten. -/
def unattempted (x : FabricPort) : FabricPort := { x with attempts := 0, retryWait := false }

/-- RETRAIN_PORT of a port that may train (R310, R351). -/
def retrained (s : State) (p : FPort) : State :=
  updFabric (updFabric (downAgain s p) p unattempted) p
    (fun x => { FabricPort.shut x with state := .detect, goodOwn := 0xFF, attempts := x.attempts, outQ := x.outQ })

theorem startTraining_downAgain {s : State} {p : FPort} (h : mayTrain s p = true) :
    (if domainOn (updFabric (downAgain s p) p unattempted) (fportDomain p.val) then startTraining (updFabric (downAgain s p) p unattempted) p
      else demand (updFabric (downAgain s p) p unattempted) (fportDomain p.val) 10) = retrained s p := by
  have hdown := (portDown_at s p .down (.inl rfl)).1
  have hstate : (updFabric (downAgain s p) p unattempted).fabric[p].state = .down := by
    rw [updFabric_same, downAgain_fabric, hdown]
    rfl
  have hmay : mayTrain (updFabric (downAgain s p) p unattempted) p = true := by
    refine (mayTrain_congr (s := s) ?_ ?_).trans h
    · have htells := downAgain_tells s p
      unfold tells at htells ⊢
      rw [htells]
      rfl
    · rw [updFabric_same, downAgain_fabric, hdown]
      rfl
  exact (if_pos (domainOn_of_mayTrain hmay)).trans (startTraining_of_down hmay hstate)

theorem exec_retrainPort_of_good {s : State} {i : Nat} {k : Packet} (ht : takeInbox s i 3 4 = some (k, taken s i)) (hc : u16 k.payload 0 = 0x104)
    {x : Nat} {a : Bytes} (hm : messageOf k (fun _ => some 4) = some (x, a)) {p : FPort} (hp : u8 a 0 = p.val) (hmay : mayTrain s p = true) :
    exec (.retrainPort i) s = .next (retrained (taken s i) p) := by
  have hport : fportN (u8 a 0) = p := Fin.ext ((congrArg (· % 16) hp).trans (Nat.mod_eq_of_lt p.isLt))
  have hin : ¬16 ≤ u8 a 0 := Nat.not_le.mpr (hp ▸ p.isLt)
  subst hport
  refine congrArg Host.Outcome.next ((managerMessage_of_good ht hc hm).trans ((if_neg hin).trans ?_))
  exact startTraining_downAgain (s := taken s i) hmay

theorem retrained_at (s : State) (p : FPort) : (retrained s p).fabric[p].state = .detect ∧ (retrained s p).fabric[p].attempts = 0 := by
  unfold retrained
  rw [updFabric_same, updFabric_same]
  exact ⟨rfl, rfl⟩

theorem retrained_tells (s : State) (p : FPort) : tells { s with fabric := (retrained s p).fabric } (retrained s p) := by
  have h := downAgain_tells s p
  unfold retrained tells at *
  rw [h]
  rfl

/-! ### The statement -/

/-- Settles O43: each message is taken and judged by its form, then done as its own rule has it. -/
theorem managerMessagesAct : Obligations.ManagerMessagesAct := by
  unfold Obligations.ManagerMessagesAct
  intro s i k x a ht
  refine ⟨fun hm => ⟨fun hc => ?_, fun hc => ?_, fun hc => ?_, fun hc => ?_⟩, fun hm => ⟨fun hc ha => ?_, fun hc ha => ?_, fun hc => ?_, ?_, ?_⟩⟩
  case refine_1 | refine_2 | refine_3 | refine_4 => exact congrArg Host.Outcome.next (managerMessage_of_broken ht hc hm)
  case refine_5 =>
    have hx : exec (.holdPair i) s = .next (updRouter (taken s i) (fun r => holding r (u16 a 0))) :=
      congrArg Host.Outcome.next ((managerMessage_of_good ht hc hm).trans (if_pos (coordBytesOk_of_lt ha)))
    exact ⟨_, hx, rfl, List.mem_cons_self, rfl, fun n hn => mem_held_holding hn⟩
  case refine_6 => exact congrArg Host.Outcome.next ((managerMessage_of_good ht hc hm).trans (if_pos (coordBytesOk_of_lt ha)))
  case refine_7 =>
    have hheld : ∀ p, partOfStamp (taken s i) (BitVec.ofNat 32 (u32 a 0)) = some p → exec (.teardown i) s = .next (teardown (taken s i) p 0) := by
      intro p hp
      refine congrArg Host.Outcome.next ((managerMessage_of_good ht hc hm).trans ?_)
      dsimp only
      rw [hp]
    refine ⟨hheld, fun p j hp hj hf hl htr hfi => ?_, fun hp => ?_⟩
    · exact ⟨_, hheld p hp, teardown_of_unloaded_frame (s := taken s i) hj ⟨hf, hl, htr, hfi⟩ 0⟩
    · have hnone : partOfStamp (taken s i) (BitVec.ofNat 32 (u32 a 0)) = none := hp
      have hx : exec (.teardown i) s = .next (tornNowhere (taken s i) (BitVec.ofNat 32 (u32 a 0))) := by
        refine congrArg Host.Outcome.next ((managerMessage_of_good ht hc hm).trans ?_)
        dsimp only
        rw [hnone]
        rfl
      exact ⟨_, hx, tornNowhere_tells _ _, fun hpower => tornNowhere_head (s := taken s i) hpower _⟩
  case refine_8 =>
    intro hc p hp hmay
    obtain ⟨hstate, hattempts⟩ := retrained_at (taken s i) p
    exact ⟨_, exec_retrainPort_of_good ht hc hm hp hmay, hstate, hattempts, retrained_tells _ _⟩
  case refine_9 => exact fun hc ha => congrArg Host.Outcome.next ((managerMessage_of_good ht hc hm).trans (if_pos ha))

end Sys2Proof.Machine
end

section
/-! SUPPORT. Training of a fabric port (R310, R312 to R314). -/

namespace Sys2Proof.Machine

variable {s : State} {p : FPort}

/-- What is said and done about a port leaves the port that the state before it had. -/
theorem relinks.told {t u : State} (h : relinks s t p) (k : tells t u) : relinks s u p := h.trans (k.relinks p)

/-! ### A training frame -/

/-- A frame that counts reaches a port that is not DOWN. -/
theorem exec_trainingFrame_of_training {l : Lane} {f : BitVec 256} (hok : frameOk f.toNat = true) (hm : mayTrain s p = true)
    (hd : s.fabric[p].state ≠ .down) : exec (.trainingFrame p l f) s = .next (trainWith s p l f.toNat) := by
  have hx : exec (.trainingFrame p l f) s = execTrainingFrame p l f s := rfl
  have hstart : startTraining s p = s := by
    rw [startTraining, if_neg]
    simp only [Bool.and_eq_true, beq_iff_eq, not_and]
    exact fun _ => hd
  rw [hx, execTrainingFrame, if_neg (by rw [hok, hm]; decide), hstart, ite_self]

/-- A frame marks its lane as detected and leaves the state, the lanes and the alignment. -/
theorem frameSeen_frame (x : FabricPort) (l : Lane) (f : Nat) : (frameSeen x l f).detected = setBit8 x.detected l ∧
    (frameSeen x l f).state = x.state ∧ (frameSeen x l f).lanes = x.lanes := by
  unfold frameSeen
  dsimp only
  split <;> exact ⟨rfl, rfl, rfl⟩

/-- DETECT with fewer than two lanes so far. -/
theorem trainWith_of_detecting {l : Lane} {f : Nat} (hx : s.fabric[p].state = .detect) (hw : widthOf (setBit8 s.fabric[p].detected l) < 2) :
    trainWith s p l f = updFabric s p (fun x => frameSeen x l f) := by
  have hseen := (frameSeen_frame s.fabric[p] l f).1
  unfold trainWith
  dsimp only
  rw [hx]
  exact if_neg (by rw [updFabric_same, hseen]; exact Nat.not_le.mpr hw)

/-- DETECT with its second lane. -/
theorem trainWith_of_detected {l : Lane} {f : Nat} (hx : s.fabric[p].state = .detect) (hw : 2 ≤ widthOf (setBit8 s.fabric[p].detected l)) :
    trainWith s p l f = updFabric (updFabric s p (fun x => frameSeen x l f)) p (fun x => { x with state := .equalize }) := by
  have hseen := (frameSeen_frame s.fabric[p] l f).1
  unfold trainWith
  dsimp only
  rw [hx]
  exact if_pos (by rw [updFabric_same, hseen]; exact hw)

/-- ALIGN with its last lane. -/
theorem trainWith_of_aligned {l : Lane} {f : Nat} (hx : s.fabric[p].state = .align) (h4 : 4 ≤ bits f 67 64)
    (hl : s.fabric[p].lanes &&& ~~~(setBit8 s.fabric[p].aligned l) = 0) :
    trainWith s p l f = updFabric (updFabric s p (fun x => { frameSeen x l f with aligned := setBit8 x.aligned l })) p
      (fun x => { x with state := .measure }) := by
  have hlanes := (frameSeen_frame s.fabric[p] l f).2.2
  unfold trainWith
  dsimp only
  rw [hx]
  dsimp only
  rw [if_pos h4]
  exact if_pos (by rw [updFabric_same]; dsimp only; rw [hlanes, hl]; rfl)

/-! ### The measurement -/

theorem countFixed_frame (s : State) (p q : FPort) (l : List (Lane × Nat)) :
    relinks s (countFixed s p l) q ∧ (countFixed s p l).fabric = s.fabric :=
  foldl_rel (R := fun a b => relinks a b q ∧ b.fabric = a.fabric) (fun a => ⟨relinks.refl a q, rfl⟩)
    (fun h k => ⟨h.1.trans k.1, k.2.trans h.2⟩) (fun a _ => ⟨bump_relinks a q _ _ _, rfl⟩) _ _

/-- A port that becomes ACTIVE with a round trip. -/
def active (x : FabricPort) (rtt : Nat) : FabricPort :=
  { x with
    state := .active, rttNs := rtt, attempts := 0, retryWait := false, degraded := false, vcOff := 0, partnerOff := 0,
    partnerAllOff := false, resync := false, rx := none, winFixed := Vector.replicate 8 0, winBad := 0, sent := none }

theorem enterActive_tells (s : State) (p : FPort) (rtt : Nat) : tells (updFabric s p (fun x => active x rtt)) (enterActive s p rtt) :=
  ((linkEvent_reports _ _ _).trans (note_reports _ _ _ _ _ _ _)).tells.trans (fmMessage_tells _ _ _)

theorem enterActive_at (s : State) (p : FPort) (rtt : Nat) :
    (enterActive s p rtt).fabric[p] = active s.fabric[p] rtt ∧ relinks s (enterActive s p rtt) p := by
  have h := enterActive_tells s p rtt
  refine ⟨?_, (updFabric_relinks _ _ _).told h⟩
  rw [h.fabric_eq, updFabric_same]

theorem exec_measureComplete_of_good {rtt : Nat} {fixed : List (Lane × Nat)} (hx : s.fabric[p].state = .measure) (hlive : s.live = true)
    (hr : rtt ≤ rttBudget (portDim p)) (hs : (lanesOf s.fabric[p].lanes).any (fun l => overSer s (fixedOf fixed l) measureSymbols) = false) :
    exec (.measureComplete p rtt fixed) s = .next (enterActive (countFixed s p fixed) p rtt) := by
  have he : exec (.measureComplete p rtt fixed) s = execMeasureComplete p rtt fixed s := rfl
  rw [he, execMeasureComplete, if_neg (by rw [hx, hlive]; decide)]
  dsimp only
  rw [hs, if_neg (by simp; omega)]

/-- One more attempt of a port, which waits before it tries again. -/
def attempted (x : FabricPort) : FabricPort := { x with attempts := x.attempts + 1, retryWait := true }

/-- A port down after one more attempt. -/
def downAfter (s : State) (p : FPort) : State := updFabric (portDown s p .down) p attempted

theorem downAfter_at (s : State) (p : FPort) : (downAfter s p).fabric[p] =
      { FabricPort.shut s.fabric[p] with state := .down, attempts := s.fabric[p].attempts + 1, retryWait := true } ∧
    relinks s (downAfter s p) p := by
  obtain ⟨hport, hrest⟩ := portDown_at s p .down (.inl rfl)
  refine ⟨?_, hrest.trans (updFabric_relinks _ _ _)⟩
  rw [downAfter, updFabric_same, hport]
  rfl

/-- The state that a measurement is judged in: its symbols counted, the cause of a failure drawn (R310). -/
def measured (s : State) (p : FPort) (fixed : List (Lane × Nat)) : State := (drawFree (countFixed s p fixed)).2

theorem measured_frame (fixed : List (Lane × Nat)) : relinks s (measured s p fixed) p ∧ (measured s p fixed).fabric = s.fabric := by
  obtain ⟨hrest, hfabric⟩ := countFixed_frame s p p fixed
  exact ⟨hrest.trans (drawFree_relinks _ _), hfabric⟩

theorem exec_measureComplete_of_slow {rtt : Nat} {fixed : List (Lane × Nat)} (hx : s.fabric[p].state = .measure) (hlive : s.live = true)
    (hr : rttBudget (portDim p) < rtt) (ha : s.fabric[p].attempts < 7) : exec (.measureComplete p rtt fixed) s =
      .next (linkDownReport (downAfter (measured s p fixed) p) p ((drawFree (countFixed s p fixed)).1 % 256)) := by
  have he : exec (.measureComplete p rtt fixed) s = execMeasureComplete p rtt fixed s := rfl
  have hattempts : ¬8 ≤ (downAfter (measured s p fixed) p).fabric[p].attempts := by
    rw [(downAfter_at _ _).1]
    simp only [(measured_frame (s := s) (p := p) fixed).2]
    omega
  rw [he, execMeasureComplete, if_neg (by rw [hx, hlive]; decide)]
  dsimp only
  rw [if_pos (by rw [decide_eq_true hr]; rfl)]
  exact congrArg Host.Outcome.next (if_neg hattempts)

/-! ### An attempt that fails -/

theorem exec_trainingTimeout_of_training (hx : s.fabric[p].state = .detect ∨ s.fabric[p].state = .equalize ∨ s.fabric[p].state = .identify ∨
    s.fabric[p].state = .align ∨ s.fabric[p].state = .measure) : exec (.trainingTimeout p) s = .next (failedAttempt s p) := by
  have he : exec (.trainingTimeout p) s = execTrainingTimeout p s := rfl
  rw [he, execTrainingTimeout]
  rcases hx with h | h | h | h | h <;> rw [h]

theorem failedAttempt_at (ha : s.fabric[p].attempts < 7) : (failedAttempt s p).fabric[p] =
      { FabricPort.shut s.fabric[p] with state := .down, attempts := s.fabric[p].attempts + 1, retryWait := true } ∧
    relinks s (failedAttempt s p) p := by
  obtain ⟨hport, hrest⟩ := portDown_at s p .down (.inl rfl)
  unfold failedAttempt
  dsimp only
  rw [if_neg (by omega)]
  have hevent := (linkEvent_reports (updFabric (portDown s p .down) p
    (fun x => { x with attempts := s.fabric[p].attempts + 1, retryWait := true })) p 0).tells
  refine ⟨?_, (hrest.trans (updFabric_relinks _ _ _)).told hevent⟩
  rw [hevent.fabric_eq, updFabric_same, hport]

/-- With a valid coordinate a port that has failed keeps its domain ON. -/
theorem fportRest_of_coord (h : s.router.coordValid = true) : fportRest s p = s := by
  unfold fportRest
  dsimp only
  rw [if_neg (by rw [h]; simp)]

theorem failedAttempt_of_last (ha : 7 ≤ s.fabric[p].attempts) (hv : s.router.coordValid = true) :
    (failedAttempt s p).fabric[p].state = .failed ∧ (failedAttempt s p).fabric[p].attempts = s.fabric[p].attempts + 1 ∧
      relinks s (failedAttempt s p) p := by
  obtain ⟨hport, hrest⟩ := portDown_at s p .failed (.inr (.inl rfl))
  unfold failedAttempt
  dsimp only
  rw [if_pos (by omega)]
  have hreport := linkDownReport_tells (updFabric (portDown s p .failed) p (fun x => { x with attempts := s.fabric[p].attempts + 1 })) p 1
  have hall := (hrest.trans (updFabric_relinks _ _ _)).told hreport
  rw [fportRest_of_coord (by rw [hall.1]; exact hv), hreport.fabric_eq, updFabric_same, hport]
  exact ⟨rfl, rfl, hall⟩

/-! ### An ACTIVE port -/

theorem exec_serWindow_of_active (hx : s.fabric[p].state = .active) : exec (.serWindow p) s = .next
    (if chargedLanes s s.fabric[p] = 0 then updFabric s p (fun x => { x with winFixed := Vector.replicate 8 0, winBad := 0 })
      else degrade s p (chargedLanes s s.fabric[p])) := by
  have he : exec (.serWindow p) s = execSerWindow p s := rfl
  rw [he, execSerWindow, if_neg (by rw [hx]; decide)]

theorem exec_lossOfLock_of_active {l : Lane} (hx : s.fabric[p].state = .active) (hl : s.fabric[p].lanes.getLsbD l.val = true) :
    exec (.lossOfLock p l) s = .next (degrade s p (1#8 <<< l.val)) := by
  have he : exec (.lossOfLock p l) s = execLossOfLock p l s := rfl
  rw [he, execLossOfLock, if_pos (by rw [hx, hl]; rfl)]

/-- What a port with lanes left keeps of them (R313). -/
theorem degrade_lanes {c : BitVec 8} (h : (chooseLanes (s.fabric[p].goodOwn &&& ~~~c)).isNone = false) :
    (degrade s p c).fabric[p].goodOwn = s.fabric[p].goodOwn &&& ~~~c ∧ (degrade s p c).fabric[p].state = .identify ∧
      (degrade s p c).fabric[p].degraded = true ∧ relinks s (degrade s p c) p := by
  obtain ⟨hport, hrest⟩ := degrade_at s p c h
  rw [hport]
  exact ⟨rfl, rfl, rfl, hrest⟩

theorem exec_lossOfSignal_of_active (hx : s.fabric[p].state = .active) :
    exec (.lossOfSignal p) s = .next (linkDownReport (portDown s p .down) p 0) := by
  have he : exec (.lossOfSignal p) s = execLossOfSignal p s := rfl
  rw [he, execLossOfSignal, hx]

/-! ### The statement -/

/-- Settles O44: each state of a port answers what reaches it in that state, and the rest of the device keeps what a link does not change. -/
theorem portsTrainByTheirState : Obligations.PortsTrainByTheirState := by
  unfold Obligations.PortsTrainByTheirState
  intro s p
  dsimp only
  refine ⟨fun l f hm => ⟨fun hf => ?_, fun hf hx hw => ?_, fun hf hx hw => ?_, fun hf hx h4 hl => ?_⟩,
    fun rtt fixed hx hlive => ⟨fun hr hs => ?_, fun hr ha => ?_⟩, fun hx => ⟨fun ha => ?_, fun ha hv => ?_⟩, fun hx hm => ?_,
    fun hx => ⟨fun hc => ?_, fun c hc => ⟨fun ⟨hcharged, hsome⟩ => ?_, fun l hl hb => ?_⟩, fun l hb hc => ?_, ?_⟩⟩
  · exact congrArg Host.Outcome.next (if_pos (by rw [hf]; rfl))
  · have hseen := frameSeen_frame s.fabric[p] l f.toNat
    refine ⟨_, exec_trainingFrame_of_training hf hm (by rw [hx]; decide), ?_⟩
    rw [trainWith_of_detecting hx hw, updFabric_same]
    exact ⟨hseen.2.1.trans hx, hseen.1, updFabric_relinks _ _ _⟩
  · refine ⟨_, exec_trainingFrame_of_training hf hm (by rw [hx]; decide), ?_⟩
    rw [trainWith_of_detected hx hw, updFabric_same, updFabric_same]
    exact ⟨rfl, (frameSeen_frame s.fabric[p] l f.toNat).1, (updFabric_relinks _ _ _).trans (updFabric_relinks _ _ _)⟩
  · refine ⟨_, exec_trainingFrame_of_training hf hm (by rw [hx]; decide), ?_⟩
    rw [trainWith_of_aligned hx h4 hl, updFabric_same, updFabric_same]
    exact ⟨rfl, (frameSeen_frame s.fabric[p] l f.toNat).2.2, (updFabric_relinks _ _ _).trans (updFabric_relinks _ _ _)⟩
  · obtain ⟨hrest, hfabric⟩ := countFixed_frame s p p fixed
    obtain ⟨hport, hactive⟩ := enterActive_at (countFixed s p fixed) p rtt
    rw [hfabric] at hport
    refine ⟨_, exec_measureComplete_of_good hx hlive hr hs, ?_⟩
    rw [hport]
    exact ⟨rfl, rfl, rfl, rfl, rfl, hrest.trans hactive⟩
  · obtain ⟨hrest, hfabric⟩ := measured_frame (s := s) (p := p) fixed
    obtain ⟨hport, hdown⟩ := downAfter_at (measured s p fixed) p
    have hreport := linkDownReport_tells (downAfter (measured s p fixed) p) p ((drawFree (countFixed s p fixed)).1 % 256)
    refine ⟨_, exec_measureComplete_of_slow hx hlive hr ha, ?_, (hrest.trans hdown).told hreport⟩
    rw [hreport.fabric_eq, hport, hfabric]
  · exact ⟨_, exec_trainingTimeout_of_training hx, failedAttempt_at ha⟩
  · exact ⟨_, exec_trainingTimeout_of_training hx, failedAttempt_of_last ha hv⟩
  · refine ⟨_, congrArg Host.Outcome.next (startTraining_of_down hm hx), ?_⟩
    rw [updFabric_same]
    exact ⟨rfl, rfl, rfl, updFabric_relinks _ _ _⟩
  · exact ⟨_, (exec_serWindow_of_active hx).trans (congrArg Host.Outcome.next (if_pos hc)), updFabric_same _ _ _, updFabric_relinks _ _ _⟩
  · subst hcharged
    exact ⟨_, (exec_serWindow_of_active hx).trans (congrArg Host.Outcome.next (if_neg hsome)), degrade_lanes hc⟩
  · subst hl
    exact ⟨_, exec_lossOfLock_of_active hx hb, degrade_lanes hc⟩
  · exact ⟨_, exec_lossOfLock_of_active hx hb, degrade_down s p _ hc⟩
  · obtain ⟨hport, hrest⟩ := portDown_at s p .down (.inl rfl)
    have hreport := linkDownReport_tells (portDown s p .down) p 0
    refine ⟨_, exec_lossOfSignal_of_active hx, ?_, hrest.told hreport⟩
    rw [hreport.fabric_eq, hport]

end Sys2Proof.Machine
end

section
/-! SUPPORT. The end of a step and the commit of a filler unit (R27, R97, R181, R410, R411). -/

namespace Sys2Proof.Machine

/-! ### A STEP ends -/

section
variable {s : State} {o : LongOp} {c : Cmd} {r : Run} {f : Folio}

/-- A STEP whose run has begun its next step and whose one unit is done. -/
def stepped (r : Run) (o : LongOp) : LongOp := { o with body := .run (nextStep r), doneUnits := 1 }

/-- The status of a step: SKIPS_OCCURRED when it skipped instances (R410). -/
def stepStatus (r : Run) : Nat := if r.skips.isEmpty then 0 else 3

/-- The state at the end of a STEP before its FINAL record: run and folio at the next step, the step's record written (R411). -/
def stepEnded (s : State) (o : LongOp) (r : Run) (f : Folio) : State :=
  updLong (updHost (updFolio (updRun s o.handle nextStep) f.handle Folio.nextStep) s.parts[o.part].port
    (fun m => m.writeBytes r.recBase (stepRecord s o.part f r))) o.handle (fun o => { o with doneUnits := 1 })

theorem exec_stepComplete_of_step (hr : runOf s o.handle = some (o, r)) (hf : folioOf s r.folio = some f) (hl : s.live = true)
    (hp : partStopped s o.part = false) (ho : o.state = .running) (hd : stepDone s f r = true) (hop : o.opcode = 0x23) :
    exec (.stepComplete o.handle) s = .next (endLong (stepEnded s o r f) o.handle .done (stepStatus r) 0 (f.jobStep % 2 ^ 32) 0) := by
  have hx : exec (.stepComplete o.handle) s = execStepComplete o.handle s := rfl
  rw [hx, execStepComplete, hr]
  dsimp only
  rw [hf]
  dsimp only
  rw [if_neg (by rw [hl, hp, ho, hd]; decide), if_pos hop]
  rfl

theorem stepEnded_frame : stepEnded s o r f =
    { s with ports := (stepEnded s o r f).ports, longs := (stepEnded s o r f).longs, folios := (stepEnded s o r f).folios } := rfl

theorem stepEnded_longOf (ho : longOf s o.handle = some o) (hb : o.body = .run r) :
    longOf (stepEnded s o r f) o.handle = some (stepped r o) :=
  updLong_longOf (fun o => { o with doneUnits := 1 }) (fun _ => rfl) (updRun_longOf nextStep ho hb)

theorem stepEnded_folioOf (hf : folioOf s r.folio = some f) : folioOf (stepEnded s o r f) f.handle = some f.nextStep := by
  have hf' : folioOf (updRun s o.handle nextStep) f.handle = some f := (congrArg (folioOf s) (folioOf_handle hf)).trans hf
  exact updFolio_folioOf Folio.nextStep (fun _ => rfl) hf'

/-- The step's record in host memory. -/
def recorded (s : State) (o : LongOp) (r : Run) (f : Folio) : State :=
  updHost s s.parts[o.part].port (fun m => m.writeBytes r.recBase (stepRecord s o.part f r))

theorem stepEnded_ports : (stepEnded s o r f).ports = (recorded s o r f).ports := rfl

theorem stepEnded_registers (p : Port) :
    portPosts (stepEnded s o r f) p = portPosts s p ∧ (stepEnded s o r f).ports[p].msix = s.ports[p].msix := by
  obtain ⟨hposts, hmsix⟩ := updHost_registers s s.parts[o.part].port (fun m => m.writeBytes r.recBase (stepRecord s o.part f r)) p
  have hport := congrArg (fun x : Vector PciePort 2 => x[p].msix) (stepEnded_ports (s := s) (o := o) (r := r) (f := f))
  exact ⟨(portPosts_of_ports stepEnded_ports p).trans hposts, hport.trans hmsix⟩

theorem stepEnded_memOk (hm : s.memOk) : (stepEnded s o r f).memOk :=
  updHost_writeBytes_memOk hm s.parts[o.part].port r.recBase (stepRecord s o.part f r)

theorem stepEnded_read (hm : s.memOk) {i : Nat} (hi : i < (stepRecord s o.part f r).length) :
    (stepEnded s o r f).ports[s.parts[o.part].port].host.read (r.recBase + i) = (stepRecord s o.part f r).getD i 0#8 := by
  have hport := congrArg (fun x : Vector PciePort 2 => x[s.parts[o.part].port].host.read (r.recBase + i))
    (stepEnded_ports (s := s) (o := o) (r := r) (f := f))
  exact hport.trans (updHost_writeBytes_read hm rfl r.recBase _ hi)

end

theorem ends.folioOf_eq {s t : State} (h : ends s t) (x : Handle) : folioOf t x = folioOf s x := by
  unfold folioOf
  rw [h]

/-- What the end of a long operation leaves of a state in which host memory, operations and folios had changed. -/
theorem ends.of_changed {s u t : State} (hu : u = { s with ports := u.ports, longs := u.longs, folios := u.folios }) (h : ends u t) :
    t = { s with
      parts := t.parts, ports := t.ports, cmds := t.cmds, nextUid := t.nextUid, longs := t.longs, seqs := t.seqs, folios := t.folios } := by
  rw [h, hu]

/-! ### A filler unit commits -/

/-- A staged value's tensor becomes undefined. -/
def undefineStaged (f : Folio) (s : State) (e : Nat × Bytes) : State :=
  match f.tensor e.1 with
  | some w => undefineRange s w.base (w.base + w.entry.size)
  | none => s

theorem undefineStaged_undefines (f : Folio) (s : State) (e : Nat × Bytes) : undefines s (undefineStaged f s e) := by
  unfold undefineStaged
  split <;> rfl

theorem foldl_undefineStaged_undefines (f : Folio) (l : List (Nat × Bytes)) (s : State) : undefines s (l.foldl (undefineStaged f) s) :=
  foldl_rel (R := undefines) (fun _ => rfl) (fun h k => h.trans k) (undefineStaged_undefines f) l s

theorem setUnit_folioOf {s : State} {h : Handle} {f : Folio} (hf : folioOf s h = some f) (u : Nat) (st : UnitState) :
    folioOf (setUnit s h u st) h = some { f with units := replaceAt f.units u st } :=
  updFolio_folioOf (fun f => { f with units := replaceAt f.units u st }) (fun _ => rfl) hf

/-- The outputs of a unit undefined and the unit marked as committing (R181). -/
def commits (s : State) (x : FillerRun) (f : Folio) : State :=
  let w := x.staging.foldl (undefineStaged f) s
  setUnit { w with fillers := w.fillers.map (fun y => if y == x then { y with committing := true } else y) } x.folio x.unit .committing

theorem commits_fillers (s : State) (x : FillerRun) (f : Folio) :
    (commits s x f).fillers = s.fillers.map (fun y => if y == x then { y with committing := true } else y) := by
  have hundef := foldl_undefineStaged_undefines f x.staging s
  unfold commits setUnit updFolio
  dsimp only
  rw [hundef]

theorem commits_folioOf {s : State} (x : FillerRun) (f : Folio) {f' : Folio} (hf : folioOf s x.folio = some f') :
    folioOf (commits s x f) x.folio = some { f' with units := replaceAt f'.units x.unit .committing } := by
  have hundef := foldl_undefineStaged_undefines f x.staging s
  refine setUnit_folioOf ?_ _ _
  unfold folioOf at hf ⊢
  dsimp only
  rw [hundef]
  exact hf

theorem commits_frame (s : State) (x : FillerRun) (f : Folio) : commits s x f =
    { s with fillers := (commits s x f).fillers, folios := (commits s x f).folios, mem := (commits s x f).mem, fresh := (commits s x f).fresh } := by
  have hundef := foldl_undefineStaged_undefines f x.staging s
  unfold commits setUnit updFolio
  dsimp only
  rw [hundef]

theorem exec_fillerCommit_of_ready {s : State} {p : Part} {x : FillerRun} {f : Folio} (hl : s.live = true) (hp : partStopped s p = false)
    (hr : readyUnit s p = some (x, f)) : exec (.fillerCommit p) s = .next (commits s x f) := by
  have hx : exec (.fillerCommit p) s = execFillerCommit p s := rfl
  rw [hx, execFillerCommit, if_neg (by rw [hl, hp]; decide), hr]
  rfl

/-- A staged value stored in its tensor. -/
def storeStaged (f : Folio) (m : Memory) (e : Nat × Bytes) : Memory :=
  match f.tensor e.1 with
  | some w => m.store w.base e.2
  | none => m

/-- The staged values of a unit stored, and the unit complete (R181). -/
def committed (s : State) (x : FillerRun) (f : Folio) : State :=
  let w := setUnit (updMem s (fun m => x.staging.foldl (storeStaged f) m)) x.folio x.unit .complete
  { w with fillers := w.fillers.filter (fun y => y != x) }

theorem committed_fillers {s : State} {x : FillerRun} {l : List FillerRun} (h : s.fillers = x :: l) (f : Folio) :
    (committed s x f).fillers = l.filter (fun y => y != x) := by
  unfold committed setUnit updFolio updMem
  dsimp only
  rw [h]
  simp

theorem committed_folioOf {s : State} {x : FillerRun} {f : Folio} (hf : folioOf s x.folio = some f) :
    folioOf (committed s x f) x.folio = some { f with units := replaceAt f.units x.unit .complete } :=
  setUnit_folioOf (s := updMem s (fun m => x.staging.foldl (storeStaged f) m)) hf _ _

theorem committed_frame (s : State) (x : FillerRun) (f : Folio) : committed s x f =
    { s with fillers := (committed s x f).fillers, folios := (committed s x f).folios, mem := (committed s x f).mem } := rfl

theorem publishUnit_of_unpaired {s : State} (h : s.pairings = []) (f : Folio) (x : FillerRun) : publishUnit s f x = s := by
  unfold publishUnit
  induction x.staging with
  | nil => rfl
  | cons e l ih =>
    rw [List.foldl_cons, h]
    exact ih

theorem zeroLent_of_unowned {s : State} {h : Handle} (hr : runOf s h = none) (i : Nat) : zeroLent s h i = s := by
  rw [zeroLent, hr]

theorem exec_fillerCommitDone_of_first {s : State} {p : Part} {x : FillerRun} {f : Folio} {l : List FillerRun} (hl : s.live = true)
    (hx : s.fillers = x :: l) (hc : x.committing = true) (hf : folioOf s x.folio = some f) (hp : f.part = p) (hr : runOf s x.owner = none)
    (hpa : s.pairings = []) : exec (.fillerCommitDone p) s = .next (committed s x f) := by
  have he : exec (.fillerCommitDone p) s = execFillerCommitDone p s := rfl
  rw [he, execFillerCommitDone, hx, List.findSome?_cons, hf]
  dsimp only
  rw [hc, hp, if_pos (by simp)]
  dsimp only
  rw [if_neg (by rw [hl]; decide), publishUnit_of_unpaired (by exact hpa), zeroLent_of_unowned (by exact hr)]
  rfl

/-! ### The statement -/

/-- Settles O48: a STEP's record is in host memory before its FINAL record, and a unit's outputs are undefined while it commits. -/
theorem stepsAndUnitsComplete : Obligations.StepsAndUnitsComplete := by
  unfold Obligations.StepsAndUnitsComplete
  refine ⟨fun s o c r f hm h hb hf hl hp ho hd hop => ?_, fun s p x f hl hp hr => ?_, fun s p x f l hl hx hc hf hp hr hpa => ?_⟩
  · obtain ⟨-, -, hlong, hsilent, hsuspends, hcancels⟩ := id h
    have hposts := fun p : Port => (stepEnded_registers (s := s) (o := o) (r := r) (f := f) p).1
    have hmsix := fun p : Port => (stepEnded_registers (s := s) (o := o) (r := r) (f := f) p).2
    have hkept : (stepped r o).cmd = o.cmd ∧ (stepped r o).silent = false ∧ (stepped r o).suspends = [] ∧ (stepped r o).cancels = [] :=
      ⟨rfl, hsilent, hsuspends, hcancels⟩
    obtain ⟨hdone, hfinal, hends⟩ := endLong_quiet (u := stepEnded s o r f) h rfl rfl hposts (stepEnded_longOf hlong hb) hkept
      .done (stepStatus r) 0 (f.jobStep % 2 ^ 32) 0
    refine ⟨_, exec_stepComplete_of_step (runOf_some hlong hb) hf hl hp ho hd hop, hfinal, fun i hi hpo => ?_,
      (hends.folioOf_eq _).trans (stepEnded_folioOf hf), ⟨_, hdone, rfl, rfl, rfl⟩, hends.of_changed stepEnded_frame⟩
    rw [endLong_quiet_read (u := stepEnded s o r f) h rfl rfl hposts hmsix (stepEnded_memOk hm) (stepEnded_longOf hlong hb) hkept
      _ _ _ _ _ _ _ hpo]
    exact stepEnded_read hm hi
  · exact ⟨_, exec_fillerCommit_of_ready hl hp hr, commits_fillers s x f, rfl, fun f' hf' => commits_folioOf x f hf', commits_frame s x f⟩
  · exact ⟨_, exec_fillerCommitDone_of_first hl hx hc hf hp hr hpa, committed_fillers hx f, committed_folioOf hf, rfl, committed_frame s x f⟩

end Sys2Proof.Machine
end

section
/-! SUPPORT. What the operations of a job write (R52, R143, R173). -/

namespace Sys2Proof.Machine

theorem updSeq_same (s : State) (q : Quad) (f : Sequencer → Sequencer) : (updSeq s q f).seqs[q] = f s.seqs[q] := by
  simp [updSeq]

theorem updSeq_other (s : State) {p q : Quad} (f : Sequencer → Sequencer) (h : p ≠ q) : (updSeq s q f).seqs[p] = s.seqs[p] := by
  have hne : ¬((q : Nat) = (p : Nat)) := fun k => h (Fin.ext k.symm)
  simp [updSeq, Vector.getElem_set_ne _ _ hne]

/-! ### The operation of a job -/

section
variable {s : State} {h : Handle} {i code : Nat} {e : OpEnv}

/-- The operation that a run may issue: no filler unit's, of its place and its folio. -/
theorem runEnv_spec {states : List SeqState} (he : runEnv s h i code states = some e) :
    e.unit = none ∧ e.handle = h ∧ e.idx = i ∧ folioOf s e.folio.handle = some e.folio ∧
      ∃ lo r, runOf s h = some (lo, r) ∧ folioOf s r.folio = some e.folio := by
  unfold runEnv at he
  split at he
  · cases he
  · next lo r hr =>
    split at he
    · cases he
    · next f hf =>
      split at he
      · cases he
      · dsimp only at he
        split at he
        · injection he with he
          subst he
          exact ⟨rfl, rfl, rfl, (congrArg (folioOf s) (folioOf_handle hf)).trans hf, lo, r, hr, hf⟩
        · cases he

theorem opEnv_of_runEnv (he : runEnv s h i code [.compute] = some e) : opEnv s h i code = some e := by
  rw [opEnv, he]

/-- The place that an operation of a run takes in its stroke. -/
theorem opDone_of_run (hu : e.unit = none) : opDone s e = updSeq s e.quad (fun q => { q with opsDone := q.opsDone ++ [e.idx] }) := by
  rw [opDone, hu]

/-- The outputs of an operation of a run, before it takes its place. -/
def outputs (s : State) (e : OpEnv) (out : OpOut) : State :=
  countEvents (updFolio { s with mem := out.mem } e.folio.handle (fun f => { f with scaleExp := setScales f.scaleExp out.scales }))
    e.handle out.events

theorem outputs_folioOf (hf : folioOf s e.folio.handle = some e.folio) (out : OpOut) :
    folioOf (outputs s e out) e.folio.handle = some { e.folio with scaleExp := setScales e.folio.scaleExp out.scales } :=
  updFolio_folioOf (s := { s with mem := out.mem }) (fun f => { f with scaleExp := setScales f.scaleExp out.scales }) (fun _ => rfl) hf

theorem outputs_longOf {o : LongOp} {r : Run} (ho : longOf s e.handle = some o) (hb : o.body = .run r) (out : OpOut) :
    longOf (outputs s e out) e.handle = some { o with body := .run { r with counters := addEvents r.counters out.events } } :=
  updRun_longOf (s := updFolio { s with mem := out.mem } e.folio.handle (fun f => { f with scaleExp := setScales f.scaleExp out.scales }))
    (fun r => { r with counters := addEvents r.counters out.events }) ho hb

theorem applyOut_of_run (hu : e.unit = none) (g : Memory → OpOut) : applyOut s e g =
    updSeq (outputs s e (g s.mem)) e.quad (fun q => { q with opsDone := q.opsDone ++ [e.idx] }) := by
  unfold applyOut
  rw [hu]
  exact opDone_of_run hu

end

/-! ### An operation issues -/

section
variable {s : State} {h : Handle} {i code n : Nat} {e : OpEnv} {g : Folio → OpEntry → Memory → OpOut}

/-- The draws of free values so far do not tell an operation that may issue from one that may not. -/
theorem opRow_fresh (he : runEnv s h i code [.compute] = some e) :
    opRow { s with fresh := n } h i code g = runOp { s with fresh := n } e (g e.folio e.op) := by
  have he' : runEnv { s with fresh := n } h i code [.compute] = some e := he
  rw [opRow, opEnv_of_runEnv he']

/-- An operation whose fence flag is not set stalls its quadrant with cause 8 (R171). -/
theorem opRow_of_needsFence (he : runEnv s h i code [.compute] = some e) (hf : needsFence s e = true) :
    opRow { s with fresh := n } h i code g = stallFence { s with fresh := n } e := by
  rw [opRow_fresh he, runOp]
  exact if_pos hf

/-- Any other operation of a run, of sources without poison, writes its outputs and takes its place. -/
theorem opRow_of_clear (he : runEnv s h i code [.compute] = some e) (hf : needsFence s e = false) (hp : poisonedRead s e = none) :
    opRow { s with fresh := n } h i code g = updSeq (outputs { s with fresh := n } e (g e.folio e.op s.mem)) e.quad
      (fun q => { q with opsDone := q.opsDone ++ [e.idx] }) := by
  have hf' : ¬needsFence { s with fresh := n } e = true := fun k => Bool.noConfusion (hf.symm.trans k)
  have hp' : poisonedRead { s with fresh := n } e = none := hp
  rw [opRow_fresh he, runOp, if_neg hf', hp']
  exact applyOut_of_run (runEnv_spec he).1 _

/-- What the statement says of an operation, for every command that is carried out as a row of the operations. -/
theorem runs_of_opRow {c : Instr} (hx : exec c s = .next (opRow { s with fresh := n } h i code g)) (he : runEnv s h i code [.compute] = some e) :
    (needsFence s e = true → ∃ t, exec c s = .next t ∧ t.seqs[e.quad].state = .stalled ∧ t.seqs[e.quad].fence = some i ∧
      t.seqs[e.quad].cause = 8 ∧ t = { s with seqs := t.seqs, fresh := t.fresh }) ∧
    (needsFence s e = false → poisonedRead s e = none → ∃ t, exec c s = .next t ∧ t.mem = (g e.folio e.op s.mem).mem ∧
      t.seqs[e.quad] = { s.seqs[e.quad] with opsDone := s.seqs[e.quad].opsDone ++ [i] } ∧
      (∀ q : Quad, q ≠ e.quad → t.seqs[q] = s.seqs[q]) ∧
      folioOf t e.folio.handle = some { e.folio with scaleExp := setScales e.folio.scaleExp (g e.folio e.op s.mem).scales } ∧
      (∀ o r, longOf s h = some o → o.body = .run r →
        longOf t h = some { o with body := .run { r with counters := addEvents r.counters (g e.folio e.op s.mem).events } }) ∧
      t = { s with mem := t.mem, seqs := t.seqs, folios := t.folios, longs := t.longs, fresh := t.fresh }) := by
  obtain ⟨-, hhandle, hidx, hfolio, -⟩ := runEnv_spec he
  subst hidx hhandle
  refine ⟨fun hf => ⟨_, hx.trans (congrArg Host.Outcome.next (opRow_of_needsFence he hf)), ?_⟩,
    fun hf hp => ⟨_, hx.trans (congrArg Host.Outcome.next (opRow_of_clear he hf hp)), rfl, updSeq_same _ _ _, fun q hq => updSeq_other _ _ hq,
      outputs_folioOf (s := { s with fresh := n }) hfolio _, fun o r ho hb => outputs_longOf (s := { s with fresh := n }) ho hb _, rfl⟩⟩
  unfold stallFence
  rw [updSeq_same]
  exact ⟨rfl, rfl, rfl, rfl⟩

/-- PERMUTE and GATHER_PARAMS only take their place. -/
theorem opDone_takes (he : runEnv s h i code [.compute] = some e) :
    (opDone s e).seqs[e.quad] = { s.seqs[e.quad] with opsDone := s.seqs[e.quad].opsDone ++ [i] } ∧
      opDone s e = { s with seqs := (opDone s e).seqs } := by
  obtain ⟨hunit, -, hidx, -, -⟩ := runEnv_spec he
  rw [opDone_of_run hunit, updSeq_same, hidx]
  exact ⟨rfl, rfl⟩

theorem exec_permute_of_run (he : runEnv s h i 0x0505 [.compute] = some e) : exec (.permute h i) s = .next (opDone s e) := by
  have hx : exec (.permute h i) s = execPermute h i s := rfl
  rw [hx, execPermute, opEnv_of_runEnv he]

theorem exec_gatherParams_of_run (he : runEnv s h i 0x0404 [.compute] = some e) : exec (.gatherParams h i) s = .next (opDone s e) := by
  have hx : exec (.gatherParams h i) s = execGatherParams h i s := rfl
  rw [hx, execGatherParams, opEnv_of_runEnv he]

end

/-! ### TOKEN_WAIT -/

section
variable {s : State} {h : Handle} {i : Nat} {e : OpEnv}

/-- The count of a TOKEN_WAIT taken from the counters of its clusters (R143). -/
def takeTokens (n v : Nat) (cs : List Nat) (l : List ((Nat × Nat) × Nat)) : List ((Nat × Nat) × Nat) :=
  cs.foldl (fun l c => tallySet l (c, n) (tallyGet l (c, n) - v)) l

theorem tallyGet_takeTokens (n v : Nat) : ∀ (cs : List Nat) (l : List ((Nat × Nat) × Nat)), cs.Nodup → ∀ c,
    tallyGet (takeTokens n v cs l) (c, n) = if c ∈ cs then tallyGet l (c, n) - v else tallyGet l (c, n)
  | [], l, _, c => by simp [takeTokens]
  | d :: cs, l, hn, c => by
    obtain ⟨hd, hcs⟩ := List.nodup_cons.mp hn
    have ih := tallyGet_takeTokens n v cs (tallySet l (d, n) (tallyGet l (d, n) - v)) hcs c
    refine ih.trans ?_
    by_cases hc : c = d
    · subst hc
      rw [if_neg hd, if_pos List.mem_cons_self, tallyGet_tallySet]
    · have hkey : (c, n) ≠ (d, n) := fun k => hc (congrArg Prod.fst k)
      rw [tallyGet_tallySet_ne _ _ _ _ hkey]
      simp [hc]

/-- A TOKEN_WAIT whose counters all have its count. -/
def tokensTaken (s : State) (e : OpEnv) (i : Nat) : State :=
  updSeq { s with tokens := takeTokens (e.folio.tables.attr e.op 0xD 0) (fnOf e.folio e.op) (e.folio.gridClusters e.op.grid) s.tokens } e.quad
    (fun q => { q with waits := q.waits ++ [i] })

theorem exec_tokenWait_of_env (he : waitEnv s h i = some e) : exec (.tokenWait h i) s = .next
    (if (e.folio.gridClusters e.op.grid).all (fun c => decide (fnOf e.folio e.op ≤ tallyGet s.tokens (c, e.folio.tables.attr e.op 0xD 0)))
      then tokensTaken s e i else s) := by
  have hx : exec (.tokenWait h i) s = execTokenWait h i s := rfl
  rw [hx, execTokenWait, he]
  rfl

end

/-! ### The statement -/

/-- Settles O49: every operation is a row of `opRow`, with its own arithmetic as the function of the memory that it read. -/
theorem operationsWriteTheirOutputs : Obligations.OperationsWriteTheirOutputs := by
  unfold Obligations.OperationsWriteTheirOutputs
  intro s h i
  refine ⟨fun e he => ?_, fun e he => ?_, fun e he => ?_, fun e he => ?_, fun e he => ?_, fun e he => ?_, fun e he => ?_, fun e he => ?_,
    fun e he => ?_, fun e he => ?_, fun e he => ?_, fun e he => ?_, fun e he => ?_, fun e he => ?_, fun e he => ?_, fun e he => ?_,
    fun e he => ?_, fun e he => ⟨fun hc => ?_, fun hc => ?_⟩⟩
  case refine_1 => exact (runs_of_opRow (c := .matmul h i) (n := s.fresh) rfl he :)
  case refine_2 => exact (runs_of_opRow (c := .expertMatmul h i) (n := s.fresh) rfl he :)
  case refine_3 => exact (runs_of_opRow (c := .amax h i) (n := s.fresh + 1) rfl he :)
  case refine_4 => exact (runs_of_opRow (c := .convert h i) (n := s.fresh) rfl he :)
  case refine_5 => exact (runs_of_opRow (c := .eltwise h i) (n := s.fresh) rfl he :)
  case refine_6 => exact (runs_of_opRow (c := .activation h i) (n := s.fresh) rfl he :)
  case refine_7 => exact (runs_of_opRow (c := .norm h i) (n := s.fresh) rfl he :)
  case refine_8 => exact (runs_of_opRow (c := .softmax h i) (n := s.fresh) rfl he :)
  case refine_9 => exact (runs_of_opRow (c := .loss h i) (n := s.fresh) rfl he :)
  case refine_10 => exact (runs_of_opRow (c := .reduce h i) (n := s.fresh) rfl he :)
  case refine_11 => exact (runs_of_opRow (c := .topk h i) (n := s.fresh) rfl he :)
  case refine_12 => exact (runs_of_opRow (c := .copy h i) (n := s.fresh) rfl he :)
  case refine_13 => exact (runs_of_opRow (c := .transpose h i) (n := s.fresh) rfl he :)
  case refine_14 => exact (runs_of_opRow (c := .rowGather h i) (n := s.fresh) rfl he :)
  case refine_15 => exact (runs_of_opRow (c := .rowScatter h i) (n := s.fresh) rfl he :)
  case refine_16 => exact ⟨_, exec_permute_of_run he, opDone_takes he⟩
  case refine_17 => exact ⟨_, exec_gatherParams_of_run he, opDone_takes he⟩
  case refine_18 => exact (exec_tokenWait_of_env he).trans (congrArg Host.Outcome.next (if_neg (ne_true_of_eq_false hc)))
  case refine_19 =>
    refine ⟨_, (exec_tokenWait_of_env he).trans (congrArg Host.Outcome.next (if_pos hc)), fun hn c => ?_, updSeq_same _ _ _, rfl⟩
    exact tallyGet_takeTokens _ _ _ _ hn c

end Sys2Proof.Machine
end

section
/-! SUPPORT. Operations of the routing engines, the buckets, pairs, roaming and power (R142, R200 to R220, R238 to R255, R378, R423). -/

namespace Sys2Proof.Machine

theorem updDuctus_same (s : State) (q : Quad) (f : Ductus → Ductus) : (updDuctus s q f).ductus[q] = f s.ductus[q] := by
  simp [updDuctus]

/-! ### The place of an operation in its stroke -/

/-- The operation has its place in its quadrant, and the other quadrants are as they were. -/
def placed (s t : State) (e : OpEnv) (i : Nat) : Prop :=
  t.seqs[e.quad] = { s.seqs[e.quad] with opsDone := s.seqs[e.quad].opsDone ++ [i] } ∧ ∀ q : Quad, q ≠ e.quad → t.seqs[q] = s.seqs[q]

section
variable {s u v : State} {h : Handle} {i code : Nat} {states : List SeqState} {e : OpEnv}

theorem placed.of_seqs (h : placed s u e i) (hv : v.seqs = u.seqs) : placed s v e i := by
  unfold placed
  rw [hv]
  exact h

theorem updSeq_placed (hu : u.seqs = s.seqs) (hi : e.idx = i) :
    placed s (updSeq u e.quad (fun q => { q with opsDone := q.opsDone ++ [e.idx] })) e i := by
  refine ⟨?_, fun q hq => ?_⟩
  · rw [updSeq_same]
    simp only [hu, hi]
  · rw [updSeq_other _ _ hq]
    simp only [hu]

theorem opDone_placed (he : runEnv s h i code states = some e) (hu : u.seqs = s.seqs) : placed s (opDone u e) e i := by
  obtain ⟨hunit, -, hidx, -, -⟩ := runEnv_spec he
  rw [opDone_of_run hunit]
  exact updSeq_placed hu hidx

theorem opDone_frame (he : runEnv s h i code states = some e) (u : State) : opDone u e = { u with seqs := (opDone u e).seqs } := by
  rw [opDone_of_run (runEnv_spec he).1]
  rfl

/-- The outputs of an operation written and its place taken. -/
def outDone (s : State) (e : OpEnv) (out : OpOut) : State :=
  updSeq (outputs s e out) e.quad (fun q => { q with opsDone := q.opsDone ++ [e.idx] })

theorem outDone_placed (he : runEnv s h i code states = some e) (out : OpOut) : placed s (outDone s e out) e i :=
  updSeq_placed rfl (runEnv_spec he).2.2.1

theorem outDone_frame (out : OpOut) : outDone s e out =
    { s with mem := out.mem, longs := (outDone s e out).longs, seqs := (outDone s e out).seqs, folios := (outDone s e out).folios } := rfl

theorem outDone_mem (out : OpOut) : (outDone s e out).mem = out.mem := rfl

theorem outDone_folioOf (he : runEnv s h i code states = some e) (out : OpOut) :
    folioOf (outDone s e out) e.folio.handle = some { e.folio with scaleExp := setScales e.folio.scaleExp out.scales } :=
  outputs_folioOf (runEnv_spec he).2.2.2.1 out

/-- What an operation leaves that, once its outputs are written, changes its folio and its run. -/
theorem outDone_then {t : State} {out : OpOut} (he : runEnv s h i code states = some e)
    (ht : t = { outDone s e out with folios := t.folios, longs := t.longs }) :
    t.mem = out.mem ∧ placed s t e i ∧ t = { s with mem := t.mem, longs := t.longs, seqs := t.seqs, folios := t.folios } := by
  have hmem : t.mem = (outDone s e out).mem := by rw [ht]
  refine ⟨hmem.trans (outDone_mem out), (outDone_placed he out).of_seqs (by rw [ht]), ?_⟩
  rw [ht, outDone_frame]

theorem applyOut_eq (he : runEnv s h i code states = some e) (g : Memory → OpOut) : applyOut s e g = outDone s e (g s.mem) :=
  applyOut_of_run (runEnv_spec he).1 g

/-- An operation may be carried out: its run issues it, its fence flag is set and its sources hold no poison. -/
def may (s : State) (h : Handle) (i code : Nat) (states : List SeqState) (e : OpEnv) : Prop :=
  runEnv s h i code states = some e ∧ needsFence s e = false ∧ poisonedRead s e = none

theorem engineOp_of_may (hc : may s h i code [.compute] e) (g : OpEnv → State) : engineOp s h i code g = g e := by
  obtain ⟨he, hf, hp⟩ := hc
  rw [engineOp, he]
  dsimp only
  rw [hf, if_neg (by decide), hp]

theorem vectorOp_of_may (hc : may s h i code [.compute] e) (g : OpEnv → State) : vectorOp s h i code g = g e := by
  obtain ⟨he, hf, hp⟩ := hc
  rw [vectorOp, he]
  dsimp only
  rw [hf, if_neg (by decide), hp]

end

/-! ### ROUTE -/

section
variable {s : State} {h : Handle} {i : Nat} {e : OpEnv} {r : RoutingEntry}

/-- The generation that a batch opens, in LISTING with its ledger (R203). -/
def newBatch (s : State) (e : OpEnv) (r : RoutingEntry) (x : RouteOut) : Generation :=
  { gen := BitVec.ofNat 8 (nextGen s.ductus[e.quad]), state := .listing, folio := e.folio.handle, routing := e.folio.tables.routingOf e.op,
    op := e.idx, order := s.ductus[e.quad].nextOrder, stamp := partStamp s e.folio.part, ledger := x.ledger,
    sendList := sendLists e.folio.tables r x.ledger, backRows := [], gateGradDone := false, combine2Done := false, drains := [] }

/-- Memory with the counts of filled slots that ROUTE writes where it has an output. -/
def filledMem (m : Memory) (e : OpEnv) (x : RouteOut) : Memory :=
  match opOutT e.folio e.op 0 with
  | none => m
  | some y => (x.filled.zipIdx).foldl (fun m v => writeElem m y.base .uint32 v.2 v.1) m

/-- A routing engine that opens a generation. -/
def opens (s : State) (e : OpEnv) (r : RoutingEntry) (x : RouteOut) (d : Ductus) : Ductus :=
  { d with lastGen := BitVec.ofNat 8 (nextGen s.ductus[e.quad]), nextOrder := d.nextOrder + 1, gens := d.gens ++ [newBatch s e r x] }

/-- ROUTE before it takes its place. -/
def routed (s : State) (e : OpEnv) (r : RoutingEntry) (x : RouteOut) : State :=
  countRoute (updDuctus { s with mem := filledMem s.mem e x } e.quad (opens s e r x)) e.handle x

theorem routed_gens (x : RouteOut) : (routed s e r x).ductus[e.quad].gens = s.ductus[e.quad].gens ++ [newBatch s e r x] :=
  congrArg Ductus.gens (updDuctus_same { s with mem := filledMem s.mem e x } e.quad (opens s e r x))

theorem exec_route_of_may {z : TRef} (hc : may s h i 0x0301 [.compute] e) (hr : e.folio.tables.routing[e.folio.tables.routingOf e.op]? = some r)
    (hz : opIn e.folio e.op 0 = some z) : exec (.route h i) s =
    .next (opDone (routed s e r (routeBatch s.mem e.folio e.op r z (opIn e.folio e.op 1))) e) := by
  have hx : exec (.route h i) s = execRoute h i s := rfl
  rw [hx, execRoute, engineOp_of_may hc, hr, hz]
  rfl

end

/-! ### The other operations of the routing engines -/

section
variable {s : State} {h : Handle} {i : Nat} {e : OpEnv} {r : RoutingEntry} {g : Generation}

theorem updGen_gens (u : State) (q : Quad) (gen : Byte) (f : Generation → Generation) :
    (updGen u q gen f).ductus[q].gens = updFirst (fun x => x.gen == gen) f u.ductus[q].gens :=
  congrArg Ductus.gens (updDuctus_same u q _)

theorem updGen_frame (u : State) (q : Quad) (gen : Byte) (f : Generation → Generation) :
    updGen u q gen f = { u with ductus := (updGen u q gen f).ductus } := rfl

/-- The outputs of an operation of a batch, which then moves on. -/
def batchMoved (s : State) (e : OpEnv) (out : OpOut) (gen : Byte) (f : Generation → Generation) : State := updGen (outDone s e out) e.quad gen f

theorem batchMoved_spec {code : Nat} (he : runEnv s h i code [.compute] = some e) (out : OpOut) (gen : Byte) (f : Generation → Generation) :
    (batchMoved s e out gen f).mem = out.mem ∧
    (batchMoved s e out gen f).ductus[e.quad].gens = updFirst (fun x => x.gen == gen) f s.ductus[e.quad].gens ∧
    placed s (batchMoved s e out gen f) e i ∧
    batchMoved s e out gen f = { s with
      ductus := (batchMoved s e out gen f).ductus, mem := (batchMoved s e out gen f).mem, longs := (batchMoved s e out gen f).longs,
      seqs := (batchMoved s e out gen f).seqs, folios := (batchMoved s e out gen f).folios } :=
  ⟨outDone_mem (s := s) (e := e) out, updGen_gens _ _ _ _, (outDone_placed he out).of_seqs rfl, by rw [batchMoved, updGen_frame, outDone_frame]⟩

theorem exec_combine_of_may {a y : TRef} (hc : may s h i 0x0302 [.compute] e) (hb : batchOp s e = some (r, g)) (ha : opIn e.folio e.op 0 = some a)
    (hy : opOutT e.folio e.op 0 = some y) : exec (.combine h i) s = .next (batchMoved s e
      (outWhole s.mem e.folio e.op y (opStage e.folio e.op (.num 1) true none) (combineElem s.mem e.folio e.op r g a)) g.gen
        (afterCombine e.folio.tables (fnOf e.folio e.op))) := by
  have hx : exec (.combine h i) s = execCombine h i s := rfl
  rw [hx, execCombine, engineOp_of_may hc, hb, ha, hy]
  dsimp only
  rw [applyOut_eq hc.1]
  rfl

/-- The rows that ROUTE_BACK converts, kept in the batch (R216). -/
def rowsBack (s : State) (e : OpEnv) (g : Generation) (x : List (Nat × Bytes) × NumEvents) : State :=
  countEvents (updGen s e.quad g.gen (fun y => { y with backRows := x.1 })) e.handle x.2

theorem exec_routeBack_of_may {dy sd : TRef} (hc : may s h i 0x0303 [.compute] e) (hb : batchOp s e = some (r, g))
    (hd : opIn e.folio e.op 0 = some dy) (hs : e.folio.tensor r.slotDout = some sd) :
    exec (.routeBack h i) s = .next (opDone (rowsBack s e g (backRows s.mem e.folio e.op r g dy sd)) e) := by
  have hx : exec (.routeBack h i) s = execRouteBack h i s := rfl
  rw [hx, execRouteBack, engineOp_of_may hc]
  dsimp only
  rw [hb, hd]
  dsimp only
  rw [hs]
  rfl

theorem exec_gateGrad_of_may {z dy a y : TRef} (hc : may s h i 0x0304 [.compute] e) (hb : batchOp s e = some (r, g))
    (hz : opIn e.folio e.op 0 = some z) (hd : opIn e.folio e.op 1 = some dy) (ha : opIn e.folio e.op 2 = some a)
    (hy : opOutT e.folio e.op 0 = some y) : exec (.gateGrad h i) s = .next (batchMoved s e
      (outWhole s.mem e.folio e.op y (opStage e.folio e.op (.num 1) true none)
        (fun n => (gateGrad s.mem e.folio e.op r g z dy a).getD n (.zero false))) g.gen
          (fun x => { x with gateGradDone := true, state := if x.combine2Done then .retiring else x.state })) := by
  have hx : exec (.gateGrad h i) s = execGateGrad h i s := rfl
  rw [hx, execGateGrad, engineOp_of_may hc]
  dsimp only
  rw [hb, hz, hd, ha, hy]
  dsimp only
  rw [applyOut_eq hc.1]
  rfl

end

/-! ### The bucket operations -/

section
variable {s : State} {h : Handle} {i : Nat} {e : OpEnv}

/-- A leaf of a bucket marked as written. -/
def leafWrites (y : Nat) (r : Run) : Run := { r with leafWritten := if r.leafWritten.contains y then r.leafWritten else y :: r.leafWritten }

/-- BUCKET_ADD's outputs and its leaf's mark (R238). -/
def bucketAdded (s : State) (h : Handle) (e : OpEnv) (r : Run) : State :=
  updRun (outDone s e (bucketAddOut s.mem e.folio e.op (!r.leafWritten.contains (e.op.outputs.getD 0 noneIdx)))) h
    (leafWrites (e.op.outputs.getD 0 noneIdx))

theorem bucketAdded_frame (r : Run) : bucketAdded s h e r =
    { outDone s e (bucketAddOut s.mem e.folio e.op (!r.leafWritten.contains (e.op.outputs.getD 0 noneIdx))) with
      folios := (bucketAdded s h e r).folios, longs := (bucketAdded s h e r).longs } := rfl

theorem exec_bucketAdd_of_may {lo : LongOp} {r : Run} (hc : may s h i 0x0401 [.compute] e) (hr : runOf s h = some (lo, r)) :
    exec (.bucketAdd h i) s = .next (bucketAdded s h e r) := by
  have hx : exec (.bucketAdd h i) s = execBucketAdd h i s := rfl
  rw [hx, execBucketAdd, vectorOp_of_may hc]
  dsimp only
  rw [hr, applyOut_eq hc.1]
  rfl

theorem countMarg_frame (u : State) (b : BucketEntry) (what : Nat) (terms : List XVal) :
    countMarg u h b what terms = { u with longs := (countMarg u h b what terms).longs } := by
  unfold countMarg
  split <;> rfl

/-- LOWRANK_FACTOR's outputs, and the counts of its last function (R241). -/
def factored (s : State) (h : Handle) (e : OpEnv) (b : BucketEntry) : State :=
  if fnOf e.folio e.op = 3 then
    countMarg (outDone s e (lowrankOut s.mem e.folio e.op b)) h b 1 (outVals (outDone s e (lowrankOut s.mem e.folio e.op b)) e.folio e.op 0)
  else outDone s e (lowrankOut s.mem e.folio e.op b)

theorem exec_lowrankFactor_of_may {b : BucketEntry} (hc : may s h i 0x0402 [.compute] e) (hb : opBucket e.folio e.op = some b) :
    exec (.lowrankFactor h i) s = .next (factored s h e b) := by
  have hx : exec (.lowrankFactor h i) s = execLowrankFactor h i s := rfl
  rw [hx, execLowrankFactor, vectorOp_of_may hc]
  dsimp only
  rw [hb]
  dsimp only
  rw [applyOut_eq hc.1]
  rfl

theorem factored_frame (b : BucketEntry) :
    factored s h e b = { outDone s e (lowrankOut s.mem e.folio e.op b) with
      folios := (factored s h e b).folios, longs := (factored s h e b).longs } := by
  unfold factored
  split
  · rw [countMarg_frame]
  · rfl

/-- A bucket's step marked as applied. -/
def applies (b : BucketEntry) (f : Folio) : Folio := { f with applied := setApplied f.applied b.tag (f.jobStep + 1) }

/-- UPDATE's outputs, its bucket's step and its counts (R255). -/
def updated (s : State) (h : Handle) (i : Nat) (e : OpEnv) (b : BucketEntry) : State :=
  updRun (countMarg (updFolio (outDone s e (updateOut s.mem e.folio e.op b).1) e.folio.handle (applies b)) h b 2
    (updateOut s.mem e.folio e.op b).2) h (fun r => { r with updates := i :: r.updates })

theorem exec_update_of_may {b : BucketEntry} (hc : may s h i 0x0403 [.compute] e) (hb : opBucket e.folio e.op = some b) :
    exec (.update h i) s = .next (updated s h i e b) := by
  have hx : exec (.update h i) s = execUpdate h i s := rfl
  rw [hx, execUpdate, vectorOp_of_may hc]
  dsimp only
  rw [hb]
  dsimp only
  rw [applyOut_eq hc.1]
  rfl

theorem updated_frame (b : BucketEntry) : updated s h i e b = { outDone s e (updateOut s.mem e.folio e.op b).1 with
    folios := (updated s h i e b).folios, longs := (updated s h i e b).longs } := by
  unfold updated
  rw [countMarg_frame]
  rfl

theorem updated_folios (b : BucketEntry) : (updated s h i e b).folios =
    (updFolio (outDone s e (updateOut s.mem e.folio e.op b).1) e.folio.handle (applies b)).folios := by
  unfold updated
  rw [countMarg_frame]
  rfl

theorem updated_folioOf (he : runEnv s h i 0x0403 [.compute] = some e) (b : BucketEntry) :
    ∃ f, folioOf (updated s h i e b) e.folio.handle = some f ∧ f.applied = setApplied e.folio.applied b.tag (e.folio.jobStep + 1) := by
  have hout := outDone_folioOf he (updateOut s.mem e.folio e.op b).1
  refine ⟨applies b { e.folio with scaleExp := setScales e.folio.scaleExp (updateOut s.mem e.folio e.op b).1.scales }, ?_, rfl⟩
  have hfolio := updFolio_folioOf (applies b) (fun _ => rfl) hout
  unfold folioOf at hfolio ⊢
  rw [updated_folios]
  exact hfolio

end

/-! ### Pairs -/

section
variable {s : State} {h : Handle} {i x : Nat} {e : OpEnv} {w : TRef} {p : Pairing} {y : PairStream}

theorem exec_pairedSend_of_run (he : runEnv s h i 0x0506 [.compute, .closing] = some e) : exec (.pairedSend h i) s = .next (pairedSend s e) := by
  have hx : exec (.pairedSend h i) s = execPairedSend h i s := rfl
  rw [hx, execPairedSend, he]

/-- A tensor published in the stream of a pair (R378). -/
def published (s : State) (e : OpEnv) (x : Nat) (w : TRef) (p : Pairing) (y : PairStream) : State :=
  updExch (updStream s p.a p.b y.id (fun y => publish y (s.mem.readBytes w.base w.entry.size))) e.handle x e.folio.step16
    (fun z => { z with drained := true })

theorem pairedSend_of_full (hx : pairedExch e.folio.tables e.op true = some x) (hw : opIn e.folio e.op 0 = some w)
    (hst : streamOf s e.folio.handle x true = some (p, y)) (hc : y.consumed + 2 ≤ y.published) : pairedSend s e = s := by
  rw [pairedSend, hx, hw]
  dsimp only
  rw [hst]
  exact if_neg (Nat.not_lt.mpr hc)

theorem pairedSend_of_room (hx : pairedExch e.folio.tables e.op true = some x) (hw : opIn e.folio e.op 0 = some w)
    (hst : streamOf s e.folio.handle x true = some (p, y)) (hc : y.published < y.consumed + 2) (hp : tensorPoisoned s.mem w = false) :
    pairedSend s e = opDone (published s e x w p y) e := by
  rw [pairedSend, hx, hw]
  dsimp only
  rw [hst]
  dsimp only
  rw [if_pos hc, if_neg (by rw [hp]; decide)]
  rfl

theorem exec_pairedRecv_of_run (he : runEnv s h i 0x0507 [.compute, .closing] = some e) : exec (.pairedRecv h i) s = .next (pairedRecv s e) := by
  have hx : exec (.pairedRecv h i) s = execPairedRecv h i s := rfl
  rw [hx, execPairedRecv, he]

/-- The oldest publication of a stream taken (R378). -/
def tookOldest (s : State) (e : OpEnv) (x : Nat) (ex : ExchEntry) (w : TRef) (p : Pairing) (y : PairStream) (b : Bytes) : State :=
  updExch (updStream { s with mem := s.mem.store w.base b } p.a p.b y.id (fun y => { y with consumed := y.consumed + 1 })) e.handle x e.folio.step16
    (fun z => { z with count := ex.expected })

theorem pairedRecv_of_published {ex : ExchEntry} {n : Nat} {b : Bytes} (hx : pairedExch e.folio.tables e.op false = some x)
    (hw : opOutT e.folio e.op 0 = some w) (hst : streamOf s e.folio.handle x false = some (p, y)) (hex : e.folio.tables.exchs[x]? = some ex)
    (hb : y.slots.find? (fun z => z.1 == y.consumed % 2) = some (n, b)) (hc : y.consumed < y.published) :
    pairedRecv s e = opDone (tookOldest s e x ex w p y b) e := by
  rw [pairedRecv, hx, hw]
  dsimp only
  rw [hst, hex]
  dsimp only
  rw [hb]
  exact if_pos hc

end

/-! ### ROAM_START and POWER_REST -/

section
variable {s : State} {h : Handle} {i : Nat} {e : OpEnv}

/-- A roaming program at a place of its grid. -/
def roamAt (e : OpEnv) (program n : Nat) : RoamStart :=
  { part := e.folio.part, folio := e.folio.handle, program := program, pos := n, rank := e.folio.rank }

/-- The threads of a grid started (R142). -/
def roamed (s : State) (h : Handle) (e : OpEnv) (program : Nat) (l : List (Nat × Fin 8 × Nat)) : State :=
  l.foldl (fun s x => startThread h s x.1 x.2.1 (roamAt e program x.2.2)) s

theorem startThread_seqs (u : State) (core : Nat) (t : Fin 8) (st : RoamStart) : (startThread h u core t st).seqs = u.seqs := by
  unfold startThread
  split
  · rfl
  · split
    · rfl
    · rw [note_frame]
      rfl

theorem roamed_seqs (program : Nat) (l : List (Nat × Fin 8 × Nat)) : (roamed s h e program l).seqs = s.seqs :=
  foldl_rel (R := fun a b => b.seqs = a.seqs) (fun _ => rfl) (fun h k => k.trans h) (fun _ _ => startThread_seqs _ _ _ _) l s

theorem startThread_of_free {core : Nat} {t : Fin 8} (hf : threadOf s core t = none) (st : RoamStart) :
    startThread h s core t st = { s with threads := s.threads ++ [startedThread core t st] } := by
  rw [startThread, hf]

theorem threadOf_started {core core' : Nat} {t t' : Fin 8} (hf : threadOf s core t = none) (hne : (core', t') ≠ (core, t)) (st : RoamStart) :
    threadOf { s with threads := s.threads ++ [startedThread core' t' st] } core t = none := by
  unfold threadOf at hf ⊢
  rw [List.find?_append, hf]
  simp only [startedThread, List.find?_cons, List.find?_nil, Option.none_or]
  have hno : (core' == core && t' == t) = false := by
    rw [Bool.and_eq_false_iff, beq_eq_false_iff_ne, beq_eq_false_iff_ne]
    by_contra hc
    rw [not_or, not_not, not_not] at hc
    exact hne (Prod.ext hc.1 hc.2)
  rw [hno]

/-- Threads of distinct places that are all free start as they are listed. -/
theorem roamed_of_free (program : Nat) : ∀ (l : List (Nat × Fin 8 × Nat)) (s : State), (l.map (fun x => (x.1, x.2.1))).Nodup →
    (∀ x ∈ l, threadOf s x.1 x.2.1 = none) → roamed s h e program l =
      { s with threads := s.threads ++ l.map (fun x => startedThread x.1 x.2.1 (roamAt e program x.2.2)) }
  | [], s, _, _ => by simp [roamed]
  | x :: l, s, hn, hf => by
    rw [List.map_cons, List.nodup_cons] at hn
    obtain ⟨hx, hl⟩ := hn
    have hstart := startThread_of_free (h := h) (hf x List.mem_cons_self) (roamAt e program x.2.2)
    have hfree : ∀ y ∈ l, threadOf { s with threads := s.threads ++ [startedThread x.1 x.2.1 (roamAt e program x.2.2)] } y.1 y.2.1 = none :=
      fun y hy => threadOf_started (hf y (List.mem_cons_of_mem _ hy)) (fun k => hx (List.mem_map.mpr ⟨y, hy, k.symm⟩)) _
    have ih := roamed_of_free program l _ hl hfree
    calc roamed s h e program (x :: l)
        = roamed (startThread h s x.1 x.2.1 (roamAt e program x.2.2)) h e program l := rfl
      _ = roamed { s with threads := s.threads ++ [startedThread x.1 x.2.1 (roamAt e program x.2.2)] } h e program l := by rw [hstart]
      _ = _ := ih
      _ = _ := by simp

theorem exec_roamStart_of_run {p : RoamProgram} (he : runEnv s h i 0x0601 [.compute] = some e) (hp : e.folio.tables.programOf e.op = some p)
    (hd : (bandsOf (e.folio.gridClusters e.op.grid)).all (domainOn s) = true) : exec (.roamStart h i) s =
      .next (opDone (roamed (endWait s (e.folio.gridClusters e.op.grid)) h e p.inst (gridStarts e.folio e.op.grid p.mask)) e) := by
  have hx : exec (.roamStart h i) s = execRoamStart h i s := rfl
  have hd' : (bandsOf (e.folio.gridClusters e.op.grid)).all (domainOn (endWait s (e.folio.gridClusters e.op.grid))) = true := hd
  rw [hx, execRoamStart, opEnv_of_runEnv he]
  dsimp only
  rw [hp]
  dsimp only
  rw [needing_of_on hd']
  rfl

theorem exec_powerRest_of_run (he : runEnv s h i 0x0701 [.compute] = some e) (hz : fnOf e.folio e.op % 4 = 0) :
    exec (.powerRest h i) s = .next (restGrid (opDone s e) (e.folio.gridClusters e.op.grid) 0) := by
  have hx : exec (.powerRest h i) s = execPowerRest h i s := rfl
  rw [hx, execPowerRest, he]
  dsimp only
  rw [hz]

/-- Clusters at rest at DEPTH 0 only wait (R423). -/
theorem restGrid_zero (u : State) (cs : List Nat) : restGrid u cs 0 =
    { u with waits := cs.map (fun c => { cluster := c, depth := 0 }) ++ u.waits.filter (fun w => !cs.contains w.cluster) } := by
  rw [restGrid]
  exact if_pos rfl

end

/-! ### The statement -/

/-- Settles O50: each operation's outputs, then its place in the stroke. -/
theorem enginesAndPairsAct : Obligations.EnginesAndPairsAct := by
  unfold Obligations.EnginesAndPairsAct
  intro s h i
  refine ⟨?_, ?_, ?_, ?_, ?_, ?_, ?_, ?_, ?_, ?_, ?_⟩
  case refine_1 =>
    intro e r z hc hr hz
    have hframe := opDone_frame hc.1 (routed s e r (routeBatch s.mem e.folio e.op r z (opIn e.folio e.op 1)))
    refine ⟨_, newBatch s e r (routeBatch s.mem e.folio e.op r z (opIn e.folio e.op 1)), exec_route_of_may hc hr hz, ?_, rfl, rfl, rfl, rfl,
      (runEnv_spec hc.1).2.2.1, opDone_placed hc.1 rfl, ?_⟩
    · rw [hframe]
      exact routed_gens _
    · rw [hframe]
      rfl
  case refine_2 =>
    intro e r g a y hc hb ha hy
    exact ⟨_, exec_combine_of_may hc hb ha hy, batchMoved_spec hc.1 _ _ _⟩
  case refine_3 =>
    intro e r g dy sd hc hb hd hs
    have hframe := opDone_frame hc.1 (rowsBack s e g (backRows s.mem e.folio e.op r g dy sd))
    refine ⟨_, exec_routeBack_of_may hc hb hd hs, ?_, opDone_placed hc.1 rfl, ?_⟩
    · rw [hframe]
      exact updGen_gens _ _ _ _
    · rw [hframe]
      rfl
  case refine_4 =>
    intro e r g z dy a y hc hb hz hd ha hy
    exact ⟨_, exec_gateGrad_of_may hc hb hz hd ha hy, batchMoved_spec hc.1 _ _ _⟩
  case refine_5 => exact fun e lo r hc hr => ⟨_, exec_bucketAdd_of_may hc hr, outDone_then hc.1 (bucketAdded_frame r)⟩
  case refine_6 => exact fun e b hc hb => ⟨_, exec_lowrankFactor_of_may hc hb, outDone_then hc.1 (factored_frame b)⟩
  case refine_7 =>
    intro e b hc hb
    obtain ⟨hmem, hplaced, hframe⟩ := outDone_then hc.1 (updated_frame b)
    exact ⟨_, exec_update_of_may hc hb, hmem, hplaced, updated_folioOf hc.1 b, hframe⟩
  case refine_8 =>
    intro e x w p y he hx hw hst
    refine ⟨fun hc => (exec_pairedSend_of_run he).trans (congrArg Host.Outcome.next (pairedSend_of_full hx hw hst hc)), fun hc hp => ?_⟩
    have hframe := opDone_frame he (published s e x w p y)
    refine ⟨_, (exec_pairedSend_of_run he).trans (congrArg Host.Outcome.next (pairedSend_of_room hx hw hst hc hp)), opDone_placed he rfl, ?_, ?_⟩ <;>
      rw [hframe] <;> rfl
  case refine_9 =>
    intro e x w p y ex n b he hx hw hst hex hb hc
    have hframe := opDone_frame he (tookOldest s e x ex w p y b)
    refine ⟨_, (exec_pairedRecv_of_run he).trans (congrArg Host.Outcome.next (pairedRecv_of_published hx hw hst hex hb hc)),
      opDone_placed he rfl, ?_, ?_, ?_⟩ <;> rw [hframe] <;> rfl
  case refine_10 =>
    intro e p he hp hd ht
    refine ⟨_, exec_roamStart_of_run he hp hd, opDone_placed he (roamed_seqs _ _), fun hn => ?_⟩
    have hall := roamed_of_free (h := h) (e := e) p.inst _ (endWait s (e.folio.gridClusters e.op.grid)) hn
      (fun x _ => by unfold threadOf; exact congrArg (List.find? _) ht)
    have hnone : (endWait s (e.folio.gridClusters e.op.grid)).threads = [] := ht
    rw [hnone, List.nil_append] at hall
    rw [opDone_frame he, hall]
    exact ⟨rfl, rfl⟩
  case refine_11 =>
    intro e he hz
    have hframe := opDone_frame he s
    refine ⟨_, (exec_powerRest_of_run he hz).trans (congrArg Host.Outcome.next (restGrid_zero _ _)), (opDone_placed he rfl).of_seqs rfl, ?_, ?_⟩ <;>
      rw [hframe]

end Sys2Proof.Machine
end

section
/-! SUPPORT. Roaming threads, their accesses and their trackers (R140 to R143, R154, R155, R186, R284, R286). -/

namespace Sys2Proof.Machine

theorem find_updFirst_ne {α : Type} {P Q : α → Bool} {g : α → α} (hd : ∀ x, P x = true → Q x = false ∧ Q (g x) = false) :
    ∀ l : List α, (updFirst P g l).find? Q = l.find? Q
  | [] => rfl
  | y :: l => by
    unfold updFirst
    split
    · next hy =>
      obtain ⟨hold, hnew⟩ := hd y hy
      rw [List.find?_cons_of_neg (ne_true_of_eq_false hnew), List.find?_cons_of_neg (ne_true_of_eq_false hold)]
    · rw [List.find?_cons, List.find?_cons, find_updFirst_ne hd l]

/-! ### What a reply writes in a thread -/

/-- Only registers of a thread differ. -/
def onlyRegs (x y : Thread) : Prop := y = { x with regs := y.regs }

theorem foldl_onlyRegs {α : Type} {f : Thread → α → Thread} (hf : ∀ x a, onlyRegs x (f x a)) : ∀ (l : List α) (x : Thread), onlyRegs x (l.foldl f x)
  | [], _ => rfl
  | a :: l, x => by
    have hrest := foldl_onlyRegs hf l (f x a)
    have hfirst := hf x a
    unfold onlyRegs at *
    rw [List.foldl_cons, hrest, hfirst]

theorem setReg_onlyRegs (x : Thread) (n : Nat) (v : Word64) : onlyRegs x (x.setReg n v) := rfl

theorem replied_onlyRegs (x : Thread) (a : Access) (code : Nat) (b : Bytes) : onlyRegs x (replied x a code b) := by
  unfold replied
  split
  · rfl
  · split <;> exact foldl_onlyRegs (fun _ _ => setReg_onlyRegs _ _ _) _ _
  · split
    · exact setReg_onlyRegs _ _ _
    · rfl

/-! ### One thread changed -/

/-- A change of a thread that leaves its core and its number. -/
def samePlace (g : Thread → Thread) : Prop := ∀ x, (g x).core = x.core ∧ (g x).t = x.t

theorem samePlace.of_onlyRegs {g : Thread → Thread} (h : ∀ x, onlyRegs x (g x)) : samePlace g := by
  intro x
  have hx := h x
  unfold onlyRegs at hx
  rw [hx]
  exact ⟨rfl, rfl⟩

/-- The thread of a place is as given, and every other thread is as it was. -/
def becomes (s t : State) (core : Nat) (n : Fin 8) (x : Option Thread) : Prop :=
  threadOf t core n = x ∧ ∀ c m, (c ≠ core ∨ m ≠ n) → threadOf t c m = threadOf s c m

section
variable {s t u : State} {core : Nat} {n : Fin 8} {x : Thread}

theorem threadOf_place (h : threadOf s core n = some x) : x.core = core ∧ x.t = n := by
  have hfound := List.find?_some h
  simpa using hfound

theorem threadOf_of_threads (h : t.threads = s.threads) (c : Nat) (m : Fin 8) : threadOf t c m = threadOf s c m := by
  rw [threadOf, threadOf, h]

theorem becomes.of_threads {y : Option Thread} (h : becomes s u core n y) (ht : t.threads = u.threads) : becomes s t core n y :=
  ⟨(threadOf_of_threads ht _ _).trans h.1, fun c m hne => (threadOf_of_threads ht c m).trans (h.2 c m hne)⟩

theorem not_place {c : Nat} {m : Fin 8} (hne : c ≠ core ∨ m ≠ n) {y : Thread} (hy : (y.core == core && y.t == n) = true) :
    (y.core == c && y.t == m) = false := by
  simp only [Bool.and_eq_true, beq_iff_eq] at hy
  obtain ⟨rfl, rfl⟩ := hy
  rw [Bool.and_eq_false_iff, beq_eq_false_iff_ne, beq_eq_false_iff_ne]
  exact hne.imp Ne.symm Ne.symm

theorem updThread_becomes {g : Thread → Thread} (hg : samePlace g) (h : becomes s u core n (some x)) :
    becomes s (updThread u core n g) core n (some (g x)) := by
  refine ⟨updFirst_find (fun y hy => ?_) h.1, fun c m hne => ?_⟩
  · rw [(hg y).1, (hg y).2]
    exact hy
  · refine Eq.trans (find_updFirst_ne (fun y hy => ?_) _) (h.2 c m hne)
    rw [(hg y).1, (hg y).2]
    exact ⟨not_place hne hy, not_place hne hy⟩

/-- The thread issues its record and goes on at another. -/
theorem issued_becomes (h : threadOf s core n = some x) (k : Nat) : becomes s (issued s x k) core n (some { x with next := k }) := by
  obtain ⟨hcore, ht⟩ := threadOf_place h
  subst hcore ht
  have hstart : becomes s { s with lastIssued := (x.core, x.t.val) :: s.lastIssued.filter (fun e => e.1 != x.core) } x.core x.t (some x) :=
    ⟨h, fun _ _ _ => rfl⟩
  exact updThread_becomes (g := fun y => { y with next := k }) (fun _ => ⟨rfl, rfl⟩) hstart

theorem issued_frame (k : Nat) : issued s x k = { s with threads := (issued s x k).threads, lastIssued := (issued s x k).lastIssued } := rfl

/-- The threads without one. -/
def threadsBut (l : List Thread) (core : Nat) (n : Fin 8) : List Thread := l.filter (fun y => !(y.core == core && y.t == n))

theorem threadsBut_becomes {y : Option Thread} (h : becomes s u core n y) :
    becomes s { u with threads := threadsBut u.threads core n } core n none := by
  refine ⟨?_, fun c m hne => ?_⟩
  · refine List.find?_eq_none.mpr (fun y hy => ?_)
    have hkept := (List.mem_filter.mp hy).2
    intro hplace
    rw [hplace] at hkept
    exact absurd hkept (by decide)
  · refine Eq.trans (find_filter_ne (fun y hy => ?_) u.threads) (h.2 c m hne)
    have hne' : core ≠ c ∨ n ≠ m := hne.imp Ne.symm Ne.symm
    rw [not_place hne' hy]
    rfl

theorem startedThread_becomes (h : becomes s u core n none) (st : RoamStart) :
    becomes s { u with threads := u.threads ++ [startedThread core n st] } core n (some (startedThread core n st)) := by
  obtain ⟨hnone, hothers⟩ := h
  refine ⟨?_, fun c m hne => ?_⟩
  · unfold threadOf at hnone ⊢
    rw [List.find?_append, hnone, List.find?_cons_of_pos (by simp [startedThread])]
    rfl
  · have hother := hothers c m hne
    have hno : ((startedThread core n st).core == c && (startedThread core n st).t == m) = false := not_place hne (by simp [startedThread])
    unfold threadOf at hother ⊢
    rw [List.find?_append, hother, List.find?_cons_of_neg (p := fun y : Thread => y.core == c && y.t == m) (ne_true_of_eq_false hno), List.find?_nil,
      Option.or_none]

end

/-! ### A record that issues -/

section
variable {s : State} {core : Nat} {n : Fin 8} {op : Nat} {e : IssueEnv}

theorem threadProgram_folio {x : Thread} {st : RoamStart} {f : Folio} {p : RoamProgram} (h : threadProgram s x = some (st, f, p)) :
    folioOf s st.folio = some f := by
  unfold threadProgram at h
  split at h
  · cases h
  · split at h
    · cases h
    · next hf =>
      obtain ⟨p', -, hsome⟩ := Option.map_eq_some_iff.mp h
      injection hsome with hst hrest
      injection hrest with hfolio
      subst hst hfolio
      exact hf

/-- The thread that issues stands at its place, and its folio is loaded. -/
theorem issueEnv_spec (h : issueEnv s core n op = some e) : threadOf s core n = some e.thread ∧ folioOf s e.start.folio = some e.folio := by
  unfold issueEnv at h
  split at h
  · cases h
  · split at h
    · cases h
    · next x hx =>
      split at h
      · cases h
      · next st f p hp =>
        split at h
        · cases h
        · split at h
          · injection h with h
            subst h
            exact ⟨hx, threadProgram_folio hp⟩
          · cases h

/-- The state after the record of a thread has issued. -/
def gone (s : State) (e : IssueEnv) : State := issued s e.thread (e.thread.next + 1)

/-- The thread after its record has issued. -/
def passed (e : IssueEnv) : Thread := { e.thread with next := e.thread.next + 1 }

theorem gone_becomes (h : issueEnv s core n op = some e) : becomes s (gone s e) core n (some (passed e)) :=
  issued_becomes (issueEnv_spec h).1 _

theorem issueEnv_place (h : issueEnv s core n op = some e) : e.thread.core = core ∧ e.thread.t = n := threadOf_place (issueEnv_spec h).1

/-- The thread that issues, changed once more. -/
theorem updThread_gone_becomes (h : issueEnv s core n op = some e) {g : Thread → Thread} (hg : samePlace g) :
    becomes s (updThread (gone s e) e.thread.core e.thread.t g) core n (some (g (passed e))) := by
  obtain ⟨hcore, ht⟩ := issueEnv_place h
  rw [hcore, ht]
  exact updThread_becomes hg (gone_becomes h)

theorem updThread_gone_frame (c : Nat) (m : Fin 8) (g : Thread → Thread) : updThread (gone s e) c m g =
    { s with threads := (updThread (gone s e) c m g).threads, lastIssued := (updThread (gone s e) c m g).lastIssued } := rfl

theorem writeBack_becomes (h : issueEnv s core n op = some e) (v : Word64) :
    becomes s (writeBack s e v) core n (some ((passed e).setReg (e.record.a % 32) v)) :=
  updThread_gone_becomes h (samePlace.of_onlyRegs (fun y => setReg_onlyRegs y (e.record.a % 32) v))

theorem writeBack_frame (v : Word64) :
    writeBack s e v = { s with threads := (writeBack s e v).threads, lastIssued := (writeBack s e v).lastIssued } := rfl

theorem exec_alu_of_issue (h : issueEnv s core n 4 = some e) : exec (.alu core n) s =
    .next (writeBack s e (aluFn (e.record.variant % 64) (e.thread.reg (e.record.b % 32)) (aluOperand e.thread e.record))) := by
  have hx : exec (.alu core n) s = execAlu core n s := rfl
  rw [hx, execAlu, h]

theorem exec_hash_of_issue (h : issueEnv s core n 6 = some e) : exec (.hash core n) s =
    .next (writeBack s e (mix (e.thread.reg (e.record.b % 32) ^^^ BitVec.ofNat 64 e.record.c))) := by
  have hx : exec (.hash core n) s = execHash core n s := rfl
  rw [hx, execHash, h]

/-- The record that a BRANCH goes on at. -/
def branchTo (e : IssueEnv) : Nat :=
  let taken := match e.record.variant with | 0 => true | 1 => e.thread.reg (e.record.b % 32) == 0 | _ => e.thread.reg (e.record.b % 32) != 0
  if taken then e.record.a else e.thread.next + 1

theorem exec_branch_of_issue (h : issueEnv s core n 5 = some e) : exec (.branch core n) s = .next (issued s e.thread (branchTo e)) := by
  have hx : exec (.branch core n) s = execBranch core n s := rfl
  rw [hx, execBranch, h]
  rfl

/-! ### TOKEN_SIGNAL and END -/

/-- A cluster's counter raised by a thread that goes on. -/
def signalled (s : State) (e : IssueEnv) (k : Nat × Nat) : State :=
  { gone s e with tokens := tallySet s.tokens k (tallyGet s.tokens k + 1) }

theorem signalled_tokens (k : Nat × Nat) : (signalled s e k).tokens = tallySet s.tokens k (tallyGet s.tokens k + 1) := rfl

theorem exec_tokenSignal_of_room (h : issueEnv s core n 7 = some e) (hk : tallyGet s.tokens (core / 16, e.record.a) < 2 ^ 32 - 1) :
    exec (.tokenSignal core n) s = .next (signalled s e (core / 16, e.record.a)) := by
  have hx : exec (.tokenSignal core n) s = execTokenSignal core n s := rfl
  have hroom : ¬tallyGet s.tokens (core / 16, e.record.a) = 2 ^ 32 - 1 := Nat.ne_of_lt hk
  rw [hx, execTokenSignal, h]
  exact congrArg Host.Outcome.next (if_neg hroom)

theorem reoffer_rests (s : State) (cs : List Nat) : rests s (reoffer s cs) := by
  unfold reoffer
  refine foldl_rests (fun s b => ?_) _ _
  split
  · exact attemptBand_rests _ _
  · exact rests.refl _

theorem rests.threads_eq {s t : State} (h : rests s t) : t.threads = s.threads := by rw [h]

theorem exec_endProgram_of_issue (h : issueEnv s core n 8 = some e) : exec (.endProgram core n) s = .next (threadEnds (gone s e) e.thread) := by
  have hx : exec (.endProgram core n) s = execEndProgram core n s := rfl
  rw [hx, execEndProgram, h]
  rfl

/-- The thread that issued, gone. -/
def threadGone (s : State) (e : IssueEnv) (core : Nat) (n : Fin 8) : State :=
  { gone s e with threads := threadsBut (gone s e).threads core n }

theorem threadGone_becomes (h : issueEnv s core n op = some e) : becomes s (threadGone s e core n) core n none :=
  threadsBut_becomes (gone_becomes h)

theorem threadEnds_of_idle (h : issueEnv s core n op = some e) (hd : e.thread.deferred = none) :
    threadEnds (gone s e) e.thread = reoffer (threadGone s e core n) [core / 16] := by
  obtain ⟨hcore, ht⟩ := issueEnv_place h
  rw [threadEnds, hd, hcore, ht]
  rfl

theorem threadEnds_of_deferred (h : issueEnv s core n op = some e) {st : RoamStart} (hd : e.thread.deferred = some st) :
    threadEnds (gone s e) e.thread =
      { threadGone s e core n with threads := (threadGone s e core n).threads ++ [startedThread core n st] } := by
  obtain ⟨hcore, ht⟩ := issueEnv_place h
  rw [threadEnds, hd, hcore, ht]
  rfl

end

/-! ### Accesses of a record -/

section
variable {s : State} {core : Nat} {n : Fin 8} {op : Nat} {e : IssueEnv}

/-- The kind of access of a record's OP. -/
def kindOf (op : Nat) : ReqKind :=
  match op with
  | 1 => .load
  | 2 => .store
  | _ => .atomic

/-- The third operand of an atomic record. -/
def thirdOperand (e : IssueEnv) : Nat := (e.thread.reg (bits e.record.c 20 16)).toNat

/-- The data that a record's access carries. -/
def recordData (e : IssueEnv) (op : Nat) : Bytes :=
  match kindOf op with
  | .load => []
  | .store => e.thread.bytes (e.record.a % 32) (2 ^ (e.record.variant % 8))
  | .atomic => le 8 (e.thread.reg (e.record.a % 32)).toNat ++ (if bits e.record.variant 11 8 = 8 then le 8 (thirdOperand e) else [])

/-- The target that a record names. -/
def recordWant (core : Nat) (e : IssueEnv) (op : Nat) : Want × Word64 := want core e (2 ^ (e.record.variant % 8)) (kindOf op == .atomic)

/-- The access of a record to a target (R285). -/
def recordAccess (s : State) (core : Nat) (e : IssueEnv) (op rank form place tensor : Nat) (target : Coord) : Access :=
  { kind := kindOf op, size := 2 ^ (e.record.variant % 8), signed := bit e.record.variant 4, reg := e.record.a % 32,
    returns := kindOf op == .atomic && atomicReturns (bits e.record.variant 11 8), rank := rank, target := target, named := (recordWant core e op).2,
    req := mkPacket 0 op 5 s.router.myCoord target (partStamp s e.start.part) 0
      (bodyM form place tensor (e.record.variant % 8) (bits e.record.variant 11 8)) (recordData e op) }

/-- The coordinate of a rank as a thread reaches it. -/
def rankTarget (s : State) (e : IssueEnv) (rank : Nat) : Coord :=
  if rank = e.folio.rank then s.router.myCoord else BitVec.ofNat 9 (coordMapEntry s.router e.start.part rank)

/-- What a record's access does, by the target that it names. -/
def recordAct (s : State) (core : Nat) (n : Fin 8) (e : IssueEnv) (op : Nat) (w : Want) : State :=
  match w with
  | .own addr => accessOwn s e (recordAccess s core e op e.folio.rank 0 0 0 s.router.myCoord) addr (recordData e op)
      (bits e.record.variant 11 8) (thirdOperand e)
  | .bad => badReply (updThread (gone s e) core n (fun y => replied y (recordAccess s core e op e.folio.rank 0 0 0 s.router.myCoord) 2 []))
      (core / 16) (partStamp s e.start.part) (recordAccess s core e op e.folio.rank 0 0 0 s.router.myCoord) 2
  | .out rank form place tensor => issueAccess s e (recordAccess s core e op rank form place tensor (rankTarget s e rank))

theorem memoryRecord_of_issue (h : issueEnv s core n op = some e) :
    memoryRecord s core n op = recordAct s core n e op (recordWant core e op).1 := by
  unfold memoryRecord
  rw [h]
  rfl

theorem memoryRecord_of_own (h : issueEnv s core n op = some e) {a : Nat} (hw : (recordWant core e op).1 = .own a) :
    memoryRecord s core n op = accessOwn s e (recordAccess s core e op e.folio.rank 0 0 0 s.router.myCoord) a (recordData e op)
      (bits e.record.variant 11 8) (thirdOperand e) := by
  rw [memoryRecord_of_issue h, hw]
  rfl

theorem memoryRecord_of_out (h : issueEnv s core n op = some e) {rank form place tensor : Nat}
    (hw : (recordWant core e op).1 = .out rank form place tensor) : memoryRecord s core n op =
    issueAccess s e (recordAccess s core e op rank form place tensor (rankTarget s e rank)) := by
  rw [memoryRecord_of_issue h, hw]
  rfl

/-- A load in the core's own area fills the thread's registers at once. -/
theorem accessOwn_of_load {a : Access} {addr : Nat} (ha : a.kind = .load) (hp : s.mem.poisoned (addr / 64 * 64) 64 = false)
    (data : Bytes) (o rc : Nat) : accessOwn s e a addr data o rc =
      updThread (gone s e) e.thread.core e.thread.t (fun y => replied y a 0 (s.mem.readBytes addr a.size)) := by
  rw [accessOwn, ha]
  dsimp only
  rw [hp, if_neg (by decide)]
  rfl

/-- A store in the core's own area writes its bytes at once. -/
theorem accessOwn_of_store {a : Access} (ha : a.kind = .store) (addr : Nat) (data : Bytes) (o rc : Nat) :
    accessOwn s e a addr data o rc = updMem (gone s e) (fun m => m.store addr data) := by
  rw [accessOwn, ha]
  exact if_neg (by simp)

/-- An access that may not leave waits for a tracker (R155). -/
theorem issueAccess_of_wait {a : Access} (hc : canLeave s (partStamp s e.start.part) (e.thread.core / 16) a = false) : issueAccess s e a =
    updThread (gone s e) e.thread.core e.thread.t (fun y => { y with state := .trackerWait, wants := some a }) := by
  have hc' : ¬canLeave (gone s e) (partStamp s e.start.part) (e.thread.core / 16) a = true := ne_true_of_eq_false hc
  exact if_neg hc'

theorem issueAccess_of_leave {a : Access} (hc : canLeave s (partStamp s e.start.part) (e.thread.core / 16) a = true) :
    issueAccess s e a = leave (gone s e) e.thread e.start a := by
  have hc' : canLeave (gone s e) (partStamp s e.start.part) (e.thread.core / 16) a = true := hc
  exact if_pos hc'

end

/-! ### An access takes a tracker -/

section
variable {s u : State} {core i : Nat} {n : Fin 8} {x : Thread} {st : RoamStart} {a : Access} {f : Folio}

/-- The REQUEST_ID that an access takes where it carries one (R294). -/
def ticket (u : State) (stamp : Stamp) (a : Access) : Word16 × State := if carriesId u a then takeId u stamp a.target a.kind else (0, u)

theorem ticket_frame (stamp : Stamp) : (ticket u stamp a).2 = { u with windows := (ticket u stamp a).2.windows } := by
  unfold ticket
  split
  · unfold takeId
    dsimp only
    split <;> rfl
  · rfl

theorem ticket_of_local (h : carriesId u a = false) (stamp : Stamp) : ticket u stamp a = (0, u) := if_neg (ne_true_of_eq_false h)

/-- A request with its REQUEST_ID. -/
def requestOf (u : State) (st : RoamStart) (a : Access) : Packet := { a.req with aux := (ticket u (partStamp u st.part) a).1 }

/-- The tracker of an access that leaves. -/
def trackerOf (u : State) (x : Thread) (st : RoamStart) (a : Access) (i : Nat) : Tracker :=
  { cluster := x.core / 16, idx := i, core := x.core, t := x.t, stamp := partStamp u st.part, access := { a with req := requestOf u st a } }

/-- A thread that parks (R140). -/
def parked (y : Thread) : Thread := { y with state := .parked, wants := none, parks := y.parks + 1 }

/-- The state before the request of an access goes out: its tracker taken and its thread parked. -/
def left (u : State) (x : Thread) (st : RoamStart) (a : Access) (i : Nat) : State :=
  updThread { (ticket u (partStamp u st.part) a).2 with
    trackers := (ticket u (partStamp u st.part) a).2.trackers ++ [trackerOf u x st a i] } x.core x.t parked

theorem leave_of_free (hi : freeTracker u (x.core / 16) = some i) (hf : folioOf u st.folio = some f) :
    leave u x st a = sendToRank (left u x st a i) st.part f.rank a.rank (requestOf u st a) := by
  rw [leave, hi, hf]
  rfl

theorem left_trackers : (left u x st a i).trackers = u.trackers ++ [trackerOf u x st a i] := by
  unfold left updThread
  rw [ticket_frame]

theorem left_frame : left u x st a i = { u with
    threads := (left u x st a i).threads, trackers := (left u x st a i).trackers, windows := (left u x st a i).windows } := by
  unfold left updThread
  rw [ticket_frame]

theorem left_becomes {y : Thread} (h : becomes s u x.core x.t (some y)) : becomes s (left u x st a i) x.core x.t (some (parked y)) := by
  refine updThread_becomes (g := parked) (fun _ => ⟨rfl, rfl⟩) (h.of_threads ?_)
  rw [ticket_frame]

/-- A request to a rank that the device reaches is sent; nothing else is done. -/
theorem sendToRank_tells {p : Part} {own rank : Nat} {k : Packet} (h : rank = own ∨ bit (coordMapEntry u.router p rank) 15 = true) :
    tells u (sendToRank u p own rank k) := by
  unfold sendToRank
  dsimp only
  split
  · rfl
  · next hne =>
    rw [if_pos (h.resolve_left hne)]
    exact sendPacket_tells _ _

theorem tells.threads_eq {s t : State} (h : tells s t) : t.threads = s.threads := by rw [h]

theorem tells.trackers_eq {s t : State} (h : tells s t) : t.trackers = s.trackers := by rw [h]

/-- What an access that leaves does, once its request is sent. -/
theorem tells.of_left {w t : State}
    (hw : w = { s with threads := w.threads, lastIssued := w.lastIssued, trackers := w.trackers, windows := w.windows }) (h : tells w t) :
    tells { s with threads := t.threads, lastIssued := t.lastIssued, trackers := t.trackers, windows := t.windows } t := by
  unfold tells at *
  rw [h]
  dsimp only
  rw [hw]

end

/-! ### RoamingThreadsIssue -/

section
variable {s : State} {core : Nat} {n : Fin 8} {op : Nat} {e : IssueEnv}

theorem exec_of_memory {c : Instr} (hc : (op = 1 ∧ c = .load core n) ∨ (op = 2 ∧ c = .store core n) ∨ (op = 3 ∧ c = .atomic core n)) :
    exec c s = .next (memoryRecord s core n op) ∧ (kindOf op == .atomic) = (op == 3) := by
  rcases hc with ⟨rfl, rfl⟩ | ⟨rfl, rfl⟩ | ⟨rfl, rfl⟩ <;> exact ⟨rfl, rfl⟩

/-- An access out of the core's own area that must wait. -/
theorem issueAccess_waits (h : issueEnv s core n op = some e) {a : Access} (hc : canLeave s (partStamp s e.start.part) (core / 16) a = false) :
    becomes s (issueAccess s e a) core n (some { e.thread with next := e.thread.next + 1, state := .trackerWait, wants := some a }) ∧
      issueAccess s e a = { s with threads := (issueAccess s e a).threads, lastIssued := (issueAccess s e a).lastIssued } := by
  rw [← (issueEnv_place h).1] at hc
  rw [issueAccess_of_wait hc]
  exact ⟨updThread_gone_becomes h (g := fun y => { y with state := .trackerWait, wants := some a }) (fun _ => ⟨rfl, rfl⟩), rfl⟩

/-- An access out of the core's own area that takes a tracker. -/
theorem issueAccess_leaves (h : issueEnv s core n op = some e) {a : Access} {i : Nat} (hi : freeTracker s (core / 16) = some i)
    (hc : canLeave s (partStamp s e.start.part) (core / 16) a = true)
    (hr : a.rank = e.folio.rank ∨ bit (coordMapEntry s.router e.start.part a.rank) 15 = true) :
    becomes s (issueAccess s e a) core n
      (some { e.thread with next := e.thread.next + 1, state := .parked, wants := none, parks := e.thread.parks + 1 }) ∧
    (∃ x : Tracker, (issueAccess s e a).trackers = s.trackers ++ [x] ∧ x.cluster = core / 16 ∧ x.idx = i ∧ x.core = core ∧ x.t = n ∧
      x.stamp = partStamp s e.start.part ∧ x.access.rank = a.rank) ∧
    tells { s with threads := (issueAccess s e a).threads, lastIssued := (issueAccess s e a).lastIssued,
                   trackers := (issueAccess s e a).trackers, windows := (issueAccess s e a).windows } (issueAccess s e a) := by
  obtain ⟨hcore, ht⟩ := issueEnv_place h
  have hbecomes := gone_becomes h
  subst hcore ht
  have hfree : freeTracker (gone s e) (e.thread.core / 16) = some i := hi
  have hfolio : folioOf (gone s e) e.start.folio = some e.folio := (issueEnv_spec h).2
  have hleft := left_becomes (st := e.start) (a := a) (i := i) hbecomes
  have hframe : left (gone s e) e.thread e.start a i = { s with
      threads := (left (gone s e) e.thread e.start a i).threads, lastIssued := (left (gone s e) e.thread e.start a i).lastIssued,
      trackers := (left (gone s e) e.thread e.start a i).trackers, windows := (left (gone s e) e.thread e.start a i).windows } := by
    rw [left_frame]
    rfl
  have hreach : a.rank = e.folio.rank ∨ bit (coordMapEntry (left (gone s e) e.thread e.start a i).router e.start.part a.rank) 15 = true := by
    rw [hframe]
    exact hr
  have hsent := sendToRank_tells (k := requestOf (gone s e) e.start a) hreach
  rw [issueAccess_of_leave hc, leave_of_free hfree hfolio]
  exact ⟨hleft.of_threads hsent.threads_eq, ⟨_, hsent.trackers_eq.trans left_trackers, rfl, rfl, rfl, rfl, rfl, rfl⟩, tells.of_left hframe hsent⟩

end

/-- Settles O51: every record moves its thread on, then does what its OP says. -/
theorem roamingThreadsIssue : Obligations.RoamingThreadsIssue := by
  unfold Obligations.RoamingThreadsIssue
  intro s core n
  refine ⟨fun e he => ?_, fun e he => ?_, fun e he => ?_, fun e he hk => ?_, fun e he => ⟨fun hd => ?_, fun st hd => ?_⟩, fun e a he hw hp => ?_,
    fun e a he hw => ?_, fun op c hc e rank form place tensor target he hw hr => ?_⟩
  · obtain ⟨hthread, hothers⟩ := writeBack_becomes he (aluFn (e.record.variant % 64) (e.thread.reg (e.record.b % 32)) (aluOperand e.thread e.record))
    exact ⟨_, exec_alu_of_issue he, hthread, hothers, writeBack_frame _⟩
  · obtain ⟨hthread, hothers⟩ := writeBack_becomes he (mix (e.thread.reg (e.record.b % 32) ^^^ BitVec.ofNat 64 e.record.c))
    exact ⟨_, exec_hash_of_issue he, hthread, hothers, writeBack_frame _⟩
  · obtain ⟨hthread, hothers⟩ := issued_becomes (issueEnv_spec he).1 (branchTo e)
    exact ⟨_, exec_branch_of_issue he, hthread, hothers, issued_frame _⟩
  · obtain ⟨hthread, hothers⟩ := gone_becomes he
    refine ⟨_, exec_tokenSignal_of_room he hk, ?_, fun k hne => ?_, hthread, hothers, rfl⟩
    · rw [signalled_tokens, tallyGet_tallySet]
    · rw [signalled_tokens, tallyGet_tallySet_ne _ _ _ _ hne]
  · have hrests := reoffer_rests (threadGone s e core n) [core / 16]
    obtain ⟨hthread, hothers⟩ := (threadGone_becomes he).of_threads hrests.threads_eq
    refine ⟨_, (exec_endProgram_of_issue he).trans (congrArg Host.Outcome.next (threadEnds_of_idle he hd)), hthread, hothers, ?_⟩
    unfold rests at hrests ⊢
    rw [hrests]
    rfl
  · obtain ⟨hthread, hothers⟩ := startedThread_becomes (threadGone_becomes he) st
    exact ⟨_, (exec_endProgram_of_issue he).trans (congrArg Host.Outcome.next (threadEnds_of_deferred he hd)), hthread, hothers, rfl⟩
  · let acc := recordAccess s core e 1 e.folio.rank 0 0 0 s.router.myCoord
    have hact : exec (.load core n) s =
        .next (updThread (gone s e) e.thread.core e.thread.t (fun y => replied y acc 0 (s.mem.readBytes a acc.size))) :=
      congrArg Host.Outcome.next ((memoryRecord_of_own he hw).trans (accessOwn_of_load rfl hp _ _ _))
    obtain ⟨hthread, hothers⟩ := updThread_gone_becomes he (samePlace.of_onlyRegs (fun y => replied_onlyRegs y acc 0 (s.mem.readBytes a acc.size)))
    exact ⟨acc, rfl, rfl, rfl, rfl, _, hact, hthread, hothers, updThread_gone_frame _ _ _⟩
  · have hact : exec (.store core n) s = .next (updMem (gone s e) (fun m => m.store a (recordData e 2))) :=
      congrArg Host.Outcome.next ((memoryRecord_of_own he hw).trans (accessOwn_of_store rfl _ _ _ _))
    obtain ⟨hthread, hothers⟩ := gone_becomes he
    exact ⟨_, hact, rfl, hthread, hothers, rfl⟩
  · obtain ⟨hx, hkind⟩ := exec_of_memory (s := s) hc
    have hw' : (recordWant core e op).1 = .out rank form place tensor := by
      rw [recordWant, hkind]
      exact hw
    have htarget : rankTarget s e rank = target := by
      rcases hr with ⟨hown, htarget⟩ | ⟨hother, -, htarget⟩
      · exact (if_pos hown).trans htarget.symm
      · exact (if_neg hother).trans htarget.symm
    have hact := hx.trans (congrArg Host.Outcome.next (memoryRecord_of_out he hw'))
    rw [htarget] at hact
    refine ⟨recordAccess s core e op rank form place tensor target, rfl, rfl, rfl, rfl, rfl, fun hwait => ?_, fun i hi hleave => ?_⟩
    · obtain ⟨⟨hthread, hothers⟩, hframe⟩ := issueAccess_waits he hwait
      exact ⟨_, hact, hthread, hothers, hframe⟩
    · obtain ⟨⟨hthread, hothers⟩, htracker, htells⟩ := issueAccess_leaves he hi hleave (hr.imp And.left (fun h => h.2.1))
      exact ⟨_, hact, hthread, hothers, htracker, htells⟩

/-! ### A tracker granted and a reply delivered -/

section
variable {s : State} {i c : Nat} {n : Fin 16} {k : Packet} {tr : Tracker}

/-- The round of a cluster's grants moved on (R155). -/
def servedNext (s : State) (c : Nat) (x : Thread) : State :=
  { s with lastServed := (c, x.core % 16) :: s.lastServed.filter (fun e => e.1 != c) }

theorem exec_trackerGrant_of_next {x : Thread} {st : RoamStart} {a : Access} (hl : s.live = true) (hg : nextGrant s c = some (x, st, a)) :
    exec (.trackerGrant c) s = .next (leave (servedNext s c x) x st a) := by
  have hx : exec (.trackerGrant c) s = execTrackerGrant c s := rfl
  rw [hx, execTrackerGrant, hl, if_neg (by decide), hg]
  rfl

theorem sendToRank_of_own {p : Part} {own rank : Nat} (h : rank = own) (k : Packet) : sendToRank s p own rank k =
    { s with inbox := s.inbox ++ [{ k with src := s.router.myCoord, dst := s.router.myCoord }] } := if_pos h

theorem exec_memReply_of_answer (ht : takeInbox s i 1 1 = some (k, taken s i)) (hd : k.dstUnit.toNat ≠ 4)
    (hf : s.trackers.find? (fun y => y.cluster == c && y.idx == n.val) = some tr) (ha : answers s tr k = true)
    (hon : domainOn s (bandDomain (bandOfCluster c)) = true) : exec (.memReply i c n) s = .next (deliverReply (taken s i) tr k) := by
  have hx : exec (.memReply i c n) s = execMemReply i c n s := rfl
  rw [hx, execMemReply, ht]
  dsimp only
  rw [if_neg hd, hf]
  dsimp only
  rw [if_pos ha, needing_of_on (by simp [hon])]

theorem exec_memReply_of_stale (ht : takeInbox s i 1 1 = some (k, taken s i)) (hd : k.dstUnit.toNat ≠ 4)
    (hf : s.trackers.find? (fun y => y.cluster == c && y.idx == n.val) = some tr) (ha : answers s tr k = false) :
    exec (.memReply i c n) s = .next (staleDrop (taken s i) c k.stamp) := by
  have hx : exec (.memReply i c n) s = execMemReply i c n s := rfl
  rw [hx, execMemReply, ht]
  dsimp only
  rw [if_neg hd, hf]
  dsimp only
  rw [ha, if_neg (by decide)]

/-- The trackers without one. -/
def trackersBut (l : List Tracker) (tr : Tracker) : List Tracker := l.filter (fun y => !(y.cluster == tr.cluster && y.idx == tr.idx))

/-- A tracker freed and its request's id acknowledged. -/
def freed (s : State) (tr : Tracker) : State :=
  if carriesId s tr.access then ackId { s with trackers := trackersBut s.trackers tr } tr.stamp tr.access.target tr.access.kind tr.access.req.aux
  else { s with trackers := trackersBut s.trackers tr }

theorem freed_frame : freed s tr = { s with trackers := trackersBut s.trackers tr, windows := (freed s tr).windows } := by
  unfold freed
  split <;> rfl

/-- A thread that its reply has filled. -/
def filled (s : State) (tr : Tracker) (k : Packet) : State := updThread (freed s tr) tr.core tr.t (fun x => replied x tr.access 0 k.payload)

theorem filled_becomes {x : Thread} (hx : threadOf s tr.core tr.t = some x) :
    becomes s (filled s tr k) tr.core tr.t (some (replied x tr.access 0 k.payload)) := by
  have hself : becomes s s tr.core tr.t (some x) := ⟨hx, fun _ _ _ => rfl⟩
  refine updThread_becomes (samePlace.of_onlyRegs (fun x => replied_onlyRegs x tr.access 0 k.payload)) (hself.of_threads ?_)
  rw [freed_frame]

theorem filled_frame : filled s tr k =
    { s with trackers := trackersBut s.trackers tr, windows := (filled s tr k).windows, threads := (filled s tr k).threads } := by
  unfold filled updThread
  rw [freed_frame]

theorem deliverReply_of_good (hk : k.field 130 128 = 0) :
    deliverReply s tr k = reoffer (accessOver (filled s tr k) tr.core tr.t) [tr.cluster] := by
  unfold deliverReply
  dsimp only
  rw [hk]
  rfl

theorem accessOver_of_parked {core : Nat} {t : Fin 8} {x : Thread} (hx : threadOf s core t = some x) (hc : x.cancelling = false)
    (hp : x.state = .parked) : accessOver s core t = updThread s core t (fun y => { y with state := .ready }) := by
  rw [accessOver, hx]
  dsimp only
  rw [hc, hp, if_neg (by decide), if_neg (by decide)]

/-- A thread that its reply has made READY again. -/
def readied (s : State) (tr : Tracker) (k : Packet) : State := updThread (filled s tr k) tr.core tr.t (fun y => { y with state := .ready })

theorem deliverReply_of_parked (hk : k.field 130 128 = 0) {x : Thread} (hx : threadOf s tr.core tr.t = some x) (hp : x.state = .parked)
    (hc : x.cancelling = false) : deliverReply s tr k = reoffer (readied s tr k) [tr.cluster] := by
  have hregs := replied_onlyRegs x tr.access 0 k.payload
  have hcancelling : (replied x tr.access 0 k.payload).cancelling = false := (congrArg Thread.cancelling hregs).trans hc
  have hstate : (replied x tr.access 0 k.payload).state = .parked := (congrArg Thread.state hregs).trans hp
  rw [deliverReply_of_good hk, accessOver_of_parked (filled_becomes hx).1 hcancelling hstate]
  rfl

theorem readied_becomes {x : Thread} (hx : threadOf s tr.core tr.t = some x) :
    becomes s (readied s tr k) tr.core tr.t (some { replied x tr.access 0 k.payload with state := .ready }) :=
  updThread_becomes (g := fun y => { y with state := .ready }) (fun _ => ⟨rfl, rfl⟩) (filled_becomes hx)

theorem readied_frame : readied s tr k =
    { s with trackers := trackersBut s.trackers tr, windows := (readied s tr k).windows, threads := (readied s tr k).threads } := by
  unfold readied updThread
  rw [filled_frame]

/-- What a new offer of bands leaves of a state in which a reply has been taken. -/
theorem rests.of_readied {u t : State} (hu : u = { s with trackers := u.trackers, windows := u.windows, threads := u.threads }) (h : rests u t) :
    t.trackers = u.trackers ∧ rests { s with threads := t.threads, trackers := t.trackers, windows := t.windows } t := by
  refine ⟨by rw [h], ?_⟩
  unfold rests at *
  rw [h]
  dsimp only
  rw [hu]

end

/-- Settles O52: a grant is the leaving of R155's next thread, and a reply frees its tracker before it fills its thread. -/
theorem trackersServeTheirThreads : Obligations.TrackersServeTheirThreads := by
  unfold Obligations.TrackersServeTheirThreads
  refine ⟨fun s c i x st a f hl hg hx hi hf hr hca => ?_, fun s i c n k tr x ht hd hf => ⟨fun ha hon hk hx hp hc => ?_, fun ha => ?_⟩⟩
  · have hi' : freeTracker (servedNext s c x) (x.core / 16) = some i := hi
    have hf' : folioOf (servedNext s c x) st.folio = some f := hf
    have hself : becomes s (servedNext s c x) x.core x.t (some x) := ⟨hx, fun _ _ _ => rfl⟩
    have hlocal := ticket_of_local (u := servedNext s c x) (a := a) hca (partStamp (servedNext s c x) st.part)
    have hact := exec_trackerGrant_of_next hl hg
    rw [leave_of_free hi' hf', sendToRank_of_own hr, left, requestOf, trackerOf, requestOf, hlocal] at hact
    have hleft := left_becomes (st := st) (a := a) (i := i) hself
    rw [left, trackerOf, requestOf, hlocal] at hleft
    exact ⟨_, hact, hleft.1, rfl, rfl, rfl⟩
  · have hx' : threadOf (taken s i) tr.core tr.t = some x := hx
    have hrests := reoffer_rests (readied (taken s i) tr k) [tr.cluster]
    have hbecomes := (readied_becomes (k := k) hx').of_threads hrests.threads_eq
    obtain ⟨htrackers, hframe⟩ := rests.of_readied (s := taken s i) (by rw [readied_frame]) hrests
    refine ⟨_, (exec_memReply_of_answer ht hd hf ha hon).trans (congrArg Host.Outcome.next (deliverReply_of_parked hk hx' hp hc)),
      hbecomes.1, htrackers.trans ?_, hframe⟩
    rw [readied_frame]
    rfl
  · exact exec_memReply_of_stale ht hd hf ha

end Sys2Proof.Machine
end

section
/-! SUPPORT. Memory requests at their target (R186, R287 to R299). -/

namespace Sys2Proof.Machine

/-! ### The line queues -/

section
variable (s : State) {t t' : LineTarget}

theorem setQueue_same (t : LineTarget) (l : List LineEntry) : queueOf (setQueue s t l) t = l := by
  have hnone : (s.lineQueues.filter (fun q => q.target != t)).find? (fun q => q.target == t) = none := by
    refine List.find?_eq_none.mpr (fun q hq => ?_)
    simpa using (List.mem_filter.mp hq).2
  unfold setQueue queueOf
  dsimp only
  by_cases hl : l.isEmpty = true
  · rw [if_pos hl, hnone]
    exact (List.isEmpty_iff.mp hl).symm
  · rw [if_neg hl, List.find?_cons_of_pos (by simp)]

theorem setQueue_other (h : t' ≠ t) (l : List LineEntry) : queueOf (setQueue s t l) t' = queueOf s t' := by
  have hrest : (s.lineQueues.filter (fun q => q.target != t)).find? (fun q => q.target == t') = s.lineQueues.find? (fun q => q.target == t') := by
    refine find_filter_ne (fun q hq => ?_) _
    rw [beq_iff_eq] at hq
    simpa [hq] using h
  unfold setQueue queueOf
  dsimp only
  by_cases hl : l.isEmpty = true
  · rw [if_pos hl, hrest]
  · rw [if_neg hl, List.find?_cons_of_neg (by simpa using fun e => h e.symm), hrest]

theorem queueOf_of_lineQueues {u v : State} (h : u.lineQueues = v.lineQueues) (t : LineTarget) : queueOf u t = queueOf v t := by
  rw [queueOf, queueOf, h]

end

/-! ### A reply -/

theorem answer_tells (s : State) (k : Packet) (code : Nat) (held : Stamp) (payload : Bytes) : tells s (answer s k code held payload) := by
  unfold answer sendBack
  dsimp only
  split
  · rfl
  · exact sendPacket_tells _ _

theorem tells.lineQueues_eq {s t : State} (h : tells s t) : t.lineQueues = s.lineQueues := by rw [h]

theorem tells.mem_eq {s t : State} (h : tells s t) : t.mem = s.mem := by rw [h]

theorem tells.ledger_eq {s t : State} (h : tells s t) : t.ledger = s.ledger := by rw [h]

theorem tells.myCoord_eq {s t : State} (h : tells s t) : t.router.myCoord = s.router.myCoord := by rw [h]

/-! ### The ledger of remote requests -/

section
variable {s t : State} {k : Packet}

theorem ledgerOf_key (s : State) (src : Coord) (stamp : Stamp) : (ledgerOf s src stamp).src = src ∧ (ledgerOf s src stamp).stamp = stamp := by
  unfold ledgerOf
  split
  · next l hl =>
    split
    · next hstamp => exact ⟨beq_iff_eq.mp (List.find?_some (p := fun l : LedgerSource => l.src == src) hl), hstamp⟩
    · exact ⟨rfl, rfl⟩
  · exact ⟨rfl, rfl⟩

theorem ledgerOf_updLedger {src : Coord} {stamp : Stamp} {g : LedgerSource → LedgerSource} (hsrc : ∀ l, (g l).src = l.src)
    (hstamp : ∀ l, (g l).stamp = l.stamp) : ledgerOf (updLedger s src stamp g) src stamp = g (ledgerOf s src stamp) := by
  obtain ⟨hs, ht⟩ := ledgerOf_key s src stamp
  have hfound : (g (ledgerOf s src stamp) :: s.ledger.filter (fun l => l.src != src)).find? (fun l => l.src == src) =
      some (g (ledgerOf s src stamp)) := List.find?_cons_of_pos (by rw [hsrc, hs, beq_self_eq_true])
  have hheld : (g (ledgerOf s src stamp)).stamp = stamp := (hstamp _).trans ht
  rw [ledgerOf, updLedger]
  dsimp only
  rw [hfound]
  exact if_pos hheld

theorem ledgerOf_of_ledger (h : t.ledger = s.ledger) (src : Coord) (stamp : Stamp) : ledgerOf t src stamp = ledgerOf s src stamp := by
  rw [ledgerOf, ledgerOf, h]

theorem remote_of_coord (h : t.router.myCoord = s.router.myCoord) (k : Packet) : remote t k = remote s k := by
  rw [remote, remote, h]

/-- A store put in the ledger when it comes from another device (R294). -/
def ledgeredStore (s : State) (k : Packet) : State := if remote s k then ledgerStore s k else s

theorem ledgeredStore_frame : ledgeredStore s k = { s with ledger := (ledgeredStore s k).ledger } := by
  unfold ledgeredStore
  split <;> rfl

theorem ledgeredStore_ledgerOf (h : remote s k = true) : ledgerOf (ledgeredStore s k) k.src k.stamp =
    { ledgerOf s k.src k.stamp with stores := (k.aux :: (ledgerOf s k.src k.stamp).stores).take 64 } := by
  rw [ledgeredStore, if_pos h]
  exact ledgerOf_updLedger (g := fun l => { l with stores := (k.aux :: l.stores).take 64 }) (fun _ => rfl) (fun _ => rfl)

/-- What follows a store's entry in the ledger finds it there. -/
theorem ledgeredStore_replayed (h : remote s k = true) (hl : t.ledger = (ledgeredStore s k).ledger) (hc : t.router.myCoord = s.router.myCoord) :
    storeReplayed t k = true := by
  rw [storeReplayed, remote_of_coord hc, h, ledgerOf_of_ledger hl, ledgeredStore_ledgerOf h]
  simp

/-- An atomic put in the ledger with its old value when it comes from another device (R294). -/
def ledgeredAtomic (s : State) (k : Packet) (v : Word64) : State := if remote s k then ledgerAtomic s k v else s

theorem ledgeredAtomic_frame (v : Word64) : ledgeredAtomic s k v = { s with ledger := (ledgeredAtomic s k v).ledger } := by
  unfold ledgeredAtomic
  split <;> rfl

theorem ledgeredAtomic_ledgerOf (h : remote s k = true) (v : Word64) : ledgerOf (ledgeredAtomic s k v) k.src k.stamp =
    { ledgerOf s k.src k.stamp with atomics := ((k.aux, v) :: (ledgerOf s k.src k.stamp).atomics).take 64 } := by
  rw [ledgeredAtomic, if_pos h]
  exact ledgerOf_updLedger (g := fun l => { l with atomics := ((k.aux, v) :: l.atomics).take 64 }) (fun _ => rfl) (fun _ => rfl)

theorem ledgeredAtomic_replayed {v : Word64} (h : remote s k = true) (hl : t.ledger = (ledgeredAtomic s k v).ledger)
    (hc : t.router.myCoord = s.router.myCoord) : atomicReplayed t k = some v := by
  rw [atomicReplayed, remote_of_coord hc, if_pos h, ledgerOf_of_ledger hl, ledgeredAtomic_ledgerOf h]
  simp

end

/-! ### A request is taken -/

section
variable {s : State} {i : Nat} {k : Packet} {a : Nat} {t : LineTarget}

/-- A request at the end of its line queue. -/
def joins (s : State) (t : LineTarget) (e : LineEntry) : State := setQueue s t (queueOf s t ++ [e])

theorem exec_memLoad_of_reach (ht : takeInbox s i 0 1 = some (k, taken s i)) (hr : reach (taken s i) k = .ok a t) : exec (.memLoad i) s =
    .next (if hasRoom s t then joins (taken s i) t (requestEntry .load a k) else s) := by
  have hx : exec (.memLoad i) s = execMemLoad i s := rfl
  rw [hx, execMemLoad, ht]
  dsimp only
  rw [hr]
  rfl

theorem exec_memStore_of_reach (ht : takeInbox s i 0 2 = some (k, taken s i)) (hr : reach (taken s i) k = .ok a t) : exec (.memStore i) s =
    .next (if storeReplayed s k then answer (bump (taken s i) 5 0 1) k 0 0 [] else if hasRoom s t then
      answer (ledgeredStore (admitStore (taken s i) t { requestEntry .store a k with bytes := lineBytes a (k.payload.take k.sizeBytes) }) k) k 0 0 []
      else s) := by
  have hx : exec (.memStore i) s = execMemStore i s := rfl
  have hremote : remote (admitStore (taken s i) t { requestEntry .store a k with bytes := lineBytes a (k.payload.take k.sizeBytes) }) k =
      remote (taken s i) k := by
    refine remote_of_coord ?_ k
    unfold admitStore
    split <;> rfl
  rw [hx, execMemStore, ht]
  dsimp only
  rw [hr, ledgeredStore, hremote]
  rfl

theorem exec_memAtomic_of_reach (ht : takeInbox s i 0 3 = some (k, taken s i)) (hr : reach (taken s i) k = .ok a t) : exec (.memAtomic i) s =
    .next (match atomicReplayed s k with
      | some v => answer (bump (taken s i) 5 0 1) k 0 0 (atomicPayload k.atomicOp v)
      | none => if hasRoom s t then joins (taken s i) t (requestEntry .atomic a k) else s) := by
  have hx : exec (.memAtomic i) s = execMemAtomic i s := rfl
  rw [hx, execMemAtomic, ht]
  dsimp only
  rw [hr]
  rfl

theorem exec_memLoad_of_refused (ht : takeInbox s i 0 1 = some (k, taken s i)) {r : Reach} (hr : reach (taken s i) k = r)
    (hno : ∀ a t, r ≠ .ok a t) : exec (.memLoad i) s = .next (refuseRequest (taken s i) k r) := by
  have hx : exec (.memLoad i) s = execMemLoad i s := rfl
  rw [hx, execMemLoad, ht]
  dsimp only
  rw [hr]
  cases r with
  | ok a t => exact absurd rfl (hno a t)
  | stale _ _ => rfl
  | bad => rfl

theorem exec_memStore_of_refused (ht : takeInbox s i 0 2 = some (k, taken s i)) {r : Reach} (hr : reach (taken s i) k = r)
    (hno : ∀ a t, r ≠ .ok a t) : exec (.memStore i) s = .next (refuseRequest (taken s i) k r) := by
  have hx : exec (.memStore i) s = execMemStore i s := rfl
  rw [hx, execMemStore, ht]
  dsimp only
  rw [hr]
  cases r with
  | ok a t => exact absurd rfl (hno a t)
  | stale _ _ => rfl
  | bad => rfl

theorem exec_memAtomic_of_refused (ht : takeInbox s i 0 3 = some (k, taken s i)) {r : Reach} (hr : reach (taken s i) k = r)
    (hno : ∀ a t, r ≠ .ok a t) : exec (.memAtomic i) s = .next (refuseRequest (taken s i) k r) := by
  have hx : exec (.memAtomic i) s = execMemAtomic i s := rfl
  rw [hx, execMemAtomic, ht]
  dsimp only
  rw [hr]
  cases r with
  | ok a t => exact absurd rfl (hno a t)
  | stale _ _ => rfl
  | bad => rfl

/-- What a command that refuses by the reach of its request answers (R186, R299). -/
theorem refuses_of {c : Instr} (h : ∀ r, reach (taken s i) k = r → (∀ a t, r ≠ .ok a t) → exec c s = .next (refuseRequest (taken s i) k r)) :
    (reach (taken s i) k = .bad → exec c s = .next (answer (taken s i) k 2 0 [])) ∧
    (∀ held unit, reach (taken s i) k = .stale held unit → exec c s = .next (answer (staleDrop (taken s i) unit k.stamp) k 1 held [])) :=
  ⟨fun hr => h _ hr (fun _ _ => Reach.noConfusion), fun _ _ hr => h _ hr (fun _ _ => Reach.noConfusion)⟩

/-- What a command whose request joins its line queue or waits does (R296). -/
theorem queued_of {c : Instr} {kind : ReqKind}
    (h : exec c s = .next (if hasRoom s t then joins (taken s i) t (requestEntry kind a k) else s)) :
    (hasRoom s t = true → ∃ u, exec c s = .next u ∧ queueOf u t = queueOf s t ++ [requestEntry kind a k] ∧
      (∀ t', t' ≠ t → queueOf u t' = queueOf s t') ∧ u = { taken s i with lineQueues := u.lineQueues }) ∧
    (hasRoom s t = false → exec c s = .next s) := by
  refine ⟨fun hroom => ⟨_, h.trans (congrArg Host.Outcome.next (if_pos hroom)), setQueue_same _ _ _, fun t' hne => setQueue_other _ hne _, rfl⟩,
    fun hroom => h.trans (congrArg Host.Outcome.next (if_neg (ne_true_of_eq_false hroom)))⟩

/-- A store that no queued store of its line takes up joins its queue. -/
theorem admitStore_of_new {e : LineEntry} (h : mergeRev e.line e.bytes (queueOf s t).reverse = none) : admitStore s t e = joins s t e := by
  rw [admitStore, h]
  rfl

/-- A store admitted, entered in the ledger and acknowledged (R287, R294). -/
theorem acknowledged_spec (s : State) (t : LineTarget) (e : LineEntry) (k : Packet) :
    let u := answer (ledgeredStore (joins s t e) k) k 0 0 []
    queueOf u t = queueOf s t ++ [e] ∧ (∀ t', t' ≠ t → queueOf u t' = queueOf s t') ∧ (remote s k = true → storeReplayed u k = true) ∧
      u.mem = s.mem ∧ tells { s with lineQueues := u.lineQueues, ledger := u.ledger } u := by
  intro u
  have htells : tells (ledgeredStore (joins s t e) k) u := answer_tells _ _ _ _ _
  have hframe := ledgeredStore_frame (s := joins s t e) (k := k)
  have hqueues : u.lineQueues = (joins s t e).lineQueues := htells.lineQueues_eq.trans (by rw [hframe])
  have hcoord : u.router.myCoord = (joins s t e).router.myCoord := htells.myCoord_eq.trans (by rw [hframe])
  have hmem : u.mem = (joins s t e).mem := htells.mem_eq.trans (by rw [hframe])
  refine ⟨(queueOf_of_lineQueues hqueues t).trans (setQueue_same _ _ _),
    fun t' hne => (queueOf_of_lineQueues hqueues t').trans (setQueue_other _ hne _),
    fun hremote => ledgeredStore_replayed (s := joins s t e) hremote htells.ledger_eq hcoord, hmem, ?_⟩
  clear_value u
  unfold tells at htells ⊢
  rw [htells, hframe]
  rfl

end

/-! ### The head of a queue is performed -/

section
variable {s : State} {t : LineTarget} {e : LineEntry} {q : List LineEntry}

theorem exec_lineQueueServe_of_head (hq : queueOf s t = e :: q) (hl : s.live = true) (hd : domainOn s (targetDomain t) = true) :
    exec (.lineQueueServe t .clean) s = .next (performEntry (setQueue s t q) e) := by
  have hx : exec (.lineQueueServe t .clean) s = execLineQueueServe t .clean s := rfl
  rw [hx, execLineQueueServe, hq]
  dsimp only
  rw [hl, if_neg (by decide), needing_of_on (by simp [hd])]
  exact congrArg (fun w => Host.Outcome.next (performEntry w e)) (ite_self _)

/-- Memory after bytes of a line are written one by one. -/
def writeEach (a : Nat) (l : List (Nat × Byte)) (m : Memory) : Memory := l.foldl (fun m x => m.write (a + x.1) x.2) m

theorem writeEach_wf (a : Nat) : ∀ (l : List (Nat × Byte)) {m : Memory}, m.wf = true → (writeEach a l m).wf = true
  | [], _, h => h
  | y :: l, m, h => writeEach_wf a l (Memory.write_wf m (a + y.1) y.2 h)

theorem writeEach_read_of_not_mem {a x : Nat} : ∀ {l : List (Nat × Byte)} {m : Memory}, m.wf = true → (∀ y ∈ l, x ≠ a + y.1) →
    (writeEach a l m).read x = m.read x
  | [], _, _, _ => rfl
  | y :: l, m, h, hx => by
    refine (writeEach_read_of_not_mem (Memory.write_wf m (a + y.1) y.2 h) (fun z hz => hx z (List.mem_cons_of_mem _ hz))).trans ?_
    rw [Memory.read_write _ _ _ _ h, if_neg (hx y List.mem_cons_self)]

theorem writeEach_read_of_mem {a x : Nat} {b : Byte} : ∀ {l : List (Nat × Byte)} {m : Memory}, m.wf = true → (x, b) ∈ l →
    (l.map (fun y => y.1)).Nodup → (writeEach a l m).read (a + x) = b
  | [], _, _, hx, _ => absurd hx List.not_mem_nil
  | y :: l, m, h, hx, hn => by
    rw [List.map_cons, List.nodup_cons] at hn
    obtain ⟨hfresh, hn⟩ := hn
    have hw := Memory.write_wf m (a + y.1) y.2 h
    rcases List.mem_cons.mp hx with rfl | hx
    · refine (writeEach_read_of_not_mem hw (fun z hz hxz => hfresh ?_)).trans ?_
      · exact List.mem_map.mpr ⟨z, hz, (Nat.add_left_cancel hxz).symm⟩
      · rw [Memory.read_write _ _ _ _ h, if_pos rfl]
    · have hrest := writeEach_read_of_mem (a := a) hw hx hn
      exact hrest

/-- Memory after a store of a line: a whole line written is poisoned no more. -/
def storedLine (e : LineEntry) (m : Memory) : Memory :=
  if (List.range 64).all (fun i => e.bytes.any (fun x => x.1 == i)) then (writeEach (e.line * 64) e.bytes m).clearPoison (e.line * 64)
  else writeEach (e.line * 64) e.bytes m

theorem storedLine_read (e : LineEntry) (m : Memory) (x : Nat) : (storedLine e m).read x = (writeEach (e.line * 64) e.bytes m).read x := by
  unfold storedLine
  split <;> rfl

theorem performStore_of_memory (hw : inCoreWindow (e.line * 64) = false) : performStore s e = updMem s (storedLine e) := by
  unfold performStore storedLine
  dsimp only
  simp only [hw, Bool.false_eq_true, if_false]
  split <;> rfl

theorem targetBytes_of_memory {a : Nat} (hw : inCoreWindow a = false) (n : Nat) : targetBytes s a n = s.mem.readBytes a n :=
  if_neg (ne_true_of_eq_false hw)

theorem performLoad_of_memory (hp : s.mem.poisoned (e.line * 64) 64 = false) (hw : inCoreWindow (e.line * 64 + e.off) = false) :
    performLoad s e = answer s e.req 0 0 (s.mem.readBytes (e.line * 64 + e.off) e.len) := by
  rw [performLoad, if_neg (ne_true_of_eq_false hp), targetBytes_of_memory hw]

/-- The word that an atomic finds. -/
def oldWord (s : State) (e : LineEntry) : Nat := targetWord s (e.line * 64 + e.off) e.len

theorem oldWord_of_mem {u : State} (hw : inCoreWindow (e.line * 64 + e.off) = false) (hm : u.mem = s.mem) : oldWord u e = oldWord s e := by
  rw [oldWord, oldWord, targetWord, targetWord, targetBytes_of_memory hw, targetBytes_of_memory hw, hm]

/-- The value that an atomic returns, or 0. -/
def atomicOld (s : State) (e : LineEntry) : Nat := if atomicReturns e.req.atomicOp then oldWord s e else 0

/-- An atomic of the first eight performed (R289). -/
def atomicWritten (s : State) (e : LineEntry) : State :=
  updMem s (fun m => m.store (e.line * 64 + e.off)
    (le e.len (atomicNew e.req.atomicOp e.len (oldWord s e) (u64 e.req.payload 0) (u64 e.req.payload 8))))

theorem performAtomic_of_plain (ho : e.req.atomicOp < 8) (hw : inCoreWindow (e.line * 64 + e.off) = false) (stamp : Stamp) :
    performAtomic s stamp e.req.atomicOp (e.line * 64 + e.off) e.len (u64 e.req.payload 0) (u64 e.req.payload 8) =
      (atomicOld s e, atomicWritten s e) := by
  have hcas : ¬(e.req.atomicOp = 8 && targetWord s (e.line * 64 + e.off) e.len != u64 e.req.payload 8 % 2 ^ (8 * e.len)) = true := by
    have hne : e.req.atomicOp ≠ 8 := Nat.ne_of_lt ho
    simp [hne]
  rw [performAtomic, if_neg (Nat.ne_of_lt (Nat.lt_of_lt_of_le ho (by decide)))]
  dsimp only
  rw [if_neg hcas, targetStore, if_neg (ne_true_of_eq_false hw)]
  rfl

theorem serveAtomic_of_plain (ho : e.req.atomicOp < 8) (hw : inCoreWindow (e.line * 64 + e.off) = false) (ha : atomicReplayed s e.req = none)
    (hp : s.mem.poisoned (e.line * 64) 64 = false) : serveAtomic s e =
    answer (ledgeredAtomic (atomicWritten s e) e.req (BitVec.ofNat 64 (atomicOld s e))) e.req 0 0
      (atomicPayload e.req.atomicOp (BitVec.ofNat 64 (atomicOld s e))) := by
  rw [serveAtomic, ha]
  dsimp only
  rw [if_neg (ne_true_of_eq_false hp), performAtomic_of_plain ho hw]
  rfl

/-- An atomic of the head of a queue: its new value written, its old one in the ledger and answered. -/
theorem answeredAtomic_spec (hw : inCoreWindow (e.line * 64 + e.off) = false) (payload : Bytes) :
    let u := answer (ledgeredAtomic (atomicWritten (setQueue s t q) e) e.req (BitVec.ofNat 64 (atomicOld (setQueue s t q) e))) e.req 0 0 payload
    queueOf u t = q ∧
      u.mem = s.mem.store (e.line * 64 + e.off)
        (le e.len (atomicNew e.req.atomicOp e.len (oldWord s e) (u64 e.req.payload 0) (u64 e.req.payload 8))) ∧
      (remote s e.req = true → atomicReplayed u e.req = some (BitVec.ofNat 64 (atomicOld s e))) ∧
      tells { s with lineQueues := u.lineQueues, mem := u.mem, ledger := u.ledger } u := by
  intro u
  have htells : tells (ledgeredAtomic (atomicWritten (setQueue s t q) e) e.req (BitVec.ofNat 64 (atomicOld (setQueue s t q) e))) u :=
    answer_tells _ _ _ _ _
  have hold : oldWord (setQueue s t q) e = oldWord s e := oldWord_of_mem hw rfl
  have hvalue : atomicOld (setQueue s t q) e = atomicOld s e := congrArg (fun w => if atomicReturns e.req.atomicOp then w else 0) hold
  rw [hvalue] at htells
  have hframe := ledgeredAtomic_frame (s := atomicWritten (setQueue s t q) e) (k := e.req) (BitVec.ofNat 64 (atomicOld s e))
  have hqueues : u.lineQueues = (setQueue s t q).lineQueues := htells.lineQueues_eq.trans (by rw [hframe]; rfl)
  have hcoord : u.router.myCoord = (atomicWritten (setQueue s t q) e).router.myCoord := htells.myCoord_eq.trans (by rw [hframe])
  have hmem : u.mem = (atomicWritten (setQueue s t q) e).mem := htells.mem_eq.trans (by rw [hframe])
  refine ⟨(queueOf_of_lineQueues hqueues t).trans (setQueue_same _ _ _), hmem.trans ?_,
    fun hremote => ledgeredAtomic_replayed (s := atomicWritten (setQueue s t q) e) hremote htells.ledger_eq hcoord, ?_⟩
  · rw [atomicWritten, hold]
    rfl
  · clear_value u
    unfold tells at htells ⊢
    rw [htells, hframe]
    rfl

end

/-! ### The statement -/

/-- Settles O53: a request is refused, joins its line queue or waits; the head of a queue is performed and answered. -/
theorem memoryTargetsServe : Obligations.MemoryTargetsServe := by
  unfold Obligations.MemoryTargetsServe
  intro s i k
  refine ⟨fun ht => ⟨fun a t hr => queued_of (exec_memLoad_of_reach ht hr), refuses_of (fun _ hr hno => exec_memLoad_of_refused ht hr hno)⟩,
    fun ht => ⟨refuses_of (fun _ hr hno => exec_memStore_of_refused ht hr hno), fun a t hr => ?_⟩,
    fun ht => ⟨refuses_of (fun _ hr hno => exec_memAtomic_of_refused ht hr hno), fun a t hr => ?_⟩, fun t e q hq hl hd hw hw' => ?_⟩
  · have hx := exec_memStore_of_reach ht hr
    refine ⟨fun hp => ?_, fun hp hroom => ?_, fun hp hroom hnew => ?_⟩
    · exact hx.trans (congrArg Host.Outcome.next (if_pos hp))
    · exact hx.trans (congrArg Host.Outcome.next ((if_neg (ne_true_of_eq_false hp)).trans (if_neg (ne_true_of_eq_false hroom))))
    · rw [if_neg (ne_true_of_eq_false hp), if_pos hroom, admitStore_of_new (s := taken s i) hnew] at hx
      exact ⟨_, hx, acknowledged_spec (taken s i) t _ k⟩
  · have hx := exec_memAtomic_of_reach ht hr
    refine ⟨fun v hv => ?_, fun hv => queued_of ?_⟩
    · rw [hv] at hx
      exact hx
    · rw [hv] at hx
      exact hx
  · have hx := exec_lineQueueServe_of_head hq hl hd
    refine ⟨fun he hm _ => ?_, fun he hbar hp => ?_, fun he hp ha ho => ?_⟩
    · rw [performEntry, he] at hx
      dsimp only at hx
      rw [performStore_of_memory hw] at hx
      refine ⟨_, hx, setQueue_same _ _ _, fun x b hmem hn => ?_, fun x hno => ?_, rfl⟩
      · exact (storedLine_read e s.mem _).trans (writeEach_read_of_mem hm hmem hn)
      · refine (storedLine_read e s.mem _).trans (writeEach_read_of_not_mem hm (fun y hy hxy => hno y.2 ?_))
        exact List.mem_map.mpr ⟨y, hy, by rw [hxy]⟩
    · rw [performEntry, he, hbar] at hx
      exact hx.trans (congrArg Host.Outcome.next (performLoad_of_memory (s := setQueue s t q) hp hw'))
    · rw [performEntry, he] at hx
      dsimp only at hx
      rw [serveAtomic_of_plain (s := setQueue s t q) ho hw' ha hp] at hx
      exact ⟨_, hx, answeredAtomic_spec hw' _⟩

end Sys2Proof.Machine
end

section
/-! SUPPORT. Exchange packets (R56, R169, R170, R209). -/

namespace Sys2Proof.Machine

/-! ### An exchange of a run -/

section
variable {s : State} {h : Handle} {o : LongOp} {r : Run} {x step : Nat} {g : ExchRun → ExchRun}

/-- An exchange of the RUN or STEP with a handle. -/
def exchAt (s : State) (h : Handle) (x step : Nat) : Option ExchRun := (runOf s h).map (fun z => z.2.exchRun h x step)

/-- A run with one of its exchanges changed. -/
def withExch (r : Run) (h : Handle) (x step : Nat) (g : ExchRun → ExchRun) : Run :=
  { r with exchs := g (r.exchRun h x step) :: r.exchs.filter (fun y => !(y.exch == x && y.step == step)) }

theorem runOf_updRun {g : Run → Run} (hr : runOf s h = some (o, r)) : runOf (updRun s h g) h = some ({ o with body := .run (g r) }, g r) := by
  obtain ⟨hlong, hbody⟩ := runOf_eq_some hr
  exact runOf_some (updRun_longOf g hlong hbody) rfl

theorem runOf_updExch (hr : runOf s h = some (o, r)) :
    runOf (updExch s h x step g) h = some ({ o with body := .run (withExch r h x step g) }, withExch r h x step g) :=
  runOf_updRun (g := fun r => withExch r h x step g) hr

theorem exchRun_key (r : Run) (h : Handle) (x step : Nat) : (r.exchRun h x step).exch = x ∧ (r.exchRun h x step).step = step := by
  unfold Run.exchRun
  cases hf : r.exchs.find? (fun e => e.exch == x && e.step == step) with
  | none => exact ⟨rfl, rfl⟩
  | some e => simpa using List.find?_some hf

/-- A change of an exchange that leaves its number and its step. -/
def sameExch (g : ExchRun → ExchRun) : Prop := ∀ y, (g y).exch = y.exch ∧ (g y).step = y.step

theorem exchRun_withExch (hg : sameExch g) : (withExch r h x step g).exchRun h x step = g (r.exchRun h x step) := by
  obtain ⟨hexch, hstep⟩ := exchRun_key r h x step
  have hkey : ((g (r.exchRun h x step)).exch == x && (g (r.exchRun h x step)).step == step) = true := by
    rw [(hg _).1, (hg _).2, hexch, hstep]
    simp
  have hfound : (withExch r h x step g).exchs.find? (fun e => e.exch == x && e.step == step) = some (g (r.exchRun h x step)) :=
    List.find?_cons_of_pos hkey
  rw [Run.exchRun, hfound, Option.getD_some]

theorem exchAt_updExch (hr : runOf s h = some (o, r)) (hg : sameExch g) :
    exchAt (updExch s h x step g) h x step = some (g (r.exchRun h x step)) := by
  rw [exchAt, runOf_updExch hr, Option.map_some, exchRun_withExch hg]

theorem runOf_of_longs {t : State} (ht : t.longs = s.longs) (h : Handle) : runOf t h = runOf s h := by
  rw [runOf, runOf, longOf, longOf, ht]

end

/-! ### A payload -/

section
variable {s : State} {i : Nat} {k : Packet} {o : LongOp} {r : Run} {f : Folio} {e : ExchEntry}

theorem exec_exchData_of_on (ht : takeInbox s i 0 4 = some (k, taken s i)) (ha : runAt s k = some (o, r, f))
    (he : f.tables.exchs[k.exch]? = some e) (hd : (tensorIdxDomains s f e.dst).all (domainOn s) = true) :
    exec (.exchData i) s = .next (exchArrive (taken s i) k) := by
  have hx : exec (.exchData i) s = execExchData i s := rfl
  have hdomains : arrivalDomains s k = tensorIdxDomains s f e.dst := by
    rw [arrivalDomains, ha]
    dsimp only
    rw [he]
  rw [hx, execExchData, ht]
  dsimp only
  rw [hdomains, needing_of_on hd]

theorem exchArrive_of_beyond (hn : reshardOf s k.stamp = none) (ha : runAt s k = some (o, r, f)) (he : f.tables.exchs[k.exch]? = some e)
    (hy : (r.exchRun o.handle k.exch f.step16).rxOpen = false ∨ exchExpected f e ≤ (r.exchRun o.handle k.exch f.step16).count) :
    exchArrive s k = failJob s k.stamp 0x101 (exchUnit f e) k.exch 0 0 := by
  rw [exchArrive, hn]
  dsimp only
  rw [ha]
  dsimp only
  rw [he]
  refine if_pos ?_
  rcases hy with hclosed | hfull
  · simp [hclosed]
  · simp [hfull]

theorem exchArrive_of_below (hn : reshardOf s k.stamp = none) (ha : runAt s k = some (o, r, f)) (he : f.tables.exchs[k.exch]? = some e)
    (hstep : k.step = f.step16) (hopen : (r.exchRun o.handle k.exch f.step16).rxOpen = true)
    (hc : (r.exchRun o.handle k.exch f.step16).count < exchExpected f e) {m : Memory}
    (hm : arrived s.mem f e ((senderRank s o.part f.rank k).getD f.rank) k.unit k.payload = some m) :
    exchArrive s k = countUnit { s with mem := m } o.handle k.exch f.step16 := by
  rw [exchArrive, hn]
  dsimp only
  rw [ha]
  dsimp only
  rw [he]
  dsimp only
  rw [if_neg (by simp [hopen, hstep, hc]), hm]

end

/-! ### An end marker -/

section
variable {s : State} {i : Nat} {k : Packet} {o : LongOp} {r : Run} {f : Folio} {e : ExchEntry} {re : RoutingEntry} {rank : Nat}

/-- A receive engine whose tables of an exchange bind a sender (R209). -/
def bindsSender (f : Folio) (k : Packet) (re : RoutingEntry) (rank : Nat) (d : Ductus) : Ductus :=
  { d with tables := d.tables.map (fun t => if t.folio == f.handle && t.exch == k.exch then
      bindTable t (f.tables.posOn re.cut (coordOfRank f.box rank)) rank (f.gridQuad re.sourceGrid).val (u8 k.payload 11) else t) }

/-- The packets that a sender's end marker counts. -/
def endsWith (k : Packet) (rank : Nat) (y : ExchRun) : ExchRun := { y with ends := y.ends ++ [(rank, u32 k.payload 0)] }

/-- The state with an end marker recorded and, in the first direction, its sender bound. -/
def ended (s : State) (h : Handle) (f : Folio) (e : ExchEntry) (k : Packet) (re : RoutingEntry) (rank : Nat) : State :=
  if e.dir re = 0 then updDuctus (updExch s h k.exch f.step16 (endsWith k rank)) (f.gridQuad re.expertGrid) (bindsSender f k re rank)
  else updExch s h k.exch f.step16 (endsWith k rank)

theorem ended_frame (h : Handle) : ended s h f e k re rank =
    { s with longs := (updExch s h k.exch f.step16 (endsWith k rank)).longs, ductus := (ended s h f e k re rank).ductus } := by
  unfold ended
  split <;> rfl

theorem exec_endMarker_of_taken (ht : takeInbox s i 0 6 = some (k, taken s i)) : exec (.endMarker i) s = .next (endArrive (taken s i) k) := by
  have hx : exec (.endMarker i) s = execEndMarker i s := rfl
  rw [hx, execEndMarker, ht]

theorem endArrive_of_first (ha : runAt s k = some (o, r, f)) (he : f.tables.exchs[k.exch]? = some e) (hre : f.tables.routing[e.ref]? = some re)
    (hrank : senderRank s o.part f.rank k = some rank) (hstale : endIsStale s f re (e.dir re) (u8 k.payload 11) = false)
    (hopen : (r.exchRun o.handle k.exch f.step16).rxOpen = true) (hstep : k.step = f.step16) (hkind : e.kind = 1 ∨ e.kind = 2)
    (hfirst : (r.exchRun o.handle k.exch f.step16).ends.any (fun z => z.1 == rank) = false) :
    endArrive s k = settleSender (ended s o.handle f e k re rank) o.handle f k.stamp k.exch e rank := by
  have hgood : (!(r.exchRun o.handle k.exch f.step16).rxOpen || k.step != f.step16 || !(e.kind == 1 || e.kind == 2) ||
      (r.exchRun o.handle k.exch f.step16).ends.any (fun z => z.1 == rank)) = false := by
    rw [hopen, hstep, hfirst]
    rcases hkind with h | h <;> simp [h]
  rw [endArrive, ha]
  dsimp only
  rw [he]
  dsimp only
  rw [hre, hrank]
  dsimp only
  rw [hstale, if_neg (by decide), hgood, if_neg (by decide)]
  rfl

theorem settleSender_of_below {u : State} {h : Handle} (hr : runOf u h = some (o, r)) {n : Nat}
    (hends : (r.exchRun h k.exch f.step16).ends.find? (fun z => z.1 == rank) = some (rank, n))
    (hc : (r.exchRun h k.exch f.step16).count < exchExpected f e) (stamp : Stamp) : settleSender u h f stamp k.exch e rank =
    if tallied (r.exchRun h k.exch f.step16).packets rank = n then countUnit u h k.exch f.step16 else u := by
  rw [settleSender, hr]
  dsimp only
  rw [hends]
  dsimp only
  rw [if_neg (Nat.not_le.mpr hc)]

theorem find_endsWith {y : ExchRun} (h : y.ends.any (fun z => z.1 == rank) = false) :
    (endsWith k rank y).ends.find? (fun z => z.1 == rank) = some (rank, u32 k.payload 0) := by
  have hnone : y.ends.find? (fun z => z.1 == rank) = none := List.find?_eq_none.mpr (List.any_eq_false.mp h)
  rw [endsWith, List.find?_append, hnone]
  simp

/-- The state with an end marker taken: its sender's unit counted once its packets have come. -/
def settled (s : State) (h : Handle) (f : Folio) (e : ExchEntry) (k : Packet) (re : RoutingEntry) (rank : Nat) (y : ExchRun) : State :=
  if tallied y.packets rank = u32 k.payload 0 then countUnit (ended s h f e k re rank) h k.exch f.step16 else ended s h f e k re rank

theorem runOf_ended (hr : runOf s o.handle = some (o, r)) : runOf (ended s o.handle f e k re rank) o.handle =
    some ({ o with body := .run (withExch r o.handle k.exch f.step16 (endsWith k rank)) },
      withExch r o.handle k.exch f.step16 (endsWith k rank)) := by
  refine (runOf_of_longs ?_ _).trans (runOf_updExch hr)
  rw [ended_frame]

theorem exchRun_endsWith : (withExch r o.handle k.exch f.step16 (endsWith k rank)).exchRun o.handle k.exch f.step16 =
    endsWith k rank (r.exchRun o.handle k.exch f.step16) := exchRun_withExch (fun _ => ⟨rfl, rfl⟩)

theorem settleSender_ended (hr : runOf s o.handle = some (o, r))
    (hfirst : (r.exchRun o.handle k.exch f.step16).ends.any (fun z => z.1 == rank) = false)
    (hc : (r.exchRun o.handle k.exch f.step16).count < exchExpected f e) (stamp : Stamp) :
    settleSender (ended s o.handle f e k re rank) o.handle f stamp k.exch e rank =
      settled s o.handle f e k re rank (r.exchRun o.handle k.exch f.step16) := by
  have hkey := exchRun_endsWith (o := o) (r := r) (k := k) (f := f) (rank := rank)
  have hends := find_endsWith (k := k) hfirst
  rw [← hkey] at hends
  have h := settleSender_of_below (e := e) (runOf_ended (e := e) (re := re) hr) hends (by rw [hkey]; exact hc) stamp
  rw [hkey] at h
  exact h

theorem settled_exchAt (hr : runOf s o.handle = some (o, r)) :
    exchAt (settled s o.handle f e k re rank (r.exchRun o.handle k.exch f.step16)) o.handle k.exch f.step16 =
      some { endsWith k rank (r.exchRun o.handle k.exch f.step16) with
        count := if tallied (r.exchRun o.handle k.exch f.step16).packets rank = u32 k.payload 0 then (r.exchRun o.handle k.exch f.step16).count + 1
          else (r.exchRun o.handle k.exch f.step16).count } := by
  unfold settled
  split
  · refine (exchAt_updExch (g := fun y => { y with count := y.count + 1 }) (runOf_ended hr) (fun _ => ⟨rfl, rfl⟩)).trans ?_
    rw [exchRun_endsWith]
    rfl
  · rw [exchAt, runOf_ended hr, Option.map_some, exchRun_endsWith]
    rfl

theorem settled_ductus (h : Handle) (y : ExchRun) : (settled s h f e k re rank y).ductus = (ended s h f e k re rank).ductus := by
  unfold settled
  split <;> rfl

theorem settled_frame (h : Handle) (y : ExchRun) : settled s h f e k re rank y =
    { s with longs := (settled s h f e k re rank y).longs, ductus := (settled s h f e k re rank y).ductus } := by
  have hframe := ended_frame (s := s) (f := f) (e := e) (k := k) (re := re) (rank := rank) h
  unfold settled
  split
  · unfold countUnit updExch updRun updLong
    rw [hframe]
  · rw [hframe]

theorem ended_ductus_other (h : Handle) {q : Quad} (hq : q ≠ f.gridQuad re.expertGrid) :
    (ended s h f e k re rank).ductus[q] = s.ductus[q] := by
  unfold ended
  split
  · simp [updDuctus, updExch, updRun, updLong, Fin.val_inj, Ne.symm hq]
  · rfl

theorem ended_ductus_bound (h : Handle) (hd : e.dir re = 0) : (ended s h f e k re rank).ductus[f.gridQuad re.expertGrid] =
    bindsSender f k re rank s.ductus[f.gridQuad re.expertGrid] := by
  rw [ended, if_pos hd, updDuctus_same]
  rfl

theorem ended_ductus_unbound (h : Handle) (hd : e.dir re ≠ 0) : (ended s h f e k re rank).ductus = s.ductus := by
  rw [ended, if_neg hd]
  rfl

end

/-! ### A ready marker -/

section
variable {s : State} {i : Nat} {k : Packet} {o : LongOp} {r : Run} {f : Folio} {e : ExchEntry} {rank : Nat}

/-- An exchange with a receiver's ready marker. -/
def marksWith (rank : Nat) (y : ExchRun) : ExchRun := { y with marks := if y.marks.contains rank then y.marks else rank :: y.marks }

/-- The state with a ready marker kept. -/
def marked (s : State) (h : Handle) (f : Folio) (k : Packet) (rank : Nat) : State := updExch s h k.exch f.step16 (marksWith rank)

theorem exchRun_marksWith (hmark : (r.exchRun o.handle k.exch f.step16).marks.contains rank = false) :
    (withExch r o.handle k.exch f.step16 (marksWith rank)).exchRun o.handle k.exch f.step16 =
      { r.exchRun o.handle k.exch f.step16 with marks := rank :: (r.exchRun o.handle k.exch f.step16).marks } := by
  rw [exchRun_withExch (g := marksWith rank) (fun _ => ⟨rfl, rfl⟩), marksWith, if_neg (ne_true_of_eq_false hmark)]

theorem marked_exchAt (hr : runOf s o.handle = some (o, r)) (hmark : (r.exchRun o.handle k.exch f.step16).marks.contains rank = false) :
    exchAt (marked s o.handle f k rank) o.handle k.exch f.step16 =
      some { r.exchRun o.handle k.exch f.step16 with marks := rank :: (r.exchRun o.handle k.exch f.step16).marks } := by
  rw [marked, exchAt, runOf_updExch hr, Option.map_some, exchRun_marksWith hmark]

theorem markArrive_of_run (hn : reshardOf s k.stamp = none) (ht : tableRun s k.stamp = some (o, r, f))
    (hrank : senderRank s o.part f.rank k = some rank) (hstep : k.step = f.step16) :
    markArrive s k = serveReady (marked s o.handle f k rank) o.handle k.exch := by
  rw [markArrive, hn]
  dsimp only
  rw [ht]
  dsimp only
  rw [hrank, hstep]
  rfl

theorem exec_readyMarker_of_taken (ht : takeInbox s i 1 2 = some (k, taken s i)) : exec (.readyMarker i) s = .next (markArrive (taken s i) k) := by
  have hx : exec (.readyMarker i) s = execReadyMarker i s := rfl
  rw [hx, execReadyMarker, ht]

theorem serveReady_of_closed {h : Handle} {x : Nat} (hr : runOf s h = some (o, r)) (hf : folioOf s r.folio = some f)
    (he : f.tables.exchs[x]? = some e) (hc : (r.exchRun h x f.step16).txOpen = false) : serveReady s h x = s := by
  rw [serveReady, hr]
  dsimp only
  rw [hf]
  dsimp only
  rw [he]
  exact if_pos (by rw [hc]; rfl)

theorem serveReady_of_one {h : Handle} {x : Nat} (hr : runOf s h = some (o, r)) (hf : folioOf s r.folio = some f)
    (he : f.tables.exchs[x]? = some e) (hc : (r.exchRun h x f.step16).txOpen = true) (hp : partStopped s o.part = false)
    (hone : exchReceivers f e = [rank]) (hmark : (r.exchRun h x f.step16).marks.contains rank = true)
    (hserved : (r.exchRun h x f.step16).served = []) : serveReady s h x = serveOne s o.part h f x e rank := by
  rw [serveReady, hr]
  dsimp only
  rw [hf]
  dsimp only
  rw [he]
  dsimp only
  rw [hc, hp, if_neg (by decide), hone, List.filter_cons_of_pos (by rw [hmark, hserved]; rfl)]
  rfl

theorem demandOne_of_on {d : Domain} (n : Nat) (h : domainOn s d = true) : demandOne s d n = s := by
  have hstate : s.power.domains[d].state = .on := by simpa [domainOn] using h
  unfold demandOne
  dsimp only
  rw [hstate]

/-- A domain that is ON is not woken. -/
theorem demand_of_on {d : Domain} (n : Nat) (h : domainOn s d = true) : demand s d n = s := by
  unfold demand
  cases domainNeeds d <;> simp [h, demandOne_of_on n h]

theorem foldl_demand_of_on (n : Nat) : ∀ {l : List Domain}, l.all (domainOn s) = true → l.foldl (fun s d => demand s d n) s = s
  | [], _ => rfl
  | d :: l, h => by
    rw [List.all_cons, Bool.and_eq_true] at h
    rw [List.foldl_cons, demand_of_on n h.1]
    exact foldl_demand_of_on n h.2

/-- Packets to the device itself wait in its inbox. -/
def toSelf (s : State) (ps : List Packet) : List Packet := ps.map (fun x => { x with src := s.router.myCoord, dst := s.router.myCoord })

/-- The state with packets to the device itself sent. -/
def sentSelf (s : State) (ps : List Packet) : State := { s with inbox := s.inbox ++ toSelf s ps }

theorem foldl_sendToRank_own {p : Part} {own : Nat} (h : rank = own) : ∀ (ps : List Packet) (s : State),
    ps.foldl (fun s k => sendToRank s p own rank k) s = sentSelf s ps
  | [], s => by simp [sentSelf, toSelf]
  | k :: ps, s => by
    rw [List.foldl_cons, sendToRank_of_own h, foldl_sendToRank_own h ps]
    simp [sentSelf, toSelf]

/-- An exchange with a receiver served. -/
def servesWith (f : Folio) (e : ExchEntry) (rank : Nat) (y : ExchRun) : ExchRun :=
  { y with served := rank :: y.served, drained := (exchReceivers f e).all (fun r => r == rank || y.served.contains r) }

theorem serveOne_of_own {p : Part} {h : Handle} {x : Nat} {ps : List Packet} (hps : servePackets s f (partStamp s p) x e rank = some ps)
    (hd : (tensorIdxDomains s f e.src).all (domainOn s) = true) (hrank : rank = f.rank) : serveOne s p h f x e rank =
    updExch (sentSelf s ps) h x f.step16 (servesWith f e rank) := by
  rw [serveOne, hps]
  dsimp only
  rw [foldl_demand_of_on 4 hd, foldl_sendToRank_own hrank]
  rfl

end

/-! ### The statement -/

/-- Settles O54: each packet of an exchange by what the exchange stands at. -/
theorem exchangePacketsAreTaken : Obligations.ExchangePacketsAreTaken := by
  unfold Obligations.ExchangePacketsAreTaken
  intro s i k o r f e rest y after hr he hstep
  refine ⟨fun ht hn ha hd => ⟨fun m hopen hc hm => ?_, fun hy => ?_⟩, fun re rank ht ha hre hrank hstale hopen hkind hfirst hc => ?_,
    fun rank ht hn hrun hrank hmark hf => ⟨fun hclosed => ?_, fun ps hopen hp hone hserved hown hps hd => ?_⟩⟩
  · have hx := (exec_exchData_of_on ht ha he hd).trans
      (congrArg Host.Outcome.next (exchArrive_of_below (s := taken s i) hn ha he hstep hopen hc hm))
    have hr' : runOf { taken s i with mem := m } o.handle = some (o, r) := hr
    exact ⟨_, hx, rfl, exchAt_updExch (g := fun y => { y with count := y.count + 1 }) hr' (fun _ => ⟨rfl, rfl⟩), rfl⟩
  · exact (exec_exchData_of_on ht ha he hd).trans (congrArg Host.Outcome.next (exchArrive_of_beyond (s := taken s i) hn ha he hy))
  · have hr' : runOf (taken s i) o.handle = some (o, r) := hr
    have harrive := endArrive_of_first (s := taken s i) ha he hre hrank hstale hopen hstep hkind hfirst
    have hx := (exec_endMarker_of_taken ht).trans
      (congrArg Host.Outcome.next (harrive.trans (settleSender_ended (s := taken s i) (re := re) hr' hfirst hc _)))
    have hductus := settled_ductus (s := taken s i) (f := f) (e := e) (k := k) (re := re) (rank := rank) o.handle y
    refine ⟨_, hx, settled_exchAt hr', fun hdir => hductus.trans (ended_ductus_unbound _ hdir), fun q hq => ?_, fun hdir => ?_, settled_frame _ _⟩
    · exact (congrArg (fun d : Vector Ductus 4 => d[q]) hductus).trans (ended_ductus_other _ hq)
    · exact (congrArg (fun d : Vector Ductus 4 => d[f.gridQuad re.expertGrid]) hductus).trans (ended_ductus_bound _ hdir)
  · have hr' : runOf (marked (taken s i) o.handle f k rank) o.handle = _ := runOf_updExch (s := taken s i) hr
    have hclosed' : ((withExch r o.handle k.exch f.step16 (marksWith rank)).exchRun o.handle k.exch f.step16).txOpen = false := by
      rw [exchRun_marksWith hmark]
      exact hclosed
    have hx := (exec_readyMarker_of_taken ht).trans
      (congrArg Host.Outcome.next ((markArrive_of_run (s := taken s i) hn hrun hrank hstep).trans (serveReady_of_closed hr' hf he hclosed')))
    exact ⟨_, hx, marked_exchAt (s := taken s i) hr hmark, rfl⟩
  · have hr' : runOf (marked (taken s i) o.handle f k rank) o.handle = _ := runOf_updExch (s := taken s i) hr
    have hkey := exchRun_marksWith (o := o) (r := r) (k := k) (f := f) hmark
    have hone' := serveReady_of_one (s := marked (taken s i) o.handle f k rank) hr' hf he (by rw [hkey]; exact hopen) hp hone
      (by rw [hkey]; simp) (by rw [hkey]; exact hserved)
    have hserve := serveOne_of_own (s := marked (taken s i) o.handle f k rank) (p := o.part) (h := o.handle) (x := k.exch) hps hd hown
    have hx := (exec_readyMarker_of_taken ht).trans
      (congrArg Host.Outcome.next ((markArrive_of_run (s := taken s i) hn hrun hrank hstep).trans (hone'.trans hserve)))
    have hsent : runOf (sentSelf (marked (taken s i) o.handle f k rank) ps) o.handle = _ := hr'
    refine ⟨_, hx, rfl, (exchAt_updExch (g := servesWith f e rank) hsent (fun _ => ⟨rfl, rfl⟩)).trans ?_, rfl⟩
    rw [hkey, servesWith, hone]
    simp [hserved, y]

end Sys2Proof.Machine
end

section
/-! SUPPORT. Parameter gathers (R259 to R261). -/

namespace Sys2Proof.Machine

/-! ### A request joins the gather queue -/

section
variable {s : State} {i : Nat} {k : Packet}

theorem exec_gatherReq_of_full (h : 16384 ≤ s.gatherQ.length) : exec (.gatherReq i) s = .next s := by
  have hx : exec (.gatherReq i) s = execGatherReq i s := rfl
  rw [hx, execGatherReq, if_pos h]

theorem exec_gatherReq_of_stale (ht : takeInbox s i 0 8 = some (k, taken s i)) (h : s.gatherQ.length < 16384)
    (hp : partOfStamp s k.stamp = none) :
    exec (.gatherReq i) s = .next (replyTo (staleDrop (taken s i) (unitFabric 16) k.stamp) k 1 []) := by
  have hx : exec (.gatherReq i) s = execGatherReq i s := rfl
  have hp' : partOfStamp (taken s i) k.stamp = none := hp
  rw [hx, execGatherReq, if_neg (Nat.not_le.mpr h), ht]
  dsimp only
  rw [hp']

/-- A request of the job of a partition that holds folios: queued when one of them declares the bucket, an error when none does. -/
theorem exec_gatherReq_of_job (ht : takeInbox s i 0 8 = some (k, taken s i)) (h : s.gatherQ.length < 16384) {p : Part}
    (hp : partOfStamp s k.stamp = some p) (hf : s.folios.any (fun f => f.part == p) = true) : exec (.gatherReq i) s =
    .next (if (gatherFolio s k.stamp k.coll.tag).isNone then collError (taken s i) k else { taken s i with gatherQ := s.gatherQ ++ [k] }) := by
  have hx : exec (.gatherReq i) s = execGatherReq i s := rfl
  have hp' : partOfStamp (taken s i) k.stamp = some p := hp
  have hf' : (taken s i).folios.any (fun f => f.part == p) = true := hf
  rw [hx, execGatherReq, if_neg (Nat.not_le.mpr h), ht]
  dsimp only
  rw [hp']
  dsimp only
  rw [hf', if_neg (by decide)]
  rfl

end

/-! ### A queued request is served -/

section
variable {s : State} {i : Nat} {k : Packet} {f : Folio} {t : TRef}

theorem sendBack_of_own {d : Coord} (h : d = s.router.myCoord) (k : Packet) : sendBack s d k = sentSelf s [k] := if_pos h

theorem foldl_sendBack_own {d : Coord} : ∀ (l : List Packet) {s : State}, d = s.router.myCoord →
    l.foldl (fun s r => sendBack s d r) s = sentSelf s l
  | [], s, _ => by simp [sentSelf, toSelf]
  | k :: l, s, h => by
    have hrest := foldl_sendBack_own l (s := sentSelf s [k]) h
    rw [List.foldl_cons, sendBack_of_own h, hrest]
    simp [sentSelf, toSelf]

theorem exec_gatherServe_of_held (hq : s.gatherQ[i]? = some k) (hf : gatherFolio s k.stamp k.coll.tag = some f)
    (ht : gatherSource f k.coll.tag = some t) (h : s.live = false ∨ partStopped s f.part = true ∨ mayServe f k = false) :
    exec (.gatherServe i) s = .next s := by
  have hx : exec (.gatherServe i) s = execGatherServe i s := rfl
  rw [hx, execGatherServe, hq]
  dsimp only
  rw [hf]
  dsimp only
  rw [ht]
  refine congrArg Host.Outcome.next (if_pos ?_)
  rcases h with h | h | h <;> simp [h]

/-- A request taken from the gather queue. -/
def unqueued (s : State) (i : Nat) : State := { s with gatherQ := removeAt s.gatherQ i }

theorem exec_gatherServe_of_may (hq : s.gatherQ[i]? = some k) (hf : gatherFolio s k.stamp k.coll.tag = some f)
    (ht : gatherSource f k.coll.tag = some t) (hl : s.live = true) (hp : partStopped s f.part = false) (hm : mayServe f k = true)
    (hd : (tensorDomains s f t).all (domainOn s) = true) (hpoison : tensorPoisoned s.mem t = false) :
    exec (.gatherServe i) s = .next (serveGather (unqueued s i) f t k) := by
  have hx : exec (.gatherServe i) s = execGatherServe i s := rfl
  rw [hx, execGatherServe, hq]
  dsimp only
  rw [hf]
  dsimp only
  rw [ht]
  dsimp only
  rw [hl, hp, hm, if_neg (by decide), needing_of_on hd, hpoison, if_neg (by decide)]
  rfl

/-- A folio with one more service of a request's key. -/
def servedAt (f : Folio) (key : Nat × Nat) (f' : Folio) : Folio :=
  { f' with gatherServed := tallySet f'.gatherServed key (tallyGet f.gatherServed key + 1) }

theorem servedAt_count (f : Folio) (key : Nat × Nat) : tallyGet (servedAt f key f).gatherServed key = tallyGet f.gatherServed key + 1 :=
  tallyGet_tallySet f.gatherServed key (tallyGet f.gatherServed key + 1)

/-- The key of a request by its sender's rank. -/
def requestKey (s : State) (f : Folio) (k : Packet) : Nat × Nat := gatherKey k ((senderRank s f.part f.rank k).getD f.rank)

/-- The parameters sent to the device itself and the service counted. -/
def parametersSent (s : State) (f : Folio) (t : TRef) (k : Packet) : State :=
  updFolio (sentSelf s (gatherReplies s.mem t k)) f.handle (servedAt f (requestKey s f k))

/-- Serving a request of the device itself; the margin that the first own service counts is a matter of the run (R262). -/
theorem serveGather_of_own (h : k.src = s.router.myCoord) :
    serveGather s f t k = { parametersSent s f t k with longs := (serveGather s f t k).longs } := by
  unfold serveGather
  dsimp only
  rw [foldl_sendBack_own _ h]
  split
  · split
    · rw [countMarg_frame]
      rfl
    · rfl
  · rfl

theorem parametersSent_frame : parametersSent s f t k =
    { s with inbox := s.inbox ++ toSelf s (gatherReplies s.mem t k), folios := (parametersSent s f t k).folios } := rfl

theorem parametersSent_folioOf (hf : folioOf s f.handle = some f) : folioOf (parametersSent s f t k) f.handle =
    some (servedAt f (requestKey s f k) f) :=
  updFolio_folioOf (s := sentSelf s (gatherReplies s.mem t k)) (servedAt f (requestKey s f k)) (fun _ => rfl) hf

/-- What serving a request of the device itself leaves. -/
theorem serveGather_spec (h : k.src = s.router.myCoord) (hf : folioOf s f.handle = some f) :
    (serveGather (unqueued s i) f t k).gatherQ = removeAt s.gatherQ i ∧
    (serveGather (unqueued s i) f t k).inbox = s.inbox ++ toSelf s (gatherReplies s.mem t k) ∧
    (∃ g, folioOf (serveGather (unqueued s i) f t k) f.handle = some g ∧
      tallyGet g.gatherServed (requestKey s f k) = tallyGet f.gatherServed (requestKey s f k) + 1) ∧
    serveGather (unqueued s i) f t k = { s with
      gatherQ := (serveGather (unqueued s i) f t k).gatherQ, folios := (serveGather (unqueued s i) f t k).folios,
      longs := (serveGather (unqueued s i) f t k).longs, inbox := (serveGather (unqueued s i) f t k).inbox } := by
  have hframe := serveGather_of_own (s := unqueued s i) (f := f) (t := t) h
  generalize serveGather (unqueued s i) f t k = u at hframe ⊢
  refine ⟨by rw [hframe]; rfl, by rw [hframe, parametersSent_frame]; rfl, ⟨servedAt f (requestKey s f k) f, ?_, servedAt_count _ _⟩,
    by rw [hframe, parametersSent_frame]; rfl⟩
  have hfolio := parametersSent_folioOf (s := unqueued s i) (t := t) (k := k) hf
  unfold folioOf at hfolio ⊢
  rw [hframe]
  exact hfolio

end

/-! ### A consumer asks on -/

section
variable {s0 u : State} {h : Handle} {x : Nat} {p : Part} {f : Folio} {b : BucketEntry} {e : ExchEntry} {own : Nat} {y : ExchRun} {r0 : Run}

theorem tells.longs_eq {s t : State} (h : tells s t) : t.longs = s.longs := by rw [h]

/-- What a chain of requests keeps of a consumer's exchange: its units, its run's folio and its partition; the rest is told only. -/
def asking (s0 : State) (h : Handle) (x step : Nat) (y : ExchRun) (r0 : Run) (p : Part) (u : State) : Prop :=
  ∃ o r, runOf u h = some (o, r) ∧ (r.exchRun h x step).count = y.count ∧ (r.exchRun h x step).units = y.units ∧ r.folio = r0.folio ∧
    o.part = p ∧ tells { s0 with longs := u.longs } u

/-- The rank that a contributor's shard is asked from can be reached. -/
def reaches (s0 : State) (p : Part) (f : Folio) (b : BucketEntry) (own : Nat) : Prop :=
  contributorRank f b own = f.rank ∨ bit (coordMapEntry s0.router p (contributorRank f b own)) 15 = true

/-- An exchange that has asked for payloads of a shard. -/
def asksFor (own n : Nat) (y : ExchRun) : ExchRun := { y with gathers := (own, n, 0) :: y.gathers.filter (fun g => g.1 != own) }

theorem tells.of_asked {v w : State} (hu : tells { s0 with longs := u.longs } u) (hv : v = { u with longs := v.longs }) (hw : tells v w) :
    tells { s0 with longs := w.longs } w := by
  have hlongs : w.longs = v.longs := hw.longs_eq
  unfold tells at *
  rw [hw, hv, hu]

theorem tells.coordMap_eq {L : List LongOp} (h : tells { s0 with longs := L } u) (q : Part) (n : Nat) :
    coordMapEntry u.router q n = coordMapEntry s0.router q n := by
  rw [h]
  rfl

theorem askOne_asking (hm : reaches s0 p f b own) (hu : asking s0 h x f.step16 y r0 p u) :
    asking s0 h x f.step16 y r0 p (askOne p h f b x e own u) := by
  obtain ⟨o, r, hr, hcount, hunits, hfolio, hpart, htells⟩ := hu
  unfold askOne
  rw [hr]
  dsimp only
  split
  · exact ⟨o, r, hr, hcount, hunits, hfolio, hpart, htells⟩
  · have hreach : contributorRank f b own = f.rank ∨ bit (coordMapEntry u.router p (contributorRank f b own)) 15 = true := by
      rw [htells.coordMap_eq]
      exact hm
    generalize nextAsk (r.exchRun h x f.step16) own + min 128 (gatherPayloads f e - nextAsk (r.exchRun h x f.step16) own) = n
    generalize mkPacket 0 8 4 0 0 (partStamp u p) 0 _ _ = pkt
    have hsent := sendToRank_tells (u := updExch u h x f.step16 (asksFor own n)) (p := p) (k := pkt) hreach
    have hkey := exchRun_withExch (r := r) (h := h) (x := x) (step := f.step16) (g := asksFor own n) (fun _ => ⟨rfl, rfl⟩)
    refine ⟨_, _, (runOf_of_longs hsent.longs_eq h).trans (runOf_updExch hr), ?_, ?_, hfolio, hpart, tells.of_asked htells rfl hsent⟩
    · rw [hkey]
      exact hcount
    · rw [hkey]
      exact hunits

theorem askGathers_asking (hf : folioOf s0 r0.folio = some f) (he : f.tables.exchs[x]? = some e)
    (hm : ∀ b n, f.tables.bucket? e.ref = some b → reaches s0 p f b n) (hu : asking s0 h x f.step16 y r0 p u) :
    asking s0 h x f.step16 y r0 p (askGathers u h x) := by
  obtain ⟨o, r, hr, -, -, hfolio, hpart, htells⟩ := id hu
  have hf' : folioOf u r.folio = some f := by
    rw [hfolio, ← hf, htells]
    rfl
  rw [askGathers, hr]
  dsimp only
  rw [hf']
  dsimp only
  rw [he]
  dsimp only
  cases hb : f.tables.bucket? e.ref with
  | none => exact hu
  | some b =>
    dsimp only
    rw [hpart]
    split
    · exact hu
    · refine List.foldlRecOn _ _ hu (fun v hv own _ => ?_)
      exact List.foldlRecOn _ _ hv (fun w hw _ _ => askOne_asking (hm b own hb) hw)

end

/-! ### A stored payload arrives -/

section
variable {s : State} {i : Nat} {k : Packet} {o : LongOp} {r : Run} {f : Folio} {x : Nat} {e : ExchEntry} {a d : TRef}

theorem runOfStamp_folio {st : Stamp} (h : runOfStamp s st = some (o, r, f)) : folioOf s r.folio = some f := by
  obtain ⟨o', -, ho⟩ := List.mem_filterMap.mp (List.mem_of_find?_eq_some h)
  split at ho
  · split at ho
    · next r' _ _ =>
      obtain ⟨f', hf', heq⟩ := Option.map_eq_some_iff.mp ho
      injection heq with _ hrest
      injection hrest with hrun hfolio
      subst hrun hfolio
      exact hf'
    · cases ho
  · cases ho

/-- The exchange that a payload belongs to is in its folio's table. -/
theorem gatherTarget_mem {h : Handle} (ht : gatherTarget f h r k = some (x, e)) : f.tables.exchs[x]? = some e := by
  obtain ⟨z, hz, heq⟩ := Option.map_eq_some_iff.mp ht
  injection heq with hidx hentry
  subst hidx hentry
  exact List.mem_zipIdx_iff_getElem?.mp (List.mem_of_find?_eq_some hz)

theorem tells.of_stored {u : State} {m : Memory} {l : List LongOp} (h : tells { s with mem := m, longs := l } u) :
    tells { s with mem := u.mem, longs := l } u := by
  have hmem : u.mem = m := h.mem_eq
  rw [hmem]
  exact h

theorem exec_gatherData_of_on (ht : takeInbox s i 1 5 = some (k, taken s i)) (hd : (gatherDomains s k).all (domainOn s) = true) :
    exec (.gatherData i) s = .next (gatherArrive (taken s i) k) := by
  have hx : exec (.gatherData i) s = execGatherData i s := rfl
  rw [hx, execGatherData, ht]
  dsimp only
  rw [needing_of_on hd]

theorem gatherArrive_of_otherStep (hr : runOfStamp s k.stamp = some (o, r, f)) (hb : (f.tables.bucket? k.coll.tag).isSome = true)
    (hs : k.coll.step ≠ f.step16) : gatherArrive s k = bump s 4 0 1 := by
  rw [gatherArrive, hr]
  dsimp only
  rw [if_neg (ne_true_of_eq_false (Option.isNone_eq_false_iff.mpr hb)), if_pos hs]

/-- An exchange with a payload of a shard counted. -/
def countsPayload (k : Packet) (y : ExchRun) : ExchRun := { y with units := (k.coll.shard, k.coll.seg) :: y.units, count := y.count + 1 }

/-- Memory with a payload of a shard at its place. -/
def payloadStored (m : Memory) (k : Packet) (a d : TRef) : Memory :=
  wireStore m d (k.coll.shard * a.entry.elems) a.entry.elems (512 * k.coll.seg) k.payload

theorem gatherArrive_of_below (hr : runOfStamp s k.stamp = some (o, r, f)) (hb : (f.tables.bucket? k.coll.tag).isSome = true)
    (hs : k.coll.step = f.step16) (hx : gatherTarget f o.handle r k = some (x, e)) (ha : f.tensor e.src = some a) (hd : f.tensor e.dst = some d)
    (hc : (r.exchRun o.handle x f.step16).count < exchExpected f e) : gatherArrive s k =
    askGathers (updExch { s with mem := payloadStored s.mem k a d } o.handle x f.step16 (countsPayload k)) o.handle x := by
  rw [gatherArrive, hr]
  dsimp only
  rw [if_neg (ne_true_of_eq_false (Option.isNone_eq_false_iff.mpr hb)), if_neg (by simp [hs]), hx]
  dsimp only
  rw [ha, hd]
  dsimp only
  rw [if_neg (Nat.not_le.mpr hc)]
  rfl

/-- What a payload that is taken leaves. -/
theorem payload_asking {s0 : State} {p : Part} (hr : runOf s0 o.handle = some (o, r)) (hp : o.part = p) :
    asking s0 o.handle x f.step16 (countsPayload k (r.exchRun o.handle x f.step16)) r p (updExch s0 o.handle x f.step16 (countsPayload k)) := by
  have hkey := exchRun_withExch (r := r) (h := o.handle) (x := x) (step := f.step16) (g := countsPayload k) (fun _ => ⟨rfl, rfl⟩)
  exact ⟨_, _, runOf_updExch hr, congrArg ExchRun.count hkey, congrArg ExchRun.units hkey, rfl, hp, rfl⟩

end

/-! ### The statement -/

/-- Settles O55: a request is queued, refused or served; a payload is stored and its consumer asks on. -/
theorem gathersAreServed : Obligations.GathersAreServed := by
  unfold Obligations.GathersAreServed
  intro s i k
  refine ⟨fun ht => ⟨exec_gatherReq_of_full, fun hq => ⟨fun p hp hf => ⟨fun hg => ?_, fun hg => ?_⟩, exec_gatherReq_of_stale ht hq⟩⟩,
    fun f t hq hf ht => ⟨exec_gatherServe_of_held hq hf ht, fun hl hp hm hd hpoison hfolio hsrc => ?_⟩,
    fun o r f x e a d ht hstamp hr hb => ⟨fun hs hx => ?_, fun hs hx ha hd hon hc hm => ?_⟩⟩
  · refine (exec_gatherReq_of_job ht hq hp hf).trans (congrArg Host.Outcome.next (if_neg ?_))
    exact ne_true_of_eq_false (Option.isNone_eq_false_iff.mpr hg)
  · exact (exec_gatherReq_of_job ht hq hp hf).trans (congrArg Host.Outcome.next (if_pos (by rw [hg]; rfl)))
  · exact ⟨_, exec_gatherServe_of_may hq hf ht hl hp hm hd hpoison, serveGather_spec hsrc hfolio⟩
  · have hdomains : gatherDomains s k = [] := by
      rw [gatherDomains, hstamp]
      dsimp only
      rw [hx]
    exact (exec_gatherData_of_on ht (by rw [hdomains]; rfl)).trans
      (congrArg Host.Outcome.next (gatherArrive_of_otherStep (s := taken s i) hstamp hb hs))
  · have hdomains : gatherDomains s k = tensorIdxDomains s f e.dst := by
      rw [gatherDomains, hstamp]
      dsimp only
      rw [hx]
    have hact := (exec_gatherData_of_on ht (by rw [hdomains]; exact hon)).trans
      (congrArg Host.Outcome.next (gatherArrive_of_below (s := taken s i) hstamp hb hs hx ha hd hc))
    have hfirst := payload_asking (s0 := { taken s i with mem := payloadStored s.mem k a d }) (x := x) (f := f) (k := k) hr rfl
    obtain ⟨o', r', hr', hcount, hunits, -, -, htells⟩ := askGathers_asking (s0 := { taken s i with mem := payloadStored s.mem k a d })
      (runOfStamp_folio hstamp) (gatherTarget_mem hx) hm hfirst
    exact ⟨_, hact, htells.mem_eq, ⟨o', r', hr', hcount, hunits⟩, tells.of_stored htells⟩

end Sys2Proof.Machine
end

section
/-! SUPPORT. Routed rows and the drain of dead generations (R209, R211, R214, R223 to R225, R527). -/

namespace Sys2Proof.Machine

theorem updDuctus_other (s : State) {p q : Quad} (f : Ductus → Ductus) (h : p ≠ q) : (updDuctus s q f).ductus[p] = s.ductus[p] := by
  have hne : ¬((q : Nat) = (p : Nat)) := fun k => h (Fin.ext k.symm)
  simp [updDuctus, Vector.getElem_set_ne _ _ hne]

/-! ### A packet of a row is counted -/

section
variable {s : State} {h : Handle} {o : LongOp} {r : Run} {f : Folio} {x rank : Nat} {e : ExchEntry}

/-- An exchange with one more packet of a sender. -/
def countsPacketOf (rank : Nat) (y : ExchRun) : ExchRun := { y with packets := raise y.packets rank }

theorem settleSender_of_unended (hr : runOf s h = some (o, r)) (hn : (r.exchRun h x f.step16).ends.find? (fun k => k.1 == rank) = none)
    (stamp : Stamp) : settleSender s h f stamp x e rank = s := by
  rw [settleSender, hr]
  dsimp only
  rw [hn]

/-- A packet before its sender's end marker is only counted. -/
theorem countPacket_of_unended (hr : runOf s h = some (o, r)) (he : f.tables.exchs[x]? = some e)
    (hn : (r.exchRun h x f.step16).ends.any (fun z => z.1 == rank) = false) (stamp : Stamp) :
    countPacket s h f stamp x rank = updExch s h x f.step16 (countsPacketOf rank) := by
  have hkey := exchRun_withExch (r := r) (h := h) (x := x) (step := f.step16) (g := countsPacketOf rank) (fun _ => ⟨rfl, rfl⟩)
  have hends : ((withExch r h x f.step16 (countsPacketOf rank)).exchRun h x f.step16).ends.find? (fun k => k.1 == rank) = none := by
    rw [hkey]
    exact List.find?_eq_none.mpr (List.any_eq_false.mp hn)
  rw [countPacket, he]
  exact settleSender_of_unended (runOf_updExch (g := countsPacketOf rank) hr) hends stamp

end

/-! ### A row -/

section
variable {s : State} {i : Nat} {k : Packet} {o : LongOp} {r : Run} {f : Folio} {re : RoutingEntry} {x : TRef} {ex : Nat} {e : ExchEntry}

theorem exec_routedData_of_on (ht : takeInbox s i 0 5 = some (k, taken s i)) (hd : (rowDomains s k).all (domainOn s) = true) :
    exec (.routedData i) s = .next (routedArrive (taken s i) k) := by
  have hx : exec (.routedData i) s = execRoutedData i s := rfl
  rw [hx, execRoutedData, ht]
  dsimp only
  rw [needing_of_on hd]

theorem routedArrive_of_run (ha : runAt s k = some (o, r, f)) (hre : f.tables.routing[(tagOf k.body).routing]? = some re) :
    routedArrive s k = if (tagOf k.body).rsvd ≠ 0 then badRow s k (tagOf k.body)
      else if (tagOf k.body).dir % 2 = 0 then expertRow s o r f re k (tagOf k.body) k.body
      else sourceRow s o r f re k (tagOf k.body) k.body := by
  rw [routedArrive, ha]
  dsimp only
  rw [hre]

theorem sourceRow_of_stale {t : Tag} {w : BitVec 128}
    (hg : s.ductus[quadN k.dstUnit.toNat].gens.find? (fun g => g.gen.toNat == t.gen && g.state.isLive) = none) :
    sourceRow s o r f re k t w = staleReturn s (quadN k.dstUnit.toNat) w := by
  rw [sourceRow, hg]

/-- The state with a packet of a return written, before it is counted. -/
def returnWritten (s : State) (re : RoutingEntry) (k : Packet) (t : Tag) (x : TRef) : State :=
  { s with mem := writeRowPart s.mem x (t.token * re.k + t.kSlot) k }

/-- A return of a live generation that passes the checks of R214. -/
theorem sourceRow_of_good {t : Tag} {w : BitVec 128} {g : Generation}
    (hg : s.ductus[quadN k.dstUnit.toNat].gens.find? (fun g => g.gen.toNat == t.gen && g.state.isLive) = some g)
    (hex : f.tables.batchExch t.routing g.op t.dir = some ex) (hx : f.tensor (if t.dir = 1 then re.answers else re.returns) = some x)
    (hfolio : g.folio = f.handle) (hrouting : g.routing = t.routing) (hledger : ledgerOk g re t = true) (hpart : partOk k (rowLen x) = true)
    (hopen : (r.exchRun o.handle ex f.step16).rxOpen = true) : sourceRow s o r f re k t w =
    countPacket (returnWritten s re k t x) o.handle f k.stamp ex t.dstRank := by
  rw [sourceRow, hg]
  dsimp only
  rw [hex, hx]
  exact if_pos (by rw [hfolio, hrouting, hledger, hpart, hopen]; simp)

/-- The place of a row in the slots of its expert (R211). -/
def slotRow (f : Folio) (re : RoutingEntry) (t : Tag) : Nat := t.expert % max (f.tables.expertsLocal re) 1 * f.tables.capacity re + t.slot

/-- A receive table after a packet of a row. -/
def tableNext (f : Folio) (re : RoutingEntry) (k : Packet) (t : Tag) (x : TRef) (rt : RecvTable) : RecvTable :=
  tableAfter rt t k.body (f.tables.posOn re.cut (coordOfRank f.box t.srcRank)) (slotRow f re t) (ceilDiv (rowLen x) 512)

/-- A receive engine after a packet of a row of the first direction. -/
def engineNext (f : Folio) (re : RoutingEntry) (k : Packet) (t : Tag) (x : TRef) (rt : RecvTable) (d : Ductus) : Ductus :=
  { d with tables := updFirst (fun y => y == rt) (fun _ => tableNext f re k t x rt) d.tables,
           visited := if (tableNext f re k t x rt).occupied.length = rt.occupied.length then d.visited
             else setVisited d.visited (f.handle, t.routing, t.expert % max (f.tables.expertsLocal re) 1) }

/-- The state with a packet of a row at an expert written, before it is counted. -/
def rowWritten (s : State) (f : Folio) (re : RoutingEntry) (k : Packet) (t : Tag) (x : TRef) (rt : RecvTable) : State :=
  if t.dir = 0 then
    updDuctus { s with mem := writeRowPart s.mem x (slotRow f re t) k } (quadN k.dstUnit.toNat) (engineNext f re k t x rt)
  else { s with mem := writeRowPart s.mem x (slotRow f re t) k }

theorem rowWritten_frame (t : Tag) (rt : RecvTable) : rowWritten s f re k t x rt =
    { s with mem := writeRowPart s.mem x (slotRow f re t) k, ductus := (rowWritten s f re k t x rt).ductus } := by
  unfold rowWritten
  split <;> rfl

/-- A row at an expert that passes the checks of R211. -/
theorem expertRow_of_good {t : Tag} {rt : RecvTable}
    (hst : selectTable s.ductus[quadN k.dstUnit.toNat] f.handle t (f.tables.posOn re.cut (coordOfRank f.box t.srcRank)) = some rt)
    (hx : f.tensor (if t.dir = 0 then re.slotIn else re.slotDout) = some x)
    (hex : (if t.dir = 0 then some rt.exch else f.tables.batchExch t.routing rt.batch 2) = some ex) (hrow : rowOk f re rt t = true)
    (hpart : partOk k (rowLen x) = true) (hopen : (r.exchRun o.handle ex f.step16).rxOpen = true) :
    expertRow s o r f re k t k.body = countPacket (rowWritten s f re k t x rt) o.handle f k.stamp ex t.srcRank := by
  rw [expertRow, hst, hx]
  dsimp only
  rw [hex]
  dsimp only
  rw [hrow, hpart, hopen, if_neg (by decide)]
  rfl

theorem rowWritten_ductus_same {t : Tag} (hd : t.dir = 0) (rt : RecvTable) :
    (rowWritten s f re k t x rt).ductus[quadN k.dstUnit.toNat] = engineNext f re k t x rt s.ductus[quadN k.dstUnit.toNat] := by
  rw [rowWritten, if_pos hd, updDuctus_same]

theorem rowWritten_ductus_kept {t : Tag} (hd : t.dir ≠ 0) (rt : RecvTable) : (rowWritten s f re k t x rt).ductus = s.ductus := by
  rw [rowWritten, if_neg hd]

theorem rowWritten_ductus_other {t : Tag} (rt : RecvTable) {p : Quad} (hp : p ≠ quadN k.dstUnit.toNat) :
    (rowWritten s f re k t x rt).ductus[p] = s.ductus[p] := by
  unfold rowWritten
  split
  · exact updDuctus_other _ _ hp
  · rfl

/-- What a packet that is counted leaves of a state in which its row was written. -/
theorem countPacket_written {t : Tag} {rt : RecvTable} (hr : runOf s o.handle = some (o, r)) (he : f.tables.exchs[ex]? = some e)
    (hn : (r.exchRun o.handle ex f.step16).ends.any (fun z => z.1 == t.srcRank) = false) :
    let u := countPacket (rowWritten s f re k t x rt) o.handle f k.stamp ex t.srcRank
    u.mem = writeRowPart s.mem x (slotRow f re t) k ∧
      exchAt u o.handle ex f.step16 = some (countsPacketOf t.srcRank (r.exchRun o.handle ex f.step16)) ∧
      u.ductus = (rowWritten s f re k t x rt).ductus ∧ u = { s with mem := u.mem, longs := u.longs, ductus := u.ductus } := by
  have hframe := rowWritten_frame (s := s) (f := f) (re := re) (k := k) (x := x) t rt
  have hr' : runOf (rowWritten s f re k t x rt) o.handle = some (o, r) := (runOf_of_longs (by rw [hframe]) _).trans hr
  rw [countPacket_of_unended hr' he hn]
  refine ⟨?_, exchAt_updExch (g := countsPacketOf t.srcRank) hr' (fun _ => ⟨rfl, rfl⟩), rfl, ?_⟩
  · unfold updExch updRun updLong
    rw [hframe]
  · unfold updExch updRun updLong
    rw [hframe]

end

/-! ### Drains -/

section
variable {s : State} {i n : Nat} {k : Packet} {d : Quad}

/-- An engine that holds a drain marker (R224). -/
def holdsDrain (k : Packet) (d : Ductus) : Ductus := { d with drains := d.drains ++ [{ packet := k }] }

theorem exec_ductusDrain_of_taken (ht : takeInbox s i 0 7 = some (k, taken s i)) :
    exec (.ductusDrain i) s = .next (updDuctus (taken s i) (quadN k.dstUnit.toNat) (holdsDrain k)) := by
  have hx : exec (.ductusDrain i) s = execDuctusDrain i s := rfl
  rw [hx, execDuctusDrain, ht]
  rfl

/-- An engine without one of its drain markers. -/
def drainGone (n : Nat) (d : Ductus) : Ductus := { d with drains := removeAt d.drains n }

/-- The acknowledgement of a drain marker. -/
def drainAck (k : Packet) : Packet := mkPacket 1 4 k.srcQuad 0 0 k.stamp 0 k.body.toNat []

theorem exec_drainAckReturn_of_done (hh : heldDrain s i = some (d, n, k)) (hl : s.live = true) (hc : tableCarries s k = false)
    (ha : returnsAcked s k.src k.gen k.srcQuad = true) :
    exec (.ductusDrainAckReturn i) s = .next (sendBack (updDuctus s d (drainGone n)) k.src (drainAck k)) := by
  have hx : exec (.ductusDrainAckReturn i) s = execDuctusDrainAckReturn i s := rfl
  rw [hx, execDuctusDrainAckReturn, hh]
  dsimp only
  rw [hl, hc, ha, if_pos (by decide)]
  rfl

theorem exec_drainAckReturn_of_waiting (hh : heldDrain s i = some (d, n, k))
    (h : s.live = false ∨ tableCarries s k = true ∨ returnsAcked s k.src k.gen k.srcQuad = false) :
    exec (.ductusDrainAckReturn i) s = .next s := by
  have hx : exec (.ductusDrainAckReturn i) s = execDuctusDrainAckReturn i s := rfl
  rw [hx, execDuctusDrainAckReturn, hh]
  refine congrArg Host.Outcome.next (if_neg ?_)
  rcases h with h | h | h <;> simp [h]

/-- A packet sent back goes to the inbox of the device itself or to its injection queue. -/
theorem sendBack_spec (s : State) (dest : Coord) (pkt : Packet) :
    (∃ a : Packet, a = { pkt with src := s.router.myCoord, dst := dest } ∧
      (dest = s.router.myCoord → (sendBack s dest pkt).inbox = s.inbox ++ [a] ∧ (sendBack s dest pkt).router = s.router) ∧
      (dest ≠ s.router.myCoord → (sendBack s dest pkt).inbox = s.inbox ∧
        (sendBack s dest pkt).router = { s.router with injectQ := s.router.injectQ ++ [a] })) ∧
    sendBack s dest pkt = { s with inbox := (sendBack s dest pkt).inbox, router := (sendBack s dest pkt).router } := by
  by_cases hown : dest = s.router.myCoord
  · rw [sendBack_of_own hown]
    exact ⟨⟨_, rfl, fun _ => ⟨by rw [hown]; rfl, rfl⟩, fun h => absurd hown h⟩, rfl⟩
  · have hsent : sendBack s dest pkt =
        updRouter s (fun r => { r with injectQ := r.injectQ ++ [{ pkt with src := s.router.myCoord, dst := dest }] }) :=
      (if_neg hown).trans (if_neg hown)
    rw [hsent]
    exact ⟨⟨_, rfl, fun h => absurd h hown, fun _ => ⟨rfl, rfl⟩⟩, rfl⟩

/-- What the acknowledgement of a drain marker leaves. -/
theorem drainAcked_spec (s : State) (d : Quad) (n : Nat) (k : Packet) :
    let u := sendBack (updDuctus s d (drainGone n)) k.src (drainAck k)
    u.ductus[d] = { s.ductus[d] with drains := removeAt s.ductus[d].drains n } ∧ (∀ p, p ≠ d → u.ductus[p] = s.ductus[p]) ∧
    (∃ a : Packet, a = { drainAck k with src := s.router.myCoord, dst := k.src } ∧
      (k.src = s.router.myCoord → u.inbox = s.inbox ++ [a] ∧ u.router = s.router) ∧
      (k.src ≠ s.router.myCoord → u.inbox = s.inbox ∧ u.router = { s.router with injectQ := s.router.injectQ ++ [a] })) ∧
    u = { s with ductus := u.ductus, inbox := u.inbox, router := u.router } := by
  obtain ⟨hack, hframe⟩ := sendBack_spec (updDuctus s d (drainGone n)) k.src (drainAck k)
  intro u
  have hductus := congrArg State.ductus hframe
  refine ⟨?_, fun p hp => ?_, hack, ?_⟩
  · exact (congrArg (fun v : Vector Ductus 4 => v[d]) hductus).trans (updDuctus_same s d (drainGone n))
  · exact (congrArg (fun v : Vector Ductus 4 => v[p]) hductus).trans (updDuctus_other s (drainGone n) hp)
  · exact hframe.trans (congrArg (fun v => { s with ductus := v, inbox := u.inbox, router := u.router }) hductus.symm)

/-- The ranks that still owe a generation their acknowledgement after one has come. -/
def owing (g : Generation) (rank : Nat) : List (Nat × Nat) := g.drains.filter (fun d => d.1 != rank)

theorem owing_isEmpty (g : Generation) (rank : Nat) : (owing g rank).isEmpty = g.drains.all (fun d => d.1 == rank) := by
  rw [Bool.eq_iff_iff, List.isEmpty_iff, owing, List.filter_eq_nil_iff, List.all_eq_true]
  simp [bne]

/-- The generations of an engine after a rank's acknowledgement: the last one frees it (R223). -/
def acknowledged (g : Generation) (rank : Nat) (d : Ductus) : Ductus :=
  { d with gens := if (owing g rank).isEmpty then d.gens.filter (fun x => x.gen != g.gen)
                   else updFirst (fun x => x.gen == g.gen) (fun x => { x with drains := owing g rank }) d.gens }

/-- A dead generation that a drain's acknowledgement names. -/
def deadOf (k : Packet) (g : Generation) : Bool := g.gen.toNat == k.gen && g.state == .dead && g.stamp == k.stamp

theorem exec_drainAck_of_unknown (ht : takeInbox s i 1 4 = some (k, taken s i))
    (hg : s.ductus[quadN k.dstUnit.toNat].gens.find? (deadOf k) = none) :
    exec (.ductusDrainAck i) s = .next (staleDrop (taken s i) (unitQuad (quadN k.dstUnit.toNat).val 1) k.stamp) := by
  have hx : exec (.ductusDrainAck i) s = execDuctusDrainAck i s := rfl
  have hg' : (taken s i).ductus[quadN k.dstUnit.toNat].gens.find? (fun g => g.gen.toNat == k.gen && g.state == .dead && g.stamp == k.stamp) = none :=
    hg
  rw [hx, execDuctusDrainAck, ht]
  dsimp only
  rw [hg']

theorem exec_drainAck_of_dead (ht : takeInbox s i 1 4 = some (k, taken s i)) {g : Generation} {rank : Nat}
    (hg : s.ductus[quadN k.dstUnit.toNat].gens.find? (deadOf k) = some g) (hr : ackRank s g.folio k = some rank) :
    exec (.ductusDrainAck i) s = .next (updDuctus (taken s i) (quadN k.dstUnit.toNat) (acknowledged g rank)) := by
  have hx : exec (.ductusDrainAck i) s = execDuctusDrainAck i s := rfl
  have hg' : (taken s i).ductus[quadN k.dstUnit.toNat].gens.find?
      (fun g => g.gen.toNat == k.gen && g.state == .dead && g.stamp == k.stamp) = some g := hg
  have hr' : ackRank (taken s i) g.folio k = some rank := hr
  rw [hx, execDuctusDrainAck, ht]
  dsimp only
  rw [hg']
  dsimp only
  rw [hr']
  rfl

end

/-! ### The statement -/

/-- Settles O56: a row by its tag's direction and checks, a drain marker by what it still waits for. -/
theorem rowsAndDrainsAreTaken : Obligations.RowsAndDrainsAreTaken := by
  unfold Obligations.RowsAndDrainsAreTaken
  intro s i k o r f re x ex e
  refine ⟨fun ht ha hr hre hd => ?_, fun ht => ?_, fun d n hh => ⟨fun hl hc hacked => ?_, fun hwait => ?_⟩,
    fun ht => ⟨fun hg => ?_, fun g rank hg hrank => ?_⟩⟩
  · have hx := (exec_routedData_of_on ht hd).trans (congrArg Host.Outcome.next (routedArrive_of_run (s := taken s i) ha hre))
    have hr' : runOf (taken s i) o.handle = some (o, r) := hr
    refine ⟨fun hrsvd => ?_, fun hrsvd hdir hg => ?_, fun hrsvd hpart hopen he => ⟨fun g hdir hg hex htensor hfolio hrouting hledger hn => ?_,
      fun rt hdir hst htensor hex hrow hn => ?_⟩⟩
    · exact hx.trans (congrArg Host.Outcome.next (if_pos hrsvd))
    · rw [if_neg (not_not.mpr hrsvd), if_neg (by rw [hdir]; decide), sourceRow_of_stale (s := taken s i) hg] at hx
      exact hx
    · have hr'' : runOf (returnWritten (taken s i) re k (tagOf k.body) x) o.handle = some (o, r) := hr
      have hrow := sourceRow_of_good (s := taken s i) (o := o) (r := r) (w := k.body) hg hex htensor hfolio hrouting hledger hpart hopen
      rw [countPacket_of_unended hr'' he hn] at hrow
      rw [if_neg (not_not.mpr hrsvd), if_neg (by rw [hdir]; decide), hrow] at hx
      exact ⟨_, hx, rfl, exchAt_updExch (g := countsPacketOf (tagOf k.body).dstRank) hr'' (fun _ => ⟨rfl, rfl⟩), rfl⟩
    · rw [if_neg (not_not.mpr hrsvd), if_pos hdir, expertRow_of_good (s := taken s i) hst htensor hex hrow hpart hopen] at hx
      obtain ⟨hmem, hexch, hductus, hframe⟩ := countPacket_written (k := k) (re := re) (x := x) (rt := rt) hr' he hn
      refine ⟨_, hx, hmem, hexch, fun hd0 => hductus.trans (rowWritten_ductus_kept (s := taken s i) hd0 rt), fun hd0 => ?_,
        fun p hp => ?_, hframe⟩
      · have hengine := (congrArg (fun v : Vector Ductus 4 => v[quadN k.dstUnit.toNat]) hductus).trans
          (rowWritten_ductus_same (s := taken s i) (f := f) (re := re) (x := x) hd0 rt)
        have htables := congrArg Ductus.tables hengine
        have hgens := congrArg Ductus.gens hengine
        have hdrains := congrArg Ductus.drains hengine
        exact ⟨htables, hgens, hdrains⟩
      · exact (congrArg (fun v : Vector Ductus 4 => v[p]) hductus).trans (rowWritten_ductus_other (s := taken s i) rt hp)
  · exact ⟨_, exec_ductusDrain_of_taken ht, updDuctus_same _ _ _, fun p hp => updDuctus_other (taken s i) _ hp, rfl⟩
  · exact ⟨_, exec_drainAckReturn_of_done hh hl hc hacked, drainAcked_spec s d n k⟩
  · exact exec_drainAckReturn_of_waiting hh hwait
  · exact exec_drainAck_of_unknown ht hg
  · refine ⟨_, exec_drainAck_of_dead ht hg hrank, fun hall => ?_, fun hall => ?_, fun p hp => updDuctus_other (taken s i) _ hp, rfl⟩
    · rw [updDuctus_same, acknowledged, owing_isEmpty, if_pos hall]
      rfl
    · rw [updDuctus_same, acknowledged, owing_isEmpty, if_neg (ne_true_of_eq_false hall)]
      rfl

end Sys2Proof.Machine
end

section
/-! SUPPORT. Power domains that wake and that enter lower states (R418 to R430). -/

namespace Sys2Proof.Machine

/-! ### One domain changed -/

theorem updDomain_same (s : State) (d : Domain) (f : PowerDomain → PowerDomain) : (updDomain s d f).power.domains[d] = f s.power.domains[d] := by
  simp

theorem updDomain_other (s : State) {d e : Domain} (f : PowerDomain → PowerDomain) (h : e ≠ d) :
    (updDomain s d f).power.domains[e] = s.power.domains[e] := by
  have hne : ¬((d : Nat) = (e : Nat)) := fun k => h (Fin.ext k.symm)
  simp [Vector.getElem_set_ne _ _ hne]

theorem domainOn_iff (s : State) (d : Domain) : domainOn s d = true ↔ s.power.domains[d].state = .on := by
  rw [domainOn, decide_eq_true_iff]

/-- Nothing but one power domain differs. -/
def onlyDomain (s t : State) (d : Domain) : Prop :=
  (∀ e, e ≠ d → t.power.domains[e] = s.power.domains[e]) ∧ t = { s with power := { s.power with domains := t.power.domains } }

theorem updDomain_only (s : State) (d : Domain) (f : PowerDomain → PowerDomain) : onlyDomain s (updDomain s d f) d :=
  ⟨fun _ he => updDomain_other s f he, rfl⟩

/-- A domain that begins its entry. -/
def entered (x : PowerDomain) (off : Bool) : PowerDomain := { x with state := .entering, toOff := off, entryMethod := x.method }

theorem beginEntry_domain (s : State) (d : Domain) (off : Bool) : (beginEntry s d off).power.domains[d] = entered s.power.domains[d] off :=
  updDomain_same s d _

theorem beginEntry_only (s : State) (d : Domain) (off : Bool) : onlyDomain s (beginEntry s d off) d := updDomain_only s d _

/-! ### Wakes -/

section
variable {s : State} {d : Domain} {q : Quad}

/-- A domain that begins its wake from retention. -/
def wakes (x : PowerDomain) : PowerDomain := { x with state := .waking, fromOff := false, wakeQueued := false }

theorem exec_wakeStart_of_cap (h : 4 ≤ trickleWakes s q.val) : exec (.domainWakeStart q) s = .next s := by
  have hx : exec (.domainWakeStart q) s = execDomainWakeStart q s := rfl
  rw [hx, execDomainWakeStart, if_pos h]

theorem exec_wakeStart_of_room (h : trickleWakes s q.val < 4)
    (hf : allDomains.find? (fun d => domainQuad d == some q.val && s.power.domains[d].wakeQueued) = some d) :
    exec (.domainWakeStart q) s = .next (bump (updDomain s d wakes) 0x102 d.val 1) := by
  have hx : exec (.domainWakeStart q) s = execDomainWakeStart q s := rfl
  rw [hx, execDomainWakeStart, if_neg (Nat.not_le.mpr h), hf]
  rfl

theorem foldl_undefineRange_power (l : List (Nat × Nat)) (s : State) : (l.foldl (fun u r => undefineRange u r.1 r.2) s).power = s.power :=
  List.foldlRecOn l (motive := fun u : State => u.power = s.power) _ rfl fun _ ih _ _ => ih

theorem wipeBand_power (s : State) (b : Nat) : (wipeBand s b).power = s.power := by
  rw [wipeBand]
  dsimp only
  rw [updMem_power, foldl_undefineRange_power]

/-- What a domain loses in OFF is no power state. -/
theorem reinit_power (s : State) (d : Domain) : (reinit s d).power = s.power := by
  unfold reinit
  dsimp only
  split
  · rfl
  split
  · rfl
  split
  · rfl
  split
  · rfl
  split
  · exact wipeBand_power s _
  · rfl

/-- A domain that is on again. -/
def awake (x : PowerDomain) : PowerDomain := { x with state := .on, trickle := false, fromOff := false }

/-- A state with a domain woken and the length of its wake, a free value, counted. -/
def counted (r : State) (d : Domain) : State := updDomain (bump { r with fresh := r.fresh + 1 } 0x104 d.val (Config.freeNat r.fresh)) d awake

theorem counted_domain (r : State) (d : Domain) : (counted r d).power.domains[d] = awake r.power.domains[d] := updDomain_same _ d awake

theorem counted_other (r : State) {d e : Domain} (h : e ≠ d) : (counted r d).power.domains[e] = r.power.domains[e] := updDomain_other _ awake h

theorem counted_frame (r : State) (d : Domain) :
    counted r d = { r with power := (counted r d).power, telemetry := (counted r d).telemetry, fresh := (counted r d).fresh } := rfl

/-- The state with a domain on again, re-initialized when it comes from OFF. -/
def woken (s : State) (d : Domain) : State := counted (if s.power.domains[d].fromOff then reinit s d else s) d

theorem woken_domain : (woken s d).power.domains[d] = awake s.power.domains[d] := by
  unfold woken
  split
  · rw [counted_domain, reinit_power]
  · exact counted_domain s d

theorem woken_other {e : Domain} (h : e ≠ d) : (woken s d).power.domains[e] = s.power.domains[e] := by
  unfold woken
  split
  · rw [counted_other _ h, reinit_power]
  · exact counted_other s h

theorem exec_wakeDone_of_waking (h : s.power.domains[d].state = .waking) (hn : needsMet s d = true) : exec (.domainWakeDone d) s =
    .next (if s.power.domains[d].request = 1 then settlePolicy (afterWake (woken s d) d s.power.domains[d].fromOff) d
      else afterWake (woken s d) d s.power.domains[d].fromOff) := by
  have hx : exec (.domainWakeDone d) s = execDomainWakeDone d s := rfl
  rw [hx, execDomainWakeDone]
  dsimp only
  rw [h, hn, if_neg (by decide)]
  rfl

theorem exec_wakeDone_of_not (h : s.power.domains[d].state ≠ .waking ∨ needsMet s d = false) : exec (.domainWakeDone d) s = .next s := by
  have hx : exec (.domainWakeDone d) s = execDomainWakeDone d s := rfl
  rw [hx, execDomainWakeDone]
  refine congrArg Host.Outcome.next (if_pos ?_)
  rcases h with h | h
  · rw [bne_iff_ne.mpr h, Bool.true_or]
  · rw [h, Bool.not_false, Bool.or_true]

/-- What a wake that is done leaves, but for what its request and the domain's own beginning then do. -/
theorem wakeDone_spec (h : s.power.domains[d].state = .waking) (hn : needsMet s d = true) :
    let u := woken s d
    u.power.domains[d].state = .on ∧ u.power.domains[d].trickle = false ∧ u.power.domains[d].fromOff = false ∧
      u.power.domains[d].request = s.power.domains[d].request ∧ (∀ e, e ≠ d → u.power.domains[e] = s.power.domains[e]) ∧
      (s.power.domains[d].fromOff = false → u.fresh = s.fresh + 1 ∧ u = { s with power := u.power, telemetry := u.telemetry, fresh := u.fresh }) ∧
      (s.power.domains[d].fromOff = true → u = { reinit s d with power := u.power, telemetry := u.telemetry, fresh := u.fresh }) ∧
      (s.power.domains[d].request ≠ 1 → exec (.domainWakeDone d) s = .next (afterWake u d s.power.domains[d].fromOff)) ∧
      (s.power.domains[d].request = 1 → exec (.domainWakeDone d) s = .next (settlePolicy (afterWake u d s.power.domains[d].fromOff) d)) := by
  have hexec := exec_wakeDone_of_waking h hn
  refine ⟨by rw [woken_domain]; rfl, by rw [woken_domain]; rfl, by rw [woken_domain]; rfl, by rw [woken_domain]; rfl,
    fun e he => woken_other he, fun hf => ?_, fun hf => ?_, fun hr => ?_, fun hr => ?_⟩
  · have hu : woken s d = counted s d := by rw [woken, if_neg (ne_true_of_eq_false hf)]
    rw [hu]
    exact ⟨rfl, counted_frame s d⟩
  · have hu : woken s d = counted (reinit s d) d := by rw [woken, if_pos hf]
    rw [hu]
    exact counted_frame (reinit s d) d
  · rw [hexec, if_neg hr]
  · rw [hexec, if_pos hr]

end

/-! ### Entries that are done -/

section
variable {s : State} {d : Domain}

/-- A domain whose entry is done at a temperature. -/
def rested (temp : Nat) (x : PowerDomain) : PowerDomain :=
  { x with state := if x.toOff then .off else .retention, trickle := !x.toOff && x.entryMethod == 1, entryTempC := temp, offersStand := false }

/-- The state with a domain's entry done, the temperature at it a free value. -/
def asleep (s : State) (d : Domain) : State := updDomain { s with fresh := s.fresh + 1 } d (rested (Config.freeNat s.fresh % 256))

theorem exec_entryDone_of_entering (h : s.power.domains[d].state = .entering) : exec (.domainEntryDone d) s =
    .next (reattempt s (if 2 ≤ s.power.domains[d].request.toNat then settlePolicy (asleep s d) d else asleep s d)) := by
  have hx : exec (.domainEntryDone d) s = execDomainEntryDone d s := rfl
  rw [hx, execDomainEntryDone]
  dsimp only
  rw [h, if_neg (by decide)]
  rfl

theorem exec_entryDone_of_not (h : s.power.domains[d].state ≠ .entering) : exec (.domainEntryDone d) s = .next s := by
  have hx : exec (.domainEntryDone d) s = execDomainEntryDone d s := rfl
  rw [hx, execDomainEntryDone]
  exact congrArg Host.Outcome.next (if_pos (bne_iff_ne.mpr h))

/-- With no request blocked there is nothing to attempt again (log 57). -/
theorem reattempt_of_unblocked {before : State} (h : ∀ e, requestBlocked before e = false) (s : State) : reattempt before s = s := by
  have hnone : allDomains.filter (fun d => requestBlocked before d && !requestBlocked s d && domainOn s d) = [] :=
    List.filter_eq_nil_iff.mpr fun e _ => by simp [h e]
  rw [reattempt, hnone]
  rfl

theorem asleep_domain (s : State) (d : Domain) : (asleep s d).power.domains[d] = rested (Config.freeNat s.fresh % 256) s.power.domains[d] :=
  updDomain_same _ d _

theorem asleep_only (s : State) (d : Domain) : onlyDomain s { asleep s d with fresh := s.fresh } d := updDomain_only s d _

/-- What an entry that is done leaves, but for the attempts and the policy that follow it. -/
theorem entryDone_spec (h : s.power.domains[d].state = .entering) :
    let u := asleep s d
    u.power.domains[d].state = (if s.power.domains[d].toOff then .off else .retention) ∧ u.power.domains[d].offersStand = false ∧
      u.power.domains[d].trickle = (!s.power.domains[d].toOff && s.power.domains[d].entryMethod == 1) ∧
      u.power.domains[d].request = s.power.domains[d].request ∧ u.fresh = s.fresh + 1 ∧ onlyDomain s { u with fresh := s.fresh } d ∧
      (s.power.domains[d].request.toNat < 2 → exec (.domainEntryDone d) s = .next (reattempt s u)) ∧
      (2 ≤ s.power.domains[d].request.toNat → exec (.domainEntryDone d) s = .next (reattempt s (settlePolicy u d))) ∧
      (s.power.domains[d].request.toNat < 2 → (∀ e, requestBlocked s e = false) → exec (.domainEntryDone d) s = .next u) := by
  have hexec := exec_entryDone_of_entering h
  refine ⟨by rw [asleep_domain]; rfl, by rw [asleep_domain]; rfl, by rw [asleep_domain]; rfl, by rw [asleep_domain]; rfl, rfl,
    asleep_only s d, fun hr => ?_, fun hr => ?_, fun hr hb => ?_⟩
  · rw [hexec, if_neg (Nat.not_le.mpr hr)]
  · rw [hexec, if_pos hr]
  · rw [hexec, if_neg (Nat.not_le.mpr hr), reattempt_of_unblocked hb]

end

/-! ### Idle domains -/

section
variable {s : State} {d : Domain} {off : Bool}

theorem idleEntry_of_automatic (hon : s.power.domains[d].state = .on) (hr : s.power.domains[d].request = 0) (hb : entryBlock s d off = none) :
    idleEntry s d off = beginEntry s d off := by
  have hdue : requestDue s d = false := by
    rw [requestDue, hr]
    rfl
  rw [idleEntry, hdue, hr, (domainOn_iff s d).mpr hon, hb]
  rfl

/-- A requested retention is entered where nothing blocks it. -/
theorem idleEntry_of_request (hon : s.power.domains[d].state = .on) (hr : s.power.domains[d].request = 2) (hb : entryBlock s d false = none) :
    idleEntry s d off = beginEntry s d false := by
  have hreq : ((2 : BitVec 2) == 3) = false := rfl
  have hdue : requestDue s d = true := by
    rw [requestDue, hr, (domainOn_iff s d).mpr hon, hreq, hb]
    rfl
  rw [idleEntry, hdue, hr]
  rfl

theorem idleEntry_of_kept (h : s.power.domains[d].state ≠ .on ∨ s.power.domains[d].request = 1 ∨
    (s.power.domains[d].request = 0 ∧ (entryBlock s d off).isSome = true)) : idleEntry s d off = s := by
  have hdue : requestDue s d = false := by
    rw [requestDue]
    rcases h with h | h | ⟨h, -⟩
    · rw [Bool.eq_false_iff.mpr fun hon => h ((domainOn_iff s d).mp hon), Bool.and_false, Bool.false_and]
    · rw [h]
      rfl
    · rw [h]
      rfl
  rw [idleEntry, hdue, if_neg Bool.false_ne_true, if_neg]
  rcases h with h | h | ⟨-, h⟩
  · rw [Bool.eq_false_iff.mpr fun hon => h ((domainOn_iff s d).mp hon), Bool.and_false, Bool.false_and]
    exact Bool.false_ne_true
  · rw [h]
    exact Bool.false_ne_true
  · rw [Option.isNone_eq_false_iff.mpr h, Bool.and_false]
    exact Bool.false_ne_true

end

/-! ### The stacks -/

theorem entryBlock_of_stackNumber {s : State} {d : Domain} {off : Bool} (hlo : 21 ≤ d.val) (hhi : d.val < 29) : entryBlock s d off =
    if s.lineQueues.any (fun l => l.target == .hbm ⟨(d.val - 21) % 8, Nat.mod_lt _ (by decide)⟩ && !l.entries.isEmpty) then
      some (0x0A, unitHbm (d.val - 21))
    else if off && s.regions.toList.any (fun r => r.assigned || r.zeroing) then some (0x0B, unitHbm (d.val - 21)) else none := by
  rw [entryBlock, if_neg (by omega), if_neg (by omega), if_neg (by omega), if_neg (by omega), if_neg (by omega), if_pos hhi]

/-- What blocks a stack is no state of a domain. -/
theorem entryBlock_of_stack {s t : State} {d : Domain} (hd : d ∈ allStacks) (ht : t = { s with power := t.power }) (off : Bool) :
    entryBlock t d off = entryBlock s d off := by
  have hrange : ∀ d ∈ allStacks, 21 ≤ d.val ∧ d.val < 29 := by decide
  obtain ⟨hlo, hhi⟩ := hrange d hd
  rw [ht]
  rw [entryBlock_of_stackNumber hlo hhi, entryBlock_of_stackNumber hlo hhi]

/-- Idle stacks that nothing blocks begin their entries, one after the other. -/
theorem foldl_idleEntry_stacks {s0 : State} : ∀ (l : List Domain) (s : State), l.Nodup → (∀ d ∈ l, d ∈ allStacks) →
    s = { s0 with power := { s0.power with domains := s.power.domains } } → (∀ d ∈ l, s.power.domains[d] = s0.power.domains[d]) →
    (∀ d ∈ l, s0.power.domains[d].state = .on ∧ s0.power.domains[d].request = 0 ∧ entryBlock s0 d false = none) →
    let t := l.foldl (fun u d => idleEntry u d false) s
    (∀ d ∈ l, t.power.domains[d] = entered s0.power.domains[d] false) ∧ (∀ d, d ∉ l → t.power.domains[d] = s.power.domains[d]) ∧
      t = { s0 with power := { s0.power with domains := t.power.domains } }
  | [], s, _, _, hs, _, _ => ⟨fun _ hd => absurd hd List.not_mem_nil, fun _ _ => rfl, hs⟩
  | a :: l, s, hn, hm, hs, hsame, hidle => by
    obtain ⟨hna, hnl⟩ := List.nodup_cons.mp hn
    have ha := hsame a List.mem_cons_self
    obtain ⟨hon, hreq, hblock⟩ := hidle a List.mem_cons_self
    have hpower : s = { s0 with power := s.power } := by rw [hs]
    have hstep : idleEntry s a false = beginEntry s a false := idleEntry_of_automatic (by rw [ha]; exact hon) (by rw [ha]; exact hreq)
      ((entryBlock_of_stack (hm a List.mem_cons_self) hpower false).trans hblock)
    obtain ⟨hothers, hframe⟩ := beginEntry_only s a false
    have hne : ∀ d ∈ l, d ≠ a := fun d hd e => hna (e ▸ hd)
    obtain ⟨hin, hout, hrest⟩ := foldl_idleEntry_stacks l (beginEntry s a false) hnl (fun d hd => hm d (List.mem_cons_of_mem _ hd))
      (by rw [hframe, hs]) (fun d hd => (hothers d (hne d hd)).trans (hsame d (List.mem_cons_of_mem _ hd)))
      (fun d hd => hidle d (List.mem_cons_of_mem _ hd))
    intro t
    have ht : t = l.foldl (fun u d => idleEntry u d false) (beginEntry s a false) := congrArg (l.foldl (fun u d => idleEntry u d false)) hstep
    rw [ht]
    refine ⟨fun d hd => ?_, fun d hd => ?_, hrest⟩
    · rcases List.mem_cons.mp hd with rfl | hd
      · rw [hout d hna, beginEntry_domain, ha]
      · exact hin d hd
    · rw [hout d fun h => hd (List.mem_cons_of_mem _ h)]
      exact hothers d fun e => hd (e ▸ List.mem_cons_self)

section
variable {s : State}

theorem exec_hbmIdle_of_blocked (h : s.live = false ∨ ∃ d ∈ allStacks, (entryBlock s d false).isSome = true) : exec .hbmIdle s = .next s := by
  have hx : exec .hbmIdle s = execHbmIdle s := rfl
  rw [hx, execHbmIdle]
  refine congrArg Host.Outcome.next (if_pos ?_)
  rcases h with h | h
  · rw [h, Bool.not_false, Bool.true_or]
  · rw [List.any_eq_true.mpr h, Bool.or_true]

theorem exec_hbmIdle_of_free (hl : s.live = true) (h : ∀ d ∈ allStacks, entryBlock s d false = none) :
    exec .hbmIdle s = .next (allStacks.foldl (fun u d => idleEntry u d false) s) := by
  have hx : exec .hbmIdle s = execHbmIdle s := rfl
  have hnone : allStacks.any (fun d => (entryBlock s d false).isSome) = false :=
    List.any_eq_false.mpr fun d hd => by rw [h d hd]; exact Bool.false_ne_true
  rw [hx, execHbmIdle, hl, hnone]
  rfl

end

/-! ### The bands -/

section
variable {s : State} {b : Fin 40}

/-- A domain whose offers no longer stand. -/
def unoffered (x : PowerDomain) : PowerDomain := { x with offersStand := false }

/-- A sequencer that has recorded an attempt of a band. -/
def attempting (b : Nat) (q : Sequencer) : Sequencer := { q with attempted := if q.attempted.contains b then q.attempted else b :: q.attempted }

theorem mem_attempting (b : Nat) (q : Sequencer) : b ∈ (attempting b q).attempted := by
  rw [attempting]
  dsimp only
  split
  · next h => exact List.contains_iff_mem.mp h
  · exact List.mem_cons_self

/-- The state in which the attempt of an idle band is judged. -/
def bandTried (s : State) (b : Fin 40) : State := updSeq (updDomain s (bandDomain b.val) unoffered) (quadN (b.val / 10)) (attempting b.val)

theorem bandTried_domain : (bandTried s b).power.domains[bandDomain b.val] = unoffered s.power.domains[bandDomain b.val] :=
  updDomain_same s _ unoffered

theorem exec_bandIdle_of_not (h : s.live = false ∨ domainOn s (bandDomain b.val) = false ∨
    (s.power.domains[bandDomain b.val].offersStand = false ∧ (bandClusters b.val).all (unowned s) = false)) : exec (.bandIdle b) s = .next s := by
  have hx : exec (.bandIdle b) s = execBandIdle b s := rfl
  rw [hx, execBandIdle]
  refine congrArg Host.Outcome.next ?_
  dsimp only
  rcases h with h | h | ⟨hoffer, howned⟩
  · rw [h, Bool.not_false, Bool.true_or, if_pos rfl]
  · rw [h, Bool.not_false, Bool.or_true, if_pos rfl]
  · rw [hoffer, howned, Bool.or_false, if_neg Bool.false_ne_true, ite_self]

theorem exec_bandIdle_of_offered (hl : s.live = true) (hon : domainOn s (bandDomain b.val) = true)
    (ho : (s.power.domains[bandDomain b.val].offersStand || (bandClusters b.val).all (unowned s)) = true) :
    exec (.bandIdle b) s = .next (attemptBand (updDomain s (bandDomain b.val) unoffered) b.val) := by
  have hx : exec (.bandIdle b) s = execBandIdle b s := rfl
  rw [hx, execBandIdle]
  dsimp only
  rw [hl, hon, if_neg (by decide), if_pos ho]
  rfl

/-- What a cluster offers a band depends on no offer that stands and on no attempt. -/
theorem offered_bandTried (c : Nat) : offered (bandTried s b) (bandDomain b.val) c = offered s (bandDomain b.val) c := by
  have hdepth : (bandTried s b).power.domains[bandDomain b.val].idleDepth = s.power.domains[bandDomain b.val].idleDepth := by
    rw [bandTried_domain]
    rfl
  unfold offered
  rw [hdepth]
  rfl

/-- A band all of whose clusters offer it begins its entry, to OFF where all offer OFF. -/
theorem attemptBand_of_offered (hon : domainOn s (bandDomain b.val) = true)
    (ho : ∀ c ∈ bandClusters b.val, notOffering s c = none ∧ offered s (bandDomain b.val) c ≠ 0)
    (hr : s.power.domains[bandDomain b.val].request ≠ 1) : attemptBand (updDomain s (bandDomain b.val) unoffered) b.val =
    beginEntry (bandTried s b) (bandDomain b.val) ((bandClusters b.val).all (fun c => offered s (bandDomain b.val) c == 2)) := by
  have hon' : domainOn (updDomain s (bandDomain b.val) unoffered) (bandDomain b.val) = true := by
    rw [domainOn_iff, updDomain_same]
    exact (domainOn_iff s _).mp hon
  have hnone : (bandClusters b.val).findSome? (fun c => (notOffering (bandTried s b) c).map (fun k => (k, c))) = none :=
    List.findSome?_eq_none_iff.mpr fun c hc => congrArg (Option.map _) (ho c hc).1
  have hreq : (bandTried s b).power.domains[bandDomain b.val].request ≠ 1 := by
    rw [bandTried_domain]
    exact hr
  have hdepths : (bandClusters b.val).map (offered (bandTried s b) (bandDomain b.val)) = (bandClusters b.val).map (offered s (bandDomain b.val)) :=
    List.map_congr_left fun c _ => offered_bandTried c
  have hall : ((bandClusters b.val).map (offered s (bandDomain b.val))).any (fun x => x == 0) = false := by
    rw [List.any_map, List.any_eq_false]
    exact fun c hc => by simpa using (ho c hc).2
  rw [attemptBand]
  dsimp only
  rw [hon', if_neg (by decide)]
  unfold bandTried attempting at hnone hreq hdepths
  rw [hnone]
  dsimp only
  rw [if_neg hreq, hdepths, hall, if_neg Bool.false_ne_true, List.all_map]
  rfl

/-- What the entry of an idle band leaves. -/
theorem bandEntry_spec (s : State) (b : Fin 40) (off : Bool) :
    let t := beginEntry (bandTried s b) (bandDomain b.val) off
    t.power.domains[bandDomain b.val] = entered (unoffered s.power.domains[bandDomain b.val]) off ∧
      (∀ q : Quad, q = quadN (b.val / 10) → b.val ∈ t.seqs[q].attempted) ∧ onlyDomain s { t with seqs := s.seqs } (bandDomain b.val) ∧
      (∀ q : Quad, t.seqs[q] = { s.seqs[q] with attempted := t.seqs[q].attempted }) := by
  have htried : (bandTried s b).seqs[quadN (b.val / 10)] = attempting b.val s.seqs[quadN (b.val / 10)] := updSeq_same _ _ _
  intro t
  have hseqs : t.seqs = (bandTried s b).seqs := rfl
  have hothers : ∀ e, e ≠ bandDomain b.val → t.power.domains[e] = s.power.domains[e] := fun e he =>
    (updDomain_other (bandTried s b) _ he).trans (updDomain_other s unoffered he)
  refine ⟨?_, fun q hq => ?_, ⟨hothers, rfl⟩, fun q => ?_⟩
  · rw [beginEntry_domain, bandTried_domain]
  · rw [hseqs, hq, htried]
    exact mem_attempting _ _
  · rw [hseqs]
    by_cases hq : q = quadN (b.val / 10)
    · rw [hq, htried]
      rfl
    · have hkept : (bandTried s b).seqs[q] = s.seqs[q] := updSeq_other _ _ hq
      rw [hkept]

end

/-! ### The uncore and the PCIe ports -/

section
variable {s : State} {c : Instr} {d : Domain} {off : Bool}

theorem exec_idle_of_live (hc : (∃ q : Quad, c = .quncoreIdle q ∧ d = quncoreDomain q.val ∧ off = false) ∨
    (∃ p : Port, c = .pcieIdle p ∧ d = pcieDomain p.val ∧ off = true)) (hl : s.live = true) : exec c s = .next (idleEntry s d off) := by
  rcases hc with ⟨q, rfl, rfl, rfl⟩ | ⟨p, rfl, rfl, rfl⟩
  · have hx : exec (.quncoreIdle q) s = execQuncoreIdle q s := rfl
    rw [hx, execQuncoreIdle, if_pos hl]
  · have hx : exec (.pcieIdle p) s = execPcieIdle p s := rfl
    rw [hx, execPcieIdle, if_pos hl]

end

/-! ### The statement -/

/-- Settles O58: wakes that start and that are done, entries that are done, and the idle domains by their kind. -/
theorem domainsEnterAndWake : Obligations.DomainsEnterAndWake := by
  unfold Obligations.DomainsEnterAndWake
  intro s dom only entry
  refine ⟨fun q => ⟨exec_wakeStart_of_cap, fun d hroom hfirst => ?_⟩, fun d => ⟨exec_wakeDone_of_not, fun hw hn => ⟨_, wakeDone_spec hw hn⟩⟩,
    fun d => ⟨exec_entryDone_of_not, fun he => ⟨_, entryDone_spec he⟩⟩, fun b => ⟨exec_bandIdle_of_not, fun hl hon ho hoffer hr => ?_⟩,
    ⟨exec_hbmIdle_of_blocked, fun hl hidle => ?_⟩, fun c d off hc hl => ?_⟩
  · exact ⟨_, exec_wakeStart_of_room hroom hfirst, updDomain_same s d wakes, counter_bump _ _ _ _, updDomain_only s d wakes⟩
  · exact ⟨_, (exec_bandIdle_of_offered hl hon ho).trans (congrArg Host.Outcome.next (attemptBand_of_offered hon hoffer hr)), bandEntry_spec s b _⟩
  · have hexec := exec_hbmIdle_of_free hl fun d hd => (hidle d hd).2.2
    exact ⟨_, hexec, foldl_idleEntry_stacks allStacks s (by decide) (fun _ h => h) rfl (fun _ _ => rfl) hidle⟩
  · have hexec := exec_idle_of_live hc hl
    refine ⟨fun hon hr hb => ?_, fun hon hr hb => ?_, fun h => ?_⟩
    · rw [idleEntry_of_automatic hon hr hb] at hexec
      exact ⟨_, hexec, beginEntry_domain s d off, beginEntry_only s d off⟩
    · rw [idleEntry_of_request hon hr hb] at hexec
      exact ⟨_, hexec, beginEntry_domain s d false, beginEntry_only s d false⟩
    · rw [idleEntry_of_kept h] at hexec
      exact hexec

end Sys2Proof.Machine
end

section
/-! SUPPORT. What the power monitors do (R431, R432, R435 to R439). -/

namespace Sys2Proof.Machine

/-! ### Reports over a changed power block -/

theorem reports.power_eq {s t : State} (h : reports s t) : t.power = s.power := by
  unfold reports at h
  rw [h]

theorem reports.ite {s t u : State} {c : Prop} [Decidable c] (ht : reports s t) (hu : reports s u) : reports s (if c then t else u) := by
  split
  · exact ht
  · exact hu

/-- One power domain is as given, and otherwise there are only reports. -/
def changesDomain (s t : State) (d : Domain) (x : PowerDomain) : Prop :=
  t.power.domains[d] = x ∧ (∀ e : Domain, e ≠ d → t.power.domains[e] = s.power.domains[e]) ∧
    reports { s with power := { s.power with domains := t.power.domains } } t

theorem changesDomain_of_reports {s t : State} {d : Domain} {f : PowerDomain → PowerDomain} (h : reports (updDomain s d f) t) :
    changesDomain s t d (f s.power.domains[d]) := by
  have hp := h.power_eq
  unfold changesDomain
  rw [hp]
  exact ⟨updDomain_same s d f, fun _ he => updDomain_other s f he, h⟩

theorem updQuadClock_same (s : State) (q : Quad) (f : QuadClock → QuadClock) : (updQuadClock s q f).power.quads[q] = f s.power.quads[q] := by
  simp

theorem updQuadClock_other (s : State) {p q : Quad} (f : QuadClock → QuadClock) (h : p ≠ q) :
    (updQuadClock s q f).power.quads[p] = s.power.quads[p] := by
  have hne : ¬((q : Nat) = (p : Nat)) := fun k => h (Fin.ext k.symm)
  simp [Vector.getElem_set_ne _ _ hne]

theorem updQuadClock_reports {s t : State} (h : reports s t) (q : Quad) (f : QuadClock → QuadClock) :
    reports (updQuadClock s q f) (updQuadClock t q f) := by
  unfold reports at *
  rw [h]
  rfl

/-- A state with other quadrant clocks. -/
def withClocks (s t : State) : State := { s with power := { s.power with quads := t.power.quads } }

/-- One quadrant's clock is as given and the others are as they were. -/
def changesClock (s t : State) (q : Quad) (x : QuadClock) : Prop :=
  t.power.quads[q] = x ∧ ∀ r : Quad, r ≠ q → t.power.quads[r] = s.power.quads[r]

theorem changesClock_of_power {s t : State} {q : Quad} {f : QuadClock → QuadClock} (h : t.power = (updQuadClock s q f).power) :
    changesClock s t q (f s.power.quads[q]) := by
  unfold changesClock
  rw [h]
  exact ⟨updQuadClock_same s q f, fun _ hr => updQuadClock_other s f hr⟩

theorem reports_withClocks {s t : State} {q : Quad} {f : QuadClock → QuadClock} (h : reports (updQuadClock s q f) t) :
    reports (withClocks s t) t := by
  unfold withClocks
  rw [h.power_eq]
  exact h

theorem withClocks_reports {s t : State} {q : Quad} {f : QuadClock → QuadClock} (h : reports (updQuadClock s q f) t) (u : State) :
    reports (withClocks s u) (withClocks t u) := by
  unfold reports withClocks at *
  rw [h]
  rfl

/-! ### Every clock changed -/

/-- The clocks of a list of quadrants changed, and otherwise only reports. -/
def clocksOf (l : List Quad) (g : Quad → QuadClock → QuadClock) (s t : State) : Prop :=
  (∀ q ∈ l, t.power.quads[q] = g q s.power.quads[q]) ∧ (∀ q, q ∉ l → t.power.quads[q] = s.power.quads[q]) ∧ reports (withClocks s t) t

theorem foldl_clocksOf {F : State → Quad → State} {g : Quad → QuadClock → QuadClock} (hF : ∀ s q, reports (updQuadClock s q (g q)) (F s q)) :
    ∀ (l : List Quad) (s : State), l.Nodup → clocksOf l g s (l.foldl F s)
  | [], _, _ => ⟨fun _ hq => absurd hq List.not_mem_nil, fun _ _ => rfl, rfl⟩
  | a :: l, s, hn => by
    obtain ⟨hna, hnl⟩ := List.nodup_cons.mp hn
    obtain ⟨hin, hout, hrest⟩ := foldl_clocksOf hF l (F s a) hnl
    obtain ⟨hsame, hother⟩ := changesClock_of_power (hF s a).power_eq
    rw [List.foldl_cons]
    refine ⟨fun q hq => ?_, fun q hq => ?_, ?_⟩
    · rcases List.mem_cons.mp hq with rfl | hq
      · rw [hout q hna, hsame]
      · rw [hin q hq, hother q fun e => hna (e ▸ hq)]
    · rw [hout q fun h => hq (List.mem_cons_of_mem _ h), hother q fun e => hq (e ▸ List.mem_cons_self)]
    · exact (withClocks_reports (hF s a) _).trans hrest

/-- Every quadrant's clock changed, and otherwise only reports. -/
def clocked (g : Quad → QuadClock → QuadClock) (s t : State) : Prop :=
  (∀ q : Quad, t.power.quads[q] = g q s.power.quads[q]) ∧ reports (withClocks s t) t

theorem foldl_clocked {F : State → Quad → State} {g : Quad → QuadClock → QuadClock} (hF : ∀ s q, reports (updQuadClock s q (g q)) (F s q))
    (s : State) : clocked g s (allQuads.foldl F s) := by
  have hmem : ∀ q : Quad, q ∈ allQuads := by decide
  obtain ⟨hin, -, hrest⟩ := foldl_clocksOf hF allQuads s (by decide)
  exact ⟨fun q => hin q (hmem q), hrest⟩

theorem clocked.power_eq {g : Quad → QuadClock → QuadClock} {s t : State} (h : clocked g s t) :
    t.power = { s.power with quads := t.power.quads } := reports.power_eq h.2

theorem clocked.reported {g : Quad → QuadClock → QuadClock} {s t u : State} (h : clocked g s t) (k : reports t u) : clocked g s u := by
  obtain ⟨hq, hr⟩ := h
  unfold clocked withClocks
  rw [k.power_eq]
  exact ⟨hq, hr.trans k⟩

theorem clocked.congr {g g' : Quad → QuadClock → QuadClock} {s t : State} (h : clocked g s t)
    (hg : ∀ q, g q s.power.quads[q] = g' q s.power.quads[q]) : clocked g' s t := ⟨fun q => (h.1 q).trans (hg q), h.2⟩

theorem clocked.refl (s : State) : clocked (fun _ x => x) s s := ⟨fun _ => rfl, rfl⟩

/-! ### Trickle retention -/

section
variable {s : State} {d : Domain} {n : Nat}

/-- A domain in trickle retention that has warmed by the settings' margin (R431). -/
def warmed (s : State) (d : Domain) (n : Nat) : Prop :=
  s.power.domains[d].state = .retention ∧ s.power.domains[d].trickle = true ∧ s.power.domains[d].entryTempC + s.settings.trickleDelta ≤ n

/-- A domain in trickle retention converted to full retention. -/
def converted (x : PowerDomain) : PowerDomain := { x with trickle := false, wakeSource := 11 }

theorem exec_trickleGuard_of_warmed (h : warmed s d n) :
    exec (.trickleGuard d n) s = .next (powerEvent (updDomain s d converted) 2 d.val (unitDomain d.val)) := by
  obtain ⟨hstate, htrickle, hwarm⟩ := h
  have hx : exec (.trickleGuard d n) s = execTrickleGuard d n s := rfl
  rw [hx, execTrickleGuard]
  refine congrArg Host.Outcome.next (if_pos ?_)
  rw [hstate, htrickle, decide_eq_true hwarm]
  rfl

theorem exec_trickleGuard_of_not (h : ¬warmed s d n) : exec (.trickleGuard d n) s = .next s := by
  have hx : exec (.trickleGuard d n) s = execTrickleGuard d n s := rfl
  rw [hx, execTrickleGuard]
  exact congrArg Host.Outcome.next (if_neg fun k => h (by simpa [warmed, and_assoc] using k))

/-- A domain that a brown-out hits (R432). -/
def browned (s : State) (d : Domain) : Prop :=
  s.power.domains[d].state = .retention ∧ s.power.domains[d].trickle = true ∧ s.power.domains[d].wakeQueued = false

/-- A domain that a brown-out has turned OFF. -/
def lostState (x : PowerDomain) : PowerDomain := { x with state := .off, trickle := false, fromOff := true, offersStand := false }

/-- The state with a browned domain OFF, before the jobs that it held fail. -/
def brownedOut (s : State) (d : Domain) : State := powerEvent (bump (updDomain s d lostState) 0x103 d.val 1) 1 d.val (unitDomain d.val)

theorem brownedOut_reports (s : State) (d : Domain) : reports (updDomain s d lostState) (brownedOut s d) :=
  (bump_reports _ _ _ _).trans (powerEvent_reports _ _ _ _)

theorem exec_brownout_of_not (h : ¬browned s d) : exec (.brownout d) s = .next s := by
  have hx : exec (.brownout d) s = execBrownout d s := rfl
  rw [hx, execBrownout]
  refine congrArg Host.Outcome.next (if_pos ?_)
  rw [Bool.not_eq_true', Bool.eq_false_iff]
  exact fun k => h (by simpa [browned, and_assoc] using k)

theorem exec_brownout_of_browned (h : browned s d) : exec (.brownout d) s =
    .next ((allParts.filter (fun p => partStamp s p != 0 && jobHolds s p d)).foldl
      (fun v p => failJob v (partStamp v p) 0x130 (unitDomain d.val) d.val 0 0) (brownedOut s d)) := by
  obtain ⟨hstate, htrickle, hqueued⟩ := h
  have hx : exec (.brownout d) s = execBrownout d s := rfl
  rw [hx, execBrownout]
  refine congrArg Host.Outcome.next (if_neg ?_)
  rw [hstate, htrickle, hqueued]
  decide

theorem filter_heldParts_of_none (h : ∀ p, partStamp s p = 0 ∨ jobHolds s p d = false) :
    allParts.filter (fun p => partStamp s p != 0 && jobHolds s p d) = [] :=
  List.filter_eq_nil_iff.mpr fun p _ => by rcases h p with h | h <;> simp [h]

end

/-! ### The cap -/

section
variable {s : State} {long : Bool} {w : Nat}

/-- A clock whose ceiling of the cap is lower by some settings. -/
def capLowered (n : Nat) (x : QuadClock) : QuadClock := { x with capCeiling := x.capCeiling - n }

/-- A clock whose ceiling of the cap is higher by one setting. -/
def capRaised (x : QuadClock) : QuadClock := { x with capCeiling := min 26 (x.capCeiling + 1) }

theorem capDown_clocked (s : State) (n : Nat) : clocked (fun _ => capLowered n) s (capDown s n) := by
  have hfold := foldl_clocked (g := fun _ => capLowered n)
    (F := fun s q => bump (updQuadClock s q (fun x => { x with capCeiling := s.power.quads[q].capCeiling - n })) 0x120 q.val
      (min s.power.quads[q].capCeiling n)) (fun s q => bump_reports (updQuadClock s q (capLowered n)) _ _ _) s
  rw [capDown]
  dsimp only
  exact hfold.reported ((powerEvent_reports _ _ _ _).ite (reports.refl _))

theorem capUp_clocked (s : State) : clocked (fun _ => capRaised) s (capUp s) := by
  have hfold := foldl_clocked (g := fun _ => capRaised) (F := fun s q => updQuadClock s q capRaised) (fun _ _ => reports.refl _) s
  rw [capUp]
  exact hfold.reported ((powerEvent_reports _ _ _ _).ite (reports.refl _))

theorem capExceeded_of_above (h : allAtFloor s = false) (n : Nat) : capExceeded s n = capDown s n := by
  rw [capExceeded, h, if_neg Bool.false_ne_true]

theorem exec_powerSample_of_off (h : s.pins.pwrGood = false ∨ s.power.tripped = true) : exec (.powerSample long w) s = .next s := by
  have hx : exec (.powerSample long w) s = execPowerSample long w s := rfl
  rw [hx, execPowerSample]
  exact congrArg Host.Outcome.next (if_pos (by rcases h with h | h <;> simp [h]))

section
variable (hg : s.pins.pwrGood = true) (ht : s.power.tripped = false)
include hg ht

theorem exec_powerSample_of_on : exec (.powerSample long w) s = .next (if long then longWindow s w else shortWindow s w) := by
  have hx : exec (.powerSample long w) s = execPowerSample long w s := rfl
  rw [hx, execPowerSample, hg, ht]
  rfl

theorem exec_shortSample_of_within (hw : 11 * s.power.capW ≥ 10 * w) : exec (.powerSample false w) s = .next s := by
  rw [exec_powerSample_of_on hg ht, if_neg Bool.false_ne_true, shortWindow, if_neg (Nat.not_lt.mpr hw)]

theorem exec_shortSample_of_above (hf : allAtFloor s = false) (hw : 11 * s.power.capW < 10 * w) :
    exec (.powerSample false w) s = .next (capDown s 4) := by
  rw [exec_powerSample_of_on hg ht, if_neg Bool.false_ne_true, shortWindow, if_pos hw, capExceeded_of_above hf]

end

/-- The windows below 0.97 of the cap in a row, this one counted. -/
def lowRun (s : State) (w : Nat) : Nat := if 100 * w < 97 * s.power.capW then s.power.lowWindows + 1 else 0

/-- The state after the average of 1 ms is recorded. -/
def averaged (s : State) (w : Nat) : State :=
  { s with power := { s.power with powerW := min w 4095, lowWindows := lowRun s w % 10, capUnmet := s.power.capUnmet && decide (s.power.capW < w) } }

/-- A clock after a window of 1 ms (R437). -/
def capStepped (s : State) (w : Nat) (x : QuadClock) : QuadClock :=
  { x with capCeiling := if s.power.capW < w then x.capCeiling - 1
      else if 100 * w < 97 * s.power.capW ∧ s.power.lowWindows + 1 = 10 then min 26 (x.capCeiling + 1) else x.capCeiling }

theorem lowRun_eq_ten : lowRun s w = 10 ↔ 100 * w < 97 * s.power.capW ∧ s.power.lowWindows + 1 = 10 := by
  unfold lowRun
  split <;> simp [*]

theorem longWindow_eq : longWindow s w =
    if s.power.capW < w then capExceeded (bump (averaged s w) 0x122 0 w) 1
    else if lowRun s w = 10 then capUp (bump (averaged s w) 0x122 0 w) else bump (averaged s w) 0x122 0 w := rfl

/-- A counter raised first changes nothing of what the clocks become. -/
theorem clocked.of_bump {g : Quad → QuadClock → QuadClock} {t : State} {a b n : Nat} (h : clocked g (bump s a b n) t) : clocked g s t := h

theorem longWindow_clocked (hf : allAtFloor s = false ∨ w ≤ s.power.capW) : clocked (fun _ => capStepped s w) (averaged s w) (longWindow s w) := by
  rw [longWindow_eq]
  split
  · next hover =>
    have hfloor : allAtFloor (bump (averaged s w) 0x122 0 w) = false := hf.resolve_right (Nat.not_le.mpr hover)
    rw [capExceeded_of_above hfloor]
    exact (capDown_clocked _ 1).of_bump.congr fun q => by rw [capStepped, if_pos hover]; rfl
  · next hover =>
    split
    · next hlow =>
      exact (capUp_clocked _).of_bump.congr fun q => by rw [capStepped, if_neg hover, if_pos (lowRun_eq_ten.mp hlow)]; rfl
    · next hlow =>
      refine ((clocked.refl (averaged s w)).reported (bump_reports _ _ _ _)).congr fun q => ?_
      rw [capStepped, if_neg hover, if_neg fun k => hlow (lowRun_eq_ten.mpr k)]

/-- What a window of 1 ms leaves. -/
theorem longWindow_spec (hf : allAtFloor s = false ∨ w ≤ s.power.capW) :
    let t := longWindow s w
    t.power.powerW = min w 4095 ∧ t.power.lowWindows = lowRun s w % 10 ∧ t.power.domains = s.power.domains ∧
      t.power.tripped = s.power.tripped ∧ reports { s with power := t.power } t ∧
      ∀ q : Quad, t.power.quads[q] = capStepped s w s.power.quads[q] := by
  have h := longWindow_clocked hf
  have hp := h.power_eq
  obtain ⟨hclocks, hreports⟩ := h
  refine ⟨?_, ?_, ?_, ?_, ?_, hclocks⟩
  · rw [hp]
    rfl
  · rw [hp]
    rfl
  · rw [hp]
    rfl
  · rw [hp]
    rfl
  · rw [hp]
    exact hreports

end

/-! ### Junction sensors -/

section
variable {s : State} {l : List (Nat × Nat)}

/-- A clock after its quadrant's hottest reading (R438). -/
def felt (n : Nat) (x : QuadClock) : QuadClock :=
  let cool := if n ≤ 97 then x.coolReadings + 1 else 0
  { x with throttling := decide (100 ≤ n), overTemp := decide (105 ≤ n), coolReadings := cool % 100,
           thermalCeiling := if 100 ≤ n then x.thermalCeiling - 1 else if cool = 100 then min 26 (x.thermalCeiling + 1) else x.thermalCeiling }

/-- A quadrant's reading may give an event and a count beside its clock. -/
theorem thermalQuad_reports (s : State) (q : Quad) (n : Nat) : reports (updQuadClock s q (felt n)) (thermalQuad s q n) := by
  have hevent : ∀ c d : Prop, ∀ [Decidable c] [Decidable d], reports s
      (if c then powerEvent s 3 q.val (unitCpb 4) else if d then powerEvent s 4 q.val (unitCpb 4) else s) :=
    fun _ _ => (powerEvent_reports _ _ _ _).ite ((powerEvent_reports _ _ _ _).ite (reports.refl s))
  rw [thermalQuad]
  exact updQuadClock_reports (((hevent _ _).trans (bump_reports _ _ _ _)).ite (hevent _ _)) q _

/-- The hottest reading of a quadrant's sensors. -/
def heat (l : List (Nat × Nat)) (q : Quad) : Nat := hottest l (fun k => k / 20 == q.val)

/-- The state after the hottest reading of all is recorded. -/
def read (s : State) (l : List (Nat × Nat)) : State :=
  { s with power := { s.power with tjMax := min (hottest l (fun _ => true)) 255, hot := decide (95 ≤ hottest l (fun _ => true)) } }

/-- The state after every quadrant's reading. -/
def readQuads (s : State) (l : List (Nat × Nat)) : State := allQuads.foldl (fun u q => thermalQuad u q (heat l q)) (read s l)

theorem readQuads_clocked (s : State) (l : List (Nat × Nat)) : clocked (fun q => felt (heat l q)) (read s l) (readQuads s l) :=
  foldl_clocked (fun s q => thermalQuad_reports s q _) (read s l)

theorem exec_thermalReading_of_off (h : s.pins.pwrGood = false) : exec (.thermalReading l) s = .next s := by
  have hx : exec (.thermalReading l) s = execThermalReading l s := rfl
  rw [hx, execThermalReading, h]
  rfl

/-- What follows the readings: a trip where a sensor reads 115 °C or more. -/
def judged (t : State) : Option (Nat × Nat) → State
  | some e => thermalTrip t (e.1 / 20)
  | none => t

theorem exec_thermalReading_of_on (hg : s.pins.pwrGood = true) (ht : s.power.tripped = false) :
    exec (.thermalReading l) s = .next (judged (readQuads s l) (l.find? (fun e => decide (115 ≤ e.2)))) := by
  have hx : exec (.thermalReading l) s = execThermalReading l s := rfl
  rw [hx, execThermalReading, hg, if_neg (by decide)]
  dsimp only
  rw [if_neg (ne_true_of_eq_false ht)]
  cases l.find? (fun e => decide (115 ≤ e.2)) with
  | none => rfl
  | some e => rfl

theorem exec_thermalReading_of_cool (hg : s.pins.pwrGood = true) (ht : s.power.tripped = false) (h : ∀ e ∈ l, e.2 < 115) :
    exec (.thermalReading l) s = .next (readQuads s l) := by
  have hnone : l.find? (fun e => decide (115 ≤ e.2)) = none := List.find?_eq_none.mpr fun e he => by simpa using h e he
  rw [exec_thermalReading_of_on hg ht, hnone]
  rfl

theorem exec_thermalReading_of_trip (hg : s.pins.pwrGood = true) (ht : s.power.tripped = false) (h : ∃ e ∈ l, 115 ≤ e.2) :
    ∃ q, exec (.thermalReading l) s = .next (thermalTrip (readQuads s l) q) := by
  obtain ⟨e, he, htrip⟩ := h
  have hsome : (l.find? (fun e => decide (115 ≤ e.2))).isSome = true := by
    rw [List.find?_isSome]
    exact ⟨e, he, decide_eq_true htrip⟩
  obtain ⟨f, hf⟩ := Option.isSome_iff_exists.mp hsome
  rw [exec_thermalReading_of_on hg ht, hf]
  exact ⟨_, rfl⟩

/-- What readings below a trip leave. -/
theorem readQuads_spec (s : State) (l : List (Nat × Nat)) :
    let t := readQuads s l
    t.power.tjMax = min (hottest l (fun _ => true)) 255 ∧ t.power.hot = decide (95 ≤ hottest l (fun _ => true)) ∧
      t.power.domains = s.power.domains ∧ t.power.tripped = s.power.tripped ∧ reports { s with power := t.power } t ∧
      ∀ q : Quad, t.power.quads[q] = felt (heat l q) s.power.quads[q] := by
  have h := readQuads_clocked s l
  have hp := h.power_eq
  obtain ⟨hclocks, hreports⟩ := h
  refine ⟨?_, ?_, ?_, ?_, ?_, hclocks⟩
  · rw [hp]
    rfl
  · rw [hp]
    rfl
  · rw [hp]
    rfl
  · rw [hp]
    rfl
  · rw [hp]
    exact hreports

theorem freeze_power (s : State) (cause : Nat) : (freeze s cause).power = s.power := by
  have hnote := (note_reports s 0x80 (unitCpb 6) 0 ((s.blotter.head - 1) % 2 ^ 32) cause 0).power_eq
  rw [freeze]
  dsimp only
  split
  · exact hnote
  · exact hnote

/-- A trip turns every domain but PD_AON off. -/
theorem thermalTrip_spec (s : State) (n : Nat) :
    let t := thermalTrip s n
    t.power.tripped = true ∧ t.pins.thermTripN = false ∧ t.pins.faultN = false ∧ (∀ d : Domain, d.val ≠ 0 → t.power.domains[d].state = .off) ∧
      t.power.domains[(0 : Domain)] = s.power.domains[(0 : Domain)] := by
  have hp : (freeze (errorNote s 0x207 (unitCpb 4) 0 0 0 n) 0x207).power = s.power :=
    (freeze_power _ _).trans (note_reports s (0x8000 + 0x207) (unitCpb 4) 0 0 0 n).power_eq
  rw [thermalTrip]
  refine ⟨rfl, rfl, rfl, fun d hd => ?_, ?_⟩
  · simp only [Fin.getElem_fin, Vector.getElem_ofFn]
    rw [if_neg hd]
  · simp only [Fin.getElem_fin, Vector.getElem_ofFn]
    refine (if_pos rfl).trans ?_
    rw [hp]

end

/-! ### The input voltage, droop and ACLK -/

section
variable {s : State} {q : Quad} {n m : Nat}

theorem exec_droopEnd_of_stretching (h : s.power.quads[q].stretching = true) : exec (.droopEnd q n m) s =
    .next (bumpMax (bump (updQuadClock s q (fun x => { x with stretching := false, stretch := 0 })) 0x111 q.val n) 0x112 q.val m) := by
  have hx : exec (.droopEnd q n m) s = execDroopEnd q n m s := rfl
  rw [hx, execDroopEnd, h]
  rfl

theorem counter_bumpMax (s : State) (id idx n : Nat) : (bumpMax s id idx n).counter id idx = max (s.counter id idx) n :=
  tallyGet_tallySet _ _ _

theorem counter_bumpMax_ne (s : State) {id id' : Nat} (idx n : Nat) (h : id ≠ id') : (bumpMax s id idx n).counter id' idx = s.counter id' idx :=
  tallyGet_tallySet_ne _ _ _ _ fun e => h (congrArg Prod.fst e).symm

theorem counter_bump_ne (s : State) {id id' : Nat} (idx n : Nat) (h : id ≠ id') : (bump s id idx n).counter id' idx = s.counter id' idx :=
  tallyGet_tallySet_ne _ _ _ _ fun e => h (congrArg Prod.fst e).symm

section
variable (hg : s.pins.pwrGood = true) (ht : s.power.tripped = false)
include hg

theorem exec_inputRange_of_on : exec (.inputRange n) s = .next (if n < 40000 ∨ 60000 < n then
    powerEvent { s with power := { s.power with inputMv := n } } 9 n (unitCpb 4) else { s with power := { s.power with inputMv := n } }) := by
  have hx : exec (.inputRange n) s = execInputRange n s := rfl
  rw [hx, execInputRange, hg]
  rfl

include ht

theorem exec_overTemp_of_hot (h : s.power.quads[q].overTemp = true) : exec (.overTemp q) s =
    .next (powerEvent (updQuadClock s q (fun x => { x with overTemp := false })) 8 q.val (unitCpb 4)) := by
  have hx : exec (.overTemp q) s = execOverTemp q s := rfl
  rw [hx, execOverTemp, hg, ht, h]
  rfl

theorem exec_aclkStep_of_on : exec (.aclkStep q) s = .next (updQuadClock s q QuadClock.stepped) := by
  have hx : exec (.aclkStep q) s = execAclkStep q s := rfl
  rw [hx, execAclkStep, hg, ht]
  rfl

theorem exec_droopExcursion_of_on : exec (.droopExcursion q n) s =
    .next (if s.power.quads[q].stretching then updQuadClock s q (fun x => { x with stretch := stretchOf n })
      else bump (updQuadClock s q (fun x => { x with stretching := true, stretch := stretchOf n, droopEvents := satAdd 64 x.droopEvents 1 }))
        0x110 q.val 1) := by
  have hx : exec (.droopExcursion q n) s = execDroopExcursion q n s := rfl
  rw [hx, execDroopExcursion, hg, ht]
  rfl

end

/-- A clock in an excursion of some depth: only the first stretched cycle counts one (R435). -/
def stretched (n : Nat) (x : QuadClock) : QuadClock :=
  { x with stretching := true, stretch := min 4 (1 + n / 10), droopEvents := if x.stretching then x.droopEvents else satAdd 64 x.droopEvents 1 }

theorem stretched_of_stretching {x : QuadClock} (h : x.stretching = true) : stretched n x = { x with stretch := stretchOf n } := by
  rw [stretched, h, if_pos rfl, ← h]
  rfl

theorem stretched_of_steady {x : QuadClock} (h : x.stretching = false) :
    stretched n x = { x with stretching := true, stretch := stretchOf n, droopEvents := satAdd 64 x.droopEvents 1 } := by
  rw [stretched, h, if_neg Bool.false_ne_true]
  rfl

/-- A clock changed, its frame but for counters. -/
theorem clockCounted_frame (s : State) (q : Quad) (f : QuadClock → QuadClock) (a b c : Nat) :
    let t := bump (updQuadClock s q f) a b c
    t = { withClocks s t with telemetry := t.telemetry } := rfl

theorem droopExcursion_spec (hg : s.pins.pwrGood = true) (ht : s.power.tripped = false) : ∃ t, exec (.droopExcursion q n) s = .next t ∧
    changesClock s t q (stretched n s.power.quads[q]) ∧ t = { withClocks s t with telemetry := t.telemetry } ∧
    (s.power.quads[q].stretching = false → t.counter 0x110 q.val = (s.counter 0x110 q.val + 1) % 2 ^ 64) := by
  have hexec := exec_droopExcursion_of_on (q := q) (n := n) hg ht
  by_cases h : s.power.quads[q].stretching = true
  · rw [if_pos h] at hexec
    refine ⟨_, hexec, ?_, rfl, fun k => absurd h (ne_true_of_eq_false k)⟩
    rw [stretched_of_stretching h]
    exact changesClock_of_power rfl
  · have hsteady := Bool.eq_false_iff.mpr h
    rw [if_neg h] at hexec
    refine ⟨_, hexec, ?_, clockCounted_frame s q _ _ _ _, fun _ => counter_bump _ _ _ _⟩
    rw [stretched_of_steady hsteady]
    exact changesClock_of_power (t := bump _ _ _ _)
      (f := fun x => { x with stretching := true, stretch := stretchOf n, droopEvents := satAdd 64 x.droopEvents 1 }) rfl

theorem droopEnd_spec (h : s.power.quads[q].stretching = true) : ∃ t, exec (.droopEnd q n m) s = .next t ∧
    changesClock s t q { s.power.quads[q] with stretching := false, stretch := 0 } ∧
    t.counter 0x111 q.val = (s.counter 0x111 q.val + n) % 2 ^ 64 ∧ t.counter 0x112 q.val = max (s.counter 0x112 q.val) m ∧
    t = { withClocks s t with telemetry := t.telemetry } := by
  refine ⟨_, exec_droopEnd_of_stretching h, changesClock_of_power (f := fun x => { x with stretching := false, stretch := 0 }) rfl, ?_, ?_, rfl⟩
  · rw [counter_bumpMax_ne _ _ _ (by decide), counter_bump]
    rfl
  · rw [counter_bumpMax, counter_bump_ne _ _ _ (by decide)]
    rfl

theorem overTemp_spec (hg : s.pins.pwrGood = true) (ht : s.power.tripped = false) (h : s.power.quads[q].overTemp = true) :
    ∃ t, exec (.overTemp q) s = .next t ∧ changesClock s t q { s.power.quads[q] with overTemp := false } ∧ reports (withClocks s t) t := by
  have hreports := powerEvent_reports (updQuadClock s q (fun x => { x with overTemp := false })) 8 q.val (unitCpb 4)
  exact ⟨_, exec_overTemp_of_hot hg ht h, changesClock_of_power hreports.power_eq, reports_withClocks hreports⟩

end

/-! ### The statement -/

/-- Settles O59: each monitor by its own lemma; what a report leaves alone is said once by `reports`. -/
theorem powerMonitorsAct : Obligations.PowerMonitorsAct := by
  unfold Obligations.PowerMonitorsAct
  intro s quads oneQuad oneDomain
  refine ⟨fun d n => ⟨fun hdue => ?_, exec_trickleGuard_of_not⟩, fun d => ⟨exec_brownout_of_not, fun hhit => ?_⟩,
    fun long w => ⟨exec_powerSample_of_off, fun hg ht hl hw => ?_, fun hg ht hf hl hw => ?_, fun hg ht hl hf => ?_⟩,
    fun l => ⟨exec_thermalReading_of_off, fun hg ht hcool => ?_, fun hg ht htrip => ?_⟩,
    fun q n m => ⟨fun hg ht => ⟨overTemp_spec hg ht, ?_, fun hlo hhi => ?_, droopExcursion_spec hg ht, ?_⟩, droopEnd_spec⟩⟩
  · exact ⟨_, exec_trickleGuard_of_warmed hdue, changesDomain_of_reports (powerEvent_reports _ _ _ _)⟩
  · have hexec := exec_brownout_of_browned hhit
    refine ⟨brownedOut s d, changesDomain_of_reports (brownedOut_reports s d), hexec, fun hnone => ?_⟩
    rw [hexec, filter_heldParts_of_none hnone]
    rfl
  · rw [hl]
    exact exec_shortSample_of_within hg ht hw
  · obtain ⟨hclocks, hreports⟩ := capDown_clocked s 4
    rw [hl]
    exact ⟨_, exec_shortSample_of_above hg ht hf hw, hreports, hclocks⟩
  · have hexec := exec_powerSample_of_on (long := long) (w := w) hg ht
    rw [if_pos hl] at hexec
    exact ⟨_, hexec, longWindow_spec hf⟩
  · obtain ⟨htop, hhot, hdomains, htripped, hreports, hclocks⟩ := readQuads_spec s l
    exact ⟨_, exec_thermalReading_of_cool hg ht hcool, htop, hhot, hdomains, htripped.trans ht, hreports, hclocks⟩
  · obtain ⟨n, hexec⟩ := exec_thermalReading_of_trip hg ht htrip
    obtain ⟨htripped, hpin, hfault, hoff, hon⟩ := thermalTrip_spec (readQuads s l) n
    obtain ⟨-, -, hdomains, -⟩ := readQuads_spec s l
    rw [hdomains] at hon
    exact ⟨_, hexec, htripped, hpin, hfault, hoff, hon⟩
  · exact ⟨_, exec_inputRange_of_on hg, (powerEvent_reports _ _ _ _).ite (reports.refl _)⟩
  · rw [exec_inputRange_of_on hg, if_neg (by omega)]
  · exact ⟨_, exec_aclkStep_of_on hg ht, changesClock_of_power rfl, rfl⟩

end Sys2Proof.Machine
end

section
/-! SUPPORT. Errors and their timers (R187, R225, R277, R279, R475, R479 to R484, R487, R514). -/

namespace Sys2Proof.Machine

/-! ### A device stop -/

/-- The state in which a device stop is first in force (R483). -/
def halted (s : State) (code unit detail a0 : Nat) : State :=
  { freeze (errorNote s code unit 0 a0 0 detail) code with
    errors := { (freeze (errorNote s code unit 0 a0 0 detail) code).errors with
      fatal := true, cause := BitVec.ofNat 32 (unit * 2 ^ 16 + code), fatalTime := s.timeBase, supervised := false },
    pins := { (freeze (errorNote s code unit 0 a0 0 detail) code).pins with faultN := false } }

/-- What a device stop does once its reports are made: its ports are shut and its sequencers are held. -/
def shutDown (s : State) : State :=
  { s with
    fabric := s.fabric.map FabricPort.shut,
    seqs := s.seqs.map (fun q => { q with state := if q.state = SeqState.idle then .idle else .held }),
    router := { s.router with injectQ := [] } }

/-- The reports of a device stop. -/
def haltTold (s : State) (code unit detail a0 : Nat) : State :=
  fmMessage (signalFatal (halted s code unit detail a0)) 0x202 (reportArgs 0 code unit detail 3)

section
variable {s : State} (code unit detail a0 : Nat)

theorem deviceStop_of_running (h : s.errors.fatal = false) : deviceStop s code unit detail a0 =
    shutDown (if code = 0x201 ∨ code = 0x202 then haltTold s code unit detail a0 else finishAll (haltTold s code unit detail a0) code) := by
  rw [deviceStop]
  dsimp only
  rw [if_neg (ne_true_of_eq_false h)]
  rfl

theorem haltTold_keeps : Keeps false (halted s code unit detail a0) (haltTold s code unit detail a0) :=
  fmMessage_keeps _ _ (signalFatal_keeps (Keeps.refl _))

/-- After a device stop the device is stopped. -/
theorem deviceStop_fatal : (deviceStop s code unit detail a0).errors.fatal = true := by
  cases h : s.errors.fatal with
  | true => exact (deviceStop_keeps (lv := false) _ _ _ _ (Keeps.refl s)).fatal h
  | false =>
    have htold := haltTold_keeps (s := s) code unit detail a0
    rw [deviceStop_of_running _ _ _ _ h, shutDown]
    dsimp only
    split
    · exact htold.fatal rfl
    · exact (finishAll_keeps code htold).fatal rfl

theorem deviceStop_bridge : (deviceStop s code unit detail a0).bridge = s.bridge :=
  ((deviceStop_keeps (lv := true) code unit detail a0 (Keeps.refl s)).held rfl).bridge

end

/-! ### Runs of records -/

/-- Some records have been written, and nothing but them and their counters differs. -/
def noted (n : Nat) (s t : State) : Prop :=
  t = { s with blotter := t.blotter, telemetry := t.telemetry } ∧ (s.pins.pwrGood = true → t.blotter.head = s.blotter.head + n) ∧
    t.blotter.corrected = s.blotter.corrected ∧ t.blotter.reported = s.blotter.reported

theorem note_noted (s : State) (code unit : Nat) (stamp : Stamp) (a0 a1 a2 : Nat) : noted 1 s (note s code unit stamp a0 a1 a2) := by
  refine ⟨note_frame s code unit stamp a0 a1 a2, fun hg => (note_blotter s code unit stamp a0 a1 a2 hg).1, ?_⟩
  rw [note]
  split
  · exact ⟨rfl, rfl⟩
  · dsimp only
    split <;> exact ⟨rfl, rfl⟩

theorem noted.trans {m n : Nat} {s t u : State} (h : noted m s t) (k : noted n t u) : noted (m + n) s u := by
  obtain ⟨hframe, hhead, hcorrected, hreported⟩ := h
  obtain ⟨kframe, khead, kcorrected, kreported⟩ := k
  have hpins : t.pins = s.pins := by rw [hframe]
  refine ⟨?_, fun hg => ?_, kcorrected.trans hcorrected, kreported.trans hreported⟩
  · rw [kframe, hframe]
  · rw [khead (by rw [hpins]; exact hg), hhead hg, Nat.add_assoc]

theorem foldl_noted {α : Type} {f : State → α → State} (hf : ∀ s a, noted 1 s (f s a)) : ∀ (l : List α) (s : State), noted l.length s (l.foldl f s)
  | [], _ => ⟨rfl, fun _ => rfl, rfl, rfl⟩
  | a :: l, s => by
    rw [List.length_cons, Nat.add_comm]
    exact (hf s a).trans (foldl_noted hf l (f s a))

theorem length_insertBy {α : Type} (less : α → α → Bool) (x : α) : ∀ l : List α, (insertBy less x l).length = l.length + 1
  | [] => rfl
  | a :: l => by
    rw [insertBy]
    split
    · rfl
    · rw [List.length_cons, length_insertBy less x l, List.length_cons]

theorem length_sortBy {α : Type} (less : α → α → Bool) (l : List α) : (sortBy less l).length = l.length := by
  induction l with
  | nil => rfl
  | cons a l ih =>
    rw [sortBy] at ih ⊢
    rw [List.foldr_cons, length_insertBy, ih, List.length_cons]

theorem staleRecord_noted (s : State) (e : Nat × Nat × Nat) : noted 1 s (staleRecord s e) := by
  rw [staleRecord]
  split
  · exact note_noted _ _ _ _ _ _ _
  · exact note_noted _ _ _ _ _ _ _

/-- The discards since the last tick are written, one record for each unit. -/
theorem staleRecords_noted (s : State) : noted s.staleNotes.length { s with staleNotes := [] } (staleRecords s) := by
  rw [← length_sortBy (fun (a b : Nat × Nat × Nat) => decide (a.1 % 2 ^ 16 < b.1 % 2 ^ 16)) s.staleNotes]
  exact foldl_noted staleRecord_noted _ _

/-! ### Local stops -/

section
variable {s : State} {p : Part} {j : Job}

theorem exec_localStopTimeout_of_job (hj : s.parts[p].job = some j) :
    exec (.localStopTimeout p) s = .next (if s.live && j.stopped && !j.torn then teardown s p 2 else s) := by
  have hx : exec (.localStopTimeout p) s = execLocalStopTimeout p s := rfl
  rw [hx, execLocalStopTimeout, hj]

end

/-! ### Heartbeats -/

section
variable {s : State} {b : BitVec 16}

/-- The scribe cores' counters after a tick. -/
def beatsAfter (s : State) (b : BitVec 16) : Vector (Nat × Nat) 16 :=
  Vector.ofFn (fun (k : Fin 16) => beatTick s.errors.beats[k] (b.getLsbD k.val))

theorem beatsAfter_get (k : Fin 16) : (beatsAfter s b)[k] = beatTick s.errors.beats[k] (b.getLsbD k.val) := by
  simp [beatsAfter]

/-- The state in which a tick judges the cores. -/
def ticked (s : State) (b : BitVec 16) : State := staleRecords { s with errors := { s.errors with beats := beatsAfter s b } }

/-- A core that has missed two ticks stops the device (R484). -/
def stopMissing (v : Vector (Nat × Nat) 16) (s : State) (k : Nat) : State :=
  if 2 ≤ (v.toArray.getD k (0, 0)).2 then deviceStop s 0x201 (unitScribe k) k 0 else s

theorem exec_heartbeatTick_of_unsupervised (h : s.errors.supervised = false) : exec (.heartbeatTick b) s = .next s := by
  have hx : exec (.heartbeatTick b) s = execHeartbeatTick b s := rfl
  rw [hx, execHeartbeatTick, h, Bool.not_false, Bool.or_true, Bool.true_or, if_pos rfl]

theorem exec_heartbeatTick_of_supervised (hg : s.pins.pwrGood = true) (hs : s.errors.supervised = true) (ht : s.power.tripped = false) :
    exec (.heartbeatTick b) s = .next ((List.range 16).foldl (stopMissing (beatsAfter s b)) (ticked s b)) := by
  have hx : exec (.heartbeatTick b) s = execHeartbeatTick b s := rfl
  rw [hx, execHeartbeatTick, if_neg (by rw [hg, hs, ht]; decide)]
  rfl

theorem getD_beats (v : Vector (Nat × Nat) 16) (k : Fin 16) : v.toArray.getD k.val (0, 0) = v[k] := by
  simp [Array.getD]

theorem foldl_stopMissing_of_none {v : Vector (Nat × Nat) 16} (h : ∀ k : Fin 16, v[k].2 < 2) (s : State) :
    (List.range 16).foldl (stopMissing v) s = s :=
  List.foldlRecOn (List.range 16) (motive := fun u => u = s) (stopMissing v) rfl fun u hu k hk => by
    have hbeat := h ⟨k, List.mem_range.mp hk⟩
    rw [← getD_beats] at hbeat
    exact (if_neg (Nat.not_le.mpr hbeat)).trans hu

theorem foldl_stopMissing_stays (v : Vector (Nat × Nat) 16) (l : List Nat) {s : State} (h : s.errors.fatal = true) :
    (l.foldl (stopMissing v) s).errors.fatal = true :=
  List.foldlRecOn l (motive := fun u : State => u.errors.fatal = true) (stopMissing v) h fun u hu k _ => by
    rw [stopMissing]
    split
    · exact deviceStop_fatal _ _ _ _
    · exact hu

theorem foldl_stopMissing_of_some {v : Vector (Nat × Nat) 16} {k : Fin 16} (h : 2 ≤ v[k].2) (s : State) :
    ((List.range 16).foldl (stopMissing v) s).errors.fatal = true := by
  obtain ⟨before, after, hsplit⟩ := List.append_of_mem (List.mem_range.mpr k.isLt)
  rw [← getD_beats] at h
  rw [hsplit, List.foldl_append, List.foldl_cons]
  refine foldl_stopMissing_stays v after ?_
  rw [stopMissing, if_pos h]
  exact deviceStop_fatal _ _ _ _

/-- What a tick without a core that misses two leaves. -/
theorem ticked_spec (hg : s.pins.pwrGood = true) : let t := ticked s b
    (∀ k : Fin 16, t.errors.beats[k] = if b.getLsbD k.val then (s.errors.beats[k].1 + 1, 0) else (s.errors.beats[k].1, s.errors.beats[k].2 + 1)) ∧
      t.staleNotes = [] ∧ t.blotter.head = s.blotter.head + s.staleNotes.length ∧
      t = { s with errors := { s.errors with beats := t.errors.beats }, staleNotes := [], blotter := t.blotter, telemetry := t.telemetry } := by
  obtain ⟨hframe, hhead, -⟩ := staleRecords_noted { s with errors := { s.errors with beats := beatsAfter s b } }
  have hbeats : (ticked s b).errors.beats = beatsAfter s b := congrArg (fun u : State => u.errors.beats) hframe
  refine ⟨fun k => ?_, congrArg State.staleNotes hframe, hhead hg, ?_⟩
  · rw [hbeats]
    exact beatsAfter_get k
  · rw [hbeats]
    exact hframe

theorem beatTick_of_seen {x : Nat × Nat} {c : Bool} (h : c = true ∨ x.2 = 0) : (beatTick x c).2 < 2 := by
  rw [beatTick]
  split
  · exact Nat.zero_lt_two
  · next hc =>
    rw [h.resolve_left hc]
    exact Nat.one_lt_two

end

/-! ### The summary of a second -/

/-- The reports of a second are over. -/
def summed (s : State) : State := { s with blotter := { s.blotter with corrected := [], reported := [] } }

/-- The record of one unit's corrected errors. -/
def summaryNote (s : State) (e : Nat × Nat) : State := note s 0x70 e.1 0 e.2 0 0

theorem exec_ceSummary (s : State) : exec .ceSummary s =
    .next ((sortBy (fun (a b : Nat × Nat) => decide (a.1 < b.1)) s.blotter.corrected).foldl summaryNote (summed s)) := rfl

theorem ceSummary_spec (s : State) : ∃ t, exec .ceSummary s = .next t ∧ t.blotter.corrected = [] ∧ t.blotter.reported = [] ∧
    (s.pins.pwrGood = true → t.blotter.head = s.blotter.head + s.blotter.corrected.length) ∧
    t = { s with blotter := t.blotter, telemetry := t.telemetry } := by
  obtain ⟨hframe, hhead, hcorrected, hreported⟩ := foldl_noted (f := summaryNote) (fun s e => note_noted _ _ _ _ _ _ _)
    (sortBy (fun (a b : Nat × Nat) => decide (a.1 < b.1)) s.blotter.corrected) (summed s)
  rw [length_sortBy] at hhead
  exact ⟨_, exec_ceSummary s, hcorrected, hreported, hhead, hframe⟩

/-! ### The patrol scrubber -/

section
variable {s : State} {n : Stack} {e : Ecc}

/-- The state with the scrubber of a stack at the next unit. -/
def scrubbed (s : State) (n : Stack) : State :=
  { s with scrub := s.scrub.set n ((s.scrub[n] + 1) % (visibleUnits + Config.reservedUnits)) }

theorem exec_scrub_of_busy (h : scrubTurn s n = false) : exec (.scrub n e) s = .next s := by
  have hx : exec (.scrub n e) s = execScrub n e s := rfl
  rw [hx, execScrub, h, Bool.not_false, if_pos rfl]

theorem exec_scrub_of_turn (h : scrubTurn s n = true) : exec (.scrub n e) s = .next (scrubUnit (scrubbed s n) n s.scrub[n] e) := by
  have hx : exec (.scrub n e) s = execScrub n e s := rfl
  rw [hx, execScrub, h]
  rfl

theorem scrubUnit_of_clean (s : State) (n : Stack) (at_ : Nat) : scrubUnit s n at_ .clean = s := by
  rw [scrubUnit]
  split <;> rfl

theorem scrubUnit_of_corrected (s : State) (n : Stack) (at_ : Nat) :
    scrubUnit s n at_ .corrected = correctedError (bump s 0x10 n.val 1) (unitHbm n.val) := by
  rw [scrubUnit]
  split <;> rfl

/-- A unit of the device itself that cannot be corrected stops the device. -/
theorem scrubUnit_of_reserved {at_ : Nat} (h : visibleUnits ≤ at_) (s : State) (n : Stack) :
    scrubUnit s n at_ .uncorrectable = deviceStop (bump s 0x11 n.val 1) 0x205 (unitHbm n.val) n.val (at_ * 32) := by
  rw [scrubUnit, if_neg (Nat.not_lt.mpr h)]

theorem scrubUnit_of_visible {at_ : Nat} (h : at_ < visibleUnits) (s : State) (n : Stack) :
    scrubUnit s n at_ .uncorrectable = hbmPoisoned s n.val (unitLocal s n.val at_) := by
  rw [scrubUnit, if_pos h]
  rfl

end

/-! ### Cages -/

section
variable {s : State} {p : FPort}

/-- A port with its cage switched. -/
def caged (on : Bool) (x : FabricPort) : FabricPort := { x with cageOn := on }

theorem exec_cageOverCurrent_of_off (h : s.fabric[p].cageOn = false) : exec (.cageOverCurrent p) s = .next s := by
  have hx : exec (.cageOverCurrent p) s = execCageOverCurrent p s := rfl
  rw [hx, execCageOverCurrent, h, Bool.and_false, Bool.not_false, if_pos rfl]

theorem exec_cableReseat_of_on (h : s.fabric[p].cageOn = true) : exec (.cableReseat p) s = .next s := by
  have hx : exec (.cableReseat p) s = execCableReseat p s := rfl
  rw [hx, execCableReseat, h, Bool.not_true, Bool.and_false, Bool.not_false, if_pos rfl]

section
variable (hg : s.pins.pwrGood = true) (hp : 8 ≤ p.val)
include hg hp

theorem exec_cageOverCurrent_of_on (h : s.fabric[p].cageOn = true) : exec (.cageOverCurrent p) s =
    .next (if s.fabric[p].state == .down || s.fabric[p].state == .failed then updFabric s p (caged false)
      else linkDownReport (portDown (updFabric s p (caged false)) p .down) p 0) := by
  have hx : exec (.cageOverCurrent p) s = execCageOverCurrent p s := rfl
  rw [hx, execCageOverCurrent, if_neg (by rw [hg, h, decide_eq_true hp]; decide)]
  rfl

theorem exec_cableReseat_of_off (h : s.fabric[p].cageOn = false) :
    exec (.cableReseat p) s = .next (startTraining (updFabric s p (caged true)) p) := by
  have hx : exec (.cableReseat p) s = execCableReseat p s := rfl
  rw [hx, execCableReseat, if_neg (by rw [hg, h, decide_eq_true hp]; decide)]
  rfl

/-- A cage that draws too much is off, and its port is down or stays failed. -/
theorem cageOverCurrent_spec (h : s.fabric[p].cageOn = true) : ∃ t, exec (.cageOverCurrent p) s = .next t ∧ t.fabric[p].cageOn = false ∧
    t.fabric[p].state = (if s.fabric[p].state = .failed then .failed else .down) ∧ relinks s t p := by
  have hexec := exec_cageOverCurrent_of_on hg hp h
  by_cases hd : (s.fabric[p].state == .down || s.fabric[p].state == .failed) = true
  · rw [if_pos hd] at hexec
    refine ⟨_, hexec, ?_, ?_, updFabric_relinks _ _ _⟩
    · rw [updFabric_same]
      rfl
    · rw [updFabric_same, caged]
      dsimp only
      rcases Bool.or_eq_true_iff.mp hd with hd | hd
      · rw [eq_of_beq hd, if_neg (by decide)]
      · rw [eq_of_beq hd, if_pos rfl]
  · rw [if_neg hd] at hexec
    obtain ⟨hport, hrest⟩ := portDown_at (updFabric s p (caged false)) p .down (.inl rfl)
    have htold := linkDownReport_tells (portDown (updFabric s p (caged false)) p .down) p 0
    have hfabric := congrArg (fun v : Vector FabricPort 16 => v[p]) htold.fabric_eq
    have hstate : s.fabric[p].state ≠ .failed := fun k => hd (by rw [k]; rfl)
    refine ⟨_, hexec, ?_, ?_, ((updFabric_relinks _ _ _).trans hrest).trans (htold.relinks p)⟩
    · refine (congrArg FabricPort.cageOn (hfabric.trans hport)).trans ?_
      rw [updFabric_same]
      rfl
    · rw [if_neg hstate]
      exact congrArg FabricPort.state (hfabric.trans hport)

/-- A cage powered again, whose port trains where it may. -/
theorem cableReseat_spec (h : s.fabric[p].cageOn = false) : ∃ t, exec (.cableReseat p) s = .next t ∧ t.fabric[p].cageOn = true ∧
    (s.live = true → domainOn s (fportDomain p.val) = true → s.settings.fportEnable.getLsbD p.val = true → s.fabric[p].state = .down →
      t.fabric[p].state = .detect) ∧ relinks s t p := by
  have hexec := exec_cableReseat_of_off hg hp h
  have hcage : (updFabric s p (caged true)).fabric[p] = caged true s.fabric[p] := updFabric_same _ _ _
  by_cases hm : (mayTrain (updFabric s p (caged true)) p && (updFabric s p (caged true)).fabric[p].state == .down) = true
  · rw [startTraining, if_pos hm] at hexec
    refine ⟨_, hexec, ?_, fun _ _ _ _ => ?_, (updFabric_relinks _ _ _).trans (updFabric_relinks _ _ _)⟩
    · rw [updFabric_same, hcage]
      rfl
    · rw [updFabric_same]
  · rw [startTraining, if_neg hm] at hexec
    refine ⟨_, hexec, ?_, fun hl hd he hdown => absurd ?_ hm, updFabric_relinks _ _ _⟩
    · rw [hcage]
      rfl
    · have hmay : mayTrain (updFabric s p (caged true)) p = (s.live && domainOn s (fportDomain p.val) && s.settings.fportEnable.getLsbD p.val &&
          (updFabric s p (caged true)).fabric[p].cageOn) := rfl
      rw [hmay, hl, hd, he, hcage, caged, hdown]
      rfl

end

end

/-! ### Bridges and the CPB -/

section
variable {s : State} {q : Quad} {b : Byte}

/-- The failures in a row of a bridge's flit; whether a failure is of the same flit is a free value. -/
def bridgeFails (s : State) (q : Quad) : Nat := if 0 < s.bridge[q] ∧ Config.freeNat s.fresh % 2 = 1 then s.bridge[q] + 1 else 1

/-- The state with a bridge's failure counted. -/
def bridged (s : State) (q : Quad) : State := { s with fresh := s.fresh + 1, bridge := s.bridge.set q (bridgeFails s q) }

theorem exec_bridgeLinkCrcFail_of_live (hl : s.live = true) : exec (.bridgeLinkCrcFail q) s =
    .next (if 17 ≤ bridgeFails s q then deviceStop (bridged s q) 0x204 (unitQuad q.val 2) q.val 0
      else containedError (bridged s q) 0x142 (unitQuad q.val 2) 0 q.val) := by
  have hx : exec (.bridgeLinkCrcFail q) s = execBridgeLinkCrcFail q s := rfl
  rw [hx, execBridgeLinkCrcFail, hl]
  rfl

theorem bridgeFails_cases (s : State) (q : Quad) : bridgeFails s q = 1 ∨ bridgeFails s q = s.bridge[q] + 1 := by
  unfold bridgeFails
  split
  · exact .inr rfl
  · exact .inl rfl

theorem bridgeFails_of_first (h : s.bridge[q] = 0) : bridgeFails s q = 1 := if_neg fun k => absurd k.1 (by rw [h]; decide)

theorem bridged_same : (bridged s q).bridge[q] = bridgeFails s q := by simp [bridged]

theorem bridged_other {r : Quad} (h : r ≠ q) : (bridged s q).bridge[r] = s.bridge[r] := by
  have hne : ¬((q : Nat) = (r : Nat)) := fun k => h (Fin.ext k.symm)
  simp [bridged, Vector.getElem_set_ne _ _ hne]

/-- What a state with the bridges of a counted failure holds. -/
theorem bridge_spec {t : State} (ht : t.bridge = (bridged s q).bridge) : (t.bridge[q] = 1 ∨ t.bridge[q] = s.bridge[q] + 1) ∧
    (s.bridge[q] = 0 → t.bridge[q] = 1) ∧ (∀ r : Quad, r ≠ q → t.bridge[r] = s.bridge[r]) ∧ t.bridge[q] = bridgeFails s q := by
  rw [ht, bridged_same]
  exact ⟨bridgeFails_cases s q, bridgeFails_of_first, fun _ hr => bridged_other hr, rfl⟩

theorem tells.bridge_eq {s t : State} (h : tells s t) : t.bridge = s.bridge := by
  unfold tells at h
  rw [h]

theorem tells.fresh_eq {s t : State} (h : tells s t) : t.fresh = s.fresh := by
  unfold tells at h
  rw [h]

theorem tells_of_bridged {t : State} (h : tells (bridged s q) t) : tells { s with bridge := t.bridge, fresh := t.fresh } t := by
  rw [h.bridge_eq, h.fresh_eq]
  exact h

theorem bridgeLinkCrcFail_spec (hl : s.live = true) : ∃ t, exec (.bridgeLinkCrcFail q) s = .next t ∧
    (t.bridge[q] = 1 ∨ t.bridge[q] = s.bridge[q] + 1) ∧ (s.bridge[q] = 0 → t.bridge[q] = 1) ∧ (∀ r : Quad, r ≠ q → t.bridge[r] = s.bridge[r]) ∧
    (17 ≤ t.bridge[q] → t.errors.fatal = true) ∧ (t.bridge[q] < 17 → tells { s with bridge := t.bridge, fresh := t.fresh } t) := by
  have hexec := exec_bridgeLinkCrcFail_of_live (q := q) hl
  by_cases hmany : 17 ≤ bridgeFails s q
  · rw [if_pos hmany] at hexec
    obtain ⟨hcases, hfirst, hothers, hfails⟩ := bridge_spec (deviceStop_bridge (s := bridged s q) 0x204 (unitQuad q.val 2) q.val 0)
    refine ⟨_, hexec, hcases, hfirst, hothers, fun _ => deviceStop_fatal _ _ _ _, fun hfew => ?_⟩
    rw [hfails] at hfew
    exact absurd hmany (Nat.not_le.mpr hfew)
  · rw [if_neg hmany] at hexec
    have htold := containedError_tells (bridged s q) 0x142 (unitQuad q.val 2) 0 q.val
    obtain ⟨hcases, hfirst, hothers, hfails⟩ := bridge_spec htold.bridge_eq
    refine ⟨_, hexec, hcases, hfirst, hothers, fun hfew => ?_, fun _ => tells_of_bridged htold⟩
    rw [hfails] at hfew
    exact absurd hfew hmany

theorem exec_cpbFault_of_on (hg : s.pins.pwrGood = true) (hb : 2 ≤ s.boot.beat) (ht : s.power.tripped = false) :
    exec (.cpbFault b) s = .next (deviceStop s 0x206 (unitCpb b.toNat) b.toNat 0) := by
  have hx : exec (.cpbFault b) s = execCpbFault b s := rfl
  rw [hx, execCpbFault, hg, ht, decide_eq_true hb]
  rfl

theorem exec_cpbFault_of_off (h : s.pins.pwrGood = false ∨ s.boot.beat < 2 ∨ s.power.tripped = true) : exec (.cpbFault b) s = .next s := by
  have hx : exec (.cpbFault b) s = execCpbFault b s := rfl
  rw [hx, execCpbFault]
  refine congrArg Host.Outcome.next (if_neg ?_)
  rcases h with h | h | h
  · simp [h]
  · simp [Nat.not_le.mpr h]
  · simp [h]

end

/-! ### The statement -/

/-- Settles O60: each timer and each fault by its own lemma; a device stop leaves the device stopped, whatever came before it. -/
theorem errorTimersAct : Obligations.ErrorTimersAct := by
  unfold Obligations.ErrorTimersAct
  intro s
  refine ⟨fun p j hj => ⟨fun hl hs ht => ?_, fun h => ?_⟩, fun b => ⟨exec_heartbeatTick_of_unsupervised, fun hg hs ht => ⟨fun hseen => ?_, ?_⟩⟩,
    ceSummary_spec s, fun n e => ⟨exec_scrub_of_busy, fun hturn => ?_⟩,
    fun p hg hp => ⟨cageOverCurrent_spec hg hp, cableReseat_spec hg hp, exec_cageOverCurrent_of_off, exec_cableReseat_of_on⟩,
    fun q hl => bridgeLinkCrcFail_spec hl, fun b => ⟨fun hg hb ht => ?_, exec_cpbFault_of_off⟩⟩
  · rw [exec_localStopTimeout_of_job hj, hl, hs, ht]
    rfl
  · rw [exec_localStopTimeout_of_job hj, if_neg]
    rcases h with h | h | h <;> simp [h]
  · have hexec := exec_heartbeatTick_of_supervised (b := b) hg hs ht
    rw [foldl_stopMissing_of_none fun k => by rw [beatsAfter_get]; exact beatTick_of_seen (hseen k)] at hexec
    exact ⟨_, hexec, ticked_spec hg⟩
  · rintro ⟨k, hmissed, hbefore⟩
    refine ⟨_, exec_heartbeatTick_of_supervised hg hs ht, foldl_stopMissing_of_some (k := k) ?_ _⟩
    rw [beatsAfter_get, beatTick, hmissed, if_neg Bool.false_ne_true]
    exact Nat.succ_le_succ hbefore
  · have hexec := exec_scrub_of_turn (e := e) hturn
    refine ⟨fun he => ?_, fun he => ?_, fun he hreserved => ?_, fun he hvisible => ?_⟩
    · rw [hexec, he, scrubUnit_of_clean]
      rfl
    · rw [hexec, he, scrubUnit_of_corrected]
      rfl
    · rw [he, scrubUnit_of_reserved hreserved] at hexec
      exact ⟨_, he ▸ hexec, deviceStop_fatal _ _ _ _⟩
    · rw [hexec, he, scrubUnit_of_visible hvisible]
      rfl
  · exact ⟨_, exec_cpbFault_of_on hg hb ht, deviceStop_fatal _ _ _ _⟩

end Sys2Proof.Machine
end
